-- ==== Sys2Proof/Word.lean ====
section
/-! DEFINITION. The plainest arithmetic of the model: values are naturals held below a power of two,
signed values are integers, and every narrowing is written out here. -/

namespace Sys2Proof

/-- A 16-bit word of the internal bus (R6). -/
abbrev Word := BitVec 16

/-- One byte of addressed memory. -/
abbrev Byte := BitVec 8

/-- Bit `n` of `v`. -/
def bitOf (v n : Nat) : Bool := v.testBit n

/-- Bits `[lo + wd - 1 : lo]` of `v`. -/
def bitsOf (v lo wd : Nat) : Nat := (v >>> lo) % 2 ^ wd

/-- `1` for true, as a one-bit field reads. -/
def b2n (b : Bool) : Nat := if b then 1 else 0

/-- The `w`-bit value `v` read as two's complement. -/
def sx (w v : Nat) : Int :=
  if v % 2 ^ w < 2 ^ (w - 1) then (v % 2 ^ w : Nat) else (v % 2 ^ w : Nat) - (2 ^ w : Nat)

/-- An integer narrowed to `w` bits, two's complement. -/
def unI (w : Nat) (x : Int) : Nat := (x % (2 ^ w : Nat)).toNat

/-- `x` held within `[lo, hi]`. -/
def clampI (lo hi x : Int) : Int := if x < lo then lo else if hi < x then hi else x

/-- `x` held within the signed `w`-bit range. -/
def satS (w : Nat) (x : Int) : Int := clampI (-(2 ^ (w - 1) : Nat)) ((2 ^ (w - 1) : Nat) - 1) x

/-- `x` held within the unsigned `w`-bit range. -/
def satU (w : Nat) (x : Nat) : Nat := if x < 2 ^ w then x else 2 ^ w - 1

/-- An arithmetic right shift, rounding toward minus infinity. -/
def asr (x : Int) (n : Nat) : Int := x / (2 ^ n : Nat)

/-- `v` with the byte positions of `mask` taken from `x`. -/
def mergeMask (v x mask : Nat) : Nat := (v &&& (0xFFFFFFFF ^^^ mask)) ||| (x &&& mask)

end Sys2Proof
end

