-- ==== Sys2Proof/Machine/RegMap.lean ====
section
/-! DEFINITION. Every register field of the register index (R536 to R551), from the field tables of the chapters.
A field is named REGISTER_FIELD as the manual names it; a register is named as the manual names it.
`lay` says where each field lies in its register; an array of like fields in one register is one field with
`sub` instances. The docstring names the rule whose table gives the field. -/

namespace Sys2Proof.Machine

/-- Access types (R7). -/
inductive Acc where
  | rw | ro | w1c | wo | rwo | lk
  deriving DecidableEq, Repr

/-- The narrowest reset class that resets a field (R9, R551). -/
inductive RCls where
  /-- COLD only -/
  | cold
  /-- COLD and WARM -/
  | warm
  /-- COLD, WARM and ISLAND -/
  | island
  /-- no reset class: OTP, MRAM, key store, fixed or live values -/
  | never
  deriving DecidableEq, Repr

/-- How the reset value depends on the instance. -/
inductive Rst where
  /-- the same at every instance -/
  | all (n : Nat)
  /-- even and odd instances differ (R193) -/
  | evenOdd (e o : Nat)
  /-- instance 0 alone has a value other than 0 (R429) -/
  | first (n : Nat)
  /-- the PROT response of source `i mod 16` (R194) -/
  | resp
  deriving DecidableEq, Repr

/-- One field: `wd` bits, its access, reset value and reset class, and how many like fields share one register. -/
structure Fld where
  id : Nat
  wd : Nat
  acc : Acc
  rst : Rst
  cls : RCls
  sub : Nat
  deriving DecidableEq, Repr

/-- Reset responses of the sixteen protection sources (R194). -/
def respReset (s : Nat) : Nat :=
  if s = 3 ∨ s = 8 ∨ s = 9 ∨ s = 11 then 0b001 else 0b100

/-- The reset value of instance `i`. -/
def Fld.reset (f : Fld) (i : Nat) : Nat :=
  match f.rst with
  | .all n => n
  | .evenOdd e o => if i % 2 = 0 then e else o
  | .first n => if i = 0 then n else 0
  | .resp => respReset (i % 16)

/-- The key of instance `i` of a field in the register store. -/
def Fld.key (f : Fld) (i : Nat) : Nat := f.id + 4096 * i

/-- The field number and the instance of a key. -/
def keyId (k : Nat) : Nat := k % 4096
def keyInst (k : Nat) : Nat := k / 4096

/-- One register: the islands that hold it (22 is the global block), its byte offset, the two instance strides
with their counts per island, and where its fields lie. -/
structure Reg where
  id : Nat
  isl : List Nat
  off : Nat
  stride : Nat
  cnt : Nat
  stride2 : Nat
  cnt2 : Nat
  lay : List (Nat × Fld × Nat)
  deriving DecidableEq, Repr

namespace F

/-- R538 -/ def GL_DEVID_PART : Fld := ⟨0, 16, .ro, .all 0x1280, .never, 1⟩
/-- R538 -/ def GL_DEVID_VARIANT : Fld := ⟨1, 4, .ro, .all 0, .never, 1⟩
/-- R538 -/ def GL_DEVID_STEP : Fld := ⟨2, 8, .ro, .all 0xb0, .never, 1⟩
/-- R538 -/ def GPIO_RAW_GPIO : Fld := ⟨3, 32, .ro, .all 0, .never, 1⟩
/-- R255 -/ def GL_GSEQ_NEXT : Fld := ⟨4, 31, .ro, .all 0, .cold, 1⟩
/-- R255 -/ def GL_CMDQ_USED : Fld := ⟨5, 9, .ro, .all 0, .cold, 1⟩
/-- R302 -/ def GL_RSTCTL_WARM : Fld := ⟨6, 1, .wo, .all 0, .warm, 1⟩
/-- R302 -/ def GL_RSTCTL_CORE : Fld := ⟨7, 8, .wo, .all 0, .warm, 1⟩
/-- R302 -/ def GL_ISLRST_ISL : Fld := ⟨8, 21, .wo, .all 0, .warm, 1⟩
/-- R302 -/ def GL_RSTCAUSE_POR : Fld := ⟨9, 1, .ro, .all 0, .never, 1⟩
/-- R302 -/ def GL_RSTCAUSE_PIN : Fld := ⟨10, 1, .ro, .all 0, .never, 1⟩
/-- R302 -/ def GL_RSTCAUSE_PLOSS : Fld := ⟨11, 1, .ro, .all 0, .never, 1⟩
/-- R302 -/ def GL_RSTCAUSE_OFFEXIT : Fld := ⟨12, 1, .ro, .all 0, .never, 1⟩
/-- R302 -/ def GL_RSTCAUSE_FW : Fld := ⟨13, 1, .ro, .all 0, .never, 1⟩
/-- R302 -/ def GL_RSTCAUSE_HOST : Fld := ⟨14, 1, .ro, .all 0, .never, 1⟩
/-- R302 -/ def GL_RSTCAUSE_DBG : Fld := ⟨15, 1, .ro, .all 0, .never, 1⟩
/-- R302 -/ def GL_RSTCAUSE_LC : Fld := ⟨16, 1, .ro, .all 0, .never, 1⟩
/-- R302 -/ def GL_BOOTOPT_SPLIT : Fld := ⟨17, 1, .ro, .all 0, .warm, 1⟩
/-- R302 -/ def GL_BOOTOPT_BCEN : Fld := ⟨18, 1, .ro, .all 0, .warm, 1⟩
/-- R302 -/ def GL_BOOTOPT_HALT : Fld := ⟨19, 1, .ro, .all 0, .warm, 1⟩
/-- R302 -/ def GL_BOOTOPT_STRAPEN : Fld := ⟨20, 1, .ro, .all 0, .warm, 1⟩
/-- R302 -/ def GL_BOOTSTAT_STAGE : Fld := ⟨21, 4, .ro, .all 0, .warm, 1⟩
/-- R302 -/ def GL_BOOTSTAT_BANK : Fld := ⟨22, 1, .ro, .all 0, .warm, 1⟩
/-- R302 -/ def GL_BOOTSTAT_FALLBACK : Fld := ⟨23, 1, .ro, .all 0, .warm, 1⟩
/-- R302 -/ def GL_BOOTSTAT_XTALFAIL : Fld := ⟨24, 1, .ro, .all 0, .warm, 1⟩
/-- R302 -/ def GL_BOOTSTAT_BAD : Fld := ⟨25, 2, .ro, .all 0, .warm, 1⟩
/-- R302 -/ def GL_BCSTAT_STARTED : Fld := ⟨26, 8, .ro, .all 0, .warm, 1⟩
/-- R302 -/ def GL_BCSTAT_SKIP : Fld := ⟨27, 8, .ro, .all 0, .warm, 1⟩
/-- R302 -/ def GL_BCSTAT_DONE : Fld := ⟨28, 8, .ro, .all 0, .warm, 1⟩
/-- R302 -/ def GL_WAKEVEC_VEC : Fld := ⟨29, 32, .rw, .all 0, .cold, 1⟩
/-- R302 -/ def GL_WAKECTL_EN : Fld := ⟨30, 1, .rw, .all 0, .cold, 1⟩
/-- R302 -/ def GL_WIPESTAT_WIPING : Fld := ⟨31, 22, .ro, .all 0, .warm, 1⟩
/-- R403 -/ def EF_CH_SRC : Fld := ⟨32, 9, .rw, .all 0x1ff, .cold, 1⟩
/-- R403 -/ def EF_CH_LVL : Fld := ⟨33, 1, .ro, .all 0, .cold, 1⟩
/-- R403 -/ def EF_LUTA_IN : Fld := ⟨34, 8, .rw, .all 0, .cold, 4⟩
/-- R403 -/ def EF_LUTB_TT : Fld := ⟨35, 16, .rw, .all 0, .cold, 1⟩
/-- R403 -/ def EF_LUTB_INEN : Fld := ⟨36, 4, .rw, .all 0, .cold, 1⟩
/-- R403 -/ def EF_LUTB_PULSE : Fld := ⟨37, 1, .rw, .all 0, .cold, 1⟩
/-- R403 -/ def EF_LUTB_OUT : Fld := ⟨38, 1, .ro, .all 0, .cold, 1⟩
/-- R403 -/ def EF_FF_D : Fld := ⟨39, 8, .rw, .all 0, .cold, 1⟩
/-- R403 -/ def EF_FF_CLK : Fld := ⟨40, 8, .rw, .all 0, .cold, 1⟩
/-- R403 -/ def EF_FF_SET : Fld := ⟨41, 8, .rw, .all 0, .cold, 1⟩
/-- R403 -/ def EF_FF_CLR : Fld := ⟨42, 8, .rw, .all 0, .cold, 1⟩
/-- R403 -/ def EF_FFCFG_EN : Fld := ⟨43, 4, .rw, .all 0, .cold, 1⟩
/-- R403 -/ def EF_FFCFG_T : Fld := ⟨44, 1, .rw, .all 0, .cold, 1⟩
/-- R403 -/ def EF_FFCFG_INIT : Fld := ⟨45, 1, .rw, .all 0, .cold, 1⟩
/-- R403 -/ def EF_FFCFG_CLKFALL : Fld := ⟨46, 1, .rw, .all 0, .cold, 1⟩
/-- R403 -/ def EF_FFCFG_Q : Fld := ⟨47, 1, .ro, .all 0, .cold, 1⟩
/-- R403 -/ def EF_FFCFG_OVR : Fld := ⟨48, 8, .ro, .all 0, .cold, 1⟩
/-- R403 -/ def EF_FLTA_IN : Fld := ⟨49, 8, .rw, .all 0, .cold, 1⟩
/-- R403 -/ def EF_FLTA_EN : Fld := ⟨50, 1, .rw, .all 0, .cold, 1⟩
/-- R403 -/ def EF_FLTA_FALL : Fld := ⟨51, 1, .rw, .all 0, .cold, 1⟩
/-- R403 -/ def EF_FLTA_MODE : Fld := ⟨52, 2, .rw, .all 0, .cold, 1⟩
/-- R403 -/ def EF_FLTA_N : Fld := ⟨53, 12, .rw, .all 1, .cold, 1⟩
/-- R403 -/ def EF_FLTB_OUT : Fld := ⟨54, 1, .ro, .all 0, .cold, 1⟩
/-- R403 -/ def EF_FLTB_OVR : Fld := ⟨55, 8, .ro, .all 0, .cold, 1⟩
/-- R403 -/ def EF_WCFG_CH : Fld := ⟨56, 8, .rw, .all 0, .cold, 1⟩
/-- R403 -/ def EF_WCFG_EN : Fld := ⟨57, 1, .rw, .all 0, .cold, 1⟩
/-- R403 -/ def EF_WCFG_FALL : Fld := ⟨58, 1, .rw, .all 0, .cold, 1⟩
/-- R403 -/ def EF_WCFG_COUNT : Fld := ⟨59, 16, .ro, .all 0, .cold, 1⟩
/-- R403 -/ def EF_WFLAG_FLAG : Fld := ⟨60, 32, .w1c, .all 0, .cold, 1⟩
/-- R403 -/ def EF_SWEV_SW : Fld := ⟨61, 32, .wo, .all 0, .cold, 1⟩
/-- R403 -/ def EF_ERR_LOOP : Fld := ⟨62, 1, .w1c, .all 0, .cold, 1⟩
/-- R403 -/ def EF_ERR_BADVAL : Fld := ⟨63, 1, .w1c, .all 0, .cold, 1⟩
/-- R403 -/ def EF_ERR_LOOPCH : Fld := ⟨64, 8, .ro, .all 0, .cold, 1⟩
/-- R225 -/ def HI_CTL_ERRVEC : Fld := ⟨65, 6, .rw, .all 0, .island, 1⟩
/-- R225 -/ def HI_CTL_ERRIEN : Fld := ⟨66, 1, .rw, .all 0, .island, 1⟩
/-- R225 -/ def HI_STAT_SPEED : Fld := ⟨67, 3, .ro, .all 0, .island, 1⟩
/-- R225 -/ def HI_STAT_WIDTH : Fld := ⟨68, 4, .ro, .all 0, .island, 1⟩
/-- R225 -/ def HI_STAT_FLIT : Fld := ⟨69, 1, .ro, .all 0, .island, 1⟩
/-- R225 -/ def HI_STAT_DLUP : Fld := ⟨70, 1, .ro, .all 0, .island, 1⟩
/-- R225 -/ def HI_STAT_L1 : Fld := ⟨71, 1, .ro, .all 0, .island, 1⟩
/-- R225 -/ def HI_STAT_BME : Fld := ⟨72, 1, .ro, .all 0, .island, 1⟩
/-- R225 -/ def HI_STAT_D3 : Fld := ⟨73, 1, .ro, .all 0, .island, 1⟩
/-- R225 -/ def HI_ERR_ISLAND_OFF : Fld := ⟨74, 1, .w1c, .all 0, .island, 1⟩
/-- R225 -/ def HI_ERR_ISLAND_TIMEOUT : Fld := ⟨75, 1, .w1c, .all 0, .island, 1⟩
/-- R225 -/ def HI_ERR_BADLEN : Fld := ⟨76, 1, .w1c, .all 0, .island, 1⟩
/-- R225 -/ def HI_ERR_DBOFF : Fld := ⟨77, 1, .w1c, .all 0, .island, 1⟩
/-- R225 -/ def HI_ERR_LINKRST : Fld := ⟨78, 1, .w1c, .all 0, .island, 1⟩
/-- R225 -/ def HI_ERR_FLR : Fld := ⟨79, 1, .w1c, .all 0, .island, 1⟩
/-- R225 -/ def HI_ERR_EVTBLOCK : Fld := ⟨80, 1, .w1c, .all 0, .island, 1⟩
/-- R225 -/ def HI_ERRADDR_OFFSET : Fld := ⟨81, 20, .ro, .all 0, .island, 1⟩
/-- R225 -/ def HI_ERRADDR_BAR : Fld := ⟨82, 1, .ro, .all 0, .island, 1⟩
/-- R225 -/ def HI_ERRADDR_VALID : Fld := ⟨83, 1, .ro, .all 0, .island, 1⟩
/-- R225 -/ def HI_LINKCAP_MAXSPEED : Fld := ⟨84, 3, .lk, .all 6, .island, 1⟩
/-- R225 -/ def HI_LINKCAP_MAXWIDTH : Fld := ⟨85, 4, .lk, .all 8, .island, 1⟩
/-- R225 -/ def HI_LINKCAP_LOCK : Fld := ⟨86, 1, .rwo, .all 0, .island, 1⟩
/-- R225 -/ def HI_TXRSV_PHDR : Fld := ⟨87, 8, .rw, .all 8, .island, 1⟩
/-- R225 -/ def HI_TXRSV_PDATA : Fld := ⟨88, 16, .rw, .all 0x800, .island, 1⟩
/-- R225 -/ def HI_PTMCFG_INTERVAL : Fld := ⟨89, 16, .rw, .all 0x3e8, .island, 1⟩
/-- R199 -/ def MSIX_ADDR_LO_V : Fld := ⟨90, 32, .rw, .all 0, .island, 1⟩
/-- R199 -/ def MSIX_ADDR_HI_V : Fld := ⟨91, 32, .rw, .all 0, .island, 1⟩
/-- R199 -/ def MSIX_DATA_V : Fld := ⟨92, 32, .rw, .all 0, .island, 1⟩
/-- R199 -/ def MSIX_CTRL_MASK : Fld := ⟨93, 1, .rw, .all 1, .island, 1⟩
/-- R225 -/ def MSIX_PBA_PBA : Fld := ⟨94, 32, .ro, .all 0, .island, 1⟩
/-- R226 -/ def RING_CFG_TYPE : Fld := ⟨95, 2, .rw, .all 0, .warm, 1⟩
/-- R226 -/ def RING_CFG_SIZE : Fld := ⟨96, 4, .rw, .all 4, .warm, 1⟩
/-- R226 -/ def RING_CFG_VEC : Fld := ⟨97, 6, .rw, .all 0, .warm, 1⟩
/-- R226 -/ def RING_CFG_FETCHMAX : Fld := ⟨98, 4, .rw, .all 0, .warm, 1⟩
/-- R226 -/ def RING_CFG_LOCAL : Fld := ⟨99, 1, .rw, .all 0, .warm, 1⟩
/-- R226 -/ def RING_BASE_LO_BASE_LO : Fld := ⟨100, 20, .rw, .all 0, .warm, 1⟩
/-- R226 -/ def RING_BASE_HI_BASE_HI : Fld := ⟨101, 32, .rw, .all 0, .warm, 1⟩
/-- R226 -/ def RING_CTL_EN : Fld := ⟨102, 1, .rw, .all 0, .warm, 1⟩
/-- R226 -/ def RING_CTL_RESUME : Fld := ⟨103, 1, .wo, .all 0, .warm, 1⟩
/-- R226 -/ def RING_CTL_RESET : Fld := ⟨104, 1, .wo, .all 0, .warm, 1⟩
/-- R226 -/ def RING_STAT_STATE : Fld := ⟨105, 3, .ro, .all 0, .warm, 1⟩
/-- R226 -/ def RING_STAT_PENDING : Fld := ⟨106, 13, .ro, .all 0, .warm, 1⟩
/-- R226 -/ def RING_HEAD_HEAD : Fld := ⟨107, 12, .ro, .all 0, .warm, 1⟩
/-- R226 -/ def RING_TAIL_TAIL : Fld := ⟨108, 12, .ro, .all 0, .warm, 1⟩
/-- R226 -/ def RING_DONE_DONE : Fld := ⟨109, 12, .ro, .all 0, .warm, 1⟩
/-- R226 -/ def RING_ERR_OWN : Fld := ⟨110, 1, .w1c, .all 0, .warm, 1⟩
/-- R226 -/ def RING_ERR_DBRANGE : Fld := ⟨111, 1, .w1c, .all 0, .warm, 1⟩
/-- R226 -/ def RING_ERR_FETCH : Fld := ⟨112, 1, .w1c, .all 0, .warm, 1⟩
/-- R226 -/ def RING_ERR_CFG : Fld := ⟨113, 1, .w1c, .all 0, .warm, 1⟩
/-- R226 -/ def RING_ERR_LINKRST : Fld := ⟨114, 1, .w1c, .all 0, .warm, 1⟩
/-- R226 -/ def RING_ERR_RESTART : Fld := ⟨115, 1, .w1c, .all 0, .warm, 1⟩
/-- R226 -/ def RING_ICOAL_COUNT : Fld := ⟨116, 8, .rw, .all 1, .warm, 1⟩
/-- R226 -/ def RING_ICOAL_TIME : Fld := ⟨117, 16, .rw, .all 0, .warm, 1⟩
/-- R226 -/ def RING_SEQ_SEQ : Fld := ⟨118, 32, .ro, .all 0, .cold, 1⟩
/-- R226 -/ def RING_GAPS_DROPPED : Fld := ⟨119, 32, .ro, .all 0, .cold, 1⟩
/-- R226 -/ def RING_ABN_ABANDONED : Fld := ⟨120, 16, .ro, .all 0, .warm, 1⟩
/-- R227 -/ def RING_ROUTE_FAULT : Fld := ⟨121, 4, .rw, .all 0, .warm, 1⟩
/-- R227 -/ def RING_ROUTE_OUTCOME : Fld := ⟨122, 4, .rw, .all 0, .warm, 1⟩
/-- R227 -/ def RING_ROUTE_EVENT : Fld := ⟨123, 4, .rw, .all 0, .warm, 1⟩
/-- R227 -/ def RING_ROUTE_TELEM : Fld := ⟨124, 4, .rw, .all 0, .warm, 1⟩
/-- R227 -/ def RING_TELCFG_PERIOD : Fld := ⟨125, 16, .rw, .all 0, .warm, 1⟩
/-- R227 -/ def RING_TELMASK_RAILS : Fld := ⟨126, 24, .rw, .all 0, .warm, 1⟩
/-- R227 -/ def RING_BUFSTAT_USED : Fld := ⟨127, 10, .ro, .all 0, .warm, 1⟩
/-- R227 -/ def RING_BUFSTAT_BLOCKED : Fld := ⟨128, 1, .ro, .all 0, .warm, 1⟩
/-- R227 -/ def RING_BUFSTAT_BLKRING : Fld := ⟨129, 4, .ro, .all 0, .warm, 1⟩
/-- R378 -/ def BL_CFG_EN : Fld := ⟨130, 1, .rw, .all 0, .island, 1⟩
/-- R378 -/ def BL_CFG_TBFOLLOW : Fld := ⟨131, 1, .rw, .all 1, .island, 1⟩
/-- R378 -/ def BL_CTL_HANDOVER : Fld := ⟨132, 1, .wo, .all 0, .island, 1⟩
/-- R378 -/ def BL_CTL_REFUSE : Fld := ⟨133, 1, .wo, .all 0, .island, 1⟩
/-- R378 -/ def BL_CTL_RESYNC : Fld := ⟨134, 1, .wo, .all 0, .island, 1⟩
/-- R378 -/ def BL_STAT_ROLE : Fld := ⟨135, 2, .ro, .all 0, .island, 1⟩
/-- R378 -/ def BL_STAT_OWN : Fld := ⟨136, 1, .ro, .all 0, .island, 1⟩
/-- R378 -/ def BL_STAT_KAIN : Fld := ⟨137, 1, .ro, .all 0, .island, 1⟩
/-- R378 -/ def BL_STAT_LINKUP : Fld := ⟨138, 1, .ro, .all 0, .island, 1⟩
/-- R378 -/ def BL_STAT_SYNC : Fld := ⟨139, 1, .ro, .all 0, .island, 1⟩
/-- R378 -/ def BL_STAT_PARTNER : Fld := ⟨140, 2, .ro, .all 0, .island, 1⟩
/-- R378 -/ def BL_STAT_SEL : Fld := ⟨141, 1, .ro, .all 0, .never, 1⟩
/-- R378 -/ def BL_STAT_UPD : Fld := ⟨142, 2, .ro, .all 0, .never, 1⟩
/-- R378 -/ def BL_STAT_PUPD : Fld := ⟨143, 2, .ro, .all 0, .island, 1⟩
/-- R378 -/ def BL_ERR_VARIANT : Fld := ⟨144, 1, .w1c, .all 0, .island, 1⟩
/-- R378 -/ def BL_ERR_SELCONF : Fld := ⟨145, 1, .w1c, .all 0, .island, 1⟩
/-- R378 -/ def BL_ERR_COMPAT : Fld := ⟨146, 1, .w1c, .all 0, .island, 1⟩
/-- R378 -/ def BL_ERR_PADMODE : Fld := ⟨147, 1, .w1c, .all 0, .island, 1⟩
/-- R378 -/ def BL_ERR_CFGDIFF : Fld := ⟨148, 1, .w1c, .all 0, .island, 1⟩
/-- R378 -/ def BL_ERR_TBSKEW : Fld := ⟨149, 1, .w1c, .all 0, .island, 1⟩
/-- R378 -/ def BL_ERR_RETRY : Fld := ⟨150, 1, .w1c, .all 0, .island, 1⟩
/-- R378 -/ def BL_ERR_LINKLOST : Fld := ⟨151, 1, .w1c, .all 0, .island, 1⟩
/-- R378 -/ def BL_ERR_NOTSYNC : Fld := ⟨152, 1, .w1c, .all 0, .island, 1⟩
/-- R378 -/ def BL_ERR_REFUSED : Fld := ⟨153, 1, .w1c, .all 0, .island, 1⟩
/-- R378 -/ def BL_ERR_ROLECHG : Fld := ⟨154, 1, .w1c, .all 0, .island, 1⟩
/-- R378 -/ def BL_IEN_IEN : Fld := ⟨155, 11, .rw, .all 0, .island, 1⟩
/-- R378 -/ def BL_EPOCH_EPOCH : Fld := ⟨156, 32, .ro, .all 0, .island, 1⟩
/-- R378 -/ def BL_CNT_TORN : Fld := ⟨157, 16, .ro, .all 0, .island, 1⟩
/-- R378 -/ def BL_CNT_HBMISS : Fld := ⟨158, 16, .ro, .all 0, .island, 1⟩
/-- R378 -/ def BL_RTT_RTT : Fld := ⟨159, 16, .ro, .all 0, .island, 1⟩
/-- R378 -/ def BL_RTT_RETRIES : Fld := ⟨160, 16, .ro, .all 0, .island, 1⟩
/-- R378 -/ def BL_TKO_LO_T_LO : Fld := ⟨161, 32, .ro, .all 0, .cold, 1⟩
/-- R378 -/ def BL_TKO_HI_T_HI : Fld := ⟨162, 32, .ro, .all 0, .cold, 1⟩
/-- R378 -/ def BL_CFGSIG_SIG : Fld := ⟨163, 32, .ro, .all 0, .island, 1⟩
/-- R378 -/ def BL_PCFGSIG_SIG : Fld := ⟨164, 32, .ro, .all 0, .island, 1⟩
/-- R378 -/ def BL_PVER_ROMVER : Fld := ⟨165, 16, .ro, .all 0, .island, 1⟩
/-- R378 -/ def BL_PVER_CLASS : Fld := ⟨166, 16, .ro, .all 0, .island, 1⟩
/-- R58 -/ def RSC_CFG_EN : Fld := ⟨167, 1, .rw, .all 0, .island, 1⟩
/-- R58 -/ def RSC_CFG_MODE : Fld := ⟨168, 2, .rw, .all 0, .island, 1⟩
/-- R58 -/ def RSC_CFG_REFSEL : Fld := ⟨169, 2, .rw, .all 0, .island, 1⟩
/-- R58 -/ def RSC_CFG_CORR_FRZ : Fld := ⟨170, 1, .rw, .all 0, .island, 1⟩
/-- R59 -/ def RSC_SLOT_SLOT : Fld := ⟨171, 2, .rw, .all 0, .island, 8⟩
/-- R59 -/ def RSC_STAT_REFRDY : Fld := ⟨172, 1, .ro, .all 0, .island, 1⟩
/-- R59 -/ def RSC_STAT_CONV_OFS : Fld := ⟨173, 1, .ro, .all 0, .island, 1⟩
/-- R59 -/ def RSC_STAT_CONV_GAIN : Fld := ⟨174, 1, .ro, .all 0, .island, 1⟩
/-- R59 -/ def RSC_STAT_CONV_SKEW : Fld := ⟨175, 1, .ro, .all 0, .island, 1⟩
/-- R59 -/ def RSC_STAT_CONV : Fld := ⟨176, 1, .ro, .all 0, .island, 1⟩
/-- R59 -/ def RSC_STAT_FIRSTUSE : Fld := ⟨177, 1, .ro, .all 1, .island, 1⟩
/-- R59 -/ def RSC_STAT_SLICE_FLT : Fld := ⟨178, 8, .ro, .all 0, .island, 1⟩
/-- R59 -/ def RSC_ERR_CLIP : Fld := ⟨179, 1, .w1c, .all 0, .island, 1⟩
/-- R59 -/ def RSC_ERR_REFBUSY : Fld := ⟨180, 1, .w1c, .all 0, .island, 1⟩
/-- R59 -/ def RSC_ERR_SLOTBUSY : Fld := ⟨181, 1, .w1c, .all 0, .island, 1⟩
/-- R59 -/ def RSC_ERR_BADVAL : Fld := ⟨182, 1, .w1c, .all 0, .island, 1⟩
/-- R59 -/ def RSC_ERR_SLICE_NEW : Fld := ⟨183, 1, .w1c, .all 0, .island, 1⟩
/-- R59 -/ def RSC_ERR_REFLOST : Fld := ⟨184, 1, .w1c, .all 0, .island, 1⟩
/-- R59 -/ def RSC_ERR_FRZBUSY : Fld := ⟨185, 1, .w1c, .all 0, .island, 1⟩
/-- R59 -/ def RSC_DACNOW_CODE : Fld := ⟨186, 18, .ro, .all 0, .island, 1⟩
/-- R59 -/ def RSC_SWCFG_SWSRC : Fld := ⟨187, 2, .rw, .all 0, .island, 1⟩
/-- R59 -/ def RSC_SWCFG_SWDIV : Fld := ⟨188, 16, .rw, .all 0x3e7, .island, 1⟩
/-- R59 -/ def RSC_SWRES_RESULT : Fld := ⟨189, 16, .ro, .all 0, .island, 1⟩
/-- R59 -/ def RSC_SWRES_SRC : Fld := ⟨190, 2, .ro, .all 0, .island, 1⟩
/-- R59 -/ def RSC_SWRES_CLIPPED : Fld := ⟨191, 1, .ro, .all 0, .island, 1⟩
/-- R59 -/ def RSC_SWRES_UNSETTLED : Fld := ⟨192, 1, .ro, .all 0, .island, 1⟩
/-- R59 -/ def RSC_SWRES_OVR : Fld := ⟨193, 1, .ro, .all 0, .island, 1⟩
/-- R59 -/ def RSC_SWRES_NEW : Fld := ⟨194, 1, .ro, .all 0, .island, 1⟩
/-- R59 -/ def RSC_SWCNT_COUNT : Fld := ⟨195, 16, .ro, .all 0, .island, 1⟩
/-- R59 -/ def RSC_DIVR_RATIO : Fld := ⟨196, 16, .rw, .all 0x4000, .island, 1⟩
/-- R59 -/ def RSC_CORR_GAIN_GAIN : Fld := ⟨197, 16, .rw, .all 0, .island, 1⟩
/-- R59 -/ def RSC_CORR_OFS_OFS : Fld := ⟨198, 16, .rw, .all 0, .island, 1⟩
/-- R59 -/ def RSC_CORR_SKEW_SKEW : Fld := ⟨199, 16, .rw, .all 0, .island, 1⟩
/-- R193 -/ def PROT_VCFG_THR : Fld := ⟨200, 10, .rw, .evenOdd 0x3FF 0, .island, 1⟩
/-- R193 -/ def PROT_VCFG_EN : Fld := ⟨201, 1, .rw, .all 0, .island, 1⟩
/-- R193 -/ def PROT_VCFG_REL : Fld := ⟨202, 1, .rw, .all 0, .island, 1⟩
/-- R193 -/ def PROT_VCFG_K : Fld := ⟨203, 4, .rw, .all 3, .island, 1⟩
/-- R193 -/ def PROT_VCFG_W : Fld := ⟨204, 4, .rw, .all 5, .island, 1⟩
/-- R193 -/ def PROT_VSTAT_OUT : Fld := ⟨205, 1, .ro, .all 0, .island, 1⟩
/-- R193 -/ def PROT_VSTAT_ARMED : Fld := ⟨206, 1, .ro, .all 0, .island, 1⟩
/-- R193 -/ def PROT_VSTAT_TRIPPED : Fld := ⟨207, 1, .w1c, .all 0, .island, 1⟩
/-- R193 -/ def PROT_VSTAT_BADVAL : Fld := ⟨208, 1, .w1c, .all 0, .island, 1⟩
/-- R66 -/ def PCC_CFG_EN : Fld := ⟨209, 1, .rw, .all 0, .island, 1⟩
/-- R66 -/ def PCC_CFG_AZ_EN : Fld := ⟨210, 1, .rw, .all 1, .island, 1⟩
/-- R66 -/ def PCC_CFG_INV : Fld := ⟨211, 1, .rw, .all 0, .island, 1⟩
/-- R66 -/ def PCC_KA_KA : Fld := ⟨212, 24, .rw, .all 0xc8000, .island, 1⟩
/-- R66 -/ def PCC_OFS_OFS : Fld := ⟨213, 16, .rw, .all 0, .island, 1⟩
/-- R66 -/ def PCC_GTRIM_GTRIM : Fld := ⟨214, 16, .rw, .all 0, .island, 1⟩
/-- R66 -/ def PCC_SWRES_CURRENT : Fld := ⟨215, 24, .ro, .all 0, .island, 1⟩
/-- R66 -/ def PCC_SWRES_OVR : Fld := ⟨216, 1, .ro, .all 0, .island, 1⟩
/-- R66 -/ def PCC_SWRES_NEW : Fld := ⟨217, 1, .ro, .all 0, .island, 1⟩
/-- R66 -/ def PCC_ERR_CLIP : Fld := ⟨218, 1, .w1c, .all 0, .island, 1⟩
/-- R66 -/ def PCC_ERR_SAT : Fld := ⟨219, 1, .w1c, .all 0, .island, 1⟩
/-- R66 -/ def PCC_ERR_AZ_FAIL : Fld := ⟨220, 1, .w1c, .all 0, .island, 1⟩
/-- R66 -/ def PCC_SWCTL_SWDIV : Fld := ⟨221, 16, .rw, .all 0x3e7, .island, 1⟩
/-- R192 -/ def PROT_PCFG_THR : Fld := ⟨222, 10, .rw, .all 0x3ff, .island, 1⟩
/-- R192 -/ def PROT_PCFG_MODE : Fld := ⟨223, 2, .rw, .all 1, .island, 1⟩
/-- R192 -/ def PROT_PCFG_KLVL : Fld := ⟨224, 1, .rw, .all 0, .island, 1⟩
/-- R192 -/ def PROT_PCFG_SLOPE : Fld := ⟨225, 8, .rw, .all 0, .island, 1⟩
/-- R192 -/ def PROT_PBLK_BLANK : Fld := ⟨226, 8, .rw, .all 5, .island, 1⟩
/-- R192 -/ def PROT_PBLK_K : Fld := ⟨227, 4, .rw, .all 3, .island, 1⟩
/-- R192 -/ def PROT_PBLK_W : Fld := ⟨228, 4, .rw, .all 5, .island, 1⟩
/-- R192 -/ def PROT_PBLK_LIMCNT : Fld := ⟨229, 8, .rw, .all 8, .island, 1⟩
/-- R192 -/ def PROT_PSTAT_OUT : Fld := ⟨230, 1, .ro, .all 0, .island, 1⟩
/-- R192 -/ def PROT_PSTAT_KILL : Fld := ⟨231, 1, .ro, .all 0, .island, 1⟩
/-- R192 -/ def PROT_PSTAT_TRIPPED : Fld := ⟨232, 1, .w1c, .all 0, .island, 1⟩
/-- R192 -/ def PROT_PSTAT_LIMITED : Fld := ⟨233, 1, .w1c, .all 0, .island, 1⟩
/-- R192 -/ def PROT_PSTAT_LRUN : Fld := ⟨234, 4, .ro, .all 0, .island, 1⟩
/-- R192 -/ def PROT_PSTAT_BADVAL : Fld := ⟨235, 1, .w1c, .all 0, .island, 1⟩
/-- R192 -/ def PROT_PSTAT_LCOUNT : Fld := ⟨236, 16, .ro, .all 0, .island, 1⟩
/-- R105 -/ def LE_CTL_COMMIT : Fld := ⟨237, 1, .rw, .all 0, .island, 1⟩
/-- R105 -/ def LE_FORM_FORM : Fld := ⟨238, 4, .rw, .all 6, .island, 1⟩
/-- R105 -/ def LE_RATE_ROUNDS : Fld := ⟨239, 5, .rw, .all 0x10, .island, 1⟩
/-- R105 -/ def LE_RATE_ESHIFT : Fld := ⟨240, 3, .rw, .all 0, .island, 1⟩
/-- R105 -/ def LE_STAT_RUN : Fld := ⟨241, 1, .ro, .all 0, .island, 1⟩
/-- R105 -/ def LE_STAT_FROZEN : Fld := ⟨242, 1, .ro, .all 0, .island, 1⟩
/-- R105 -/ def LE_STAT_IACT : Fld := ⟨243, 1, .ro, .all 0, .island, 1⟩
/-- R105 -/ def LE_STAT_BLEND : Fld := ⟨244, 1, .ro, .all 0, .island, 1⟩
/-- R105 -/ def LE_STAT_BAND : Fld := ⟨245, 2, .ro, .all 0, .island, 1⟩
/-- R105 -/ def LE_STAT_CKDEPTH : Fld := ⟨246, 4, .ro, .all 0, .island, 1⟩
/-- R105 -/ def LE_STAT_ROUNDS_NOW : Fld := ⟨247, 5, .ro, .all 0x10, .island, 1⟩
/-- R105 -/ def LE_ERR_BADCFG : Fld := ⟨248, 1, .w1c, .all 0, .island, 1⟩
/-- R105 -/ def LE_ERR_INTENT : Fld := ⟨249, 1, .w1c, .all 0, .island, 1⟩
/-- R105 -/ def LE_ERR_CBUSY : Fld := ⟨250, 1, .w1c, .all 0, .island, 1⟩
/-- R105 -/ def LE_ERR_ISAT : Fld := ⟨251, 1, .w1c, .all 0, .island, 1⟩
/-- R105 -/ def LE_ERR_DSAT : Fld := ⟨252, 1, .w1c, .all 0, .island, 1⟩
/-- R105 -/ def LE_ERR_VIN : Fld := ⟨253, 1, .w1c, .all 0, .island, 1⟩
/-- R105 -/ def LE_ERR_ROMPAR : Fld := ⟨254, 1, .w1c, .all 0, .island, 1⟩
/-- R105 -/ def LE_TARGET_CODE : Fld := ⟨255, 18, .ro, .all 0, .island, 1⟩
/-- R105 -/ def LE_REFNOW_CODE : Fld := ⟨256, 18, .ro, .all 0, .island, 1⟩
/-- R105 -/ def LE_RAMP_STEP : Fld := ⟨257, 7, .rw, .all 8, .island, 1⟩
/-- R105 -/ def LE_LL_SLOPE : Fld := ⟨258, 24, .rw, .all 0, .island, 1⟩
/-- R105 -/ def LE_LL_TAU : Fld := ⟨259, 3, .rw, .all 0, .island, 1⟩
/-- R105 -/ def LE_LL_EN : Fld := ⟨260, 1, .rw, .all 0, .island, 1⟩
/-- R105 -/ def LE_NLGT_T1 : Fld := ⟨261, 16, .rw, .all 0xffff, .island, 1⟩
/-- R105 -/ def LE_NLGT_T2 : Fld := ⟨262, 16, .rw, .all 0xffff, .island, 1⟩
/-- R105 -/ def LE_NLGT2_T3 : Fld := ⟨263, 16, .rw, .all 0xffff, .island, 1⟩
/-- R105 -/ def LE_NLGT2_HYS : Fld := ⟨264, 16, .rw, .all 0, .island, 1⟩
/-- R105 -/ def LE_NLGG0_G0 : Fld := ⟨265, 16, .rw, .all 0x1000, .island, 1⟩
/-- R105 -/ def LE_NLGG0_G1 : Fld := ⟨266, 16, .rw, .all 0x1000, .island, 1⟩
/-- R105 -/ def LE_NLGG1_G2 : Fld := ⟨267, 16, .rw, .all 0x1000, .island, 1⟩
/-- R105 -/ def LE_NLGG1_G3 : Fld := ⟨268, 16, .rw, .all 0x1000, .island, 1⟩
/-- R105 -/ def LE_VIN_SRC : Fld := ⟨269, 6, .rw, .all 0, .island, 1⟩
/-- R105 -/ def LE_VIN_EN : Fld := ⟨270, 1, .rw, .all 0, .island, 1⟩
/-- R105 -/ def LE_VIN_VINK : Fld := ⟨271, 16, .rw, .all 0x100, .island, 1⟩
/-- R105 -/ def LE_DFF_DFF : Fld := ⟨272, 31, .rw, .all 0, .island, 1⟩
/-- R105 -/ def LE_DFFNOW_DFF : Fld := ⟨273, 31, .ro, .all 0, .island, 1⟩
/-- R105 -/ def LE_CMDNOW_CMD : Fld := ⟨274, 32, .ro, .all 0, .island, 1⟩
/-- R105 -/ def LE_CALCFG_PHASE : Fld := ⟨275, 7, .rw, .all 0, .island, 1⟩
/-- R105 -/ def LE_CALCFG_PULSE : Fld := ⟨276, 16, .rw, .all 0, .island, 1⟩
/-- R105 -/ def LE_CALCFG_EVERY : Fld := ⟨277, 8, .rw, .all 0, .island, 1⟩
/-- R105 -/ def LE_CALRES_SUM : Fld := ⟨278, 24, .ro, .all 0, .island, 1⟩
/-- R105 -/ def LE_CALRES_COUNT : Fld := ⟨279, 8, .ro, .all 0, .island, 1⟩
/-- R254 -/ def LE_RSTATE_RSTATE : Fld := ⟨280, 4, .ro, .all 0, .cold, 1⟩
/-- R254 -/ def LE_RSTATE_QDEPTH : Fld := ⟨281, 9, .ro, .all 0, .cold, 1⟩
/-- R254 -/ def LE_RSTATE_GATE : Fld := ⟨282, 1, .ro, .all 0, .cold, 1⟩
/-- R254 -/ def LE_RSEQ_NEXT : Fld := ⟨283, 32, .ro, .all 0, .cold, 1⟩
/-- R254 -/ def LE_RLAST_LAST : Fld := ⟨284, 32, .ro, .all 0xffffffff, .cold, 1⟩
/-- R105 -/ def LE_UCODE_VER_ROMVER : Fld := ⟨285, 16, .ro, .all 0xb02, .island, 1⟩
/-- R105 -/ def LE_UCODE_VER_FORM : Fld := ⟨286, 4, .ro, .all 6, .island, 1⟩
/-- R105 -/ def LE_UCODE_VER_FORMSET : Fld := ⟨287, 8, .ro, .all 0xfe, .island, 1⟩
/-- R105 -/ def LE_COEF_VALUE : Fld := ⟨288, 32, .rw, .all 0, .island, 1⟩
/-- R106 -/ def LE_BAL_TRIM : Fld := ⟨289, 16, .rw, .all 0, .island, 1⟩
/-- R106 -/ def LE_BALCFG_STEP : Fld := ⟨290, 8, .rw, .all 0x10, .island, 1⟩
/-- R194 -/ def PROT_RRESP : Fld := ⟨291, 3, .rw, .resp, .island, 16⟩
/-- R194 -/ def PROT_RCFG_OVLVL : Fld := ⟨292, 1, .rw, .all 0, .island, 1⟩
/-- R194 -/ def PROT_RCFG_KHOLD : Fld := ⟨293, 8, .rw, .all 0xa, .island, 1⟩
/-- R194 -/ def PROT_RCFG_HICMAX : Fld := ⟨294, 4, .rw, .all 3, .island, 1⟩
/-- R194 -/ def PROT_RCFG_ESCTO : Fld := ⟨295, 1, .rw, .all 1, .island, 1⟩
/-- R194 -/ def PROT_RCFG_ESCN : Fld := ⟨296, 4, .rw, .all 4, .island, 1⟩
/-- R194 -/ def PROT_RTIME_HICTIME : Fld := ⟨297, 16, .rw, .all 0x2710, .island, 1⟩
/-- R194 -/ def PROT_RTIME_TOFF : Fld := ⟨298, 16, .rw, .all 0x3e8, .island, 1⟩
/-- R194 -/ def PROT_RESC_ESCDEC : Fld := ⟨299, 16, .rw, .all 0x64, .island, 1⟩
/-- R194 -/ def PROT_RESC_ESCCNT : Fld := ⟨300, 4, .ro, .all 0, .island, 1⟩
/-- R194 -/ def PROT_DLIM0_IPHLIM : Fld := ⟨301, 18, .rw, .all 0x1ffff, .island, 1⟩
/-- R194 -/ def PROT_DLIM1_INEG : Fld := ⟨302, 18, .rw, .all 0x1ffff, .island, 1⟩
/-- R194 -/ def PROT_DLIM2_ISUMLIM : Fld := ⟨303, 24, .rw, .all 0x7fffff, .island, 1⟩
/-- R194 -/ def PROT_DLIM2_ISUMCNT : Fld := ⟨304, 4, .rw, .all 1, .island, 1⟩
/-- R194 -/ def PROT_DLIM3_EOVLIM : Fld := ⟨305, 16, .rw, .all 0xffff, .island, 1⟩
/-- R194 -/ def PROT_DLIM3_EUVLIM : Fld := ⟨306, 16, .rw, .all 0xffff, .island, 1⟩
/-- R194 -/ def PROT_DLIM4_ECNT : Fld := ⟨307, 4, .rw, .all 4, .island, 1⟩
/-- R194 -/ def PROT_DLIM4_DSATCNT : Fld := ⟨308, 8, .rw, .all 0, .island, 1⟩
/-- R194 -/ def PROT_HKLIM_ENTRY : Fld := ⟨309, 6, .rw, .all 0, .island, 1⟩
/-- R194 -/ def PROT_HKLIM_EN : Fld := ⟨310, 1, .rw, .all 0, .island, 1⟩
/-- R194 -/ def PROT_HKVAL_HI : Fld := ⟨311, 16, .rw, .all 0xffff, .island, 1⟩
/-- R194 -/ def PROT_HKVAL_LO : Fld := ⟨312, 16, .rw, .all 0, .island, 1⟩
/-- R194 -/ def PROT_RFLT_FIRST : Fld := ⟨313, 5, .ro, .all 0, .cold, 1⟩
/-- R194 -/ def PROT_RFLT_LATCHED : Fld := ⟨314, 1, .ro, .all 0, .cold, 1⟩
/-- R194 -/ def PROT_RFLT_HICCUP : Fld := ⟨315, 1, .ro, .all 0, .cold, 1⟩
/-- R194 -/ def PROT_RFLT_ESC : Fld := ⟨316, 1, .ro, .all 0, .cold, 1⟩
/-- R194 -/ def PROT_RFLT_RETRIES : Fld := ⟨317, 4, .ro, .all 0, .cold, 1⟩
/-- R194 -/ def PROT_RFLT_CAUSE : Fld := ⟨318, 16, .ro, .all 0, .cold, 1⟩
/-- R194 -/ def PROT_RHIST_SEEN : Fld := ⟨319, 16, .w1c, .all 0, .island, 1⟩
/-- R194 -/ def PROT_RFTS_LO_T_LO : Fld := ⟨320, 32, .ro, .all 0, .cold, 1⟩
/-- R194 -/ def PROT_RFTS_HI_T_HI : Fld := ⟨321, 32, .ro, .all 0, .cold, 1⟩
/-- R194 -/ def PROT_RCLR_CLR : Fld := ⟨322, 1, .wo, .all 0, .island, 1⟩
/-- R194 -/ def PROT_RPH_LANES : Fld := ⟨323, 32, .ro, .all 0, .cold, 1⟩
/-- R194 -/ def PROT_RCNT_TRIPS : Fld := ⟨324, 16, .ro, .all 0, .island, 1⟩
/-- R194 -/ def PROT_RCNT_FAULTS : Fld := ⟨325, 16, .ro, .all 0, .island, 1⟩
/-- R194 -/ def PROT_RIEN_IEN : Fld := ⟨326, 16, .rw, .all 0, .island, 1⟩
/-- R195 -/ def PROT_ERR_BADVAL : Fld := ⟨327, 1, .w1c, .all 0, .island, 1⟩
/-- R195 -/ def PROT_ERR_CLRREF : Fld := ⟨328, 1, .w1c, .all 0, .island, 1⟩
/-- R195 -/ def PROT_ERR_CLRBUSY : Fld := ⟨329, 1, .w1c, .all 0, .island, 1⟩
/-- R137 -/ def FC_CFG_EN : Fld := ⟨330, 1, .rw, .all 0, .island, 1⟩
/-- R137 -/ def FC_CFG_STATCLR : Fld := ⟨331, 1, .wo, .all 0, .island, 1⟩
/-- R137 -/ def FC_ERR_TPLBUSY : Fld := ⟨332, 1, .w1c, .all 0, .island, 1⟩
/-- R137 -/ def FC_ERR_BADVAL : Fld := ⟨333, 1, .w1c, .all 0, .island, 1⟩
/-- R137 -/ def FC_ERR_REFUSED : Fld := ⟨334, 1, .w1c, .all 0, .island, 1⟩
/-- R137 -/ def FC_OCC_COUNT : Fld := ⟨335, 8, .ro, .all 0, .island, 1⟩
/-- R141 -/ def HINT_ACKCFG_PW : Fld := ⟨336, 4, .rw, .all 1, .island, 1⟩
/-- R137 -/ def FC_RAILA_SPH : Fld := ⟨337, 16, .rw, .all 0, .island, 1⟩
/-- R137 -/ def FC_RAILA_NMAX : Fld := ⟨338, 6, .rw, .all 0, .island, 1⟩
/-- R137 -/ def FC_RAILA_IEN : Fld := ⟨339, 1, .rw, .all 0, .island, 1⟩
/-- R137 -/ def FC_RAILB_IPHMAX : Fld := ⟨340, 16, .rw, .all 0, .island, 1⟩
/-- R137 -/ def FC_RAILB_TPHADD : Fld := ⟨341, 16, .rw, .all 0, .island, 1⟩
/-- R137 -/ def FC_RAILC_RBSLEW : Fld := ⟨342, 16, .rw, .all 0, .island, 1⟩
/-- R137 -/ def FC_RAILC_XMAX : Fld := ⟨343, 16, .rw, .all 0, .island, 1⟩
/-- R137 -/ def FC_RAILD_COUT : Fld := ⟨344, 24, .rw, .all 0, .island, 1⟩
/-- R137 -/ def FC_RSTAT_INFLIGHT : Fld := ⟨345, 4, .ro, .all 0, .island, 1⟩
/-- R137 -/ def FC_RSTAT_LASTOUT : Fld := ⟨346, 3, .ro, .all 0, .island, 1⟩
/-- R137 -/ def FC_RSTAT_FSEQ : Fld := ⟨347, 16, .ro, .all 0, .cold, 1⟩
/-- R138 -/ def FC_TPLA_EN : Fld := ⟨348, 1, .rw, .all 0, .island, 1⟩
/-- R138 -/ def FC_TPLA_RAIL : Fld := ⟨349, 5, .rw, .all 0, .island, 1⟩
/-- R138 -/ def FC_TPLA_CONF : Fld := ⟨350, 8, .rw, .all 0, .island, 1⟩
/-- R138 -/ def FC_TPLB_STEP : Fld := ⟨351, 16, .rw, .all 0, .island, 1⟩
/-- R138 -/ def FC_TPLB_ADV : Fld := ⟨352, 10, .rw, .all 0, .island, 1⟩
/-- R138 -/ def FC_TPLC_RISE : Fld := ⟨353, 16, .rw, .all 0, .island, 1⟩
/-- R138 -/ def FC_TPLC_FALL : Fld := ⟨354, 16, .rw, .all 0, .island, 1⟩
/-- R138 -/ def FC_TPLD_DWELL : Fld := ⟨355, 16, .rw, .all 0, .island, 1⟩
/-- R138 -/ def FC_TPLD_CWIN : Fld := ⟨356, 11, .rw, .all 0x28, .island, 1⟩
/-- R138 -/ def FC_TPLE_TOLI : Fld := ⟨357, 16, .rw, .all 0, .island, 1⟩
/-- R138 -/ def FC_TPLE_TOLD : Fld := ⟨358, 16, .rw, .all 0, .island, 1⟩
/-- R138 -/ def FC_TPLF_TLEAD : Fld := ⟨359, 15, .rw, .all 0x28, .island, 1⟩
/-- R138 -/ def FC_TPLG_PCEN : Fld := ⟨360, 1, .rw, .all 0, .island, 1⟩
/-- R138 -/ def FC_TPLG_PCCH : Fld := ⟨361, 2, .rw, .all 0, .island, 1⟩
/-- R138 -/ def FC_TPLG_PCLVL : Fld := ⟨362, 4, .rw, .all 0, .island, 1⟩
/-- R138 -/ def FC_TPLG_PCHOLD : Fld := ⟨363, 16, .rw, .all 0, .island, 1⟩
/-- R139 -/ def FC_TSTAT_HIT_HIT : Fld := ⟨364, 32, .ro, .all 0, .island, 1⟩
/-- R139 -/ def FC_TSTAT_MISS_MISS : Fld := ⟨365, 32, .ro, .all 0, .island, 1⟩
/-- R139 -/ def FC_TSTAT_ABORT_ABORT : Fld := ⟨366, 32, .ro, .all 0, .island, 1⟩
/-- R139 -/ def FC_TSTAT_REFUSE_REFUSE : Fld := ⟨367, 32, .ro, .all 0, .island, 1⟩
/-- R140 -/ def FC_ENTA_STATE : Fld := ⟨368, 3, .ro, .all 0, .island, 1⟩
/-- R140 -/ def FC_ENTA_LATE : Fld := ⟨369, 1, .ro, .all 0, .island, 1⟩
/-- R140 -/ def FC_ENTA_CAPPED : Fld := ⟨370, 1, .ro, .all 0, .island, 1⟩
/-- R140 -/ def FC_ENTA_SRC : Fld := ⟨371, 1, .ro, .all 0, .island, 1⟩
/-- R140 -/ def FC_ENTA_SRCIDX : Fld := ⟨372, 5, .ro, .all 0, .island, 1⟩
/-- R140 -/ def FC_ENTA_RAIL : Fld := ⟨373, 5, .ro, .all 0, .island, 1⟩
/-- R140 -/ def FC_ENTB_FID : Fld := ⟨374, 16, .ro, .all 0, .island, 1⟩
/-- R140 -/ def FC_ENTB_FSEQ : Fld := ⟨375, 16, .ro, .all 0, .island, 1⟩
/-- R140 -/ def FC_ENTC_START_LO : Fld := ⟨376, 32, .ro, .all 0, .island, 1⟩
/-- R140 -/ def FC_ENTD_START_HI : Fld := ⟨377, 32, .ro, .all 0, .island, 1⟩
/-- R141 -/ def HINT_CFG_EN : Fld := ⟨378, 1, .rw, .all 0, .island, 1⟩
/-- R141 -/ def HINT_CFG_EDGE : Fld := ⟨379, 2, .rw, .all 1, .island, 1⟩
/-- R141 -/ def HINT_CFG_TPL : Fld := ⟨380, 5, .rw, .all 0, .island, 1⟩
/-- R141 -/ def HINT_CFG_ACK : Fld := ⟨381, 2, .rw, .all 0, .island, 1⟩
/-- R141 -/ def HINT_CFG_ACKEN : Fld := ⟨382, 1, .rw, .all 0, .island, 1⟩
/-- R141 -/ def HINT_CFG_HOLDOFF : Fld := ⟨383, 16, .rw, .all 0, .island, 1⟩
/-- R141 -/ def HINT_CNT_ACCEPTED : Fld := ⟨384, 16, .ro, .all 0, .island, 1⟩
/-- R141 -/ def HINT_CNT_IGNORED : Fld := ⟨385, 16, .ro, .all 0, .island, 1⟩
/-- R166 -/ def PW_BIND_EN : Fld := ⟨386, 1, .rw, .all 0, .island, 1⟩
/-- R166 -/ def PW_BIND_RAIL : Fld := ⟨387, 5, .rw, .all 0, .island, 1⟩
/-- R166 -/ def PW_BIND_LANE : Fld := ⟨388, 5, .rw, .all 0, .island, 1⟩
/-- R166 -/ def PW_EDGE_DUTY : Fld := ⟨389, 24, .ro, .all 0, .island, 1⟩
/-- R166 -/ def PW_EDGE_LVL : Fld := ⟨390, 2, .ro, .all 2, .island, 1⟩
/-- R166 -/ def PW_PHSTAT_STATE : Fld := ⟨391, 3, .ro, .all 0, .island, 1⟩
/-- R166 -/ def PW_PHSTAT_XG : Fld := ⟨392, 1, .ro, .all 0, .island, 1⟩
/-- R166 -/ def PW_PHSTAT_LIM : Fld := ⟨393, 1, .w1c, .all 0, .island, 1⟩
/-- R166 -/ def PW_PHSTAT_KSRC : Fld := ⟨394, 5, .ro, .all 0, .island, 1⟩
/-- R166 -/ def PW_PHSTAT_RANK : Fld := ⟨395, 5, .ro, .all 0, .island, 1⟩
/-- R166 -/ def PW_PHSTAT_DTNOW : Fld := ⟨396, 8, .ro, .all 0, .island, 1⟩
/-- R167 -/ def PW_RAILCFG_MOD : Fld := ⟨397, 2, .rw, .all 0, .island, 1⟩
/-- R167 -/ def PW_RAILCFG_FASTON : Fld := ⟨398, 1, .rw, .all 0, .island, 1⟩
/-- R167 -/ def PW_RAILCFG_DE : Fld := ⟨399, 1, .rw, .all 0, .island, 1⟩
/-- R167 -/ def PW_RAILCFG_MIDDRV : Fld := ⟨400, 1, .rw, .all 0, .island, 1⟩
/-- R167 -/ def PW_RAILCFG_BOOT : Fld := ⟨401, 8, .rw, .all 0, .island, 1⟩
/-- R167 -/ def PW_PER_PER : Fld := ⟨402, 20, .rw, .all 0x7d000, .island, 1⟩
/-- R167 -/ def PW_RAILPH_PH : Fld := ⟨403, 20, .rw, .all 0, .island, 1⟩
/-- R167 -/ def PW_TLIM_TONMIN : Fld := ⟨404, 16, .rw, .all 0x200, .island, 1⟩
/-- R167 -/ def PW_TLIM_TOFFMIN : Fld := ⟨405, 16, .rw, .all 0xa00, .island, 1⟩
/-- R167 -/ def PW_DT_DTHL : Fld := ⟨406, 10, .rw, .all 0, .island, 1⟩
/-- R167 -/ def PW_DT_DTLH : Fld := ⟨407, 10, .rw, .all 0, .island, 1⟩
/-- R167 -/ def PW_DTA_DTK : Fld := ⟨408, 8, .rw, .all 0, .island, 1⟩
/-- R167 -/ def PW_DTA_DTMIN : Fld := ⟨409, 10, .rw, .all 0, .island, 1⟩
/-- R167 -/ def PW_DTA_ADT : Fld := ⟨410, 1, .rw, .all 0, .island, 1⟩
/-- R167 -/ def PW_ZC_ZCTHR : Fld := ⟨411, 18, .rw, .all 0, .island, 1⟩
/-- R167 -/ def PW_NREQ_NREQ : Fld := ⟨412, 6, .rw, .all 0, .island, 1⟩
/-- R167 -/ def PW_ENCFG_ENDLY : Fld := ⟨413, 16, .rw, .all 0x64, .island, 1⟩
/-- R167 -/ def PW_ENCFG_OFFDLY : Fld := ⟨414, 16, .rw, .all 0x64, .island, 1⟩
/-- R167 -/ def PW_KSEL_KL : Fld := ⟨415, 8, .rw, .all 0, .island, 1⟩
/-- R167 -/ def PW_KSEL_KACT : Fld := ⟨416, 1, .rw, .all 0, .island, 1⟩
/-- R167 -/ def PW_RSTAT_NNOW : Fld := ⟨417, 6, .ro, .all 0, .island, 1⟩
/-- R167 -/ def PW_RSTAT_NREQ : Fld := ⟨418, 6, .ro, .all 0, .island, 1⟩
/-- R167 -/ def PW_RSTAT_NBOUND : Fld := ⟨419, 6, .ro, .all 0, .island, 1⟩
/-- R167 -/ def PW_RSTAT_RAILEN : Fld := ⟨420, 1, .ro, .all 0, .island, 1⟩
/-- R167 -/ def PW_RSTAT_REBASE : Fld := ⟨421, 1, .ro, .all 0, .island, 1⟩
/-- R167 -/ def PW_SHEDMAX_SHEDMAX : Fld := ⟨422, 16, .rw, .all 0x3e8, .island, 1⟩
/-- R168 -/ def PW_CTL_BCOMMIT : Fld := ⟨423, 1, .rw, .all 0, .island, 1⟩
/-- R168 -/ def PW_CTL_RCOMMIT : Fld := ⟨424, 12, .rw, .all 0, .island, 1⟩
/-- R168 -/ def PW_ERR_BINDLIM : Fld := ⟨425, 1, .w1c, .all 0, .island, 1⟩
/-- R168 -/ def PW_ERR_XGLIM : Fld := ⟨426, 1, .w1c, .all 0, .island, 1⟩
/-- R168 -/ def PW_ERR_LANEDUP : Fld := ⟨427, 1, .w1c, .all 0, .island, 1⟩
/-- R168 -/ def PW_ERR_ACTIVE : Fld := ⟨428, 1, .w1c, .all 0, .island, 1⟩
/-- R168 -/ def PW_ERR_BADVAL : Fld := ⟨429, 1, .w1c, .all 0, .island, 1⟩
/-- R168 -/ def PW_ERR_CBUSY : Fld := ⟨430, 1, .w1c, .all 0, .island, 1⟩
/-- R168 -/ def PW_ERR_FRANGE : Fld := ⟨431, 1, .w1c, .all 0, .island, 1⟩
/-- R168 -/ def PW_STAT_DLLOCK : Fld := ⟨432, 1, .ro, .all 0, .island, 1⟩
/-- R168 -/ def PW_STAT_XGCOUNT : Fld := ⟨433, 5, .ro, .all 0, .island, 1⟩
/-- R168 -/ def PW_KLCFG_CH4 : Fld := ⟨434, 8, .rw, .all 0, .island, 1⟩
/-- R168 -/ def PW_KLCFG_CH5 : Fld := ⟨435, 8, .rw, .all 0, .island, 1⟩
/-- R168 -/ def PW_KLCFG_CH6 : Fld := ⟨436, 8, .rw, .all 0, .island, 1⟩
/-- R168 -/ def PW_KLCFG_CH7 : Fld := ⟨437, 8, .rw, .all 0, .island, 1⟩
/-- R330 -/ def CX_CTL_START : Fld := ⟨438, 1, .wo, .all 0, .island, 1⟩
/-- R330 -/ def CX_ENTRY_ADDR : Fld := ⟨439, 32, .rw, .all 0, .island, 1⟩
/-- R330 -/ def CX_STAT_STATE : Fld := ⟨440, 3, .ro, .all 0, .island, 1⟩
/-- R330 -/ def CX_STAT_RECOV : Fld := ⟨441, 1, .ro, .all 1, .island, 1⟩
/-- R330 -/ def CX_STAT_PRIV : Fld := ⟨442, 2, .ro, .all 3, .island, 1⟩
/-- R330 -/ def CX_PC_PC : Fld := ⟨443, 32, .ro, .all 0, .island, 1⟩
/-- R330 -/ def CX_PERF_LBMISS : Fld := ⟨444, 16, .ro, .all 0, .island, 1⟩
/-- R330 -/ def CX_PERF_BPMISS : Fld := ⟨445, 16, .ro, .all 0, .island, 1⟩
/-- R377 -/ def LS_CFG_ACT : Fld := ⟨446, 2, .rw, .all 0, .island, 1⟩
/-- R377 -/ def LS_CFG_BELAY : Fld := ⟨447, 1, .rw, .all 0, .island, 1⟩
/-- R377 -/ def LS_CFG_LIMIT : Fld := ⟨448, 4, .rw, .all 0, .island, 1⟩
/-- R377 -/ def LS_CFG_LWIN : Fld := ⟨449, 16, .rw, .all 0x3e8, .island, 1⟩
/-- R377 -/ def LS_STAT_CAUSE : Fld := ⟨450, 3, .ro, .all 0, .island, 1⟩
/-- R377 -/ def LS_STAT_HELD : Fld := ⟨451, 1, .ro, .all 0, .island, 1⟩
/-- R377 -/ def LS_STAT_COUNT : Fld := ⟨452, 16, .ro, .all 0, .island, 1⟩
/-- R377 -/ def LS_MCPC_PC : Fld := ⟨453, 32, .ro, .all 0, .island, 1⟩
/-- R377 -/ def LS_MCADDR_ADDR : Fld := ⟨454, 32, .ro, .all 0, .island, 1⟩
/-- R377 -/ def LS_AIP_GPIO_VALUE : Fld := ⟨455, 32, .ro, .all 0, .island, 1⟩
/-- R377 -/ def LS_AIP_HKC_VALUE : Fld := ⟨456, 16, .ro, .all 0, .island, 1⟩
/-- R377 -/ def LS_AIP_HKC_INPUT : Fld := ⟨457, 6, .ro, .all 0, .island, 1⟩
/-- R358 -/ def IC_CFG_LVL : Fld := ⟨458, 4, .rw, .all 0, .island, 1⟩
/-- R358 -/ def IC_CFG_TRIG : Fld := ⟨459, 1, .ro, .all 0, .island, 1⟩
/-- R358 -/ def IC_CFG_TARGET : Fld := ⟨460, 8, .rw, .all 1, .island, 1⟩
/-- R358 -/ def IC_CFG_PREF : Fld := ⟨461, 3, .rw, .all 0, .island, 1⟩
/-- R358 -/ def IC_CFG_PEND : Fld := ⟨462, 1, .ro, .all 0, .island, 1⟩
/-- R358 -/ def IC_CFG_INSVC : Fld := ⟨463, 1, .ro, .all 0, .island, 1⟩
/-- R358 -/ def IC_CFG_LINE : Fld := ⟨464, 1, .ro, .all 0, .island, 1⟩
/-- R358 -/ def IC_CFG_CORE : Fld := ⟨465, 3, .ro, .all 0, .island, 1⟩
/-- R358 -/ def IC_MASK_MASK : Fld := ⟨466, 32, .rw, .all 0xffffffff, .island, 1⟩
/-- R358 -/ def IC_PEND_PEND : Fld := ⟨467, 32, .ro, .all 0, .island, 1⟩
/-- R358 -/ def IC_SEM_TAKEN : Fld := ⟨468, 1, .rw, .all 0, .island, 1⟩
/-- R358 -/ def IC_SEM_HOLDER : Fld := ⟨469, 4, .ro, .all 0xf, .island, 1⟩
/-- R358 -/ def IC_CORE_ELVL : Fld := ⟨470, 4, .ro, .all 0, .island, 1⟩
/-- R358 -/ def IC_CORE_ITHR : Fld := ⟨471, 4, .ro, .all 0, .island, 1⟩
/-- R358 -/ def IC_CORE_AWAKE : Fld := ⟨472, 1, .ro, .all 0, .island, 1⟩
/-- R358 -/ def IC_CORE_IE : Fld := ⟨473, 1, .ro, .all 0, .island, 1⟩
/-- R358 -/ def IC_CORE_OFFER : Fld := ⟨474, 9, .ro, .all 0, .island, 1⟩
/-- R358 -/ def IC_CORE_OFFERV : Fld := ⟨475, 1, .ro, .all 0, .island, 1⟩
/-- R492 -/ def FW_STAT_ACTIVE : Fld := ⟨476, 1, .ro, .all 0, .warm, 1⟩
/-- R492 -/ def FW_STAT_BOOTSEL : Fld := ⟨477, 1, .ro, .all 0, .never, 1⟩
/-- R492 -/ def FW_STAT_STAGING : Fld := ⟨478, 1, .ro, .all 0, .island, 1⟩
/-- R492 -/ def FW_STAT_RXBUSY : Fld := ⟨479, 1, .ro, .all 0, .island, 1⟩
/-- R492 -/ def FW_LOADLIM_LIMIT : Fld := ⟨480, 16, .rw, .all 0x32, .island, 1⟩
/-- R492 -/ def FW_PCTL_ERASE : Fld := ⟨481, 1, .wo, .all 0, .island, 1⟩
/-- R492 -/ def FW_PCTL_PROG : Fld := ⟨482, 1, .wo, .all 0, .island, 1⟩
/-- R492 -/ def FW_PCTL_BUSY : Fld := ⟨483, 1, .ro, .all 0, .island, 1⟩
/-- R492 -/ def FW_PCTL_ERR : Fld := ⟨484, 1, .w1c, .all 0, .island, 1⟩
/-- R492 -/ def FW_PADDR_ADDR : Fld := ⟨485, 32, .rw, .all 0x11e0000, .island, 1⟩
/-- R492 -/ def FW_RXCFG_EN : Fld := ⟨486, 1, .rw, .all 0, .island, 1⟩
/-- R492 -/ def FW_RXSTAT_SRC : Fld := ⟨487, 4, .ro, .all 0, .island, 1⟩
/-- R492 -/ def FW_RXSTAT_BYTES : Fld := ⟨488, 24, .ro, .all 0, .island, 1⟩
/-- R492 -/ def FW_RSEND_DST : Fld := ⟨489, 4, .rw, .all 0, .island, 1⟩
/-- R492 -/ def FW_RSEND_BANK : Fld := ⟨490, 1, .rw, .all 0, .island, 1⟩
/-- R492 -/ def FW_RSEND_START : Fld := ⟨491, 1, .wo, .all 0, .island, 1⟩
/-- R492 -/ def FW_RSEND_BUSY : Fld := ⟨492, 1, .ro, .all 0, .island, 1⟩
/-- R492 -/ def FW_RSEND_RESULT : Fld := ⟨493, 2, .ro, .all 0, .island, 1⟩
/-- R492 -/ def FW_RSLEN_LENGTH : Fld := ⟨494, 32, .rw, .all 0, .island, 1⟩
/-- R492 -/ def FW_CHK_RESULT : Fld := ⟨495, 4, .ro, .all 0, .warm, 1⟩
/-- R492 -/ def FW_CHK_CLASS : Fld := ⟨496, 16, .ro, .all 0, .warm, 1⟩
/-- R492 -/ def FW_VER_VERSION : Fld := ⟨497, 32, .ro, .all 0, .warm, 1⟩
/-- R492 -/ def FW_PDATA_DATA : Fld := ⟨498, 32, .rw, .all 0, .island, 1⟩
/-- R429 -/ def DMA_CTL_HPRIO : Fld := ⟨499, 2, .rw, .all 1, .island, 1⟩
/-- R429 -/ def DMA_CTL_HWLOCK : Fld := ⟨500, 1, .rwo, .all 0, .island, 1⟩
/-- R429 -/ def DMA_STAT_BUFUSED : Fld := ⟨501, 13, .ro, .all 0, .island, 1⟩
/-- R432 -/ def TR_BANKSTAT_ON : Fld := ⟨502, 12, .ro, .all 0xfff, .island, 1⟩
/-- R432 -/ def TR_BANKSTAT_INUSE : Fld := ⟨503, 12, .ro, .all 0, .island, 1⟩
/-- R429 -/ def DMA_HWIN_BASE_BASE : Fld := ⟨504, 32, .lk, .first 0x02000000, .island, 1⟩
/-- R429 -/ def DMA_HWIN_LIMIT_LIMIT : Fld := ⟨505, 32, .lk, .first 0x02BFFFFF, .island, 1⟩
/-- R429 -/ def DMA_HWIN_ATTR_EN : Fld := ⟨506, 1, .lk, .first 1, .island, 1⟩
/-- R429 -/ def DMA_HWIN_ATTR_RD : Fld := ⟨507, 1, .lk, .first 1, .island, 1⟩
/-- R429 -/ def DMA_HWIN_ATTR_WR : Fld := ⟨508, 1, .lk, .all 0, .island, 1⟩
/-- R430 -/ def DMA_CHPTR_ADDR : Fld := ⟨509, 32, .rw, .all 0, .island, 1⟩
/-- R430 -/ def DMA_CHCTL_START : Fld := ⟨510, 1, .wo, .all 0, .island, 1⟩
/-- R430 -/ def DMA_CHCTL_ABORT : Fld := ⟨511, 1, .wo, .all 0, .island, 1⟩
/-- R430 -/ def DMA_CHCTL_PRIO : Fld := ⟨512, 2, .rw, .all 0, .island, 1⟩
/-- R430 -/ def DMA_CHCTL_TRIGCH : Fld := ⟨513, 8, .rw, .all 0, .island, 1⟩
/-- R430 -/ def DMA_CHCTL_TRIGEN : Fld := ⟨514, 1, .rw, .all 0, .island, 1⟩
/-- R430 -/ def DMA_CHCTL_TRIGFALL : Fld := ⟨515, 1, .rw, .all 0, .island, 1⟩
/-- R430 -/ def DMA_CHSTAT_BUSY : Fld := ⟨516, 1, .ro, .all 0, .island, 1⟩
/-- R430 -/ def DMA_CHSTAT_STATUS : Fld := ⟨517, 8, .ro, .all 0, .island, 1⟩
/-- R430 -/ def DMA_CHSTAT_XSTAT : Fld := ⟨518, 8, .ro, .all 0, .island, 1⟩
/-- R430 -/ def DMA_CHSTAT_TRIGOVR : Fld := ⟨519, 8, .ro, .all 0, .island, 1⟩
/-- R430 -/ def DMA_CHCNT_DONECNT : Fld := ⟨520, 32, .ro, .all 0, .island, 1⟩
/-- R430 -/ def DMA_CHCUR_ADDR : Fld := ⟨521, 32, .ro, .all 0, .island, 1⟩
/-- R431 -/ def TR_CFG_MODE : Fld := ⟨522, 1, .rw, .all 0, .island, 1⟩
/-- R431 -/ def TR_CFG_BANK0 : Fld := ⟨523, 4, .rw, .all 0, .island, 1⟩
/-- R431 -/ def TR_CFG_NBANK : Fld := ⟨524, 4, .rw, .all 1, .island, 1⟩
/-- R431 -/ def TR_CFG_TRIGCH : Fld := ⟨525, 8, .rw, .all 0, .island, 1⟩
/-- R431 -/ def TR_CFG_TRIGEN : Fld := ⟨526, 1, .rw, .all 0, .island, 1⟩
/-- R431 -/ def TR_CFG_TRIGFALL : Fld := ⟨527, 1, .rw, .all 0, .island, 1⟩
/-- R431 -/ def TR_CFG_CHEN : Fld := ⟨528, 1, .rw, .all 0, .island, 1⟩
/-- R431 -/ def TR_CFG_EVTEN : Fld := ⟨529, 1, .rw, .all 0, .island, 1⟩
/-- R431 -/ def TR_PRE_PRE : Fld := ⟨530, 24, .rw, .all 0, .island, 1⟩
/-- R431 -/ def TR_POST_POST : Fld := ⟨531, 24, .rw, .all 0, .island, 1⟩
/-- R431 -/ def TR_CTL_ARM : Fld := ⟨532, 1, .wo, .all 0, .island, 1⟩
/-- R431 -/ def TR_CTL_TRIG : Fld := ⟨533, 1, .wo, .all 0, .island, 1⟩
/-- R431 -/ def TR_CTL_STOP : Fld := ⟨534, 1, .wo, .all 0, .island, 1⟩
/-- R431 -/ def TR_CTL_RELEASE : Fld := ⟨535, 1, .wo, .all 0, .island, 1⟩
/-- R431 -/ def TR_STAT_STATE : Fld := ⟨536, 3, .ro, .all 0, .island, 1⟩
/-- R431 -/ def TR_STAT_SHORTPRE : Fld := ⟨537, 1, .ro, .all 0, .island, 1⟩
/-- R431 -/ def TR_STAT_STOPPED : Fld := ⟨538, 1, .ro, .all 0, .island, 1⟩
/-- R431 -/ def TR_STAT_TRIGOVR : Fld := ⟨539, 8, .ro, .all 0, .island, 1⟩
/-- R431 -/ def TR_SEQ_SEQ : Fld := ⟨540, 32, .ro, .all 0, .island, 1⟩
/-- R431 -/ def TR_TRIGSEQ_SEQ : Fld := ⟨541, 32, .ro, .all 0xffffffff, .island, 1⟩
/-- R431 -/ def TR_FIRSTSEQ_SEQ : Fld := ⟨542, 32, .ro, .all 0, .island, 1⟩
/-- R431 -/ def TR_TRIGTB_LO_T_LO : Fld := ⟨543, 32, .ro, .all 0, .island, 1⟩
/-- R431 -/ def TR_TRIGTB_HI_T_HI : Fld := ⟨544, 32, .ro, .all 0, .island, 1⟩
/-- R431 -/ def TR_RDSEQ_SEQ : Fld := ⟨545, 32, .rw, .all 0, .island, 1⟩
/-- R431 -/ def TR_DROP_DROPPED : Fld := ⟨546, 32, .ro, .all 0, .island, 1⟩
/-- R431 -/ def TR_ERR_RATE : Fld := ⟨547, 1, .w1c, .all 0, .island, 1⟩
/-- R431 -/ def TR_ERR_REGION : Fld := ⟨548, 1, .w1c, .all 0, .island, 1⟩
/-- R431 -/ def TR_ERR_BUDGET : Fld := ⟨549, 1, .w1c, .all 0, .island, 1⟩
/-- R431 -/ def TR_ERR_WIPE : Fld := ⟨550, 1, .w1c, .all 0, .island, 1⟩
/-- R431 -/ def TR_ERR_BUSYWR : Fld := ⟨551, 1, .w1c, .all 0, .island, 1⟩
/-- R431 -/ def TR_ERR_BADVAL : Fld := ⟨552, 1, .w1c, .all 0, .island, 1⟩
/-- R431 -/ def TR_ERR_STATE : Fld := ⟨553, 1, .w1c, .all 0, .island, 1⟩
/-- R431 -/ def TR_SRC_SRC : Fld := ⟨554, 8, .rw, .all 0, .island, 1⟩
/-- R431 -/ def TR_SRC_EN : Fld := ⟨555, 1, .rw, .all 0, .island, 1⟩
/-- R493 -/ def CRN_CFG_IEN : Fld := ⟨556, 1, .rw, .all 0, .island, 1⟩
/-- R493 -/ def CRN_STAT_BUSY : Fld := ⟨557, 1, .ro, .all 0, .island, 1⟩
/-- R493 -/ def CRN_STAT_HOLDLOW : Fld := ⟨558, 1, .ro, .all 0, .island, 1⟩
/-- R493 -/ def CRN_STAT_QUEUED : Fld := ⟨559, 5, .ro, .all 0, .island, 1⟩
/-- R493 -/ def CRN_STAT_DROPPED : Fld := ⟨560, 16, .ro, .all 0, .cold, 1⟩
/-- R493 -/ def CRN_RNUM_NEXT : Fld := ⟨561, 32, .ro, .all 0, .never, 1⟩
/-- R493 -/ def CRN_WRPTR_SLOT : Fld := ⟨562, 13, .ro, .all 0, .never, 1⟩
/-- R493 -/ def CRN_PINLEFT_LEFT : Fld := ⟨563, 10, .ro, .all 0, .never, 1⟩
/-- R493 -/ def CRN_BOOTN_BOOTN : Fld := ⟨564, 32, .ro, .all 0, .never, 1⟩
/-- R493 -/ def CRN_WCTL_TYPE : Fld := ⟨565, 16, .rw, .all 0x8000, .island, 1⟩
/-- R493 -/ def CRN_WCTL_GO : Fld := ⟨566, 1, .wo, .all 0, .island, 1⟩
/-- R493 -/ def CRN_ERR_HOST : Fld := ⟨567, 1, .w1c, .all 0, .island, 1⟩
/-- R493 -/ def CRN_ERR_FULL : Fld := ⟨568, 1, .w1c, .all 0, .island, 1⟩
/-- R493 -/ def CRN_ERR_BADTYPE : Fld := ⟨569, 1, .w1c, .all 0, .island, 1⟩
/-- R493 -/ def CRN_ERR_TORN : Fld := ⟨570, 1, .w1c, .all 0, .island, 1⟩
/-- R493 -/ def CRN_WBUF_DATA : Fld := ⟨571, 32, .rw, .all 0, .island, 1⟩
/-- R73 -/ def HKC_CTL_EN : Fld := ⟨572, 1, .rw, .all 0, .island, 1⟩
/-- R73 -/ def HKC_CTL_MODE : Fld := ⟨573, 1, .rw, .all 0, .island, 1⟩
/-- R73 -/ def HKC_CTL_SWAP : Fld := ⟨574, 1, .rw, .all 0, .island, 1⟩
/-- R73 -/ def HKC_CTL_TRIG : Fld := ⟨575, 8, .rw, .all 0, .island, 1⟩
/-- R73 -/ def HKC_PERIOD_PERIOD : Fld := ⟨576, 20, .rw, .all 0x64, .island, 1⟩
/-- R73 -/ def HKC_PMAX_PMAX : Fld := ⟨577, 20, .rw, .all 0x3e8, .island, 1⟩
/-- R73 -/ def HKC_STAT_BUSY : Fld := ⟨578, 1, .ro, .all 0, .island, 1⟩
/-- R73 -/ def HKC_STAT_ENTRY : Fld := ⟨579, 6, .ro, .all 0, .island, 1⟩
/-- R73 -/ def HKC_STAT_PASSES : Fld := ⟨580, 16, .ro, .all 0, .island, 1⟩
/-- R73 -/ def HKC_ERR_BADSEL : Fld := ⟨581, 1, .w1c, .all 0, .island, 1⟩
/-- R73 -/ def HKC_ERR_TRIGLOST : Fld := ⟨582, 8, .ro, .all 0, .island, 1⟩
/-- R73 -/ def HKC_DIRECT_VALUE : Fld := ⟨583, 16, .ro, .all 0, .island, 1⟩
/-- R73 -/ def HKC_DIRECT_INPUT : Fld := ⟨584, 6, .ro, .all 0, .island, 1⟩
/-- R66 -/ def ICC_SWCTL_SWDIV : Fld := ⟨585, 16, .rw, .all 0x3e7, .island, 1⟩
/-- R73 -/ def HKC_SEQ_INPUT : Fld := ⟨586, 6, .rw, .all 0, .island, 1⟩
/-- R73 -/ def HKC_SEQ_SUBSEL : Fld := ⟨587, 8, .rw, .all 0, .island, 1⟩
/-- R73 -/ def HKC_SEQ_REPEAT : Fld := ⟨588, 4, .rw, .all 0, .island, 1⟩
/-- R73 -/ def HKC_SEQ_DELAY : Fld := ⟨589, 10, .rw, .all 0, .island, 1⟩
/-- R73 -/ def HKC_SEQ_EVT : Fld := ⟨590, 1, .rw, .all 0, .island, 1⟩
/-- R73 -/ def HKC_SEQ_LAST : Fld := ⟨591, 1, .rw, .all 0, .island, 1⟩
/-- R73 -/ def HKC_RES_VALUE : Fld := ⟨592, 16, .ro, .all 0, .island, 1⟩
/-- R73 -/ def HKC_RES_PASS : Fld := ⟨593, 12, .ro, .all 0, .island, 1⟩
/-- R73 -/ def HKC_RES_OVR : Fld := ⟨594, 1, .ro, .all 0, .island, 1⟩
/-- R73 -/ def HKC_RES_NEW : Fld := ⟨595, 1, .ro, .all 0, .island, 1⟩
/-- R66 -/ def ICC_CFG_EN : Fld := ⟨596, 1, .rw, .all 0, .island, 1⟩
/-- R66 -/ def ICC_CFG_INV : Fld := ⟨597, 1, .rw, .all 0, .island, 1⟩
/-- R66 -/ def ICC_KA_KA : Fld := ⟨598, 24, .rw, .all 0x7d0000, .island, 1⟩
/-- R66 -/ def ICC_OFS_OFS : Fld := ⟨599, 16, .rw, .all 0, .island, 1⟩
/-- R66 -/ def ICC_GTRIM_GTRIM : Fld := ⟨600, 16, .rw, .all 0, .island, 1⟩
/-- R66 -/ def ICC_SWRES_CURRENT : Fld := ⟨601, 24, .ro, .all 0, .island, 1⟩
/-- R66 -/ def ICC_SWRES_OVR : Fld := ⟨602, 1, .ro, .all 0, .island, 1⟩
/-- R66 -/ def ICC_SWRES_NEW : Fld := ⟨603, 1, .ro, .all 0, .island, 1⟩
/-- R66 -/ def ICC_ERR_CLIP : Fld := ⟨604, 1, .w1c, .all 0, .island, 1⟩
/-- R66 -/ def ICC_ERR_SAT : Fld := ⟨605, 1, .w1c, .all 0, .island, 1⟩
/-- R401 -/ def TB_LO_T_LO : Fld := ⟨606, 32, .ro, .all 0, .cold, 1⟩
/-- R401 -/ def TB_HI_T_HI : Fld := ⟨607, 32, .ro, .all 0, .cold, 1⟩
/-- R401 -/ def TB_LOAD_LO_L_LO : Fld := ⟨608, 32, .rw, .all 0, .island, 1⟩
/-- R401 -/ def TB_LOAD_HI_L_HI : Fld := ⟨609, 32, .rw, .all 0, .island, 1⟩
/-- R401 -/ def TB_CTL_LOAD : Fld := ⟨610, 1, .wo, .all 0, .island, 1⟩
/-- R401 -/ def TB_RATE_RATE : Fld := ⟨611, 32, .rw, .all 0, .island, 1⟩
/-- R401 -/ def TB_SYNC_SRC : Fld := ⟨612, 2, .rw, .all 0, .island, 1⟩
/-- R401 -/ def TB_SYNC_FARLIM : Fld := ⟨613, 16, .rw, .all 0x3e8, .island, 1⟩
/-- R401 -/ def TB_OFS_OFS : Fld := ⟨614, 32, .ro, .all 0, .island, 1⟩
/-- R401 -/ def TB_RATENOW_RATE : Fld := ⟨615, 32, .ro, .all 0, .island, 1⟩
/-- R401 -/ def TB_STAT_LOCKED : Fld := ⟨616, 1, .ro, .all 0, .island, 1⟩
/-- R401 -/ def TB_STAT_SRCNOW : Fld := ⟨617, 2, .ro, .all 0, .island, 1⟩
/-- R401 -/ def TB_ERR_BUSY : Fld := ⟨618, 1, .w1c, .all 0, .island, 1⟩
/-- R401 -/ def TB_ERR_BACK : Fld := ⟨619, 1, .w1c, .all 0, .island, 1⟩
/-- R401 -/ def TB_ERR_FAR : Fld := ⟨620, 1, .w1c, .all 0, .island, 1⟩
/-- R401 -/ def TB_ERR_PTMFAIL : Fld := ⟨621, 1, .w1c, .all 0, .island, 1⟩
/-- R401 -/ def TB_ERR_BADVAL : Fld := ⟨622, 1, .w1c, .all 0, .island, 1⟩
/-- R402 -/ def TM_CFG_MODE : Fld := ⟨623, 2, .rw, .all 0, .island, 1⟩
/-- R402 -/ def TM_CFG_CLKSRC : Fld := ⟨624, 2, .rw, .all 0, .island, 1⟩
/-- R402 -/ def TM_CFG_CAPTB : Fld := ⟨625, 1, .rw, .all 0, .island, 1⟩
/-- R402 -/ def TM_CFG_IEN : Fld := ⟨626, 3, .rw, .all 0, .island, 1⟩
/-- R402 -/ def TM_STEP_STEP : Fld := ⟨627, 25, .rw, .all 0x1000000, .island, 1⟩
/-- R402 -/ def TM_CTL_START : Fld := ⟨628, 1, .wo, .all 0, .island, 1⟩
/-- R402 -/ def TM_CTL_STOP : Fld := ⟨629, 1, .wo, .all 0, .island, 1⟩
/-- R402 -/ def TM_CTL_CLR : Fld := ⟨630, 1, .wo, .all 0, .island, 1⟩
/-- R402 -/ def TM_CTL_OVRCLR : Fld := ⟨631, 1, .wo, .all 0, .island, 1⟩
/-- R402 -/ def TM_CTL_RUN : Fld := ⟨632, 1, .ro, .all 0, .island, 1⟩
/-- R402 -/ def TM_CNT_LO_C_LO : Fld := ⟨633, 32, .rw, .all 0, .island, 1⟩
/-- R402 -/ def TM_CNT_HI_C_HI : Fld := ⟨634, 16, .rw, .all 0, .island, 1⟩
/-- R402 -/ def TM_TOP_LO_T_LO : Fld := ⟨635, 32, .rw, .all 0xffffffff, .island, 1⟩
/-- R402 -/ def TM_TOP_HI_T_HI : Fld := ⟨636, 16, .rw, .all 0xffff, .island, 1⟩
/-- R402 -/ def TM_CMP_LO_M_LO : Fld := ⟨637, 32, .rw, .all 0, .island, 1⟩
/-- R402 -/ def TM_CMP_HI_M_HI : Fld := ⟨638, 16, .rw, .all 0, .island, 1⟩
/-- R402 -/ def TM_CAP_LO_P_LO : Fld := ⟨639, 32, .ro, .all 0, .island, 1⟩
/-- R402 -/ def TM_CAP_HI_P_HI : Fld := ⟨640, 16, .ro, .all 0, .island, 1⟩
/-- R402 -/ def TM_SNAP_LO_S_LO : Fld := ⟨641, 32, .ro, .all 0, .island, 1⟩
/-- R402 -/ def TM_SNAP_HI_S_HI : Fld := ⟨642, 16, .ro, .all 0, .island, 1⟩
/-- R402 -/ def TM_INSTART_CH : Fld := ⟨643, 8, .rw, .all 0, .island, 2⟩
/-- R402 -/ def TM_INSTART_EN : Fld := ⟨644, 1, .rw, .all 0, .island, 2⟩
/-- R402 -/ def TM_INSTART_FALL : Fld := ⟨645, 1, .rw, .all 0, .island, 2⟩
/-- R402 -/ def TM_INSTOP_CH : Fld := ⟨646, 8, .rw, .all 0, .island, 2⟩
/-- R402 -/ def TM_INSTOP_EN : Fld := ⟨647, 1, .rw, .all 0, .island, 2⟩
/-- R402 -/ def TM_INSTOP_FALL : Fld := ⟨648, 1, .rw, .all 0, .island, 2⟩
/-- R402 -/ def TM_INCAP_CH : Fld := ⟨649, 8, .rw, .all 0, .island, 2⟩
/-- R402 -/ def TM_INCAP_EN : Fld := ⟨650, 1, .rw, .all 0, .island, 2⟩
/-- R402 -/ def TM_INCAP_FALL : Fld := ⟨651, 1, .rw, .all 0, .island, 2⟩
/-- R402 -/ def TM_INCLR_CH : Fld := ⟨652, 8, .rw, .all 0, .island, 2⟩
/-- R402 -/ def TM_INCLR_EN : Fld := ⟨653, 1, .rw, .all 0, .island, 2⟩
/-- R402 -/ def TM_INCLR_FALL : Fld := ⟨654, 1, .rw, .all 0, .island, 2⟩
/-- R402 -/ def TM_INCNT_CH : Fld := ⟨655, 8, .rw, .all 0, .island, 2⟩
/-- R402 -/ def TM_INCNT_EN : Fld := ⟨656, 1, .rw, .all 0, .island, 2⟩
/-- R402 -/ def TM_INCNT_FALL : Fld := ⟨657, 1, .rw, .all 0, .island, 2⟩
/-- R402 -/ def TM_STAT_ARMED : Fld := ⟨658, 1, .ro, .all 0, .island, 1⟩
/-- R402 -/ def TM_STAT_CMPHIT : Fld := ⟨659, 1, .w1c, .all 0, .island, 1⟩
/-- R402 -/ def TM_STAT_WRAPPED : Fld := ⟨660, 1, .w1c, .all 0, .island, 1⟩
/-- R402 -/ def TM_STAT_CAPNEW : Fld := ⟨661, 1, .ro, .all 0, .island, 1⟩
/-- R402 -/ def TM_STAT_CAPOVR : Fld := ⟨662, 1, .ro, .all 0, .island, 1⟩
/-- R402 -/ def TM_STAT_BUSY : Fld := ⟨663, 1, .w1c, .all 0, .island, 1⟩
/-- R402 -/ def TM_STAT_BADVAL : Fld := ⟨664, 1, .w1c, .all 0, .island, 1⟩
/-- R402 -/ def TM_OVR_START : Fld := ⟨665, 8, .ro, .all 0, .island, 1⟩
/-- R402 -/ def TM_OVR_STOP : Fld := ⟨666, 8, .ro, .all 0, .island, 1⟩
/-- R402 -/ def TM_OVR_CAP : Fld := ⟨667, 8, .ro, .all 0, .island, 1⟩
/-- R402 -/ def TM_OVR_CLR : Fld := ⟨668, 8, .ro, .all 0, .island, 1⟩
/-- R447 -/ def PD_CFG_EN : Fld := ⟨669, 1, .rw, .all 0, .island, 1⟩
/-- R447 -/ def PD_CFG_MODE : Fld := ⟨670, 2, .rw, .all 0, .island, 1⟩
/-- R447 -/ def PD_CFG_DIR : Fld := ⟨671, 1, .rw, .all 0, .island, 1⟩
/-- R447 -/ def PD_CFG_POLH : Fld := ⟨672, 1, .rw, .all 1, .island, 1⟩
/-- R447 -/ def PD_CFG_POLL : Fld := ⟨673, 1, .rw, .all 1, .island, 1⟩
/-- R447 -/ def PD_CFG_SRC : Fld := ⟨674, 1, .rw, .all 0, .island, 1⟩
/-- R447 -/ def PD_PER_PER : Fld := ⟨675, 14, .rw, .all 0x7d0, .island, 1⟩
/-- R447 -/ def PD_PER_DT : Fld := ⟨676, 8, .rw, .all 0xa, .island, 1⟩
/-- R447 -/ def PD_DUTYA_DA : Fld := ⟨677, 16, .rw, .all 0x8000, .island, 1⟩
/-- R447 -/ def PD_DUTYA_DB : Fld := ⟨678, 16, .rw, .all 0x8000, .island, 1⟩
/-- R447 -/ def PD_DUTYB_DC : Fld := ⟨679, 16, .rw, .all 0x8000, .island, 1⟩
/-- R447 -/ def PD_AMP_AMP : Fld := ⟨680, 16, .rw, .all 0, .island, 1⟩
/-- R447 -/ def PD_AMP_LEAD : Fld := ⟨681, 16, .rw, .all 0, .island, 1⟩
/-- R447 -/ def PD_MOTOR_POLES : Fld := ⟨682, 4, .rw, .all 1, .island, 1⟩
/-- R447 -/ def PD_MOTOR_SLEW : Fld := ⟨683, 16, .rw, .all 0, .island, 1⟩
/-- R447 -/ def PD_OFFSET_OFFSET : Fld := ⟨684, 24, .rw, .all 0, .island, 1⟩
/-- R447 -/ def PD_ENCCFG_DIV : Fld := ⟨685, 8, .rw, .all 4, .island, 1⟩
/-- R447 -/ def PD_ENCCFG_NST : Fld := ⟨686, 2, .rw, .all 0, .island, 1⟩
/-- R447 -/ def PD_ENCCFG_CHK : Fld := ⟨687, 2, .rw, .all 0, .island, 1⟩
/-- R447 -/ def PD_ENCCFG_GRAY : Fld := ⟨688, 1, .rw, .all 0, .island, 1⟩
/-- R447 -/ def PD_ENCCFG_SDLY : Fld := ⟨689, 8, .rw, .all 0, .island, 1⟩
/-- R447 -/ def PD_ENCCFG_LOSTN : Fld := ⟨690, 4, .rw, .all 3, .island, 1⟩
/-- R447 -/ def PD_ENCPER_PER : Fld := ⟨691, 16, .rw, .all 0x32, .island, 1⟩
/-- R447 -/ def PD_ENCPER_GAP : Fld := ⟨692, 8, .rw, .all 0x14, .island, 1⟩
/-- R447 -/ def PD_POS_POS : Fld := ⟨693, 24, .ro, .all 0, .island, 1⟩
/-- R447 -/ def PD_POS_ST : Fld := ⟨694, 2, .ro, .all 0, .island, 1⟩
/-- R447 -/ def PD_POS_VALID : Fld := ⟨695, 1, .ro, .all 0, .island, 1⟩
/-- R447 -/ def PD_POSTB_LO_T_LO : Fld := ⟨696, 32, .ro, .all 0, .island, 1⟩
/-- R447 -/ def PD_POSTB_HI_T_HI : Fld := ⟨697, 32, .ro, .all 0, .island, 1⟩
/-- R447 -/ def PD_SPEED_SPEED : Fld := ⟨698, 32, .ro, .all 0, .island, 1⟩
/-- R447 -/ def PD_SPDCFG_SAVG : Fld := ⟨699, 3, .rw, .all 0, .island, 1⟩
/-- R447 -/ def PD_SPDCFG_MAXSTEP : Fld := ⟨700, 24, .rw, .all 0, .island, 1⟩
/-- R447 -/ def PD_STAT_BOOST : Fld := ⟨701, 4, .ro, .all 0, .island, 1⟩
/-- R447 -/ def PD_STAT_FLTHOLD : Fld := ⟨702, 1, .ro, .all 0, .island, 1⟩
/-- R447 -/ def PD_STAT_ENCLOST : Fld := ⟨703, 1, .ro, .all 0, .island, 1⟩
/-- R447 -/ def PD_STAT_LATE : Fld := ⟨704, 8, .ro, .all 0, .island, 1⟩
/-- R447 -/ def PD_STAT_FRAMES : Fld := ⟨705, 16, .ro, .all 0, .island, 1⟩
/-- R447 -/ def PD_ERR_ACK : Fld := ⟨706, 1, .w1c, .all 0, .island, 1⟩
/-- R447 -/ def PD_ERR_CHECK : Fld := ⟨707, 1, .w1c, .all 0, .island, 1⟩
/-- R447 -/ def PD_ERR_ENCERR : Fld := ⟨708, 1, .w1c, .all 0, .island, 1⟩
/-- R447 -/ def PD_ERR_JUMP : Fld := ⟨709, 1, .w1c, .all 0, .island, 1⟩
/-- R447 -/ def PD_ERR_BADVAL : Fld := ⟨710, 1, .w1c, .all 0, .island, 1⟩
/-- R447 -/ def PD_ERR_BOOSTOFF : Fld := ⟨711, 1, .w1c, .all 0, .island, 1⟩
/-- R447 -/ def PD_ERR_FLT : Fld := ⟨712, 1, .w1c, .all 0, .island, 1⟩
/-- R447 -/ def PD_AMPNOW_AMP : Fld := ⟨713, 16, .ro, .all 0, .island, 1⟩
/-- R447 -/ def PD_IEN_FLT : Fld := ⟨714, 1, .rw, .all 0, .island, 1⟩
/-- R447 -/ def PD_IEN_LOST : Fld := ⟨715, 1, .rw, .all 0, .island, 1⟩
/-- R447 -/ def PD_IEN_CMP : Fld := ⟨716, 1, .rw, .all 0, .island, 1⟩
/-- R447 -/ def PD_IEN_BOOST : Fld := ⟨717, 1, .rw, .all 0, .island, 1⟩
/-- R447 -/ def PD_CMPSTAT_LAST : Fld := ⟨718, 4, .ro, .all 0, .island, 1⟩
/-- R447 -/ def PD_CMPSTAT_FIRED : Fld := ⟨719, 16, .ro, .all 0, .island, 1⟩
/-- R447 -/ def PD_BOOSTAMP_AMP : Fld := ⟨720, 16, .rw, .all 0, .island, 1⟩
/-- R447 -/ def PD_CMP_POS : Fld := ⟨721, 24, .rw, .all 0, .island, 1⟩
/-- R447 -/ def PD_CMP_DIR : Fld := ⟨722, 2, .rw, .all 0, .island, 1⟩
/-- R447 -/ def PD_CMP_ONCE : Fld := ⟨723, 1, .rw, .all 0, .island, 1⟩
/-- R464 -/ def SI_PMCFG_ADDR : Fld := ⟨724, 7, .rw, .all 0, .island, 1⟩
/-- R464 -/ def SI_PMCFG_WREN : Fld := ⟨725, 2, .rw, .all 0, .island, 1⟩
/-- R464 -/ def SI_PMCFG_CLRF : Fld := ⟨726, 1, .rw, .all 0, .island, 1⟩
/-- R464 -/ def SI_PMCFG_EN : Fld := ⟨727, 1, .rw, .all 1, .island, 1⟩
/-- R464 -/ def SI_PMSTAT_ALERT : Fld := ⟨728, 24, .ro, .all 0, .island, 1⟩
/-- R464 -/ def SI_I3CCFG_WAKEADDR : Fld := ⟨729, 7, .rw, .all 0, .cold, 1⟩
/-- R464 -/ def SI_I3CCFG_DA : Fld := ⟨730, 7, .ro, .all 0, .cold, 1⟩
/-- R464 -/ def SI_I3CCTL_IBI : Fld := ⟨731, 1, .wo, .all 0, .island, 1⟩
/-- R464 -/ def SI_I3CCTL_TXLEN : Fld := ⟨732, 6, .rw, .all 0, .island, 1⟩
/-- R464 -/ def SI_I3CSTAT_RXLEN : Fld := ⟨733, 7, .ro, .all 0, .island, 1⟩
/-- R464 -/ def SI_I3CSTAT_RXNEW : Fld := ⟨734, 1, .w1c, .all 0, .island, 1⟩
/-- R464 -/ def SI_ROPECFG_ROOT : Fld := ⟨735, 1, .rw, .all 0, .island, 1⟩
/-- R464 -/ def SI_ROPECFG_EN : Fld := ⟨736, 1, .rw, .all 0, .island, 1⟩
/-- R464 -/ def SI_ROPECFG_SYNCPER : Fld := ⟨737, 16, .rw, .all 0x3e8, .island, 1⟩
/-- R464 -/ def SI_ROPECTL_ENUM : Fld := ⟨738, 1, .wo, .all 0, .island, 1⟩
/-- R464 -/ def SI_ROPESTAT_NODE : Fld := ⟨739, 4, .ro, .all 0, .island, 1⟩
/-- R464 -/ def SI_ROPESTAT_NUMBERED : Fld := ⟨740, 1, .ro, .all 0, .island, 1⟩
/-- R464 -/ def SI_ROPESTAT_CARRIER : Fld := ⟨741, 1, .ro, .all 0, .island, 1⟩
/-- R464 -/ def SI_ROPECAB_CAB : Fld := ⟨742, 16, .rw, .all 0, .island, 1⟩
/-- R464 -/ def SI_ROPEERR_LOS : Fld := ⟨743, 1, .w1c, .all 0, .island, 1⟩
/-- R464 -/ def SI_ROPEERR_OVER : Fld := ⟨744, 1, .w1c, .all 0, .island, 1⟩
/-- R464 -/ def SI_ROPEERR_ROOT : Fld := ⟨745, 1, .w1c, .all 0, .island, 1⟩
/-- R464 -/ def SI_ROPEERR_CRC : Fld := ⟨746, 1, .w1c, .all 0, .island, 1⟩
/-- R464 -/ def SI_CMDLAST_STATUS : Fld := ⟨747, 8, .ro, .all 0, .island, 1⟩
/-- R464 -/ def SI_CMDLAST_XSTAT : Fld := ⟨748, 8, .ro, .all 0, .island, 1⟩
/-- R464 -/ def SI_CMDLAST_RAIL : Fld := ⟨749, 5, .ro, .all 0, .island, 1⟩
/-- R464 -/ def SI_CMDLAST_BUS : Fld := ⟨750, 3, .ro, .all 0, .island, 1⟩
/-- R464 -/ def SI_CMDLAST_NEW : Fld := ⟨751, 1, .w1c, .all 0, .island, 1⟩
/-- R464 -/ def SI_IEN_IEN : Fld := ⟨752, 8, .rw, .all 0, .island, 1⟩
/-- R464 -/ def SI_AVSMAP_MAP : Fld := ⟨753, 24, .rw, .all 0, .island, 1⟩
/-- R464 -/ def SI_AVSMAP_EN : Fld := ⟨754, 1, .rw, .all 0, .island, 1⟩
/-- R464 -/ def SI_AVSSTAT_ALERT : Fld := ⟨755, 4, .ro, .all 0, .island, 1⟩
/-- R464 -/ def SI_AVSSTAT_VDONE : Fld := ⟨756, 4, .ro, .all 0, .island, 1⟩
/-- R464 -/ def SI_AVSLIM_VMIN : Fld := ⟨757, 16, .rw, .all 0, .island, 1⟩
/-- R464 -/ def SI_AVSLIM_VMAX : Fld := ⟨758, 16, .rw, .all 0, .island, 1⟩
/-- R464 -/ def SI_I3CRX_DATA : Fld := ⟨759, 32, .ro, .all 0, .island, 1⟩
/-- R464 -/ def SI_I3CTX_DATA : Fld := ⟨760, 32, .rw, .all 0, .island, 1⟩
/-- R278 -/ def EL_CTL_EN : Fld := ⟨761, 1, .rw, .all 1, .island, 1⟩
/-- R278 -/ def EL_ERR_STALE : Fld := ⟨762, 4, .w1c, .all 0, .island, 1⟩
/-- R278 -/ def EL_RACC_LO_E_LO : Fld := ⟨763, 32, .ro, .all 0, .cold, 1⟩
/-- R278 -/ def EL_RACC_HI_E_HI : Fld := ⟨764, 32, .ro, .all 0, .cold, 1⟩
/-- R278 -/ def EL_RUSED_LO_U_LO : Fld := ⟨765, 32, .ro, .all 0, .island, 1⟩
/-- R278 -/ def EL_RUSED_HI_U_HI : Fld := ⟨766, 32, .ro, .all 0, .island, 1⟩
/-- R278 -/ def EL_RLIM_LO_L_LO : Fld := ⟨767, 32, .ro, .all 0, .warm, 1⟩
/-- R278 -/ def EL_RLIM_HI_L_HI : Fld := ⟨768, 32, .ro, .all 0, .warm, 1⟩
/-- R278 -/ def EL_RWIN_WINDOW : Fld := ⟨769, 24, .ro, .all 0, .warm, 1⟩
/-- R278 -/ def EL_RWIN_MODE : Fld := ⟨770, 2, .ro, .all 0, .warm, 1⟩
/-- R278 -/ def EL_RRES_LO_Q_LO : Fld := ⟨771, 32, .ro, .all 0, .island, 1⟩
/-- R278 -/ def EL_RRES_HI_Q_HI : Fld := ⟨772, 32, .ro, .all 0, .island, 1⟩
/-- R278 -/ def EL_RSTAT_OVER : Fld := ⟨773, 1, .w1c, .all 0, .island, 1⟩
/-- R278 -/ def EL_RSTAT_WDN : Fld := ⟨774, 8, .ro, .all 0, .island, 1⟩
/-- R278 -/ def EL_RSTAT_CAPN : Fld := ⟨775, 16, .ro, .all 0, .island, 1⟩
/-- R278 -/ def EL_INCFG_ENTRY : Fld := ⟨776, 6, .rw, .all 0, .island, 1⟩
/-- R278 -/ def EL_INCFG_EN : Fld := ⟨777, 1, .rw, .all 0, .island, 1⟩
/-- R278 -/ def EL_INCFG_VK : Fld := ⟨778, 16, .rw, .all 0x100, .island, 1⟩
/-- R278 -/ def EL_IACC_LO_E_LO : Fld := ⟨779, 32, .ro, .all 0, .cold, 1⟩
/-- R278 -/ def EL_IACC_HI_E_HI : Fld := ⟨780, 32, .ro, .all 0, .cold, 1⟩
/-- R278 -/ def EL_IPWR_P : Fld := ⟨781, 32, .ro, .all 0, .island, 1⟩
/-- R278 -/ def EL_SACC_LO_E_LO : Fld := ⟨782, 32, .ro, .all 0, .warm, 1⟩
/-- R278 -/ def EL_SACC_HI_E_HI : Fld := ⟨783, 32, .ro, .all 0, .warm, 1⟩
/-- R278 -/ def EL_SPWR_P : Fld := ⟨784, 16, .ro, .all 0, .island, 1⟩
/-- R278 -/ def EL_SLIM_LO_L_LO : Fld := ⟨785, 32, .ro, .all 0, .warm, 1⟩
/-- R278 -/ def EL_SLIM_HI_L_HI : Fld := ⟨786, 32, .ro, .all 0, .warm, 1⟩
/-- R278 -/ def EL_SWIN_WINDOW : Fld := ⟨787, 24, .ro, .all 0, .warm, 1⟩
/-- R278 -/ def EL_SWIN_MODE : Fld := ⟨788, 2, .ro, .all 0, .warm, 1⟩
/-- R278 -/ def EL_SUSED_LO_U_LO : Fld := ⟨789, 32, .ro, .all 0, .island, 1⟩
/-- R278 -/ def EL_SUSED_HI_U_HI : Fld := ⟨790, 32, .ro, .all 0, .island, 1⟩
/-- R278 -/ def EL_SSTAT_ACT : Fld := ⟨791, 4, .ro, .all 0, .island, 1⟩
/-- R278 -/ def EL_SSTAT_OVER : Fld := ⟨792, 1, .w1c, .all 0, .island, 1⟩
/-- R279 -/ def PM_CFG_TRIMEN : Fld := ⟨793, 1, .rw, .all 1, .island, 1⟩
/-- R279 -/ def PM_CFG_AUTOHOLD : Fld := ⟨794, 1, .rw, .all 0, .island, 1⟩
/-- R279 -/ def PM_CFG_AUTOSENT : Fld := ⟨795, 1, .rw, .all 0, .island, 1⟩
/-- R279 -/ def PM_CFG_LINKWAKE : Fld := ⟨796, 1, .rw, .all 1, .island, 1⟩
/-- R279 -/ def PM_CFG_BLYWAKE : Fld := ⟨797, 1, .rw, .all 1, .island, 1⟩
/-- R279 -/ def PM_STATE_STATE : Fld := ⟨798, 3, .ro, .all 0, .island, 1⟩
/-- R279 -/ def PM_HOLD_IDLE_IDLE : Fld := ⟨799, 16, .rw, .all 0x64, .island, 1⟩
/-- R279 -/ def PM_SENT_IDLE_IDLE : Fld := ⟨800, 16, .rw, .all 0x3e8, .island, 1⟩
/-- R279 -/ def PM_WAKE_EN_SRC : Fld := ⟨801, 8, .rw, .all 0x6d, .island, 1⟩
/-- R279 -/ def PM_WAKE_EN_EFCH : Fld := ⟨802, 8, .rw, .all 0, .island, 1⟩
/-- R279 -/ def PM_WAKE_LAST_CAUSE : Fld := ⟨803, 4, .ro, .all 0, .cold, 1⟩
/-- R279 -/ def PM_WAKE_LAST_ORIG : Fld := ⟨804, 4, .ro, .all 0, .cold, 1⟩
/-- R279 -/ def PM_WAKE_LAST_SENT : Fld := ⟨805, 1, .ro, .all 0, .cold, 1⟩
/-- R279 -/ def PM_WAKE_T_LO_T_LO : Fld := ⟨806, 32, .rw, .all 0xffffffff, .island, 1⟩
/-- R279 -/ def PM_WAKE_T_HI_T_HI : Fld := ⟨807, 32, .rw, .all 0xffffffff, .island, 1⟩
/-- R279 -/ def PM_PADHELD_HELD : Fld := ⟨808, 22, .ro, .all 0, .cold, 1⟩
/-- R279 -/ def PM_PADREL_REL : Fld := ⟨809, 22, .wo, .all 0, .island, 1⟩
/-- R279 -/ def PM_PADCFG_LX0960 : Fld := ⟨810, 1, .lk, .all 0, .island, 1⟩
/-- R279 -/ def PM_PADCFG_LOCK : Fld := ⟨811, 1, .rwo, .all 0, .island, 1⟩
/-- R279 -/ def PM_RETCFG_BANKS : Fld := ⟨812, 12, .rw, .all 0xe01, .island, 1⟩
/-- R279 -/ def PM_RETLOST_LOST : Fld := ⟨813, 12, .w1c, .all 0, .cold, 1⟩
/-- R279 -/ def PM_AUTOWAKE_AW : Fld := ⟨814, 22, .rw, .all 0, .island, 1⟩
/-- R279 -/ def PM_ISLREQ_STOP : Fld := ⟨815, 22, .wo, .all 0, .island, 1⟩
/-- R279 -/ def PM_ISLREQ2_START : Fld := ⟨816, 22, .wo, .all 0, .island, 1⟩
/-- R279 -/ def PM_ISLSTAT_ON : Fld := ⟨817, 22, .ro, .all 1, .island, 1⟩
/-- R279 -/ def PM_ERR_DEPENDENT : Fld := ⟨818, 1, .w1c, .all 0, .island, 1⟩
/-- R279 -/ def PM_ERR_BADVAL : Fld := ⟨819, 1, .w1c, .all 0, .island, 1⟩
/-- R279 -/ def PM_ENTRYTO_TO : Fld := ⟨820, 16, .rw, .all 0x3e8, .island, 1⟩
/-- R279 -/ def PM_TRIM_IDLE : Fld := ⟨821, 16, .rw, .all 0x100, .island, 1⟩
/-- R303 -/ def LC_STATE_STATE : Fld := ⟨822, 3, .ro, .all 1, .never, 1⟩
/-- R303 -/ def LC_STATE_SLOTS : Fld := ⟨823, 4, .ro, .all 0, .never, 1⟩
/-- R303 -/ def LC_STATE_WIPEPEND : Fld := ⟨824, 1, .ro, .all 0, .never, 1⟩
/-- R303 -/ def LC_REQ_TARGET : Fld := ⟨825, 3, .wo, .all 0, .island, 1⟩
/-- R303 -/ def LC_STAT_BUSY : Fld := ⟨826, 1, .ro, .all 0, .island, 1⟩
/-- R303 -/ def LC_ERR_RAILS : Fld := ⟨827, 1, .w1c, .all 0, .island, 1⟩
/-- R303 -/ def LC_ERR_AUTH : Fld := ⟨828, 1, .w1c, .all 0, .island, 1⟩
/-- R303 -/ def LC_ERR_BADVAL : Fld := ⟨829, 1, .w1c, .all 0, .island, 1⟩
/-- R303 -/ def LC_ERR_EXHAUST : Fld := ⟨830, 1, .w1c, .all 0, .island, 1⟩
/-- R303 -/ def LC_ERR_BELAY : Fld := ⟨831, 1, .w1c, .all 0, .island, 1⟩
/-- R494 -/ def SEC_NONCE_NONCE : Fld := ⟨832, 32, .ro, .all 0, .island, 1⟩
/-- R494 -/ def SEC_AUTH_DATA : Fld := ⟨833, 32, .rw, .all 0, .island, 1⟩
/-- R494 -/ def SEC_AUTHCTL_OP : Fld := ⟨834, 4, .rw, .all 0, .island, 1⟩
/-- R494 -/ def SEC_AUTHCTL_KEYSLOT : Fld := ⟨835, 3, .rw, .all 0, .island, 1⟩
/-- R494 -/ def SEC_AUTHCTL_ARG : Fld := ⟨836, 4, .rw, .all 0, .island, 1⟩
/-- R494 -/ def SEC_AUTHCTL_GO : Fld := ⟨837, 1, .wo, .all 0, .island, 1⟩
/-- R494 -/ def SEC_AUTHCTL_RESULT : Fld := ⟨838, 3, .ro, .all 0, .island, 1⟩
/-- R494 -/ def SEC_OWNLOCK_SET : Fld := ⟨839, 1, .wo, .all 0, .island, 1⟩
/-- R494 -/ def SEC_OWNLOCK_LOCKED : Fld := ⟨840, 1, .ro, .all 0, .never, 1⟩
/-- R494 -/ def SEC_KEYSTAT_FILLED : Fld := ⟨841, 8, .ro, .all 0x0F, .never, 1⟩
/-- R494 -/ def SEC_KEYSTAT_REVOKED : Fld := ⟨842, 8, .ro, .all 0, .never, 1⟩
/-- R494 -/ def SEC_SVNMIN_SVN : Fld := ⟨843, 32, .ro, .all 0, .never, 1⟩
/-- R494 -/ def SEC_CTL_SVNCOMMIT : Fld := ⟨844, 1, .wo, .all 0, .island, 1⟩
/-- R494 -/ def SEC_DBG_UNLOCKED : Fld := ⟨845, 1, .ro, .all 0, .island, 1⟩
/-- R494 -/ def SEC_OTPCTL_WORD : Fld := ⟨846, 12, .rw, .all 0, .island, 1⟩
/-- R494 -/ def SEC_OTPCTL_GO : Fld := ⟨847, 1, .wo, .all 0, .island, 1⟩
/-- R494 -/ def SEC_OTPDATA_DATA : Fld := ⟨848, 32, .rw, .all 0, .island, 1⟩
/-- R494 -/ def SEC_ERR_AUTH : Fld := ⟨849, 1, .w1c, .all 0, .island, 1⟩
/-- R494 -/ def SEC_ERR_NONCE : Fld := ⟨850, 1, .w1c, .all 0, .island, 1⟩
/-- R494 -/ def SEC_ERR_SVN : Fld := ⟨851, 1, .w1c, .all 0, .island, 1⟩
/-- R494 -/ def SEC_ERR_OTPW : Fld := ⟨852, 1, .w1c, .all 0, .island, 1⟩
/-- R494 -/ def SEC_ERR_KEY : Fld := ⟨853, 1, .w1c, .all 0, .island, 1⟩
/-- R550 -/ def DBG_STAT_OPEN : Fld := ⟨854, 1, .ro, .all 0, .island, 1⟩
/-- R550 -/ def DBG_STAT_JTAG : Fld := ⟨855, 1, .ro, .all 0, .island, 1⟩
/-- R550 -/ def DBG_STAT_HALTED : Fld := ⟨856, 8, .ro, .all 0, .island, 1⟩
/-- R550 -/ def DBG_CTL_HALT : Fld := ⟨857, 8, .wo, .all 0, .island, 1⟩
/-- R550 -/ def DBG_CTL_RESUME : Fld := ⟨858, 8, .wo, .all 0, .island, 1⟩
/-- R550 -/ def DBG_CTL_STEP : Fld := ⟨859, 8, .wo, .all 0, .island, 1⟩
/-- R550 -/ def DBG_ERR_DENIED : Fld := ⟨860, 1, .w1c, .all 0, .island, 1⟩

end F

namespace R

def GL_DEVID : Reg := ⟨0, [22], 0x0, 0x0, 1, 0x0, 1,
  [(0, F.GL_DEVID_PART, 0), (16, F.GL_DEVID_VARIANT, 0), (24, F.GL_DEVID_STEP, 0)]⟩
def GPIO_RAW : Reg := ⟨1, [22], 0x10, 0x0, 1, 0x0, 1,
  [(0, F.GPIO_RAW_GPIO, 0)]⟩
def GL_GSEQ : Reg := ⟨2, [22], 0x180, 0x0, 1, 0x0, 1,
  [(0, F.GL_GSEQ_NEXT, 0)]⟩
def GL_CMDQ : Reg := ⟨3, [22], 0x184, 0x0, 1, 0x0, 1,
  [(0, F.GL_CMDQ_USED, 0)]⟩
def GL_RSTCTL : Reg := ⟨4, [22], 0x200, 0x0, 1, 0x0, 1,
  [(0, F.GL_RSTCTL_WARM, 0), (8, F.GL_RSTCTL_CORE, 0)]⟩
def GL_ISLRST : Reg := ⟨5, [22], 0x204, 0x0, 1, 0x0, 1,
  [(1, F.GL_ISLRST_ISL, 0)]⟩
def GL_RSTCAUSE : Reg := ⟨6, [22], 0x208, 0x0, 1, 0x0, 1,
  [(0, F.GL_RSTCAUSE_POR, 0), (1, F.GL_RSTCAUSE_PIN, 0), (2, F.GL_RSTCAUSE_PLOSS, 0), (3, F.GL_RSTCAUSE_OFFEXIT, 0), (4, F.GL_RSTCAUSE_FW, 0), (5, F.GL_RSTCAUSE_HOST, 0), (6, F.GL_RSTCAUSE_DBG, 0), (7, F.GL_RSTCAUSE_LC, 0)]⟩
def GL_BOOTOPT : Reg := ⟨7, [22], 0x20c, 0x0, 1, 0x0, 1,
  [(0, F.GL_BOOTOPT_SPLIT, 0), (1, F.GL_BOOTOPT_BCEN, 0), (2, F.GL_BOOTOPT_HALT, 0), (3, F.GL_BOOTOPT_STRAPEN, 0)]⟩
def GL_BOOTSTAT : Reg := ⟨8, [22], 0x210, 0x0, 1, 0x0, 1,
  [(0, F.GL_BOOTSTAT_STAGE, 0), (4, F.GL_BOOTSTAT_BANK, 0), (5, F.GL_BOOTSTAT_FALLBACK, 0), (6, F.GL_BOOTSTAT_XTALFAIL, 0), (7, F.GL_BOOTSTAT_BAD, 0)]⟩
def GL_BCSTAT : Reg := ⟨9, [22], 0x214, 0x0, 1, 0x0, 1,
  [(0, F.GL_BCSTAT_STARTED, 0), (8, F.GL_BCSTAT_SKIP, 0), (16, F.GL_BCSTAT_DONE, 0)]⟩
def GL_WAKEVEC : Reg := ⟨10, [22], 0x218, 0x0, 1, 0x0, 1,
  [(0, F.GL_WAKEVEC_VEC, 0)]⟩
def GL_WAKECTL : Reg := ⟨11, [22], 0x21c, 0x0, 1, 0x0, 1,
  [(0, F.GL_WAKECTL_EN, 0)]⟩
def GL_WIPESTAT : Reg := ⟨12, [22], 0x220, 0x0, 1, 0x0, 1,
  [(0, F.GL_WIPESTAT_WIPING, 0)]⟩
def EF_CH : Reg := ⟨13, [0], 0x2000, 0x4, 256, 0x0, 1,
  [(0, F.EF_CH_SRC, 0), (16, F.EF_CH_LVL, 0)]⟩
def EF_LUTA : Reg := ⟨14, [0], 0x2400, 0x8, 48, 0x0, 1,
  [(0, F.EF_LUTA_IN, 0), (8, F.EF_LUTA_IN, 1), (16, F.EF_LUTA_IN, 2), (24, F.EF_LUTA_IN, 3)]⟩
def EF_LUTB : Reg := ⟨15, [0], 0x2404, 0x8, 48, 0x0, 1,
  [(0, F.EF_LUTB_TT, 0), (16, F.EF_LUTB_INEN, 0), (20, F.EF_LUTB_PULSE, 0), (24, F.EF_LUTB_OUT, 0)]⟩
def EF_FF : Reg := ⟨16, [0], 0x2600, 0x8, 16, 0x0, 1,
  [(0, F.EF_FF_D, 0), (8, F.EF_FF_CLK, 0), (16, F.EF_FF_SET, 0), (24, F.EF_FF_CLR, 0)]⟩
def EF_FFCFG : Reg := ⟨17, [0], 0x2604, 0x8, 16, 0x0, 1,
  [(0, F.EF_FFCFG_EN, 0), (4, F.EF_FFCFG_T, 0), (5, F.EF_FFCFG_INIT, 0), (6, F.EF_FFCFG_CLKFALL, 0), (8, F.EF_FFCFG_Q, 0), (16, F.EF_FFCFG_OVR, 0)]⟩
def EF_FLTA : Reg := ⟨18, [0], 0x2680, 0x8, 16, 0x0, 1,
  [(0, F.EF_FLTA_IN, 0), (8, F.EF_FLTA_EN, 0), (9, F.EF_FLTA_FALL, 0), (12, F.EF_FLTA_MODE, 0), (16, F.EF_FLTA_N, 0)]⟩
def EF_FLTB : Reg := ⟨19, [0], 0x2684, 0x8, 16, 0x0, 1,
  [(0, F.EF_FLTB_OUT, 0), (8, F.EF_FLTB_OVR, 0)]⟩
def EF_WCFG : Reg := ⟨20, [0], 0x2700, 0x4, 32, 0x0, 1,
  [(0, F.EF_WCFG_CH, 0), (8, F.EF_WCFG_EN, 0), (9, F.EF_WCFG_FALL, 0), (16, F.EF_WCFG_COUNT, 0)]⟩
def EF_WFLAG : Reg := ⟨21, [0], 0x2780, 0x0, 1, 0x0, 1,
  [(0, F.EF_WFLAG_FLAG, 0)]⟩
def EF_SWEV : Reg := ⟨22, [0], 0x2784, 0x0, 1, 0x0, 1,
  [(0, F.EF_SWEV_SW, 0)]⟩
def EF_ERR : Reg := ⟨23, [0], 0x2788, 0x0, 1, 0x0, 1,
  [(0, F.EF_ERR_LOOP, 0), (1, F.EF_ERR_BADVAL, 0), (8, F.EF_ERR_LOOPCH, 0)]⟩
def HI_CTL : Reg := ⟨24, [1], 0x0, 0x0, 1, 0x0, 1,
  [(0, F.HI_CTL_ERRVEC, 0), (8, F.HI_CTL_ERRIEN, 0)]⟩
def HI_STAT : Reg := ⟨25, [1], 0x4, 0x0, 1, 0x0, 1,
  [(0, F.HI_STAT_SPEED, 0), (4, F.HI_STAT_WIDTH, 0), (8, F.HI_STAT_FLIT, 0), (9, F.HI_STAT_DLUP, 0), (10, F.HI_STAT_L1, 0), (11, F.HI_STAT_BME, 0), (12, F.HI_STAT_D3, 0)]⟩
def HI_ERR : Reg := ⟨26, [1], 0x8, 0x0, 1, 0x0, 1,
  [(0, F.HI_ERR_ISLAND_OFF, 0), (1, F.HI_ERR_ISLAND_TIMEOUT, 0), (2, F.HI_ERR_BADLEN, 0), (3, F.HI_ERR_DBOFF, 0), (4, F.HI_ERR_LINKRST, 0), (5, F.HI_ERR_FLR, 0), (6, F.HI_ERR_EVTBLOCK, 0)]⟩
def HI_ERRADDR : Reg := ⟨27, [1], 0xc, 0x0, 1, 0x0, 1,
  [(0, F.HI_ERRADDR_OFFSET, 0), (24, F.HI_ERRADDR_BAR, 0), (31, F.HI_ERRADDR_VALID, 0)]⟩
def HI_LINKCAP : Reg := ⟨28, [1], 0x10, 0x0, 1, 0x0, 1,
  [(0, F.HI_LINKCAP_MAXSPEED, 0), (4, F.HI_LINKCAP_MAXWIDTH, 0), (31, F.HI_LINKCAP_LOCK, 0)]⟩
def HI_TXRSV : Reg := ⟨29, [1], 0x14, 0x0, 1, 0x0, 1,
  [(0, F.HI_TXRSV_PHDR, 0), (8, F.HI_TXRSV_PDATA, 0)]⟩
def HI_PTMCFG : Reg := ⟨30, [1], 0x18, 0x0, 1, 0x0, 1,
  [(0, F.HI_PTMCFG_INTERVAL, 0)]⟩
def MSIX_ADDR_LO : Reg := ⟨31, [1], 0x1000, 0x10, 64, 0x0, 1,
  [(0, F.MSIX_ADDR_LO_V, 0)]⟩
def MSIX_ADDR_HI : Reg := ⟨32, [1], 0x1004, 0x10, 64, 0x0, 1,
  [(0, F.MSIX_ADDR_HI_V, 0)]⟩
def MSIX_DATA : Reg := ⟨33, [1], 0x1008, 0x10, 64, 0x0, 1,
  [(0, F.MSIX_DATA_V, 0)]⟩
def MSIX_CTRL : Reg := ⟨34, [1], 0x100c, 0x10, 64, 0x0, 1,
  [(0, F.MSIX_CTRL_MASK, 0)]⟩
def MSIX_PBA : Reg := ⟨35, [1], 0x2000, 0x4, 2, 0x0, 1,
  [(0, F.MSIX_PBA_PBA, 0)]⟩
def RING_CFG : Reg := ⟨36, [2], 0x0, 0x100, 16, 0x0, 1,
  [(0, F.RING_CFG_TYPE, 0), (4, F.RING_CFG_SIZE, 0), (8, F.RING_CFG_VEC, 0), (16, F.RING_CFG_FETCHMAX, 0), (24, F.RING_CFG_LOCAL, 0)]⟩
def RING_BASE_LO : Reg := ⟨37, [2], 0x4, 0x100, 16, 0x0, 1,
  [(12, F.RING_BASE_LO_BASE_LO, 0)]⟩
def RING_BASE_HI : Reg := ⟨38, [2], 0x8, 0x100, 16, 0x0, 1,
  [(0, F.RING_BASE_HI_BASE_HI, 0)]⟩
def RING_CTL : Reg := ⟨39, [2], 0xc, 0x100, 16, 0x0, 1,
  [(0, F.RING_CTL_EN, 0), (1, F.RING_CTL_RESUME, 0), (2, F.RING_CTL_RESET, 0)]⟩
def RING_STAT : Reg := ⟨40, [2], 0x10, 0x100, 16, 0x0, 1,
  [(0, F.RING_STAT_STATE, 0), (16, F.RING_STAT_PENDING, 0)]⟩
def RING_HEAD : Reg := ⟨41, [2], 0x14, 0x100, 16, 0x0, 1,
  [(0, F.RING_HEAD_HEAD, 0)]⟩
def RING_TAIL : Reg := ⟨42, [2], 0x18, 0x100, 16, 0x0, 1,
  [(0, F.RING_TAIL_TAIL, 0)]⟩
def RING_DONE : Reg := ⟨43, [2], 0x1c, 0x100, 16, 0x0, 1,
  [(0, F.RING_DONE_DONE, 0)]⟩
def RING_ERR : Reg := ⟨44, [2], 0x20, 0x100, 16, 0x0, 1,
  [(0, F.RING_ERR_OWN, 0), (1, F.RING_ERR_DBRANGE, 0), (2, F.RING_ERR_FETCH, 0), (3, F.RING_ERR_CFG, 0), (4, F.RING_ERR_LINKRST, 0), (5, F.RING_ERR_RESTART, 0)]⟩
def RING_ICOAL : Reg := ⟨45, [2], 0x24, 0x100, 16, 0x0, 1,
  [(0, F.RING_ICOAL_COUNT, 0), (16, F.RING_ICOAL_TIME, 0)]⟩
def RING_SEQ : Reg := ⟨46, [2], 0x28, 0x100, 16, 0x0, 1,
  [(0, F.RING_SEQ_SEQ, 0)]⟩
def RING_GAPS : Reg := ⟨47, [2], 0x2c, 0x100, 16, 0x0, 1,
  [(0, F.RING_GAPS_DROPPED, 0)]⟩
def RING_ABN : Reg := ⟨48, [2], 0x30, 0x100, 16, 0x0, 1,
  [(0, F.RING_ABN_ABANDONED, 0)]⟩
def RING_ROUTE : Reg := ⟨49, [2], 0x1000, 0x0, 1, 0x0, 1,
  [(0, F.RING_ROUTE_FAULT, 0), (8, F.RING_ROUTE_OUTCOME, 0), (16, F.RING_ROUTE_EVENT, 0), (24, F.RING_ROUTE_TELEM, 0)]⟩
def RING_TELCFG : Reg := ⟨50, [2], 0x1004, 0x0, 1, 0x0, 1,
  [(0, F.RING_TELCFG_PERIOD, 0)]⟩
def RING_TELMASK : Reg := ⟨51, [2], 0x1008, 0x0, 1, 0x0, 1,
  [(0, F.RING_TELMASK_RAILS, 0)]⟩
def RING_BUFSTAT : Reg := ⟨52, [2], 0x100c, 0x0, 1, 0x0, 1,
  [(0, F.RING_BUFSTAT_USED, 0), (16, F.RING_BUFSTAT_BLOCKED, 0), (20, F.RING_BUFSTAT_BLKRING, 0)]⟩
def BL_CFG : Reg := ⟨53, [3], 0x0, 0x0, 1, 0x0, 1,
  [(0, F.BL_CFG_EN, 0), (1, F.BL_CFG_TBFOLLOW, 0)]⟩
def BL_CTL : Reg := ⟨54, [3], 0x4, 0x0, 1, 0x0, 1,
  [(0, F.BL_CTL_HANDOVER, 0), (1, F.BL_CTL_REFUSE, 0), (2, F.BL_CTL_RESYNC, 0)]⟩
def BL_STAT : Reg := ⟨55, [3], 0x8, 0x0, 1, 0x0, 1,
  [(0, F.BL_STAT_ROLE, 0), (2, F.BL_STAT_OWN, 0), (3, F.BL_STAT_KAIN, 0), (4, F.BL_STAT_LINKUP, 0), (5, F.BL_STAT_SYNC, 0), (8, F.BL_STAT_PARTNER, 0), (10, F.BL_STAT_SEL, 0), (12, F.BL_STAT_UPD, 0), (14, F.BL_STAT_PUPD, 0)]⟩
def BL_ERR : Reg := ⟨56, [3], 0xc, 0x0, 1, 0x0, 1,
  [(0, F.BL_ERR_VARIANT, 0), (1, F.BL_ERR_SELCONF, 0), (2, F.BL_ERR_COMPAT, 0), (3, F.BL_ERR_PADMODE, 0), (4, F.BL_ERR_CFGDIFF, 0), (5, F.BL_ERR_TBSKEW, 0), (6, F.BL_ERR_RETRY, 0), (7, F.BL_ERR_LINKLOST, 0), (8, F.BL_ERR_NOTSYNC, 0), (9, F.BL_ERR_REFUSED, 0), (10, F.BL_ERR_ROLECHG, 0)]⟩
def BL_IEN : Reg := ⟨57, [3], 0x10, 0x0, 1, 0x0, 1,
  [(0, F.BL_IEN_IEN, 0)]⟩
def BL_EPOCH : Reg := ⟨58, [3], 0x14, 0x0, 1, 0x0, 1,
  [(0, F.BL_EPOCH_EPOCH, 0)]⟩
def BL_CNT : Reg := ⟨59, [3], 0x18, 0x0, 1, 0x0, 1,
  [(0, F.BL_CNT_TORN, 0), (16, F.BL_CNT_HBMISS, 0)]⟩
def BL_RTT : Reg := ⟨60, [3], 0x1c, 0x0, 1, 0x0, 1,
  [(0, F.BL_RTT_RTT, 0), (16, F.BL_RTT_RETRIES, 0)]⟩
def BL_TKO_LO : Reg := ⟨61, [3], 0x20, 0x0, 1, 0x0, 1,
  [(0, F.BL_TKO_LO_T_LO, 0)]⟩
def BL_TKO_HI : Reg := ⟨62, [3], 0x24, 0x0, 1, 0x0, 1,
  [(0, F.BL_TKO_HI_T_HI, 0)]⟩
def BL_CFGSIG : Reg := ⟨63, [3], 0x28, 0x0, 1, 0x0, 1,
  [(0, F.BL_CFGSIG_SIG, 0)]⟩
def BL_PCFGSIG : Reg := ⟨64, [3], 0x2c, 0x0, 1, 0x0, 1,
  [(0, F.BL_PCFGSIG_SIG, 0)]⟩
def BL_PVER : Reg := ⟨65, [3], 0x30, 0x0, 1, 0x0, 1,
  [(0, F.BL_PVER_ROMVER, 0), (16, F.BL_PVER_CLASS, 0)]⟩
def RSC_CFG : Reg := ⟨66, [4, 5], 0x0, 0x200, 12, 0x0, 1,
  [(0, F.RSC_CFG_EN, 0), (1, F.RSC_CFG_MODE, 0), (4, F.RSC_CFG_REFSEL, 0), (8, F.RSC_CFG_CORR_FRZ, 0)]⟩
def RSC_SLOT : Reg := ⟨67, [4, 5], 0x4, 0x200, 12, 0x0, 1,
  [(0, F.RSC_SLOT_SLOT, 0), (2, F.RSC_SLOT_SLOT, 1), (4, F.RSC_SLOT_SLOT, 2), (6, F.RSC_SLOT_SLOT, 3), (8, F.RSC_SLOT_SLOT, 4), (10, F.RSC_SLOT_SLOT, 5), (12, F.RSC_SLOT_SLOT, 6), (14, F.RSC_SLOT_SLOT, 7)]⟩
def RSC_STAT : Reg := ⟨68, [4, 5], 0x8, 0x200, 12, 0x0, 1,
  [(0, F.RSC_STAT_REFRDY, 0), (1, F.RSC_STAT_CONV_OFS, 0), (2, F.RSC_STAT_CONV_GAIN, 0), (3, F.RSC_STAT_CONV_SKEW, 0), (4, F.RSC_STAT_CONV, 0), (5, F.RSC_STAT_FIRSTUSE, 0), (8, F.RSC_STAT_SLICE_FLT, 0)]⟩
def RSC_ERR : Reg := ⟨69, [4, 5], 0xc, 0x200, 12, 0x0, 1,
  [(0, F.RSC_ERR_CLIP, 0), (1, F.RSC_ERR_REFBUSY, 0), (2, F.RSC_ERR_SLOTBUSY, 0), (3, F.RSC_ERR_BADVAL, 0), (4, F.RSC_ERR_SLICE_NEW, 0), (5, F.RSC_ERR_REFLOST, 0), (6, F.RSC_ERR_FRZBUSY, 0)]⟩
def RSC_DACNOW : Reg := ⟨70, [4, 5], 0x10, 0x200, 12, 0x0, 1,
  [(0, F.RSC_DACNOW_CODE, 0)]⟩
def RSC_SWCFG : Reg := ⟨71, [4, 5], 0x14, 0x200, 12, 0x0, 1,
  [(0, F.RSC_SWCFG_SWSRC, 0), (16, F.RSC_SWCFG_SWDIV, 0)]⟩
def RSC_SWRES : Reg := ⟨72, [4, 5], 0x18, 0x200, 12, 0x0, 1,
  [(0, F.RSC_SWRES_RESULT, 0), (16, F.RSC_SWRES_SRC, 0), (28, F.RSC_SWRES_CLIPPED, 0), (29, F.RSC_SWRES_UNSETTLED, 0), (30, F.RSC_SWRES_OVR, 0), (31, F.RSC_SWRES_NEW, 0)]⟩
def RSC_SWCNT : Reg := ⟨73, [4, 5], 0x1c, 0x200, 12, 0x0, 1,
  [(0, F.RSC_SWCNT_COUNT, 0)]⟩
def RSC_DIVR : Reg := ⟨74, [4, 5], 0x20, 0x200, 12, 0x0, 1,
  [(0, F.RSC_DIVR_RATIO, 0)]⟩
def RSC_CORR_GAIN : Reg := ⟨75, [4, 5], 0x40, 0x200, 12, 0x4, 8,
  [(0, F.RSC_CORR_GAIN_GAIN, 0)]⟩
def RSC_CORR_OFS : Reg := ⟨76, [4, 5], 0x60, 0x200, 12, 0x4, 8,
  [(0, F.RSC_CORR_OFS_OFS, 0)]⟩
def RSC_CORR_SKEW : Reg := ⟨77, [4, 5], 0x80, 0x200, 12, 0x4, 8,
  [(0, F.RSC_CORR_SKEW_SKEW, 0)]⟩
def PROT_VCFG : Reg := ⟨78, [4, 5], 0x1800, 0x10, 24, 0x0, 1,
  [(0, F.PROT_VCFG_THR, 0), (12, F.PROT_VCFG_EN, 0), (13, F.PROT_VCFG_REL, 0), (16, F.PROT_VCFG_K, 0), (20, F.PROT_VCFG_W, 0)]⟩
def PROT_VSTAT : Reg := ⟨79, [4, 5], 0x1804, 0x10, 24, 0x0, 1,
  [(0, F.PROT_VSTAT_OUT, 0), (1, F.PROT_VSTAT_ARMED, 0), (2, F.PROT_VSTAT_TRIPPED, 0), (8, F.PROT_VSTAT_BADVAL, 0)]⟩
def PCC_CFG : Reg := ⟨80, [6, 7], 0x0, 0x40, 64, 0x0, 1,
  [(0, F.PCC_CFG_EN, 0), (1, F.PCC_CFG_AZ_EN, 0), (2, F.PCC_CFG_INV, 0)]⟩
def PCC_KA : Reg := ⟨81, [6, 7], 0x4, 0x40, 64, 0x0, 1,
  [(0, F.PCC_KA_KA, 0)]⟩
def PCC_OFS : Reg := ⟨82, [6, 7], 0x8, 0x40, 64, 0x0, 1,
  [(0, F.PCC_OFS_OFS, 0)]⟩
def PCC_GTRIM : Reg := ⟨83, [6, 7], 0xc, 0x40, 64, 0x0, 1,
  [(0, F.PCC_GTRIM_GTRIM, 0)]⟩
def PCC_SWRES : Reg := ⟨84, [6, 7], 0x10, 0x40, 64, 0x0, 1,
  [(0, F.PCC_SWRES_CURRENT, 0), (30, F.PCC_SWRES_OVR, 0), (31, F.PCC_SWRES_NEW, 0)]⟩
def PCC_ERR : Reg := ⟨85, [6, 7], 0x14, 0x40, 64, 0x0, 1,
  [(0, F.PCC_ERR_CLIP, 0), (1, F.PCC_ERR_SAT, 0), (2, F.PCC_ERR_AZ_FAIL, 0)]⟩
def PCC_SWCTL : Reg := ⟨86, [6, 7], 0x1000, 0x0, 1, 0x0, 1,
  [(0, F.PCC_SWCTL_SWDIV, 0)]⟩
def PROT_PCFG : Reg := ⟨87, [6, 7], 0x1200, 0x10, 64, 0x0, 1,
  [(0, F.PROT_PCFG_THR, 0), (10, F.PROT_PCFG_MODE, 0), (12, F.PROT_PCFG_KLVL, 0), (16, F.PROT_PCFG_SLOPE, 0)]⟩
def PROT_PBLK : Reg := ⟨88, [6, 7], 0x1204, 0x10, 64, 0x0, 1,
  [(0, F.PROT_PBLK_BLANK, 0), (8, F.PROT_PBLK_K, 0), (12, F.PROT_PBLK_W, 0), (16, F.PROT_PBLK_LIMCNT, 0)]⟩
def PROT_PSTAT : Reg := ⟨89, [6, 7], 0x1208, 0x10, 64, 0x0, 1,
  [(0, F.PROT_PSTAT_OUT, 0), (1, F.PROT_PSTAT_KILL, 0), (2, F.PROT_PSTAT_TRIPPED, 0), (3, F.PROT_PSTAT_LIMITED, 0), (4, F.PROT_PSTAT_LRUN, 0), (8, F.PROT_PSTAT_BADVAL, 0), (16, F.PROT_PSTAT_LCOUNT, 0)]⟩
def LE_CTL : Reg := ⟨90, [8, 9], 0x0, 0x200, 12, 0x0, 1,
  [(0, F.LE_CTL_COMMIT, 0)]⟩
def LE_FORM : Reg := ⟨91, [8, 9], 0x4, 0x200, 12, 0x0, 1,
  [(0, F.LE_FORM_FORM, 0)]⟩
def LE_RATE : Reg := ⟨92, [8, 9], 0x8, 0x200, 12, 0x0, 1,
  [(0, F.LE_RATE_ROUNDS, 0), (8, F.LE_RATE_ESHIFT, 0)]⟩
def LE_STAT : Reg := ⟨93, [8, 9], 0xc, 0x200, 12, 0x0, 1,
  [(0, F.LE_STAT_RUN, 0), (1, F.LE_STAT_FROZEN, 0), (2, F.LE_STAT_IACT, 0), (3, F.LE_STAT_BLEND, 0), (4, F.LE_STAT_BAND, 0), (8, F.LE_STAT_CKDEPTH, 0), (16, F.LE_STAT_ROUNDS_NOW, 0)]⟩
def LE_ERR : Reg := ⟨94, [8, 9], 0x10, 0x200, 12, 0x0, 1,
  [(0, F.LE_ERR_BADCFG, 0), (1, F.LE_ERR_INTENT, 0), (2, F.LE_ERR_CBUSY, 0), (3, F.LE_ERR_ISAT, 0), (4, F.LE_ERR_DSAT, 0), (5, F.LE_ERR_VIN, 0), (6, F.LE_ERR_ROMPAR, 0)]⟩
def LE_TARGET : Reg := ⟨95, [8, 9], 0x14, 0x200, 12, 0x0, 1,
  [(0, F.LE_TARGET_CODE, 0)]⟩
def LE_REFNOW : Reg := ⟨96, [8, 9], 0x18, 0x200, 12, 0x0, 1,
  [(0, F.LE_REFNOW_CODE, 0)]⟩
def LE_RAMP : Reg := ⟨97, [8, 9], 0x1c, 0x200, 12, 0x0, 1,
  [(0, F.LE_RAMP_STEP, 0)]⟩
def LE_LL : Reg := ⟨98, [8, 9], 0x20, 0x200, 12, 0x0, 1,
  [(0, F.LE_LL_SLOPE, 0), (24, F.LE_LL_TAU, 0), (31, F.LE_LL_EN, 0)]⟩
def LE_NLGT : Reg := ⟨99, [8, 9], 0x24, 0x200, 12, 0x0, 1,
  [(0, F.LE_NLGT_T1, 0), (16, F.LE_NLGT_T2, 0)]⟩
def LE_NLGT2 : Reg := ⟨100, [8, 9], 0x28, 0x200, 12, 0x0, 1,
  [(0, F.LE_NLGT2_T3, 0), (16, F.LE_NLGT2_HYS, 0)]⟩
def LE_NLGG0 : Reg := ⟨101, [8, 9], 0x2c, 0x200, 12, 0x0, 1,
  [(0, F.LE_NLGG0_G0, 0), (16, F.LE_NLGG0_G1, 0)]⟩
def LE_NLGG1 : Reg := ⟨102, [8, 9], 0x30, 0x200, 12, 0x0, 1,
  [(0, F.LE_NLGG1_G2, 0), (16, F.LE_NLGG1_G3, 0)]⟩
def LE_VIN : Reg := ⟨103, [8, 9], 0x34, 0x200, 12, 0x0, 1,
  [(0, F.LE_VIN_SRC, 0), (7, F.LE_VIN_EN, 0), (16, F.LE_VIN_VINK, 0)]⟩
def LE_DFF : Reg := ⟨104, [8, 9], 0x38, 0x200, 12, 0x0, 1,
  [(0, F.LE_DFF_DFF, 0)]⟩
def LE_DFFNOW : Reg := ⟨105, [8, 9], 0x3c, 0x200, 12, 0x0, 1,
  [(0, F.LE_DFFNOW_DFF, 0)]⟩
def LE_CMDNOW : Reg := ⟨106, [8, 9], 0x40, 0x200, 12, 0x0, 1,
  [(0, F.LE_CMDNOW_CMD, 0)]⟩
def LE_CALCFG : Reg := ⟨107, [8, 9], 0x44, 0x200, 12, 0x0, 1,
  [(0, F.LE_CALCFG_PHASE, 0), (8, F.LE_CALCFG_PULSE, 0), (24, F.LE_CALCFG_EVERY, 0)]⟩
def LE_CALRES : Reg := ⟨108, [8, 9], 0x48, 0x200, 12, 0x0, 1,
  [(0, F.LE_CALRES_SUM, 0), (24, F.LE_CALRES_COUNT, 0)]⟩
def LE_RSTATE : Reg := ⟨109, [8, 9], 0xf0, 0x200, 12, 0x0, 1,
  [(0, F.LE_RSTATE_RSTATE, 0), (8, F.LE_RSTATE_QDEPTH, 0), (24, F.LE_RSTATE_GATE, 0)]⟩
def LE_RSEQ : Reg := ⟨110, [8, 9], 0xf4, 0x200, 12, 0x0, 1,
  [(0, F.LE_RSEQ_NEXT, 0)]⟩
def LE_RLAST : Reg := ⟨111, [8, 9], 0xf8, 0x200, 12, 0x0, 1,
  [(0, F.LE_RLAST_LAST, 0)]⟩
def LE_UCODE_VER : Reg := ⟨112, [8, 9], 0xfc, 0x200, 12, 0x0, 1,
  [(0, F.LE_UCODE_VER_ROMVER, 0), (16, F.LE_UCODE_VER_FORM, 0), (24, F.LE_UCODE_VER_FORMSET, 0)]⟩
def LE_COEF : Reg := ⟨113, [8, 9], 0x100, 0x200, 12, 0x4, 32,
  [(0, F.LE_COEF_VALUE, 0)]⟩
def LE_BAL : Reg := ⟨114, [8, 9], 0x1800, 0x4, 64, 0x0, 1,
  [(0, F.LE_BAL_TRIM, 0)]⟩
def LE_BALCFG : Reg := ⟨115, [8, 9], 0x1904, 0x0, 1, 0x0, 1,
  [(0, F.LE_BALCFG_STEP, 0)]⟩
def PROT_RRESP0 : Reg := ⟨116, [8, 9], 0x3800, 0x80, 12, 0x0, 1,
  [(0, F.PROT_RRESP, 0), (3, F.PROT_RRESP, 1), (6, F.PROT_RRESP, 2), (9, F.PROT_RRESP, 3), (12, F.PROT_RRESP, 4), (15, F.PROT_RRESP, 5), (18, F.PROT_RRESP, 6), (21, F.PROT_RRESP, 7), (24, F.PROT_RRESP, 8), (27, F.PROT_RRESP, 9)]⟩
def PROT_RRESP1 : Reg := ⟨117, [8, 9], 0x3804, 0x80, 12, 0x0, 1,
  [(0, F.PROT_RRESP, 10), (3, F.PROT_RRESP, 11), (6, F.PROT_RRESP, 12), (9, F.PROT_RRESP, 13), (12, F.PROT_RRESP, 14), (15, F.PROT_RRESP, 15)]⟩
def PROT_RCFG : Reg := ⟨118, [8, 9], 0x3808, 0x80, 12, 0x0, 1,
  [(0, F.PROT_RCFG_OVLVL, 0), (8, F.PROT_RCFG_KHOLD, 0), (16, F.PROT_RCFG_HICMAX, 0), (20, F.PROT_RCFG_ESCTO, 0), (24, F.PROT_RCFG_ESCN, 0)]⟩
def PROT_RTIME : Reg := ⟨119, [8, 9], 0x380c, 0x80, 12, 0x0, 1,
  [(0, F.PROT_RTIME_HICTIME, 0), (16, F.PROT_RTIME_TOFF, 0)]⟩
def PROT_RESC : Reg := ⟨120, [8, 9], 0x3810, 0x80, 12, 0x0, 1,
  [(0, F.PROT_RESC_ESCDEC, 0), (16, F.PROT_RESC_ESCCNT, 0)]⟩
def PROT_DLIM0 : Reg := ⟨121, [8, 9], 0x3814, 0x80, 12, 0x0, 1,
  [(0, F.PROT_DLIM0_IPHLIM, 0)]⟩
def PROT_DLIM1 : Reg := ⟨122, [8, 9], 0x3818, 0x80, 12, 0x0, 1,
  [(0, F.PROT_DLIM1_INEG, 0)]⟩
def PROT_DLIM2 : Reg := ⟨123, [8, 9], 0x381c, 0x80, 12, 0x0, 1,
  [(0, F.PROT_DLIM2_ISUMLIM, 0), (24, F.PROT_DLIM2_ISUMCNT, 0)]⟩
def PROT_DLIM3 : Reg := ⟨124, [8, 9], 0x3820, 0x80, 12, 0x0, 1,
  [(0, F.PROT_DLIM3_EOVLIM, 0), (16, F.PROT_DLIM3_EUVLIM, 0)]⟩
def PROT_DLIM4 : Reg := ⟨125, [8, 9], 0x3824, 0x80, 12, 0x0, 1,
  [(0, F.PROT_DLIM4_ECNT, 0), (8, F.PROT_DLIM4_DSATCNT, 0)]⟩
def PROT_HKLIM : Reg := ⟨126, [8, 9], 0x3828, 0x80, 12, 0x0, 1,
  [(0, F.PROT_HKLIM_ENTRY, 0), (7, F.PROT_HKLIM_EN, 0)]⟩
def PROT_HKVAL : Reg := ⟨127, [8, 9], 0x382c, 0x80, 12, 0x0, 1,
  [(0, F.PROT_HKVAL_HI, 0), (16, F.PROT_HKVAL_LO, 0)]⟩
def PROT_RFLT : Reg := ⟨128, [8, 9], 0x3830, 0x80, 12, 0x0, 1,
  [(0, F.PROT_RFLT_FIRST, 0), (8, F.PROT_RFLT_LATCHED, 0), (9, F.PROT_RFLT_HICCUP, 0), (10, F.PROT_RFLT_ESC, 0), (12, F.PROT_RFLT_RETRIES, 0), (16, F.PROT_RFLT_CAUSE, 0)]⟩
def PROT_RHIST : Reg := ⟨129, [8, 9], 0x3834, 0x80, 12, 0x0, 1,
  [(0, F.PROT_RHIST_SEEN, 0)]⟩
def PROT_RFTS_LO : Reg := ⟨130, [8, 9], 0x3838, 0x80, 12, 0x0, 1,
  [(0, F.PROT_RFTS_LO_T_LO, 0)]⟩
def PROT_RFTS_HI : Reg := ⟨131, [8, 9], 0x383c, 0x80, 12, 0x0, 1,
  [(0, F.PROT_RFTS_HI_T_HI, 0)]⟩
def PROT_RCLR : Reg := ⟨132, [8, 9], 0x3840, 0x80, 12, 0x0, 1,
  [(0, F.PROT_RCLR_CLR, 0)]⟩
def PROT_RPH : Reg := ⟨133, [8, 9], 0x3844, 0x80, 12, 0x0, 1,
  [(0, F.PROT_RPH_LANES, 0)]⟩
def PROT_RCNT : Reg := ⟨134, [8, 9], 0x3848, 0x80, 12, 0x0, 1,
  [(0, F.PROT_RCNT_TRIPS, 0), (16, F.PROT_RCNT_FAULTS, 0)]⟩
def PROT_RIEN : Reg := ⟨135, [8, 9], 0x384c, 0x80, 12, 0x0, 1,
  [(0, F.PROT_RIEN_IEN, 0)]⟩
def PROT_ERR : Reg := ⟨136, [8, 9], 0x3e00, 0x0, 1, 0x0, 1,
  [(0, F.PROT_ERR_BADVAL, 0), (1, F.PROT_ERR_CLRREF, 0), (2, F.PROT_ERR_CLRBUSY, 0)]⟩
def FC_CFG : Reg := ⟨137, [8], 0x2000, 0x0, 1, 0x0, 1,
  [(0, F.FC_CFG_EN, 0), (1, F.FC_CFG_STATCLR, 0)]⟩
def FC_ERR : Reg := ⟨138, [8], 0x2004, 0x0, 1, 0x0, 1,
  [(0, F.FC_ERR_TPLBUSY, 0), (1, F.FC_ERR_BADVAL, 0), (2, F.FC_ERR_REFUSED, 0)]⟩
def FC_OCC : Reg := ⟨139, [8], 0x2008, 0x0, 1, 0x0, 1,
  [(0, F.FC_OCC_COUNT, 0)]⟩
def HINT_ACKCFG : Reg := ⟨140, [8], 0x3480, 0x0, 1, 0x0, 1,
  [(0, F.HINT_ACKCFG_PW, 0)]⟩
def FC_RAILA : Reg := ⟨141, [8], 0x2100, 0x10, 24, 0x0, 1,
  [(0, F.FC_RAILA_SPH, 0), (16, F.FC_RAILA_NMAX, 0), (31, F.FC_RAILA_IEN, 0)]⟩
def FC_RAILB : Reg := ⟨142, [8], 0x2104, 0x10, 24, 0x0, 1,
  [(0, F.FC_RAILB_IPHMAX, 0), (16, F.FC_RAILB_TPHADD, 0)]⟩
def FC_RAILC : Reg := ⟨143, [8], 0x2108, 0x10, 24, 0x0, 1,
  [(0, F.FC_RAILC_RBSLEW, 0), (16, F.FC_RAILC_XMAX, 0)]⟩
def FC_RAILD : Reg := ⟨144, [8], 0x210c, 0x10, 24, 0x0, 1,
  [(0, F.FC_RAILD_COUT, 0)]⟩
def FC_RSTAT : Reg := ⟨145, [8], 0x2300, 0x4, 24, 0x0, 1,
  [(0, F.FC_RSTAT_INFLIGHT, 0), (8, F.FC_RSTAT_LASTOUT, 0), (16, F.FC_RSTAT_FSEQ, 0)]⟩
def FC_TPLA : Reg := ⟨146, [8], 0x2400, 0x20, 32, 0x0, 1,
  [(0, F.FC_TPLA_EN, 0), (8, F.FC_TPLA_RAIL, 0), (16, F.FC_TPLA_CONF, 0)]⟩
def FC_TPLB : Reg := ⟨147, [8], 0x2404, 0x20, 32, 0x0, 1,
  [(0, F.FC_TPLB_STEP, 0), (16, F.FC_TPLB_ADV, 0)]⟩
def FC_TPLC : Reg := ⟨148, [8], 0x2408, 0x20, 32, 0x0, 1,
  [(0, F.FC_TPLC_RISE, 0), (16, F.FC_TPLC_FALL, 0)]⟩
def FC_TPLD : Reg := ⟨149, [8], 0x240c, 0x20, 32, 0x0, 1,
  [(0, F.FC_TPLD_DWELL, 0), (16, F.FC_TPLD_CWIN, 0)]⟩
def FC_TPLE : Reg := ⟨150, [8], 0x2410, 0x20, 32, 0x0, 1,
  [(0, F.FC_TPLE_TOLI, 0), (16, F.FC_TPLE_TOLD, 0)]⟩
def FC_TPLF : Reg := ⟨151, [8], 0x2414, 0x20, 32, 0x0, 1,
  [(0, F.FC_TPLF_TLEAD, 0)]⟩
def FC_TPLG : Reg := ⟨152, [8], 0x2418, 0x20, 32, 0x0, 1,
  [(0, F.FC_TPLG_PCEN, 0), (1, F.FC_TPLG_PCCH, 0), (4, F.FC_TPLG_PCLVL, 0), (16, F.FC_TPLG_PCHOLD, 0)]⟩
def FC_TSTAT_HIT : Reg := ⟨153, [8], 0x2800, 0x10, 32, 0x0, 1,
  [(0, F.FC_TSTAT_HIT_HIT, 0)]⟩
def FC_TSTAT_MISS : Reg := ⟨154, [8], 0x2804, 0x10, 32, 0x0, 1,
  [(0, F.FC_TSTAT_MISS_MISS, 0)]⟩
def FC_TSTAT_ABORT : Reg := ⟨155, [8], 0x2808, 0x10, 32, 0x0, 1,
  [(0, F.FC_TSTAT_ABORT_ABORT, 0)]⟩
def FC_TSTAT_REFUSE : Reg := ⟨156, [8], 0x280c, 0x10, 32, 0x0, 1,
  [(0, F.FC_TSTAT_REFUSE_REFUSE, 0)]⟩
def FC_ENTA : Reg := ⟨157, [8], 0x2a00, 0x10, 128, 0x0, 1,
  [(0, F.FC_ENTA_STATE, 0), (4, F.FC_ENTA_LATE, 0), (5, F.FC_ENTA_CAPPED, 0), (7, F.FC_ENTA_SRC, 0), (8, F.FC_ENTA_SRCIDX, 0), (16, F.FC_ENTA_RAIL, 0)]⟩
def FC_ENTB : Reg := ⟨158, [8], 0x2a04, 0x10, 128, 0x0, 1,
  [(0, F.FC_ENTB_FID, 0), (16, F.FC_ENTB_FSEQ, 0)]⟩
def FC_ENTC : Reg := ⟨159, [8], 0x2a08, 0x10, 128, 0x0, 1,
  [(0, F.FC_ENTC_START_LO, 0)]⟩
def FC_ENTD : Reg := ⟨160, [8], 0x2a0c, 0x10, 128, 0x0, 1,
  [(0, F.FC_ENTD_START_HI, 0)]⟩
def HINT_CFG : Reg := ⟨161, [8], 0x3400, 0x4, 16, 0x0, 1,
  [(0, F.HINT_CFG_EN, 0), (1, F.HINT_CFG_EDGE, 0), (4, F.HINT_CFG_TPL, 0), (10, F.HINT_CFG_ACK, 0), (12, F.HINT_CFG_ACKEN, 0), (16, F.HINT_CFG_HOLDOFF, 0)]⟩
def HINT_CNT : Reg := ⟨162, [8], 0x3440, 0x4, 16, 0x0, 1,
  [(0, F.HINT_CNT_ACCEPTED, 0), (16, F.HINT_CNT_IGNORED, 0)]⟩
def PW_BIND : Reg := ⟨163, [10, 11], 0x0, 0x20, 64, 0x0, 1,
  [(0, F.PW_BIND_EN, 0), (8, F.PW_BIND_RAIL, 0), (16, F.PW_BIND_LANE, 0)]⟩
def PW_EDGE : Reg := ⟨164, [10, 11], 0x4, 0x20, 64, 0x0, 1,
  [(0, F.PW_EDGE_DUTY, 0), (24, F.PW_EDGE_LVL, 0)]⟩
def PW_PHSTAT : Reg := ⟨165, [10, 11], 0x8, 0x20, 64, 0x0, 1,
  [(0, F.PW_PHSTAT_STATE, 0), (4, F.PW_PHSTAT_XG, 0), (5, F.PW_PHSTAT_LIM, 0), (8, F.PW_PHSTAT_KSRC, 0), (16, F.PW_PHSTAT_RANK, 0), (24, F.PW_PHSTAT_DTNOW, 0)]⟩
def PW_RAILCFG : Reg := ⟨166, [10, 11], 0x1000, 0x40, 12, 0x0, 1,
  [(0, F.PW_RAILCFG_MOD, 0), (2, F.PW_RAILCFG_FASTON, 0), (3, F.PW_RAILCFG_DE, 0), (4, F.PW_RAILCFG_MIDDRV, 0), (8, F.PW_RAILCFG_BOOT, 0)]⟩
def PW_PER : Reg := ⟨167, [10, 11], 0x1004, 0x40, 12, 0x0, 1,
  [(0, F.PW_PER_PER, 0)]⟩
def PW_RAILPH : Reg := ⟨168, [10, 11], 0x1008, 0x40, 12, 0x0, 1,
  [(0, F.PW_RAILPH_PH, 0)]⟩
def PW_TLIM : Reg := ⟨169, [10, 11], 0x100c, 0x40, 12, 0x0, 1,
  [(0, F.PW_TLIM_TONMIN, 0), (16, F.PW_TLIM_TOFFMIN, 0)]⟩
def PW_DT : Reg := ⟨170, [10, 11], 0x1010, 0x40, 12, 0x0, 1,
  [(0, F.PW_DT_DTHL, 0), (16, F.PW_DT_DTLH, 0)]⟩
def PW_DTA : Reg := ⟨171, [10, 11], 0x1014, 0x40, 12, 0x0, 1,
  [(0, F.PW_DTA_DTK, 0), (16, F.PW_DTA_DTMIN, 0), (31, F.PW_DTA_ADT, 0)]⟩
def PW_ZC : Reg := ⟨172, [10, 11], 0x1018, 0x40, 12, 0x0, 1,
  [(0, F.PW_ZC_ZCTHR, 0)]⟩
def PW_NREQ : Reg := ⟨173, [10, 11], 0x101c, 0x40, 12, 0x0, 1,
  [(0, F.PW_NREQ_NREQ, 0)]⟩
def PW_ENCFG : Reg := ⟨174, [10, 11], 0x1020, 0x40, 12, 0x0, 1,
  [(0, F.PW_ENCFG_ENDLY, 0), (16, F.PW_ENCFG_OFFDLY, 0)]⟩
def PW_KSEL : Reg := ⟨175, [10, 11], 0x1024, 0x40, 12, 0x0, 1,
  [(0, F.PW_KSEL_KL, 0), (8, F.PW_KSEL_KACT, 0)]⟩
def PW_RSTAT : Reg := ⟨176, [10, 11], 0x1028, 0x40, 12, 0x0, 1,
  [(0, F.PW_RSTAT_NNOW, 0), (8, F.PW_RSTAT_NREQ, 0), (16, F.PW_RSTAT_NBOUND, 0), (24, F.PW_RSTAT_RAILEN, 0), (25, F.PW_RSTAT_REBASE, 0)]⟩
def PW_SHEDMAX : Reg := ⟨177, [10, 11], 0x102c, 0x40, 12, 0x0, 1,
  [(0, F.PW_SHEDMAX_SHEDMAX, 0)]⟩
def PW_CTL : Reg := ⟨178, [10, 11], 0x1800, 0x0, 1, 0x0, 1,
  [(0, F.PW_CTL_BCOMMIT, 0), (16, F.PW_CTL_RCOMMIT, 0)]⟩
def PW_ERR : Reg := ⟨179, [10, 11], 0x1804, 0x0, 1, 0x0, 1,
  [(0, F.PW_ERR_BINDLIM, 0), (1, F.PW_ERR_XGLIM, 0), (2, F.PW_ERR_LANEDUP, 0), (3, F.PW_ERR_ACTIVE, 0), (4, F.PW_ERR_BADVAL, 0), (5, F.PW_ERR_CBUSY, 0), (6, F.PW_ERR_FRANGE, 0)]⟩
def PW_STAT : Reg := ⟨180, [10, 11], 0x1808, 0x0, 1, 0x0, 1,
  [(0, F.PW_STAT_DLLOCK, 0), (8, F.PW_STAT_XGCOUNT, 0)]⟩
def PW_KLCFG : Reg := ⟨181, [10, 11], 0x180c, 0x0, 1, 0x0, 1,
  [(0, F.PW_KLCFG_CH4, 0), (8, F.PW_KLCFG_CH5, 0), (16, F.PW_KLCFG_CH6, 0), (24, F.PW_KLCFG_CH7, 0)]⟩
def CX_CTL : Reg := ⟨182, [12, 13], 0x0, 0x40, 4, 0x0, 1,
  [(0, F.CX_CTL_START, 0)]⟩
def CX_ENTRY : Reg := ⟨183, [12, 13], 0x4, 0x40, 4, 0x0, 1,
  [(0, F.CX_ENTRY_ADDR, 0)]⟩
def CX_STAT : Reg := ⟨184, [12, 13], 0x8, 0x40, 4, 0x0, 1,
  [(0, F.CX_STAT_STATE, 0), (3, F.CX_STAT_RECOV, 0), (4, F.CX_STAT_PRIV, 0)]⟩
def CX_PC : Reg := ⟨185, [12, 13], 0xc, 0x40, 4, 0x0, 1,
  [(0, F.CX_PC_PC, 0)]⟩
def CX_PERF : Reg := ⟨186, [12, 13], 0x10, 0x40, 4, 0x0, 1,
  [(0, F.CX_PERF_LBMISS, 0), (16, F.CX_PERF_BPMISS, 0)]⟩
def LS_CFG : Reg := ⟨187, [12], 0x400, 0x20, 4, 0x0, 1,
  [(0, F.LS_CFG_ACT, 0), (2, F.LS_CFG_BELAY, 0), (8, F.LS_CFG_LIMIT, 0), (16, F.LS_CFG_LWIN, 0)]⟩
def LS_STAT : Reg := ⟨188, [12], 0x404, 0x20, 4, 0x0, 1,
  [(0, F.LS_STAT_CAUSE, 0), (4, F.LS_STAT_HELD, 0), (16, F.LS_STAT_COUNT, 0)]⟩
def LS_MCPC : Reg := ⟨189, [12], 0x408, 0x20, 4, 0x0, 1,
  [(0, F.LS_MCPC_PC, 0)]⟩
def LS_MCADDR : Reg := ⟨190, [12], 0x40c, 0x20, 4, 0x0, 1,
  [(0, F.LS_MCADDR_ADDR, 0)]⟩
def LS_AIP_GPIO : Reg := ⟨191, [12], 0x480, 0x0, 1, 0x0, 1,
  [(0, F.LS_AIP_GPIO_VALUE, 0)]⟩
def LS_AIP_HKC : Reg := ⟨192, [12], 0x484, 0x0, 1, 0x0, 1,
  [(0, F.LS_AIP_HKC_VALUE, 0), (16, F.LS_AIP_HKC_INPUT, 0)]⟩
def IC_CFG : Reg := ⟨193, [12], 0x1000, 0x4, 512, 0x0, 1,
  [(0, F.IC_CFG_LVL, 0), (4, F.IC_CFG_TRIG, 0), (8, F.IC_CFG_TARGET, 0), (16, F.IC_CFG_PREF, 0), (24, F.IC_CFG_PEND, 0), (25, F.IC_CFG_INSVC, 0), (26, F.IC_CFG_LINE, 0), (28, F.IC_CFG_CORE, 0)]⟩
def IC_MASK : Reg := ⟨194, [12], 0x1800, 0x4, 16, 0x0, 1,
  [(0, F.IC_MASK_MASK, 0)]⟩
def IC_PEND : Reg := ⟨195, [12], 0x1840, 0x4, 16, 0x0, 1,
  [(0, F.IC_PEND_PEND, 0)]⟩
def IC_SEM : Reg := ⟨196, [12], 0x1880, 0x4, 8, 0x0, 1,
  [(0, F.IC_SEM_TAKEN, 0), (4, F.IC_SEM_HOLDER, 0)]⟩
def IC_CORE : Reg := ⟨197, [12], 0x18a0, 0x4, 8, 0x0, 1,
  [(0, F.IC_CORE_ELVL, 0), (4, F.IC_CORE_ITHR, 0), (8, F.IC_CORE_AWAKE, 0), (9, F.IC_CORE_IE, 0), (16, F.IC_CORE_OFFER, 0), (31, F.IC_CORE_OFFERV, 0)]⟩
def FW_STAT : Reg := ⟨198, [14], 0x0, 0x0, 1, 0x0, 1,
  [(0, F.FW_STAT_ACTIVE, 0), (1, F.FW_STAT_BOOTSEL, 0), (2, F.FW_STAT_STAGING, 0), (3, F.FW_STAT_RXBUSY, 0)]⟩
def FW_LOADLIM : Reg := ⟨199, [14], 0x4, 0x0, 1, 0x0, 1,
  [(0, F.FW_LOADLIM_LIMIT, 0)]⟩
def FW_PCTL : Reg := ⟨200, [14], 0x20, 0x0, 1, 0x0, 1,
  [(0, F.FW_PCTL_ERASE, 0), (1, F.FW_PCTL_PROG, 0), (2, F.FW_PCTL_BUSY, 0), (3, F.FW_PCTL_ERR, 0)]⟩
def FW_PADDR : Reg := ⟨201, [14], 0x24, 0x0, 1, 0x0, 1,
  [(0, F.FW_PADDR_ADDR, 0)]⟩
def FW_RXCFG : Reg := ⟨202, [14], 0x80, 0x0, 1, 0x0, 1,
  [(0, F.FW_RXCFG_EN, 0)]⟩
def FW_RXSTAT : Reg := ⟨203, [14], 0x84, 0x0, 1, 0x0, 1,
  [(0, F.FW_RXSTAT_SRC, 0), (8, F.FW_RXSTAT_BYTES, 0)]⟩
def FW_RSEND : Reg := ⟨204, [14], 0x88, 0x0, 1, 0x0, 1,
  [(0, F.FW_RSEND_DST, 0), (4, F.FW_RSEND_BANK, 0), (8, F.FW_RSEND_START, 0), (9, F.FW_RSEND_BUSY, 0), (12, F.FW_RSEND_RESULT, 0)]⟩
def FW_RSLEN : Reg := ⟨205, [14], 0x8c, 0x0, 1, 0x0, 1,
  [(0, F.FW_RSLEN_LENGTH, 0)]⟩
def FW_CHK : Reg := ⟨206, [14], 0x8, 0x4, 2, 0x0, 1,
  [(0, F.FW_CHK_RESULT, 0), (16, F.FW_CHK_CLASS, 0)]⟩
def FW_VER : Reg := ⟨207, [14], 0x10, 0x4, 2, 0x0, 1,
  [(0, F.FW_VER_VERSION, 0)]⟩
def FW_PDATA : Reg := ⟨208, [14], 0x40, 0x4, 16, 0x0, 1,
  [(0, F.FW_PDATA_DATA, 0)]⟩
def DMA_CTL : Reg := ⟨209, [15], 0x0, 0x0, 1, 0x0, 1,
  [(0, F.DMA_CTL_HPRIO, 0), (31, F.DMA_CTL_HWLOCK, 0)]⟩
def DMA_STAT : Reg := ⟨210, [15], 0x4, 0x0, 1, 0x0, 1,
  [(0, F.DMA_STAT_BUFUSED, 0)]⟩
def TR_BANKSTAT : Reg := ⟨211, [15], 0x1800, 0x0, 1, 0x0, 1,
  [(0, F.TR_BANKSTAT_ON, 0), (16, F.TR_BANKSTAT_INUSE, 0)]⟩
def DMA_HWIN_BASE : Reg := ⟨212, [15], 0x40, 0x10, 4, 0x0, 1,
  [(0, F.DMA_HWIN_BASE_BASE, 0)]⟩
def DMA_HWIN_LIMIT : Reg := ⟨213, [15], 0x44, 0x10, 4, 0x0, 1,
  [(0, F.DMA_HWIN_LIMIT_LIMIT, 0)]⟩
def DMA_HWIN_ATTR : Reg := ⟨214, [15], 0x48, 0x10, 4, 0x0, 1,
  [(0, F.DMA_HWIN_ATTR_EN, 0), (1, F.DMA_HWIN_ATTR_RD, 0), (2, F.DMA_HWIN_ATTR_WR, 0)]⟩
def DMA_CHPTR : Reg := ⟨215, [15], 0x400, 0x40, 32, 0x0, 1,
  [(0, F.DMA_CHPTR_ADDR, 0)]⟩
def DMA_CHCTL : Reg := ⟨216, [15], 0x404, 0x40, 32, 0x0, 1,
  [(0, F.DMA_CHCTL_START, 0), (1, F.DMA_CHCTL_ABORT, 0), (4, F.DMA_CHCTL_PRIO, 0), (8, F.DMA_CHCTL_TRIGCH, 0), (16, F.DMA_CHCTL_TRIGEN, 0), (17, F.DMA_CHCTL_TRIGFALL, 0)]⟩
def DMA_CHSTAT : Reg := ⟨217, [15], 0x408, 0x40, 32, 0x0, 1,
  [(0, F.DMA_CHSTAT_BUSY, 0), (8, F.DMA_CHSTAT_STATUS, 0), (16, F.DMA_CHSTAT_XSTAT, 0), (24, F.DMA_CHSTAT_TRIGOVR, 0)]⟩
def DMA_CHCNT : Reg := ⟨218, [15], 0x40c, 0x40, 32, 0x0, 1,
  [(0, F.DMA_CHCNT_DONECNT, 0)]⟩
def DMA_CHCUR : Reg := ⟨219, [15], 0x410, 0x40, 32, 0x0, 1,
  [(0, F.DMA_CHCUR_ADDR, 0)]⟩
def TR_CFG : Reg := ⟨220, [15], 0x1000, 0x100, 4, 0x0, 1,
  [(0, F.TR_CFG_MODE, 0), (8, F.TR_CFG_BANK0, 0), (12, F.TR_CFG_NBANK, 0), (16, F.TR_CFG_TRIGCH, 0), (24, F.TR_CFG_TRIGEN, 0), (25, F.TR_CFG_TRIGFALL, 0), (28, F.TR_CFG_CHEN, 0), (29, F.TR_CFG_EVTEN, 0)]⟩
def TR_PRE : Reg := ⟨221, [15], 0x1004, 0x100, 4, 0x0, 1,
  [(0, F.TR_PRE_PRE, 0)]⟩
def TR_POST : Reg := ⟨222, [15], 0x1008, 0x100, 4, 0x0, 1,
  [(0, F.TR_POST_POST, 0)]⟩
def TR_CTL : Reg := ⟨223, [15], 0x100c, 0x100, 4, 0x0, 1,
  [(0, F.TR_CTL_ARM, 0), (1, F.TR_CTL_TRIG, 0), (2, F.TR_CTL_STOP, 0), (3, F.TR_CTL_RELEASE, 0)]⟩
def TR_STAT : Reg := ⟨224, [15], 0x1010, 0x100, 4, 0x0, 1,
  [(0, F.TR_STAT_STATE, 0), (4, F.TR_STAT_SHORTPRE, 0), (5, F.TR_STAT_STOPPED, 0), (8, F.TR_STAT_TRIGOVR, 0)]⟩
def TR_SEQ : Reg := ⟨225, [15], 0x1014, 0x100, 4, 0x0, 1,
  [(0, F.TR_SEQ_SEQ, 0)]⟩
def TR_TRIGSEQ : Reg := ⟨226, [15], 0x1018, 0x100, 4, 0x0, 1,
  [(0, F.TR_TRIGSEQ_SEQ, 0)]⟩
def TR_FIRSTSEQ : Reg := ⟨227, [15], 0x101c, 0x100, 4, 0x0, 1,
  [(0, F.TR_FIRSTSEQ_SEQ, 0)]⟩
def TR_TRIGTB_LO : Reg := ⟨228, [15], 0x1020, 0x100, 4, 0x0, 1,
  [(0, F.TR_TRIGTB_LO_T_LO, 0)]⟩
def TR_TRIGTB_HI : Reg := ⟨229, [15], 0x1024, 0x100, 4, 0x0, 1,
  [(0, F.TR_TRIGTB_HI_T_HI, 0)]⟩
def TR_RDSEQ : Reg := ⟨230, [15], 0x1028, 0x100, 4, 0x0, 1,
  [(0, F.TR_RDSEQ_SEQ, 0)]⟩
def TR_DROP : Reg := ⟨231, [15], 0x102c, 0x100, 4, 0x0, 1,
  [(0, F.TR_DROP_DROPPED, 0)]⟩
def TR_ERR : Reg := ⟨232, [15], 0x1030, 0x100, 4, 0x0, 1,
  [(0, F.TR_ERR_RATE, 0), (1, F.TR_ERR_REGION, 0), (2, F.TR_ERR_BUDGET, 0), (3, F.TR_ERR_WIPE, 0), (4, F.TR_ERR_BUSYWR, 0), (5, F.TR_ERR_BADVAL, 0), (6, F.TR_ERR_STATE, 0)]⟩
def TR_SRC : Reg := ⟨233, [15], 0x1040, 0x100, 4, 0x4, 8,
  [(0, F.TR_SRC_SRC, 0), (8, F.TR_SRC_EN, 0)]⟩
def CRN_CFG : Reg := ⟨234, [16], 0x0, 0x0, 1, 0x0, 1,
  [(0, F.CRN_CFG_IEN, 0)]⟩
def CRN_STAT : Reg := ⟨235, [16], 0x4, 0x0, 1, 0x0, 1,
  [(0, F.CRN_STAT_BUSY, 0), (1, F.CRN_STAT_HOLDLOW, 0), (8, F.CRN_STAT_QUEUED, 0), (16, F.CRN_STAT_DROPPED, 0)]⟩
def CRN_RNUM : Reg := ⟨236, [16], 0x8, 0x0, 1, 0x0, 1,
  [(0, F.CRN_RNUM_NEXT, 0)]⟩
def CRN_WRPTR : Reg := ⟨237, [16], 0xc, 0x0, 1, 0x0, 1,
  [(0, F.CRN_WRPTR_SLOT, 0)]⟩
def CRN_PINLEFT : Reg := ⟨238, [16], 0x10, 0x0, 1, 0x0, 1,
  [(0, F.CRN_PINLEFT_LEFT, 0)]⟩
def CRN_BOOTN : Reg := ⟨239, [16], 0x14, 0x0, 1, 0x0, 1,
  [(0, F.CRN_BOOTN_BOOTN, 0)]⟩
def CRN_WCTL : Reg := ⟨240, [16], 0x20, 0x0, 1, 0x0, 1,
  [(0, F.CRN_WCTL_TYPE, 0), (31, F.CRN_WCTL_GO, 0)]⟩
def CRN_ERR : Reg := ⟨241, [16], 0x24, 0x0, 1, 0x0, 1,
  [(0, F.CRN_ERR_HOST, 0), (1, F.CRN_ERR_FULL, 0), (2, F.CRN_ERR_BADTYPE, 0), (3, F.CRN_ERR_TORN, 0)]⟩
def CRN_WBUF : Reg := ⟨242, [16], 0x100, 0x4, 56, 0x0, 1,
  [(0, F.CRN_WBUF_DATA, 0)]⟩
def HKC_CTL : Reg := ⟨243, [17], 0x0, 0x0, 1, 0x0, 1,
  [(0, F.HKC_CTL_EN, 0), (1, F.HKC_CTL_MODE, 0), (2, F.HKC_CTL_SWAP, 0), (8, F.HKC_CTL_TRIG, 0)]⟩
def HKC_PERIOD : Reg := ⟨244, [17], 0x4, 0x0, 1, 0x0, 1,
  [(0, F.HKC_PERIOD_PERIOD, 0)]⟩
def HKC_PMAX : Reg := ⟨245, [17], 0x8, 0x0, 1, 0x0, 1,
  [(0, F.HKC_PMAX_PMAX, 0)]⟩
def HKC_STAT : Reg := ⟨246, [17], 0xc, 0x0, 1, 0x0, 1,
  [(0, F.HKC_STAT_BUSY, 0), (2, F.HKC_STAT_ENTRY, 0), (16, F.HKC_STAT_PASSES, 0)]⟩
def HKC_ERR : Reg := ⟨247, [17], 0x10, 0x0, 1, 0x0, 1,
  [(0, F.HKC_ERR_BADSEL, 0), (8, F.HKC_ERR_TRIGLOST, 0)]⟩
def HKC_DIRECT : Reg := ⟨248, [17], 0x14, 0x0, 1, 0x0, 1,
  [(0, F.HKC_DIRECT_VALUE, 0), (16, F.HKC_DIRECT_INPUT, 0)]⟩
def ICC_SWCTL : Reg := ⟨249, [17], 0x700, 0x0, 1, 0x0, 1,
  [(0, F.ICC_SWCTL_SWDIV, 0)]⟩
def HKC_SEQ : Reg := ⟨250, [17], 0x400, 0x4, 64, 0x0, 1,
  [(0, F.HKC_SEQ_INPUT, 0), (8, F.HKC_SEQ_SUBSEL, 0), (16, F.HKC_SEQ_REPEAT, 0), (20, F.HKC_SEQ_DELAY, 0), (30, F.HKC_SEQ_EVT, 0), (31, F.HKC_SEQ_LAST, 0)]⟩
def HKC_RES : Reg := ⟨251, [17], 0x500, 0x4, 64, 0x0, 1,
  [(0, F.HKC_RES_VALUE, 0), (16, F.HKC_RES_PASS, 0), (30, F.HKC_RES_OVR, 0), (31, F.HKC_RES_NEW, 0)]⟩
def ICC_CFG : Reg := ⟨252, [17], 0x600, 0x40, 4, 0x0, 1,
  [(0, F.ICC_CFG_EN, 0), (2, F.ICC_CFG_INV, 0)]⟩
def ICC_KA : Reg := ⟨253, [17], 0x604, 0x40, 4, 0x0, 1,
  [(0, F.ICC_KA_KA, 0)]⟩
def ICC_OFS : Reg := ⟨254, [17], 0x608, 0x40, 4, 0x0, 1,
  [(0, F.ICC_OFS_OFS, 0)]⟩
def ICC_GTRIM : Reg := ⟨255, [17], 0x60c, 0x40, 4, 0x0, 1,
  [(0, F.ICC_GTRIM_GTRIM, 0)]⟩
def ICC_SWRES : Reg := ⟨256, [17], 0x610, 0x40, 4, 0x0, 1,
  [(0, F.ICC_SWRES_CURRENT, 0), (30, F.ICC_SWRES_OVR, 0), (31, F.ICC_SWRES_NEW, 0)]⟩
def ICC_ERR : Reg := ⟨257, [17], 0x614, 0x40, 4, 0x0, 1,
  [(0, F.ICC_ERR_CLIP, 0), (1, F.ICC_ERR_SAT, 0)]⟩
def TB_LO : Reg := ⟨258, [17], 0x800, 0x0, 1, 0x0, 1,
  [(0, F.TB_LO_T_LO, 0)]⟩
def TB_HI : Reg := ⟨259, [17], 0x804, 0x0, 1, 0x0, 1,
  [(0, F.TB_HI_T_HI, 0)]⟩
def TB_LOAD_LO : Reg := ⟨260, [17], 0x808, 0x0, 1, 0x0, 1,
  [(0, F.TB_LOAD_LO_L_LO, 0)]⟩
def TB_LOAD_HI : Reg := ⟨261, [17], 0x80c, 0x0, 1, 0x0, 1,
  [(0, F.TB_LOAD_HI_L_HI, 0)]⟩
def TB_CTL : Reg := ⟨262, [17], 0x810, 0x0, 1, 0x0, 1,
  [(0, F.TB_CTL_LOAD, 0)]⟩
def TB_RATE : Reg := ⟨263, [17], 0x814, 0x0, 1, 0x0, 1,
  [(0, F.TB_RATE_RATE, 0)]⟩
def TB_SYNC : Reg := ⟨264, [17], 0x818, 0x0, 1, 0x0, 1,
  [(0, F.TB_SYNC_SRC, 0), (16, F.TB_SYNC_FARLIM, 0)]⟩
def TB_OFS : Reg := ⟨265, [17], 0x81c, 0x0, 1, 0x0, 1,
  [(0, F.TB_OFS_OFS, 0)]⟩
def TB_RATENOW : Reg := ⟨266, [17], 0x820, 0x0, 1, 0x0, 1,
  [(0, F.TB_RATENOW_RATE, 0)]⟩
def TB_STAT : Reg := ⟨267, [17], 0x824, 0x0, 1, 0x0, 1,
  [(0, F.TB_STAT_LOCKED, 0), (2, F.TB_STAT_SRCNOW, 0)]⟩
def TB_ERR : Reg := ⟨268, [17], 0x828, 0x0, 1, 0x0, 1,
  [(0, F.TB_ERR_BUSY, 0), (1, F.TB_ERR_BACK, 0), (2, F.TB_ERR_FAR, 0), (3, F.TB_ERR_PTMFAIL, 0), (4, F.TB_ERR_BADVAL, 0)]⟩
def TM_CFG : Reg := ⟨269, [17], 0x1000, 0x80, 32, 0x0, 1,
  [(0, F.TM_CFG_MODE, 0), (2, F.TM_CFG_CLKSRC, 0), (4, F.TM_CFG_CAPTB, 0), (8, F.TM_CFG_IEN, 0)]⟩
def TM_STEP : Reg := ⟨270, [17], 0x1004, 0x80, 32, 0x0, 1,
  [(0, F.TM_STEP_STEP, 0)]⟩
def TM_CTL : Reg := ⟨271, [17], 0x1008, 0x80, 32, 0x0, 1,
  [(0, F.TM_CTL_START, 0), (1, F.TM_CTL_STOP, 0), (2, F.TM_CTL_CLR, 0), (3, F.TM_CTL_OVRCLR, 0), (8, F.TM_CTL_RUN, 0)]⟩
def TM_CNT_LO : Reg := ⟨272, [17], 0x100c, 0x80, 32, 0x0, 1,
  [(0, F.TM_CNT_LO_C_LO, 0)]⟩
def TM_CNT_HI : Reg := ⟨273, [17], 0x1010, 0x80, 32, 0x0, 1,
  [(0, F.TM_CNT_HI_C_HI, 0)]⟩
def TM_TOP_LO : Reg := ⟨274, [17], 0x1014, 0x80, 32, 0x0, 1,
  [(0, F.TM_TOP_LO_T_LO, 0)]⟩
def TM_TOP_HI : Reg := ⟨275, [17], 0x1018, 0x80, 32, 0x0, 1,
  [(0, F.TM_TOP_HI_T_HI, 0)]⟩
def TM_CMP_LO : Reg := ⟨276, [17], 0x101c, 0x80, 32, 0x0, 1,
  [(0, F.TM_CMP_LO_M_LO, 0)]⟩
def TM_CMP_HI : Reg := ⟨277, [17], 0x1020, 0x80, 32, 0x0, 1,
  [(0, F.TM_CMP_HI_M_HI, 0)]⟩
def TM_CAP_LO : Reg := ⟨278, [17], 0x1024, 0x80, 32, 0x0, 1,
  [(0, F.TM_CAP_LO_P_LO, 0)]⟩
def TM_CAP_HI : Reg := ⟨279, [17], 0x1028, 0x80, 32, 0x0, 1,
  [(0, F.TM_CAP_HI_P_HI, 0)]⟩
def TM_SNAP_LO : Reg := ⟨280, [17], 0x102c, 0x80, 32, 0x0, 1,
  [(0, F.TM_SNAP_LO_S_LO, 0)]⟩
def TM_SNAP_HI : Reg := ⟨281, [17], 0x1030, 0x80, 32, 0x0, 1,
  [(0, F.TM_SNAP_HI_S_HI, 0)]⟩
def TM_INSTART : Reg := ⟨282, [17], 0x1034, 0x80, 32, 0x0, 1,
  [(0, F.TM_INSTART_CH, 0), (16, F.TM_INSTART_CH, 1), (8, F.TM_INSTART_EN, 0), (24, F.TM_INSTART_EN, 1), (9, F.TM_INSTART_FALL, 0), (25, F.TM_INSTART_FALL, 1)]⟩
def TM_INSTOP : Reg := ⟨283, [17], 0x1038, 0x80, 32, 0x0, 1,
  [(0, F.TM_INSTOP_CH, 0), (16, F.TM_INSTOP_CH, 1), (8, F.TM_INSTOP_EN, 0), (24, F.TM_INSTOP_EN, 1), (9, F.TM_INSTOP_FALL, 0), (25, F.TM_INSTOP_FALL, 1)]⟩
def TM_INCAP : Reg := ⟨284, [17], 0x103c, 0x80, 32, 0x0, 1,
  [(0, F.TM_INCAP_CH, 0), (16, F.TM_INCAP_CH, 1), (8, F.TM_INCAP_EN, 0), (24, F.TM_INCAP_EN, 1), (9, F.TM_INCAP_FALL, 0), (25, F.TM_INCAP_FALL, 1)]⟩
def TM_INCLR : Reg := ⟨285, [17], 0x1040, 0x80, 32, 0x0, 1,
  [(0, F.TM_INCLR_CH, 0), (16, F.TM_INCLR_CH, 1), (8, F.TM_INCLR_EN, 0), (24, F.TM_INCLR_EN, 1), (9, F.TM_INCLR_FALL, 0), (25, F.TM_INCLR_FALL, 1)]⟩
def TM_INCNT : Reg := ⟨286, [17], 0x1044, 0x80, 32, 0x0, 1,
  [(0, F.TM_INCNT_CH, 0), (16, F.TM_INCNT_CH, 1), (8, F.TM_INCNT_EN, 0), (24, F.TM_INCNT_EN, 1), (9, F.TM_INCNT_FALL, 0), (25, F.TM_INCNT_FALL, 1)]⟩
def TM_STAT : Reg := ⟨287, [17], 0x1048, 0x80, 32, 0x0, 1,
  [(0, F.TM_STAT_ARMED, 0), (1, F.TM_STAT_CMPHIT, 0), (2, F.TM_STAT_WRAPPED, 0), (3, F.TM_STAT_CAPNEW, 0), (4, F.TM_STAT_CAPOVR, 0), (5, F.TM_STAT_BUSY, 0), (6, F.TM_STAT_BADVAL, 0)]⟩
def TM_OVR : Reg := ⟨288, [17], 0x104c, 0x80, 32, 0x0, 1,
  [(0, F.TM_OVR_START, 0), (8, F.TM_OVR_STOP, 0), (16, F.TM_OVR_CAP, 0), (24, F.TM_OVR_CLR, 0)]⟩
def PD_CFG : Reg := ⟨289, [17], 0x2000, 0x200, 4, 0x0, 1,
  [(0, F.PD_CFG_EN, 0), (1, F.PD_CFG_MODE, 0), (3, F.PD_CFG_DIR, 0), (4, F.PD_CFG_POLH, 0), (5, F.PD_CFG_POLL, 0), (6, F.PD_CFG_SRC, 0)]⟩
def PD_PER : Reg := ⟨290, [17], 0x2004, 0x200, 4, 0x0, 1,
  [(0, F.PD_PER_PER, 0), (16, F.PD_PER_DT, 0)]⟩
def PD_DUTYA : Reg := ⟨291, [17], 0x2008, 0x200, 4, 0x0, 1,
  [(0, F.PD_DUTYA_DA, 0), (16, F.PD_DUTYA_DB, 0)]⟩
def PD_DUTYB : Reg := ⟨292, [17], 0x200c, 0x200, 4, 0x0, 1,
  [(0, F.PD_DUTYB_DC, 0)]⟩
def PD_AMP : Reg := ⟨293, [17], 0x2010, 0x200, 4, 0x0, 1,
  [(0, F.PD_AMP_AMP, 0), (16, F.PD_AMP_LEAD, 0)]⟩
def PD_MOTOR : Reg := ⟨294, [17], 0x2014, 0x200, 4, 0x0, 1,
  [(0, F.PD_MOTOR_POLES, 0), (16, F.PD_MOTOR_SLEW, 0)]⟩
def PD_OFFSET : Reg := ⟨295, [17], 0x2018, 0x200, 4, 0x0, 1,
  [(0, F.PD_OFFSET_OFFSET, 0)]⟩
def PD_ENCCFG : Reg := ⟨296, [17], 0x2020, 0x200, 4, 0x0, 1,
  [(0, F.PD_ENCCFG_DIV, 0), (8, F.PD_ENCCFG_NST, 0), (10, F.PD_ENCCFG_CHK, 0), (12, F.PD_ENCCFG_GRAY, 0), (16, F.PD_ENCCFG_SDLY, 0), (24, F.PD_ENCCFG_LOSTN, 0)]⟩
def PD_ENCPER : Reg := ⟨297, [17], 0x2024, 0x200, 4, 0x0, 1,
  [(0, F.PD_ENCPER_PER, 0), (16, F.PD_ENCPER_GAP, 0)]⟩
def PD_POS : Reg := ⟨298, [17], 0x2028, 0x200, 4, 0x0, 1,
  [(0, F.PD_POS_POS, 0), (24, F.PD_POS_ST, 0), (31, F.PD_POS_VALID, 0)]⟩
def PD_POSTB_LO : Reg := ⟨299, [17], 0x202c, 0x200, 4, 0x0, 1,
  [(0, F.PD_POSTB_LO_T_LO, 0)]⟩
def PD_POSTB_HI : Reg := ⟨300, [17], 0x2030, 0x200, 4, 0x0, 1,
  [(0, F.PD_POSTB_HI_T_HI, 0)]⟩
def PD_SPEED : Reg := ⟨301, [17], 0x2034, 0x200, 4, 0x0, 1,
  [(0, F.PD_SPEED_SPEED, 0)]⟩
def PD_SPDCFG : Reg := ⟨302, [17], 0x2038, 0x200, 4, 0x0, 1,
  [(0, F.PD_SPDCFG_SAVG, 0), (8, F.PD_SPDCFG_MAXSTEP, 0)]⟩
def PD_STAT : Reg := ⟨303, [17], 0x2040, 0x200, 4, 0x0, 1,
  [(0, F.PD_STAT_BOOST, 0), (4, F.PD_STAT_FLTHOLD, 0), (5, F.PD_STAT_ENCLOST, 0), (8, F.PD_STAT_LATE, 0), (16, F.PD_STAT_FRAMES, 0)]⟩
def PD_ERR : Reg := ⟨304, [17], 0x2044, 0x200, 4, 0x0, 1,
  [(0, F.PD_ERR_ACK, 0), (1, F.PD_ERR_CHECK, 0), (2, F.PD_ERR_ENCERR, 0), (3, F.PD_ERR_JUMP, 0), (4, F.PD_ERR_BADVAL, 0), (5, F.PD_ERR_BOOSTOFF, 0), (6, F.PD_ERR_FLT, 0)]⟩
def PD_AMPNOW : Reg := ⟨305, [17], 0x2048, 0x200, 4, 0x0, 1,
  [(0, F.PD_AMPNOW_AMP, 0)]⟩
def PD_IEN : Reg := ⟨306, [17], 0x204c, 0x200, 4, 0x0, 1,
  [(0, F.PD_IEN_FLT, 0), (1, F.PD_IEN_LOST, 0), (2, F.PD_IEN_CMP, 0), (3, F.PD_IEN_BOOST, 0)]⟩
def PD_CMPSTAT : Reg := ⟨307, [17], 0x2140, 0x200, 4, 0x0, 1,
  [(0, F.PD_CMPSTAT_LAST, 0), (16, F.PD_CMPSTAT_FIRED, 0)]⟩
def PD_BOOSTAMP : Reg := ⟨308, [17], 0x2080, 0x200, 4, 0x4, 16,
  [(0, F.PD_BOOSTAMP_AMP, 0)]⟩
def PD_CMP : Reg := ⟨309, [17], 0x2100, 0x200, 4, 0x4, 16,
  [(0, F.PD_CMP_POS, 0), (24, F.PD_CMP_DIR, 0), (26, F.PD_CMP_ONCE, 0)]⟩
def SI_PMCFG : Reg := ⟨310, [18], 0x0, 0x0, 1, 0x0, 1,
  [(0, F.SI_PMCFG_ADDR, 0), (8, F.SI_PMCFG_WREN, 0), (10, F.SI_PMCFG_CLRF, 0), (11, F.SI_PMCFG_EN, 0)]⟩
def SI_PMSTAT : Reg := ⟨311, [18], 0x4, 0x0, 1, 0x0, 1,
  [(0, F.SI_PMSTAT_ALERT, 0)]⟩
def SI_I3CCFG : Reg := ⟨312, [18], 0x100, 0x0, 1, 0x0, 1,
  [(0, F.SI_I3CCFG_WAKEADDR, 0), (8, F.SI_I3CCFG_DA, 0)]⟩
def SI_I3CCTL : Reg := ⟨313, [18], 0x104, 0x0, 1, 0x0, 1,
  [(0, F.SI_I3CCTL_IBI, 0), (8, F.SI_I3CCTL_TXLEN, 0)]⟩
def SI_I3CSTAT : Reg := ⟨314, [18], 0x108, 0x0, 1, 0x0, 1,
  [(0, F.SI_I3CSTAT_RXLEN, 0), (8, F.SI_I3CSTAT_RXNEW, 0)]⟩
def SI_ROPECFG : Reg := ⟨315, [18], 0x200, 0x0, 1, 0x0, 1,
  [(0, F.SI_ROPECFG_ROOT, 0), (1, F.SI_ROPECFG_EN, 0), (16, F.SI_ROPECFG_SYNCPER, 0)]⟩
def SI_ROPECTL : Reg := ⟨316, [18], 0x204, 0x0, 1, 0x0, 1,
  [(0, F.SI_ROPECTL_ENUM, 0)]⟩
def SI_ROPESTAT : Reg := ⟨317, [18], 0x208, 0x0, 1, 0x0, 1,
  [(0, F.SI_ROPESTAT_NODE, 0), (4, F.SI_ROPESTAT_NUMBERED, 0), (5, F.SI_ROPESTAT_CARRIER, 0)]⟩
def SI_ROPECAB : Reg := ⟨318, [18], 0x20c, 0x0, 1, 0x0, 1,
  [(0, F.SI_ROPECAB_CAB, 0)]⟩
def SI_ROPEERR : Reg := ⟨319, [18], 0x210, 0x0, 1, 0x0, 1,
  [(0, F.SI_ROPEERR_LOS, 0), (1, F.SI_ROPEERR_OVER, 0), (2, F.SI_ROPEERR_ROOT, 0), (3, F.SI_ROPEERR_CRC, 0)]⟩
def SI_CMDLAST : Reg := ⟨320, [18], 0x300, 0x0, 1, 0x0, 1,
  [(0, F.SI_CMDLAST_STATUS, 0), (8, F.SI_CMDLAST_XSTAT, 0), (16, F.SI_CMDLAST_RAIL, 0), (24, F.SI_CMDLAST_BUS, 0), (31, F.SI_CMDLAST_NEW, 0)]⟩
def SI_IEN : Reg := ⟨321, [18], 0x304, 0x0, 1, 0x0, 1,
  [(0, F.SI_IEN_IEN, 0)]⟩
def SI_AVSMAP : Reg := ⟨322, [18], 0x40, 0x4, 4, 0x0, 1,
  [(0, F.SI_AVSMAP_MAP, 0), (31, F.SI_AVSMAP_EN, 0)]⟩
def SI_AVSSTAT : Reg := ⟨323, [18], 0x50, 0x4, 4, 0x0, 1,
  [(0, F.SI_AVSSTAT_ALERT, 0), (8, F.SI_AVSSTAT_VDONE, 0)]⟩
def SI_AVSLIM : Reg := ⟨324, [18], 0x80, 0x4, 24, 0x0, 1,
  [(0, F.SI_AVSLIM_VMIN, 0), (16, F.SI_AVSLIM_VMAX, 0)]⟩
def SI_I3CRX : Reg := ⟨325, [18], 0x140, 0x4, 16, 0x0, 1,
  [(0, F.SI_I3CRX_DATA, 0)]⟩
def SI_I3CTX : Reg := ⟨326, [18], 0x180, 0x4, 16, 0x0, 1,
  [(0, F.SI_I3CTX_DATA, 0)]⟩
def EL_CTL : Reg := ⟨327, [19], 0x0, 0x0, 1, 0x0, 1,
  [(0, F.EL_CTL_EN, 0)]⟩
def EL_ERR : Reg := ⟨328, [19], 0x4, 0x0, 1, 0x0, 1,
  [(0, F.EL_ERR_STALE, 0)]⟩
def EL_RACC_LO : Reg := ⟨329, [19], 0x100, 0x40, 24, 0x0, 1,
  [(0, F.EL_RACC_LO_E_LO, 0)]⟩
def EL_RACC_HI : Reg := ⟨330, [19], 0x104, 0x40, 24, 0x0, 1,
  [(0, F.EL_RACC_HI_E_HI, 0)]⟩
def EL_RUSED_LO : Reg := ⟨331, [19], 0x108, 0x40, 24, 0x0, 1,
  [(0, F.EL_RUSED_LO_U_LO, 0)]⟩
def EL_RUSED_HI : Reg := ⟨332, [19], 0x10c, 0x40, 24, 0x0, 1,
  [(0, F.EL_RUSED_HI_U_HI, 0)]⟩
def EL_RLIM_LO : Reg := ⟨333, [19], 0x110, 0x40, 24, 0x0, 1,
  [(0, F.EL_RLIM_LO_L_LO, 0)]⟩
def EL_RLIM_HI : Reg := ⟨334, [19], 0x114, 0x40, 24, 0x0, 1,
  [(0, F.EL_RLIM_HI_L_HI, 0)]⟩
def EL_RWIN : Reg := ⟨335, [19], 0x118, 0x40, 24, 0x0, 1,
  [(0, F.EL_RWIN_WINDOW, 0), (24, F.EL_RWIN_MODE, 0)]⟩
def EL_RRES_LO : Reg := ⟨336, [19], 0x11c, 0x40, 24, 0x0, 1,
  [(0, F.EL_RRES_LO_Q_LO, 0)]⟩
def EL_RRES_HI : Reg := ⟨337, [19], 0x120, 0x40, 24, 0x0, 1,
  [(0, F.EL_RRES_HI_Q_HI, 0)]⟩
def EL_RSTAT : Reg := ⟨338, [19], 0x124, 0x40, 24, 0x0, 1,
  [(0, F.EL_RSTAT_OVER, 0), (8, F.EL_RSTAT_WDN, 0), (16, F.EL_RSTAT_CAPN, 0)]⟩
def EL_INCFG : Reg := ⟨339, [19], 0x800, 0x20, 4, 0x0, 1,
  [(0, F.EL_INCFG_ENTRY, 0), (7, F.EL_INCFG_EN, 0), (16, F.EL_INCFG_VK, 0)]⟩
def EL_IACC_LO : Reg := ⟨340, [19], 0x804, 0x20, 4, 0x0, 1,
  [(0, F.EL_IACC_LO_E_LO, 0)]⟩
def EL_IACC_HI : Reg := ⟨341, [19], 0x808, 0x20, 4, 0x0, 1,
  [(0, F.EL_IACC_HI_E_HI, 0)]⟩
def EL_IPWR : Reg := ⟨342, [19], 0x80c, 0x20, 4, 0x0, 1,
  [(0, F.EL_IPWR_P, 0)]⟩
def EL_SACC_LO : Reg := ⟨343, [19], 0xa00, 0x10, 22, 0x0, 1,
  [(0, F.EL_SACC_LO_E_LO, 0)]⟩
def EL_SACC_HI : Reg := ⟨344, [19], 0xa04, 0x10, 22, 0x0, 1,
  [(0, F.EL_SACC_HI_E_HI, 0)]⟩
def EL_SPWR : Reg := ⟨345, [19], 0xa08, 0x10, 22, 0x0, 1,
  [(0, F.EL_SPWR_P, 0)]⟩
def EL_SLIM_LO : Reg := ⟨346, [19], 0xc00, 0x0, 1, 0x0, 1,
  [(0, F.EL_SLIM_LO_L_LO, 0)]⟩
def EL_SLIM_HI : Reg := ⟨347, [19], 0xc04, 0x0, 1, 0x0, 1,
  [(0, F.EL_SLIM_HI_L_HI, 0)]⟩
def EL_SWIN : Reg := ⟨348, [19], 0xc08, 0x0, 1, 0x0, 1,
  [(0, F.EL_SWIN_WINDOW, 0), (24, F.EL_SWIN_MODE, 0)]⟩
def EL_SUSED_LO : Reg := ⟨349, [19], 0xc0c, 0x0, 1, 0x0, 1,
  [(0, F.EL_SUSED_LO_U_LO, 0)]⟩
def EL_SUSED_HI : Reg := ⟨350, [19], 0xc10, 0x0, 1, 0x0, 1,
  [(0, F.EL_SUSED_HI_U_HI, 0)]⟩
def EL_SSTAT : Reg := ⟨351, [19], 0xc14, 0x0, 1, 0x0, 1,
  [(0, F.EL_SSTAT_ACT, 0), (8, F.EL_SSTAT_OVER, 0)]⟩
def PM_CFG : Reg := ⟨352, [19], 0x1000, 0x0, 1, 0x0, 1,
  [(0, F.PM_CFG_TRIMEN, 0), (1, F.PM_CFG_AUTOHOLD, 0), (2, F.PM_CFG_AUTOSENT, 0), (3, F.PM_CFG_LINKWAKE, 0), (4, F.PM_CFG_BLYWAKE, 0)]⟩
def PM_STATE : Reg := ⟨353, [19], 0x1004, 0x0, 1, 0x0, 1,
  [(0, F.PM_STATE_STATE, 0)]⟩
def PM_HOLD_IDLE : Reg := ⟨354, [19], 0x1008, 0x0, 1, 0x0, 1,
  [(0, F.PM_HOLD_IDLE_IDLE, 0)]⟩
def PM_SENT_IDLE : Reg := ⟨355, [19], 0x100c, 0x0, 1, 0x0, 1,
  [(0, F.PM_SENT_IDLE_IDLE, 0)]⟩
def PM_WAKE_EN : Reg := ⟨356, [19], 0x1010, 0x0, 1, 0x0, 1,
  [(1, F.PM_WAKE_EN_SRC, 0), (16, F.PM_WAKE_EN_EFCH, 0)]⟩
def PM_WAKE_LAST : Reg := ⟨357, [19], 0x1014, 0x0, 1, 0x0, 1,
  [(0, F.PM_WAKE_LAST_CAUSE, 0), (4, F.PM_WAKE_LAST_ORIG, 0), (8, F.PM_WAKE_LAST_SENT, 0)]⟩
def PM_WAKE_T_LO : Reg := ⟨358, [19], 0x1018, 0x0, 1, 0x0, 1,
  [(0, F.PM_WAKE_T_LO_T_LO, 0)]⟩
def PM_WAKE_T_HI : Reg := ⟨359, [19], 0x101c, 0x0, 1, 0x0, 1,
  [(0, F.PM_WAKE_T_HI_T_HI, 0)]⟩
def PM_PADHELD : Reg := ⟨360, [19], 0x1020, 0x0, 1, 0x0, 1,
  [(0, F.PM_PADHELD_HELD, 0)]⟩
def PM_PADREL : Reg := ⟨361, [19], 0x1024, 0x0, 1, 0x0, 1,
  [(0, F.PM_PADREL_REL, 0)]⟩
def PM_PADCFG : Reg := ⟨362, [19], 0x1028, 0x0, 1, 0x0, 1,
  [(0, F.PM_PADCFG_LX0960, 0), (31, F.PM_PADCFG_LOCK, 0)]⟩
def PM_RETCFG : Reg := ⟨363, [19], 0x102c, 0x0, 1, 0x0, 1,
  [(0, F.PM_RETCFG_BANKS, 0)]⟩
def PM_RETLOST : Reg := ⟨364, [19], 0x1030, 0x0, 1, 0x0, 1,
  [(0, F.PM_RETLOST_LOST, 0)]⟩
def PM_AUTOWAKE : Reg := ⟨365, [19], 0x1034, 0x0, 1, 0x0, 1,
  [(0, F.PM_AUTOWAKE_AW, 0)]⟩
def PM_ISLREQ : Reg := ⟨366, [19], 0x1038, 0x0, 1, 0x0, 1,
  [(0, F.PM_ISLREQ_STOP, 0)]⟩
def PM_ISLREQ2 : Reg := ⟨367, [19], 0x103c, 0x0, 1, 0x0, 1,
  [(0, F.PM_ISLREQ2_START, 0)]⟩
def PM_ISLSTAT : Reg := ⟨368, [19], 0x1040, 0x0, 1, 0x0, 1,
  [(0, F.PM_ISLSTAT_ON, 0)]⟩
def PM_ERR : Reg := ⟨369, [19], 0x1044, 0x0, 1, 0x0, 1,
  [(0, F.PM_ERR_DEPENDENT, 0), (1, F.PM_ERR_BADVAL, 0)]⟩
def PM_ENTRYTO : Reg := ⟨370, [19], 0x1048, 0x0, 1, 0x0, 1,
  [(0, F.PM_ENTRYTO_TO, 0)]⟩
def PM_TRIM : Reg := ⟨371, [19], 0x1100, 0x4, 22, 0x0, 1,
  [(0, F.PM_TRIM_IDLE, 0)]⟩
def LC_STATE : Reg := ⟨372, [20], 0x0, 0x0, 1, 0x0, 1,
  [(0, F.LC_STATE_STATE, 0), (8, F.LC_STATE_SLOTS, 0), (12, F.LC_STATE_WIPEPEND, 0)]⟩
def LC_REQ : Reg := ⟨373, [20], 0x4, 0x0, 1, 0x0, 1,
  [(0, F.LC_REQ_TARGET, 0)]⟩
def LC_STAT : Reg := ⟨374, [20], 0x8, 0x0, 1, 0x0, 1,
  [(0, F.LC_STAT_BUSY, 0)]⟩
def LC_ERR : Reg := ⟨375, [20], 0xc, 0x0, 1, 0x0, 1,
  [(0, F.LC_ERR_RAILS, 0), (1, F.LC_ERR_AUTH, 0), (2, F.LC_ERR_BADVAL, 0), (3, F.LC_ERR_EXHAUST, 0), (4, F.LC_ERR_BELAY, 0)]⟩
def SEC_NONCE : Reg := ⟨376, [20], 0x100, 0x4, 8, 0x0, 1,
  [(0, F.SEC_NONCE_NONCE, 0)]⟩
def SEC_AUTH : Reg := ⟨377, [20], 0x140, 0x4, 24, 0x0, 1,
  [(0, F.SEC_AUTH_DATA, 0)]⟩
def SEC_AUTHCTL : Reg := ⟨378, [20], 0x1a0, 0x0, 1, 0x0, 1,
  [(0, F.SEC_AUTHCTL_OP, 0), (4, F.SEC_AUTHCTL_KEYSLOT, 0), (8, F.SEC_AUTHCTL_ARG, 0), (15, F.SEC_AUTHCTL_GO, 0), (16, F.SEC_AUTHCTL_RESULT, 0)]⟩
def SEC_OWNLOCK : Reg := ⟨379, [20], 0x1a4, 0x0, 1, 0x0, 1,
  [(0, F.SEC_OWNLOCK_SET, 0), (8, F.SEC_OWNLOCK_LOCKED, 0)]⟩
def SEC_KEYSTAT : Reg := ⟨380, [20], 0x1a8, 0x0, 1, 0x0, 1,
  [(0, F.SEC_KEYSTAT_FILLED, 0), (8, F.SEC_KEYSTAT_REVOKED, 0)]⟩
def SEC_SVNMIN : Reg := ⟨381, [20], 0x1ac, 0x0, 1, 0x0, 1,
  [(0, F.SEC_SVNMIN_SVN, 0)]⟩
def SEC_CTL : Reg := ⟨382, [20], 0x1b0, 0x0, 1, 0x0, 1,
  [(0, F.SEC_CTL_SVNCOMMIT, 0)]⟩
def SEC_DBG : Reg := ⟨383, [20], 0x1b4, 0x0, 1, 0x0, 1,
  [(0, F.SEC_DBG_UNLOCKED, 0)]⟩
def SEC_OTPCTL : Reg := ⟨384, [20], 0x1b8, 0x0, 1, 0x0, 1,
  [(0, F.SEC_OTPCTL_WORD, 0), (15, F.SEC_OTPCTL_GO, 0)]⟩
def SEC_OTPDATA : Reg := ⟨385, [20], 0x1bc, 0x0, 1, 0x0, 1,
  [(0, F.SEC_OTPDATA_DATA, 0)]⟩
def SEC_ERR : Reg := ⟨386, [20], 0x1c0, 0x0, 1, 0x0, 1,
  [(0, F.SEC_ERR_AUTH, 0), (1, F.SEC_ERR_NONCE, 0), (2, F.SEC_ERR_SVN, 0), (3, F.SEC_ERR_OTPW, 0), (4, F.SEC_ERR_KEY, 0)]⟩
def DBG_STAT : Reg := ⟨387, [21], 0x0, 0x0, 1, 0x0, 1,
  [(0, F.DBG_STAT_OPEN, 0), (1, F.DBG_STAT_JTAG, 0), (8, F.DBG_STAT_HALTED, 0)]⟩
def DBG_CTL : Reg := ⟨388, [21], 0x4, 0x0, 1, 0x0, 1,
  [(0, F.DBG_CTL_HALT, 0), (8, F.DBG_CTL_RESUME, 0), (16, F.DBG_CTL_STEP, 0)]⟩
def DBG_ERR : Reg := ⟨389, [21], 0x8, 0x0, 1, 0x0, 1,
  [(0, F.DBG_ERR_DENIED, 0)]⟩

end R

/-- registers of block 22 -/
def regs22p0 : List Reg :=
 [R.GL_DEVID, R.GPIO_RAW, R.GL_GSEQ, R.GL_CMDQ, R.GL_RSTCTL, R.GL_ISLRST, R.GL_RSTCAUSE, R.GL_BOOTOPT,
   R.GL_BOOTSTAT, R.GL_BCSTAT, R.GL_WAKEVEC, R.GL_WAKECTL, R.GL_WIPESTAT]

def regs22 : List Reg := regs22p0

/-- registers of block 0 -/
def regs0p0 : List Reg :=
 [R.EF_CH, R.EF_LUTA, R.EF_LUTB, R.EF_FF, R.EF_FFCFG, R.EF_FLTA, R.EF_FLTB, R.EF_WCFG, R.EF_WFLAG, R.EF_SWEV,
   R.EF_ERR]

def regs0 : List Reg := regs0p0

/-- registers of block 1 -/
def regs1p0 : List Reg :=
 [R.HI_CTL, R.HI_STAT, R.HI_ERR, R.HI_ERRADDR, R.HI_LINKCAP, R.HI_TXRSV, R.HI_PTMCFG, R.MSIX_ADDR_LO,
   R.MSIX_ADDR_HI, R.MSIX_DATA, R.MSIX_CTRL, R.MSIX_PBA]

def regs1 : List Reg := regs1p0

/-- registers of block 2 -/
def regs2p0 : List Reg :=
 [R.RING_CFG, R.RING_BASE_LO, R.RING_BASE_HI, R.RING_CTL, R.RING_STAT, R.RING_HEAD, R.RING_TAIL, R.RING_DONE,
   R.RING_ERR, R.RING_ICOAL, R.RING_SEQ, R.RING_GAPS, R.RING_ABN, R.RING_ROUTE, R.RING_TELCFG,
   R.RING_TELMASK, R.RING_BUFSTAT]

def regs2 : List Reg := regs2p0

/-- registers of block 3 -/
def regs3p0 : List Reg :=
 [R.BL_CFG, R.BL_CTL, R.BL_STAT, R.BL_ERR, R.BL_IEN, R.BL_EPOCH, R.BL_CNT, R.BL_RTT, R.BL_TKO_LO,
   R.BL_TKO_HI, R.BL_CFGSIG, R.BL_PCFGSIG, R.BL_PVER]

def regs3 : List Reg := regs3p0

/-- registers of block 4, 5 -/
def regs4_5p0 : List Reg :=
 [R.RSC_CFG, R.RSC_SLOT, R.RSC_STAT, R.RSC_ERR, R.RSC_DACNOW, R.RSC_SWCFG, R.RSC_SWRES, R.RSC_SWCNT,
   R.RSC_DIVR, R.RSC_CORR_GAIN, R.RSC_CORR_OFS, R.RSC_CORR_SKEW, R.PROT_VCFG, R.PROT_VSTAT]

def regs4_5 : List Reg := regs4_5p0

/-- registers of block 6, 7 -/
def regs6_7p0 : List Reg :=
 [R.PCC_CFG, R.PCC_KA, R.PCC_OFS, R.PCC_GTRIM, R.PCC_SWRES, R.PCC_ERR, R.PCC_SWCTL, R.PROT_PCFG, R.PROT_PBLK,
   R.PROT_PSTAT]

def regs6_7 : List Reg := regs6_7p0

/-- registers of block 8, 9 -/
def regs8_9p0 : List Reg :=
 [R.LE_CTL, R.LE_FORM, R.LE_RATE, R.LE_STAT, R.LE_ERR, R.LE_TARGET, R.LE_REFNOW, R.LE_RAMP, R.LE_LL,
   R.LE_NLGT, R.LE_NLGT2, R.LE_NLGG0, R.LE_NLGG1, R.LE_VIN, R.LE_DFF, R.LE_DFFNOW, R.LE_CMDNOW, R.LE_CALCFG,
   R.LE_CALRES, R.LE_RSTATE, R.LE_RSEQ, R.LE_RLAST, R.LE_UCODE_VER, R.LE_COEF, R.LE_BAL, R.LE_BALCFG,
   R.PROT_RRESP0, R.PROT_RRESP1, R.PROT_RCFG, R.PROT_RTIME, R.PROT_RESC, R.PROT_DLIM0, R.PROT_DLIM1,
   R.PROT_DLIM2, R.PROT_DLIM3, R.PROT_DLIM4, R.PROT_HKLIM, R.PROT_HKVAL, R.PROT_RFLT, R.PROT_RHIST]

/-- registers of block 8, 9 -/
def regs8_9p1 : List Reg :=
 [R.PROT_RFTS_LO, R.PROT_RFTS_HI, R.PROT_RCLR, R.PROT_RPH, R.PROT_RCNT, R.PROT_RIEN, R.PROT_ERR]

def regs8_9 : List Reg := regs8_9p0 ++ regs8_9p1

/-- registers of block 8 -/
def regs8p0 : List Reg :=
 [R.FC_CFG, R.FC_ERR, R.FC_OCC, R.HINT_ACKCFG, R.FC_RAILA, R.FC_RAILB, R.FC_RAILC, R.FC_RAILD, R.FC_RSTAT,
   R.FC_TPLA, R.FC_TPLB, R.FC_TPLC, R.FC_TPLD, R.FC_TPLE, R.FC_TPLF, R.FC_TPLG, R.FC_TSTAT_HIT,
   R.FC_TSTAT_MISS, R.FC_TSTAT_ABORT, R.FC_TSTAT_REFUSE, R.FC_ENTA, R.FC_ENTB, R.FC_ENTC, R.FC_ENTD,
   R.HINT_CFG, R.HINT_CNT]

def regs8 : List Reg := regs8p0

/-- registers of block 10, 11 -/
def regs10_11p0 : List Reg :=
 [R.PW_BIND, R.PW_EDGE, R.PW_PHSTAT, R.PW_RAILCFG, R.PW_PER, R.PW_RAILPH, R.PW_TLIM, R.PW_DT, R.PW_DTA,
   R.PW_ZC, R.PW_NREQ, R.PW_ENCFG, R.PW_KSEL, R.PW_RSTAT, R.PW_SHEDMAX, R.PW_CTL, R.PW_ERR, R.PW_STAT,
   R.PW_KLCFG]

def regs10_11 : List Reg := regs10_11p0

/-- registers of block 12, 13 -/
def regs12_13p0 : List Reg :=
 [R.CX_CTL, R.CX_ENTRY, R.CX_STAT, R.CX_PC, R.CX_PERF]

def regs12_13 : List Reg := regs12_13p0

/-- registers of block 12 -/
def regs12p0 : List Reg :=
 [R.LS_CFG, R.LS_STAT, R.LS_MCPC, R.LS_MCADDR, R.LS_AIP_GPIO, R.LS_AIP_HKC, R.IC_CFG, R.IC_MASK, R.IC_PEND,
   R.IC_SEM, R.IC_CORE]

def regs12 : List Reg := regs12p0

/-- registers of block 14 -/
def regs14p0 : List Reg :=
 [R.FW_STAT, R.FW_LOADLIM, R.FW_PCTL, R.FW_PADDR, R.FW_RXCFG, R.FW_RXSTAT, R.FW_RSEND, R.FW_RSLEN, R.FW_CHK,
   R.FW_VER, R.FW_PDATA]

def regs14 : List Reg := regs14p0

/-- registers of block 15 -/
def regs15p0 : List Reg :=
 [R.DMA_CTL, R.DMA_STAT, R.TR_BANKSTAT, R.DMA_HWIN_BASE, R.DMA_HWIN_LIMIT, R.DMA_HWIN_ATTR, R.DMA_CHPTR,
   R.DMA_CHCTL, R.DMA_CHSTAT, R.DMA_CHCNT, R.DMA_CHCUR, R.TR_CFG, R.TR_PRE, R.TR_POST, R.TR_CTL, R.TR_STAT,
   R.TR_SEQ, R.TR_TRIGSEQ, R.TR_FIRSTSEQ, R.TR_TRIGTB_LO, R.TR_TRIGTB_HI, R.TR_RDSEQ, R.TR_DROP, R.TR_ERR,
   R.TR_SRC]

def regs15 : List Reg := regs15p0

/-- registers of block 16 -/
def regs16p0 : List Reg :=
 [R.CRN_CFG, R.CRN_STAT, R.CRN_RNUM, R.CRN_WRPTR, R.CRN_PINLEFT, R.CRN_BOOTN, R.CRN_WCTL, R.CRN_ERR,
   R.CRN_WBUF]

def regs16 : List Reg := regs16p0

/-- registers of block 17 -/
def regs17p0 : List Reg :=
 [R.HKC_CTL, R.HKC_PERIOD, R.HKC_PMAX, R.HKC_STAT, R.HKC_ERR, R.HKC_DIRECT, R.ICC_SWCTL, R.HKC_SEQ,
   R.HKC_RES, R.ICC_CFG, R.ICC_KA, R.ICC_OFS, R.ICC_GTRIM, R.ICC_SWRES, R.ICC_ERR, R.TB_LO, R.TB_HI,
   R.TB_LOAD_LO, R.TB_LOAD_HI, R.TB_CTL, R.TB_RATE, R.TB_SYNC, R.TB_OFS, R.TB_RATENOW, R.TB_STAT, R.TB_ERR,
   R.TM_CFG, R.TM_STEP, R.TM_CTL, R.TM_CNT_LO, R.TM_CNT_HI, R.TM_TOP_LO, R.TM_TOP_HI, R.TM_CMP_LO,
   R.TM_CMP_HI, R.TM_CAP_LO, R.TM_CAP_HI, R.TM_SNAP_LO, R.TM_SNAP_HI, R.TM_INSTART]

/-- registers of block 17 -/
def regs17p1 : List Reg :=
 [R.TM_INSTOP, R.TM_INCAP, R.TM_INCLR, R.TM_INCNT, R.TM_STAT, R.TM_OVR, R.PD_CFG, R.PD_PER, R.PD_DUTYA,
   R.PD_DUTYB, R.PD_AMP, R.PD_MOTOR, R.PD_OFFSET, R.PD_ENCCFG, R.PD_ENCPER, R.PD_POS, R.PD_POSTB_LO,
   R.PD_POSTB_HI, R.PD_SPEED, R.PD_SPDCFG, R.PD_STAT, R.PD_ERR, R.PD_AMPNOW, R.PD_IEN, R.PD_CMPSTAT,
   R.PD_BOOSTAMP, R.PD_CMP]

def regs17 : List Reg := regs17p0 ++ regs17p1

/-- registers of block 18 -/
def regs18p0 : List Reg :=
 [R.SI_PMCFG, R.SI_PMSTAT, R.SI_I3CCFG, R.SI_I3CCTL, R.SI_I3CSTAT, R.SI_ROPECFG, R.SI_ROPECTL, R.SI_ROPESTAT,
   R.SI_ROPECAB, R.SI_ROPEERR, R.SI_CMDLAST, R.SI_IEN, R.SI_AVSMAP, R.SI_AVSSTAT, R.SI_AVSLIM, R.SI_I3CRX,
   R.SI_I3CTX]

def regs18 : List Reg := regs18p0

/-- registers of block 19 -/
def regs19p0 : List Reg :=
 [R.EL_CTL, R.EL_ERR, R.EL_RACC_LO, R.EL_RACC_HI, R.EL_RUSED_LO, R.EL_RUSED_HI, R.EL_RLIM_LO, R.EL_RLIM_HI,
   R.EL_RWIN, R.EL_RRES_LO, R.EL_RRES_HI, R.EL_RSTAT, R.EL_INCFG, R.EL_IACC_LO, R.EL_IACC_HI, R.EL_IPWR,
   R.EL_SACC_LO, R.EL_SACC_HI, R.EL_SPWR, R.EL_SLIM_LO, R.EL_SLIM_HI, R.EL_SWIN, R.EL_SUSED_LO,
   R.EL_SUSED_HI, R.EL_SSTAT, R.PM_CFG, R.PM_STATE, R.PM_HOLD_IDLE, R.PM_SENT_IDLE, R.PM_WAKE_EN,
   R.PM_WAKE_LAST, R.PM_WAKE_T_LO, R.PM_WAKE_T_HI, R.PM_PADHELD, R.PM_PADREL, R.PM_PADCFG, R.PM_RETCFG,
   R.PM_RETLOST, R.PM_AUTOWAKE, R.PM_ISLREQ]

/-- registers of block 19 -/
def regs19p1 : List Reg :=
 [R.PM_ISLREQ2, R.PM_ISLSTAT, R.PM_ERR, R.PM_ENTRYTO, R.PM_TRIM]

def regs19 : List Reg := regs19p0 ++ regs19p1

/-- registers of block 20 -/
def regs20p0 : List Reg :=
 [R.LC_STATE, R.LC_REQ, R.LC_STAT, R.LC_ERR, R.SEC_NONCE, R.SEC_AUTH, R.SEC_AUTHCTL, R.SEC_OWNLOCK,
   R.SEC_KEYSTAT, R.SEC_SVNMIN, R.SEC_CTL, R.SEC_DBG, R.SEC_OTPCTL, R.SEC_OTPDATA, R.SEC_ERR]

def regs20 : List Reg := regs20p0

/-- registers of block 21 -/
def regs21p0 : List Reg :=
 [R.DBG_STAT, R.DBG_CTL, R.DBG_ERR]

def regs21 : List Reg := regs21p0

/-- The registers that island block `n` holds; block 22 is the global block (R536, R539 to R550). -/
def islandRegs (n : Nat) : List Reg :=
  match n with
  | 0 => regs0
  | 1 => regs1
  | 2 => regs2
  | 3 => regs3
  | 4 => regs4_5
  | 5 => regs4_5
  | 6 => regs6_7
  | 7 => regs6_7
  | 8 => regs8_9 ++ regs8
  | 9 => regs8_9
  | 10 => regs10_11
  | 11 => regs10_11
  | 12 => regs12_13 ++ regs12
  | 13 => regs12_13
  | 14 => regs14
  | 15 => regs15
  | 16 => regs16
  | 17 => regs17
  | 18 => regs18
  | 19 => regs19
  | 20 => regs20
  | 21 => regs21
  | 22 => regs22
  | _ => []

/-- Every register of the part. -/
def allRegs : List Reg :=
  regs22
  ++ regs0
  ++ regs1
  ++ regs2
  ++ regs3
  ++ regs4_5
  ++ regs6_7
  ++ regs8_9
  ++ regs8
  ++ regs10_11
  ++ regs12_13
  ++ regs12
  ++ regs14
  ++ regs15
  ++ regs16
  ++ regs17
  ++ regs18
  ++ regs19
  ++ regs20
  ++ regs21

/-- The fields of a register, with the register itself. -/
def Reg.fields (r : Reg) : List (Reg × Fld) := r.lay.map fun e => (r, e.2.1)

/-- Every field with a register that holds it. -/
def allFields : List (Reg × Fld) := allRegs.flatMap Reg.fields

/-- The island that holds instance `i` of field `f` of register `r`: the second of a pair of islands holds the
upper half of the instances. -/
def Reg.islandOf (r : Reg) (sub i : Nat) : Nat :=
  let n := i / sub / r.cnt2
  r.isl.getD (n / r.cnt) (r.isl.headD 22)

end Sys2Proof.Machine
end

