-- ==== Sys2Proof/Machine/Types.lean ====
section
/-! DEFINITION. The pieces of state that the manual gives the route, load intent, protection and the command path
beside their registers.  Times are base ticks of 7.8125 ps unless a name says otherwise; a Time Base value in ns is
named `T_…` by the manual and held in ns. -/

namespace Sys2Proof.Machine

/-- A checkpoint: the items of R95 marked "yes", with the forecast that owns it (R123). -/
structure Ckpt where
  idx : Nat
  fseq : Nat
  i : Int
  eh0 : Int
  eh1 : Int
  eh2 : Int
  fh0 : Int
  fh1 : Int
  band : Nat
  ref : Int
  isumf : Int
  nph : Nat
  deriving DecidableEq, Repr, Inhabited

/-- What a loop engine carries from one update to the next beside its registers (R95, R37, R122, R26).
BAND, C_last, DFF and the DAC code in force live in their registers. `ref` has 8 fraction bits. -/
structure Eng where
  i : Int := 0
  eh0 : Int := 0
  eh1 : Int := 0
  eh2 : Int := 0
  fh0 : Int := 0
  fh1 : Int := 0
  ref : Int := 0
  isumf : Int := 0
  /-- load-line droop, ERR units (R82) -/
  lld : Int := 0
  /-- ISUM of the previous update; none before the first update taken (R80) -/
  isum1 : Option Int := none
  /-- effective error of the previous update (R122) -/
  err1 : Int := 0
  /-- load estimates of the two latest updates (R122) -/
  iest0 : Option Int := none
  iest1 : Option Int := none
  /-- pre-filter output of the latest update, 1/256 corrected LSB -/
  emeas : Int := 0
  /-- codes of the latest EMITs with their instants, newest first, and the code loaded in the idle DAC core with its load
  time (R37) -/
  emits : List (Nat × Nat) := []
  dacIdle : Option (Nat × Nat) := none
  /-- no update before this instant (R77) -/
  notBefore : Nat := 0
  /-- an ENGINE_FAULT stopped the engine until the rail's next start (R87) -/
  stopped : Bool := false
  /-- DFF as LE_VIN.EN = 1 holds it: the last value computed or, before one, the value in force when EN rose (R83) -/
  dff : Nat := 0
  /-- effective balance trims, by lane (R95, R98) -/
  trims : List (Nat × Int) := []
  /-- mean lane duty of the last update, u (R101) -/
  meanU : Int := 0
  /-- updates since the last injection, and the phase current an injection started from (R94) -/
  calCount : Nat := 0
  calFrom : Option Int := none
  /-- lane that took the last COT pulse (R97) -/
  cotLane : Nat := 31
  /-- the accumulator of R26, 2^-16 nJ (R257) -/
  eacc : Int := 0
  deriving DecidableEq, Repr, Inhabited

/-- What decided a forecast's end or rollback (R135). -/
inductive Reason where
  | none | mismatch | cancel | elder | prot | budget | railOff | restart | notAccepted
  deriving DecidableEq, Repr, Inhabited

/-- A reservation's progress (R120, R263, R265). -/
inductive ResSt where
  | none | asked | granted | refused | withdrawn
  deriving DecidableEq, Repr, Inhabited

/-- Forecast entry states (R121, coded as FC_ENTA.STATE). -/
inductive FSt where
  | free | wait | run | matched | committed | rolling | passive
  deriving DecidableEq, Repr, Inhabited

/-- One forecast table entry (R107, R109, R117, R120 to R122).  A FREE entry keeps its FID, which holds its generation. -/
structure Fc where
  st : FSt := .free
  used : Bool := false
  fid : Nat := 0
  fseq : Nat := 0
  rail : Nat := 0
  /-- 0 host, 1 hint; the ring or the template -/
  src : Nat := 0
  srcidx : Nat := 0
  late : Bool := false
  capped : Bool := false
  ra : Bool := false
  start : Nat := 0
  step : Int := 0
  rise : Nat := 0
  dwell : Nat := 0
  fall : Nat := 0
  adv : Nat := 0
  conf : Nat := 0
  cwin : Nat := 0
  toli : Nat := 0
  told : Nat := 0
  pcen : Bool := false
  pcch : Nat := 0
  pclvl : Nat := 0
  pclead : Nat := 0
  pchold : Nat := 0
  /-- the pump boost of R132 has been opened -/
  boosted : Bool := false
  nneed : Nat := 0
  /-- ADV_eff and LEAD in ticks (R117) -/
  advEff : Nat := 0
  lead : Nat := 0
  res : ResSt := .none
  gstep : Int := 0
  /-- the step that the ledger's answer grants, which the next update boundary takes (R121) -/
  grant : Int := 0
  /-- V_REF of the request (REF in 1/256 DAC code times RATIO), the held reservation and the charge in nJ (R120, R263,
  R264) -/
  vref : Nat := 0
  held : Nat := 0
  charge : Nat := 0
  /-- run-ahead start, Time Base ticks, and I_est at it (R122) -/
  tRun : Nat := 0
  i0 : Option Int := none
  /-- both conditions of R122 held at the previous boundary, inside the window -/
  held1 : Bool := false
  devmax : Nat := 0
  tDecide : Nat := 0
  why : Reason := .none
  /-- a host cancel waiting for the next update boundary (R121) -/
  cancel : Bool := false
  /-- a commit or rollback decision waiting for the BLY transmitter (R131): true commits -/
  decision : Option Bool := none
  /-- the transmitter has accepted the decision message; the next update boundary acts on it -/
  acc : Bool := false
  /-- its window was over at a takeover: the mirrored match count decides it (R131) -/
  tko : Bool := false
  deriving DecidableEq, Repr, Inhabited

/-- An outcome record's content (R134). -/
structure Outcome where
  fid : Nat
  fseq : Nat
  rail : Nat
  out : Nat
  ra : Bool
  late : Bool
  capped : Bool
  src : Nat
  reason : Nat
  srcidx : Nat
  tDecide : Nat
  tDone : Nat
  nneed : Nat
  devmax : Nat
  gstep : Int
  deriving DecidableEq, Repr, Inhabited

/-- Intent state of one rail (R118, R123, R124, R134, R159). -/
structure Itn where
  ibase : Int := 0
  ramp : Int := 0
  k : Nat := 0
  blending : Bool := false
  target : Option Ckpt := none
  /-- youngest on top -/
  stack : List Ckpt := []
  outq : List Outcome := []
  /-- next FSEQ whose outcome may leave -/
  relSeq : Nat := 0
  /-- phase count that PHSET is to request (R121) -/
  phset : Option Nat := none
  /-- firmware phase count waiting for an update boundary, and one waiting for run-ahead to end (R159) -/
  fwReq : Option Nat := none
  fwLater : Option Nat := none
  /-- the engine's intent slots: forecasts as copied at their run-ahead start, by table index (R25) -/
  slots : List (Nat × Fc) := []
  deriving DecidableEq, Repr, Inhabited

/-- One kill acting on a phase: `src` is a source bit of R169, or 16 for the kill lines of R161. -/
structure Kill where
  src : Nat
  /-- mid rather than low -/
  mid : Bool
  /-- a KILL_AUTO or line kill, which its condition's end releases (R181, R161) -/
  auto : Bool
  /-- Time Base tick at which the condition ended: the next period boundary releases it -/
  ended : Option Nat := none
  deriving DecidableEq, Repr, Inhabited

/-- A duty word or a COT pulse on its way to a generator: the instant of its load and its value, for a pulse the on-time in
ticks (R11, R147, R149). -/
structure Load where
  at_ : Nat
  val : Nat
  pulse : Bool
  deriving DecidableEq, Repr, Inhabited

/-- One phase beside its registers (R62, R63, R144 to R160, R170, R173).  Instants are Time Base ticks. -/
structure Ph where
  /-- newest current word (R62) -/
  cur : Int := 0
  kills : List Kill := []
  /-- words not yet loaded, oldest first (R147) -/
  loads : List Load := []
  /-- newest duty word loaded, its load, and the word before it (R150) -/
  word : Nat := 0
  wordAt : Nat := 0
  wordOld : Nat := 0
  /-- next cycle start, and the move that a rebase makes at the cycle start after it (R144, R160) -/
  nextStart : Nat := 0
  rebase : Option Int := none
  /-- a high interval is due or in progress, from `onAt` to `offAt` -/
  hi : Bool := false
  onAt : Nat := 0
  offAt : Nat := 0
  /-- last off edge, and the mid interval DT_HL that follows it (R153) -/
  lastOff : Nat := 0
  dtHl : Nat := 0
  /-- diode emulation has sent the phase to mid at `demAt` (R154) -/
  dem : Bool := false
  demAt : Nat := 0
  /-- start of the present cycle, and the last on edge (R144, R152) -/
  cs : Nat := 0
  lastOn : Nat := 0
  /-- on-time delivered in the present cycle; an extra pulse has begun in it (R150) -/
  tdone : Nat := 0
  extra : Bool := false
  /-- ticks of ramp at the last off edge, at which THR_eff is held (R170) -/
  held : Nat := 0
  /-- a high interval of this cycle was forced off (R173) -/
  forced : Bool := false
  /-- consecutive limited cycles (R173) -/
  lrun : Nat := 0
  /-- end of the low interval of BOOT, entry into SHED, and the ns after the one in which a fall of N_req ended a BOOT
  (R157) -/
  bootEnd : Nat := 0
  shedAt : Nat := 0
  bootOff : Nat := 0
  /-- instant at which the level that a state forces was taken (R63) -/
  lvAt : Nat := 0
  /-- autozero: the mid interval, by its start, and whether its average has been taken (R63) -/
  az : Option (Nat × Bool) := none
  deriving DecidableEq, Repr, Inhabited

/-- A fault decision as its message carries it (R189): rail, RING_SEQ number of its record, response, sources, escalation,
the forecasts' reason, Time Base of detection and the record's payload. -/
structure FaultMsg where
  r : Nat
  seq : Nat
  resp : Nat
  mask : Nat
  esc : Bool
  why : Reason
  tb : Nat
  pay : List Nat
  /-- phases killed by the decision, with their kills -/
  kills : List (Nat × Kill)
  deriving DecidableEq, Repr, Inhabited

/-- Protection and rail-state progress of one rail beside its registers (R162, R178, R182 to R188, R236). -/
structure Prt where
  isumCnt : Nat := 0
  eovCnt : Nat := 0
  euvCnt : Nat := 0
  dsatCnt : Nat := 0
  /-- fault stamp S (R187), and the response and sources of the trips in Time Base ns `trTb` (R185) -/
  fstamp : Nat := 0
  fresp : Nat := 0
  trTb : Nat := 0
  trSrc : Nat := 0
  /-- the trips of `trTb` have counted in ESCCNT, and have escalated (R185) -/
  trCnt : Bool := false
  trEsc : Bool := false
  /-- Time Base ticks at which the rail's running and trip-free time began (R184) -/
  runAt : Nat := 0
  /-- BLY's transmitter has taken the fault decision message (R187) -/
  blyTook : Bool := false
  /-- the decision message of the rail's latest fault (R189) -/
  fmsg : Option FaultMsg := none
  /-- sequence number of the latest FAULT record (R189) -/
  fseqNo : Nat := 0
  /-- the KHOLD interval of R182 is running -/
  stopDue : Bool := false
  /-- RAIL_EN is to fall OFFDLY after a disable step (R162) -/
  enFallDue : Bool := false
  /-- Time Base ticks at which RAIL_EN rose, at the disable step or stop, and at which KHOLD began (R162, R182) -/
  enAt : Nat := 0
  disAt : Nat := 0
  holdAt : Nat := 0
  /-- the rail's ranks or offsets are to be computed anew (R160, R165) -/
  gridDue : Bool := false
  /-- Time Base (ns) when RAIL_EN fell, or detection when it was low (R182, R191) -/
  offSince : Nat := 0
  hicWait : Bool := false
  fromBase : Bool := false
  /-- the rail has become running (R162); the engine has taken its first update since the enable step -/
  running : Bool := false
  firstUpd : Bool := false
  /-- the engine may take updates -/
  engOn : Bool := false
  /-- a RAIL_DISABLE ramp is under way (R236) -/
  rampDown : Bool := false
  /-- saved form during CALIBRATE (R237): adopt CAL, or the saved form, at the next boundary -/
  calSaved : Option Nat := none
  calAdopt : Option Nat := none
  /-- Time Base tick at which TIMEOUT ends the calibration (R237) -/
  calEnds : Nat := 0
  /-- a kill acted in this telemetry period (R219) -/
  killed : Bool := false
  /-- telemetry sums of this period: voltage, current, updates, peak current, peak error, energy at its start -/
  telV : Int := 0
  telI : Int := 0
  telN : Nat := 0
  telPk : Int := 0
  telE : Nat := 0
  telE0 : Int := 0
  /-- sums since the last refresh of the PMBus copy: voltage, current, updates, energy at its start (R451) -/
  avgV : Int := 0
  avgI : Int := 0
  avgN : Nat := 0
  avgE : Int := 0
  /-- the copy: mean voltage (1/256 corrected LSB), current (1/1024 A) and energy of the last 100 µs (R451, R471) -/
  meanV : Int := 0
  meanI : Int := 0
  meanE : Int := 0
  deriving DecidableEq, Repr, Inhabited

/-- Where a command came from: its ring and slot, a side bus, or a firmware clear (R229, R231); `gone` for a ring command
whose write-back a RESET of its ring has discarded (R212). -/
inductive CmdSrc where
  | gone
  | ring (n slot : Nat) (irq : Bool)
  | pmbus
  | avs (k : Nat)
  | firmware
  deriving DecidableEq, Repr, Inhabited

/-- The parameters of a FORECAST (R107, R234), `step` as its raw 16 bits. -/
structure FcParam where
  start : Nat
  step : Nat
  rise : Nat
  fall : Nat
  dwell : Nat
  adv : Nat
  cwin : Nat
  toli : Nat
  told : Nat
  conf : Nat
  pc : Nat
  pclead : Nat
  pchold : Nat
  deriving DecidableEq, Repr, Inhabited

/-- A command with its parameters (R233, R234); the docstrings of R234 give their units. -/
inductive Op where
  | nop
  | railEnable (target nph flags : Nat)
  | railDisable (mode : Nat)
  | setTarget (target flags : Nat)
  | setNph (nph : Nat)
  | queryRail
  | faultClear
  | calibrate (phase every pulse timeout : Nat)
  | forecast (p : FcParam)
  | forecastCancel (fid : Nat)
  | budgetSet (window limit mode : Nat)
  | pmSentinel
  | fwStage (addr length offset : Nat)
  | fwActivate (bank : Nat)
  | cairnRead (addr first count : Nat)
  deriving DecidableEq, Repr, Inhabited

/-- A stamped command: `rails` its per-rail stamps, `gseq` its GSEQ (R228); `bad` the lowest offset of a PARAM byte that
must be 0 and is not. -/
structure Cmd where
  src : CmdSrc
  op : Op
  rail : Nat
  stamp : Nat
  gseq : Option Nat := none
  rails : List (Nat × Nat) := []
  fseq : Nat := 0
  bad : Option Nat := none
  /-- FIRST of the fault whose stamp S it follows: it completes RAIL_FAULTED (R187) -/
  faulted : Option Nat := none
  /-- it has passed its checks at its turn, and takes effect at its rail's next update boundary with this target code or phase count (R159, R233) -/
  due : Option Nat := none
  deriving DecidableEq, Repr, Inhabited

/-- What a command that has taken effect waits for before it completes (R232, R233). -/
inductive Await where
  | running | refTarget | enFallen (rails : List Nat) | calEnd | budget | staged | cairn
  deriving DecidableEq, Repr, Inhabited

/-- A command that waits, and for what (R232). -/
structure Waiting where
  cmd : Cmd
  on : Await
  deriving DecidableEq, Repr, Inhabited

/-- The command unit of ALW (R228, R229). -/
structure CmdSt where
  queue : List Cmd := []
  waits : List Waiting := []
  /-- effect messages awaiting acknowledgement: rail (0xFF for GSEQ), ring and slot (R249) -/
  unacked : List (Nat × Nat × Nat) := []
  deriving DecidableEq, Repr, Inhabited

/-- A write-back: bytes 44 to 59 of a slot (R205). -/
structure WB where
  stamp : Nat
  tDone : Nat
  status : Nat
  xstat : Nat
  result : Nat
  deriving DecidableEq, Repr, Inhabited

/-- A record on its way to an EVT ring (R207): `cls` as in R215, `pay` its 32 payload bytes. -/
structure HRec where
  ring : Nat
  cls : Nat
  rail : Nat
  seq : Nat
  gapn : Nat
  tq : Nat
  pay : List Nat
  deriving DecidableEq, Repr, Inhabited

/-- An entry of the posted-write buffer (R216). -/
inductive BufEnt where
  | wb (ring slot : Nat) (w : WB) (irq : Bool)
  | record (r : HRec) (reserved : Bool)
  | msix (v : Nat)
  deriving DecidableEq, Repr, Inhabited

/-- A descriptor fetched and not yet written back; `done` once it has completed (R209), `held` while the partner's
acknowledgement of its effect message is awaited (R249). -/
structure Slot where
  slot : Nat
  irq : Bool
  wait : Bool
  done : Option WB := none
  held : Bool := false
  deriving DecidableEq, Repr, Inhabited

/-- One ring beside its registers (R211 to R220). -/
structure Ring where
  /-- descriptor reads in flight: first slot, the descriptors still wanted of it, and the base tick of its issue -/
  reads : List (Nat × Nat × Nat) := []
  slots : List Slot := []
  /-- run of dropped sequence numbers: first and length (R217) -/
  run : Option (Nat × Nat) := none
  /-- write-backs or records not yet signalled (R220) -/
  unsig : Nat := 0
  /-- local commands waiting their turn in slot order (R224) -/
  localq : List Cmd := []
  /-- slot of a stamped descriptor with WAIT set that is not written back (R205, R213) -/
  waitOn : Option Nat := none
  /-- a link reset or FLR has halted the ring and it has not been resumed: its write-backs stay in the buffer (R222) -/
  cut : Bool := false
  /-- a WARM reset has cleared the ring's registers and it has not been enabled since (R216) -/
  stale : Bool := false
  deriving DecidableEq, Repr, Inhabited

/-- Advanced Error Reporting: status, mask and severity of uncorrectable errors, status and mask of correctable ones, and
ECRC generation and checking (R196, R199). -/
structure Aer where
  unc : Nat := 0
  uncMask : Nat := 0
  uncSev : Nat := 0x00462030
  cor : Nat := 0
  corMask : Nat := 0x2000
  ecrcGen : Bool := false
  ecrcChk : Bool := false
  deriving DecidableEq, Repr, Inhabited

/-- What the configuration space holds beside HI_STAT, and the host's flow-control credits (R199, R221, R222). -/
structure Pcie where
  bar0 : Nat := 0
  bar2 : Nat := 0
  memEn : Bool := false
  msixEn : Bool := false
  msixMask : Bool := false
  /-- Max Payload Size and Max Read Request Size, bytes -/
  mps : Nat := 128
  mrrs : Nat := 512
  /-- Completion Timeout, µs -/
  cto : Nat := 10000
  aspm : Bool := false
  /-- L1.1 may be entered from L1 (R196) -/
  l11 : Bool := false
  ptm : Bool := false
  aer : Aer := {}
  /-- posted header credits, posted data credits of 16 bytes and non-posted header credits that the host has left; none
  where it advertises infinitely many (R213, R221) -/
  ph : Option Nat := none
  pd : Option Nat := none
  np : Option Nat := none
  /-- Subsystem Vendor ID and Subsystem ID, from OTP -/
  subsys : Nat := 0
  deriving DecidableEq, Repr, Inhabited

/-- Intervals of time that the block measures beside those of its units' own state. -/
inductive Timed where
  /-- the telemetry period (R219), TIME of a ring's coalescing (R220), a PTM interval (R382) -/
  | telem | msix (n : Nat) | ptm
  /-- the ledger's 1 µs tick (R262), the self budget's step (R268), an input without a voltage result (R258) -/
  | ledger | self | stale (k : Nat)
  /-- ESCDEC (R181), a hiccup wait (R184) -/
  | esc (r : Nat) | hiccup (r : Nat)
  /-- an island's channel results (R66), a housekeeping entry (R68) -/
  | pccSw (isl : Nat) | hkcEntry
  /-- an island without activity (R269), a core idle (R270), PM_ENTRYTO and every rail quiet (R272), a core's access that
  waits (R21) -/
  | trim (n : Nat) | idle (c : Nat) | entry | quiet | access (c : Nat)
  /-- T1 and the wait for the crystal (R280, R289) -/
  | t1 | xtal
  /-- an amplitude's slew step (R440), the PMBus copy (R451) -/
  | amp (k : Nat) | copy
  deriving DecidableEq, Repr

/-- The key of an interval in the state's table. -/
def Timed.key : Timed → Nat
  | .telem => 0 | .ptm => 1 | .ledger => 2 | .self => 3 | .hkcEntry => 4 | .entry => 6 | .t1 => 7 | .xtal => 8
  | .copy => 9 | .quiet => 10
  | .msix n => 16 + n | .stale k => 48 + k | .amp k => 56 + k | .access c => 64 + c | .idle c => 72 + c | .pccSw n => 96 + n
  | .trim n => 128 + n | .esc r => 160 + r | .hiccup r => 192 + r

/-- A configuration write of the host (R199, R222). -/
inductive CfgWrite where
  | bar0 (a : Nat)
  | bar2 (a : Nat)
  /-- Memory Space Enable and Bus Master Enable -/
  | command (mem bme : Bool)
  | power (d3 : Bool)
  | msix (en mask : Bool)
  | devCtl (mps mrrs : Nat)
  | timeout (us : Nat)
  /-- ASPM L1, and L1.1 from any L1 -/
  | link (l1 l11 : Bool)
  | ptm (en : Bool)
  | subsys (v : Nat)
  /-- Advanced Error Reporting: the status bits to clear -/
  | aerStatus (unc cor : Nat)
  | aerMask (unc sev cor : Nat)
  | ecrc (gen chk : Bool)
  deriving DecidableEq, Repr

/-- A beat whose read has been issued (R404, R412): its first element and count, what an internal source held, and 6 when
the source island is off. -/
structure Beat where
  first : Nat
  count : Nat
  data : List Nat
  err : Nat
  /-- base tick of its issue -/
  at_ : Nat := 0
  deriving DecidableEq, Repr, Inhabited

/-- A DMA descriptor fetched and not yet complete (R406 to R417).  `raw` is its 64 bytes. -/
structure DJob where
  raw : List Nat
  /-- where a ring's descriptor completes; none once its write-back is discarded -/
  src : Option CmdSrc := none
  started : Bool := false
  /-- elements whose read has been issued -/
  issued : Nat := 0
  flight : List Beat := []
  /-- elements read, in order -/
  got : List Nat := []
  written : Nat := 0
  /-- the error decided: STATUS, XSTAT and DONECNT -/
  err : Option (Nat × Nat × Nat) := none
  /-- no further beat is issued; the XSTAT of TR_ABORTED -/
  abort : Option Nat := none
  deriving DecidableEq, Repr, Inhabited

/-- A record that a trace unit has filled (R420): its stream's place, the time of its first sample in 1/128 ns, its samples,
the slots with placeholders, whether one clipped, and the sample at which the trigger fell. -/
structure TrRec where
  k : Nat
  t : Nat
  samples : List Nat
  slotMask : Nat
  clip : Bool
  trig : Option Nat
  deriving DecidableEq, Repr, Inhabited

/-- A trace unit beside its registers (R423 to R426). -/
structure Trc where
  /-- TRIGIDX, once the trigger record is written -/
  trigIdx : Option Nat := none
  /-- dropped samples not yet told by a GAP record: stream, count and time of the first, in 1/128 ns -/
  drops : List (Nat × Nat × Nat) := []
  /-- Time Base (ns) of the last drop signalled -/
  told : Option Nat := none
  deriving DecidableEq, Repr, Inhabited

/-- Correction state of one converter (R40 to R46).  Estimates are in 1/10,000 of the LSB of their register. -/
structure Conv where
  /-- estimates the engine holds, per slice: gain, offset, skew -/
  gain : List (Nat × Int) := []
  ofs : List (Nat × Int) := []
  skew : List (Nat × Int) := []
  /-- base tick after the latest update applied, per slice and parameter (R41) -/
  applied : List (Nat × Nat) := []
  /-- the 64 µs window in progress of each parameter, by its first base tick plus 1, and the estimates at its start
  (R42) -/
  win : List (Nat × Nat) := []
  base : List (Nat × Int) := []
  /-- successive quiet 64 µs windows so far, per parameter (R42) -/
  quiet : List (Nat × Nat) := []
  /-- base tick at which the software-result period began; REFRDY has been 0 in it (R54) -/
  swAt : Nat := 0
  unsettled : Bool := false
  /-- estimates retained in ALW across Sentinel and Off: gain, offset, skew (R46) -/
  kept : Option (List (Nat × Int) × List (Nat × Int) × List (Nat × Int)) := none
  deriving DecidableEq, Repr, Inhabited

/-- A pump boost request (R132, R446): its channel and level, the forecast that holds it open, or the Time Base (ns) at
which its hold ends. -/
structure Boost where
  ch : Nat
  lvl : Nat
  fc : Option Nat
  ends : Option Nat
  deriving DecidableEq, Repr, Inhabited

/-- What PMBus reads of a page answer with, as the part last refreshed it (R451): words, and whether the rail is enabled. -/
structure PmPage where
  en : Bool := false
  vcmd : Nat := 0
  v : Nat := 0
  i : Nat := 0
  p : Nat := 0
  temp : Nat := 0
  vout : Nat := 0
  iout : Nat := 0
  tstat : Nat := 0
  cml : Nat := 0
  deriving DecidableEq, Repr, Inhabited

/-- PMBus state beside its registers (R450, R451): rails with the OV, UV, OC and OT bits set, as masks, and the
STATUS_CML byte of each page. -/
structure Pmb where
  page : Nat := 0
  wp : Nat := 0x80
  ov : Nat := 0
  uv : Nat := 0
  oc : Nat := 0
  ot : Nat := 0
  cml : List (Nat × Nat) := []
  /-- ports and rails whose AVS Voltage write waits for REF to reach LE_TARGET (R454) -/
  vwait : List (Nat × Nat) := []
  /-- the copy of each page -/
  copy : List (Nat × PmPage) := []
  /-- status bits that an alert response has answered: they no longer hold PM_ALERT_N low (R451) -/
  ara : List (Nat × Nat) := []
  deriving DecidableEq, Repr, Inhabited

/-- A staging that FLS serves: from FW_STAGE (`cmd`) or a rope reception (none); `pos` is the next byte offset to erase
and program (R470, R476). -/
structure FwJob where
  cmd : Option Cmd
  addr : Nat
  bank : Nat
  off : Nat
  len : Nat
  pos : Nat
  deriving DecidableEq, Repr, Inhabited

/-- The ledger's account of one rail beside its registers (R257, R262, R263); energies in 2^-16 nJ. -/
structure Led where
  /-- the engine's accumulator when ELG last took it, and the rail total (EL_RACC shows its nJ) -/
  taken : Int := 0
  total : Int := 0
  /-- U of the present window and the ticks of it so far -/
  used : Int := 0
  elapsed : Nat := 0
  /-- the latest 1 µs increments since adoption, newest first, at most ten -/
  hist : List Int := []
  /-- RAIL_OVER has been queued in this window (R265) -/
  told : Bool := false
  deriving DecidableEq, Repr, Inhabited

/-- What a core's access to an island that AUTOWAKE is waking does once it can (R21): an instruction of memory, given by its word,
or a register request. -/
inductive StallOp where
  | ins (i : Nat)
  | write (addr value mask : Nat)
  | read (addr : Nat)
  deriving DecidableEq, Repr, Inhabited

/-- A CAIRN_READ on its way to the host (R238, R491): its command, ADDR, FIRST, COUNT and the bytes sent. -/
structure CrnRead where
  cmd : Cmd
  addr : Nat
  first : Nat
  count : Nat
  pos : Nat := 0
  deriving DecidableEq, Repr, Inhabited

/-- The rest of the ledger and the power manager (R258, R259, R268 to R277). -/
structure Pwr where
  /-- input energy below 1 nJ, and this millisecond's input and island energies, nJ (R256, R258, R259) -/
  inFrac : List (Nat × Nat) := []
  inMs : List (Nat × Nat) := []
  selfMs : List (Nat × Nat) := []
  /-- island energy below 1 nJ, in 2^-16 nJ (R256) -/
  selfFrac : List (Nat × Nat) := []
  /-- ticks of the present millisecond -/
  ms : Nat := 0
  /-- the self window: ticks so far, and SELF_OVER has been queued in it (R268) -/
  elapsed : Nat := 0
  told : Bool := false
  /-- islands whose clock is gated in Trim (R269), as a mask -/
  gated : Nat := 0
  /-- Hold (R270): none, at HOLD1 points, at HOLD2 points -/
  hold : Nat := 0
  /-- Sentinel: 0 not, 1 step 1 made, 2 powering down, 3 in Sentinel, 4 waking -/
  sent : Nat := 0
  /-- ball SENTINEL_IND (R272) -/
  ind : Bool := false
  /-- source that arrived after the first power-down of step 5 (R272) -/
  wakeNext : Option Nat := none
  /-- the part is in Off (R276) -/
  off : Bool := false
  /-- core accesses that wait for an island to wake (R21): core, island and what is done then -/
  stalls : List (Nat × Nat × StallOp) := []
  /-- start-up: 0 supplies awaited, 1 crystal awaited, 2 islands start and run (R280, R281) -/
  phase : Nat := 0
  /-- the next start-up is the first since a COLD reset -/
  cold : Bool := true
  /-- a power loss with VDDAON held (R284) -/
  loss : Bool := false
  /-- islands that are to start, as a mask (R281, R277) -/
  toStart : Nat := 0
  /-- retained banks wait for their check (R274), and the banks held -/
  chk : Bool := false
  ret : Nat := 0
  /-- PM_WAKE_EN.SRC and EFCH, PM_WAKE_T, LINKWAKE and BLYWAKE as they stood at Sentinel entry (R272, R273) -/
  wakeEn : Nat := 0
  wakeCh : Nat := 0
  wakeT : Nat := 0
  linkWake : Bool := false
  blyWake : Bool := false
  /-- an island has been powered down in this Sentinel entry -/
  downs : Bool := false
  /-- a WARM reset in progress: its GL_RSTCAUSE bit, and the base tick of its request (R283) -/
  warm : Option Nat := none
  warmAt : Nat := 0
  /-- BOOTMODE1 and BOOTMODE0 as sampled: bits 1 and 0 (R293) -/
  straps : Nat := 0
  deriving DecidableEq, Repr, Inhabited

/-- A result that the side unit has in flight (R320): the even register of the pair it is written to, or none for a MAC, whose
value is added to MA. -/
structure SideRes where
  dst : Option Nat
  val : Int
  isDiv : Bool := false
  /-- of a DIV (R321, R322): its PC, whether it divides by zero, and RECOV at its issue -/
  pc : Nat := 0
  dz : Bool := false
  recov : Bool := false
  deriving DecidableEq, Repr, Inhabited

/-- A BTB entry (R316). -/
structure Btb where
  tag : Nat
  target : Nat
  ctr : Nat
  deriving DecidableEq, Repr, Inhabited

/-- A logical core (R304, R329, R330, R357); a lock-step pair is one core. -/
structure Core where
  /-- CX_STAT.STATE: 0 RESET, 1 RUN, 2 WAIT, 3 HALT -/
  st : Nat := 0
  /-- W0 to W15, A0 to A7, and P7 to P0 as a mask whose bit 0 is 1 -/
  wr : List (Nat × Nat) := []
  ar : List (Nat × Nat) := []
  pr : Nat := 1
  pc : Nat := 0
  /-- the accumulator MA, a signed 72-bit value -/
  ma : Int := 0
  /-- CX_PC: address of the last instruction retired -/
  last : Nat := 0
  /-- MODE as in force: PRIV, IE, RECOV -/
  mode : Nat := 0xB
  dz : Bool := false
  /-- base tick at which the core left CORE reset, and RET; the values that CYC0 and RET0 reads latched -/
  since : Nat := 0
  ret : Nat := 0
  cycL : Nat := 0
  retL : Nat := 0
  btbEn : Bool := true
  pfEn : Bool := true
  /-- XVEC and GATEB with their staged low halves (R335) -/
  xvecLo : Nat := 0
  xvec : Nat := 0
  xcause : Nat := 0
  xinfo : Nat := 0
  /-- in units of 64 words (R338) -/
  tsbp : Nat := 0
  tsblim : Nat := 0
  tsbtop : Nat := 0
  gatebLo : Nat := 0
  gateb : Nat := 0
  gaten : Nat := 0
  ithr : Nat := 0
  /-- MPU CSRs in force, keyed by CSR number (R357) -/
  mpu : List (Nat × Nat) := []
  /-- staged CSR writes (R325, R353): instructions still to run under the old setting, CSR and value -/
  staged : List (Nat × Nat × Nat) := []
  /-- store buffer, oldest first: address and words (R318) -/
  sb : List (Nat × List Nat) := []
  side : List SideRes := []
  /-- line buffers, most recently used first: line address and its 16 words (R314, R315) -/
  lines : List (Nat × List Nat) := []
  /-- lines requested and not yet arrived -/
  fills : List Nat := []
  btb : List (Nat × Btb) := []
  /-- sources in service (R350) and the offer held (R349) -/
  svc : List Nat := []
  offer : Option Nat := none
  /-- the pair starts at CX_ENTRY once its TCM wipe ends (R361) -/
  restart : Bool := false
  /-- single step: the core halts after one instruction (R363, R550) -/
  stepping : Bool := false
  /-- debugger writes queued for the checker (R363): register selector and value -/
  replay : List (Nat × Nat) := []
  deriving DecidableEq, Repr, Inhabited

/-- One timer beside its registers (R394 to R400). -/
structure Tm where
  cnt : Nat := 0
  acc : Nat := 0
  cmp : Nat := 0
  /-- carries not yet signalled (R395) -/
  wraps : Nat := 0
  cap : Nat := 0
  /-- COUNT when the latest CLR event arrived (R399) -/
  before : Nat := 0
  deriving DecidableEq, Repr, Inhabited

/-- The Time Base servo (R382): FREQ in RATE units, and successive results within 20 ns. -/
structure Srv where
  freq : Int := 0
  good : Nat := 0
  deriving DecidableEq, Repr, Inhabited

/-- A filter of the event fabric (R391): instants at which something is due, and events counted toward N. -/
structure Flt where
  due : List Nat := []
  cnt : Nat := 0
  deriving DecidableEq, Repr, Inhabited

/-- A pump channel beside its registers (R434 to R445). -/
structure Pd where
  /-- duties in force, legs U, V and W, and the committed set that waits for a midpoint -/
  duty : List Nat := [0x8000, 0x8000, 0x8000]
  commit : Option (List Nat) := none
  /-- every leg is held OFF by a reset or a power-down (R437), until the channel is next enabled -/
  coast : Bool := false
  /-- a valid frame has been held since EN rose -/
  seen : Bool := false
  /-- 100 µs step of the present millisecond (R435) -/
  slewStep : Nat := 0
  /-- a frame is running, and the base tick at which its GAP ends; POSTB of that frame -/
  busy : Bool := false
  freeAt : Nat := 0
  postb : Nat := 0
  /-- a request waits for the end of the GAP (R442) -/
  wait : Bool := false
  /-- base tick before which no further carrier midpoint comes (R433) -/
  midAt : Nat := 0
  /-- POS and POSTB of the previous valid frame, and whether the latest frame was valid -/
  prev : Option (Nat × Nat) := none
  lastOk : Bool := false
  /-- consecutive frames that are not valid -/
  bad : Nat := 0
  /-- the latest speed values, newest first -/
  speeds : List Int := []
  deriving DecidableEq, Repr, Inhabited

/-- A Cairn record as queued: payload bytes, and what the header takes when it is queued (R484). -/
structure CrnRec where
  typ : Nat
  lcs : Nat
  tb : Nat
  role : Nat
  pay : List Nat
  deriving DecidableEq, Repr, Inhabited

/-- The Cairn writer (R486 to R489) beside its registers. -/
structure Crn where
  queue : List CrnRec := []
  /-- records dropped since the last DROP record, and the Time Base of the first -/
  drops : Nat := 0
  dropTb : Nat := 0
  /-- records written since the control block was last written, and its two copies (RNUM, pointer, PINLEFT, BOOTN) -/
  since : Nat := 0
  ctl : List (Nat × Nat × Nat × Nat) := []
  /-- a record was left incomplete by a hold-up that failed (R489) -/
  torn : Bool := false
  deriving DecidableEq, Repr, Inhabited

/-- An epoch snapshot (R131, R370): `tbq` its Time Base in ticks, `regs` the mirrored register fields. -/
structure Snap where
  epoch : Nat
  tbq : Nat
  eng : List (Nat × Eng)
  itn : List (Nat × Itn)
  prt : List (Nat × Prt)
  ph : List (Nat × Ph)
  fcs : List (Nat × Fc)
  led : List (Nat × Led)
  queue : List Cmd
  waits : List Waiting
  rings : List (Nat × Ring)
  regs : List (Nat × Nat)
  deriving DecidableEq, Repr, Inhabited

/-- Frames of the belay link (R368).  `control`: 0 pairing, 1 snapshots asked for, 2 the partner's image refused. -/
inductive BlyOut where
  | heartbeat (role : Nat) (own sync : Bool) (upd romver cls sig tb : Nat)
  | snapshot (sn : Snap)
  | stamp (c : Cmd)
  | effect (c : Cmd) (sense : Int) (wb : Option WB)
  /-- a forecast decision: its table index, whether it commits, and the reason (R131) -/
  | decision (i : Nat) (commit : Bool) (why : Reason)
  | fault (m : FaultMsg)
  | ack (seq : Nat)
  | nak (seq : Nat)
  | handover (h : Nat)
  | control (kind : Nat)
  deriving DecidableEq, Repr

/-- A frame that waits for its ACK (R368): when it was sent, and its failed retries. -/
structure Frame where
  seq : Nat
  msg : BlyOut
  sentAt : Nat
  tries : Nat
  deriving DecidableEq, Repr

/-- The belay unit beside its registers (R366 to R376). -/
structure Bly where
  mirror : Option Snap := none
  /-- the epoch whose frames arrive: its number, the next frame, and whether it is torn -/
  asm : Option (Nat × Nat × Bool) := none
  /-- received messages in arrival order: epoch tag, frame sequence number, message -/
  msgs : List (Nat × Nat × BlyOut) := []
  sent : List Frame := []
  nextSeq : Nat := 0
  /-- base tick at which the last valid heartbeat arrived -/
  hbAt : Nat := 0
  /-- the partner's SYNC, and base tick since which the signatures differ -/
  pSync : Bool := false
  diffAt : Option Nat := none
  refuse : Bool := false
  /-- a planned handover is under way on the old part; on the new part, its H while BLKA_I is not quiet -/
  handReq : Bool := false
  handIn : Option Nat := none
  /-- a WARM reset waits for the handover: the GL_RSTCAUSE bits it sets (R376) -/
  warmAfter : Option Nat := none
  deriving DecidableEq, Repr, Inhabited

/-- The key store and the authorisation unit beside their registers (R468, R469, R481). -/
structure Sec where
  /-- SHA-384 of each owner slot's key, as bytes; a vendor slot's is `Config.vendorKey` -/
  keys : List (Nat × List Nat) := []
  /-- the nonce has been drawn and not consumed -/
  fresh : Bool := false
  /-- times that SEC_SVNMIN has been raised -/
  svnUps : Nat := 0
  deriving DecidableEq, Repr, Inhabited

/-- A rope frame: its TYPE, sender, destination and payload bytes (R460). -/
structure RopeFrame where
  typ : Nat
  src : Nat
  dst : Nat
  pay : List Nat
  deriving DecidableEq, Repr, Inhabited

/-- An image being sent (R476): `stage` 0 OPEN sent, 1 DATA, 2 CLOSE sent; `win` the DATA frames unacknowledged, by offset
with their resends and the tick of the last sending; `tries` and `at_` the same of OPEN or CLOSE. -/
structure RopeTx where
  xid : Nat
  dst : Nat
  bank : Nat
  len : Nat
  stage : Nat := 0
  next : Nat := 0
  win : List (Nat × Nat × Nat) := []
  tries : Nat := 0
  at_ : Nat := 0
  deriving DecidableEq, Repr, Inhabited

/-- An image being received (R476): bytes buffered and not yet programmed, the next offset, a CLOSE that waits, and a cause
that is to be NAKed. -/
structure RopeRx where
  xid : Nat
  src : Nat
  len : Nat
  buf : List Nat := []
  next : Nat := 0
  close : Bool := false
  cause : Option Nat := none
  deriving DecidableEq, Repr, Inhabited

/-- The side interfaces beside their registers (R449 to R463, R476). -/
structure Side where
  /-- I3C target events are enabled; an in-band interrupt waits -/
  i3cEv : Bool := true
  ibi : Bool := false
  /-- base tick since which an ENUM is awaited (R461) -/
  enumAt : Option Nat := none
  xid : Nat := 0
  tx : Option RopeTx := none
  rx : Option RopeRx := none
  deriving DecidableEq, Repr, Inhabited

/-- Boundary-scan instructions (R531). -/
inductive JtagIr where
  | bypass | idcode | sample | extest | clamp | highz
  deriving DecidableEq, Repr, Inhabited

/-- The JTAG port: the instruction in force, the register that a scan shifts, and the boundary cells. -/
structure Jtag where
  ir : JtagIr := .idcode
  cells : List Bool := []
  deriving DecidableEq, Repr, Inhabited

end Sys2Proof.Machine
end

