-- ==== Sys2Proof/Syntax.lean ====
section
/-! DEFINITION. The commands that reach the block, one constructor per row of the spec's table of operations and
events.  What the outside world supplies to a command (samples, codes, host data, an instant) is its operands.
An operand `t` is the instant, in base ticks of 7.8125 ps, at which the event happens. -/

namespace Sys2Proof

open Sys2Proof.Machine

/-- Who makes a register access: the host, or a logical core. -/
inductive Agent where
  | host
  | core (c : Nat)
  deriving DecidableEq, Repr

/-- A parameter of the mismatch correction (R40). -/
inductive CorrPar where
  | gain | ofs | skew
  deriving DecidableEq, Repr

/-- What asserts a kill line: KILL0_N to KILL3_N, or a level of an event-fabric channel (R161). -/
inductive KillIn where
  | ball (k : Nat)
  | chan (c : Nat)
  deriving DecidableEq, Repr

/-- The answer to a read of host memory: data, or Completion Timeout, UR, CA or poisoned data (1 to 4). -/
inductive ReadAns where
  | data (blocks : List (List Nat))
  | error (code : Nat)
  deriving DecidableEq, Repr


/-- The commands of the block: one constructor per row of the table of operations and events, in its order. -/
inductive Instr where
  /-- REGISTER_WRITE (R7): A host or core write to a register that has no row of its own acts on its fields by their access types. -/
  | registerWrite (a : Agent) (addr value mask : Nat)
  /-- REGISTER_REQUEST_TIMEOUT (R22): An island that is on has not answered a register request within 350 ns, so the hub answers 0xFA11 or raises ISLAND_TIMEOUT. -/
  | registerRequestTimeout (a : Agent) (addr : Nat)
  /-- AUTOWAKE_ACCESS (R21): A core access stalled on an off island with AUTOWAKE set completes once the power manager has woken the island. -/
  | autowakeAccess (c : Nat)
  /-- AUTOWAKE_TIMEOUT (R21): An AUTOWAKE stall reaches 3 µs without the island waking, and the access raises a bus error ISLAND_OFF. -/
  | autowakeTimeout (c : Nat) (t : Nat := 0)
  /-- TRIM_GATE (R269): An island's PM_TRIM idle timer expires with no handshake outstanding, and its clock is gated. -/
  | trimGate (n : Nat)
  /-- TRIM_UNGATE (R19): A request reaching a Trim-gated island ungates its clock and completes with added crossing time. -/
  | trimUngate (n : Nat)
  /-- HOLDING_COPY_READ (R552): A core read of the upper word of a latching register returns the upper half of the last holding copy. -/
  | holdingCopyRead (c addr : Nat)
  /-- RSC_SWRES_READ (R55): A read of RSC_SWRES returns the result, takes the holding copy and clears NEW and OVR. -/
  | rscSwresRead (a : Agent) (n : Nat)
  /-- PCC_SWRES_READ (R66): A read of PCC_SWRES or ICC_SWRES returns the averaged current and clears NEW and OVR. -/
  | pccSwresRead (a : Agent) (p : Nat)
  /-- HKC_RES_READ (R71): A read of HKC_RES[e] returns the entry result and clears NEW and OVR. -/
  | hkcResRead (a : Agent) (e : Nat)
  /-- FC_ENTC_READ (R140): A read of FC_ENTC latches FC_ENTD and takes the holding copy. -/
  | fcEntcRead (a : Agent) (i : Nat)
  /-- TB_LO_READ (R381): A read of the low word of the Time Base latches its upper bits into the holding copy. -/
  | tbLoRead (a : Agent)
  /-- TM_CNT_LO_READ (R398): A read of TM_CNT_LO latches TM_CNT_HI and, for a chain bottom, snapshots every timer of the chain. -/
  | tmCntLoRead (a : Agent) (t : Nat)
  /-- TM_CAP_LO_READ (R400): A read of TM_CAP_LO latches TM_CAP_HI and clears CAPNEW and CAPOVR. -/
  | tmCapLoRead (a : Agent) (t : Nat)
  /-- PROT_RFTS_LO_READ (R194): A read of PROT_RFTS_LO latches PROT_RFTS_HI. -/
  | protRftsLoRead (a : Agent) (r : Nat)
  /-- EL_LO_READ (R278): A read of any EL _LO register latches its _HI partner. -/
  | elLoRead (a : Agent) (addr : Nat)
  /-- PD_POSTB_LO_READ (R447): A read of PD_POSTB_LO latches PD_POSTB_HI. -/
  | pdPostbLoRead (a : Agent) (k : Nat)
  /-- BL_TKO_LO_READ (R378): A read of BL_TKO_LO latches BL_TKO_HI. -/
  | blTkoLoRead (a : Agent)
  /-- TR_TRIGTB_LO_READ (R431): A read of TR_TRIGTB_LO latches TR_TRIGTB_HI. -/
  | trTrigtbLoRead (a : Agent) (u : Nat)
  /-- IC_SEM_READ (R355): A read of a free IC_SEM takes it for the reader, and a read of a held one changes nothing. -/
  | icSemRead (a : Agent) (j : Nat)
  /-- IC_SEM_RELEASE (R355): A write of 0 to IC_SEM releases the semaphore. -/
  | icSemRelease (a : Agent) (j : Nat)
  /-- NONCE_READ (R481): A read of SEC_NONCE[0] draws a fresh 32-byte nonce. -/
  | nonceRead (a : Agent)
  /-- CORR_STEP (R41): The mismatch correction engine applies one bounded update of a slice's gain, offset or skew estimate at a round boundary. -/
  | corrStep (n sl : Nat) (par : CorrPar) (est : Int) (t : Nat)
  /-- REF_SETTLED (R52): The selected reference settles to within 0.005 % and REFRDY sets. -/
  | refSettled (n : Nat)
  /-- REFLOST (R53): A regulation reference differs from the monitor reference by more than ±0.5 %, setting REFLOST and raising the REF event. -/
  | reflost (isl ref : Nat) (dev : Int := 0)
  /-- RSC_SWRES_PERIOD (R54): A software-result period ends and the averaged result is written to RSC_SWRES. -/
  | rscSwresPeriod (n t : Nat) (samples : List (Nat × Int))
  /-- RSC_SLOT_WRITE (R48): A write of RSC_SLOT is checked against the one-non-LOOP limit and applies at the next update boundary. -/
  | rscSlotWrite (n value : Nat)
  /-- RSC_CFG_WRITE (R51): A write of RSC_CFG is refused for MODE or REFSEL while the rail is enabled, else sets the converter configuration. -/
  | rscCfgWrite (n value : Nat)
  /-- RSC_CORR_WRITE (R44): A write of a correction register takes effect only while CORR_FRZ = 1, else sets FRZBUSY. -/
  | rscCorrWrite (n sl : Nat) (par : CorrPar) (value : Nat)
  /-- PCC_AUTOZERO_START (R63): A phase has been in mid for 2 µs and its channel begins averaging 256 codes for autozero. -/
  | pccAutozeroStart (p : Nat) (t : Nat := 0)
  /-- PCC_AUTOZERO_DONE (R63): The 256th autozero code is taken and the average is written to PCC_OFS or rejected with AZ_FAIL. -/
  | pccAutozeroDone (p : Nat) (codes : List Int) (t : Nat := 0)
  /-- PCC_SWRES_PERIOD (R66): An island's PCC or ICC software-result period ends and every channel's averaged current is written. -/
  | pccSwresPeriod (isl : Nat) (codes : List (Nat × List Int))
  /-- HKC_PASS_START (R69): In continuous mode the HKC_PERIOD expires and a new housekeeping pass starts. -/
  | hkcPassStart (t : Nat := 0)
  /-- HKC_TRIGGER (R69): An event on the TRIG channel starts a pass in triggered mode, or counts as TRIGLOST during a pass. -/
  | hkcTrigger (ch : Nat := 0) (t : Nat := 0)
  /-- HKC_ENTRY_DONE (R68): An HKC entry finishes its conversions and writes its averaged result to HKC_RES. -/
  | hkcEntryDone (e : Nat) (codes : List Nat)
  /-- HKC_SWAP (R70): A write of 1 to HKC_CTL.SWAP requests adoption of the shadow table, at once if no pass runs. -/
  | hkcSwap
  /-- EL_STALE (R258): No HKC result has arrived for an ICC input's voltage for 1 ms and EL_ERR.STALE is set. -/
  | elStale (k : Nat)
  /-- LOOP_UPDATE (R76): At an update boundary a loop engine latches its ports and runs its form's microwords through EMIT. -/
  | loopUpdate (r t : Nat) (win : List Int) (codes : List (Nat × Int)) (word : Option Nat) (bit : Nat)
  /-- LE_COMMIT (R99): A write of 1 to LE_CTL.COMMIT asks the engine to adopt its whole shadow set. -/
  | leCommit (r : Nat)
  /-- FORECAST (R110): The FORECAST command is checked and, if accepted, places a forecast in the table. -/
  | forecast (src : CmdSrc) (rail : Nat) (p : FcParam)
  /-- FORECAST_CANCEL (R128): The FORECAST_CANCEL command names a FID and cancels that forecast under the state table. -/
  | forecastCancel (src : CmdSrc) (rail fid : Nat)
  /-- HINT_EDGE (R112): A selected edge on a HINT pin creates a forecast from its template, or is ignored or refused. -/
  | hintEdge (p : Nat) (rising : Bool) (t : Nat)
  /-- HACK_PULSE_END (R113): A HACK pulse's width expires and the output falls. -/
  | hackPulseEnd (k : Nat)
  /-- RESERVATION_REQUEST (R120): At acceptance or at t_ra − 20 µs the intent unit asks the ledger to reserve the forecast's energy. -/
  | reservationRequest (i : Nat)
  /-- RESERVATION_ANSWER (R263): The ledger answers a reservation with grant, cap or refusal within 400 ns. -/
  | reservationAnswer (i : Nat)
  /-- OUTCOME_RELEASE (R134): An outcome held behind elders leaves the queue in FSEQ order once every elder has queued its outcome. -/
  | outcomeRelease (r : Nat)
  /-- DECISION_MESSAGE_ACCEPT (R131): BLY's transmitter accepts a commit or rollback decision message, and the decision then acts in the engine. -/
  | decisionMessageAccept (i : Nat)
  /-- PRECOOL_REQUEST (R132): At START − PCLEAD, or at acceptance, the intent unit opens a pump boost request. -/
  | precoolRequest (i : Nat)
  /-- FC_TPL_WRITE (R115): A write to a template register is ignored while the template is enabled, except its EN bit. -/
  | fcTplWrite (t w value : Nat)
  /-- STATCLR (R137): A write of 1 to FC_CFG.STATCLR clears every template statistic. -/
  | statclr
  /-- PWM_CYCLE_START (R144): A phase reaches its cycle start and begins its on edge under the word in force. -/
  | pwmCycleStart (p t : Nat)
  /-- PWM_OFF_EDGE (R146): A phase reaches its computed off edge and drives mid then low after the dead time. -/
  | pwmOffEdge (p t : Nat)
  /-- ZERO_CROSS_MID (R154): With diode emulation a phase whose current falls to ZCTHR in its low interval goes mid. -/
  | zeroCrossMid (p : Nat) (code : Int) (t : Nat := 0)
  /-- BCOMMIT (R155): A write of 1 to PW_CTL.BCOMMIT asks for the island's shadow bindings to be adopted. -/
  | bcommit (isl : Nat) (both : Bool := false)
  /-- RCOMMIT (R164): A write of 1 to a PW_CTL.RCOMMIT bit asks for a rail's PWM shadow set to be adopted. -/
  | rcommit (r : Nat)
  /-- PW_NREQ_WRITE (R159): A write of PW_NREQ requests a new firmware phase count and updates the checkpoints' NPH. -/
  | pwNreqWrite (r n : Nat)
  /-- SHED_END (R157): A SHED phase's current reaches ZCTHR or SHEDMAX expires, and it goes OFF. -/
  | shedEnd (p : Nat) (code : Option Int) (t : Nat := 0)
  /-- KILL_LINE_ASSERT (R161): An asserted kill line selected by a rail kills every bound phase of the rail. -/
  | killLineAssert (x : KillIn) (t : Nat := 0)
  /-- KILL_LINE_RELEASE (R161): A line kill releases at the first period boundary after the line deasserts. -/
  | killLineRelease (x : KillIn) (r : Nat) (t0 : Nat := 0) (t : Nat := 0)
  /-- RAIL_RUNNING (R162): ENDLY after RAIL_EN rose and at the engine's first update, the rail becomes running. -/
  | railRunning (r t : Nat)
  /-- RAIL_EN_FALL (R162): OFFDLY after a disable step, RAIL_EN falls. -/
  | railEnFall (r t : Nat)
  /-- DLL_RELOCK_STEP (R148): A delay line is re-locked to the base by one tap in the background. -/
  | dllRelockStep (p : Nat) (move : Int)
  /-- PCMP_TRIP (R173): A PCMP in TRIP mode asserts its filtered output and raises source PCMP. -/
  | pcmpTrip (p t : Nat) (xs : List Int := [])
  /-- PCMP_LIMIT (R173): A PCMP in LIMIT mode asserts while the phase is high and forces the off edge. -/
  | pcmpLimit (p t : Nat) (xs : List Int := [])
  /-- VCMP_TRIP (R174): A VCMP filtered output asserts, raising VOV, or VUV while armed. -/
  | vcmpTrip (v t : Nat) (xs : List Int := [])
  /-- IPHOC (R178): A bound phase's current word exceeds IPHLIM. -/
  | iphoc (p : Nat) (code : Int)
  /-- IPHNEG (R178): A bound phase's current word falls below −INEG. -/
  | iphneg (p : Nat) (code : Int)
  /-- RAIL_STOP (R182): KHOLD after a fault the rail stops running and its phases go mid. -/
  | railStop (r t : Nat)
  /-- KILL_AUTO_RELEASE (R181): A KILL_AUTO kill releases at the first period boundary after its condition ended. -/
  | killAutoRelease (r t : Nat)
  /-- ESC_DECAY (R181): Every ESCDEC µs one is taken from ESCCNT. -/
  | escDecay (r : Nat)
  /-- HICCUP_WAIT_END (R184): A hiccup wait of HICTIME ends and the rail retries, waits again or latches. -/
  | hiccupWaitEnd (r t : Nat)
  /-- HICCUP_RETRIES_CLEAR (R184): The rail has run HICTIME without a trip and RETRIES returns to 0. -/
  | hiccupRetriesClear (r : Nat)
  /-- FAULT_CLEAR (R191): The FAULT_CLEAR command clears a latched or hiccup rail fault when its conditions hold. -/
  | faultClear (src : CmdSrc) (rail : Nat)
  /-- PROT_RCLR_WRITE (R231): A firmware write of PROT_RCLR draws a stamp and is judged as a FAULT_CLEAR, or sets CLRBUSY. -/
  | protRclrWrite (r value : Nat)
  /-- COMMAND_GATE_OPEN (R187): The FAULT record is in the buffer and BLY has accepted the fault message, so the rail's command gate opens. -/
  | commandGateOpen (r : Nat)
  /-- DOORBELL (R210): A doorbell write gives a ring a new TAIL, or is ignored or dropped. -/
  | doorbell (n value : Nat)
  /-- DESCRIPTOR_FETCH (R213): The ring engine issues a read of up to 8 posted descriptors once it has room. -/
  | descriptorFetch (n : Nat) (np : Nat := 0)
  /-- DESCRIPTOR_STAMP (R214): A descriptor read completion arrives and each descriptor is checked and stamped. -/
  | descriptorStamp (t : Nat) (l : List (Nat × ReadAns))
  /-- LINK_RESET (R222): A hot reset, link-down or PERST_N assertion resets HLK and halts the rings. -/
  | linkReset (perst : Bool := false)
  /-- FLR (R222): A Function Level Reset halts the rings and clears HI_ERR. -/
  | flr
  /-- RING_ENABLE (R211): A write of RING_CTL.EN = 1 starts a ring or sets RING_ERR.CFG. -/
  | ringEnable (n : Nat)
  /-- RING_DISABLE (R211): A write of RING_CTL.EN = 0 turns a ring OFF when nothing is pending. -/
  | ringDisable (n : Nat)
  /-- RING_RESUME (R211): A write of RING_CTL.RESUME takes a HALTED ring back to fetching. -/
  | ringResume (n : Nat)
  /-- RING_RESET (R212): A write of RING_CTL.RESET turns a ring OFF and discards its write-backs or lossy records. -/
  | ringReset (n : Nat)
  /-- POSTED_WRITE_DRAIN (R216): The head entry of the posted-write buffer is written to the host once credit and a given slot allow. -/
  | postedWriteDrain (ph : Nat := 0) (pd : Nat := 0)
  /-- MSIX_COALESCE_TIMER (R220): TIME µs pass since the first unsignalled write-back and the ring signals its vector. -/
  | msixCoalesceTimer (n : Nat)
  /-- TELEM_PERIOD (R219): The telemetry period ends and one TELEM record per selected rail is queued. -/
  | telemPeriod
  /-- COMMAND_TURN (R229): A stamped command reaches its turn and is judged and takes effect or is refused. -/
  | commandTurn (rail : Nat) (sense : Int)
  /-- NOP (R233): The NOP command takes effect at its turn and completes. -/
  | nop (src : CmdSrc) (rail : Nat)
  /-- RAIL_ENABLE (R236): The RAIL_ENABLE command sets the target and starts the rail. -/
  | railEnable (src : CmdSrc) (rail target nph flags : Nat) (sense : Int)
  /-- RAIL_DISABLE (R236): The RAIL_DISABLE command stops the rail at once or after a ramp down. -/
  | railDisable (src : CmdSrc) (rail mode : Nat)
  /-- SET_TARGET (R235): The SET_TARGET command changes LE_TARGET at the next update boundary. -/
  | setTarget (src : CmdSrc) (rail target flags : Nat)
  /-- SET_NPH (R233): The SET_NPH command sets the rail's firmware phase count. -/
  | setNph (src : CmdSrc) (rail nph : Nat)
  /-- QUERY_RAIL (R233): The QUERY_RAIL command returns the rail state, NPH, forecasts in flight and FROZEN. -/
  | queryRail (src : CmdSrc) (rail : Nat)
  /-- CALIBRATE (R237): The CALIBRATE command saves the form and enters CAL with the given injection. -/
  | calibrate (src : CmdSrc) (rail phase every pulse timeout : Nat)
  /-- CALIBRATION_END (R237): COUNT reaches 255 or TIMEOUT passes and the saved form is restored. -/
  | calibrationEnd (r : Nat)
  /-- BUDGET_SET (R262): The BUDGET_SET command sets a rail or self budget, adopted at the next ledger tick. -/
  | budgetSet (src : CmdSrc) (rail window limit mode : Nat)
  /-- PM_SENTINEL (R238): The PM_SENTINEL command is refused unless every rail is OFF or LATCHED, else arms Sentinel entry. -/
  | pmSentinel (src : CmdSrc)
  /-- FW_STAGE (R470): The FW_STAGE command programs host data into the inactive flash bank. -/
  | fwStage (src : CmdSrc) (addr length offset : Nat)
  /-- FW_ACTIVATE (R472): The FW_ACTIVATE command writes the boot selection to the named bank. -/
  | fwActivate (src : CmdSrc) (bank : Nat)
  /-- CAIRN_READ (R491): The CAIRN_READ command copies Cairn records to host memory. -/
  | cairnRead (src : CmdSrc) (addr first count : Nat)
  /-- STAMP_MESSAGE (R249): A STAMP message from the active partner is received and held in the mirror. -/
  | stampMessage (tag seq : Nat) (good : Bool) (c : Cmd)
  /-- EFFECT_MESSAGE (R249): An EFFECT message from the active partner is received and acknowledged. -/
  | effectMessage (tag seq : Nat) (good : Bool) (c : Cmd) (sense : Int) (wb : Option WB)
  /-- DECISION_MESSAGE (R131): A forecast decision message from the active partner is received and held. -/
  | decisionMessage (tag seq : Nat) (good : Bool) (i : Nat) (commit : Bool) (why : Reason)
  /-- FAULT_MESSAGE (R189): A fault decision message from the active partner is received and held. -/
  | faultMessage (tag seq : Nat) (good : Bool) (m : FaultMsg)
  /-- ACK (R368): A belay ACK frame arrives and releases the next message or write-back waiting on it. -/
  | ack (seq t : Nat)
  /-- NAK (R368): A belay NAK frame arrives and the named frame is retried. -/
  | nak (seq : Nat)
  /-- FRAME_RETRY (R368): A belay frame has no ACK in time and is retried, or the link retrains after 4 retries. -/
  | frameRetry (seq : Nat)
  /-- BELAY_LINK_TRAINED (R367): The belay link trains and the parts pair or refuse after their checks. -/
  | belayLinkTrained (variant romver : Nat) (pad960 refuse own sel : Bool) (t : Nat)
  /-- EPOCH_BOUNDARY (R369): At each 1 µs epoch the part sends a heartbeat and, if ACTIVE, captures and sends a snapshot. -/
  | epochBoundary (t : Nat)
  /-- HEARTBEAT (R368): A heartbeat from the partner arrives, updating partner status and Time Base steering. -/
  | heartbeat (own sync : Bool) (upd romver cls sig tb t : Nat)
  /-- SNAPSHOT (R370): A snapshot frame arrives and a complete snapshot is applied to the mirror, or a torn one discarded. -/
  | snapshot (epoch part : Nat) (good : Bool) (sn : Snap)
  /-- PARTNER_LOST (R369): 3,000 ns pass after the last valid heartbeat and the partner is declared lost. -/
  | partnerLost (t : Nat)
  /-- BLKA_QUIET (R366): BLKA_I has shown no edge for 200 ns and the part may take pad ownership. -/
  | blkaQuiet (tie : Bool) (t : Nat)
  /-- KEEPALIVE_STOP (R366): The keep-alive condition fails, the generator stops and the PWM and RAIL_EN drivers float. -/
  | keepaliveStop (t : Nat)
  /-- HANDOVER (R374): A write of 1 to BL_CTL.HANDOVER starts a planned handover. -/
  | handover
  /-- HANDOVER_FRAME (R374): A HANDOVER frame arrives and the standby applies the final snapshot and takes over. -/
  | handoverFrame (seq h t : Nat)
  /-- REFUSE (R367): A write of 1 to BL_CTL.REFUSE refuses the partner's image and prevents pairing. -/
  | refuse
  /-- RESYNC (R378): A write of 1 to BL_CTL.RESYNC makes a STANDBY part clear SYNC and ask for snapshots. -/
  | resync
  /-- CFGDIFF (R371): The configuration signatures have differed for more than 10 µs and CFGDIFF is set. -/
  | cfgdiff (t : Nat)
  /-- LS_MISCOMPARE (R361): A lock-step output comparison fails and the pair stops, then resets or halts. -/
  | lsMiscompare (j cause pc addr : Nat)
  /-- LEDGER_TICK (R262): At each 1 µs tick ELG takes the engines' energy and updates windows, answers and budgets. -/
  | ledgerTick (self : List (Nat × Nat)) (icc : List (Nat × List Int))
  /-- SELF_BUDGET_STEP (R268): Every 10 µs the power manager projects the self window and applies or withdraws one action. -/
  | selfBudgetStep
  /-- HOLD_ENTRY (R270): Every running core has been idle for PM_HOLD_IDLE and the part enters Hold. -/
  | holdEntry (t : Nat)
  /-- HOLD_EXIT (R270): An eligible interrupt, a protection event or an enabled wake source ends Hold. -/
  | holdExit (code ch t : Nat)
  /-- SENTINEL_ENTRY (R272): After an accepted PM_SENTINEL or auto idle, with the buffer empty, the part enters Sentinel. -/
  | sentinelEntry (t : Nat)
  /-- SENTINEL_ENTRY_TIMEOUT (R272): PM_ENTRYTO passes before every core is idle and the cores are stopped. -/
  | sentinelEntryTimeout (t : Nat)
  /-- WAKE_SOURCE (R273): An enabled wake source arrives and the part leaves Sentinel or ends an entry. -/
  | wakeSource (code ch t : Nat)
  /-- OFF_ENTRY (R276): The board removes VDDC, VDDP and VDDA while SENTINEL_IND is high and the part enters Off. -/
  | offEntry (t : Nat)
  /-- PM_PADREL_WRITE (R275): A write of PM_PADREL releases the held pads of an island. -/
  | pmPadrelWrite (mask : Nat)
  /-- ISLREQ_STOP (R277): A write to PM_ISLREQ.STOP asks the power manager to power down an island. -/
  | islreqStop (n : Nat)
  /-- ISLREQ_START (R277): A write to PM_ISLREQ2.START asks the power manager to restart an island. -/
  | islreqStart (n : Nat)
  /-- SUPPLIES_GOOD (R280): Every supply is above its threshold with RESET_N high, and start-up begins. -/
  | suppliesGood (straps : Nat) (pair sel holdOk : Bool) (t : Nat)
  /-- XTAL_GOOD (R280): The crystal becomes good and T1 follows after PLL lock. -/
  | xtalGood (t : Nat)
  /-- XTAL_FAIL (R280): The crystal is not good after 2 ms and XTALFAIL is set. -/
  | xtalFail (t : Nat)
  /-- ISLAND_START (R281): An island's slot in the start order comes and its switch closes, clock runs and wipe begins. -/
  | islandStart (n lost t : Nat)
  /-- WIPE_DONE (R285): A memory's start-up wipe completes and GL_WIPESTAT clears. -/
  | wipeDone (k : Nat)
  /-- BASECAMP_START (R289): At T1 + 48 µs + DELAY, Base Camp service writes an entry's settings and starts its rail. -/
  | basecampStart (e : Nat) (sense : Int) (t : Nat)
  /-- BOOT_CHECK (R467): The boot image check completes and C0 starts, falls back or the part enters RECOVERY. -/
  | bootCheck (ecc t : Nat)
  /-- COLD_RESET (R282): Supply loss of VDDAON or RESET_N low for 1 µs gives a COLD reset. -/
  | coldReset (pin : Bool)
  /-- WARM_RESET (R283): A WARM reset request stops fetching, ends forecasts and disables rails before resetting islands. -/
  | warmReset (cause t : Nat)
  /-- WARM_RESET_ISLANDS (R283): Every RAIL_EN has fallen or 100 µs pass, and every island but ALW is reset. -/
  | warmResetIslands (straps t : Nat)
  /-- ISLAND_RESET (R188): An ISLAND reset acts on one island, with the recovery effects that its island's rules give. -/
  | islandReset (n : Nat) (req : Bool)
  /-- CORE_RESET (R331): A CORE reset clears one core or pair and wipes its TCM. -/
  | coreReset (c : Nat)
  /-- CORE_START (R330): A write of 1 to CX_CTL.START starts a core in CORE reset at CX_ENTRY. -/
  | coreStart (c : Nat)
  /-- POWER_LOSS (R284): VDDC, VDDP or VDDA is removed with SENTINEL_IND low, and ALW latches pads and holds up the Cairn write. -/
  | powerLoss (held : Bool) (t : Nat)
  /-- LC_REQ (R300): A write of LC_REQ requests a life-cycle transition, refused or written to OTP then followed by WARM reset. -/
  | lcReq (target t : Nat)
  /-- LC_WIPE (R300): During start-up after a transition, FLS performs the pending wipe before any core starts. -/
  | lcWipe (t : Nat)
  /-- ILL (R309): The ILL instruction raises ILLEGAL. -/
  | coreIll (c : Nat) (i : BitVec 32)
  /-- CORE_NOP (R309): The NOP instruction does nothing. -/
  | coreNop (c : Nat) (i : BitVec 32)
  /-- ADD (R309): The ADD instruction adds two registers. -/
  | coreAdd (c : Nat) (i : BitVec 32)
  /-- SUB (R309): The SUB instruction subtracts two registers. -/
  | coreSub (c : Nat) (i : BitVec 32)
  /-- ADDI (R309): The ADDI instruction adds a sign-extended immediate. -/
  | coreAddi (c : Nat) (i : BitVec 32)
  /-- AND (R309): The AND instruction ands two registers. -/
  | coreAnd (c : Nat) (i : BitVec 32)
  /-- OR (R309): The OR instruction ors two registers. -/
  | coreOr (c : Nat) (i : BitVec 32)
  /-- XOR (R309): The XOR instruction xors two registers. -/
  | coreXor (c : Nat) (i : BitVec 32)
  /-- ANDI (R309): The ANDI instruction ands a zero-extended immediate. -/
  | coreAndi (c : Nat) (i : BitVec 32)
  /-- ORI (R309): The ORI instruction ors a zero-extended immediate. -/
  | coreOri (c : Nat) (i : BitVec 32)
  /-- XORI (R309): The XORI instruction xors a zero-extended immediate. -/
  | coreXori (c : Nat) (i : BitVec 32)
  /-- SHF (R309): The SHF instruction shifts or rotates a register. -/
  | coreShf (c : Nat) (i : BitVec 32)
  /-- MOVI (R309): The MOVI instruction loads a 16-bit immediate. -/
  | coreMovi (c : Nat) (i : BitVec 32)
  /-- MINMAX (R309): The MINMAX instruction takes the minimum or maximum of two registers. -/
  | coreMinmax (c : Nat) (i : BitVec 32)
  /-- ADDA (R309): The ADDA instruction adds an immediate to an address register. -/
  | coreAdda (c : Nat) (i : BitVec 32)
  /-- ADDAW (R309): The ADDAW instruction adds a sign-extended data register to an address register. -/
  | coreAddaw (c : Nat) (i : BitVec 32)
  /-- MOVAW (R309): The MOVAW instruction moves between a data pair and an address register. -/
  | coreMovaw (c : Nat) (i : BitVec 32)
  /-- LDA_L (R309): The LDA.L instruction loads a 32-bit literal into an address register. -/
  | coreLdaL (c : Nat) (i lit : BitVec 32)
  /-- LD (R309): The LD instruction loads one word. -/
  | coreLd (c : Nat) (i : BitVec 32)
  /-- ST (R318): The ST instruction stores one word through the store buffer. -/
  | coreSt (c : Nat) (i : BitVec 32)
  /-- LD_D (R309): The LD.D instruction loads a word pair. -/
  | coreLdD (c : Nat) (i : BitVec 32)
  /-- ST_D (R309): The ST.D instruction stores a word pair. -/
  | coreStD (c : Nat) (i : BitVec 32)
  /-- LDA (R309): The LDA instruction loads an address register from memory. -/
  | coreLda (c : Nat) (i : BitVec 32)
  /-- STA (R309): The STA instruction stores an address register to memory. -/
  | coreSta (c : Nat) (i : BitVec 32)
  /-- CMP_CC (R311): The CMP.cc instruction sets a predicate from a condition. -/
  | coreCmpCc (c : Nat) (i : BitVec 32)
  /-- CMP_CC_AND (R311): The CMP.cc.AND instruction ands a condition into a predicate. -/
  | coreCmpCcAnd (c : Nat) (i : BitVec 32)
  /-- CMP_CC_OR (R311): The CMP.cc.OR instruction ors a condition into a predicate. -/
  | coreCmpCcOr (c : Nat) (i : BitVec 32)
  /-- PLOG (R309): The PLOG instruction combines predicates. -/
  | corePlog (c : Nat) (i : BitVec 32)
  /-- PMOV (R309): The PMOV instruction moves predicates to or from a register. -/
  | corePmov (c : Nat) (i : BitVec 32)
  /-- BR (R316): The BR instruction branches to a PC-relative target. -/
  | coreBr (c : Nat) (i : BitVec 32)
  /-- CALL (R309): The CALL instruction saves the return address in A5 and branches. -/
  | coreCall (c : Nat) (i : BitVec 32)
  /-- JMP (R309): The JMP instruction jumps to an address register. -/
  | coreJmp (c : Nat) (i : BitVec 32)
  /-- CALLR (R309): The CALLR instruction saves the return address and jumps to an address register. -/
  | coreCallr (c : Nat) (i : BitVec 32)
  /-- JMP_L (R309): The JMP.L instruction jumps to a 32-bit literal. -/
  | coreJmpL (c : Nat) (i lit : BitVec 32)
  /-- CALL_L (R309): The CALL.L instruction saves the return address and jumps to a literal. -/
  | coreCallL (c : Nat) (i lit : BitVec 32)
  /-- CALLG (R343): The CALLG instruction checks a gate entry and enters it with a pushed frame, or raises GATE_FAULT. -/
  | coreCallg (c : Nat) (i : BitVec 32)
  /-- RETX (R341): The RETX instruction restores the top frame, or raises RET_EMPTY or RET_ESCALATE. -/
  | coreRetx (c : Nat) (i : BitVec 32)
  /-- TRAP (R335): The TRAP instruction raises exception TRAP with its number. -/
  | coreTrap (c : Nat) (i : BitVec 32)
  /-- WAIT (R328): The WAIT instruction stops issue until an interrupt is pending. -/
  | coreWait (c : Nat) (i : BitVec 32)
  /-- SYNC_I (R326): The SYNC.I instruction drains stores, empties line buffers and BTB and refetches. -/
  | coreSyncI (c : Nat) (i : BitVec 32)
  /-- SYNC_M (R327): The SYNC.M instruction waits for every earlier load and store to complete. -/
  | coreSyncM (c : Nat) (i : BitVec 32)
  /-- CSRR (R329): The CSRR instruction reads a CSR, latching the upper counters on a low-counter read. -/
  | coreCsrr (c : Nat) (i : BitVec 32)
  /-- CSRW (R325): The CSRW instruction writes a CSR, mode changes acting from the fourth instruction. -/
  | coreCsrw (c : Nat) (i : BitVec 32)
  /-- MOVS (R323): The MOVS instruction copies W13 words from A6 to A7. -/
  | coreMovs (c : Nat) (i : BitVec 32) (limit : Option Nat)
  /-- FILS (R323): The FILS instruction fills W13 words at A7 with W12. -/
  | coreFils (c : Nat) (i : BitVec 32) (limit : Option Nat)
  /-- CMPS (R323): The CMPS instruction compares two word blocks and stops at a mismatch. -/
  | coreCmps (c : Nat) (i : BitVec 32) (limit : Option Nat)
  /-- SCNS (R323): The SCNS instruction scans for W12 and stops at a match. -/
  | coreScns (c : Nat) (i : BitVec 32) (limit : Option Nat)
  /-- MUL (R320): The MUL instruction issues a 16 × 16 multiply to the side unit. -/
  | coreMul (c : Nat) (i : BitVec 32)
  /-- MULD (R320): The MULD instruction issues a 32 × 32 multiply to the side unit. -/
  | coreMuld (c : Nat) (i : BitVec 32)
  /-- MAC (R320): The MAC instruction accumulates a product into MA. -/
  | coreMac (c : Nat) (i : BitVec 32)
  /-- MAR (R309): The MAR instruction reads MA scaled, rounded and saturated. -/
  | coreMar (c : Nat) (i : BitVec 32)
  /-- MAZ (R309): The MAZ instruction clears MA. -/
  | coreMaz (c : Nat) (i : BitVec 32)
  /-- DIV (R321): The DIV instruction issues an 18-cycle division to the side unit. -/
  | coreDiv (c : Nat) (i : BitVec 32)
  /-- SIDE_UNIT_RESULT (R320): A side-unit result is written to its destination after its latency. -/
  | sideUnitResult (c n : Nat)
  /-- STORE_DRAIN (R318): The oldest store-buffer entry drains to memory or its island. -/
  | storeDrain (c : Nat)
  /-- LINE_FILL (R315): A requested flash or SRAM line arrives in a line buffer. -/
  | lineFill (c line : Nat)
  /-- IC_SOURCE_PEND (R347): An interrupt source's line sets its pending bit. -/
  | icSourcePend (src : Nat)
  /-- IC_OFFER (R349): The IC chooses an eligible core for a pending source and offers it, withdrawing offers as needed. -/
  | icOffer
  /-- INTERRUPT_ACCEPT (R350): A core accepts an offer at its next instruction boundary and enters with cause INTERRUPT. -/
  | interruptAccept (c : Nat)
  /-- IC_CFG_WRITE (R347): A write of IC_CFG sets level and target, and LVL = 0 clears PEND. -/
  | icCfgWrite (src value : Nat)
  /-- DBG_HALT (R550): A host write of DBG_CTL.HALT halts a logical core. -/
  | dbgHalt (c : Nat)
  /-- DBG_RESUME (R550): A host write of DBG_CTL.RESUME resumes a halted core. -/
  | dbgResume (c : Nat)
  /-- DBG_STEP (R550): A host write of DBG_CTL.STEP executes one instruction and halts. -/
  | dbgStep (c : Nat)
  /-- TB_LOAD (R383): A write of 1 to TB_CTL.LOAD sets TB forward, or is refused. -/
  | tbLoad
  /-- PTM_REQUEST (R382): Every HI_PTMCFG.INTERVAL µs the part starts a PTM dialogue. -/
  | ptmRequest
  /-- PTM_RESULT (R382): A PTM dialogue completes and its offset feeds the Time Base servo. -/
  | ptmResult (x : Option Int)
  /-- EF_CH_WRITE (R389): A write of EF_CH sets a channel source unless it would close a loop. -/
  | efChWrite (c src : Nat)
  /-- EF_LUTB_WRITE (R389): A write of EF_LUTB sets a LUT cell unless its inputs would close a loop. -/
  | efLutbWrite (l value : Nat)
  /-- EF_FFCFG_WRITE (R390): A write of EF_FFCFG configures a flip-flop and sets Q to INIT. -/
  | efFfcfgWrite (f value : Nat)
  /-- FF_CLK (R390): A CLK event loads or toggles a flip-flop after its holdoff. -/
  | ffClk (f t : Nat) (ch : Nat := 0) (fall : Bool := false)
  /-- FF_SET (R390): A SET event sets a flip-flop. -/
  | ffSet (f t : Nat) (ch : Nat := 0)
  /-- FF_CLR (R390): A CLR event clears a flip-flop. -/
  | ffClr (f t : Nat) (ch : Nat := 0)
  /-- FILTER_EVENT (R391): An event or level change reaches a filter input. -/
  | filterEvent (f : Nat) (rising : Bool) (t : Nat) (ch : Nat := 0)
  /-- FILTER_EXPIRY (R391): A filter's N ns expires and its output changes or a delayed pulse leaves. -/
  | filterExpiry (f t : Nat)
  /-- WATCH_EVENT (R392): A watched channel event increments COUNT and sets the watch flag. -/
  | watchEvent (x : Nat) (ch : Nat := 0) (fall : Bool := false)
  /-- EF_WCFG_WRITE (R392): A write of EF_WCFG with EN rising clears the watch count. -/
  | efWcfgWrite (x value : Nat)
  /-- SW_EVENT (R392): A write of 1 to a bit of EF_SWEV pulses its software event. -/
  | swEvent (x : Nat)
  /-- TIMER_START (R396): A START input or TM_CTL write sets RUN. -/
  | timerStart (t : Nat) (ev : Option Nat) (ch : Nat := 0) (fall : Bool := false)
  /-- TIMER_STOP (R396): A STOP input or TM_CTL write clears RUN. -/
  | timerStop (t : Nat) (ev : Option Nat) (ch : Nat := 0) (fall : Bool := false)
  /-- TIMER_CLR (R396): A CLR input or TM_CTL write sets COUNT and ACC to 0. -/
  | timerClr (t : Nat) (ev : Option Nat) (ch : Nat := 0) (fall : Bool := false)
  /-- TIMER_CAP (R400): A CAP event captures COUNT or TB into the capture register. -/
  | timerCap (t now : Nat) (ch : Nat := 0) (fall : Bool := false)
  /-- TIMER_CNT_EVENT (R394): A CNT event ticks a timer in EVENT clock mode. -/
  | timerCntEvent (t n now : Nat) (ch : Nat := 0) (fall : Bool := false)
  /-- TIMER_COMPARE (R397): An armed compare is passed, fires TM_CMP and disarms. -/
  | timerCompare (t now : Nat)
  /-- TIMER_WRAP (R395): A timer returns to 0 or reaches TOP in one-shot mode and signals its carry. -/
  | timerWrap (t now : Nat)
  /-- TIMER_CMP_COMMIT (R397): A write of TM_CMP_LO commits the compare value and arms it. -/
  | timerCmpCommit (t value : Nat)
  /-- TM_CNT_WRITE (R396): A write of TM_CNT sets COUNT, ignored while RUN = 1. -/
  | tmCntWrite (t : Nat) (hi : Bool) (value : Nat)
  /-- TIMER_OVRCLR (R402): A write of 1 to TM_CTL.OVRCLR clears TM_OVR. -/
  | timerOvrclr (t : Nat)
  /-- DMA_MOVE (R407): A MOVE descriptor is checked and its beats begin. -/
  | dmaMove (u : Nat)
  /-- DMA_NOP (R406): A DMA NOP descriptor completes OK at once. -/
  | dmaNop (u : Nat)
  /-- DMA_BEAT_READ (R404): The read engine issues a beat once buffer space is allocated. -/
  | dmaBeatRead (u : Nat)
  /-- DMA_BEAT_ANSWER (R412): A beat's read completion or error answer arrives. -/
  | dmaBeatAnswer (u : Nat) (data : List Nat) (err : Nat)
  /-- DMA_BEAT_WRITE (R404): The write engine drains a beat from the buffer to the destination. -/
  | dmaBeatWrite (u : Nat)
  /-- DMA_MOVE_CONFIRM (R413): Every written beat of a MOVE has arrived and the MOVE is confirmed. -/
  | dmaMoveConfirm (u : Nat)
  /-- DMA_CHANNEL_START (R415): A write of DMA_CHCTL.START starts a channel's chain. -/
  | dmaChannelStart (c : Nat)
  /-- DMA_CHANNEL_TRIGGER (R415): An event on TRIGCH starts a channel's chain. -/
  | dmaChannelTrigger (c : Nat) (t : Nat := 0) (ch : Nat := 0) (fall : Bool := false)
  /-- DMA_CHANNEL_ABORT (R415): A write of DMA_CHCTL.ABORT stops a chain with TR_ABORTED. -/
  | dmaChannelAbort (c : Nat)
  /-- TRACE_ARM (R422): A write of TR_CTL.ARM arms a trace unit after its checks. -/
  | traceArm (u : Nat)
  /-- TRACE_TRIGGER (R423): A trigger event or TR_CTL.TRIG write moves an ARMED unit to TRIGGERED. -/
  | traceTrigger (u : Nat) (event : Bool) (t : Nat) (ch : Nat := 0) (fall : Bool := false)
  /-- TRACE_STOP (R422): A write of TR_CTL.STOP ends capture and moves the unit to DONE. -/
  | traceStop (u : Nat) (last : List TrRec)
  /-- TRACE_RELEASE (R422): A write of TR_CTL.RELEASE returns a DONE unit to IDLE. -/
  | traceRelease (u : Nat)
  /-- TRACE_RECORD_WRITE (R420): A trace unit writes a full record of one stream into its region. -/
  | traceRecordWrite (u : Nat) (r : TrRec)
  /-- TR_RDSEQ_WRITE (R425): A write of TR_RDSEQ advances the stream reader position or is ignored. -/
  | trRdseqWrite (u value : Nat)
  /-- BAR2_WRITE (R427): A host BAR2 write stores trace data, or is dropped in a busy region. -/
  | bar2Write (off : Nat) (bytes : List Nat)
  /-- PD_CARRIER_MIDPOINT (R434): At a carrier midpoint the pump channel adopts committed duties or computes ANGLE duties. -/
  | pdCarrierMidpoint (k t : Nat)
  /-- PD_DUTY_COMMIT (R434): A write of PD_DUTYB commits the three DIRECT duties. -/
  | pdDutyCommit (k value : Nat)
  /-- AMP_SLEW_STEP (R435): Each 100 µs AMPNOW moves toward its target by the slew step. -/
  | ampSlewStep (k : Nat)
  /-- PD_GATE_FAULT (R436): PDk_FLT_N low drives every leg OFF and sets FLTHOLD. -/
  | pdGateFault (k : Nat)
  /-- PD_FAULT_RELEASE (R436): A write of 1 to PD_ERR.FLT releases the legs when FLT_N is high. -/
  | pdFaultRelease (k : Nat) (high : Bool)
  /-- ENCODER_REQUEST (R442): At each ENCPER multiple the channel starts an encoder frame, or delays it. -/
  | encoderRequest (k t : Nat)
  /-- ENCODER_FRAME (R441): An encoder frame ends and is judged valid or not. -/
  | encoderFrame (k : Nat) (bits : List Bool) (ack endOk : Bool) (t : Nat)
  /-- BOOST_HOLD_END (R446): A boost level's end time passes and the boost level in force falls. -/
  | boostHoldEnd (k t : Nat)
  /-- PAGE (R450): The PMBus PAGE command selects a rail page or all rails. -/
  | page (wr : Option Nat) (pec : Bool)
  /-- OPERATION (R451): The PMBus OPERATION command enables or disables the page's rail. -/
  | operation (wr : Option Nat) (pec : Bool)
  /-- CLEAR_FAULTS (R451): The PMBus CLEAR_FAULTS command clears status bits and may issue FAULT_CLEAR. -/
  | clearFaults (pec : Bool)
  /-- WRITE_PROTECT (R451): The PMBus WRITE_PROTECT command reads or sets write protection. -/
  | writeProtect (wr : Option Nat) (pec : Bool)
  /-- CAPABILITY (R451): The PMBus CAPABILITY command returns 0xD0. -/
  | capability
  /-- VOUT_MODE (R451): The PMBus VOUT_MODE command returns 0x13. -/
  | voutMode
  /-- VOUT_COMMAND (R451): The PMBus VOUT_COMMAND issues SET_TARGET or returns LE_TARGET. -/
  | voutCommand (wr : Option Nat) (pec : Bool)
  /-- STATUS_BYTE (R451): The PMBus STATUS_BYTE command returns the low status byte. -/
  | statusByte
  /-- STATUS_WORD (R451): The PMBus STATUS_WORD command returns the status summary. -/
  | statusWord
  /-- STATUS_VOUT (R451): The PMBus STATUS_VOUT command returns voltage fault bits. -/
  | statusVout
  /-- STATUS_IOUT (R451): The PMBus STATUS_IOUT command returns overcurrent bits. -/
  | statusIout
  /-- STATUS_TEMPERATURE (R451): The PMBus STATUS_TEMPERATURE command returns the OT bit. -/
  | statusTemperature
  /-- STATUS_CML (R451): The PMBus STATUS_CML command returns communication fault bits. -/
  | statusCml
  /-- READ_VOUT (R451): The PMBus READ_VOUT command returns mean rail voltage. -/
  | readVout
  /-- READ_IOUT (R451): The PMBus READ_IOUT command returns mean ISUM. -/
  | readIout
  /-- READ_TEMPERATURE_1 (R451): The PMBus READ_TEMPERATURE_1 command returns the rail's HKC temperature. -/
  | readTemperature1
  /-- READ_POUT (R451): The PMBus READ_POUT command returns mean rail power. -/
  | readPout
  /-- PMBUS_REVISION (R451): The PMBus PMBUS_REVISION command returns 0x44. -/
  | pmbusRevision
  /-- MFR_ID (R451): The PMBus MFR_ID command returns "MRD". -/
  | mfrId
  /-- MFR_MODEL (R451): The PMBus MFR_MODEL command returns the part name. -/
  | mfrModel
  /-- INVALID_COMMAND (R452): A PMBus code not supported is acknowledged and sets STATUS_CML bit 7. -/
  | invalidCommand (code : Nat)
  /-- ALERT_RESPONSE (R451): A read of the Alert Response Address returns the part's address and releases PM_ALERT_N. -/
  | alertResponse
  /-- PMBUS_COPY_REFRESH (R451): Every 100 µs the part refreshes the copy that answers PMBus reads. -/
  | pmbusCopyRefresh (t : Nat)
  /-- AVS_VOLTAGE_WRITE (R454): A committed AVSBus Voltage write is checked and issues SET_TARGET. -/
  | avsVoltageWrite (k a v : Nat) (crc : Bool)
  /-- AVS_VOLTAGE_READ (R454): An AVSBus Voltage read returns the rail voltage. -/
  | avsVoltageRead (k a : Nat) (crc : Bool)
  /-- AVS_VOUTTRANSRATE_READ (R454): An AVSBus VoutTransRate read returns the ramp rate. -/
  | avsVouttransrateRead (k a : Nat) (crc : Bool)
  /-- AVS_CURRENT_READ (R454): An AVSBus Current read returns mean ISUM. -/
  | avsCurrentRead (k a : Nat) (crc : Bool)
  /-- AVS_TEMPERATURE_READ (R454): An AVSBus Temperature read returns the rail temperature. -/
  | avsTemperatureRead (k a : Nat) (crc : Bool)
  /-- AVS_STATUS_READ (R454): An AVSBus Status read returns VDone and StatusAlert. -/
  | avsStatusRead (k a : Nat) (crc : Bool)
  /-- AVS_STATUS_WRITE (R454): An AVSBus Status write clears StatusAlert. -/
  | avsStatusWrite (k a : Nat) (crc : Bool)
  /-- PRIVATE_WRITE (R456): An I3C private write lands in SI_I3CRX and raises SI[5]. -/
  | privateWrite (bytes : List Nat)
  /-- PRIVATE_READ (R456): An I3C private read returns SI_I3CTX up to TXLEN bytes. -/
  | privateRead (n : Nat)
  /-- ENTDAA (R456): The I3C ENTDAA CCC assigns a dynamic address. -/
  | entdaa (da : Nat)
  /-- SETDASA (R456): The I3C SETDASA CCC sets the dynamic address from the static one. -/
  | setdasa (da : Nat)
  /-- RSTDAA (R456): The I3C RSTDAA CCC resets the dynamic address. -/
  | rstdaa
  /-- GETPID (R456): The I3C GETPID CCC returns the provisional ID. -/
  | getpid
  /-- GETBCR (R456): The I3C GETBCR CCC returns the bus characteristics. -/
  | getbcr
  /-- GETDCR (R456): The I3C GETDCR CCC returns the device characteristics. -/
  | getdcr
  /-- GETSTATUS (R456): The I3C GETSTATUS CCC returns the target status. -/
  | getstatus
  /-- ENEC (R456): The I3C ENEC CCC enables target events. -/
  | enec
  /-- DISEC (R456): The I3C DISEC CCC disables target events. -/
  | disec
  /-- IBI (R456): A write of SI_I3CCTL.IBI raises an in-band interrupt. -/
  | ibi
  /-- I3C_ADDRESS_MATCH (R457): The clockless matcher acknowledges a header to the dynamic or wake address and raises the wake event. -/
  | i3cAddressMatch (addr : Nat) (write : Bool) (t : Nat)
  /-- CARRIER_GAIN (R461): The root's rope input gains carrier and it sends ENUM. -/
  | carrierGain (t : Nat)
  /-- ROPE_ENUM_REQUEST (R461): A write of SI_ROPECTL.ENUM on the root sends ENUM. -/
  | ropeEnumRequest
  /-- ENUM (R461): An ENUM frame arrives and the node takes a number and forwards an incremented count. -/
  | enum (count t : Nat)
  /-- ENUM_TIMEOUT (R461): ENUM does not return within 100 µs and SI_ROPEERR.ROOT is set. -/
  | enumTimeout (t : Nat)
  /-- ROPE_SYNC_SEND (R463): At each SYNCPER multiple the root sends a SYNC frame. -/
  | ropeSyncSend (t : Nat)
  /-- SYNC (R463): A SYNC frame arrives and the node forms its Time Base offset and forwards it with ACC updated. -/
  | sync (t0 acc t : Nat)
  /-- ROPE_FRAME_FORWARD (R460): A rope frame not addressed to the node is forwarded after 60 ns, or removed if it returns to its sender. -/
  | ropeFrameForward (x : RopeFrame) (good : Bool) (t : Nat)
  /-- ROPE_LOS (R462): The rope input loses carrier for 1 µs and LOS is set. -/
  | ropeLos (t : Nat)
  /-- FW_RSEND_START (R476): A write of FW_RSEND.START begins sending a bank image over the rope. -/
  | fwRsendStart
  /-- IMAGE_OPEN (R476): An IMAGE OPEN frame arrives and the receiver accepts or NAKs the transfer. -/
  | imageOpen (src xid len : Nat) (good : Bool)
  /-- IMAGE_DATA (R476): An IMAGE DATA frame arrives and is buffered, programmed and acknowledged. -/
  | imageData (src xid off : Nat) (data : List Nat) (good : Bool)
  /-- IMAGE_CLOSE (R476): An IMAGE CLOSE frame arrives and is acknowledged once every byte is programmed. -/
  | imageClose (src xid : Nat) (good : Bool)
  /-- ROPE_ACK (R476): A rope ACK arrives and the sender advances its window. -/
  | ropeAck (sub xid arg : Nat)
  /-- ROPE_NAK (R476): A rope NAK arrives and the sender resends or ends the transfer. -/
  | ropeNak (sub xid arg cause : Nat)
  /-- IMAGE_RESEND_TIMEOUT (R476): An IMAGE frame has no ACK within 100 µs and is resent or the transfer ends. -/
  | imageResendTimeout (sub arg t : Nat)
  /-- STAGE_SECTOR_ERASE (R471): Staging rechecks the refusal conditions and erases and programs the next 4 KiB sector. -/
  | stageSectorErase (ans : ReadAns)
  /-- STAGING_DONE (R470): The last data of a staging is programmed in flash and the command completes. -/
  | stagingDone
  /-- ERASE (R478): A write of FW_PCTL.ERASE erases the settings sector at FW_PADDR. -/
  | erase
  /-- PROG (R478): A write of FW_PCTL.PROG programs 32 words at FW_PADDR. -/
  | prog
  /-- PROGRAM_PORT_DONE (R478): A program-port erase or program completes and BUSY clears. -/
  | programPortDone
  /-- DBGUNLOCK (R482): The authorised DBGUNLOCK operation opens DBG access until the next reset. -/
  | dbgunlock
  /-- OWNUNLOCK (R480): The authorised OWNUNLOCK operation clears the owner lock. -/
  | ownunlock
  /-- KEYPROG (R468): The KEYPROG operation fills an empty owner key slot. -/
  | keyprog
  /-- REVOKE (R468): The authorised REVOKE operation sets a slot's revoked bit. -/
  | revoke
  /-- OWNER_LOCK_SET (R480): A write of 1 to SEC_OWNLOCK.SET sets the owner lock. -/
  | ownerLockSet
  /-- SVNCOMMIT (R469): A write of 1 to SEC_CTL.SVNCOMMIT raises SEC_SVNMIN to the running image's SVN. -/
  | svncommit
  /-- OTP_WRITE (R483): A write of SEC_OTPCTL.GO programs one board OTP word once while PROVISIONED. -/
  | otpWrite
  /-- CRN_WCTL_GO (R490): A write of CRN_WCTL.GO queues a firmware Cairn record, or sets BADTYPE or FULL. -/
  | crnWctlGo (a : Agent) (typ : Nat)
  /-- CAIRN_RECORD_WRITE (R488): CRN writes the next queued record into its slot in 2 µs. -/
  | cairnRecordWrite
  /-- BYPASS (R531): The JTAG BYPASS instruction selects the bypass register. -/
  | bypass (bits : List Bool)
  /-- IDCODE (R531): The JTAG IDCODE instruction reads the identification code. -/
  | idcode
  /-- SAMPLE_PRELOAD (R531): The JTAG SAMPLE/PRELOAD instruction samples and preloads the boundary cells. -/
  | samplePreload (balls bits : List Bool)
  /-- EXTEST (R531): The JTAG EXTEST instruction drives the balls when no rail is enabled and BLPAIR is low, else acts as BYPASS. -/
  | extest (balls bits : List Bool)
  /-- CLAMP (R531): The JTAG CLAMP instruction holds the boundary outputs under the same condition as EXTEST. -/
  | clamp (bits : List Bool)
  /-- HIGHZ (R531): The JTAG HIGHZ instruction floats the outputs under the same condition as EXTEST. -/
  | highz (bits : List Bool)
  /-- JTAG_RESET (R533): TRST_N low for 100 ns or longer resets the JTAG port. -/
  | jtagReset (ns : Nat)
  /-- COMPLETION_TIMEOUT (R211): A read that the part issued to host memory gets no completion within the Completion Timeout, so the read ends in error: a descriptor fetch halts the ring, a DMA beat ends TR_HOSTERR and an FW_STAGE read ends XFER_ERROR. -/
  | completionTimeout (kind n : Nat)
  /-- LINK_UP (R197): Link training completes at the highest rate and width allowed, and HI_STAT shows the link up with its SPEED and WIDTH. -/
  | linkUp (speed width : Nat) (flit : Bool) (cr : Nat × Nat × Nat := (0, 0, 0))
  /-- CONFIG_WRITE (R222): A host configuration write, such as a BAR assignment, Bus Master Enable or a D3hot transition, changes the function's configuration space and whether the part may issue requests. -/
  | configWrite (c : CfgWrite)
  /-- ISLAND_OFF_READ (R20): A host read of a register of an off island completes at once with 0xFA11 in every word and sets HI_ERR.ISLAND_OFF. -/
  | islandOffRead (off : Nat) (bar : Nat := 0) (len : Nat := 4)
  /-- BADLEN_REQUEST (R200): A BAR0 request that is longer than one DWORD or has partial byte enables is completed with Completer Abort or dropped, or its whole DWORD is returned, and HI_ERR.BADLEN is set with HI_ERRADDR captured. -/
  | badlenRequest (off kind : Nat)
  /-- COMPARATOR_DEASSERT (R174): A PCMP or VCMP filtered output deasserts, so PROT_VSTAT.OUT or PROT_PSTAT.OUT and its VCMP_OUT or PCMP_ANY fabric level fall, which later allows kill release, FROZEN clear and fault clear. -/
  | comparatorDeassert (pcmp : Bool) (n t : Nat) (xs : List Int := [])
  /-- ISLAND_POWER_DOWN (R272): During Sentinel entry the next island in reverse start order powers down, with its output pads latched and its fabric sources driven to 0. -/
  | islandPowerDown (n t : Nat)
  /-- DELAY_LINE_LOCK (R148): Every delay line of a PWM island has locked to the 1 GHz base, and PW_STAT.DLLOCK sets. -/
  | delayLineLock (isl : Nat)
  deriving DecidableEq, Repr

end Sys2Proof
end

