-- ==== Sys2Proof/Decode.lean ====
section
/-! DEFINITION. The decoder over the rows that the table gives bits.  The table of this block gives none of its rows any bits: a
command reaches the block as a register access, a bus operation or an event, not as a word. -/

namespace Sys2Proof

/-- The command that the table's bits spell: no row has any. -/
def decodeTableWord (_nbits _w : Nat) : Option Instr := none

end Sys2Proof
end

