-- ==== Sys2Proof/Config.lean ====
section
/-! DEFINITION. Values that the manual leaves open: each is a constant with no body, so that nothing proved of the
model can rest on a choice. -/

namespace Sys2Proof

/-- The n-th value that the model takes where the manual states none. -/
opaque Config.freeValue : Nat → Nat

/-- The configuration signature over shadow and live register fields (R371): the manual gives no order of its bytes. -/
opaque Config.cfgSig : List (Nat × Nat) → List (Nat × Nat) → Nat

/-- OTP field VID, the 64-bit die identifier and OTP field JEDECID, fixed at manufacture (R199, R531). -/
opaque Config.vid : Nat
opaque Config.dieId : Nat
opaque Config.jedecId : Nat

/-- The I3C provisional identifier built from VID and the low half of the die identifier, and the bus and device
characteristics: the manual gives no layout and no value (R456). -/
opaque Config.i3cPid : Nat → Nat → Nat
opaque Config.i3cBcr : Nat
opaque Config.i3cDcr : Nat

/-- SHA-384, and ECDSA verification over P-384 of a key, a hash and a signature, which the manual takes from their
standards (R466, R467, R481). -/
opaque Config.sha384 : List Nat → List Nat
opaque Config.ecdsa : List Nat → List Nat → List Nat → Bool

/-- The hash that the factory puts into vendor key slot `s` (R468). -/
opaque Config.vendorKey : Nat → List Nat

/-- The key, as SHA-384, that signed with a key slot: the manual stores only the hash of a slot's key, so verification
against a slot is over that hash (R468, R481). -/
opaque Config.ecdsaSlot : List Nat → List Nat → List Nat → Bool

end Sys2Proof
end

