-- ==== Sys2Proof/Machine/SMap.lean ====
section
/-! DEFINITION. A sparse map held as a list in one canonical form: keys strictly rising, no entry equal to
what an unlisted key reads as.  Registers, memory and every indexed piece of state are held this way, so that
equal states are equal data. -/

namespace Sys2Proof.Machine

/-- What key `k` reads as, `d` being the value of an unlisted key. -/
def mget {α : Type} (d : α) : List (Nat × α) → Nat → α
  | [], _ => d
  | (k, v) :: m, x => if x = k then v else mget d m x

/-- The entry `(x, v)` at its place by key. -/
def mins {α : Type} : List (Nat × α) → Nat → α → List (Nat × α)
  | [], x, v => [(x, v)]
  | (k, w) :: m, x, v => if x < k then (x, v) :: (k, w) :: m else (k, w) :: mins m x v

/-- `m` without key `x`. -/
def mdel {α : Type} : List (Nat × α) → Nat → List (Nat × α)
  | [], _ => []
  | (k, w) :: m, x => if k = x then mdel m x else (k, w) :: mdel m x

/-- `m` with key `x` reading `v`; a `v` equal to `d` leaves the key unlisted. -/
def mset {α : Type} [DecidableEq α] (d : α) (m : List (Nat × α)) (x : Nat) (v : α) : List (Nat × α) :=
  if v = d then mdel m x else mins (mdel m x) x v

/-- `m` with the value at `x` changed by `f`. -/
def mupd {α : Type} [DecidableEq α] (d : α) (m : List (Nat × α)) (x : Nat) (f : α → α) : List (Nat × α) :=
  mset d m x (f (mget d m x))

/-- The keys at which `keep` fails go back to their unlisted value. -/
def mkeep {α : Type} (keep : Nat → Bool) (m : List (Nat × α)) : List (Nat × α) :=
  m.filter fun e => keep e.1

/-- Every listed value changed by `f`. -/
def mmapv {α : Type} [DecidableEq α] (d : α) (f : α → α) (m : List (Nat × α)) : List (Nat × α) :=
  m.foldl (fun a e => mset d a e.1 (f e.2)) []

/-- Every key above `lo` and rising: the order half of the canonical form. -/
def mrising {α : Type} : Option Nat → List (Nat × α) → Bool
  | _, [] => true
  | none, (k, _) :: m => mrising (some k) m
  | some p, (k, _) :: m => decide (p < k) && mrising (some k) m

/-- Fold over consecutive indexes: `f` at `i, i+1, …, i+n-1` in that order. -/
def forN {α : Type} (i : Nat) : Nat → α → (Nat → α → α) → α
  | 0, a, _ => a
  | n + 1, a, f => forN (i + 1) n (f i a) f

/-- The indexes below `n` at which `p` holds. -/
def idxs (n : Nat) (p : Nat → Bool) : List Nat := (List.range n).filter p

end Sys2Proof.Machine
end

