-- ==== Sys2Proof/Machine/State.lean ====
section
/-! DEFINITION. The state of the block: every register field, every piece of internal state the manual names, the
addressed memories, and the queue of waiting commands. -/

namespace Sys2Proof.Machine

/-- The base clock and the Time Base (R33, R379, R380). -/
structure Clock where
  /-- base ticks of 7.8125 ps since the COLD reset; the round origin t0 is 0 -/
  tk : Nat := 0
  /-- Time Base, in ticks: 64-bit ns count with its 7 fraction bits below (R379) -/
  tbq : Nat := 0
  /-- rate remainder below one fraction step (R380) -/
  rem : Int := 0
  deriving DecidableEq, Repr, Inhabited

/-- Levels of the board's input balls that the block reads, and of the output balls it drives beside PWM and RAIL_EN. -/
structure Pins where
  gpio : Nat := 0
  /-- kill lines asserted, as a mask: bits 0 to 3 KILL0_N to KILL3_N, 4 to 7 KL4 to KL7 of PWA, 8 to 11 those of PWB
  (R161) -/
  kill : Nat := 0
  /-- Time Base tick at which the pulse on each HACK output ends; it is high while one is listed (R113, R114) -/
  hack : List (Nat × Nat) := []
  /-- ball HOLDUP_N low (R471) -/
  holdup : Bool := false
  /-- sample time of the last accepted edge on each HINT pin, ns (R112) -/
  hintAt : List (Nat × Nat) := []
  /-- time of the last edge on each HINT pin that did not merge (R458), ns -/
  hintSeen : List (Nat × Nat) := []
  /-- WAKE_N asserted; PDk_FLT_N low, as a mask -/
  wake : Bool := false
  pdFlt : Nat := 0
  blpair : Bool := false
  blsel : Bool := false
  deriving DecidableEq, Repr, Inhabited

/-- What leaves the part, oldest first: the model's own log of its outputs. -/
inductive Out where
  /-- a register read answered with this value -/
  | read (a : Agent) (v : Nat)
  /-- a pulse of an event-fabric source (R385) -/
  | pulse (src : Nat)
  /-- a posted write to host memory (R208) -/
  | hostWrite (addr : Nat) (bytes : List Nat)
  /-- a BAR2 read answered with these bytes (R203) -/
  | mem (bytes : List Nat)
  /-- a request answered with Completer Abort (R200) -/
  | abort
  /-- a read request to host memory -/
  | hostRead (addr len : Nat)
  /-- an MSI-X message -/
  | msix (v : Nat)
  /-- a PTM dialogue started (R382) -/
  | ptm
  /-- a completion on the side bus that issued the command (R231) -/
  | belay (m : BlyOut)
  /-- a rope frame sent or forwarded (R460) -/
  | rope (x : RopeFrame)
  /-- an answer on PMBus, I3C or JTAG: its bytes, none when the part does not acknowledge -/
  | bus (bytes : Option (List Nat))
  /-- an AVSBus answer: SlaveAck and data (R454) -/
  | avs (ack data : Nat)
  /-- bits shifted out of the JTAG port, first one first (R531) -/
  | scan (bits : List Bool)
  /-- the boundary cells drive the balls, or the balls float (R531) -/
  | drive (cells : Option (List Bool))
  | busDone (src : CmdSrc) (status xstat : Nat)
  deriving DecidableEq, Repr

/-- Everything but the command queue and the addressed memories. -/
structure World where
  /-- the part is an LX1264 (R2) -/
  lx1264 : Bool := false
  /-- register fields, keyed by field and instance; an unlisted field holds its reset value -/
  regs : List (Nat × Nat) := []
  /-- in-force copies of shadowed fields, same keys (R99, R155, R164, R70) -/
  live : List (Nat × Nat) := []
  /-- RWO fields written since their reset (R7) -/
  rwo : List Nat := []
  /-- holding copies of R552, keyed by register and instance -/
  hold : List (Nat × Nat) := []
  clk : Clock := {}
  pins : Pins := {}
  out : List Out := []
  /-- islands that are on, by the hub's record (R20); bit 0 is ALW -/
  islOn : Nat := 1
  /-- edge lines raised toward the interrupt controller and not yet pending (R347) -/
  irqEdge : List Nat := []
  /-- sources EF[c] whose channels were high when the interrupt controller last sampled them (R386) -/
  efSeen : List Nat := []
  eng : List (Nat × Eng) := []
  itn : List (Nat × Itn) := []
  prt : List (Nat × Prt) := []
  ph : List (Nat × Ph) := []
  conv : List (Nat × Conv) := []
  /-- sample histories of the comparators' filters (R171): PCMP p under p, VCMP v under 128 + v -/
  cmp : List (Nat × Nat) := []
  /-- base tick plus 1 at which the housekeeping converter's latest pass started (R69) -/
  hkcAt : Nat := 0
  /-- base tick plus 1 at which each measured interval began, by its key -/
  timed : List (Nat × Nat) := []
  /-- PW islands (bit 0 PWA, bit 1 PWB) whose committed bindings have been judged and wait for a boundary (R155) -/
  bindOk : Nat := 0
  /-- both islands' pending binding sets were committed in one cycle (R155) -/
  bindPair : Bool := false
  fcs : List (Nat × Fc) := []
  cmd : CmdSt := {}
  bly : Bly := {}
  rings : List (Nat × Ring) := []
  /-- the posted-write buffer, oldest first (R216) -/
  buf : List BufEnt := []
  /-- entries that wait for a free entry of the buffer, oldest first (R216) -/
  waitq : List BufEnt := []
  /-- configuration space, MSI-X messages left pending by mask, and the ring engine stopped by a reset in progress -/
  pcie : Pcie := {}
  /-- ring number at which the round robin of descriptor fetches goes on (R213) -/
  rrNext : Nat := 0
  noFetch : Bool := false
  /-- telemetry periods since it was enabled (R219) -/
  telNo : Nat := 0
  /-- DMA users, 0 to 15 the rings and 16 + c channel c, with their descriptors, the oldest first (R405) -/
  dma : List (Nat × List DJob) := []
  /-- CAIRN_READs that the DMA write engine serves, the first one first (R238) -/
  crnRd : List CrnRead := []
  /-- user served last, plus 1, by each engine (0 read, 1 write) in each class, under 4 × engine + class (R405) -/
  dmaLast : List (Nat × Nat) := []
  trc : List (Nat × Trc) := []
  /-- memories being wiped (R285), as a mask: 0 to 7 TCM k, 8 SRAM, 9 trace, 10 DMA buffer, 11 forecast memory, 12 and 13
  engine state, 14 Cairn buffer, 15 and 16 line buffers, 17 ALW memories -/
  wiping : Nat := 0
  tm : List (Nat × Tm) := []
  srv : Srv := {}
  flt : List (Nat × Flt) := []
  /-- instant of the latest event that started a holdoff, plus 1, at each block input (R387) -/
  inputs : List (Nat × Nat) := []
  pd : List (Nat × Pd) := []
  crn : Crn := {}
  boosts : List Boost := []
  pmb : Pmb := {}
  /-- budgets accepted and not yet adopted at a ledger tick: rail (24 the self budget), WINDOW, LIMIT, MODE (R262) -/
  budgets : List (Nat × Nat × Nat × Nat) := []
  /-- an accepted PM_SENTINEL waits for the buffer to empty (R238, R272) -/
  sentArmed : Bool := false
  led : List (Nat × Led) := []
  cores : List (Nat × Core) := []
  /-- Time Base of each lock-step miscompare still inside its window (R361): pair and ns -/
  lsTimes : List (Nat × Nat) := []
  pwr : Pwr := {}
  /-- the model's own counter of the free values it has drawn -/
  free : Nat := 0
  /-- stagings, the one being programmed first (R470) -/
  fwq : List FwJob := []
  /-- the program port's operation in progress: its word address, and the words to program, none for an erase (R478) -/
  fwp : Option (Nat × Option (List Nat)) := none
  /-- board OTP words, and those written (R483) -/
  otp : List (Nat × Nat) := []
  otpWr : List Nat := []
  sec : Sec := {}
  side : Side := {}
  jtag : Jtag := {}
  deriving DecidableEq, Repr

/-- The state of the block. -/
structure State where
  /-- the commands that are waiting, first in, first out -/
  pending : List Instr
  /-- addressed memory: byte address (twice the word address) and byte, canonical -/
  mem : List Host.Cell
  w : World
  deriving DecidableEq, Repr

/-- The reasons the block stops. -/
inductive Fault where
  /-- No meaning raises it: the manual gives the block no state in which it stops.  Safe. -/
  | stopped
  deriving DecidableEq, Repr

/-- The reasons a command is refused. -/
inductive Refusal where
  /-- The command has no meaning yet; raised by the dispatch only.  Safe. -/
  | notModelled (mnemonic : String)
  deriving DecidableEq, Repr

/-- The part right after a COLD reset: ALW runs, every other island is off, nothing waits (R280, R282). -/
def State.reset : State := { pending := [], mem := [], w := {} }

end Sys2Proof.Machine
end

