-- ==== Sys2Proof/Machine/Ops.lean ====
section
/-! DEFINITION. The named operations over the state: register fields, in-force copies, time, outputs, records. -/

namespace Sys2Proof.Machine

/-- What a meaning answers. -/
abbrev Res := Host.Outcome State Fault Refusal

/-- A meaning that acts on everything but the queue and the addressed memories, and always completes. -/
def onW (s : State) (f : World → World) : Res := .next { s with w := f s.w }

/-- `f` when `c` holds, else unchanged. -/
def World.when (w : World) (c : Bool) (f : World → World) : World := if c then f w else w

/-- `x` lies in `[lo, hi]`. -/
def within (lo hi x : Nat) : Bool := decide (lo ≤ x) && decide (x ≤ hi)

/-! ### Register fields -/

/-- The value of instance `i` of a field. -/
def World.f (w : World) (F : Fld) (i : Nat) : Nat := mget (F.reset i) w.regs (F.key i)

/-- The field as a condition: it is not 0. -/
def World.fb (w : World) (F : Fld) (i : Nat) : Bool := w.f F i != 0

/-- The field as a two's complement value. -/
def World.fs (w : World) (F : Fld) (i : Nat) : Int := sx F.wd (w.f F i)

/-- Instance `i` of a field set to `v`, narrowed to the field. -/
def World.sf (w : World) (F : Fld) (i v : Nat) : World :=
  { w with regs := mset (F.reset i) w.regs (F.key i) (v % 2 ^ F.wd) }

/-- A field set to a two's complement value. -/
def World.sfI (w : World) (F : Fld) (i : Nat) (v : Int) : World := w.sf F i (unI F.wd v)

/-- A counter field advanced, modulo its width. -/
def World.inc (w : World) (F : Fld) (i : Nat) : World := w.sf F i (w.f F i + 1)

/-- A counter field advanced, saturating. -/
def World.incSat (w : World) (F : Fld) (i : Nat) : World := w.sf F i (satU F.wd (w.f F i + 1))

/-- Bit `b` of a field set. -/
def World.orBit (w : World) (F : Fld) (i b : Nat) : World := w.sf F i (w.f F i ||| 2 ^ b)

/-- Bit `b` of a field cleared. -/
def World.clrBit (w : World) (F : Fld) (i b : Nat) : World :=
  w.sf F i (if (w.f F i).testBit b then w.f F i - 2 ^ b else w.f F i)

/-- The in-force copy of a shadowed field. -/
def World.lf (w : World) (F : Fld) (i : Nat) : Nat := mget (F.reset i) w.live (F.key i)

/-- The in-force copy as a two's complement value. -/
def World.lfs (w : World) (F : Fld) (i : Nat) : Int := sx F.wd (w.lf F i)

/-- The in-force copy set. -/
def World.slf (w : World) (F : Fld) (i v : Nat) : World :=
  { w with live := mset (F.reset i) w.live (F.key i) (v % 2 ^ F.wd) }

/-- The in-force copy takes the shadow copy's value. -/
def World.adopt (w : World) (F : Fld) (i : Nat) : World := w.slf F i (w.f F i)

/-- Instance `i` of every field of `l` adopted. -/
def World.adoptAll (w : World) (l : List Fld) (i : Nat) : World := l.foldl (fun w F => w.adopt F i) w

/-! ### Per-unit state -/

def World.engine (w : World) (r : Nat) : Eng := mget {} w.eng r
def World.setEngine (w : World) (r : Nat) (e : Eng) : World := { w with eng := mset {} w.eng r e }
def World.intent (w : World) (r : Nat) : Itn := mget {} w.itn r
def World.setIntent (w : World) (r : Nat) (e : Itn) : World := { w with itn := mset {} w.itn r e }
def World.rail (w : World) (r : Nat) : Prt := mget {} w.prt r
def World.setRail (w : World) (r : Nat) (e : Prt) : World := { w with prt := mset {} w.prt r e }
def World.phase (w : World) (p : Nat) : Ph := mget {} w.ph p
def World.setPhase (w : World) (p : Nat) (e : Ph) : World := { w with ph := mset {} w.ph p e }
def World.converter (w : World) (n : Nat) : Conv := mget {} w.conv n
def World.setConverter (w : World) (n : Nat) (e : Conv) : World := { w with conv := mset {} w.conv n e }
def World.fc (w : World) (i : Nat) : Fc := mget {} w.fcs i
def World.setFc (w : World) (i : Nat) (e : Fc) : World := { w with fcs := mset {} w.fcs i e }
def World.ring (w : World) (n : Nat) : Ring := mget {} w.rings n
def World.setRing (w : World) (n : Nat) (e : Ring) : World := { w with rings := mset {} w.rings n e }
def World.ledger (w : World) (r : Nat) : Led := mget {} w.led r
def World.setLedger (w : World) (r : Nat) (e : Led) : World := { w with led := mset {} w.led r e }
def World.core (w : World) (c : Nat) : Core := mget {} w.cores c
def World.setCore (w : World) (c : Nat) (e : Core) : World := { w with cores := mset {} w.cores c e }
def World.timer (w : World) (t : Nat) : Tm := mget {} w.tm t
def World.setTimer (w : World) (t : Nat) (e : Tm) : World := { w with tm := mset {} w.tm t e }

/-! ### The variant, islands and pairing -/

/-- Rails, phases and converters of the variant (R3). -/
def World.nRails (w : World) : Nat := if w.lx1264 then 12 else 24
def World.nPhases (w : World) : Nat := if w.lx1264 then 64 else 128

/-- Islands the variant lacks: SNB, PCB, LEB and PWB on the LX1264 (R15). -/
def World.absent (w : World) (n : Nat) : Bool :=
  decide (22 ≤ n) || (w.lx1264 && (n == 5 || n == 7 || n == 9 || n == 11))

/-- Island `n` is on, by the hub's record (R20). -/
def World.on (w : World) (n : Nat) : Bool := bitOf w.islOn n

def World.setOn (w : World) (n : Nat) (b : Bool) : World :=
  let m := w.islOn &&& (2 ^ 22 - 1)
  { w with islOn := if b then m ||| 2 ^ n else if m.testBit n then m - 2 ^ n else m }

def snIsl (r : Nat) : Nat := if r < 12 then 4 else 5
def leIsl (r : Nat) : Nat := if r < 12 then 8 else 9
def pcIsl (p : Nat) : Nat := if p < 64 then 6 else 7
def pwIsl (p : Nat) : Nat := if p < 64 then 10 else 11
def pwIslR (r : Nat) : Nat := if r < 12 then 10 else 11
/-- 0 for group A, 1 for group B: the instance of a register kept once per island of a pair. -/
def grpR (r : Nat) : Nat := r / 12
def grpP (p : Nat) : Nat := p / 64

/-! ### Time -/

/-- Time Base in ns (R379). -/
def World.tb (w : World) : Nat := w.clk.tbq / 128 % 2 ^ 64

/-- Whole 1 ns base cycles, and 25 MHz crystal cycles, that `dt` ticks from `tk` complete. -/
def nsIn (tk dt : Nat) : Nat := (tk + dt) / 128 - tk / 128
def xtIn (tk dt : Nat) : Nat := (tk + dt) / 5120 - tk / 5120

/-- The clock after `dt` base ticks at signed rate `rate`, 2^-32 ns per ns (R380). -/
def Clock.step (c : Clock) (rate : Int) (dt : Nat) : Clock :=
  let tot := c.rem + rate * dt
  { tk := c.tk + dt
    tbq := c.tbq + (max 0 ((dt : Int) + tot / 2 ^ 32)).toNat
    rem := tot % 2 ^ 32 }

/-- COUNT advanced by `n` counts under MODE: the new count and the returns to 0, or 1 when a one-shot reaches TOP (R395). -/
def tmCount (mode top cnt n : Nat) : Nat × Nat :=
  if mode = 1 then
    (if top = 0 then (0, 0) else if cnt ≤ top then ((cnt + n) % (top + 1), (cnt + n) / (top + 1))
     else ((cnt + n) % 2 ^ 48, (cnt + n) / 2 ^ 48))
  else if mode = 2 then
    (if cnt < top ∧ top ≤ cnt + n then (top, 1) else if cnt ≤ top then (min top (cnt + n), 0)
     else ((cnt + n) % 2 ^ 48, (cnt + n) / 2 ^ 48))
  else ((cnt + n) % 2 ^ 48, (cnt + n) / 2 ^ 48)

/-- TOP of timer `t`. -/
def World.tmTop (w : World) (t : Nat) : Nat := w.f F.TM_TOP_LO_T_LO t + 2 ^ 32 * w.f F.TM_TOP_HI_T_HI t

/-- Timer `t` counts `n` more counts; returns to 0 re-arm the compare (R395, R397). -/
def World.tmAdd (w : World) (t n : Nat) : World :=
  let m := w.timer t
  let (c, k) := tmCount (w.f F.TM_CFG_MODE t) (w.tmTop t) m.cnt n
  let w := w.setTimer t { m with cnt := c, wraps := m.wraps + k }
  if k = 0 then w
  else if w.f F.TM_CFG_MODE t = 2 then w.sf F.TM_CTL_RUN t 0
  else w.sf F.TM_STAT_ARMED t 1

/-- `n` ticks of timer `t`'s clock source through its prescaler (R394). -/
def World.tmTick (w : World) (t n : Nat) : World :=
  let m := w.timer t
  let a := m.acc + n * w.f F.TM_STEP_STEP t
  (w.setTimer t { m with acc := a % 2 ^ 24 }).tmAdd t (a / 2 ^ 24)

/-- The timers that run on the base or the crystal advance by `dt` base ticks. -/
def World.tmAdvance (w : World) (tk dt : Nat) : World :=
  (idxs 32 fun t => w.on 17 && w.fb F.TM_CTL_RUN t && decide (w.f F.TM_CFG_CLKSRC t < 2)).foldl
    (fun w t => w.tmTick t (if w.f F.TM_CFG_CLKSRC t = 0 then nsIn tk dt else xtIn tk dt)) w

/-- Time passes: the base, the Time Base and the running timers (R379, R380, R394). -/
def World.advance (w : World) (dt : Nat) : World :=
  let w := { w with clk := w.clk.step (w.fs F.TB_RATENOW_RATE 0) dt }
  w.tmAdvance (w.clk.tk - dt) dt

/-- An event happens at base tick `t`: time passes up to it. -/
def World.upTo (w : World) (t : Nat) : World := if w.clk.tk < t then w.advance (t - w.clk.tk) else w

/-- Interval `k` begins now. -/
def World.start (w : World) (k : Timed) : World := { w with timed := mset 0 w.timed k.key (w.clk.tk + 1) }

/-- `ns` have passed since interval `k` began; one that has not begun counts from the COLD reset. -/
def World.past (w : World) (k : Timed) (ns : Nat) : Bool := decide (mget 0 w.timed k.key + 128 * ns ≤ w.clk.tk + 1)

/-- Converter `n` begins to run: its first software-result period starts (R54). -/
def World.rscStart (w : World) (n : Nat) : World :=
  if w.fb F.RSC_CFG_EN n then w
  else (w.setConverter n { w.converter n with swAt := w.clk.tk, unsettled := !w.fb F.RSC_STAT_REFRDY n }).sf F.RSC_CFG_EN n 1

/-! ### Outputs -/

def World.emit (w : World) (o : Out) : World := { w with out := w.out ++ [o] }

/-- A belay frame that is acknowledged or retried is sent (R368). -/
def World.send (w : World) (m : BlyOut) : World :=
  let b := w.bly
  World.emit { w with bly := { b with nextSeq := b.nextSeq + 1, sent := b.sent ++ [⟨b.nextSeq, m, w.clk.tk, 0⟩] } } (.belay m)

/-- The part drives its pads: no belay board, pairing off, or the pads owned (R366, R367). -/
def World.padsOwned (w : World) : Bool := !w.pins.blpair || !w.fb F.BL_CFG_EN 0 || w.fb F.BL_STAT_OWN 0

/-- An edge on an interrupt source's line (R346). -/
def World.irq (w : World) (src : Nat) : World :=
  if w.irqEdge.contains src then w else { w with irqEdge := w.irqEdge ++ [src] }

/-! ### Values that the manual leaves open -/

/-- A fresh free value: nothing constrains it. -/
def World.draw (w : World) : World × Nat := ({ w with free := w.free + 1 }, Config.freeValue w.free)

/-! ### Little-endian bytes -/

/-- `n` bytes of `v`, lowest first. -/
def leBytes : Nat → Nat → List Nat
  | 0, _ => []
  | n + 1, v => v % 256 :: leBytes n (v / 256)

/-- The value of little-endian bytes. -/
def leVal : List Nat → Nat
  | [] => 0
  | b :: l => b + 256 * leVal l

/-- `n` bytes of `l` from offset `k`, as a value; bytes beyond the end read 0. -/
def fieldAt (l : List Nat) (k n : Nat) : Nat := leVal ((l.drop k).take n)

/-! ### The Cairn queue (R488) -/

/-- A record is queued with the header values of this moment, or dropped when the 16-entry buffer is full. -/
def World.cairn (w : World) (typ : Nat) (pay : List Nat) : World :=
  let r : CrnRec := { typ := typ, lcs := w.f F.LC_STATE_STATE 0, tb := w.tb, role := w.f F.BL_STAT_ROLE 0, pay := pay }
  if w.crn.queue.length < 16 then { w with crn := { w.crn with queue := w.crn.queue ++ [r] } }
  else
    let w := (w.inc F.CRN_STAT_DROPPED 0).irq 0x0D0
    { w with crn := { w.crn with drops := w.crn.drops + 1, dropTb := if w.crn.drops = 0 then w.tb else w.crn.dropTb } }

/-! ### Records toward the host (R215 to R217) -/

/-- Slots of ring `n`. -/
def World.ringLen (w : World) (n : Nat) : Nat := 2 ^ w.f F.RING_CFG_SIZE n

/-- Slots handed to the part and not yet given back (R210). -/
def World.ringGiven (w : World) (n : Nat) : Nat :=
  (w.f F.RING_TAIL_TAIL n + w.ringLen n - w.f F.RING_DONE_DONE n % w.ringLen n) % w.ringLen n

/-- Entries of the buffer that are not reserved FAULT entries. -/
def World.sharedUsed (w : World) : Nat :=
  w.buf.countP fun e => match e with | .record _ true => false | _ => true

/-- Reserved entries that FAULT records of rail `r` hold. -/
def World.reservedUsed (w : World) (r : Nat) : Nat :=
  w.buf.countP fun e => match e with | .record h true => h.rail == r | _ => false

/-- Records of ring `n` in the buffer, or waiting for an entry of it: each has a given slot promised to it. -/
def World.ringPromised (w : World) (n : Nat) : Nat :=
  (w.buf ++ w.waitq).countP fun e => match e with | .record h _ => h.ring == n | _ => false

/-- A reserved FAULT entry. -/
def BufEnt.reserved : BufEnt → Bool
  | .record _ b => b
  | _ => false

/-- An entry takes its place in the buffer; one that needs a shared entry waits, in order, until one is free (R216). -/
def World.put (w : World) (e : BufEnt) : World :=
  if e.reserved || (w.waitq.isEmpty && decide (w.sharedUsed < 464)) then { w with buf := w.buf ++ [e] }
  else { w with waitq := w.waitq ++ [e] }

/-- Entries in the buffer and waiting for it, in order. -/
def World.entries (w : World) : List BufEnt := w.buf ++ w.waitq

/-- The buffer and its waiting entries change alike. -/
def World.mapEntries (w : World) (f : List BufEnt → List BufEnt) : World := { w with buf := f w.buf, waitq := f w.waitq }

/-- Waiting entries take the shared entries that have become free. -/
def World.refill (w : World) : World :=
  let n := 464 - w.sharedUsed
  { w with buf := w.buf ++ w.waitq.take n, waitq := w.waitq.drop n }

/-! ### Credits of the link (R221) -/

/-- Posted credits, headers and units of 16 bytes, that one request each of the lengths `l` takes. -/
def tlpCost (l : List Nat) : Nat × Nat := (l.length, (l.map fun n => (n + 15) / 16).sum)

/-- The host has the credits for posted writes of the lengths `l` beside `ph` headers and `pd` bytes held back. -/
def World.credit (w : World) (ph pd : Nat) (l : List Nat) : Bool :=
  let c := tlpCost l
  w.pcie.ph.all (fun n => decide (ph + c.1 ≤ n)) && w.pcie.pd.all fun n => decide (pd + 16 * c.2 ≤ 16 * n)

/-- Posted writes of the lengths `l` take their credits. -/
def World.spend (w : World) (l : List Nat) : World :=
  let c := tlpCost l
  { w with pcie := { w.pcie with ph := w.pcie.ph.map (· - c.1), pd := w.pcie.pd.map (· - c.2) } }

/-- The host returns posted credits. -/
def World.earn (w : World) (ph pd : Nat) : World :=
  { w with pcie := { w.pcie with ph := w.pcie.ph.map (· + ph), pd := w.pcie.pd.map (· + pd) } }

/-- A ring that takes records: type EVT and enabled (R204, R218). -/
def World.evtReady (w : World) (n : Nat) : Bool :=
  w.f F.RING_CFG_TYPE n == 2 && w.fb F.RING_CTL_EN n

/-- The EVT ring of a class (R215). -/
def World.routeOf (w : World) (cls : Nat) : Nat :=
  match cls with
  | 1 => w.f F.RING_ROUTE_FAULT 0
  | 2 => w.f F.RING_ROUTE_OUTCOME 0
  | 3 => w.f F.RING_ROUTE_EVENT 0
  | _ => w.f F.RING_ROUTE_TELEM 0

/-- An EVENT or TELEM record may enter, behind the GAP record of a run that ends before it (R216). -/
def World.lossyFits (w : World) (n : Nat) : Bool :=
  w.waitq.isEmpty && decide (w.sharedUsed + 128 ≤ 464) && w.evtReady n
    && decide (w.ringPromised n + b2n (w.ring n).run.isSome < w.ringGiven n)

/-- A write-back or record of ring `n` has entered: the ring's message enters behind it when COUNT have, or at once when
`irq` (R220). -/
def World.signal (w : World) (n : Nat) (irq : Bool) : World :=
  let k := (w.ring n).unsig + 1
  let w := w.when (k == 1) fun w => w.start (.msix n)
  if irq || decide (max 1 (w.f F.RING_ICOAL_COUNT n) ≤ k) then
    (w.setRing n { w.ring n with unsig := 0 }).put (.msix (w.f F.RING_CFG_VEC n))
  else w.setRing n { w.ring n with unsig := k }

/-- A record enters the buffer, signalled behind it (R216, R220). -/
def World.putRecord (w : World) (h : HRec) (res : Bool) : World :=
  (w.put (.record h res)).signal h.ring false

/-- The GAP record of a pending run enters (R217). -/
def World.enterGap (w : World) (n : Nat) : World :=
  match (w.ring n).run with
  | none => w
  | some (first, len) =>
    let w := w.setRing n { w.ring n with run := none }
    w.putRecord ⟨n, 0, 0xFF, first, len, w.tb, List.replicate 32 0⟩ false

/-- A record takes its ring's next SEQ and enters the buffer, or is dropped into the ring's run (R216, R217). -/
def World.record (w : World) (cls rail : Nat) (pay : List Nat) : World :=
  let n := w.routeOf cls
  let seq := w.f F.RING_SEQ_SEQ n
  let w := w.inc F.RING_SEQ_SEQ n
  if decide (3 ≤ cls) && !w.lossyFits n then
    let w := w.inc F.RING_GAPS_DROPPED n
    let run := match (w.ring n).run with
      | none => (seq, 1)
      | some (a, k) => (a, k + 1)
    w.setRing n { w.ring n with run := some run }
  else
    let w := w.enterGap n
    let res := decide (cls = 1) && decide (w.reservedUsed rail < 2)
    w.putRecord ⟨n, cls, rail, seq, 0, w.tb, pay⟩ res

/-! ### The Base Camp area of OTP (R287) -/

/-- The Base Camp area of OTP, laid out word by word: two global words, four sets of ten, eight entries of four. -/
def World.otpWord (w : World) (k : Nat) : Nat := mget 0 w.otp k
def World.bcEntry (w : World) (e k : Nat) : Nat := w.otpWord (42 + 4 * e + k)

def World.bcRail (w : World) (e : Nat) : Nat := bitsOf (w.bcEntry e 0) 1 5

/-! ### Arithmetic of the engine -/

/-- `a ÷ b` rounded to nearest, ties away from zero; 0 when `b` is 0. -/
def rdiv (a b : Int) : Int :=
  if b = 0 then 0
  else
    let n := 2 * a.natAbs + b.natAbs
    let q : Int := (n / (2 * b.natAbs) : Nat)
    if (a < 0) = (b < 0) then q else -q

/-- `⌈a ÷ b⌉` of naturals; 0 when `b` is 0. -/
def cdiv (a b : Nat) : Nat := if b = 0 then 0 else (a + b - 1) / b

end Sys2Proof.Machine
end

