-- ==== Sys2Proof/Machine/Convert.lean ====
section
/-! DEFINITION. The rail sense conversions: raw codes of the two modes, the corrected words, and what each slice of a converter
converts (R35, R36, R38, R40, R47, R49, R553).  Sense voltages are in setpoint DAC units of 7.8125 µV. -/

namespace Sys2Proof.Machine

/-- The raw code of a difference `d` between the sense voltage and the setpoint DAC, and whether it clips (R35).  The dither and
its subtraction leave at most 0.1 raw code (R40), which the model leaves out (log 28). -/
def rawErr (d : Int) : Int × Bool := (clampI (-8192) 8191 d, decide (d < -8192) || decide (8192 < d))

/-- The raw code of an absolute conversion of `v`, 16 DAC units to the code, and whether it clips (R36). -/
def rawAbs (v : Int) : Int × Bool := (clampI 0 16383 (v / 16), decide (v < 0) || decide (262144 < v))

/-- A raw code less its offset correction (1/64 raw code) and times its gain correction (ppm), in quarters of a raw code
(R38, R40, R59). -/
def corrected (raw ofs gain : Int) : Int := rdiv ((raw * 64 - ofs) * (1000000 + gain)) 16000000

/-- The corrected word of an error-mode code: 16 bits two's complement (R38). -/
def wordErr (raw ofs gain : Int) : Int := satS 16 (corrected raw ofs gain)

/-- The corrected word of an absolute-mode code: 16 bits unsigned (R38). -/
def wordAbs (raw ofs gain : Int) : Int := clampI 0 65535 (corrected raw ofs gain)

/-- Source of slice `s`: the slot in force, or 1 for every slice in absolute mode (R47, R49). -/
def World.sliceSrc (w : World) (n s : Nat) : Nat :=
  if w.f F.RSC_CFG_MODE n = 0 then w.lf F.RSC_SLOT_SLOT (8 * n + s) else 1

/-- A conversion of slice `s` of converter `n` while the sense voltage is `v`: its corrected word and whether it clipped.
A slot other than LOOP takes the trims of OTP (R47). -/
def World.convert (w : World) (n s : Nat) (v : Int) : Int × Bool :=
  let i := 8 * n + s
  let dac : Int := w.f F.RSC_DACNOW_CODE n
  let ofs := w.fs F.RSC_CORR_OFS_OFS i
  let gain := w.fs F.RSC_CORR_GAIN_GAIN i
  let ofs0 := sx 16 (F.RSC_CORR_OFS_OFS.reset i)
  let gain0 := sx 16 (F.RSC_CORR_GAIN_GAIN.reset i)
  if w.f F.RSC_CFG_MODE n ≠ 0 then (wordAbs (rawAbs v).1 ofs gain, (rawAbs v).2)
  else match w.lf F.RSC_SLOT_SLOT i with
    | 0 => (wordErr (rawErr (v - dac)).1 ofs gain, (rawErr (v - dac)).2)
    | 1 => (wordAbs (rawAbs v).1 ofs0 gain0, (rawAbs v).2)
    | 2 => (wordAbs (rawAbs dac).1 ofs0 gain0, (rawAbs dac).2)
    | _ => (wordErr 0 ofs0 gain0, false)

/-- The conversions of a list of slices and sense voltages: their words, and RSC_ERR.CLIP for one that clipped. -/
def World.convertAll (w : World) (n : Nat) (l : List (Nat × Int)) : World × List (Int × Bool) :=
  let c := l.map fun x => w.convert n x.1 x.2
  (w.when (c.any (·.2)) fun w => w.sf F.RSC_ERR_CLIP n 1, c)

/-- REF of a PREBIAS start: one absolute conversion of the sense input, limited to LE_TARGET, in 1/256 DAC code (R236,
R553). -/
def World.prebias (w : World) (n : Nat) (v : Int) : World × Int :=
  let c := rawAbs v
  (w.when c.2 fun w => w.sf F.RSC_ERR_CLIP n 1, 256 * min (16 * c.1) (w.f F.LE_TARGET_CODE n : Int))

end Sys2Proof.Machine
end

