-- ==== Sys2Proof/Machine/Mem.lean ====
section
/-! DEFINITION. Addressed memory: the word map of R28 held byte by byte.  The byte address of the low half of word `w` is
`2 * w`, that of its high half `2 * w + 1` (little-endian, R6).  A core's own TCM is kept at its global address, and the
two flash banks at fixed places: physical bank 0 at w:0x0100_0000, physical bank 1 at w:0x0120_0000 (R465). -/

namespace Sys2Proof.Machine

/-- Memory in canonical form: byte addresses rising, no entry equal to what an unlisted address reads as. -/
abbrev Mem := List Host.Cell

/-- What a byte that nothing has written reads as: flash reads erased, everything else 0.  DESIGN CHOICE: the manual
gives no contents for memory that has not been wiped or written. -/
def unlisted (a : Nat) : Byte := if 0x02000000 ≤ a ∧ a < 0x02800000 then 0xFF else 0

/-- Memory holds addresses strictly above `lo`, rising, none at its unlisted value. -/
def Mem.ok : Option Nat → Mem → Bool
  | _, [] => true
  | lo, (a, b) :: m => (match lo with | none => true | some p => decide (p < a)) && b != unlisted a && Mem.ok (some a) m

/-- The canonical form holds. -/
def Mem.wf (m : Mem) : Bool := Mem.ok none m

/-- The byte at `x`. -/
def Mem.get : Mem → Nat → Byte
  | [], x => unlisted x
  | (a, b) :: m, x => if x = a then b else Mem.get m x

/-- The byte at `x` becomes `v`; an unlisted value leaves the list. -/
def Mem.set (m : Mem) (x : Nat) (v : Byte) : Mem := mset (unlisted x) m x v

/-- Bytes stored from `x` upward. -/
def Mem.setBytes (m : Mem) (x : Nat) : List Nat → Mem
  | [] => m
  | b :: l => (m.set x (BitVec.ofNat 8 b)).setBytes (x + 1) l

/-- `n` bytes from `x` upward. -/
def Mem.getBytes (m : Mem) (x n : Nat) : List Nat := (List.range n).map fun i => (m.get (x + i)).toNat

/-- Every byte of `[lo, hi)` goes back to its unlisted value: a wipe or an erase. -/
def Mem.erase (m : Mem) (lo hi : Nat) : Mem := m.filter fun c => !(decide (lo ≤ c.1) && decide (c.1 < hi))

/-- The 16-bit word at word address `w`. -/
def Mem.word (m : Mem) (w : Nat) : Nat := (m.get (2 * w)).toNat + 256 * (m.get (2 * w + 1)).toNat

/-- The 16-bit word at word address `w` becomes `v`. -/
def Mem.setWord (m : Mem) (w v : Nat) : Mem :=
  (m.set (2 * w) (BitVec.ofNat 8 (v % 256))).set (2 * w + 1) (BitVec.ofNat 8 (v / 256 % 256))

/-- The 32-bit value at word address `w`, low word first. -/
def Mem.dword (m : Mem) (w : Nat) : Nat := m.word w + 65536 * m.word (w + 1)

def Mem.setDword (m : Mem) (w v : Nat) : Mem := (m.setWord w (v % 65536)).setWord (w + 1) (v / 65536 % 65536)

end Sys2Proof.Machine
end

