-- ==== Sys2Proof/Machine/Pwm.lean ====
section
/-! DEFINITION. Phases: binding, rank, the period grid, phase states, kills, duty words and edges (R142 to R165). -/

namespace Sys2Proof.Machine

/-! ### Phase states and levels (R157, R166) -/

/-- PW_PHSTAT.STATE codes. -/
abbrev phUnbound : Nat := 0
abbrev phOff : Nat := 1
abbrev phBoot : Nat := 2
abbrev phActive : Nat := 3
abbrev phShed : Nat := 4
abbrev phKilled : Nat := 5

/-- PW_EDGE.LVL codes. -/
abbrev lvLow : Nat := 0
abbrev lvHigh : Nat := 1
abbrev lvMid : Nat := 2

/-! ### Current words (R60, R62, R65, R66) -/

/-- The current word of an input of `x` LSB at a PCC, or an ICC, and its CLIP and SAT; an input beyond ±100 mV lies beyond
the code's range.  A channel that does not run delivers 0. -/
def World.currentWord (w : World) (icc : Bool) (p : Nat) (x : Int) : World × Int :=
  if !w.fb (if icc then F.ICC_CFG_EN else F.PCC_CFG_EN) p then (w, 0)
  else
    let c := satS (if icc then 16 else 14) x
    let w := w.when (c != x) fun w => w.sf (if icc then F.ICC_ERR_CLIP else F.PCC_ERR_CLIP) p 1
    let c := if w.fb (if icc then F.ICC_CFG_INV else F.PCC_CFG_INV) p then -c else c
    let n := (c * 16 - w.fs (if icc then F.ICC_OFS_OFS else F.PCC_OFS_OFS) p)
      * (1000000 + w.fs (if icc then F.ICC_GTRIM_GTRIM else F.PCC_GTRIM_GTRIM) p)
    let v := rdiv (n * w.f (if icc then F.ICC_KA_KA else F.PCC_KA_KA) p) (1000000 * 2 ^ 20)
    let i := satS (if icc then 24 else 18) v
    (w.when (i != v) fun w => w.sf (if icc then F.ICC_ERR_SAT else F.PCC_ERR_SAT) p 1, i)

/-- The words of a channel's codes, in order. -/
def World.currentWords (w : World) (icc : Bool) (p : Nat) : List Int → World × List Int
  | [] => (w, [])
  | x :: l =>
    let (w, i) := w.currentWord icc p x
    let (w, k) := w.currentWords icc p l
    (w, i :: k)

/-- The current word that a channel delivers: 0 while it does not run (R66). -/
def World.cur (w : World) (p : Nat) : Int := if w.fb F.PCC_CFG_EN p then (w.phase p).cur else 0

/-- The word of a new code stands in the engine's input register. -/
def World.takeCode (w : World) (p : Nat) (x : Int) : World × Int :=
  let (w, i) := w.currentWord false p x
  (w.setPhase p { w.phase p with cur := i }, i)

/-! ### Phases -/

def World.phSt (w : World) (p : Nat) : Nat := w.f F.PW_PHSTAT_STATE p
def World.setPhSt (w : World) (p s : Nat) : World := w.sf F.PW_PHSTAT_STATE p s

/-! ### Binding in force (R144, R155) -/

/-- Phase `p` is bound to rail `r` by the bindings in force. -/
def World.boundTo (w : World) (p r : Nat) : Bool :=
  w.lf F.PW_BIND_EN p == 1 && w.lf F.PW_BIND_RAIL p == r

/-- Insertion by ascending key. -/
def insertBy (k : Nat → Nat) (x : Nat) : List Nat → List Nat
  | [] => [x]
  | y :: l => if k x < k y then x :: y :: l else y :: insertBy k x l

/-- The bound phases of a rail in rank order: ascending lane (R144). -/
def World.bound (w : World) (r : Nat) : List Nat :=
  (idxs w.nPhases fun p => w.boundTo p r).foldl (fun l p => insertBy (fun q => w.lf F.PW_BIND_LANE q) p l) []

/-- The rail a phase is bound to. -/
def World.railOf (w : World) (p : Nat) : Option Nat :=
  if w.lf F.PW_BIND_EN p = 1 then some (w.lf F.PW_BIND_RAIL p) else none

/-- Bound phases of `r` in state `s`. -/
def World.inState (w : World) (r s : Nat) : List Nat := (w.bound r).filter fun p => w.phSt p == s

/-- The NPH port: phases in ACTIVE (R145). -/
def World.nph (w : World) (r : Nat) : Nat := (w.inState r phActive).length

/-- N_req in force (R144). -/
def World.nreq (w : World) (r : Nat) : Nat := w.f F.PW_RSTAT_NREQ r

/-- A phase of one group bound to a rail of the other (R155). -/
def crossGroup (p r : Nat) : Bool := (p < 64) != (r < 12)

/-! ### The period grid (R142 to R144) -/

def World.per (w : World) (r : Nat) : Nat := w.lf F.PW_PER_PER r

/-- Offset of rank `k` of `n` requested phases (R144). -/
def cycleOffset (per k n : Nat) : Nat := (rdiv (k * per : Nat) (n : Nat)).toNat

/-- First instant at or after `x` that lies at `g` on a grid of period `per`. -/
def nextOnGrid (per g x : Nat) : Nat :=
  if per = 0 then x else x + (g + (per - x % per)) % per

/-- Grid position of rank `k` of rail `r`. -/
def World.gridPos (w : World) (r k : Nat) : Nat :=
  let per := w.per r
  if per = 0 then 0 else (w.lf F.PW_RAILPH_PH r + cycleOffset per k (w.nreq r)) % per

/-- `d` wrapped into −per/2 to +per/2. -/
def wrapHalf (per : Nat) (d : Int) : Int :=
  if per = 0 then 0
  else
    let m := d % (per : Int)
    if (per : Int) < 2 * m then m - per else m

/-- A phase in ACTIVE or SHED begins its move to the grid position `g` after a change at `b` (R160).  DESIGN CHOICE (log 88):
its starts in force are compared with the grid of the new PER, so that a changed PER too ends on the grid of R143; with PER
unchanged the move is the difference of the two offsets. -/
def Ph.startRebase (h : Ph) (per g b : Nat) : Ph :=
  let d := wrapHalf per ((g : Int) - (h.nextStart : Int))
  if d = 0 then { h with rebase := none }
  else if b + per / 2 ≤ h.nextStart then
    { h with nextStart := ((h.nextStart : Int) + d).toNat, rebase := some 0 }
  else { h with rebase := some d }

/-- PW_RSTAT.REBASE: some switching phase has not adopted its new offset. -/
def World.rebasing (w : World) (r : Nat) : Bool :=
  (w.bound r).any fun p => (w.phSt p == phActive || w.phSt p == phShed) && (w.phase p).rebase.isSome

/-- The new start of one phase of rank `k`: a switching phase moves, a booting one starts at the new offset. -/
def World.regridPhase (w : World) (r p k : Nat) : World :=
  let w := w.sf F.PW_PHSTAT_RANK p k
  let g := w.gridPos r k
  if w.phSt p == phActive || w.phSt p == phShed then
    w.setPhase p ((w.phase p).startRebase (w.per r) g w.clk.tbq)
  else if w.phSt p == phBoot then
    w.setPhase p { w.phase p with nextStart := nextOnGrid (w.per r) g (max w.clk.tbq (w.phase p).bootEnd) }
  else w

/-- A change of ranks or offsets is to be worked out. -/
def World.needGrid (w : World) (r : Nat) : World := w.setRail r { w.rail r with gridDue := true }

/-- Ranks shown and new cycle starts computed once, after every change of N_req, PER, PH or the bindings that took effect
together (R144, R160, R165). -/
def World.regrid (w : World) (r : Nat) : World :=
  if (w.rail r).gridDue then
    (w.bound r).zipIdx.foldl (fun w e => w.regridPhase r e.1 e.2) (w.setRail r { w.rail r with gridDue := false })
  else w

/-- N_req takes `n`, limited to the bound phases, at an update boundary (R159, R160). -/
def World.setNreq (w : World) (r n : Nat) : World :=
  let n := min n (w.bound r).length
  if n = w.nreq r then w else (w.sf F.PW_RSTAT_NREQ r n).needGrid r

/-! ### Levels at the ball (R149, R153, R154, R157) -/

/-- The rail runs COT-E: its generators follow FIRE pulses (R149). -/
def World.cot (w : World) (r : Nat) : Bool := w.lf F.LE_FORM_FORM r == 3

/-- Rail running: it has become running and its engine runs a form other than NONE (R157). -/
def World.railRuns (w : World) (r : Nat) : Bool := (w.rail r).running && w.lf F.LE_FORM_FORM r != 0

/-- The on-time of a duty word, in ticks (R146). -/
def onTime (d per : Nat) : Nat := (rdiv (d * per : Nat) (2 ^ 24 : Nat)).toNat

/-- On edge of the cycle that starts at `cs`, before the limits (R149); in DUAL a word moves it, so R147 holds for it. -/
def World.natOn (w : World) (r cs : Nat) (h : Ph) : Nat :=
  let per := w.per r
  if w.lf F.PW_RAILCFG_MOD r = 1 then
    max (cs + (rdiv ((per : Int) - onTime h.word per) 2).toNat) (if h.wordAt = 0 then 0 else h.wordAt + 512)
  else cs

/-- Limit 3 of R151. -/
def World.onLimit (w : World) (r : Nat) (h : Ph) (on : Nat) : Nat :=
  if h.lastOff = 0 then on
  else max on (max (h.lastOff + w.lf F.PW_TLIM_TOFFMIN r) (h.lastOff + h.dtHl + w.lf F.PW_DT_DTLH r))

/-- The next on edge of a phase that is not high, where it is known. -/
def World.nextOn (w : World) (r p : Nat) : Option Nat :=
  let h := w.phase p
  if h.hi then some h.onAt
  else if w.phSt p = phActive ∧ !w.cot r then some (w.onLimit r h (w.natOn r h.nextStart h)) else none

/-- The level of a switching phase at `t`, and since when when it is mid: mid for DT_HL after an off edge and DT_LH before an
on edge, mid in diode emulation, else low (R153, R154). -/
def World.switchLvl (w : World) (r p t : Nat) : Nat × Nat :=
  let h := w.phase p
  if h.hi && decide (h.onAt ≤ t) && decide (t < h.offAt) then (lvHigh, 0)
  else if h.hi && decide (h.offAt ≤ t) then (lvMid, h.offAt)
  else if h.dem && decide (h.demAt ≤ t) then (lvMid, h.demAt)
  else if t < h.lastOff + h.dtHl then (lvMid, h.lastOff)
  else match w.nextOn r p with
    | some on => if on ≤ t + w.lf F.PW_DT_DTLH r then (lvMid, on - w.lf F.PW_DT_DTLH r) else (lvLow, 0)
    | none => (lvLow, 0)

/-- The level at a ball at `t` and, when it is mid, since when. -/
def World.ball (w : World) (p t : Nat) : Nat × Nat :=
  let h := w.phase p
  let s := w.phSt p
  match w.railOf p with
  | none => (w.f F.PW_EDGE_LVL p, h.lvAt)
  | some r =>
    if s = phActive ∨ s = phShed then w.switchLvl r p t
    else if s = phBoot then (if t < h.bootEnd then (lvLow, 0) else (lvMid, max h.bootEnd h.lvAt))
    else (w.f F.PW_EDGE_LVL p, h.lvAt)

/-- PW_EDGE.LVL now. -/
def World.lvl (w : World) (p : Nat) : Nat := (w.ball p w.clk.tbq).1

/-- Since when the ball has been mid, if it is. -/
def World.midFrom (w : World) (p : Nat) : Option Nat :=
  let b := w.ball p w.clk.tbq
  if b.1 = lvMid then some b.2 else none

/-- A state that forces a level is entered: a high interval in progress ends here. -/
def World.force (w : World) (p s l : Nat) : World :=
  let h := w.phase p
  let now := w.clk.tbq
  let since := if l = lvMid then (w.midFrom p).getD now else now
  let h := if h.hi ∧ h.onAt ≤ now then
      let off := min now h.offAt
      { h with lastOff := off, dtHl := 0, held := off - h.onAt, tdone := h.tdone + (off - h.onAt) }
    else h
  ((w.setPhSt p s).sf F.PW_EDGE_LVL p l).setPhase p { h with hi := false, dem := false, lvAt := since }

/-- What a pad drives (R163). -/
inductive Pad where
  | low | high | hiZ | half
  deriving DecidableEq, Repr

/-- The drive of a PWM pad: mid by MIDDRV of its rail; a held pad and a standby's pad keep high impedance (R163, R275,
R366). -/
def World.pad (w : World) (p : Nat) : Pad :=
  if !w.padsOwned || bitOf (w.f F.PM_PADHELD_HELD 0) (pwIsl p) then .hiZ
  else if w.lvl p = lvLow then .low
  else if w.lvl p = lvHigh then .high
  else match w.railOf p with
    | some r => if w.lf F.PW_RAILCFG_MIDDRV r = 1 then .half else .hiZ
    | none => .hiZ

/-! ### Edges (R146 to R154) -/

/-- An edge time in 1 ns cycles of the base and a tap of the delay line (R146). -/
def edgeTap (t : Nat) : Nat × Nat := (t / 128, t % 128)

/-- DT_HL at an off edge (R153). -/
def World.dtHl (w : World) (r : Nat) (i : Int) : Nat :=
  let d := w.lf F.PW_DT_DTHL r
  if w.lf F.PW_DTA_ADT r = 1 ∧ 0 < i then
    max (w.lf F.PW_DTA_DTMIN r) (d - (rdiv (w.lf F.PW_DTA_DTK r * i) 1024).toNat)
  else d

/-- An off edge under TONMIN and next cycle start − TOFFMIN, and whether a limit acted (R151). -/
def limitOff (on off next tonMin toffMin : Nat) : Nat × Bool :=
  let a := max off (on + tonMin)
  let b := if next < a + toffMin then next - toffMin else a
  (b, b != off)

/-- The PW_PHSTAT.LIM bit sets when a limit of R151 acted. -/
def World.lim (w : World) (p : Nat) (b : Bool) : World := w.when b fun w => w.sf F.PW_PHSTAT_LIM p 1

/-- The high interval of phase `p` ends at `off`: mid for DT_HL, then low (R153); the ramp of R170 stands. -/
def World.offEdge (w : World) (r p off : Nat) : World :=
  let h := w.phase p
  let dt := w.dtHl r (w.cur p)
  (w.sf F.PW_PHSTAT_DTNOW p (satU 8 (dt / 4))).setPhase p
    { h with hi := false, lastOff := off, dtHl := dt, tdone := h.tdone + (off - h.onAt), held := off - h.onAt, dem := false }

/-- The off edge happens where its time has come. -/
def World.offIfDue (w : World) (r p t : Nat) : World :=
  if (w.phase p).hi ∧ (w.phase p).offAt ≤ t then w.offEdge r p (w.phase p).offAt else w

/-- A cycle of an ACTIVE phase begins at `cs`: its on and off edges under the word in force (R147, R149, R151). -/
def World.beginCycle (w : World) (r p cs : Nat) : World :=
  let h := w.phase p
  let per := w.per r
  let nat := w.natOn r cs h
  let on := w.onLimit r h nat
  let next := ((cs : Int) + per + h.rebase.getD 0).toNat
  let want := max (on + onTime h.word per) (if h.wordAt = 0 then 0 else h.wordAt + 512)
  let (off, l) := limitOff on want next (w.lf F.PW_TLIM_TONMIN r) (w.lf F.PW_TLIM_TOFFMIN r)
  let w := (w.lim p (l || on != nat)).sf F.PW_EDGE_DUTY p h.word
  w.setPhase p { h with
    cs := cs, hi := true, onAt := on, offAt := off, nextStart := next, tdone := 0, extra := false, forced := false, lastOn := on
    rebase := match h.rebase with
      | none => none
      | some d => if d = 0 then none else some 0 }

/-- A duty word is loaded at `tL` while a high interval is due or in progress: its edges move (R147, R149, R150). -/
def World.loadHigh (w : World) (r p d tL : Nat) (h : Ph) : World :=
  let per := w.per r
  let ton := onTime d per
  let nat := w.natOn r h.cs h
  let move := w.lf F.PW_RAILCFG_MOD r = 1 ∧ !h.extra ∧ tL + 512 < h.onAt
  let on := if move then w.onLimit r h nat else h.onAt
  let want := max (tL + 512) (on + (ton - h.tdone))
  let (off, l) := limitOff on want h.nextStart (w.lf F.PW_TLIM_TONMIN r) (w.lf F.PW_TLIM_TOFFMIN r)
  ((w.lim p (l || (decide move && on != nat))).sf F.PW_EDGE_DUTY p d).setPhase p
    { h with onAt := on, offAt := off, lastOn := on }

/-- A duty word is loaded at `tL` after the off edge: with FASTON one extra pulse in the cycle (R150, R151). -/
def World.loadLow (w : World) (r p d tL : Nat) (h : Ph) : World :=
  let ton := onTime d (w.per r)
  let w := w.sf F.PW_EDGE_DUTY p d
  if h.cs < h.lastOff ∧ h.tdone < ton ∧ w.lf F.PW_RAILCFG_FASTON r = 1 ∧ !h.extra ∧ !h.forced then
    let tonMin := w.lf F.PW_TLIM_TONMIN r
    let nat := max (tL + 512) (h.lastOff + w.lf F.PW_TLIM_TOFFMIN r) + w.lf F.PW_DT_DTLH r
    let on := w.onLimit r h nat
    let (off, l) := limitOff on (on + (ton - h.tdone)) h.nextStart tonMin (w.lf F.PW_TLIM_TOFFMIN r)
    if off < on + tonMin then w.lim p true
    else (w.lim p (l || on != nat)).setPhase p { h with hi := true, onAt := on, offAt := off, extra := true, lastOn := on }
  else w

/-- A duty word reaches the generator at `tL`, and acts by the phase's state and place in its cycle (R150). -/
def World.loadWord (w : World) (r p d tL : Nat) : World :=
  let s := w.phSt p
  let h := w.phase p
  let h := { h with word := d, wordAt := tL, wordOld := h.word }
  if s = phBoot ∨ s = phShed then w.setPhase p h
  else if s = phActive then
    let w := w.setPhase p h
    if h.hi then w.loadHigh r p d tL h else w.loadLow r p d tL h
  else w

/-- A COT pulse of `ton` ticks is loaded at `tL`: its high interval begins DT_LH later, and its interval from the last on
edge is measured (R147, R149, R151, R152). -/
def World.loadPulse (w : World) (r p ton tL : Nat) : World :=
  let h := w.phase p
  if w.phSt p ≠ phActive ∨ h.hi then w
  else
    let nat := max (tL + w.lf F.PW_DT_DTLH r) (tL + 512)
    let on := w.onLimit r h nat
    let len := max ton (w.lf F.PW_TLIM_TONMIN r)
    let gap := on - h.lastOn
    let bad := decide (h.lastOn ≠ 0) && (decide (512000 < gap) || decide (gap < 16000))
    let w := w.when bad fun w => w.sf F.PW_ERR_FRANGE (grpP p) 1
    (w.lim p (on != nat || len != ton)).setPhase p { h with hi := true, onAt := on, offAt := on + len, lastOn := on, tdone := 0 }

/-- The loads of phase `p` before `lim` happen in order, each after an off edge that comes first. -/
def World.settleL (w : World) (r p lim : Nat) : List Load → World
  | [] => w.setPhase p { w.phase p with loads := [] }
  | x :: l =>
    if x.at_ < lim then
      let w := w.offIfDue r p x.at_
      (if x.pulse then w.loadPulse r p x.val x.at_ else w.loadWord r p x.val x.at_).settleL r p lim l
    else w.setPhase p { w.phase p with loads := x :: l }

def World.settle (w : World) (p lim : Nat) : World :=
  match w.railOf p with
  | none => w
  | some r => if (w.phase p).loads.isEmpty then w else w.settleL r p lim (w.phase p).loads

/-- Everything that has reached the generator of phase `p` up to now has acted. -/
def World.settled (w : World) (p : Nat) : World := w.settle p (w.clk.tbq + 1)

/-- Everything that has reached the generators of rail `r` up to now has acted. -/
def World.settleRail (w : World) (r : Nat) : World := (w.bound r).foldl World.settled w

/-! ### Kills (R157, R161, R166) -/

/-- The PW_PHSTAT.KSRC bit of a kill's source. -/
def ksrcBit (src : Nat) : Nat :=
  match src with
  | 0 => 0
  | 2 => 1
  | 16 => 2
  | 1 | 4 | 5 => 3
  | _ => 4

def ksrcOf (l : List Kill) : Nat := l.foldl (fun m k => m ||| 2 ^ ksrcBit k.src) 0

/-- The level that the acting kills give: mid wins over low (R161). -/
def killLevel (l : List Kill) : Nat := if l.any (fun k => k.mid) then lvMid else lvLow

def World.setKills (w : World) (p : Nat) (l : List Kill) : World :=
  (w.setPhase p { w.phase p with kills := l }).sf F.PW_PHSTAT_KSRC p (ksrcOf l)

/-- What a kill in this 1 ns cycle discards: words that load in it, and one that has just been loaded (R24). -/
def World.dropLoads (w : World) (p : Nat) : World :=
  let ns := w.clk.tbq / 128
  let w := w.settle p (128 * ns)
  let h := w.phase p
  let undo := h.wordAt ≠ 0 ∧ h.wordAt / 128 = ns
  let w := w.when (decide undo) fun w => w.sf F.PW_EDGE_DUTY p h.wordOld
  w.setPhase p { h with loads := h.loads.filter (fun x => decide (128 * (ns + 1) ≤ x.at_))
                        word := if undo then h.wordOld else h.word, wordAt := if undo then 0 else h.wordAt }

/-- A kill acts on a phase: a switching phase drives the kill level, an OFF one keeps mid; it acts before a fall of N_req
of the same cycle (R24, R157, R160). -/
def World.kill (w : World) (p : Nat) (k : Kill) : World :=
  let w := w.dropLoads p
  let l := (w.phase p).kills.filter (fun x => x.src != k.src) ++ [k]
  let w := w.setKills p l
  let s := w.phSt p
  if s == phBoot || s == phActive || s == phShed || s == phKilled
      || (s == phOff && (w.phase p).bootOff == w.clk.tbq / 128 + 1) then
    w.force p phKilled (killLevel l)
  else w

/-- A phase begins to boot at `b`: low for BOOT × 10 ns, and its first cycle start after it (R157). -/
def World.boot (w : World) (r p b : Nat) : World :=
  let bt := w.lf F.PW_RAILCFG_BOOT r * 1280
  let w := w.force p phBoot (if bt = 0 then lvMid else lvLow)
  w.setPhase p { w.phase p with
    nextStart := nextOnGrid (w.per r) (w.gridPos r (w.f F.PW_PHSTAT_RANK p)) (b + bt), bootEnd := b + bt
    rebase := none, tdone := 0, extra := false, forced := false }

/-- The kills that `keep` rejects release; a phase with none left boots or goes OFF (R157). -/
def World.unkill (w : World) (p : Nat) (keep : Kill → Bool) : World :=
  let l := (w.phase p).kills.filter keep
  let w := w.setKills p l
  if w.phSt p != phKilled then w
  else if !l.isEmpty then w.force p phKilled (killLevel l)
  else
    match w.railOf p with
    | none => w.force p phOff lvMid
    | some r =>
      if decide (w.f F.PW_PHSTAT_RANK p < w.nreq r) && w.railRuns r then w.boot r p w.clk.tbq
      else w.force p phOff lvMid

/-- The rail stops running: every bound phase goes OFF and drives mid at once; kills' own latches remain (R157). -/
def World.phasesOff (w : World) (r : Nat) : World :=
  (w.bound r).foldl (fun w p =>
    let w := w.setPhase p { w.phase p with rebase := none, extra := false, forced := false }
    (w.sf F.PW_PHSTAT_KSRC p (ksrcOf ((w.phase p).kills.filter (·.auto)))).force p phOff lvMid) w

/-- The phase table at an update boundary (R157). -/
def World.phaseStep (w : World) (r p : Nat) : World :=
  let in' := decide (w.f F.PW_PHSTAT_RANK p < w.nreq r)
  let run := w.railRuns r
  let s := w.phSt p
  let h := w.phase p
  if s = phOff then
    if in' && run then
      if h.kills.isEmpty then w.boot r p w.clk.tbq else w.force p phKilled (killLevel h.kills)
    else w
  else if s = phBoot then
    if in' then w
    else
      let w := w.force p phOff lvMid
      w.setPhase p { w.phase p with bootOff := w.clk.tbq / 128 + 1 }
  else if s = phActive then
    if in' then w
    else (w.setPhSt p phShed).setPhase p { h with shedAt := w.clk.tbq, hi := h.hi && decide (h.onAt ≤ w.clk.tbq) }
  else if s = phShed then
    if in' then
      (w.setPhSt p phActive).setPhase p { h with
        nextStart := nextOnGrid (w.per r) (w.gridPos r (w.f F.PW_PHSTAT_RANK p)) (w.clk.tbq + 1)
        rebase := none }
    else w
  else w

def World.phaseSteps (w : World) (r : Nat) : World := (w.bound r).foldl (fun w p => w.phaseStep r p) w

/-- A phase whose current has fallen to ZCTHR: SHED ends, and with DE a low interval turns to mid (R154, R157). -/
def World.zeroCross (w : World) (r p : Nat) (i : Int) : World :=
  if w.lfs F.PW_ZC_ZCTHR r < i then w
  else if w.phSt p = phShed then w.force p phOff lvMid
  else if w.lf F.PW_RAILCFG_DE r = 1 ∧ w.phSt p = phActive ∧ w.lvl p = lvLow then
    w.setPhase p { w.phase p with dem := true, demAt := w.clk.tbq }
  else w

/-! ### Kill lines (R161) -/

/-- The asserted lines that rail `r` selects: the four balls, and KL4 to KL7 of the rail's own PW island. -/
def World.linesOn (w : World) (r : Nat) : Nat :=
  (bitsOf w.pins.kill 0 4 + 16 * bitsOf w.pins.kill (4 + 4 * grpR r) 4) &&& w.f F.PW_KSEL_KL r

/-- The line kill of rail `r`, at the level that KACT names. -/
def World.lineKillOf (w : World) (r : Nat) : Kill := { src := 16, mid := w.fb F.PW_KSEL_KACT r, auto := true }

/-- Period boundaries of rail `r` up to Time Base tick `t` (R143). -/
def World.periods (w : World) (r t : Nat) : Nat :=
  let per := w.per r
  if per = 0 then 0 else (t + (per - w.lf F.PW_RAILPH_PH r % per)) / per

/-- A period boundary of rail `r` lies after `e` and not after now. -/
def World.periodSince (w : World) (r e : Nat) : Bool := decide (w.periods r e < w.periods r w.clk.tbq)

/-! ### Binding and rail sets (R155, R164, R165) -/

/-- A phase's binding, each item in its field's width: the shadow set, or the one in force. -/
def World.bindOf (w : World) (shadow : Bool) (p : Nat) : Nat × Nat × Nat :=
  if shadow then (w.f F.PW_BIND_EN p % 2, w.f F.PW_BIND_RAIL p % 32, w.f F.PW_BIND_LANE p % 32)
  else (w.lf F.PW_BIND_EN p, w.lf F.PW_BIND_RAIL p, w.lf F.PW_BIND_LANE p)

/-- The binding that would be in force: the shadow of an island whose commit is pending, else the present one. -/
def World.bindNext (w : World) (p : Nat) : Nat × Nat × Nat := w.bindOf (w.fb F.PW_CTL_BCOMMIT (grpP p)) p

/-- The binding of `p` would change. -/
def World.bindDiffers (w : World) (p : Nat) : Bool := w.bindNext p != w.bindOf false p

/-- The engine of `r` is taking updates: "regulating" in R99, R155 and R164 (R240). -/
def World.updating (w : World) (r : Nat) : Bool := w.fb F.LE_STAT_RUN r

/-- Rails that a pending change of phase `p` touches. -/
def World.bindRails (w : World) (p : Nat) : List Nat :=
  let a := w.bindOf false p
  let b := w.bindNext p
  (if a.1 = 1 then [a.2.1] else []) ++ (if b.1 = 1 then [b.2.1] else [])

/-- The flags of R155 that the set to be adopted raises: BINDLIM, XGLIM, LANEDUP, ACTIVE, BADVAL. -/
def World.bindFaults (w : World) (g : Nat) : List Fld :=
  let all := List.range w.nPhases
  let onR r := all.filter fun p => (w.bindNext p).1 == 1 && (w.bindNext p).2.1 == r
  let mine := all.filter fun p => grpP p == g
  let used := (List.range 32).filter fun r => !(onR r).isEmpty
  let xg := all.countP fun p => (w.bindNext p).1 == 1 && crossGroup p (w.bindNext p).2.1
  let dup r := (List.range 32).any fun l => decide (1 < (onR r).countP fun p => (w.bindNext p).2.2 == l)
  let act := mine.any fun p => w.bindDiffers p && decide (2 ≤ w.phSt p) && decide (w.phSt p ≤ 5)
  (if used.any fun r => decide (32 < (onR r).length) then [F.PW_ERR_BINDLIM] else [])
  ++ (if 16 < xg then [F.PW_ERR_XGLIM] else [])
  ++ (if used.any dup then [F.PW_ERR_LANEDUP] else [])
  ++ (if act then [F.PW_ERR_ACTIVE] else [])
  ++ (if used.any fun r => decide (w.nRails ≤ r) then [F.PW_ERR_BADVAL] else [])

/-- Counts shown after bindings changed: NBOUND of each rail, XGCOUNT of both islands; ranks and grid; N_req stays within
the bound count (R155, R165). -/
def World.bindShow (w : World) (rails : List Nat) : World :=
  let w := rails.foldl (fun w r =>
    let n := (w.bound r).length
    let w := w.sf F.PW_RSTAT_NBOUND r n
    let w := if n < w.nreq r then w.sf F.PW_RSTAT_NREQ r n else w
    w.needGrid r) w
  let xg := (List.range w.nPhases).countP fun p => w.lf F.PW_BIND_EN p == 1 && crossGroup p (w.lf F.PW_BIND_RAIL p)
  (w.sf F.PW_STAT_XGCOUNT 0 xg).sf F.PW_STAT_XGCOUNT 1 xg

/-- Phase `p` takes its new binding: OFF when bound, UNBOUND when not; its PCC runs while it is bound, and an asserted line of
its rail kills it (R156, R157, R161). -/
def World.bindPhase (w : World) (p : Nat) : World :=
  let b := w.bindOf true p
  let st := if b.1 = 1 then phOff else phUnbound
  let w := w.force p st lvMid
  let w := ((w.slf F.PW_BIND_EN p b.1).slf F.PW_BIND_RAIL p b.2.1).slf F.PW_BIND_LANE p b.2.2
  let w := w.sf F.PW_PHSTAT_XG p (b2n (b.1 == 1 && crossGroup p b.2.1))
  let w := w.setKills p ((w.phase p).kills.filter fun k => k.src != 16)
  let w := (w.setPhase p { w.phase p with cur := 0, loads := [] }).sf F.PCC_CFG_EN p b.1
  if b.1 = 1 ∧ w.linesOn b.2.1 ≠ 0 then w.kill p (w.lineKillOf b.2.1) else w

/-- Island `g`'s pending set is no longer one that has been judged. -/
def World.bindForget (w : World) (g : Nat) : World :=
  if w.bindOk.testBit g then { w with bindOk := w.bindOk - 2 ^ g } else w

/-- Island `g`'s committed bindings: the changed phases that `sel` picks adopt; with none left the commit is done (R155). -/
def World.bindAdopt (w : World) (g : Nat) (sel : Nat → Bool) : World :=
  let l := (List.range w.nPhases).filter fun p => grpP p == g && w.bindDiffers p && sel p
  let rails := l.flatMap w.bindRails
  let w := l.foldl (fun w p => w.bindPhase p) w
  let w := if rails.isEmpty then w else w.bindShow rails.eraseDups
  if (List.range w.nPhases).any fun p => grpP p == g && w.bindDiffers p then w
  else (w.sf F.PW_CTL_BCOMMIT g 0).bindForget g

/-- The pending set of island `g` meets an adoption point: judged once, refused as a whole or adopted; with a set that the other
island committed in the same cycle, both are judged together (R155).  `r` is the rail whose boundary it is, none when no affected rail regulates. -/
def World.bindPoint (w : World) (g : Nat) (r : Option Nat) : World :=
  if !w.fb F.PW_CTL_BCOMMIT g then w
  else
    let diff := (List.range w.nPhases).filter fun p => grpP p == g && w.bindDiffers p
    let mine p := match r with
      | none => true
      | some x => (w.bindRails p).contains x
    if !(w.bindOk.testBit g) then
      if r.isSome && !(diff.any mine) then w
      else
        let gs := if w.bindPair && w.fb F.PW_CTL_BCOMMIT (1 - g) && !w.bindOk.testBit (1 - g) then [g, 1 - g] else [g]
        let bad := gs.flatMap w.bindFaults
        if !bad.isEmpty then gs.foldl (fun w h => (bad.foldl (fun w F => w.sf F h 1) w).sf F.PW_CTL_BCOMMIT h 0) w
        else
          let idle p := (w.bindRails p).all fun x => !w.updating x
          { w with bindOk := gs.foldl (fun a h => a ||| 2 ^ h) w.bindOk }.bindAdopt g fun p => mine p || idle p
    else w.bindAdopt g mine

/-- The shadowed fields of a rail's PWM set (R164). -/
def pwRailSet : List Fld :=
  [F.PW_RAILCFG_MOD, F.PW_RAILCFG_FASTON, F.PW_RAILCFG_DE, F.PW_RAILCFG_MIDDRV, F.PW_RAILCFG_BOOT, F.PW_PER_PER,
   F.PW_RAILPH_PH, F.PW_TLIM_TONMIN, F.PW_TLIM_TOFFMIN, F.PW_DT_DTHL, F.PW_DT_DTLH, F.PW_DTA_DTK, F.PW_DTA_DTMIN,
   F.PW_DTA_ADT, F.PW_ZC_ZCTHR, F.PW_SHEDMAX_SHEDMAX]

/-- The rail's pending PWM set is judged and adopted or refused (R164). -/
def World.railSetAdopt (w : World) (r : Nat) : World :=
  let per := w.f F.PW_PER_PER r
  let w' := w.clrBit F.PW_CTL_RCOMMIT (grpR r) (r % 12)
  if per < 16000 ∨ 512000 < per ∨ per ≤ w.f F.PW_RAILPH_PH r ∨ 2 ≤ w.f F.PW_RAILCFG_MOD r
      ∨ per ≤ w.f F.PW_TLIM_TONMIN r + w.f F.PW_TLIM_TOFFMIN r then w'.sf F.PW_ERR_BADVAL (grpR r) 1
  else
    let moved := per != w.per r || w.f F.PW_RAILPH_PH r != w.lf F.PW_RAILPH_PH r
    (w'.adoptAll pwRailSet r).when moved fun w => w.needGrid r

/-- A pending RCOMMIT of rail `r`. -/
def World.railSetPending (w : World) (r : Nat) : Bool := (w.f F.PW_CTL_RCOMMIT (grpR r)).testBit (r % 12)

end Sys2Proof.Machine
end

