-- ==== Sys2Proof/Machine/Fabric.lean ====
section
/-! DEFINITION. The states of a rail, and the event fabric's channels and LUT cells: levels, pulses, the edges that reach the
interrupt controller, loops (R240, R385 to R389). -/

namespace Sys2Proof.Machine

/-! ### Rail states (R240) -/

abbrev rsOff : Nat := 0
abbrev rsStarting : Nat := 1
abbrev rsRegulating : Nat := 2
abbrev rsStopping : Nat := 3
abbrev rsHiccup : Nat := 4
abbrev rsLatched : Nat := 5
abbrev rsCalibrating : Nat := 6
abbrev rsBasecamp : Nat := 7

def World.rstate (w : World) (r : Nat) : Nat := w.f F.LE_RSTATE_RSTATE r
def World.setRstate (w : World) (r s : Nat) : World := w.sf F.LE_RSTATE_RSTATE r s

/-- A rail is enabled in every state but OFF, HICCUP and LATCHED. -/
def World.enabled (w : World) (r : Nat) : Bool :=
  let s := w.rstate r
  !(s == rsOff || s == rsHiccup || s == rsLatched)

def World.faulted (w : World) (r : Nat) : Bool := w.rstate r == rsHiccup || w.rstate r == rsLatched

/-! ### Channels and LUT cells (R385 to R389) -/

/-- The island of an event source (R385). -/
def srcIsl (src : Nat) : Nat :=
  if src < 0x030 then leIsl (src % 0x18) else if src < 0x060 then snIsl ((src - 0x030) / 2)
  else if src < 0x078 then leIsl (src - 0x060) else if src < 0x0A8 then snIsl ((src - 0x078) % 0x18)
  else if src = 0x0A8 then 17 else if src < 0x0C8 then 8 else if src < 0x0E0 then leIsl (src - 0x0C8)
  else if src < 0x120 then 17 else if src < 0x140 then 15 else if src < 0x148 then 17
  else if src = 0x1BE then 18 else if src = 0x1BF then 3 else 0

/-- SRC values that R385 lists. -/
def srcListed (src : Nat) : Bool :=
  src == 0x1FF || (decide (src < 0x1C0) && !(within 0x0A9 0x0AF src || within 0x0C4 0x0C7 src || within 0x144 0x147 src))

/-- The level of a source that is a level and not a LUT cell. -/
def World.srcLevel (w : World) (src : Nat) : Bool :=
  if 22 ≤ srcIsl src ∨ w.on (srcIsl src) = false then false
  else if within 0x018 0x02F src then w.faulted (src - 0x018)
  else if within 0x030 0x05F src then w.fb F.PROT_VSTAT_OUT (src - 0x030)
  else if within 0x060 0x077 src then (w.bound (src - 0x060)).any fun p => w.fb F.PROT_PSTAT_OUT p
  else if within 0x178 0x187 src then w.fb F.EF_FFCFG_Q (src - 0x178)
  else if within 0x188 0x197 src then w.fb F.EF_FLTB_OUT (src - 0x188)
  else if src = 0x1BA then w.pins.wake
  else false

/-- The level that source `src` drives; `hi` is a source that is pulsing. -/
def World.srcNow (w : World) (hi : Option Nat) (src : Nat) : Bool := hi == some src || w.srcLevel src

/-- The output of LUT cell `l` while source `hi` pulses, looking through at most `n` cells.  A cell with PULSE drives a pulse only
where its output changes. -/
def World.lutAt (w : World) : Option Nat → Nat → Nat → Bool
  | _, 0, _ => false
  | hi, n + 1, l =>
    let lvl (i : Nat) : Bool :=
      if !(w.f F.EF_LUTB_INEN l).testBit i then false
      else
        let src := w.f F.EF_CH_SRC (w.f F.EF_LUTA_IN (4 * l + i))
        if within 0x148 0x177 src then
          (if w.fb F.EF_LUTB_PULSE (src - 0x148) then w.lutAt hi n (src - 0x148) != w.lutAt none n (src - 0x148)
           else w.lutAt hi n (src - 0x148))
        else w.srcNow hi src
    (w.f F.EF_LUTB_TT l).testBit (8 * b2n (lvl 3) + 4 * b2n (lvl 2) + 2 * b2n (lvl 1) + b2n (lvl 0))

/-- The present output of LUT cell `l`, looking through at most `n` cells. -/
def World.lutOut (w : World) (n l : Nat) : Bool := w.lutAt none n l

/-- The level of channel `c` while source `hi` pulses; of a cell with PULSE, its output. -/
def World.chAt (w : World) (hi : Option Nat) (c : Nat) : Bool :=
  let src := w.f F.EF_CH_SRC c
  if within 0x148 0x177 src then w.lutAt hi 48 (src - 0x148) else w.srcNow hi src

/-- The present level of channel `c`; a pulse is over at once. -/
def World.chLevel (w : World) (c : Nat) : Bool :=
  let src := w.f F.EF_CH_SRC c
  w.chAt none c && !(within 0x148 0x177 src && w.fb F.EF_LUTB_PULSE (src - 0x148))

/-! ### Channels at the interrupt controller (R386) -/

/-- Channels whose source is set. -/
def World.chSet (w : World) : List Nat := (w.regs.filter fun e => keyId e.1 == F.EF_CH_SRC.id).map fun e => keyInst e.1

/-- The interrupt sources EF[c] that see a rising edge when source `src` pulses: their channels' levels differ during the pulse.  CXA
that is off drops them. -/
def World.efEdges (w : World) (src : Nat) : List Nat :=
  if w.on 12 then (w.chSet.filter fun c => decide (c < 224) && (w.chAt (some src) c != w.chAt none c)).map (0x100 + ·) else []

/-- A pulse of an event-fabric source, which leaves on its channels (R385, R386). -/
def World.pulse (w : World) (src : Nat) : World :=
  { w.emit (.pulse src) with irqEdge := w.irqEdge ++ (w.efEdges src).filter fun s => !w.irqEdge.contains s }

/-- The interrupt controller samples the level of channel EF[c]: a rise since the sample before is an edge. -/
def World.efSample (w : World) (s : Nat) : World :=
  if within 0x100 0x1DF s then
    let l := w.chAt none (s - 0x100)
    let seen := w.efSeen.contains s
    if l && !seen then { w with irqEdge := if w.irqEdge.contains s then w.irqEdge else w.irqEdge ++ [s], efSeen := w.efSeen ++ [s] }
    else if !l && seen then { w with efSeen := w.efSeen.filter fun x => x != s }
    else w
  else w

/-! ### Loops of LUT cells (R389) -/

/-- LUT cells that cell `l` reads through enabled inputs. -/
def World.lutReads (w : World) (l : Nat) : List Nat :=
  (idxs 4 fun i => (w.f F.EF_LUTB_INEN l).testBit i).filterMap fun i =>
    let src := w.f F.EF_CH_SRC (w.f F.EF_LUTA_IN (4 * l + i))
    if within 0x148 0x177 src then some (src - 0x148) else none

/-- The cells that the cells of `l` reach, themselves included, in `n` steps. -/
def World.lutReach (w : World) : Nat → List Nat → List Nat
  | 0, l => l
  | n + 1, l => w.lutReach n ((l ++ l.flatMap w.lutReads).eraseDups)

/-- Cell `l` reaches itself. -/
def World.lutLoop (w : World) (l : Nat) : Bool := (w.lutReach 48 (w.lutReads l)).contains l

/-- The lowest enabled input channel of cell `l` that leads back to it. -/
def World.loopCh (w : World) (l : Nat) : Nat :=
  (((idxs 4 fun i => (w.f F.EF_LUTB_INEN l).testBit i).map fun i => w.f F.EF_LUTA_IN (4 * l + i)).filter fun c =>
    let src := w.f F.EF_CH_SRC c
    within 0x148 0x177 src && (w.lutReach 48 [src - 0x148]).contains l).min?.getD 0

/-! ### Block inputs (R387) -/

/-- An event reaches a block input at `t`: it acts at the end of its 2 ns holdoff, unless it merges into one that is
running. -/
def World.input (w : World) (key t : Nat) (merged act : World → World) : World :=
  let last := mget 0 w.inputs key
  if last ≠ 0 ∧ t + 1 < last + 256 then merged w
  else act { w with inputs := mset 0 w.inputs key (t + 1) }

end Sys2Proof.Machine
end

