-- ==== Sys2Proof/Machine/Intent.lean ====
section
/-! DEFINITION. Load intent: the forecast table, lead, profiles, reservations, confirmation, rollback and outcomes
(R107 to R136). -/

namespace Sys2Proof.Machine

/-! ### The table -/

/-- Age of a FSEQ on its rail: elders have the smaller age, those whose outcome has left too (R109, R121, R122). -/
def World.age (w : World) (r fseq : Nat) : Nat := (fseq + 98304 - (w.intent r).relSeq % 65536) % 65536

/-- Table indexes of the rail's in-flight forecasts, eldest first. -/
def World.inFlight (w : World) (r : Nat) : List Nat :=
  (idxs 128 fun i => (w.fc i).st != .free && (w.fc i).rail == r).foldl
    (fun l i => insertBy (fun j => w.age r (w.fc j).fseq) i l) []

/-- In-flight forecasts of the rail in one of the states `l`. -/
def World.inFc (w : World) (r : Nat) (l : List FSt) : List Nat :=
  (w.inFlight r).filter fun i => l.contains (w.fc i).st

/-- Active forecasts: from run-ahead start until FREE (R118). -/
def World.active (w : World) (r : Nat) : List Nat := w.inFc r [.run, .matched, .committed, .rolling]

/-- INFLIGHT and OCC as shown (R137). -/
def World.showFlight (w : World) (r : Nat) : World :=
  (w.sf F.FC_RSTAT_INFLIGHT r (w.inFlight r).length).sf F.FC_OCC_COUNT 0
    ((List.range 128).countP fun i => (w.fc i).st != .free)

/-! ### Profiles (R108, R118) -/

/-- End of the rise, of the dwell and of the fall, ticks; HOLD never ends its dwell. -/
def Fc.hold (f : Fc) : Bool := f.dwell == 0xFFFF
def Fc.t0 (f : Fc) : Int := (f.start * 128 : Nat)
def Fc.t1 (f : Fc) : Int := f.t0 + (f.rise * 128 : Nat)
def Fc.t2 (f : Fc) : Int := f.t1 + (f.dwell * 2048 : Nat)
def Fc.t3 (f : Fc) : Int := f.t2 + (f.fall * 128 : Nat)

/-- The load profile at `t`, 1/1024 A, for a step of `stp` sixteenths of an ampere (R108). -/
def Fc.load (f : Fc) (stp t : Int) : Int :=
  if t < f.t0 then 0
  else if t < f.t1 then rdiv (64 * stp * (t - f.t0)) (f.t1 - f.t0)
  else if f.hold || t < f.t2 then 64 * stp
  else if t < f.t3 then rdiv (64 * stp * (f.t3 - t)) (f.t3 - f.t2)
  else 0

/-- The slope of the profile at `t`, in 2^-20 of a 1/1024 A per tick. -/
def Fc.slope (f : Fc) (t : Int) : Int :=
  if t < f.t0 then 0
  else if t < f.t1 then rdiv (64 * f.step * 2 ^ 20) (f.t1 - f.t0)
  else if f.hold || t < f.t2 then 0
  else if t < f.t3 then - rdiv (64 * f.step * 2 ^ 20) (f.t3 - f.t2)
  else 0

/-- The profile copied to the engine's intent slot at the run-ahead start (R25). -/
def World.slot (w : World) (r i : Nat) : Fc := mget {} (w.intent r).slots i

/-- The contribution at `t` of the profile in slot `i` of the engine (R25, R118). -/
def World.contrib (w : World) (r i : Nat) (t : Int) : Int :=
  let f := w.slot r i
  if (w.fc i).st == .committed then f.load f.step (t + f.advEff)
  else rdiv ((f.conf + 1 : Nat) * f.load f.gstep (t + f.advEff)) 256

/-- Sum of the uncommitted contributions, limited to ±XMAX (R118). -/
def World.uncommitted (w : World) (r : Nat) (t : Int) : Int :=
  let x : Int := 64 * (w.f F.FC_RAILC_XMAX r : Int)
  clampI (-x) x (((w.inFc r [.run, .matched]).map fun i => w.contrib r i t).sum)

/-- The IPROF port (R118, R124). -/
def World.iprof (w : World) (r : Nat) (t : Int) : Int :=
  if (w.active r).isEmpty then 0
  else (w.intent r).ibase + w.uncommitted r t
    + ((w.inFc r [.committed]).map fun i => w.contrib r i t).sum + (w.intent r).ramp

/-! ### Outcomes (R134 to R136) -/

def Reason.code : Reason → Nat
  | .none => 0 | .mismatch => 1 | .cancel => 2 | .elder => 3 | .prot => 4 | .budget => 5
  | .railOff => 6 | .restart => 7 | .notAccepted => 8

/-- MISMATCH and CANCEL give ROLLED_BACK, every other reason ABORTED (R135). -/
def Reason.outcome : Reason → Nat
  | .mismatch | .cancel => 2
  | _ => 3

/-- The 32 payload bytes of an OUTCOME record (R134). -/
def Outcome.bytes (o : Outcome) : List Nat :=
  leBytes 2 o.fid ++ leBytes 2 o.fseq ++ [o.rail,
    o.out + 16 * b2n o.ra + 32 * b2n o.late + 64 * b2n o.capped + 128 * o.src, o.reason, o.srcidx]
  ++ leBytes 8 o.tDecide ++ leBytes 8 o.tDone ++ [o.nneed, 0] ++ leBytes 2 o.devmax ++ leBytes 2 (unI 16 o.gstep) ++ [0, 0]

/-- Template statistics at the queueing of a hint forecast's outcome (R136). -/
def World.tstat (w : World) (o : Outcome) : World :=
  if o.src = 1 then
    if o.out = 1 ∨ o.out = 4 then w.incSat F.FC_TSTAT_HIT_HIT o.srcidx
    else if o.out = 5 ∨ (o.out = 2 ∧ o.reason = 1) then w.incSat F.FC_TSTAT_MISS_MISS o.srcidx
    else w.incSat F.FC_TSTAT_ABORT_ABORT o.srcidx
  else w

/-- The next outcome in FSEQ order leaves the rail's queue, if it is there (R134). -/
def World.releaseOne (w : World) (r : Nat) : World :=
  let t := w.intent r
  match t.outq.find? fun o => o.fseq == t.relSeq % 65536 with
  | none => w
  | some o =>
    let w := w.setIntent r { t with outq := t.outq.filter (fun x => x.fseq != o.fseq), relSeq := (t.relSeq + 1) % 65536 }
    (w.sf F.FC_RSTAT_LASTOUT r o.out).record 2 r o.bytes

/-- An outcome is queued; with no elder outstanding it leaves at once (R134). -/
def World.queueOutcome (w : World) (o : Outcome) : World :=
  let w := w.tstat o
  let t := w.intent o.rail
  (w.setIntent o.rail { t with outq := t.outq ++ [o] }).when (o.fseq == t.relSeq % 65536) fun w => w.releaseOne o.rail

/-- The outcome record of a forecast that ends now with code `out`. -/
def Fc.outcome (f : Fc) (out reason tDone : Nat) : Outcome :=
  { fid := f.fid, fseq := f.fseq, rail := f.rail, out := out, ra := f.ra, late := f.late, capped := f.capped, src := f.src,
    reason := reason, srcidx := f.srcidx, tDecide := f.tDecide, tDone := tDone, nneed := f.nneed,
    devmax := if f.ra || f.st == .passive && decide (4 ≤ out) then f.devmax else 0, gstep := f.gstep }

/-- A boost request's end time is set when its forecast ends (R132). -/
def World.endBoost (w : World) (i : Nat) : World :=
  { w with boosts := w.boosts.map fun b =>
      if b.fc = some i then { b with fc := none, ends := some (w.tb + (w.fc i).pchold * 1000) } else b }

/-- The entry returns to FREE: its reservation and charge leave, its boost starts its hold (R120, R132, R264). -/
def World.freeFc (w : World) (i : Nat) : World :=
  let f := w.fc i
  let w := w.endBoost i
  let t := w.intent f.rail
  let w := w.setIntent f.rail { t with slots := mset {} t.slots i {} }
  (w.setFc i { f with st := .free, held := 0, charge := 0, cancel := false, decision := none, acc := false, tko := false
                      held1 := false }).showFlight f.rail

/-- The entry ends now with a reason and its outcome (R121). -/
def World.endFc (w : World) (i : Nat) (why : Reason) : World :=
  let f := w.fc i
  let w := w.setFc i { f with tDecide := w.tb, why := why }
  let f := w.fc i
  (w.freeFc i).queueOutcome (f.outcome why.outcome why.code w.tb)

/-! ### Rollback (R124) -/

/-- The checkpoint of entry `i`. -/
def Itn.ckpt (t : Itn) (i : Nat) : Option Ckpt := t.stack.find? fun c => c.idx == i

/-- Entries of `l` enter ROLLING: reservations are released, reasons decided (R120, R124). -/
def World.toRolling (w : World) (l : List Nat) (f : Nat) (why rest : Reason) : World :=
  l.foldl (fun w g => w.setFc g { w.fc g with
    st := .rolling, why := if g = f then why else rest, held := 0, decision := none, acc := false, tko := false, cancel := false
    tDecide := if g = f ∧ (w.fc g).decision.isSome then (w.fc g).tDecide else w.tb }) w

/-- `start_rollback` of R124: `rest` is the reason of the younger forecasts. -/
def World.startRollback (w : World) (r i : Nat) (why rest : Reason) : World :=
  let t := w.intent r
  let a := w.age r (w.fc i).fseq
  let l := (w.inFc r [.run, .matched]).filter fun g => decide (a ≤ w.age r (w.fc g).fseq)
  let now : Int := w.clk.tbq
  let before := w.uncommitted r now
  let w := w.toRolling l i why rest
  let after := w.uncommitted r now
  let join := match t.blending, t.target, t.ckpt i with
    | true, some c, some d => decide (w.age r c.fseq < w.age r d.fseq)
    | _, _, _ => false
  let t := if join then t else { t with target := t.ckpt i, k := 0, blending := true }
  w.setIntent r { t with ramp := t.ramp + (before - after) }

/-- The restore completes: N_req takes the checkpointed count, the stack is popped, ROLLING entries end in FSEQ order. -/
def World.finishRollback (w : World) (r : Nat) : World :=
  let t := w.intent r
  match t.target with
  | none => w
  | some c =>
    let w := w.setIntent r { t with target := none, blending := false, stack := (t.stack.dropWhile fun d => d.idx != c.idx).drop 1 }
    let w := w.sf F.LE_STAT_CKDEPTH r (w.intent r).stack.length
    let w := w.setNreq r c.nph
    (w.inFc r [.rolling]).foldl (fun w g =>
      let f := w.fc g
      (w.freeFc g).queueOutcome (f.outcome f.why.outcome f.why.code w.tb)) w

/-- The largest ramp change of one update, 1/1024 A (R124). -/
def World.rampStep (w : World) (r : Nat) : Int :=
  rdiv (1024 * w.f F.FC_RAILC_RBSLEW r * w.f F.LE_STAT_ROUNDS_NOW r * 5 : Nat) 2000

/-- `rollback_step` of R124 ahead of the program.  The answer is the blend that BLND is to make in this update: `k` and
the target. -/
def World.rollbackStep (w : World) (r : Nat) : World × Option (Nat × Ckpt) :=
  let t := w.intent r
  let k := if t.blending then t.k + 1 else t.k
  let bl := if t.blending then t.target.map fun c => (k, c) else none
  let s := w.rampStep r
  let ramp := if t.ramp < 0 then t.ramp + min s (-t.ramp) else t.ramp - min s t.ramp
  let t := { t with k := k, ramp := ramp, blending := t.blending && decide (k < 8) }
  let w := w.setIntent r t
  (w.when (t.target.isSome && !t.blending && t.ramp == 0) fun w => w.finishRollback r, bl)

/-- In role ACTIVE with the partner present, decisions wait for the BLY transmitter (R131, R249). -/
def World.paired (w : World) : Bool := w.f F.BL_STAT_ROLE 0 == 1 && w.f F.BL_STAT_PARTNER 0 == 1

/-- A trip, a disable or a stop ends the rail's forecasts; the partner is told of each that enters ROLLING (R129, R130, R131).
DEDUCED (log 90): such a decision acts at once, as R129's figure asks. -/
def World.endForecasts (w : World) (r : Nat) (why : Reason) : World :=
  let w := w.when w.paired fun w => (w.inFc r [.run, .matched]).foldl (fun w i => w.send (.decision i false why)) w
  let w := match w.inFc r [.run, .matched] with
    | [] => w
    | i :: _ => w.startRollback r i why why
  let w := (w.inFc r [.committed]).foldl (fun w i => w.freeFc i) w
  (w.inFc r [.wait, .passive]).foldl (fun w i =>
    let f := w.fc i
    let w := w.setFc i { f with st := .wait, ra := false }
    w.endFc i why) w

/-- A checkpointed item set restored into the engine (R95, R183). -/
def Eng.restore (e : Eng) (c : Ckpt) : Eng :=
  { e with i := c.i, eh0 := c.eh0, eh1 := c.eh1, eh2 := c.eh2, fh0 := c.fh0, fh1 := c.fh1, ref := c.ref, isumf := c.isumf }

/-- One item of a blend step: `k` counts 1 to 8 (R124). -/
def blendItem (k : Nat) (x t : Int) : Int := x + rdiv (t - x) ((9 : Int) - k)

/-- BLND (R124). -/
def Eng.blend (e : Eng) (k : Nat) (c : Ckpt) : Eng :=
  { e with i := blendItem k e.i c.i, eh0 := blendItem k e.eh0 c.eh0, eh1 := blendItem k e.eh1 c.eh1,
           eh2 := blendItem k e.eh2 c.eh2, fh0 := blendItem k e.fh0 c.fh0, fh1 := blendItem k e.fh1 c.fh1,
           ref := blendItem k e.ref c.ref, isumf := blendItem k e.isumf c.isumf }

/-- A rail that stops with a rollback in progress completes it at that instant (R183). -/
def World.stopRollback (w : World) (r : Nat) : World :=
  let t := w.intent r
  match t.target with
  | none => w.setIntent r { t with ramp := 0, blending := false, stack := [] }
  | some c =>
    let w := (w.setEngine r ((w.engine r).restore c)).sf F.LE_REFNOW_CODE r (c.ref / 256).toNat
    let w := (w.sf F.LE_STAT_BAND r c.band).sf F.LE_STAT_BLEND r 0
    let w := w.setIntent r { t with ramp := 0, blending := false }
    let w := w.finishRollback r
    (w.setIntent r { w.intent r with stack := [] }).sf F.LE_STAT_CKDEPTH r 0

/-! ### Acceptance (R109, R110, R117) -/

/-- An intent form: VM3-F or CM-LL-F in force (R88). -/
def World.intentForm (w : World) (r : Nat) : Bool :=
  w.lf F.LE_FORM_FORM r == 4 || w.lf F.LE_FORM_FORM r == 5

/-- The update interval in force, ticks. -/
def World.tu (w : World) (r : Nat) : Nat := w.f F.LE_STAT_ROUNDS_NOW r * 320

/-- N_need, ADV_eff and LEAD of a forecast, in phases and ticks (R117).  DESIGN CHOICE (log 91): T_PRE, a quotient that the
manual does not round, is rounded up to a tick. -/
def World.lead (w : World) (r : Nat) (f : Fc) : Nat × Nat × Nat :=
  let sph := w.f F.FC_RAILA_SPH r
  let nmax := w.f F.FC_RAILA_NMAX r
  let iph := w.f F.FC_RAILB_IPHMAX r
  let inow := ((w.engine r).iest0).getD 0
  let nnow := w.nreq r
  let top := if 0 ≤ f.step then inow + 64 * f.step else inow
  let mid := cdiv top.toNat (64 * iph)
  let tr := f.rise + f.adv
  let last := if f.step = 0 then 0 else if tr = 0 then nmax else cdiv (f.step.natAbs * 1000) (sph * tr)
  let nneed := min nmax (max nnow (max mid last))
  let tpre := cdiv (f.step.natAbs * 128000) (nneed * sph)
  let adv := max (f.adv * 128) (tpre - f.rise * 128)
  let tcp := if r < 12 then 40 * 128 else 400 * 128
  let raw := tcp + adv + (if nnow < nneed then w.f F.FC_RAILB_TPHADD r * 128 else 0)
  (nneed, adv, cdiv raw (w.tu r) * w.tu r)

/-- The range checks of R107, with the byte offset of the lowest failing field (R234). -/
def fcBad (p : FcParam) : Option Nat :=
  if 1023 < p.adv then some 24
  else if p.cwin < 40 ∨ 2000 < p.cwin then some 26
  else if 1023 < p.pclead then some 34
  else none

/-- The lowest FREE index (R109). -/
def World.freeIdx (w : World) : Option Nat := (List.range 128).find? fun i => (w.fc i).st == .free

/-- The FID of the next use of an index: its generation rises by one at each reuse (R109). -/
def Fc.nextFid (f : Fc) (i : Nat) : Nat :=
  if !f.used then i
  else
    let g := f.fid / 128 + 1
    let g := if g = 512 ∨ (i = 127 ∧ g = 511) then 0 else g
    g * 128 + i

/-- The entry a forecast's fields make. -/
def fcEntry (p : FcParam) (r : Nat) : Fc :=
  { rail := r, start := p.start, step := sx 16 p.step, rise := p.rise, dwell := p.dwell, fall := p.fall, adv := p.adv,
    conf := p.conf, cwin := p.cwin, toli := p.toli, told := p.told, pcen := bitOf p.pc 0, pcch := bitsOf p.pc 1 2,
    pclvl := bitsOf p.pc 4 4, pclead := p.pclead, pchold := p.pchold }

/-- The checks of R110 after the rail's existence and state, in order: the failing status and XSTAT. -/
def World.fcCheck (w : World) (r : Nat) (p : FcParam) : Option (Nat × Nat) :=
  let f := fcEntry p r
  let (_, _, lead) := w.lead r f
  match fcBad p with
  | some x => some (0x10, x)
  | none =>
    if w.f F.FC_RAILA_SPH r = 0 ∨ w.f F.FC_RAILA_NMAX r = 0 ∨ w.f F.FC_RAILB_IPHMAX r = 0 then some (0x10, 0)
    else if w.freeIdx.isNone ∨ 8 ≤ (w.inFlight r).length then some (0x11, 0)
    else if w.tb + 2 ^ 32 < p.start then some (0x10, 8)
    else if (p.start + p.cwin) * 128 ≤ w.clk.tbq + lead then some (0x12, 0)
    else if 20000 * 128 < lead then some (0x13, 0)
    else none

/-- A forecast is accepted at the lowest FREE index (R109, R116, R121).  DESIGN CHOICE (log 92): until the ledger's answer is
taken, GSTEP is STEP, and the outcome of a forecast never granted reports that. -/
def World.fcAccept (w : World) (r : Nat) (p : FcParam) (src srcidx fseq : Nat) : World × Nat :=
  match w.freeIdx with
  | none => (w, 0xFFFF)
  | some i =>
    let f := fcEntry p r
    let (nneed, adv, lead) := w.lead r f
    let fid := (w.fc i).nextFid i
    let st := if w.intentForm r then FSt.wait else FSt.passive
    ((w.setFc i { f with st := st, used := true, fid := fid, fseq := fseq, src := src, srcidx := srcidx, nneed := nneed,
                         advEff := adv, lead := lead, gstep := f.step }).showFlight r, fid)

/-- The rail's next FSEQ is drawn (R109). -/
def World.drawFseq (w : World) (r : Nat) : World × Nat := (w.inc F.FC_RSTAT_FSEQ r, w.f F.FC_RSTAT_FSEQ r)

/-- The outcome of a FSEQ whose forecast never entered the table (R111, R250). -/
def World.voidOutcome (w : World) (r fseq srcidx : Nat) (why : Reason) : World :=
  w.queueOutcome { fid := 0xFFFF, fseq := fseq, rail := r, out := 3, ra := false, late := false, capped := false, src := 0,
                   reason := why.code, srcidx := srcidx, tDecide := w.tb, tDone := w.tb, nneed := 0, devmax := 0, gstep := 0 }

/-! ### The table at an update boundary (R116, R119, R121, R122) -/

/-- A forecast commits: its checkpoint goes, its reservation becomes a charge, COMMITTED is queued (R121, R123, R264). -/
def World.commitFc (w : World) (i : Nat) : World :=
  let f := w.fc i
  let t := w.intent f.rail
  let w := w.setIntent f.rail { t with stack := t.stack.filter fun c => c.idx != i }
  let w := w.sf F.LE_STAT_CKDEPTH f.rail (w.intent f.rail).stack.length
  let w := w.setFc i { f with st := .committed, charge := f.held, held := 0, decision := none, acc := false, tko := false
                              tDecide := if f.decision.isSome then f.tDecide else w.tb }
  w.queueOutcome ((w.fc i).outcome 1 0 w.tb)

/-- A commit (true) or rollback is decided; paired, it waits for its message's acceptance (R131). -/
def World.decideFc (w : World) (i : Nat) (commit : Bool) (why : Reason) : World :=
  let f := w.fc i
  if w.paired then
    (w.setFc i { f with decision := some commit, acc := false, why := why, tDecide := w.tb }).send (.decision i commit why)
  else if commit then w.commitFc i
  else w.startRollback f.rail i why .elder

/-- Every elder of `i` is in one of the states `l`. -/
def World.eldersIn (w : World) (i : Nat) (l : List FSt) : Bool :=
  let f := w.fc i
  (w.inFlight f.rail).all fun j =>
    !(decide (w.age f.rail (w.fc j).fseq < w.age f.rail f.fseq)) || l.contains (w.fc j).st

/-- The conditions of R122 at the boundary: level within TOLI and slope within TOLD. -/
def World.confirmed (w : World) (i : Nat) (iest iest2 : Int) : Bool :=
  let f := w.fc i
  let t : Int := w.clk.tbq
  let elders := (w.active f.rail).filter fun j => decide (w.age f.rail (w.fc j).fseq < w.age f.rail f.fseq)
  let i0 := f.i0.getD iest
  let e := f.load f.step t
    + (elders.map fun j => (w.fc j).load (w.fc j).step t - (w.fc j).load (w.fc j).step f.tRun).sum
  let e' := f.slope t + (elders.map fun j => (w.fc j).slope t).sum
  let x := iest - i0
  let sl := rdiv ((iest - iest2) * 2 ^ 20) (2 * w.tu f.rail : Nat)
  decide ((x - e).natAbs ≤ 64 * f.toli) && decide ((sl - e').natAbs * 128000 ≤ f.told * 2 ^ 30)

/-- One entry's confirmation and window at a boundary (R121, R122); after a takeover past its window, the mirrored match count
alone decides (R131). -/
def World.confirmStep (w : World) (i : Nat) (iest iest2 : Int) : World :=
  let f := w.fc i
  let t : Int := w.clk.tbq
  let inW := decide (f.t0 ≤ t) && decide (t < f.t0 + (f.cwin * 128 : Nat))
  let past := decide (f.t0 + (f.cwin * 128 : Nat) ≤ t)
  let ok := w.confirmed i iest iest2
  let met := (inW || past) && (ok || f.tko) && f.held1
  let w := w.setFc i { f with held1 := inW && ok }
  if f.decision.isSome then w
  else if f.st == .passive then
    if met || past then
      let w := w.setFc i { w.fc i with tDecide := w.tb }
      let o := (w.fc i).outcome (if met then 4 else 5) 0 w.tb
      (w.freeFc i).queueOutcome o
    else w
  else if met then
    if w.eldersIn i [.committed] then w.decideFc i true .none else w.setFc i { w.fc i with st := .matched }
  else if past then w.decideFc i false .mismatch
  else w

/-- A decision whose message has been accepted acts (R131). -/
def World.actDecided (w : World) (i : Nat) : World :=
  let f := w.fc i
  if !f.acc then w
  else if f.decision = some true then w.commitFc i
  else w.startRollback f.rail i f.why .elder

/-- One entry at an update boundary whose |e_eff| is `d`: accepted decisions, cancels, ledger answers, confirmation, commit
behind elders, profile end (R119, R121, R131).  DESIGN CHOICE (log 93): the rise of a committed HOLD forecast ends when
L(t + ADV_eff) has completed it. -/
def World.fcStep (w : World) (i : Nat) (iest iest2 : Int) (d : Nat) : World :=
  let f := w.fc i
  let t : Int := w.clk.tbq
  match f.st with
  | .free | .rolling => w
  | .wait =>
    if f.cancel then w.endFc i .cancel
    else if f.res == .refused || f.res == .withdrawn then w.endFc i .budget
    else if f.res == .granted then w.setFc i { f with gstep := f.grant, capped := f.grant != f.step }
    else w
  | .passive =>
    if f.cancel then w.endFc i .cancel
    else
      let w := if f.i0.isNone || decide (t ≤ f.t0 - (f.adv * 128 : Nat)) then w.setFc i { f with i0 := some iest, devmax := d }
        else w
      w.confirmStep i iest iest2
  | .run =>
    if f.decision.isSome then w.actDecided i
    else if f.cancel then w.decideFc i false .cancel
    else if f.res == .withdrawn then w.decideFc i false .budget
    else w.confirmStep i iest iest2
  | .matched =>
    if f.decision.isSome then w.actDecided i
    else if f.cancel then w.decideFc i false .cancel
    else if f.res == .withdrawn then w.decideFc i false .budget
    else if w.eldersIn i [.committed] then w.decideFc i true .none
    else w
  | .committed =>
    let fin := if f.hold then f.t1 else f.t3
    if fin ≤ t + f.advEff then
      let others := decide (1 < (w.active f.rail).length)
      let c := w.contrib f.rail i t
      let tn := w.intent f.rail
      let w := if others && f.hold then w.setIntent f.rail { tn with ibase := tn.ibase + c } else w
      w.freeFc i
    else w

/-- Base tick of t_ra: START − LEAD rounded down to an update boundary (R117). -/
def World.raStart (w : World) (f : Fc) : Int :=
  let x : Int := f.t0 - f.lead - w.clk.tbq + w.clk.tk
  x - x % (w.tu f.rail : Nat)

/-- A WAIT forecast that may enter RUN at this boundary (R121). -/
def World.mayRun (w : World) (i : Nat) : Bool :=
  let f := w.fc i
  let tn := w.intent f.rail
  f.st == .wait && f.res == .granted && w.eldersIn i [.run, .matched, .committed, .rolling, .passive]
  && tn.target.isNone && !tn.blending && tn.ramp == 0
  && decide (w.raStart f ≤ w.clk.tk)

/-- A forecast enters RUN at a boundary whose |e_eff| is `d`: its profile is copied to the engine, PHSET is asked for N_need, the
base current is taken when it is the first, LATE is judged (R25, R118, R121, R122).  The checkpoint itself is CKPT's. -/
def World.enterRun (w : World) (i : Nat) (isum iest : Int) (d : Nat) : World :=
  let f := w.fc i
  let tn := w.intent f.rail
  let first := (w.active f.rail).isEmpty
  let w := w.setIntent f.rail { tn with phset := some f.nneed, ibase := if first then isum else tn.ibase
                                        slots := mset {} tn.slots i f }
  let w := w.setFc i { f with st := .run, ra := true, tRun := w.clk.tbq, i0 := some iest, held1 := false, devmax := d,
                              late := decide (w.raStart f < w.clk.tk) }
  w.pulse (0x0C8 + f.rail)

/-- |e_eff| as DEVMAX holds it. -/
def devOf (e : Int) : Nat := satU 16 (e.natAbs / 256)

/-- DEVMAX follows |e_eff| (R134). -/
def World.devStep (w : World) (r d : Nat) : World :=
  (w.inFlight r).foldl (fun w i =>
    let f := w.fc i
    if f.ra || f.st == .passive then w.setFc i { f with devmax := max f.devmax d } else w) w

end Sys2Proof.Machine
end

