-- ==== Sys2Proof/Machine/Rail.lean ====
section
/-! DEFINITION. Completion of commands, rail start and stop, protection trips, fault shutdown, clearing
(R162, R169 to R195, R205 to R209, R232, R236, R240, R241). -/

namespace Sys2Proof.Machine

/-! ### Statuses (R239) -/

/-- Base Camp codes of the statuses of R239. -/
abbrev stOk : Nat := 0x00
abbrev stInvalidRail : Nat := 0x01
abbrev stRefused : Nat := 0x02
abbrev stRailFaulted : Nat := 0x03
abbrev stUncertain : Nat := 0x04
abbrev stParam : Nat := 0x05
abbrev stAborted : Nat := 0x06
abbrev stUpdate : Nat := 0x07
abbrev stXfer : Nat := 0x08

/-! ### Completion (R205, R209, R220) -/

/-- A write-back takes its entry in the posted-write buffer, with its ring's message behind it. -/
def World.enterWB (w : World) (n : Nat) (s : Slot) (b : WB) : World :=
  (w.put (.wb n s.slot b s.irq)).signal n s.irq

/-- Write-backs enter in slot order up to the first descriptor that has not completed (R209). -/
def World.flushSlots (w : World) (n : Nat) : List Slot → World
  | [] => w.setRing n { w.ring n with slots := [] }
  | s :: l =>
    match s.done, s.held with
    | some b, false => (w.enterWB n s b).flushSlots n l
    | _, _ => w.setRing n { w.ring n with slots := s :: l }

def World.flushRing (w : World) (n : Nat) : World := w.flushSlots n (w.ring n).slots

/-- Effects of a bus command's completion on its bus (R448, R451, R454, R464). -/
def World.busCompletion (w : World) (c : Cmd) (bus status xstat : Nat) : World :=
  let w := w.sf F.SI_CMDLAST_STATUS 0 status
  let w := w.sf F.SI_CMDLAST_XSTAT 0 xstat
  let w := w.sf F.SI_CMDLAST_RAIL 0 c.rail
  let w := w.sf F.SI_CMDLAST_BUS 0 bus
  (w.sf F.SI_CMDLAST_NEW 0 1).emit (.busDone c.src status xstat)

/-- Addresses of AVS port `k` mapped to rail `r` (R453). -/
def World.avsOf (w : World) (k r : Nat) : List Nat :=
  idxs 4 fun a => bitsOf (w.f F.SI_AVSMAP_MAP k) (6 * a) 6 == 32 + r

/-- StatusAlert of rail `r` on port `k` (R454). -/
def World.avsAlert (w : World) (k r : Nat) : World :=
  (w.avsOf k r).foldl (fun w a => w.orBit F.SI_AVSSTAT_ALERT k a) w

/-- Bit `b` of rail `r`'s STATUS_CML. -/
def World.setCml (w : World) (r b : Nat) : World :=
  { w with pmb := { w.pmb with cml := mupd 0 w.pmb.cml r fun x => x ||| 2 ^ b } }

/-- A command completes: its status, XSTAT and RESULT reach the ring or bus that it came from (R205, R231). -/
def World.complete (w : World) (c : Cmd) (status xstat result : Nat) : World :=
  match c.src with
  | .gone => w
  | .ring n slot irq =>
    let b : WB := { stamp := c.stamp, tDone := w.tb, status := status, xstat := xstat, result := result }
    if (w.ring n).slots.any fun s => s.slot == slot && s.done.isNone then
      (w.setRing n { w.ring n with slots := (w.ring n).slots.map fun s =>
        if s.slot = slot ∧ s.done = none then { s with done := some b } else s }).flushRing n
    else w.enterWB n { slot := slot, irq := irq, wait := false } b
  | .pmbus =>
    let w := w.busCompletion c 0 status xstat
    if status = stOk then w else w.setCml c.rail 1
  | .avs k =>
    let w := w.busCompletion c (k + 1) status xstat
    if status = stOk then w else w.avsAlert k c.rail
  | .firmware => if status = stOk then w else w.sf F.PROT_ERR_CLRREF (grpR c.rail) 1

/-- The waiting commands that `p` picks complete with a status and XSTAT (R232). -/
def World.completeWaits (w : World) (p : Waiting → Bool) (status xstat : Nat) (result : Nat := 0) : World :=
  let l := w.cmd.waits.filter p
  let w := { w with cmd := { w.cmd with waits := w.cmd.waits.filter fun x => !p x } }
  l.foldl (fun w x => w.complete x.cmd status xstat result) w

/-- The stamps of a command that took effect show as their rails' last (R254). -/
def World.tookEffect (w : World) (c : Cmd) : World :=
  c.rails.foldl (fun w e => w.sf F.LE_RLAST_LAST e.1 e.2) w

/-- A stamped command completes without taking effect: a FORECAST's FSEQ gets its outcome (R111, R248). -/
def World.settleVoid (w : World) (c : Cmd) (status xstat result : Nat) (why : Reason) : World :=
  match c.op with
  | .forecast _ =>
    if c.rails.isEmpty then w.complete c status xstat result
    else
    let w := w.voidOutcome c.rail c.fseq (match c.src with | .ring n _ _ => n | _ => 0xFF) why
    w.complete c status xstat (if status = stUncertain then 0xFFFF else c.fseq)
  | _ => w.complete c status xstat result

/-- A waiting command concerns rail `r`. -/
def Waiting.names (x : Waiting) (r : Nat) : Bool :=
  x.cmd.rail == r || (x.cmd.rails.any fun e => e.1 == r) ||
  (match x.on with | .enFallen l => l.contains r | _ => false)

/-! ### Loop form in force -/

/-- CALIBRATE's saved form comes back at once on a rail that takes no more updates (R237, R241). -/
def World.dropCal (w : World) (r : Nat) : World :=
  match (w.rail r).calSaved with
  | none => w
  | some f =>
    let w := (w.slf F.LE_FORM_FORM r f).sf F.LE_CALCFG_EVERY r 0
    (w.slf F.LE_CALCFG_EVERY r 0).setRail r { w.rail r with calSaved := none, calAdopt := none }

/-- The firmware phase count of R159: the NPH item of every checkpoint takes it, and a boundary will set N_req. -/
def World.firmwareNph (w : World) (r n : Nat) : World :=
  let t := w.intent r
  w.setIntent r { t with stack := t.stack.map (fun c => { c with nph := n })
                         target := t.target.map (fun c => { c with nph := n }), fwReq := some n, fwLater := none }

/-! ### Start and stop (R162, R183, R236) -/

/-- The engine stops taking updates and every bound phase goes OFF; a rollback completes, forecasts that nothing has
ended end with RESTART; the PWM settings and bindings that wait for a boundary are adopted (R130, R155, R164, R182, R183). -/
def World.stopRunning (w : World) (r : Nat) : World :=
  let w := w.setRail r { w.rail r with running := false, engOn := false, stopDue := false, rampDown := false
                                       isumCnt := 0, eovCnt := 0, euvCnt := 0, dsatCnt := 0 }
  let w := (w.phasesOff r).sf F.LE_STAT_RUN r 0
  let w := w.sf F.PROT_VSTAT_ARMED (2 * r + 1) 0
  let w := w.when ((w.inFc r [.wait, .passive, .run, .matched, .committed]) != []) fun w => w.endForecasts r .restart
  let w := w.stopRollback r
  let w := w.sf F.LE_STAT_IACT r (b2n !(w.active r).isEmpty)
  let w := w.when (w.railSetPending r) fun w => w.railSetAdopt r
  ((w.bindPoint 0 (some r)).bindPoint 1 (some r)).regrid r

/-- RAIL_EN is high. -/
def World.railEn (w : World) (r : Nat) : Bool := w.fb F.PW_RSTAT_RAILEN r

/-- The disable step of R162: the rail stops, and RAIL_EN falls OFFDLY later. -/
def World.disableStep (w : World) (r : Nat) : World :=
  let w := w.dropCal r
  let w := w.stopRunning r
  w.setRail r { w.rail r with enFallDue := w.railEn r, disAt := w.clk.tbq }

/-- The PW islands of the rail and of every bound phase are released (R275). -/
def World.padsFree (w : World) (r : Nat) : Bool :=
  !(bitOf (w.f F.PM_PADHELD_HELD 0) (pwIslR r)) && (w.bound r).all fun p => !(bitOf (w.f F.PM_PADHELD_HELD 0) (pwIsl p))

/-- A rail starts as R236 steps 3 to 5 and R162 state: REF, the state, the converter and channels, RAIL_EN. -/
def World.startRail (w : World) (r : Nat) (ref : Int) (base : Bool) : World :=
  let e := w.engine r
  let w := w.setEngine r { e with ref := ref, isum1 := none, err1 := 0, iest0 := none, iest1 := none, stopped := false,
                                  calCount := 0, calFrom := none }
  let w := w.sf F.LE_REFNOW_CODE r (ref / 256).toNat
  let w := w.setRstate r (if base then rsBasecamp else rsStarting)
  let w := w.rscStart r
  let w := (w.bound r).foldl (fun w p => w.sf F.PCC_CFG_EN p 1) w
  let w := w.sf F.PW_RSTAT_RAILEN r (b2n (w.padsFree r))
  let w := ((w.setNreq r (w.f F.PW_NREQ_NREQ r)).regrid r).setIntent r { w.intent r with fwReq := none, fwLater := none }
  w.setRail r { w.rail r with enAt := w.clk.tbq, running := false, firstUpd := false, engOn := true, rampDown := false, enFallDue := false
                              stopDue := false, fromBase := base, hicWait := false }

/-! ### Records and stamps of a fault (R186, R187) -/

/-- Time Base of the fault, PROT_RFTS. -/
def World.rfts (w : World) (r : Nat) : Nat := w.f F.PROT_RFTS_LO_T_LO r + 2 ^ 32 * w.f F.PROT_RFTS_HI_T_HI r

/-- The 32 bytes of a fault record from the registers as they stand. -/
def World.faultBytes (w : World) (r kind first stamp : Nat) : List Nat :=
  [r, kind, first, (w.rail r).fresp + 128 * w.f F.PROT_RFLT_ESC r] ++ leBytes 2 (w.f F.PROT_RFLT_CAUSE r)
  ++ [w.f F.PROT_RFLT_RETRIES r, 0] ++ leBytes 8 (w.rfts r) ++ leBytes 2 stamp ++ [0, 0]
  ++ leBytes 4 (w.f F.PROT_RPH_LANES r) ++ leBytes 8 w.tb

/-- A stamped, unsettled command of rail `r`, with its stamp on the rail. -/
def Cmd.on (c : Cmd) (r : Nat) : Option Nat := (c.rails.find? fun e => e.1 == r).map (·.2)

/-- The fault stamp S: the lowest stamp of the rail's unsettled commands, else the next to be given (R187). -/
def World.faultStamp (w : World) (r : Nat) : Nat :=
  match w.cmd.queue.findSome? fun c => c.on r with
  | some s => s
  | none => w.f F.LE_RSEQ_NEXT r

/-- CAUSE takes sources; the PMBus status bits of those faults set with it (R185, R451). -/
def World.addCause (w : World) (r m : Nat) : World :=
  let w := w.sf F.PROT_RFLT_CAUSE r (w.f F.PROT_RFLT_CAUSE r ||| m)
  let bit (c : Nat) (x : Nat) : Nat := if m &&& c = 0 then x else x ||| 2 ^ r
  { w with pmb := { w.pmb with ov := bit 0x0084 w.pmb.ov, uv := bit 0x0108 w.pmb.uv
                               oc := bit 0x0053 w.pmb.oc, ot := bit 0x0400 w.pmb.ot } }

/-! ### Kills of a source (R169) -/

/-- The phases that a source's kill reaches and whether its level is mid; none for a source without a kill. -/
def World.killOf (w : World) (r src : Nat) (p : Option Nat) : List Nat × Bool :=
  match src with
  | 0 | 1 => match p with
    | some p => ([p], w.fb F.PROT_PCFG_KLVL p)
    | none => ([], false)
  | 4 | 5 => match p with
    | some p => ([p], true)
    | none => ([], true)
  | 2 | 7 => (w.bound r, w.fb F.PROT_RCFG_OVLVL r)
  | 3 | 8 | 9 => ([], true)
  | _ => (w.bound r, true)

def World.applyKill (w : World) (r src : Nat) (p : Option Nat) (auto : Bool) : World :=
  let (l, mid) := w.killOf r src p
  let w := if l.isEmpty then w else w.setRail r { w.rail r with killed := true }
  l.foldl (fun w p => w.kill p { src := src, mid := mid, auto := auto }) w

/-- The lane of a phase source enters PROT_RPH. -/
def World.addLane (w : World) (r : Nat) (p : Option Nat) : World :=
  match p with
  | some p => w.orBit F.PROT_RPH_LANES r (w.lf F.PW_BIND_LANE p)
  | none => w

/-! ### Fault and trip (R179 to R189) -/

/-- Lowest set bit index + 1 of a mask below 2^16. -/
def firstOf (m : Nat) : Nat := match (List.range 16).find? fun b => m.testBit b with
  | some b => b + 1
  | none => 0

/-- The faulted state of a response on a rail in state `s` (R184, R241). -/
def World.latches (w : World) (r resp : Nat) : Bool :=
  resp == 4 || w.rstate r == rsOff || w.rstate r == rsStopping
  || decide (w.f F.PROT_RCFG_HICMAX r ≤ w.f F.PROT_RFLT_RETRIES r)

/-- The registers of a HICCUP or LATCH response at t_d, and the gate: `lat` says which state, `first` and `s` are the fault's
first source and stamp (R182, R184, R186, R187). -/
def World.faultRegs (w : World) (r mask first s : Nat) (lat esc : Bool) : World :=
  let base := w.rstate r == rsBasecamp
  let w := w.when (w.enabled r) fun w => w.start .quiet
  let w := w.dropCal r
  let w := w.setRstate r (if lat then rsLatched else rsHiccup)
  let w := (w.sf F.PROT_RFLT_FIRST r first).sf F.PROT_RFLT_CAUSE r 0
  let w := (w.addCause r mask).sf F.PROT_RFLT_LATCHED r (b2n lat)
  let w := (w.sf F.PROT_RFLT_HICCUP r (b2n !lat)).sf F.PROT_RFLT_ESC r (b2n esc)
  let w := (w.sf F.PROT_RFTS_LO_T_LO r w.tb).sf F.PROT_RFTS_HI_T_HI r (w.tb / 2 ^ 32)
  let w := w.inc F.PROT_RCNT_FAULTS r
  let w := w.setRail r { w.rail r with fstamp := s, fresp := if lat then 4 else 3, fromBase := base, hicWait := !lat }
  let w := w.sf F.LE_RSTATE_GATE r 1
  { w with cmd := { w.cmd with queue := w.cmd.queue.map fun (c : Cmd) =>
    if (c.on r).isSome ∧ c.faulted = none then { c with faulted := some first } else c } }

/-- The kills that act on the phases of rail `r`, as its fault message carries them (R189). -/
def World.killsOf (w : World) (r : Nat) : List (Nat × Kill) :=
  (w.bound r).flatMap fun p => ((w.phase p).kills.filter fun k => k.src != 16).map fun k => (p, k)

/-- BLY's transmitter takes the fault decision message of rail `r` while its link is up (R187, R189). -/
def World.sendFault (w : World) (r : Nat) (m : FaultMsg) : World :=
  if w.paired then
    let up := w.fb F.BL_STAT_LINKUP 0
    (w.when up fun w => w.send (.fault m)).setRail r { w.rail r with fmsg := some m, blyTook := up }
  else w.setRail r { w.rail r with fmsg := some m, blyTook := false }

/-- Records of this fault still in the buffer and the Cairn queue take the values of a source of the same cycle, and the
partner is sent the decision again under its sequence number (R185, R189). -/
def World.amendFault (w : World) (r : Nat) : World :=
  let b := w.faultBytes r 1 (w.f F.PROT_RFLT_FIRST r) (w.rail r).fstamp
  let w := match (w.rail r).fmsg with
    | some m => w.sendFault r { m with resp := (w.rail r).fresp, mask := w.f F.PROT_RFLT_CAUSE r, esc := w.fb F.PROT_RFLT_ESC r, pay := b, kills := w.killsOf r }
    | none => w
  let same (l : List Nat) : Bool := fieldAt l 0 2 == r + 256 && fieldAt l 8 8 == w.rfts r
  let fix (e : BufEnt) : BufEnt := match e with
    | .record h x => if h.cls = 1 ∧ same h.pay then .record { h with pay := b } x else e
    | _ => e
  { w with
    buf := w.buf.map fix, waitq := w.waitq.map fix
    crn := { w.crn with queue := w.crn.queue.map fun c => if c.typ = 0x10 ∧ same c.pay then { c with pay := b } else c } }

/-- The records of a fault, the end of the rail's forecasts and waiting commands, and its alerts (R129, R182, R186, R187, R245). -/
def World.faultRecords (w : World) (r resp mask first s : Nat) (esc : Bool) (why : Reason) : World :=
  let pay := w.faultBytes r 1 first s
  let w := w.setRail r { w.rail r with fseqNo := w.f F.RING_SEQ_SEQ (w.routeOf 1) }
  let w := (w.record 1 r pay).cairn 0x10 pay
  let w := w.sendFault r { r := r, seq := (w.rail r).fseqNo, resp := resp, mask := mask, esc := esc, why := why, tb := w.tb, pay := pay, kills := w.killsOf r }
  let w := w.endForecasts r why
  let w := w.completeWaits (fun x => x.names r) stRailFaulted (first + 128)
  (List.range 4).foldl (fun w k => w.avsAlert k r) w

/-- A faulted rail stops running at once or KHOLD later, and RAIL_EN is to fall; a rail whose RAIL_EN is low counts its times
from now (R182). -/
def World.faultStop (w : World) (r : Nat) : World :=
  let w := w.when (!w.railEn r) fun w => (w.setRail r { w.rail r with offSince := w.tb }).start (.hiccup r)
  if (w.rail r).enFallDue ∨ (!w.railEn r ∧ !(w.rail r).engOn) then w.setRail r { w.rail r with stopDue := false }
  else if w.f F.PROT_RCFG_KHOLD r = 0 then
    let w := w.stopRunning r
    w.setRail r { w.rail r with enFallDue := w.railEn r, disAt := w.clk.tbq }
  else w.setRail r { w.rail r with stopDue := true, holdAt := w.clk.tbq }

/-- A HICCUP or LATCH response: everything of R182 at t_d. -/
def World.shutdown (w : World) (r resp mask : Nat) (esc : Bool) (why : Reason) : World :=
  let lat := w.latches r resp
  let full := resp == 3 && decide (w.f F.PROT_RCFG_HICMAX r ≤ w.f F.PROT_RFLT_RETRIES r)
  let s := w.faultStamp r
  let first := firstOf mask
  ((w.faultRegs r mask first s lat (esc || full)).faultRecords r resp mask first s esc why).faultStop r

/-- The reason a trip gives the rail's forecasts (R129). -/
def tripReason (src : Nat) : Reason := if src = 15 then .restart else .prot

/-- Sources that tripped the rail in this Time Base ns, with `src` (R185). -/
def World.tripMask (w : World) (r src : Nat) : Nat :=
  let p := w.rail r
  (if p.trTb = w.tb then p.trSrc else 0) ||| 2 ^ src

/-- A fault of this 1 ns cycle takes a source of response HICCUP or LATCH too: the highest response stands, and a KILL_AUTO
trip of the cycle that had counted or escalated is taken back (R185). -/
def World.joinFault (w : World) (r resp : Nat) : World :=
  let p := w.rail r
  let w := w.when p.trCnt fun w => w.sf F.PROT_RESC_ESCCNT r (w.f F.PROT_RESC_ESCCNT r - 1)
  let w := w.when p.trEsc fun w => w.sf F.PROT_RFLT_ESC r 0
  let w := w.setRail r { w.rail r with trCnt := false, trEsc := false }
  if resp = 4 ∧ w.rstate r = rsHiccup then
    let w := (w.setRstate r rsLatched).sf F.PROT_RFLT_HICCUP r 0
    (w.sf F.PROT_RFLT_LATCHED r 1).setRail r { w.rail r with fresp := 4, hicWait := false }
  else w

/-- A source is raised while the rail already stands in a faulted state (R102, R184, R185). -/
def World.lateSource (w : World) (r src : Nat) (p : Option Nat) (resp : Nat) : World :=
  let w := (w.addCause r (2 ^ src)).addLane r p
  let w := (w.applyKill r src p false).sf F.LE_STAT_FROZEN r 1
  if w.rfts r = w.tb then
    let w := w.sf F.PROT_RFLT_FIRST r (min (w.f F.PROT_RFLT_FIRST r) (src + 1))
    (if 3 ≤ resp then w.joinFault r resp else w).amendFault r
  else w

/-- This KILL_AUTO trip escalates (R181). -/
def World.escalates (w : World) (r resp : Nat) : Bool :=
  resp == 2 && w.fb F.PROT_RCFG_ESCN r && decide (w.f F.PROT_RCFG_ESCN r ≤ w.f F.PROT_RESC_ESCCNT r + 1)

/-- The rail has tripped in this 1 ns cycle already (R185). -/
def World.tripped (w : World) (r : Nat) : Bool := (w.rail r).trTb == w.tb && (w.rail r).trSrc != 0

/-- What every trip does at t_d: the kills, FROZEN and the lane; the first of a cycle also ESCCNT, TRIPS and the rail's event
(R102, R180, R181, R185, R194). -/
def World.tripHead (w : World) (r src : Nat) (p : Option Nat) (count auto : Bool) : World :=
  let again := w.tripped r
  let w := w.setRail r { w.rail r with trTb := w.tb, trSrc := w.tripMask r src, runAt := w.clk.tbq
                                       trCnt := if again then (w.rail r).trCnt else count }
  let w := w.when (count && !again) fun w => w.incSat F.PROT_RESC_ESCCNT r
  let w := w.applyKill r src p auto
  let w := (w.sf F.LE_STAT_FROZEN r 1).addLane r p
  if again then w else (w.inc F.PROT_RCNT_TRIPS r).pulse r

/-- A kill of a source of `mask` that only the fault's clear or retry releases. -/
def Kill.hold (mask : Nat) (k : Kill) : Kill := if decide (k.src < 16) && mask.testBit k.src then { k with auto := false } else k

/-- KILL_AUTO kills of this cycle are held with a fault that joins them (R185). -/
def World.holdKills (w : World) (r mask : Nat) : World :=
  (w.bound r).foldl (fun w p => w.setPhase p { w.phase p with kills := (w.phase p).kills.map (Kill.hold mask) }) w

/-- A trip of response `resp` on a rail in no faulted state (R179 to R182, R185). -/
def World.trip (w : World) (r src : Nat) (p : Option Nat) (resp : Nat) : World :=
  let again := w.tripped r
  let mask := w.tripMask r src
  let esc := !again && w.escalates r resp
  let resp' := if esc then 3 + w.f F.PROT_RCFG_ESCTO r else resp
  let w := w.tripHead r src p (resp == 2) (resp' == 2)
  if resp' = 2 then w.endForecasts r (tripReason src)
  else
    let w := w.when (again && (w.rail r).trCnt) fun w =>
      (w.sf F.PROT_RESC_ESCCNT r (w.f F.PROT_RESC_ESCCNT r - 1)).setRail r { w.rail r with trCnt := false }
    let w := (w.holdKills r mask).setRail r { w.rail r with trEsc := esc }
    w.shutdown r resp' mask esc (tripReason src)

/-- A source of rail `r` is raised; `p` is the phase of a phase source (R179 to R185). -/
def World.raise (w : World) (r src : Nat) (p : Option Nat) : World :=
  let resp := w.f F.PROT_RRESP (16 * r + src)
  let w := w.orBit F.PROT_RHIST_SEEN r src
  if resp < 2 ∨ 4 < resp then w
  else if w.faulted r then w.lateSource r src p resp
  else w.trip r src p resp

/-- A KILL_AUTO kill of source `src` whose condition ends at `t`. -/
def Kill.endAt (src t : Nat) (k : Kill) : Kill := if k.src == src && k.auto && k.ended.isNone then { k with ended := some t } else k

/-- A KILL_AUTO kill's condition has ended: the next period boundary releases it (R181). -/
def World.endAuto (w : World) (p : Nat) (src : Nat) : World :=
  w.setPhase p { w.phase p with kills := (w.phase p).kills.map (Kill.endAt src w.clk.tbq) }

/-- FROZEN clears where nothing holds it (R180). -/
def World.frozenClear (w : World) (r : Nat) : World :=
  let kill := (w.bound r).any fun p => !(w.phase p).kills.isEmpty
  let ov := w.fb F.PROT_VSTAT_OUT (2 * r)
  let uv := w.fb F.PROT_VSTAT_OUT (2 * r + 1) && w.fb F.PROT_VSTAT_ARMED (2 * r + 1)
  if kill || ov || uv then w else w.sf F.LE_STAT_FROZEN r 0

/-! ### Clearing and hiccup (R184, R191) -/

/-- The conditions of R191 other than the state and TOFF hold. -/
def World.clearConds (w : World) (r : Nat) : Bool :=
  let e := w.f F.PROT_HKLIM_ENTRY r
  let v := w.f F.HKC_RES_VALUE e
  let hk := decide (w.f F.PROT_RFLT_CAUSE r &&& 0x0C00 = 0)
    || (decide (v ≤ w.f F.PROT_HKVAL_HI r) && decide (w.f F.PROT_HKVAL_LO r ≤ v))
  let flt := (idxs 8 fun b => (w.f F.RSC_STAT_SLICE_FLT r).testBit b).length
  !w.fb F.PROT_VSTAT_OUT (2 * r) && hk && decide (flt < 2) && !w.fb F.RSC_ERR_REFLOST r

/-- A clear is accepted now (R191). -/
def World.clearOk (w : World) (r : Nat) : Bool :=
  w.faulted r && !w.railEn r && decide ((w.rail r).offSince + 1000 * w.f F.PROT_RTIME_TOFF r ≤ w.tb) && w.clearConds r

/-- The rail's protection kills that `keep` rejects release. -/
def World.releaseKills (w : World) (r : Nat) (keep : Kill → Bool) : World :=
  (w.bound r).foldl (fun w p => w.unkill p keep) w

/-- An accepted clear takes effect; line kills hold with their lines (R161, R191). -/
def World.clearRail (w : World) (r stamp : Nat) : World :=
  let pay := w.faultBytes r 3 0 stamp
  let w := w.when (w.rstate r == rsHiccup) fun w => w.start .quiet
  let w := w.setRstate r rsOff
  let w := (w.releaseKills r fun k => k.src == 16).sf F.LE_STAT_FROZEN r 0
  let w := (w.sf F.PROT_RFLT_FIRST r 0).sf F.PROT_RFLT_CAUSE r 0
  let w := (w.sf F.PROT_RFLT_RETRIES r 0).sf F.PROT_RESC_ESCCNT r 0
  let w := ((w.sf F.PROT_RPH_LANES r 0).sf F.PROT_RFLT_LATCHED r 0).sf F.PROT_RFLT_HICCUP r 0
  let w := w.setRail r { w.rail r with fstamp := 0, fresp := 0, hicWait := false }
  w.record 1 r pay

/-- The retry of R184. -/
def World.retry (w : World) (r : Nat) : World :=
  let base := (w.rail r).fromBase
  let w := w.releaseKills r fun k => k.src == 16
  let w := w.sf F.PROT_RFLT_RETRIES r (min (w.f F.PROT_RFLT_RETRIES r + 1) (w.f F.PROT_RCFG_HICMAX r))
  let w := w.record 1 r (w.faultBytes r 2 (w.f F.PROT_RFLT_FIRST r) (w.rail r).fstamp)
  (w.sf F.PROT_RFLT_HICCUP r 0).startRail r 0 base

end Sys2Proof.Machine
end

