-- ==== Sys2Proof/Machine/Commands.lean ====
section
/-! DEFINITION. The command set: stamping, turns, the legality matrix, parameters, own checks and effects
(R228 to R244). -/

namespace Sys2Proof.Machine

/-! ### Parameters (R233, R234) -/

/-- The RAIL column of R233. -/
inductive RailKind where
  | rail | railOrAll | railOrNone | allOnly | noneOnly
  deriving DecidableEq, Repr

def Op.kind : Op → RailKind
  | .nop | .railDisable _ => .railOrAll
  | .budgetSet .. => .railOrNone
  | .pmSentinel => .allOnly
  | .fwStage .. | .fwActivate _ | .cairnRead .. => .noneOnly
  | .railEnable .. | .setTarget .. | .setNph _ | .queryRail | .faultClear | .calibrate .. | .forecast _
  | .forecastCancel _ => .rail

/-- An all-rail command: RAIL 0xFF on an opcode marked "all" (R228). -/
def Op.isAll (o : Op) (rail : Nat) : Bool :=
  rail == 0xFF && (o.kind == .railOrAll || o.kind == .allOnly)

/-- RAIL is not one that the column allows. -/
def Op.railBad (o : Op) (rail : Nat) : Bool :=
  match o.kind with
  | .rail => rail == 0xFF
  | .railOrAll | .railOrNone => false
  | .allOnly | .noneOnly => rail != 0xFF

/-- The lowest offset of a field outside its range (R234). -/
def Op.bad : Op → Option Nat
  | .nop | .queryRail | .faultClear | .pmSentinel => none
  | .railEnable t n f =>
    if t = 0 ∨ 1048575 < t then some 8 else if 32 < n then some 12 else if 3 < f then some 13 else none
  | .railDisable m => if 1 < m then some 8 else none
  | .setTarget t f => if t = 0 ∨ 1048575 < t then some 8 else if 1 < f then some 13 else none
  | .setNph n => if n = 0 ∨ 32 < n then some 8 else none
  | .calibrate p e u t =>
    if 127 < p then some 8 else if e = 0 ∨ 255 < e then some 9 else if u = 0 ∨ 65535 < u then some 10
    else if t = 0 ∨ 65535 < t then some 12 else none
  | .forecast p => fcBad p
  | .forecastCancel _ => none
  | .budgetSet n _ m => if n < 10 ∨ 10000000 < n then some 8 else if 2 < m then some 20 else none
  | .fwStage a l o =>
    if a % 64 ≠ 0 then some 8 else if l < 64 ∨ 4194304 < l ∨ l % 64 ≠ 0 then some 16
    else if o % 64 ≠ 0 ∨ 4194304 < o + l then some 20 else none
  | .fwActivate b => if 1 < b then some 8 else none
  | .cairnRead a f c =>
    if a % 256 ≠ 0 then some 8 else if 8191 < f then some 16 else if c = 0 ∨ 8192 < c then some 18 else none

/-- The PARAM bytes an opcode names, as pairs of offset and size (R234). -/
def paramBytes : Nat → List (Nat × Nat)
  | 0x0101 => [(8, 4), (12, 1), (13, 1)]
  | 0x0102 | 0x0104 | 0x0502 => [(8, 1)]
  | 0x0103 => [(8, 4), (13, 1)]
  | 0x0107 => [(8, 1), (9, 1), (10, 2), (12, 2)]
  | 0x0201 => [(8, 8), (16, 2), (18, 2), (20, 2), (22, 2), (24, 2), (26, 2), (28, 2), (30, 2), (32, 1), (33, 1), (34, 2),
               (36, 2)]
  | 0x0202 => [(8, 2)]
  | 0x0301 => [(8, 4), (12, 8), (20, 1)]
  | 0x0501 => [(8, 8), (16, 4), (20, 4)]
  | 0x0601 => [(8, 8), (16, 2), (18, 2)]
  | _ => []

/-- The lowest offset of a PARAM byte that the opcode does not name and that is not 0; `raw` is bytes 8 to 43. -/
def emptyBad (code : Nat) (raw : List Nat) : Option Nat :=
  ((List.range 36).map (· + 8)).find? fun o =>
    !((paramBytes code).any fun e => decide (e.1 ≤ o) && decide (o < e.1 + e.2)) && fieldAt raw (o - 8) 1 != 0

/-- The command that an OPCODE and its PARAM bytes name; none for an OPCODE that names no command (R206, R233). -/
def decodeOp (code : Nat) (raw : List Nat) : Option Op :=
  let b (o n : Nat) := fieldAt raw (o - 8) n
  match code with
  | 0x0000 => some .nop
  | 0x0101 => some (.railEnable (b 8 4) (b 12 1) (b 13 1))
  | 0x0102 => some (.railDisable (b 8 1))
  | 0x0103 => some (.setTarget (b 8 4) (b 13 1))
  | 0x0104 => some (.setNph (b 8 1))
  | 0x0105 => some .queryRail
  | 0x0106 => some .faultClear
  | 0x0107 => some (.calibrate (b 8 1) (b 9 1) (b 10 2) (b 12 2))
  | 0x0201 => some (.forecast
      { start := b 8 8, step := b 16 2, rise := b 18 2, fall := b 20 2, dwell := b 22 2, adv := b 24 2, cwin := b 26 2,
        toli := b 28 2, told := b 30 2, conf := b 32 1, pc := b 33 1, pclead := b 34 2, pchold := b 36 2 })
  | 0x0202 => some (.forecastCancel (b 8 2))
  | 0x0301 => some (.budgetSet (b 8 4) (b 12 8) (b 20 1))
  | 0x0401 => some .pmSentinel
  | 0x0501 => some (.fwStage (b 8 8) (b 16 4) (b 20 4))
  | 0x0502 => some (.fwActivate (b 8 1))
  | 0x0601 => some (.cairnRead (b 8 8) (b 16 2) (b 18 2))
  | _ => none

/-- The lower of two offsets. -/
def minOff : Option Nat → Option Nat → Option Nat
  | some a, some b => some (min a b)
  | some a, none => some a
  | none, b => b

/-- The setpoint DAC code of a TARGET (R235). -/
def World.targetCode (w : World) (r target : Nat) : Nat :=
  (rdiv (target * 16384 : Nat) (w.f F.RSC_DIVR_RATIO r)).toNat

/-! ### Stamping (R228) -/

/-- A stamped command draws its stamps: the rail's, or GSEQ with every present rail's for an all-rail command. -/
def World.drawStamps (w : World) (c : Cmd) : World × Cmd :=
  if c.rail = 0xFF then
    let g := w.f F.GL_GSEQ_NEXT 0
    let w := w.inc F.GL_GSEQ_NEXT 0
    let c := { c with stamp := 0x80000000 + g, gseq := some g }
    if c.op.isAll c.rail then
      let l := (List.range w.nRails).map fun r => (r, w.f F.LE_RSEQ_NEXT r)
      (l.foldl (fun w e => w.inc F.LE_RSEQ_NEXT e.1) w, { c with rails := l })
    else (w, c)
  else
    let st := w.f F.LE_RSEQ_NEXT c.rail
    let w := w.inc F.LE_RSEQ_NEXT c.rail
    let c := { c with stamp := st, rails := [(c.rail, st)] }
    match c.op with
    | .forecast _ =>
      let (w, q) := w.drawFseq c.rail
      (w, { c with fseq := q })
    | _ => (w, c)

/-- A command is stamped: it enters the command queue, or completes at once on an absent rail (R228, R229). -/
def World.stamp (w : World) (src : CmdSrc) (op : Op) (rail : Nat) (bad : Option Nat) : World :=
  let c : Cmd := { src := src, op := op, rail := rail, stamp := 0xFFFFFFFF, bad := bad }
  if rail ≠ 0xFF ∧ w.nRails ≤ rail then w.complete c stInvalidRail 0 0
  else
    let (w, c) := w.drawStamps c
    let w := { w with cmd := { w.cmd with queue := w.cmd.queue ++ [c] } }
    w.when w.paired fun w => w.send (.stamp c)

/-! ### The legality matrix (R242) -/

/-- Entries of the matrix. -/
inductive Legal where
  | acts | noEffect | refused
  deriving DecidableEq, Repr

/-- The matrix for a command on a rail in state `s`. -/
def legal (o : Op) (s : Nat) : Legal :=
  let on (l : List Nat) : Legal := if l.contains s then .acts else .refused
  match o with
  | .nop | .queryRail | .budgetSet .. | .fwStage .. | .fwActivate _ | .cairnRead .. => .acts
  | .railEnable .. => on [rsOff]
  | .railDisable m =>
    if s = rsOff ∨ s = rsLatched ∨ (s = rsStopping ∧ m ≠ 0) then .noEffect else .acts
  | .setTarget .. => on [rsStarting, rsRegulating]
  | .setNph _ => on [rsOff, rsStarting, rsRegulating]
  | .faultClear => on [rsHiccup, rsLatched]
  | .calibrate .. | .forecast _ | .forecastCancel _ => on [rsRegulating]
  | .pmSentinel => on [rsOff, rsLatched]

/-- XSTAT of STATE_REFUSED: the reason and the rail's state (R239). -/
def World.refuseX (w : World) (r reason : Nat) : Nat := 16 * reason + w.rstate r

/-- The matrix's reason in the rail's state. -/
def World.matrixX (w : World) (r : Nat) : Nat := w.refuseX r (if w.rstate r = rsBasecamp then 7 else 0)

/-- The physical bank that was not booted (R465). -/
def World.inactiveBank (w : World) : Nat := 1 - w.f F.FW_STAT_ACTIVE 0

/-- In RECOVERY both banks are inactive (R465). -/
def World.recovery (w : World) : Bool := w.f F.GL_BOOTSTAT_STAGE 0 == 4

/-- Parameter checks that need the part's state (R234, R235): the lowest failing offset. -/
def World.paramBad (w : World) (c : Cmd) : Option Nat :=
  let r := c.rail
  let tgt (t : Nat) : Option Nat := if 262143 < w.targetCode r t then some 8 else none
  match c.op with
  | .railEnable t _ _ | .setTarget t _ => tgt t
  | .calibrate p _ _ _ => if w.boundTo p r ∧ w.phSt p = phActive then none else some 8
  | .forecastCancel fid =>
    let f := w.fc (fid % 128)
    if f.st ≠ .free ∧ f.fid = fid ∧ f.rail ≠ r then some 8 else none
  | .fwActivate b => if w.recovery ∨ b = w.inactiveBank then none else some 8
  | _ => none

/-- The refusal conditions of a firmware update (R471): the XSTAT of the first that holds. -/
def World.updateRefused (w : World) : Option Nat :=
  if (List.range w.nRails).any fun r => decide ((1024 * w.f F.FW_LOADLIM_LIMIT 0 : Nat) < (w.rail r).meanI) then some 1
  else if w.pins.holdup then some 2
  else if w.fb F.SEC_OWNLOCK_LOCKED 0 then some 3
  else if w.f F.BL_STAT_PUPD 0 ≠ 0 then some 4
  else none

/-- A command's own checks: the failing status and XSTAT (R191, R236, R237, R110, R128, R471). -/
def World.ownCheck (w : World) (c : Cmd) : Option (Nat × Nat) :=
  let r := c.rail
  let ref (n : Nat) : Option (Nat × Nat) := some (stRefused, w.refuseX r n)
  match c.op with
  | .railEnable .. =>
    if w.lf F.LE_FORM_FORM r = 0 then ref 2
    else if w.f F.RSC_CFG_MODE r ≠ 0 ∨ w.f F.RSC_CFG_REFSEL r = 2 then ref 3
    else if (w.bound r).isEmpty then ref 4
    else none
  | .faultClear => if w.clearOk r then none else ref 8
  | .calibrate .. =>
    if w.lf F.LE_FORM_FORM r ≠ 1 ∧ w.lf F.LE_FORM_FORM r ≠ 4 then ref 2
    else if !(w.inFlight r).isEmpty then ref 1
    else none
  | .forecast p => w.fcCheck r p
  | .forecastCancel fid =>
    let f := w.fc (fid % 128)
    if f.st = .free ∨ f.fid ≠ fid then ref 6
    else if f.st = .committed ∨ f.st = .rolling then ref 9
    else none
  | .fwStage .. | .fwActivate _ => w.updateRefused.map fun x => (stUpdate, x)
  | _ => none

/-! ### Effects (R233, R236, R237) -/

/-- The largest N_need of the rail's forecasts in RUN or MATCHED (R159). -/
def World.needMax (w : World) (r : Nat) : Nat :=
  ((w.inFc r [.run, .matched]).map fun i => (w.fc i).nneed).foldl max 0

/-- At an update boundary N_req takes firmware's count, kept up by forecasts in RUN or MATCHED; a count that has met such
forecasts is taken again once they are gone (R159). -/
def World.applyCount (w : World) (r : Nat) : World :=
  let t := w.intent r
  let held := !(w.inFc r [.run, .matched]).isEmpty
  match t.fwReq, t.fwLater with
  | some n, _ =>
    (w.setNreq r (max n (w.needMax r))).setIntent r { t with fwReq := none, fwLater := if held then some n else none }
  | none, some n => if held then w else (w.setNreq r n).setIntent r { t with fwLater := none }
  | none, none => w

/-- A completion is awaited. -/
def World.await (w : World) (c : Cmd) (a : Await) : World :=
  { w with cmd := { w.cmd with waits := w.cmd.waits ++ [⟨c, a⟩] } }

/-- RAIL_DISABLE on one rail (R236, R241). -/
def World.disableRail (w : World) (r mode : Nat) : World :=
  let s := w.rstate r
  if s = rsOff ∨ s = rsLatched then w
  else if s = rsHiccup then
    ((w.setRstate r rsLatched).sf F.PROT_RFLT_HICCUP r 0).sf F.PROT_RFLT_LATCHED r 1
  else if s = rsStopping then
    if mode = 0 ∧ (w.rail r).rampDown then w.disableStep r else w
  else
    let w := w.setRstate r rsStopping
    let w := w.endForecasts r .railOff
    if mode = 0 ∨ s = rsStarting then w.disableStep r
    else
      let w := if s = rsCalibrating then
          let w := (w.sf F.LE_CALCFG_EVERY r 0).slf F.LE_CALCFG_EVERY r 0
          w.setRail r { w.rail r with calAdopt := (w.rail r).calSaved, calSaved := none }
        else w
      (w.sf F.LE_TARGET_CODE r 0).setRail r { w.rail r with rampDown := true }

/-- The rails of `l` whose RAIL_EN is still to fall. -/
def World.stillHigh (w : World) (l : List Nat) : List Nat := l.filter fun r => w.railEn r

/-- The effect of a command that has passed its checks, and its completion or what it waits for.  `sense` is the sense voltage
that PREBIAS converts, in DAC units. -/
def World.effect (w : World) (c : Cmd) (sense : Int) : World :=
  let r := c.rail
  let ok (w : World) (res : Nat) : World := w.complete c stOk 0 res
  match c.op with
  | .nop => ok w 0
  | .railEnable t n fl =>
    let code := w.targetCode r t
    let w := w.sf F.LE_TARGET_CODE r code
    let w := if n = 0 then w else w.sf F.PW_NREQ_NREQ r n
    let (w, ref) := if fl.testBit 1 then w.prebias r sense else (w, 0)
    (w.startRail r ref false).await c (if fl.testBit 0 then .refTarget else .running)
  | .railDisable mode =>
    let l := if c.rail = 0xFF then List.range w.nRails else [r]
    let acts := l.filter fun q => legal c.op (w.rstate q) == .acts
    let w := acts.foldl (fun w q => w.disableRail q mode) w
    let l := w.stillHigh acts
    if l.isEmpty then ok w 0 else w.await c (.enFallen l)
  | .setTarget t fl =>
    let code := c.due.getD (w.targetCode r t)
    let w := w.sf F.LE_TARGET_CODE r code
    let w := match c.src with
      | .avs k =>
        let w := (w.avsOf k r).foldl (fun w a => w.clrBit F.SI_AVSSTAT_VDONE k a) w
        { w with pmb := { w.pmb with vwait := w.pmb.vwait ++ [(k, r)] } }
      | _ => w
    if fl.testBit 0 ∧ (w.engine r).ref ≠ ((256 * code : Nat) : Int) then w.await c .refTarget else ok w 0
  | .setNph n =>
    let w := (w.sf F.PW_NREQ_NREQ r n).firmwareNph r n
    ok w (min (w.bound r).length (max n (w.needMax r)))
  | .queryRail =>
    ok w (w.rstate r + 16 * w.nph r + 1024 * (w.inFlight r).length + 16384 * w.f F.LE_STAT_FROZEN r)
  | .faultClear => ok (w.clearRail r c.stamp) 0
  | .calibrate p e u t =>
    let w := w.setRail r { w.rail r with calSaved := some (w.lf F.LE_FORM_FORM r), calAdopt := some 7
                                         calEnds := w.clk.tbq + 128000 * t }
    let w := ((w.sf F.LE_CALCFG_PHASE r p).sf F.LE_CALCFG_PULSE r u).sf F.LE_CALCFG_EVERY r e
    let w := w.adoptAll [F.LE_CALCFG_PHASE, F.LE_CALCFG_PULSE, F.LE_CALCFG_EVERY] r
    let w := (w.sf F.LE_CALRES_SUM r 0).sf F.LE_CALRES_COUNT r 0
    (w.setRstate r rsCalibrating).await c .calEnd
  | .forecast p =>
    let ring := match c.src with | .ring n _ _ => n | _ => 0xFF
    let (w, fid) := w.fcAccept r p 0 ring c.fseq
    ok w fid
  | .forecastCancel fid =>
    ok (w.setFc (fid % 128) { w.fc (fid % 128) with cancel := true }) 0
  | .budgetSet n l md =>
    { w with budgets := w.budgets ++ [(if r = 0xFF then 24 else r, n, l, md)] }.await c .budget
  | .pmSentinel => ok { w with sentArmed := true } 0
  | .fwStage a l o =>
    let w := (w.sf F.FW_STAT_BOOTSEL 0 (w.f F.FW_STAT_ACTIVE 0)).sf F.FW_STAT_STAGING 0 1
    let w := if w.f F.BL_STAT_UPD 0 = 0 then w.sf F.BL_STAT_UPD 0 1 else w
    { w with fwq := w.fwq ++ [⟨some c, a, w.inactiveBank, o, l, o⟩] }
  | .fwActivate b =>
    let w := (w.sf F.FW_STAT_BOOTSEL 0 b).sf F.BL_STAT_UPD 0 2
    if w.fwq.any fun j => j.cmd.isSome then w.await c .staged else ok w 0
  | .cairnRead a f n =>
    if n = 0 then ok w 0 else World.await { w with crnRd := w.crnRd ++ [{ cmd := c, addr := a, first := f, count := n }] } c .cairn

/-! ### Turns (R229, R230, R232) -/

/-- Commands whose effect supersedes waiting ones (R232). -/
def Op.supersedes : Op → Bool
  | .nop | .queryRail | .budgetSet .. => false
  | _ => true

/-- The value that a command takes with it to the update boundary at which it takes effect: a target code (R233, R235) or a phase
count (R159); none for a command that takes effect at its turn (R230). -/
def World.boundaryValue (w : World) (c : Cmd) : Option Nat :=
  match c.op with
  | .setTarget t _ => some (w.targetCode c.rail t)
  | .setNph n => some n
  | _ => none

/-- A FORECAST. -/
def Op.isForecast : Op → Bool
  | .forecast _ => true
  | _ => false

/-- The command names a phase that the variant lacks (R3). -/
def Cmd.namesAbsent (c : Cmd) (w : World) : Bool :=
  match c.op with
  | .calibrate p _ _ _ => decide (w.nPhases ≤ p) && decide (p ≤ 127)
  | _ => false

/-- The present rails that a command names. -/
def World.namedRails (w : World) (c : Cmd) : List Nat :=
  if c.op.isAll c.rail then List.range w.nRails else if c.rail = 0xFF then [] else [c.rail]

/-- A command that has passed its checks takes effect, which ends what earlier commands of its rails wait for (R230, R232). -/
def World.takeEffect (w : World) (c : Cmd) (sense : Int) : World :=
  let old := w.cmd.waits.filter fun x => (w.namedRails c).any fun q => x.names q
  let w := (w.tookEffect c).effect c sense
  if c.op.supersedes then w.completeWaits (fun x => old.contains x) stOk 1 else w

/-- A command has passed its checks: it takes effect at once, or stands at the front of the queue until the next update boundary
of a rail that takes updates (R229, R230, R233). -/
def World.passed (w : World) (c : Cmd) (sense : Int) : World :=
  if w.updating c.rail && c.due.isNone && (w.boundaryValue c).isSome then
    { w with cmd := { w.cmd with queue := { c with due := w.boundaryValue c } :: w.cmd.queue } }
  else w.takeEffect c sense

/-- A command at its turn is judged, and passes or is refused (R230, R242). -/
def World.judge (w : World) (c : Cmd) (sense : Int) : World :=
  let r := c.rail
  if c.namesAbsent w then w.complete c stInvalidRail 0 0
  else
  let all := c.op.isAll r
  let rails := w.namedRails c
  let blocked := rails.find? fun q => legal c.op (w.rstate q) == .refused
  match blocked with
  | some q => w.settleVoid c stRefused (w.matrixX q) (if all then q else 0) .notAccepted
  | none =>
    if w.f F.LC_STATE_STATE 0 = 5 ∧ !(c.op matches .nop | .cairnRead ..) then
      w.settleVoid c stRefused (if r = 0xFF then 0 else w.refuseX r 0) 0 .notAccepted
    else if !rails.isEmpty && rails.all (fun q => legal c.op (w.rstate q) == .noEffect) then w.complete c stOk 0 0
    else
      let isFc := c.op.isForecast
      if isFc && r != 0xFF && (!w.fb F.FC_CFG_EN 0 || !w.fb F.FC_RAILA_IEN r) then
        w.settleVoid c stRefused (w.refuseX r 5) 0 .notAccepted
      else
        let off := if c.op.railBad r then some 2 else minOff (minOff c.op.bad c.bad) (w.paramBad c)
        match off with
        | some x => w.settleVoid c (if isFc && r != 0xFF then 0x10 else stParam) x 0 .notAccepted
        | none =>
          match w.ownCheck c with
          | some (st, x) => w.settleVoid c st x 0 .notAccepted
          | none => w.passed c sense

/-- Outcomes of forecasts that a disable of rail `r` ended are still to be queued (R130). -/
def World.disabling (w : World) (r : Nat) : Bool :=
  (w.inFc r [.rolling]).any fun i => (w.fc i).why == .railOff

/-- The command at its turn on rail `rail` (0xFF: under GSEQ): the first unsettled one there, with every rail it names at
its turn, every gate open and the outcomes of a disable queued; paired, with no effect message of its own awaiting acknowledgement (R130, R187, R229, R249).  A command that waits for
its boundary has had its turn. -/
def World.turnOf (w : World) (rail : Nat) : Option Cmd :=
  let first (r : Nat) : Option Cmd := w.cmd.queue.find? fun c => (c.on r).isSome
  let firstG : Option Cmd := w.cmd.queue.find? fun c => c.gseq.isSome
  match if rail = 0xFF then firstG else first rail with
  | none => none
  | some c =>
    let railsOk := c.rails.all fun e => (first e.1 == some c) && !w.fb F.LE_RSTATE_GATE e.1 && !w.disabling e.1
    let gOk := c.gseq.isNone || firstG == some c
    let key := if c.gseq.isSome then 0xFF else c.rail
    let ackOk := !w.paired || !(w.cmd.unacked.any fun u => u.1 == key)
    if railsOk && gOk && ackOk && c.faulted.isNone && c.due.isNone && !w.sentArmed && w.pwr.sent == 0 then some c else none

/-- An effect message is under way: the command's write-back is held until it is acknowledged (R249). -/
def World.holdEffect (w : World) (c : Cmd) : World :=
  let key := if c.gseq.isSome then 0xFF else c.rail
  match c.src with
  | .ring n slot _ =>
    let w := { w with cmd := { w.cmd with unacked := w.cmd.unacked ++ [(key, n, slot)] } }
    w.setRing n { w.ring n with slots := (w.ring n).slots.map fun (s : Slot) =>
      if s.slot = slot then { s with held := true } else s }
  | _ => { w with cmd := { w.cmd with unacked := w.cmd.unacked ++ [(key, 0xFF, 0)] } }

/-- The write-back that a ring command has waiting. -/
def World.heldWb (w : World) (c : Cmd) : Option WB :=
  match c.src with
  | .ring n slot _ => ((w.ring n).slots.find? fun (s : Slot) => s.slot == slot).bind (·.done)
  | _ => none

/-- Command `c` does `act`; paired, its effect message goes to the partner first, with the write-back that `act` will give (R249). -/
def World.sendEffect (w : World) (c : Cmd) (sense : Int) (act : World → World) : World :=
  if w.paired then
    let w := w.holdEffect c
    act (w.send (.effect c sense ((act w).heldWb c)))
  else act w

/-- The command of rail `r` that waits for its update boundary and that no fault has met (R187). -/
def World.dueOn (w : World) (r : Nat) : Option Cmd := w.cmd.queue.find? fun c => c.due.isSome && c.faulted.isNone && c.rail == r

/-- A local ring's next command takes effect once its earlier ones have completed (R3, R224). -/
def World.localTurn (w : World) (n : Nat) (sense : Int) : World :=
  match (w.ring n).localq with
  | [] => w
  | c :: l =>
    let own (d : Cmd) : Bool := d.stamp == 0xFFFFFFFF && (match d.src with | .ring k _ _ => k == n | _ => false)
    let busy := (w.fwq.any fun j => j.cmd.any own) || (w.cmd.waits.any fun x => own x.cmd)
      || (match c.op with | .fwActivate _ => w.fwq.any fun j => j.cmd.isSome | _ => false)
    if busy then w
    else
      let w := w.setRing n { w.ring n with localq := l }
      let retired := w.f F.LC_STATE_STATE 0 == 5
      if c.rail ≠ 0xFF then w.complete c (if w.nRails ≤ c.rail then stInvalidRail else stRefused) 0 0
      else match c.op with
      | .nop | .fwStage .. | .fwActivate _ | .cairnRead .. =>
        if retired ∧ !(c.op matches .nop | .cairnRead ..) then w.complete c stRefused 0 0
        else match if c.op.railBad c.rail then some 2 else minOff (minOff c.op.bad c.bad) (w.paramBad c) with
        | some x => w.complete c stParam x 0
        | none =>
          match w.ownCheck c with
          | some (st, x) => w.complete c st x 0
          | none => w.effect c sense
      | _ => w.complete c stRefused 0 0

/-- A stamped command reaches its turn; `rail` 0xFF is GSEQ, 0x100 + n the local ring n. -/
def World.turn (w : World) (rail : Nat) (sense : Int) : World :=
  if 0x100 ≤ rail then w.localTurn (rail - 0x100) sense
  else
    match w.turnOf rail with
    | none => w
    | some c =>
      let w := { w with cmd := { w.cmd with queue := w.cmd.queue.erase c } }
      let v := w.judge c sense
      if (v.dueOn c.rail).isSome then v else w.sendEffect c sense (·.judge c sense)

/-- The command of rail `r` that waits for this update boundary takes effect (R230, R233). -/
def World.dueActs (w : World) (c : Cmd) : World :=
  World.sendEffect { w with cmd := { w.cmd with queue := w.cmd.queue.erase c } } c 0 (·.takeEffect c 0)

/-- The commands of rail `r` that take effect at this update boundary, in stamp order: the one that waits for it, then those whose
turn it gives and that act at a boundary too (R230).  `n` bounds their number. -/
def World.boundaryTurns : Nat → Nat → World → World
  | 0, _, w => w
  | n + 1, r, w =>
    match w.dueOn r with
    | none => w
    | some c =>
      let w := w.dueActs c
      boundaryTurns n r (match w.turnOf r with
        | some d => if (w.boundaryValue d).isSome then w.turn r 0 else w
        | none => w)

def execCommandTurn (rail : Nat) (sense : Int) (s : State) : Res := onW s fun w => w.turn rail sense

/-- A command of its own row: it is stamped, and takes its turn at once unless an earlier one of its order is unsettled
(R228, R229). -/
def World.issue (w : World) (src : CmdSrc) (op : Op) (rail : Nat) (sense : Int) : World :=
  let w' := w.stamp src op rail none
  match w'.cmd.queue.getLast? with
  | some c => if w.cmd.queue.length < w'.cmd.queue.length ∧ w'.turnOf rail = some c then w'.turn rail sense else w'
  | none => w'

def execNop (src : CmdSrc) (rail : Nat) (s : State) : Res := onW s fun w => w.issue src .nop rail 0

def execRailEnable (src : CmdSrc) (rail target nph flags : Nat) (sense : Int) (s : State) : Res :=
  onW s fun w => w.issue src (.railEnable target nph flags) rail sense

def execRailDisable (src : CmdSrc) (rail mode : Nat) (s : State) : Res :=
  onW s fun w => w.issue src (.railDisable mode) rail 0

def execSetTarget (src : CmdSrc) (rail target flags : Nat) (s : State) : Res :=
  onW s fun w => w.issue src (.setTarget target flags) rail 0

def execSetNph (src : CmdSrc) (rail nph : Nat) (s : State) : Res := onW s fun w => w.issue src (.setNph nph) rail 0

def execQueryRail (src : CmdSrc) (rail : Nat) (s : State) : Res := onW s fun w => w.issue src .queryRail rail 0

def execFaultClear (src : CmdSrc) (rail : Nat) (s : State) : Res := onW s fun w => w.issue src .faultClear rail 0

def execCalibrate (src : CmdSrc) (rail phase every pulse timeout : Nat) (s : State) : Res :=
  onW s fun w => w.issue src (.calibrate phase every pulse timeout) rail 0

def execForecast (src : CmdSrc) (rail : Nat) (p : FcParam) (s : State) : Res :=
  onW s fun w => w.issue src (.forecast p) rail 0

def execForecastCancel (src : CmdSrc) (rail fid : Nat) (s : State) : Res :=
  onW s fun w => w.issue src (.forecastCancel fid) rail 0

def execBudgetSet (src : CmdSrc) (rail window limit mode : Nat) (s : State) : Res :=
  onW s fun w => w.issue src (.budgetSet window limit mode) rail 0

def execPmSentinel (src : CmdSrc) (s : State) : Res := onW s fun w => w.issue src .pmSentinel 0xFF 0

def execFwStage (src : CmdSrc) (addr length offset : Nat) (s : State) : Res :=
  onW s fun w => w.issue src (.fwStage addr length offset) 0xFF 0

def execFwActivate (src : CmdSrc) (bank : Nat) (s : State) : Res := onW s fun w => w.issue src (.fwActivate bank) 0xFF 0

def execCairnRead (src : CmdSrc) (addr first count : Nat) (s : State) : Res :=
  onW s fun w => w.issue src (.cairnRead addr first count) 0xFF 0

/-- COUNT has reached 255 or TIMEOUT has passed: the saved form comes back at the next update boundary (R237, R241). -/
def execCalibrationEnd (r : Nat) (s : State) : Res :=
  onW s fun w =>
    if w.rstate r ≠ rsCalibrating ∨ (w.f F.LE_CALRES_COUNT r < 255 ∧ w.clk.tbq < (w.rail r).calEnds) then w
    else
      let w := (w.sf F.LE_CALCFG_EVERY r 0).slf F.LE_CALCFG_EVERY r 0
      (w.setRail r { w.rail r with calAdopt := (w.rail r).calSaved, calSaved := none }).setRstate r rsRegulating

end Sys2Proof.Machine
end

