-- ==== Sys2Proof/Machine/RegOps.lean ====
section
/-! DEFINITION. Whole registers: a register's value assembled from its fields, and a value taken apart into them. -/

namespace Sys2Proof.Machine

/-- A value of a register at one field of its layout: the field's bits. -/
def Fld.cut (F : Fld) (lo v : Nat) : Nat := bitsOf v lo F.wd

/-- Instance `i` of a register, its fields at their places and 0 between them (R7). -/
def World.regVal (w : World) (g : Reg) (i : Nat) : Nat :=
  (g.lay.map fun e => w.f e.2.1 (i * e.2.1.sub + e.2.2) <<< e.1).sum

/-- Every RW field of instance `i` takes its bits of `v`. -/
def World.putRW (w : World) (g : Reg) (i v : Nat) : World :=
  g.lay.foldl (fun w e => if e.2.1.acc = .rw then w.sf e.2.1 (i * e.2.1.sub + e.2.2) (e.2.1.cut e.1 v) else w) w

/-- The RW fields of instance `i` would change under a write of `v`, but for the field `x`. -/
def World.wouldChange (w : World) (g : Reg) (i v : Nat) (x : Fld) : Bool :=
  g.lay.any fun e => e.2.1.acc == .rw && e.2.1 != x && w.f e.2.1 (i * e.2.1.sub + e.2.2) != e.2.1.cut e.1 v

/-- The register and field of a key of the register store. -/
def keyField (k : Nat) : Option (Reg × Fld) := allFields.find? fun e => e.2.id == keyId k

/-- Every field instance that `p` picks, by field and island, goes back to its reset value (R9, R551). -/
def World.resetRegs (w : World) (p : Fld → Nat → Bool) : World :=
  let keep (k : Nat) : Bool := match keyField k with
    | some (g, F) => !p F (g.islandOf F.sub (keyInst k))
    | none => true
  let keepHold (k : Nat) : Bool := match allRegs.find? fun g => g.id == keyId k with
    | some g => !g.lay.any fun e => p e.2.1 (g.islandOf 1 (keyInst k))
    | none => true
  { w with regs := mkeep keep w.regs, live := mkeep keep w.live, rwo := w.rwo.filter keep, hold := mkeep keepHold w.hold }

/-- The register effect of an ISLAND reset of island `n` (R551). -/
def World.resetIslRegs (w : World) (n : Nat) : World := w.resetRegs fun F i => F.cls == .island && i == n

end Sys2Proof.Machine
end

