-- ==== Sys2Proof/Machine/ForecastRows.lean ====
section
/-! DEFINITION. Hint edges, reservations and pre-cool requests of forecasts, templates (R112 to R115, R120, R131, R132,
R134, R137, R263, R446, R458, R459). -/

namespace Sys2Proof.Machine

/-! ### Pump boosts (R446) -/

/-- The boost level in force on channel `k`: the highest that has an open request or an end time to come. -/
def World.boostLevel (w : World) (k : Nat) : Nat :=
  ((w.boosts.filter fun b => b.ch == k && (match b.ends with
    | some t => decide (w.tb < t)
    | none => true)).map fun b => b.lvl).foldl max 0

/-- PD_STAT.BOOST follows the level in force; in DIRECT mode each change raises PD[k] when IEN enables it. -/
def World.showBoost (w : World) (k : Nat) : World :=
  let l := w.boostLevel k
  if l = w.f F.PD_STAT_BOOST k then w
  else (w.sf F.PD_STAT_BOOST k l).when (w.f F.PD_CFG_MODE k == 1 && w.fb F.PD_IEN_BOOST k) fun w => w.irq (0x0C0 + k)

/-- Entry `i` opens its boost request on its channel. -/
def World.openBoost (w : World) (i : Nat) : World :=
  let f := w.fc i
  let w := w.setFc i { f with boosted := true }
  if f.pclvl = 0 then w
  else if !w.fb F.PD_CFG_EN f.pcch then w.sf F.PD_ERR_BOOSTOFF f.pcch 1
  else World.showBoost { w with boosts := w.boosts ++ [⟨f.pcch, f.pclvl, some i, none⟩] } f.pcch

/-- The boost of entry `i` is to be opened: START − PCLEAD ms has come, and it has not been (R132). -/
def World.precoolDue (w : World) (i : Nat) : Bool :=
  let f := w.fc i
  f.pcen && !f.boosted && f.st != .free && f.st != .passive && decide (f.start ≤ w.tb + 1000000 * f.pclead)

def execPrecoolRequest (i : Nat) (s : State) : Res := onW s fun w => if w.precoolDue i then w.openBoost i else w

/-! ### Hint pins (R112 to R114, R458, R459) -/

/-- The parameters that a template gives a forecast whose edge fell at `now` (R107). -/
def World.template (w : World) (t now : Nat) : FcParam :=
  { start := now + w.f F.FC_TPLF_TLEAD t, step := w.f F.FC_TPLB_STEP t, rise := w.f F.FC_TPLC_RISE t,
    fall := w.f F.FC_TPLC_FALL t, dwell := w.f F.FC_TPLD_DWELL t, adv := w.f F.FC_TPLB_ADV t,
    cwin := w.f F.FC_TPLD_CWIN t, toli := w.f F.FC_TPLE_TOLI t, told := w.f F.FC_TPLE_TOLD t,
    conf := w.f F.FC_TPLA_CONF t
    pc := w.f F.FC_TPLG_PCEN t + 2 * w.f F.FC_TPLG_PCCH t + 16 * w.f F.FC_TPLG_PCLVL t
    pclead := 0, pchold := w.f F.FC_TPLG_PCHOLD t }

/-- The part acts on hint edges: SOLO, or ACTIVE and owning the pads (R459). -/
def World.hintsOn (w : World) : Bool :=
  w.f F.BL_STAT_ROLE 0 == 0 || (w.f F.BL_STAT_ROLE 0 == 1 && w.fb F.BL_STAT_OWN 0)

/-- The checks of R110 on a hint forecast. -/
def World.hintOk (w : World) (r : Nat) (p : FcParam) : Bool :=
  decide (r < w.nRails) && w.rstate r == rsRegulating && w.fb F.FC_CFG_EN 0 && w.fb F.FC_RAILA_IEN r
  && (w.fcCheck r p).isNone

/-- A pulse of (PW + 1) × 4 ns begins on HACKk; one that overlaps another merges into it (R113, R114). -/
def World.hackPulse (w : World) (k : Nat) : World :=
  let ends := w.clk.tbq + 512 * (w.f F.HINT_ACKCFG_PW 0 + 1)
  World.pulse { w with pins := { w.pins with hack := mupd 0 w.pins.hack k (max · ends) } } (0x0C0 + k)

/-- An accepted edge on pin `p` creates the template's forecast, whose pump boost opens at once, and HACK is pulsed (R113,
R132). -/
def World.hintAccept (w : World) (p t r : Nat) (q : FcParam) : World :=
  let (w, fseq) := w.drawFseq r
  let (w, fid) := w.fcAccept r q 1 t fseq
  let i := fid % 128
  let w := w.when ((w.fc i).pcen && (w.fc i).st == .wait) fun w => w.openBoost i
  let w := w.inc F.HINT_CNT_ACCEPTED p
  let w := { w with pins := { w.pins with hintAt := mset 0 w.pins.hintAt p (w.tb + 1) } }
  w.when (w.fb F.HINT_CFG_ACKEN p) fun w => w.hackPulse (w.f F.HINT_CFG_ACK p)

/-- The edge falls within HOLDOFF of the pin's previous accepted one. -/
def World.heldOff (w : World) (p : Nat) : Bool :=
  match mget 0 w.pins.hintAt p with
  | 0 => false
  | a + 1 => decide (w.tb < a + w.f F.HINT_CFG_HOLDOFF p)

/-- A selected edge on HINTp (R112). -/
def World.hint (w : World) (p : Nat) : World :=
  let t := w.f F.HINT_CFG_TPL p
  let w := w.pulse (0x0B0 + p)
  if !w.hintsOn || !w.fb F.HINT_CFG_EN p || !w.fb F.FC_TPLA_EN t || w.heldOff p then w.inc F.HINT_CNT_IGNORED p
  else
    let r := w.f F.FC_TPLA_RAIL t
    let q := w.template t w.tb
    if w.hintOk r q then w.hintAccept p t r q
    else (w.incSat F.FC_TSTAT_REFUSE_REFUSE t).sf F.FC_ERR_REFUSED 0 1

/-- An edge on HINTp: one that comes closer than 8 ns after the last merges into it (R458). -/
def World.hintEdge (w : World) (p : Nat) (rising : Bool) : World :=
  let merged := match mget 0 w.pins.hintSeen p with
    | 0 => false
    | a + 1 => decide (w.tb < a + 8)
  if merged then w.inc F.HINT_CNT_IGNORED p
  else
    let w := { w with pins := { w.pins with hintSeen := mset 0 w.pins.hintSeen p (w.tb + 1) } }
    w.when ((w.f F.HINT_CFG_EDGE p).testBit (if rising then 0 else 1)) fun w => w.hint p

def execHintEdge (p : Nat) (rising : Bool) (t : Nat) (s : State) : Res :=
  onW s fun w => let w := w.upTo t; if w.on 8 && decide (p < 16) then w.hintEdge p rising else w

/-- The width of the pulse on HACKk has expired (R113, R114). -/
def World.hackEnd (w : World) (k : Nat) : World :=
  if w.clk.tbq < mget 0 w.pins.hack k then w else { w with pins := { w.pins with hack := mset 0 w.pins.hack k 0 } }

def execHackPulseEnd (k : Nat) (s : State) : Res := onW s fun w => w.hackEnd k

/-! ### Reservations (R120, R263) -/

/-- The time term of R120, doubled, in ns. -/
def Fc.time2 (f : Fc) : Nat := f.rise + (if f.hold then 2 * f.cwin else 32 * f.dwell + f.fall)

/-- `V_REF × |step| × time`, in nJ rounded up, for a doubled time. -/
def Fc.energy (f : Fc) (stp time2 : Nat) : Nat := cdiv (f.vref * stp * time2) (128000 * 256 * 16384 * 32)

/-- Entry `i` asks the ledger at acceptance, or at t_ra − 20 µs where that is later (R120). -/
def execReservationRequest (i : Nat) (s : State) : Res :=
  onW s fun w =>
    let f := w.fc i
    if f.st = .wait ∧ f.res = .none ∧ w.raStart f ≤ w.clk.tk + 2560000 then
      w.setFc i { f with res := .asked, vref := (w.engine f.rail).ref.toNat * w.f F.RSC_DIVR_RATIO f.rail }
    else w

/-- ΣR and ΣC of rail `r`, nJ. -/
def World.reserved (w : World) (r : Nat) : Nat := ((w.inFlight r).map fun i => (w.fc i).held + (w.fc i).charge).sum

/-- Q of rail `r`, 2^-16 nJ: B takes the mean of the last ten 1 µs increments over the time left (R263). -/
def World.projected (w : World) (r : Nat) : Int :=
  let l := w.ledger r
  let left : Int := (w.f F.EL_RWIN_WINDOW r - l.elapsed : Nat)
  let b := max 0 (l.hist.sum * left / (l.hist.length : Int))
  l.used + b + (65536 * w.reserved r : Nat)

/-- LIMIT in force of rail `r`, nJ. -/
def World.rlim (w : World) (r : Nat) : Nat := w.f F.EL_RLIM_LO_L_LO r + 2 ^ 32 * w.f F.EL_RLIM_HI_L_HI r

/-- The granted step of R263, 1/16 A; none is a refusal. -/
def World.grantOf (w : World) (i : Nat) : Option Int :=
  let f := w.fc i
  let e := f.energy f.step.natAbs f.time2
  let h : Int := 65536 * (w.rlim f.rail : Int) - w.projected f.rail
  let mode := w.f F.EL_RWIN_MODE f.rail
  if !w.fb F.EL_CTL_EN 0 ∨ mode = 0 ∨ (65536 * e : Nat) ≤ h then some f.step
  else if mode ≠ 2 ∨ h ≤ 0 then none
  else
    let g := f.step.natAbs * h.toNat / (65536 * e)
    if g = 0 then none else some (if f.step < 0 then -(g : Int) else g)

/-- The eldest forecast of the rail whose request waits for its answer. -/
def World.firstAsked (w : World) (r : Nat) : Option Nat := (w.inFlight r).find? fun j => (w.fc j).res == .asked

/-- The ledger answers: the reservation is held at once, and the entry takes the grant at the next update boundary (R120, R121,
R263). -/
def World.answer (w : World) (i : Nat) : World :=
  let f := w.fc i
  match w.grantOf i with
  | none => w.setFc i { f with res := .refused }
  | some g =>
    let w := w.setFc i { f with res := .granted, grant := g, held := f.energy g.natAbs f.time2 }
    w.when (g != f.step) fun w => w.inc F.EL_RSTAT_CAPN f.rail

def execReservationAnswer (i : Nat) (s : State) : Res :=
  onW s fun w => if w.firstAsked (w.fc i).rail = some i then w.answer i else w

/-! ### Outcomes, decisions, templates -/

def execOutcomeRelease (r : Nat) (s : State) : Res := onW s fun w => w.releaseOne r

/-- The transmitter has accepted the decision message of entry `i`; the next update boundary acts on it (R121, R131). -/
def execDecisionMessageAccept (i : Nat) (s : State) : Res :=
  onW s fun w => if (w.fc i).decision.isNone then w else w.setFc i { w.fc i with acc := true }

/-- The template registers FC_TPLA to FC_TPLG in the order of their window (R138). -/
def tplReg (x : Nat) : Reg :=
  [R.FC_TPLA, R.FC_TPLB, R.FC_TPLC, R.FC_TPLD, R.FC_TPLE, R.FC_TPLF].getD x R.FC_TPLG

/-- A value with a field outside its range, or an absent rail, in register `x` of a template (R107, R137). -/
def World.tplBad (w : World) (x v : Nat) : Bool :=
  match x with
  | 0 => decide (w.nRails ≤ F.FC_TPLA_RAIL.cut 8 v)
  | 3 => let c := F.FC_TPLD_CWIN.cut 16 v; decide (c < 40) || decide (2000 < c)
  | 5 => let c := F.FC_TPLF_TLEAD.cut 0 v; decide (c < 40) || decide (20000 < c)
  | _ => false

/-- A write of register `x` of template `t` (R115). -/
def World.writeTpl (w : World) (t x v : Nat) : World :=
  if w.fb F.FC_TPLA_EN t then
    if x = 0 then
      (w.when (w.wouldChange R.FC_TPLA t v F.FC_TPLA_EN) fun w => w.sf F.FC_ERR_TPLBUSY 0 1).sf F.FC_TPLA_EN t (v % 2)
    else w.sf F.FC_ERR_TPLBUSY 0 1
  else if w.tplBad x v then w.sf F.FC_ERR_BADVAL 0 1
  else w.putRW (tplReg x) t v

def execFcTplWrite (t x value : Nat) (s : State) : Res :=
  onW s fun w => if w.on 8 ∧ t < 32 ∧ x < 7 then w.writeTpl t x value else w

/-- Every FC_TSTAT counter returns to 0 (R137). -/
def World.statClear (w : World) : World :=
  (List.range 32).foldl (fun w t =>
    (((w.sf F.FC_TSTAT_HIT_HIT t 0).sf F.FC_TSTAT_MISS_MISS t 0).sf F.FC_TSTAT_ABORT_ABORT t 0).sf
      F.FC_TSTAT_REFUSE_REFUSE t 0) w

def execStatclr (s : State) : Res := onW s fun w => if w.on 8 then w.statClear else w

end Sys2Proof.Machine
end

