-- ==== Sys2Proof/Machine/Ic.lean ====
section
/-! DEFINITION. Logical cores and the interrupt controller: lines, pending sources, eligibility, offers
(R346 to R356, R359). -/

namespace Sys2Proof.Machine

/-! ### Logical and physical cores (R359, R364) -/

/-- The cores are eight single ones rather than four lock-step pairs. -/
def World.split (w : World) : Bool := w.fb F.GL_BOOTOPT_SPLIT 0

def World.nCores (w : World) : Nat := if w.split then 8 else 4

/-- The physical core of logical core `c`: the main copy of its pair. -/
def World.phys (w : World) (c : Nat) : Nat := if w.split then c else 2 * c

/-- The logical core of physical core `k`. -/
def World.logical (w : World) (k : Nat) : Nat := if w.split then k else k / 2

def cxIsl (k : Nat) : Nat := if k < 4 then 12 else 13
def World.coreIsl (w : World) (c : Nat) : Nat := cxIsl (w.phys c)

/-- PM_STATE as the power manager's own state gives it (R269, R279). -/
def World.showPm (w : World) : World :=
  w.sf F.PM_STATE_STATE 0
    (if w.pwr.sent ≠ 0 then 3 else if w.pwr.hold ≠ 0 then 2 else if w.pwr.gated ≠ 0 ∧ w.fb F.PM_CFG_TRIMEN 0 then 1 else 0)

/-- Island `n` leaves Trim gating (R19). -/
def World.ungate (w : World) (n : Nat) : World :=
  World.showPm { w with pwr := { w.pwr with gated := if w.pwr.gated.testBit n then w.pwr.gated - 2 ^ n else w.pwr.gated } }

/-- An access reaches island `n`: it leaves Trim gating, and its idle timer starts again (R19, R269). -/
def World.touch (w : World) (n : Nat) : World :=
  w.when (w.fb F.PM_CFG_TRIMEN 0) fun w => (w.when (w.pwr.gated.testBit n) fun w => w.ungate n).start (.trim n)

/-! ### Lines (R346, R347) -/

/-- A register instance reads other than 0. -/
def World.anyBit (w : World) (g : Reg) (i : Nat) : Bool := g.lay.any fun e => w.fb e.2.1 (i * e.2.1.sub + e.2.2)

/-- Status behind interrupt source SI[n] (R464). -/
def World.siStatus (w : World) (n : Nat) : Bool :=
  if n = 0 then w.pmb.ov ||| w.pmb.uv ||| w.pmb.oc ||| w.pmb.ot != 0 || !w.pmb.cml.isEmpty
  else if n < 5 then w.fb F.SI_AVSSTAT_ALERT (n - 1)
  else if n = 5 then w.fb F.SI_I3CSTAT_RXNEW 0
  else if n = 6 then w.anyBit R.SI_ROPEERR 0
  else w.fb F.SI_CMDLAST_NEW 0

/-- BL_ERR as a word (R378). -/
def World.blErr (w : World) : Nat := w.regVal R.BL_ERR 0

/-- Source `s` is level-triggered. -/
def icLevel (s : Nat) : Bool :=
  decide (s < 0x30) || s == 0xA1 || s == 0xB8 || (decide (0xC8 ≤ s) && decide (s < 0xD0)) || decide (0x1E0 ≤ s)

/-- The number names a source. -/
def icReal (s : Nat) : Bool :=
  decide (s < 0x49) || (decide (0x50 ≤ s) && decide (s < 0x90)) || s == 0xA0 || s == 0xA1
  || (decide (0xA8 ≤ s) && decide (s < 0xB4)) || s == 0xB8 || (decide (0xC0 ≤ s) && decide (s < 0xC4))
  || (decide (0xC8 ≤ s) && decide (s < 0xD1)) || (decide (0x100 ≤ s) && decide (s < 0x200))

/-- The line of a level source. -/
def World.icLine (w : World) (s : Nat) : Bool :=
  if s < 0x18 then w.faulted s || (w.f F.PROT_RHIST_SEEN s &&& w.f F.PROT_RIEN_IEN s) != 0
  else if s < 0x30 then w.anyBit R.LE_ERR (s - 0x18)
  else if s = 0xA1 then w.anyBit R.HI_ERR 0
  else if s = 0xB8 then w.blErr &&& w.f F.BL_IEN_IEN 0 != 0
  else if s < 0xD0 then w.siStatus (s - 0xC8) && (w.f F.SI_IEN_IEN 0).testBit (s - 0xC8)
  else (w.f F.IC_PEND_PEND 15).testBit (s - 0x1E0)

/-- Source `s` is pending: a level source only while its line is asserted and it is not in service (R347). -/
def World.pending (w : World) (s : Nat) : Bool :=
  w.fb F.IC_CFG_PEND s && (!icLevel s || (w.icLine s && !w.fb F.IC_CFG_INSVC s))

def World.masked (w : World) (s : Nat) : Bool := (w.f F.IC_MASK_MASK (s / 32)).testBit (s % 32)

def World.icLvl (w : World) (s : Nat) : Nat := w.f F.IC_CFG_LVL s

/-- A line sets its pending bit; a level source is sampled (R347), and so is a channel's level (R386). -/
def World.pend (w : World) (s : Nat) : World :=
  let w := w.efSample s
  if !icReal s then w
  else if icLevel s then w.sf F.IC_CFG_PEND s (b2n (w.icLine s && !w.fb F.IC_CFG_INSVC s))
  else if w.irqEdge.contains s then
    { w.sf F.IC_CFG_PEND s 1 with irqEdge := w.irqEdge.filter fun x => x != s }
  else w

def execIcSourcePend (src : Nat) (s : State) : Res := onW s fun w => if w.on 12 then w.pend src else w

/-! ### Eligibility (R348) -/

/-- The effective level of core `c`. -/
def World.elvl (w : World) (c : Nat) : Nat := ((w.core c).svc.map w.icLvl).foldl max (w.core c).ithr

/-- Eligible but for IE: the source is pending, unmasked and in service nowhere, and its level is above the core's. -/
def World.wants (w : World) (c s : Nat) : Bool :=
  let k := w.core c
  w.pending s && !w.masked s && !w.fb F.IC_CFG_INSVC s && (w.f F.IC_CFG_TARGET s).testBit c
  && (k.st == 1 || k.st == 2) && w.on (w.coreIsl c) && decide (w.elvl c < w.icLvl s)

def World.eligible (w : World) (c s : Nat) : Bool := w.wants c s && (w.core c).mode.testBit 2

/-- The core runs or waits, and neither Trim nor Hold has stopped its clock. -/
def World.awake (w : World) (c : Nat) : Bool :=
  ((w.core c).st == 1 || (w.core c).st == 2) && w.on (w.coreIsl c) && !w.pwr.gated.testBit (w.coreIsl c) && w.pwr.hold == 0

/-- Pending, unmasked sources, highest LVL first, ties to the lower number (R349). -/
def World.icOrder (w : World) : List Nat :=
  let l := idxs 512 fun s => w.pending s && !w.masked s && decide (0 < w.icLvl s)
  (List.range 15).flatMap fun k => l.filter fun s => w.icLvl s == 15 - k

/-- An interrupt is pending for core `c` in the sense of R328. -/
def World.irqFor (w : World) (c : Nat) : Bool := w.icOrder.any fun s => w.wants c s

/-- Whether core `a` is to be chosen before core `b` for a source whose PREF is `pref`. -/
def World.better (w : World) (pref a b : Nat) : Bool :=
  decide (w.elvl a < w.elvl b) || (w.elvl a == w.elvl b && (a == pref && b != pref))

/-- The best core of a list, the first of equals. -/
def World.best (w : World) (pref : Nat) : List Nat → Option Nat
  | [] => none
  | a :: l => match w.best pref l with
    | none => some a
    | some b => if w.better pref b a then some b else some a

/-- The offers of R349: sources in order, each to its best awake eligible core that holds none yet. -/
def World.choose (w : World) : List Nat → List (Nat × Nat) → List (Nat × Nat)
  | [], acc => acc
  | s :: l, acc =>
    let cs := idxs w.nCores fun c => w.awake c && w.eligible c s && !acc.any fun e => e.1 == c
    match w.best (w.f F.IC_CFG_PREF s) cs with
    | some c => w.choose l (acc ++ [(c, s)])
    | none => w.choose l acc

/-- Sources that have eligible cores, none of them awake, wake one (R352): its island is ungated, or Hold ends. -/
def World.wakeFor (w : World) (s : Nat) : World :=
  let cs := idxs w.nCores fun c => w.eligible c s
  if cs.isEmpty || cs.any w.awake then w
  else
    let pref := w.f F.IC_CFG_PREF s
    let c := if cs.contains pref then pref else cs.headD 0
    let w := if w.pwr.hold = 0 then w else ({ w with pwr := { w.pwr with hold := 0 } }.pulse 0x1BC)
    w.ungate (w.coreIsl c)

/-- The IC's choice: offers that no longer stand are withdrawn, new ones made, sleeping cores woken (R349, R350, R352). -/
def World.icOffer (w : World) : World :=
  let l := w.icOrder
  let offers := w.choose l []
  let w := (List.range w.nCores).foldl (fun w c =>
    w.setCore c { w.core c with offer := (offers.find? fun e => e.1 == c).map (·.2) }) w
  l.foldl World.wakeFor w

def execIcOffer (s : State) : Res := onW s fun w => if w.on 12 then w.icOffer else w

/-- A source leaves service; the line of a level source is sampled (R351). -/
def World.leaveService (w : World) (c s : Nat) : World :=
  let w := w.setCore c { w.core c with svc := (w.core c).svc.filter fun x => x != s }
  let w := w.sf F.IC_CFG_INSVC s 0
  w.when (icLevel s) fun w => w.pend s

/-- The core accepts its offer: the source is in service (R350). -/
def World.takeOffer (w : World) (c s : Nat) : World :=
  let w := (w.sf F.IC_CFG_PEND s 0).sf F.IC_CFG_INSVC s 1
  let w := w.sf F.IC_CFG_CORE s c
  w.setCore c { w.core c with offer := none, svc := s :: (w.core c).svc }

/-- A write of IC_CFG sets level, target and preference; LVL = 0 clears PEND; an offer whose terms changed is withdrawn
(R347, R350). -/
def World.writeIcCfg (w : World) (s v : Nat) : World :=
  let change := w.icLvl s != bitsOf v 0 4 || w.f F.IC_CFG_TARGET s != bitsOf v 8 8
  let w := w.putRW R.IC_CFG s v
  let w := w.when (w.icLvl s == 0) fun w => w.sf F.IC_CFG_PEND s 0
  w.when change fun w => (List.range 8).foldl (fun w c =>
    if (w.core c).offer = some s then w.setCore c { w.core c with offer := none } else w) w

def execIcCfgWrite (src value : Nat) (s : State) : Res := onW s fun w => if w.on 12 ∧ src < 512 then w.writeIcCfg src value else w

/-! ### Semaphores (R355) -/

/-- The reader's code in HOLDER. -/
def holderOf : Agent → Nat
  | .host => 8
  | .core c => c

/-- A read of IC_SEM[j]: a free semaphore is taken, a held one is not changed. -/
def World.readSem (w : World) (a : Agent) (j : Nat) : World × Nat :=
  if w.f F.IC_SEM_HOLDER j = 0xF then
    let w := w.sf F.IC_SEM_HOLDER j (holderOf a)
    (w, 1 + 16 * holderOf a)
  else (w, 16 * w.f F.IC_SEM_HOLDER j)

/-- A write of 0 releases. -/
def World.writeSem (w : World) (j v : Nat) : World := if v % 2 = 0 then w.sf F.IC_SEM_HOLDER j 0xF else w

end Sys2Proof.Machine
end

