-- ==== Sys2Proof/Machine/MemBus.lean ====
section
/-! DEFINITION. The memories as the buses reach them: which island holds an address, where a lock-step pair and the flash
windows keep it, powered-down trace banks and wipes (R28, R29, R285, R286, R359, R408, R427, R428, R465). -/

namespace Sys2Proof.Machine

/-- A meaning over the addressed memories and the rest of the state, which always completes. -/
def onM (s : State) (f : Mem → World → Mem × World) : Res :=
  let r := f s.mem s.w
  .next { s with mem := r.1, w := r.2 }

def isTcm (a : Nat) : Bool := within 0x00100000 0x001FFFFF a
def isSram (a : Nat) : Bool := within 0x00200000 0x002FFFFF a
def isFlash (a : Nat) : Bool := within 0x01000000 0x013FFFFF a
def isTrace (a : Nat) : Bool := within 0x02000000 0x02BFFFFF a
def isCairn (a : Nat) : Bool := within 0x03000000 0x030FFFFF a

/-- The island that holds a memory word (R28). -/
def memIsl (a : Nat) : Option Nat :=
  if isTcm a then some (cxIsl ((a - 0x00100000) / 0x20000))
  else if isSram a || isTrace a then some 15
  else if isFlash a then some 14
  else if isCairn a then some 16
  else none

/-- The part booted from bank `FW_STAT.ACTIVE`, which is seen at flash bank 0's window (R465). -/
def World.flashAddr (w : World) (a : Nat) : Nat :=
  if w.f F.FW_STAT_ACTIVE 0 = 0 then a
  else if a < 0x01200000 then a + 0x200000 else a - 0x200000

/-- Where a memory word is kept: a checker core's window is its main core's (R359). -/
def World.memAddr (w : World) (a : Nat) : Nat :=
  if isTcm a then (if !w.split && ((a - 0x00100000) / 0x20000) % 2 == 1 then a - 0x20000 else a)
  else if isFlash a then w.flashAddr a
  else a

/-! ### Trace regions and banks (R418, R424, R427, R428, R432) -/

def trBase (b : Nat) : Nat := 0x02000000 + b * 0x100000

/-- The region of unit `u`: first bank and one past the last. -/
def World.trRegion (w : World) (u : Nat) : Nat × Nat := (w.f F.TR_CFG_BANK0 u, w.f F.TR_CFG_BANK0 u + w.f F.TR_CFG_NBANK u)

def World.trState (w : World) (u : Nat) : Nat := w.f F.TR_STAT_STATE u

/-- ARMED, TRIGGERED or STREAMING. -/
def World.trRuns (w : World) (u : Nat) : Bool := w.trState u == 1 || w.trState u == 2 || w.trState u == 4

/-- Bank `b` lies in the region of a unit not IDLE. -/
def World.bankInUse (w : World) (b : Nat) : Bool :=
  (List.range 4).any fun u => w.trState u != 0 && decide ((w.trRegion u).1 ≤ b) && decide (b < (w.trRegion u).2)

/-- Bank `b` is powered: step 3 of the self budget powers down the banks that no unit uses. -/
def World.bankOn (w : World) (b : Nat) : Bool := !(w.f F.EL_SSTAT_ACT 0).testBit 2 || w.bankInUse b

/-- The unit that is capturing into the trace word `a`. -/
def World.busyUnit (w : World) (a : Nat) : Option Nat :=
  if isTrace a then
    (List.range 4).find? fun u => w.trRuns u && decide (trBase (w.trRegion u).1 ≤ a) && decide (a < trBase (w.trRegion u).2)
  else none

/-- The word lies in a powered-down trace bank. -/
def World.deadBank (w : World) (a : Nat) : Bool := isTrace a && !w.bankOn ((a - 0x02000000) / 0x100000)

/-- Powered-down banks lose their content. -/
def World.dropBanks (w : World) (m : Mem) : Mem :=
  ((List.range 12).filter fun b => !w.bankOn b).foldl (fun m b => m.erase (2 * trBase b) (2 * trBase (b + 1))) m

/-! ### Wipes (R285, R286) -/

/-- The memory of `World.wiping` that holds the word. -/
def World.wipeBit (w : World) (a : Nat) : Option Nat :=
  if isTcm a then some ((w.memAddr a - 0x00100000) / 0x20000)
  else if isSram a then some 8
  else if isTrace a then some 9
  else none

/-- The word is being wiped, and reads as 0. -/
def World.wipingAt (w : World) (a : Nat) : Bool := (w.wipeBit a).any fun b => w.wiping.testBit b

/-! ### Words -/

/-- A memory word as a reader finds it. -/
def World.memRead (w : World) (m : Mem) (a : Nat) : Nat :=
  if w.deadBank a || (memIsl a).isNone then 0 else m.word (w.memAddr a)

/-- A memory word written: a powered-down bank drops it. -/
def World.memWrite (w : World) (m : Mem) (a v : Nat) : Mem :=
  if w.deadBank a || (memIsl a).isNone then m else m.setWord (w.memAddr a) v

/-- Words stored from `a` upward. -/
def World.memWrites (w : World) (m : Mem) (a : Nat) : List Nat → Mem
  | [] => m
  | v :: l => w.memWrites (w.memWrite m a v) (a + 1) l

/-- An access reaches the memory of a word (R19). -/
def World.touchAt (w : World) (a : Nat) : World :=
  match memIsl a with
  | some n => w.touch n
  | none => w

/-- The island of a memory word is off. -/
def World.memOff (w : World) (a : Nat) : Bool := (memIsl a).any fun n => !w.on n

end Sys2Proof.Machine
end

