-- ==== Sys2Proof/Machine/Dma.lean ====
section
/-! DEFINITION. The DMA engines: descriptors, their checks, beats, reshuffle, errors, completion, channels and what resets
do to them (R404 to R417). -/

namespace Sys2Proof.Machine

/-- The part may issue requests on the link (R222). -/
def World.linkReady (w : World) : Bool :=
  w.on 1 && w.fb F.HI_STAT_DLUP 0 && w.fb F.HI_STAT_BME 0 && !w.fb F.HI_STAT_D3 0

/-- The host slot of ring `n`'s write-backs may be written: the ring is enabled, not in STANDBY, and resumed since a link reset
(R211, R222, R223). -/
def World.ringWrites (w : World) (n : Nat) : Bool :=
  w.fb F.RING_CTL_EN n && w.f F.RING_STAT_STATE n != 4 && !(w.ring n).cut

/-- Lengths of the posted writes that the head entry of the buffer makes; none when there is no entry or it must wait for its ring
(R208, R218). -/
def World.headWrites (w : World) : Option (List Nat) :=
  match w.buf with
  | [] => none
  | .msix v :: _ => some (if w.pcie.msixEn && !w.pcie.msixMask && !w.fb F.MSIX_CTRL_MASK v then [4] else [])
  | .wb n .. :: _ => if w.ringWrites n then some [16, 4] else none
  | .record h _ :: _ =>
    if w.evtReady h.ring && w.f F.RING_STAT_STATE h.ring != 4 && decide (0 < w.ringGiven h.ring) then some [60, 4] else none

/-- The head entry may be written now. -/
def World.headReady (w : World) : Bool := w.linkReady && w.headWrites.any fun l => w.credit 0 0 l

/-- A trace write of `n` bytes may go: the credits above HI_TXRSV allow it, and no entry of the buffer can go first (R221). -/
def World.traceReady (w : World) (n : Nat) : Bool :=
  w.linkReady && !w.headReady && w.credit (w.f F.HI_TXRSV_PHDR 0) (w.f F.HI_TXRSV_PDATA 0) [n]

/-- The AER bit of a read that ended in error: Completion Timeout, Unsupported Request, Completer Abort or poisoned data
(R196, R211).  UR and CA are reported by the completer. -/
def World.aerRead (w : World) (e : Nat) : World :=
  let b := if e = 1 then 2 ^ 14 else if e = 4 then 2 ^ 12 else 0
  { w with pcie := { w.pcie with aer := { w.pcie.aer with unc := w.pcie.aer.unc ||| b } } }

/-! ### Descriptors (R406) -/

def DJob.at (j : DJob) (k n : Nat) : Nat := fieldAt j.raw k n
def DJob.saddr (j : DJob) : Nat := j.at 8 8
def DJob.daddr (j : DJob) : Nat := j.at 16 8
def DJob.slen (j : DJob) : Nat := j.at 24 2
def DJob.slines (j : DJob) : Nat := j.at 26 2
def DJob.sstride (j : DJob) : Int := sx 32 (j.at 28 4)
def DJob.dlen (j : DJob) : Nat := j.at 32 2
def DJob.dlines (j : DJob) : Nat := j.at 34 2
def DJob.dstride (j : DJob) : Int := sx 32 (j.at 36 4)
def DJob.sHost (j : DJob) : Bool := j.at 40 1 % 4 == 0
def DJob.dHost (j : DJob) : Bool := j.at 40 1 / 4 % 4 == 0
def DJob.shuf (j : DJob) : Nat := j.at 40 1 / 16 % 8
def DJob.barrier (j : DJob) : Bool := bitOf (j.at 40 1) 7
def DJob.sharg (j : DJob) : Nat := j.at 41 1 % 16
def DJob.factor (j : DJob) : Nat := j.sharg + 1
def DJob.next (j : DJob) : Nat := j.at 44 4
def DJob.irq (j : DJob) : Bool := bitOf (j.at 3 1) 0
def DJob.total (j : DJob) : Nat := j.slen * j.slines
/-- Elements whose read has not been issued (R412). -/
def DJob.count (j : DJob) : Nat := j.total - j.issued

/-- A descriptor that R206 refuses: BAD_OPCODE or DESC_MALFORMED. -/
def descBad (isOp : Nat → Bool) (raw : List Nat) : Option Nat :=
  let rail := fieldAt raw 2 1
  if !isOp (fieldAt raw 0 2) then some 0xE0
  else if fieldAt raw 3 1 / 4 ≠ 0 ∨ fieldAt raw 60 3 ≠ 0 ∨ fieldAt raw 63 1 % 128 ≠ 0 ∨ (23 < rail ∧ rail ≠ 0xFF) then some 0xE1
  else none

def dmaOp (c : Nat) : Bool := c == 0x0000 || c == 0x0C01

/-! ### Checks (R407 to R409, R411) -/

/-- SHARG does not meet the mode. -/
def DJob.shargBad (j : DJob) : Bool :=
  match j.shuf with
  | 0 => j.sharg != 0
  | 1 => j.sharg == 0 || j.slen % j.factor != 0
  | 2 => j.sharg == 0 || j.slines % j.factor != 0
  | 3 => j.sharg != 0 || j.total % 16 != 0
  | _ => false

/-- The lowest byte offset that fails the first check. -/
def DJob.paramBad (j : DJob) : Option Nat :=
  let c := j.at 40 1
  ([(2, j.at 2 1 != 0xFF), (8, j.sHost && j.saddr % 2 == 1), (16, j.dHost && j.daddr % 2 == 1),
    (24, j.slen == 0 || j.total != j.dlen * j.dlines), (26, j.slines == 0), (32, j.dlen == 0), (34, j.dlines == 0),
    (40, decide (1 < c % 4) || decide (1 < c / 4 % 4) || (j.sHost && j.dHost) || decide (3 < j.shuf)),
    (41, j.shargBad || j.at 41 1 / 16 != 0), (42, j.at 42 1 != 0), (43, j.at 43 1 != 0)].find? (·.2)).map (·.1)

/-- First and last word of internal line `i`; none below 0. -/
def lineOf (addr : Nat) (stride : Int) (len i : Nat) : Option (Nat × Nat) :=
  let a : Int := (addr % 2 ^ 32 : Nat) + stride * i
  if a < 0 then none else some (a.toNat, a.toNat + len - 1)

/-- A range of words lies in a region that R408 allows. -/
def World.regionOk (w : World) (wr : Bool) (lo hi : Nat) : Bool :=
  (decide (0x00100000 ≤ lo) && decide (hi ≤ 0x002FFFFF))
  || (decide (0x02000000 ≤ lo) && decide (hi ≤ 0x02BFFFFF)
      && !(wr && (List.range 4).any fun u => w.trRuns u && decide (trBase (w.trRegion u).1 ≤ hi)
            && decide (lo < trBase (w.trRegion u).2)))
  || (!wr && decide (0x01000000 ≤ lo) && decide (hi ≤ 0x013FFFFF))
  || (!wr && decide (0x03000000 ≤ lo) && decide (hi ≤ 0x030FFFFF))

/-- Window `x` allows the direction. -/
def World.hwinFor (w : World) (wr : Bool) (x : Nat) : Bool :=
  w.fb F.DMA_HWIN_ATTR_EN x && (if wr then w.fb F.DMA_HWIN_ATTR_WR x else w.fb F.DMA_HWIN_ATTR_RD x)

/-- Every word of the range lies in a window that allows the direction; `n` windows are tried one after another. -/
def World.hwinCover (w : World) (wr : Bool) (hi : Nat) : Nat → Nat → Bool
  | 0, _ => false
  | n + 1, lo =>
    let tops := ((List.range 4).filter fun x => w.hwinFor wr x && within (w.f F.DMA_HWIN_BASE_BASE x) (w.f F.DMA_HWIN_LIMIT_LIMIT x) lo).map
      fun x => w.f F.DMA_HWIN_LIMIT_LIMIT x
    match tops.max? with
    | none => false
    | some t => decide (hi ≤ t) || w.hwinCover wr hi n (t + 1)

/-- Every line of a side passes `ok`. -/
def linesOk (addr : Nat) (stride : Int) (len lines : Nat) (ok : Nat → Nat → Bool) : Bool :=
  (List.range lines).all fun i => match lineOf addr stride len i with
    | some (lo, hi) => ok lo hi
    | none => false

/-- The checks of R407: the status and XSTAT of the first that fails. -/
def World.moveBad (w : World) (ring : Bool) (j : DJob) : Option (Nat × Nat) :=
  match j.paramBad with
  | some x => some (0xC0, x)
  | none =>
    let src (ok : Nat → Nat → Bool) : Bool := j.sHost || linesOk j.saddr j.sstride j.slen j.slines ok
    let dst (ok : Nat → Nat → Bool) : Bool := j.dHost || linesOk j.daddr j.dstride j.dlen j.dlines ok
    if !src (w.regionOk false) then some (0xC1, 1)
    else if !dst (w.regionOk true) then some (0xC1, 2)
    else if !ring then none
    else if !src (fun lo hi => w.hwinCover false hi 4 lo) then some (0xC2, 1)
    else if !dst (fun lo hi => w.hwinCover true hi 4 lo) then some (0xC2, 2)
    else none

/-! ### Addressing and reshuffle (R410, R411) -/

/-- The address of element `e` of a side. -/
def elemAddr (host : Bool) (addr : Nat) (stride : Int) (len e : Nat) : Nat :=
  let i := e / len
  let k := e % len
  if host then unI 64 ((addr : Int) + stride * i + 2 * k) else unI 32 ((addr : Int) + stride * i + k)

def DJob.srcAddr (j : DJob) (e : Nat) : Nat := elemAddr j.sHost j.saddr j.sstride j.slen e
def DJob.dstAddr (j : DJob) (e : Nat) : Nat := elemAddr j.dHost j.daddr j.dstride j.dlen e

/-- The input element that output element `k` is, for the modes that move whole elements. -/
def DJob.inputOf (j : DJob) (k : Nat) : Nat :=
  let L := j.slen
  let f := j.factor
  match j.shuf with
  | 1 => let o := k % L; k / L * L + o % (L / f) * f + o / (L / f)
  | 2 => let o := k % (f * L); k / (f * L) * (f * L) + o % f * L + o / f
  | _ => k

/-- Output element `k`, once the inputs it takes have been read. -/
def DJob.out (j : DJob) (k : Nat) : Option Nat :=
  if j.total ≤ k then none
  else if j.shuf = 3 then
    let g := k / 16 * 16
    if j.got.length < g + 16 then none
    else some (((List.range 16).map fun i => b2n (bitOf (j.got.getD (g + i) 0) (k % 16)) <<< i).sum)
  else j.got[j.inputOf k]?

/-- Up to `n` consecutive output elements from `k`. -/
def DJob.outs (j : DJob) : Nat → Nat → List Nat
  | 0, _ => []
  | n + 1, k => match j.out k with
    | some v => v :: j.outs n (k + 1)
    | none => []

/-- Elements of the beat at element `e` of a side: it ends with the line, and at a 64-byte boundary of the host (R404). -/
def beatLen (host : Bool) (addr len e : Nat) : Nat :=
  let n := min 32 (len - e % len)
  if host then min n ((64 - addr % 64) / 2) else n

/-! ### The users' queues (R405) -/

def World.dmaQ (w : World) (u : Nat) : List DJob := mget [] w.dma u
def World.setDmaQ (w : World) (u : Nat) (l : List DJob) : World := { w with dma := mset [] w.dma u l }
def World.setJob (w : World) (u i : Nat) (j : DJob) : World := w.setDmaQ u ((w.dmaQ u).set i j)

/-- DMA_STAT.BUFUSED: 64-byte units that hold what has been read or asked for and not written (R429). -/
def World.bufUsed (w : World) : Nat :=
  (w.dma.map fun e => (e.2.map fun j => cdiv (2 * (j.issued - j.written)) 64).sum).sum

/-- Completion of a descriptor toward its user (R414, R415): a ring's write-back, or the channel's registers and the
next descriptor of its chain.  `load` reads that descriptor. -/
def World.dmaDone (w : World) (u : Nat) (j : DJob) (status xstat done : Nat) : World :=
  match j.src with
  | some src => w.complete { src := src, op := .nop, rail := 0xFF, stamp := done } status xstat 0
  | none => w.when (decide (16 ≤ u)) fun w =>
    let c := u - 16
    let w := ((w.sf F.DMA_CHSTAT_STATUS c status).sf F.DMA_CHSTAT_XSTAT c xstat).sf F.DMA_CHCNT_DONECNT c done
    (w.pulse (0x120 + c)).when j.irq fun w => w.irq (0x070 + c)

/-- Channel `c` loads the descriptor at word `ptr` and runs it, or ends its chain on one that R206 refuses (R415). -/
def World.chLoad (w : World) (m : Mem) (c ptr : Nat) : World :=
  let raw := (List.range 32).flatMap fun i => leBytes 2 (w.memRead m (ptr + i))
  let w := w.sf F.DMA_CHCUR_ADDR c ptr
  let j : DJob := { raw := raw }
  match descBad dmaOp (raw.take 63 ++ [0]) with
  | some st => (w.dmaDone (16 + c) j st 0 0).sf F.DMA_CHSTAT_BUSY c 0
  | none => w.setDmaQ (16 + c) [j]

/-- The descriptor at place `i` leaves its queue with a status (R414, R415). -/
def World.dmaEnd (w : World) (m : Mem) (u i : Nat) (j : DJob) (status xstat done : Nat) : World :=
  let w := (w.setDmaQ u ((w.dmaQ u).eraseIdx i)).dmaDone u j status xstat done
  if u < 16 then w
  else if status = 0 ∧ j.next ≠ 0 then w.chLoad m (u - 16) (j.next / 32 * 32)
  else w.sf F.DMA_CHSTAT_BUSY (u - 16) 0

/-- Every descriptor before place `i` lets the next one read: its COUNT is 0, it sets no barrier and has not failed
(R413). -/
def mayPass (l : List DJob) (i : Nat) : Bool :=
  (l.take i).all fun j => j.started && j.count == 0 && !j.barrier && j.err.isNone && j.abort.isNone

def firstIdx (l : List DJob) (p : DJob → Bool) : Option (Nat × DJob) :=
  ((List.range l.length).zip l).find? fun e => p e.2

/-- The first descriptor not started, with its place, when it may start. -/
def World.dmaWaiting (w : World) (u : Nat) : Option (Nat × DJob) :=
  (firstIdx (w.dmaQ u) fun j => !j.started).filter fun e => mayPass (w.dmaQ u) e.1

/-- A MOVE descriptor is checked, and its beats may begin (R407). -/
def World.dmaMove (w : World) (m : Mem) (u : Nat) : World :=
  match w.dmaWaiting u with
  | some (i, j) =>
    if j.at 0 2 ≠ 0x0C01 ∨ w.on 15 = false then w
    else match w.moveBad (decide (u < 16)) j with
      | some (st, x) => w.dmaEnd m u i j st x 0
      | none => w.setJob u i { j with started := true }
  | none => w

def execDmaMove (u : Nat) (s : State) : Res := onW s fun w => w.dmaMove s.mem u

/-- A NOP completes OK at once (R406). -/
def execDmaNop (u : Nat) (s : State) : Res :=
  onW s fun w => match w.dmaWaiting u with
    | some (i, j) => if j.at 0 2 = 0 ∧ w.on 15 then w.dmaEnd s.mem u i j 0 0 0 else w
    | none => w

/-! ### Beats (R404, R412) -/

/-- The next beat may be issued: the last one waits for every earlier beat's answers. -/
def DJob.mayIssue (j : DJob) (n : Nat) : Bool :=
  j.started && j.err.isNone && j.abort.isNone && decide (0 < j.count)
  && (decide (n < j.count) || (j.flight.isEmpty && (j.dHost || (j.out j.written).isNone)))

/-- The class of user `u`: the host rings and CAIRN_READ (48) share one (R405). -/
def World.dmaClass (w : World) (u : Nat) : Nat :=
  if u < 16 ∨ u = 48 then w.f F.DMA_CTL_HPRIO 0 else w.f F.DMA_CHCTL_PRIO (u - 16)

/-- Users that come behind user `last - 1` in the round robin before user `u` does. -/
def dmaPos (last u : Nat) : Nat := (u + 49 - last % 49) % 49

/-- User `u` is served next by engine `e`: it is ready, no user of a higher class is, and none of its class comes before it in the
round robin (R405). -/
def World.dmaTurn (w : World) (e : Nat) (ready : Nat → Bool) (u : Nat) : Bool :=
  let c := w.dmaClass u
  let last := mget 0 w.dmaLast (4 * e + c)
  ready u && (List.range 49).all fun v =>
    !ready v || decide (w.dmaClass v < c) || (w.dmaClass v == c && decide (dmaPos last u ≤ dmaPos last v))

/-- Engine `e` has served user `u`. -/
def World.dmaServed (w : World) (e u : Nat) : World := { w with dmaLast := mset 0 w.dmaLast (4 * e + w.dmaClass u) (u + 1) }

/-- The descriptor of user `u` whose next beat the read engine would issue. -/
def World.dmaReads (w : World) (u : Nat) : Option (Nat × DJob) :=
  (firstIdx (w.dmaQ u) fun j => !j.started || decide (0 < j.count)).filter fun e =>
    let j := e.2
    let a := j.srcAddr j.issued
    w.on 15 && mayPass (w.dmaQ u) e.1 && j.mayIssue (beatLen j.sHost a j.slen j.issued) && decide (w.bufUsed < 4096)
    && (if j.sHost then w.linkReady && w.pcie.np != some 0 else !w.wipingAt a)

/-- The read engine issues the next beat of user `u`. -/
def World.dmaRead (w : World) (m : Mem) (u : Nat) : World :=
  match w.dmaReads u with
  | none => w
  | some (i, j) =>
    let a := j.srcAddr j.issued
    let n := beatLen j.sHost a j.slen j.issued
    if j.sHost then
      (World.setJob { w with pcie := { w.pcie with np := w.pcie.np.map (· - 1) } } u i { j with issued := j.issued + n, flight := j.flight ++ [⟨j.issued, n, [], 0, w.clk.tk⟩] }).emit (.hostRead a (2 * n))
    else
      let off := w.memOff a
      let data := if off then [] else (List.range n).map fun k => w.memRead m (a + k)
      w.setJob u i { j with issued := j.issued + n, flight := j.flight ++ [⟨j.issued, n, data, if off then 6 else 0, w.clk.tk⟩] }

/-- The read engine may serve user `u` now. -/
def World.readTurn (w : World) (u : Nat) : Bool := w.dmaTurn 0 (fun v => (w.dmaReads v).isSome) u

def execDmaBeatRead (u : Nat) (s : State) : Res :=
  onW s fun w => if w.readTurn u then (w.dmaServed 0 u).dmaRead s.mem u else w

/-- Status and XSTAT of an error answer: 1 to 4 the host's, 5 ECC, 6 an island that is off (R412). -/
def dmaErr (e : Nat) : Nat × Nat := if e ≤ 4 then (0xC3, e) else if e = 5 then (0xC4, 0) else (0xC5, 0)

/-- An error of a beat with `n` elements from element `first`. -/
def DJob.fail (j : DJob) (st : Nat × Nat) (first n : Nat) : DJob :=
  if j.err.isSome then j
  else { j with err := some (if j.count = 0 then (0xC6, st.1, j.total - n) else (st.1, st.2, first)) }

/-- The oldest beat in flight of user `u` is answered with data or an error. -/
def World.dmaAnswer (w : World) (u : Nat) (data : List Nat) (err : Nat) : World :=
  match firstIdx (w.dmaQ u) fun j => !j.flight.isEmpty with
  | none => w
  | some (i, j) =>
    match j.flight with
    | [] => w
    | b :: l =>
      let j := { j with flight := l }
      let e := if b.err ≠ 0 then b.err else err
      if e ≠ 0 then (w.aerRead (if j.sHost then e else 0)).setJob u i (j.fail (dmaErr e) b.first b.count)
      else if j.err.isSome then w.setJob u i j
      else
        let v := if j.sHost then (List.range b.count).map fun k => data.getD k 0 % 65536 else b.data
        w.setJob u i { j with got := j.got ++ v }

def execDmaBeatAnswer (u : Nat) (data : List Nat) (err : Nat) (s : State) : Res := onW s fun w => w.dmaAnswer u data err

/-- The elements of the next beat that the write engine would drain for a descriptor. -/
def DJob.beat (j : DJob) : List Nat := j.outs (beatLen j.dHost (j.dstAddr j.written) j.dlen j.written) j.written

/-- The descriptor of user `u` whose next beat the write engine would drain. -/
def World.dmaWrites (w : World) (u : Nat) : Option (Nat × DJob) :=
  (firstIdx (w.dmaQ u) fun j => j.started && j.abort.isNone && decide (j.written < j.total)
      && (j.err.isNone || (j.out j.written).isSome)).filter fun e =>
    let j := e.2
    w.on 15 && !j.beat.isEmpty && (if j.dHost then w.traceReady (2 * j.beat.length) else !w.wipingAt (j.dstAddr j.written))

/-- The write engine drains the next beat of user `u` to its destination. -/
def World.dmaWrite (w : World) (m : Mem) (u : Nat) : Mem × World :=
  match w.dmaWrites u with
  | none => (m, w)
  | some (i, j) =>
    let a := j.dstAddr j.written
    let l := j.beat
    let n := l.length
    if j.dHost then
      (m, ((w.spend [2 * n]).setJob u i { j with written := j.written + n }).emit (.hostWrite a (l.flatMap (leBytes 2))))
    else if w.memOff a then (m, w.setJob u i { j.fail (0xC5, 0) j.written n with written := j.written + n })
    else if (w.busyUnit a).isSome then (m, w.setJob u i { j.fail (0xC1, 2) j.written n with written := j.written + n })
    else (w.memWrites m a l, w.setJob u i { j with written := j.written + n })

/-- The write engine sends the next 64 bytes of the first CAIRN_READ, slot by slot to ADDR + n × 256; its command completes after the
last of them (R238, R491). -/
def World.crnWrite (w : World) (m : Mem) : World :=
  match w.crnRd with
  | [] => w
  | j :: l =>
    let b := m.getBytes (0x06000000 + 256 * ((j.first + j.pos / 256) % 8192) + j.pos % 256) 64
    let w := (w.spend [64]).emit (.hostWrite (j.addr + j.pos) b)
    if j.pos + 64 < 256 * j.count then { w with crnRd := { j with pos := j.pos + 64 } :: l }
    else World.completeWaits { w with crnRd := l } (fun x => x.on == .cairn && x.cmd == j.cmd) stOk 0 j.count

/-- The write engine may serve user `u` now; user 48 is CAIRN_READ. -/
def World.writeTurn (w : World) (u : Nat) : Bool :=
  w.dmaTurn 1 (fun v => if v = 48 then !w.crnRd.isEmpty && w.on 15 && w.traceReady 64 else (w.dmaWrites v).isSome) u

def execDmaBeatWrite (u : Nat) (s : State) : Res :=
  onM s fun m w =>
    if !w.writeTurn u then (m, w)
    else if u = 48 then (m, (w.dmaServed 1 48).crnWrite m)
    else (w.dmaServed 1 u).dmaWrite m u

/-- The oldest descriptor of user `u` is confirmed, or its error or abort decided (R413 to R415). -/
def World.dmaConfirm (w : World) (m : Mem) (u : Nat) : World :=
  match w.dmaQ u with
  | [] => w
  | j :: _ =>
    if !j.flight.isEmpty then w
    else match j.abort, j.err with
      | some x, _ => w.dmaEnd m u 0 j 0xC7 x j.written
      | none, some (st, x, n) => if (j.out j.written).isSome then w else w.dmaEnd m u 0 j st x n
      | none, none => if j.started ∧ j.written = j.total ∧ j.count = 0 then w.dmaEnd m u 0 j 0 0 j.total else w

def execDmaMoveConfirm (u : Nat) (s : State) : Res := onW s fun w => w.dmaConfirm s.mem u

/-! ### Channels (R415, R426) -/

/-- A channel that a trace unit signals on is reserved to the unit. -/
def World.chReserved (w : World) (c : Nat) : Bool := decide (28 ≤ c) && w.fb F.TR_CFG_CHEN (c - 28)

/-- A start of channel `c`'s chain. -/
def World.chStart (w : World) (m : Mem) (c : Nat) : World :=
  if w.chReserved c ∨ w.on 15 = false then w
  else if w.fb F.DMA_CHSTAT_BUSY c then w.incSat F.DMA_CHSTAT_TRIGOVR c
  else (w.sf F.DMA_CHSTAT_BUSY c 1).chLoad m c (w.f F.DMA_CHPTR_ADDR c / 32 * 32)

def execDmaChannelStart (c : Nat) (s : State) : Res := onW s fun w => w.chStart s.mem c

/-- An edge of channel `ch` at the trigger input of DMA channel `c`: it acts at the end of its holdoff, and one that merges is counted. -/
def execDmaChannelTrigger (c : Nat) (s : State) (t : Nat := 0) (ch : Nat := 0) (fall : Bool := false) : Res :=
  onW s fun w =>
    let w := w.upTo t
    if !(w.on 15 && w.fb F.DMA_CHCTL_TRIGEN c && w.f F.DMA_CHCTL_TRIGCH c == ch && w.fb F.DMA_CHCTL_TRIGFALL c == fall) then w
    else w.input (640 + c) t (fun w => if w.chReserved c then w else w.incSat F.DMA_CHSTAT_TRIGOVR c) fun w =>
      (w.upTo (t + 256)).chStart s.mem c

/-- ABORT: no further beat; the descriptor completes once its beats in flight are answered. -/
def World.chAbort (w : World) (m : Mem) (c : Nat) : World :=
  match w.dmaQ (16 + c) with
  | [] => w
  | j :: _ => (w.setJob (16 + c) 0 { j with abort := some 0 }).dmaConfirm m (16 + c)

def execDmaChannelAbort (c : Nat) (s : State) : Res := onW s fun w => if w.on 15 then w.chAbort s.mem c else w

/-! ### Resets (R417) -/

/-- The first running descriptor of user `u` with a host side ends at a link reset; `n` are tried. -/
def World.dmaCutUser (w : World) (m : Mem) (u : Nat) : Nat → World
  | 0 => w
  | n + 1 =>
    match firstIdx (w.dmaQ u) fun j => j.started && (j.sHost || j.dHost) with
    | none => w
    | some (i, j) => (w.dmaEnd m u i j 0xC7 1 (if j.dHost then j.written else j.got.length)).dmaCutUser m u n

/-- A link reset ends every descriptor that has a host side. -/
def World.dmaLinkReset (w : World) (m : Mem) : World :=
  (w.dma.map (·.1)).foldl (fun w u => w.dmaCutUser m u (w.dmaQ u).length) w

/-- An ISLAND reset of MEM or a WARM reset ends everything in progress. -/
def World.dmaStop (w : World) : World :=
  let w' := w.dma.foldl (fun w e => e.2.foldl (fun w j =>
    if j.src.isSome then w.dmaDone e.1 j 0xC7 2 j.written else w) w) w
  { w' with dma := [] }

end Sys2Proof.Machine
end

