-- ==== Sys2Proof/Machine/Trace.lean ====
section
/-! DEFINITION. The trace units and the BAR2 window: arming, triggers, records, drops, and what the host writes
(R32, R418 to R428). -/

namespace Sys2Proof.Machine

def World.trc_ (w : World) (u : Nat) : Trc := mget {} w.trc u
def World.setTrc (w : World) (u : Nat) (t : Trc) : World := { w with trc := mset {} w.trc u t }

/-- HI_ERR as a word (R225). -/
def World.hiErrWord (w : World) : Nat := w.regVal R.HI_ERR 0

/-- A bit of HI_ERR sets: the first access that does so is captured, and ERRVEC is signalled (R203, R220). -/
def World.hiErr (w : World) (B : Fld) (at_ : Option (Nat × Nat)) : World :=
  if !w.on 1 then w
  else
    let old := w.hiErrWord
    let rise := !w.fb B 0
    let w := w.sf B 0 1
    let w := match at_ with
      | some (bar, off) => if old = 0 then ((w.sf F.HI_ERRADDR_OFFSET 0 off).sf F.HI_ERRADDR_BAR 0 bar).sf F.HI_ERRADDR_VALID 0 1 else w
      | none => w
    if rise ∧ w.fb F.HI_CTL_ERRIEN 0 then w.put (.msix (w.f F.HI_CTL_ERRVEC 0)) else w

/-- Records that the region of unit `u` holds (R419). -/
def World.trSize (w : World) (u : Nat) : Nat := w.f F.TR_CFG_NBANK u * 16384

/-- Rate of a source, MS/s (R419, R421). -/
def srcRate (s : Nat) : Nat :=
  if s < 0x18 then 3200 else if 0x80 ≤ s then 250 else if s % 0x20 < 0x18 then 100 else 0

/-- Sum of the rates of unit `u`'s streams. -/
def World.trRate (w : World) (u : Nat) : Nat :=
  ((List.range 8).map fun k => if w.fb F.TR_SRC_EN (8 * u + k) then srcRate (w.f F.TR_SRC_SRC (8 * u + k)) else 0).sum

/-- The TR_ERR bits that refuse an arm of unit `u` (R421, R428). -/
def World.armBad (w : World) (u : Nat) : List Fld :=
  let b := w.trRegion u
  let size := w.trSize u
  let region := decide (12 < b.2) || decide (b.1 = b.2) || !((List.range 8).any fun k => w.fb F.TR_SRC_EN (8 * u + k))
    || decide (size < w.f F.TR_PRE_PRE u + w.f F.TR_POST_POST u + 1)
    || (List.range 4).any fun v => v != u && w.trState v != 0 && decide (b.1 < (w.trRegion v).2) && decide ((w.trRegion v).1 < b.2)
  let rate := ((List.range 4).map fun v => if v = u ∨ w.trRuns v then w.trRate v else 0).sum
  (if region then [F.TR_ERR_REGION] else []) ++ (if 12800 < rate then [F.TR_ERR_RATE] else [])
  ++ (if (w.f F.EL_SSTAT_ACT 0).testBit 2 then [F.TR_ERR_BUDGET] else [])
  ++ (if bitOf (w.f F.GL_WIPESTAT_WIPING 0) 15 then [F.TR_ERR_WIPE] else [])

/-- TR_CTL.ARM (R422). -/
def World.trArm (w : World) (u : Nat) : World :=
  if w.trRuns u then w.sf F.TR_ERR_STATE u 1
  else
    let bad := w.armBad u
    if !bad.isEmpty then bad.foldl (fun w F => w.sf F u 1) w
    else
      let w := ((w.sf F.TR_SEQ_SEQ u 0).sf F.TR_DROP_DROPPED u 0).sf F.TR_TRIGSEQ_SEQ u 0xFFFFFFFF
      let w := ((w.sf F.TR_FIRSTSEQ_SEQ u 0).sf F.TR_TRIGTB_LO_T_LO u 0).sf F.TR_TRIGTB_HI_T_HI u 0
      let w := ((w.sf F.TR_STAT_SHORTPRE u 0).sf F.TR_STAT_STOPPED u 0).setTrc u {}
      if w.fb F.TR_CFG_MODE u then (w.sf F.TR_RDSEQ_SEQ u 0).sf F.TR_STAT_STATE u 4 else w.sf F.TR_STAT_STATE u 1

def execTraceArm (u : Nat) (s : State) : Res := onW s fun w => if w.on 15 ∧ u < 4 then w.trArm u else w

/-- A trigger of unit `u` (R422, R423). -/
def World.trTrigger (w : World) (u : Nat) : World :=
  if w.trState u = 1 then
    ((w.sf F.TR_STAT_STATE u 2).sf F.TR_TRIGTB_LO_T_LO u w.tb).sf F.TR_TRIGTB_HI_T_HI u (w.tb / 2 ^ 32)
  else if w.trState u = 0 then w
  else w.incSat F.TR_STAT_TRIGOVR u

/-- A trigger by TR_CTL.TRIG, or by an edge of channel `ch` when TRIGEN: at the end of the event's holdoff, a merged one counted as
ignored. -/
def execTraceTrigger (u : Nat) (event : Bool) (t : Nat) (s : State) (ch : Nat := 0) (fall : Bool := false) : Res :=
  onW s fun w =>
    let w := w.upTo t
    if !(w.on 15 && decide (u < 4)) then w
    else if !event then w.trTrigger u
    else if !(w.fb F.TR_CFG_TRIGEN u && w.f F.TR_CFG_TRIGCH u == ch && w.fb F.TR_CFG_TRIGFALL u == fall) then w
    else w.input (704 + u) t (fun w => if w.trState u = 0 then w else w.incSat F.TR_STAT_TRIGOVR u) fun w => (w.upTo (t + 256)).trTrigger u

/-! ### Signals (R426) -/

/-- The payload of TRACE_DONE (0x20) and TRACE_DROP (0x21). -/
def World.trEvent (w : World) (kind u : Nat) : List Nat :=
  leBytes 1 kind ++ leBytes 1 u ++ leBytes 2 (w.f F.TR_STAT_SHORTPRE u + 2 * w.f F.TR_STAT_STOPPED u)
  ++ leBytes 4 (if kind = 0x20 then w.f F.TR_FIRSTSEQ_SEQ u else w.f F.TR_RDSEQ_SEQ u)
  ++ leBytes 4 (w.f F.TR_TRIGSEQ_SEQ u) ++ leBytes 4 (unI 32 (w.f F.TR_SEQ_SEQ u - 1))
  ++ leBytes 8 (w.f F.TR_TRIGTB_LO_T_LO u + 2 ^ 32 * w.f F.TR_TRIGTB_HI_T_HI u)
  ++ leBytes 4 (w.f F.TR_DROP_DROPPED u) ++ leBytes 4 0

def World.trSignal (w : World) (kind u : Nat) : World :=
  let w := w.when (w.fb F.TR_CFG_EVTEN u) fun w => w.record 3 0xFF (w.trEvent kind u)
  w.when (w.fb F.TR_CFG_CHEN u) fun w => (w.pulse (0x120 + 28 + u)).irq (0x070 + 28 + u)

/-! ### Records (R420, R424, R425) -/

/-- The 64 words of a record. -/
def trWords (src flags nsamp seq t idx mask : Nat) (samples : List Nat) : List Nat :=
  let tb := t / 128 % 2 ^ 48
  [src + 256 * flags, nsamp + 256 * (t % 128), seq % 65536, seq / 65536, tb % 65536, tb / 65536 % 65536, tb / 2 ^ 32,
   idx + 256 * mask] ++ (samples ++ List.replicate (56 - samples.length) 0).take 56

/-- Record SEQ is stored at its slot and SEQ advances. -/
def World.trPut (w : World) (m : Mem) (u : Nat) (words : Nat → List Nat) : Mem × World :=
  let s := w.f F.TR_SEQ_SEQ u
  let size := max 1 (w.trSize u)
  (w.memWrites m (trBase (w.f F.TR_CFG_BANK0 u) + s % size * 64) (words s), w.sf F.TR_SEQ_SEQ u (s + 1))

/-- A STREAM record may be written. -/
def World.trRoom (w : World) (u : Nat) : Bool :=
  w.trState u != 4 || decide (w.f F.TR_SEQ_SEQ u - w.f F.TR_RDSEQ_SEQ u < w.trSize u)

/-- Samples that found no room are counted, and told at most once per 1 ms. -/
def World.trDrop (w : World) (u src n t : Nat) : World :=
  let w := w.sf F.TR_DROP_DROPPED u (w.f F.TR_DROP_DROPPED u + n)
  let c := w.trc_ u
  let l := match c.drops.find? fun d => d.1 == src with
    | some d => c.drops.map fun e => if e.1 = src then (src, satU 32 (d.2.1 + n), d.2.2) else e
    | none => c.drops ++ [(src, satU 32 n, t)]
  let due := match c.told with
    | none => true
    | some x => decide (x + 1000000 ≤ w.tb)
  let w := w.setTrc u { c with drops := l, told := if due then some w.tb else c.told }
  w.when due fun w => w.trSignal 0x21 u

/-- The GAP record of a stream that dropped samples precedes its next record. -/
def World.trGap (w : World) (m : Mem) (u src : Nat) : Mem × World :=
  match (w.trc_ u).drops.find? fun d => d.1 == src with
  | none => (m, w)
  | some (_, n, t) =>
    let w := w.setTrc u { w.trc_ u with drops := (w.trc_ u).drops.filter fun d => d.1 != src }
    w.trPut m u fun s => trWords src 1 0 s t 0 0 [n % 65536, n / 65536]

/-- Unit `u` enters DONE with the records kept. -/
def World.trDone (w : World) (u first : Nat) : World :=
  ((w.sf F.TR_STAT_STATE u 3).sf F.TR_FIRSTSEQ_SEQ u first).trSignal 0x20 u

/-- Ticks between two samples of stream `src` (R419). -/
def World.trSpacing (w : World) (src : Nat) : Nat := if src < 0x18 then 40 else if 0x80 ≤ src then 512 else w.tu (src % 0x20)

/-- Index of the first of `n` samples, the first one at Time Base `t` in ticks, that lies at or after TRIGTB (R423). -/
def World.trIndex (w : World) (u src t n : Nat) : Option Nat :=
  let trig := 128 * (w.f F.TR_TRIGTB_LO_T_LO u + 2 ^ 32 * w.f F.TR_TRIGTB_HI_T_HI u)
  let k := cdiv (trig - t) (w.trSpacing src)
  if k < n then some k else none

/-- A full record of stream `r.k` is written, or finds no room; `r.trig` says that no stream of the unit holds an earlier sample at or
after TRIGTB. -/
def World.trRecord (w : World) (m : Mem) (u : Nat) (r : TrRec) : Mem × World :=
  let src := w.f F.TR_SRC_SRC (8 * u + r.k)
  if !(w.trRuns u && w.fb F.TR_SRC_EN (8 * u + r.k)) then (m, w)
  else
    let n := min 56 r.samples.length
    let (m, w) := if w.trRoom u then w.trGap m u src else (m, w)
    if !w.trRoom u then (m, w.trDrop u src n r.t)
    else
      let trig := if w.trState u = 2 ∧ (w.trc_ u).trigIdx = none ∧ r.trig.isSome then w.trIndex u src r.t n else none
      let flags := 2 * b2n trig.isSome + 4 * b2n r.clip + 8 * b2n (r.slotMask != 0)
      let s := w.f F.TR_SEQ_SEQ u
      let (m, w) := w.trPut m u fun s => trWords src flags n s r.t (trig.getD 0 % 64) (r.slotMask % 256) (r.samples.map (· % 65536))
      let w := match trig with
        | some x => ((w.setTrc u { w.trc_ u with trigIdx := some x }).sf F.TR_TRIGSEQ_SEQ u s).when
            (decide (s < w.f F.TR_PRE_PRE u)) fun w => w.sf F.TR_STAT_SHORTPRE u 1
        | none => w
      if w.trState u = 2 ∧ (w.trc_ u).trigIdx.isSome ∧ s = w.f F.TR_TRIGSEQ_SEQ u + w.f F.TR_POST_POST u then
        (m, w.trDone u (w.f F.TR_TRIGSEQ_SEQ u - w.f F.TR_PRE_PRE u))
      else (m, w)

def execTraceRecordWrite (u : Nat) (r : TrRec) (s : State) : Res :=
  onM s fun m w => if w.on 15 ∧ u < 4 ∧ r.k < 8 then w.trRecord m u r else (m, w)

/-- A trigger of the cycle in which a STOP comes gives way to it (R423). -/
def World.trUntrigger (w : World) (u : Nat) : World :=
  if w.trState u = 2 ∧ (w.trc_ u).trigIdx = none ∧ w.f F.TR_TRIGTB_LO_T_LO u + 2 ^ 32 * w.f F.TR_TRIGTB_HI_T_HI u = w.tb then
    ((w.sf F.TR_STAT_STATE u 1).sf F.TR_TRIGTB_LO_T_LO u 0).sf F.TR_TRIGTB_HI_T_HI u 0
  else w

/-- TR_CTL.STOP: `last` are the partly filled records of the streams (R422, R424). -/
def execTraceStop (u : Nat) (last : List TrRec) (s : State) : Res :=
  onM s fun m w =>
    if !(w.on 15 && decide (u < 4) && w.trRuns u) then (m, w)
    else
      let (m, w) := last.foldl (init := (m, w.trUntrigger u)) (fun a r => if a.2.trRuns u && decide (r.k < 8) then a.2.trRecord a.1 u r else a)
      let q := w.f F.TR_SEQ_SEQ u
      (m, if w.trRuns u then (w.sf F.TR_STAT_STOPPED u 1).trDone u (q - min q (w.trSize u)) else w)

/-- TR_CTL.RELEASE frees the region (R422). -/
def execTraceRelease (u : Nat) (s : State) : Res :=
  onM s fun m w =>
    if w.on 15 ∧ u < 4 ∧ w.trState u = 3 then
      let w := w.sf F.TR_STAT_STATE u 0
      (w.dropBanks m, w)
    else (m, w)

/-- TR_RDSEQ takes a value between its present one and SEQ (R425). -/
def World.writeRdseq (w : World) (u v : Nat) : World :=
  if v < w.f F.TR_RDSEQ_SEQ u ∨ w.f F.TR_SEQ_SEQ u < v then w.sf F.TR_ERR_BADVAL u 1 else w.sf F.TR_RDSEQ_SEQ u v

def execTrRdseqWrite (u value : Nat) (s : State) : Res :=
  onW s fun w => if w.on 15 ∧ u < 4 ∧ value < 2 ^ 32 then w.writeRdseq u value else w

/-- Every trace unit returns to IDLE, its data lost (R417, R422). -/
def World.trStop (w : World) : World :=
  (List.range 4).foldl (fun w u => (w.sf F.TR_STAT_STATE u 0).setTrc u {}) w

/-! ### BAR2 (R32, R200, R286, R427) -/

/-- One byte written through BAR2. -/
def World.bar2Byte (w : World) (m : Mem) (off v : Nat) : Mem × World :=
  let a := 0x02000000 + off / 2
  if 0x1800000 ≤ off then (m, w)
  else match w.busyUnit a with
    | some u => (m, w.sf F.TR_ERR_BUSYWR u 1)
    | none => if w.deadBank a then (m, w) else (m.set (2 * 0x02000000 + off) (BitVec.ofNat 8 v), w)

def World.bar2Bytes (w : World) (m : Mem) (off : Nat) : List Nat → Mem × World
  | [] => (m, w)
  | b :: l => let r := w.bar2Byte m off b; r.2.bar2Bytes r.1 (off + 1) l

def execBar2Write (off : Nat) (bytes : List Nat) (s : State) : Res :=
  onM s fun m w =>
    if 0x1800000 ≤ off then (m, w)
    else if !w.on 15 || w.wiping.testBit 9 then (m, w.hiErr F.HI_ERR_ISLAND_OFF (some (1, off)))
    else (w.touch 15).bar2Bytes m off bytes

/-- One byte read through BAR2: the trace memory, 0 above it and while it is wiped. -/
def World.bar2Get (w : World) (m : Mem) (off : Nat) : Nat :=
  let a := 0x02000000 + off / 2
  if 0x1800000 ≤ off ∨ w.wipingAt a ∨ w.deadBank a then 0 else (m.get (2 * 0x02000000 + off)).toNat

/-- A BAR2 read of `len` bytes, which R20 governs while MEM is off. -/
def World.bar2Read (w : World) (m : Mem) (off len : Nat) : World :=
  if off < 0x1800000 ∧ w.on 15 = false then
    (w.hiErr F.HI_ERR_ISLAND_OFF (some (1, off))).emit (.mem ((List.range len).map fun k => if (off + k) % 2 = 0 then 0x11 else 0xFA))
  else (w.touch 15).emit (.mem ((List.range len).map fun k => w.bar2Get m (off + k)))

end Sys2Proof.Machine
end

