-- ==== Sys2Proof/Machine/Rings.lean ====
section
/-! DEFINITION. The host link and the rings: doorbells, ring states, fetching and stamping, the drain of the posted-write
buffer, messages, telemetry, configuration space, link resets (R196 to R224). -/

namespace Sys2Proof.Machine

/-- RING_STAT.STATE codes (R226). -/
abbrev rgOff : Nat := 0
abbrev rgRun : Nat := 1
abbrev rgStalled : Nat := 2
abbrev rgHalted : Nat := 3
abbrev rgStandby : Nat := 4

def World.rgState (w : World) (n : Nat) : Nat := w.f F.RING_STAT_STATE n
def World.setRgState (w : World) (n s : Nat) : World := w.sf F.RING_STAT_STATE n s
def World.rgType (w : World) (n : Nat) : Nat := w.f F.RING_CFG_TYPE n

/-- The state a ring runs in: STANDBY in role STANDBY or SOLO without the pads, unless it is local (R211, R224, R367). -/
def World.rgGo (w : World) (n : Nat) : Nat :=
  if (w.f F.BL_STAT_ROLE 0 = 2 ∨ (w.f F.BL_STAT_ROLE 0 = 0 ∧ w.padsOwned = false)) ∧ w.f F.RING_CFG_LOCAL n = 0 then rgStandby
  else rgRun

/-- Host address of a slot (R204). -/
def World.slotAddr (w : World) (n k : Nat) : Nat :=
  w.f F.RING_BASE_LO_BASE_LO n * 4096 + 2 ^ 32 * w.f F.RING_BASE_HI_BASE_HI n + 64 * k

/-- Descriptors stamped and not written back (R213, R226). -/
def World.rgOut (w : World) (n : Nat) : Nat :=
  (w.f F.RING_HEAD_HEAD n + w.ringLen n - w.f F.RING_DONE_DONE n % w.ringLen n) % w.ringLen n

/-- RING_STAT.PENDING. -/
def World.rgPending (w : World) (n : Nat) : Nat := if w.rgType n = 2 then w.ringPromised n else w.rgOut n

/-! ### Doorbells (R210) -/

def World.doorbell (w : World) (n v : Nat) : World :=
  let at_ : Option (Nat × Nat) := some (0, 0x80000 + 0x1000 * n)
  if !w.on 2 then w.hiErr F.HI_ERR_ISLAND_OFF at_
  else if w.rgState n = rgOff then w.hiErr F.HI_ERR_DBOFF at_
  else
    let len := w.ringLen n
    let done := w.f F.RING_DONE_DONE n
    let dist (t : Nat) : Nat := (t + len - done % len) % len
    if len ≤ v ∨ dist v < dist (w.f F.RING_TAIL_TAIL n) then w.sf F.RING_ERR_DBRANGE n 1
    else
      let w := w.sf F.RING_TAIL_TAIL n v
      if w.rgState n = rgStalled then w.setRgState n rgRun else w

def execDoorbell (n value : Nat) (s : State) : Res := onW s fun w => if n < 16 then w.doorbell n value else w

/-! ### Ring states (R211, R212) -/

/-- An entry of ring `n`'s write-backs. -/
def isWbOf (n : Nat) (e : BufEnt) : Bool := match e with | .wb r .. => r == n | _ => false

/-- A command loses its write-back. -/
def Cmd.orphan (n : Nat) (c : Cmd) : Cmd :=
  match c.src with
  | .ring r _ _ => if r = n then { c with src := .gone } else c
  | _ => c

/-- Every stamped command of ring `n` and every descriptor of its DMA user goes on with no write-back. -/
def World.orphanRing (w : World) (n : Nat) : World :=
  let q := w.cmd
  let w := { w with
    cmd := { q with queue := q.queue.map (Cmd.orphan n), waits := q.waits.map fun (x : Waiting) => { x with cmd := x.cmd.orphan n } }
    fwq := w.fwq.map fun (j : FwJob) => { j with cmd := j.cmd.map (Cmd.orphan n) } }
  let w := w.setRing n { w.ring n with localq := (w.ring n).localq.map (Cmd.orphan n) }
  w.setDmaQ n ((w.dmaQ n).map fun (j : DJob) => { j with src := none })

/-- A GAP record that covers `k` numbers from `first`. -/
def gapRec (n first k tq : Nat) : BufEnt := .record ⟨n, 0, 0xFF, first, k, tq, List.replicate 32 0⟩ false

/-- The lossy records of EVT ring `n` become GAP records, one per run of numbers (R212).  `open_` is the run under way:
its first number, length and queueing time. -/
def discardLossy (n : Nat) : Option (Nat × Nat × Nat) → List BufEnt → List BufEnt
  | none, [] => []
  | some (a, k, t), [] => [gapRec n a k t]
  | run, .record h res :: l =>
    if h.ring ≠ n then .record h res :: discardLossy n run l
    else
      let k := if h.cls = 0 then h.gapn else 1
      if h.cls = 1 ∨ h.cls = 2 then
        (match run with
          | some (a, k, t) => [gapRec n a k t]
          | none => []) ++ .record h res :: discardLossy n none l
      else match run with
        | some (a, q, t) => discardLossy n (some (a, q + k, t)) l
        | none => discardLossy n (some (h.seq, k, h.tq)) l
  | run, e :: l => e :: discardLossy n run l

/-- What RESET discards of ring `n` (R212): RING_ABN counts the write-backs among it, and not the descriptors that have none
yet, whose write-backs are then never made. -/
def World.discardRing (w : World) (n : Nat) (evt : Bool) : World :=
  if evt then
    let k := w.buf.length
    let l := discardLossy n none w.entries
    World.refill { w with buf := l.take k, waitq := l.drop k }
  else
    let k := w.entries.countP (isWbOf n)
    let w := w.mapEntries fun l => l.filter fun e => !isWbOf n e
    let w := w.sf F.RING_ABN_ABANDONED n (w.f F.RING_ABN_ABANDONED n + k)
    ((w.setRing n { w.ring n with slots := [], waitOn := none }).orphanRing n).refill

/-- A write of RING_CTL.EN = 1. -/
def World.ringEnable (w : World) (n : Nat) : World :=
  let ty := w.rgType n
  let sz := w.f F.RING_CFG_SIZE n
  if w.rgState n ≠ rgOff then w
  else if ty = 0 ∨ sz < 4 ∨ 12 < sz ∨ (w.fb F.RING_CFG_LOCAL n ∧ ty ≠ 1) then w.sf F.RING_ERR_CFG n 1
  else
    let w := w.when (w.ring n).stale fun w => (w.discardRing n (ty == 2)).discardRing n (ty != 2)
    let w := w.setRing n { w.ring n with reads := [], slots := [], waitOn := none, stale := false, cut := false }
    let w := ((w.sf F.RING_HEAD_HEAD n 0).sf F.RING_TAIL_TAIL n 0).sf F.RING_DONE_DONE n 0
    (w.sf F.RING_CTL_EN n 1).setRgState n (w.rgGo n)

/-- A write of RING_CTL.EN = 0. -/
def World.ringDisable (w : World) (n : Nat) : World :=
  let s := w.rgState n
  if s = rgOff ∨ s = rgStandby then w
  else if w.rgPending n = 0 then
    ((w.sf F.RING_CTL_EN n 0).setRgState n rgOff).setRing n { w.ring n with reads := [] }
  else w.sf F.RING_ERR_CFG n 1

/-- A write of RING_CTL.RESUME. -/
def World.ringResume (w : World) (n : Nat) : World :=
  if w.rgState n = rgHalted then (w.setRing n { w.ring n with cut := false }).setRgState n (w.rgGo n) else w

/-- A write of RING_CTL.RESET. -/
def World.ringReset (w : World) (n : Nat) : World :=
  if w.rgState n = rgOff then w
  else
    let w := w.discardRing n (w.rgType n == 2)
    let w := w.setRing n { w.ring n with reads := [], cut := false }
    (w.sf F.RING_CTL_EN n 0).setRgState n rgOff

def execRingEnable (n : Nat) (s : State) : Res := onW s fun w => if w.on 2 ∧ n < 16 then w.ringEnable n else w
def execRingDisable (n : Nat) (s : State) : Res := onW s fun w => if w.on 2 ∧ n < 16 then w.ringDisable n else w
def execRingResume (n : Nat) (s : State) : Res := onW s fun w => if w.on 2 ∧ n < 16 then w.ringResume n else w
def execRingReset (n : Nat) (s : State) : Res := onW s fun w => if w.on 2 ∧ n < 16 then w.ringReset n else w

/-- A ring halts; its reads in flight are discarded (R211). -/
def World.haltRing (w : World) (n : Nat) (err : Fld) : World :=
  ((w.sf err n 1).setRgState n rgHalted).setRing n { w.ring n with reads := [] }

/-- Every ring in RUN, STALLED or STANDBY halts. -/
def World.haltRings (w : World) (err : Fld) : World :=
  (idxs 16 fun n => w.rgState n == rgRun || w.rgState n == rgStalled || w.rgState n == rgStandby).foldl
    (fun w n => w.haltRing n err) w

/-- A link reset or an FLR halts the rings, and holds their write-backs until they are resumed (R222). -/
def World.cutRings (w : World) : World :=
  (idxs 16 fun n => w.rgState n == rgHalted).foldl (fun w n => w.setRing n { w.ring n with cut := true })
    (w.haltRings F.RING_ERR_LINKRST)

/-! ### Fetching and stamping (R213, R214) -/

/-- Descriptors that a ring may have fetched and not written back. -/
def World.fetchMax (w : World) (n : Nat) : Nat := let k := w.f F.RING_CFG_FETCHMAX n; if k = 0 then 16 else k

/-- The next read of ring `n`: first slot and count. -/
def World.nextFetch (w : World) (n : Nat) : Option (Nat × Nat) :=
  let len := w.ringLen n
  let reading := ((w.ring n).reads.map (·.2.1)).sum
  let pos := (w.f F.RING_HEAD_HEAD n + reading) % len
  let posted := (w.f F.RING_TAIL_TAIL n + len - pos) % len
  let k := min (min 8 posted) (min (len - pos) (w.fetchMax n - (w.rgOut n + reading)))
  if k = 0 then none else some (pos, k)

/-- The ring engine may fetch for ring `n`. -/
def World.mayFetch (w : World) (n : Nat) : Bool :=
  w.on 2 && w.linkReady && !w.noFetch && w.pwr.sent == 0 && w.rgState n == rgRun
  && (w.rgType n == 1 || w.rgType n == 3) && (w.ring n).waitOn.isNone

/-- The ring that the round robin serves next: the first one from `rrNext` on that may fetch and has a read to make. -/
def World.rrTurn (w : World) : Option Nat :=
  ((List.range 16).map fun k => (w.rrNext + k) % 16).find? fun n => w.mayFetch n && (w.nextFetch n).isSome

/-- Ring `n` issues its read when its turn has come, nothing of the buffer can go first and the host has a non-posted credit
(R213, R221). -/
def World.fetch (w : World) (n : Nat) : World :=
  if w.rrTurn ≠ some n ∨ w.headReady ∨ w.pcie.np = some 0 then w
  else match w.nextFetch n with
    | none => w
    | some (pos, k) =>
      let w := { w with rrNext := (n + 1) % 16, pcie := { w.pcie with np := w.pcie.np.map (· - 1) } }
      (w.setRing n { w.ring n with reads := (w.ring n).reads ++ [(pos, k, w.clk.tk)] }).emit (.hostRead (w.slotAddr n pos) (64 * k))

/-- `np` are the non-posted header credits that the host has returned since. -/
def execDescriptorFetch (n : Nat) (s : State) (np : Nat := 0) : Res :=
  onW s fun w => World.fetch { w with pcie := { w.pcie with np := w.pcie.np.map (· + np) } } n

/-- A descriptor that R206 refuses completes with no stamp. -/
def World.noStamp (w : World) (n slot : Nat) (irq : Bool) (status : Nat) : World :=
  w.complete { src := .ring n slot irq, op := .nop, rail := 0xFF, stamp := 0xFFFFFFFF } status 0 0

/-- One descriptor is checked and stamped, or joins its DMA user's queue (R206, R214, R228, R406). -/
def World.stampDesc (w : World) (n slot : Nat) (b : List Nat) : World :=
  let fl := fieldAt b 3 1
  let irq := bitOf fl 0
  let w := w.sf F.RING_HEAD_HEAD n ((slot + 1) % w.ringLen n)
  let w := w.setRing n { w.ring n with
    slots := (w.ring n).slots ++ [{ slot := slot, irq := irq, wait := bitOf fl 1 }]
    waitOn := if bitOf fl 1 then some slot else (w.ring n).waitOn }
  let raw := (b.drop 8).take 36
  let code := fieldAt b 0 2
  if w.rgType n = 3 then
    match descBad dmaOp b with
    | some st => w.noStamp n slot irq st
    | none => w.setDmaQ n (w.dmaQ n ++ [{ raw := b, src := some (.ring n slot irq) }])
  else
    match descBad (fun c => (decodeOp c raw).isSome) b, decodeOp code raw with
    | none, some op =>
      if w.fb F.RING_CFG_LOCAL n then
        let c : Cmd := { src := .ring n slot irq, op := op, rail := fieldAt b 2 1, stamp := 0xFFFFFFFF, bad := emptyBad code raw }
        w.setRing n { w.ring n with localq := (w.ring n).localq ++ [c] }
      else w.stamp (.ring n slot irq) op (fieldAt b 2 1) (emptyBad code raw)
    | some st, _ => w.noStamp n slot irq st
    | none, none => w.noStamp n slot irq 0xE0

/-- The ring stalls: no slot of the reads in flight is used, whose ends still count (R211). -/
def World.stallRing (w : World) (n : Nat) : World :=
  ((w.sf F.RING_ERR_OWN n 1).setRgState n rgStalled).setRing n
    { w.ring n with reads := (w.ring n).reads.map fun e => (e.1, 0, e.2.2) }

/-- The descriptors of a read, up to the first whose OWN is 0. -/
def World.stampAll (w : World) (n slot : Nat) : List (List Nat) → World
  | [] => w
  | b :: l =>
    if !bitOf (fieldAt b 63 1) 7 then w.stallRing n
    else (w.stampDesc n slot b).stampAll n ((slot + 1) % w.ringLen n) l

/-- The eldest read of ring `n` is answered. -/
def World.fetchAnswer (w : World) (n : Nat) (ans : ReadAns) : World :=
  match (w.ring n).reads with
  | [] => w
  | (slot, k, _) :: l =>
    match ans with
    | .error e => (w.aerRead e).haltRing n F.RING_ERR_FETCH
    | .data bs =>
      (w.setRing n { w.ring n with reads := l }).stampAll n slot ((List.range k).map fun i => bs.getD i [])

/-- The answers that arrive in one cycle, in ascending ring number (R214). -/
def World.fetchAnswers (w : World) (l : List (Nat × ReadAns)) : World :=
  ((List.range 16).flatMap fun n => l.filter fun e => e.1 == n).foldl (fun w e => w.fetchAnswer e.1 e.2) w

def execDescriptorStamp (t : Nat) (l : List (Nat × ReadAns)) (s : State) : Res :=
  onW s fun w => let w := w.upTo t; if w.on 2 then w.fetchAnswers l else w

/-! ### The drain (R208, R216, R218, R220, R221) -/

/-- The message of vector `v` leaves, or stays pending while it is masked. -/
def World.sendMsix (w : World) (v : Nat) : World :=
  if w.pcie.msixEn && !w.pcie.msixMask && !w.fb F.MSIX_CTRL_MASK v then w.emit (.msix v)
  else w.orBit F.MSIX_PBA_PBA (v / 32) (v % 32)

/-- Pending messages that are no longer masked leave. -/
def World.flushMsix (w : World) : World :=
  (idxs 64 fun v => (w.f F.MSIX_PBA_PBA (v / 32)).testBit (v % 32)).foldl
    (fun w v => (w.clrBit F.MSIX_PBA_PBA (v / 32) (v % 32)).sendMsix v) w

/-- The 60 bytes of a record before its CTL word (R207). -/
def HRec.bytes (h : HRec) : List Nat :=
  (h.pay ++ List.replicate 32 0).take 32 ++ leBytes 4 h.seq ++ [h.cls, h.rail, 0, 0] ++ leBytes 4 h.gapn ++ leBytes 8 h.tq
  ++ List.replicate 8 0

/-- Slot `k` of ring `n` is given back by its two posted writes. -/
def World.writeSlotBack (w : World) (n k off : Nat) (bytes : List Nat) : World :=
  let a := w.slotAddr n k
  let w := (w.emit (.hostWrite (a + off) bytes)).emit (.hostWrite (a + 60) [0, 0, 0, 0])
  w.sf F.RING_DONE_DONE n ((k + 1) % w.ringLen n)

/-- The FAULT or OUTCOME record at the head of the buffer that waits for its ring (R218). -/
def World.blockedOn (w : World) : Option Nat :=
  match w.buf with
  | .record h _ :: _ =>
    if (h.cls = 1 ∨ h.cls = 2) ∧ (!w.evtReady h.ring ∨ w.ringGiven h.ring = 0) then some h.ring else none
  | _ => none

/-- Bytes 44 to 59 of a written-back slot (R205). -/
def WB.bytes (b : WB) : List Nat :=
  leBytes 4 b.stamp ++ leBytes 8 b.tDone ++ leBytes 1 b.status ++ leBytes 1 b.xstat ++ leBytes 2 b.result

/-- The head entry leaves the buffer and is written; a write-back frees its ring's WAIT (R213). -/
def World.drainHead (w : World) : World :=
  match w.buf with
  | [] => w
  | .msix v :: l => (World.sendMsix { w with buf := l } v).refill
  | .wb n slot b _ :: l =>
    let w := World.writeSlotBack { w with buf := l } n slot 44 b.bytes
    (if (w.ring n).waitOn = some slot then w.setRing n { w.ring n with waitOn := none } else w).refill
  | .record h _ :: l =>
    let k := w.f F.RING_HEAD_HEAD h.ring
    let w := World.writeSlotBack { w with buf := l } h.ring k 0 h.bytes
    (w.sf F.RING_HEAD_HEAD h.ring ((k + 1) % w.ringLen h.ring)).refill

/-- The head entry of the buffer is written to the host once the link, a given slot and credit allow. -/
def World.drain (w : World) : World :=
  let w := w.when w.blockedOn.isSome fun w => w.hiErr F.HI_ERR_EVTBLOCK none
  if w.headReady then (w.spend (w.headWrites.getD [])).drainHead else w

/-- `ph` and `pd` are the posted credits that the host has returned since. -/
def execPostedWriteDrain (s : State) (ph : Nat := 0) (pd : Nat := 0) : Res := onW s fun w => (w.earn ph pd).drain

/-- TIME µs have passed since the ring's first unsignalled write-back or record (R220). -/
def execMsixCoalesceTimer (n : Nat) (s : State) : Res :=
  onW s fun w =>
    if decide (n < 16) && w.fb F.RING_ICOAL_TIME n && decide (0 < (w.ring n).unsig)
        && w.past (.msix n) (1000 * w.f F.RING_ICOAL_TIME n) then
      (w.setRing n { w.ring n with unsig := 0 }).put (.msix (w.f F.RING_CFG_VEC n))
    else w

/-! ### Telemetry (R219) -/

/-- Every rail's sums of a telemetry period start again. -/
def World.telClear (w : World) : World :=
  (List.range w.nRails).foldl (fun w r => w.setRail r { w.rail r with
    telV := 0, telI := 0, telN := 0, telPk := 0, telE := 0, killed := false, telE0 := (w.engine r).eacc }) w

/-- The payload of rail `r`'s TELEM record. -/
def World.telBytes (w : World) (r : Nat) : List Nat :=
  let p := w.rail r
  let mean (x : Int) : Int := if p.telN = 0 then 0 else rdiv x p.telN
  leBytes 1 r ++ leBytes 1 (w.rstate r) ++ leBytes 1 (w.nph r)
  ++ leBytes 1 (w.f F.LE_STAT_FROZEN r + 2 * w.f F.LE_STAT_IACT r + 4 * w.f F.LE_STAT_BAND r + 16 * b2n p.killed)
  ++ leBytes 4 (unI 32 (rdiv (mean p.telV * w.f F.RSC_DIVR_RATIO r) (256 * 16384)))
  ++ leBytes 4 (unI 32 (mean p.telI)) ++ leBytes 4 (unI 32 p.telPk)
  ++ leBytes 8 (unI 64 ((w.engine r).eacc - p.telE0)) ++ leBytes 4 (p.telE % 2 ^ 32) ++ leBytes 4 (w.telNo % 2 ^ 32)

/-- The selected rails' records are queued in rail order, and every rail's sums start again. -/
def World.telPeriod (w : World) : World :=
  let w := (idxs w.nRails fun r => (w.f F.RING_TELMASK_RAILS 0).testBit r).foldl (fun w r => w.record 4 r (w.telBytes r)) w
  ({ w with telNo := w.telNo + 1 }.telClear).start .telem

/-- A telemetry period ends: PERIOD µs, at least 10, after the one before. -/
def execTelemPeriod (s : State) : Res :=
  onW s fun w =>
    if w.on 2 && w.fb F.RING_TELCFG_PERIOD 0 && w.past .telem (1000 * max 10 (w.f F.RING_TELCFG_PERIOD 0)) then w.telPeriod else w

/-! ### The link and the function (R197 to R200, R222) -/

/-- The capabilities of the configuration space (R199). -/
inductive PcieCap where
  | powerManagement | pciExpress | msix | aer | secondary | dataLinkFeature | phys16 | phys32 | phys64 | laneMargining
  | flitLogging | ptm | serialNumber
  deriving DecidableEq, Repr

/-- What the configuration space holds that nothing changes (R199): Vendor ID, Device ID, Revision ID, class code, Device Serial
Number and the capabilities. -/
structure PcieId where
  vendor : Nat
  device : Nat
  revision : Nat := 0xB0
  cls : Nat := 0x118000
  serial : Nat
  caps : List PcieCap := [.powerManagement, .pciExpress, .msix, .aer, .secondary, .dataLinkFeature, .phys16, .phys32, .phys64,
    .laneMargining, .flitLogging, .ptm, .serialNumber]
  deriving DecidableEq, Repr

def World.pcieId (w : World) : PcieId :=
  { vendor := Config.vid, device := if w.lx1264 then 0x1264 else 0x1280, serial := Config.dieId }

/-- A conventional reset of the configuration space: the subsystem identity comes from OTP word 74, and the error status and its
masks stay. -/
def World.resetPcie (w : World) : World :=
  { w with pcie := { subsys := w.otpWord 74, aer := { w.pcie.aer with ecrcGen := false, ecrcChk := false } } }

/-- OTP word 79 may lower the caps of HI_LINKCAP: MAXSPEED in bits 2 to 0, MAXWIDTH in bits 7 to 4; 0 lowers nothing (R197). -/
def World.linkCaps (w : World) : World :=
  let o := w.otpWord 79
  if o = 0 then w
  else (w.sf F.HI_LINKCAP_MAXSPEED 0 (min 6 (bitsOf o 0 3))).sf F.HI_LINKCAP_MAXWIDTH 0 (min 8 (bitsOf o 4 4))

/-- The MSI-X table and its pending bits. -/
def msixField (B : Fld) : Bool :=
  [F.MSIX_ADDR_LO_V, F.MSIX_ADDR_HI_V, F.MSIX_DATA_V, F.MSIX_CTRL_MASK, F.MSIX_PBA_PBA].any fun A => A.id == B.id

/-- The registers that a link reset clears where HLK itself is not reset: the link's state and the MSI-X table. -/
def linkField (B : Fld) : Bool :=
  msixField B || [F.HI_STAT_SPEED, F.HI_STAT_WIDTH, F.HI_STAT_FLIT, F.HI_STAT_DLUP, F.HI_STAT_L1, F.HI_STAT_BME,
    F.HI_STAT_D3].any fun A => A.id == B.id

/-- What a link reset does to the configuration space, the rings and host transfers (R222, R417). -/
def World.linkCut (w : World) (m : Mem) : World := (w.resetPcie.cutRings).dmaLinkReset m

/-- A hot reset or link-down; PERST_N resets HLK's registers too (R198, R225). -/
def World.linkReset (w : World) (m : Mem) (perst : Bool) : World :=
  let w := if perst then (w.resetIslRegs 1).linkCaps else w.resetRegs fun B n => linkField B && n == 1
  (w.linkCut m).hiErr F.HI_ERR_LINKRST none

def execLinkReset (s : State) (perst : Bool := false) : Res := onW s fun w => w.linkReset s.mem perst

def World.clearHiErr (w : World) : World :=
  [F.HI_ERR_ISLAND_OFF, F.HI_ERR_ISLAND_TIMEOUT, F.HI_ERR_BADLEN, F.HI_ERR_DBOFF, F.HI_ERR_LINKRST, F.HI_ERR_FLR,
   F.HI_ERR_EVTBLOCK, F.HI_ERRADDR_VALID].foldl (fun w B => w.sf B 0 0) w

/-- A Function Level Reset: as a link reset on the rings, and HI_ERR is cleared before FLR sets. -/
def World.flr (w : World) (m : Mem) : World :=
  let w := (w.resetRegs fun B n => msixField B && n == 1).linkCut m
  let w := (w.sf F.HI_STAT_BME 0 0).sf F.HI_STAT_D3 0 0
  w.clearHiErr.hiErr F.HI_ERR_FLR none

def execFlr (s : State) : Res := onW s fun w => if w.on 1 then w.flr s.mem else w

/-- The widest of the supported widths within both `a` and `b` (R196, R197). -/
def linkWidth (a b : Nat) : Option Nat := [8, 4, 2, 1].find? fun x => decide (x ≤ a) && decide (x ≤ b)

/-- Credits as flow control announces them: 0 is infinitely many. -/
def credits (n : Nat) : Option Nat := if n = 0 then none else some n

/-- The link trains to the highest rate and widest width that both ends and the caps allow (R197); a cap below the lowest leaves no
link.  `cr` are the partner's posted header, posted data and non-posted header credits. -/
def World.linkUp (w : World) (speed width : Nat) (flit : Bool) (cr : Nat × Nat × Nat) : World :=
  let sp := min speed (w.f F.HI_LINKCAP_MAXSPEED 0)
  match linkWidth width (w.f F.HI_LINKCAP_MAXWIDTH 0) with
  | none => w
  | some x =>
    if sp = 0 ∨ 6 < sp then w
    else
      let w := (w.sf F.HI_STAT_SPEED 0 sp).sf F.HI_STAT_WIDTH 0 x
      let w := { w with pcie := { w.pcie with ph := credits cr.1, pd := credits cr.2.1, np := credits cr.2.2 } }
      ((w.sf F.HI_STAT_FLIT 0 (b2n (flit || sp == 6))).sf F.HI_STAT_DLUP 0 1).sf F.HI_STAT_L1 0 0

def execLinkUp (speed width : Nat) (flit : Bool) (s : State) (cr : Nat × Nat × Nat := (0, 0, 0)) : Res :=
  onW s fun w => if w.on 1 then w.linkUp speed width flit cr else w

/-- A configuration write (R199, R222). -/
def World.config (w : World) (c : CfgWrite) : World :=
  let p := w.pcie
  match c with
  | .bar0 a => { w with pcie := { p with bar0 := a / 2 ^ 20 * 2 ^ 20 % 2 ^ 64 } }
  | .bar2 a => { w with pcie := { p with bar2 := a / 2 ^ 25 * 2 ^ 25 % 2 ^ 64 } }
  | .command mem bme => World.sf { w with pcie := { p with memEn := mem } } F.HI_STAT_BME 0 (b2n bme)
  | .power d3 => (w.sf F.HI_STAT_D3 0 (b2n d3)).sf F.HI_STAT_L1 0 (b2n (d3 && w.fb F.HI_STAT_DLUP 0))
  | .msix en mask => World.flushMsix { w with pcie := { p with msixEn := en, msixMask := mask } }
  | .devCtl mps mrrs => { w with pcie := { p with mps := min mps 512, mrrs := min mrrs 4096 } }
  | .timeout us => if 50 ≤ us ∧ us ≤ 10000 then { w with pcie := { p with cto := us } } else w
  | .link l1 l11 => { w with pcie := { p with aspm := l1, l11 := l11 } }
  | .ptm en => { w with pcie := { p with ptm := en } }
  | .subsys v => if w.f F.LC_STATE_STATE 0 = 2 then { w with pcie := { p with subsys := v % 2 ^ 32 } } else w
  | .aerStatus unc cor =>
    { w with pcie := { p with aer := { p.aer with unc := p.aer.unc - (p.aer.unc &&& unc), cor := p.aer.cor - (p.aer.cor &&& cor) } } }
  | .aerMask unc sev cor => { w with pcie := { p with aer := { p.aer with uncMask := unc, uncSev := sev, corMask := cor } } }
  | .ecrc gen chk => { w with pcie := { p with aer := { p.aer with ecrcGen := gen, ecrcChk := chk } } }

def execConfigWrite (c : CfgWrite) (s : State) : Res := onW s fun w => if w.on 1 then w.config c else w

/-- A host read of a register, or a doorbell page, of an off island (R20). -/
def World.islandOffRead (w : World) (off : Nat) : World :=
  (w.hiErr F.HI_ERR_ISLAND_OFF (some (0, off))).emit (.read .host 0xFA11FA11)

/-- Island of a byte offset of BAR0: HRE of the doorbell pages (R30, R31). -/
def bar0Isl (off : Nat) : Option Nat :=
  if 0x80000 ≤ off ∧ off < 0x90000 then some 2
  else if 0x10000 ≤ off ∧ off < 0x68000 then some ((off - 0x10000) / 0x4000)
  else none

/-- A host read that R20 may answer: of a register (`bar` 0), or of `len` bytes of BAR2, which answers from trace memory while MEM
is on (R32). -/
def execIslandOffRead (off : Nat) (s : State) (bar : Nat := 0) (len : Nat := 4) : Res :=
  onW s fun w =>
    if bar = 1 then w.bar2Read s.mem off (min len w.pcie.mrrs)
    else match bar0Isl off with
      | some n => if w.on n ∨ w.absent n then w else w.islandOffRead off
      | none => w

end Sys2Proof.Machine
end

