-- ==== Sys2Proof/Machine/Timers.lean ====
section
/-! DEFINITION. The Time Base servo and load, the event fabric and the timers (R379 to R403). -/

namespace Sys2Proof.Machine

/-! ### The Time Base (R380 to R383) -/

/-- ±200 ppm in RATE units. -/
def rateMax : Int := 858993

/-- Belay steering replaces TB_SYNC.SRC (R371, R382). -/
def World.follows (w : World) : Bool := w.f F.BL_STAT_ROLE 0 == 2 && w.fb F.BL_CFG_TBFOLLOW 0

/-- TB_STAT.SRCNOW and, for SRC NONE, the rate in force. -/
def World.showSync (w : World) : World :=
  let src := if w.follows then 3 else w.f F.TB_SYNC_SRC 0
  let w := w.sf F.TB_STAT_SRCNOW 0 src
  if src = 0 then w.sf F.TB_RATENOW_RATE 0 (w.f F.TB_RATE_RATE 0) else w

/-- The rate after a result with offset `x` in 1/128 ns, `ti` ns after the one before (R382). -/
def World.servoRate (w : World) (x : Int) (ti : Nat) : World :=
  if x.natAbs ≤ w.f F.TB_SYNC_FARLIM 0 * 128000 then
    let freq := clampI (-rateMax) rateMax (w.srv.freq + rdiv (x * 2 ^ 32) (128 * 64 * ti))
    let rate := clampI (-rateMax) rateMax (freq + rdiv (x * 2 ^ 32) (128 * 8 * ti))
    World.sfI { w with srv := { w.srv with freq := freq } } F.TB_RATENOW_RATE 0 rate
  else w.sf F.TB_ERR_FAR 0 1

/-- TB_STAT.LOCKED after a result with offset `x` (R382). -/
def World.servoLock (w : World) (x : Int) : World :=
  let good := if x.natAbs ≤ 20 * 128 then w.srv.good + 1 else 0
  let w := { w with srv := { w.srv with good := min good 4 } }
  if 4 ≤ good then w.sf F.TB_STAT_LOCKED 0 1
  else if 100 * 128 < x.natAbs then w.sf F.TB_STAT_LOCKED 0 0 else w

/-- A result of the servo (R382). -/
def World.servo (w : World) (x : Int) (ti : Nat) : World :=
  ((w.sfI F.TB_OFS_OFS 0 (satS 32 (rdiv x 128))).servoRate x ti).servoLock x

/-- Every HI_PTMCFG.INTERVAL µs a PTM dialogue starts; with the link down, or PTM not enabled, it fails. -/
def execPtmRequest (s : State) : Res :=
  onW s fun w =>
    if w.f F.TB_SYNC_SRC 0 ≠ 1 ∨ w.follows ∨ !w.past .ptm (1000 * w.f F.HI_PTMCFG_INTERVAL 0) then w
    else
      let w := w.start .ptm
      if w.linkReady ∧ w.pcie.ptm then w.emit .ptm else w.sf F.TB_ERR_PTMFAIL 0 1

/-- A PTM dialogue completes with an offset, or fails. -/
def execPtmResult (x : Option Int) (s : State) : Res :=
  onW s fun w =>
    if w.f F.TB_SYNC_SRC 0 ≠ 1 ∨ w.follows ∨ w.on 17 = false then w
    else match x with
      | some d => w.servo (128 * d) (w.f F.HI_PTMCFG_INTERVAL 0 * 1000)
      | none => w.sf F.TB_ERR_PTMFAIL 0 1

/-- A phase's instants move with a jump of the Time Base, in ticks. -/
def Ph.shift (h : Ph) (d : Nat) : Ph :=
  { h with
    loads := h.loads.map fun x => { x with at_ := x.at_ + d }
    kills := h.kills.map fun k => { k with ended := k.ended.map (· + d) }
    wordAt := h.wordAt + d, nextStart := h.nextStart + d, onAt := h.onAt + d, offAt := h.offAt + d, lastOff := h.lastOff + d
    demAt := h.demAt + d, cs := h.cs + d, lastOn := h.lastOn + d, bootEnd := h.bootEnd + d, shedAt := h.shedAt + d
    bootOff := if h.bootOff = 0 then 0 else h.bootOff + d / 128, lvAt := h.lvAt + d, az := h.az.map fun x => (x.1 + d, x.2) }

/-- A rail's instants move with it. -/
def Prt.shift (p : Prt) (d : Nat) : Prt :=
  { p with runAt := p.runAt + d, enAt := p.enAt + d, disAt := p.disAt + d, holdAt := p.holdAt + d, calEnds := p.calEnds + d
           offSince := p.offSince + d / 128 }

/-- TB_CTL.LOAD: a forward load with no forecast in flight (R383). -/
def World.tbLoad (w : World) : World :=
  let v := w.f F.TB_LOAD_LO_L_LO 0 + 2 ^ 32 * w.f F.TB_LOAD_HI_L_HI 0
  if v < w.tb then w.sf F.TB_ERR_BACK 0 1
  else if (List.range w.nRails).any fun r => !(w.inFlight r).isEmpty then w.sf F.TB_ERR_BUSY 0 1
  else
    let d := v * 128 - w.clk.tbq
    let w := { w with clk := { w.clk with tbq := v * 128, rem := 0 } }
    let w := { w with ph := mmapv {} (fun h => h.shift d) w.ph, prt := mmapv {} (fun p => p.shift d) w.prt
                      pins := { w.pins with hack := w.pins.hack.map fun e => (e.1, e.2 + d) } }
    (List.range w.nRails).foldl World.regrid w

def execTbLoad (s : State) : Res := onW s fun w => if w.on 17 then w.tbLoad else w

/-! ### Writes of channels and LUT cells (R385, R389) -/

/-- A write would close a loop. -/
def World.loopErr (w : World) (ch : Nat) : World := (w.sf F.EF_ERR_LOOP 0 1).sf F.EF_ERR_LOOPCH 0 ch

/-- EF_CH[c].SRC := `src`, unless it is not listed or closes a loop (R385, R389). -/
def World.writeCh (w : World) (c src : Nat) : World :=
  if !srcListed src then w.sf F.EF_ERR_BADVAL 0 1
  else
    let w' := w.sf F.EF_CH_SRC c src
    if within 0x148 0x177 src ∧ w'.lutLoop (src - 0x148) then w.loopErr c else w'

def execEfChWrite (c src : Nat) (s : State) : Res := onW s fun w => if c < 256 ∧ src < 512 then w.writeCh c src else w

/-- EF_LUTA[l] takes its four input channels. -/
def World.writeLuta (w : World) (l v : Nat) : World :=
  let w' := w.putRW R.EF_LUTA l v
  if w'.lutLoop l then w.loopErr (w'.loopCh l) else w'

def World.writeLutb (w : World) (l v : Nat) : World :=
  let w' := w.putRW R.EF_LUTB l v
  if w'.lutLoop l then w.loopErr (w'.loopCh l) else w'

def execEfLutbWrite (l value : Nat) (s : State) : Res := onW s fun w => if l < 48 then w.writeLutb l value else w

/-! ### Actions of one cycle (R390, R399) -/

/-- Input `key` has an event that acts in the cycle in which one at `t` would. -/
def World.actedWith (w : World) (key t : Nat) : Bool :=
  let v := mget 0 w.inputs key
  v != 0 && (v - 1) / 128 == t / 128

/-! ### Flip-flops (R390) -/

/-- OVR of a flip-flop or filter counts a merged event. -/
def World.ffOver (f : Nat) (w : World) : World := w.incSat F.EF_FFCFG_OVR f

/-- An event of channel `ch` reaches input `kind` of flip-flop `f`, which listens to `sel`. -/
def World.ffInput (w : World) (kind f t : Nat) (sel : Fld) (ch : Nat) (act : World → World) : World :=
  let w := w.upTo t
  if f < 16 ∧ (w.f F.EF_FFCFG_EN f).testBit kind ∧ w.f sel f = ch then w.input (256 + 16 * kind + f) t (World.ffOver f) fun w => act (w.upTo (t + 256))
  else w

/-- Level of D, 0 when it is not enabled. -/
def World.ffD (w : World) (f : Nat) : Bool := (w.f F.EF_FFCFG_EN f).testBit 0 && w.chLevel (w.f F.EF_FF_D f)

/-- CLK takes D or toggles Q, unless SET or CLR acts in the same cycle.  `fall`: the channel's edge is a falling one. -/
def World.ffClk (f t : Nat) (w : World) : World :=
  if w.actedWith (288 + f) t ∨ w.actedWith (304 + f) t then w
  else w.sf F.EF_FFCFG_Q f (if w.fb F.EF_FFCFG_T f then 1 - w.f F.EF_FFCFG_Q f else b2n (w.ffD f))

/-- SET, unless CLR acts in the same cycle. -/
def World.ffSet (f t : Nat) (w : World) : World := if w.actedWith (304 + f) t then w else w.sf F.EF_FFCFG_Q f 1

def execFfClk (f t : Nat) (s : State) (ch : Nat := 0) (fall : Bool := false) : Res :=
  onW s fun w => if (w.upTo t).fb F.EF_FFCFG_CLKFALL f = fall then w.ffInput 1 f t F.EF_FF_CLK ch (World.ffClk f t) else w.upTo t

def execFfSet (f t : Nat) (s : State) (ch : Nat := 0) : Res := onW s fun w => w.ffInput 2 f t F.EF_FF_SET ch (World.ffSet f t)

def execFfClr (f t : Nat) (s : State) (ch : Nat := 0) : Res :=
  onW s fun w => w.ffInput 3 f t F.EF_FF_CLR ch fun w => w.sf F.EF_FFCFG_Q f 0

def World.writeFfcfg (w : World) (f v : Nat) : World :=
  let w := w.putRW R.EF_FFCFG f v
  w.sf F.EF_FFCFG_Q f (w.f F.EF_FFCFG_INIT f)

def execEfFfcfgWrite (f value : Nat) (s : State) : Res := onW s fun w => if f < 16 then w.writeFfcfg f value else w

/-! ### Filters, watches, software events (R391, R392) -/

def World.filter (w : World) (f : Nat) : Flt := mget {} w.flt f
def World.setFilter (w : World) (f : Nat) (x : Flt) : World := { w with flt := mset {} w.flt f x }

/-- N of filter `f` in ticks: rounded up to 40 ns while HKP is off. -/
def World.fltN (w : World) (f : Nat) : Nat :=
  let n := w.f F.EF_FLTA_N f
  128 * (if w.on 17 then n else cdiv n 40 * 40)

/-- An edge of the input channel reaches filter `f` at `t`. -/
def World.filterEvent (w : World) (f : Nat) (rising : Bool) (t : Nat) : World :=
  let x := w.filter f
  if !w.fb F.EF_FLTA_EN f then w
  else if w.f F.EF_FLTA_MODE f = 0 then
    w.setFilter f { x with due := if rising = w.fb F.EF_FLTB_OUT f then [] else [t + w.fltN f] }
  else if rising = w.fb F.EF_FLTA_FALL f then w
  else w.input (512 + f) t (fun w => w.incSat F.EF_FLTB_OVR f) fun w =>
    let t := t + 256
    let w := w.upTo t
    match w.f F.EF_FLTA_MODE f with
    | 1 => (w.setFilter f { x with due := [t + w.fltN f] }).sf F.EF_FLTB_OUT f 1
    | 2 => if x.due.length < 4 then w.setFilter f { x with due := x.due ++ [t + w.fltN f] } else w.incSat F.EF_FLTB_OVR f
    | _ =>
      if w.f F.EF_FLTA_N f ≤ x.cnt + 1 then (w.setFilter f { x with cnt := 0 }).pulse (0x188 + f)
      else w.setFilter f { x with cnt := x.cnt + 1 }

def execFilterEvent (f : Nat) (rising : Bool) (t : Nat) (s : State) (ch : Nat := 0) : Res :=
  onW s fun w => if f < 16 ∧ (w.upTo t).f F.EF_FLTA_IN f = ch then (w.upTo t).filterEvent f rising t else w.upTo t

/-- The oldest instant that filter `f` waits for has come. -/
def World.filterExpiry (w : World) (f : Nat) : World :=
  let x := w.filter f
  match x.due with
  | [] => w
  | d :: l =>
    if w.clk.tk < d then w
    else
      let w := w.setFilter f { x with due := l }
      match w.f F.EF_FLTA_MODE f with
      | 0 => w.sf F.EF_FLTB_OUT f (1 - w.f F.EF_FLTB_OUT f)
      | 1 => w.sf F.EF_FLTB_OUT f 0
      | _ => w.pulse (0x188 + f)

def execFilterExpiry (f t : Nat) (s : State) : Res := onW s fun w => if f < 16 then (w.upTo t).filterExpiry f else w

def execWatchEvent (x : Nat) (s : State) (ch : Nat := 0) (fall : Bool := false) : Res :=
  onW s fun w =>
    if x < 32 ∧ w.fb F.EF_WCFG_EN x ∧ w.f F.EF_WCFG_CH x = ch ∧ w.fb F.EF_WCFG_FALL x = fall then
      (w.inc F.EF_WCFG_COUNT x).orBit F.EF_WFLAG_FLAG 0 x
    else w

def World.writeWcfg (w : World) (x v : Nat) : World :=
  let rise := !w.fb F.EF_WCFG_EN x && bitOf v 8
  (w.putRW R.EF_WCFG x v).when rise fun w => w.sf F.EF_WCFG_COUNT x 0

def execEfWcfgWrite (x value : Nat) (s : State) : Res := onW s fun w => if x < 32 then w.writeWcfg x value else w

def execSwEvent (x : Nat) (s : State) : Res := onW s fun w => if x < 32 then w.pulse (0x198 + x) else w

/-! ### Timers (R394 to R402) -/

/-- TM[t] pulses when TM_CFG enables the cause: 0 compare, 1 wrap, 2 capture. -/
def World.tmIrq (w : World) (t cause : Nat) : World :=
  w.when ((w.f F.TM_CFG_IEN t).testBit cause) fun w => w.irq (0x050 + t)

/-- COUNT has passed CMP (R397). -/
def World.tmPassed (w : World) (t : Nat) : Bool :=
  let m := w.timer t
  decide ((m.cnt + 2 ^ 48 - m.cmp % 2 ^ 48) % 2 ^ 48 < 2 ^ 47)

/-- An armed compare that is passed fires. -/
def World.tmJudge (w : World) (t : Nat) : World :=
  if w.fb F.TM_STAT_ARMED t && w.tmPassed t then
    ((((w.sf F.TM_STAT_ARMED t 0).sf F.TM_STAT_CMPHIT t 1).pulse (0x0E0 + t)).tmIrq t 0)
  else w

def execTimerCompare (t now : Nat) (s : State) : Res :=
  onW s fun w => let w := w.upTo now; if t < 32 ∧ w.on 17 then w.tmJudge t else w

/-- One return to 0, or the end of a one-shot, signals its carry, which the next timer of a chain counts. -/
def World.tmWrap (w : World) (t : Nat) : World :=
  let m := w.timer t
  if m.wraps = 0 then w
  else
    let w := w.setTimer t { m with wraps := m.wraps - 1 }
    let w := ((w.sf F.TM_STAT_WRAPPED t 1).pulse (0x100 + t)).tmIrq t 1
    if t + 1 < 32 ∧ w.f F.TM_CFG_CLKSRC (t + 1) = 3 ∧ w.fb F.TM_CTL_RUN (t + 1) then w.tmAdd (t + 1) 1 else w

def execTimerWrap (t now : Nat) (s : State) : Res :=
  onW s fun w => let w := w.upTo now; if t < 32 ∧ w.on 17 then w.tmWrap t else w

/-- The fields of an input register, each for selectors A and B: channel, enable, falling edge (R402). -/
structure TmIn where
  ch : Fld
  en : Fld
  fall : Fld

def tmInStart : TmIn := ⟨F.TM_INSTART_CH, F.TM_INSTART_EN, F.TM_INSTART_FALL⟩
def tmInStop : TmIn := ⟨F.TM_INSTOP_CH, F.TM_INSTOP_EN, F.TM_INSTOP_FALL⟩
def tmInCap : TmIn := ⟨F.TM_INCAP_CH, F.TM_INCAP_EN, F.TM_INCAP_FALL⟩
def tmInClr : TmIn := ⟨F.TM_INCLR_CH, F.TM_INCLR_EN, F.TM_INCLR_FALL⟩
def tmInCnt : TmIn := ⟨F.TM_INCNT_CH, F.TM_INCNT_EN, F.TM_INCNT_FALL⟩

/-- A selector of the input takes this edge of channel `ch`. -/
def World.tmSel (w : World) (g : TmIn) (t ch : Nat) (fall : Bool) : Bool :=
  [2 * t, 2 * t + 1].any fun i => w.fb g.en i && w.f g.ch i == ch && w.fb g.fall i == fall

/-- An edge of channel `ch` at an input of timer `t`, or the same action by a TM_CTL write (`none`). -/
def World.tmInput (w : World) (kind t : Nat) (g : TmIn) (ovr : Fld) (ev : Option Nat) (ch : Nat) (fall : Bool) (act : World → World) : World :=
  if !(decide (t < 32) && w.on 17) then w
  else match ev with
    | none => act w
    | some x =>
      let w := w.upTo x
      if w.tmSel g t ch fall then w.input (32 * kind + t) x (fun w => w.incSat ovr t) fun w => act (w.upTo (x + 256)) else w

def World.tmStart (t : Nat) (w : World) : World := w.sf F.TM_CTL_RUN t 1
def World.tmStop (t : Nat) (w : World) : World := w.sf F.TM_CTL_RUN t 0
def World.tmClear (t : Nat) (w : World) : World :=
  ((w.setTimer t { w.timer t with cnt := 0, acc := 0 }).sf F.TM_STAT_ARMED t 1).tmJudge t

/-- STOP wins over a START of the same cycle (R399). -/
def execTimerStart (t : Nat) (ev : Option Nat) (s : State) (ch : Nat := 0) (fall : Bool := false) : Res :=
  onW s fun w => w.tmInput 0 t tmInStart F.TM_OVR_START ev ch fall fun w =>
    if ev.any fun x => w.actedWith (32 + t) x then w else w.tmStart t

def execTimerStop (t : Nat) (ev : Option Nat) (s : State) (ch : Nat := 0) (fall : Bool := false) : Res :=
  onW s fun w => w.tmInput 1 t tmInStop F.TM_OVR_STOP ev ch fall (World.tmStop t)

/-- COUNT as it stands when a CLR event arrives is kept for a CAP of the same cycle (R399). -/
def execTimerClr (t : Nat) (ev : Option Nat) (s : State) (ch : Nat := 0) (fall : Bool := false) : Res :=
  onW s fun w =>
    let c := ((match ev with | some x => w.upTo x | none => w).timer t).cnt
    w.tmInput 3 t tmInClr F.TM_OVR_CLR ev ch fall fun w => (w.setTimer t { w.timer t with before := c }).tmClear t

/-- The capture registers take COUNT or TB, as they stood at the event's arrival (R400). -/
def World.tmCapture (t v : Nat) (w : World) : World :=
  let w := w.when (w.fb F.TM_STAT_CAPNEW t) fun w => w.sf F.TM_STAT_CAPOVR t 1
  ((w.setTimer t { w.timer t with cap := v }).sf F.TM_STAT_CAPNEW t 1).tmIrq t 2

/-- What an event at `now` captures; a CLR of the same cycle comes behind it (R399, R400). -/
def World.capValue (w : World) (t now : Nat) : Nat :=
  if w.fb F.TM_CFG_CAPTB t then w.tb % 2 ^ 48
  else if w.actedWith (96 + t) now then (w.timer t).before
  else (w.timer t).cnt

def execTimerCap (t now : Nat) (s : State) (ch : Nat := 0) (fall : Bool := false) : Res :=
  onW s fun w =>
    let w := w.upTo now
    w.tmInput 2 t tmInCap F.TM_OVR_CAP (some now) ch fall (World.tmCapture t (w.capValue t now))

/-- A CLR acts in the cycle of `now`: COUNT stays 0 (R399). -/
def World.clearsAt (w : World) (t now : Nat) : Bool := decide (256 ≤ now) && w.actedWith (96 + t) (now - 256)

/-- `n` events of one cycle tick a timer in EVENT clock mode; a counting input never merges. -/
def execTimerCntEvent (t n now : Nat) (s : State) (ch : Nat := 0) (fall : Bool := false) : Res :=
  onW s fun w =>
    let w := w.upTo now
    if t < 32 ∧ w.on 17 ∧ w.f F.TM_CFG_CLKSRC t = 2 ∧ w.fb F.TM_CTL_RUN t ∧ w.tmSel tmInCnt t ch fall ∧ w.clearsAt t now = false then
      w.tmTick t (min n 2)
    else w

/-- A write of TM_CMP_LO commits all 48 bits and arms the compare (R397). -/
def World.tmCommit (w : World) (t v : Nat) : World :=
  let w := w.sf F.TM_CMP_LO_M_LO t v
  let w := w.setTimer t { w.timer t with cmp := v % 2 ^ 32 + 2 ^ 32 * w.f F.TM_CMP_HI_M_HI t }
  (w.sf F.TM_STAT_ARMED t 1).tmJudge t

def execTimerCmpCommit (t value : Nat) (s : State) : Res :=
  onW s fun w => if t < 32 ∧ w.on 17 then w.tmCommit t value else w

/-- A write of one half of COUNT, ignored while the timer runs (R396). -/
def World.writeCnt (w : World) (t : Nat) (hi : Bool) (v : Nat) : World :=
  if w.fb F.TM_CTL_RUN t then w.sf F.TM_STAT_BUSY t 1
  else
    let m := w.timer t
    let c := if hi then m.cnt % 2 ^ 32 + 2 ^ 32 * (v % 2 ^ 16) else m.cnt / 2 ^ 32 * 2 ^ 32 + v % 2 ^ 32
    (w.setTimer t { m with cnt := c }).tmJudge t

def execTmCntWrite (t : Nat) (hi : Bool) (value : Nat) (s : State) : Res :=
  onW s fun w => if t < 32 ∧ w.on 17 then w.writeCnt t hi value else w

def World.tmOvrclr (w : World) (t : Nat) : World :=
  (((w.sf F.TM_OVR_START t 0).sf F.TM_OVR_STOP t 0).sf F.TM_OVR_CAP t 0).sf F.TM_OVR_CLR t 0

def execTimerOvrclr (t : Nat) (s : State) : Res := onW s fun w => if t < 32 ∧ w.on 17 then w.tmOvrclr t else w

/-! ### Latching reads (R381, R398, R400) -/

/-- The timers above `t` in its chain. -/
def World.chainAbove (w : World) : Nat → Nat → List Nat
  | 0, _ => []
  | n + 1, t => if t + 1 < 32 ∧ w.f F.TM_CFG_CLKSRC (t + 1) = 3 then (t + 1) :: w.chainAbove n (t + 1) else []

/-- A read of TM_CNT_LO: the upper half is latched, and the chain's other counts if `t` is its bottom. -/
def World.readCntLo (w : World) (t : Nat) : World × Nat :=
  let c := (w.timer t).cnt
  let w := w.sf F.TM_CNT_HI_C_HI t (c / 2 ^ 32)
  let l := if w.f F.TM_CFG_CLKSRC t = 3 then [] else w.chainAbove 32 t
  (l.foldl (fun w u =>
    let v := (w.timer u).cnt
    (w.sf F.TM_SNAP_LO_S_LO u v).sf F.TM_SNAP_HI_S_HI u (v / 2 ^ 32)) w, c % 2 ^ 32)

/-- A read of TM_CAP_LO latches its upper half and clears CAPNEW and CAPOVR. -/
def World.readCapLo (w : World) (t : Nat) : World × Nat :=
  let c := (w.timer t).cap
  let w := w.sf F.TM_CAP_HI_P_HI t (c / 2 ^ 32)
  ((w.sf F.TM_STAT_CAPNEW t 0).sf F.TM_STAT_CAPOVR t 0, c % 2 ^ 32)

/-- A read of TB_LO latches TB_HI.  DESIGN CHOICE (log 101): the host's latch and the cores' holding copy of R381 are one, so a host
read between a core's word reads replaces what the core's upper words return. -/
def World.readTbLo (w : World) : World × Nat := (w.sf F.TB_HI_T_HI 0 (w.tb / 2 ^ 32), w.tb % 2 ^ 32)

end Sys2Proof.Machine
end

