-- ==== Sys2Proof/Machine/Pump.lean ====
section
/-! DEFINITION. The coolant pump drive: carrier midpoints, duties, amplitude, gate faults, encoder frames, speed, position
compare and boosts (R433 to R447). -/

namespace Sys2Proof.Machine

def World.pump (w : World) (k : Nat) : Pd := mget {} w.pd k
def World.setPump (w : World) (k : Nat) (p : Pd) : World := { w with pd := mset {} w.pd k p }

/-- PD[k] pulses. -/
def World.pdIrq (w : World) (k : Nat) (c : Bool) : World := w.when c fun w => w.irq (0x0C0 + k)

/-- Every leg of channel `k` is OFF (R434 to R437). -/
def World.legsOff (w : World) (k : Nat) : Bool :=
  let m := w.f F.PD_CFG_MODE k
  !w.on 17 || !w.fb F.PD_CFG_EN k || m == 0 || w.fb F.PD_STAT_FLTHOLD k || (w.pump k).coast
  || (m == 2 && (!(w.pump k).seen || w.fb F.PD_STAT_ENCLOST k))

/-! ### Gate commands (R433, R438) -/

/-- Units of 10 ns for which the high-side command of a leg with duty `d` is active in each carrier period. -/
def World.pdHigh (w : World) (k d : Nat) : Nat := (rdiv (d * w.f F.PD_PER_PER k : Nat) 65536).toNat

/-- The high-side and low-side commands of leg `leg`, `x` units of 5 ns after the carrier period began: the high side is centred on the
midpoint, the low side is its complement less the dead time at each end. -/
def World.pdCmd (w : World) (k leg x : Nat) : Bool × Bool :=
  let per := w.f F.PD_PER_PER k
  let dt := 2 * w.f F.PD_PER_DT k
  let h := w.pdHigh k ((w.pump k).duty.getD leg 0)
  if w.legsOff k then (false, false)
  else if h = 0 then (false, true)
  else (decide (per ≤ x + h) && decide (x < per + h), decide (x + h + dt < per) || decide (per + h + dt ≤ x))

/-- The levels of the high-side and low-side balls of a leg; none in high impedance, or where the pad latch of R275 holds them. -/
def World.pdBalls (w : World) (k leg x : Nat) : Option (Bool × Bool) :=
  if !w.padsOwned || !w.on 17 || bitOf (w.f F.PM_PADHELD_HELD 0) 17 then none
  else
    let c := w.pdCmd k leg x
    some (c.1 == w.fb F.PD_CFG_POLH k, c.2 == w.fb F.PD_CFG_POLL k)

/-! ### Duties (R434) -/

/-- Fraction bits of the sine below. -/
def sinOne : Int := (2 ^ 64 : Nat)

/-- sin of `x`, both with 64 fraction bits, for 0 ≤ x ≤ π ÷ 2: `n` terms of its series, the next one being `t`, of degree
`d`. -/
def sinSeries (x : Int) : Nat → Int → Int → Int
  | 0, _, _ => 0
  | n + 1, d, t => t + sinSeries x n (d + 2) (-(t * x / sinOne * x / sinOne) / ((d + 1) * (d + 2)))

/-- π ÷ 2 with 64 fraction bits. -/
def halfPi : Int := 28976077832308491370

/-- sin(2π × a ÷ (3 × 2^24)) with 64 fraction bits. -/
def sin3 (a : Nat) : Int :=
  let q := 3 * 2 ^ 22
  let a := a % (4 * q)
  let x (k : Nat) : Int := sinSeries ((k : Int) * halfPi / (q : Int)) 16 1 ((k : Int) * halfPi / (q : Int))
  if a < q then x a else if a < 2 * q then x (2 * q - a) else if a < 3 * q then -x (a - 2 * q) else -x (4 * q - a)

/-- The extrapolated electrical angle θ, in 2^-24 revolution (R434). -/
def World.pdTheta (w : World) (k : Nat) : Nat :=
  let postb : Int := ((w.f F.PD_POSTB_LO_T_LO k + 2 ^ 32 * w.f F.PD_POSTB_HI_T_HI k : Nat) : Int)
  let pos : Int := (w.f F.PD_POS_POS k : Int) + rdiv (w.fs F.PD_SPEED_SPEED k * ((w.tb : Int) - postb) * 16) 1000000000
  unI 24 (pos * (w.f F.PD_MOTOR_POLES k : Int) + (w.f F.PD_OFFSET_OFFSET k : Int) + ((w.f F.PD_AMP_LEAD k * 256 : Nat) : Int))

/-- An ANGLE duty: the leg's phase is `third` thirds of a revolution behind θ. -/
def angleDuty (amp theta third : Nat) : Nat :=
  let s := sin3 (3 * theta + 3 * 2 ^ 24 - third * 2 ^ 24)
  (clampI 0 65535 (rdiv (32768 * (65536 * sinOne + amp * s)) (65536 * sinOne))).toNat

/-- A carrier midpoint of channel `k`. -/
def World.pdMidpoint (w : World) (k : Nat) : World :=
  let p := w.pump k
  let m := w.f F.PD_CFG_MODE k
  if !w.fb F.PD_CFG_EN k then w
  else if m = 1 then
    match p.commit with
    | some d => w.setPump k { p with duty := d, commit := none }
    | none => w
  else if m = 2 then
    let amp := w.f F.PD_AMPNOW_AMP k
    let th := w.pdTheta k
    let (v, u) := if w.fb F.PD_CFG_DIR k then (2, 1) else (1, 2)
    w.setPump k { p with duty := [angleDuty amp th 0, angleDuty amp th v, angleDuty amp th u] }
  else w

/-- The next carrier midpoint comes no earlier than a period from now (R433). -/
def World.nextMid (w : World) (k : Nat) : World :=
  if w.fb F.PD_CFG_EN k then w.setPump k { w.pump k with midAt := w.clk.tk + 1280 * w.f F.PD_PER_PER k } else w

def execPdCarrierMidpoint (k t : Nat) (s : State) : Res :=
  onW s fun w =>
    let w := w.upTo t
    if k < 4 ∧ w.on 17 ∧ (w.pump k).midAt ≤ w.clk.tk then (w.pdMidpoint k).nextMid k else w

/-- A write of PD_DUTYB commits DA, DB and DC. -/
def World.pdCommit (w : World) (k v : Nat) : World :=
  let w := w.sf F.PD_DUTYB_DC k v
  w.setPump k { w.pump k with commit := some [w.f F.PD_DUTYA_DA k, w.f F.PD_DUTYA_DB k, w.f F.PD_DUTYB_DC k] }

def execPdDutyCommit (k value : Nat) (s : State) : Res := onW s fun w => if k < 4 ∧ w.on 17 then w.pdCommit k value else w

/-! ### Amplitude and boosts (R435, R446) -/

/-- AMP_T: the written amplitude or the floor of the boost level in force. -/
def World.ampTarget (w : World) (k : Nat) : Nat :=
  let l := w.f F.PD_STAT_BOOST k
  max (w.f F.PD_AMP_AMP k) (if l = 0 then 0 else w.f F.PD_BOOSTAMP_AMP (16 * k + l))

/-- AMPNOW moves by at most `d` toward AMP_T. -/
def World.ampMove (w : World) (k d : Nat) : World :=
  let a := w.f F.PD_AMPNOW_AMP k
  let t := w.ampTarget k
  w.sf F.PD_AMPNOW_AMP k (if a < t then min t (a + d) else max t (a - d))

/-- SLEW = 0: AMPNOW follows at once. -/
def World.ampFollow (w : World) (k : Nat) : World :=
  if w.f F.PD_MOTOR_SLEW k = 0 then w.sf F.PD_AMPNOW_AMP k (w.ampTarget k) else w

/-- One of the ten steps of a millisecond. -/
def World.ampStep (w : World) (k : Nat) : World :=
  let p := w.pump k
  let sl := w.f F.PD_MOTOR_SLEW k
  let w := w.setPump k { p with slewStep := (p.slewStep + 1) % 10 }
  if sl = 0 then w.ampFollow k else w.ampMove k ((p.slewStep + 1) * sl / 10 - p.slewStep * sl / 10)

def execAmpSlewStep (k : Nat) (s : State) : Res := onW s fun w => if k < 4 ∧ w.on 17 ∧ w.past (.amp k) 100000 then (w.ampStep k).start (.amp k) else w

def execBoostHoldEnd (k t : Nat) (s : State) : Res :=
  onW s fun w => let w := w.upTo t; if k < 4 then (w.showBoost k).ampFollow k else w

/-! ### Gate faults (R436) -/

def execPdGateFault (k : Nat) (s : State) : Res :=
  onW s fun w =>
    if 4 ≤ k ∨ w.on 17 = false then w
    else
      let w := { w with pins := { w.pins with pdFlt := w.pins.pdFlt ||| 2 ^ k } }
      ((w.sf F.PD_ERR_FLT k 1).sf F.PD_STAT_FLTHOLD k 1).pdIrq k (w.fb F.PD_IEN_FLT k)

/-- A write of 1 to PD_ERR.FLT, ignored while PDk_FLT_N is low. -/
def World.pdRelease (w : World) (k : Nat) : World :=
  if w.pins.pdFlt.testBit k then w else (w.sf F.PD_ERR_FLT k 0).sf F.PD_STAT_FLTHOLD k 0

/-- The release, with the level of PDk_FLT_N at the write. -/
def execPdFaultRelease (k : Nat) (high : Bool) (s : State) : Res :=
  onW s fun w =>
    if 4 ≤ k ∨ w.on 17 = false then w
    else
      let m := w.pins.pdFlt
      World.pdRelease { w with pins := { w.pins with pdFlt := if high then (if m.testBit k then m - 2 ^ k else m) else m ||| 2 ^ k } } k

/-! ### Encoder (R439 to R445) -/

def World.encChk (w : World) (k : Nat) : Nat := match w.f F.PD_ENCCFG_CHK k with | 1 => 1 | 2 => 6 | _ => 0

/-- Bits of a frame. -/
def World.encBits (w : World) (k : Nat) : Nat := 24 + w.f F.PD_ENCCFG_NST k + w.encChk k

/-- A frame begins on channel `k`. -/
def World.encStart (w : World) (k : Nat) : World :=
  let ns := (w.encBits k + 1) * 2 * (w.f F.PD_ENCCFG_DIV k + 1) * 10 + w.f F.PD_ENCPER_GAP k * 1000
  w.setPump k { w.pump k with busy := true, freeAt := w.clk.tk + 128 * ns, postb := w.tb, wait := false }

/-- The Time Base is at an instant of channel `k`'s requests (R442). -/
def World.encDue (w : World) (k : Nat) : Bool := w.tb % (1000 * w.f F.PD_ENCPER_PER k) == 0

/-- A request: the frame begins, or waits for the end of the GAP; one that waits begins then (R438, R442). -/
def World.encRequest (w : World) (k : Nat) : World :=
  let p := w.pump k
  if !w.fb F.PD_CFG_EN k || w.fb F.PD_CFG_SRC k || !w.padsOwned then w
  else if p.freeAt ≤ w.clk.tk then (if p.wait || w.encDue k then w.encStart k else w)
  else if w.encDue k then (w.setPump k { p with wait := true }).incSat F.PD_STAT_LATE k
  else w

def execEncoderRequest (k t : Nat) (s : State) : Res :=
  onW s fun w => let w := w.upTo t; if k < 4 ∧ w.on 17 then w.encRequest k else w

/-- The value of bits, most significant first. -/
def msbVal (l : List Bool) : Nat := l.foldl (fun a b => 2 * a + b2n b) 0

/-- CRC of x^6 + x + 1 over bits in frame order. -/
def crc6 (l : List Bool) : Nat :=
  l.foldl (fun c b => let x := 2 * c % 64; if c.testBit 5 != b then x ^^^ 3 else x) 0

/-- Binary from Gray code: `n` bits of `g`. -/
def unGray (g : Nat) : Nat → Nat
  | 0 => g
  | n + 1 => g ^^^ unGray (g / 2) n

/-- The check of a frame passes (R440). -/
def World.encCheck (w : World) (k : Nat) (bits : List Bool) : Bool :=
  let n := 24 + w.f F.PD_ENCCFG_NST k
  match w.f F.PD_ENCCFG_CHK k with
  | 1 => bits.foldl (fun a b => a != b) false == false
  | 2 => crc6 (bits.take n) == msbVal (bits.drop n)
  | _ => true

/-- `d` counts wrapped into −2^23 to 2^23 − 1. -/
def wrap24 (d : Int) : Int := sx 24 (unI 24 d)

/-- The error bit of a frame that is not valid: ACK, CHECK, ENCERR or JUMP, the first that applies (R441). -/
def World.encBad (w : World) (k : Nat) (bits : List Bool) (ack endOk : Bool) (pos : Nat) : Option Fld :=
  let nst := w.f F.PD_ENCCFG_NST k
  let max := w.f F.PD_SPDCFG_MAXSTEP k
  if !ack || !endOk then some F.PD_ERR_ACK
  else if !w.encCheck k bits then some F.PD_ERR_CHECK
  else if 0 < nst ∧ bits.getD 24 false then some F.PD_ERR_ENCERR
  else match (w.pump k).prev with
    | some (p0, _) => if max ≠ 0 ∧ max < (wrap24 ((pos : Int) - p0)).natAbs then some F.PD_ERR_JUMP else none
    | none => none

/-- One compare firing (R445). -/
def World.cmpFire (k : Nat) (w : World) (i : Nat) : World :=
  let w := ((w.pulse (0x140 + k)).sf F.PD_CMPSTAT_LAST k i).inc F.PD_CMPSTAT_FIRED k
  let w := w.pdIrq k (w.fb F.PD_IEN_CMP k)
  w.when (w.fb F.PD_CMP_ONCE (16 * k + i)) fun w => w.sf F.PD_CMP_DIR (16 * k + i) 0

/-- The entries that a motion of `d` counts from `p0` crosses, in its order. -/
def World.crossed (w : World) (k p0 : Nat) (d : Int) : List Nat :=
  let at_ (i : Nat) : Nat :=
    let p : Int := w.f F.PD_CMP_POS (16 * k + i)
    unI 24 (if 0 ≤ d then p - p0 else p0 - p)
  let l := idxs 16 fun i =>
    let dir := w.f F.PD_CMP_DIR (16 * k + i)
    decide (d ≠ 0) && (if 0 < d then dir.testBit 0 else dir.testBit 1) && decide (0 < at_ i) && decide (at_ i ≤ d.natAbs)
  l.foldl (fun l i => insertBy at_ i l) []

/-- A valid frame: position, speed and compare list (R441, R444, R445). -/
def World.encValid (w : World) (k pos st postb : Nat) : World :=
  let p := w.pump k
  let w := ((w.sf F.PD_POS_POS k pos).sf F.PD_POS_ST k st).sf F.PD_POS_VALID k 1
  let w := (w.sf F.PD_POSTB_LO_T_LO k postb).sf F.PD_POSTB_HI_T_HI k (postb / 2 ^ 32)
  let w := (w.inc F.PD_STAT_FRAMES k).sf F.PD_STAT_ENCLOST k 0
  let w := w.setPump k { p with seen := true, prev := some (pos, postb), lastOk := true, bad := 0 }
  match p.prev with
  | none => w
  | some (p0, t0) =>
    let d := wrap24 ((pos : Int) - p0)
    let w := if p.lastOk then
        let l := (rdiv (d * 1000000000) (16 * ((postb : Int) - t0)) :: p.speeds).take (2 ^ w.f F.PD_SPDCFG_SAVG k)
        (w.setPump k { w.pump k with speeds := l }).sfI F.PD_SPEED_SPEED k (rdiv l.sum l.length)
      else w
    (w.crossed k p0 d).foldl (World.cmpFire k) w

/-- A frame that is not valid. -/
def World.encInvalid (w : World) (k : Nat) : World :=
  let p := w.pump k
  let n := max 1 (w.f F.PD_ENCCFG_LOSTN k)
  let w := w.setPump k { p with lastOk := false, bad := min (p.bad + 1) n }
  if n ≤ p.bad + 1 then (w.pdIrq k (w.fb F.PD_IEN_LOST k && !w.fb F.PD_STAT_ENCLOST k)).sf F.PD_STAT_ENCLOST k 1 else w

/-- Channels that take the frames of channel `k` (R443): `n` are looked at. -/
def World.encTakers (w : World) : Nat → Nat → List Nat
  | 0, _ => []
  | n + 1, k => if k + 1 < 4 ∧ w.fb F.PD_CFG_EN (k + 1) ∧ w.fb F.PD_CFG_SRC (k + 1) then (k + 1) :: w.encTakers n (k + 1) else []

/-- A frame of channel `k` ends and is judged, once its GAP has passed (R439). -/
def World.encFrame (w : World) (k : Nat) (bits : List Bool) (ack endOk : Bool) : World :=
  let p := w.pump k
  if !p.busy || decide (w.clk.tk < p.freeAt) then w
  else
    let raw := msbVal (bits.take 24)
    let pos := if w.fb F.PD_ENCCFG_GRAY k then unGray raw 24 % 2 ^ 24 else raw
    let st := b2n (bits.getD 24 false && decide (0 < w.f F.PD_ENCCFG_NST k))
      + 2 * b2n (bits.getD 25 false && decide (1 < w.f F.PD_ENCCFG_NST k))
    let w := w.setPump k { p with busy := false }
    let l := k :: w.encTakers 3 k
    match w.encBad k bits ack endOk pos with
    | none => l.foldl (fun w c => w.encValid c pos st p.postb) w
    | some e => l.foldl (fun w c => w.encInvalid c) (w.sf e k 1)

def execEncoderFrame (k : Nat) (bits : List Bool) (ack endOk : Bool) (t : Nat) (s : State) : Res :=
  onW s fun w => let w := w.upTo t; if k < 4 ∧ w.on 17 then w.encFrame k bits ack endOk else w

/-! ### Enabling and coasting (R434, R437) -/

/-- EN of channel `k` rises: it starts from its first frame. -/
def World.pdEnable (w : World) (k : Nat) : World :=
  w.setPump k { w.pump k with seen := false, coast := false, lastOk := false, bad := 0, busy := false, freeAt := 0, wait := false, midAt := 0 }

/-- Every leg of every channel goes OFF. -/
def World.pdCoast (w : World) : World := (List.range 4).foldl (fun w k => w.setPump k { w.pump k with coast := true }) w

end Sys2Proof.Machine
end

