-- ==== Sys2Proof/Machine/Belay.lean ====
section
/-! DEFINITION. The belay pair: frames and their acknowledgement, pairing, heartbeats, snapshots, pad ownership, takeover
and handover (R131, R189, R249, R250, R366 to R376). -/

namespace Sys2Proof.Machine

abbrev roSolo : Nat := 0
abbrev roActive : Nat := 1
abbrev roStandby : Nat := 2

def World.role (w : World) : Nat := w.f F.BL_STAT_ROLE 0

/-- BL_STAT.ROLE moves; BL_ERR.ROLECHG tells of it (R378). -/
def World.setRole (w : World) (r : Nat) : World :=
  if w.role = r then w else (w.sf F.BL_STAT_ROLE 0 r).sf F.BL_ERR_ROLECHG 0 1

/-- Rings other than local ones pass between RUN and STANDBY with the role (R211, R224). -/
def World.showRings (w : World) : World :=
  (List.range 16).foldl (fun w n =>
    let s := w.rgState n
    if s = rgStandby ∨ s = rgRun ∨ s = rgStalled then
      (if w.rgGo n = rgStandby then w.setRgState n rgStandby else if s = rgStandby then w.setRgState n rgRun else w)
    else w) w

/-! ### Frames (R249, R368) -/

/-- Ring slots held for the acknowledgement of key `key` are released. -/
def World.releaseKey (w : World) (key : Nat) : World :=
  let l := w.cmd.unacked.filter fun u => u.1 == key
  let w := { w with cmd := { w.cmd with unacked := w.cmd.unacked.filter fun u => u.1 != key } }
  l.foldl (fun w u =>
    if u.2.1 = 0xFF then w
    else
      (w.setRing u.2.1 { w.ring u.2.1 with slots := (w.ring u.2.1).slots.map fun (s : Slot) =>
        if s.slot = u.2.2 then { s with held := false } else s }).flushRing u.2.1) w

/-- The partner acknowledges frame `seq`. -/
def World.ack (w : World) (seq : Nat) : World :=
  match w.bly.sent.find? fun (x : Frame) => x.seq == seq with
  | none => w
  | some x =>
    let w := { w with bly := { w.bly with sent := w.bly.sent.filter fun (y : Frame) => y.seq != seq } }
    let w := w.sf F.BL_RTT_RTT 0 (satU 16 (nsIn x.sentAt (w.clk.tk - x.sentAt)))
    match x.msg with
    | .effect c _ _ => w.releaseKey (if c.gseq.isSome then 0xFF else c.rail)
    | _ => w

def execAck (seq t : Nat) (s : State) : Res :=
  onW s fun w => let w := w.upTo t; if w.fb F.BL_STAT_LINKUP 0 then w.ack seq else w

/-- Frame `seq` is retried; after four failed retries the link retrains (R368). -/
def World.retryFrame (w : World) (seq : Nat) : World :=
  match w.bly.sent.find? fun (x : Frame) => x.seq == seq with
  | none => w
  | some x =>
    if 4 ≤ x.tries then (w.sf F.BL_ERR_RETRY 0 1).sf F.BL_STAT_LINKUP 0 0
    else
      let w := { w with bly := { w.bly with sent := w.bly.sent.map fun (y : Frame) =>
        if y.seq = seq then { y with tries := y.tries + 1 } else y } }
      (w.inc F.BL_RTT_RETRIES 0).emit (.belay x.msg)

def execNak (seq : Nat) (s : State) : Res := onW s fun w => if w.fb F.BL_STAT_LINKUP 0 then w.retryFrame seq else w
def execFrameRetry (seq : Nat) (s : State) : Res := onW s fun w => if w.fb F.BL_STAT_LINKUP 0 then w.retryFrame seq else w

/-- A message frame arrives: with a bad CRC it is answered NAK; a good one is held and answered ACK, a repeat only
answered (R249, R368). -/
def World.receive (w : World) (tag seq : Nat) (good : Bool) (m : BlyOut) : World :=
  if !w.fb F.BL_STAT_LINKUP 0 then w
  else if !good then w.emit (.belay (.nak seq))
  else
    let w := w.emit (.belay (.ack seq))
    if w.role ≠ roStandby ∨ w.bly.msgs.any (fun x => x.2.1 == seq) then w
    else { w with bly := { w.bly with msgs := w.bly.msgs ++ [(tag % 65536, seq, m)] } }

def execStampMessage (tag seq : Nat) (good : Bool) (c : Cmd) (s : State) : Res :=
  onW s fun w => w.receive tag seq good (.stamp c)

def execEffectMessage (tag seq : Nat) (good : Bool) (c : Cmd) (sense : Int) (wb : Option WB) (s : State) : Res :=
  onW s fun w => w.receive tag seq good (.effect c sense wb)

def execDecisionMessage (tag seq : Nat) (good : Bool) (i : Nat) (commit : Bool) (why : Reason) (s : State) : Res :=
  onW s fun w => w.receive tag seq good (.decision i commit why)

def execFaultMessage (tag seq : Nat) (good : Bool) (m : FaultMsg) (s : State) : Res :=
  onW s fun w => w.receive tag seq good (.fault m)

/-! ### Snapshots (R131, R370) -/

/-- Register fields that a snapshot carries: route, phases, intent, ledger, protection copies and sequence state. -/
def mirrored : List Fld :=
  [F.LE_STAT_RUN, F.LE_STAT_FROZEN, F.LE_STAT_IACT, F.LE_STAT_BLEND, F.LE_STAT_BAND, F.LE_STAT_CKDEPTH, F.LE_TARGET_CODE,
   F.LE_REFNOW_CODE, F.LE_DFFNOW_DFF, F.LE_CMDNOW_CMD, F.RSC_DACNOW_CODE, F.LE_RSTATE_RSTATE, F.LE_RSTATE_GATE, F.LE_RSEQ_NEXT, F.LE_RLAST_LAST,
   F.PW_EDGE_DUTY, F.PW_EDGE_LVL, F.PW_PHSTAT_STATE, F.PW_PHSTAT_XG, F.PW_PHSTAT_KSRC, F.PW_PHSTAT_RANK, F.PW_PHSTAT_DTNOW,
   F.PW_NREQ_NREQ, F.PW_RSTAT_NREQ, F.PW_RSTAT_NBOUND, F.PW_RSTAT_RAILEN, F.PW_RSTAT_REBASE,
   F.PROT_RESC_ESCCNT, F.PROT_RFLT_FIRST, F.PROT_RFLT_LATCHED, F.PROT_RFLT_HICCUP, F.PROT_RFLT_ESC, F.PROT_RFLT_RETRIES, F.PROT_RFLT_CAUSE,
   F.PROT_RFTS_LO_T_LO, F.PROT_RFTS_HI_T_HI, F.PROT_RPH_LANES, F.FC_OCC_COUNT, F.FC_RSTAT_INFLIGHT, F.FC_RSTAT_LASTOUT, F.FC_RSTAT_FSEQ,
   F.EL_RACC_LO_E_LO, F.EL_RACC_HI_E_HI, F.EL_RUSED_LO_U_LO, F.EL_RUSED_HI_U_HI, F.EL_RLIM_LO_L_LO, F.EL_RLIM_HI_L_HI,
   F.EL_RWIN_WINDOW, F.EL_RWIN_MODE, F.EL_RSTAT_WDN, F.EL_RSTAT_CAPN, F.EL_IACC_LO_E_LO, F.EL_IACC_HI_E_HI,
   F.GL_GSEQ_NEXT, F.RING_HEAD_HEAD, F.RING_TAIL_TAIL, F.RING_DONE_DONE, F.RING_SEQ_SEQ]

/-- The key belongs to a mirrored field; a local ring's registers are not mirrored (R224). -/
def World.mirrors (w : World) (k : Nat) : Bool :=
  (mirrored.any fun B => B.id == keyId k) &&
    !([F.RING_HEAD_HEAD, F.RING_TAIL_TAIL, F.RING_DONE_DONE, F.RING_SEQ_SEQ].any fun B =>
        B.id == keyId k && w.fb F.RING_CFG_LOCAL (keyInst k))

/-- A ring's commands as a snapshot shows them. -/
def Ring.shown (g : Ring) : Ring := { slots := g.slots.map fun (s : Slot) => ({ s with held := false } : Slot), waitOn := g.waitOn }

/-- The snapshot of epoch `e`. -/
def World.capture (w : World) (e : Nat) : Snap :=
  { epoch := e, tbq := w.clk.tbq, eng := w.eng, itn := w.itn, prt := w.prt, ph := w.ph, fcs := w.fcs, led := w.led
    queue := w.cmd.queue, waits := w.cmd.waits, rings := mmapv {} Ring.shown w.rings
    regs := w.regs.filter fun e => w.mirrors e.1 }

/-- Frames of one snapshot: 19,904 bytes in payloads of 56. -/
def snapFrames : Nat := 356

/-- The update state returns from 3 to 0 once paired with SYNC (R375). -/
def World.updDone (w : World) : World := if w.f F.BL_STAT_UPD 0 = 3 then w.sf F.BL_STAT_UPD 0 0 else w

/-- A complete snapshot becomes the mirror; messages of earlier epochs are in it (R370, R372). -/
def World.takeSnap (w : World) (sn : Snap) : World :=
  let w := { w with bly := { w.bly with
    mirror := some sn, asm := none, msgs := w.bly.msgs.filter fun x => decide ((x.1 + 65536 - sn.epoch % 65536) % 65536 < 32768) } }
  ((w.sf F.BL_EPOCH_EPOCH 0 sn.epoch).sf F.BL_STAT_SYNC 0 1).updDone

/-- A snapshot of which a frame has failed is torn, once. -/
def World.tear (w : World) (e : Nat) : World :=
  World.inc { w with bly := { w.bly with asm := some (e, 0, true) } } F.BL_CNT_TORN 0

/-- Frame `part` of epoch `e` arrives; `sn` is what the epoch's frames hold together. -/
def World.snapFrame (w : World) (e part : Nat) (good : Bool) (sn : Snap) : World :=
  let fresh (w : World) : World :=
    if good ∧ part = 0 then { w with bly := { w.bly with asm := some (e, 1, false) } } else w.tear e
  match w.bly.asm with
  | none => fresh w
  | some (e', n, torn) =>
    if e' = e then
      (if torn then w
       else if good ∧ part = n then
         (if n + 1 = snapFrames then w.takeSnap { sn with epoch := e }
          else { w with bly := { w.bly with asm := some (e, n + 1, false) } })
       else w.tear e)
    else fresh (if torn then w else w.inc F.BL_CNT_TORN 0)

def execSnapshot (epoch part : Nat) (good : Bool) (sn : Snap) (s : State) : Res :=
  onW s fun w => if w.fb F.BL_STAT_LINKUP 0 ∧ w.role = roStandby then w.snapFrame epoch part good sn else w

/-! ### Loading the mirror (R131, R250, R372) -/

/-- The engine as the new part starts it: times of the old part's base clock do not hold here. -/
def Eng.load (e : Eng) : Eng :=
  { e with notBefore := 0, dacIdle := none, emits := [], isum1 := none, iest0 := none, iest1 := none }

/-- A rollback goes on as if the updates since the epoch had run (R131). -/
def World.rollOn (w : World) (r ticks : Nat) : World :=
  let t := w.intent r
  match t.target with
  | none => w
  | some c =>
    let n := ticks / w.tu r
    let s := w.rampStep r * n
    let ramp := if t.ramp < 0 then t.ramp + min s (-t.ramp) else t.ramp - min s t.ramp
    let m := if t.blending then min n (8 - t.k) else 0
    let e := (List.range m).foldl (fun (e : Eng) j => e.blend (t.k + 1 + j) c) (w.engine r)
    let w := (w.setEngine r e).setIntent r { t with ramp := ramp, k := t.k + m, blending := t.blending && decide (t.k + m < 8) }
    w.when (t.blending && decide (8 ≤ t.k + m)) fun w => (w.sf F.LE_STAT_BAND r c.band).sf F.LE_STAT_BLEND r 0

/-- What the new part makes of entry `i`: a decision whose message was accepted acts at the next boundary, one not accepted is
decided anew; a window that is over is judged from the mirrored match count (R131). -/
def World.tkoFc (w : World) (i : Nat) : World :=
  let f := w.fc i
  if f.st = .run ∨ f.st = .matched then
    w.setFc i { f with decision := if f.acc then f.decision else none
                       tko := decide (f.t0 + (f.cwin * 128 : Nat) ≤ (w.clk.tbq : Int)) }
  else w

/-- The mirror becomes the part's own state (R372). -/
def World.loadSnap (w : World) (sn : Snap) : World :=
  let w := { w with
    eng := mmapv {} Eng.load sn.eng, itn := sn.itn, prt := sn.prt, ph := sn.ph, fcs := sn.fcs, led := sn.led
    cmd := { w.cmd with queue := sn.queue, waits := sn.waits, unacked := [] }
    regs := w.regs.filter fun e => !w.mirrors e.1 }
  let w := sn.regs.foldl (fun w e => match keyField e.1 with
    | some (_, B) => if w.mirrors e.1 then w.sf B (keyInst e.1) e.2 else w
    | none => w) w
  let w := (idxs 16 fun n => !w.fb F.RING_CFG_LOCAL n).foldl (fun w n =>
    let w := w.setRing n (mget {} sn.rings n)
    if w.rgType n = 3 then (w.sf F.RING_HEAD_HEAD n (w.f F.RING_DONE_DONE n)).setRing n ({} : Ring) else w) w
  (List.range w.nRails).foldl (fun w r => w.rollOn r (w.clk.tbq - sn.tbq)) w

/-- A stamp that the mirror does not show is drawn and queued. -/
def World.applyStamp (w : World) (c : Cmd) : World :=
  let old (next st : Nat) : Bool := decide ((next + 2 ^ 32 - st - 1) % 2 ^ 32 < 2 ^ 31)
  let reflected := match c.gseq, c.rails with
    | some g, _ => decide (g < w.f F.GL_GSEQ_NEXT 0)
    | none, (r, st) :: _ => old (w.f F.LE_RSEQ_NEXT r) st
    | none, [] => true
  if reflected then w
  else
    let w := c.rails.foldl (fun w e => w.sf F.LE_RSEQ_NEXT e.1 (e.2 + 1)) w
    let w := match c.gseq with | some g => w.sf F.GL_GSEQ_NEXT 0 (g + 1) | none => w
    let w := match c.op with | .forecast _ => w.sf F.FC_RSTAT_FSEQ c.rail (c.fseq + 1) | _ => w
    let w := match c.src with
      | .ring n slot irq =>
        let w := w.sf F.RING_HEAD_HEAD n ((slot + 1) % w.ringLen n)
        w.setRing n { w.ring n with slots := (w.ring n).slots ++ [({ slot := slot, irq := irq, wait := false } : Slot)] }
      | _ => w
    { w with cmd := { w.cmd with queue := w.cmd.queue ++ [c] } }

/-- An effect that the mirror does not show is taken, with the status that its message gives (R250). -/
def World.applyEffect (w : World) (c : Cmd) (sense : Int) (wb : Option WB) : World :=
  match w.cmd.queue.find? (fun (d : Cmd) => d.stamp == c.stamp && d.rail == c.rail) with
  | none => w
  | some d =>
    let w := { w with cmd := { w.cmd with queue := w.cmd.queue.erase d } }
    let d := { d with due := c.due }
    match wb with
    | some b => if b.status = stOk then w.judge d sense else w.settleVoid d b.status b.xstat b.result .notAccepted
    | none => w.judge d sense

/-- A fault that the mirror does not show is taken; its record has the number, time and content of the message (R189). -/
def World.applyFault (w : World) (q : FaultMsg) : World :=
  let n := w.routeOf 1
  if w.rfts q.r = q.tb ∧ w.faulted q.r then w
  else
    let next := w.f F.RING_SEQ_SEQ n
    let w := ((w.sf F.RING_SEQ_SEQ n q.seq).shutdown q.r q.resp q.mask q.esc q.why).sf F.RING_SEQ_SEQ n (max next (q.seq + 1))
    let w := (w.sf F.PROT_RFTS_LO_T_LO q.r q.tb).sf F.PROT_RFTS_HI_T_HI q.r (q.tb / 2 ^ 32)
    let w := q.kills.foldl (fun w e => w.kill e.1 e.2) w
    w.mapEntries fun l => l.map fun e => match e with
      | .record h x => if h.cls = 1 ∧ h.ring = n ∧ h.seq = q.seq then .record { h with pay := q.pay, tq := q.tb } x else e
      | _ => e

/-- One received message acts on the loaded mirror. -/
def World.applyMsg (w : World) (x : BlyOut) : World :=
  match x with
  | .stamp c => w.applyStamp c
  | .effect c sense wb => w.applyEffect c sense wb
  | .decision i commit why =>
    let f := w.fc i
    if f.st = .run ∨ f.st = .matched then
      (if commit then w.commitFc i else w.startRollback f.rail i why .elder)
    else w
  | .fault q => w.applyFault q
  | .heartbeat .. | .snapshot _ | .ack _ | .nak _ | .handover _ | .control _ => w

/-- The lowest-stamped command of each rail and of GSEQ that has no effect message completes TAKEOVER_UNCERTAIN (R250). -/
def World.uncertain (w : World) : World :=
  let q := w.cmd.queue
  let low (c : Cmd) : Bool :=
    (c.gseq.isSome && q.find? (fun (d : Cmd) => d.gseq.isSome) == some c)
    || (c.rails.any fun e => q.find? (fun (d : Cmd) => (d.on e.1).isSome) == some c)
  let l := q.filter low
  let w := { w with cmd := { w.cmd with queue := q.filter fun c => !low c } }
  l.foldl (fun w c => w.settleVoid c stUncertain 0 0 .restart) w

/-- Ownership is taken: pump channels start from their first frames (R366, R438). -/
def World.takePads (w : World) : World :=
  (List.range 4).foldl (fun w k => w.setPump k { w.pump k with seen := false }) (w.sf F.BL_STAT_OWN 0 1)

/-- BL_TKO, the fabric pulse and the Cairn record of a takeover (kind 0) or handover (kind 1). -/
def World.tkoMark (w : World) (kind tb : Nat) : World :=
  let w := ((w.sf F.BL_TKO_LO_T_LO 0 tb).sf F.BL_TKO_HI_T_HI 0 (tb / 2 ^ 32)).pulse 0x1BF
  w.cairn 0x40 (leBytes 4 kind ++ leBytes 8 tb ++ leBytes 4 (w.f F.BL_EPOCH_EPOCH 0) ++ leBytes 4 (w.f F.BL_ERR_CFGDIFF 0))

/-- From the load step of R372: mirror, messages in arrival order, uncertain commands, rings. -/
def World.resume (w : World) (uncertain : Bool) : World :=
  match w.bly.mirror with
  | none => w.showRings
  | some sn =>
    let l := w.bly.msgs
    let w := w.loadSnap sn
    let w := l.foldl (fun w x => w.applyMsg x.2.2) w
    let w := (List.range 128).foldl World.tkoFc (w.when uncertain World.uncertain)
    let w := { w with bly := { w.bly with mirror := none, msgs := [], asm := none } }
    let w := (List.range 16).foldl (fun w n => w.flushRing n) w
    w.showRings

/-! ### Partner lost and ownership (R366, R367, R369, R372, R373) -/

/-- No partner: nothing waits for acknowledgement (R249, R367). -/
def World.unpair (w : World) : World :=
  let keys := w.cmd.unacked.map (·.1)
  let w := { w with bly := { w.bly with sent := [], handReq := false } }
  let w := keys.foldl World.releaseKey w
  (List.range 128).foldl (fun w i =>
    let f := w.fc i
    match f.decision with
    | some true => w.commitFc i
    | some false => w.startRollback f.rail i f.why .elder
    | none => w) w

def World.partnerLost (w : World) : World :=
  let w := (w.sf F.BL_CNT_HBMISS 0 (w.f F.BL_CNT_HBMISS 0 + 3)).sf F.BL_STAT_PARTNER 0 2
  if w.role = roActive then (w.setRole roSolo).unpair
  else if w.role = roStandby then
    if w.fb F.BL_STAT_KAIN 0 then
      let w := ((w.setRole roSolo).sf F.BL_STAT_SYNC 0 0).sf F.BL_ERR_LINKLOST 0 1
      World.showRings { w with bly := { w.bly with mirror := none, msgs := [], asm := none } }
    else if w.fb F.BL_STAT_SYNC 0 then ((w.setRole roActive).takePads.tkoMark 0 w.tb).resume true
    else
      let w := ((w.setRole roSolo).takePads.sf F.BL_ERR_NOTSYNC 0 1)
      ((List.range w.nRails).foldl (fun w r => w.setRstate r rsOff) w).showRings
  else w

def execPartnerLost (t : Nat) (s : State) : Res :=
  onW s fun w =>
    let w := w.upTo t
    if w.f F.BL_STAT_PARTNER 0 = 1 ∧ w.bly.hbAt + 128 * 3000 ≤ w.clk.tk then w.partnerLost else w

/-- BLKA_I is quiet; `tie` when the partner found it so at the same moment (R366, R374). -/
def World.kaQuiet (w : World) (tie : Bool) : World :=
  let w := w.sf F.BL_STAT_KAIN 0 0
  if !w.pins.blpair || !w.fb F.BL_CFG_EN 0 || w.fb F.BL_STAT_OWN 0 then w
  else match w.bly.handIn with
    | some h =>
      let w := { w with bly := { w.bly with handIn := none } }
      (w.takePads.tkoMark 1 h).resume false
    | none =>
      if w.role ≠ roSolo ∨ (tie ∧ w.pins.blsel = false) then w else w.takePads.showRings

def execBlkaQuiet (tie : Bool) (t : Nat) (s : State) : Res :=
  onW s fun w => let w := w.upTo t; if w.on 3 then w.kaQuiet tie else w

/-- The keep-alive generator stops: the pads float and ownership ends. -/
def execKeepaliveStop (t : Nat) (s : State) : Res :=
  onW s fun w => let w := w.upTo t; if w.pins.blpair then (w.sf F.BL_STAT_OWN 0 0).showRings else w

/-! ### Pairing (R367) -/

/-- The checks of pairing against the partner's variant, ROMVER, pad mode and refusal. -/
def World.pairErrs (w : World) (variant romver : Nat) (pad960 refuse : Bool) : List Fld :=
  (if variant ≠ b2n w.lx1264 then [F.BL_ERR_VARIANT] else [])
  ++ (if romver ≠ w.f F.LE_UCODE_VER_ROMVER 0 then [F.BL_ERR_COMPAT] else [])
  ++ (if pad960 || w.fb F.PM_PADCFG_LX0960 0 then [F.BL_ERR_PADMODE] else [])
  ++ (if refuse || w.bly.refuse then [F.BL_ERR_REFUSED] else [])

/-- A part that becomes STANDBY clears SYNC and asks for snapshots. -/
def World.goStandby (w : World) : World :=
  let w := (w.setRole roStandby).sf F.BL_STAT_SYNC 0 0
  let w := { w with bly := { w.bly with mirror := none, msgs := [], asm := none, handIn := none } }
  (w.showRings.showSync).send (.control 1)

/-- The link has trained; `own` and `sel` are the partner's. -/
def World.trained (w : World) (variant romver : Nat) (pad960 refuse own sel : Bool) : World :=
  let w := w.sf F.BL_STAT_LINKUP 0 1
  if w.role ≠ roSolo then
    w.bly.sent.foldl (fun w (x : Frame) => w.emit (.belay x.msg))
      { w with bly := { w.bly with sent := w.bly.sent.map fun (x : Frame) => { x with tries := 0 } } }
  else
    let w := w.when (sel == w.pins.blsel) fun w => w.sf F.BL_ERR_SELCONF 0 1
    match w.pairErrs variant romver pad960 refuse with
    | [] =>
      let w := { w with bly := { w.bly with hbAt := w.clk.tk, sent := [], pSync := false } }
      let w := (w.sf F.BL_STAT_PARTNER 0 1).when own fun w => w.sf F.BL_STAT_KAIN 0 1
      if w.fb F.BL_STAT_OWN 0 then w.setRole roActive else w.goStandby
    | l => l.foldl (fun w B => w.sf B 0 1) w

def execBelayLinkTrained (variant romver : Nat) (pad960 refuse own sel : Bool) (t : Nat) (s : State) : Res :=
  onW s fun w =>
    let w := w.upTo t
    if w.on 3 ∧ w.pins.blpair ∧ w.fb F.BL_CFG_EN 0 then w.trained variant romver pad960 refuse own sel else w

/-- BL_CTL.REFUSE. -/
def World.refusePartner (w : World) : World :=
  World.send (w.sf F.BL_ERR_REFUSED 0 1 |> fun w => { w with bly := { w.bly with refuse := true } }) (.control 2)

def execRefuse (s : State) : Res := onW s fun w => if w.on 3 then w.refusePartner else w

/-- BL_CTL.RESYNC. -/
def World.resync (w : World) : World :=
  if w.role = roStandby then
    World.send { w.sf F.BL_STAT_SYNC 0 0 with bly := { w.bly with mirror := none, asm := none, msgs := [] } } (.control 1)
  else w

def execResync (s : State) : Res := onW s fun w => if w.on 3 then w.resync else w

/-! ### Heartbeats and signatures (R369, R371) -/

/-- The configuration registers of LE, PW, PROT, FC and HINT: their fields' keys. -/
def cfgKey (k : Nat) : Bool :=
  match keyField k with
  | some (g, B) =>
    B.acc == .rw && (g.isl.contains 8 || g.isl.contains 10 || [R.PROT_VCFG.id, R.PROT_PCFG.id, R.PROT_PBLK.id].contains g.id)
  | none => false

/-- BL_CFGSIG: the CRC-32 over the shadow and live values of those registers.  The manual gives no order of its bytes, so
the value is left open. -/
def World.cfgSig (w : World) : Nat :=
  Config.cfgSig (w.regs.filter fun e => cfgKey e.1) (w.live.filter fun e => cfgKey e.1) % 2 ^ 32

/-- The heartbeats missed before one that arrives now. -/
def World.hbMissed (w : World) : Nat :=
  if w.f F.BL_STAT_PARTNER 0 = 1 then (nsIn w.bly.hbAt (w.clk.tk - w.bly.hbAt) + 500) / 1000 - 1 else 0

/-- What a heartbeat tells of the partner. -/
def World.heard (w : World) (own sync : Bool) (upd romver cls sig : Nat) : World :=
  let w := w.sf F.BL_CNT_HBMISS 0 (w.f F.BL_CNT_HBMISS 0 + w.hbMissed)
  let mine := w.cfgSig
  let diff := if mine = sig then none else match w.bly.diffAt with | some t => some t | none => some w.clk.tk
  let w := { w with bly := { w.bly with hbAt := w.clk.tk, pSync := sync, diffAt := diff } }
  let w := (w.sf F.BL_STAT_PUPD 0 upd).when own fun w => w.sf F.BL_STAT_KAIN 0 1
  let w := (w.sf F.BL_PVER_ROMVER 0 romver).sf F.BL_PVER_CLASS 0 cls
  (w.sf F.BL_PCFGSIG_SIG 0 sig).sf F.BL_CFGSIG_SIG 0 mine

/-- The Time Base follows the partner's, whose heartbeat gave `tb`. -/
def World.followTb (w : World) (tb : Nat) : World :=
  let x : Int := (tb + w.f F.BL_RTT_RTT 0 / 2 : Nat) - (w.tb : Int)
  (w.when (decide (20 < x.natAbs)) fun w => w.sf F.BL_ERR_TBSKEW 0 1).servo (128 * x) 1000

/-- A heartbeat arrives from the partner. -/
def World.heartbeat (w : World) (own sync : Bool) (upd romver cls sig tb : Nat) : World :=
  let w := w.heard own sync upd romver cls sig
  let w := w.when (w.role == roActive && sync) World.updDone
  if w.follows then w.followTb tb else w

def execHeartbeat (own sync : Bool) (upd romver cls sig tb t : Nat) (s : State) : Res :=
  onW s fun w => let w := w.upTo t; if w.fb F.BL_STAT_LINKUP 0 then w.heartbeat own sync upd romver cls sig tb else w

/-- The signatures have differed for more than 10 µs. -/
def execCfgdiff (t : Nat) (s : State) : Res :=
  onW s fun w =>
    let w := w.upTo t
    match w.bly.diffAt with
    | some d => if d + 128 * 10000 < w.clk.tk then w.sf F.BL_ERR_CFGDIFF 0 1 else w
    | none => w

/-! ### Planned handover (R374) -/

/-- A handover is asked for: with no synchronised partner it is ignored. -/
def World.handover (w : World) : World :=
  if w.role = roActive ∧ w.f F.BL_STAT_PARTNER 0 = 1 ∧ w.bly.pSync then
    { w with noFetch := true, bly := { w.bly with handReq := true } }
  else w.sf F.BL_ERR_NOTSYNC 0 1

def execHandover (s : State) : Res := onW s fun w => if w.on 3 then w.handover else w

/-- The HANDOVER frame arrives: the standby waits for BLKA_I to fall quiet. -/
def World.handoverFrame (w : World) (seq h : Nat) : World :=
  let w := w.emit (.belay (.ack seq))
  if w.role = roStandby then
    World.setRole { w with bly := { w.bly with handIn := some h } } roActive
  else w

def execHandoverFrame (seq h t : Nat) (s : State) : Res :=
  onW s fun w => let w := w.upTo t; if w.fb F.BL_STAT_LINKUP 0 then w.handoverFrame seq h else w

end Sys2Proof.Machine
end

