-- ==== Sys2Proof/Machine/Ledger.lean ====
section
/-! DEFINITION. The energy ledger: the 1 µs tick, budgets, withdrawals, charges, and the plan of the self budget
(R256 to R268). -/

namespace Sys2Proof.Machine

/-- A 64-bit register pair takes a value modulo 2^64. -/
def World.setPair (w : World) (lo hi : Fld) (i : Nat) (v : Int) : World :=
  let u := unI 64 v
  (w.sf lo i (u % 2 ^ 32)).sf hi i (u / 2 ^ 32)

/-- The value of a 64-bit register pair. -/
def World.pair (w : World) (lo hi : Fld) (i : Nat) : Nat := w.f lo i + 2 ^ 32 * w.f hi i

/-! ### Meters -/

/-- One rail's increment: the difference of the engine's accumulator enters the total and U (R257). -/
def World.railEnergy (w : World) (r : Nat) : World :=
  let l := w.ledger r
  let a := (w.engine r).eacc
  let d := a - l.taken
  let w := w.setLedger r { l with taken := a, total := l.total + d, used := l.used + d, hist := (d :: l.hist).take 10 }
  (w.setPair F.EL_RACC_LO_E_LO F.EL_RACC_HI_E_HI r ((l.total + d) / 65536)).setPair F.EL_RUSED_LO_U_LO F.EL_RUSED_HI_U_HI r
    ((l.used + d) / 65536)

/-- The engine's accumulator is read a last time and returns to 0 (R26). -/
def World.finalRead (w : World) (r : Nat) : World :=
  let w := w.railEnergy r
  let w := w.setLedger r { w.ledger r with taken := 0 }
  let a := (w.engine r).eacc
  let w := w.setRail r { w.rail r with telE0 := (w.rail r).telE0 - a, avgE := (w.rail r).avgE - a }
  w.setEngine r { w.engine r with eacc := 0 }

/-- Codes of ICC `k` (R65, R258): each sample is I × V_in × 20 ns, I in 1/4096 A. -/
def World.inputEnergy (w : World) (k : Nat) (codes : List Int) : World :=
  let (w, l) := w.currentWords true k codes
  let i := l.sum
  if !w.fb F.EL_INCFG_EN k then w
  else
    let v := w.f F.HKC_RES_VALUE (w.f F.EL_INCFG_ENTRY k) * w.f F.EL_INCFG_VK k
    let den : Nat := 1600 * 2 ^ 20
    let tot : Int := i * v + mget 0 w.pwr.inFrac k
    let nj := tot / den
    let p := w.pwr
    let w := { w with pwr := { p with
      inFrac := mset 0 p.inFrac k (tot % den).toNat
      inMs := mupd 0 p.inMs k fun x => ((x : Int) + nj).toNat } }
    w.setPair F.EL_IACC_LO_E_LO F.EL_IACC_HI_E_HI k (w.pair F.EL_IACC_LO_E_LO F.EL_IACC_HI_E_HI k + nj)

/-- Island `n` drew `x` × 2^-16 nJ in the microsecond; what is below 1 nJ is carried on (R256, R259). -/
def World.selfEnergy (w : World) (n x : Nat) : World :=
  let x := x + mget 0 w.pwr.selfFrac n
  let e := x / 65536
  let w := { w with pwr := { w.pwr with selfMs := mupd 0 w.pwr.selfMs n (· + e), selfFrac := mset 0 w.pwr.selfFrac n (x % 65536) } }
  let w := w.setPair F.EL_SACC_LO_E_LO F.EL_SACC_HI_E_HI n ((w.pair F.EL_SACC_LO_E_LO F.EL_SACC_HI_E_HI n + e : Nat) : Int)
  w.setPair F.EL_SUSED_LO_U_LO F.EL_SUSED_HI_U_HI 0 ((w.pair F.EL_SUSED_LO_U_LO F.EL_SUSED_HI_U_HI 0 + e : Nat) : Int)

/-- A millisecond of ticks gives the mean powers in mW (R259, R278). -/
def World.means (w : World) : World :=
  if w.pwr.ms + 1 < 1000 then { w with pwr := { w.pwr with ms := w.pwr.ms + 1 } }
  else
    let p := w.pwr
    let w := (List.range 22).foldl (fun w n => w.sf F.EL_SPWR_P n (satU 16 (mget 0 p.selfMs n / 1000))) w
    let w := (List.range 4).foldl (fun w k => w.sf F.EL_IPWR_P k (satU 32 (mget 0 p.inMs k / 1000))) w
    { w with pwr := { p with ms := 0, selfMs := [], inMs := [] } }

/-! ### Windows and charges -/

/-- A window of rail `r` ends at this tick (R262). -/
def World.window (w : World) (r : Nat) : World :=
  let l := w.ledger r
  if l.elapsed + 1 = w.f F.EL_RWIN_WINDOW r then
    (w.setLedger r { l with used := 0, elapsed := 0, told := false }).setPair F.EL_RUSED_LO_U_LO F.EL_RUSED_HI_U_HI r 0
  else w.setLedger r { l with elapsed := l.elapsed + 1 }

def World.selfWindow (w : World) : World :=
  if w.pwr.elapsed + 1 = w.f F.EL_SWIN_WINDOW 0 then
    World.setPair { w with pwr := { w.pwr with elapsed := 0, told := false } } F.EL_SUSED_LO_U_LO F.EL_SUSED_HI_U_HI 0 0
  else { w with pwr := { w.pwr with elapsed := w.pwr.elapsed + 1 } }

/-- The time integral of a unit profile still to come at `t`, doubled, in ns rounded up (R264). -/
def Fc.remain2 (f : Fc) (t : Int) : Nat :=
  let rise := if f.t1 ≤ t then 0
    else if t ≤ f.t0 then f.t1 - f.t0
    else ((f.t1 - f.t0) ^ 2 - (t - f.t0) ^ 2) / (f.t1 - f.t0)
  let dwell := 2 * max 0 (f.t2 - max t f.t1)
  let fall := if f.t3 ≤ t then 0 else if t ≤ f.t2 then f.t3 - f.t2 else (f.t3 - t) ^ 2 / (f.t3 - f.t2)
  cdiv (rise + dwell + fall).toNat 128

/-- The charge of a committed forecast at the tick. -/
def World.chargeNow (w : World) (i : Nat) : Nat :=
  let f := w.fc i
  if f.hold then
    cdiv (f.energy f.gstep.natAbs f.time2 * (f.cwin - (w.tb - f.tDecide))) f.cwin
  else f.energy f.gstep.natAbs (f.remain2 w.clk.tbq)

def World.chargeStep (w : World) (i : Nat) : World :=
  let f := w.fc i
  if f.charge = 0 then w else w.setFc i { f with charge := min f.charge (w.chargeNow i) }

/-! ### Budgets -/

/-- One accepted BUDGET_SET comes into force (R262, R268). -/
def World.adoptBudget (w : World) (b : Nat × Nat × Nat × Nat) : World :=
  let (r, win, lim, mode) := b
  if r = 24 then
    let w := w.setPair F.EL_SLIM_LO_L_LO F.EL_SLIM_HI_L_HI 0 lim
    let w := (w.sf F.EL_SWIN_WINDOW 0 win).sf F.EL_SWIN_MODE 0 mode
    World.setPair { w with pwr := { w.pwr with elapsed := 0, told := false } } F.EL_SUSED_LO_U_LO F.EL_SUSED_HI_U_HI 0 0
  else
    let w := w.setPair F.EL_RLIM_LO_L_LO F.EL_RLIM_HI_L_HI r lim
    let w := (w.sf F.EL_RWIN_WINDOW r win).sf F.EL_RWIN_MODE r mode
    (w.setLedger r { w.ledger r with used := 0, elapsed := 0, hist := [], told := false }).setPair F.EL_RUSED_LO_U_LO
      F.EL_RUSED_HI_U_HI r 0

def World.adoptBudgets (w : World) : World :=
  let l := w.budgets
  let w := l.foldl World.adoptBudget { w with budgets := [] }
  w.completeWaits (fun x => x.on == .budget) stOk 0

/-- The payload of an EVENT record of the ledger (R267). -/
def World.elEvent (w : World) (kind rail fseq used limit : Nat) : World :=
  w.record 3 rail ([kind, rail] ++ leBytes 2 fseq ++ [0, 0, 0, 0] ++ leBytes 8 w.tb ++ leBytes 8 used ++ leBytes 8 limit)

/-- U of rail `r` as a 64-bit value. -/
def World.rused (w : World) (r : Nat) : Nat := w.pair F.EL_RUSED_LO_U_LO F.EL_RUSED_HI_U_HI r

/-- Q exceeds LIMIT. -/
def World.overLimit (w : World) (r : Nat) : Bool := decide (65536 * (w.rlim r : Int) < w.projected r)

/-- The reservation of entry `i` is withdrawn (R265). -/
def World.withdraw (w : World) (r i : Nat) : World :=
  let f := w.fc i
  let w := w.setFc i { f with held := 0, res := .withdrawn }
  (w.inc F.EL_RSTAT_WDN r).elEvent 0x12 r f.fseq (w.rused r) (w.rlim r)

/-- Withdrawals, youngest first, until Q is within LIMIT. -/
def World.withdrawals (w : World) (r : Nat) : List Nat → World
  | [] => w
  | i :: l => if w.overLimit r then (w.withdraw r i).withdrawals r l else w

/-- The check of a tick on rail `r` (R265). -/
def World.budgetCheck (w : World) (r : Nat) : World :=
  if w.f F.EL_RWIN_MODE r = 0 ∨ !w.fb F.EL_CTL_EN 0 then w
  else
    let l := ((w.inFc r [.wait, .run, .matched]).filter fun i => decide (0 < (w.fc i).held)).reverse
    let w := w.withdrawals r l
    if w.overLimit r then
      let w := w.sf F.EL_RSTAT_OVER r 1
      if (w.ledger r).told then w
      else (w.setLedger r { w.ledger r with told := true }).elEvent 0x10 r 0 (w.rused r) (w.rlim r)
    else w

/-- The 1 µs tick: `self` gives each island's energy in 2^-16 nJ, `icc` each input's codes since the last tick. -/
def World.ledgerTick (w : World) (self : List (Nat × Nat)) (icc : List (Nat × List Int)) : World :=
  let rs := List.range w.nRails
  let w := rs.foldl World.railEnergy w
  let w := icc.foldl (fun w e => w.inputEnergy e.1 e.2) w
  let w := self.foldl (fun w e => w.selfEnergy e.1 e.2) w
  let w := w.means
  let w := (rs.foldl World.window w).selfWindow
  let w := (List.range 128).foldl World.chargeStep w
  rs.foldl World.budgetCheck w.adoptBudgets

def execLedgerTick (self : List (Nat × Nat)) (icc : List (Nat × List Int)) (s : State) : Res :=
  onW s fun w => if w.on 19 ∧ w.past .ledger 1000 then (w.ledgerTick self icc).start .ledger else w

/-- No HKC result has arrived for input `k`'s voltage for 1 ms (R258). -/
def execElStale (k : Nat) (s : State) : Res :=
  onW s fun w => if w.fb F.EL_INCFG_EN k ∧ w.past (.stale k) 1000000 then w.orBit F.EL_ERR_STALE 0 k else w

/-! ### The self budget (R268) -/

/-- The projected end use of the self window, nJ. -/
def World.selfProjection (w : World) : Nat :=
  w.pair F.EL_SUSED_LO_U_LO F.EL_SUSED_HI_U_HI 0
  + ((List.range 22).map fun n => w.f F.EL_SPWR_P n).sum * (w.f F.EL_SWIN_WINDOW 0 - w.pwr.elapsed)

def World.selfStep (w : World) : World :=
  let lim := w.pair F.EL_SLIM_LO_L_LO F.EL_SLIM_HI_L_HI 0
  let q := w.selfProjection
  let act := w.f F.EL_SSTAT_ACT 0
  if lim < q then
    if w.f F.EL_SWIN_MODE 0 = 0 then w
    else if act < 15 then w.sf F.EL_SSTAT_ACT 0 (2 * act + 1)
    else
      let w := w.sf F.EL_SSTAT_OVER 0 1
      if w.pwr.told then w
      else World.elEvent { w with pwr := { w.pwr with told := true } } 0x11 0xFF 0
        (w.pair F.EL_SUSED_LO_U_LO F.EL_SUSED_HI_U_HI 0) lim
  else if 10 * q < 9 * lim then w.sf F.EL_SSTAT_ACT 0 (act / 2)
  else w

/-- One step of the plan; under step 3 the unused trace banks lose their content (R428). -/
def execSelfBudgetStep (s : State) : Res :=
  onM s fun m w =>
    if w.on 19 ∧ w.past .self 10000 then
      let w := w.selfStep.start .self
      (w.dropBanks m, w)
    else (m, w)

/-- The HKC period in force, µs: doubled up to HKC_PMAX under step 1. -/
def World.hkcPeriod (w : World) : Nat :=
  let p := max 1 (w.f F.HKC_PERIOD_PERIOD 0)
  if (w.f F.EL_SSTAT_ACT 0).testBit 0 then max p (min (2 * p) (w.f F.HKC_PMAX_PMAX 0)) else p

/-- The Trim idle timer of island `n` in force, ns: 100 ns under step 2. -/
def World.trimIdle (w : World) (n : Nat) : Nat :=
  if (w.f F.EL_SSTAT_ACT 0).testBit 1 then 100 else w.f F.PM_TRIM_IDLE n

end Sys2Proof.Machine
end

