-- ==== Sys2Proof/Machine/Reset.lean ====
section
/-! DEFINITION. Resets: what each island loses, ISLAND, CORE, WARM and COLD resets (R9, R16, R75, R103, R133, R188, R252,
R282, R283, R285, R331, R376, R417, R437, R551). -/

namespace Sys2Proof.Machine

/-! ### Wipes (R285, R286) -/

/-- The wiped memories of island `n`, as bits of `World.wiping`. -/
def wipesOf (n : Nat) : List Nat :=
  match n with
  | 8 => [11, 12] | 9 => [13] | 12 => [0, 1, 2, 3, 15] | 13 => [4, 5, 6, 7, 16] | 15 => [8, 9, 10] | 16 => [14]
  | _ => []

/-- The island of a wiped memory. -/
def wipeIsl (k : Nat) : Nat := ((List.range 22).find? fun n => (wipesOf n).contains k).getD 0

/-- GL_WIPESTAT as the memories stand. -/
def World.showWipe (w : World) : World :=
  w.sf F.GL_WIPESTAT_WIPING 0 (((idxs 22 fun n => (wipesOf n).any fun k => w.wiping.testBit k).map fun n => 2 ^ n).sum)

def World.startWipe (w : World) (l : List Nat) : World :=
  World.showWipe { w with wiping := l.foldl (fun a k => a ||| 2 ^ k) w.wiping }

/-- First and one past the last word of an addressed memory. -/
def wipeRange (k : Nat) : Nat × Nat :=
  if k < 8 then (0x00100000 + k * 0x20000, 0x00100000 + (k + 1) * 0x20000)
  else if k = 8 then (0x00200000, 0x00300000)
  else if k = 9 then (0x02000000, 0x02C00000)
  else (0, 0)

/-- The memories `l` read as 0. -/
def wipeMem (m : Mem) (l : List Nat) : Mem :=
  l.foldl (fun m k => m.erase (2 * (wipeRange k).1) (2 * (wipeRange k).2)) m

/-! ### Cores (R331, R351) -/

/-- Physical cores of a logical core. -/
def World.physCores (w : World) (c : Nat) : List Nat := if w.split then [c] else [2 * c, 2 * c + 1]

/-- A core returns to CORE reset: its sources in service complete, its state is 0. -/
def World.clearCore (w : World) (c : Nat) : World :=
  let w := (w.core c).svc.foldl (fun w s => w.leaveService c s) w
  { w.setCore c {} with pwr := { w.pwr with stalls := w.pwr.stalls.filter fun e => e.1 != c } }

/-- A CORE reset of logical core `c`, its TCM wiped. -/
def World.coreReset (w : World) (m : Mem) (c : Nat) : Mem × World :=
  (wipeMem m (w.physCores c), (w.clearCore c).startWipe (w.physCores c))

def execCoreReset (c : Nat) (s : State) : Res :=
  onM s fun m w => if c < w.nCores ∧ w.on (w.coreIsl c) then w.coreReset m c else (m, w)

/-! ### What an island loses -/

/-- Rails and phases of an island of a pair: `b` is the second one. -/
def World.railsOf (w : World) (b : Bool) : List Nat := idxs w.nRails fun r => decide (12 ≤ r) == b
def World.phasesOf (w : World) (b : Bool) : List Nat := idxs w.nPhases fun p => decide (64 ≤ p) == b

/-- The coefficient set of rail `r`: that of the first valid entry that names it, else set 0. -/
def World.bcSet (w : World) (r : Nat) : Nat :=
  match (List.range 8).find? fun e => bitOf (w.bcEntry e 0) 0 && bitsOf (w.bcEntry e 0) 1 5 == r with
  | some e => bitsOf (w.bcEntry e 0) 13 2
  | none => 0

/-- LE_COEF slots 0 to 9 take a Base Camp set, shadow and in force. -/
def World.loadSet (w : World) (r set : Nat) : World :=
  (List.range 10).foldl (fun w k =>
    (w.sf F.LE_COEF_VALUE (32 * r + k) (w.otpWord (2 + 10 * set + k))).adopt F.LE_COEF_VALUE (32 * r + k)) w

/-- Rail progress that ALW keeps through a reset of the rail's engine (R188). -/
def Prt.kept (p : Prt) : Prt :=
  { fstamp := p.fstamp, fresp := p.fresp, fseqNo := p.fseqNo, offSince := p.offSince, hicWait := p.hicWait, fromBase := p.fromBase
    enFallDue := p.enFallDue, stopDue := p.stopDue, enAt := p.enAt, disAt := p.disAt, holdAt := p.holdAt, runAt := p.runAt
    fmsg := p.fmsg, blyTook := p.blyTook, trTb := p.trTb, trSrc := p.trSrc, telE0 := p.telE0 }

/-- Every forecast of rail `r` that is in flight ends with RESTART or the outcome decided for it (R133). -/
def World.restartForecasts (w : World) (r : Nat) : World := (w.endForecasts r .restart).stopRollback r

/-- LEA or LEB: RESTART faults first, then the registers, engines and forecasts; what ALW holds stays (R103, R133, R188). -/
def World.loseLe (w : World) (b : Bool) : World :=
  let l := w.railsOf b
  let w := l.foldl (fun w r => if w.enabled r then w.raise r 15 none else w) w
  let w := l.foldl World.finalRead w
  let w := w.resetIslRegs (if b then 9 else 8)
  let fl := if b then l else List.range w.nRails
  let w := fl.foldl World.restartForecasts w
  let w := l.foldl (fun w r =>
    let w := (w.setEngine r {}).setRail r (w.rail r).kept
    let w := (w.sf F.RSC_DACNOW_CODE r 0).sf F.PW_RSTAT_NREQ r 0
    let w := w.setIntent r { outq := (w.intent r).outq, relSeq := (w.intent r).relSeq }
    w.loadSet r (w.bcSet r)) w
  if b then w else { w with fcs := [] }

/-- The account of a rail whose windows start again (R262). -/
def Led.newWindow (l : Led) : Led := { l with used := 0, elapsed := 0, hist := [], told := false }

/-- A staging ends with RESET_ABORTED (R473). -/
def World.endStagings (w : World) : World :=
  let l := w.fwq
  let w := World.sf { w with fwq := [] } F.FW_STAT_STAGING 0 0
  l.foldl (fun w (j : FwJob) => match j.cmd with
    | some c => w.complete c stAborted 0x80 0
    | none => w) w

/-- The memories and the state beside registers that island `n` loses; its registers go back by `resetIslRegs`. -/
def World.loseUnit (w : World) (m : Mem) (n : Nat) : Mem × World :=
  match n with
  | 1 => (m, w.linkReset m true)
  | 2 => (m, { w.haltRings F.RING_ERR_RESTART with rrNext := 0 })
  | 3 =>
    let w := w.when (w.role == roActive) World.unpair
    (m, { w with bly := {} })
  | 4 | 5 =>
    let w := (w.railsOf (n == 5)).foldl (fun w r => w.setConverter r {}) w
    (m, { w with cmp := mkeep (fun k => k < 128 || decide (24 ≤ k - 128) != (n == 5)) w.cmp })
  | 6 | 7 =>
    let w := (w.phasesOf (n == 7)).foldl (fun w p => w.setPhase p { w.phase p with cur := 0, az := none }) w
    (m, { w with cmp := mkeep (fun k => 128 ≤ k || decide (64 ≤ k) != (n == 7)) w.cmp })
  | 8 | 9 => (m, w.loseLe (n == 9))
  | 10 | 11 =>
    let w := (w.phasesOf (n == 11)).foldl (fun w p => w.setPhase p { cur := (w.phase p).cur }) w
    (m, { w with bindOk := if w.bindOk.testBit (n - 10) then w.bindOk - 2 ^ (n - 10) else w.bindOk })
  | 12 | 13 =>
    let l := (List.range w.nCores).filter fun c => w.coreIsl c == n
    let w := l.foldl World.clearCore w
    (wipeMem m (wipesOf n), if n = 12 then { w with irqEdge := [], efSeen := [], lsTimes := [] } else w)
  | 14 =>
    let w := w.endStagings
    (m, { w with fwp := none, side := { w.side with tx := none, rx := none } })
  | 15 => (wipeMem m [8, 9], World.trStop { w.dmaStop with dmaLast := [] })
  | 16 => (m, { w with crn := { w.crn with queue := [], drops := 0 } })
  | 17 => (m, { w.pdCoast with tm := [], srv := {}, boosts := [], hkcAt := 0 })
  | 18 =>
    let w := w.when w.side.tx.isSome fun w => (w.sf F.FW_RSEND_BUSY 0 0).sf F.FW_RSEND_RESULT 0 2
    let w := w.sf F.FW_STAT_RXBUSY 0 0
    (m, { w with pmb := {}, side := {}, fwq := w.fwq.filter fun (j : FwJob) => j.cmd.isSome })
  | 19 =>
    (m, { w with
      led := mmapv {} Led.newWindow w.led
      pwr := { w.pwr with inMs := [], selfMs := [], ms := 0, elapsed := 0, told := false } })
  | 20 => (m, { w with sec := { w.sec with fresh := false } })
  | _ => (m, w)

/-- BL_CFG.EN and the other fields whose reset value is a strap or an OTP word (R378, R464, R276). -/
def World.strapRegs (w : World) (n : Nat) : World :=
  match n with
  | 1 => World.linkCaps { w with pcie := { w.pcie with subsys := w.otpWord 74 } }
  | 3 => w.sf F.BL_CFG_EN 0 (b2n w.pins.blpair)
  | 18 => (w.sf F.SI_PMCFG_ADDR 0 (w.otpWord 75)).sf F.SI_ROPECFG_ROOT 0 (w.otpWord 76)
  | 19 => w.sf F.PM_PADCFG_LX0960 0 (w.otpWord 78)
  | _ => w

/-- Island `n` loses its state and its registers; LEA's and LEB's have gone before their forecasts' outcomes set LASTOUT (R133). -/
def World.loseIsland (w : World) (m : Mem) (n : Nat) : Mem × World :=
  let (m, w) := w.loseUnit m n
  (m, if n = 8 ∨ n = 9 then w else w.resetIslRegs n)

/-- An ISLAND reset of island `n`: what it loses, its registers, its wipes. -/
def World.islandReset (w : World) (m : Mem) (n : Nat) : Mem × World :=
  let (m, w) := w.loseIsland m n
  (m, ((w.strapRegs n).startWipe (wipesOf n)).showRings)

/-- A regulating rail, an active input budget or CXB needs island `n` (R16, R75). -/
def World.islNeeded (w : World) (n : Nat) : Bool :=
  let rails := idxs w.nRails w.enabled
  (rails.any fun r => n == 0 || n == 19 || n == snIsl r || n == leIsl r || (w.bound r).any fun p => n == pcIsl p || n == pwIsl p)
  || (n == 17 && (List.range 4).any fun k => w.fb F.EL_INCFG_EN k)
  || (n == 12 && w.on 13)

/-- A request by GL_ISLRST (`req`) is refused while the island is needed; the recovery paths of other rules are not. -/
def World.islandRequest (w : World) (m : Mem) (n : Nat) (req : Bool) : Mem × World :=
  if n = 0 ∨ w.absent n ∨ w.on n = false then (m, w)
  else if req ∧ w.islNeeded n then (m, w.sf F.PM_ERR_DEPENDENT 0 1)
  else w.islandReset m n

def execIslandReset (n : Nat) (req : Bool) (s : State) : Res := onM s fun m w => w.islandRequest m n req

/-! ### WARM reset (R252, R283, R376) -/

/-- Commands that have not completed do so with RESET_ABORTED: those that took effect first, with XSTAT 0x80 (R252). -/
def World.abortAll (w : World) : World :=
  let w := w.endStagings
  let w := World.completeWaits { w with crnRd := [] } (fun _ => true) stAborted 0x80
  let l := w.cmd.queue
  let w := { w with cmd := { w.cmd with queue := [] } }
  let w := l.foldl (fun w c => w.settleVoid c stAborted 0 0 .restart) w
  (List.range 16).foldl (fun w n =>
    let l := (w.ring n).localq
    let w := w.setRing n { w.ring n with localq := [] }
    l.foldl (fun w c => w.complete c stAborted 0 0) w) w

/-- Steps 1 to 3 of R283. -/
def World.warmBegin (w : World) (cause : Nat) : World :=
  let w := { w with noFetch := true, sentArmed := false, pwr := { w.pwr with warm := some cause, warmAt := w.clk.tk } }
  let w := w.unpair
  let w := (List.range 16).foldl (fun w n => w.setRing n { w.ring n with reads := [] }) w
  let w := w.abortAll
  let w := (List.range w.nRails).foldl World.restartForecasts w
  let w := w.pdCoast.dmaStop
  if w.role = roStandby then w
  else (idxs w.nRails w.enabled).foldl (fun w r => (w.disableStep r).setRstate r rsStopping) w

/-- A WARM reset is asked for: an ACTIVE part with a synchronised partner hands over first. -/
def World.warmReset (w : World) (cause : Nat) : World :=
  if w.pwr.warm.isSome then w
  else if w.role = roActive ∧ w.f F.BL_STAT_PARTNER 0 = 1 ∧ w.bly.pSync then
    let w := w.handover
    { w with bly := { w.bly with warmAfter := some cause } }
  else w.warmBegin cause

def execWarmReset (cause t : Nat) (s : State) : Res :=
  onW s fun w => let w := w.upTo t; if 4 ≤ cause ∧ cause < 8 then w.warmReset cause else w

/-- GL_BOOTOPT as OTP and the straps give it (R293, R297). -/
def World.takeOptions (w : World) : World :=
  let o := w.otpWord 77
  let lc := w.f F.LC_STATE_STATE 0
  let use := bitOf o 3 && (lc == 1 || lc == 2 || lc == 4)
  let w := w.sf F.GL_BOOTOPT_SPLIT 0 (b2n (if use then w.pwr.straps.testBit 1 else bitOf o 0))
  let w := (w.sf F.GL_BOOTOPT_BCEN 0 (b2n (bitOf o 1))).sf F.GL_BOOTOPT_STRAPEN 0 (b2n (bitOf o 3))
  w.sf F.GL_BOOTOPT_HALT 0 (b2n (if use then w.pwr.straps.testBit 0 else bitOf o 2))

/-- Islands of the start order (R281). -/
def startOrder : List Nat := [20, 17, 4, 5, 6, 7, 8, 9, 10, 11, 19, 16, 15, 14, 12, 13, 2, 1, 3, 18, 21]

/-- The islands that are off and present are to start from T1 on, which comes 20 µs from now, with PLL lock (R283, R534). -/
def World.startAll (w : World) : World :=
  World.start { w with pwr := { w.pwr with toStart := ((startOrder.filter fun n => !w.absent n && !w.on n).map fun n => 2 ^ n).sum } } .t1

/-- `ns` have passed since T1. -/
def World.afterT1 (w : World) (ns : Nat) : Bool := w.past .t1 (20000 + ns)

/-- What every island but ALW loses when all of them are reset or lose power; ALW keeps its own (R188, R283, R284). -/
def World.loseAll (w : World) (m : Mem) (p : Fld → Nat → Bool) : Mem × World :=
  let w := (List.range w.nRails).foldl World.finalRead w
  let w := w.trStop.dmaStop
  let w := (List.range w.nRails).foldl (fun w r =>
    let lat := w.faulted r
    let w := w.setRstate r (if lat then rsLatched else rsOff)
    let w := (w.sf F.PROT_RFLT_HICCUP r 0).sf F.PROT_RFLT_LATCHED r (b2n lat)
    let w := (w.setEngine r {}).setRail r { (w.rail r).kept with hicWait := false, enFallDue := false, stopDue := false }
    (w.setIntent r { outq := (w.intent r).outq, relSeq := (w.intent r).relSeq }).setConverter r {}) w
  let rings := (List.range 16).foldl (fun a n =>
    let g := w.ring n
    mset {} a n ({ run := g.run, stale := decide (w.rgState n ≠ rgOff) || g.stale, slots := g.slots } : Ring)) []
  let w := (List.range 8).foldl World.clearCore w
  let m := wipeMem m [0, 1, 2, 3, 4, 5, 6, 7, 8, 9]
  let w := (w.resetRegs p).resetPcie
  (m, { w with
    islOn := 1, irqEdge := [], efSeen := [], ph := [], bindOk := 0, bindPair := false, fcs := [], rings := rings, rrNext := 0, dma := [], crnRd := [], dmaLast := [], cmp := [], hkcAt := 0, trc := [], tm := [], srv := {}
    pd := [], boosts := [], pmb := {}, budgets := [], lsTimes := [], fwq := [], fwp := none, side := {}, bly := {}, telNo := 0
    wiping := 0, noFetch := false, sec := { w.sec with fresh := false }
    led := mmapv {} Led.newWindow w.led })

/-- Step 4 of R283: every island but ALW is reset, and start-up resumes at T1. -/
def World.warmIslands (w : World) (m : Mem) (cause straps : Nat) : Mem × World :=
  let (m, w) := w.loseAll m fun B _ => B.cls == .island || B.cls == .warm
  let w := { w with crn := { w.crn with queue := [] }
                    pwr := { straps := straps, phase := 2, cold := false, inFrac := w.pwr.inFrac } }
  let w := [F.GL_RSTCAUSE_POR, F.GL_RSTCAUSE_PIN, F.GL_RSTCAUSE_PLOSS, F.GL_RSTCAUSE_OFFEXIT, F.GL_RSTCAUSE_FW,
    F.GL_RSTCAUSE_HOST, F.GL_RSTCAUSE_DBG, F.GL_RSTCAUSE_LC].zipIdx.foldl (fun w e => w.sf e.1 0 (b2n (e.2 == cause))) w
  let w := (List.range 22).foldl World.strapRegs w.takeOptions
  (m, ((w.sf F.GL_BOOTSTAT_STAGE 0 1).startAll).showRings)

def execWarmResetIslands (straps t : Nat) (s : State) : Res :=
  onM s fun m w =>
    let w := w.upTo t
    match w.pwr.warm with
    | none => (m, w)
    | some cause =>
      if (List.range w.nRails).all (fun r => !w.railEn r) ∨ w.pwr.warmAt + 128 * 100000 ≤ w.clk.tk then
        w.warmIslands m cause (straps % 4)
      else (m, w)

/-! ### COLD reset (R282, R285, R296) -/

/-- What a COLD reset leaves: OTP, MRAM, key store, flash control word, balls; everything else starts afresh. -/
def World.coldReset (w : World) (pin : Bool) : World :=
  let w' : World :=
    { lx1264 := w.lx1264, pins := { w.pins with hack := [], hintAt := [], hintSeen := [] }, out := w.out, free := w.free
      crn := { w.crn with queue := [], drops := 0 }, otp := w.otp, otpWr := w.otpWr, sec := { w.sec with fresh := false }
      jtag := w.jtag
      regs := w.regs.filter fun e => match keyField e.1 with
        | some (_, B) => B.cls == .never
        | none => false }
  let w' := [F.GL_RSTCAUSE_POR, F.GL_RSTCAUSE_PIN, F.GL_RSTCAUSE_PLOSS, F.GL_RSTCAUSE_OFFEXIT, F.GL_RSTCAUSE_FW,
    F.GL_RSTCAUSE_HOST, F.GL_RSTCAUSE_DBG, F.GL_RSTCAUSE_LC].zipIdx.foldl
      (fun w e => w.sf e.1 0 (b2n (e.2 == if pin then 1 else 0))) w'
  (List.range 22).foldl World.strapRegs w'

def execColdReset (pin : Bool) (s : State) : Res :=
  onM s fun m w => (wipeMem m [0, 1, 2, 3, 4, 5, 6, 7, 8, 9], w.coldReset pin)

/-! ### Epochs and handover, which may end in a reset (R369, R370, R374, R376) -/

/-- The part sends a heartbeat at this epoch (R369). -/
def World.beats (w : World) : Bool :=
  w.on 3 && w.fb F.BL_STAT_LINKUP 0 &&
    (w.pwr.sent != 0 ||
      (if w.role = roStandby then w.on 4 && w.on 8 && w.on 10 else w.pwr.warm.isNone && (w.role == roSolo || w.fb F.BL_STAT_OWN 0)))

/-- The class of the image that runs (R466). -/
def World.imageClass (w : World) : Nat := w.f F.FW_CHK_CLASS (w.f F.FW_STAT_ACTIVE 0)

def World.sendHeartbeat (w : World) : World :=
  let sig := w.cfgSig
  (w.sf F.BL_CFGSIG_SIG 0 sig).emit (.belay (.heartbeat w.role (w.fb F.BL_STAT_OWN 0) (w.fb F.BL_STAT_SYNC 0) (w.f F.BL_STAT_UPD 0)
    (w.f F.LE_UCODE_VER_ROMVER 0) w.imageClass sig w.tb))

/-- The old part of a planned handover lets go at epoch boundary `h` (R374). -/
def World.handOff (w : World) (h : Nat) : World :=
  let w := (w.send (.handover h)).sf F.BL_STAT_OWN 0 0
  let w := (w.tkoMark 1 h).setRole roStandby
  let w := w.sf F.BL_STAT_SYNC 0 0
  let cause := w.bly.warmAfter
  let w := { w with noFetch := false, bly := { w.bly with handReq := false, warmAfter := none, mirror := none, msgs := [], asm := none } }
  let w := (List.range w.nRails).foldl (fun w r => w.setRail r { w.rail r with engOn := false, running := false }) w
  let w := w.showRings.showSync
  match cause with
  | some c => w.warmBegin c
  | none => w

/-- An epoch boundary: heartbeat, snapshot, and the end of a handover. -/
def World.epoch (w : World) : World :=
  let e := w.tb / 1000
  let w := w.when w.beats World.sendHeartbeat
  if w.role = roActive ∧ w.f F.BL_STAT_PARTNER 0 = 1 ∧ w.fb F.BL_STAT_LINKUP 0 then
    let w := (w.emit (.belay (.snapshot (w.capture e)))).sf F.BL_EPOCH_EPOCH 0 e
    if w.bly.handReq ∧ w.bly.sent = [] ∧ w.cmd.unacked = [] ∧ w.cmd.queue = [] then w.handOff (e * 1000) else w
  else w

def execEpochBoundary (t : Nat) (s : State) : Res :=
  onW s fun w => let w := w.upTo t; if w.on 3 ∧ w.pins.blpair ∧ w.fb F.BL_CFG_EN 0 then w.epoch else w

/-! ### Lock-step (R359, R361) -/

/-- A miscompare of pair `j`: cause, the main copy's PC and the address that differed. -/
def World.miscompare (w : World) (m : Mem) (j cause pc addr : Nat) : Mem × World :=
  let w := ((w.sf F.LS_STAT_CAUSE j cause).inc F.LS_STAT_COUNT j).sf F.LS_MCPC_PC j pc
  let w := (w.sf F.LS_MCADDR_ADDR j addr).irq (0x0B0 + j)
  let w := w.setCore j { w.core j with sb := [], last := pc }
  let w := w.cairn 0x30 (leBytes 4 (w.regVal R.LS_STAT j) ++ leBytes 4 pc ++ leBytes 4 addr)
  let win := w.f F.LS_CFG_LWIN j * 1000000
  let w := { w with lsTimes := (w.lsTimes.filter fun (e : Nat × Nat) => decide (w.tb < e.2 + win)) ++ [(j, w.tb)] }
  let lim := w.f F.LS_CFG_LIMIT j
  let hold := decide (lim ≠ 0) && decide (lim ≤ (w.lsTimes.filter fun (e : Nat × Nat) => e.1 == j).length)
  let w := w.when hold fun w =>
    let w := w.sf F.LS_STAT_HELD j 1
    if w.fb F.LS_CFG_BELAY j ∧ w.role = roActive ∧ w.bly.pSync then w.handover else w
  if hold ∨ w.f F.LS_CFG_ACT j ≠ 1 then
    let (m, w) := w.coreReset m j
    (m, w.setCore j { w.core j with restart := !hold })
  else (m, w.setCore j { w.core j with st := 3 })

def execLsMiscompare (j cause pc addr : Nat) (s : State) : Res :=
  onM s fun m w =>
    if w.split ∨ 4 ≤ j ∨ w.on (w.coreIsl j) = false ∨ (w.core j).st = 0 ∨ cause = 0 ∨ 6 < cause then (m, w)
    else w.miscompare m j cause pc addr

end Sys2Proof.Machine
end

