-- ==== Sys2Proof/Machine/Power.lean ====
section
/-! DEFINITION. The power manager: Trim, Hold, Sentinel, Off, pads, island requests, wake and retention (R19, R46, R75,
R269 to R277). -/

namespace Sys2Proof.Machine

/-! ### Trim (R19, R269) -/

/-- Some core waits for a line of a memory that `p` picks (R314). -/
def World.fillsOf (w : World) (p : Nat → Bool) : Bool := (List.range w.nCores).any fun c => (w.core c).fills.any p

/-- Island `n` has a handshake outstanding or works: reads of the host in flight, a rail that regulates, cores that run or wait for
lines or stores, a staging or port operation, DMA or trace, Cairn records, conversions or counting timers, a rope transfer
(R19, R269). -/
def World.islBusy (w : World) (n : Nat) : Bool :=
  let reads := (List.range 16).any fun r => !(w.ring r).reads.isEmpty
  let jobs := w.dma.any fun e => e.2.any fun j => j.started
  let core (c : Nat) : Bool := let k := w.core c; w.coreIsl c == n && (k.st == 1 || !k.fills.isEmpty || !k.sb.isEmpty)
  match n with
  | 1 => reads || jobs || w.headReady
  | 2 => reads
  | 12 | 13 => (List.range w.nCores).any core
  | 14 => !w.fwq.isEmpty || w.fwp.isSome || w.fillsOf isFlash
  | 15 => jobs || !w.crnRd.isEmpty || (List.range 4).any w.trRuns || w.fillsOf isSram
  | 16 => !w.crn.queue.isEmpty
  | 17 => w.islNeeded 17 || w.fb F.HKC_STAT_BUSY 0 || (List.range 32).any fun t => w.fb F.TM_CTL_RUN t
  | 18 => w.side.tx.isSome || w.side.rx.isSome
  | _ => w.islNeeded n || w.pwr.stalls.any fun e => e.2.1 == n

/-- Island `n`'s idle timer expires: with no handshake outstanding it is gated, else the timer starts again. -/
def World.trimGate (w : World) (n : Nat) : World :=
  if n = 0 ∨ w.on n = false ∨ w.fb F.PM_CFG_TRIMEN 0 = false ∨ w.trimIdle n = 0 ∨ w.pwr.sent ≠ 0 ∨ !w.past (.trim n) (w.trimIdle n) then w
  else if w.islBusy n then w.start (.trim n)
  else World.showPm { w with pwr := { w.pwr with gated := w.pwr.gated ||| 2 ^ n } }

def execTrimGate (n : Nat) (s : State) : Res := onW s fun w => if n < 22 then w.trimGate n else w
def execTrimUngate (n : Nat) (s : State) : Res := onW s fun w => if n < 22 then w.ungate n else w

/-! ### Hold (R270, R271) -/

/-- A core that runs executes its wait instruction with no interrupt pending for it. -/
def World.coreIdle (w : World) (c : Nat) : Bool :=
  let st := (w.core c).st
  !(st == 1) && !(st == 2 && w.irqFor c)

def World.coresIdle (w : World) : Bool := (List.range w.nCores).all w.coreIdle

def World.holdEntry (w : World) : World :=
  if w.fb F.PM_CFG_AUTOHOLD 0 = false ∨ w.pwr.hold ≠ 0 ∨ w.pwr.sent ≠ 0 ∨ w.coresIdle = false
      ∨ (List.range w.nCores).all (fun c => (w.core c).st != 2)
      ∨ (List.range w.nCores).any (fun c => (w.core c).st == 2 && !w.past (.idle c) (1000 * w.f F.PM_HOLD_IDLE_IDLE 0)) then w
  else
    let w := { w with pwr := { w.pwr with hold := if (w.f F.EL_SSTAT_ACT 0).testBit 3 then 2 else 1 } }
    (w.when (w.on 1 && w.pcie.aspm) fun w => w.sf F.HI_STAT_L1 0 1).showPm

def execHoldEntry (t : Nat) (s : State) : Res := onW s fun w => (w.upTo t).holdEntry

/-- PM_WAKE_LAST takes the source of a wake. -/
def World.wakeLast (w : World) (code : Nat) (sent : Bool) : World :=
  ((w.sf F.PM_WAKE_LAST_CAUSE 0 code).sf F.PM_WAKE_LAST_ORIG 0 code).sf F.PM_WAKE_LAST_SENT 0 (b2n sent)

def World.endHold (w : World) : World :=
  let w := { w with pwr := { w.pwr with hold := 0 } }
  let w := (List.range w.nCores).foldl (fun w c => w.start (.idle c)) w
  ((w.sf F.HI_STAT_L1 0 0).pulse 0x1BC).showPm

/-- Channel `c` is driven from ALW: its source is a LUT cell, a flip-flop, a filter, a software event, a beat of the Time Base or one of
ALW's own events (R385). -/
def World.alwChannel (w : World) (c : Nat) : Bool := decide (0x148 ≤ w.f F.EF_CH_SRC c) && decide (w.f F.EF_CH_SRC c ≤ 0x1BD)

/-- Wake sources that are enabled: codes 0x1 to 0x8, code 0x3 for its channel only, which ALW must drive when the part is in Sentinel, and
code 0x5 once the Time Base has reached PM_WAKE_T (R273, R383). -/
def World.wakeOk (w : World) (code ch : Nat) : Bool :=
  let away := decide (2 ≤ w.pwr.sent)
  let en := if away then w.pwr.wakeEn else w.f F.PM_WAKE_EN_SRC 0
  let sel := if away then w.pwr.wakeCh else w.f F.PM_WAKE_EN_EFCH 0
  let at5 := if away then w.pwr.wakeT else w.f F.PM_WAKE_T_LO_T_LO 0 + 2 ^ 32 * w.f F.PM_WAKE_T_HI_T_HI 0
  decide (1 ≤ code) && decide (code ≤ 8) && en.testBit (code - 1) && (code != 3 || ch == sel && (!away || w.alwChannel ch))
    && (code != 5 || decide (at5 ≤ w.tb))

/-- Hold ends by an eligible interrupt (code 0x8), an enabled wake source, or PROT_TRIP or PROT_FAULT (code 0). -/
def World.holdExit (w : World) (code ch : Nat) : World :=
  if w.pwr.hold = 0 then w
  else if code = 0 then w.endHold
  else if code = 8 ∧ (List.range w.nCores).any (fun c => w.icOrder.any fun s => w.eligible c s) then (w.wakeLast 8 false).endHold
  else if w.wakeOk code ch then (w.wakeLast code false).endHold
  else w

def execHoldExit (code ch t : Nat) (s : State) : Res := onW s fun w => (w.upTo t).holdExit code ch

/-! ### Pads (R275, R276) -/

/-- The output pads of island `n` are latched, or float with LX0960. -/
def World.holdPads (w : World) (n : Nat) : World :=
  if w.fb F.PM_PADCFG_LX0960 0 ∨ n = 0 then w else w.orBit F.PM_PADHELD_HELD 0 n

/-- RAIL_EN rises on rails whose start waited for released pads. -/
def World.padsFreed (w : World) : World :=
  (idxs w.nRails fun r => (w.rstate r == rsStarting || w.rstate r == rsBasecamp) && w.padsFree r).foldl
    (fun w r => w.sf F.PW_RSTAT_RAILEN r 1) w

def World.padRel (w : World) (mask : Nat) : World :=
  if w.fb F.PM_PADCFG_LX0960 0 then w
  else
    let l := idxs 22 fun n => mask.testBit n
    (l.foldl (fun w n => w.clrBit F.PM_PADHELD_HELD 0 n) w).padsFreed

def execPmPadrelWrite (mask : Nat) (s : State) : Res := onW s fun w => if w.on 19 then w.padRel mask else w

/-! ### Powering an island down (R46, R272, R274, R277) -/

/-- The estimates of island SNA or SNB are copied into ALW (R46). -/
def World.keepRsc (w : World) : World :=
  (List.range w.nRails).foldl (fun w r =>
    let v := w.converter r
    if w.on (snIsl r) then w.setConverter r { v with kept := some (v.gain, v.ofs, v.skew) } else w) w

/-- An entry that has ended early leaves no estimates in ALW (R46, R74). -/
def World.dropKept (w : World) : World := { w with conv := mmapv {} (fun (v : Conv) => { v with kept := none }) w.conv }

/-- Fields that bank REGS holds. -/
def heldField (B : Fld) : Bool := B.acc == .rw || B.acc == .lk

/-- Memories that stay in Sentinel: bank 1 + k holds TCM k, bank 9 the shared SRAM. -/
def heldMem (ret k : Nat) : Bool := (k < 8 && ret.testBit (k + 1)) || (k == 8 && ret.testBit 9)

/-- Island `n` loses its power; `ret` are the banks held.  Its registers go as an ISLAND reset leaves them, but for those
that REGS or ALW holds.  The rings' states are among what an ISLAND reset of HRE keeps. -/
def World.powerDown (w : World) (m : Mem) (n ret : Nat) : Mem × World :=
  let regs := ret.testBit 10
  let keep (B : Fld) : Bool := (regs && heldField B) || B.id == F.PM_PADCFG_LX0960.id || B.id == F.PM_PADCFG_LOCK.id
  let save := w.regs.filter fun e => match keyField e.1 with
    | some (g, B) => g.islandOf B.sub (keyInst e.1) == n && keep B
    | none => false
  let live := w.live.filter fun e => match keyField e.1 with
    | some (g, B) => g.islandOf B.sub (keyInst e.1) == n && keep B
    | none => false
  let held := (wipesOf n).filter (heldMem ret)
  let kept := held.flatMap fun k => m.filter fun c => decide (2 * (wipeRange k).1 ≤ c.1) && decide (c.1 < 2 * (wipeRange k).2)
  let led := w.led
  let p := w.pwr
  let w0 := w
  let (m, w) := if n = 2 then (m, w.resetIslRegs 2) else w.loseIsland m n
  let w := if (n = 4 ∨ n = 5) ∧ ret.testBit 0 then
      (w.railsOf (n == 5)).foldl (fun w r => w.setConverter r { kept := (w0.converter r).kept }) w
    else w
  let w := if n = 19 ∧ ret.testBit 11 then { w with led := led, pwr := { w.pwr with elapsed := p.elapsed, told := p.told } } else w
  let putBack (l : List (Nat × Nat)) (f : World → Fld → Nat → Nat → World) (w : World) : World :=
    l.foldl (fun w e => match keyField e.1 with
      | some (_, B) => f w B (keyInst e.1) e.2
      | none => w) w
  let w := putBack live World.slf (putBack save World.sf w)
  let m := kept.foldl (fun (m : Mem) c => m.set c.1 c.2) m
  (m, (w.holdPads n).setOn n false)

/-- The registers of HKP that a stop by request leaves: results and the count of passes (R75). -/
def hkpKept (B : Fld) : Bool :=
  [F.HKC_RES_VALUE, F.HKC_RES_NEW, F.HKC_RES_OVR, F.HKC_RES_PASS, F.HKC_STAT_PASSES].any fun A => A.id == B.id

/-- The fields that `p` picks take the values they have in `v`. -/
def World.copyFields (w v : World) (p : Fld → Bool) : World :=
  (v.regs.filter fun e => (keyField e.1).any fun x => p x.2).foldl (fun w e => match keyField e.1 with
    | some (_, B) => w.sf B (keyInst e.1) e.2
    | none => w) w

/-- Island `n` is stopped by request: refused while needed, or for ALW and while its cores run (R16, R75, R277). -/
def World.islStop (w : World) (m : Mem) (n : Nat) : Mem × World :=
  let need := w.islNeeded n
  let bad := n == 0 || ((n == 12 || n == 13) && (List.range w.nCores).any (fun c => w.coreIsl c == n && (w.core c).st != 0))
  if need || bad then
    (m, (w.when need fun w => w.sf F.PM_ERR_DEPENDENT 0 1).when bad fun w => w.sf F.PM_ERR_BADVAL 0 1)
  else if w.on n = false then (m, w)
  else
    let (m, v) := w.powerDown m n 0
    (m, (v.when (n == 17) fun v => v.copyFields w hkpKept).showRings)

def execIslreqStop (n : Nat) (s : State) : Res :=
  onM s fun m w => if n < 22 ∧ w.on 19 ∧ w.absent n = false then w.islStop m n else (m, w)

/-- Island `n` is to start; a running one is left alone. -/
def World.islStart (w : World) (n : Nat) : World :=
  if w.on n ∨ w.absent n ∨ w.pwr.toStart.testBit n then w
  else { w with pwr := { w.pwr with toStart := w.pwr.toStart + 2 ^ n } }

def execIslreqStart (n : Nat) (s : State) : Res := onW s fun w => if n < 22 ∧ w.on 19 then w.islStart n else w

/-! ### Sentinel and Off (R271 to R276) -/

/-- Every present rail has been OFF or LATCHED for PM_SENT_IDLE ms (R272). -/
def World.railsQuiet (w : World) : Bool :=
  (List.range w.nRails).all (fun r => w.rstate r == rsOff || w.rstate r == rsLatched) && w.past .quiet (1000000 * w.f F.PM_SENT_IDLE_IDLE 0)

/-- Steps 2 to 4: cores stop, estimates and banks are kept, trace units return to IDLE, pumps coast, SENTINEL_IND rises. -/
def World.sentStop (w : World) : World :=
  let w := w.keepRsc.trStop.pdCoast
  { w with pwr := { w.pwr with
      sent := 2, ind := true, hold := 0, gated := 0, downs := false
      ret := w.f F.PM_RETCFG_BANKS 0 ||| 0x801, wakeEn := w.f F.PM_WAKE_EN_SRC 0, wakeCh := w.f F.PM_WAKE_EN_EFCH 0
      wakeT := w.f F.PM_WAKE_T_LO_T_LO 0 + 2 ^ 32 * w.f F.PM_WAKE_T_HI_T_HI 0
      linkWake := w.fb F.PM_CFG_LINKWAKE 0, blyWake := w.fb F.PM_CFG_BLYWAKE 0 } }.pulse 0x1BD

/-- Step 1: PM_ENTRY to the cores, no more fetching. -/
def World.sentEntry (w : World) : World :=
  if w.pwr.sent ≠ 0 ∨ w.entries ≠ [] ∨ !(w.sentArmed || (w.fb F.PM_CFG_AUTOSENT 0 && w.railsQuiet)) then w
  else
    let w := { w with pwr := { w.pwr with sent := 1, hold := 0 } }
    let w := ((w.irq 0x0A0).showPm).start .entry
    if w.coresIdle then w.sentStop else w

def execSentinelEntry (t : Nat) (s : State) : Res := onW s fun w => let w := w.upTo t; if w.on 19 then w.sentEntry else w

/-- PM_ENTRYTO has passed: the cores stop. -/
def execSentinelEntryTimeout (t : Nat) (s : State) : Res :=
  onW s fun w => let w := w.upTo t; if w.pwr.sent = 1 ∧ w.past .entry (1000 * w.f F.PM_ENTRYTO_TO 0) then w.sentStop else w

/-- The next island that step 5 powers down, in the reverse of the start order. -/
def World.nextDown (w : World) : Option Nat :=
  startOrder.reverse.find? fun n => w.on n && !(n == 1 && w.pwr.linkWake) && !(n == 3 && w.pwr.blyWake)

/-- The part leaves Sentinel: every island that is off starts, after the banks' check (R273, R274). -/
def World.sentWake (w : World) (code : Nat) : World :=
  let w := w.wakeLast code true
  World.startAll { w with pwr := { w.pwr with sent := 4, wakeNext := none, chk := true } }

/-- Step 5 powers down island `n`. -/
def World.sentDown (w : World) (m : Mem) (n : Nat) : Mem × World :=
  let w := if w.pwr.sent = 1 ∧ w.coresIdle then w.sentStop else w
  if w.pwr.sent ≠ 2 ∨ w.nextDown ≠ some n then (m, w)
  else
    let (m, w) := w.powerDown m n w.pwr.ret
    let w := { w with pwr := { w.pwr with downs := true } }
    if w.nextDown.isSome then (m, w)
    else
      let w := { w with sentArmed := false, pwr := { w.pwr with sent := 3 } }
      match w.pwr.wakeNext with
      | some c => (m, w.sentWake c)
      | none => (m, w)

def execIslandPowerDown (n t : Nat) (s : State) : Res := onM s fun m w => (w.upTo t).sentDown m n

/-- A wake source arrives. -/
def World.wake (w : World) (code ch : Nat) : World :=
  if !w.wakeOk code ch then w
  else if w.pwr.off then w
  else if w.pwr.sent = 0 then w.holdExit code ch
  else if w.pwr.sent = 1 ∨ (w.pwr.sent = 2 ∧ w.pwr.downs = false) then
    if code = 2 ∧ w.pwr.sent = 2 then w
    else
      let w := World.dropKept { w with sentArmed := false, pwr := { w.pwr with sent := 0, ind := false } }
      ((w.wakeLast code false).pulse 0x1BC).showPm
  else if code = 2 ∨ code = 8 ∨ (code = 7 ∧ w.pwr.blyWake = false) then w
  else if w.pwr.sent = 2 then { w with pwr := { w.pwr with wakeNext := some code } }
  else if w.pwr.sent = 3 then w.sentWake code
  else w

def execWakeSource (code ch t : Nat) (s : State) : Res := onW s fun w => (w.upTo t).wake code ch

/-- Fields of the LEDGER bank that resets of their island would clear (R274). -/
def ledgerField (B : Fld) : Bool :=
  [F.EL_RLIM_LO_L_LO, F.EL_RLIM_HI_L_HI, F.EL_RWIN_WINDOW, F.EL_RWIN_MODE, F.EL_SLIM_LO_L_LO, F.EL_SLIM_HI_L_HI, F.EL_SWIN_WINDOW,
   F.EL_SWIN_MODE, F.EL_SACC_LO_E_LO, F.EL_SACC_HI_E_HI, F.PM_PADCFG_LX0960, F.PM_PADCFG_LOCK].any fun A => A.id == B.id

/-- Power is gone from every island but ALW: only banks 0 and 11, and what ALW holds, stay (R274, R284). -/
def World.loseSupplies (w : World) (m : Mem) : Mem × World :=
  let kept := (List.range w.nRails).map fun r => (r, (w.converter r).kept)
  let led := w.led
  let (m, w) := w.loseAll m fun B n => (B.cls == .island || B.cls == .warm) && n != 0 && n != 22 && !ledgerField B
  let w := kept.foldl (fun w e => w.setConverter e.1 { kept := e.2 }) w
  (m, { w with led := led })

/-- The board removes the supplies in Sentinel: the part is in Off (R276). -/
def World.offEntry (w : World) (m : Mem) : Mem × World :=
  if w.pwr.sent ≠ 3 ∨ w.pwr.ind = false then (m, w)
  else
    let (m, w) := w.loseSupplies m
    (m, { w with pwr := { w.pwr with off := true, ret := 0x801, toStart := 0 } })

def execOffEntry (t : Nat) (s : State) : Res := onM s fun m w => (w.upTo t).offEntry m

end Sys2Proof.Machine
end

