-- ==== Sys2Proof/Machine/Cairn.lean ====
section
/-! DEFINITION. The Cairn record: slots, numbers, pinning, the control block, firmware records (R484 to R493). -/

namespace Sys2Proof.Machine

/-- One byte through a reflected CRC register of polynomial `poly`: `n` bits are left. -/
def crcBits (poly : Nat) : Nat → Nat → Nat
  | 0, c => c
  | n + 1, c => crcBits poly n (if c % 2 = 1 then c / 2 ^^^ poly else c / 2)

/-- A reflected 32-bit CRC, register and result complemented. -/
def crc32 (poly : Nat) (l : List Nat) : Nat :=
  (l.foldl (fun c b => crcBits poly 8 (c ^^^ b % 256)) 0xFFFFFFFF) ^^^ 0xFFFFFFFF

/-- CRC-32C: polynomial 0x1EDC_6F41, bit-reversed. -/
def crc32c (l : List Nat) : Nat := crc32 0x82F63B78 l

/-- The 256 bytes of a record (R484). -/
def CrnRec.bytes (r : CrnRec) (rnum flags bootn : Nat) : List Nat :=
  let b := leBytes 4 rnum ++ leBytes 2 r.typ ++ [flags, r.lcs] ++ leBytes 8 r.tb ++ leBytes 4 bootn ++ [r.role, 0, 0, 0]
    ++ (r.pay ++ List.replicate 224 0).take 224 ++ [0, 0, 0, 0]
  b ++ leBytes 4 (crc32c b)

/-- Byte address of slot `i`. -/
def slotByte (i : Nat) : Nat := 2 * (0x03000000 + i * 128)

/-- The slot holds a pinned record. -/
def slotPinned (m : Mem) (i : Nat) : Bool :=
  let b := m.getBytes (slotByte i) 7
  fieldAt b 4 2 != 0 && bitOf (fieldAt b 6 1) 0

/-- The first slot from `i` on that is not pinned; `n` slots are passed over at most. -/
def freeSlot (m : Mem) (i : Nat) : Nat → Nat
  | 0 => i
  | n + 1 => if slotPinned m i then freeSlot m ((i + 1) % 8192) n else i

/-- The control block is written, alternately to its two copies (R486). -/
def World.writeCtl (w : World) : World :=
  let c := (w.f F.CRN_RNUM_NEXT 0, w.f F.CRN_WRPTR_SLOT 0, w.f F.CRN_PINLEFT_LEFT 0, w.f F.CRN_BOOTN_BOOTN 0)
  { w with crn := { w.crn with since := 0, ctl := c :: w.crn.ctl.take 1 } }

/-- One record is written into the next slot (R486, R487). -/
def World.putSlot (w : World) (m : Mem) (r : CrnRec) (hold : Bool) : Mem × World :=
  let s := freeSlot m ((w.f F.CRN_WRPTR_SLOT 0 + 1) % 8192) 8191
  let pin := w.f F.CRN_PINLEFT_LEFT 0
  let rn := w.f F.CRN_RNUM_NEXT 0
  let flags := b2n (decide (0 < pin)) + 2 * b2n hold
  let m := m.setBytes (slotByte s) (r.bytes rn flags (w.f F.CRN_BOOTN_BOOTN 0))
  let w := (w.sf F.CRN_RNUM_NEXT 0 (rn + 1)).sf F.CRN_WRPTR_SLOT 0 s
  let w := w.sf F.CRN_PINLEFT_LEFT 0 (pin - 1)
  let w := { w with crn := { w.crn with since := w.crn.since + 1 } }
  let w := w.when (decide (1024 ≤ w.crn.since) || [1, 2, 3].contains r.typ || pin == 1) World.writeCtl
  (m, w.when (w.fb F.CRN_CFG_IEN 0) fun w => w.irq 0x0D0)

/-- The DROP record that a run of drops left behind. -/
def World.dropRec (w : World) : Option CrnRec :=
  if w.crn.drops = 0 then none
  else some { typ := 4, lcs := w.f F.LC_STATE_STATE 0, tb := w.tb, role := w.f F.BL_STAT_ROLE 0,
              pay := leBytes 4 w.crn.drops ++ leBytes 8 w.crn.dropTb }

/-- The next record is written, a DROP record first (R488). -/
def World.crnNext (w : World) (m : Mem) (hold : Bool) : Mem × World :=
  match w.dropRec with
  | some r => World.putSlot { w with crn := { w.crn with drops := 0 } } m r hold
  | none => match w.crn.queue with
    | [] => (m, w)
    | r :: l => World.putSlot { w with crn := { w.crn with queue := l } } m r hold

def execCairnRecordWrite (s : State) : Res :=
  onM s fun m w => if w.on 16 && !w.wiping.testBit 14 then w.crnNext m false else (m, w)

/-- `n` records are written on the hold-up. -/
def World.crnFlush (w : World) (m : Mem) : Nat → Mem × World
  | 0 => (m, w)
  | n + 1 =>
    let (m, w) := w.crnNext m true
    w.crnFlush m n

/-- The Cairn part of a power loss: the buffer and one POWER_LOSS record are written, or left incomplete when the hold-up
does not hold (R489). -/
def World.crnLoss (w : World) (m : Mem) (held : Bool) : Mem × World :=
  if w.on 16 = false then (m, w)
  else if held then
    let n := w.crn.queue.length + b2n (decide (w.crn.drops ≠ 0))
    let t := w.tb
    let (m, w) := w.crnFlush m n
    w.putSlot m { typ := 2, lcs := w.f F.LC_STATE_STATE 0, tb := t, role := w.f F.BL_STAT_ROLE 0,
                  pay := leBytes 8 t ++ leBytes 4 (n + 1) ++ leBytes 4 0 } true
  else (m, { w with crn := { w.crn with queue := [], drops := 0, torn := true } })

/-- CRN_WCTL.GO with the TYPE in CRN_WCTL: a firmware record (R490). -/
def World.crnGo (w : World) : World :=
  let t := w.f F.CRN_WCTL_TYPE 0
  if t < 0x8000 then w.sf F.CRN_ERR_BADTYPE 0 1
  else if 16 ≤ w.crn.queue.length then w.sf F.CRN_ERR_FULL 0 1
  else w.cairn t ((List.range 56).flatMap fun i => leBytes 4 (w.f F.CRN_WBUF_DATA i))

/-- A host write of CRN_WCTL is dropped. -/
def World.writeWctl (w : World) (a : Agent) (v : Nat) : World :=
  match a with
  | .host => w.sf F.CRN_ERR_HOST 0 1
  | .core _ => (w.sf F.CRN_WCTL_TYPE 0 v).when (v.testBit 31) World.crnGo

def execCrnWctlGo (a : Agent) (typ : Nat) (s : State) : Res :=
  onW s fun w => if w.on 16 then w.writeWctl a (typ % 65536 + 2 ^ 31) else w

end Sys2Proof.Machine
end

