-- ==== Sys2Proof/Machine/Operands.lean ====
section
/-! DEFINITION. Operand forms of the Wylar-16 instruction word: its fields, the data, address and pair registers, effective
addresses (R304 to R308). -/

namespace Sys2Proof.Machine

/-! ### Fields of the instruction word (R307, R308) -/

def insOp (i : Nat) : Nat := bitsOf i 22 6
def insD (i : Nat) : Nat := bitsOf i 18 4
def insA (i : Nat) : Nat := bitsOf i 14 4
def insB (i : Nat) : Nat := bitsOf i 10 4
def insFn (i : Nat) : Nat := bitsOf i 0 10
def insN (i : Nat) : Nat := bitsOf i 15 3
def insAm (i : Nat) : Nat := bitsOf i 13 2
def insOfs (i : Nat) : Nat := bitsOf i 0 13
def insPd (i : Nat) : Nat := bitsOf i 19 3
def insNum (i : Nat) : Nat := bitsOf i 0 14

/-- IMM14 sign-extended. -/
def insImm (i : Nat) : Int := sx 14 (bitsOf i 0 14)

/-- The guard's fields. -/
def insGp (i : Nat) : Nat := bitsOf i 28 3
def insGn (i : Nat) : Bool := i.testBit 31

/-! ### Registers (R304) -/

def Core.w (k : Core) (n : Nat) : Nat := mget 0 k.wr n
def Core.setW (k : Core) (n v : Nat) : Core := { k with wr := mset 0 k.wr n (v % 65536) }
def Core.a (k : Core) (n : Nat) : Nat := mget 0 k.ar n
def Core.setA (k : Core) (n v : Nat) : Core := { k with ar := mset 0 k.ar n (v % 2 ^ 32) }

/-- The pair Wn:Wn+1, with Wn holding bits [15:0]. -/
def Core.pair (k : Core) (n : Nat) : Nat := k.w n + 65536 * k.w (n + 1)
def Core.setPair (k : Core) (n v : Nat) : Core := (k.setW n (v % 65536)).setW (n + 1) (v / 65536)

/-- A word or a pair. -/
def Core.get (k : Core) (pair : Bool) (n : Nat) : Nat := if pair then k.pair n else k.w n
def Core.put (k : Core) (pair : Bool) (n v : Nat) : Core := if pair then k.setPair n v else k.setW n v

def opWidth (pair : Bool) : Nat := if pair then 32 else 16

/-- The W registers of an operand. -/
def opRegs (pair : Bool) (n : Nat) : List Nat := if pair then [n, n + 1] else [n]

/-- An odd register named as a pair, and a field that names A8 to A15 (R305). -/
def oddPair (n : Nat) : Bool := n % 2 == 1
def highA (n : Nat) : Bool := decide (8 ≤ n)

/-! ### Effective addresses (R308) -/

/-- OFS13 as a displacement.  PRESUMED: it is signed, as OFS22 is. -/
def insDisp (i : Nat) : Int := sx 13 (insOfs i)

/-- The address of a MEM instruction, and An's new value. -/
def Core.ea (k : Core) (i : Nat) : Nat × Option Nat :=
  let an : Int := k.a (insN i)
  let sum := unI 32 (an + insDisp i)
  match insAm i with
  | 0 => (sum, none)
  | 1 => (unI 32 an, some sum)
  | 2 => (sum, some sum)
  | _ => (unI 32 (an + sx 16 (k.w (insOfs i % 16))), none)

/-- A MEM instruction whose reserved bits are not 0. -/
def memBad (i : Nat) : Bool := insAm i == 3 && decide (16 ≤ insOfs i)

/-- W registers that a MEM address names. -/
def memRegs (i : Nat) : List Nat := if insAm i = 3 then [insOfs i % 16] else []

/-- An takes its new value. -/
def Core.advA (k : Core) (i : Nat) (x : Option Nat) : Core :=
  match x with
  | some v => k.setA (insN i) v
  | none => k

end Sys2Proof.Machine
end

