-- ==== Sys2Proof/Machine/Flags.lean ====
section
/-! DEFINITION. Predicates, guards, conditions and the results of the arithmetic of the Wylar-16 (R304, R307, R309, R311,
R321). -/

namespace Sys2Proof.Machine

/-! ### Predicates and the guard (R304, R307) -/

/-- P[n]; P0 reads 1. -/
def Core.p (k : Core) (n : Nat) : Bool := n == 0 || k.pr.testBit n

/-- P[n] := b; a write to P0 is discarded. -/
def Core.setP (k : Core) (n : Nat) (b : Bool) : Core :=
  if n = 0 then k
  else { k with pr := if k.pr.testBit n then (if b then k.pr else k.pr - 2 ^ n) else (if b then k.pr + 2 ^ n else k.pr) }

/-- The instruction acts. -/
def Core.guard (k : Core) (i : Nat) : Bool := k.p (insGp i) != insGn i

/-- The reserved guard. -/
def guardBad (i : Nat) : Bool := insGn i && insGp i == 0

/-! ### Conditions (R311) -/

/-- A condition over operands of `wd` bits. -/
def cond (cc wd a b : Nat) : Bool :=
  match cc with
  | 0 => a == b
  | 1 => a != b
  | 2 => decide (sx wd a < sx wd b)
  | 3 => decide (sx wd b ≤ sx wd a)
  | 4 => decide (a < b)
  | 5 => decide (b ≤ a)
  | 6 => a &&& b != 0
  | _ => false

/-! ### Results (R309) -/

/-- A signed sum that wraps, or saturates. -/
def sumOf (wd : Nat) (sat : Bool) (x : Int) : Nat := if sat then unI wd (satS wd x) else unI wd x

/-- A shift or rotation of `wd` bits: SHL, SHR, SAR, ROR; amounts beyond the width give 0, or the sign for SAR. -/
def shift (kind wd v n : Nat) : Nat :=
  match kind with
  | 0 => if wd < n then 0 else v * 2 ^ n % 2 ^ wd
  | 1 => if wd < n then 0 else v / 2 ^ n
  | 2 => unI wd (asr (sx wd v) (min n wd))
  | _ => if wd < n then 0 else (v / 2 ^ n + v * 2 ^ (wd - n)) % 2 ^ wd

/-- MIN, MAX, MINU, MAXU. -/
def minMax (kind wd a b : Nat) : Nat :=
  let lt := if kind < 2 then decide (sx wd a < sx wd b) else decide (a < b)
  if kind % 2 = 0 then (if lt then a else b) else (if lt then b else a)

/-- Quotient and remainder of 32-bit operands, truncated toward zero (R321). -/
def divOf (uns : Bool) (a b : Nat) : Int × Int :=
  if uns then (if b = 0 then (0xFFFFFFFF, a) else ((a / b : Nat), (a % b : Nat)))
  else
    let x := sx 32 a
    let y := sx 32 b
    if y = 0 then (if 0 ≤ x then 0x7FFFFFFF else -0x80000000, x)
    else if x = -0x80000000 ∧ y = -1 then (0x7FFFFFFF, 0)
    else (Int.tdiv x y, Int.tmod x y)

/-- MA ÷ 2^n, rounded to nearest with ties away from zero and saturated to 32 bits. -/
def marOf (ma : Int) (n : Nat) : Int := satS 32 (rdiv ma (2 ^ n : Nat))

end Sys2Proof.Machine
end

