-- ==== Sys2Proof/Machine/Protection.lean ====
section
/-! DEFINITION. Meanings of the protection commands: comparators, digital current limits, shutdown, hiccup, register
clears and the command gate (R169 to R191). -/

namespace Sys2Proof.Machine

/-! ### The filters (R170, R171, R174, R175) -/

/-- The last 15 samples of a comparator, the newest in bit 0: PCMP `p` is number `p`, VCMP `v` number `128 + v`. -/
def World.hist (w : World) (c : Nat) : Nat := mget 0 w.cmp c

/-- A sample enters the filter of comparator `c`. -/
def World.sampleIn (w : World) (c : Nat) (b : Bool) : World :=
  { w with cmp := mset 0 w.cmp c ((2 * w.hist c + b2n b) % 2 ^ 15) }

/-- At least `k` of the last `n` samples are 1. -/
def majority (h k n : Nat) : Bool := decide (k ≤ (idxs n fun i => h.testBit i).length)

/-- Ticks of ramp of PCMP `p` at `t`: from the latest on edge, held from an off edge to the next on edge (R170). -/
def Ph.ramp (h : Ph) (t : Nat) : Nat := if h.hi ∧ h.onAt ≤ t then min t h.offAt - h.onAt else h.held

/-- THR_eff of PCMP `p` at `t`, in 1/512 µV: THR × 100 µV less SLOPE × 0.25 µV/ns, not below 0 (R170). -/
def World.thrEff (w : World) (p t : Nat) : Nat :=
  w.f F.PROT_PCFG_THR p * 51200 - w.f F.PROT_PCFG_SLOPE p * (w.phase p).ramp t

/-- A sample of IMPp − IMNp, in nV, taken at `t`: blanked after an on edge (R170, R171). -/
def World.pcmpBit (w : World) (p t : Nat) (x : Int) : Bool :=
  let h := w.phase p
  !(h.hi && decide (h.onAt ≤ t) && decide (t < h.onAt + 128 * w.f F.PROT_PBLK_BLANK p))
    && decide (1000 * (w.thrEff p t : Int) < 512 * x)

/-- The threshold of VCMP `v` in setpoint DAC units (R174). -/
def World.vcmpThr (w : World) (v : Nat) : Int :=
  if w.fb F.PROT_VCFG_REL v then w.f F.RSC_DACNOW_CODE (v / 2) + 64 * w.fs F.PROT_VCFG_THR v
  else 256 * (w.f F.PROT_VCFG_THR v : Int)

/-- A sample of VSPnn − VSNnn, in setpoint DAC units: the OV comparator looks above, the UV comparator below (R174, R553). -/
def World.vcmpBit (w : World) (v : Nat) (x : Int) : Bool :=
  if v % 2 = 0 then decide (w.vcmpThr v < x) else decide (x < w.vcmpThr v)

/-! ### PCMP (R173) -/

/-- The filtered output of PCMP `p` rises: source PCMP in TRIP mode; in LIMIT mode a high interval ends. -/
def World.pcmpRise (w : World) (p : Nat) : World :=
  let mode := w.f F.PROT_PCFG_MODE p
  let w := w.sf F.PROT_PSTAT_OUT p 1
  match w.railOf p with
  | none => w.when (mode == 1) fun w => w.sf F.PROT_PSTAT_TRIPPED p 1
  | some r =>
    if mode = 1 then (w.sf F.PROT_PSTAT_TRIPPED p 1).raise r 0 (some p)
    else if mode = 2 ∧ w.lvl p = lvHigh then
      let w := w.sf F.PROT_PSTAT_LIMITED p 1
      let w := w.when (!(w.phase p).forced) fun w => w.inc F.PROT_PSTAT_LCOUNT p
      (w.setPhase p { w.phase p with forced := true }).offEdge r p w.clk.tbq
    else w

/-- It falls, which ends the condition of a KILL_AUTO kill (R181). -/
def World.pcmpFall (w : World) (p : Nat) : World := (w.sf F.PROT_PSTAT_OUT p 0).endAuto p 0

/-- Samples of PCMP `p`, 0.5 ns apart, the last at now. -/
def World.pcmpRun (w : World) (p : Nat) : List Int → World
  | [] => w
  | x :: l =>
    let w := w.sampleIn p (w.pcmpBit p (w.clk.tbq - 64 * l.length) x)
    let out := majority (w.hist p) (w.f F.PROT_PBLK_K p) (w.f F.PROT_PBLK_W p)
    let w := if out = w.fb F.PROT_PSTAT_OUT p then w else if out then w.pcmpRise p else w.pcmpFall p
    w.pcmpRun p l

/-- The comparator of phase `p` acts: it is not OFF and its island runs (R173, R190). -/
def World.pcmpOn (w : World) (p mode : Nat) : Bool :=
  decide (p < w.nPhases) && w.on (pcIsl p) && (if mode = 0 then w.fb F.PROT_PCFG_MODE p else w.f F.PROT_PCFG_MODE p == mode)

/-- Samples reach PCMP `p` in TRIP mode (R170 to R173). -/
def execPcmpTrip (p t : Nat) (s : State) (xs : List Int := []) : Res :=
  onW s fun w => let w := (w.upTo t).settled p; if w.pcmpOn p 1 then w.pcmpRun p xs else w

/-- Samples reach PCMP `p` in LIMIT mode (R170 to R173). -/
def execPcmpLimit (p t : Nat) (s : State) (xs : List Int := []) : Res :=
  onW s fun w => let w := (w.upTo t).settled p; if w.pcmpOn p 2 then w.pcmpRun p xs else w

/-! ### VCMP (R174) -/

/-- The filtered output of VCMP `v` rises: VOV, or VUV while armed. -/
def World.vcmpRise (w : World) (v : Nat) : World :=
  let w := w.sf F.PROT_VSTAT_OUT v 1
  if v % 2 = 0 then (w.sf F.PROT_VSTAT_TRIPPED v 1).raise (v / 2) 2 none
  else if w.fb F.PROT_VSTAT_ARMED v then (w.sf F.PROT_VSTAT_TRIPPED v 1).raise (v / 2) 3 none
  else w

def World.vcmpFall (w : World) (v : Nat) : World :=
  let w := w.sf F.PROT_VSTAT_OUT v 0
  if v % 2 = 0 then (w.bound (v / 2)).foldl (fun w p => w.endAuto p 2) w else w

/-- Samples of VCMP `v`. -/
def World.vcmpRun (w : World) (v : Nat) : List Int → World
  | [] => w
  | x :: l =>
    let w := w.sampleIn (128 + v) (w.vcmpBit v x)
    let out := majority (w.hist (128 + v)) (w.f F.PROT_VCFG_K v) (w.f F.PROT_VCFG_W v)
    let w := if out = w.fb F.PROT_VSTAT_OUT v then w else if out then w.vcmpRise v else w.vcmpFall v
    w.vcmpRun v l

/-- The comparator acts: EN = 1 and its island runs (R174, R190). -/
def World.vcmpOn (w : World) (v : Nat) : Bool :=
  decide (v < 2 * w.nRails) && w.on (snIsl (v / 2)) && w.fb F.PROT_VCFG_EN v

def execVcmpTrip (v t : Nat) (s : State) (xs : List Int := []) : Res :=
  onW s fun w => let w := w.upTo t; if w.vcmpOn v then w.vcmpRun v xs else w

/-- Samples after which a PCMP's or VCMP's filtered output deasserts (R171, R174, R181). -/
def execComparatorDeassert (pcmp : Bool) (n t : Nat) (s : State) (xs : List Int := []) : Res :=
  onW s fun w =>
    let w := w.upTo t
    if pcmp then
      let w := w.settled n
      if w.pcmpOn n 0 then w.pcmpRun n xs else w
    else if w.vcmpOn n then w.vcmpRun n xs
    else w

/-- The code that HKC input 45 reads at the threshold node of comparator `c`: 1.953125 µV per code of a PCMP without its ramp,
31.25 µV per code of a VCMP with the DAC output where REL = 1 (R176). -/
def World.thrCode (w : World) (c : Nat) : Nat :=
  if c < 128 then (rdiv (512 * w.f F.PROT_PCFG_THR c : Nat) 10).toNat
  else (clampI 0 65535 (rdiv (w.vcmpThr (c - 128)) 4)).toNat

/-! ### Digital limits (R178) -/

/-- The current word of a new code reaches the engine's input register: the zero-cross logic sees it, and IPHOC and IPHNEG are
tested on it (R154, R157, R178). -/
def World.newCurrent (w : World) (p : Nat) (code : Int) : World :=
  let (w, i) := w.takeCode p code
  match w.railOf p with
  | none => w
  | some r =>
    let neg := i < -(w.f F.PROT_DLIM1_INEG r : Int)
    let w := w.zeroCross r p i
    let w := if (w.f F.PROT_DLIM0_IPHLIM r : Int) < i then w.raise r 4 (some p) else w.endAuto p 4
    if neg then w.raise r 5 (some p) else w.endAuto p 5

def execIphoc (p : Nat) (code : Int) (s : State) : Res := onW s fun w => w.newCurrent p code
def execIphneg (p : Nat) (code : Int) (s : State) : Res := onW s fun w => w.newCurrent p code

/-- KHOLD after a fault the rail stops running; RAIL_EN is to fall OFFDLY later (R182). -/
def execRailStop (r t : Nat) (s : State) : Res :=
  onW s fun w =>
    let w := w.upTo t
    if (w.rail r).stopDue ∧ (w.rail r).holdAt + 1280 * w.f F.PROT_RCFG_KHOLD r ≤ w.clk.tbq then
      let w := w.stopRunning r
      w.setRail r { w.rail r with enFallDue := w.railEn r, disAt := w.clk.tbq }
    else w

/-- A period boundary of rail `r` releases its KILL_AUTO kills whose condition has ended (R181). -/
def execKillAutoRelease (r t : Nat) (s : State) : Res :=
  onW s fun w =>
    let w := w.upTo t
    w.releaseKills r fun k => !(k.auto && k.src != 16 && (k.ended.any fun e => w.periodSince r e))

/-- ESCDEC passes (R181). -/
def execEscDecay (r : Nat) (s : State) : Res :=
  onW s fun w =>
    if w.f F.PROT_RESC_ESCDEC r = 0 ∨ !w.past (.esc r) (1000 * w.f F.PROT_RESC_ESCDEC r) then w
    else (w.sf F.PROT_RESC_ESCCNT r (w.f F.PROT_RESC_ESCCNT r - 1)).start (.esc r)

/-- The end of a hiccup wait (R184). -/
def execHiccupWaitEnd (r t : Nat) (s : State) : Res :=
  onW s fun w =>
    let w := w.upTo t
    if w.rstate r ≠ rsHiccup ∨ w.railEn r ∨ !w.past (.hiccup r) (1000 * w.f F.PROT_RTIME_HICTIME r) then w
    else if w.clearConds r then w.retry r
    else if w.f F.PROT_RFLT_RETRIES r < w.f F.PROT_RCFG_HICMAX r then (w.inc F.PROT_RFLT_RETRIES r).start (.hiccup r)
    else
      let w := (w.sf F.PROT_RFLT_HICCUP r 0).sf F.PROT_RFLT_LATCHED r 1
      ((w.sf F.PROT_RFLT_ESC r 1).setRstate r rsLatched).setRail r { w.rail r with hicWait := false }

/-- The rail has run HICTIME µs without a trip (R184). -/
def execHiccupRetriesClear (r : Nat) (s : State) : Res :=
  onW s fun w =>
    let p := w.rail r
    if p.running ∧ p.runAt + 128000 * w.f F.PROT_RTIME_HICTIME r ≤ w.clk.tbq then w.sf F.PROT_RFLT_RETRIES r 0 else w

/-- A firmware write of PROT_RCLR: a stamped FAULT_CLEAR, or CLRBUSY (R231). -/
def World.writeRclr (w : World) (r value : Nat) : World :=
  if value % 2 = 0 ∨ w.nRails ≤ r then w
  else if w.cmd.queue.any fun c => c.src == .firmware && c.rail == r then w.sf F.PROT_ERR_CLRBUSY (grpR r) 1
  else
    let st := w.f F.LE_RSEQ_NEXT r
    let w := w.inc F.LE_RSEQ_NEXT r
    let c : Cmd := { src := .firmware, op := .faultClear, rail := r, stamp := st, rails := [(r, st)] }
    { w with cmd := { w.cmd with queue := w.cmd.queue ++ [c] } }

def execProtRclrWrite (r value : Nat) (s : State) : Res := onW s fun w => if w.on (leIsl r) then w.writeRclr r value else w

/-- The rail's FAULT record still waits for an entry of the posted-write buffer (R187, R216). -/
def World.faultQueued (w : World) (r : Nat) : Bool :=
  w.waitq.any fun e => match e with
    | .record h _ => h.cls == 1 && h.rail == r
    | _ => false

/-- The rail's gate opens once the record has entered the buffer and BLY has taken the decision message: the commands stamped before the fault's detection complete RAIL_FAULTED in stamp order
(R187, R245). -/
def execCommandGateOpen (r : Nat) (s : State) : Res :=
  onW s fun w =>
    if !w.fb F.LE_RSTATE_GATE r ∨ w.faultQueued r then w
    else if w.paired ∧ !(w.rail r).blyTook then
      match (w.rail r).fmsg with
      | some m => w.sendFault r m
      | none => w
    else
      let w := w.sf F.LE_RSTATE_GATE r 0
      let hit (c : Cmd) : Bool := (c.on r).isSome && c.faulted.isSome
      let l := w.cmd.queue.filter hit
      let w := { w with cmd := { w.cmd with queue := w.cmd.queue.filter fun c => !hit c } }
      l.foldl (fun w c => w.settleVoid c stRailFaulted (c.faulted.getD 0) 0 .notAccepted) w

end Sys2Proof.Machine
end

