-- ==== Sys2Proof/Machine/PwmRows.lean ====
section
/-! DEFINITION. Meanings of the PWM commands: cycle starts, edges, commits, phase counts, kill lines, RAIL_EN
(R144 to R165, R173). -/

namespace Sys2Proof.Machine

/-- A switching period of a LIMIT-mode phase ends: its run of limited cycles, PLIM, and the end of a PLIM kill's condition
(R173, R181). -/
def World.cycleEnd (w : World) (r p : Nat) : World :=
  let h := w.phase p
  if h.forced then
    let n := h.lrun + 1
    let w := (w.setPhase p { h with lrun := n, forced := false }).sf F.PROT_PSTAT_LRUN p (min 15 n)
    let lim := w.f F.PROT_PBLK_LIMCNT p
    if w.f F.PROT_PCFG_MODE p = 2 ∧ lim ≠ 0 ∧ lim ≤ n then (w.sf F.PROT_PSTAT_TRIPPED p 1).raise r 1 (some p) else w
  else ((w.setPhase p { h with lrun := 0 }).sf F.PROT_PSTAT_LRUN p 0).endAuto p 1

/-- The cycle start `cs` of phase `p` on rail `r`; words of its 1 ns cycle count as loaded before it (R144, R149, R150,
R157). -/
def World.cycleAt (w : World) (r p cs : Nat) : World :=
  let w := (w.settle p (128 * (cs / 128 + 1))).offIfDue r p cs
  let s := w.phSt p
  let pass (w : World) : World :=
    w.setPhase p { w.phase p with nextStart := ((cs : Int) + w.per r + (w.phase p).rebase.getD 0).toNat
                                  rebase := (w.phase p).rebase.bind fun d => if d = 0 then none else some 0 }
  if s = phBoot then
    let w := w.setPhSt p phActive
    if w.cot r then pass w else w.beginCycle r p cs
  else if s = phActive then
    let w := w.cycleEnd r p
    if w.phSt p = phActive ∧ !w.cot r then w.beginCycle r p cs else pass w
  else if s = phShed then pass w
  else if s = phKilled then pass (w.cycleEnd r p)
  else w

/-- Phase `p` has reached its next cycle start. -/
def World.cycleStart (w : World) (p : Nat) : World :=
  match w.railOf p with
  | none => w
  | some r => if (w.phase p).nextStart ≤ w.clk.tbq then w.cycleAt r p (w.phase p).nextStart else w

def execPwmCycleStart (p t : Nat) (s : State) : Res := onW s fun w => (w.upTo t).cycleStart p

/-- Phase `p` has reached its computed off edge: mid for DT_HL, then low (R146, R153). -/
def World.offPoint (w : World) (p : Nat) : World :=
  match w.railOf p with
  | none => w
  | some r => (w.settled p).offIfDue r p w.clk.tbq

def execPwmOffEdge (p t : Nat) (s : State) : Res := onW s fun w => (w.upTo t).offPoint p

/-- Diode emulation: a new current code in the low interval (R154). -/
def execZeroCrossMid (p : Nat) (code : Int) (s : State) (t : Nat := 0) : Res :=
  onW s fun w =>
    let w := (w.upTo t).settled p
    let (w, i) := w.takeCode p code
    match w.railOf p with
    | none => w
    | some r => if w.phSt p = phActive then w.zeroCross r p i else w

/-- BCOMMIT of group `g` reads 1; `pair` when the other island commits in the same cycle. -/
def World.bindAsk (w : World) (g : Nat) (pair : Bool) : World :=
  { (w.sf F.PW_CTL_BCOMMIT g 1).bindForget g with bindPair := pair }

/-- The pending set of group `g` is judged and adopted at once when no affected rail regulates (R155). -/
def World.bindStart (w : World) (g : Nat) : World :=
  if !w.fb F.PW_CTL_BCOMMIT g then w
  else
    let diff := (List.range w.nPhases).filter fun p => grpP p == g && w.bindDiffers p
    if diff.any fun p => (w.bindRails p).any fun r => w.updating r then w
    else
      let rails := (diff.flatMap w.bindRails).eraseDups
      rails.foldl (fun w r => w.regrid r) (w.bindPoint g none)

/-- BCOMMIT of group `g` is asked for (R155). -/
def World.bcommit (w : World) (g : Nat) : World :=
  if w.fb F.PW_CTL_BCOMMIT g then w else (w.bindAsk g false).bindStart g

/-- Both islands commit in one cycle. -/
def World.bcommitBoth (w : World) : World :=
  if w.fb F.PW_CTL_BCOMMIT 0 || w.fb F.PW_CTL_BCOMMIT 1 then (w.bcommit 0).bcommit 1
  else (((w.bindAsk 0 true).bindAsk 1 true).bindStart 0).bindStart 1

/-- A write of 1 to PW_CTL.BCOMMIT of PW island `isl`, or with `both` of both islands in one cycle. -/
def execBcommit (isl : Nat) (s : State) (both : Bool := false) : Res :=
  onW s fun w =>
    if both && w.on 10 && w.on 11 then w.bcommitBoth
    else if w.on isl = false then w else if isl = 10 then w.bcommit 0 else if isl = 11 then w.bcommit 1 else w

/-- Rail `r`'s PW_CTL.RCOMMIT bit is written 1 (R164). -/
def World.rcommit (w : World) (r : Nat) : World :=
  if w.nRails ≤ r then w
  else
    let w := w.orBit F.PW_CTL_RCOMMIT (grpR r) (r % 12)
    if w.updating r then w else (w.railSetAdopt r).regrid r

def execRcommit (r : Nat) (s : State) : Res := onW s fun w => if w.on (pwIslR r) then w.rcommit r else w

/-- A write of PW_NREQ (R159). -/
def World.writeNreq (w : World) (r n : Nat) : World :=
  let n := n % 64
  if n = 0 ∧ w.updating r then w.sf F.PW_ERR_BADVAL (grpR r) 1
  else (w.sf F.PW_NREQ_NREQ r n).firmwareNph r n

def execPwNreqWrite (r n : Nat) (s : State) : Res :=
  onW s fun w => if w.nRails ≤ r ∨ w.on (pwIslR r) = false then w else w.writeNreq r n

/-- A SHED phase reaches ZCTHR (its current code given) or has been SHED for SHEDMAX ns (none) and goes OFF (R157). -/
def execShedEnd (p : Nat) (code : Option Int) (s : State) (t : Nat := 0) : Res :=
  onW s fun w =>
    let w := (w.upTo t).settled p
    match code with
    | some c =>
      let (w, i) := w.takeCode p c
      match w.railOf p with
      | none => w
      | some r => if w.phSt p = phShed then w.zeroCross r p i else w
    | none =>
      match w.railOf p with
      | none => w
      | some r =>
        if w.phSt p = phShed ∧ (w.phase p).shedAt + 128 * w.lf F.PW_SHEDMAX_SHEDMAX r ≤ w.clk.tbq then w.force p phOff lvMid
        else w

/-- Line kills of rail `r`: they act while a selected line is asserted, set FROZEN and act on the forecasts (R161).
DESIGN CHOICE (log 89): a line kill that acts keeps acting when a write of PW_KSEL deselects its line, until the next period
boundary after no selected line is asserted. -/
def World.lineKill (w : World) (r : Nat) : World :=
  if w.linesOn r = 0 then w
  else
    let w := (w.bound r).foldl (fun w p => w.kill p (w.lineKillOf r)) w
    let w := (w.sf F.LE_STAT_FROZEN r 1).setRail r { w.rail r with killed := true }
    w.endForecasts r .prot

/-- The asserted KILL lines, as a mask. -/
def World.setKillPins (w : World) (m : Nat) : World := { w with pins := { w.pins with kill := m } }

/-- The bits of PINS.kill that an input moves: a ball's own, or KL4 to KL7 of each island whose PW_KLCFG names the channel
(R161, R168). -/
def World.killBits (w : World) : KillIn → List Nat
  | .ball k => if k < 4 then [k] else []
  | .chan c => (List.range 2).flatMap fun g =>
      ([F.PW_KLCFG_CH4, F.PW_KLCFG_CH5, F.PW_KLCFG_CH6, F.PW_KLCFG_CH7].zipIdx.filter fun e => w.f e.1 g == c).map
        fun e => 4 + 4 * g + e.2

/-- Lines driven by `x` are asserted, or not. -/
def World.driveLines (w : World) (x : KillIn) (on : Bool) : World :=
  (w.killBits x).foldl (fun w b =>
    if on = w.pins.kill.testBit b then w
    else w.setKillPins (if on then w.pins.kill + 2 ^ b else w.pins.kill - 2 ^ b)) w

/-- A kill input is asserted: every rail that selects a line newly asserted is killed. -/
def World.killLine (w : World) (x : KillIn) : World :=
  let w' := w.driveLines x true
  ((List.range w.nRails).filter fun r => w.linesOn r != w'.linesOn r).foldl (fun w r => w.lineKill r) w'

def execKillLineAssert (x : KillIn) (s : State) (t : Nat := 0) : Res := onW s fun w => (w.upTo t).killLine x

/-- A kill input is deasserted at `t0`; at `t`, a period boundary of rail `r` that has come since releases its line kill when no
selected line is left (R161). -/
def execKillLineRelease (x : KillIn) (r : Nat) (s : State) (t0 : Nat := 0) (t : Nat := 0) : Res :=
  onW s fun w =>
    let w := (w.upTo t0).driveLines x false
    let e := w.clk.tbq
    let w := w.upTo t
    if w.linesOn r = 0 ∧ w.periodSince r e then w.releaseKills r fun x => x.src != 16 else w

/-- The rail becomes running (R162, R241). -/
def execRailRunning (r t : Nat) (s : State) : Res :=
  onW s fun w =>
    let w := w.upTo t
    let p := w.rail r
    if w.railEn r && p.firstUpd && decide (p.enAt + 128 * w.f F.PW_ENCFG_ENDLY r ≤ w.clk.tbq) && p.engOn && !p.running && (w.rstate r == rsStarting || w.rstate r == rsBasecamp) then
      let w := w.setRail r { p with running := true }
      let w := if w.rstate r = rsStarting then w.setRstate r rsRegulating else w
      w.completeWaits (fun x => x.cmd.rail == r && x.on == .running) stOk 0
    else w

/-- RAIL_EN has fallen on rail `r`: the RAIL_DISABLEs that waited on it (R232, R233). -/
def World.enFell (w : World) (r : Nat) : World :=
  let ws := w.cmd.waits.map fun (x : Waiting) => match x.on with
    | .enFallen l => { x with on := .enFallen (l.filter fun q => q != r) }
    | _ => x
  World.completeWaits { w with cmd := { w.cmd with waits := ws } } (fun x => x.on == Await.enFallen []) stOk 0

/-- RAIL_EN falls, OFFDLY after a disable step or a fault's stop (R162, R182, R241). -/
def execRailEnFall (r t : Nat) (s : State) : Res :=
  onW s fun w =>
    let w := w.upTo t
    if !(w.rail r).enFallDue ∨ w.clk.tbq < (w.rail r).disAt + 128 * w.f F.PW_ENCFG_OFFDLY r then w
    else
      let w := (w.sf F.PW_RSTAT_RAILEN r 0).start (.hiccup r)
      let w := w.setRail r { w.rail r with enFallDue := false, offSince := w.tb }
      let w := if w.rstate r = rsStopping then (w.setRstate r rsOff).start .quiet else w
      w.enFell r

/-- One tap of a background re-lock moves the edge in progress by at most one tick (R148). -/
def execDllRelockStep (p : Nat) (move : Int) (s : State) : Res :=
  onW s fun w =>
    if (w.phase p).hi then
      w.setPhase p { w.phase p with offAt := ((w.phase p).offAt + clampI (-1) 1 move).toNat }
    else w

/-- Every delay line of PW island `isl` has locked (R148). -/
def execDelayLineLock (isl : Nat) (s : State) : Res :=
  onW s fun w => if isl = 10 then w.sf F.PW_STAT_DLLOCK 0 1 else if isl = 11 then w.sf F.PW_STAT_DLLOCK 1 1 else w

end Sys2Proof.Machine
end

