-- ==== Sys2Proof/Machine/LoopEngine.lean ====
section
/-! DEFINITION. The loop engine: microwords, programs of the forms, the reference unit, the edge unit, commits, and the
update at a boundary (R26, R37, R76 to R106, R178). -/

namespace Sys2Proof.Machine

/-! ### Microwords (R84 to R86) -/

/-- Operations of R86. -/
inductive MOp where
  | nop | ldp | add | mul | dote | dotf | rda | nlg | clmp | intg | itrk | ckpt | blnd | phset | fire | cals | calr | emit
  deriving DecidableEq, Repr

/-- A microword: its fields as R84 names them. -/
structure MW where
  op : MOp
  d : Nat := 0
  a : Nat := 0
  sel : Nat := 0
  idx : Nat := 0
  deriving DecidableEq, Repr

def MOp.code : MOp → Nat
  | .nop => 0x00 | .ldp => 0x01 | .add => 0x02 | .mul => 0x03 | .dote => 0x04 | .dotf => 0x05 | .rda => 0x06 | .nlg => 0x07
  | .clmp => 0x08 | .intg => 0x09 | .itrk => 0x0A | .ckpt => 0x0B | .blnd => 0x0C | .phset => 0x0D | .fire => 0x0E
  | .cals => 0x0F | .calr => 0x10 | .emit => 0x11

/-- The 20 instruction bits of a microword (R84). -/
def MW.bits (m : MW) : Nat := m.op.code * 2 ^ 15 + m.d * 2 ^ 11 + m.a * 2 ^ 7 + m.sel * 2 ^ 5 + m.idx

/-- Ports by index (R80). -/
abbrev pERR : Nat := 0
abbrev pISUM : Nat := 1
abbrev pDIDT : Nat := 2
abbrev pIPROF : Nat := 3
abbrev pDFF : Nat := 4
abbrev pNPH : Nat := 5

def mPort (d p : Nat) : MW := { op := .ldp, d := d, sel := 2, idx := p }
def mAdd (d a b : Nat) : MW := { op := .add, d := d, a := a, idx := b }
def mCoef (op : MOp) (d a k : Nat) : MW := { op := op, d := d, a := a, sel := 1, idx := k }
def mPlain (op : MOp) (d a : Nat) : MW := { op := op, d := d, a := a }

/-- The VM3-F listing (R90). -/
def progVM3F : List MW :=
  [mPlain .ckpt 0 0, mPlain .blnd 0 0, mPlain .phset 0 0, mPort 0 pERR, mCoef .intg 1 0 0, mCoef .dote 0 0 3,
   mCoef .dotf 0 0 6, mPlain .rda 4 0, mPlain .nlg 5 4, mAdd 6 1 5, mPort 7 pDFF, mCoef .mul 7 7 10, mAdd 6 6 7,
   mPort 8 pDIDT, mCoef .mul 8 8 12, mAdd 6 6 8, mCoef .itrk 9 0 11, mAdd 6 6 9, mCoef .clmp 6 6 8, mPlain .emit 0 6]

/-- VM3: without the steps marked "F only". -/
def progVM3 : List MW :=
  [mPort 0 pERR, mCoef .intg 1 0 0, mCoef .dote 0 0 3, mCoef .dotf 0 0 6, mPlain .rda 4 0, mPlain .nlg 5 4, mAdd 6 1 5,
   mPort 7 pDFF, mCoef .mul 7 7 10, mAdd 6 6 7, mPort 8 pDIDT, mCoef .mul 8 8 12, mAdd 6 6 8, mCoef .clmp 6 6 8,
   mPlain .emit 0 6]

/-- The CM-LL-F listing (R91). -/
def progCMF : List MW :=
  [mPlain .ckpt 0 0, mPlain .blnd 0 0, mPlain .phset 0 0, mPort 0 pERR, mCoef .intg 1 0 0, mCoef .mul 2 0 3, mPlain .nlg 2 2,
   mAdd 3 1 2, mCoef .itrk 9 0 11, mAdd 3 3 9, mCoef .clmp 3 3 8, mPlain .emit 0 3]

def progCM : List MW :=
  [mPort 0 pERR, mCoef .intg 1 0 0, mCoef .mul 2 0 3, mPlain .nlg 2 2, mAdd 3 1 2, mCoef .clmp 3 3 8, mPlain .emit 0 3]

/-- The COT-E listing (R92). -/
def progCOT : List MW :=
  [mPort 0 pERR, mCoef .intg 1 0 0, mPort 2 pISUM, mCoef .mul 2 2 3, mAdd 3 0 2, mAdd 3 3 1, mPlain .fire 0 3, mPort 5 pDFF,
   mCoef .mul 5 5 4, mPlain .emit 0 5]

/-- The BC and CAL listings (R93). -/
def progBC : List MW :=
  [mPort 0 pERR, mCoef .intg 1 0 0, mCoef .dote 0 0 3, mCoef .dotf 0 0 6, mPlain .rda 4 0, mAdd 6 1 4, mCoef .clmp 6 6 8,
   mPlain .emit 0 6]

def progCAL : List MW :=
  [mPort 0 pERR, mCoef .intg 1 0 0, mCoef .dote 0 0 3, mCoef .dotf 0 0 6, mPlain .rda 4 0, mAdd 6 1 4, mCoef .clmp 6 6 8,
   mPlain .cals 0 0, mPlain .calr 0 0, mPlain .emit 0 6]

/-- The program of a form code (R88). -/
def program : Nat → List MW
  | 1 => progVM3
  | 2 => progCM
  | 3 => progCOT
  | 4 => progVM3F
  | 5 => progCMF
  | 6 => progBC
  | 7 => progCAL
  | _ => []

/-- Lowest and highest ROUNDS of a form (R88). -/
def roundsRange : Nat → Nat × Nat
  | 1 => (6, 16)
  | 4 => (8, 16)
  | 5 => (5, 16)
  | 6 => (16, 16)
  | _ => (4, 16)

/-- The edge unit mode of a form (R88). -/
inductive EdgeMode where
  | mid | duty | curr | cot
  deriving DecidableEq, Repr

def edgeMode : Nat → EdgeMode
  | 1 | 4 | 6 | 7 => .duty
  | 2 | 5 => .curr
  | 3 => .cot
  | _ => .mid

/-! ### The sequencer (R80, R81, R86) -/

/-- What an update latches: the ports, the coefficient slots, the gains and the band, and the flags the program reads. -/
structure Latch where
  ports : List Int
  coef : List Int
  gains : List Int
  band : Nat
  frozen : Bool
  iact : Bool
  ckpt : Bool
  blend : Option (Nat × Ckpt)
  deriving DecidableEq, Repr

/-- The sequencer's scratch and what the program asks for. -/
structure Seq where
  x : List Int
  acc : Int := 0
  e : Eng
  /-- band restored by the eighth BLND -/
  band : Option Nat := none
  took : Option Ckpt := none
  phset : Bool := false
  fire : Bool := false
  isat : Bool := false
  dsat : Bool := false
  dmax : Bool := false
  cals : Bool := false
  calr : Bool := false
  cmd : Option Int := none
  deriving DecidableEq, Repr

def Seq.reg (q : Seq) (i : Nat) : Int := q.x.getD i 0

/-- Every register write saturates (R81). -/
def Seq.put (q : Seq) (i : Nat) (v : Int) : Seq := { q with x := q.x.set i (satS 32 v) }

/-- Operand B (R85). -/
def Latch.operand (l : Latch) (q : Seq) (m : MW) : Int :=
  match m.sel with
  | 0 => q.reg (m.idx % 16)
  | 1 => l.coef.getD m.idx 0
  | 2 => l.ports.getD m.idx 0
  | _ => m.idx

/-- One microword (R86). -/
def Latch.exec (l : Latch) (q : Seq) (m : MW) : Seq :=
  let b := l.operand q m
  let a := q.reg m.a
  let c (k : Nat) : Int := l.coef.getD (m.idx + k) 0
  match m.op with
  | .nop => q
  | .ldp => q.put m.d b
  | .add => q.put m.d (a + b)
  | .mul => q.put m.d (rdiv (a * b) (2 ^ 24))
  | .dote => { q with acc := c 0 * q.e.eh0 + c 1 * q.e.eh1 + c 2 * q.e.eh2 }
  | .dotf => { q with acc := q.acc + c 0 * q.e.fh0 + c 1 * q.e.fh1 }
  | .rda => q.put m.d (rdiv q.acc (2 ^ 24))
  | .nlg => q.put m.d (rdiv (a * l.gains.getD (q.band.getD l.band) 0) (2 ^ 12))
  | .clmp =>
    let q := { q with dsat := q.dsat || decide (a < c 0) || decide (c 1 < a), dmax := decide (c 1 < a) }
    q.put m.d (min (max a (c 0)) (c 1))
  | .intg =>
    if l.frozen then q.put m.d (rdiv q.e.i (2 ^ 16)) else
      let sum := q.e.i + rdiv (a * b) (2 ^ 8)
      let lo := c 1 * 2 ^ 16
      let hi := c 2 * 2 ^ 16
      let i := min (max sum lo) hi
      let q := { q with e := { q.e with i := i }, isat := q.isat || decide (sum < lo) || decide (hi < sum) }
      q.put m.d (rdiv i (2 ^ 16))
  | .itrk => q.put m.d (if l.iact then rdiv ((l.ports.getD pIPROF 0 - l.ports.getD pISUM 0) * b) (2 ^ 24) else 0)
  | .ckpt =>
    let e := q.e
    { q with took := if l.ckpt then some ⟨0, 0, e.i, e.eh0, e.eh1, e.eh2, e.fh0, e.fh1, 0, e.ref, e.isumf, 0⟩ else none }
  | .blnd => match l.blend with
    | none => q
    | some (k, t) => { q with e := q.e.blend k t, band := if k = 8 then some t.band else none }
  | .phset => { q with phset := true }
  | .fire => { q with fire := decide (a < 0) }
  | .cals => { q with cals := true }
  | .calr => { q with calr := true }
  | .emit => { q with cmd := some a, e := { q.e with eh2 := q.e.eh1, eh1 := q.e.eh0, fh1 := q.e.fh0, fh0 := q.reg 4 } }

/-- A microword as the ROM holds it: 20 instruction bits, and above them even parity over bits [19:10] and over [9:0] (R87). -/
def romWord (b : Nat) : Nat :=
  let par (x : Nat) : Nat := (idxs 10 fun i => x.testBit i).length % 2
  b + 2 ^ 20 * par b + 2 ^ 21 * par (b / 1024)

/-- Both check bits of a ROM word agree with its instruction bits. -/
def romOk (x : Nat) : Bool := romWord (x % 2 ^ 20) == x % 2 ^ 22

/-- Word `u.1` of a program, read with bit `u.2` upset, fails its check (R87). -/
def romFails (p : List MW) (u : Nat × Nat) : Bool :=
  match p[u.1]? with
  | some m => decide (u.2 < 22) && !romOk (romWord m.bits ^^^ 2 ^ u.2)
  | none => false

/-- A whole program, from the carried state (R76).  DESIGN CHOICE (log 94): X0 to X15 start at 0, which shows in FH[0] := X4 of the
forms that never write X4. -/
def Latch.run (l : Latch) (e : Eng) (p : List MW) : Seq :=
  p.foldl l.exec { x := List.replicate 16 0, e := e }

/-! ### Commit and adoption (R99 to R101) -/

/-- The shadowed registers of R99 beside the coefficient slots. -/
def leSet : List Fld :=
  [F.LE_RATE_ESHIFT, F.LE_RAMP_STEP, F.LE_LL_SLOPE, F.LE_LL_TAU, F.LE_LL_EN, F.LE_NLGT_T1, F.LE_NLGT_T2, F.LE_NLGT2_T3,
   F.LE_NLGT2_HYS, F.LE_NLGG0_G0, F.LE_NLGG0_G1, F.LE_NLGG1_G2, F.LE_NLGG1_G3, F.LE_VIN_SRC, F.LE_VIN_EN, F.LE_VIN_VINK,
   F.LE_DFF_DFF, F.LE_CALCFG_PHASE, F.LE_CALCFG_PULSE, F.LE_CALCFG_EVERY]

/-- Coefficient slot `k` in force, as a signed value. -/
def World.coef (w : World) (r k : Nat) : Int := w.lfs F.LE_COEF_VALUE (32 * r + k)

/-- The form in force beneath a calibration. -/
def World.baseForm (w : World) (r : Nat) : Nat := ((w.rail r).calSaved).getD (w.lf F.LE_FORM_FORM r)

/-- A forecast that has not reached its final outcome (R100). -/
def World.outcomeOpen (w : World) (r : Nat) : Bool :=
  (w.inFlight r).any fun i => (w.fc i).st != .committed

/-- What refuses the pending LE set: LE_ERR.BADCFG or LE_ERR.INTENT (R100, R237). -/
def World.leRefused (w : World) (r : Nat) : Option Fld :=
  let form := w.f F.LE_FORM_FORM r
  let rounds := w.f F.LE_RATE_ROUNDS r
  let t1 := w.f F.LE_NLGT_T1 r
  let t2 := w.f F.LE_NLGT_T2 r
  let t3 := w.f F.LE_NLGT2_T3 r
  let step := w.f F.LE_RAMP_STEP r
  let changes := form != w.baseForm r || rounds != w.f F.LE_STAT_ROUNDS_NOW r
  if 7 ≤ form ∨ rounds < (roundsRange form).1 ∨ (roundsRange form).2 < rounds ∨ step = 0 ∨ 64 < step
      ∨ t2 < t1 ∨ t3 < t2 ∨ (w.fb F.LE_VIN_EN r ∧ w.f F.LE_VIN_VINK r < 256)
      ∨ (changes ∧ w.rstate r = rsCalibrating) then some F.LE_ERR_BADCFG
  else if changes && w.outcomeOpen r then some F.LE_ERR_INTENT
  else none

/-- DFF in force (R83). -/
def World.dff (w : World) (r : Nat) : Nat :=
  if w.lf F.LE_VIN_EN r = 1 then (w.engine r).dff else w.lf F.LE_DFF_DFF r

/-- A preset that the 48 bits of I do not hold: the manual states no result, so a free value. -/
def World.fitI (w : World) (e : Eng) : World × Eng :=
  if satS 48 e.i = e.i then (w, e)
  else
    let (w, v) := w.draw
    (w, { e with i := sx 48 v })

/-- The preset of R101 for a change from form `old` to form `new`; EH[0] holds the present error.  DESIGN CHOICE (log 95): the mean
lane duty of an on-time form is the on-time over PER, unlimited, and the one of a form that forms no words is the last that
was formed. -/
def World.preset (w : World) (r old new : Nat) (isum : Int) : World :=
  let e := w.engine r
  let u : Int := match edgeMode old with
    | .duty => w.fs F.LE_CMDNOW_CMD r
    | _ => e.meanU
  let dff : Int := w.dff r
  let h := { e with eh1 := e.eh0, eh2 := e.eh0 }
  let e' := match new with
    | 1 | 4 => { h with i := (u - rdiv (w.coef r 10 * dff) (2 ^ 24)) * 2 ^ 16, fh0 := 0, fh1 := 0 }
    | 6 | 7 => { h with i := u * 2 ^ 16, fh0 := 0, fh1 := 0 }
    | 2 | 5 => { h with i := isum * 2 ^ 16 }
    | 3 => { h with i := 0 }
    | _ => e
  let (w, e') := w.fitI e'
  w.setEngine r e'

/-- The form and the interval in force change; the grid of R77 follows. -/
def World.setForm (w : World) (r form rounds : Nat) : World :=
  let old := w.f F.LE_STAT_ROUNDS_NOW r
  let w := w.slf F.LE_FORM_FORM r form
  if rounds = old then w
  else
    let w := (w.sf F.LE_STAT_ROUNDS_NOW r rounds).slf F.LE_RATE_ROUNDS r rounds
    let t := rounds * 320
    w.when (w.updating r) fun w =>
      w.setEngine r { w.engine r with notBefore := nextOnGrid t 0 (w.clk.tk + max t (old * 320)) }

/-- The pending LE set is adopted or refused (R99, R100, R241).  DFF stays in force where LE_VIN.EN rises (R83). -/
def World.leAdopt (w : World) (r : Nat) : World :=
  let w := w.sf F.LE_CTL_COMMIT r 0
  match w.leRefused r with
  | some flag => w.sf flag r 1
  | none =>
    let form := if (w.rail r).calSaved.isSome then w.lf F.LE_FORM_FORM r else w.f F.LE_FORM_FORM r
    let w := w.setEngine r { w.engine r with dff := w.dff r }
    let w := w.adoptAll leSet r
    let w := (List.range 32).foldl (fun w k => w.adopt F.LE_COEF_VALUE (32 * r + k)) w
    let w := w.setForm r form (w.f F.LE_RATE_ROUNDS r)
    w.when (w.rstate r == rsBasecamp && form != 6) fun w => w.setRstate r rsRegulating

/-- A write of 1 to LE_CTL.COMMIT (R99).  DESIGN CHOICE (log 96): a commit that waits when its engine stops, or at a boundary whose
microword check fails, waits on for the first update of the rail's next start. -/
def World.leCommit (w : World) (r : Nat) : World :=
  if w.nRails ≤ r ∨ w.fb F.LE_CTL_COMMIT r then w
  else
    let w := w.sf F.LE_CTL_COMMIT r 1
    if w.updating r then w else w.leAdopt r

def execLeCommit (r : Nat) (s : State) : Res := onW s fun w => if w.on (leIsl r) then w.leCommit r else w

/-- CALIBRATE's form enters or the saved one returns at this boundary; a returned form completes the CALIBRATE
(R237). -/
def World.calStep (w : World) (r : Nat) : World :=
  match (w.rail r).calAdopt with
  | none => w
  | some form =>
    let w := (w.slf F.LE_FORM_FORM r form).setRail r { w.rail r with calAdopt := none }
    if form = 7 then w.setEngine r { w.engine r with calCount := 0, calFrom := none }
    else
      let n := w.f F.LE_CALRES_COUNT r
      w.completeWaits (fun x => x.cmd.rail == r && x.on == .calEnd) stOk (if n = 255 then 0 else 2) n

/-! ### The reference unit and the setpoint DAC (R37, R82) -/

/-- The band of this update (R96); `e` is e_eff in ERR units. -/
def World.bandOf (w : World) (r : Nat) (e : Int) : Nat :=
  let a := e.natAbs
  let th (k : Nat) : Nat := 256 * (match k with
    | 1 => w.lf F.LE_NLGT_T1 r
    | 2 => w.lf F.LE_NLGT_T2 r
    | _ => w.lf F.LE_NLGT2_T3 r)
  let b := w.f F.LE_STAT_BAND r
  let hi := if th 3 ≤ a then 3 else if th 2 ≤ a then 2 else if th 1 ≤ a then 1 else 0
  if b ≤ hi then hi
  else if a + 256 * w.lf F.LE_NLGT2_HYS r < th b then b - 1 else b

/-- Gain of a band (R96). -/
def World.gainOf (w : World) (r b : Nat) : Nat :=
  match b with
  | 0 => w.lf F.LE_NLGG0_G0 r
  | 1 => w.lf F.LE_NLGG0_G1 r
  | 2 => w.lf F.LE_NLGG1_G2 r
  | _ => w.lf F.LE_NLGG1_G3 r

/-- The code of the latest EMIT at or before base tick `t`. -/
def Eng.lastEmit (e : Eng) (t : Nat) : Nat :=
  match e.emits.find? fun x => decide (x.1 ≤ t) with
  | some x => x.2
  | none => 0

/-- A code limited to within 64 codes of `dac`. -/
def near64 (dac code : Nat) : Nat := (clampI ((dac : Int) - 64) (dac + 64) code).toNat

/-- Everything adopted by the engine of `r` at this boundary, ERR under the ESHIFT then in force, and the preset where the form or the
interval has changed on a regulating rail (R14, R80, R99, R101, R237); `e` is e_eff in ERR units before ESHIFT. -/
def World.engineAdopt (w : World) (r : Nat) (isum e : Int) : World :=
  let old := w.lf F.LE_FORM_FORM r
  let rounds := w.f F.LE_STAT_ROUNDS_NOW r
  let reg := w.updating r
  let w := w.calStep r
  let w := w.when (w.fb F.LE_CTL_COMMIT r) fun w => w.leAdopt r
  let w := w.setEngine r { w.engine r with eh0 := satS 32 (e * 2 ^ w.lf F.LE_RATE_ESHIFT r) }
  let form := w.lf F.LE_FORM_FORM r
  w.when (reg && (form != old || rounds != w.f F.LE_STAT_ROUNDS_NOW r)) fun w => w.preset r old form isum

/-- The two DAC cores switch at a boundary at least 40 ns after the load, and the released core loads the code of the latest EMIT
(R37). -/
def World.dacSwitch (w : World) (r : Nat) : World :=
  let e := w.engine r
  match e.dacIdle with
  | none => w
  | some (code, at') =>
    if at' + 5120 ≤ w.clk.tk then
      (w.sf F.RSC_DACNOW_CODE r code).setEngine r { e with dacIdle := some (near64 code (e.lastEmit w.clk.tk), w.clk.tk) }
    else w

/-- The reference unit's step at EMIT, `n` ns of program after the 9 ns of sense (R82).  DESIGN CHOICE (log 97): D outside the
18 bits of the DAC is limited to them. -/
def World.refStep (w : World) (r : Nat) (isum : Int) (n : Nat) : World :=
  let e := w.engine r
  let dac := w.f F.RSC_DACNOW_CODE r
  let tgt : Int := 256 * (w.f F.LE_TARGET_CODE r : Int)
  let st : Int := 256 * (w.lf F.LE_RAMP_STEP r : Int)
  let far := decide (4096 * 256 < (e.ref - 256 * (dac : Int)).natAbs)
  let ref := if far then e.ref else e.ref + clampI (-st) st (tgt - e.ref)
  let isumf := e.isumf + rdiv (isum - e.isumf) (2 ^ w.lf F.LE_LL_TAU r : Nat)
  let lld := if w.lf F.LE_LL_EN r = 1 then rdiv (isumf * w.lf F.LE_LL_SLOPE r) (2 ^ 16) else 0
  let code := (clampI 0 (2 ^ 18 - 1) (rdiv (4 * ref - lld) 1024)).toNat
  let at' := w.clk.tk + (9 + n) * 128
  let idle := match e.dacIdle with
    | some x => some x
    | none => some (near64 dac code, at')
  (w.setEngine r { e with ref := ref, isumf := isumf, lld := lld, emits := ((at', code) :: e.emits).take 8, dacIdle := idle }).sf
    F.LE_REFNOW_CODE r (ref / 256).toNat

/-! ### The edge unit (R97, R98) -/

/-- The effective balance trim of phase `p`'s lane on rail `r` (R95). -/
def World.trim (w : World) (r p : Nat) : Int := mget 0 (w.engine r).trims (w.lf F.PW_BIND_LANE p)

/-- Balance trims in force move toward LE_BAL (R98). -/
def World.trimStep (w : World) (r : Nat) : World :=
  (w.bound r).foldl (fun w p =>
    let st : Int := w.f F.LE_BALCFG_STEP (grpR r)
    let t := w.trim r p
    let e := w.engine r
    w.setEngine r { e with trims := mset 0 e.trims (w.lf F.PW_BIND_LANE p) (t + clampI (-st) st (w.fs F.LE_BAL_TRIM p - t)) }) w

/-- The share set S (R97). -/
def World.shareSet (w : World) (r : Nat) : List Nat :=
  if 1 ≤ w.nph r then w.inState r phActive
  else (w.bound r).filter fun p => w.phSt p == phBoot || w.phSt p == phShed

/-- A duty command as a duty word (R97). -/
def dutyWord (u : Int) : Nat := (clampI 0 (2 ^ 24 - 1) (rdiv u 64)).toNat

/-- Load time of a word at phase `p`, Time Base ticks (R11, R12, R147). -/
def World.loadAt (w : World) (r p n : Nat) : Nat :=
  w.clk.tbq + (9 + n + 5 + if crossGroup p r then 2 else 0) * 128

/-- A word or pulse is on its way to phase `p` (R11, R147). -/
def World.pushLoad (w : World) (p : Nat) (x : Load) : World := w.setPhase p { w.phase p with loads := (w.phase p).loads ++ [x] }

/-- Phase `p` has been off, with no pulse on its way, for `toff` ticks at `t` (R97). -/
def World.cotFree (w : World) (p toff t : Nat) : Bool :=
  let h := w.phase p
  h.loads.all (fun x => !x.pulse) && decide ((if h.hi then h.offAt else h.lastOff) + toff ≤ t)

/-- One COT pulse goes to the next ACTIVE phase in rotation that has been off for TOFFMIN (R97, R149). -/
def World.cotPulse (w : World) (r n : Nat) (onT : Int) : World :=
  let e := w.engine r
  let l := w.inState r phActive
  let lane (p : Nat) := w.lf F.PW_BIND_LANE p
  let order := l.filter (fun p => decide (e.cotLane < lane p)) ++ l.filter fun p => decide (lane p ≤ e.cotLane)
  let toff := (w.coef r 5).toNat * 128
  match order.find? fun p => w.cotFree p toff (w.loadAt r p n) with
  | none => w
  | some p =>
    let ton := (min (max onT (w.coef r 8)) (w.coef r 9)).toNat
    (w.setEngine r { e with cotLane := lane p }).pushLoad p ⟨w.loadAt r p n, ton, true⟩

/-- The command becomes duty words or a pulse (R97).  `inj` is the phase and pulse of CALS.  DESIGN CHOICE (log 98): IREF ÷ N_S is
not rounded before KIN multiplies it. -/
def World.edgeUnit (w : World) (r form n : Nat) (cmd : Int) (fire : Bool) (inj : Option (Nat × Int)) : World :=
  let lanes := (w.bound r).filter fun p => w.phSt p == phBoot || w.phSt p == phActive || w.phSt p == phShed
  let s := w.shareSet r
  let ns : Int := s.length
  let tbar := if s.isEmpty then 0 else ((s.map fun p => w.trim r p).sum).tdiv ns
  match edgeMode form with
  | .mid => w
  | .cot =>
    let per : Int := w.per r
    let w := w.setEngine r { w.engine r with meanU := if per = 0 then 0 else rdiv (cmd * 2 ^ 30) per }
    if fire then w.cotPulse r n cmd else w
  | .duty =>
    lanes.foldl (fun w p =>
      let x := match inj with
        | some (q, u) => if q = p then u else 0
        | none => 0
      w.pushLoad p ⟨w.loadAt r p n, dutyWord (cmd + 256 * (w.trim r p - tbar) + x), false⟩) w
  | .curr =>
    if ns = 0 then w
    else
      let u (w : World) (p : Nat) : Int :=
        w.dff r + rdiv (w.coef r 10 * (cmd + ns * (w.trim r p - tbar - w.cur p))) (2 ^ 24 * ns)
      let us := lanes.map (u w)
      let w := w.setEngine r { w.engine r with meanU := if us.isEmpty then 0 else rdiv us.sum us.length }
      lanes.foldl (fun w p => w.pushLoad p ⟨w.loadAt r p n, dutyWord (u w p), false⟩) w

/-! ### Digital limits at a boundary (R178) -/

/-- A count of consecutive updates: raised when it reaches `n`; else the condition of a KILL_AUTO kill ends. -/
def World.countTest (w : World) (r src : Nat) (hit : Bool) (cnt n : Nat) : World :=
  if hit then (if max 1 n ≤ cnt then w.raise r src none else w)
  else (w.bound r).foldl (fun w p => w.endAuto p src) w

/-- ISUMOC, EOV and EUV (R169, R178). -/
def World.limitTests (w : World) (r : Nat) (isum e : Int) : World :=
  let p := w.rail r
  let oc := decide ((w.f F.PROT_DLIM2_ISUMLIM r : Int) < isum)
  let ov := decide (256 * (w.f F.PROT_DLIM3_EOVLIM r : Int) < e)
  let uv := decide (e < -(256 * (w.f F.PROT_DLIM3_EUVLIM r : Int)))
  let next (b : Bool) (c : Nat) : Nat := if b then c + 1 else 0
  let q := { p with isumCnt := next oc p.isumCnt, eovCnt := next ov p.eovCnt, euvCnt := next uv p.euvCnt }
  let w := w.setRail r q
  let w := w.countTest r 6 oc q.isumCnt (w.f F.PROT_DLIM2_ISUMCNT r)
  let w := w.countTest r 7 ov q.eovCnt (w.f F.PROT_DLIM4_ECNT r)
  w.countTest r 8 uv q.euvCnt (w.f F.PROT_DLIM4_ECNT r)

/-- DSAT (R169, R178). -/
def World.dsatTest (w : World) (r : Nat) (hit : Bool) : World :=
  let p := w.rail r
  let q := { p with dsatCnt := if hit then p.dsatCnt + 1 else 0 }
  let w := w.setRail r q
  let n := w.f F.PROT_DLIM4_DSATCNT r
  if n = 0 then w else if hit && decide (n ≤ q.dsatCnt) then w.raise r 9 none else w

/-! ### The update (R76) -/

/-- The rail's engine may take an update now: a boundary of its grid, in error mode, with a settled reference (R49, R52, R77,
R87). -/
def World.mayUpdate (w : World) (r : Nat) : Bool :=
  decide (r < w.nRails) && w.padsOwned && (w.rail r).engOn && !(w.engine r).stopped && w.fb F.RSC_STAT_REFRDY r
  && (w.railEn r || !(w.rstate r == rsStarting || w.rstate r == rsBasecamp))
  && decide ((w.engine r).notBefore ≤ w.clk.tk) && w.clk.tk % w.tu r == 0 && w.f F.RSC_CFG_MODE r == 0

/-- ISUM port: current words of the bound phases (R80). -/
def World.isum (w : World) (r : Nat) : Int := satS 24 (((w.bound r).map fun p => w.cur p).sum)

/-- The pre-filter output: the mean of the window's LOOP samples of slices that are not faulty, 1/256 corrected LSB; the sense
voltages of the window come in time order, the newest by slice 0 (R33, R34, R43, R47, R78).  With no such sample it keeps its
last value. -/
def World.prefilter (w : World) (r : Nat) (win : List Int) : World × Int :=
  let l := win.zipIdx.map fun x => ((x.2 + 1) % 8, x.1)
  let (w, c) := w.convertAll r l
  let m := (l.zip c).filter fun x => w.sliceSrc r x.1.1 == 0 && !(w.f F.RSC_STAT_SLICE_FLT r).testBit x.1.1
  (w, if m.isEmpty then (w.engine r).emeas else rdiv (256 * (m.map fun x => x.2.1).sum) m.length)

/-- What is adopted at an update boundary before the ports are latched: slots, bindings and the PWM set (R14, R48, R155, R164,
R165). -/
def World.boundaryAdopt (w : World) (r : Nat) : World :=
  let w := (List.range 8).foldl (fun w s => w.adopt F.RSC_SLOT_SLOT (8 * r + s)) w
  let w := (w.bindPoint 0 (some r)).bindPoint 1 (some r)
  w.when (w.railSetPending r) fun w => w.railSetAdopt r

/-- Arming of the UV comparator, WAITREF completions, VDone and GL_BCSTAT.DONE at a boundary where REF equals LE_TARGET
(R174, R233, R291, R454). -/
def World.refReached (w : World) (r : Nat) : World :=
  if (w.engine r).ref ≠ 256 * (w.f F.LE_TARGET_CODE r : Int) then w
  else
    let w := w.when ((w.rail r).running) fun w => w.sf F.PROT_VSTAT_ARMED (2 * r + 1) 1
    let w := w.completeWaits (fun x => x.cmd.rail == r && x.on == .refTarget) stOk 0
    let w := (idxs 8 fun e => (w.f F.GL_BCSTAT_STARTED 0).testBit e && w.bcRail e == r && (w.rail r).running).foldl
      (fun w e => w.orBit F.GL_BCSTAT_DONE 0 e) w
    let l := w.pmb.vwait.filter fun x => x.2 == r
    let w := l.foldl (fun w x => (w.avsOf x.1 r).foldl (fun w a => w.orBit F.SI_AVSSTAT_VDONE x.1 a) w) w
    { w with pmb := { w.pmb with vwait := w.pmb.vwait.filter fun x => x.2 != r } }

/-- Energy of one update in 2^-16 nJ (R257). -/
def energyOf (dac : Nat) (emeas isum : Int) (ratio rounds : Nat) : Int :=
  ((1024 * dac + emeas) * ratio * isum * rounds * 5 * 65536) / (256 * 512000 * 16384 * 1024 * 2)

/-- The telemetry sums of an update (R219, R451). -/
def World.telStep (w : World) (r : Nat) (v isum e : Int) : World :=
  let p := w.rail r
  w.setRail r { p with
    telV := p.telV + v, telI := p.telI + isum, telN := p.telN + 1
    telPk := if p.telN = 0 then isum else max p.telPk isum, telE := max p.telE (e.natAbs / 256)
    avgV := p.avgV + v, avgI := p.avgI + isum, avgN := p.avgN + 1 }

/-- CALS and CALR (R94): the injection of this update and the record of the previous one; CALS comes first and both see the COUNT
that the update began with.  DESIGN CHOICE (log 99): the first injection falls EVERY updates after CAL has entered, its own
update counted. -/
def World.calInject (w : World) (r : Nat) : World × Option (Nat × Int) :=
  let e := w.engine r
  let p := w.lf F.LE_CALCFG_PHASE r
  let every := w.lf F.LE_CALCFG_EVERY r
  let n := w.f F.LE_CALRES_COUNT r
  let w := match e.calFrom with
    | some i =>
      if n < 255 then (w.sfI F.LE_CALRES_SUM r (w.fs F.LE_CALRES_SUM r + (w.cur p - i))).sf F.LE_CALRES_COUNT r (n + 1)
      else w
    | none => w
  if every ≠ 0 ∧ n < 255 ∧ every ≤ e.calCount + 1 then
    (w.setEngine r { e with calCount := 0, calFrom := some (w.cur p) }, some (p, 256 * (w.lf F.LE_CALCFG_PULSE r : Int)))
  else (w.setEngine r { e with calCount := e.calCount + 1, calFrom := none }, none)

/-- The checkpoint of forecast `i` is pushed (R123). -/
def World.pushCkpt (w : World) (r i band : Nat) (c : Ckpt) : World :=
  let t := w.intent r
  let c := { c with idx := i, fseq := (w.fc i).fseq, band := band, nph := w.nreq r }
  let w := w.setIntent r { t with stack := c :: t.stack }
  w.sf F.LE_STAT_CKDEPTH r (w.intent r).stack.length

/-- The intent unit at the boundary: table steps in FSEQ order, at most one run-ahead start, then the rollback step
(R121, R122, R124).  It answers the forecast that enters RUN and the blend of this update; `d` is |e_eff| for DEVMAX. -/
def World.intentStep (w : World) (r : Nat) (isum iest iest2 : Int) (d : Nat) : World × Option Nat × Option (Nat × Ckpt) :=
  let w := (w.inFlight r).foldl (fun w i => w.fcStep i iest iest2 d) (w.devStep r d)
  let go := if w.intentForm r then (w.inFlight r).find? fun i => w.mayRun i else none
  let w := match go with
    | some i => w.enterRun i isum iest d
    | none => w
  let (w, bl) := w.rollbackStep r
  (w, go, bl)

/-- Everything that the program of this update writes back (R82, R86, R97). -/
def World.afterProgram (w : World) (r form n band : Nat) (isum : Int) (go : Option Nat) (q : Seq) : World :=
  let w := w.setEngine r q.e
  let w := w.sf F.LE_STAT_BAND r (q.band.getD band)
  let w := match go, q.took with
    | some i, some c => w.pushCkpt r i band c
    | _, _ => w
  let t := w.intent r
  let w := match q.phset, t.phset with
    | true, some k => (w.setNreq r (max k (w.nreq r))).setIntent r { w.intent r with phset := none }
    | _, _ => w
  let w := w.when q.isat fun w => w.sf F.LE_ERR_ISAT r 1
  let w := w.when q.dsat fun w => w.sf F.LE_ERR_DSAT r 1
  let (w, inj) := if q.cals then w.calInject r else (w, none)
  let w := w.trimStep r
  match q.cmd with
  | none => w
  | some c =>
    let w := w.sfI F.LE_CMDNOW_CMD r c
    (w.edgeUnit r form n c q.fire inj).refStep r isum n

/-- The program of an update runs on the state that the boundary has left; `e` is e_eff in ERR units (R76, R80, R86). -/
def World.runProgram (w : World) (r : Nat) (isum didt e : Int) (go : Option Nat) (bl : Option (Nat × Ckpt)) : World :=
  let form := w.lf F.LE_FORM_FORM r
  let band := w.bandOf r e
  let dff := w.dff r
  let w := w.sf F.LE_DFFNOW_DFF r dff
  let act := !(w.active r).isEmpty
  let l : Latch := {
    ports := [(w.engine r).eh0, isum, didt, w.iprof r w.clk.tbq, (dff : Int), (w.nph r : Int)]
    coef := (List.range 32).map (w.coef r), gains := (List.range 4).map fun b => (w.gainOf r b : Int)
    band := band, frozen := w.fb F.LE_STAT_FROZEN r, iact := act, ckpt := go.isSome, blend := bl }
  let q := l.run (w.engine r) (program form)
  let w := w.afterProgram r form (program form).length band isum go q
  let w := (w.sf F.LE_STAT_IACT r (b2n act)).sf F.LE_STAT_BLEND r (b2n (w.intent r).blending)
  w.dsatTest r q.dmax

/-- The intent unit and the program of an update: ISUM, its change, and e_eff in ERR units; `first` after no update (R80, R121,
R122). -/
def World.intentAndProgram (w : World) (r : Nat) (isum e : Int) (first : Bool) : World :=
  let e1 := w.engine r
  let rounds := w.f F.LE_STAT_ROUNDS_NOW r
  let didt := match e1.isum1 with
    | some i => isum - i
    | none => 0
  let iest := if first then isum else isum - rdiv (w.f F.FC_RAILD_COUT r * (e - e1.err1)) (320 * rounds : Nat)
  let prev := e1.iest0.getD iest
  let prev2 := e1.iest1.getD prev
  let w := w.setEngine r { e1 with isum1 := some isum, err1 := e, iest0 := some iest, iest1 := some prev }
  let (w, go, bl) := w.intentStep r isum iest prev2 (devOf e)
  let w := (w.runProgram r isum didt e go bl).regrid r
  w.when (w.rail r).engOn fun w => w.phaseSteps r

/-- A microword's check fails: the engine stops before EMIT and raises ENGINE_FAULT (R87). -/
def World.romFault (w : World) (r : Nat) : World :=
  let w := w.setEngine r { w.engine r with stopped := true }
  ((w.sf F.LE_ERR_ROMPAR r 1).sf F.LE_STAT_RUN r 0).raise r 14 none

/-- The update at a boundary from the sense voltages of its window and the phases' codes (R76).  `upset` flips a bit of a
microword. -/
def World.update (w : World) (r : Nat) (win : List Int) (codes : List (Nat × Int)) (upset : Option (Nat × Nat)) : World :=
  let w := codes.foldl (fun w c => if w.boundTo c.1 r then w.newCurrent c.1 c.2 else w) (w.settleRail r)
  let (w, emeas) := w.prefilter r win
  let bad := upset.any fun u => romFails (program (w.lf F.LE_FORM_FORM r)) u
  let w := ((w.boundaryAdopt r).when (!bad) fun w => (w.boundaryTurns w.cmd.queue.length r).applyCount r).frozenClear r
  let rounds := w.f F.LE_STAT_ROUNDS_NOW r
  let isum := w.isum r
  let e0 := w.engine r
  let dac := w.f F.RSC_DACNOW_CODE r
  let e := emeas + 4 * (256 * (dac : Int) - e0.ref) + e0.lld
  let idle := w.lf F.LE_FORM_FORM r == 0
  let w := w.setEngine r { e0 with
    emeas := emeas
    eacc := if idle then e0.eacc else e0.eacc + energyOf dac emeas isum (w.f F.RSC_DIVR_RATIO r) rounds
    notBefore := w.clk.tk + rounds * 320 }
  let w := w.dacSwitch r
  if bad then (w.romFault r).regrid r
  else
    let w := w.engineAdopt r isum e
    if w.lf F.LE_FORM_FORM r = 0 then ((w.phasesOff r).sf F.LE_STAT_RUN r 0).regrid r
    else
      let first := !(w.rail r).firstUpd
      let w := ((w.sf F.LE_STAT_RUN r 1).setRail r { w.rail r with firstUpd := true }).refReached r
      let w := (w.telStep r (1024 * dac + emeas) isum e).limitTests r isum e
      if (w.rail r).engOn then w.intentAndProgram r isum e first else w.regrid r

/-- An update boundary of rail `r` at `t`: a ramping disable that has reached REF = 0 makes its disable step, else the
update (R76, R236).  `win` holds the sense voltages at the 8 × ROUNDS slice instants that end here (R78). -/
def execLoopUpdate (r t : Nat) (win : List Int) (codes : List (Nat × Int)) (word : Option Nat) (bit : Nat) (s : State) : Res :=
  onW s fun w =>
    let w := w.upTo t
    if !w.mayUpdate r ∨ win.length ≠ 8 * w.f F.LE_STAT_ROUNDS_NOW r then w
    else if (w.rail r).rampDown && (w.engine r).ref == 0 then w.disableStep r
    else w.update r win codes (word.map (·, bit))

end Sys2Proof.Machine
end

