-- ==== Sys2Proof/Machine/Side.lean ====
section
/-! DEFINITION. The board interfaces: PMBus, AVSBus, I3C and the rope ring (R448 to R464). -/

namespace Sys2Proof.Machine

/-! ### Bus commands (R448) -/

/-- A bus command is stamped at the end of its transfer, unless its bus holds four that are not settled. -/
def World.busIssue (w : World) (src : CmdSrc) (op : Op) (r : Nat) : World :=
  if 4 ≤ (w.cmd.queue.countP fun c => c.src == src) then
    match src with
    | .pmbus => w.setCml r 1
    | _ => w
  else w.issue src op r 0

/-- The command would find its bus full. -/
def World.busFull (w : World) (src : CmdSrc) : Bool := decide (4 ≤ w.cmd.queue.countP fun c => c.src == src)

/-- SID runs and the part answers on its buses (R449). -/
def World.busOn (w : World) : Bool := w.on 18 && w.padsOwned

/-! ### PMBus (R450 to R452) -/

/-- The part answers on PMBus. -/
def World.pmOn (w : World) : Bool := w.busOn && w.fb F.SI_PMCFG_EN 0

/-- The pages a write acts on, and the page a read answers for. -/
def World.pmPages (w : World) : List Nat := if w.pmb.page = 0xFF then List.range w.nRails else [w.pmb.page]
def World.pmPage (w : World) : Nat := if w.pmb.page = 0xFF then 0 else w.pmb.page

/-- STATUS_CML bit `b` of the pages selected. -/
def World.pmCml (w : World) (b : Nat) : World := w.pmPages.foldl (fun w r => w.setCml r b) w

/-- The status bits of page `r`: OV, UV, OC, OT, then those of STATUS_CML. -/
def Pmb.mask (p : Pmb) (r : Nat) : Nat :=
  b2n (p.ov.testBit r) + 2 * b2n (p.uv.testBit r) + 4 * b2n (p.oc.testBit r) + 8 * b2n (p.ot.testBit r) + 16 * mget 0 p.cml r

/-- PM_ALERT_N is low: a status bit is set that no alert response has answered. -/
def World.alertLow (w : World) : Bool :=
  (List.range 24).any fun r => (w.pmb.mask r ||| mget 0 w.pmb.ara r) != mget 0 w.pmb.ara r

/-- WRITE_PROTECT allows a write of command `code`. -/
def World.wpAllows (w : World) (code : Nat) : Bool :=
  match w.pmb.wp with
  | 0x00 => true
  | 0x20 => [0x10, 0x01, 0x00, 0x21].contains code
  | 0x40 => [0x10, 0x01, 0x00].contains code
  | _ => code == 0x10

/-- A write: not acknowledged when the part does not answer, discarded on a PEC failure, without effect when it is
forbidden, else `act`. -/
def World.pmWrite (w : World) (code : Nat) (pec allowed : Bool) (act : World → World) : World :=
  if !w.pmOn then w.emit (.bus none)
  else
    let w := w.emit (.bus (some []))
    if !pec then w.pmCml 5
    else if !(w.wpAllows code && allowed) then w.pmCml 6
    else act w

/-- A read: the answer's bytes. -/
def World.pmRead (w : World) (f : World → List Nat) : World :=
  if w.pmOn then w.emit (.bus (some (f w))) else w.emit (.bus none)

/-- The copy of the page that a read answers for. -/
def World.pmCopy (w : World) : PmPage := mget {} w.pmb.copy w.pmPage

def execPage (wr : Option Nat) (pec : Bool) (s : State) : Res :=
  onW s fun w =>
    match wr with
    | none => w.pmRead fun w => [w.pmb.page]
    | some v => w.pmWrite 0x00 pec true fun w =>
        if v = 0xFF ∨ v < w.nRails then { w with pmb := { w.pmb with page := v } } else w.pmCml 6

/-- TARGET of a rail, from its LE_TARGET (R235). -/
def World.targetOf (w : World) (r : Nat) : Nat :=
  (rdiv ((w.f F.LE_TARGET_CODE r * w.f F.RSC_DIVR_RATIO r : Nat)) 16384).toNat

def execOperation (wr : Option Nat) (pec : Bool) (s : State) : Res :=
  onW s fun w =>
    match wr with
    | none => w.pmRead fun w => [if w.pmCopy.en then 0x80 else 0]
    | some v => w.pmWrite 0x01 pec ((w.f F.SI_PMCFG_WREN 0).testBit 0) fun w =>
        let all (f : World → Nat → Op) : World := w.pmPages.foldl (fun w r => w.busIssue .pmbus (f w r) r) w
        match v with
        | 0x80 => all fun w r => .railEnable (w.targetOf r) 0 0
        | 0x00 => all fun _ _ => .railDisable 0
        | 0x40 => all fun _ _ => .railDisable 1
        | _ => w.pmCml 6

/-- The status bits of page `r` clear. -/
def Pmb.clear (p : Pmb) (r : Nat) : Pmb :=
  let off (x : Nat) : Nat := if x.testBit r then x - 2 ^ r else x
  { p with ov := off p.ov, uv := off p.uv, oc := off p.oc, ot := off p.ot, cml := mset 0 p.cml r 0, ara := mset 0 p.ara r 0 }

def execClearFaults (pec : Bool) (s : State) : Res :=
  onW s fun w => w.pmWrite 0x03 pec ((w.f F.SI_PMCFG_WREN 0).testBit 0) fun w =>
    w.pmPages.foldl (fun w r =>
      let w := { w with pmb := w.pmb.clear r }
      w.when (w.fb F.SI_PMCFG_CLRF 0) fun w => w.busIssue .pmbus .faultClear r) w

def execWriteProtect (wr : Option Nat) (pec : Bool) (s : State) : Res :=
  onW s fun w =>
    match wr with
    | none => w.pmRead fun w => [w.pmb.wp]
    | some v => w.pmWrite 0x10 pec true fun w =>
        if [0x80, 0x40, 0x20, 0x00].contains v then { w with pmb := { w.pmb with wp := v } } else w.pmCml 6

def execCapability (s : State) : Res := onW s fun w => w.pmRead fun _ => [0xD0]

def execVoutMode (s : State) : Res := onW s fun w => w.pmRead fun _ => [0x13]

def execVoutCommand (wr : Option Nat) (pec : Bool) (s : State) : Res :=
  onW s fun w =>
    match wr with
    | none => w.pmRead fun w => leBytes 2 w.pmCopy.vcmd
    | some v => w.pmWrite 0x21 pec ((w.f F.SI_PMCFG_WREN 0).testBit 1) fun w =>
        w.pmPages.foldl (fun w r => w.busIssue .pmbus (.setTarget (rdiv (v * 125 : Nat) 8).toNat 0) r) w

/-- STATUS_WORD of a page: OFF and the summary bits. -/
def PmPage.word (p : PmPage) : Nat :=
  64 * b2n (!p.en) + 32 * b2n (p.vout.testBit 7) + 16 * b2n (p.iout != 0) + 4 * b2n (p.tstat != 0) + 2 * b2n (p.cml != 0)
  + 2 ^ 15 * b2n (p.vout != 0) + 2 ^ 14 * b2n (p.iout != 0)

def execStatusByte (s : State) : Res := onW s fun w => w.pmRead fun w => [w.pmCopy.word % 256]
def execStatusWord (s : State) : Res := onW s fun w => w.pmRead fun w => leBytes 2 w.pmCopy.word
def execStatusVout (s : State) : Res := onW s fun w => w.pmRead fun w => [w.pmCopy.vout]
def execStatusIout (s : State) : Res := onW s fun w => w.pmRead fun w => [w.pmCopy.iout]
def execStatusTemperature (s : State) : Res := onW s fun w => w.pmRead fun w => [w.pmCopy.tstat]
def execStatusCml (s : State) : Res := onW s fun w => w.pmRead fun w => [w.pmCopy.cml]
def execReadVout (s : State) : Res := onW s fun w => w.pmRead fun w => leBytes 2 w.pmCopy.v
def execReadIout (s : State) : Res := onW s fun w => w.pmRead fun w => leBytes 2 w.pmCopy.i
def execReadTemperature1 (s : State) : Res := onW s fun w => w.pmRead fun w => leBytes 2 w.pmCopy.temp
def execReadPout (s : State) : Res := onW s fun w => w.pmRead fun w => leBytes 2 w.pmCopy.p
def execPmbusRevision (s : State) : Res := onW s fun w => w.pmRead fun _ => [0x44]
def execMfrId (s : State) : Res := onW s fun w => w.pmRead fun _ => [3, 0x4D, 0x52, 0x44]
def execMfrModel (s : State) : Res :=
  onW s fun w => w.pmRead fun w => [6, 0x4C, 0x58, 0x31, 0x32] ++ (if w.lx1264 then [0x36, 0x34] else [0x38, 0x30])

/-- The command codes of R451. -/
def pmCodes : List Nat :=
  [0x00, 0x01, 0x03, 0x10, 0x19, 0x20, 0x21, 0x78, 0x79, 0x7A, 0x7B, 0x7D, 0x7E, 0x8B, 0x8C, 0x8D, 0x96, 0x98, 0x99, 0x9A]

def execInvalidCommand (code : Nat) (s : State) : Res :=
  onW s fun w =>
    if pmCodes.contains code then w
    else if w.pmOn then (w.emit (.bus (some []))).pmCml 7 else w.emit (.bus none)

def execAlertResponse (s : State) : Res :=
  onW s fun w =>
    if w.pmOn && w.alertLow then
      let w := w.emit (.bus (some [2 * w.f F.SI_PMCFG_ADDR 0]))
      { w with pmb := { w.pmb with ara := (List.range 24).foldl (fun a r => mset 0 a r (w.pmb.mask r)) [] } }
    else w.emit (.bus none)

/-- Linear11 of `a ÷ b`: the smallest exponent whose mantissa fits, the mantissa rounded to nearest. -/
def linear11 (a b : Int) : Nat :=
  let mant (n : Int) : Int := if n < 0 then rdiv (a * 2 ^ n.natAbs) b else rdiv a (b * 2 ^ n.natAbs)
  match ((List.range 32).map fun (k : Nat) => (k : Int) - 16).find? fun n => decide (-1024 ≤ mant n) && decide (mant n ≤ 1023) with
  | some n => unI 5 n * 2048 + unI 11 (mant n)
  | none => 0

/-- Linear16 of a rail voltage `a ÷ b` in units of 1.953125 µV. -/
def linear16 (a b : Int) : Nat := (clampI 0 65535 (rdiv (2 * a) (125 * b))).toNat

/-- The temperature of rail `r`'s housekeeping entry as 1/256 °C; none when the entry is no die temperature sensor (R67). -/
def World.railTemp (w : World) (r : Nat) : Option Int :=
  let e := w.f F.PROT_HKLIM_ENTRY r
  let inp := w.lf F.HKC_SEQ_INPUT e
  if 32 ≤ inp ∧ inp < 40 then some ((w.f F.HKC_RES_VALUE e : Int) - 64 * 256) else none

/-- The rail's temperature, the free value where the manual gives the entry no scale. -/
def World.temp (w : World) (r : Nat) : World × Int :=
  match w.railTemp r with
  | some x => (w, x)
  | none =>
    let (w, x) := w.draw
    (w, x)

/-- The 100 µs means of rail `r`; with no update the sense voltage is a free value and the current is the present sum. -/
def World.meansOf (w : World) (r : Nat) : World :=
  let p := w.rail r
  let (w, v, i) :=
    if p.avgN = 0 then
      let (w, x) := w.draw
      (w, (x : Int), w.isum r)
    else (w, rdiv p.avgV p.avgN, rdiv p.avgI p.avgN)
  let e := (w.engine r).eacc
  w.setRail r { p with avgV := 0, avgI := 0, avgN := 0, avgE := e, meanV := v, meanI := i, meanE := e - p.avgE }

/-- The copy of page `r`. -/
def World.copyPage (w : World) (r : Nat) : World :=
  let (w, t) := w.temp r
  let p := w.rail r
  let ratio : Int := w.f F.RSC_DIVR_RATIO r
  let b := w.pmb
  let page : PmPage :=
    { en := w.enabled r
      vcmd := linear16 (4 * w.f F.LE_TARGET_CODE r * ratio) 16384
      v := linear16 (p.meanV * ratio) (256 * 16384)
      i := linear11 p.meanI 1024
      p := linear11 p.meanE (65536 * 100000)
      temp := linear11 t 256
      vout := 128 * b2n (b.ov.testBit r) + 16 * b2n (b.uv.testBit r)
      iout := 128 * b2n (b.oc.testBit r)
      tstat := 128 * b2n (b.ot.testBit r)
      cml := mget 0 b.cml r }
  { w with pmb := { w.pmb with copy := mset {} w.pmb.copy r page } }

def execPmbusCopyRefresh (t : Nat) (s : State) : Res :=
  onW s fun w =>
    let w := w.upTo t
    if !w.past .copy 100000 then w
    else
      let w := ((List.range w.nRails).foldl World.meansOf w).start .copy
      w.when (w.on 18) fun w => (List.range w.nRails).foldl World.copyPage w

/-! ### AVSBus (R453 to R455) -/

/-- Port `k` is answered. -/
def World.avsOn (w : World) (k : Nat) : Bool := decide (k < 4) && w.busOn && w.fb F.SI_AVSMAP_EN k

/-- The rail mapped to address `a` of port `k`, if it is present. -/
def World.avsRail (w : World) (k a : Nat) : Option Nat :=
  let x := bitsOf (w.f F.SI_AVSMAP_MAP k) (6 * a) 6
  if a < 4 ∧ x.testBit 5 ∧ x % 32 < w.nRails then some (x % 32) else none

/-- The rails that a write to address `a` reaches; 0xF is every mapped one. -/
def World.avsRails (w : World) (k a : Nat) : List Nat :=
  if a = 0xF then (List.range 4).filterMap (w.avsRail k) else (w.avsRail k a).toList

/-- `v` mV lies within SI_AVSLIM[r]. -/
def World.avsLimOk (w : World) (r v : Nat) : Bool :=
  w.fb F.SI_AVSLIM_VMAX r && decide (w.f F.SI_AVSLIM_VMIN r ≤ v) && decide (v ≤ w.f F.SI_AVSLIM_VMAX r)

/-- The SlaveAck of a committed Voltage write. -/
def World.avsAck (w : World) (k a v : Nat) (crc : Bool) : Nat :=
  let l := w.avsRails k a
  if !crc then 2 else if l.isEmpty || !(l.all fun r => w.avsLimOk r v) then 3 else if w.busFull (.avs k) then 1 else 0

def execAvsVoltageWrite (k a v : Nat) (crc : Bool) (s : State) : Res :=
  onW s fun w =>
    if !w.avsOn k then w
    else
      let ack := w.avsAck k a v crc
      let w := w.when (ack == 0) fun w =>
        (w.avsRails k a).foldl (fun w r => w.busIssue (.avs k) (.setTarget (v * 128) 0) r) w
      w.emit (.avs ack 0)

/-- A read of address `a`: 0b10 on a CRC failure, 0b11 where no rail answers, else the data. -/
def World.avsRead (w : World) (k a : Nat) (crc : Bool) (f : World → Nat → World × Int) : World :=
  if !w.avsOn k then w
  else if !crc then w.emit (.avs 2 0)
  else match w.avsRail k a with
    | none => w.emit (.avs 3 0)
    | some r =>
      let (w, x) := f w r
      w.emit (.avs 0 (unI 16 x))

def execAvsVoltageRead (k a : Nat) (crc : Bool) (s : State) : Res :=
  onW s fun w => w.avsRead k a crc fun w r => (w, rdiv ((w.rail r).meanV * w.f F.RSC_DIVR_RATIO r) (256 * 16384 * 512))

def execAvsVouttransrateRead (k a : Nat) (crc : Bool) (s : State) : Res :=
  onW s fun w => w.avsRead k a crc fun w r =>
    let x := w.lf F.LE_RAMP_STEP r * 25 / (8 * w.f F.LE_STAT_ROUNDS_NOW r)
    (w, (257 * satU 8 x : Nat))

def execAvsCurrentRead (k a : Nat) (crc : Bool) (s : State) : Res :=
  onW s fun w => w.avsRead k a crc fun w r => (w, rdiv ((w.rail r).meanI * 100) 1024)

def execAvsTemperatureRead (k a : Nat) (crc : Bool) (s : State) : Res :=
  onW s fun w => w.avsRead k a crc fun w r =>
    let (w, t) := w.temp r
    (w, rdiv (t * 10) 256)

def execAvsStatusRead (k a : Nat) (crc : Bool) (s : State) : Res :=
  onW s fun w => w.avsRead k a crc fun w _ =>
    (w, (2 ^ 15 * b2n ((w.f F.SI_AVSSTAT_VDONE k).testBit a) + 2 ^ 14 * b2n ((w.f F.SI_AVSSTAT_ALERT k).testBit a) : Nat))

def execAvsStatusWrite (k a : Nat) (crc : Bool) (s : State) : Res :=
  onW s fun w =>
    if !w.avsOn k then w
    else if !crc then w.emit (.avs 2 0)
    else if (w.avsRails k a).isEmpty then w.emit (.avs 3 0)
    else
      let w := (idxs 4 fun b => (a == 0xF || b == a) && (w.avsRail k b).isSome).foldl (fun w b => w.clrBit F.SI_AVSSTAT_ALERT k b) w
      w.emit (.avs 0 0)

/-! ### I3C (R456, R457) -/

/-- The four bytes of word `i` of a byte list. -/
def wordAt (l : List Nat) (i : Nat) : Nat := fieldAt l (4 * i) 4

/-- The part holds a dynamic address and answers to it. -/
def World.i3cOn (w : World) : Bool := w.busOn && w.fb F.SI_I3CCFG_DA 0

def execPrivateWrite (bytes : List Nat) (s : State) : Res :=
  onW s fun w =>
    if !w.i3cOn then w.emit (.bus none)
    else
      let l := (bytes.take 64).map (· % 256)
      let w := (List.range ((l.length + 3) / 4)).foldl (fun w i => w.sf F.SI_I3CRX_DATA i (wordAt l i)) w
      ((w.sf F.SI_I3CSTAT_RXLEN 0 l.length).sf F.SI_I3CSTAT_RXNEW 0 1).emit (.bus (some []))

def execPrivateRead (n : Nat) (s : State) : Res :=
  onW s fun w =>
    if !w.i3cOn then w.emit (.bus none)
    else
      let l := (List.range 16).flatMap fun i => leBytes 4 (w.f F.SI_I3CTX_DATA i)
      w.emit (.bus (some (l.take (min n (w.f F.SI_I3CCTL_TXLEN 0)))))

/-- The provisional identifier, highest byte first. -/
def i3cPidBytes : List Nat := (leBytes 6 (Config.i3cPid Config.vid (Config.dieId % 65536))).reverse

def execEntdaa (da : Nat) (s : State) : Res :=
  onW s fun w =>
    if w.busOn && !w.fb F.SI_I3CCFG_DA 0 then
      (w.sf F.SI_I3CCFG_DA 0 da).emit (.bus (some (i3cPidBytes ++ [Config.i3cBcr, Config.i3cDcr])))
    else w.emit (.bus none)

def execSetdasa (da : Nat) (s : State) : Res :=
  onW s fun w =>
    if w.busOn && !w.fb F.SI_I3CCFG_DA 0 then (w.sf F.SI_I3CCFG_DA 0 da).emit (.bus (some [])) else w.emit (.bus none)

def execRstdaa (s : State) : Res :=
  onW s fun w => if w.busOn then (w.sf F.SI_I3CCFG_DA 0 0).emit (.bus (some [])) else w.emit (.bus none)

/-- A direct CCC that reads. -/
def World.i3cGet (w : World) (l : List Nat) : World := w.emit (.bus (if w.i3cOn then some l else none))

def execGetpid (s : State) : Res := onW s fun w => w.i3cGet i3cPidBytes
def execGetbcr (s : State) : Res := onW s fun w => w.i3cGet [Config.i3cBcr]
def execGetdcr (s : State) : Res := onW s fun w => w.i3cGet [Config.i3cDcr]
def execGetstatus (s : State) : Res := onW s fun w => w.i3cGet [0, b2n w.side.ibi]

/-- A waiting in-band interrupt is raised when events are enabled and the part has an address. -/
def World.ibiGo (w : World) : World :=
  if w.side.ibi && w.side.i3cEv && w.i3cOn then
    World.emit { w with side := { w.side with ibi := false } } (.bus (some [2 * w.f F.SI_I3CCFG_DA 0 + 1]))
  else w

def execEnec (s : State) : Res :=
  onW s fun w => if w.i3cOn then World.ibiGo { w with side := { w.side with i3cEv := true } } else w

def execDisec (s : State) : Res :=
  onW s fun w => if w.i3cOn then { w with side := { w.side with i3cEv := false } } else w

def execIbi (s : State) : Res :=
  onW s fun w => if w.on 18 then World.ibiGo { w with side := { w.side with ibi := true } } else w

def execI3cAddressMatch (addr : Nat) (write : Bool) (t : Nat) (s : State) : Res :=
  onW s fun w =>
    let w := w.upTo t
    let da := w.f F.SI_I3CCFG_DA 0
    let wa := w.f F.SI_I3CCFG_WAKEADDR 0
    let hitW := addr == wa && wa != 0
    let hitD := addr == da && da != 0
    if !write || !w.padsOwned then w
    else if w.on 18 then (if hitW then (w.emit (.bus (some []))).pulse 0x1BB else w)
    else if hitW || hitD then ((w.emit (.bus (some []))).pulse 0x1BB).wake 1 0
    else w

/-! ### The rope ring (R460 to R463) -/

/-- The node is active on the rope; otherwise the bypass joins its input to its output. -/
def World.ropeOn (w : World) : Bool := w.on 18 && w.fb F.SI_ROPECFG_EN 0

/-- The root sends ENUM: it is node 0, and the next node takes 1. -/
def World.enumSend (w : World) : World :=
  let w := (w.sf F.SI_ROPESTAT_NODE 0 0).sf F.SI_ROPESTAT_NUMBERED 0 1
  World.emit { w with side := { w.side with enumAt := some w.clk.tk } } (.rope ⟨1, 0, 0xF, [1]⟩)

def execCarrierGain (t : Nat) (s : State) : Res :=
  onW s fun w =>
    let w := w.upTo t
    if !w.on 18 then w
    else
      let w := w.sf F.SI_ROPESTAT_CARRIER 0 1
      if !w.ropeOn then w
      else if w.fb F.SI_ROPECFG_ROOT 0 then w.enumSend
      else { w with side := { w.side with enumAt := some w.clk.tk } }

def execRopeEnumRequest (s : State) : Res :=
  onW s fun w => if w.ropeOn && w.fb F.SI_ROPECFG_ROOT 0 then w.enumSend else w

/-- An ENUM frame with count `count`. -/
def World.enumIn (w : World) (count : Nat) : World :=
  if w.fb F.SI_ROPECFG_ROOT 0 then
    if w.side.enumAt.isSome then { w with side := { w.side with enumAt := none } } else w.sf F.SI_ROPEERR_ROOT 0 1
  else
    let w := { w with side := { w.side with enumAt := none } }
    if 16 ≤ count then
      ((w.sf F.SI_ROPESTAT_NUMBERED 0 0).sf F.SI_ROPEERR_OVER 0 1).emit (.rope ⟨1, 0, 0xF, [count]⟩)
    else ((w.sf F.SI_ROPESTAT_NODE 0 count).sf F.SI_ROPESTAT_NUMBERED 0 1).emit (.rope ⟨1, 0, 0xF, [count + 1]⟩)

def execEnum (count t : Nat) (s : State) : Res :=
  onW s fun w => let w := w.upTo t; if w.ropeOn then w.enumIn count else w.emit (.rope ⟨1, 0, 0xF, [count]⟩)

def execEnumTimeout (t : Nat) (s : State) : Res :=
  onW s fun w =>
    let w := w.upTo t
    match w.side.enumAt with
    | some a =>
      if w.ropeOn ∧ a + 128 * 100000 ≤ w.clk.tk then
        World.sf { w with side := { w.side with enumAt := none } } F.SI_ROPEERR_ROOT 0 1
      else w
    | none => w

/-- SYNC's payload: T0 in ns and ACC in 7.8125 ps ticks. -/
def syncPay (t0 acc : Nat) : List Nat := leBytes 8 t0 ++ leBytes 4 acc

def execRopeSyncSend (t : Nat) (s : State) : Res :=
  onW s fun w =>
    let w := w.upTo t
    let per := w.f F.SI_ROPECFG_SYNCPER 0 * 1000
    if w.ropeOn && w.fb F.SI_ROPECFG_ROOT 0 && per != 0 && w.tb % per == 0 then w.emit (.rope ⟨2, 0, 0xF, syncPay w.tb 0⟩) else w

/-- A SYNC frame arrives at the node's own Time Base: the offset in 1/128 ns steers when the rope is the source. -/
def World.syncIn (w : World) (t0 acc : Nat) : World :=
  let cab := w.f F.SI_ROPECAB_CAB 0
  let x : Int := 128 * (t0 : Int) + (acc + cab : Nat) - w.clk.tbq
  let w := w.pulse 0x1BE
  let w := w.when (w.f F.TB_SYNC_SRC 0 == 2 && !w.follows && w.on 17) fun w => w.servo x (w.f F.SI_ROPECFG_SYNCPER 0 * 1000)
  w.emit (.rope ⟨2, 0, 0xF, syncPay t0 (acc + cab + 7680)⟩)

def execSync (t0 acc t : Nat) (s : State) : Res :=
  onW s fun w =>
    let w := w.upTo t
    if !w.ropeOn then w.emit (.rope ⟨2, 0, 0xF, syncPay t0 acc⟩)
    else if w.fb F.SI_ROPECFG_ROOT 0 then w
    else w.syncIn t0 acc

/-- The node's own number, when it holds one. -/
def World.ropeNode (w : World) : Option Nat :=
  if w.fb F.SI_ROPESTAT_NUMBERED 0 then some (w.f F.SI_ROPESTAT_NODE 0) else none

def execRopeFrameForward (x : RopeFrame) (good : Bool) (t : Nat) (s : State) : Res :=
  onW s fun w =>
    let w := w.upTo t
    if !w.ropeOn then w.emit (.rope x)
    else
      let w := w.when (!good) fun w => w.sf F.SI_ROPEERR_CRC 0 1
      if w.ropeNode = some x.src ∨ w.ropeNode = some x.dst then w else w.emit (.rope x)

def execRopeLos (t : Nat) (s : State) : Res :=
  onW s fun w =>
    let w := w.upTo t
    if w.on 18 then (w.sf F.SI_ROPESTAT_CARRIER 0 0).sf F.SI_ROPEERR_LOS 0 1 else w

end Sys2Proof.Machine
end

