-- ==== Sys2Proof/Machine/Startup.lean ====
section
/-! DEFINITION. Start-up: supplies, crystal, the islands in their order, retention checks, wipes, Base Camp service, core
starts, power loss (R274, R280 to R296, R330). -/

namespace Sys2Proof.Machine

/-! ### Cores start (R294, R295, R297, R330) -/

/-- Cores may run in this life-cycle state. -/
def World.coresFree (w : World) : Bool := let l := w.f F.LC_STATE_STATE 0; l == 2 || l == 3 || l == 4

/-- A core in CORE reset starts at word address `pc` with MODE at its reset value; C0 halts first under HALT. -/
def World.startCore (w : World) (c pc : Nat) : World :=
  let halt := c == 0 && w.fb F.GL_BOOTOPT_HALT 0
  w.setCore c { st := if halt then 3 else 1, pc := pc / 2 * 2, since := w.clk.tk }

/-- The TCM wipe of a core's copies has ended. -/
def World.tcmReady (w : World) (c : Nat) : Bool := (w.physCores c).all fun k => !w.wiping.testBit k

/-- CX_CTL.START of logical core `c`. -/
def World.coreStart (w : World) (c : Nat) : World :=
  if w.nCores ≤ c ∨ w.on (w.coreIsl c) = false ∨ (w.core c).st ≠ 0 ∨ w.tcmReady c = false ∨ w.coresFree = false
      ∨ w.recovery ∨ (w.split = false ∧ w.fb F.LS_STAT_HELD c) then w
  else w.startCore c (w.f F.CX_ENTRY_ADDR (w.phys c))

def execCoreStart (c : Nat) (s : State) : Res := onW s fun w => w.coreStart c

/-- A pair that a miscompare reset starts again once its wipe has ended (R361). -/
def World.restartPairs (w : World) : World :=
  (List.range w.nCores).foldl (fun w c =>
    if (w.core c).restart ∧ (w.core c).st = 0 ∧ w.tcmReady c then w.startCore c (w.f F.CX_ENTRY_ADDR (w.phys c)) else w) w

/-! ### Wipes (R285) -/

/-- The wipe of memory `k` ends. -/
def World.wipeDone (w : World) (k : Nat) : World :=
  let w := { w with wiping := if w.wiping.testBit k then w.wiping - 2 ^ k else w.wiping }
  w.showWipe.restartPairs

def execWipeDone (k : Nat) (s : State) : Res := onW s fun w => w.wipeDone k

/-! ### Supplies and crystal (R280, R282, R284, R293) -/

def World.setCause (w : World) (c : Nat) : World :=
  [F.GL_RSTCAUSE_POR, F.GL_RSTCAUSE_PIN, F.GL_RSTCAUSE_PLOSS, F.GL_RSTCAUSE_OFFEXIT, F.GL_RSTCAUSE_FW,
    F.GL_RSTCAUSE_HOST, F.GL_RSTCAUSE_DBG, F.GL_RSTCAUSE_LC].zipIdx.foldl (fun w e => w.sf e.1 0 (b2n (e.2 == c))) w

/-- Every supply is good and RESET_N is high: straps are sampled; `holdOk` is CRN_HOLD above its good level (R489). -/
def World.suppliesGood (w : World) (straps : Nat) (pair sel holdOk : Bool) : World :=
  let w := { w with pins := { w.pins with blpair := pair, blsel := sel }, pwr := { w.pwr with straps := straps % 4 } }
  let w := (w.sf F.CRN_STAT_HOLDLOW 0 (b2n !holdOk)).sf F.BL_STAT_SEL 0 (b2n sel)
  let w := (List.range 22).foldl (fun w n => if n = 3 ∨ w.on n then w.strapRegs n else w) w
  if w.pwr.off then
    let w := (w.setCause 3).wakeLast 6 true
    World.startAll { w with pwr := { w.pwr with off := false, sent := 4, chk := true, ret := 0x801, phase := 2 } }
  else if w.pwr.loss then
    let w := w.setCause 2
    World.startAll { w.takeOptions with pwr := { w.pwr with loss := false, chk := true, ret := 0x801, phase := 2 } }
  else
    let w := w.when (!w.fb F.GL_RSTCAUSE_PIN 0) fun w => w.setCause 0
    (World.takeOptions { w with pwr := { w.pwr with phase := 1 } }).start .xtal

def execSuppliesGood (straps : Nat) (pair sel holdOk : Bool) (t : Nat) (s : State) : Res :=
  onW s fun w => let w := w.upTo t; if w.pwr.phase = 0 ∨ w.pwr.off then w.suppliesGood straps pair sel holdOk else w

/-- The crystal is good: T1 follows with PLL lock, and the islands are to start from then on. -/
def execXtalGood (t : Nat) (s : State) : Res :=
  onW s fun w =>
    let w := w.upTo t
    if w.pwr.phase = 1 then (World.sf { w with pwr := { w.pwr with phase := 2 } } F.GL_BOOTSTAT_STAGE 0 1).startAll else w

/-- The crystal is not good after 2 ms; start-up goes on waiting. -/
def execXtalFail (t : Nat) (s : State) : Res :=
  onW s fun w => let w := w.upTo t; if w.pwr.phase = 1 ∧ w.past .xtal 2000000 then w.sf F.GL_BOOTSTAT_XTALFAIL 0 1 else w

/-! ### Base Camp service (R287 to R291) -/

/-- Base Camp service runs. -/
def World.bcOn (w : World) : Bool := w.fb F.GL_BOOTOPT_BCEN 0 && w.coresFree

def World.bcPhases (w : World) (e : Nat) : List Nat :=
  (List.range (bitsOf (w.bcEntry e 0) 23 6)).map (· + bitsOf (w.bcEntry e 0) 16 7)

/-- The LE_TARGET code of an entry. -/
def World.bcCode (w : World) (e : Nat) : Int :=
  rdiv (bitsOf (w.bcEntry e 1) 0 20 * 16384 : Nat) (bitsOf (w.bcEntry e 2) 0 16)

/-- The limit of its own that the entry breaks first, as the place of its test in R288's list; none for an entry within them all. -/
def World.bcBad (w : World) (e : Nat) : Option Nat :=
  let r := w.bcRail e
  let nb := bitsOf (w.bcEntry e 0) 23 6
  let nph := bitsOf (w.bcEntry e 2) 16 6
  let step := bitsOf (w.bcEntry e 1) 20 7
  if w.nRails ≤ r then some 2
  else if (w.bcPhases e).any fun p => decide (w.nPhases ≤ p) || grpP p != grpR r then some 3
  else if nb = 0 ∨ 32 < nb ∨ nph = 0 ∨ nb < nph ∨ step = 0 ∨ 64 < step then some 4
  else if bitsOf (w.bcEntry e 2) 0 16 < 0x4000 ∨ w.bcCode e < 1 ∨ 262143 < w.bcCode e then some 5
  else none

/-- The test that entry `e` fails behind the entries `l`, which were not skipped: 2 its rail, 3 its phases, 4 NB, NPH or STEP, 5 RATIO or
LE_TARGET (R288). -/
def World.bcTest (w : World) (l : List Nat) (e : Nat) : Option Nat :=
  if l.any fun d => w.bcRail d == w.bcRail e then some 2
  else if (w.bcPhases e).any fun p => l.any fun d => (w.bcPhases d).contains p then some 3
  else w.bcBad e

/-- The entries that are not skipped, among the first `n`. -/
def World.bcTaken (w : World) : Nat → List Nat
  | 0 => []
  | n + 1 =>
    let l := w.bcTaken n
    if !bitOf (w.bcEntry n 0) 0 || (w.bcTest l n).isSome then l else l ++ [n]

/-- Service begins, after a reset, an exit from Off or a power loss (R290): skipped entries are shown and recorded, the other entries'
gates close (R288, R291). -/
def World.bcBegin (w : World) : World :=
  if !w.bcOn then w
  else
    let l := w.bcTaken 8
    let w := ((w.sf F.GL_BCSTAT_STARTED 0 0).sf F.GL_BCSTAT_SKIP 0 0).sf F.GL_BCSTAT_DONE 0 0
    let w := (idxs 8 fun e => bitOf (w.bcEntry e 0) 0 && !l.contains e).foldl (fun w e =>
      (w.orBit F.GL_BCSTAT_SKIP 0 e).cairn 0x12 (leBytes 4 e ++ leBytes 4 ((w.bcTest (w.bcTaken e) e).getD 0))) w
    l.foldl (fun w e => w.sf F.LE_RSTATE_GATE (w.bcRail e) 1) w

/-- A field and its copy in force both take `v`. -/
def World.both (w : World) (B : Fld) (i v : Nat) : World := (w.sf B i v).adopt B i

/-- The register values of entry `e` (R289). -/
def World.bcWrite (w : World) (e : Nat) : World :=
  let r := w.bcRail e
  let e0 := w.bcEntry e 0
  let e1 := w.bcEntry e 1
  let e2 := w.bcEntry e 2
  let e3 := w.bcEntry e 3
  let ps := w.bcPhases e
  let w := ps.zipIdx.foldl (fun w x =>
    let w := ((w.sf F.PW_BIND_EN x.1 1).sf F.PW_BIND_RAIL x.1 r).sf F.PW_BIND_LANE x.1 x.2
    ((w.bindPhase x.1).sf F.PCC_KA_KA x.1 (bitsOf (w.otpWord 0) 0 24)).sf F.PROT_PCFG_THR x.1 (bitsOf e3 20 10)) w
  let w := w.bindShow [r]
  let w := ((w.both F.PW_PER_PER r 512000).both F.PW_RAILPH_PH r (r % 8 * 64000)).both F.PW_RAILCFG_MOD r 0
  let w := (w.both F.PW_RAILCFG_BOOT r (bitsOf e2 24 8)).both F.PW_RAILCFG_MIDDRV r (bitsOf e0 15 1)
  let w := (w.both F.PW_DT_DTHL r (bitsOf (w.otpWord 1) 0 10)).both F.PW_DT_DTLH r (bitsOf (w.otpWord 1) 16 10)
  let w := ((w.both F.LE_FORM_FORM r 6).both F.LE_RATE_ROUNDS r 16).sf F.LE_STAT_ROUNDS_NOW r 16
  let w := ((w.loadSet r (bitsOf e0 13 2)).both F.LE_RAMP_STEP r (bitsOf e1 20 7)).sf F.RSC_DIVR_RATIO r (bitsOf e2 0 16)
  let w := (w.sf F.LE_TARGET_CODE r (w.bcCode e).toNat).sf F.PW_NREQ_NREQ r (bitsOf e2 16 6)
  let w := ((w.sf F.PROT_VCFG_EN (2 * r) 1).sf F.PROT_VCFG_REL (2 * r) 0).sf F.PROT_VCFG_THR (2 * r) (bitsOf e3 0 10)
  ((w.sf F.PROT_VCFG_EN (2 * r + 1) 1).sf F.PROT_VCFG_REL (2 * r + 1) 0).sf F.PROT_VCFG_THR (2 * r + 1) (bitsOf e3 10 10)

/-- Entry `e`'s rail starts; `sense` is the sense voltage that PREBIAS converts, in DAC units (R236, R289, R553).  A rail that came up
latched is not started (R188). -/
def World.bcStart (w : World) (e : Nat) (sense : Int) : World :=
  let r := w.bcRail e
  if w.rstate r ≠ rsOff then w.sf F.LE_RSTATE_GATE r 0
  else
    let w := w.bcWrite e
    let (w, ref) := if bitOf (w.bcEntry e 0) 12 then w.prebias r sense else (w, 0)
    ((w.startRail r ref true).orBit F.GL_BCSTAT_STARTED 0 e).sf F.LE_RSTATE_GATE r 0

def execBasecampStart (e : Nat) (sense : Int) (t : Nat) (s : State) : Res :=
  onW s fun w =>
    let w := w.upTo t
    let r := w.bcRail e
    if w.bcOn ∧ (w.bcTaken 8).contains e ∧ w.fb F.LE_RSTATE_GATE r ∧ (w.f F.GL_BCSTAT_STARTED 0).testBit e = false
        ∧ w.on (snIsl r) ∧ w.on (leIsl r) ∧ w.on (pwIslR r) ∧ w.padsOwned
        ∧ w.afterT1 (48000 + 10000 * bitsOf (w.bcEntry e 0) 6 6) then w.bcStart e sense
    else w

/-! ### Islands (R274, R281, R295) -/

/-- Island `n` may start now: asked for, its instant of the order from T1 has come, and none before it is still to start. -/
def World.mayStart (w : World) (n : Nat) : Bool :=
  w.pwr.phase == 2 && w.afterT1 (4000 * startOrder.findIdx fun k => k == n) && w.pwr.toStart.testBit n && !w.absent n && !w.on n
  && (startOrder.takeWhile fun k => k != n).all (fun k => !w.pwr.toStart.testBit k)
  && (n != 13 || w.on 12)

/-- Converter `r` starts from the factory trims of OTP (R45). -/
def World.senseFromOtp (w : World) (r : Nat) : World :=
  let w := (w.setConverter r {}).sf F.RSC_STAT_FIRSTUSE r 1
  (List.range 8).foldl (fun w s =>
    ((w.sf F.RSC_CORR_GAIN_GAIN (8 * r + s) (F.RSC_CORR_GAIN_GAIN.reset (8 * r + s))).sf F.RSC_CORR_OFS_OFS (8 * r + s)
      (F.RSC_CORR_OFS_OFS.reset (8 * r + s))).sf F.RSC_CORR_SKEW_SKEW (8 * r + s) (F.RSC_CORR_SKEW_SKEW.reset (8 * r + s))) w

/-- Retained banks are checked before any core runs or any register answers; `lost` are those that fail (R274). -/
def World.checkBanks (w : World) (m : Mem) (lost : Nat) : Mem × World :=
  let bad := w.pwr.ret &&& lost
  let w := { w with pwr := { w.pwr with chk := false, ret := w.pwr.ret &&& (0xFFF ^^^ bad) } }
  if bad = 0 then (m, w)
  else
    let m := wipeMem m (idxs 9 (heldMem bad))
    let w := if bad.testBit 0 then (List.range w.nRails).foldl (fun w r => w.senseFromOtp r) w else w
    let w := if bad.testBit 10 then w.resetRegs fun B n => B.cls == .island && heldField B && n != 0 && n != 22 else w
    let w := if bad.testBit 11 then { w.resetRegs fun B _ => ledgerField B && B.cls == .warm with led := mmapv {} Led.newWindow w.led } else w
    let w := (w.sf F.PM_RETLOST_LOST 0 (w.f F.PM_RETLOST_LOST 0 ||| bad)).sf F.PM_WAKE_LAST_CAUSE 0 0xF
    (m, w.cairn 0x13 (leBytes 4 bad))

/-- Converters of SNA or SNB start from the retained estimates, or from OTP with FIRSTUSE = 1 (R45, R46). -/
def World.startSense (w : World) (b : Bool) : World :=
  (w.railsOf b).foldl (fun w r =>
    match (w.converter r).kept with
    | none => w
    | some (g, o, k) =>
      let w := w.setConverter r { gain := g, ofs := o, skew := k }
      let w := (List.range 8).foldl (fun w s =>
        ((w.sfI F.RSC_CORR_GAIN_GAIN (8 * r + s) (satS 16 (rdiv (mget 0 g s) 10000))).sfI F.RSC_CORR_OFS_OFS (8 * r + s)
          (satS 16 (rdiv (mget 0 o s) 10000))).sfI F.RSC_CORR_SKEW_SKEW (8 * r + s) (clampI (-200) 200 (rdiv (mget 0 k s) 10000))) w
      w.sf F.RSC_STAT_FIRSTUSE r 0) w

/-- BOOT record: causes, boot status, FW_CHK of both banks, VERSION and SVN of the image run (R485). -/
def World.bootRec (w : World) (svn : Nat) : World :=
  w.cairn 1 (leBytes 4 (w.regVal R.GL_RSTCAUSE 0) ++ leBytes 4 (w.regVal R.GL_BOOTSTAT 0) ++ leBytes 4 (w.regVal R.FW_CHK 0)
    ++ leBytes 4 (w.regVal R.FW_CHK 1) ++ leBytes 4 (w.f F.FW_VER_VERSION (w.f F.FW_STAT_ACTIVE 0)) ++ leBytes 4 svn)

/-- CRN runs: a COLD start is counted, an incomplete record is told (R486, R493). -/
def World.startCairn (w : World) : World :=
  let w := w.when w.crn.torn fun w => World.sf { w with crn := { w.crn with torn := false } } F.CRN_ERR_TORN 0 1
  let w := w.when w.pwr.cold fun w => World.inc { w with pwr := { w.pwr with cold := false } } F.CRN_BOOTN_BOOTN 0
  w.when (!w.coresFree && w.pwr.sent == 0) fun w => w.bootRec 0

/-- The TCM banks of C0 were retained and passed (R295). -/
def World.c0Held (w : World) : Bool := (w.physCores 0).all fun k => w.pwr.ret.testBit (k + 1)

/-- CXA runs: on a wake with GL_WAKECTL.EN and C0's banks held, C0 starts at GL_WAKEVEC; else a boot check follows. -/
def World.startCxa (w : World) : World :=
  if w.pwr.sent = 4 ∧ w.fb F.GL_WAKECTL_EN 0 ∧ w.c0Held ∧ w.coresFree then
    (w.startCore 0 (w.f F.GL_WAKEVEC_VEC 0)).sf F.GL_BOOTSTAT_STAGE 0 3
  else if w.pwr.sent = 4 ∨ w.f F.GL_BOOTSTAT_STAGE 0 = 1 then w.sf F.GL_BOOTSTAT_STAGE 0 2
  else w

/-- The last island of a wake runs: SENTINEL_IND falls. -/
def World.wakeDone (w : World) : World :=
  if w.pwr.toStart = 0 ∧ w.pwr.sent = 4 then
    (World.pulse { w with noFetch := false, sentArmed := false, pwr := { w.pwr with sent := 0, ind := false, ret := 0, downs := false } } 0x1BC).showPm
  else w

/-- Island `n` starts; `lost` are the retained banks whose check fails. -/
def World.islandStart (w : World) (m : Mem) (n lost : Nat) : Mem × World :=
  let (m, w) := if w.pwr.chk then w.checkBanks m lost else (m, w)
  let held (k : Nat) : Bool := w.pwr.sent == 4 && heldMem w.pwr.ret k
  let regs := w.pwr.sent == 4 && w.pwr.ret.testBit 10
  let w := { w with pwr := { w.pwr with toStart := w.pwr.toStart - 2 ^ n } }.setOn n true
  let w := w.when (!regs) fun w => (w.when (n == 17) fun w => w.resetIslRegs 17).strapRegs n
  let wipes := (wipesOf n).filter fun k => !held k
  let m := wipeMem m wipes
  let w := w.startWipe wipes
  let w := match n with
    | 4 => w.startSense false
    | 5 => w.startSense true
    | 8 => if regs then w else (w.railsOf false).foldl (fun w r => w.loadSet r (w.bcSet r)) w
    | 9 => if regs then w else (w.railsOf true).foldl (fun w r => w.loadSet r (w.bcSet r)) w
    | 12 => w.startCxa
    | 14 => w.when (w.fb F.LC_STATE_WIPEPEND 0) fun w => w.sf F.GL_BOOTSTAT_STAGE 0 5
    | 15 => if w.pwr.sent = 4 ∧ !w.fb F.GL_RSTCAUSE_OFFEXIT 0 then w else w.bcBegin
    | 16 => w.startCairn
    | _ => w
  (m, (w.wakeDone).showRings)

def execIslandStart (n lost t : Nat) (s : State) : Res :=
  onM s fun m w => let w := w.upTo t; if w.mayStart n then w.islandStart m n lost else (m, w)

/-! ### Power loss (R284) -/

/-- VDDC, VDDP or VDDA is removed with SENTINEL_IND low. -/
def World.powerLoss (w : World) (m : Mem) (held : Bool) : Mem × World :=
  let (m, w) := w.crnLoss m held
  let w := (List.range w.nRails).foldl World.restartForecasts w
  let w := (idxs 22 w.on).foldl World.holdPads w
  let w := (w.sf F.BL_STAT_OWN 0 0).unpair
  let (m, w) := w.loseSupplies m
  (m, { w with pwr := { phase := 0, loss := true, cold := false, straps := w.pwr.straps, inFrac := w.pwr.inFrac } })

def execPowerLoss (held : Bool) (t : Nat) (s : State) : Res :=
  onM s fun m w =>
    let w := w.upTo t
    if w.pwr.ind ∨ w.pwr.phase ≠ 2 then (m, w) else w.powerLoss m held

end Sys2Proof.Machine
end

