-- ==== Sys2Proof/Machine/Firmware.lean ====
section
/-! DEFINITION. Firmware images, staging, the rope's images, the settings port, keys and authorisation, the life cycle
(R293 to R303, R375, R465 to R483). -/

namespace Sys2Proof.Machine

/-! ### Flash -/

/-- First byte of physical bank `b`; a bank is 4 MiB (R28, R465). -/
def bankByte (b : Nat) : Nat := 2 * (0x01000000 + b * 0x200000)

/-- Bytes of physical bank `b` from offset `o`. -/
def bankBytes (m : Mem) (b o n : Nat) : List Nat := m.getBytes (bankByte b + o) n

/-- A header field of physical bank `b` (R466). -/
def hdr (m : Mem) (b o n : Nat) : Nat := leVal (bankBytes m b o n)

/-! ### The boot check (R294, R467) -/

/-- The hash in key slot `k`. -/
def World.slotHash (w : World) (k : Nat) : List Nat := if k < 4 then Config.vendorKey k else mget [] w.sec.keys k

/-- Slot `k` is filled and not revoked. -/
def World.slotOk (w : World) (k : Nat) : Bool :=
  decide (k < 8) && (w.f F.SEC_KEYSTAT_FILLED 0).testBit k && !(w.f F.SEC_KEYSTAT_REVOKED 0).testBit k

/-- The first check that physical bank `b` fails, as FW_CHK.RESULT; 1 when it passes them all. -/
def World.bankCheck (w : World) (m : Mem) (b : Nat) (ecc : Bool) : Nat :=
  let zero (l : List Nat) : Bool := l.all fun x => x == 0
  let len := hdr m b 16 4
  let entry := hdr m b 20 4
  let rom := w.f F.LE_UCODE_VER_ROMVER 0
  let slot := hdr m b 29 1
  let pub := bankBytes m b 64 96
  if hdr m b 0 4 ≠ 0x4D49584C ∨ hdr m b 4 2 ≠ 1 ∨ !zero (bankBytes m b 38 26) ∨ !zero (bankBytes m b 304 208) then 2
  else if len < 64 ∨ 3931648 < len ∨ len % 64 ≠ 0 ∨ entry % 2 ≠ 0 ∨ entry < 0x01000100 ∨ 0x01000100 + len / 2 ≤ entry then 3
  else if (hdr m b 28 1).testBit (b2n w.lx1264) = false then 4
  else if rom < hdr m b 24 2 ∨ hdr m b 26 2 < rom then 5
  else if w.slotOk slot = false ∨ Config.sha384 pub ≠ w.slotHash slot then 6
  else if Config.ecdsa pub (Config.sha384 (bankBytes m b 0 208)) (bankBytes m b 208 96) = false then 7
  else if hdr m b 12 4 < w.f F.SEC_SVNMIN_SVN 0 then 8
  else if Config.sha384 (bankBytes m b 512 len) ≠ bankBytes m b 160 48 then 9
  else if ecc then 0xA
  else 1

/-- Bank `b` is checked: FW_CHK and FW_VER take the result. -/
def World.checkBank (w : World) (m : Mem) (b ecc : Nat) : World × Bool :=
  let r := w.bankCheck m b (ecc.testBit b)
  let w := ((w.sf F.FW_CHK_RESULT b r).sf F.FW_CHK_CLASS b (hdr m b 6 2)).sf F.FW_VER_VERSION b (hdr m b 8 4)
  (w.when (r != 1) fun w => w.orBit F.GL_BOOTSTAT_BAD 0 b, r == 1)

/-- The IMAGE_BAD record of bank `b`. -/
def World.imageBad (w : World) (b : Nat) : World := w.cairn 0x20 (leBytes 4 b ++ leBytes 4 (w.regVal R.FW_CHK b))

/-- The image of bank `b` runs: C0 starts at its entry (R294, R375). -/
def World.bootFrom (w : World) (m : Mem) (b : Nat) (fallback : Bool) : World :=
  let w := ((w.sf F.FW_STAT_ACTIVE 0 b).sf F.GL_BOOTSTAT_BANK 0 b).sf F.GL_BOOTSTAT_STAGE 0 3
  let w := w.sf F.GL_BOOTSTAT_FALLBACK 0 (b2n fallback)
  let w := if fallback then w.sf F.BL_STAT_UPD 0 0
    else if w.f F.BL_STAT_UPD 0 = 2 then w.sf F.BL_STAT_UPD 0 (if w.pins.blpair && w.fb F.BL_CFG_EN 0 then 3 else 0)
    else w
  (w.bootRec (hdr m b 12 4)).startCore 0 (hdr m b 20 4)

/-- The boot check completes; `ecc` has a bit for each physical bank in which an uncorrectable error was read. -/
def World.bootCheck (w : World) (m : Mem) (ecc : Nat) : World :=
  let b := w.f F.FW_STAT_BOOTSEL 0
  let (w, ok) := w.checkBank m b ecc
  if ok then w.bootFrom m b false
  else
    let (w, ok2) := w.checkBank m (1 - b) ecc
    let w := w.imageBad b
    if ok2 then w.bootFrom m (1 - b) true
    else (w.sf F.GL_BOOTSTAT_STAGE 0 4).bootRec 0

def execBootCheck (ecc t : Nat) (s : State) : Res :=
  onW s fun w =>
    let w := w.upTo t
    if w.f F.GL_BOOTSTAT_STAGE 0 = 2 ∧ w.on 12 ∧ w.on 14 ∧ w.on 20 ∧ w.tcmReady 0 ∧ w.coresFree ∧ (w.core 0).st = 0
        ∧ w.fb F.LC_STATE_WIPEPEND 0 = false then w.bootCheck s.mem ecc
    else w

/-! ### Staging (R470, R471) -/

/-- The staging at the head of the queue ends. -/
def World.dropJob (w : World) : World :=
  let w := { w with fwq := w.fwq.tail }
  w.sf F.FW_STAT_STAGING 0 (b2n (w.fwq.any fun j => j.cmd.isSome))

/-- FW_ACTIVATEs whose earlier FW_STAGEs have all completed complete (R472). -/
def World.stagedWaits (w : World) : World :=
  let busy (c : Cmd) : Bool := w.fwq.any fun j => j.cmd.any fun d => decide (d.stamp < c.stamp)
  w.completeWaits (fun x => x.on == .staged && !busy x.cmd) stOk 0

/-- The head staging ends with a status: its command completes, or its rope reception will be NAKed. -/
def World.failJob (w : World) (j : FwJob) (status xstat : Nat) : World :=
  let w := w.dropJob
  match j.cmd with
  | some c => (w.complete c status xstat 0).stagedWaits
  | none => match w.side.rx with
    | some x => { w with side := { w.side with rx := some { x with cause := some xstat, buf := [] } } }
    | none => w

/-- One sector: bytes from `pos` to the sector's end or the range's. -/
def FwJob.sectorLen (j : FwJob) : Nat := min (j.off + j.len) ((j.pos / 4096 + 1) * 4096) - j.pos

/-- The sector that holds `pos` is erased and the bytes programmed. -/
def programSector (m : Mem) (j : FwJob) (l : List Nat) : Mem :=
  let s := bankByte j.bank + j.pos / 4096 * 4096
  (m.erase s (s + 4096)).setBytes (bankByte j.bank + j.pos) l

/-- The head staging moves past `n` bytes. -/
def World.moveJob (w : World) (j : FwJob) (n : Nat) : World :=
  { w with fwq := { j with pos := j.pos + n } :: w.fwq.tail }

/-- The next sector of the head staging; `ans` is what host memory gave for a FW_STAGE. -/
def World.stageSector (w : World) (m : Mem) (ans : ReadAns) : Mem × World :=
  match w.fwq with
  | [] => (m, w)
  | j :: _ =>
    let n := j.sectorLen
    if n = 0 then (m, w)
    else match w.updateRefused with
    | some x => (m, w.failJob j stUpdate x)
    | none =>
      match j.cmd with
      | some _ =>
        if !w.linkReady || w.headReady || w.pcie.np == some 0 then (m, w)
        else
        let w := World.emit { w with pcie := { w.pcie with np := w.pcie.np.map (· - 1) } } (.hostRead (j.addr + (j.pos - j.off)) n)
        match ans with
        | .error e => (programSector m j [], w.failJob j stXfer e)
        | .data bs =>
          let l := bs.flatten
          (programSector m j ((List.range n).map fun i => l.getD i 0 % 256), w.moveJob j n)
      | none => match w.side.rx with
        | none => (m, w)
        | some x =>
          if x.buf.length < n then (m, w)
          else
            let w := w.moveJob j n
            let w := { w with side := { w.side with rx := some { x with buf := x.buf.drop n } } }
            (programSector m j (x.buf.take n), w.sf F.FW_RXSTAT_BYTES 0 ((j.pos + n) / 64))

def execStageSectorErase (ans : ReadAns) (s : State) : Res :=
  onM s fun m w => if w.on 14 then w.stageSector m ans else (m, w)

/-- A rope frame of this node. -/
def World.ropeSend (w : World) (typ dst : Nat) (pay : List Nat) : World :=
  w.when w.ropeOn fun w => w.emit (.rope ⟨typ, w.f F.SI_ROPESTAT_NODE 0, dst, pay⟩)

/-- Bytes 0 to 7 of an IMAGE payload (R475). -/
def imgHead (sub xid arg : Nat) : List Nat := [sub, 0] ++ leBytes 2 xid ++ leBytes 4 arg

/-- The reception ends: RXBUSY clears. -/
def World.endRx (w : World) : World :=
  World.sf { w with side := { w.side with rx := none }, fwq := w.fwq.filter fun j => j.cmd.isSome } F.FW_STAT_RXBUSY 0 0

/-- CLOSE is acknowledged. -/
def World.ackClose (w : World) (x : RopeRx) : World := (w.endRx).ropeSend 4 x.src (imgHead 3 x.xid 0)

def World.stagingDone (w : World) : World :=
  match w.fwq with
  | [] => w
  | j :: _ =>
    if j.sectorLen ≠ 0 then w
    else
      let w := w.dropJob
      match j.cmd with
      | some c => (w.complete c stOk 0 0).stagedWaits
      | none => match w.side.rx with
        | some x => if x.close then w.ackClose x else w
        | none => w

def execStagingDone (s : State) : Res := onW s fun w => if w.on 14 then w.stagingDone else w

/-! ### Images on the rope: the sender (R475, R476) -/

/-- The transfer ends with RESULT 1 DONE, 2 TIMEOUT or 3 REFUSED. -/
def World.endTx (w : World) (res : Nat) : World :=
  World.sf (World.sf { w with side := { w.side with tx := none } } F.FW_RSEND_BUSY 0 0) F.FW_RSEND_RESULT 0 res

def World.putTx (w : World) (x : RopeTx) : World := { w with side := { w.side with tx := some x } }

/-- One frame of the transfer, from the bank as it stands. -/
def World.sendFrame (w : World) (m : Mem) (x : RopeTx) (sub arg : Nat) : World :=
  let data := if sub = 2 then bankBytes m x.bank arg (min 240 (x.len - arg)) else []
  w.ropeSend 3 x.dst (imgHead sub x.xid arg ++ data)

/-- DATA frames go out until eight are unacknowledged; CLOSE follows the last acknowledgement. -/
def World.fillWin (w : World) (m : Mem) (x : RopeTx) : Nat → World
  | 0 => w.putTx x
  | n + 1 =>
    if x.next < x.len ∧ x.win.length < 8 then
      (w.sendFrame m x 2 x.next).fillWin m { x with next := min x.len (x.next + 240), win := x.win ++ [(x.next, 0, w.clk.tk)] } n
    else if x.len ≤ x.next ∧ x.win = [] then (w.sendFrame m x 3 0).putTx { x with stage := 2, tries := 0, at_ := w.clk.tk }
    else w.putTx x

/-- FW_RSEND.START. -/
def World.rsendStart (w : World) : World :=
  if w.fb F.FW_RSEND_BUSY 0 then w
  else
    let x : RopeTx := { xid := w.side.xid, dst := w.f F.FW_RSEND_DST 0, bank := w.f F.FW_RSEND_BANK 0, len := w.f F.FW_RSLEN_LENGTH 0, at_ := w.clk.tk }
    let w := (w.sf F.FW_RSEND_BUSY 0 1).sf F.FW_RSEND_RESULT 0 0
    let w := w.ropeSend 3 x.dst (imgHead 1 x.xid x.len)
    { w with side := { w.side with tx := some x, xid := (x.xid + 1) % 65536 } }

def execFwRsendStart (s : State) : Res := onW s fun w => if w.on 14 && w.on 18 then w.rsendStart else w

/-- An ACK with bytes 0 to 7 of the frame it answers. -/
def World.ropeAck (w : World) (m : Mem) (sub xid arg : Nat) : World :=
  match w.side.tx with
  | none => w
  | some x =>
    if x.xid ≠ xid then w
    else match x.stage, sub with
      | 0, 1 => w.fillWin m { x with stage := 1 } 9
      | 1, 2 =>
        if x.win.any fun e => e.1 == arg then w.fillWin m { x with win := x.win.filter fun e => e.1 != arg } 9 else w
      | 2, 3 => w.endTx 1
      | _, _ => w

def execRopeAck (sub xid arg : Nat) (s : State) : Res :=
  onW s fun w => if w.ropeOn && w.on 14 then w.ropeAck s.mem sub xid arg else w

/-- A frame is resent; after four resends the transfer ends with TIMEOUT. -/
def World.ropeResend (w : World) (m : Mem) (x : RopeTx) (sub arg : Nat) : World :=
  if x.stage = 1 ∧ sub = 2 then
    match x.win.find? fun e => e.1 == arg with
    | none => w
    | some e =>
      if 4 ≤ e.2.1 then w.endTx 2
      else (w.sendFrame m x 2 arg).putTx { x with win := x.win.map fun (d : Nat × Nat × Nat) => if d.1 = arg then (d.1, d.2.1 + 1, w.clk.tk) else d }
  else if (x.stage = 0 ∧ sub = 1) ∨ (x.stage = 2 ∧ sub = 3) then
    if 4 ≤ x.tries then w.endTx 2
    else (w.sendFrame m x sub (if sub = 1 then x.len else 0)).putTx { x with tries := x.tries + 1, at_ := w.clk.tk }
  else w

def execRopeNak (sub xid arg cause : Nat) (s : State) : Res :=
  onW s fun w =>
    match w.side.tx with
    | none => w
    | some x =>
      if !(w.ropeOn && w.on 14) || x.xid ≠ xid then w
      else if cause = 0x11 ∨ cause = 0x12 then w.ropeResend s.mem x sub arg
      else w.endTx 3

/-- The tick at which the frame was last sent. -/
def RopeTx.sentAt (x : RopeTx) (sub arg : Nat) : Nat :=
  if sub = 2 then ((x.win.find? fun e => e.1 == arg).map (·.2.2)).getD 0 else x.at_

/-- A frame has had no ACK for 100 µs (R476). -/
def execImageResendTimeout (sub arg t : Nat) (s : State) : Res :=
  onW s fun w =>
    let w := w.upTo t
    match w.side.tx with
    | none => w
    | some x => if w.on 14 ∧ x.sentAt sub arg + 12800000 ≤ w.clk.tk then w.ropeResend s.mem x sub arg else w

/-! ### Images on the rope: the receiver -/

/-- A frame of transfer `xid` from node `src` is refused. -/
def World.nak (w : World) (src sub xid arg cause : Nat) : World := w.ropeSend 5 src (imgHead sub xid arg ++ [cause])

/-- A frame that failed its CRC. -/
def World.badFrame (w : World) (src sub xid arg : Nat) : World := (w.sf F.SI_ROPEERR_CRC 0 1).nak src sub xid arg 0x11

/-- OPEN is accepted: it acts as a FW_STAGE of the whole range. -/
def World.openRx (w : World) (src xid len : Nat) : World :=
  let w := ((w.sf F.FW_STAT_BOOTSEL 0 (w.f F.FW_STAT_ACTIVE 0)).sf F.FW_STAT_RXBUSY 0 1).sf F.FW_RXSTAT_SRC 0 src
  let w := (w.sf F.FW_RXSTAT_BYTES 0 0).when (w.f F.BL_STAT_UPD 0 == 0) fun w => w.sf F.BL_STAT_UPD 0 1
  let j : FwJob := ⟨none, 0, w.inactiveBank, 0, len, 0⟩
  let x : RopeRx := { xid := xid, src := src, len := len }
  let w := { w with fwq := w.fwq ++ [j], side := { w.side with rx := some x } }
  w.ropeSend 4 src (imgHead 1 xid len)

def World.imageOpen (w : World) (src xid len : Nat) (good : Bool) : World :=
  if !good then w.badFrame src 1 xid len
  else if w.side.rx.any fun x => x.xid == xid && x.src == src && x.len == len && x.next == 0 then w.ropeSend 4 src (imgHead 1 xid len)
  else if !w.fb F.FW_RXCFG_EN 0 || w.side.rx.isSome || !w.fwq.isEmpty || len == 0 || decide (4194304 < len) then w.nak src 1 xid len 0x10
  else match w.updateRefused with
    | some c => w.nak src 1 xid len c
    | none => w.openRx src xid len

def execImageOpen (src xid len : Nat) (good : Bool) (s : State) : Res :=
  onW s fun w => if w.ropeOn && w.on 14 then w.imageOpen src xid len good else w

def World.imageData (w : World) (src xid off : Nat) (data : List Nat) (good : Bool) : World :=
  if !good then w.badFrame src 2 xid off
  else match w.side.rx with
    | none => w.nak src 2 xid off 0x10
    | some x =>
      if x.xid ≠ xid ∨ x.src ≠ src then w.nak src 2 xid off 0x10
      else match x.cause with
      | some c => (w.endRx).nak src 2 xid off c
      | none =>
        if off < x.next then w.ropeSend 4 src (imgHead 2 xid off)
        else if x.next < off ∨ x.len < off + data.length then w.nak src 2 xid off 0x12
        else
          let x := { x with buf := x.buf ++ data.map (· % 256), next := x.next + data.length }
          World.ropeSend { w with side := { w.side with rx := some x } } 4 src (imgHead 2 xid off)

def execImageData (src xid off : Nat) (data : List Nat) (good : Bool) (s : State) : Res :=
  onW s fun w => if w.ropeOn && w.on 14 then w.imageData src xid off data good else w

def World.imageClose (w : World) (src xid : Nat) (good : Bool) : World :=
  if !good then w.badFrame src 3 xid 0
  else match w.side.rx with
    | none => w.nak src 3 xid 0 0x10
    | some x =>
      if x.xid ≠ xid ∨ x.src ≠ src then w.nak src 3 xid 0 0x10
      else match x.cause with
      | some c => (w.endRx).nak src 3 xid 0 c
      | none =>
        if x.next ≠ x.len then w.nak src 3 xid 0 0x12
        else if w.fwq.any fun j => j.cmd.isNone then { w with side := { w.side with rx := some { x with close := true } } }
        else w.ackClose x

def execImageClose (src xid : Nat) (good : Bool) (s : State) : Res :=
  onW s fun w => if w.ropeOn && w.on 14 then w.imageClose src xid good else w

/-! ### The program port (R478) -/

/-- The word lies in the settings area of the first window. -/
def inSettings (a : Nat) : Bool := within 0x011E0000 0x011FFFFF a

/-- FW_PCTL.ERASE or PROG. -/
def World.portGo (w : World) (prog : Bool) : World :=
  let a := w.f F.FW_PADDR_ADDR 0
  if w.fwp.isSome then w
  else if !inSettings a || (prog && a % 32 != 0) then w.sf F.FW_PCTL_ERR 0 1
  else
    let d := (List.range 16).flatMap fun i => [w.f F.FW_PDATA_DATA i % 65536, w.f F.FW_PDATA_DATA i / 65536]
    World.sf { w with fwp := some (a, if prog then some d else none) } F.FW_PCTL_BUSY 0 1

def execErase (s : State) : Res := onW s fun w => if w.on 14 then w.portGo false else w
def execProg (s : State) : Res := onW s fun w => if w.on 14 then w.portGo true else w

def World.portDone (w : World) (m : Mem) : Mem × World :=
  match w.fwp with
  | none => (m, w)
  | some (a, none) =>
    let b := 2 * w.flashAddr (a / 2048 * 2048)
    (m.erase b (b + 4096), World.sf { w with fwp := none } F.FW_PCTL_BUSY 0 0)
  | some (a, some d) => (w.memWrites m a d, World.sf { w with fwp := none } F.FW_PCTL_BUSY 0 0)

def execProgramPortDone (s : State) : Res := onM s fun m w => if w.on 14 then w.portDone m else (m, w)

/-! ### Authorisation (R468, R469, R480 to R482) -/

/-- A read of SEC_NONCE[0] draws 32 fresh bytes. -/
def World.drawNonce (w : World) : World :=
  let w := (List.range 8).foldl (fun w i =>
    let (w, x) := w.draw
    w.sf F.SEC_NONCE_NONCE i x) w
  { w with sec := { w.sec with fresh := true } }

/-- Bytes of SEC_AUTH. -/
def World.authBytes (w : World) (n : Nat) : List Nat := (List.range n).flatMap fun i => leBytes 4 (w.f F.SEC_AUTH_DATA i)

/-- Key classes of R481. -/
inductive KeyClass where
  | vendor | owner | either
  deriving DecidableEq, Repr

/-- Slot `k` is of a class: "owner" is an unrevoked owner slot when any is filled, otherwise a vendor slot. -/
def World.inClass (w : World) (c : KeyClass) (k : Nat) : Bool :=
  let ownerKeys := [4, 5, 6, 7].any w.slotOk
  w.slotOk k && match c with
    | .vendor => decide (k < 4)
    | .owner => if ownerKeys then decide (4 ≤ k) else decide (k < 4)
    | .either => true

/-- The signature in SEC_AUTH over nonce, die identifier, OP and ARG verifies with slot KEYSLOT. -/
def World.signed (w : World) : Bool :=
  let msg := ((List.range 8).flatMap fun i => leBytes 4 (w.f F.SEC_NONCE_NONCE i)) ++ leBytes 8 Config.dieId
    ++ [w.f F.SEC_AUTHCTL_OP 0, w.f F.SEC_AUTHCTL_ARG 0]
  Config.ecdsaSlot (w.slotHash (w.f F.SEC_AUTHCTL_KEYSLOT 0)) (Config.sha384 msg) (w.authBytes 24)

/-- An attempt fails: RESULT, its SEC_ERR bit and a SECURITY record. -/
def World.secFail (w : World) (res : Nat) (err : Fld) : World :=
  let w := (w.sf F.SEC_AUTHCTL_RESULT 0 res).sf err 0 1
  w.cairn 0x50 (leBytes 4 (w.f F.SEC_AUTHCTL_OP 0) ++ leBytes 4 (w.f F.SEC_AUTHCTL_ARG 0) ++ leBytes 4 (w.f F.SEC_AUTHCTL_KEYSLOT 0)
    ++ leBytes 4 res)

/-- One attempt with a key of class `c`, the nonce consumed: the failure, or OK. -/
def World.authorise (w : World) (c : KeyClass) : World × Bool :=
  let fresh := w.sec.fresh
  let w := { w with sec := { w.sec with fresh := false } }
  if !fresh then (w.secFail 3 F.SEC_ERR_NONCE, false)
  else if !(w.inClass c (w.f F.SEC_AUTHCTL_KEYSLOT 0) && w.signed) then (w.secFail 2 F.SEC_ERR_AUTH, false)
  else (w.sf F.SEC_AUTHCTL_RESULT 0 1, true)

/-- The nonce is consumed and the operation refused in this state. -/
def World.secState (w : World) (err : Fld) : World := World.secFail { w with sec := { w.sec with fresh := false } } 4 err

def World.lcState (w : World) : Nat := w.f F.LC_STATE_STATE 0

def World.dbgUnlock (w : World) : World :=
  if w.lcState ≠ 3 then w.secState F.SEC_ERR_AUTH
  else
    let (w, ok) := w.authorise .owner
    if ok then
      (w.sf F.SEC_DBG_UNLOCKED 0 1).cairn 0x50 (leBytes 4 2 ++ leBytes 4 (w.f F.SEC_AUTHCTL_ARG 0)
        ++ leBytes 4 (w.f F.SEC_AUTHCTL_KEYSLOT 0) ++ leBytes 4 1)
    else w

def World.ownUnlock (w : World) : World :=
  let (w, ok) := w.authorise .owner
  if ok then w.sf F.SEC_OWNLOCK_LOCKED 0 0 else w

def World.keyProg (w : World) : World :=
  let k := w.f F.SEC_AUTHCTL_ARG 0
  if k < 4 ∨ 8 ≤ k ∨ (w.lcState ≠ 2 ∧ w.lcState ≠ 4) ∨ (w.f F.SEC_KEYSTAT_FILLED 0).testBit k then w.secState F.SEC_ERR_KEY
  else
    let w := { w with sec := { w.sec with fresh := false, keys := mset [] w.sec.keys k (w.authBytes 12) } }
    (w.orBit F.SEC_KEYSTAT_FILLED 0 k).sf F.SEC_AUTHCTL_RESULT 0 1

def World.revoke (w : World) : World :=
  let k := w.f F.SEC_AUTHCTL_ARG 0
  let by_ := w.f F.SEC_AUTHCTL_KEYSLOT 0
  let others := [0, 1, 2, 3].any fun j => j != k && w.slotOk j
  if 8 ≤ k ∨ w.slotOk k = false ∨ (k < 4 ∧ others = false) then w.secState F.SEC_ERR_KEY
  else if by_ = k ∨ decide (by_ < 4) ≠ decide (k < 4) then
    World.secFail { w with sec := { w.sec with fresh := false } } 2 F.SEC_ERR_AUTH
  else
    let (w, ok) := w.authorise .either
    if ok then w.orBit F.SEC_KEYSTAT_REVOKED 0 k else w

/-- SEC_AUTHCTL.GO with the OP it holds. -/
def World.authGo (w : World) : World :=
  match w.f F.SEC_AUTHCTL_OP 0 with
  | 2 => w.dbgUnlock
  | 3 => w.ownUnlock
  | 4 => w.keyProg
  | 5 => w.revoke
  | _ => w

def execDbgunlock (s : State) : Res := onW s fun w => if w.on 20 then (w.sf F.SEC_AUTHCTL_OP 0 2).dbgUnlock else w
def execOwnunlock (s : State) : Res := onW s fun w => if w.on 20 then (w.sf F.SEC_AUTHCTL_OP 0 3).ownUnlock else w
def execKeyprog (s : State) : Res := onW s fun w => if w.on 20 then (w.sf F.SEC_AUTHCTL_OP 0 4).keyProg else w
def execRevoke (s : State) : Res := onW s fun w => if w.on 20 then (w.sf F.SEC_AUTHCTL_OP 0 5).revoke else w

def execOwnerLockSet (s : State) : Res := onW s fun w => if w.on 20 then w.sf F.SEC_OWNLOCK_LOCKED 0 1 else w

/-- SEC_CTL.SVNCOMMIT. -/
def World.svnCommit (w : World) (m : Mem) : World :=
  let v := hdr m (w.f F.FW_STAT_ACTIVE 0) 12 4
  if w.f F.GL_BOOTSTAT_STAGE 0 ≠ 3 ∨ v ≤ w.f F.SEC_SVNMIN_SVN 0 then w
  else if 64 ≤ w.sec.svnUps then w.sf F.SEC_ERR_SVN 0 1
  else World.sf { w with sec := { w.sec with svnUps := w.sec.svnUps + 1 } } F.SEC_SVNMIN_SVN 0 v

def execSvncommit (s : State) : Res := onW s fun w => if w.on 20 then w.svnCommit s.mem else w

/-- SEC_OTPCTL.GO (R483). -/
def World.otpWrite (w : World) : World :=
  let k := w.f F.SEC_OTPCTL_WORD 0
  if w.lcState ≠ 2 ∨ 78 < k ∨ w.otpWr.contains k then w.sf F.SEC_ERR_OTPW 0 1
  else { w with otp := mset 0 w.otp k (w.f F.SEC_OTPDATA_DATA 0), otpWr := w.otpWr ++ [k] }

def execOtpWrite (s : State) : Res := onW s fun w => if w.on 20 then w.otpWrite else w

/-! ### Life cycle (R298 to R301) -/

/-- The key class of a transition, when R298 lists it. -/
def lcClass (old new : Nat) : Option KeyClass :=
  match old, new with
  | 1, 2 | 4, 2 => some .vendor
  | 2, 3 | 3, 4 => some .owner
  | 1, 5 | 2, 5 | 3, 5 | 4, 5 => some .either
  | _, _ => none

/-- What a transition does to the key store. -/
def World.lcKeys (w : World) (new : Nat) : World :=
  let keep := w.f F.SEC_KEYSTAT_FILLED 0 &&& 0x0F
  if new = 4 then
    (World.sf { w with sec := { w.sec with keys := [] } } F.SEC_KEYSTAT_FILLED 0 keep).sf F.SEC_OWNLOCK_LOCKED 0 0
      |>.sf F.SEC_KEYSTAT_REVOKED 0 (w.f F.SEC_KEYSTAT_REVOKED 0 &&& 0x0F)
  else if new = 5 then World.sf { w with sec := { w.sec with keys := [] } } F.SEC_KEYSTAT_FILLED 0 0
  else w

/-- An accepted transition (R300, R487). -/
def World.lcEnter (w : World) (new : Nat) : World :=
  let old := w.lcState
  let slots := w.f F.LC_STATE_SLOTS 0 + 1
  let w := (w.sf F.LC_STAT_BUSY 0 1).lcKeys new
  let w := ((w.sf F.LC_STATE_STATE 0 new).sf F.LC_STATE_SLOTS 0 slots).sf F.LC_STATE_WIPEPEND 0 1
  let w := (w.sf F.CRN_PINLEFT_LEFT 0 512).cairn 3 (leBytes 4 old ++ leBytes 4 new ++ leBytes 4 slots)
  w.warmReset 7

/-- A write of LC_REQ. -/
def World.lcReq (w : World) (new : Nat) : World :=
  let used := w.f F.LC_STATE_SLOTS 0
  match lcClass w.lcState new with
  | none => w.sf F.LC_ERR_BADVAL 0 1
  | some c =>
    let rails := (List.range w.nRails).any fun r => w.rstate r != rsOff && w.rstate r != rsLatched
    let full := decide (8 ≤ used) || (used == 7 && new != 5)
    let belay := w.role == roActive || w.role == roStandby
    let (w, ok) :=
      if w.f F.SEC_AUTHCTL_OP 0 = 1 ∧ w.f F.SEC_AUTHCTL_ARG 0 = new then w.authorise c
      else (World.secFail { w with sec := { w.sec with fresh := false } } 2 F.SEC_ERR_AUTH, false)
    let w := ((w.when rails fun w => w.sf F.LC_ERR_RAILS 0 1).when (!ok) fun w => w.sf F.LC_ERR_AUTH 0 1)
    let w := (w.when full fun w => w.sf F.LC_ERR_EXHAUST 0 1).when belay fun w => w.sf F.LC_ERR_BELAY 0 1
    if ok && !rails && !full && !belay then w.lcEnter new else w

def execLcReq (target t : Nat) (s : State) : Res :=
  onW s fun w =>
    let w := w.upTo t
    if w.on 20 ∧ w.fb F.LC_STAT_BUSY 0 = false ∧ w.pwr.warm = none then w.lcReq (target % 8) else w

/-- The pending wipe: the settings areas are written to zero (R285, R301), or both banks erased whole when the part is RETIRED (R298). -/
def World.lcWipe (w : World) (m : Mem) : Mem × World :=
  let m := if w.lcState = 5 then m.erase (bankByte 0) (bankByte 2)
    else
      let zero := List.replicate 0x40000 0
      (m.setBytes (2 * 0x011E0000) zero).setBytes (2 * 0x013E0000) zero
  let w := w.sf F.LC_STATE_WIPEPEND 0 0
  (m, w.when (w.f F.GL_BOOTSTAT_STAGE 0 == 5) fun w => w.sf F.GL_BOOTSTAT_STAGE 0 (if w.on 12 then 2 else 1))

def execLcWipe (t : Nat) (s : State) : Res :=
  onM s fun m w =>
    let w := w.upTo t
    if w.fb F.LC_STATE_WIPEPEND 0 ∧ w.on 14 ∧ w.f F.GL_BOOTSTAT_STAGE 0 = 5 then w.lcWipe m else (m, w)

/-! ### Completion Timeout (R211, R238, R411) -/

/-- The Completion Timeout has passed since base tick `t`. -/
def World.ctoPast (w : World) (t : Nat) : Bool := decide (t + 128000 * w.pcie.cto ≤ w.clk.tk)

/-- The oldest read of a host beat of user `u` has waited for the Completion Timeout. -/
def World.beatLate (w : World) (u : Nat) : Bool :=
  match firstIdx (w.dmaQ u) fun j => !j.flight.isEmpty with
  | none => false
  | some (_, j) => j.sHost && j.flight.head?.any fun b => w.ctoPast b.at_

/-- No completion came: `kind` 0 is a descriptor fetch of ring `n`, 1 a beat of DMA user `n`, 2 a read of the staging, whose row is
its issue and its end together. -/
def execCompletionTimeout (kind n : Nat) (s : State) : Res :=
  onM s fun m w =>
    if kind = 0 ∧ n < 16 ∧ w.on 2 ∧ (w.ring n).reads.head?.any (fun e => w.ctoPast e.2.2) then (m, w.fetchAnswer n (.error 1))
    else if kind = 1 ∧ w.beatLate n then (m, w.dmaAnswer n [] 1)
    else if kind = 2 ∧ w.on 14 ∧ w.fwq.head?.any (fun j => j.cmd.isSome) then w.stageSector m (.error 1)
    else (m, w)

end Sys2Proof.Machine
end

