-- ==== Sys2Proof/Machine/Jtag.lean ====
section
/-! DEFINITION. The JTAG port and its boundary scan (R531, R533). -/

namespace Sys2Proof.Machine

/-- A scan through the one-bit bypass register, which captures 0. -/
def World.bypassScan (w : World) (bits : List Bool) : World := w.emit (.scan (false :: bits).dropLast)

/-- The instruction register takes `i`. -/
def World.setIr (w : World) (i : JtagIr) : World := { w with jtag := { w.jtag with ir := i } }

/-- EXTEST, CLAMP and HIGHZ take effect. -/
def World.scanFree (w : World) : Bool := (List.range w.nRails).all (fun r => !w.enabled r) && !w.pins.blpair

def execBypass (bits : List Bool) (s : State) : Res := onW s fun w => (w.setIr .bypass).bypassScan bits

/-- The identification code: version 0xB, part number, manufacturer identity and a 1. -/
def World.idcode (w : World) : Nat := 0xB * 2 ^ 28 + (if w.lx1264 then 0x1264 else 0x1280) * 4096 + Config.jedecId % 2048 * 2 + 1

def execIdcode (s : State) : Res :=
  onW s fun w => (w.setIr .idcode).emit (.scan ((List.range 32).map fun i => w.idcode.testBit i))

/-- The cells shift out what the balls hold, and take `bits`. -/
def World.cellScan (w : World) (balls bits : List Bool) : World :=
  World.emit { w with jtag := { w.jtag with cells := bits } } (.scan balls)

def execSamplePreload (balls bits : List Bool) (s : State) : Res := onW s fun w => (w.setIr .sample).cellScan balls bits

def execExtest (balls bits : List Bool) (s : State) : Res :=
  onW s fun w =>
    if w.scanFree then ((w.setIr .extest).cellScan balls bits).emit (.drive (some bits)) else (w.setIr .extest).bypassScan bits

def execClamp (bits : List Bool) (s : State) : Res :=
  onW s fun w =>
    (((w.setIr .clamp).when w.scanFree fun w => w.emit (.drive (some w.jtag.cells))).bypassScan bits)

def execHighz (bits : List Bool) (s : State) : Res :=
  onW s fun w => ((w.setIr .highz).when w.scanFree fun w => w.emit (.drive none)).bypassScan bits

/-- TRST_N was low for `ns` ns: from 50 ns to 100 ns it may or may not act, which is a free value. -/
def execJtagReset (ns : Nat) (s : State) : Res :=
  onW s fun w =>
    if ns < 50 then w
    else if 100 ≤ ns then w.setIr .idcode
    else
      let (w, x) := w.draw
      if x % 2 = 1 then w.setIr .idcode else w

end Sys2Proof.Machine
end

