-- ==== Sys2Proof/Machine/Sensing.lean ====
section
/-! DEFINITION. Rail sense converters, phase and input current channels, the housekeeping converter (R33 to R75, R83,
R178). -/

namespace Sys2Proof.Machine

/-! ### Mismatch correction (R40 to R46) -/

/-- The register that holds a parameter's applied value, and its convergence flag. -/
def corrFld : CorrPar → Fld
  | .gain => F.RSC_CORR_GAIN_GAIN
  | .ofs => F.RSC_CORR_OFS_OFS
  | .skew => F.RSC_CORR_SKEW_SKEW

def corrFlag : CorrPar → Fld
  | .gain => F.RSC_STAT_CONV_GAIN
  | .ofs => F.RSC_STAT_CONV_OFS
  | .skew => F.RSC_STAT_CONV_SKEW

def corrIdx : CorrPar → Nat
  | .gain => 0 | .ofs => 1 | .skew => 2

/-- The largest update (R41), in register LSB: 2 ppm, 0.25 µV (in absolute mode one LSB) and 25 fs. -/
def World.corrStep (w : World) (n : Nat) : CorrPar → Int
  | .gain => 2
  | .ofs => if w.f F.RSC_CFG_MODE n = 0 then 2 else 1
  | .skew => 1

/-- The fault range (R43), in register LSB: 2 %, 2 mV and 4 ps. -/
def World.corrFault (w : World) (n : Nat) : CorrPar → Nat
  | .gain => 20000
  | .ofs => if w.f F.RSC_CFG_MODE n = 0 then 16384 else 1024
  | .skew => 160

/-- The movement under which a window is quiet (R42), in 1/10,000 register LSB: 1 ppm, 0.1 µV and 10 fs. -/
def World.corrQuiet (w : World) (n : Nat) : CorrPar → Nat
  | .gain => 10000
  | .ofs => if w.f F.RSC_CFG_MODE n = 0 then 8192 else 512
  | .skew => 4000

/-- The estimate of a slice's parameter, in 1/10,000 register LSB. -/
def Conv.est (v : Conv) (p : CorrPar) (s : Nat) : Int :=
  match p with
  | .gain => mget 0 v.gain s
  | .ofs => mget 0 v.ofs s
  | .skew => mget 0 v.skew s

def Conv.setEst (v : Conv) (p : CorrPar) (s : Nat) (x : Int) : Conv :=
  match p with
  | .gain => { v with gain := mset 0 v.gain s x }
  | .ofs => { v with ofs := mset 0 v.ofs s x }
  | .skew => { v with skew := mset 0 v.skew s x }

/-- An estimate in register LSB, as its register can hold it. -/
def corrReg (p : CorrPar) (x : Int) : Int :=
  match p with
  | .skew => clampI (-200) 200 (rdiv x 10000)
  | _ => satS 16 (rdiv x 10000)

/-- The fourth quiet window in a row sets a parameter's flag, and the last flag ends first use (R42, R45). -/
def World.quietCount (w : World) (n : Nat) (p : CorrPar) (k : Nat) : World :=
  let v := w.converter n
  let w := w.setConverter n { v with quiet := mset 0 v.quiet (corrIdx p) (min k 4) }
  let w := w.when (decide (4 ≤ k)) fun w => w.sf (corrFlag p) n 1
  if w.fb F.RSC_STAT_CONV_OFS n ∧ w.fb F.RSC_STAT_CONV_GAIN n ∧ w.fb F.RSC_STAT_CONV_SKEW n then
    (w.sf F.RSC_STAT_CONV n 1).sf F.RSC_STAT_FIRSTUSE n 0
  else w

/-- The windows of 64 µs of a parameter that have ended by now: the first is quiet when every slice's estimate has moved less
than the bound since its start, and nothing has moved in the ones after it (R42). -/
def World.quietWindows (w : World) (n : Nat) (p : CorrPar) : World :=
  let v := w.converter n
  let now := w.clk.tk + 1
  let start := mget 0 v.win (corrIdx p)
  let key (s : Nat) : Nat := 3 * s + corrIdx p
  let base (v : Conv) : Conv := { v with base := (List.range 8).foldl (fun l s => mset 0 l (key s) (v.est p s)) v.base }
  if start = 0 then w.setConverter n (base { v with win := mset 0 v.win (corrIdx p) now })
  else
    let k := (now - start) / 8192000
    if k = 0 then w
    else
      let calm := (List.range 8).all fun s => decide ((v.est p s - mget 0 v.base (key s)).natAbs < w.corrQuiet n p)
      let w := w.setConverter n (base { v with win := mset 0 v.win (corrIdx p) (start + k * 8192000) })
      w.quietCount n p (if calm then mget 0 v.quiet (corrIdx p) + k else k - 1)

/-- A slice is declared faulty; the second of a converter raises SENSE_LOST (R43). -/
def World.sliceFault (w : World) (n s : Nat) : World :=
  let m := w.f F.RSC_STAT_SLICE_FLT n
  if m.testBit s then w
  else
    let v := w.converter n
    let reg (p : CorrPar) : List Nat := leBytes 2 (unI 16 (satS 16 (rdiv (v.est p s) 10000)))
    let w := (w.orBit F.RSC_STAT_SLICE_FLT n s).sf F.RSC_ERR_SLICE_NEW n 1
    let w := (w.pulse (0x078 + n)).irq (0x030 + n)
    let w := w.cairn 0x11 ([n, s] ++ reg .gain ++ reg .ofs ++ reg .skew)
    w.when (m != 0) fun w => w.raise n 12 none

/-- A step of the applied value toward the estimate: at a round boundary, at most once in 1 µs, and not while correction is
frozen (R41, R44). -/
def World.applyCorr (w : World) (n s : Nat) (p : CorrPar) : World :=
  let v := w.converter n
  let i := 8 * n + s
  let key := 3 * s + corrIdx p
  let last := mget 0 v.applied key
  let y := w.fs (corrFld p) i
  let st := w.corrStep n p
  let d := clampI (-st) st (corrReg p (v.est p s) - y)
  if w.fb F.RSC_CFG_CORR_FRZ n ∨ w.clk.tk % 320 ≠ 0 ∨ (last ≠ 0 ∧ w.clk.tk + 1 < last + 128000) ∨ d = 0 then w
  else (w.sfI (corrFld p) i (y + d)).setConverter n { v with applied := mset 0 v.applied key (w.clk.tk + 1) }

/-- The correction engine's estimate of a slice's parameter is `x`, in 1/10,000 register LSB (R40 to R44). -/
def World.corr (w : World) (n s : Nat) (p : CorrPar) (x : Int) : World :=
  let w := w.quietWindows n p
  let w := (w.setConverter n ((w.converter n).setEst p s x)).applyCorr n s p
  w.when (decide (10000 * w.corrFault n p < x.natAbs)) fun w => w.sliceFault n s

def execCorrStep (n sl : Nat) (par : CorrPar) (est : Int) (t : Nat) (s : State) : Res :=
  onW s fun w =>
    let w := w.upTo t
    if w.fb F.RSC_CFG_EN n ∧ w.on (snIsl n) ∧ sl < 8 then w.corr n sl par est else w

/-- A write of a correction register (R44, R59). -/
def World.writeCorr (w : World) (n s : Nat) (p : CorrPar) (v : Nat) : World :=
  if w.fb F.RSC_CFG_CORR_FRZ n then
    match p with
    | .skew => w.sfI (corrFld p) (8 * n + s) (clampI (-200) 200 (sx 16 v))
    | _ => w.sf (corrFld p) (8 * n + s) v
  else w.sf F.RSC_ERR_FRZBUSY n 1

def execRscCorrWrite (n sl : Nat) (par : CorrPar) (value : Nat) (s : State) : Res :=
  onW s fun w => if n < w.nRails ∧ sl < 8 ∧ w.on (snIsl n) then w.writeCorr n sl par value else w

/-! ### References, mode and slots (R47 to R53) -/

def execRefSettled (n : Nat) (s : State) : Res :=
  onW s fun w => if w.on (snIsl n) then w.sf F.RSC_STAT_REFRDY n 1 else w

/-- Converters of island `isl` on reference `ref`. -/
def World.onRef (w : World) (isl ref : Nat) : List Nat := idxs w.nRails fun n => snIsl n == isl && w.f F.RSC_CFG_REFSEL n == ref

/-- Reference `ref` of island `isl` differs from the monitor by `dev` ppm: more than ±0.5 % is lost, less ends the condition of its
KILL_AUTO kills (R53, R181). -/
def World.refDev (w : World) (isl ref : Nat) (dev : Int) : World :=
  if 5000 < dev.natAbs then
    (w.onRef isl ref).foldl (fun w n => (((w.sf F.RSC_ERR_REFLOST n 1).pulse (0x090 + n)).irq (0x030 + n)).raise n 13 none) w
  else (w.onRef isl ref).foldl (fun w n => (w.bound n).foldl (fun w p => w.endAuto p 13) w) w

def execReflost (isl ref : Nat) (s : State) (dev : Int := 0) : Res :=
  onW s fun w => if ref < 2 ∧ w.on isl then w.refDev isl ref dev else w

/-- Slots of a RSC_SLOT value that are not LOOP. -/
def notLoop (v : Nat) : Nat := (List.range 8).countP fun s => bitsOf v (2 * s) 2 != 0

/-- A write of RSC_SLOT (R48); the engine adopts it at its next update boundary. -/
def World.writeSlot (w : World) (n v : Nat) : World :=
  if w.enabled n ∧ 1 < notLoop v then w.sf F.RSC_ERR_SLOTBUSY n 1 else w.putRW R.RSC_SLOT n v

def execRscSlotWrite (n value : Nat) (s : State) : Res := onW s fun w => if n < w.nRails ∧ w.on (snIsl n) then w.writeSlot n value else w

/-- A write of RSC_CFG (R49 to R52, R58): reserved codes and, on an enabled rail, changes of MODE and REFSEL are ignored. -/
def World.writeRscCfg (w : World) (n v : Nat) : World :=
  let mode := bitsOf v 1 2
  let ref := bitsOf v 4 2
  let w := ((w.when (v % 2 == 1) fun w => w.rscStart n).sf F.RSC_CFG_EN n (v % 2)).sf F.RSC_CFG_CORR_FRZ n (bitsOf v 8 1)
  let w := if 2 ≤ mode then w.sf F.RSC_ERR_BADVAL n 1
    else if mode = w.f F.RSC_CFG_MODE n then w
    else if w.enabled n then w.sf F.RSC_ERR_REFBUSY n 1
    else w.sf F.RSC_CFG_MODE n mode
  if ref = 3 then w.sf F.RSC_ERR_BADVAL n 1
  else if ref = w.f F.RSC_CFG_REFSEL n then w
  else if w.enabled n then w.sf F.RSC_ERR_REFBUSY n 1
  else
    let w := (w.sf F.RSC_CFG_REFSEL n ref).sf F.RSC_STAT_REFRDY n 0
    w.setConverter n { w.converter n with unsettled := true }

def execRscCfgWrite (n value : Nat) (s : State) : Res := onW s fun w => if n < w.nRails ∧ w.on (snIsl n) then w.writeRscCfg n value else w

/-! ### Software results (R54, R55, R66) -/

/-- NEW is set, and OVR with it when NEW was still set. -/
def World.newResult (w : World) (new ovr : Fld) (i : Nat) : World :=
  (w.when (w.fb new i) fun w => w.sf ovr i 1).sf new i 1

/-- A software-result period of converter `n` ends: `samples` are its slices' sense voltages, of which those that convert the
selected source count (in absolute mode all do); with none, the manual gives no result (R54). -/
def World.swPeriod (w : World) (n : Nat) (samples : List (Nat × Int)) : World :=
  let src := if w.f F.RSC_CFG_MODE n = 0 then w.f F.RSC_SWCFG_SWSRC n else 1
  let l := samples.filter fun x => w.sliceSrc n x.1 == src && !(w.f F.RSC_STAT_SLICE_FLT n).testBit x.1
  let (w, c) := w.convertAll n l
  let (w, v) := if c.isEmpty then
      let (w, x) := w.draw
      (w, x % 65536)
    else (w, unI 16 (rdiv (c.map (·.1)).sum c.length))
  let w := (w.newResult F.RSC_SWRES_NEW F.RSC_SWRES_OVR n).sf F.RSC_SWRES_RESULT n v
  let w := (w.sf F.RSC_SWRES_SRC n (w.f F.RSC_SWCFG_SWSRC n)).sf F.RSC_SWRES_CLIPPED n (b2n (c.any (·.2)))
  let rdy := w.fb F.RSC_STAT_REFRDY n
  let w := (w.sf F.RSC_SWRES_UNSETTLED n (b2n (!rdy || (w.converter n).unsettled))).inc F.RSC_SWCNT_COUNT n
  w.setConverter n { w.converter n with unsettled := !rdy, swAt := w.clk.tk }

/-- (SWDIV + 1) µs of converter `n` have passed since its period began. -/
def World.swDue (w : World) (n : Nat) : Bool :=
  decide ((w.converter n).swAt + 128000 * (w.f F.RSC_SWCFG_SWDIV n + 1) ≤ w.clk.tk)

def execRscSwresPeriod (n t : Nat) (samples : List (Nat × Int)) (s : State) : Res :=
  onW s fun w =>
    let w := w.upTo t
    if w.fb F.RSC_CFG_EN n ∧ w.on (snIsl n) ∧ w.swDue n then w.swPeriod n samples else w

/-- One channel's averaged current word over the codes of a period; a channel that does not run has none. -/
def World.currentResult (w : World) (icc : Bool) (p : Nat) (codes : List Int) : World :=
  let (w, l) := w.currentWords icc p codes
  let v := rdiv l.sum l.length
  if codes.isEmpty || !w.fb (if icc then F.ICC_CFG_EN else F.PCC_CFG_EN) p then w
  else if icc then (w.newResult F.ICC_SWRES_NEW F.ICC_SWRES_OVR p).sfI F.ICC_SWRES_CURRENT p v
  else (w.newResult F.PCC_SWRES_NEW F.PCC_SWRES_OVR p).sfI F.PCC_SWRES_CURRENT p v

/-- SWDIV of an island's channels. -/
def World.swDiv (w : World) (isl : Nat) : Nat :=
  if isl = 17 then w.f F.ICC_SWCTL_SWDIV 0 else w.f F.PCC_SWCTL_SWDIV (isl - 6)

/-- The period of an island's channels ends: PCC in PCA and PCB, ICC in HKP.  `codes` gives each
channel's codes of the period. -/
def execPccSwresPeriod (isl : Nat) (codes : List (Nat × List Int)) (s : State) : Res :=
  onW s fun w =>
    if !w.on isl ∨ !w.past (.pccSw isl) (1000 * (w.swDiv isl + 1)) then w
    else codes.foldl (fun w e =>
      if isl = 17 then (if e.1 < 4 then w.currentResult true e.1 e.2 else w)
      else if pcIsl e.1 = isl ∧ e.1 < w.nPhases then w.currentResult false e.1 e.2 else w) (w.start (.pccSw isl))

/-! ### Autozero (R63) -/

/-- The phase has been in mid for 2 µs: 256 codes begin to be averaged, once in each mid interval. -/
def World.azStart (w : World) (p : Nat) : World :=
  match w.midFrom p with
  | none => w
  | some m =>
    if !w.fb F.PCC_CFG_EN p ∨ !w.fb F.PCC_CFG_AZ_EN p ∨ w.clk.tbq < m + 256000 ∨ (w.phase p).az.any (fun a => a.1 == m) then w
    else w.setPhase p { w.phase p with az := some (m, false) }

def execPccAutozeroStart (p : Nat) (s : State) (t : Nat := 0) : Res := onW s fun w => ((w.upTo t).settled p).azStart p

/-- The code that channel `p` takes of an input of `x` LSB, before its offset (R60, R62, R66). -/
def World.pccCode (w : World) (p : Nat) (x : Int) : Int := if w.fb F.PCC_CFG_INV p then -(satS 14 x) else satS 14 x

/-- The 256th code, 1,024 ns after the first, while the phase stays in mid: the average, in 1/16 code, is written or, beyond
±2 mV, rejected. -/
def World.azDone (w : World) (p : Nat) (codes : List Int) : World :=
  match (w.phase p).az with
  | some (m, false) =>
    if w.midFrom p ≠ some m ∨ codes.length ≠ 256 ∨ w.clk.tbq < m + 256000 + 131072 then w
    else
      let w := w.setPhase p { w.phase p with az := some (m, true) }
      let avg := rdiv (16 * (codes.map (w.pccCode p)).sum) 256
      if 2621 < avg.natAbs then w.sf F.PCC_ERR_AZ_FAIL p 1 else w.sfI F.PCC_OFS_OFS p avg
  | _ => w

def execPccAutozeroDone (p : Nat) (codes : List Int) (s : State) (t : Nat := 0) : Res :=
  onW s fun w => ((w.upTo t).settled p).azDone p codes

/-! ### The housekeeping converter (R67 to R72) -/

def seqFields : List Fld :=
  [F.HKC_SEQ_INPUT, F.HKC_SEQ_SUBSEL, F.HKC_SEQ_REPEAT, F.HKC_SEQ_DELAY, F.HKC_SEQ_EVT, F.HKC_SEQ_LAST]

/-- The shadow table becomes the live one (R70). -/
def World.hkcAdopt (w : World) : World :=
  (List.range 64).foldl (fun w e => w.adoptAll seqFields e) (w.sf F.HKC_CTL_SWAP 0 0)

/-- A write of 1 to SWAP: at once when no pass runs. -/
def World.hkcSwap (w : World) : World :=
  let w := w.sf F.HKC_CTL_SWAP 0 1
  if w.fb F.HKC_STAT_BUSY 0 then w else w.hkcAdopt

def execHkcSwap (s : State) : Res := onW s fun w => if w.on 17 then w.hkcSwap else w

/-- A pass starts at entry 0. -/
def World.hkcStart (w : World) : World :=
  let w := { w with hkcAt := w.clk.tk + 1 }
  ((w.sf F.HKC_STAT_BUSY 0 1).sf F.HKC_STAT_ENTRY 0 0).start .hkcEntry

/-- The pass period has gone by since the latest pass started, or no pass has (R69). -/
def World.hkcDue (w : World) : Bool := w.hkcAt == 0 || decide (w.hkcAt + 128000 * w.hkcPeriod ≤ w.clk.tk + 1)

def execHkcPassStart (s : State) (t : Nat := 0) : Res :=
  onW s fun w =>
    let w := w.upTo t
    if w.on 17 ∧ w.fb F.HKC_CTL_EN 0 ∧ !w.fb F.HKC_CTL_MODE 0 ∧ !w.fb F.HKC_STAT_BUSY 0 ∧ w.hkcDue then w.hkcStart else w

/-- An event on channel `ch` of the fabric (R69). -/
def execHkcTrigger (s : State) (ch : Nat := 0) (t : Nat := 0) : Res :=
  onW s fun w =>
    let w := w.upTo t
    if !w.on 17 ∨ !w.fb F.HKC_CTL_EN 0 ∨ !w.fb F.HKC_CTL_MODE 0 ∨ w.f F.HKC_CTL_TRIG 0 ≠ ch then w
    else if w.fb F.HKC_STAT_BUSY 0 then w.incSat F.HKC_ERR_TRIGLOST 0
    else w.hkcStart

/-- The SUBSEL of a live entry names one of its input's sources (R67). -/
def World.subselOk (w : World) (e : Nat) : Bool :=
  let x := w.lf F.HKC_SEQ_SUBSEL e
  match w.lf F.HKC_SEQ_INPUT e with
  | 44 => decide (x < 8)
  | 45 => decide (x < 176)
  | 46 => decide (x < 2)
  | _ => true

/-- DFF of a rail from a result of its input voltage (R83). -/
def World.dffFrom (w : World) (r v : Nat) : World :=
  if v = 0 then w.sf F.LE_ERR_VIN r 1
  else
    let num : Int := 2 ^ 14 * (w.engine r).ref * w.f F.RSC_DIVR_RATIO r
    let k := w.lf F.LE_VIN_VINK r
    let (w, q) := if k = 0 then w.draw else (w, (rdiv num (v * k : Nat)).toNat)
    w.setEngine r { w.engine r with dff := min q (2 ^ 30) }

/-- What a result of entry `e` does to rail `r`: its nominal duty, and the HK limits, whose kills' condition ends inside them (R83,
R178, R181). -/
def World.hkcRail (w : World) (e v r : Nat) : World :=
  let w := w.when (w.lf F.LE_VIN_EN r == 1 && w.lf F.LE_VIN_SRC r == e) fun w => w.dffFrom r v
  if w.fb F.PROT_HKLIM_EN r ∧ w.f F.PROT_HKLIM_ENTRY r = e then
    let test (w : World) (src : Nat) (hit : Bool) : World :=
      if hit then w.raise r src none else (w.bound r).foldl (fun w p => w.endAuto p src) w
    test (test w 10 (decide (w.f F.PROT_HKVAL_HI r < v))) 11 (decide (v < w.f F.PROT_HKVAL_LO r))
  else w

/-- The running pass ends, or its next entry begins (R68, R70). -/
def World.hkcNext (w : World) (e : Nat) : World :=
  if w.lf F.HKC_SEQ_LAST e = 1 ∨ e = 63 then
    let w := (w.sf F.HKC_STAT_BUSY 0 0).inc F.HKC_STAT_PASSES 0
    w.when (w.fb F.HKC_CTL_SWAP 0) World.hkcAdopt
  else (w.sf F.HKC_STAT_ENTRY 0 (e + 1)).start .hkcEntry

/-- How long entry `e` takes, ns (R68). -/
def World.hkcTime (w : World) (e : Nat) : Nat := 10 * w.lf F.HKC_SEQ_DELAY e + 200 * (w.lf F.HKC_SEQ_REPEAT e + 1)

/-- The codes of entry `e`: 0 for an invalid SUBSEL, and the code of the threshold node at input 45 (R67, R176). -/
def World.hkcCodes (w : World) (e : Nat) (codes : List Nat) : List Nat :=
  if !w.subselOk e then codes.map fun _ => 0
  else if w.lf F.HKC_SEQ_INPUT e = 45 then codes.map fun _ => w.thrCode (w.lf F.HKC_SEQ_SUBSEL e)
  else codes.map (satU 16)

/-- An entry finishes: `codes` are its REPEAT + 1 conversions (R68, R70, R71). -/
def World.hkcEntry (w : World) (e : Nat) (codes : List Nat) : World :=
  let w := w.when (!w.subselOk e) fun w => w.sf F.HKC_ERR_BADSEL 0 1
  let codes := w.hkcCodes e codes
  let v := (rdiv (codes.sum : Nat) codes.length).toNat
  let w := (w.newResult F.HKC_RES_NEW F.HKC_RES_OVR e).sf F.HKC_RES_VALUE e v
  let w := w.sf F.HKC_RES_PASS e (w.f F.HKC_STAT_PASSES 0)
  let w := (w.sf F.HKC_DIRECT_VALUE 0 (codes.getLastD 0)).sf F.HKC_DIRECT_INPUT 0 (w.lf F.HKC_SEQ_INPUT e)
  let w := w.when (w.lf F.HKC_SEQ_EVT e == 1) fun w => (w.pulse 0x0A8).irq 0x048
  let v := w.f F.HKC_RES_VALUE e
  let w := (idxs 4 fun k => w.f F.EL_INCFG_ENTRY k == e).foldl (fun w k => w.start (.stale k)) w
  let w := (List.range w.nRails).foldl (fun w r => w.hkcRail e v r) w
  w.hkcNext e

/-- DESIGN CHOICE (log 100): a pass that runs when HKC_CTL.EN or MODE is written goes on to its last entry. -/
def execHkcEntryDone (e : Nat) (codes : List Nat) (s : State) : Res :=
  onW s fun w =>
    if w.on 17 ∧ w.fb F.HKC_STAT_BUSY 0 ∧ w.f F.HKC_STAT_ENTRY 0 = e
        ∧ codes.length = w.lf F.HKC_SEQ_REPEAT e + 1 ∧ w.past .hkcEntry (w.hkcTime e) then w.hkcEntry e codes else w

/-! ### Reads that clear (R55, R66, R71) -/

/-- The register as it stands; NEW and OVR clear after the value has been taken. -/
def World.readResult (w : World) (g : Reg) (new ovr : Fld) (i : Nat) : World × Nat :=
  ((w.sf new i 0).sf ovr i 0, w.regVal g i)

def World.readRscSwres (w : World) (n : Nat) : World × Nat := w.readResult R.RSC_SWRES F.RSC_SWRES_NEW F.RSC_SWRES_OVR n
def World.readPccSwres (w : World) (p : Nat) : World × Nat := w.readResult R.PCC_SWRES F.PCC_SWRES_NEW F.PCC_SWRES_OVR p
def World.readIccSwres (w : World) (k : Nat) : World × Nat := w.readResult R.ICC_SWRES F.ICC_SWRES_NEW F.ICC_SWRES_OVR k
def World.readHkcRes (w : World) (e : Nat) : World × Nat := w.readResult R.HKC_RES F.HKC_RES_NEW F.HKC_RES_OVR e

end Sys2Proof.Machine
end

