-- ==== Sys2Proof/Machine/RegBus.lean ====
section
/-! DEFINITION. The register space as the host and the cores reach it: which register an address names, what its fields
read, latching reads and their holding copies, what a write does by access type and by each register's own rule (R3, R7,
R8, R20, R22, R29 to R31, R200, R536 to R552). -/

namespace Sys2Proof.Machine

/-! ### Addresses (R30, R31, R536) -/

/-- The block of a byte offset in register space and the offset in it: 22 is the global block; none is reserved space. -/
def blockOf (o : Nat) : Option (Nat × Nat) :=
  if o < 0x10000 then some (22, o)
  else if o < 0x68000 then some ((o - 0x10000) / 0x4000, (o - 0x10000) % 0x4000)
  else none

/-- The instance of `g`, in the block of island `n`, that lies at byte offset `o` of the block. -/
def Reg.at (g : Reg) (n o : Nat) : Option Nat :=
  if o < g.off then none
  else
    let d := o - g.off
    ((List.range g.cnt).findSome? fun a =>
      if d < a * g.stride then none
      else
        let e := d - a * g.stride
        if g.cnt2 ≤ 1 then (if e = 0 then some a else none)
        else if e % g.stride2 = 0 ∧ e / g.stride2 < g.cnt2 then some (a * g.cnt2 + e / g.stride2) else none).map fun i =>
      (g.isl.findIdx fun x => x == n) * g.cnt * g.cnt2 + i

/-- The register at byte offset `o` of block `n`. -/
def regAt (n o : Nat) : Option (Reg × Nat) :=
  if o % 4 ≠ 0 then none else (islandRegs n).findSome? fun g => (g.at n o).map fun i => (g, i)

/-- The island that must run for block `n` to answer. -/
def blockIsl (n : Nat) : Nat := if n = 22 then 0 else n

/-- The byte offset in register space of instance `i` of a register. -/
def Reg.addr (g : Reg) (i : Nat) : Nat :=
  let per := g.cnt * max 1 g.cnt2
  let n := g.isl.getD (i / per) 22
  let k := i % per
  (if n = 22 then 0 else 0x10000 + 0x4000 * n) + g.off + k / max 1 g.cnt2 * g.stride + k % max 1 g.cnt2 * g.stride2

/-- Registers of absent rails and islands, the lock-step registers under SPLIT, and the unassigned word of level 0 before PD_BOOSTAMP
read 0 and ignore writes (R3, R8, R359, R447). -/
def World.regAbsent (w : World) (g : Reg) (i : Nat) : Bool :=
  let rail := [R.FC_RAILA, R.FC_RAILB, R.FC_RAILC, R.FC_RAILD, R.FC_RSTAT, R.SI_AVSLIM, R.EL_RACC_LO, R.EL_RACC_HI, R.EL_RUSED_LO,
    R.EL_RUSED_HI, R.EL_RLIM_LO, R.EL_RLIM_HI, R.EL_RWIN, R.EL_RRES_LO, R.EL_RRES_HI, R.EL_RSTAT]
  let isl := [R.EL_SACC_LO, R.EL_SACC_HI, R.EL_SPWR, R.PM_TRIM]
  (rail.any fun h => h.id == g.id && decide (w.nRails ≤ i)) || (isl.any fun h => h.id == g.id && w.absent i)
  || (g.id == R.PD_BOOSTAMP.id && i % 16 == 0)
  || (w.split && [R.LS_CFG, R.LS_STAT, R.LS_MCPC, R.LS_MCADDR].any fun h => h.id == g.id)

/-! ### What a register reads (R7, R8) -/

/-- DBG access is open in this life-cycle state (R297, R482). -/
def World.dbgOpen (w : World) : Bool :=
  let l := w.f F.LC_STATE_STATE 0
  l == 1 || l == 2 || l == 4 || (l == 3 && w.fb F.SEC_DBG_UNLOCKED 0)

/-- A condition of physical core `k` as its window shows it; a checker's window keeps its reset values (R330). -/
def World.cxShow (w : World) (rst : Nat) (f : Core → Nat) (k : Nat) : Nat :=
  if w.split || k % 2 == 0 then f (w.core (w.logical k)) else rst

/-- CX_STAT.STATE of a core (R270, R330). -/
def World.coreState (w : World) (c : Core) : Nat := if w.pwr.hold ≠ 0 ∧ (c.st = 1 ∨ c.st = 2) then 4 else c.st

/-- A mask of the numbers below `n` at which `p` holds. -/
def maskOf (n : Nat) (p : Nat → Bool) : Nat := ((idxs n p).map fun k => 2 ^ k).sum

/-- FC_ENTA.STATE codes (R140). -/
def FSt.code : FSt → Nat
  | .free => 0 | .wait => 1 | .run => 2 | .matched => 3 | .committed => 4 | .rolling => 5 | .passive => 6

/-- Fields whose value follows from other state whenever they are read. -/
def liveGlobal : List (Fld × (World → Nat → Nat)) :=
  [(F.GL_DEVID_PART, fun w _ => if w.lx1264 then 0x1264 else 0x1280),
   (F.GL_DEVID_VARIANT, fun w _ => b2n w.lx1264),
   (F.GPIO_RAW_GPIO, fun w _ => w.pins.gpio),
   (F.GL_CMDQ_USED, fun w _ => w.cmd.queue.length),
   (F.EF_CH_LVL, fun w c => b2n (w.chLevel c)),
   (F.EF_LUTB_OUT, fun w l => b2n (w.lutOut 48 l)),
   (F.RING_STAT_PENDING, fun w n => w.rgPending n),
   (F.RING_BUFSTAT_USED, fun w _ => w.buf.length),
   (F.PW_EDGE_LVL, fun w p => (w.settled p).lvl p), (F.PW_EDGE_DUTY, fun w p => (w.settled p).f F.PW_EDGE_DUTY p),
   (F.PW_RSTAT_REBASE, fun w r => b2n (w.rebasing r)),
   (F.RING_BUFSTAT_BLOCKED, fun w _ => b2n w.blockedOn.isSome),
   (F.RING_BUFSTAT_BLKRING, fun w _ => w.blockedOn.getD 0),
   (F.BL_CFGSIG_SIG, fun w _ => w.cfgSig)]

def liveRoute : List (Fld × (World → Nat → Nat)) :=
  [(F.PROT_VSTAT_ARMED, fun w v => if v % 2 = 0 then w.f F.PROT_VCFG_EN v else w.f F.PROT_VSTAT_ARMED v),
   (F.PROT_PSTAT_KILL, fun w p => b2n ((w.phase p).kills.any fun k => k.src == 0 || k.src == 1)),
   (F.LE_RSTATE_QDEPTH, fun w r => w.cmd.queue.countP fun c => (c.on r).isSome),
   (F.LE_UCODE_VER_FORM, fun w r => w.lf F.LE_FORM_FORM r),
   (F.PW_RSTAT_NNOW, fun w r => w.nph r),
   (F.FC_ENTA_STATE, fun w i => (w.fc i).st.code),
   (F.FC_ENTA_LATE, fun w i => b2n (w.fc i).late),
   (F.FC_ENTA_CAPPED, fun w i => b2n (w.fc i).capped),
   (F.FC_ENTA_SRC, fun w i => (w.fc i).src),
   (F.FC_ENTA_SRCIDX, fun w i => (w.fc i).srcidx),
   (F.FC_ENTA_RAIL, fun w i => (w.fc i).rail),
   (F.FC_ENTB_FID, fun w i => (w.fc i).fid),
   (F.FC_ENTB_FSEQ, fun w i => (w.fc i).fseq),
   (F.FC_ENTC_START_LO, fun w i => (w.fc i).start % 2 ^ 32)]

def liveCore : List (Fld × (World → Nat → Nat)) :=
  [(F.CX_STAT_STATE, fun w k => w.cxShow 0 w.coreState k),
   (F.CX_STAT_RECOV, fun w k => w.cxShow 1 (fun c => bitsOf c.mode 3 1) k),
   (F.CX_STAT_PRIV, fun w k => w.cxShow 3 (fun c => bitsOf c.mode 0 2) k),
   (F.CX_PC_PC, fun w k => w.cxShow 0 Core.last k),
   (F.LS_AIP_GPIO_VALUE, fun w _ => w.pins.gpio),
   (F.LS_AIP_HKC_VALUE, fun w _ => w.f F.HKC_DIRECT_VALUE 0),
   (F.LS_AIP_HKC_INPUT, fun w _ => w.f F.HKC_DIRECT_INPUT 0),
   (F.IC_CFG_TRIG, fun _ s => b2n (!icLevel s)),
   (F.IC_CFG_PEND, fun w s => b2n (w.pending s)),
   (F.IC_CFG_LINE, fun w s => b2n (if icLevel s then w.icLine s else w.irqEdge.contains s)),
   (F.IC_PEND_PEND, fun w k => if k = 15 then w.f F.IC_PEND_PEND 15 else maskOf 32 fun b => w.pending (32 * k + b)),
   (F.IC_CORE_ELVL, fun w c => w.elvl c),
   (F.IC_CORE_ITHR, fun w c => (w.core c).ithr),
   (F.IC_CORE_AWAKE, fun w c => b2n (w.awake c)),
   (F.IC_CORE_IE, fun w c => bitsOf (w.core c).mode 2 1),
   (F.IC_CORE_OFFER, fun w c => (w.core c).offer.getD 0),
   (F.IC_CORE_OFFERV, fun w c => b2n (w.core c).offer.isSome),
   (F.DBG_STAT_OPEN, fun w _ => b2n w.dbgOpen),
   (F.DBG_STAT_HALTED, fun w _ => maskOf w.nCores fun c => (w.core c).st == 3)]

def liveRest : List (Fld × (World → Nat → Nat)) :=
  [(F.DMA_STAT_BUFUSED, fun w _ => w.bufUsed),
   (F.TR_BANKSTAT_ON, fun w _ => maskOf 12 w.bankOn),
   (F.TR_BANKSTAT_INUSE, fun w _ => maskOf 12 w.bankInUse),
   (F.CRN_STAT_BUSY, fun w _ => b2n (!w.crn.queue.isEmpty)),
   (F.CRN_STAT_QUEUED, fun w _ => w.crn.queue.length),
   (F.TM_CNT_LO_C_LO, fun w t => (w.timer t).cnt % 2 ^ 32),
   (F.TM_CAP_LO_P_LO, fun w t => (w.timer t).cap % 2 ^ 32),
   (F.TB_LO_T_LO, fun w _ => w.tb % 2 ^ 32),
   (F.SI_PMSTAT_ALERT, fun w _ => maskOf w.nRails fun r => w.pmb.mask r != 0),
   (F.EL_RRES_LO_Q_LO, fun w r => w.reserved r % 2 ^ 32),
   (F.EL_RRES_HI_Q_HI, fun w r => w.reserved r / 2 ^ 32 % 2 ^ 32),
   (F.PM_ISLSTAT_ON, fun w _ => maskOf 22 w.on)]

def liveFields : List (Fld × (World → Nat → Nat)) := liveGlobal ++ liveRoute ++ liveCore ++ liveRest

/-- What instance `i` of a field reads: 0 for a write-only one. -/
def World.shown (w : World) (B : Fld) (i : Nat) : Nat :=
  match liveFields.find? fun e => e.1.id == B.id with
  | some e => e.2 w i % 2 ^ B.wd
  | none => if B.acc = .wo then 0 else w.f B i

/-- The fields of instance `i` of a register at their places. -/
def World.rawShow (w : World) (g : Reg) (i : Nat) : Nat :=
  (g.lay.map fun e => w.shown e.2.1 (i * e.2.1.sub + e.2.2) <<< e.1).sum

/-- _LO registers whose read latches a _HI partner that the block holds beside them (R194, R278, R378, R431, R447). -/
def latchPairs : List (Reg × Reg) :=
  [(R.PROT_RFTS_LO, R.PROT_RFTS_HI), (R.EL_RACC_LO, R.EL_RACC_HI), (R.EL_RUSED_LO, R.EL_RUSED_HI), (R.EL_RLIM_LO, R.EL_RLIM_HI),
   (R.EL_RRES_LO, R.EL_RRES_HI), (R.EL_IACC_LO, R.EL_IACC_HI), (R.EL_SACC_LO, R.EL_SACC_HI), (R.EL_SLIM_LO, R.EL_SLIM_HI),
   (R.EL_SUSED_LO, R.EL_SUSED_HI), (R.PD_POSTB_LO, R.PD_POSTB_HI), (R.BL_TKO_LO, R.BL_TKO_HI), (R.TR_TRIGTB_LO, R.TR_TRIGTB_HI)]

/-- The holding copy of a register. -/
def World.held (w : World) (g : Reg) (i : Nat) : Nat := mget 0 w.hold (g.id + 4096 * i)

def World.setHeld (w : World) (g : Reg) (i v : Nat) : World := { w with hold := mset 0 w.hold (g.id + 4096 * i) v }

/-- What a register reads, with no action: a latched _HI partner reads as it was latched. -/
def World.regShow (w : World) (g : Reg) (i : Nat) : Nat :=
  if w.regAbsent g i then 0
  else if latchPairs.any fun e => e.2.id == g.id then w.held g i
  else w.rawShow g i

/-! ### Latching and clearing reads (R552) -/

/-- A read of a _LO register latches its _HI partner. -/
def World.latchHi (w : World) (lo hi : Reg) (i : Nat) : World × Nat := (w.setHeld hi i (w.rawShow hi i), w.rawShow lo i)

/-- A read of FC_ENTC latches FC_ENTD for a core (R140). -/
def World.readEntc (w : World) (i : Nat) : World × Nat :=
  (w.sf F.FC_ENTD_START_HI i ((w.fc i).start / 2 ^ 32), w.rawShow R.FC_ENTC i)

/-- Registers whose read latches, clears or copies something, with what the read does and answers. -/
def readers : List (Reg × (World → Agent → Nat → World × Nat)) :=
  [(R.RSC_SWRES, fun w _ n => w.readRscSwres n), (R.PCC_SWRES, fun w _ p => w.readPccSwres p),
   (R.ICC_SWRES, fun w _ k => w.readIccSwres k), (R.HKC_RES, fun w _ e => w.readHkcRes e), (R.FC_ENTC, fun w _ i => w.readEntc i),
   (R.TB_LO, fun w _ _ => w.readTbLo), (R.TM_CNT_LO, fun w _ t => w.readCntLo t), (R.TM_CAP_LO, fun w _ t => w.readCapLo t),
   (R.IC_SEM, fun w a j => w.readSem a j)]
  ++ latchPairs.map fun (e : Reg × Reg) => (e.1, fun w _ i => w.latchHi e.1 e.2 i)

/-- The action of a read of instance `i`: SEC_NONCE draws at its first word only (R481). -/
def reader (g : Reg) (i : Nat) : Option (World → Agent → Nat → World × Nat) :=
  if g.id = R.SEC_NONCE.id then
    (if i = 0 then some fun w _ i => let w := w.drawNonce; (w, w.rawShow R.SEC_NONCE i) else none)
  else (readers.find? fun e => e.1.id == g.id).map fun e => e.2

/-- A whole register read: a host read, or the low word of a core's, which takes the holding copy. -/
def World.readReg (w : World) (a : Agent) (g : Reg) (i : Nat) : World × Nat :=
  if w.regAbsent g i then (w, 0)
  else
    let w := w.touch (blockIsl (g.islandOf 1 i))
    match reader g i with
    | none => (w, if a = .host ∧ g.id = R.FC_ENTD.id then (w.fc i).start / 2 ^ 32 % 2 ^ 32 else w.regShow g i)
    | some f =>
      let (w, v) := f w a i
      match a with
      | .host => (w, v)
      | .core _ => (w.setHeld g i v, v)

/-- A register that answers: its block's island is on, and its offset is assigned. -/
def World.regOf (w : World) (off : Nat) : Option (Reg × Nat) :=
  match blockOf off with
  | none => none
  | some (n, o) => if w.absent (blockIsl n) || !w.on (blockIsl n) then none else regAt n o

/-- A core's read of the 16-bit word at byte offset `off`, whose island is on (R537, R552). -/
def World.readWord (w : World) (a : Agent) (off : Nat) : World × Nat :=
  match w.regOf (off / 4 * 4) with
  | none => (w, 0)
  | some (g, i) =>
    if off % 4 = 0 then
      let (w, v) := w.readReg a g i
      (w, v % 65536)
    else if (reader g i).isSome && !w.regAbsent g i then (w, w.held g i / 65536)
    else (w, w.regShow g i / 65536)

/-! ### Host access outside the normal answer (R20, R22, R200) -/

/-- Block whose island is present and off. -/
def World.blockOff (w : World) (off : Nat) : Bool :=
  match blockOf off with
  | none => false
  | some (n, _) => !w.absent (blockIsl n) && !w.on (blockIsl n)

/-- A host read of one DWORD. -/
def World.hostRead (w : World) (off : Nat) : World × Nat :=
  if within 0x80000 0x8FFFF off then
    if !w.on 2 then (w.hiErr F.HI_ERR_ISLAND_OFF (some (0, off)), 0xFA11FA11)
    else (w, if off % 0x1000 ≠ 0 then 0 else w.f F.RING_TAIL_TAIL ((off - 0x80000) / 0x1000))
  else if w.blockOff off then (w.hiErr F.HI_ERR_ISLAND_OFF (some (0, off)), 0xFA11FA11)
  else match w.regOf (off / 4 * 4) with
    | some (g, i) => w.readReg .host g i
    | none => (w, 0)

/-- A BAR0 request that is longer than one DWORD or has partial byte enables: `kind` 0 is a write, which is dropped, 1 a longer read,
which ends in Completer Abort, 2 a partial read, which is answered with its DWORD. -/
def World.badLen (w : World) (off kind : Nat) : World :=
  let w := w.hiErr F.HI_ERR_BADLEN (some (0, off))
  if kind = 2 then
    let (w, v) := w.hostRead (off / 4 * 4)
    w.emit (.read .host v)
  else if kind = 1 then
    World.emit { w with pcie := { w.pcie with aer := { w.pcie.aer with unc := w.pcie.aer.unc ||| 2 ^ 15 } } } .abort
  else w

def execBadlenRequest (off kind : Nat) (s : State) : Res :=
  onW s fun w => if w.on 1 ∧ off < 0x100000 then w.badLen off kind else w

/-! ### Writes (R7) -/

/-- The lock of an LK field has been set. -/
def World.lkSet (w : World) (B : Fld) : Bool :=
  if B.id = F.HI_LINKCAP_MAXSPEED.id ∨ B.id = F.HI_LINKCAP_MAXWIDTH.id then w.fb F.HI_LINKCAP_LOCK 0
  else if B.id = F.PM_PADCFG_LX0960.id then w.fb F.PM_PADCFG_LOCK 0
  else w.fb F.DMA_CTL_HWLOCK 0

/-- One field takes its bits of a write of `v` under `mask`; `lk` tells whether its lock was set before the write. -/
def World.writeField (w : World) (lk : Bool) (lo : Nat) (B : Fld) (i v mask : Nat) : World :=
  let x := B.cut lo v
  let hit := B.cut lo mask != 0
  match B.acc with
  | .rw => w.sf B i x
  | .lk => if lk then w else w.sf B i x
  | .w1c => w.sf B i (w.f B i - (w.f B i &&& x))
  | .rwo => if !hit || w.rwo.contains (B.key i) then w else { w.sf B i x with rwo := w.rwo ++ [B.key i] }
  | .ro | .wo => w

/-- Every field of instance `i` takes its bits by its access type. -/
def World.plain (w : World) (g : Reg) (i v mask : Nat) : World :=
  let old := w
  g.lay.foldl (fun w e => w.writeField (old.lkSet e.2.1) e.1 e.2.1 (i * e.2.1.sub + e.2.2) v mask) w

/-- The bits that a partial write leaves as they are: those of fields that hold what is written to them. -/
def World.keepBits (w : World) (g : Reg) (i : Nat) : Nat :=
  (g.lay.map fun e =>
    if e.2.1.acc = .rw ∨ e.2.1.acc = .lk ∨ e.2.1.acc = .rwo then w.shown e.2.1 (i * e.2.1.sub + e.2.2) <<< e.1 else 0).sum

/-- What a write of a register does: memory, state, writer, instance, value and mask. -/
abbrev Wr := Mem → World → Agent → Nat → Nat → Nat → Mem × World

/-- A write that touches no memory. -/
def wrW (f : World → Nat → Nat → World) : Wr := fun m w _ i v _ => (m, f w i v)

/-- A plain write, then `f`. -/
def wrThen (g : Reg) (f : World → Nat → Nat → World) : Wr := fun m w _ i v k => (m, f (w.plain g i v k) i v)

/-- A write that is refused with a flag under a condition. -/
def wrUnless (g : Reg) (bad : World → Nat → Nat → Bool) (err : World → Nat → World) : Wr :=
  fun m w _ i v k => (m, if bad w i v then err w i else w.plain g i v k)

/-! ### Global block, event fabric, host link, rings, belay -/

/-- GL_RSTCTL: CORE resets by physical core, then a WARM reset. -/
def wrRstctl : Wr := fun m w a _ v _ =>
  let ks := idxs 8 fun k => v.testBit (8 + k)
  let cs := idxs w.nCores fun c => ks.any fun k => w.logical k == c
  let (m, w) := cs.foldl (fun (p : Mem × World) c => if p.2.on (p.2.coreIsl c) then p.2.coreReset p.1 c else p) (m, w)
  (m, w.when (v.testBit 0) fun w => w.warmReset (match a with | .host => 5 | .core _ => 4))

def wrIslrst : Wr := fun m w _ _ v _ =>
  (idxs 22 fun n => n != 0 && v.testBit n).foldl (fun (p : Mem × World) n => p.2.islandRequest p.1 n true) (m, w)

/-- HI_ERRADDR is freed once every HI_ERR bit is 0 (R225). -/
def World.freeErrAddr (w : World) : World := w.when (w.hiErrWord == 0) fun w => w.sf F.HI_ERRADDR_VALID 0 0

/-- RING_CTL: RESET acts alone; RESUME comes before a change of EN. -/
def World.writeRingCtl (w : World) (n v : Nat) : World :=
  if v.testBit 2 then w.ringReset n
  else
    let w := w.when (v.testBit 1) fun w => w.ringResume n
    if v.testBit 0 ∧ !w.fb F.RING_CTL_EN n then w.ringEnable n
    else if !v.testBit 0 ∧ w.fb F.RING_CTL_EN n then w.ringDisable n else w

def ringOpen (w : World) (n _v : Nat) : Bool := w.fb F.RING_CTL_EN n
def ringCfgErr (w : World) (n : Nat) : World := w.sf F.RING_ERR_CFG n 1

def wrTelcfg : Wr := fun m w _ _ v k =>
  let was := w.f F.RING_TELCFG_PERIOD 0
  let w := w.plain R.RING_TELCFG 0 v k
  (m, if was = 0 ∧ w.f F.RING_TELCFG_PERIOD 0 ≠ 0 then ({ w with telNo := 0 } : World).telClear.start .telem else w)

def World.writeBlctl (w : World) (v : Nat) : World :=
  ((w.when (v.testBit 0) World.handover).when (v.testBit 1) World.refusePartner).when (v.testBit 2) World.resync

def writersGlobal : List (Reg × Wr) :=
  [(R.GL_RSTCTL, wrRstctl), (R.GL_ISLRST, wrIslrst),
   (R.EF_CH, wrW fun w c v => w.writeCh c (v % 512)), (R.EF_LUTA, wrW World.writeLuta), (R.EF_LUTB, wrW World.writeLutb),
   (R.EF_FFCFG, wrW World.writeFfcfg), (R.EF_WCFG, wrW World.writeWcfg),
   (R.EF_FLTA, wrUnless R.EF_FLTA (fun _ _ v => bitsOf v 16 12 == 0) fun w _ => w.sf F.EF_ERR_BADVAL 0 1),
   (R.EF_SWEV, wrW fun w _ v => (idxs 32 fun b => v.testBit b).foldl (fun w b => w.pulse (0x198 + b)) w),
   (R.HI_ERR, wrThen R.HI_ERR fun w _ _ => w.freeErrAddr),
   (R.MSIX_CTRL, wrThen R.MSIX_CTRL fun w _ _ => w.flushMsix),
   (R.RING_CFG, wrUnless R.RING_CFG ringOpen ringCfgErr), (R.RING_BASE_LO, wrUnless R.RING_BASE_LO ringOpen ringCfgErr),
   (R.RING_BASE_HI, wrUnless R.RING_BASE_HI ringOpen ringCfgErr), (R.RING_CTL, wrW World.writeRingCtl), (R.RING_TELCFG, wrTelcfg),
   (R.BL_CFG, wrThen R.BL_CFG fun w _ _ => w.showSync), (R.BL_CTL, wrW fun w _ v => w.writeBlctl v)]

/-! ### Sensing, protection, engines, forecasts, PWM -/

/-- A comparator's K and W break R167. -/
def kwBad (k wd : Nat) : Bool := k == 0 || decide (wd < k)

/-- A register of sixteen response codes holds a reserved one in a field that takes writes (R194). -/
def respBad (g : Reg) (v : Nat) : Bool := g.lay.any fun e => e.2.1.acc == .rw && !(e.2.2 == 12 || decide (14 ≤ e.2.2)) && decide (5 ≤ e.2.1.cut e.1 v)

/-- The response codes of one register; those of SENSE_LOST, ENGINE_FAULT and RESTART do not change (R184). -/
def wrResp (g : Reg) : Wr := fun m w _ r v _ =>
  if respBad g v then (m, w.sf F.PROT_ERR_BADVAL (grpR r) 1)
  else (m, g.lay.foldl (fun w e => if e.2.2 == 12 || decide (14 ≤ e.2.2) then w else w.sf e.2.1 (r * e.2.1.sub + e.2.2) (e.2.1.cut e.1 v)) w)

/-- A shadowed register of rail `i / per` is refused while that rail's COMMIT reads 1 (R99). -/
def wrLe (g : Reg) (per : Nat) : Wr :=
  wrUnless g (fun w i _ => w.fb F.LE_CTL_COMMIT (i / per)) fun w i => w.sf F.LE_ERR_CBUSY (i / per) 1

/-- A register of the rail's PWM set is refused while its RCOMMIT bit reads 1 (R164). -/
def wrPw (g : Reg) : Wr := wrUnless g (fun w r _ => w.railSetPending r) fun w r => w.sf F.PW_ERR_CBUSY (grpR r) 1

def wrRailcfg : Wr := fun m w a r v k =>
  if !w.railSetPending r && decide (2 ≤ bitsOf v 0 2) then (m, w.sf F.PW_ERR_BADVAL (grpR r) 1) else wrPw R.PW_RAILCFG m w a r v k

/-- PW_CTL of PW island `g`: bits newly written 1 ask for a commit. -/
def World.writePwctl (w : World) (g v : Nat) : World :=
  let w := w.when (v.testBit 0) fun w => w.bcommit g
  (idxs 12 fun k => v.testBit (16 + k)).foldl (fun w k => if w.railSetPending (12 * g + k) then w else w.rcommit (12 * g + k)) w

def writersRoute : List (Reg × Wr) :=
  [(R.RSC_CFG, wrW World.writeRscCfg), (R.RSC_SLOT, wrW World.writeSlot),
   (R.RSC_CORR_GAIN, wrW fun w i v => w.writeCorr (i / 8) (i % 8) .gain (v % 65536)),
   (R.RSC_CORR_OFS, wrW fun w i v => w.writeCorr (i / 8) (i % 8) .ofs (v % 65536)),
   (R.RSC_CORR_SKEW, wrW fun w i v => w.writeCorr (i / 8) (i % 8) .skew (v % 65536)),
   (R.RSC_DIVR, wrUnless R.RSC_DIVR (fun _ _ v => decide (v % 65536 < 0x4000)) fun w n => w.sf F.RSC_ERR_BADVAL n 1),
   (R.PROT_VCFG, wrUnless R.PROT_VCFG (fun _ _ v => kwBad (bitsOf v 16 4) (bitsOf v 20 4)) fun w i => w.sf F.PROT_VSTAT_BADVAL i 1),
   (R.PROT_PBLK, wrUnless R.PROT_PBLK (fun _ _ v => kwBad (bitsOf v 8 4) (bitsOf v 12 4)) fun w i => w.sf F.PROT_PSTAT_BADVAL i 1),
   (R.PROT_PCFG, wrUnless R.PROT_PCFG (fun _ _ v => bitsOf v 10 2 == 3) fun w i => w.sf F.PROT_PSTAT_BADVAL i 1),
   (R.PROT_RRESP0, wrResp R.PROT_RRESP0), (R.PROT_RRESP1, wrResp R.PROT_RRESP1), (R.PROT_RCLR, wrW World.writeRclr),
   (R.LE_CTL, wrW fun w r v => w.when (v.testBit 0) fun w => w.leCommit r),
   (R.LE_FORM, wrLe R.LE_FORM 1), (R.LE_RATE, wrLe R.LE_RATE 1), (R.LE_RAMP, wrLe R.LE_RAMP 1), (R.LE_LL, wrLe R.LE_LL 1),
   (R.LE_NLGT, wrLe R.LE_NLGT 1), (R.LE_NLGT2, wrLe R.LE_NLGT2 1), (R.LE_NLGG0, wrLe R.LE_NLGG0 1), (R.LE_NLGG1, wrLe R.LE_NLGG1 1),
   (R.LE_VIN, wrLe R.LE_VIN 1), (R.LE_DFF, wrLe R.LE_DFF 1), (R.LE_CALCFG, wrLe R.LE_CALCFG 1), (R.LE_COEF, wrLe R.LE_COEF 32),
   (R.FC_CFG, wrThen R.FC_CFG fun w _ v => w.when (v.testBit 1) World.statClear),
   (R.FC_RAILA, wrUnless R.FC_RAILA (fun _ _ v => decide (32 < bitsOf v 16 6)) fun w _ => w.sf F.FC_ERR_BADVAL 0 1),
   (R.FC_TPLA, wrW fun w t v => w.writeTpl t 0 v), (R.FC_TPLB, wrW fun w t v => w.writeTpl t 1 v),
   (R.FC_TPLC, wrW fun w t v => w.writeTpl t 2 v), (R.FC_TPLD, wrW fun w t v => w.writeTpl t 3 v),
   (R.FC_TPLE, wrW fun w t v => w.writeTpl t 4 v), (R.FC_TPLF, wrW fun w t v => w.writeTpl t 5 v),
   (R.FC_TPLG, wrW fun w t v => w.writeTpl t 6 v),
   (R.PW_BIND, wrUnless R.PW_BIND (fun w p _ => w.fb F.PW_CTL_BCOMMIT (grpP p)) fun w p => w.sf F.PW_ERR_CBUSY (grpP p) 1),
   (R.PW_RAILCFG, wrRailcfg), (R.PW_PER, wrPw R.PW_PER), (R.PW_RAILPH, wrPw R.PW_RAILPH), (R.PW_TLIM, wrPw R.PW_TLIM),
   (R.PW_DT, wrPw R.PW_DT), (R.PW_DTA, wrPw R.PW_DTA), (R.PW_ZC, wrPw R.PW_ZC), (R.PW_SHEDMAX, wrPw R.PW_SHEDMAX),
   (R.PW_NREQ, wrW fun w r v => w.writeNreq r (v % 64)), (R.PW_KSEL, wrThen R.PW_KSEL fun w r _ => w.lineKill r),
   (R.PW_CTL, wrW World.writePwctl)]

/-! ### Cores, debugger -/

/-- The debugger's three requests of a logical core (R363, R550): a core that is absent or in CORE reset takes none. -/
def World.dbgHalt (w : World) (c : Nat) : World :=
  let k := w.core c
  if c < w.nCores ∧ (k.st = 1 ∨ k.st = 2) then w.setCore c { k with st := 3, stepping := false, offer := none } else w

def World.dbgResume (w : World) (c : Nat) : World :=
  let k := w.core c
  if c < w.nCores ∧ k.st = 3 then w.setCore c { k with st := 1, stepping := false, replay := [] } else w

def World.dbgStep (w : World) (c : Nat) : World :=
  let k := w.core c
  if c < w.nCores ∧ k.st ≠ 0 then w.setCore c { k with st := 1, stepping := true, replay := [] } else w

/-- DBG_CTL: taken from the host while access is open. -/
def wrDbgctl : Wr := fun m w a _ v _ =>
  if a ≠ .host ∨ w.dbgOpen = false then (m, w.sf F.DBG_ERR_DENIED 0 1)
  else
    let w := (idxs 8 fun c => v.testBit c).foldl World.dbgHalt w
    let w := (idxs 8 fun c => v.testBit (8 + c)).foldl World.dbgResume w
    (m, (idxs 8 fun c => v.testBit (16 + c)).foldl World.dbgStep w)

/-- A DBG_CTL request as a command: refused while DBG access is closed. -/
def World.dbgRow (w : World) (f : World → World) : World :=
  if !w.on 21 then w else if w.dbgOpen then f w else w.sf F.DBG_ERR_DENIED 0 1

def execDbgHalt (c : Nat) (s : State) : Res := onW s fun w => w.dbgRow fun w => w.dbgHalt c
def execDbgResume (c : Nat) (s : State) : Res := onW s fun w => w.dbgRow fun w => w.dbgResume c
def execDbgStep (c : Nat) (s : State) : Res := onW s fun w => w.dbgRow fun w => w.dbgStep c

/-- CX_CTL.START in the window of physical core `k`; a checker's window has no effect (R330). -/
def World.writeCxctl (w : World) (k v : Nat) : World :=
  if v.testBit 0 ∧ (w.split ∨ k % 2 = 0) then w.coreStart (w.logical k) else w

/-- LS_CFG: the reserved codes of ACT are not taken. -/
def wrLscfg : Wr := fun m w _ j v k =>
  let act := w.f F.LS_CFG_ACT j
  let w := w.plain R.LS_CFG j v k
  (m, if 1 < w.f F.LS_CFG_ACT j then w.sf F.LS_CFG_ACT j act else w)

def writersCore : List (Reg × Wr) :=
  [(R.CX_CTL, wrW World.writeCxctl), (R.CX_ENTRY, wrW fun w k v => w.sf F.CX_ENTRY_ADDR k (v / 2 * 2)), (R.LS_CFG, wrLscfg),
   (R.IC_CFG, wrW World.writeIcCfg), (R.IC_SEM, wrW World.writeSem),
   (R.IC_PEND, wrW fun w k v => if k = 15 then w.sf F.IC_PEND_PEND 15 v else w), (R.DBG_CTL, wrDbgctl)]

/-! ### Flash, DMA, trace, Cairn -/

def wrPctl : Wr := wrThen R.FW_PCTL fun w _ v =>
  (w.when (v.testBit 0) fun w => w.portGo false).when (v.testBit 1 && !v.testBit 0) fun w => w.portGo true

def wrRsend : Wr := wrThen R.FW_RSEND fun w _ v => w.when (v.testBit 8 && w.on 18) World.rsendStart

def wrChctl : Wr := fun m w _ c v k =>
  let w := (w.plain R.DMA_CHCTL c v k).when (v.testBit 0) fun w => w.chStart m c
  (m, w.when (v.testBit 1) fun w => w.chAbort m c)

/-- TR_CTL: RELEASE, STOP, ARM and TRIG in this order; a STOP by register ends with the records already written. -/
def wrTrctl : Wr := fun m w _ u v _ =>
  let (m, w) := if v.testBit 3 ∧ w.trState u = 3 then (let w := w.sf F.TR_STAT_STATE u 0; (w.dropBanks m, w)) else (m, w)
  let w := if v.testBit 2 ∧ w.trRuns u then
      (let q := w.f F.TR_SEQ_SEQ u; (w.sf F.TR_STAT_STOPPED u 1).trDone u (q - min q (w.trSize u)))
    else w
  (m, (w.when (v.testBit 0) fun w => w.trArm u).when (v.testBit 1) fun w => w.trTrigger u)

/-- CRN_WBUF is firmware's (R490). -/
def wrWbuf : Wr := fun m w a i v k =>
  match a with
  | .host => (m, w.sf F.CRN_ERR_HOST 0 1)
  | .core _ => (m, w.plain R.CRN_WBUF i v k)

def writersMem : List (Reg × Wr) :=
  [(R.FW_PCTL, wrPctl), (R.FW_RSEND, wrRsend),
   (R.DMA_CHPTR, wrW fun w c v => w.sf F.DMA_CHPTR_ADDR c (v / 32 * 32)), (R.DMA_CHCTL, wrChctl), (R.TR_CTL, wrTrctl),
   (R.TR_RDSEQ, wrW World.writeRdseq), (R.CRN_WCTL, fun m w a _ v _ => (m, w.writeWctl a v)), (R.CRN_WBUF, wrWbuf)]

/-! ### Housekeeping, time, pumps -/

def wrHkcctl : Wr := fun m w _ _ v _ =>
  let was := w.fb F.HKC_CTL_EN 0
  let w := ((w.sf F.HKC_CTL_EN 0 (v % 2)).sf F.HKC_CTL_MODE 0 (bitsOf v 1 1)).sf F.HKC_CTL_TRIG 0 (bitsOf v 8 8)
  let w := w.when (!was && v.testBit 0) fun w => w.sf F.HKC_ERR_TRIGLOST 0 0
  (m, w.when (v.testBit 2) World.hkcSwap)

/-- TM_CTL: CLR, then START, then STOP, which wins, then OVRCLR (R396). -/
def World.writeTmctl (w : World) (t v : Nat) : World :=
  let w := w.when (v.testBit 2) (World.tmClear t)
  let w := (w.when (v.testBit 0) (World.tmStart t)).when (v.testBit 1) (World.tmStop t)
  w.when (v.testBit 3) fun w => w.tmOvrclr t

def wrCmplo : Wr := fun m w _ t v k => (m, if k % 65536 ≠ 0 then w.tmCommit t v else w.plain R.TM_CMP_LO t v k)

def pdBad (w : World) (k : Nat) : World := w.sf F.PD_ERR_BADVAL k 1

/-- PD_CFG names mode 3, or a predecessor that is absent or disabled (R438). -/
def pdCfgBad (w : World) (k v : Nat) : Bool :=
  bitsOf v 1 2 == 3 || (v.testBit 6 && (k == 0 || !w.fb F.PD_CFG_EN (k - 1)))

def encCfgBad (_ : World) (_k v : Nat) : Bool :=
  let d := bitsOf v 0 8
  decide (d < 4) || bitsOf v 8 2 == 3 || bitsOf v 10 2 == 3 || decide (2 * (d + 1) ≤ bitsOf v 16 8)

def wrPdcfg : Wr := fun m w _ k v x =>
  if pdCfgBad w k v then (m, pdBad w k)
  else
    let was := w.fb F.PD_CFG_EN k
    (m, (w.plain R.PD_CFG k v x).when (!was && v.testBit 0) fun w => w.pdEnable k)

def wrMotor : Wr := fun m w _ k v x =>
  if bitsOf v 0 4 = 0 then (m, pdBad w k) else (m, (w.plain R.PD_MOTOR k v x).ampFollow k)

/-- PD_ERR: FLT is released by its own rule (R436). -/
def wrPderr : Wr := fun m w _ k v x =>
  let w := w.plain R.PD_ERR k (v % 64) x
  (m, w.when (v.testBit 6) fun w => w.pdRelease k)

def rateBad (_ : World) (_i v : Nat) : Bool := decide (rateMax < sx 32 v) || decide (sx 32 v < -rateMax)

def tbBad (w : World) (_i : Nat) : World := w.sf F.TB_ERR_BADVAL 0 1
def tmBad (w : World) (t : Nat) : World := w.sf F.TM_STAT_BADVAL t 1

def wrSynced (g : Reg) (bad : World → Nat → Nat → Bool) : Wr := fun m w a i v k =>
  let (m, w) := wrUnless g bad tbBad m w a i v k
  (m, w.showSync)

def writersTime : List (Reg × Wr) :=
  [(R.HKC_CTL, wrHkcctl), (R.TB_CTL, wrW fun w _ v => w.when (v.testBit 0) World.tbLoad), (R.TB_RATE, wrSynced R.TB_RATE rateBad),
   (R.TB_SYNC, wrSynced R.TB_SYNC fun _ _ v => v % 4 == 3),
   (R.TM_CFG, wrUnless R.TM_CFG (fun _ t v => v % 4 == 3 || (bitsOf v 2 2 == 3 && t == 0)) tmBad),
   (R.TM_STEP, wrUnless R.TM_STEP (fun _ _ v => v % 2 ^ 25 == 0 || decide (2 ^ 24 < v % 2 ^ 25)) tmBad),
   (R.TM_CTL, wrW World.writeTmctl), (R.TM_CNT_LO, wrW fun w t v => w.writeCnt t false v),
   (R.TM_CNT_HI, wrW fun w t v => w.writeCnt t true v), (R.TM_CMP_LO, wrCmplo),
   (R.PD_CFG, wrPdcfg), (R.PD_MOTOR, wrMotor), (R.PD_ENCCFG, wrUnless R.PD_ENCCFG encCfgBad pdBad),
   (R.PD_DUTYB, wrW fun w k v => w.pdCommit k (v % 65536)), (R.PD_AMP, wrThen R.PD_AMP fun w k _ => w.ampFollow k),
   (R.PD_BOOSTAMP, wrThen R.PD_BOOSTAMP fun w i _ => w.ampFollow (i / 16)), (R.PD_ERR, wrPderr)]

/-! ### Side interfaces, power, security -/

def wrPadrel : Wr := wrW fun w _ v => w.padRel v

/-- PM_CFG: TRIMEN newly set starts every island's idle time (R269). -/
def wrPmcfg : Wr := fun m w _ i v k =>
  let was := w.fb F.PM_CFG_TRIMEN 0
  let w := w.plain R.PM_CFG i v k
  (m, (w.when (!was && w.fb F.PM_CFG_TRIMEN 0) fun w => (idxs 22 fun _ => true).foldl (fun w n => w.start (.trim n)) w).showPm)

def wrIslreq : Wr := fun m w _ _ v _ =>
  (idxs 22 fun n => v.testBit n && !w.absent n).foldl (fun (p : Mem × World) n => p.2.islStop p.1 n) (m, w)

def wrAuthctl : Wr := wrThen R.SEC_AUTHCTL fun w _ v => w.when (v.testBit 15) World.authGo

def writersRest : List (Reg × Wr) :=
  [(R.SI_I3CCTL, wrThen R.SI_I3CCTL fun w _ v =>
      w.when (v.testBit 0) fun w => World.ibiGo { w with side := { w.side with ibi := true } }),
   (R.SI_ROPECTL, wrW fun w _ v => w.when (v.testBit 0 && w.ropeOn && w.fb F.SI_ROPECFG_ROOT 0) World.enumSend),
   (R.PM_CFG, wrPmcfg), (R.PM_PADREL, wrPadrel),
   (R.PM_RETCFG, wrW fun w _ v => w.sf F.PM_RETCFG_BANKS 0 (v ||| 0x801)), (R.PM_ISLREQ, wrIslreq),
   (R.PM_ISLREQ2, wrW fun w _ v => (idxs 22 fun n => v.testBit n).foldl World.islStart w),
   (R.LC_REQ, wrW fun w _ v => if w.fb F.LC_STAT_BUSY 0 = false ∧ w.pwr.warm = none then w.lcReq (v % 8) else w),
   (R.SEC_AUTHCTL, wrAuthctl), (R.SEC_OWNLOCK, wrW fun w _ v => w.when (v.testBit 0) fun w => w.sf F.SEC_OWNLOCK_LOCKED 0 1),
   (R.SEC_CTL, fun m w _ _ v _ => (m, w.when (v.testBit 0) fun w => w.svnCommit m)),
   (R.SEC_OTPCTL, wrThen R.SEC_OTPCTL fun w _ v => w.when (v.testBit 15) World.otpWrite)]

/-- Registers whose write is more than their access types say. -/
def writers : List (Reg × Wr) := writersGlobal ++ writersRoute ++ writersCore ++ writersMem ++ writersTime ++ writersRest

/-- A write of the bits of `v` that `mask` picks to a register: a write that touches no field is ignored. -/
def World.writeReg (w : World) (m : Mem) (a : Agent) (g : Reg) (i v mask : Nat) : Mem × World :=
  if w.regAbsent g i || !g.lay.any fun e => e.2.1.cut e.1 mask != 0 then (m, w)
  else
    let w := w.touch (blockIsl (g.islandOf 1 i))
    let x := mergeMask (w.keepBits g i) v mask
    match writers.find? fun e => e.1.id == g.id with
    | some e => e.2 m w a i x mask
    | none => (m, w.plain g i x mask)

/-- A register write whose island is on; another address takes none (R29, R31, R537). -/
def World.writeAt (w : World) (m : Mem) (a : Agent) (off v mask : Nat) : Mem × World :=
  match w.regOf off with
  | some (g, i) => w.writeReg m a g i v mask
  | none => (m, w)

/-- A host write of one DWORD (R20, R200, R210). -/
def World.hostWrite (w : World) (m : Mem) (off v mask : Nat) : Mem × World :=
  if 0x100000 ≤ off ∨ w.on 1 = false then (m, w)
  else if mask ≠ 0xFFFFFFFF ∨ off % 4 ≠ 0 then (m, w.hiErr F.HI_ERR_BADLEN (some (0, off)))
  else if within 0x80000 0x8FFFF off then
    (m, if off % 0x1000 = 0 then w.doorbell ((off - 0x80000) / 0x1000) v else w)
  else if w.blockOff off then (m, w.hiErr F.HI_ERR_ISLAND_OFF (some (0, off)))
  else w.writeAt m .host off v 0xFFFFFFFF

end Sys2Proof.Machine
end

