-- ==== Sys2Proof/Machine/CoreBus.lean ====
section
/-! DEFINITION. What a Wylar-16 core does on its buses: own TCM, checks of an access, the store buffer and its forwarding,
line buffers, the branch target buffer, the side unit's results (R21, R28, R29, R305, R313 to R322, R344, R345). -/

namespace Sys2Proof.Machine

/-! ### Addresses (R28, R32) -/

/-- First word of logical core `c`'s own TCM at its global address. -/
def World.tcmBase (w : World) (c : Nat) : Nat := 0x00100000 + w.phys c * 0x20000

/-- The global address of an address as core `c` issues it. -/
def World.coreAddr (w : World) (c a : Nat) : Nat := if a < 0x20000 then w.tcmBase c + a else a

def isReg (a : Nat) : Bool := within 0x00040000 0x00073FFF a

/-- `a` lies in own TCM, in either view. -/
def World.inOwnTcm (w : World) (c a : Nat) : Bool :=
  let x := w.memAddr (w.coreAddr c a)
  decide (w.tcmBase c ≤ x) && decide (x < w.tcmBase c + 0x20000)

/-- The island that answers at address `a`; none is unmapped. -/
def World.busIsl (w : World) (c a : Nat) : Option Nat :=
  if isReg a then (blockOf ((a - 0x40000) * 2)).map fun b => blockIsl b.1 else memIsl (w.coreAddr c a)

/-! ### Checks of an access (R21, R29, R427) -/

/-- How the buses take an access: it completes, it raises a cause of R336, or it waits for island `n` to wake. -/
inductive Bus where
  | ok
  | err (cause : Nat)
  | wake (n : Nat)
  deriving DecidableEq, Repr

/-- An access to `a`; `noWake` once an AUTOWAKE stall has run out. -/
def World.bus (w : World) (c a : Nat) (store noWake : Bool) : Bus :=
  match w.busIsl c a with
  | none => .err 0x11
  | some n =>
    let x := w.coreAddr c a
    if store && (isFlash x || isCairn x || (w.busyUnit x).isSome) then .err 0x12
    else if w.on n || w.absent n then .ok
    else if !noWake && (w.f F.PM_AUTOWAKE_AW 0).testBit n then .wake n
    else .err 0x13

/-- The access of core `c` waits for island `n` to wake (R21): what it does then is kept. -/
def World.stall (w : World) (c n : Nat) (op : StallOp) : World :=
  (World.start { w with pwr := { w.pwr with stalls := w.pwr.stalls ++ [(c, n, op)] } } (.access c)).islStart n

/-- An access of core `c` waits. -/
def World.stalled (w : World) (c : Nat) : Bool := w.pwr.stalls.any fun e => e.1 == c

/-! ### Memory protection (R344, R345) -/

/-- Region `r` of core `k` is enabled and contains `a`. -/
def Core.inRegion (k : Core) (r a : Nat) : Bool :=
  let lo := mget 0 k.mpu (0x20 + 4 * r)
  let size := max 6 (lo % 32)
  let base := lo / 64 * 64 + 65536 * mget 0 k.mpu (0x21 + 4 * r)
  (mget 0 k.mpu (0x22 + 4 * r)).testBit 0 && a / 2 ^ size == base / 2 ^ size

/-- The access `kind` (0 read, 1 write, 2 execute) of `a` is allowed at the level in force. -/
def Core.mpuOk (k : Core) (kind a : Nat) : Bool :=
  let lvl := k.mode % 4
  if 2 ≤ lvl then true
  else match (List.range 8).reverse.find? fun r => k.inRegion r a with
    | some r => (mget 0 k.mpu (0x22 + 4 * r)).testBit (if lvl = 1 then 1 + kind else 4 + kind)
    | none => false

/-! ### Store buffer (R318, R319) -/

/-- The oldest `n` stores leave the buffer. -/
def World.drainStores (w : World) (m : Mem) (c : Nat) : Nat → Mem × World
  | 0 => (m, w)
  | n + 1 =>
    let k := w.core c
    match k.sb with
    | [] => (m, w)
    | (a, l) :: rest =>
      let m := if w.memOff a then m else w.memWrites m a l
      (w.setCore c { k with sb := rest }).drainStores m c n

/-- Every store leaves the buffer. -/
def World.drainAll (w : World) (m : Mem) (c : Nat) : Mem × World := w.drainStores m c (w.core c).sb.length

def execStoreDrain (c : Nat) (s : State) : Res :=
  onM s fun m w => if c < w.nCores ∧ w.on (w.coreIsl c) then w.drainStores m c 1 else (m, w)

/-- The youngest buffered store that shares a word with `[a, a + n)`: its place and content. -/
def Core.overlap (k : Core) (a n : Nat) : Option (Nat × Nat × List Nat) :=
  (k.sb.zipIdx.reverse.find? fun e => decide (e.1.1 < a + n) && decide (a < e.1.1 + e.1.2.length)).map fun e => (e.2, e.1)

/-- The line of an address. -/
def lineAt (a : Nat) : Nat := a / 16 * 16

/-- A word as core `c` reads it from memory: flash through a buffered line. -/
def World.coreWord (w : World) (m : Mem) (c x : Nat) : Nat :=
  if isFlash x then
    match (w.core c).lines.find? fun e => e.1 == lineAt x with
    | some e => e.2.getD (x % 16) 0
    | none => w.memRead m x
  else w.memRead m x

/-- A checked load of `n` words from `a` (R318, R319, R552). -/
def World.coreLoad (w : World) (m : Mem) (c a n : Nat) : Mem × World × List Nat :=
  if isReg a then
    let (m, w) := w.drainAll m c
    let (w, l) := (List.range n).foldl (fun (p : World × List Nat) j =>
      let (w, v) := p.1.readWord (.core c) ((a + j - 0x40000) * 2)
      (w, p.2 ++ [v])) (w, [])
    (m, w, l)
  else
    let x := w.memAddr (w.coreAddr c a)
    let read (m : Mem) (w : World) : List Nat := (List.range n).map fun j => w.coreWord m c (w.coreAddr c (a + j))
    match (w.core c).overlap x n with
    | none => (m, w.touchAt x, read m w)
    | some (i, y, l) =>
      if y = x ∧ l.length = n then (m, w, l)
      else
        let (m, w) := w.drainStores m c (i + 1)
        (m, w.touchAt x, read m w)

/-- A checked store: register space is written at once, every other store enters the buffer; the core's own buffered line is
invalidated (R315, R318). -/
def World.coreStore (w : World) (m : Mem) (c a : Nat) (l : List Nat) : Mem × World :=
  if isReg a then
    let (m, w) := w.drainAll m c
    let off := (a - 0x40000) * 2
    if l.length = 2 then w.writeAt m (.core c) off (l.getD 0 0 + 65536 * l.getD 1 0) 0xFFFFFFFF
    else if off % 4 = 0 then w.writeAt m (.core c) off (l.getD 0 0) 0xFFFF
    else w.writeAt m (.core c) (off - 2) (65536 * l.getD 0 0) 0xFFFF0000
  else
    let (m, w) := if 4 ≤ (w.core c).sb.length then w.drainStores m c 1 else (m, w)
    let x := w.memAddr (w.coreAddr c a)
    let w := w.touchAt x
    let k := w.core c
    (m, w.setCore c { k with sb := k.sb ++ [(x, l)], lines := k.lines.filter fun e => e.1 != lineAt x })

/-! ### Line buffers (R314, R315) -/

/-- Fetch of `pc` uses line buffers. -/
def lined (a : Nat) : Bool := isFlash a || isSram a

/-- A line is requested. -/
def World.requestLine (w : World) (c l : Nat) : World :=
  let k := w.core c
  if k.fills.contains l ∨ k.lines.any (fun e => e.1 == l) then w else w.setCore c { k with fills := k.fills ++ [l] }

/-- A missing line of `pc` that no request has been made for is a miss; none is missing when the line is buffered. -/
def World.missLine (w : World) (c a : Nat) : Option World :=
  let k := w.core c
  if !lined a ∨ k.lines.any (fun e => e.1 == lineAt a) then none
  else if k.fills.contains (lineAt a) then some w
  else some ((w.requestLine c (lineAt a)).inc F.CX_PERF_LBMISS (w.phys c))

/-- Fetch at `pc`: its line becomes the most recently used, and on entering a line its successor is requested. -/
def World.touchLine (w : World) (c a : Nat) : World :=
  if !lined a then w
  else
    let k := w.core c
    let l := lineAt a
    let hit := k.lines.filter fun e => e.1 == l
    let w := w.setCore c { k with lines := hit ++ k.lines.filter fun e => e.1 != l }
    if k.pfEn && lineAt k.last != l && lined (l + 16) then w.requestLine c (l + 16) else w

/-- A requested line arrives; the least recently used of four leaves. -/
def execLineFill (c line : Nat) (s : State) : Res :=
  onW s fun w =>
    let k := w.core c
    if c < w.nCores ∧ k.fills.contains line ∧ w.memOff line = false then
      let words := (List.range 16).map fun j => w.memRead s.mem (line + j)
      w.setCore c { k with fills := k.fills.filter (fun x => x != line), lines := ((line, words) :: k.lines).take 4 }
    else w

/-! ### Branch target buffer (R316) -/

def btbIdx (pc : Nat) : Nat := bitsOf pc 1 6
def btbTag (pc : Nat) : Nat := pc / 128

/-- The entry of the branch at `pc`. -/
def Core.btbAt (k : Core) (pc : Nat) : Option Btb :=
  match k.btb.find? fun e => e.1 == btbIdx pc with
  | some (_, b) => if b.tag = btbTag pc then some b else none
  | none => none

def Core.btbPut (k : Core) (pc : Nat) (b : Btb) : Core :=
  { k with btb := (btbIdx pc, b) :: k.btb.filter fun e => e.1 != btbIdx pc }

/-- A branch at `pc` resolves: its target when it is taken. -/
def World.branch (w : World) (c pc : Nat) (taken : Option Nat) : World :=
  let k := w.core c
  let e := k.btbAt pc
  let pred : Option Nat := match e with
    | some b => if k.btbEn && decide (2 ≤ b.ctr) then some b.target else none
    | none => none
  let w := w.when (pred != taken) fun w => w.inc F.CX_PERF_BPMISS (w.phys c)
  match taken, e with
  | some t, some b =>
    w.setCore c (k.btbPut pc { b with target := t, ctr := if pred.isSome then min 3 (b.ctr + 1) else 2 })
  | some t, none => w.setCore c (k.btbPut pc { tag := btbTag pc, target := t, ctr := 2 })
  | none, some b => w.setCore c (k.btbPut pc { b with ctr := b.ctr - 1 })
  | none, none => w

/-! ### Side unit (R320 to R322) -/

/-- MA takes a value of 72 bits; a sum outside them is a free value. -/
def World.addMa (w : World) (c : Nat) (x : Int) : World :=
  let k := w.core c
  let v := k.ma + x
  if v = satS 72 v then w.setCore c { k with ma := v }
  else
    let (w, f) := w.draw
    w.setCore c { k with ma := sx 72 f }

/-- A result is written: to its pair, or into MA. -/
def World.landResult (w : World) (c : Nat) (r : SideRes) : World :=
  match r.dst with
  | none => w.addMa c r.val
  | some d =>
    let k := (w.core c).setPair d (unI 32 r.val)
    w.setCore c { k with dz := k.dz || r.dz }

/-- Result `n` of those in flight, in issue order, is written. -/
def execSideUnitResult (c n : Nat) (s : State) : Res :=
  onW s fun w =>
    let k := w.core c
    if w.nCores ≤ c ∨ w.on (w.coreIsl c) = false then w
    else match k.side[n]? with
      | none => w
      | some r => (w.setCore c { k with side := k.side.eraseIdx n }).landResult c r

/-- Every result in flight is written, but a DIV issued under RECOV is abandoned: its PC (R322). -/
def World.landAll (w : World) (c : Nat) : World × Option Nat :=
  let l := (w.core c).side
  let w := w.setCore c { w.core c with side := [] }
  let w := (l.filter fun r => !(r.isDiv && r.recov)).foldl (fun w r => w.landResult c r) w
  (w, (l.find? fun r => r.isDiv && r.recov).map fun r => r.pc)

/-- An instruction that names the W registers `regs` must wait: a result for one of them, or a DIV issued under RECOV, is in
flight. -/
def Core.waits (k : Core) (regs : List Nat) : Bool :=
  k.side.any fun r => (r.isDiv && r.recov) || r.dst.any fun d => regs.contains d || regs.contains (d + 1)

/-- A MAC is in flight. -/
def Core.macBusy (k : Core) : Bool := k.side.any fun r => r.dst.isNone

/-- A DIV is in flight. -/
def Core.divBusy (k : Core) : Bool := k.side.any fun r => r.isDiv

end Sys2Proof.Machine
end

