-- ==== Sys2Proof/Machine/Exceptions.lean ====
section
/-! DEFINITION. Taking an exception or interrupt on a Wylar-16 core, returning from one, gates, and how one instruction runs:
staged settings, fetch, encoding checks, guard, retirement (R305 to R307, R310, R322 to R328, R332 to R343, R350, R351). -/

namespace Sys2Proof.Machine

/-! ### Staged settings (R325, R353) -/

/-- A staged CSR comes into force: MODE, ITHR or an MPU register. -/
def Core.force (k : Core) (csr v : Nat) : Core :=
  if csr = 1 then { k with mode := v % 16 }
  else if csr = 0x1B then { k with ithr := v % 16 }
  else { k with mpu := mset 0 k.mpu csr (if csr % 4 = 0 then v &&& 0xFFDF else if csr % 4 = 1 then v % 65536 else v % 128) }

/-- One more instruction runs: settings whose three instructions have passed come into force. -/
def Core.tick (k : Core) : Core :=
  let due := k.staged.filter fun e => e.1 == 0
  let k' := due.foldl (fun k e => k.force e.2.1 e.2.2) { k with staged := [] }
  { k' with staged := (k.staged.filter fun e => e.1 != 0).map fun e => (e.1 - 1, e.2) }

/-- Every staged setting comes into force. -/
def Core.forceAll (k : Core) : Core := k.staged.foldl (fun k e => k.force e.2.1 e.2.2) { k with staged := [] }

/-! ### Frames (R338, R339) -/

/-- What a frame says beside the core's registers: CAUSE, FLAGS, SRC, XINFO and the saved PC. -/
structure FrameHead where
  cause : Nat
  flags : Nat
  src : Nat
  info : Nat
  pc : Nat

/-- The 48 words of a frame. -/
def Core.frame (k : Core) (h : FrameHead) : List Nat :=
  let half (v : Nat) : List Nat := [v % 65536, v / 65536 % 65536]
  let ma := unI 72 k.ma
  [h.cause, h.flags, h.src, k.mode % 4] ++ half h.pc ++ [k.mode, k.pr &&& 0xFE] ++ half h.info
  ++ (List.range 16).map k.w ++ (List.range 8).flatMap (fun n => half (k.a n))
  ++ [ma % 65536, ma / 2 ^ 16 % 65536, ma / 2 ^ 32 % 65536, ma / 2 ^ 48 % 65536, ma / 2 ^ 64, 0]

/-- First word of the frame at TSBP, at its global address. -/
def World.frameAt (w : World) (c : Nat) : Nat := w.tcmBase c + 64 * (w.core c).tsbp

/-- A frame stack overflow: CORE reset, CX_LOCKUP, a Cairn record (R338). -/
def World.lockup (w : World) (m : Mem) (c : Nat) : Mem × World :=
  let cause := (w.core c).xcause
  let (m, w) := w.coreReset m c
  (m, (w.irq (0x0A8 + w.phys c)).cairn 0x31 (leBytes 4 (w.phys c) ++ leBytes 4 cause))

/-- A frame is pushed, or none fits. -/
def World.pushFrame (w : World) (m : Mem) (c : Nat) (h : FrameHead) : Option (Mem × World) :=
  let k := w.core c
  if k.tsbp ≤ k.tsblim then none
  else
    let w' := w.setCore c { k with tsbp := k.tsbp - 1 }
    some (w.memWrites m (w'.frameAt c) (k.frame h), w')

/-! ### Entry (R322, R335) -/

/-- What the core holds is finished before entry: staged settings, stores, side-unit results; the PC to save. -/
def World.quiesce (w : World) (m : Mem) (c pc : Nat) : Mem × World × Nat :=
  let w := w.setCore c (w.core c).forceAll
  let (m, w) := w.drainAll m c
  let (w, ab) := w.landAll c
  match ab with
  | some p => (m, w.setCore c { w.core c with ret := (w.core c).ret - 1 }, p)
  | none => (m, w, pc)

/-- Entry with cause `cause` and detail `info`; `src` is the interrupt source. -/
def World.enter (w : World) (m : Mem) (c cause info pc : Nat) (src : Option Nat) : Mem × World :=
  let (m, w, pc) := w.quiesce m c pc
  match w.pushFrame m c { cause := cause, flags := b2n src.isSome, src := src.getD 0xFFFF, info := info, pc := pc } with
  | none => w.lockup m c
  | some (m, w) =>
    let k := w.core c
    (m, w.setCore c { k with mode := (k.mode &&& 8) ||| 3, xcause := cause, xinfo := info, pc := k.xvec, offer := none
                             st := if k.stepping then 3 else 1, stepping := false })

/-! ### How an instruction ends -/

/-- The instruction retires and execution goes on at `pc`; it raises a cause, `pc` being saved; or it does not complete. -/
inductive Exe where
  | next (m : Mem) (w : World) (pc : Nat)
  | exc (m : Mem) (w : World) (cause info pc : Nat)
  | hold (m : Mem) (w : World)

/-- Retirement of the instruction at `old` (R329, R330); a core that the instruction has reset or halted keeps its state. -/
def World.retire (w : World) (c old pc : Nat) : World :=
  let k := w.core c
  if k.st ≠ 1 then w
  else w.setCore c { k with last := old, pc := pc, ret := (k.ret + 1) % 2 ^ 48, st := if k.stepping then 3 else 1, stepping := false }

/-- An instruction of core `c` at `old` ends. -/
def Exe.finish (e : Exe) (c old : Nat) : Mem × World :=
  match e with
  | .next m w pc => (m, w.retire c old pc)
  | .exc m w cause info pc => w.enter m c cause info pc none
  | .hold m w => (m, w)

/-! ### One instruction (R307, R310, R313, R314, R325, R337) -/

/-- An instruction of a core in a state: whether it takes four words, whether its encoding is refused, the W registers it
names, the target of a control transfer, and what it does when its guard holds. -/
structure Ins where
  long : Bool := false
  bad : Bool := false
  regs : List Nat := []
  jump : Option Nat := none
  /-- a branch that the BTB predicts -/
  btb : Bool := false
  /-- the side unit is busy with what it needs -/
  busy : Bool := false
  /-- the level in force is too low -/
  priv : Bool := false
  go : Mem → World → Exe

/-- The core may issue: it runs, or it waits with IE = 0 and an interrupt has become pending (R328). -/
def World.mayIssue (w : World) (c : Nat) : Bool :=
  let k := w.core c
  decide (c < w.nCores) && w.awake c && decide (w.pwr.sent < 2) && !w.stalled c
  && (k.st == 1 || (k.st == 2 && !k.mode.testBit 2 && w.irqFor c))

/-- A core in WAIT goes on behind it. -/
def World.leaveWait (w : World) (c : Nat) : World :=
  let k := w.core c
  if k.st = 2 then (w.setCore c { k with st := 1 }).retire c k.pc ((k.pc + 2) % 2 ^ 32) else w

/-- The cause that a fetch of the word pair at `a` raises (R314, R345). -/
def World.fetchBad (w : World) (c a : Nat) : Option Nat :=
  if !w.inOwnTcm c a && !lined a then some 0x15
  else if !(w.core c).mpuOk 2 a then some 0x08
  else if w.memOff (w.coreAddr c a) then some 0x13
  else none

/-- The cause and address with which the fetch of an instruction of two or four words fails. -/
def World.fetchFault (w : World) (c pc pc2 : Nat) (long : Bool) : Option (Nat × Nat) :=
  ((w.fetchBad c pc).map fun e => (e, pc)).or (if long then (w.fetchBad c pc2).map fun e => (e, pc2) else none)

/-- The state after the request of a line that the fetch still needs. -/
def World.fetchMiss (w : World) (c pc pc2 : Nat) (long : Bool) : Option World :=
  (w.missLine c pc).or (if long then w.missLine c pc2 else none)

/-- A fetch that fails, that waits for a line, or that has brought its instruction. -/
def fetchDo (bad : Option (Nat × Nat)) (miss : Option World) (m : Mem) (fault : Nat → Nat → Mem × World) (go : Mem × World) : Mem × World :=
  match bad with
  | some (e, a) => fault e a
  | none => match miss with
    | some v => (m, v)
    | none => go

/-- The fetched instruction at `pc`: encoding, guard, level, and its effect. -/
def World.act (w : World) (m : Mem) (c i pc : Nat) (x : Ins) : Mem × World :=
  let g := (w.core c).guard i
  if g && x.jump.any fun t => t % 2 == 1 then w.enter m c 0x10 (x.jump.getD 0) pc none
  else if guardBad i || x.bad then w.enter m c 0x01 i pc none
  else if g && x.priv then w.enter m c 0x02 i pc none
  else if g then (x.go m w).finish c pc
  else (m, (w.when x.btb fun w => w.branch c pc none).retire c pc ((pc + if x.long then 4 else 2) % 2 ^ 32))

/-- The instruction word `i` of core `c` runs: `mk` gives it in the core's state. -/
def World.runIns (w : World) (m : Mem) (c i : Nat) (mk : World → Ins) : Mem × World :=
  let w0 := w.leaveWait c
  let pc := (w0.core c).pc
  let w1 := w0.setCore c (w0.core c).tick
  let x := mk w1
  let pc2 := (pc + 2) % 2 ^ 32
  fetchDo (w1.fetchFault c pc pc2 x.long) (w0.fetchMiss c pc pc2 x.long) m (fun e a => w1.enter m c e a pc none)
    (if (w0.core c).waits x.regs || x.busy then (m, w0) else (w1.touchLine c pc).act m c i pc x)

/-- A row of the core's instruction set with operation code `op`. -/
def coreRow (s : State) (c : Nat) (i : BitVec 32) (op : Nat) (mk : World → Ins) : Res :=
  onM s fun m w => if w.mayIssue c ∧ insOp i.toNat = op then w.runIns m c i.toNat mk else (m, w)

/-! ### Return (R332, R334, R341, R351) -/

/-- The rank of a level: 0b10 above M. -/
def rank (p : Nat) : Nat := if p = 3 then 2 else if p = 2 then 3 else p

/-- Every saved item of the frame at `f` comes back; a gate's frame keeps W0 to W3 and P1. -/
def Core.restore (k : Core) (rd : Nat → Nat) (gate : Bool) : Core :=
  let pr := if gate then (rd 7 &&& 0xFC) ||| (k.pr &&& 2) else rd 7 &&& 0xFE
  let ma := rd 42 + 2 ^ 16 * rd 43 + 2 ^ 32 * rd 44 + 2 ^ 48 * rd 45 + 2 ^ 64 * (rd 46 % 256)
  let k := (List.range 16).foldl (fun (k : Core) n => if gate && decide (n < 4) then k else k.setW n (rd (10 + n))) k
  let k := (List.range 8).foldl (fun (k : Core) n => k.setA n (rd (26 + 2 * n) + 65536 * rd (27 + 2 * n))) k
  { k with mode := rd 6 % 16, pr := pr ||| 1, ma := sx 72 ma, tsbp := k.tsbp + 1 }

def World.retx (w : World) (m : Mem) (c : Nat) : Exe :=
  let k := w.core c
  if k.tsbp = k.tsbtop then .exc m w 0x06 0 k.pc
  else
    let (m, w) := w.drainAll m c
    let k := w.core c
    let f := w.frameAt c
    let rd (n : Nat) : Nat := m.word (f + n)
    let pc := rd 4 + 65536 * rd 5
    let p := rank (rd 6 % 4)
    if pc % 2 = 1 then .exc m w 0x10 pc k.pc
    else if rank (rd 3 % 4) < p ∨ rank (k.mode % 4) < p then .exc m w 0x05 (64 * k.tsbp) k.pc
    else
      let (w, _) := w.landAll c
      let w := w.setCore c ((w.core c).restore rd ((rd 1).testBit 1))
      let w := w.when ((rd 1).testBit 0 && (w.core c).svc.contains (rd 2)) fun w => w.leaveService c (rd 2)
      .next m w pc

/-! ### Gates (R342, R343) -/

/-- The check that a CALLG of the entry `e` (its 16 words) fails. -/
def Core.gateBad (k : Core) (e : Nat → Nat) (regionOk : Bool) : Option Nat :=
  let fl := e 2
  let lvl := k.mode % 4
  let inside (v lo hi : Nat) : Bool :=
    if fl.testBit 7 then decide (sx 16 lo ≤ sx 16 v) && decide (sx 16 v ≤ sx 16 hi) else decide (lo ≤ v) && decide (v ≤ hi)
  let alo := e 10 + 65536 * e 11
  let ahi := e 12 + 65536 * e 13
  let top := k.a 0 + k.w 1
  if !(lvl == 3 || (lvl == 1 && fl.testBit 3) || (lvl == 0 && fl.testBit 2)) then some 1
  else if !((fl % 4 == 1 || fl % 4 == 3) && decide (rank lvl ≤ rank (fl % 4))) then some 2
  else if fl.testBit 4 && !inside (k.w 0) (e 6) (e 7) then some 3
  else if fl.testBit 5 && !inside (k.w 1) (e 8) (e 9) then some 4
  else if fl.testBit 6 && !(decide (alo ≤ k.a 0) && decide (top ≤ ahi) && decide (top < 2 ^ 32)) then some 5
  else if e 0 % 2 = 1 ∨ 1024 ≤ fl ∨ e 3 ≠ 0 ∨ e 14 ≠ 0 ∨ e 15 ≠ 0 ∨ !regionOk then some 6
  else none

/-- A gate call to entry `num`, PC being that of the CALLG. -/
def World.gateCall (w : World) (m : Mem) (c num : Nat) : Exe :=
  let k := w.core c
  let pc := k.pc
  let (m, w) := w.drainAll m c
  let at_ := (k.gateb + 16 * num) % 2 ^ 32
  let e (n : Nat) : Nat := w.memRead m (w.coreAddr c (at_ + n))
  if w.memOff (w.coreAddr c at_) then .exc m w 0x13 at_ pc
  else match k.gateBad e (w.inOwnTcm c at_ || isFlash at_) with
    | some code => .exc m w 0x04 (num + 65536 * code) pc
    | none =>
      let (w, _) := w.landAll c
      match w.pushFrame m c { cause := 0x21, flags := 2, src := 0xFFFF, info := num, pc := (pc + 2) % 2 ^ 32 } with
      | none => let (m, w) := w.lockup m c; .hold m w
      | some (m, w) =>
        let k := w.core c
        let k := if (e 2).testBit 8 then k.setA 4 (e 4 + 65536 * e 5) else k
        let ie := if (e 2).testBit 9 then k.mode &&& 4 else 0
        let w := w.setCore c { k with mode := (k.mode &&& 8) ||| ie ||| (e 2 % 4) }
        .next m w (e 0 + 65536 * e 1)

/-! ### Interrupts (R350) -/

/-- A core accepts its offer at an instruction boundary. -/
def World.accept (w : World) (m : Mem) (c : Nat) : Mem × World :=
  match (w.core c).offer with
  | none => (m, w)
  | some s =>
    if w.awake c && w.eligible c s && !w.stalled c then
      let w := w.leaveWait c
      let pc := (w.core c).pc
      (w.takeOffer c s).enter m c 0x20 s pc (some s)
    else (m, w)

def execInterruptAccept (c : Nat) (s : State) : Res := onM s fun m w => if c < w.nCores then w.accept m c else (m, w)

/-! ### Register requests as commands (R3, R20 to R22, R29, R552) -/

/-- A bus error of the instruction that core `c` runs. -/
def World.busError (w : World) (m : Mem) (c cause addr : Nat) : Mem × World :=
  if c < w.nCores ∧ w.awake c then w.enter m c cause addr (w.core c).pc none else (m, w)

/-- A register request of core `c` to byte offset `addr` of an off block of island `n`: a bus error, or with AUTOWAKE the core waits. -/
def World.offRequest (w : World) (m : Mem) (c n addr : Nat) (op : StallOp) : Mem × World :=
  if w.nCores ≤ c ∨ w.awake c = false ∨ w.stalled c then (m, w)
  else if (w.f F.PM_AUTOWAKE_AW 0).testBit n then (m, w.stall c n op)
  else w.busError m c 0x13 (0x40000 + addr / 2)

/-- A register read is answered: whole to the host, its low word to a core. -/
def World.answer1 (w : World) (a : Agent) (v : Nat) : World := w.emit (.read a (match a with | .host => v | .core _ => v % 65536))

/-- A core's read of the register word at byte offset `addr`, whose block is on. -/
def World.readAt (w : World) (c addr : Nat) : World :=
  let (w, v) := w.readWord (.core c) addr
  w.emit (.read (.core c) v)

/-- A read of instance `i` of register `g`, as a command: an absent island reads 0. -/
def World.readRow (w : World) (m : Mem) (a : Agent) (g : Reg) (i : Nat) : Mem × World :=
  let n := blockIsl (g.islandOf 1 i)
  if w.absent n then (m, w.emit (.read a 0))
  else if w.on n then
    let (w, v) := w.readReg a g i
    (m, w.answer1 a v)
  else match a with
    | .host => (m, (w.hiErr F.HI_ERR_ISLAND_OFF (some (0, g.addr i))).emit (.read .host 0xFA11FA11))
    | .core c => w.offRequest m c n (g.addr i) (.read (g.addr i))

def execRscSwresRead (a : Agent) (n : Nat) (s : State) : Res := onM s fun m w => if n < 24 then w.readRow m a R.RSC_SWRES n else (m, w)

/-- Channels 0 to 127 are PCC, 128 to 131 ICC. -/
def execPccSwresRead (a : Agent) (p : Nat) (s : State) : Res :=
  onM s fun m w => if p < 128 then w.readRow m a R.PCC_SWRES p
    else if p < 132 then w.readRow m a R.ICC_SWRES (p - 128) else (m, w)

def execHkcResRead (a : Agent) (e : Nat) (s : State) : Res := onM s fun m w => if e < 64 then w.readRow m a R.HKC_RES e else (m, w)
def execFcEntcRead (a : Agent) (i : Nat) (s : State) : Res := onM s fun m w => if i < 128 then w.readRow m a R.FC_ENTC i else (m, w)
def execTbLoRead (a : Agent) (s : State) : Res := onM s fun m w => w.readRow m a R.TB_LO 0
def execTmCntLoRead (a : Agent) (t : Nat) (s : State) : Res := onM s fun m w => if t < 32 then w.readRow m a R.TM_CNT_LO t else (m, w)
def execTmCapLoRead (a : Agent) (t : Nat) (s : State) : Res := onM s fun m w => if t < 32 then w.readRow m a R.TM_CAP_LO t else (m, w)
def execProtRftsLoRead (a : Agent) (r : Nat) (s : State) : Res :=
  onM s fun m w => if r < 24 then w.readRow m a R.PROT_RFTS_LO r else (m, w)
def execPdPostbLoRead (a : Agent) (k : Nat) (s : State) : Res := onM s fun m w => if k < 4 then w.readRow m a R.PD_POSTB_LO k else (m, w)
def execBlTkoLoRead (a : Agent) (s : State) : Res := onM s fun m w => w.readRow m a R.BL_TKO_LO 0
def execTrTrigtbLoRead (a : Agent) (u : Nat) (s : State) : Res := onM s fun m w => if u < 4 then w.readRow m a R.TR_TRIGTB_LO u else (m, w)
def execNonceRead (a : Agent) (s : State) : Res := onM s fun m w => w.readRow m a R.SEC_NONCE 0
def execIcSemRead (a : Agent) (j : Nat) (s : State) : Res := onM s fun m w => if j < 8 then w.readRow m a R.IC_SEM j else (m, w)

/-- The _LO register of the ledger at byte offset `addr` of its block (R278). -/
def execElLoRead (a : Agent) (addr : Nat) (s : State) : Res :=
  onM s fun m w => match regAt 19 addr with
    | some (g, i) => if latchPairs.any fun e => e.1.id == g.id then w.readRow m a g i else (m, w)
    | none => (m, w)

/-- A core's read of the upper word of a latching register at word address `addr` (R552). -/
def execHoldingCopyRead (c addr : Nat) (s : State) : Res :=
  onM s fun m w =>
    let off := (addr - 0x40000) * 2
    if addr < 0x40000 ∨ off % 4 ≠ 2 then (m, w)
    else match blockOf off with
      | none => (m, w)
      | some (n, o) =>
        if !(regAt n (o - 2)).any fun e => (reader e.1 e.2).isSome then (m, w)
        else if w.blockOff off then w.offRequest m c (blockIsl n) off (.read off)
        else (m, w.readAt c off)

/-- A write of a register by agent `a` at byte offset `addr` of register space. -/
def World.request (w : World) (m : Mem) (a : Agent) (addr value mask : Nat) : Mem × World :=
  match a with
  | .host => w.hostWrite m addr (value % 2 ^ 32) (mask % 2 ^ 32)
  | .core c =>
    if addr % 4 ≠ 0 then (m, w)
    else match blockOf addr with
      | none => w.busError m c 0x11 (0x40000 + addr / 2)
      | some (n, _) =>
        if w.blockOff addr then w.offRequest m c (blockIsl n) addr (.write addr (value % 2 ^ 32) (mask % 2 ^ 32))
        else w.writeAt m a addr (value % 2 ^ 32) (mask % 2 ^ 32)

def execRegisterWrite (a : Agent) (addr value mask : Nat) (s : State) : Res := onM s fun m w => w.request m a addr value mask

def execIcSemRelease (a : Agent) (j : Nat) (s : State) : Res :=
  onM s fun m w => if j < 8 then w.request m a (R.IC_SEM.addr j) 0 0xFFFFFFFF else (m, w)

/-- An island that is on has not answered within 350 ns: the host reads 0xFA11, a core takes a bus error. Unassigned offsets of its
block are no exception (R537), nor are the doorbell pages, which HRE answers. -/
def execRegisterRequestTimeout (a : Agent) (addr : Nat) (s : State) : Res :=
  onM s fun m w =>
    let up := match blockOf addr with
      | some (n, _) => !w.absent (blockIsl n) && w.on (blockIsl n)
      | none => a == .host && within 0x80000 0x8FFFF addr && w.on 2
    if !up then (m, w)
    else match a with
      | .host => (m, (w.hiErr F.HI_ERR_ISLAND_TIMEOUT (some (0, addr))).emit (.read .host 0xFA11FA11))
      | .core c => w.busError m c 0x14 (0x40000 + addr / 2)

end Sys2Proof.Machine
end

