-- ==== Sys2Proof/Machine/CoreIsa.lean ====
section
/-! DEFINITION. The Wylar-16 instruction set: arithmetic, addresses, memory, predicates, control transfers, system
instructions, strings, the side unit (R304 to R329, R333, R334, R357). -/

namespace Sys2Proof.Machine

/-! ### Shapes of instructions -/

def World.pcOf (w : World) (c : Nat) : Nat := (w.core c).pc

/-- The next instruction's address. -/
def World.after (w : World) (c : Nat) : Nat := (w.pcOf c + 2) % 2 ^ 32

/-- An instruction that changes the core's registers and nothing else. -/
def regIns (c : Nat) (bad : Bool) (regs : List Nat) (f : Core → Core) : World → Ins := fun _ =>
  { bad := bad, regs := regs, go := fun m w => .next m (w.setCore c (f (w.core c))) (w.after c) }

/-- FN[6]: pair operation. -/
def insPair (i : Nat) : Bool := i.testBit 6

/-- A two-operand instruction Wd := f width Wa Wb. -/
def aluIns (c i : Nat) (f : Nat → Nat → Nat → Nat) : World → Ins :=
  let p := insPair i
  regIns c (p && (oddPair (insD i) || oddPair (insA i) || oddPair (insB i)))
    (opRegs p (insD i) ++ opRegs p (insA i) ++ opRegs p (insB i))
    fun k => k.put p (insD i) (f (opWidth p) (k.get p (insA i)) (k.get p (insB i)))

/-- Wd := f Wa with an immediate. -/
def immIns (c i : Nat) (f : Nat → Nat) : World → Ins :=
  regIns c false [insD i, insA i] fun k => k.setW (insD i) (f (k.w (insA i)))

/-! ### Arithmetic (R309) -/

/-- ILL, and every operation code that is not in the table. -/
def opKnown (o : Nat) : Bool :=
  within 1 0x0D o || within 0x10 0x1E o || within 0x20 0x2D o || within 0x30 0x39 o

def execCoreIll (c : Nat) (i : BitVec 32) (s : State) : Res :=
  onM s fun m w =>
    if w.mayIssue c ∧ opKnown (insOp i.toNat) = false then
      w.runIns m c i.toNat fun _ => { bad := true, go := fun m w => .hold m w }
    else (m, w)

def execCoreNop (c : Nat) (i : BitVec 32) (s : State) : Res := coreRow s c i 0x01 (regIns c false [] id)

/-- FN[5]: signed saturation. -/
def execCoreAdd (c : Nat) (i : BitVec 32) (s : State) : Res :=
  coreRow s c i 0x02 (aluIns c i.toNat fun wd a b => sumOf wd (i.toNat.testBit 5) (sx wd a + sx wd b))

def execCoreSub (c : Nat) (i : BitVec 32) (s : State) : Res :=
  coreRow s c i 0x03 (aluIns c i.toNat fun wd a b => sumOf wd (i.toNat.testBit 5) (sx wd a - sx wd b))

def execCoreAddi (c : Nat) (i : BitVec 32) (s : State) : Res :=
  coreRow s c i 0x04 (immIns c i.toNat fun a => unI 16 (a + insImm i.toNat))

def execCoreAnd (c : Nat) (i : BitVec 32) (s : State) : Res := coreRow s c i 0x05 (aluIns c i.toNat fun _ a b => a &&& b)
def execCoreOr (c : Nat) (i : BitVec 32) (s : State) : Res := coreRow s c i 0x06 (aluIns c i.toNat fun _ a b => a ||| b)
def execCoreXor (c : Nat) (i : BitVec 32) (s : State) : Res := coreRow s c i 0x07 (aluIns c i.toNat fun _ a b => a ^^^ b)

def execCoreAndi (c : Nat) (i : BitVec 32) (s : State) : Res := coreRow s c i 0x08 (immIns c i.toNat fun a => a &&& bitsOf i.toNat 0 14)
def execCoreOri (c : Nat) (i : BitVec 32) (s : State) : Res := coreRow s c i 0x09 (immIns c i.toNat fun a => a ||| bitsOf i.toNat 0 14)
def execCoreXori (c : Nat) (i : BitVec 32) (s : State) : Res := coreRow s c i 0x0A (immIns c i.toNat fun a => a ^^^ bitsOf i.toNat 0 14)

/-- SHF: FN[9:8] the kind, FN[7] an immediate amount. -/
def shfIns (c i : Nat) : World → Ins :=
  let p := insPair i
  let imm := i.testBit 7
  regIns c (p && (oddPair (insD i) || oddPair (insA i) || (!imm && oddPair (insB i))))
    (opRegs p (insD i) ++ opRegs p (insA i) ++ if imm then [] else opRegs p (insB i))
    fun k => k.put p (insD i) (shift (bitsOf i 8 2) (opWidth p) (k.get p (insA i)) (if imm then bitsOf i 0 5 else k.w (insB i) % 32))

def execCoreShf (c : Nat) (i : BitVec 32) (s : State) : Res := coreRow s c i 0x0B (shfIns c i.toNat)

def execCoreMovi (c : Nat) (i : BitVec 32) (s : State) : Res :=
  coreRow s c i 0x0C (regIns c (bitsOf i.toNat 16 2 != 0) [insD i.toNat] fun k => k.setW (insD i.toNat) (i.toNat % 65536))

def execCoreMinmax (c : Nat) (i : BitVec 32) (s : State) : Res :=
  coreRow s c i 0x0D (aluIns c i.toNat fun wd a b => minMax (bitsOf i.toNat 0 2) wd a b)

/-! ### Address registers (R309) -/

def execCoreAdda (c : Nat) (i : BitVec 32) (s : State) : Res :=
  let i' := i.toNat
  coreRow s c i 0x10 (regIns c (highA (insD i') || highA (insA i')) [] fun k => k.setA (insD i') (unI 32 (k.a (insA i') + insImm i')))

def execCoreAddaw (c : Nat) (i : BitVec 32) (s : State) : Res :=
  let i' := i.toNat
  coreRow s c i 0x11 (regIns c (highA (insD i') || highA (insA i')) [insB i']
    fun k => k.setA (insD i') (unI 32 (k.a (insA i') + sx 16 (k.w (insB i')))))

/-- FN[0] = 0: Ad := Wa:Wa+1; FN[0] = 1: Wd:Wd+1 := As. -/
def movawIns (c i : Nat) : World → Ins :=
  if i.testBit 0 then
    regIns c (oddPair (insD i) || highA (insA i)) (opRegs true (insD i)) fun k => k.setPair (insD i) (k.a (insA i))
  else
    regIns c (highA (insD i) || oddPair (insA i)) (opRegs true (insA i)) fun k => k.setA (insD i) (k.pair (insA i))

def execCoreMovaw (c : Nat) (i : BitVec 32) (s : State) : Res := coreRow s c i 0x12 (movawIns c i.toNat)

/-- The literal of a long instruction lies in the two words behind it. -/
def execCoreLdaL (c : Nat) (i lit : BitVec 32) (s : State) : Res :=
  let i' := i.toNat
  coreRow s c i 0x13 fun _ =>
    { long := true, bad := highA (insD i')
      go := fun m w => .next m (w.setCore c ((w.core c).setA (insD i') lit.toNat)) ((w.pcOf c + 4) % 2 ^ 32) }

/-! ### Loads and stores (R305, R308, R317 to R319, R345) -/

/-- What a MEM instruction moves: `words`, the direction, and its register. -/
inductive MemKind where
  | ld | st | ldD | stD | lda | sta
  deriving DecidableEq, Repr

def MemKind.words : MemKind → Nat
  | .ld | .st => 1
  | _ => 2

def MemKind.store : MemKind → Bool
  | .st | .stD | .sta => true
  | _ => false

def MemKind.regs (x : MemKind) (d : Nat) : List Nat :=
  match x with
  | .ld | .st => [d]
  | .ldD | .stD => [d, d + 1]
  | _ => []

def MemKind.bad (x : MemKind) (d : Nat) : Bool :=
  match x with
  | .ld | .st => false
  | .ldD | .stD => oddPair d
  | _ => highA d

/-- The words that a store takes from register `d`. -/
def MemKind.source (x : MemKind) (k : Core) (d : Nat) : List Nat :=
  match x with
  | .sta => [k.a d % 65536, k.a d / 65536]
  | .stD => [k.w d, k.w (d + 1)]
  | _ => [k.w d]

/-- Register `d` takes the words that a load brought. -/
def MemKind.sink (x : MemKind) (k : Core) (d : Nat) (l : List Nat) : Core :=
  let v := l.getD 0 0 + 65536 * l.getD 1 0
  match x with
  | .lda => k.setA d v
  | .ldD => k.setPair d v
  | _ => k.setW d (l.getD 0 0)

/-- A MEM instruction whose guard holds; `noWake` once its AUTOWAKE stall has run out. -/
def World.memGo (w : World) (m : Mem) (c i : Nat) (x : MemKind) (noWake : Bool) : Exe :=
  let k := w.core c
  let (a, upd) := k.ea i
  if x.words = 2 ∧ a % 2 = 1 then .exc m w 0x10 a k.pc
  else if !k.mpuOk (b2n x.store) a then .exc m w (if x.store then 0x0A else 0x09) a k.pc
  else match w.bus c a x.store noWake with
    | .err e => .exc m w e a k.pc
    | .wake n => .hold m (w.stall c n (.ins i))
    | .ok =>
      if x.store then
        let (m, w) := w.coreStore m c a (x.source k (insD i))
        .next m (w.setCore c ((w.core c).advA i upd)) (w.after c)
      else
        let (m, w, l) := w.coreLoad m c a x.words
        .next m (w.setCore c (x.sink ((w.core c).advA i upd) (insD i) l)) (w.after c)

def memIns (c i : Nat) (x : MemKind) : World → Ins := fun _ =>
  { bad := memBad i || x.bad (insD i), regs := x.regs (insD i) ++ memRegs i, go := fun m w => w.memGo m c i x false }

def execCoreLd (c : Nat) (i : BitVec 32) (s : State) : Res := coreRow s c i 0x14 (memIns c i.toNat .ld)
def execCoreSt (c : Nat) (i : BitVec 32) (s : State) : Res := coreRow s c i 0x15 (memIns c i.toNat .st)
def execCoreLdD (c : Nat) (i : BitVec 32) (s : State) : Res := coreRow s c i 0x16 (memIns c i.toNat .ldD)
def execCoreStD (c : Nat) (i : BitVec 32) (s : State) : Res := coreRow s c i 0x17 (memIns c i.toNat .stD)
def execCoreLda (c : Nat) (i : BitVec 32) (s : State) : Res := coreRow s c i 0x18 (memIns c i.toNat .lda)
def execCoreSta (c : Nat) (i : BitVec 32) (s : State) : Res := coreRow s c i 0x19 (memIns c i.toNat .sta)

/-! ### Predicates (R309, R311) -/

/-- A compare: Pd := f Pd cond. -/
def cmpIns (c i : Nat) (f : Bool → Bool → Bool) : World → Ins :=
  let cc := bitsOf i 16 3
  let imm := i.testBit 15
  let dw := i.testBit 14
  let a := bitsOf i 10 4
  let b := bitsOf i 0 4
  regIns c (cc == 7 || (!imm && bitsOf i 4 6 != 0) || (dw && (oddPair a || (!imm && oddPair b))))
    (opRegs dw a ++ if imm then [] else opRegs dw b)
    fun k =>
      let y := if imm then unI (opWidth dw) (sx 10 (bitsOf i 0 10)) else k.get dw b
      k.setP (insPd i) (f (k.p (insPd i)) (cond cc (opWidth dw) (k.get dw a) y))

def execCoreCmpCc (c : Nat) (i : BitVec 32) (s : State) : Res := coreRow s c i 0x1A (cmpIns c i.toNat fun _ x => x)
def execCoreCmpCcAnd (c : Nat) (i : BitVec 32) (s : State) : Res := coreRow s c i 0x1B (cmpIns c i.toNat fun p x => p && x)
def execCoreCmpCcOr (c : Nat) (i : BitVec 32) (s : State) : Res := coreRow s c i 0x1C (cmpIns c i.toNat fun p x => p || x)

/-- Pd := Pa op (Pb XOR NB). -/
def execCorePlog (c : Nat) (i : BitVec 32) (s : State) : Res :=
  let i' := i.toNat
  let fn := bitsOf i' 10 2
  coreRow s c i 0x1D (regIns c (fn == 3 || bitsOf i' 0 10 != 0) [] fun k =>
    let a := k.p (bitsOf i' 16 3)
    let b := k.p (bitsOf i' 13 3) != i'.testBit 12
    k.setP (insPd i') (if fn = 0 then a && b else if fn = 1 then a || b else a != b))

/-- FN[0] = 0: Wd := P7 to P0; FN[0] = 1: Pk := Wa[k]. -/
def execCorePmov (c : Nat) (i : BitVec 32) (s : State) : Res :=
  let i' := i.toNat
  coreRow s c i 0x1E
    (if i'.testBit 0 then
      regIns c false [insA i'] fun k => (List.range 8).foldl (fun (q : Core) n => q.setP n ((k.w (insA i')).testBit n)) k
    else regIns c false [insD i'] fun k => k.setW (insD i') (k.pr ||| 1))

/-! ### Control transfers (R306, R309, R316) -/

/-- A control transfer to `t`; CALL forms leave the return address in A5. -/
def World.goTo (w : World) (m : Mem) (c t : Nat) (link : Option Nat) : Exe :=
  let w := w.branch c (w.pcOf c) (some t)
  let w := match link with
    | some r => w.setCore c ((w.core c).setA 5 r)
    | none => w
  .next m w t

/-- The target of a BRANCH. -/
def brTarget (pc i : Nat) : Nat := unI 32 (pc + 2 * sx 22 (bitsOf i 0 22))

def branchIns (c i : Nat) (link : Bool) : World → Ins := fun _ =>
  { btb := true
    go := fun m w => w.goTo m c (brTarget (w.pcOf c) i) (if link then some (w.after c) else none) }

def execCoreBr (c : Nat) (i : BitVec 32) (s : State) : Res := coreRow s c i 0x20 (branchIns c i.toNat false)
def execCoreCall (c : Nat) (i : BitVec 32) (s : State) : Res := coreRow s c i 0x21 (branchIns c i.toNat true)

def jumpIns (c i : Nat) (link : Bool) : World → Ins := fun w =>
  { bad := bitsOf i 18 4 != 0 || bitsOf i 0 15 != 0, btb := true, jump := some ((w.core c).a (insN i))
    go := fun m w => w.goTo m c ((w.core c).a (insN i)) (if link then some (w.after c) else none) }

def execCoreJmp (c : Nat) (i : BitVec 32) (s : State) : Res := coreRow s c i 0x22 (jumpIns c i.toNat false)
def execCoreCallr (c : Nat) (i : BitVec 32) (s : State) : Res := coreRow s c i 0x23 (jumpIns c i.toNat true)

def longIns (c i lit : Nat) (link : Bool) : World → Ins := fun _ =>
  { long := true, bad := bitsOf i 0 22 != 0, btb := true, jump := some lit
    go := fun m w => w.goTo m c lit (if link then some ((w.pcOf c + 4) % 2 ^ 32) else none) }

def execCoreJmpL (c : Nat) (i lit : BitVec 32) (s : State) : Res := coreRow s c i 0x24 (longIns c i.toNat lit.toNat false)
def execCoreCallL (c : Nat) (i lit : BitVec 32) (s : State) : Res := coreRow s c i 0x25 (longIns c i.toNat lit.toNat true)

/-! ### System instructions -/

/-- The field that SYS writes 0. -/
def sysBad (i : Nat) : Bool := bitsOf i 14 4 != 0

def execCoreCallg (c : Nat) (i : BitVec 32) (s : State) : Res :=
  let num := insNum i.toNat
  coreRow s c i 0x26 fun w =>
    { bad := sysBad i.toNat || decide ((w.core c).gaten ≤ num), regs := [0, 1], go := fun m w => w.gateCall m c num }

def execCoreRetx (c : Nat) (i : BitVec 32) (s : State) : Res :=
  coreRow s c i 0x27 fun w => { bad := sysBad i.toNat, priv := (w.core c).mode % 4 == 0, go := fun m w => w.retx m c }

/-- TRAP completes and raises its exception: the PC saved is that of the next instruction. -/
def execCoreTrap (c : Nat) (i : BitVec 32) (s : State) : Res :=
  coreRow s c i 0x28 fun _ =>
    { bad := sysBad i.toNat
      go := fun m w =>
        let k := w.core c
        let w := w.setCore c { k with last := k.pc, ret := (k.ret + 1) % 2 ^ 48 }
        .exc m w 0x03 (insNum i.toNat) (w.after c) }

/-- WAIT: the core stops issue unless an interrupt is pending already with IE = 0 (R328). -/
def execCoreWait (c : Nat) (i : BitVec 32) (s : State) : Res :=
  coreRow s c i 0x29 fun w =>
    { bad := sysBad i.toNat, priv := (w.core c).mode % 4 == 0
      go := fun m w =>
        if w.irqFor c && !(w.core c).mode.testBit 2 then .next m w (w.after c)
        else .hold m ((w.setCore c { w.core c with st := 2 }).start (.idle c)) }

/-- SYNC.I: stores drain, line buffers and BTB empty (R326). -/
def execCoreSyncI (c : Nat) (i : BitVec 32) (s : State) : Res :=
  coreRow s c i 0x2A fun _ =>
    { bad := sysBad i.toNat
      go := fun m w =>
        let (m, w) := w.drainAll m c
        .next m (w.setCore c { w.core c with lines := [], fills := [], btb := [] }) (w.after c) }

/-- SYNC.M: stores drain (R327). -/
def execCoreSyncM (c : Nat) (i : BitVec 32) (s : State) : Res :=
  coreRow s c i 0x2B fun _ =>
    { bad := sysBad i.toNat
      go := fun m w =>
        let (m, w) := w.drainAll m c
        .next m w (w.after c) }

/-! ### CSRs (R325, R329, R333, R338, R353, R357) -/

/-- The number names a CSR. -/
def csrKnown (n : Nat) : Bool := decide (n ≤ 0x0A) || within 0x10 0x1D n || (within 0x20 0x3F n && n % 4 != 3)

/-- The lowest level that reads, and that writes, a CSR: 0 U, 1 S, 2 M. -/
def csrLevel (n : Nat) (wr : Bool) : Nat :=
  if n ≤ 8 then (if wr && n == 1 then 1 else 0)
  else if n ≤ 0x0A ∨ within 0x1B 0x1D n then 1 else 2

/-- 800 MHz cycles since the core left CORE reset: 160 base ticks each. -/
def World.cycles (w : World) (c : Nat) : Nat := (w.clk.tk - (w.core c).since) / 160 % 2 ^ 48

/-- The highest-level source in service, the latest of equals. -/
def World.isrc (w : World) (c : Nat) : Nat :=
  ((w.core c).svc.find? fun s => (w.core c).svc.all fun q => decide (w.icLvl q ≤ w.icLvl s)).getD 0xFFFF

/-- What a CSR reads. -/
def World.csr (w : World) (c n : Nat) : Nat :=
  let k := w.core c
  match n with
  | 0x00 => w.phys c + 16 * c + 128 * b2n (!w.split)
  | 0x01 => k.mode
  | 0x02 => b2n k.dz + 2 * b2n (!k.side.isEmpty)
  | 0x03 => w.cycles c % 65536
  | 0x04 => k.cycL / 65536 % 65536
  | 0x05 => k.cycL / 2 ^ 32
  | 0x06 => k.ret % 65536
  | 0x07 => k.retL / 65536 % 65536
  | 0x08 => k.retL / 2 ^ 32
  | 0x09 => b2n k.btbEn
  | 0x0A => b2n k.pfEn
  | 0x10 => k.xvecLo
  | 0x11 => k.xvec / 65536
  | 0x12 => k.xcause
  | 0x13 => k.xinfo % 65536
  | 0x14 => k.xinfo / 65536 % 65536
  | 0x15 => k.tsbp
  | 0x16 => k.tsblim
  | 0x17 => k.tsbtop
  | 0x18 => k.gatebLo
  | 0x19 => k.gateb / 65536
  | 0x1A => k.gaten
  | 0x1B => k.ithr
  | 0x1C => w.elvl c
  | 0x1D => w.isrc c
  | _ => mget 0 k.mpu n

/-- A CSRR: reads of CYC0 and RET0 latch their upper words. -/
def World.csrRead (w : World) (c n : Nat) : World × Nat :=
  let k := w.core c
  let v := w.csr c n
  if n = 3 then (w.setCore c { k with cycL := w.cycles c }, v)
  else if n = 6 then (w.setCore c { k with retL := k.ret }, v)
  else (w, v)

def execCoreCsrr (c : Nat) (i : BitVec 32) (s : State) : Res :=
  let n := insNum i.toNat
  coreRow s c i 0x2C fun w =>
    { bad := sysBad i.toNat || !csrKnown n, regs := [insD i.toNat], priv := decide (rank ((w.core c).mode % 4) < csrLevel n false)
      go := fun m w =>
        let (w, v) := w.csrRead c n
        .next m (w.setCore c ((w.core c).setW (insD i.toNat) v)) (w.after c) }

/-- The frame-stack registers after a write of `v` to CSR `n`, when they keep their order (R338). -/
def Core.writeTsb (k : Core) (n v : Nat) : Option Core :=
  let v := v % 4096
  let k' : Core := if n = 0x15 then { k with tsbp := v } else if n = 0x16 then { k with tsblim := v } else { k with tsbtop := v }
  if k'.tsblim ≤ k'.tsbp ∧ k'.tsbp ≤ k'.tsbtop ∧ k'.tsbtop ≤ 0x800 then some k' else none

/-- A CSRW of `v` that is allowed. -/
def Core.csrWrite (k : Core) (n v : Nat) : Core :=
  let stage (v : Nat) : Core := { k with staged := k.staged ++ [(3, n, v)] }
  match n with
  | 0x01 => stage (if v % 4 = 2 then v % 16 - 2 + k.mode % 4 else v % 16)
  | 0x02 => { k with dz := k.dz && v % 2 == 0 }
  | 0x09 => { k with btbEn := v % 2 == 1, btb := if v.testBit 1 then [] else k.btb }
  | 0x0A => { k with pfEn := v % 2 == 1, lines := if v.testBit 1 then [] else k.lines }
  | 0x10 => { k with xvecLo := v / 2 * 2 }
  | 0x11 => { k with xvec := 65536 * v + k.xvecLo }
  | 0x18 => { k with gatebLo := v / 16 * 16 }
  | 0x19 => { k with gateb := 65536 * v + k.gatebLo }
  | 0x1A => { k with gaten := v % 2 ^ 14 }
  | 0x1B => stage (v % 16)
  | _ => if 0x20 ≤ n then stage v else k

def execCoreCsrw (c : Nat) (i : BitVec 32) (s : State) : Res :=
  let n := insNum i.toNat
  coreRow s c i 0x2D fun w =>
    let k := w.core c
    let v := k.w (insD i.toNat)
    let lvl := rank (k.mode % 4)
    { bad := sysBad i.toNat || !csrKnown n, regs := [insD i.toNat]
      priv := decide (lvl < csrLevel n true) || (n == 1 && lvl == 1 && (v % 4 != k.mode % 4 || v.testBit 3 != k.mode.testBit 3))
      go := fun m w =>
        let k := w.core c
        if 0x15 ≤ n ∧ n ≤ 0x17 then
          match k.writeTsb n v with
          | some k => .next m (w.setCore c k) (w.after c)
          | none => .exc m w 0x07 v k.pc
        else .next m (w.setCore c (k.csrWrite n v)) (w.after c) }

/-! ### String instructions (R323, R324) -/

inductive StrKind where
  | movs | fils | cmps | scns
  deriving DecidableEq, Repr

/-- How one element ends: more to do, the instruction stops, or the element cannot be done yet. -/
inductive Elem where
  | more (m : Mem) (w : World)
  | stop (m : Mem) (w : World)
  | fail (e : Exe)

/-- A string access at `a`: register space is refused (R324). -/
def World.strBus (w : World) (c a : Nat) (store noWake : Bool) : Option (Sum Nat Nat) :=
  if !(w.core c).mpuOk (b2n store) a then some (.inl (if store then 0x0A else 0x09))
  else if isReg a then some (.inl 0x17)
  else match w.bus c a store noWake with
    | .ok => none
    | .err e => some (.inl e)
    | .wake n => some (.inr n)

/-- The accesses of an element: each address and whether it is written. -/
def StrKind.uses (x : StrKind) (k : Core) : List (Nat × Bool) :=
  match x with
  | .movs => [(k.a 6, false), (k.a 7, true)]
  | .fils => [(k.a 7, true)]
  | .cmps => [(k.a 6, false), (k.a 7, false)]
  | .scns => [(k.a 6, false)]

/-- A step of the addresses that the instruction uses, and of W13. -/
def StrKind.step (x : StrKind) (k : Core) (down : Bool) : Core :=
  let d : Int := if down then -1 else 1
  let k := if x = .fils then k else k.setA 6 (unI 32 (k.a 6 + d))
  let k := if x = .scns then k else k.setA 7 (unI 32 (k.a 7 + d))
  k.setW 13 (k.w 13 - 1)

/-- One element, its accesses checked. -/
def World.element (w : World) (m : Mem) (c i : Nat) (x : StrKind) : Elem :=
  let k := w.core c
  let down := i.testBit 0
  let adv (m : Mem) (w : World) : Elem := .more m (w.setCore c (x.step (w.core c) down))
  match x with
  | .movs =>
    let (m, w, l) := w.coreLoad m c (k.a 6) 1
    let (m, w) := w.coreStore m c (k.a 7) l
    adv m w
  | .fils =>
    let (m, w) := w.coreStore m c (k.a 7) [k.w 12]
    adv m w
  | .cmps =>
    let (m, w, l) := w.coreLoad m c (k.a 6) 1
    let (m, w, q) := w.coreLoad m c (k.a 7) 1
    if l = q then adv m w else .stop m (w.setCore c ((w.core c).setP (insPd i) false))
  | .scns =>
    let (m, w, l) := w.coreLoad m c (k.a 6) 1
    if l = [k.w 12] then .stop m (w.setCore c ((w.core c).setP (insPd i) true)) else adv m w

/-- An element after the checks of its accesses. -/
def World.tryElement (w : World) (m : Mem) (c i : Nat) (x : StrKind) (noWake : Bool) : Elem :=
  let k := w.core c
  match (x.uses k).findSome? fun u => (w.strBus c u.1 u.2 noWake).map fun r => (u.1, r) with
  | some (a, .inl e) => .fail (.exc m w e a k.pc)
  | some (_, .inr n) => .fail (.hold m (w.stall c n (.ins i)))
  | none => w.element m c i x

/-- `n` elements at most: the instruction completes, or `rest` elements are left for a pending exception, interrupt or halt,
with the PC on the instruction. -/
def World.elements (w : World) (m : Mem) (c i : Nat) (x : StrKind) (noWake : Bool) : Nat → Exe
  | 0 => if (w.core c).w 13 = 0 then .next m w (w.after c) else .hold m w
  | n + 1 =>
    if (w.core c).w 13 = 0 then .next m w (w.after c)
    else match w.tryElement m c i x noWake with
      | .more m w => w.elements m c i x noWake n
      | .stop m w => .next m w (w.after c)
      | .fail e => e

/-- A string instruction whose guard holds; `limit` elements complete before it is interrupted, none when it is not. -/
def World.strGo (w : World) (m : Mem) (c i : Nat) (x : StrKind) (limit : Option Nat) (noWake : Bool) : Exe :=
  let k := w.core c
  let k := match x with
    | .cmps => k.setP (insPd i) true
    | .scns => k.setP (insPd i) false
    | _ => k
  (w.setCore c k).elements m c i x noWake (min (limit.getD 65536) 65536)

def strIns (c i : Nat) (x : StrKind) (limit : Option Nat) : World → Ins := fun _ =>
  { bad := bitsOf i 1 18 != 0, regs := [12, 13], go := fun m w => w.strGo m c i x limit false }

def execCoreMovs (c : Nat) (i : BitVec 32) (limit : Option Nat) (s : State) : Res := coreRow s c i 0x30 (strIns c i.toNat .movs limit)
def execCoreFils (c : Nat) (i : BitVec 32) (limit : Option Nat) (s : State) : Res := coreRow s c i 0x31 (strIns c i.toNat .fils limit)
def execCoreCmps (c : Nat) (i : BitVec 32) (limit : Option Nat) (s : State) : Res := coreRow s c i 0x32 (strIns c i.toNat .cmps limit)
def execCoreScns (c : Nat) (i : BitVec 32) (limit : Option Nat) (s : State) : Res := coreRow s c i 0x33 (strIns c i.toNat .scns limit)

/-! ### AUTOWAKE stalls (R21) -/

/-- The memory instruction of word `i` runs again. -/
def World.again (w : World) (m : Mem) (c i : Nat) (noWake : Bool) : Mem × World :=
  let go (x : MemKind) : Exe := w.memGo m c i x noWake
  let str (x : StrKind) : Exe := w.strGo m c i x none noWake
  let e : Exe := match insOp i with
    | 0x14 => go .ld | 0x15 => go .st | 0x16 => go .ldD | 0x17 => go .stD | 0x18 => go .lda | 0x19 => go .sta
    | 0x30 => str .movs | 0x31 => str .fils | 0x32 => str .cmps | 0x33 => str .scns
    | _ => .hold m w
  e.finish c (w.pcOf c)

/-- Core `c`'s stalled access goes on: its island has woken, or (`late`) has not within 3 µs. -/
def World.endStall (w : World) (m : Mem) (c : Nat) (late : Bool) : Mem × World :=
  match w.pwr.stalls.find? fun e => e.1 == c with
  | none => (m, w)
  | some (_, n, op) =>
    if w.on n = late ∨ (late && !w.past (.access c) 3000) then (m, w)
    else
      let w := { w with pwr := { w.pwr with stalls := w.pwr.stalls.filter fun e => e.1 != c } }
      match op with
      | .ins i => w.again m c i late
      | .write addr v mask => if late then w.busError m c 0x13 (0x40000 + addr / 2) else w.writeAt m (.core c) addr v mask
      | .read addr => if late then w.busError m c 0x13 (0x40000 + addr / 2) else (m, w.readAt c addr)

def execAutowakeAccess (c : Nat) (s : State) : Res := onM s fun m w => w.endStall m c false
def execAutowakeTimeout (c : Nat) (s : State) (t : Nat := 0) : Res := onM s fun m w => (w.upTo t).endStall m c true

/-! ### Side unit (R309, R320 to R322) -/

/-- The core issues to the side unit. -/
def Core.issue (k : Core) (r : SideRes) : Core := { k with side := k.side ++ [r] }

def pairsBad (i : Nat) : Bool := oddPair (insD i) || oddPair (insA i) || oddPair (insB i)
def pairRegs (i : Nat) : List Nat := opRegs true (insD i) ++ opRegs true (insA i) ++ opRegs true (insB i)

/-- A product, unsigned when `u`. -/
def product (u : Bool) (wd a b : Nat) : Int := if u then (a : Int) * b else sx wd a * sx wd b

def execCoreMul (c : Nat) (i : BitVec 32) (s : State) : Res :=
  let i' := i.toNat
  coreRow s c i 0x34 (regIns c (oddPair (insD i')) (opRegs true (insD i') ++ [insA i', insB i'])
    fun k => k.issue { dst := some (insD i'), val := product (i'.testBit 0) 16 (k.w (insA i')) (k.w (insB i')) })

/-- FN[1] = 1: the high 32 bits. -/
def execCoreMuld (c : Nat) (i : BitVec 32) (s : State) : Res :=
  let i' := i.toNat
  coreRow s c i 0x35 (regIns c (pairsBad i') (pairRegs i') fun k =>
    let p := product (i'.testBit 0) 32 (k.pair (insA i')) (k.pair (insB i'))
    k.issue { dst := some (insD i'), val := if i'.testBit 1 then asr p 32 else p })

/-- FN[1] = 1: the product is subtracted. -/
def execCoreMac (c : Nat) (i : BitVec 32) (s : State) : Res :=
  let i' := i.toNat
  coreRow s c i 0x36 (regIns c (insD i' != 0 || oddPair (insA i') || oddPair (insB i'))
    (opRegs true (insA i') ++ opRegs true (insB i')) fun k =>
    let p := product (i'.testBit 0) 32 (k.pair (insA i')) (k.pair (insB i'))
    k.issue { dst := none, val := if i'.testBit 1 then -p else p })

/-- MAR waits for every earlier MAC; FN[6] = 1 then clears MA. -/
def execCoreMar (c : Nat) (i : BitVec 32) (s : State) : Res :=
  let i' := i.toNat
  coreRow s c i 0x37 fun w =>
    { regIns c (oddPair (insD i')) (opRegs true (insD i')) (fun k =>
        { k.issue { dst := some (insD i'), val := marOf k.ma (bitsOf i' 0 6) } with ma := if i'.testBit 6 then 0 else k.ma }) w with
      busy := (w.core c).macBusy }

def execCoreMaz (c : Nat) (i : BitVec 32) (s : State) : Res :=
  coreRow s c i 0x38 fun w => { regIns c false [] (fun k => { k with ma := 0 }) w with busy := (w.core c).macBusy }

/-- FN[1] = 1: the remainder. -/
def execCoreDiv (c : Nat) (i : BitVec 32) (s : State) : Res :=
  let i' := i.toNat
  coreRow s c i 0x39 fun w =>
    { regIns c (pairsBad i') (pairRegs i') (fun k =>
        let (q, r) := divOf (i'.testBit 0) (k.pair (insA i')) (k.pair (insB i'))
        k.issue { dst := some (insD i'), val := if i'.testBit 1 then r else q, isDiv := true, pc := k.pc
                  dz := k.pair (insB i') == 0, recov := k.mode.testBit 3 }) w with
      busy := (w.core c).divBusy }

end Sys2Proof.Machine
end

