-- ==== Sys2Proof/Machine/Dispatch.lean ====
section
/-! DEFINITION. The dispatch: one arm per constructor of Instr. -/

namespace Sys2Proof.Machine

def exec (i : Instr) (s : State) : Host.Outcome State Fault Refusal :=
  match i with
  | .registerWrite a addr value mask => Sys2Proof.Machine.execRegisterWrite a addr value mask s
  | .registerRequestTimeout a addr => Sys2Proof.Machine.execRegisterRequestTimeout a addr s
  | .autowakeAccess c => Sys2Proof.Machine.execAutowakeAccess c s
  | .autowakeTimeout c t => Sys2Proof.Machine.execAutowakeTimeout c s t
  | .trimGate n => Sys2Proof.Machine.execTrimGate n s
  | .trimUngate n => Sys2Proof.Machine.execTrimUngate n s
  | .holdingCopyRead c addr => Sys2Proof.Machine.execHoldingCopyRead c addr s
  | .rscSwresRead a n => Sys2Proof.Machine.execRscSwresRead a n s
  | .pccSwresRead a p => Sys2Proof.Machine.execPccSwresRead a p s
  | .hkcResRead a e => Sys2Proof.Machine.execHkcResRead a e s
  | .fcEntcRead a x => Sys2Proof.Machine.execFcEntcRead a x s
  | .tbLoRead a => Sys2Proof.Machine.execTbLoRead a s
  | .tmCntLoRead a t => Sys2Proof.Machine.execTmCntLoRead a t s
  | .tmCapLoRead a t => Sys2Proof.Machine.execTmCapLoRead a t s
  | .protRftsLoRead a r => Sys2Proof.Machine.execProtRftsLoRead a r s
  | .elLoRead a addr => Sys2Proof.Machine.execElLoRead a addr s
  | .pdPostbLoRead a k => Sys2Proof.Machine.execPdPostbLoRead a k s
  | .blTkoLoRead a => Sys2Proof.Machine.execBlTkoLoRead a s
  | .trTrigtbLoRead a u => Sys2Proof.Machine.execTrTrigtbLoRead a u s
  | .icSemRead a j => Sys2Proof.Machine.execIcSemRead a j s
  | .icSemRelease a j => Sys2Proof.Machine.execIcSemRelease a j s
  | .nonceRead a => Sys2Proof.Machine.execNonceRead a s
  | .corrStep n sl par est t => Sys2Proof.Machine.execCorrStep n sl par est t s
  | .refSettled n => Sys2Proof.Machine.execRefSettled n s
  | .reflost isl ref dev => Sys2Proof.Machine.execReflost isl ref s dev
  | .rscSwresPeriod n t samples => Sys2Proof.Machine.execRscSwresPeriod n t samples s
  | .rscSlotWrite n value => Sys2Proof.Machine.execRscSlotWrite n value s
  | .rscCfgWrite n value => Sys2Proof.Machine.execRscCfgWrite n value s
  | .rscCorrWrite n sl par value => Sys2Proof.Machine.execRscCorrWrite n sl par value s
  | .pccAutozeroStart p t => Sys2Proof.Machine.execPccAutozeroStart p s t
  | .pccAutozeroDone p codes t => Sys2Proof.Machine.execPccAutozeroDone p codes s t
  | .pccSwresPeriod isl codes => Sys2Proof.Machine.execPccSwresPeriod isl codes s
  | .hkcPassStart t => Sys2Proof.Machine.execHkcPassStart s t
  | .hkcTrigger ch t => Sys2Proof.Machine.execHkcTrigger s ch t
  | .hkcEntryDone e codes => Sys2Proof.Machine.execHkcEntryDone e codes s
  | .hkcSwap => Sys2Proof.Machine.execHkcSwap s
  | .elStale k => Sys2Proof.Machine.execElStale k s
  | .loopUpdate r t win codes word bit => Sys2Proof.Machine.execLoopUpdate r t win codes word bit s
  | .leCommit r => Sys2Proof.Machine.execLeCommit r s
  | .forecast src rail p => Sys2Proof.Machine.execForecast src rail p s
  | .forecastCancel src rail fid => Sys2Proof.Machine.execForecastCancel src rail fid s
  | .hintEdge p rising t => Sys2Proof.Machine.execHintEdge p rising t s
  | .hackPulseEnd k => Sys2Proof.Machine.execHackPulseEnd k s
  | .reservationRequest x => Sys2Proof.Machine.execReservationRequest x s
  | .reservationAnswer x => Sys2Proof.Machine.execReservationAnswer x s
  | .outcomeRelease r => Sys2Proof.Machine.execOutcomeRelease r s
  | .decisionMessageAccept x => Sys2Proof.Machine.execDecisionMessageAccept x s
  | .precoolRequest x => Sys2Proof.Machine.execPrecoolRequest x s
  | .fcTplWrite t w value => Sys2Proof.Machine.execFcTplWrite t w value s
  | .statclr => Sys2Proof.Machine.execStatclr s
  | .pwmCycleStart p t => Sys2Proof.Machine.execPwmCycleStart p t s
  | .pwmOffEdge p t => Sys2Proof.Machine.execPwmOffEdge p t s
  | .zeroCrossMid p code t => Sys2Proof.Machine.execZeroCrossMid p code s t
  | .bcommit isl both => Sys2Proof.Machine.execBcommit isl s both
  | .rcommit r => Sys2Proof.Machine.execRcommit r s
  | .pwNreqWrite r n => Sys2Proof.Machine.execPwNreqWrite r n s
  | .shedEnd p code t => Sys2Proof.Machine.execShedEnd p code s t
  | .killLineAssert x t => Sys2Proof.Machine.execKillLineAssert x s t
  | .killLineRelease x r t0 t => Sys2Proof.Machine.execKillLineRelease x r s t0 t
  | .railRunning r t => Sys2Proof.Machine.execRailRunning r t s
  | .railEnFall r t => Sys2Proof.Machine.execRailEnFall r t s
  | .dllRelockStep p move => Sys2Proof.Machine.execDllRelockStep p move s
  | .pcmpTrip p t xs => Sys2Proof.Machine.execPcmpTrip p t s xs
  | .pcmpLimit p t xs => Sys2Proof.Machine.execPcmpLimit p t s xs
  | .vcmpTrip v t xs => Sys2Proof.Machine.execVcmpTrip v t s xs
  | .iphoc p code => Sys2Proof.Machine.execIphoc p code s
  | .iphneg p code => Sys2Proof.Machine.execIphneg p code s
  | .railStop r t => Sys2Proof.Machine.execRailStop r t s
  | .killAutoRelease r t => Sys2Proof.Machine.execKillAutoRelease r t s
  | .escDecay r => Sys2Proof.Machine.execEscDecay r s
  | .hiccupWaitEnd r t => Sys2Proof.Machine.execHiccupWaitEnd r t s
  | .hiccupRetriesClear r => Sys2Proof.Machine.execHiccupRetriesClear r s
  | .faultClear src rail => Sys2Proof.Machine.execFaultClear src rail s
  | .protRclrWrite r value => Sys2Proof.Machine.execProtRclrWrite r value s
  | .commandGateOpen r => Sys2Proof.Machine.execCommandGateOpen r s
  | .doorbell n value => Sys2Proof.Machine.execDoorbell n value s
  | .descriptorFetch n np => Sys2Proof.Machine.execDescriptorFetch n s np
  | .descriptorStamp t l => Sys2Proof.Machine.execDescriptorStamp t l s
  | .linkReset perst => Sys2Proof.Machine.execLinkReset s perst
  | .flr => Sys2Proof.Machine.execFlr s
  | .ringEnable n => Sys2Proof.Machine.execRingEnable n s
  | .ringDisable n => Sys2Proof.Machine.execRingDisable n s
  | .ringResume n => Sys2Proof.Machine.execRingResume n s
  | .ringReset n => Sys2Proof.Machine.execRingReset n s
  | .postedWriteDrain ph pd => Sys2Proof.Machine.execPostedWriteDrain s ph pd
  | .msixCoalesceTimer n => Sys2Proof.Machine.execMsixCoalesceTimer n s
  | .telemPeriod => Sys2Proof.Machine.execTelemPeriod s
  | .commandTurn rail sense => Sys2Proof.Machine.execCommandTurn rail sense s
  | .nop src rail => Sys2Proof.Machine.execNop src rail s
  | .railEnable src rail target nph flags sense => Sys2Proof.Machine.execRailEnable src rail target nph flags sense s
  | .railDisable src rail mode => Sys2Proof.Machine.execRailDisable src rail mode s
  | .setTarget src rail target flags => Sys2Proof.Machine.execSetTarget src rail target flags s
  | .setNph src rail nph => Sys2Proof.Machine.execSetNph src rail nph s
  | .queryRail src rail => Sys2Proof.Machine.execQueryRail src rail s
  | .calibrate src rail phase every pulse timeout => Sys2Proof.Machine.execCalibrate src rail phase every pulse timeout s
  | .calibrationEnd r => Sys2Proof.Machine.execCalibrationEnd r s
  | .budgetSet src rail window limit mode => Sys2Proof.Machine.execBudgetSet src rail window limit mode s
  | .pmSentinel src => Sys2Proof.Machine.execPmSentinel src s
  | .fwStage src addr length offset => Sys2Proof.Machine.execFwStage src addr length offset s
  | .fwActivate src bank => Sys2Proof.Machine.execFwActivate src bank s
  | .cairnRead src addr first count => Sys2Proof.Machine.execCairnRead src addr first count s
  | .stampMessage tag seq good c => Sys2Proof.Machine.execStampMessage tag seq good c s
  | .effectMessage tag seq good c sense wb => Sys2Proof.Machine.execEffectMessage tag seq good c sense wb s
  | .decisionMessage tag seq good x commit why => Sys2Proof.Machine.execDecisionMessage tag seq good x commit why s
  | .faultMessage tag seq good m => Sys2Proof.Machine.execFaultMessage tag seq good m s
  | .ack seq t => Sys2Proof.Machine.execAck seq t s
  | .nak seq => Sys2Proof.Machine.execNak seq s
  | .frameRetry seq => Sys2Proof.Machine.execFrameRetry seq s
  | .belayLinkTrained variant romver pad960 refuse own sel t => Sys2Proof.Machine.execBelayLinkTrained variant romver pad960 refuse own sel t s
  | .epochBoundary t => Sys2Proof.Machine.execEpochBoundary t s
  | .heartbeat own sync upd romver cls sig tb t => Sys2Proof.Machine.execHeartbeat own sync upd romver cls sig tb t s
  | .snapshot epoch part good sn => Sys2Proof.Machine.execSnapshot epoch part good sn s
  | .partnerLost t => Sys2Proof.Machine.execPartnerLost t s
  | .blkaQuiet tie t => Sys2Proof.Machine.execBlkaQuiet tie t s
  | .keepaliveStop t => Sys2Proof.Machine.execKeepaliveStop t s
  | .handover => Sys2Proof.Machine.execHandover s
  | .handoverFrame seq h t => Sys2Proof.Machine.execHandoverFrame seq h t s
  | .refuse => Sys2Proof.Machine.execRefuse s
  | .resync => Sys2Proof.Machine.execResync s
  | .cfgdiff t => Sys2Proof.Machine.execCfgdiff t s
  | .lsMiscompare j cause pc addr => Sys2Proof.Machine.execLsMiscompare j cause pc addr s
  | .ledgerTick self icc => Sys2Proof.Machine.execLedgerTick self icc s
  | .selfBudgetStep => Sys2Proof.Machine.execSelfBudgetStep s
  | .holdEntry t => Sys2Proof.Machine.execHoldEntry t s
  | .holdExit code ch t => Sys2Proof.Machine.execHoldExit code ch t s
  | .sentinelEntry t => Sys2Proof.Machine.execSentinelEntry t s
  | .sentinelEntryTimeout t => Sys2Proof.Machine.execSentinelEntryTimeout t s
  | .wakeSource code ch t => Sys2Proof.Machine.execWakeSource code ch t s
  | .offEntry t => Sys2Proof.Machine.execOffEntry t s
  | .pmPadrelWrite mask => Sys2Proof.Machine.execPmPadrelWrite mask s
  | .islreqStop n => Sys2Proof.Machine.execIslreqStop n s
  | .islreqStart n => Sys2Proof.Machine.execIslreqStart n s
  | .suppliesGood straps pair sel holdOk t => Sys2Proof.Machine.execSuppliesGood straps pair sel holdOk t s
  | .xtalGood t => Sys2Proof.Machine.execXtalGood t s
  | .xtalFail t => Sys2Proof.Machine.execXtalFail t s
  | .islandStart n lost t => Sys2Proof.Machine.execIslandStart n lost t s
  | .wipeDone k => Sys2Proof.Machine.execWipeDone k s
  | .basecampStart e sense t => Sys2Proof.Machine.execBasecampStart e sense t s
  | .bootCheck ecc t => Sys2Proof.Machine.execBootCheck ecc t s
  | .coldReset pin => Sys2Proof.Machine.execColdReset pin s
  | .warmReset cause t => Sys2Proof.Machine.execWarmReset cause t s
  | .warmResetIslands straps t => Sys2Proof.Machine.execWarmResetIslands straps t s
  | .islandReset n req => Sys2Proof.Machine.execIslandReset n req s
  | .coreReset c => Sys2Proof.Machine.execCoreReset c s
  | .coreStart c => Sys2Proof.Machine.execCoreStart c s
  | .powerLoss held t => Sys2Proof.Machine.execPowerLoss held t s
  | .lcReq target t => Sys2Proof.Machine.execLcReq target t s
  | .lcWipe t => Sys2Proof.Machine.execLcWipe t s
  | .coreIll c x => Sys2Proof.Machine.execCoreIll c x s
  | .coreNop c x => Sys2Proof.Machine.execCoreNop c x s
  | .coreAdd c x => Sys2Proof.Machine.execCoreAdd c x s
  | .coreSub c x => Sys2Proof.Machine.execCoreSub c x s
  | .coreAddi c x => Sys2Proof.Machine.execCoreAddi c x s
  | .coreAnd c x => Sys2Proof.Machine.execCoreAnd c x s
  | .coreOr c x => Sys2Proof.Machine.execCoreOr c x s
  | .coreXor c x => Sys2Proof.Machine.execCoreXor c x s
  | .coreAndi c x => Sys2Proof.Machine.execCoreAndi c x s
  | .coreOri c x => Sys2Proof.Machine.execCoreOri c x s
  | .coreXori c x => Sys2Proof.Machine.execCoreXori c x s
  | .coreShf c x => Sys2Proof.Machine.execCoreShf c x s
  | .coreMovi c x => Sys2Proof.Machine.execCoreMovi c x s
  | .coreMinmax c x => Sys2Proof.Machine.execCoreMinmax c x s
  | .coreAdda c x => Sys2Proof.Machine.execCoreAdda c x s
  | .coreAddaw c x => Sys2Proof.Machine.execCoreAddaw c x s
  | .coreMovaw c x => Sys2Proof.Machine.execCoreMovaw c x s
  | .coreLdaL c x lit => Sys2Proof.Machine.execCoreLdaL c x lit s
  | .coreLd c x => Sys2Proof.Machine.execCoreLd c x s
  | .coreSt c x => Sys2Proof.Machine.execCoreSt c x s
  | .coreLdD c x => Sys2Proof.Machine.execCoreLdD c x s
  | .coreStD c x => Sys2Proof.Machine.execCoreStD c x s
  | .coreLda c x => Sys2Proof.Machine.execCoreLda c x s
  | .coreSta c x => Sys2Proof.Machine.execCoreSta c x s
  | .coreCmpCc c x => Sys2Proof.Machine.execCoreCmpCc c x s
  | .coreCmpCcAnd c x => Sys2Proof.Machine.execCoreCmpCcAnd c x s
  | .coreCmpCcOr c x => Sys2Proof.Machine.execCoreCmpCcOr c x s
  | .corePlog c x => Sys2Proof.Machine.execCorePlog c x s
  | .corePmov c x => Sys2Proof.Machine.execCorePmov c x s
  | .coreBr c x => Sys2Proof.Machine.execCoreBr c x s
  | .coreCall c x => Sys2Proof.Machine.execCoreCall c x s
  | .coreJmp c x => Sys2Proof.Machine.execCoreJmp c x s
  | .coreCallr c x => Sys2Proof.Machine.execCoreCallr c x s
  | .coreJmpL c x lit => Sys2Proof.Machine.execCoreJmpL c x lit s
  | .coreCallL c x lit => Sys2Proof.Machine.execCoreCallL c x lit s
  | .coreCallg c x => Sys2Proof.Machine.execCoreCallg c x s
  | .coreRetx c x => Sys2Proof.Machine.execCoreRetx c x s
  | .coreTrap c x => Sys2Proof.Machine.execCoreTrap c x s
  | .coreWait c x => Sys2Proof.Machine.execCoreWait c x s
  | .coreSyncI c x => Sys2Proof.Machine.execCoreSyncI c x s
  | .coreSyncM c x => Sys2Proof.Machine.execCoreSyncM c x s
  | .coreCsrr c x => Sys2Proof.Machine.execCoreCsrr c x s
  | .coreCsrw c x => Sys2Proof.Machine.execCoreCsrw c x s
  | .coreMovs c x limit => Sys2Proof.Machine.execCoreMovs c x limit s
  | .coreFils c x limit => Sys2Proof.Machine.execCoreFils c x limit s
  | .coreCmps c x limit => Sys2Proof.Machine.execCoreCmps c x limit s
  | .coreScns c x limit => Sys2Proof.Machine.execCoreScns c x limit s
  | .coreMul c x => Sys2Proof.Machine.execCoreMul c x s
  | .coreMuld c x => Sys2Proof.Machine.execCoreMuld c x s
  | .coreMac c x => Sys2Proof.Machine.execCoreMac c x s
  | .coreMar c x => Sys2Proof.Machine.execCoreMar c x s
  | .coreMaz c x => Sys2Proof.Machine.execCoreMaz c x s
  | .coreDiv c x => Sys2Proof.Machine.execCoreDiv c x s
  | .sideUnitResult c n => Sys2Proof.Machine.execSideUnitResult c n s
  | .storeDrain c => Sys2Proof.Machine.execStoreDrain c s
  | .lineFill c line => Sys2Proof.Machine.execLineFill c line s
  | .icSourcePend src => Sys2Proof.Machine.execIcSourcePend src s
  | .icOffer => Sys2Proof.Machine.execIcOffer s
  | .interruptAccept c => Sys2Proof.Machine.execInterruptAccept c s
  | .icCfgWrite src value => Sys2Proof.Machine.execIcCfgWrite src value s
  | .dbgHalt c => Sys2Proof.Machine.execDbgHalt c s
  | .dbgResume c => Sys2Proof.Machine.execDbgResume c s
  | .dbgStep c => Sys2Proof.Machine.execDbgStep c s
  | .tbLoad => Sys2Proof.Machine.execTbLoad s
  | .ptmRequest => Sys2Proof.Machine.execPtmRequest s
  | .ptmResult x => Sys2Proof.Machine.execPtmResult x s
  | .efChWrite c src => Sys2Proof.Machine.execEfChWrite c src s
  | .efLutbWrite l value => Sys2Proof.Machine.execEfLutbWrite l value s
  | .efFfcfgWrite f value => Sys2Proof.Machine.execEfFfcfgWrite f value s
  | .ffClk f t ch fall => Sys2Proof.Machine.execFfClk f t s ch fall
  | .ffSet f t ch => Sys2Proof.Machine.execFfSet f t s ch
  | .ffClr f t ch => Sys2Proof.Machine.execFfClr f t s ch
  | .filterEvent f rising t ch => Sys2Proof.Machine.execFilterEvent f rising t s ch
  | .filterExpiry f t => Sys2Proof.Machine.execFilterExpiry f t s
  | .watchEvent x ch fall => Sys2Proof.Machine.execWatchEvent x s ch fall
  | .efWcfgWrite x value => Sys2Proof.Machine.execEfWcfgWrite x value s
  | .swEvent x => Sys2Proof.Machine.execSwEvent x s
  | .timerStart t ev ch fall => Sys2Proof.Machine.execTimerStart t ev s ch fall
  | .timerStop t ev ch fall => Sys2Proof.Machine.execTimerStop t ev s ch fall
  | .timerClr t ev ch fall => Sys2Proof.Machine.execTimerClr t ev s ch fall
  | .timerCap t now ch fall => Sys2Proof.Machine.execTimerCap t now s ch fall
  | .timerCntEvent t n now ch fall => Sys2Proof.Machine.execTimerCntEvent t n now s ch fall
  | .timerCompare t now => Sys2Proof.Machine.execTimerCompare t now s
  | .timerWrap t now => Sys2Proof.Machine.execTimerWrap t now s
  | .timerCmpCommit t value => Sys2Proof.Machine.execTimerCmpCommit t value s
  | .tmCntWrite t hi value => Sys2Proof.Machine.execTmCntWrite t hi value s
  | .timerOvrclr t => Sys2Proof.Machine.execTimerOvrclr t s
  | .dmaMove u => Sys2Proof.Machine.execDmaMove u s
  | .dmaNop u => Sys2Proof.Machine.execDmaNop u s
  | .dmaBeatRead u => Sys2Proof.Machine.execDmaBeatRead u s
  | .dmaBeatAnswer u data err => Sys2Proof.Machine.execDmaBeatAnswer u data err s
  | .dmaBeatWrite u => Sys2Proof.Machine.execDmaBeatWrite u s
  | .dmaMoveConfirm u => Sys2Proof.Machine.execDmaMoveConfirm u s
  | .dmaChannelStart c => Sys2Proof.Machine.execDmaChannelStart c s
  | .dmaChannelTrigger c t ch fall => Sys2Proof.Machine.execDmaChannelTrigger c s t ch fall
  | .dmaChannelAbort c => Sys2Proof.Machine.execDmaChannelAbort c s
  | .traceArm u => Sys2Proof.Machine.execTraceArm u s
  | .traceTrigger u event t ch fall => Sys2Proof.Machine.execTraceTrigger u event t s ch fall
  | .traceStop u last => Sys2Proof.Machine.execTraceStop u last s
  | .traceRelease u => Sys2Proof.Machine.execTraceRelease u s
  | .traceRecordWrite u r => Sys2Proof.Machine.execTraceRecordWrite u r s
  | .trRdseqWrite u value => Sys2Proof.Machine.execTrRdseqWrite u value s
  | .bar2Write off bytes => Sys2Proof.Machine.execBar2Write off bytes s
  | .pdCarrierMidpoint k t => Sys2Proof.Machine.execPdCarrierMidpoint k t s
  | .pdDutyCommit k value => Sys2Proof.Machine.execPdDutyCommit k value s
  | .ampSlewStep k => Sys2Proof.Machine.execAmpSlewStep k s
  | .pdGateFault k => Sys2Proof.Machine.execPdGateFault k s
  | .pdFaultRelease k high => Sys2Proof.Machine.execPdFaultRelease k high s
  | .encoderRequest k t => Sys2Proof.Machine.execEncoderRequest k t s
  | .encoderFrame k bits ack endOk t => Sys2Proof.Machine.execEncoderFrame k bits ack endOk t s
  | .boostHoldEnd k t => Sys2Proof.Machine.execBoostHoldEnd k t s
  | .page wr pec => Sys2Proof.Machine.execPage wr pec s
  | .operation wr pec => Sys2Proof.Machine.execOperation wr pec s
  | .clearFaults pec => Sys2Proof.Machine.execClearFaults pec s
  | .writeProtect wr pec => Sys2Proof.Machine.execWriteProtect wr pec s
  | .capability => Sys2Proof.Machine.execCapability s
  | .voutMode => Sys2Proof.Machine.execVoutMode s
  | .voutCommand wr pec => Sys2Proof.Machine.execVoutCommand wr pec s
  | .statusByte => Sys2Proof.Machine.execStatusByte s
  | .statusWord => Sys2Proof.Machine.execStatusWord s
  | .statusVout => Sys2Proof.Machine.execStatusVout s
  | .statusIout => Sys2Proof.Machine.execStatusIout s
  | .statusTemperature => Sys2Proof.Machine.execStatusTemperature s
  | .statusCml => Sys2Proof.Machine.execStatusCml s
  | .readVout => Sys2Proof.Machine.execReadVout s
  | .readIout => Sys2Proof.Machine.execReadIout s
  | .readTemperature1 => Sys2Proof.Machine.execReadTemperature1 s
  | .readPout => Sys2Proof.Machine.execReadPout s
  | .pmbusRevision => Sys2Proof.Machine.execPmbusRevision s
  | .mfrId => Sys2Proof.Machine.execMfrId s
  | .mfrModel => Sys2Proof.Machine.execMfrModel s
  | .invalidCommand code => Sys2Proof.Machine.execInvalidCommand code s
  | .alertResponse => Sys2Proof.Machine.execAlertResponse s
  | .pmbusCopyRefresh t => Sys2Proof.Machine.execPmbusCopyRefresh t s
  | .avsVoltageWrite k a v crc => Sys2Proof.Machine.execAvsVoltageWrite k a v crc s
  | .avsVoltageRead k a crc => Sys2Proof.Machine.execAvsVoltageRead k a crc s
  | .avsVouttransrateRead k a crc => Sys2Proof.Machine.execAvsVouttransrateRead k a crc s
  | .avsCurrentRead k a crc => Sys2Proof.Machine.execAvsCurrentRead k a crc s
  | .avsTemperatureRead k a crc => Sys2Proof.Machine.execAvsTemperatureRead k a crc s
  | .avsStatusRead k a crc => Sys2Proof.Machine.execAvsStatusRead k a crc s
  | .avsStatusWrite k a crc => Sys2Proof.Machine.execAvsStatusWrite k a crc s
  | .privateWrite bytes => Sys2Proof.Machine.execPrivateWrite bytes s
  | .privateRead n => Sys2Proof.Machine.execPrivateRead n s
  | .entdaa da => Sys2Proof.Machine.execEntdaa da s
  | .setdasa da => Sys2Proof.Machine.execSetdasa da s
  | .rstdaa => Sys2Proof.Machine.execRstdaa s
  | .getpid => Sys2Proof.Machine.execGetpid s
  | .getbcr => Sys2Proof.Machine.execGetbcr s
  | .getdcr => Sys2Proof.Machine.execGetdcr s
  | .getstatus => Sys2Proof.Machine.execGetstatus s
  | .enec => Sys2Proof.Machine.execEnec s
  | .disec => Sys2Proof.Machine.execDisec s
  | .ibi => Sys2Proof.Machine.execIbi s
  | .i3cAddressMatch addr write t => Sys2Proof.Machine.execI3cAddressMatch addr write t s
  | .carrierGain t => Sys2Proof.Machine.execCarrierGain t s
  | .ropeEnumRequest => Sys2Proof.Machine.execRopeEnumRequest s
  | .enum count t => Sys2Proof.Machine.execEnum count t s
  | .enumTimeout t => Sys2Proof.Machine.execEnumTimeout t s
  | .ropeSyncSend t => Sys2Proof.Machine.execRopeSyncSend t s
  | .sync t0 acc t => Sys2Proof.Machine.execSync t0 acc t s
  | .ropeFrameForward x good t => Sys2Proof.Machine.execRopeFrameForward x good t s
  | .ropeLos t => Sys2Proof.Machine.execRopeLos t s
  | .fwRsendStart => Sys2Proof.Machine.execFwRsendStart s
  | .imageOpen src xid len good => Sys2Proof.Machine.execImageOpen src xid len good s
  | .imageData src xid off data good => Sys2Proof.Machine.execImageData src xid off data good s
  | .imageClose src xid good => Sys2Proof.Machine.execImageClose src xid good s
  | .ropeAck sub xid arg => Sys2Proof.Machine.execRopeAck sub xid arg s
  | .ropeNak sub xid arg cause => Sys2Proof.Machine.execRopeNak sub xid arg cause s
  | .imageResendTimeout sub arg t => Sys2Proof.Machine.execImageResendTimeout sub arg t s
  | .stageSectorErase ans => Sys2Proof.Machine.execStageSectorErase ans s
  | .stagingDone => Sys2Proof.Machine.execStagingDone s
  | .erase => Sys2Proof.Machine.execErase s
  | .prog => Sys2Proof.Machine.execProg s
  | .programPortDone => Sys2Proof.Machine.execProgramPortDone s
  | .dbgunlock => Sys2Proof.Machine.execDbgunlock s
  | .ownunlock => Sys2Proof.Machine.execOwnunlock s
  | .keyprog => Sys2Proof.Machine.execKeyprog s
  | .revoke => Sys2Proof.Machine.execRevoke s
  | .ownerLockSet => Sys2Proof.Machine.execOwnerLockSet s
  | .svncommit => Sys2Proof.Machine.execSvncommit s
  | .otpWrite => Sys2Proof.Machine.execOtpWrite s
  | .crnWctlGo a typ => Sys2Proof.Machine.execCrnWctlGo a typ s
  | .cairnRecordWrite => Sys2Proof.Machine.execCairnRecordWrite s
  | .bypass bits => Sys2Proof.Machine.execBypass bits s
  | .idcode => Sys2Proof.Machine.execIdcode s
  | .samplePreload balls bits => Sys2Proof.Machine.execSamplePreload balls bits s
  | .extest balls bits => Sys2Proof.Machine.execExtest balls bits s
  | .clamp bits => Sys2Proof.Machine.execClamp bits s
  | .highz bits => Sys2Proof.Machine.execHighz bits s
  | .jtagReset ns => Sys2Proof.Machine.execJtagReset ns s
  | .completionTimeout kind n => Sys2Proof.Machine.execCompletionTimeout kind n s
  | .linkUp speed width flit cr => Sys2Proof.Machine.execLinkUp speed width flit s cr
  | .configWrite c => Sys2Proof.Machine.execConfigWrite c s
  | .islandOffRead off bar len => Sys2Proof.Machine.execIslandOffRead off s bar len
  | .badlenRequest off kind => Sys2Proof.Machine.execBadlenRequest off kind s
  | .comparatorDeassert pcmp n t xs => Sys2Proof.Machine.execComparatorDeassert pcmp n t s xs
  | .islandPowerDown n t => Sys2Proof.Machine.execIslandPowerDown n t s
  | .delayLineLock isl => Sys2Proof.Machine.execDelayLineLock isl s

end Sys2Proof.Machine
end

