-- ==== Sys2Proof/Safety.lean ====
section
/-! DEFINITION. What counts as a safe run: memory keeps its canonical form, and no step stops. -/

namespace Sys2Proof.Machine

/-- The state's memory is canonical. -/
def State.memOk (s : State) : Prop := Mem.wf s.mem = true

/-- `s` can take `n` steps, and every state on the way keeps its memory canonical. -/
def State.safeFor (s : State) : Nat → Prop
  | 0 => s.memOk
  | n + 1 => s.memOk ∧ ∃ t, step s = .next t ∧ t.safeFor n

/-! ### Commands and the addressed memories -/

/-- The commands whose effect can reach the addressed memories: the register rows (a bus error pushes a frame), the rows of the core's instruction set (a store, or the frame of an
exception entry), and the rows that write a memory, wipe one, or turn one off. -/
def mayStore : Instr → Bool
  | .registerWrite _ _ _ _ | .rscSwresRead _ _ | .pccSwresRead _ _ | .hkcResRead _ _ | .fcEntcRead _ _ | .tbLoRead _ | .tmCntLoRead _ _
  | .tmCapLoRead _ _ | .protRftsLoRead _ _ | .elLoRead _ _ | .pdPostbLoRead _ _ | .blTkoLoRead _ | .trTrigtbLoRead _ _ | .icSemRead _ _
  | .icSemRelease _ _ | .nonceRead _ | .holdingCopyRead _ _ | .registerRequestTimeout _ _ | .autowakeAccess _ | .autowakeTimeout _ _ | .lsMiscompare _ _ _ _ | .selfBudgetStep
  | .offEntry _ | .islreqStop _ | .islandStart _ _ _ | .coldReset _ | .warmResetIslands _ _ | .islandReset _ _ | .coreReset _
  | .powerLoss _ _ | .lcWipe _ | .coreIll _ _ | .coreNop _ _ | .coreAdd _ _ | .coreSub _ _ | .coreAddi _ _ | .coreAnd _ _ | .coreOr _ _
  | .coreXor _ _ | .coreAndi _ _ | .coreOri _ _ | .coreXori _ _ | .coreShf _ _ | .coreMovi _ _ | .coreMinmax _ _ | .coreAdda _ _
  | .coreAddaw _ _ | .coreMovaw _ _ | .coreLdaL _ _ _ | .coreLd _ _ | .coreSt _ _ | .coreLdD _ _ | .coreStD _ _ | .coreLda _ _
  | .coreSta _ _ | .coreCmpCc _ _ | .coreCmpCcAnd _ _ | .coreCmpCcOr _ _ | .corePlog _ _ | .corePmov _ _ | .coreBr _ _ | .coreCall _ _
  | .coreJmp _ _ | .coreCallr _ _ | .coreJmpL _ _ _ | .coreCallL _ _ _ | .coreCallg _ _ | .coreRetx _ _ | .coreTrap _ _ | .coreWait _ _
  | .coreSyncI _ _ | .coreSyncM _ _ | .coreCsrr _ _ | .coreCsrw _ _ | .coreMovs _ _ _ | .coreFils _ _ _ | .coreCmps _ _ _ | .coreScns _ _ _
  | .coreMul _ _ | .coreMuld _ _ | .coreMac _ _ | .coreMar _ _ | .coreMaz _ _ | .coreDiv _ _ | .storeDrain _ | .interruptAccept _
  | .dmaBeatWrite _ | .traceStop _ _ | .traceRelease _ | .traceRecordWrite _ _ | .bar2Write _ _ | .stageSectorErase _ | .programPortDone
  | .cairnRecordWrite | .completionTimeout _ _ | .islandPowerDown _ _ => true
  | _ => false

/-! ### Frames over the register store -/

/-- Every register field whose number is not in `l` reads in `w'` as it did in `w`, at every instance. -/
def Keeps (l : List Nat) (w w' : World) : Prop := ∀ G : Fld, G.id < 4096 → G.id ∉ l → ∀ j, w'.f G j = w.f G j

/-- Registers that a record toward the host can change (R215 to R217). -/
abbrev recordIds : List Nat := [F.RING_SEQ_SEQ.id, F.RING_GAPS_DROPPED.id]

/-- Registers that a change of N_req and the regrid of a rail's phases can change (R144, R160). -/
abbrev gridIds : List Nat := [F.PW_RSTAT_NREQ.id, F.PW_PHSTAT_RANK.id]

/-- Registers that the loads of duty words and pulses and their edges can change (R147, R150, R151). -/
abbrev loadIds : List Nat := [F.PW_PHSTAT_LIM.id, F.PW_EDGE_DUTY.id, F.PW_PHSTAT_DTNOW.id, F.PW_ERR_FRANGE.id]

/-- Registers that a change of a phase's state or level can change (R157). -/
abbrev levelIds : List Nat := [F.PW_PHSTAT_KSRC.id, F.PW_PHSTAT_STATE.id, F.PW_EDGE_LVL.id]

/-- Registers that the start of a phase's kill can change (R24, R157, R161). -/
abbrev killIds : List Nat := levelIds ++ loadIds

/-- Registers that the judgement and adoption of a binding set can change (R155, R156). -/
abbrev bindIds : List Nat := killIds ++ [F.PW_RSTAT_NBOUND.id, F.PW_RSTAT_NREQ.id, F.PW_STAT_XGCOUNT.id, F.PW_PHSTAT_XG.id, F.PCC_CFG_EN.id,
  F.PW_CTL_BCOMMIT.id, F.PW_ERR_BINDLIM.id, F.PW_ERR_XGLIM.id, F.PW_ERR_LANEDUP.id, F.PW_ERR_ACTIVE.id, F.PW_ERR_BADVAL.id]

/-- Registers that the judgement of a rail's PWM set can change (R164). -/
abbrev setIds : List Nat := [F.PW_CTL_RCOMMIT.id, F.PW_ERR_BADVAL.id]

/-- Registers that the outcome of a forecast can change (R134, R136, R137). -/
abbrev outcomeIds : List Nat := recordIds ++ [F.FC_RSTAT_LASTOUT.id, F.FC_TSTAT_HIT_HIT.id, F.FC_TSTAT_MISS_MISS.id,
  F.FC_TSTAT_ABORT_ABORT.id]

/-- Registers that the end of a forecast can change. -/
abbrev fcIds : List Nat := outcomeIds ++ [F.FC_RSTAT_INFLIGHT.id, F.FC_OCC_COUNT.id]

/-- Registers that the end of a rollback can change. -/
abbrev rollIds : List Nat := fcIds ++ gridIds ++ [F.LE_STAT_CKDEPTH.id, F.LE_STAT_BAND.id, F.LE_STAT_BLEND.id, F.LE_REFNOW_CODE.id]

/-- Registers that a rail's stop can change (R162, R164, R183, R236). -/
abbrev stopIds : List Nat := rollIds ++ bindIds ++ setIds ++ [F.LE_STAT_RUN.id, F.LE_STAT_IACT.id, F.PROT_VSTAT_ARMED.id, F.LE_CALCFG_EVERY.id]

/-- Registers that a completion can change (R231, R451, R454, R464). -/
abbrev doneIds : List Nat := [F.SI_CMDLAST_STATUS.id, F.SI_CMDLAST_XSTAT.id, F.SI_CMDLAST_RAIL.id, F.SI_CMDLAST_BUS.id,
  F.SI_CMDLAST_NEW.id, F.SI_AVSSTAT_ALERT.id, F.PROT_ERR_CLRREF.id]

/-- Registers that a rail's start can change (R162, R236). -/
abbrev startIds : List Nat := gridIds ++ [F.LE_REFNOW_CODE.id, F.LE_RSTATE_RSTATE.id, F.RSC_CFG_EN.id, F.PCC_CFG_EN.id,
  F.PW_RSTAT_RAILEN.id]

/-- Registers that the stamp and the effect mark of a rail command change. -/
abbrev takenIds : List Nat := [F.LE_RSEQ_NEXT.id, F.FC_RSTAT_FSEQ.id, F.LE_RLAST_LAST.id]

/-! ### Conditions that statements share -/

/-- `s` with everything but its queue and its addressed memories replaced. -/
def State.withW (s : State) (w : World) : State := { s with w := w }

/-- A command for rail `r` would take its turn at once: the rail is present, no command or completion waits, the part is not
paired, no Sentinel entry is under way, the rail's gate is open, no outcome of a disable is outstanding and the part is not RETIRED (R130,
R229, R187, R249). -/
def World.turnFree (w : World) (r : Nat) : Prop :=
  r < w.nRails ∧ w.cmd.queue = [] ∧ w.cmd.waits = [] ∧ w.paired = false ∧ w.sentArmed = false ∧ w.pwr.sent = 0
  ∧ w.f F.LE_RSTATE_GATE r = 0 ∧ w.f F.LC_STATE_STATE 0 ≠ 5 ∧ w.disabling r = false

/-- The command as it is stamped on its rail: the rail's next stamp, and for a FORECAST its next FSEQ (R228, R109). -/
def World.stamped (w : World) (src : CmdSrc) (op : Op) (r : Nat) : Cmd :=
  { src := src, op := op, rail := r, stamp := w.f F.LE_RSEQ_NEXT r, rails := [(r, w.f F.LE_RSEQ_NEXT r)],
    fseq := match op with | .forecast _ => w.f F.FC_RSTAT_FSEQ r | _ => 0 }

/-- The counters after the stamp is drawn. -/
def World.drawn (w : World) (op : Op) (r : Nat) : World :=
  match op with
  | .forecast _ => (w.inc F.LE_RSEQ_NEXT r).inc F.FC_RSTAT_FSEQ r
  | _ => w.inc F.LE_RSEQ_NEXT r

/-- The rail's next stamp is drawn, and its command takes effect: LE_RLAST shows the stamp (R228, R254). -/
def World.taken (w : World) (op : Op) (r : Nat) : World :=
  (w.drawn op r).sf F.LE_RLAST_LAST r (w.f F.LE_RSEQ_NEXT r)

/-- A command under GSEQ would take its turn at once; one for all rails needs every present rail's gate open and no outcome of a disable
outstanding (R130, R229). -/
def World.turnFreeG (w : World) (op : Op) : Prop :=
  w.cmd.queue = [] ∧ w.cmd.waits = [] ∧ w.paired = false ∧ w.sentArmed = false ∧ w.pwr.sent = 0
  ∧ w.f F.LC_STATE_STATE 0 ≠ 5 ∧ (op.isAll 0xFF = true → ∀ r < w.nRails, w.f F.LE_RSTATE_GATE r = 0 ∧ w.disabling r = false)

/-- The rails whose stamps a GSEQ command draws, with those stamps: every present rail for a command on all rails, else none (R228). -/
def World.railStamps (w : World) (op : Op) : List (Nat × Nat) :=
  if op.isAll 0xFF then (List.range w.nRails).map fun r => (r, w.f F.LE_RSEQ_NEXT r) else []

/-- The command as it is stamped under GSEQ (R228). -/
def World.stampedG (w : World) (src : CmdSrc) (op : Op) : Cmd :=
  { src := src, op := op, rail := 0xFF, stamp := 0x80000000 + w.f F.GL_GSEQ_NEXT 0, gseq := some (w.f F.GL_GSEQ_NEXT 0),
    rails := w.railStamps op }

/-- The counters after a GSEQ stamp is drawn. -/
def World.drawnG (w : World) (op : Op) : World :=
  (w.railStamps op).foldl (fun w e => w.inc F.LE_RSEQ_NEXT e.1) (w.inc F.GL_GSEQ_NEXT 0)

/-- The stamps are drawn and the command takes effect (R228, R254). -/
def World.takenG (w : World) (op : Op) : World :=
  (w.railStamps op).foldl (fun w e => w.sf F.LE_RLAST_LAST e.1 e.2) (w.drawnG op)

/-- No event holds the block input `key` off at `t` (R387). -/
def World.inputFree (w : World) (key t : Nat) : Prop := mget 0 w.inputs key = 0 ∨ mget 0 w.inputs key + 256 ≤ t + 1

/-- An event starts the 2 ns holdoff of the block input `key` at `t`, and its action comes at the end (R387). -/
def World.inputTaken (w : World) (key t : Nat) : World :=
  World.upTo { w with inputs := mset 0 w.inputs key (t + 1) } (t + 256)

/-- The block of island `n` answers: the island is present and on (R20, R31). -/
def World.blockUp (w : World) (n : Nat) : Prop := w.absent (blockIsl n) = false ∧ w.on (blockIsl n) = true

/-- A register read is answered with `v`: the host gets it whole, a core its low word, with the whole of it in the holding copy
(R552). -/
def World.answered (w : World) (a : Agent) (g : Reg) (i v : Nat) : World :=
  match a with
  | .host => w.emit (.read .host v)
  | .core c => (w.setHeld g i v).emit (.read (.core c) (v % 65536))

/-! ### Cores -/

/-- The word pair at `a` can be fetched, and the line that a fetch from flash or shared SRAM needs is buffered (R314, R345). -/
def World.fetched (w : World) (c a : Nat) : Prop := w.fetchBad c a = none ∧ w.missLine c a = none

/-- Core `c` runs and fetches an instruction, of four words when `long`; nothing is staged and the side unit is idle (R310, R314,
R325). -/
def World.fetches (w : World) (c : Nat) (long : Bool) : Prop :=
  w.mayIssue c = true ∧ (w.core c).st = 1 ∧ (w.core c).staged = [] ∧ (w.core c).stepping = false ∧ (w.core c).side = []
  ∧ w.fetched c (w.core c).pc ∧ (long = true → w.fetched c (((w.core c).pc + 2) % 2 ^ 32))

/-- Instruction `i` of core `c` is issued and acts at once: it is fetched, and its guard holds (R307). -/
def World.issues (w : World) (c i : Nat) (long : Bool) : Prop :=
  w.fetches c long ∧ (w.core c).guard i = true ∧ guardBad i = false

/-- Core `c` once its instruction is fetched: its line is the most recently used, and the next may be requested (R315). -/
def World.ready (w : World) (c : Nat) : Core := (w.touchLine c (w.core c).pc).core c

/-- The instruction at `old` retires and `pc` comes next (R329, R330). -/
def Core.retired (k : Core) (old pc : Nat) : Core := { k with last := old, pc := pc, ret := (k.ret + 1) % 2 ^ 48 }

/-- Core `c`'s registers change by `f`, and its instruction of `len` words retires. -/
def State.ran (s : State) (c len : Nat) (f : Core → Core) : State :=
  s.withW (s.w.setCore c ((f (s.w.ready c)).retired (s.w.core c).pc (((s.w.core c).pc + len) % 2 ^ 32)))

/-- The access to memory word `a` wakes its island from a Trim gate and starts its idle time anew (R19). -/
def State.touched (s : State) (a : Nat) : State := s.withW (s.w.touchAt a)

/-- Memory after the stores of a list leave the buffer, oldest first; those to an island that is off are lost (R318). -/
def World.drained (w : World) (m : Mem) (sb : List (Nat × List Nat)) : Mem :=
  sb.foldl (fun m e => if w.memOff e.1 then m else w.memWrites m e.1 e.2) m

end Sys2Proof.Machine
end

