-- ==== Sys2Proof/Certificates/Slice0/Obligations.lean ====
section
/-! DEFINITION. The statements for the provers: what the commands of the block do, by family, and what every step keeps. -/

open Sys2Proof Sys2Proof.Machine

/-- A step takes the command at the front of the queue and acts as `exec` does on the state with the rest of the queue, for every command and
state. -/
def Obligations.StepRunsTheFrontCommand : Prop :=  ∀ (c : Instr) (rest : List Instr) (s : State), s.pending = c :: rest → step s = exec c { s with pending := rest }

/-- With no command waiting a step lets 128 base ticks of 7.8125 ps pass: the Time Base advances at its rate (R380), every register field but
TM_CTL.RUN and TM_STAT.ARMED, which a running timer moves, reads as before, and the islands, the cores, the waiting commands and the outputs stay.
That an idle step lasts one base cycle of 1 ns is the model's choice (log entry 3), not a rule of the manual. -/
def Obligations.IdleStepLetsTimePass : Prop :=
  ∀ s : State, s.pending = [] → ∃ v : World, step s = .next (s.withW v) ∧ v.clk = s.w.clk.step (s.w.fs F.TB_RATENOW_RATE 0) 128
    ∧ Keeps [F.TM_CTL_RUN.id, F.TM_STAT_ARMED.id] s.w v ∧ v.islOn = s.w.islOn ∧ v.cores = s.w.cores ∧ v.cmd = s.w.cmd ∧ v.out = s.w.out

/-- Every command completes in every state; it leaves the queue as it is, and, but for the commands of `mayStore`, every byte of the addressed
memories too. What it rests on that is the model's choice and no rule's word stands in log entries 2, 15 and 71. -/
def Obligations.EveryCommandCompletes : Prop :=
  ∀ (c : Instr) (s : State), ∃ t, exec c s = .next t ∧ t.pending = s.pending
    ∧ (mayStore c = false → ∀ a, Mem.get t.mem a = Mem.get s.mem a)

/-- After a COLD reset every register field reads the reset value of its register's table, only ALW is on, every core is in reset with P0 true and
its registers as R331 leaves them, the addressed memories are in their canonical form and list nothing, and no command waits. What it rests on
that is the model's choice and no rule's word stands in log entries 4, 6, 8 and 9. -/
def Obligations.ResetLeavesTheStatedValues : Prop :=
  (∀ (B : Fld) (i : Nat), State.reset.w.f B i = B.reset i) ∧ (∀ n, State.reset.w.on n = decide (n = 0)) ∧ State.reset.memOk ∧ State.reset.pending = []
    ∧ (∀ c, (State.reset.w.core c).st = 0 ∧ (State.reset.w.core c).pr = 1 ∧ (State.reset.w.core c).mode = 0xB ∧ (State.reset.w.core c).side = []
      ∧ (State.reset.w.core c).sb = [])

/-- Every step keeps the addressed memories in their canonical form: addresses strictly rising, and no entry equal to what an unlisted address
reads as. It holds from every state whose memories have the form, whatever command is at the front of the queue. What it rests on that is the
model's choice and no rule's word stands in log entry 4. -/
def Obligations.EveryStepKeepsTheMemoryForm : Prop := ∀ s t : State, s.memOk → step s = .next t → t.memOk

/-- Taking an exception and returning from it lose nothing (R335, R339, R341). After the entry that an ILLEGAL instruction makes, a RETX as the
handler's first instruction gives back every saved item: W0 to W15, A0 to A7, P1 to P7, MA, MODE and the PC, and TSBP points where it did. It
holds of a core at an even PC, at one of the three levels that R332 gives, with no store waiting and room for a frame below TSBP. Rows it
completes: coreRetx. -/
def Obligations.EntryAndReturnRestoreTheTask : Prop :=
  ∀ (s t : State) (c : Nat) (i j : BitVec 32) (k : Core), k = s.w.core c → s.w.fetches c false → opKnown (insOp i.toNat) = false → k.sb = [] →
    k.tsblim < k.tsbp → k.tsbp ≤ k.tsbtop → k.tsbp ≤ 2048 → k.mode % 4 ≠ 2 → k.pc % 2 = 0 → exec (.coreIll c i) s = .next t →
    t.w.issues c j.toNat false → insOp j.toNat = 0x27 → sysBad j.toNat = false → 
    ∃ (r : State) (y : Core), exec (.coreRetx c j) t = .next r ∧ r.mem = t.mem ∧ y = r.w.core c
      ∧ (∀ n < 16, y.w n = k.w n % 65536) ∧ (∀ n < 8, y.a n = k.a n % 2 ^ 32) ∧ y.pr = (k.pr &&& 0xFE) ||| 1 ∧ y.ma = sx 72 (unI 72 k.ma)
      ∧ y.mode = k.mode % 16 ∧ y.pc = k.pc % 2 ^ 32 ∧ y.tsbp = k.tsbp

/-- What a register write does (R7, R19 to R22, R29, R200). A host write of a whole register that has no rule of its own changes each field by its
access type and no other field, once the access has woken a Trim-gated island; a register with a rule of its own takes the write by that rule; a
core's write changes the words its mask picks; an unassigned offset takes none. A write to a register of an off island is dropped with
HI_ERR.ISLAND_OFF; a core's is a bus error, or waits while AUTOWAKE wakes the island and then goes on, or is the bus error when the island has not
come within 3 µs; an island that has not answered gives the host 0xFA11FA11 and the core ISLAND_TIMEOUT; a request of a wrong length is flagged.
What it rests on that is the model's choice and no rule's word stands in log entries 14, 15 and 40. Rows it completes: registerWrite,
registerRequestTimeout, autowakeAccess, autowakeTimeout, badlenRequest. -/
def Obligations.RegisterWritesFollowAccessTypes : Prop :=
  ∀ (s : State) (off v : Nat),
    (∀ g i u, g ∈ allRegs → s.w.regOf off = some (g, i) → s.w.regAbsent g i = false → u = s.w.touch (blockIsl (g.islandOf 1 i)) →
      (off < 0x80000 → off % 4 = 0 → s.w.on 1 = true → (writers.find? fun e => e.1.id == g.id) = none →
        ∃ x : World, exec (.registerWrite .host off v 0xFFFFFFFF) s = .next (s.withW x)
        ∧ (∀ e ∈ g.lay, ∀ F j y, F = e.2.1 → j = i * F.sub + e.2.2 → y = F.cut e.1 (v % 2 ^ 32) →
          (F.acc = .rw → x.f F j = y)
          ∧ (F.acc = .w1c → x.f F j = (u.f F j - (u.f F j &&& y)) % 2 ^ F.wd)
          ∧ (F.acc = .ro ∨ F.acc = .wo → x.f F j = u.f F j)
          ∧ (F.acc = .lk → x.f F j = if u.lkSet F then u.f F j else y)
          ∧ (F.acc = .rwo → F.cut e.1 0xFFFFFFFF ≠ 0 → x.f F j = if u.rwo.contains (F.key j) then u.f F j else y))
        ∧ Keeps (g.lay.map fun e => e.2.1.id) u x)
      ∧ (∀ e, off < 0x80000 → off % 4 = 0 → s.w.on 1 = true → (writers.find? fun e => e.1.id == g.id) = some e →
        (g.lay.any fun e => e.2.1.cut e.1 0xFFFFFFFF != 0) = true → ∀ r, r = e.2 s.mem u .host i (v % 2 ^ 32) 0xFFFFFFFF →
        exec (.registerWrite .host off v 0xFFFFFFFF) s = .next { s with mem := r.1, w := r.2 })
      ∧ (∀ c mask, off % 4 = 0 → (writers.find? fun e => e.1.id == g.id) = none →
        (g.lay.any fun e => e.2.1.cut e.1 (mask % 2 ^ 32) != 0) = true →
        exec (.registerWrite (.core c) off v mask) s = .next (s.withW
          (u.plain g i (mergeMask (u.keepBits g i) (v % 2 ^ 32) (mask % 2 ^ 32)) (mask % 2 ^ 32)))))
    ∧ (s.w.regOf off = none → s.w.blockOff off = false → off < 0x80000 → off % 4 = 0 → s.w.on 1 = true →
      exec (.registerWrite .host off v 0xFFFFFFFF) s = .next s)
    ∧ (∀ n o isl, blockOf off = some (n, o) → isl = blockIsl n → s.w.blockOff off = true → off % 4 = 0 →
      (s.w.on 1 = true → exec (.registerWrite .host off v 0xFFFFFFFF) s = .next (s.withW (s.w.hiErr F.HI_ERR_ISLAND_OFF (some (0, off)))))
      ∧ (∀ c mask, c < s.w.nCores → s.w.awake c = true → s.w.stalled c = false →
        ((s.w.f F.PM_AUTOWAKE_AW 0).testBit isl = false → ∀ r, r = s.w.enter s.mem c 0x13 (0x40000 + off / 2) (s.w.core c).pc none →
          exec (.registerWrite (.core c) off v mask) s = .next { s with mem := r.1, w := r.2 })
        ∧ ((s.w.f F.PM_AUTOWAKE_AW 0).testBit isl = true →
          exec (.registerWrite (.core c) off v mask) s = .next (s.withW (s.w.stall c isl (.write off (v % 2 ^ 32) (mask % 2 ^ 32)))))))
    ∧ (∀ n o, blockOf off = some (n, o) → s.w.absent (blockIsl n) = false → s.w.on (blockIsl n) = true →
      exec (.registerRequestTimeout .host off) s
        = .next (s.withW ((s.w.hiErr F.HI_ERR_ISLAND_TIMEOUT (some (0, off))).emit (.read .host 0xFA11FA11)))
      ∧ ∀ c r, c < s.w.nCores → s.w.awake c = true → r = s.w.enter s.mem c 0x14 (0x40000 + off / 2) (s.w.core c).pc none →
        exec (.registerRequestTimeout (.core c) off) s = .next { s with mem := r.1, w := r.2 })
    ∧ (∀ z, s.w.on 1 = true → off < 0x100000 → z = s.w.hiErr F.HI_ERR_BADLEN (some (0, off)) →
      exec (.badlenRequest off 0) s = .next (s.withW z)
      ∧ exec (.badlenRequest off 1) s
        = .next (s.withW (World.emit { z with pcie := { z.pcie with aer := { z.pcie.aer with unc := z.pcie.aer.unc ||| 2 ^ 15 } } } .abort))
      ∧ exec (.badlenRequest off 2) s = .next (s.withW ((z.hostRead (off / 4 * 4)).1.emit (.read .host (z.hostRead (off / 4 * 4)).2))))
    ∧ (∀ c n op t, ∀ z w : World, (s.w.pwr.stalls.find? fun e => e.1 == c) = some (c, n, op) → w = s.w.upTo t →
      (z = { s.w with pwr := { s.w.pwr with stalls := s.w.pwr.stalls.filter fun e => e.1 != c } } → s.w.on n = true →
        (∀ addr x mask r, op = .write addr x mask → r = z.writeAt s.mem (.core c) addr x mask →
          exec (.autowakeAccess c) s = .next { s with mem := r.1, w := r.2 })
        ∧ (∀ addr, op = .read addr → exec (.autowakeAccess c) s = .next (s.withW (z.readAt c addr)))
        ∧ (∀ i r, op = .ins i → r = z.again s.mem c i false → exec (.autowakeAccess c) s = .next { s with mem := r.1, w := r.2 }))
      ∧ (z = { w with pwr := { w.pwr with stalls := w.pwr.stalls.filter fun e => e.1 != c } } → w.on n = false → w.past (.access c) 3000 = true →
        (∀ addr, op = .read addr ∨ (∃ x mask, op = .write addr x mask) → c < z.nCores → z.awake c = true →
          ∀ r, r = z.enter s.mem c 0x13 (0x40000 + addr / 2) (z.core c).pc none →
          exec (.autowakeTimeout c t) s = .next { s with mem := r.1, w := r.2 })
        ∧ (∀ i r, op = .ins i → r = z.again s.mem c i true → exec (.autowakeTimeout c t) s = .next { s with mem := r.1, w := r.2 })))

/-- What the reads that latch, clear or copy do (R552 with R20, R381, R396, R481, R140 and the result registers). The register is answered as it
stands (`World.answered`: whole to the host, a core's low word with the whole in the holding copy), once the access has woken a Trim-gated island;
a _HI partner is latched, NEW and OVR or CAPNEW and CAPOVR clear, or eight fresh nonce words are drawn; a core's read of the upper word returns
the upper half of the holding copy; a register of an absent island reads 0, and one of an off island answers the host 0xFA11FA11 with
HI_ERR.ISLAND_OFF. What it rests on that is the model's choice and no rule's word stands in log entries 16 and 66. Rows it completes:
holdingCopyRead, rscSwresRead, pccSwresRead, hkcResRead, fcEntcRead, tbLoRead, tmCntLoRead, tmCapLoRead, protRftsLoRead, elLoRead, pdPostbLoRead,
blTkoLoRead, trTrigtbLoRead, nonceRead. -/
def Obligations.LatchingReadsTakeEffect : Prop :=
  ∀ (s : State) (a : Agent),
    (∀ g i u, u = s.w.touch (blockIsl (g.islandOf 1 i)) → s.w.regAbsent g i = false → s.w.blockUp (g.islandOf 1 i) →
      (g = R.RSC_SWRES → i < 24 → exec (.rscSwresRead a i) s
        = .next (s.withW (((u.sf F.RSC_SWRES_NEW i 0).sf F.RSC_SWRES_OVR i 0).answered a g i (u.regVal g i))))
      ∧ (g = R.PCC_SWRES → i < 128 → exec (.pccSwresRead a i) s
        = .next (s.withW (((u.sf F.PCC_SWRES_NEW i 0).sf F.PCC_SWRES_OVR i 0).answered a g i (u.regVal g i))))
      ∧ (g = R.ICC_SWRES → i < 4 → exec (.pccSwresRead a (128 + i)) s
        = .next (s.withW (((u.sf F.ICC_SWRES_NEW i 0).sf F.ICC_SWRES_OVR i 0).answered a g i (u.regVal g i))))
      ∧ (g = R.HKC_RES → i < 64 → exec (.hkcResRead a i) s
        = .next (s.withW (((u.sf F.HKC_RES_NEW i 0).sf F.HKC_RES_OVR i 0).answered a g i (u.regVal g i))))
      ∧ (g = R.FC_ENTC → i < 128 → exec (.fcEntcRead a i) s
        = .next (s.withW ((u.sf F.FC_ENTD_START_HI i ((u.fc i).start / 2 ^ 32)).answered a g i (u.rawShow g i))))
      ∧ (g = R.TB_LO → i = 0 → exec (.tbLoRead a) s = .next (s.withW ((u.sf F.TB_HI_T_HI 0 (u.tb / 2 ^ 32)).answered a g i (u.tb % 2 ^ 32))))
      ∧ (g = R.TM_CNT_LO → i < 32 → u.f F.TM_CFG_CLKSRC i = 3 → exec (.tmCntLoRead a i) s
        = .next (s.withW ((u.sf F.TM_CNT_HI_C_HI i ((u.timer i).cnt / 2 ^ 32)).answered a g i ((u.timer i).cnt % 2 ^ 32))))
      ∧ (g = R.TM_CAP_LO → i < 32 → exec (.tmCapLoRead a i) s
        = .next (s.withW ((((u.sf F.TM_CAP_HI_P_HI i ((u.timer i).cap / 2 ^ 32)).sf F.TM_STAT_CAPNEW i 0).sf F.TM_STAT_CAPOVR i 0).answered a g i
            ((u.timer i).cap % 2 ^ 32))))
      ∧ (∀ h, (g, h) ∈ latchPairs → ∀ c,
          (g = R.PROT_RFTS_LO ∧ c = Instr.protRftsLoRead a i ∧ i < 24) ∨ (g = R.PD_POSTB_LO ∧ c = .pdPostbLoRead a i ∧ i < 4)
            ∨ (g = R.TR_TRIGTB_LO ∧ c = .trTrigtbLoRead a i ∧ i < 4) ∨ (g = R.BL_TKO_LO ∧ c = .blTkoLoRead a ∧ i = 0)
            ∨ (∃ addr, c = .elLoRead a addr ∧ regAt 19 addr = some (g, i)) →
          exec c s = .next (s.withW ((u.setHeld h i (u.rawShow h i)).answered a g i (u.rawShow g i))))
      ∧ (g = R.SEC_NONCE → i = 0 → ∃ v : World, exec (.nonceRead a) s = .next (s.withW v) ∧ v.sec.fresh = true
          ∧ v.free = u.free + 8 ∧ (∀ j < 8, v.f F.SEC_NONCE_NONCE j = Config.freeValue (u.free + j) % 2 ^ 32) ∧ Keeps [F.SEC_NONCE_NONCE.id] u v))
    ∧ (∀ c m g i, s.w.regOf (4 * m) = some (g, i) → (reader g i).isSome = true → s.w.regAbsent g i = false →
        exec (.holdingCopyRead c (0x40000 + 2 * m + 1)) s = .next (s.withW (s.w.emit (.read (.core c) (s.w.held g i / 65536)))))
    ∧ (∀ g i c, (g = R.RSC_SWRES ∧ c = Instr.rscSwresRead a i ∧ i < 24) ∨ (g = R.PCC_SWRES ∧ c = .pccSwresRead a i ∧ i < 128)
          ∨ (g = R.PROT_RFTS_LO ∧ c = .protRftsLoRead a i ∧ i < 24) →
        (s.w.absent (blockIsl (g.islandOf 1 i)) = true → exec c s = .next (s.withW (s.w.emit (.read a 0))))
        ∧ (s.w.absent (blockIsl (g.islandOf 1 i)) = false → s.w.on (blockIsl (g.islandOf 1 i)) = false → a = .host → exec c s
          = .next (s.withW ((s.w.hiErr F.HI_ERR_ISLAND_OFF (some (0, g.addr i))).emit (.read .host 0xFA11FA11)))))

/-- The rail sense converter's rows. An estimate of a present slice is held; at a round boundary, unless CORR_FRZ holds it or the last step is
less than 1 µs old, the register takes one step toward it, at most 2 ppm, 0.25 µV or 25 fs (R41, R44); an estimate past 2 %, 2 mV or 4 ps declares
the slice faulty (R43). A write of a correction register is taken while CORR_FRZ is 1 and shows FRZBUSY otherwise (R44); a settled reference shows
REFRDY (R52); a reference off its monitor by more than 0.5 % raises REFLOST on each converter that selects it, and one inside ends that condition
(R53, R181); RSC_SLOT takes a value with at most one slot not LOOP, or on a disabled rail, and otherwise shows SLOTBUSY (R48); MODE and REFSEL of
an enabled rail refuse a change with REFBUSY (R50, R51); a software-result period of (SWDIV + 1) µs gives the mean of the selected slices'
corrected words as RESULT, sets NEW and counts (R38, R54, R55). What it rests on that is the model's choice and no rule's word stands in log
entries 18 and 28. Rows it completes: corrStep, refSettled, reflost, rscSwresPeriod, rscSlotWrite, rscCfgWrite, rscCorrWrite. -/
def Obligations.RailSensingTakesEffect : Prop :=
  (∀ (s : State) (n sl t i : Nat) (par : CorrPar) (est d : Int) (w : World), w = s.w.upTo t → w.fb F.RSC_CFG_EN n = true → w.on (snIsl n) = true →
    sl < 8 → i = 8 * n + sl → d = clampI (-(w.corrStep n par)) (w.corrStep n par) (corrReg par est - w.fs (corrFld par) i) →
    ∃ v : World, exec (.corrStep n sl par est t) s = .next (s.withW v) ∧ (v.converter n).est par sl = est
      ∧ (est.natAbs ≤ 10000 * w.corrFault n par →
        Keeps [(corrFld par).id, (corrFlag par).id, F.RSC_STAT_CONV.id, F.RSC_STAT_FIRSTUSE.id] w v
        ∧ (w.fb F.RSC_CFG_CORR_FRZ n = true → v.f (corrFld par) i = w.f (corrFld par) i)
        ∧ (w.fb F.RSC_CFG_CORR_FRZ n = false → w.clk.tk % 320 = 0 →
            mget 0 (w.converter n).applied (3 * sl + corrIdx par) = 0
              ∨ mget 0 (w.converter n).applied (3 * sl + corrIdx par) + 128000 ≤ w.clk.tk + 1 →
            v.f (corrFld par) i % 2 ^ (corrFld par).wd = unI (corrFld par).wd (w.fs (corrFld par) i + d)))
      ∧ (10000 * w.corrFault n par < est.natAbs → w.f F.RSC_STAT_SLICE_FLT n = 0 →
        v.f F.RSC_STAT_SLICE_FLT n = 2 ^ sl ∧ v.f F.RSC_ERR_SLICE_NEW n = 1))
  ∧ (∀ (s : State) (n sl v : Nat) (par : CorrPar), n < s.w.nRails → s.w.on (snIsl n) = true → sl < 8 →
    (s.w.fb F.RSC_CFG_CORR_FRZ n = false → exec (.rscCorrWrite n sl par v) s = .next (s.withW (s.w.sf F.RSC_ERR_FRZBUSY n 1)))
    ∧ (s.w.fb F.RSC_CFG_CORR_FRZ n = true → par ≠ .skew → exec (.rscCorrWrite n sl par v) s = .next (s.withW (s.w.sf (corrFld par) (8 * n + sl) v)))
    ∧ (s.w.fb F.RSC_CFG_CORR_FRZ n = true → exec (.rscCorrWrite n sl .skew v) s
        = .next (s.withW (s.w.sfI F.RSC_CORR_SKEW_SKEW (8 * n + sl) (clampI (-200) 200 (sx 16 v))))))
  ∧ (∀ (s : State) (n : Nat), s.w.on (snIsl n) = true → exec (.refSettled n) s = .next (s.withW (s.w.sf F.RSC_STAT_REFRDY n 1)))
  ∧ (∀ (s : State) (isl ref : Nat) (dev : Int) (l : List Nat), ref < 2 → s.w.on isl = true →
    l = (idxs s.w.nRails fun n => snIsl n == isl && s.w.f F.RSC_CFG_REFSEL n == ref) →
    (5000 < dev.natAbs → exec (.reflost isl ref dev) s = .next (s.withW
      (l.foldl (fun w n => (((w.sf F.RSC_ERR_REFLOST n 1).pulse (0x090 + n)).irq (0x030 + n)).raise n 13 none) s.w)))
    ∧ (dev.natAbs ≤ 5000 → exec (.reflost isl ref dev) s = .next (s.withW (l.foldl (fun w n => (w.bound n).foldl (fun w p => w.endAuto p 13) w) s.w))))
  ∧ (∀ (s : State) (n v : Nat), n < s.w.nRails → s.w.on (snIsl n) = true →
    (s.w.enabled n = true → 1 < notLoop v → exec (.rscSlotWrite n v) s = .next (s.withW (s.w.sf F.RSC_ERR_SLOTBUSY n 1)))
    ∧ (s.w.enabled n = false ∨ notLoop v ≤ 1 → exec (.rscSlotWrite n v) s = .next (s.withW (s.w.putRW R.RSC_SLOT n v))))
  ∧ (∀ (s : State) (n v : Nat), n < s.w.nRails → s.w.on (snIsl n) = true → s.w.enabled n = true → bitsOf v 1 2 < 2 → bitsOf v 4 2 ≠ 3 →
    ∃ x : World, exec (.rscCfgWrite n v) s = .next (s.withW x) ∧ x.f F.RSC_CFG_EN n = v % 2 ∧ x.f F.RSC_CFG_CORR_FRZ n = bitsOf v 8 1
      ∧ x.f F.RSC_CFG_MODE n = s.w.f F.RSC_CFG_MODE n ∧ x.f F.RSC_CFG_REFSEL n = s.w.f F.RSC_CFG_REFSEL n
      ∧ ((bitsOf v 1 2 ≠ s.w.f F.RSC_CFG_MODE n ∨ bitsOf v 4 2 ≠ s.w.f F.RSC_CFG_REFSEL n) → x.f F.RSC_ERR_REFBUSY n = 1)
      ∧ Keeps [F.RSC_CFG_EN.id, F.RSC_CFG_CORR_FRZ.id, F.RSC_ERR_REFBUSY.id] s.w x)
  ∧ (∀ (s : State) (n t : Nat) (samples : List (Nat × Int)) (w : World) (c : List (Int × Bool)), w = s.w.upTo t → w.fb F.RSC_CFG_EN n = true →
    w.on (snIsl n) = true → (w.converter n).swAt + 128000 * (w.f F.RSC_SWCFG_SWDIV n + 1) ≤ w.clk.tk →
    c = ((samples.filter fun x => w.sliceSrc n x.1 == (if w.f F.RSC_CFG_MODE n = 0 then w.f F.RSC_SWCFG_SWSRC n else 1)
      && !(w.f F.RSC_STAT_SLICE_FLT n).testBit x.1).map fun x => w.convert n x.1 x.2) → c ≠ [] →
    ∃ v : World, exec (.rscSwresPeriod n t samples) s = .next (s.withW v)
      ∧ v.f F.RSC_SWRES_RESULT n = unI 16 (rdiv (c.map (·.1)).sum c.length) % 2 ^ 16 ∧ v.f F.RSC_SWRES_NEW n = 1
      ∧ (w.f F.RSC_SWRES_NEW n ≠ 0 → v.f F.RSC_SWRES_OVR n = 1) ∧ v.f F.RSC_SWRES_CLIPPED n = b2n (c.any (·.2))
      ∧ (c.any (·.2) = true → v.f F.RSC_ERR_CLIP n = 1) ∧ v.f F.RSC_SWCNT_COUNT n = (w.f F.RSC_SWCNT_COUNT n + 1) % 2 ^ F.RSC_SWCNT_COUNT.wd)

/-- Current channels and the housekeeping converter: a phase channel's software-result period writes the mean word and sets NEW (R66); a phase
that has been in mid for 2 µs and whose channel runs with AZ_EN starts one autozero, and the average of its 256 codes becomes the offset within ±2
mV and shows AZ_FAIL beyond it (R63); a pass starts at entry 0 when PERIOD has gone by in continuous mode, an event on TRIG's channel starts one
in triggered mode or counts TRIGLOST while one runs (R68, R69); SWAP acts at once while no pass runs and waits for the pass's end otherwise (R70);
the REPEAT + 1 codes of an entry give their mean as its result, with NEW (R68, R71), and the last entry's end clears BUSY and counts the pass.
Rows it completes: pccAutozeroStart, pccAutozeroDone, pccSwresPeriod, hkcPassStart, hkcTrigger, hkcEntryDone, hkcSwap. -/
def Obligations.ChannelsAndHousekeepingTakeEffect : Prop :=
  (∀ (s : State) (isl p : Nat) (codes l : List Int) (u w : World), s.w.on isl = true → isl ≠ 17 → pcIsl p = isl → p < s.w.nPhases →
    s.w.past (.pccSw isl) (1000 * (s.w.f F.PCC_SWCTL_SWDIV (isl - 6) + 1)) = true → u = s.w.start (.pccSw isl) → codes ≠ [] →
    u.currentWords false p codes = (w, l) → w.fb F.PCC_CFG_EN p = true →
    exec (.pccSwresPeriod isl [(p, codes)]) s
      = .next (s.withW ((w.newResult F.PCC_SWRES_NEW F.PCC_SWRES_OVR p).sfI F.PCC_SWRES_CURRENT p (rdiv l.sum l.length))))
  ∧ (∀ (s : State) (p t m : Nat) (w : World), w = (s.w.upTo t).settled p → w.midFrom p = some m →
    (w.fb F.PCC_CFG_EN p = true → w.fb F.PCC_CFG_AZ_EN p = true → m + 256000 ≤ w.clk.tbq → (∀ b, (w.phase p).az ≠ some (m, b)) →
      exec (.pccAutozeroStart p t) s = .next (s.withW (w.setPhase p { w.phase p with az := some (m, false) })))
    ∧ (∀ (codes : List Int) (avg : Int), (w.phase p).az = some (m, false) → codes.length = 256 → m + 256000 + 131072 ≤ w.clk.tbq →
        avg = rdiv (16 * (codes.map (w.pccCode p)).sum) 256 →
      (avg.natAbs ≤ 2621 → exec (.pccAutozeroDone p codes t) s
        = .next (s.withW ((w.setPhase p { w.phase p with az := some (m, true) }).sfI F.PCC_OFS_OFS p avg)))
      ∧ (2621 < avg.natAbs → exec (.pccAutozeroDone p codes t) s
        = .next (s.withW ((w.setPhase p { w.phase p with az := some (m, true) }).sf F.PCC_ERR_AZ_FAIL p 1)))))
  ∧ (∀ (s : State), s.w.on 17 = true →
    (s.w.fb F.HKC_STAT_BUSY 0 = true → exec .hkcSwap s = .next (s.withW (s.w.sf F.HKC_CTL_SWAP 0 1)))
    ∧ (s.w.fb F.HKC_STAT_BUSY 0 = false → exec .hkcSwap s = .next (s.withW (s.w.sf F.HKC_CTL_SWAP 0 1).hkcAdopt)))
  ∧ (∀ (s : State) (t ch : Nat) (w : World), w = s.w.upTo t → w.on 17 = true → w.fb F.HKC_CTL_EN 0 = true →
    (w.fb F.HKC_CTL_MODE 0 = false → w.fb F.HKC_STAT_BUSY 0 = false → w.hkcAt = 0 ∨ w.hkcAt + 128000 * w.hkcPeriod ≤ w.clk.tk + 1 →
      ∃ v : World, exec (.hkcPassStart t) s = .next (s.withW v) ∧ v.f F.HKC_STAT_BUSY 0 = 1 ∧ v.f F.HKC_STAT_ENTRY 0 = 0
        ∧ v.hkcAt = w.clk.tk + 1 ∧ Keeps [F.HKC_STAT_BUSY.id, F.HKC_STAT_ENTRY.id] w v)
    ∧ (w.fb F.HKC_CTL_MODE 0 = true → w.f F.HKC_CTL_TRIG 0 = ch → w.fb F.HKC_STAT_BUSY 0 = false →
      ∃ v : World, exec (.hkcTrigger ch t) s = .next (s.withW v) ∧ v.f F.HKC_STAT_BUSY 0 = 1 ∧ v.f F.HKC_STAT_ENTRY 0 = 0
        ∧ v.hkcAt = w.clk.tk + 1 ∧ Keeps [F.HKC_STAT_BUSY.id, F.HKC_STAT_ENTRY.id] w v)
    ∧ (w.fb F.HKC_CTL_MODE 0 = true → w.f F.HKC_CTL_TRIG 0 = ch → w.fb F.HKC_STAT_BUSY 0 = true →
      exec (.hkcTrigger ch t) s = .next (s.withW (w.incSat F.HKC_ERR_TRIGLOST 0))))
  ∧ (∀ (s : State) (e : Nat) (codes l : List Nat), s.w.on 17 = true → s.w.fb F.HKC_STAT_BUSY 0 = true → s.w.f F.HKC_STAT_ENTRY 0 = e →
    codes.length = s.w.lf F.HKC_SEQ_REPEAT e + 1 → s.w.past .hkcEntry (s.w.hkcTime e) = true → l = s.w.hkcCodes e codes →
    ∃ v : World, exec (.hkcEntryDone e codes) s = .next (s.withW v)
      ∧ v.f F.HKC_RES_VALUE e = (rdiv (l.sum : Nat) l.length).toNat % 2 ^ 16 ∧ v.f F.HKC_RES_NEW e = 1 ∧ v.f F.HKC_DIRECT_VALUE 0 = l.getLastD 0 % 2 ^ 16
      ∧ (s.w.lf F.HKC_SEQ_LAST e ≠ 1 → e < 63 → v.f F.HKC_STAT_ENTRY 0 = e + 1))
  ∧ (∀ (w : World) (e : Nat), (w.lf F.HKC_SEQ_LAST e = 1 ∨ e = 63) →
      (w.hkcNext e).f F.HKC_STAT_BUSY 0 = 0 ∧ (w.hkcNext e).f F.HKC_STAT_PASSES 0 = (w.f F.HKC_STAT_PASSES 0 + 1) % 2 ^ F.HKC_STAT_PASSES.wd
      ∧ (w.fb F.HKC_CTL_SWAP 0 = true → (w.hkcNext e).f F.HKC_CTL_SWAP 0 = 0 ∧ ∀ G ∈ seqFields, ∀ k < 64, (w.hkcNext e).lf G k = w.f G k % 2 ^ G.wd))

/-- An update boundary (R76, R77, R87, R236): a rail whose engine may take an update runs it from its window of 8 × ROUNDS sense samples and its
current codes and holds off the next boundary; a ramping disable that stands at REF = 0 makes its disable step in place of the update; and a rail
whose engine may not take an update does nothing. `w` is the machine at the boundary. LE_CTL.COMMIT of a rail that is not regulating and not
calibrating, with a pending set that R100 does not refuse, puts every shadowed register and every coefficient slot of the rail in force, shows the
new ROUNDS and reads COMMIT 0 (R99 to R101); a set that R100 refuses raises its error flag, reads COMMIT 0 and leaves every register in force as
it was. What it rests on that is the model's choice and no rule's word stands in log entry 28. Rows it completes: loopUpdate, leCommit. -/
def Obligations.LoopEngineTakesEffect : Prop :=
  (∀ (s : State) (w : World) (r t : Nat) (win : List Int) (codes : List (Nat × Int)) (word : Option Nat) (bit : Nat), w = s.w.upTo t →
    (w.mayUpdate r = true → win.length = 8 * w.f F.LE_STAT_ROUNDS_NOW r → (w.rail r).rampDown = false →
      exec (.loopUpdate r t win codes word bit) s = .next (s.withW (w.update r win codes (word.map (·, bit)))))
    ∧ (w.mayUpdate r = true → win.length = 8 * w.f F.LE_STAT_ROUNDS_NOW r → (w.rail r).rampDown = true → (w.engine r).ref = 0 →
      exec (.loopUpdate r t win codes word bit) s = .next (s.withW (w.disableStep r)))
    ∧ (w.mayUpdate r = false → exec (.loopUpdate r t win codes word bit) s = .next (s.withW w)))
  ∧ (∀ (s : State) (r : Nat) (w : World), s.w.on (leIsl r) = true → r < s.w.nRails → s.w.f F.LE_CTL_COMMIT r = 0 → s.w.updating r = false →
    w = (s.w.sf F.LE_CTL_COMMIT r 1).sf F.LE_CTL_COMMIT r 0 →
    (w.leRefused r = none → (s.w.rail r).calSaved = none →
      ∃ v : World, exec (.leCommit r) s = .next (s.withW v) ∧ v.f F.LE_CTL_COMMIT r = 0
        ∧ (∀ G ∈ leSet, v.lf G r = s.w.f G r % 2 ^ G.wd) ∧ (∀ k < 32, v.lf F.LE_COEF_VALUE (32 * r + k) = s.w.f F.LE_COEF_VALUE (32 * r + k) % 2 ^ 32)
        ∧ v.lf F.LE_FORM_FORM r = s.w.f F.LE_FORM_FORM r % 2 ^ F.LE_FORM_FORM.wd
        ∧ v.f F.LE_STAT_ROUNDS_NOW r % 32 = s.w.f F.LE_RATE_ROUNDS r % 32
        ∧ Keeps [F.LE_CTL_COMMIT.id, F.LE_STAT_ROUNDS_NOW.id, F.LE_RSTATE_RSTATE.id] s.w v)
    ∧ (∀ flag, w.leRefused r = some flag → exec (.leCommit r) s = .next (s.withW (w.sf flag r 1))))

/-- Every register the sequencer writes stays a 32-bit value, under every program, operand and mode: a write saturates (R81). -/
def Obligations.SequencerRegistersSaturate : Prop :=  ∀ (l : Latch) (e : Eng) (p : List MW), ∀ x ∈ (l.run e p).x, -2 ^ 31 ≤ x ∧ x ≤ 2 ^ 31 - 1

/-- While the rail is FROZEN no program moves the integrator but by a rollback's blend, and without one it stays exactly as it was; not frozen, an
INTG step leaves it within its two limits, whatever its operands (R86, R180). -/
def Obligations.FrozenHoldsTheIntegrator : Prop :=
  (∀ (l : Latch) (e : Eng) (p : List MW), l.frozen = true → l.blend = none → (l.run e p).e.i = e.i)
  ∧ (∀ (l : Latch) (q : Seq) (m : MW), m.op = .intg → l.frozen = false → l.coef.getD (m.idx + 1) 0 ≤ l.coef.getD (m.idx + 2) 0 →
    l.coef.getD (m.idx + 1) 0 * 2 ^ 16 ≤ (l.exec q m).e.i ∧ (l.exec q m).e.i ≤ l.coef.getD (m.idx + 2) 0 * 2 ^ 16)

/-- Hint pins and templates: an edge closer than 8 ns to the pin's last is counted ignored (R458), a selected one later acts as the hint of R112,
which the ledger of HOLDOFF and the checks of R110 accept or refuse; a HACK pulse ends once its width has expired, and not before (R113, R114); a
template that is disabled takes a write in range, one that is enabled refuses it with TPLBUSY, and a value out of range shows BADVAL (R107, R115);
STATCLR returns every template's four counters to 0 (R137). What it rests on that is the model's choice and no rule's word stands in log entry 34.
Rows it completes: hintEdge, hackPulseEnd, fcTplWrite, statclr. -/
def Obligations.HintEdgesAndTemplatesTakeEffect : Prop :=
  (∀ (s : State) (w : World) (p a t : Nat) (rising : Bool), w = s.w.upTo t → w.on 8 = true → p < 16 → mget 0 w.pins.hintSeen p = a + 1 →
    w.tb < a + 8 → exec (.hintEdge p rising t) s = .next (s.withW (w.inc F.HINT_CNT_IGNORED p)))
  ∧ (∀ (s : State) (w v : World) (p t : Nat) (rising : Bool), w = s.w.upTo t → w.on 8 = true → p < 16 →
    (∀ a, mget 0 w.pins.hintSeen p = a + 1 → a + 8 ≤ w.tb) →
    v = { w with pins := { w.pins with hintSeen := mset 0 w.pins.hintSeen p (w.tb + 1) } } →
    ((w.f F.HINT_CFG_EDGE p).testBit (if rising then 0 else 1) = true → exec (.hintEdge p rising t) s = .next (s.withW (v.hint p)))
    ∧ ((w.f F.HINT_CFG_EDGE p).testBit (if rising then 0 else 1) = false → exec (.hintEdge p rising t) s = .next (s.withW v)))
  ∧ (∀ (w : World) (p tpl r : Nat), tpl = w.f F.HINT_CFG_TPL p → r = w.f F.FC_TPLA_RAIL tpl → w.hintsOn = true → w.fb F.HINT_CFG_EN p = true →
    w.fb F.FC_TPLA_EN tpl = true → w.heldOff p = false →
    w.hint p = if (w.pulse (0x0B0 + p)).hintOk r (w.template tpl w.tb) then (w.pulse (0x0B0 + p)).hintAccept p tpl r (w.template tpl w.tb)
      else ((w.pulse (0x0B0 + p)).incSat F.FC_TSTAT_REFUSE_REFUSE tpl).sf F.FC_ERR_REFUSED 0 1)
  ∧ (∀ (s : State) (k : Nat), mget 0 s.w.pins.hack k ≤ s.w.clk.tbq →
    exec (.hackPulseEnd k) s = .next (s.withW { s.w with pins := { s.w.pins with hack := mset 0 s.w.pins.hack k 0 } }))
  ∧ (∀ (s : State) (k : Nat), s.w.clk.tbq < mget 0 s.w.pins.hack k → exec (.hackPulseEnd k) s = .next (s.withW s.w))
  ∧ (∀ (s : State) (t x v : Nat), s.w.on 8 = true → t < 32 → x < 7 →
    (s.w.f F.FC_TPLA_EN t = 0 → s.w.tplBad x v = false → exec (.fcTplWrite t x v) s = .next (s.withW (s.w.putRW (tplReg x) t v)))
    ∧ (s.w.f F.FC_TPLA_EN t = 0 → s.w.tplBad x v = true → exec (.fcTplWrite t x v) s = .next (s.withW (s.w.sf F.FC_ERR_BADVAL 0 1)))
    ∧ (s.w.f F.FC_TPLA_EN t ≠ 0 → x ≠ 0 → exec (.fcTplWrite t x v) s = .next (s.withW (s.w.sf F.FC_ERR_TPLBUSY 0 1))))
  ∧ (∀ (s : State), s.w.on 8 = true → ∃ v : World, exec .statclr s = .next (s.withW v)
      ∧ (∀ t < 32, v.f F.FC_TSTAT_HIT_HIT t = 0 ∧ v.f F.FC_TSTAT_MISS_MISS t = 0 ∧ v.f F.FC_TSTAT_ABORT_ABORT t = 0 ∧ v.f F.FC_TSTAT_REFUSE_REFUSE t = 0)
      ∧ Keeps [F.FC_TSTAT_HIT_HIT.id, F.FC_TSTAT_MISS_MISS.id, F.FC_TSTAT_ABORT_ABORT.id, F.FC_TSTAT_REFUSE_REFUSE.id] s.w v)

/-- The rows of a forecast in flight: a waiting entry asks for its reservation with V_REF at the time of asking, at acceptance or at t_ra − 20 µs
where that is later (R120); the answer of the ledger to the eldest request that waits is a refusal, or a grant of the step of R263 with the energy
it holds at once and the step for the next boundary (R120, R121); a pre-cool request whose START − PCLEAD has come opens its boost on an enabled
pump channel, and on a disabled one shows BOOSTOFF (R132, R446); an accepted decision message is noted, and the next update boundary commits the
forecast or starts its rollback (R121, R131); an outcome is released (R134). What it rests on that is the model's choice and no rule's word stands
in log entries 33, 82, 91 and 92. Rows it completes: reservationRequest, reservationAnswer, outcomeRelease, decisionMessageAccept, precoolRequest.
-/
def Obligations.ReservationsAndDecisionsTakeEffect : Prop :=
  (∀ (s : State) (i : Nat), (s.w.fc i).st = .wait → (s.w.fc i).res = .none → s.w.raStart (s.w.fc i) ≤ s.w.clk.tk + 2560000 →
    exec (.reservationRequest i) s = .next (s.withW (s.w.setFc i { s.w.fc i with
      res := .asked, vref := (s.w.engine (s.w.fc i).rail).ref.toNat * s.w.f F.RSC_DIVR_RATIO (s.w.fc i).rail })))
  ∧ (∀ (s : State) (i : Nat), s.w.firstAsked (s.w.fc i).rail = some i →
    (s.w.grantOf i = none → exec (.reservationAnswer i) s = .next (s.withW (s.w.setFc i { s.w.fc i with res := .refused })))
    ∧ (∀ g, s.w.grantOf i = some g → ∃ v : World, exec (.reservationAnswer i) s = .next (s.withW v)
        ∧ (v.fc i).res = .granted ∧ (v.fc i).grant = g ∧ (v.fc i).held = (s.w.fc i).energy g.natAbs (s.w.fc i).time2
        ∧ v.f F.EL_RSTAT_CAPN (s.w.fc i).rail % 2 ^ F.EL_RSTAT_CAPN.wd
          = (s.w.f F.EL_RSTAT_CAPN (s.w.fc i).rail + if g = (s.w.fc i).step then 0 else 1) % 2 ^ F.EL_RSTAT_CAPN.wd
        ∧ Keeps [F.EL_RSTAT_CAPN.id] s.w v))
  ∧ (∀ (s : State) (i : Nat) (w : World), (s.w.fc i).pcen = true → (s.w.fc i).boosted = false → (s.w.fc i).st ≠ .free → (s.w.fc i).st ≠ .passive →
    (s.w.fc i).start ≤ s.w.tb + 1000000 * (s.w.fc i).pclead →
    w = s.w.setFc i { s.w.fc i with boosted := true } → (s.w.fc i).pclvl ≠ 0 →
    (s.w.f F.PD_CFG_EN (s.w.fc i).pcch = 0 → exec (.precoolRequest i) s = .next (s.withW (w.sf F.PD_ERR_BOOSTOFF (s.w.fc i).pcch 1)))
    ∧ (s.w.f F.PD_CFG_EN (s.w.fc i).pcch ≠ 0 → exec (.precoolRequest i) s = .next (s.withW
        (World.showBoost { w with boosts := w.boosts ++ [⟨(s.w.fc i).pcch, (s.w.fc i).pclvl, some i, none⟩] } (s.w.fc i).pcch))))
  ∧ (∀ (s : State) (i : Nat), (s.w.fc i).decision ≠ none →
    exec (.decisionMessageAccept i) s = .next (s.withW (s.w.setFc i { s.w.fc i with acc := true })))
  ∧ (∀ (w : World) (i d : Nat) (x y : Int) (b : Bool), ((w.fc i).st = .run ∨ (w.fc i).st = .matched) → (w.fc i).decision = some b →
    w.fcStep i x y d = if (w.fc i).acc then (if b then w.commitFc i else w.startRollback (w.fc i).rail i (w.fc i).why .elder) else w)
  ∧ (∀ (s : State) (r : Nat) (o : Outcome), (s.w.intent r).outq.find? (fun o => o.fseq == (s.w.intent r).relSeq % 65536) = some o →
    exec (.outcomeRelease r) s = .next (s.withW (((s.w.setIntent r { s.w.intent r with
      outq := (s.w.intent r).outq.filter (fun x => x.fseq != o.fseq), relSeq := ((s.w.intent r).relSeq + 1) % 65536 }).sf
        F.FC_RSTAT_LASTOUT r o.out).record 2 r o.bytes)))

/-- The edges of a bound phase whose words have all been loaded: a booted phase's first cycle start makes it ACTIVE with its waiting duty word, an
ACTIVE phase's later cycle starts begin the next cycle, and from the cycle's on edge to its off edge the ball is high (R144, R149, R151, R157); an
off edge whose time has come leaves the ball mid for DT_HL and notes the dead time (R146, R153); a low phase under diode emulation goes to mid
when its new current word is at or under ZCTHR (R154); a SHED phase that reaches ZCTHR, or SHEDMAX, goes OFF at mid (R157); a delay-line re-lock
moves an off edge by at most one tick (R148). Before its time a cycle start or an off edge does nothing. Rows it completes: pwmCycleStart,
pwmOffEdge, zeroCrossMid, shedEnd, dllRelockStep. -/
def Obligations.PwmEdgesHappen : Prop :=
  (∀ (s : State) (p r t cs : Nat) (w : World) (h : Ph), w = s.w.upTo t → w.railOf p = some r → w.cot r = false → h = w.phase p → h.loads = [] →
    h.hi = false → h.nextStart = cs → (w.phSt p = phBoot ∨ w.phSt p = phActive ∧ h.forced = false) →
    (cs ≤ w.clk.tbq → ∃ v : World, exec (.pwmCycleStart p t) s = .next (s.withW v) ∧ v.phSt p = phActive ∧ v.f F.PW_EDGE_DUTY p = h.word % 2 ^ 24
      ∧ (v.phase p).hi = true ∧ (v.phase p).onAt = w.onLimit r h (w.natOn r cs h)
      ∧ (∀ x, (v.phase p).onAt ≤ x → x < (v.phase p).offAt → (v.ball p x).1 = lvHigh)
      ∧ (w.phSt p = phActive → v.f F.PROT_PSTAT_LRUN p = 0))
    ∧ (w.clk.tbq < cs → exec (.pwmCycleStart p t) s = .next (s.withW w)))
  ∧ (∀ (s : State) (p r t : Nat) (w : World) (h : Ph), w = s.w.upTo t → w.railOf p = some r → h = w.phase p → h.loads = [] → h.hi = true →
    (h.offAt ≤ w.clk.tbq → ∃ v : World, exec (.pwmOffEdge p t) s = .next (s.withW v) ∧ (v.phase p).hi = false ∧ (v.phase p).lastOff = h.offAt
      ∧ v.f F.PW_PHSTAT_DTNOW p = satU 8 (w.dtHl r (w.cur p) / 4) % 2 ^ 8
      ∧ (w.phSt p = phActive → ∀ x, h.offAt ≤ x → x < h.offAt + w.dtHl r (w.cur p) → (v.ball p x).1 = lvMid)
      ∧ Keeps [F.PW_PHSTAT_DTNOW.id] w v)
    ∧ (w.clk.tbq < h.offAt → exec (.pwmOffEdge p t) s = .next (s.withW w)))
  ∧ (∀ (s : State) (p r t : Nat) (code i : Int) (w u : World), w = (s.w.upTo t).settled p → w.takeCode p code = (u, i) → u.railOf p = some r →
    u.lf F.PW_RAILCFG_DE r = 1 → u.phSt p = phActive → u.lvl p = lvLow → i ≤ u.lfs F.PW_ZC_ZCTHR r →
    ∃ v : World, exec (.zeroCrossMid p code t) s = .next (s.withW v) ∧ v = u.setPhase p { u.phase p with dem := true, demAt := u.clk.tbq }
      ∧ v.lvl p = lvMid)
  ∧ (∀ (s : State) (p r t : Nat) (w : World), w = (s.w.upTo t).settled p → w.railOf p = some r → w.phSt p = phShed →
    ((w.phase p).shedAt + 128 * w.lf F.PW_SHEDMAX_SHEDMAX r ≤ w.clk.tbq → exec (.shedEnd p none t) s = .next (s.withW (w.force p phOff lvMid)))
    ∧ (∀ code u i, w.takeCode p code = (u, i) → i ≤ u.lfs F.PW_ZC_ZCTHR r →
      exec (.shedEnd p (some code) t) s = .next (s.withW (u.force p phOff lvMid))))
  ∧ (∀ (w : World) (p : Nat), (w.force p phOff lvMid).phSt p = phOff ∧ (w.force p phOff lvMid).f F.PW_EDGE_LVL p = lvMid)
  ∧ (∀ (s : State) (p : Nat) (move : Int), (s.w.phase p).hi = true →
    exec (.dllRelockStep p move) s = .next (s.withW
      (s.w.setPhase p { s.w.phase p with offAt := ((s.w.phase p).offAt + clampI (-1) 1 move).toNat })))

/-- Settings of the PWM islands: RCOMMIT of a rail that is not regulating, with PER, PH, MOD, TONMIN and TOFFMIN in range, puts its whole PWM set
in force and drops the request (R164); a PW_NREQ write is noted for the next boundary, and a 0 on a regulating rail is refused with BADVAL (R159);
locked delay lines show DLLOCK (R148). BCOMMIT of an island none of whose changed phases concerns a regulating rail puts every binding of the
island's phases in force when its set shows no fault, and else raises the set's flags and changes no binding; either way it reads 0 again (R155).
The two islands' commits of one cycle are asked for together, then judged (R155). Rows it completes: bcommit, rcommit, pwNreqWrite, delayLineLock.
-/
def Obligations.PwmSettingsTakeEffect : Prop :=
  ((∀ (s : State) (r : Nat), s.w.on (pwIslR r) = true → r < s.w.nRails → s.w.updating r = false → 16000 ≤ s.w.f F.PW_PER_PER r → s.w.f F.PW_PER_PER r ≤ 512000 →
    s.w.f F.PW_RAILPH_PH r < s.w.f F.PW_PER_PER r → s.w.f F.PW_RAILCFG_MOD r ≤ 1 →
    s.w.f F.PW_TLIM_TONMIN r + s.w.f F.PW_TLIM_TOFFMIN r < s.w.f F.PW_PER_PER r →
    ∃ v : World, exec (.rcommit r) s = .next (s.withW v)
      ∧ (∀ G ∈ pwRailSet, v.lf G r = s.w.f G r % 2 ^ G.wd) ∧ Keeps (F.PW_CTL_RCOMMIT.id :: gridIds) s.w v)
  ∧ (∀ (s : State) (r n : Nat), s.w.on (pwIslR r) = true → r < s.w.nRails → (n % 64 ≠ 0 ∨ s.w.updating r = false) →
    exec (.pwNreqWrite r n) s = .next (s.withW ((s.w.sf F.PW_NREQ_NREQ r (n % 64)).firmwareNph r (n % 64))))
  ∧ (∀ (s : State) (r n : Nat), s.w.on (pwIslR r) = true → r < s.w.nRails → n % 64 = 0 → s.w.updating r = true →
    exec (.pwNreqWrite r n) s = .next (s.withW (s.w.sf F.PW_ERR_BADVAL (grpR r) 1)))
  ∧ (∀ (s : State), exec (.delayLineLock 10) s = .next (s.withW (s.w.sf F.PW_STAT_DLLOCK 0 1))
    ∧ exec (.delayLineLock 11) s = .next (s.withW (s.w.sf F.PW_STAT_DLLOCK 1 1))))
  ∧ (∀ (s : State) (isl g : Nat) (w1 : World), (isl = 10 ∧ g = 0 ∨ isl = 11 ∧ g = 1) → s.w.on isl = true → s.w.f F.PW_CTL_BCOMMIT g = 0 →
    w1 = s.w.bindAsk g false → (∀ p < s.w.nPhases, grpP p = g → ∀ r ∈ w1.bindRails p, s.w.updating r = false) →
    ∃ v : World, exec (.bcommit isl false) s = .next (s.withW v) ∧ v.f F.PW_CTL_BCOMMIT g = 0 ∧ Keeps (bindIds ++ gridIds) s.w v
      ∧ (w1.bindFaults g = [] → ∀ p < s.w.nPhases, grpP p = g → v.lf F.PW_BIND_EN p = s.w.f F.PW_BIND_EN p % 2
        ∧ v.lf F.PW_BIND_RAIL p = s.w.f F.PW_BIND_RAIL p % 32 ∧ v.lf F.PW_BIND_LANE p = s.w.f F.PW_BIND_LANE p % 32)
      ∧ (w1.bindFaults g ≠ [] → v.live = s.w.live ∧ ∀ G ∈ w1.bindFaults g, v.f G g = 1))
  ∧ (∀ (s : State), s.w.on 10 = true → s.w.on 11 = true → s.w.f F.PW_CTL_BCOMMIT 0 = 0 → s.w.f F.PW_CTL_BCOMMIT 1 = 0 →
    exec (.bcommit 10 true) s = .next (s.withW ((((s.w.bindAsk 0 true).bindAsk 1 true).bindStart 0).bindStart 1)))

/-- Kill inputs and the rail's running and RAIL_EN: asserting an input asserts the lines it drives, and every rail that selects a line newly
asserted gets a line kill, with FROZEN 1, and nothing else among the registers but kills, loads and forecasts (R161); a period boundary after the
release of a rail's last selected line releases its line kills, and while another selected line is asserted only the lines themselves change
(R161); a STARTING rail that RAIL_EN, ENDLY, its engine and a first update hold becomes running and REGULATING and completes the RAIL_STARTs that
waited on it (R162, R241); OFFDLY after its disable step RAIL_EN reads 0, and a STOPPING rail goes OFF (R162, R182, R241). `w` is the machine at
the row's time. What it rests on that is the model's choice and no rule's word stands in log entry 89. Rows it completes: killLineAssert,
killLineRelease, railRunning, railEnFall. -/
def Obligations.RailLinesAndPowerTakeEffect : Prop :=
  (∀ (s : State) (x : KillIn) (t : Nat) (w u v : World), w = s.w.upTo t → u = w.driveLines x true →
    v = ((List.range w.nRails).filter fun r => w.linesOn r != u.linesOn r).foldl (fun w r => w.lineKill r) u →
    exec (.killLineAssert x t) s = .next (s.withW v) ∧ (∀ b ∈ w.killBits x, u.pins.kill.testBit b = true)
      ∧ Keeps (F.LE_STAT_FROZEN.id :: killIds ++ fcIds) w v)
  ∧ (∀ (w : World) (r : Nat), w.linesOn r ≠ 0 → (w.lineKill r).f F.LE_STAT_FROZEN r = 1
      ∧ ∀ p ∈ w.bound r, w.phSt p = phActive → (w.lineKill r).phSt p = phKilled)
  ∧ (∀ (s : State) (x : KillIn) (r t0 t : Nat) (u w : World), u = (s.w.upTo t0).driveLines x false → w = u.upTo t →
    (w.linesOn r = 0 → w.periodSince r u.clk.tbq = true →
      exec (.killLineRelease x r t0 t) s = .next (s.withW (w.releaseKills r fun k => k.src != 16)))
    ∧ (w.linesOn r ≠ 0 ∨ w.periodSince r u.clk.tbq = false → exec (.killLineRelease x r t0 t) s = .next (s.withW w)))
  ∧ (∀ (s : State) (r t : Nat) (w : World), w = s.w.upTo t → w.railEn r = true → (w.rail r).firstUpd = true → (w.rail r).engOn = true →
    (w.rail r).running = false → (w.rail r).enAt + 128 * w.f F.PW_ENCFG_ENDLY r ≤ w.clk.tbq → w.rstate r = rsStarting →
    exec (.railRunning r t) s = .next (s.withW (((w.setRail r { w.rail r with running := true }).setRstate r rsRegulating).completeWaits
        (fun x => x.cmd.rail == r && x.on == .running) stOk 0)))
  ∧ (∀ (s : State) (r t : Nat) (w : World), w = s.w.upTo t → (w.rail r).enFallDue = true → w.rstate r = rsStopping →
    (w.rail r).disAt + 128 * w.f F.PW_ENCFG_OFFDLY r ≤ w.clk.tbq →
    ∃ v : World, exec (.railEnFall r t) s = .next (s.withW v) ∧ v.f F.PW_RSTAT_RAILEN r = 0 ∧ v.f F.LE_RSTATE_RSTATE r = rsOff
      ∧ Keeps (F.PW_RSTAT_RAILEN.id :: F.LE_RSTATE_RSTATE.id :: doneIds) w v)

/-- What raising source `src` on rail `r` does (R179 to R185): RHIST shows the source, and under response 0 or 1 nothing else happens; under LATCH
on a rail with no fault the rail is LATCHED, its first source and gate are shown, the faults counter advances and the phases freeze; under HICCUP
with retries left it is HICCUP; under KILL_AUTO with no escalation the rail freezes, counts a trip and keeps its state. The first trip of a 1 ns
cycle counts in TRIPS and a later one of the same cycle does not (R185). A source that acts on a rail already in a faulted state joins CAUSE and
leaves the state as it is (R184). -/
def Obligations.RaiseFollowsItsResponse : Prop :=
  ∀ (w : World) (r src : Nat) (p : Option Nat), src < 16 →
    (w.f F.PROT_RRESP (16 * r + src) < 2 → w.raise r src p = w.orBit F.PROT_RHIST_SEEN r src)
    ∧ (w.f F.PROT_RRESP (16 * r + src) = 4 → w.faulted r = false →
      (w.raise r src p).rstate r = rsLatched ∧ (w.raise r src p).f F.PROT_RFLT_LATCHED r = 1
      ∧ (w.raise r src p).f F.LE_RSTATE_GATE r = 1 ∧ (w.raise r src p).f F.LE_STAT_FROZEN r = 1
      ∧ (w.raise r src p).f F.PROT_RFLT_FIRST r = firstOf (w.tripMask r src) % 32
      ∧ (w.raise r src p).f F.PROT_RCNT_FAULTS r = (w.f F.PROT_RCNT_FAULTS r + 1) % 65536
      ∧ (w.raise r src p).f F.PROT_RCNT_TRIPS r = if w.tripped r then w.f F.PROT_RCNT_TRIPS r else (w.f F.PROT_RCNT_TRIPS r + 1) % 65536)
    ∧ (w.f F.PROT_RRESP (16 * r + src) = 3 → w.faulted r = false → w.f F.PROT_RFLT_RETRIES r < w.f F.PROT_RCFG_HICMAX r →
      w.rstate r ≠ rsOff → w.rstate r ≠ rsStopping →
      (w.raise r src p).rstate r = rsHiccup ∧ (w.raise r src p).f F.PROT_RFLT_HICCUP r = 1
      ∧ (w.raise r src p).f F.LE_RSTATE_GATE r = 1 ∧ (w.raise r src p).f F.PROT_RCNT_FAULTS r = (w.f F.PROT_RCNT_FAULTS r + 1) % 65536)
    ∧ (w.f F.PROT_RRESP (16 * r + src) = 2 → w.faulted r = false → w.f F.PROT_RCFG_ESCN r = 0 →
      (w.raise r src p).rstate r = w.rstate r ∧ (w.raise r src p).f F.LE_STAT_FROZEN r = 1
      ∧ (w.raise r src p).f F.PROT_RCNT_TRIPS r = if w.tripped r then w.f F.PROT_RCNT_TRIPS r else (w.f F.PROT_RCNT_TRIPS r + 1) % 65536)
    ∧ (2 ≤ w.f F.PROT_RRESP (16 * r + src) → w.f F.PROT_RRESP (16 * r + src) ≤ 4 → w.faulted r = true → w.rfts r ≠ w.tb →
      (w.raise r src p).rstate r = w.rstate r ∧ (w.raise r src p).f F.LE_STAT_FROZEN r = 1
      ∧ (w.raise r src p).f F.PROT_RFLT_CAUSE r = (w.f F.PROT_RFLT_CAUSE r ||| 2 ^ src) % 2 ^ F.PROT_RFLT_CAUSE.wd)

/-- The comparators and digital limits act on their samples and codes: samples reach the filter of a comparator that runs, one by one; a sample
whose filter answers for the first time that K of the last W look above the threshold raises source 0 of a TRIP-mode PCMP's rail, forces the off
edge of a high LIMIT-mode phase, shows OUT and LIMITED and counts the cycle, raises VOV, or VUV while armed (R170, R171, R173, R174); an output
that falls reads 0 and ends its kills' conditions (R171, R181); a current word over IPHLIM raises IPHOC, one under −INEG raises IPHNEG, and one
inside both ends those conditions (R178). `w` is the machine at the event's time. Rows it completes: pcmpTrip, pcmpLimit, vcmpTrip, iphoc, iphneg,
comparatorDeassert. -/
def Obligations.ProtectionEventsTakeEffect : Prop :=
  (∀ (s : State) (w : World) (p t : Nat) (xs : List Int), w = (s.w.upTo t).settled p →
    (w.pcmpOn p 1 = true → exec (.pcmpTrip p t xs) s = .next (s.withW (w.pcmpRun p xs)))
    ∧ (w.pcmpOn p 2 = true → exec (.pcmpLimit p t xs) s = .next (s.withW (w.pcmpRun p xs)))
    ∧ (w.pcmpOn p 0 = true → exec (.comparatorDeassert true p t xs) s = .next (s.withW (w.pcmpRun p xs))))
  ∧ (∀ (s : State) (w : World) (v t : Nat) (xs : List Int), w = s.w.upTo t → w.vcmpOn v = true →
    exec (.vcmpTrip v t xs) s = .next (s.withW (w.vcmpRun v xs)) ∧ exec (.comparatorDeassert false v t xs) s = .next (s.withW (w.vcmpRun v xs)))
  ∧ (∀ (w u : World) (p r : Nat) (x : Int) (out : Bool), u = w.sampleIn p (w.pcmpBit p w.clk.tbq x) →
    out = majority (u.hist p) (u.f F.PROT_PBLK_K p) (u.f F.PROT_PBLK_W p) → w.railOf p = some r →
    (out = true → w.f F.PROT_PSTAT_OUT p = 0 → w.f F.PROT_PCFG_MODE p = 1 →
      w.pcmpRun p [x] = ((u.sf F.PROT_PSTAT_OUT p 1).sf F.PROT_PSTAT_TRIPPED p 1).raise r 0 (some p))
    ∧ (out = true → w.f F.PROT_PSTAT_OUT p = 0 → w.f F.PROT_PCFG_MODE p = 2 → w.lvl p = lvHigh → (w.phase p).forced = false →
      ∃ v : World, w.pcmpRun p [x] = v ∧ (v.phase p).hi = false ∧ (v.phase p).lastOff = w.clk.tbq ∧ v.f F.PROT_PSTAT_OUT p = 1
        ∧ v.f F.PROT_PSTAT_LIMITED p = 1 ∧ v.f F.PROT_PSTAT_LCOUNT p = (w.f F.PROT_PSTAT_LCOUNT p + 1) % 65536
        ∧ Keeps [F.PROT_PSTAT_OUT.id, F.PROT_PSTAT_LIMITED.id, F.PROT_PSTAT_LCOUNT.id, F.PW_PHSTAT_DTNOW.id] w v)
    ∧ (out = false → w.f F.PROT_PSTAT_OUT p ≠ 0 → w.pcmpRun p [x] = (u.sf F.PROT_PSTAT_OUT p 0).endAuto p 0)
    ∧ (out = w.fb F.PROT_PSTAT_OUT p → w.pcmpRun p [x] = u))
  ∧ (∀ (w u : World) (v : Nat) (x : Int) (out : Bool), u = w.sampleIn (128 + v) (w.vcmpBit v x) →
    out = majority (u.hist (128 + v)) (u.f F.PROT_VCFG_K v) (u.f F.PROT_VCFG_W v) →
    (out = true → w.f F.PROT_VSTAT_OUT v = 0 → v % 2 = 0 →
      w.vcmpRun v [x] = ((u.sf F.PROT_VSTAT_OUT v 1).sf F.PROT_VSTAT_TRIPPED v 1).raise (v / 2) 2 none)
    ∧ (out = true → w.f F.PROT_VSTAT_OUT v = 0 → v % 2 = 1 → w.f F.PROT_VSTAT_ARMED v ≠ 0 →
      w.vcmpRun v [x] = ((u.sf F.PROT_VSTAT_OUT v 1).sf F.PROT_VSTAT_TRIPPED v 1).raise (v / 2) 3 none)
    ∧ (out = false → w.f F.PROT_VSTAT_OUT v ≠ 0 → v % 2 = 1 → w.vcmpRun v [x] = u.sf F.PROT_VSTAT_OUT v 0))
  ∧ (∀ (s : State) (p r : Nat) (code i : Int) (u w : World), s.w.takeCode p code = (u, i) → u.railOf p = some r → w = u.zeroCross r p i →
    ((u.f F.PROT_DLIM0_IPHLIM r : Int) < i → -(u.f F.PROT_DLIM1_INEG r : Int) ≤ i →
      exec (.iphoc p code) s = .next (s.withW ((w.raise r 4 (some p)).endAuto p 5)))
    ∧ (i ≤ (u.f F.PROT_DLIM0_IPHLIM r : Int) → i < -(u.f F.PROT_DLIM1_INEG r : Int) →
      exec (.iphneg p code) s = .next (s.withW ((w.endAuto p 4).raise r 5 (some p))))
    ∧ (i ≤ (u.f F.PROT_DLIM0_IPHLIM r : Int) → -(u.f F.PROT_DLIM1_INEG r : Int) ≤ i →
      exec (.iphoc p code) s = .next (s.withW ((w.endAuto p 4).endAuto p 5))
      ∧ exec (.iphneg p code) s = .next (s.withW ((w.endAuto p 4).endAuto p 5))))

/-- Shutdown, recovery and clearing: KHOLD after its fault a rail whose stop is due stops running and is to drop RAIL_EN (R182); a period boundary
releases the KILL_AUTO kills whose condition ended before it (R181); ESCDEC takes one from ESCCNT and begins again (R181); at the end of a hiccup
wait of HICTIME a rail still faulty counts a retry, and past HICMAX latches (R184); HICTIME of running without a trip clears RETRIES (R184); a 1
written to PROT_RCLR draws the rail's stamp and queues a FAULT_CLEAR, and a second one before it took its turn shows CLRBUSY (R231); a gate whose
fault record has its entry, and whose decision message BLY has taken, reads 0, and the commands stamped before the fault leave the queue (R187,
R245). `w` is the machine at the row's time. Rows it completes: railStop, killAutoRelease, escDecay, hiccupWaitEnd, hiccupRetriesClear,
faultClear, protRclrWrite, commandGateOpen. -/
def Obligations.ProtectionTimesTakeEffect : Prop :=
  (∀ (s : State) (w : World) (r t : Nat), w = s.w.upTo t → (w.rail r).stopDue = true → (w.rail r).holdAt + 1280 * w.f F.PROT_RCFG_KHOLD r ≤ w.clk.tbq →
    ∃ u v : World, u = w.stopRunning r ∧ exec (.railStop r t) s = .next (s.withW v)
      ∧ v = u.setRail r { u.rail r with enFallDue := u.railEn r, disAt := u.clk.tbq } ∧ v.f F.LE_STAT_RUN r = 0 ∧ Keeps stopIds w v)
  ∧ (∀ (s : State) (w : World) (r t : Nat), w = s.w.upTo t →
    exec (.killAutoRelease r t) s
      = .next (s.withW (w.releaseKills r fun k => !(k.auto && k.src != 16 && (k.ended.any fun e => w.periodSince r e)))))
  ∧ (∀ (s : State) (r : Nat), s.w.f F.PROT_RESC_ESCDEC r ≠ 0 → s.w.past (.esc r) (1000 * s.w.f F.PROT_RESC_ESCDEC r) = true →
    exec (.escDecay r) s = .next (s.withW ((s.w.sf F.PROT_RESC_ESCCNT r (s.w.f F.PROT_RESC_ESCCNT r - 1)).start (.esc r))))
  ∧ (∀ (s : State) (w : World) (r t : Nat), w = s.w.upTo t → w.rstate r = rsHiccup → w.railEn r = false →
    w.past (.hiccup r) (1000 * w.f F.PROT_RTIME_HICTIME r) = true →
    (w.clearConds r = true → exec (.hiccupWaitEnd r t) s = .next (s.withW (w.retry r)))
    ∧ (w.clearConds r = false → w.f F.PROT_RFLT_RETRIES r < w.f F.PROT_RCFG_HICMAX r →
      exec (.hiccupWaitEnd r t) s = .next (s.withW ((w.inc F.PROT_RFLT_RETRIES r).start (.hiccup r))))
    ∧ (w.clearConds r = false → w.f F.PROT_RCFG_HICMAX r ≤ w.f F.PROT_RFLT_RETRIES r →
      ∃ v : World, exec (.hiccupWaitEnd r t) s = .next (s.withW v) ∧ v.rstate r = rsLatched ∧ v.f F.PROT_RFLT_LATCHED r = 1
        ∧ v.f F.PROT_RFLT_HICCUP r = 0 ∧ v.f F.PROT_RFLT_ESC r = 1
        ∧ Keeps [F.PROT_RFLT_HICCUP.id, F.PROT_RFLT_LATCHED.id, F.PROT_RFLT_ESC.id, F.LE_RSTATE_RSTATE.id] w v))
  ∧ (∀ (s : State) (r : Nat), (s.w.rail r).running = true → (s.w.rail r).runAt + 128000 * s.w.f F.PROT_RTIME_HICTIME r ≤ s.w.clk.tbq →
    exec (.hiccupRetriesClear r) s = .next (s.withW (s.w.sf F.PROT_RFLT_RETRIES r 0)))
  ∧ (∀ (s : State) (r v : Nat), s.w.on (leIsl r) = true → v % 2 = 1 → r < s.w.nRails →
    ((∀ c ∈ s.w.cmd.queue, ¬ (c.src = .firmware ∧ c.rail = r)) →
      ∃ w : World, exec (.protRclrWrite r v) s = .next (s.withW w) ∧ Keeps [F.LE_RSEQ_NEXT.id] s.w w
        ∧ w.f F.LE_RSEQ_NEXT r = (s.w.f F.LE_RSEQ_NEXT r + 1) % 2 ^ F.LE_RSEQ_NEXT.wd
        ∧ w.cmd.queue = s.w.cmd.queue ++ [{ src := .firmware, op := .faultClear, rail := r, stamp := s.w.f F.LE_RSEQ_NEXT r, rails := [(r, s.w.f F.LE_RSEQ_NEXT r)] }])
    ∧ ((∃ c ∈ s.w.cmd.queue, c.src = .firmware ∧ c.rail = r) →
      exec (.protRclrWrite r v) s = .next (s.withW (s.w.sf F.PROT_ERR_CLRBUSY (grpR r) 1))))
  ∧ (∀ (s : State) (r : Nat) (hit : Cmd → Bool), s.w.f F.LE_RSTATE_GATE r ≠ 0 → s.w.faultQueued r = false →
    (s.w.paired = false ∨ (s.w.rail r).blyTook = true) → (∀ c, hit c = ((c.on r).isSome && c.faulted.isSome)) →
    exec (.commandGateOpen r) s = .next (s.withW ((s.w.cmd.queue.filter hit).foldl (fun w c => w.settleVoid c stRailFaulted (c.faulted.getD 0) 0 .notAccepted)
      { s.w.sf F.LE_RSTATE_GATE r 0 with cmd := { s.w.cmd with queue := s.w.cmd.queue.filter fun c => !hit c } })))

/-- Rings with their island on: a doorbell within the ring moves TAIL and wakes a STALLED ring, one out of range shows DBRANGE and one of an OFF
ring HI_ERR.DBOFF (R210); enabling a ring that is OFF and properly configured clears its pointers and runs it, or puts it in STANDBY, and a wrong
configuration shows CFG (R211, R212); disabling an idle ring turns it OFF and one with work pending shows CFG (R211); RESUME releases a HALTED
ring (R211); RESET turns a ring OFF whatever its state (R212). What it rests on that is the model's choice and no rule's word stands in log entry
25. Rows it completes: doorbell, ringEnable, ringDisable, ringResume, ringReset. -/
def Obligations.RingControlsTakeEffect : Prop :=
  ∀ (s : State) (n : Nat), n < 16 → s.w.on 2 = true →
    (∀ (v len : Nat) (dist : Nat → Nat), s.w.rgState n ≠ rgOff → len = s.w.ringLen n → (∀ t, dist t = (t + len - s.w.f F.RING_DONE_DONE n % len) % len) →
      (v < len → dist (s.w.f F.RING_TAIL_TAIL n) ≤ dist v →
        ∃ w : World, exec (.doorbell n v) s = .next (s.withW w) ∧ w.f F.RING_TAIL_TAIL n = v % 2 ^ F.RING_TAIL_TAIL.wd
          ∧ w.rgState n = (if s.w.rgState n = rgStalled then rgRun else s.w.rgState n) ∧ Keeps [F.RING_TAIL_TAIL.id, F.RING_STAT_STATE.id] s.w w)
      ∧ (len ≤ v ∨ dist v < dist (s.w.f F.RING_TAIL_TAIL n) → exec (.doorbell n v) s = .next (s.withW (s.w.sf F.RING_ERR_DBRANGE n 1))))
    ∧ (∀ v, s.w.rgState n = rgOff → exec (.doorbell n v) s = .next (s.withW (s.w.hiErr F.HI_ERR_DBOFF (some (0, 0x80000 + 0x1000 * n)))))
    ∧ (s.w.rgState n = rgOff → s.w.rgType n ≠ 0 → 4 ≤ s.w.f F.RING_CFG_SIZE n → s.w.f F.RING_CFG_SIZE n ≤ 12 →
        (s.w.f F.RING_CFG_LOCAL n = 0 ∨ s.w.rgType n = 1) → (s.w.ring n).stale = false →
        ∃ w : World, exec (.ringEnable n) s = .next (s.withW w) ∧ w.f F.RING_CTL_EN n = 1 ∧ (w.rgState n = rgRun ∨ w.rgState n = rgStandby)
          ∧ w.f F.RING_HEAD_HEAD n = 0 ∧ w.f F.RING_TAIL_TAIL n = 0 ∧ w.f F.RING_DONE_DONE n = 0
          ∧ Keeps [F.RING_CTL_EN.id, F.RING_STAT_STATE.id, F.RING_HEAD_HEAD.id, F.RING_TAIL_TAIL.id, F.RING_DONE_DONE.id] s.w w)
    ∧ (s.w.rgState n = rgOff → (s.w.rgType n = 0 ∨ s.w.f F.RING_CFG_SIZE n < 4 ∨ 12 < s.w.f F.RING_CFG_SIZE n) →
        exec (.ringEnable n) s = .next (s.withW (s.w.sf F.RING_ERR_CFG n 1)))
    ∧ (s.w.rgState n ≠ rgOff → s.w.rgState n ≠ rgStandby →
        (s.w.rgPending n = 0 → ∃ w : World, exec (.ringDisable n) s = .next (s.withW w) ∧ w.f F.RING_CTL_EN n = 0 ∧ w.rgState n = rgOff
          ∧ Keeps [F.RING_CTL_EN.id, F.RING_STAT_STATE.id] s.w w)
        ∧ (s.w.rgPending n ≠ 0 → exec (.ringDisable n) s = .next (s.withW (s.w.sf F.RING_ERR_CFG n 1))))
    ∧ (s.w.rgState n = rgHalted → exec (.ringResume n) s = .next (s.withW ((s.w.setRing n { s.w.ring n with cut := false }).setRgState n (s.w.rgGo n))))
    ∧ (s.w.rgState n ≠ rgOff → ∃ w : World, exec (.ringReset n) s = .next (s.withW w) ∧ w.f F.RING_CTL_EN n = 0 ∧ w.rgState n = rgOff
          ∧ (w.ring n).reads = [] ∧ Keeps [F.RING_CTL_EN.id, F.RING_STAT_STATE.id, F.RING_ABN_ABANDONED.id] s.w w)

/-- Ring traffic over the link: the ring whose turn the round robin brings issues the host read of its next posted slots, when nothing of the
buffer can go first and the host has a non-posted credit (R213, R221); the answers of one cycle are stamped in ascending ring number, and the
answer to a ring's eldest read slot by slot; an error of it halts the ring with FETCH, and a slot whose OWN is 0 stalls it with OWN (R211, R213,
R214); the buffer's head entry is drained in order once the link, a given slot and the host's posted credits allow: a message leaves or pends, a
write-back is two host writes and moves DONE, an event record fills the slot its ring's host gave back (R208, R216, R218, R220, R221); a FAULT or
OUTCOME record that its ring holds up raises HI_ERR.EVTBLOCK (R218); a coalescing time that ends queues the ring's message (R220); a telemetry
period of PERIOD µs queues a record for every rail its mask names and starts every rail's sums again (R219). What it rests on that is the model's
choice and no rule's word stands in log entries 10, 11, 24 and 26. Rows it completes: descriptorFetch, descriptorStamp, postedWriteDrain,
msixCoalesceTimer, telemPeriod. -/
def Obligations.RingTrafficAndLinkTakeEffect : Prop :=
  (∀ (s : State) (n np pos k : Nat) (w : World), w = { s.w with pcie := { s.w.pcie with np := s.w.pcie.np.map (· + np) } } →
    w.rrTurn = some n → w.headReady = false → w.pcie.np ≠ some 0 → w.nextFetch n = some (pos, k) →
    exec (.descriptorFetch n np) s = .next (s.withW ((World.setRing { w with rrNext := (n + 1) % 16, pcie := { w.pcie with np := w.pcie.np.map (· - 1) } }
      n { w.ring n with reads := (w.ring n).reads ++ [(pos, k, w.clk.tk)] }).emit (.hostRead (w.slotAddr n pos) (64 * k)))))
  ∧ (∀ (s : State) (t : Nat) (l : List (Nat × ReadAns)) (w : World), w = s.w.upTo t → w.on 2 = true →
    exec (.descriptorStamp t l) s = .next (s.withW (w.fetchAnswers l)))
  ∧ (∀ (w : World) (n m : Nat) (x y : ReadAns), n < 16 → w.fetchAnswers [(n, x)] = w.fetchAnswer n x
    ∧ (m < n → w.fetchAnswers [(n, x), (m, y)] = (w.fetchAnswer m y).fetchAnswer n x))
  ∧ (∀ (w : World) (n slot k c : Nat) (l : List (Nat × Nat × Nat)), (w.ring n).reads = (slot, k, c) :: l →
    (∀ bs, w.fetchAnswer n (.data bs) = (w.setRing n { w.ring n with reads := l }).stampAll n slot ((List.range k).map fun i => bs.getD i []))
    ∧ (∀ e, (w.fetchAnswer n (.error e)).rgState n = rgHalted ∧ (w.fetchAnswer n (.error e)).f F.RING_ERR_FETCH n = 1
      ∧ ((w.fetchAnswer n (.error e)).ring n).reads = []))
  ∧ (∀ (w : World) (n slot : Nat) (b : List Nat) (l : List (List Nat)),
    (bitOf (fieldAt b 63 1) 7 = false → (w.stampAll n slot (b :: l)).rgState n = rgStalled ∧ (w.stampAll n slot (b :: l)).f F.RING_ERR_OWN n = 1)
    ∧ (bitOf (fieldAt b 63 1) 7 = true → w.stampAll n slot (b :: l) = (w.stampDesc n slot b).stampAll n ((slot + 1) % w.ringLen n) l))
  ∧ (∀ (s : State) (ph pd : Nat) (w : World), w = s.w.earn ph pd →
    (w.headReady = true → exec (.postedWriteDrain ph pd) s = .next (s.withW ((w.spend (w.headWrites.getD [])).drainHead)))
    ∧ (w.headReady = false → w.blockedOn = none → exec (.postedWriteDrain ph pd) s = .next (s.withW w))
    ∧ (w.blockedOn ≠ none → exec (.postedWriteDrain ph pd) s = .next (s.withW (w.hiErr F.HI_ERR_EVTBLOCK none))))
  ∧ (∀ (w : World) (l : List BufEnt),
    (∀ v, w.buf = .msix v :: l → w.drainHead = (World.sendMsix { w with buf := l } v).refill)
    ∧ (∀ n slot b x, w.buf = .wb n slot b x :: l → (w.ring n).waitOn = none →
      w.drainHead = (World.writeSlotBack { w with buf := l } n slot 44 b.bytes).refill)
    ∧ (∀ h x k v, w.buf = .record h x :: l → k = w.f F.RING_HEAD_HEAD h.ring → v = World.writeSlotBack { w with buf := l } h.ring k 0 h.bytes →
      w.drainHead = (v.sf F.RING_HEAD_HEAD h.ring ((k + 1) % v.ringLen h.ring)).refill))
  ∧ (∀ (w : World) (n k off : Nat) (bytes : List Nat), w.writeSlotBack n k off bytes
      = ((w.emit (.hostWrite (w.slotAddr n k + off) bytes)).emit (.hostWrite (w.slotAddr n k + 60) [0, 0, 0, 0])).sf F.RING_DONE_DONE n ((k + 1) % w.ringLen n))
  ∧ (∀ (s : State) (n : Nat), n < 16 → s.w.f F.RING_ICOAL_TIME n ≠ 0 → 0 < (s.w.ring n).unsig → s.w.past (.msix n) (1000 * s.w.f F.RING_ICOAL_TIME n) = true →
    exec (.msixCoalesceTimer n) s = .next (s.withW ((s.w.setRing n { s.w.ring n with unsig := 0 }).put (.msix (s.w.f F.RING_CFG_VEC n)))))
  ∧ (∀ (s : State), s.w.on 2 = true → s.w.f F.RING_TELCFG_PERIOD 0 ≠ 0 → s.w.past .telem (1000 * max 10 (s.w.f F.RING_TELCFG_PERIOD 0)) = true →
    ∃ v : World, v = (idxs s.w.nRails fun r => (s.w.f F.RING_TELMASK_RAILS 0).testBit r).foldl (fun w r => w.record 4 r (w.telBytes r)) s.w
      ∧ exec .telemPeriod s = .next (s.withW ((World.telClear { v with telNo := v.telNo + 1 }).start .telem)))

/-- The link and its function: a training to a rate and a width that exist and that the caps allow shows DLUP, the rate, the width and the
partner's credits (R196, R197, R221); a configuration write of BAR0, the command register, the power state or the link's power management shows at
once, and D3hot on a trained link is L1 (R196, R199, R222); a host read of a register or a doorbell page whose island is off answers 0xFA11FA11
and raises HI_ERR.ISLAND_OFF, and one of BAR2 reads trace memory while MEM is on and is such a read while it is off (R20, R32); a link reset and a
Function Level Reset clear the function's state and halt the rings that run, and PERST_N alone resets HLK's registers (R198, R211, R222, R225).
What it rests on that is the model's choice and no rule's word stands in log entries 10, 11 and 24. Rows it completes: linkReset, flr, linkUp,
configWrite, islandOffRead. -/
def Obligations.HostLinkTakesEffect : Prop :=
  ∀ (s : State),
    (∀ speed width flit cr sp x, s.w.on 1 = true → sp = min speed (s.w.f F.HI_LINKCAP_MAXSPEED 0) → 1 ≤ sp → sp ≤ 6 →
      linkWidth width (s.w.f F.HI_LINKCAP_MAXWIDTH 0) = some x →
      ∃ v : World, exec (.linkUp speed width flit cr) s = .next (s.withW v) ∧ v.f F.HI_STAT_DLUP 0 = 1
        ∧ v.f F.HI_STAT_SPEED 0 = sp % 2 ^ F.HI_STAT_SPEED.wd ∧ v.f F.HI_STAT_WIDTH 0 = x % 2 ^ F.HI_STAT_WIDTH.wd ∧ v.f F.HI_STAT_L1 0 = 0
        ∧ v.f F.HI_STAT_FLIT 0 = b2n (flit || sp == 6)
        ∧ v.pcie.ph = credits cr.1 ∧ v.pcie.pd = credits cr.2.1 ∧ v.pcie.np = credits cr.2.2
        ∧ Keeps [F.HI_STAT_SPEED.id, F.HI_STAT_WIDTH.id, F.HI_STAT_FLIT.id, F.HI_STAT_DLUP.id, F.HI_STAT_L1.id] s.w v)
    ∧ (∀ a b x, linkWidth a b = some x → x ∈ [1, 2, 4, 8] ∧ x ≤ a ∧ x ≤ b)
    ∧ (s.w.on 1 = true →
      (∀ a, exec (.configWrite (.bar0 a)) s = .next (s.withW { s.w with pcie := { s.w.pcie with bar0 := a / 2 ^ 20 * 2 ^ 20 % 2 ^ 64 } }))
      ∧ (∀ mem bme, exec (.configWrite (.command mem bme)) s
        = .next (s.withW (World.sf { s.w with pcie := { s.w.pcie with memEn := mem } } F.HI_STAT_BME 0 (b2n bme))))
      ∧ (∀ d3, exec (.configWrite (.power d3)) s
        = .next (s.withW ((s.w.sf F.HI_STAT_D3 0 (b2n d3)).sf F.HI_STAT_L1 0 (b2n (d3 && s.w.fb F.HI_STAT_DLUP 0)))))
      ∧ (∀ l1 l11, exec (.configWrite (.link l1 l11)) s = .next (s.withW { s.w with pcie := { s.w.pcie with aspm := l1, l11 := l11 } }))
      ∧ exec .flr s = .next (s.withW (s.w.flr s.mem)))
    ∧ (∀ n off len, bar0Isl off = some n → s.w.on n = false → s.w.absent n = false →
      exec (.islandOffRead off 0 len) s = .next (s.withW ((s.w.hiErr F.HI_ERR_ISLAND_OFF (some (0, off))).emit (.read .host 0xFA11FA11))))
    ∧ (∀ off len k, k = min len s.w.pcie.mrrs →
      (s.w.on 15 = true ∨ 0x1800000 ≤ off →
        exec (.islandOffRead off 1 len) s = .next (s.withW ((s.w.touch 15).emit (.mem ((List.range k).map fun k => s.w.bar2Get s.mem (off + k))))))
      ∧ (s.w.on 15 = false → off < 0x1800000 →
        exec (.islandOffRead off 1 len) s = .next (s.withW ((s.w.hiErr F.HI_ERR_ISLAND_OFF (some (1, off))).emit
          (.mem ((List.range k).map fun k => if (off + k) % 2 = 0 then 0x11 else 0xFA))))))
    ∧ exec (.linkReset false) s = .next (s.withW (((s.w.resetRegs fun B n => linkField B && n == 1).linkCut s.mem).hiErr F.HI_ERR_LINKRST none))
    ∧ exec (.linkReset true) s = .next (s.withW (((s.w.resetIslRegs 1).linkCaps.linkCut s.mem).hiErr F.HI_ERR_LINKRST none))
    ∧ (∀ (w : World) (e : Fld) (n : Nat), (w.haltRing n e).rgState n = rgHalted ∧ ((w.haltRing n e).ring n).reads = [])

/-- NOP and QUERY_RAIL on a rail whose turn is free take effect at once in every rail state: the stamp is drawn and shown, and the command
completes OK, QUERY_RAIL with the state word of R233. SET_TARGET in STARTING or REGULATING with TARGET and FLAGS in range, and SET_NPH in OFF,
STARTING or REGULATING with a count of 1 to 32: on a rail that takes updates the command has its stamp and stands in the queue with the target
code of R235 or the count until the next update boundary, and nothing else changes but the rail's next stamp (R229, R233); at that boundary it
leaves the queue and its effect is the one that follows, with that code or count. On a rail that takes no updates the effect comes at once.
SET_TARGET writes the rail's target code and shows its stamp; nothing outside the named registers changes among the registers, and no memory.
SET_NPH writes PW_NREQ, asks for the count at the next boundary and completes OK with the count that it will take as its RESULT. FAULT_CLEAR accepted (R191) moves the rail to OFF and clears FIRST, CAUSE, RETRIES, LANES, LATCHED, HICCUP and FROZEN. BUDGET_SET on a
rail with WINDOW and MODE in range is accepted: the budget waits for its adoption at the next ledger tick, and so does the completion (R233,
R262). CALIBRATE on a REGULATING rail under VM3 or VM3-F, with no forecast in flight and its phase bound and ACTIVE: the rail enters CALIBRATING,
form CAL is to be adopted at the next boundary with the old form saved, and the injection registers take the parameters (R237). What it rests on
that is the model's choice and no rule's word stands in log entry 21. Rows it completes: faultClear, nop, setTarget, setNph, queryRail, calibrate,
budgetSet. -/
def Obligations.RailCommandsTakeEffect : Prop :=
  (∀ (s : State) (src : CmdSrc) (r : Nat), s.w.turnFree r →
    exec (.nop src r) s
      = .next (s.withW ((s.w.taken .nop r).complete (s.w.stamped src .nop r) stOk 0 0))
    ∧ exec (.queryRail src r) s
      = .next (s.withW ((s.w.taken .queryRail r).complete (s.w.stamped src .queryRail r) stOk 0
          (s.w.rstate r + 16 * s.w.nph r + 1024 * (s.w.inFlight r).length + 16384 * s.w.f F.LE_STAT_FROZEN r))))
  ∧ (∀ (s : State) (src : CmdSrc) (r t fl : Nat), s.w.turnFree r → (s.w.rstate r = rsStarting ∨ s.w.rstate r = rsRegulating) →
    1 ≤ t → t ≤ 1048575 → fl ≤ 1 → s.w.targetCode r t ≤ 262143 →
    (s.w.updating r = false →
      ∃ v, exec (.setTarget src r t fl) s = .next (s.withW v)
        ∧ v.f F.LE_TARGET_CODE r = s.w.targetCode r t ∧ v.f F.LE_RLAST_LAST r = s.w.f F.LE_RSEQ_NEXT r % 2 ^ 32
        ∧ Keeps (F.LE_TARGET_CODE.id :: F.SI_AVSSTAT_VDONE.id :: takenIds ++ doneIds) s.w v)
    ∧ (s.w.updating r = true →
      exec (.setTarget src r t fl) s = .next (s.withW { s.w.drawn (.setTarget t fl) r with
        cmd := { s.w.cmd with queue := [{ s.w.stamped src (.setTarget t fl) r with due := some (s.w.targetCode r t) }] } })))
  ∧ (∀ (s : State) (src : CmdSrc) (r n : Nat), s.w.turnFree r → s.w.rstate r ≤ rsRegulating → 1 ≤ n → n ≤ 32 →
    (s.w.updating r = false →
      ∃ u, exec (.setNph src r n) s
          = .next (s.withW (u.complete (s.w.stamped src (.setNph n) r) stOk 0 (min (s.w.bound r).length (max n (s.w.needMax r)))))
        ∧ u.f F.PW_NREQ_NREQ r = n ∧ (u.intent r).fwReq = some n ∧ Keeps (F.PW_NREQ_NREQ.id :: takenIds) s.w u)
    ∧ (s.w.updating r = true →
      exec (.setNph src r n) s = .next (s.withW { s.w.drawn (.setNph n) r with
        cmd := { s.w.cmd with queue := [{ s.w.stamped src (.setNph n) r with due := some n }] } })))
  ∧ (∀ (w : World) (c : Cmd) (r x : Nat), w.dueOn r = some c → c.due = some x → c.rails = [(r, c.stamp)] → w.paired = false → w.cmd.waits = [] →
    (∀ t fl, c.op = .setTarget t fl → x < 2 ^ 18 →
      (w.dueActs c).f F.LE_TARGET_CODE r = x ∧ (w.dueActs c).f F.LE_RLAST_LAST r = c.stamp % 2 ^ 32
      ∧ (w.dueActs c).cmd.queue = w.cmd.queue.erase c)
    ∧ (∀ n, c.op = .setNph n → 1 ≤ n → n ≤ 32 →
      ∃ u : World, w.dueActs c = u.complete c stOk 0 (min (w.bound r).length (max n (w.needMax r)))
        ∧ u.f F.PW_NREQ_NREQ r = n ∧ (u.intent r).fwReq = some n ∧ u.cmd.queue = w.cmd.queue.erase c))
  ∧ (∀ (s : State) (src : CmdSrc) (r : Nat), s.w.turnFree r → s.w.clearOk r = true →
    ∃ u, exec (.faultClear src r) s = .next (s.withW (u.complete (s.w.stamped src .faultClear r) stOk 0 0))
      ∧ u.rstate r = rsOff ∧ u.f F.PROT_RFLT_FIRST r = 0 ∧ u.f F.PROT_RFLT_CAUSE r = 0 ∧ u.f F.PROT_RFLT_RETRIES r = 0
      ∧ u.f F.PROT_RPH_LANES r = 0 ∧ u.f F.PROT_RFLT_LATCHED r = 0 ∧ u.f F.PROT_RFLT_HICCUP r = 0 ∧ u.f F.LE_STAT_FROZEN r = 0
      ∧ Keeps (takenIds ++ killIds ++ recordIds ++ [F.LE_RSTATE_RSTATE.id, F.LE_STAT_FROZEN.id, F.PROT_RFLT_FIRST.id,
          F.PROT_RFLT_CAUSE.id, F.PROT_RFLT_RETRIES.id, F.PROT_RESC_ESCCNT.id, F.PROT_RPH_LANES.id, F.PROT_RFLT_LATCHED.id,
          F.PROT_RFLT_HICCUP.id]) s.w u)
  ∧ (∀ (s : State) (src : CmdSrc) (r n l md : Nat), s.w.turnFree r → 10 ≤ n → n ≤ 10000000 → md ≤ 2 →
    exec (.budgetSet src r n l md) s = .next (s.withW
      (({ s.w.taken (.budgetSet n l md) r with budgets := s.w.budgets ++ [(r, n, l, md)] } : World).await
        (s.w.stamped src (.budgetSet n l md) r) .budget)))
  ∧ (∀ (s : State) (src : CmdSrc) (r p e u t : Nat), s.w.turnFree r → s.w.rstate r = rsRegulating → p < s.w.nPhases → 1 ≤ e → e ≤ 255 →
    1 ≤ u → u ≤ 65535 → 1 ≤ t → t ≤ 65535 → (s.w.lf F.LE_FORM_FORM r = 1 ∨ s.w.lf F.LE_FORM_FORM r = 4) →
    s.w.inFlight r = [] → s.w.boundTo p r = true → s.w.phSt p = phActive →
    ∃ v : World, exec (.calibrate src r p e u t) s = .next (s.withW (v.await (s.w.stamped src (.calibrate p e u t) r) .calEnd))
      ∧ v.rstate r = rsCalibrating ∧ (v.rail r).calAdopt = some 7 ∧ (v.rail r).calSaved = some (s.w.lf F.LE_FORM_FORM r)
      ∧ (v.rail r).calEnds = s.w.clk.tbq + 128000 * t
      ∧ v.lf F.LE_CALCFG_PHASE r = p ∧ v.lf F.LE_CALCFG_PULSE r = u ∧ v.lf F.LE_CALCFG_EVERY r = e
      ∧ v.f F.LE_CALRES_SUM r = 0 ∧ v.f F.LE_CALRES_COUNT r = 0)

/-- RAIL_ENABLE on an OFF rail that has a loop form, a usable sense configuration and a bound phase, with parameters in range: the target code and
a count other than 0 are written, the rail starts from the REF of R236, 0 or under PREBIAS the absolute conversion of the sense limited to the
target, whose clip shows CLIP (R36), and the completion waits for running or for REF to reach the target. A rail's start (R236, R162): REF takes
the value given, the state becomes STARTING (BASECAMP under Base Camp), the sense converter is enabled, RAIL_EN rises when the pads are free, and
the engine may take updates. RAIL_DISABLE on an enabled rail, or on one in HICCUP: the rail is disabled in the mode asked for, and the command
completes OK when RAIL_EN is low, else waits for its fall (R233, R236). What a disable does to a rail (R236, R241): MODE 1 from REGULATING,
CALIBRATING or BASECAMP ramps the target to 0, MODE 0 or a rail in STARTING stops the engine at once, and a rail in HICCUP becomes LATCHED. What
it rests on that is the model's choice and no rule's word stands in log entry 21. Rows it completes: railEnable, railDisable. -/
def Obligations.RailStartsAndStopsTakeEffect : Prop :=
  (∀ (s : State) (src : CmdSrc) (r t n fl : Nat) (sense : Int), s.w.turnFree r → s.w.rstate r = rsOff →
    1 ≤ t → t ≤ 1048575 → n ≤ 32 → fl ≤ 3 → s.w.targetCode r t ≤ 262143 → s.w.lf F.LE_FORM_FORM r ≠ 0 →
    s.w.f F.RSC_CFG_MODE r = 0 → s.w.f F.RSC_CFG_REFSEL r ≠ 2 → s.w.bound r ≠ [] →
    ∃ u, exec (.railEnable src r t n fl sense) s
        = .next (s.withW ((u.startRail r (if fl.testBit 1 then 256 * min (16 * (rawAbs sense).1) (s.w.targetCode r t : Int) else 0) false).await
            (s.w.stamped src (.railEnable t n fl) r) (if fl.testBit 0 then .refTarget else .running)))
      ∧ u.f F.LE_TARGET_CODE r = s.w.targetCode r t ∧ u.f F.PW_NREQ_NREQ r = (if n = 0 then s.w.f F.PW_NREQ_NREQ r else n)
      ∧ (fl.testBit 1 = true → (rawAbs sense).2 = true → u.f F.RSC_ERR_CLIP r = 1)
      ∧ Keeps (F.LE_TARGET_CODE.id :: F.PW_NREQ_NREQ.id :: F.RSC_ERR_CLIP.id :: takenIds) s.w u)
  ∧ (∀ (w : World) (r : Nat) (ref : Int) (base : Bool),
    (w.startRail r ref base).rstate r = (if base then rsBasecamp else rsStarting)
    ∧ (w.startRail r ref base).f F.LE_REFNOW_CODE r = (ref / 256).toNat % 2 ^ 18
    ∧ (w.startRail r ref base).f F.RSC_CFG_EN r = 1
    ∧ (∀ p ∈ w.bound r, (w.startRail r ref base).f F.PCC_CFG_EN p = 1)
    ∧ (w.startRail r ref base).railEn r = w.padsFree r
    ∧ ((w.startRail r ref base).rail r).engOn = true ∧ ((w.startRail r ref base).rail r).running = false
    ∧ Keeps startIds w (w.startRail r ref base))
  ∧ (∀ (s : State) (src : CmdSrc) (r mode : Nat), s.w.turnFree r → mode ≤ 1 → s.w.rstate r ≠ rsOff → s.w.rstate r ≠ rsLatched →
    (s.w.rstate r = rsStopping → mode = 0) →
    exec (.railDisable src r mode) s = .next (s.withW (
      let u := (s.w.taken (.railDisable mode) r).disableRail r mode
      let c := s.w.stamped src (.railDisable mode) r
      if u.railEn r then u.await c (.enFallen [r]) else u.complete c stOk 0 0)))
  ∧ (∀ (w : World) (r mode : Nat),
    (w.rstate r = rsHiccup → (w.disableRail r mode).rstate r = rsLatched ∧ (w.disableRail r mode).f F.PROT_RFLT_LATCHED r = 1
        ∧ (w.disableRail r mode).f F.PROT_RFLT_HICCUP r = 0)
    ∧ (w.rstate r = rsRegulating ∨ w.rstate r = rsCalibrating ∨ w.rstate r = rsBasecamp ∨ w.rstate r = rsStarting →
        (w.disableRail r mode).rstate r = rsStopping
        ∧ (mode = 0 ∨ w.rstate r = rsStarting → (w.disableRail r mode).f F.LE_STAT_RUN r = 0)
        ∧ (mode ≠ 0 → w.rstate r ≠ rsStarting → (w.disableRail r mode).f F.LE_TARGET_CODE r = 0
            ∧ ((w.disableRail r mode).rail r).rampDown = true)))

/-- FORECAST on a REGULATING rail with intents enabled that passes the checks of R110: the forecast enters the table at the lowest FREE index with
the rail's FSEQ, and the command completes OK with its FID (R109, R110). An accepted forecast takes the lowest FREE index of the table, in WAIT
under an intent form and PASSIVE under another, with its FSEQ, rail and FID; a used index gets the next generation (R109, R116). FORECAST_CANCEL
of the rail's own forecast in WAIT, RUN, MATCHED or PASSIVE marks it for the next update boundary and completes OK (R121, R128). The end of a
calibration, when its 255 responses or its TIMEOUT have come (R237): the rail goes back to REGULATING, the injections stop, and the saved form is
to be adopted. What it rests on that is the model's choice and no rule's word stands in log entry 21. Rows it completes: forecast, forecastCancel,
calibrationEnd. -/
def Obligations.ForecastCommandsTakeEffect : Prop :=
  (∀ (s : State) (src : CmdSrc) (r : Nat) (p : FcParam), s.w.turnFree r → s.w.rstate r = rsRegulating →
    s.w.fb F.FC_CFG_EN 0 = true → s.w.fb F.FC_RAILA_IEN r = true → fcBad p = none →
    (s.w.drawn (.forecast p) r).fcCheck r p = none →
    exec (.forecast src r p) s = .next (s.withW (
      let a := (s.w.taken (.forecast p) r).fcAccept r p 0 (match src with | .ring n _ _ => n | _ => 0xFF) (s.w.f F.FC_RSTAT_FSEQ r)
      a.1.complete (s.w.stamped src (.forecast p) r) stOk 0 a.2)))
  ∧ (∀ (w : World) (r : Nat) (p : FcParam) (src srcidx q i : Nat), w.freeIdx = some i →
    (w.fc i).st = .free ∧ (∀ j < i, (w.fc j).st ≠ .free)
    ∧ (w.fcAccept r p src srcidx q).2 = (w.fc i).nextFid i
    ∧ ((w.fcAccept r p src srcidx q).1.fc i).st = (if w.intentForm r then .wait else .passive)
    ∧ ((w.fcAccept r p src srcidx q).1.fc i).fseq = q ∧ ((w.fcAccept r p src srcidx q).1.fc i).rail = r
    ∧ ((w.fcAccept r p src srcidx q).1.fc i).fid = (w.fc i).nextFid i
    ∧ ∀ j, j ≠ i → (w.fcAccept r p src srcidx q).1.fc j = w.fc j)
  ∧ (∀ (s : State) (src : CmdSrc) (r fid : Nat), s.w.turnFree r → s.w.rstate r = rsRegulating →
    (s.w.fc (fid % 128)).fid = fid → (s.w.fc (fid % 128)).rail = r →
    (s.w.fc (fid % 128)).st ∈ [FSt.wait, .run, .matched, .passive] →
    exec (.forecastCancel src r fid) s = .next (s.withW (
      ((s.w.taken (.forecastCancel fid) r).setFc (fid % 128) { s.w.fc (fid % 128) with cancel := true }).complete
        (s.w.stamped src (.forecastCancel fid) r) stOk 0 0)))
  ∧ (∀ (s : State) (r : Nat), s.w.rstate r = rsCalibrating → (s.w.f F.LE_CALRES_COUNT r = 255 ∨ (s.w.rail r).calEnds ≤ s.w.clk.tbq) →
    ∃ v : World, exec (.calibrationEnd r) s = .next (s.withW v) ∧ v.rstate r = rsRegulating ∧ v.f F.LE_CALCFG_EVERY r = 0
      ∧ v.lf F.LE_CALCFG_EVERY r = 0 ∧ (v.rail r).calAdopt = (s.w.rail r).calSaved ∧ (v.rail r).calSaved = none
      ∧ Keeps [F.LE_RSTATE_RSTATE.id, F.LE_CALCFG_EVERY.id] s.w v)

/-- The commands that are stamped under GSEQ take effect at once when nothing waits (R228, R233): NOP and RAIL_DISABLE on all rails, BUDGET_SET of
the self budget, PM_SENTINEL with every rail OFF or LATCHED, and outside an update's refusals FW_STAGE, FW_ACTIVATE and CAIRN_READ, whose records
are copied before it completes (R238, R491). COMMAND_TURN gives its turn to the first unsettled command of the rail: that command leaves the queue
and is judged; a NOP at the front takes effect and completes OK (R229, R230). What it rests on that is the model's choice and no rule's word
stands in log entries 21 and 22. Rows it completes: commandTurn, nop, railDisable, budgetSet, pmSentinel, fwStage, fwActivate, cairnRead. -/
def Obligations.CommandOrderTakesEffect : Prop :=
  (∀ (s : State) (src : CmdSrc),
    (s.w.turnFreeG .nop →
      exec (.nop src 0xFF) s = .next (s.withW ((s.w.takenG .nop).complete (s.w.stampedG src .nop) stOk 0 0)))
    ∧ (∀ n l md, s.w.turnFreeG (.budgetSet n l md) → 10 ≤ n → n ≤ 10000000 → md ≤ 2 →
      exec (.budgetSet src 0xFF n l md) s = .next (s.withW
        (({ s.w.takenG (.budgetSet n l md) with budgets := s.w.budgets ++ [(24, n, l, md)] } : World).await
          (s.w.stampedG src (.budgetSet n l md)) .budget)))
    ∧ (s.w.turnFreeG .pmSentinel → (∀ r < s.w.nRails, s.w.rstate r = rsOff ∨ s.w.rstate r = rsLatched) →
      exec (.pmSentinel src) s = .next (s.withW
        (({ s.w.takenG .pmSentinel with sentArmed := true } : World).complete (s.w.stampedG src .pmSentinel) stOk 0 0)))
    ∧ (∀ a l o, s.w.turnFreeG (.fwStage a l o) → a % 64 = 0 → 64 ≤ l → l ≤ 4194304 → l % 64 = 0 → o % 64 = 0 → o + l ≤ 4194304 →
      (s.w.drawnG (.fwStage a l o)).updateRefused = none →
      ∃ v : World, exec (.fwStage src a l o) s = .next (s.withW v)
        ∧ v.fwq = s.w.fwq ++ [⟨some (s.w.stampedG src (.fwStage a l o)), a, s.w.inactiveBank, o, l, o⟩]
        ∧ v.f F.FW_STAT_STAGING 0 = 1 ∧ v.f F.FW_STAT_BOOTSEL 0 = s.w.f F.FW_STAT_ACTIVE 0 % 2)
    ∧ (∀ b, s.w.turnFreeG (.fwActivate b) → b ≤ 1 → (s.w.recovery = true ∨ b = s.w.inactiveBank) →
      (s.w.drawnG (.fwActivate b)).updateRefused = none →
      ∃ v : World, exec (.fwActivate src b) s = .next (s.withW (
          let c := s.w.stampedG src (.fwActivate b)
          if s.w.fwq.any fun j => j.cmd.isSome then v.await c .staged else v.complete c stOk 0 0))
        ∧ v.f F.FW_STAT_BOOTSEL 0 = b ∧ v.f F.BL_STAT_UPD 0 = 2)
    ∧ (∀ a f n, s.w.turnFreeG (.cairnRead a f n) → a % 256 = 0 → f ≤ 8191 → 1 ≤ n → n ≤ 8192 →
      exec (.cairnRead src a f n) s = .next (s.withW
        (({ s.w.takenG (.cairnRead a f n) with
            crnRd := s.w.crnRd ++ [{ cmd := s.w.stampedG src (.cairnRead a f n), addr := a, first := f, count := n }] } : World).await
          (s.w.stampedG src (.cairnRead a f n)) .cairn)))
    ∧ (∀ mode acts u l, s.w.turnFreeG (.railDisable mode) → mode ≤ 1 →
      acts = ((List.range s.w.nRails).filter fun r => legal (.railDisable mode) (s.w.rstate r) == .acts) → acts ≠ [] →
      u = acts.foldl (fun w r => w.disableRail r mode) (s.w.takenG (.railDisable mode)) → l = u.stillHigh acts →
      exec (.railDisable src 0xFF mode) s = .next (s.withW (
        if l = [] then u.complete (s.w.stampedG src (.railDisable mode)) stOk 0 0
        else u.await (s.w.stampedG src (.railDisable mode)) (.enFallen l)))))
  ∧ ((∀ (s : State) (r : Nat) (sense : Int) (c : Cmd), r < 0x100 → s.w.paired = false → s.w.turnOf r = some c →
    exec (.commandTurn r sense) s
      = .next (s.withW (({ s.w with cmd := { s.w.cmd with queue := s.w.cmd.queue.erase c } } : World).judge c sense)))
  ∧ (∀ (s : State) (r st : Nat) (sense : Int) (src : CmdSrc) (rest : List Cmd), r < s.w.nRails → s.w.paired = false →
    s.w.sentArmed = false → s.w.pwr.sent = 0 → s.w.f F.LE_RSTATE_GATE r = 0 → s.w.f F.LC_STATE_STATE 0 ≠ 5 →
    s.w.cmd.queue = { src := src, op := .nop, rail := r, stamp := st, rails := [(r, st)] } :: rest →
    exec (.commandTurn r sense) s
      = .next (s.withW ((({ s.w with cmd := { s.w.cmd with queue := rest } } : World).sf F.LE_RLAST_LAST r st).complete
          { src := src, op := .nop, rail := r, stamp := st, rails := [(r, st)] } stOk 0 0))))

/-- The interrupt controller with its island on: an edge source's line sets PEND and is used up, a level source's PEND follows its line while it
is not in service (R347); the offer step answers by R349 and R350; a write of IC_CFG sets the source's fields, LVL = 0 clears PEND, and the source
is offered to no core whose terms changed (R347, R350); a semaphore read takes a free semaphore for its reader and answers 1 with the reader's
number, a held one is answered 0 with its holder and does not change, and a release frees it (R355). The energy ledger with its island on: its 1
µs tick is that of R257 to R265, in which each rail's total takes exactly what its engine has accumulated since the last tick (R257); a channel
without a new voltage for 1 ms shows EL_ERR.STALE (R258); a 10 µs step of the self budget that projects past the limit takes its next action, and
one well under it gives one back (R268). What it rests on that is the model's choice and no rule's word stands in log entries 33 and 39. Rows it
completes: icSemRead, icSemRelease, elStale, ledgerTick, selfBudgetStep, icSourcePend, icOffer, icCfgWrite. -/
def Obligations.InterruptsAndLedgerTakeEffect : Prop :=
  ((∀ (s : State) (src : Nat) (w : World), s.w.on 12 = true → icReal src = true → w = s.w.efSample src →
    (icLevel src = false → src ∈ w.irqEdge → exec (.icSourcePend src) s
      = .next (s.withW { w.sf F.IC_CFG_PEND src 1 with irqEdge := w.irqEdge.filter fun x => x != src }))
    ∧ (∀ c < 224, src = 0x100 + c → s.w.chAt none c = true → src ∉ s.w.efSeen → src ∈ w.irqEdge)
    ∧ (icLevel src = true → exec (.icSourcePend src) s
      = .next (s.withW (s.w.sf F.IC_CFG_PEND src (b2n (s.w.icLine src && !s.w.fb F.IC_CFG_INSVC src))))))
  ∧ (∀ (s : State), s.w.on 12 = true → exec .icOffer s = .next (s.withW s.w.icOffer))
  ∧ (∀ (s : State) (src v : Nat), s.w.on 12 = true → src < 512 → ∃ w : World, exec (.icCfgWrite src v) s = .next (s.withW w)
      ∧ w.f F.IC_CFG_LVL src = F.IC_CFG_LVL.cut 0 v ∧ w.f F.IC_CFG_TARGET src = F.IC_CFG_TARGET.cut 8 v ∧ w.f F.IC_CFG_PREF src = F.IC_CFG_PREF.cut 16 v
      ∧ (w.icLvl src = 0 → w.f F.IC_CFG_PEND src = 0)
      ∧ (s.w.icLvl src ≠ bitsOf v 0 4 → ∀ c < 8, (w.core c).offer ≠ some src))
  ∧ (∀ (s : State) (a : Agent) (j : Nat) (u : World), s.w.on 12 = true → j < 8 → u = s.w.touch 12 →
    (s.w.f F.IC_SEM_HOLDER j = 0xF → exec (.icSemRead a j) s
      = .next (s.withW ((u.sf F.IC_SEM_HOLDER j (holderOf a)).answered a R.IC_SEM j (1 + 16 * holderOf a))))
    ∧ (s.w.f F.IC_SEM_HOLDER j ≠ 0xF → exec (.icSemRead a j) s = .next (s.withW (u.answered a R.IC_SEM j (16 * s.w.f F.IC_SEM_HOLDER j))))
    ∧ (a = .host → s.w.on 1 = true → exec (.icSemRelease a j) s = .next (s.withW (u.sf F.IC_SEM_HOLDER j 0xF)))
    ∧ (a ≠ .host → exec (.icSemRelease a j) s = .next (s.withW (u.sf F.IC_SEM_HOLDER j 0xF)))))
  ∧ ((∀ (s : State) (self : List (Nat × Nat)) (icc : List (Nat × List Int)), s.w.on 19 = true → s.w.past .ledger 1000 = true →
    exec (.ledgerTick self icc) s = .next (s.withW ((s.w.ledgerTick self icc).start .ledger)))
  ∧ (∀ (w : World) (r : Nat), ((w.railEnergy r).ledger r).total = (w.ledger r).total + ((w.engine r).eacc - (w.ledger r).taken)
      ∧ ((w.railEnergy r).ledger r).used = (w.ledger r).used + ((w.engine r).eacc - (w.ledger r).taken)
      ∧ ((w.railEnergy r).ledger r).taken = (w.engine r).eacc
      ∧ Keeps [F.EL_RACC_LO_E_LO.id, F.EL_RACC_HI_E_HI.id, F.EL_RUSED_LO_U_LO.id, F.EL_RUSED_HI_U_HI.id] w (w.railEnergy r))
  ∧ (∀ (s : State) (k : Nat), s.w.f F.EL_INCFG_EN k ≠ 0 → s.w.past (.stale k) 1000000 = true → exec (.elStale k) s = .next (s.withW (s.w.orBit F.EL_ERR_STALE 0 k)))
  ∧ (∀ (s : State) (lim : Nat), s.w.on 19 = true → s.w.past .self 10000 = true → lim = s.w.pair F.EL_SLIM_LO_L_LO F.EL_SLIM_HI_L_HI 0 →
    (lim < s.w.selfProjection → s.w.f F.EL_SWIN_MODE 0 ≠ 0 → s.w.f F.EL_SSTAT_ACT 0 < 15 →
      ∃ v : World, v = (s.w.sf F.EL_SSTAT_ACT 0 (2 * s.w.f F.EL_SSTAT_ACT 0 + 1)).start .self ∧ exec .selfBudgetStep s = .next { s with mem := v.dropBanks s.mem, w := v })
    ∧ (10 * s.w.selfProjection < 9 * lim →
      ∃ v : World, v = (s.w.sf F.EL_SSTAT_ACT 0 (s.w.f F.EL_SSTAT_ACT 0 / 2)).start .self ∧ exec .selfBudgetStep s = .next { s with mem := v.dropBanks s.mem, w := v })))

/-- The power manager: Trim gates an island whose idle timer has expired, unless it has a handshake outstanding, and ungates it, Hold begins with
cores idle for PM_HOLD_IDLE and AUTOHOLD and ends by an enabled source, and PM_STATE shows the deepest state (R19, R269 to R271, R273); a Sentinel
entry waits for its conditions, its time-out stops the cores and raises SENTINEL_IND (R271); islands go down in the reverse start order (R272); a
wake from Sentinel notes its source and starts islands (R273); the board may take the supplies only in Sentinel (R276). What it rests on that is
the model's choice and no rule's word stands in log entry 41. Rows it completes: trimGate, trimUngate, holdEntry, holdExit, sentinelEntry,
sentinelEntryTimeout, wakeSource, offEntry, islandPowerDown. -/
def Obligations.PowerStatesTakeEffect : Prop :=
  (∀ (s : State) (n : Nat), n < 22 →
    (n ≠ 0 → s.w.on n = true → s.w.fb F.PM_CFG_TRIMEN 0 = true → s.w.trimIdle n ≠ 0 → s.w.pwr.sent = 0 → s.w.past (.trim n) (s.w.trimIdle n) = true →
      (s.w.islBusy n = false →
        exec (.trimGate n) s = .next (s.withW (World.showPm { s.w with pwr := { s.w.pwr with gated := s.w.pwr.gated ||| 2 ^ n } })))
      ∧ (s.w.islBusy n = true → exec (.trimGate n) s = .next (s.withW (s.w.start (.trim n)))))
    ∧ (s.w.pwr.sent ≠ 0 → exec (.trimGate n) s = .next s)
    ∧ (s.w.pwr.gated.testBit n = true →
      exec (.trimUngate n) s = .next (s.withW (World.showPm { s.w with pwr := { s.w.pwr with gated := s.w.pwr.gated - 2 ^ n } }))))
  ∧ (∀ (s : State) (t code ch : Nat) (w : World), w = s.w.upTo t →
    (w.f F.PM_CFG_AUTOHOLD 0 = 0 → exec (.holdEntry t) s = .next (s.withW w))
    ∧ (w.f F.PM_CFG_AUTOHOLD 0 = 1 → w.pwr.hold = 0 → w.pwr.sent = 0 → w.coresIdle = true → (∃ c < w.nCores, (w.core c).st = 2) →
      (∀ c < w.nCores, (w.core c).st = 2 → w.past (.idle c) (1000 * w.f F.PM_HOLD_IDLE_IDLE 0) = true) →
      ∃ v : World, exec (.holdEntry t) s = .next (s.withW v) ∧ v.pwr.hold ≠ 0 ∧ v.f F.PM_STATE_STATE 0 = 2
        ∧ Keeps [F.HI_STAT_L1.id, F.PM_STATE_STATE.id] w v)
    ∧ (w.pwr.hold = 0 → exec (.holdExit code ch t) s = .next (s.withW w))
    ∧ (w.pwr.hold ≠ 0 → code ≠ 0 → code ≠ 8 → w.wakeOk code ch = true → ∃ v : World, exec (.holdExit code ch t) s = .next (s.withW v)
      ∧ v.pwr.hold = 0 ∧ v.f F.PM_WAKE_LAST_CAUSE 0 = code % 2 ^ F.PM_WAKE_LAST_CAUSE.wd ∧ v.f F.HI_STAT_L1 0 = 0)
    ∧ (w.pwr.hold ≠ 0 → exec (.holdExit 0 ch t) s = .next (s.withW w.endHold))
    ∧ (w.wakeOk code ch = true → w.pwr.off = false → w.pwr.sent = 0 → exec (.wakeSource code ch t) s = .next (s.withW (w.holdExit code ch)))
    ∧ (w.wakeOk code ch = false → exec (.wakeSource code ch t) s = .next (s.withW w))
    ∧ (w.wakeOk code ch = true → w.pwr.off = false → w.pwr.sent = 3 → code ≠ 2 → code ≠ 8 → (code = 7 → w.pwr.blyWake = true) →
      exec (.wakeSource code ch t) s = .next (s.withW (w.sentWake code)))
    ∧ (s.w.on 19 = true → (w.pwr.sent ≠ 0 ∨ w.entries ≠ [] ∨ (w.sentArmed = false ∧ w.f F.PM_CFG_AUTOSENT 0 = 0)) →
      exec (.sentinelEntry t) s = .next (s.withW w))
    ∧ (s.w.on 19 = true → w.pwr.sent = 0 → w.entries = [] → (w.sentArmed = true ∨ w.f F.PM_CFG_AUTOSENT 0 ≠ 0 ∧ w.railsQuiet = true) → ∃ v : World,
      exec (.sentinelEntry t) s = .next (s.withW v) ∧ (v.pwr.sent = 1 ∨ v.pwr.sent = 2 ∧ v.pwr.ind = true) ∧ v.f F.PM_STATE_STATE 0 = 3)
    ∧ (w.pwr.sent = 1 → w.past .entry (1000 * w.f F.PM_ENTRYTO_TO 0) = true → ∃ v : World, exec (.sentinelEntryTimeout t) s = .next (s.withW v) ∧ v.pwr.sent = 2 ∧ v.pwr.ind = true
      ∧ v.pwr.ret = w.f F.PM_RETCFG_BANKS 0 ||| 0x801))
  ∧ (∀ (s : State) (n t : Nat) (w : World), w = s.w.upTo t →
    (w.pwr.sent ≠ 1 → w.pwr.sent ≠ 2 ∨ w.nextDown ≠ some n → exec (.islandPowerDown n t) s = .next (s.withW w))
    ∧ (∀ (m : Mem) (v : World), w.pwr.sent = 2 → w.nextDown = some n → (m, v) = w.powerDown s.mem n w.pwr.ret → v.nextDown.isSome = true →
      exec (.islandPowerDown n t) s = .next { s with mem := m, w := { v with pwr := { v.pwr with downs := true } } })
    ∧ (∀ (m : Mem) (v : World), w.pwr.sent = 2 → w.nextDown = some n → (m, v) = w.powerDown s.mem n w.pwr.ret → v.nextDown = none → v.pwr.wakeNext = none →
      exec (.islandPowerDown n t) s = .next { s with mem := m, w := { v with sentArmed := false, pwr := { v.pwr with downs := true, sent := 3 } } })
    ∧ (w.pwr.sent ≠ 3 → exec (.offEntry t) s = .next (s.withW w))
    ∧ (w.pwr.sent = 3 → w.pwr.ind = true → ∃ (m : Mem) (v : World), exec (.offEntry t) s = .next { s with mem := m, w := v }
      ∧ v.pwr.off = true ∧ v.pwr.ret = 0x801))

/-- A stop request is refused for ALW with PM_ERR.BADVAL and for a needed island with PM_ERR.DEPENDENT; a start request of an island that is off
schedules its start (R277); released pads are held no more, and with LX0960 nothing is held (R275); the Cairn writer takes a waiting record into
the slot after the last, its number and slot shown, and nothing while its memory is wiped (R486, R488); a firmware record of a core needs a TYPE
of 0x8000 or more and room in the buffer, and a host's is dropped with CRN_ERR.HOST (R490). What it rests on that is the model's choice and no
rule's word stands in log entry 45. Rows it completes: pmPadrelWrite, islreqStop, islreqStart, crnWctlGo, cairnRecordWrite. -/
def Obligations.IslandRequestsAndCairnTakeEffect : Prop :=
  (∀ (s : State) (n mask : Nat), s.w.on 19 = true →
    (s.w.absent 0 = false → exec (.islreqStop 0) s
      = .next (s.withW ((s.w.when (s.w.islNeeded 0) fun w => w.sf F.PM_ERR_DEPENDENT 0 1).sf F.PM_ERR_BADVAL 0 1)))
    ∧ ((n = 12 ∨ n = 13) → s.w.absent n = false → s.w.islNeeded n = false → (∃ c < s.w.nCores, s.w.coreIsl c = n ∧ (s.w.core c).st ≠ 0) →
      exec (.islreqStop n) s = .next (s.withW (s.w.sf F.PM_ERR_BADVAL 0 1)))
    ∧ (n ≠ 0 → n < 22 → n ≠ 12 → n ≠ 13 → s.w.absent n = false →
      (s.w.islNeeded n = true → exec (.islreqStop n) s = .next (s.withW (s.w.sf F.PM_ERR_DEPENDENT 0 1)))
      ∧ (∀ (m : Mem) (v : World), s.w.islNeeded n = false → s.w.on n = true → (m, v) = s.w.powerDown s.mem n 0 →
        exec (.islreqStop n) s = .next { s with mem := m, w := (v.when (n == 17) fun v => v.copyFields s.w hkpKept).showRings }))
    ∧ (n < 22 → s.w.on n = false → s.w.absent n = false → s.w.pwr.toStart.testBit n = false →
      exec (.islreqStart n) s = .next (s.withW { s.w with pwr := { s.w.pwr with toStart := s.w.pwr.toStart + 2 ^ n } }))
    ∧ (s.w.f F.PM_PADCFG_LX0960 0 ≠ 0 → exec (.pmPadrelWrite mask) s = .next s)
    ∧ (s.w.f F.PM_PADCFG_LX0960 0 = 0 → ∃ v : World, exec (.pmPadrelWrite mask) s = .next (s.withW v)
      ∧ (∀ n < 22, mask.testBit n = true → (v.f F.PM_PADHELD_HELD 0).testBit n = false)
      ∧ Keeps [F.PM_PADHELD_HELD.id, F.PW_RSTAT_RAILEN.id] s.w v))
  ∧ (∀ s : State, s.w.on 16 = true →
    (s.w.wiping.testBit 14 = true → exec .cairnRecordWrite s = .next s)
    ∧ (s.w.wiping.testBit 14 = false → s.w.crn.drops = 0 → s.w.crn.queue = [] → exec .cairnRecordWrite s = .next s)
    ∧ (∀ (r : CrnRec) (l : List CrnRec) (i : Nat), s.w.wiping.testBit 14 = false → s.w.crn.drops = 0 → s.w.crn.queue = r :: l →
      i = freeSlot s.mem ((s.w.f F.CRN_WRPTR_SLOT 0 + 1) % 8192) 8191 → ∃ (m : Mem) (v : World),
        exec .cairnRecordWrite s = .next { s with mem := m, w := v } ∧ v.crn.queue = l
        ∧ m = Mem.setBytes s.mem (slotByte i) (r.bytes (s.w.f F.CRN_RNUM_NEXT 0)
          (b2n (decide (0 < s.w.f F.CRN_PINLEFT_LEFT 0))) (s.w.f F.CRN_BOOTN_BOOTN 0))
        ∧ v.f F.CRN_RNUM_NEXT 0 = (s.w.f F.CRN_RNUM_NEXT 0 + 1) % 2 ^ F.CRN_RNUM_NEXT.wd ∧ v.f F.CRN_WRPTR_SLOT 0 = i % 2 ^ F.CRN_WRPTR_SLOT.wd
        ∧ Keeps [F.CRN_RNUM_NEXT.id, F.CRN_WRPTR_SLOT.id, F.CRN_PINLEFT_LEFT.id] s.w v)
    ∧ (∀ typ, exec (.crnWctlGo .host typ) s = .next (s.withW (s.w.sf F.CRN_ERR_HOST 0 1)))
    ∧ (∀ typ c, typ < 65536 → ∃ w : World, w = s.w.sf F.CRN_WCTL_TYPE 0 typ
      ∧ (typ < 0x8000 → exec (.crnWctlGo (.core c) typ) s = .next (s.withW (w.sf F.CRN_ERR_BADTYPE 0 1)))
      ∧ (0x8000 ≤ typ → 16 ≤ s.w.crn.queue.length → exec (.crnWctlGo (.core c) typ) s = .next (s.withW (w.sf F.CRN_ERR_FULL 0 1)))
      ∧ (0x8000 ≤ typ → s.w.crn.queue.length < 16 → exec (.crnWctlGo (.core c) typ) s
        = .next (s.withW (w.cairn typ ((List.range 56).flatMap fun i => leBytes 4 (w.f F.CRN_WBUF_DATA i)))))))

/-- A COLD reset leaves every register of a resettable class at its reset value, but the causes and what straps and OTP set, keeps OTP and wipes
the volatile memories (R9, R282, R285); a CORE reset returns the core to its reset state and wipes its TCM (R331, R285); an ISLAND reset of a
needed island is refused by request (R16); a WARM reset begins once, and a synchronised ACTIVE part hands over first (R283, R376); an epoch
boundary sends the heartbeat (R369). What it rests on that is the model's choice and no rule's word stands in log entries 6 and 44. Rows it
completes: epochBoundary, lsMiscompare, coldReset, warmReset, warmResetIslands, islandReset, coreReset. -/
def Obligations.ResetsTakeEffect : Prop :=
  (∀ (s : State) (pin : Bool), ∃ (m : Mem) (v : World), exec (.coldReset pin) s = .next { s with mem := m, w := v }
    ∧ (∀ (g : Reg) (B : Fld) (i : Nat), keyField (B.key i) = some (g, B) → B.id < 4096 → B.cls ≠ .never →
      B.id ∉ [F.GL_RSTCAUSE_POR.id, F.GL_RSTCAUSE_PIN.id, F.GL_RSTCAUSE_PLOSS.id, F.GL_RSTCAUSE_OFFEXIT.id, F.GL_RSTCAUSE_FW.id,
        F.GL_RSTCAUSE_HOST.id, F.GL_RSTCAUSE_DBG.id, F.GL_RSTCAUSE_LC.id, F.BL_CFG_EN.id, F.SI_PMCFG_ADDR.id, F.SI_ROPECFG_ROOT.id,
        F.PM_PADCFG_LX0960.id, F.HI_LINKCAP_MAXSPEED.id, F.HI_LINKCAP_MAXWIDTH.id] → v.f B i = B.reset i)
    ∧ v.f F.GL_RSTCAUSE_PIN 0 = b2n pin ∧ v.f F.GL_RSTCAUSE_POR 0 = b2n (!pin) ∧ v.otp = s.w.otp
    ∧ (∀ a, a < 0x200000 ∨ 0x600000 ≤ a ∧ a < 0x4000000 ∨ 0x5800000 ≤ a → Mem.get m a = Mem.get s.mem a)
    ∧ (∀ a, 0x4000000 ≤ a → a < 0x5800000 → Mem.get m a = 0))
  ∧ (∀ (s : State) (c : Nat), c < s.w.nCores → s.w.on (s.w.coreIsl c) = true → ∃ (m : Mem) (v : World),
    exec (.coreReset c) s = .next { s with mem := m, w := v } ∧ v.core c = {}
    ∧ (∀ a, (∃ k ∈ s.w.physCores c, 2 * (wipeRange k).1 ≤ a ∧ a < 2 * (wipeRange k).2) → Mem.get m a = unlisted a)
    ∧ (∀ a, (∀ k ∈ s.w.physCores c, ¬ (2 * (wipeRange k).1 ≤ a ∧ a < 2 * (wipeRange k).2)) → Mem.get m a = Mem.get s.mem a))
  ∧ (∀ (s : State) (n : Nat), n ≠ 0 → s.w.absent n = false → s.w.on n = true →
    (s.w.islNeeded n = true → exec (.islandReset n true) s = .next (s.withW (s.w.sf F.PM_ERR_DEPENDENT 0 1)))
    ∧ (∀ req, (req = false ∨ s.w.islNeeded n = false) → ∀ (m : Mem) (v : World), (m, v) = s.w.loseIsland s.mem n →
      exec (.islandReset n req) s
        = .next { s with mem := m, w := ((v.strapRegs n).startWipe (wipesOf n)).showRings }))
  ∧ (∀ (s : State) (cause t : Nat) (w : World), w = s.w.upTo t → 4 ≤ cause → cause < 8 →
    (w.pwr.warm ≠ none → exec (.warmReset cause t) s = .next (s.withW w))
    ∧ (w.pwr.warm = none → ¬ (w.role = roActive ∧ w.f F.BL_STAT_PARTNER 0 = 1 ∧ w.bly.pSync = true) →
      exec (.warmReset cause t) s = .next (s.withW (w.warmBegin cause)))
    ∧ (w.pwr.warm = none → w.role = roActive → w.f F.BL_STAT_PARTNER 0 = 1 → w.bly.pSync = true → ∃ v : World,
      exec (.warmReset cause t) s = .next (s.withW v) ∧ v.bly.warmAfter = some cause ∧ v.bly.handReq = true ∧ v.regs = w.regs))
  ∧ (∀ (s : State) (straps t : Nat) (w : World), w = s.w.upTo t →
    (w.pwr.warm = none → exec (.warmResetIslands straps t) s = .next (s.withW w))
    ∧ (∀ cause : Nat, w.pwr.warm = some cause → w.clk.tk < w.pwr.warmAt + 12800000 → (∃ r < w.nRails, w.railEn r = true) →
      exec (.warmResetIslands straps t) s = .next (s.withW w))
    ∧ (∀ (cause : Nat) (m : Mem) (v : World), w.pwr.warm = some cause → w.pwr.warmAt + 12800000 ≤ w.clk.tk →
      (m, v) = w.warmIslands s.mem cause (straps % 4) → exec (.warmResetIslands straps t) s = .next { s with mem := m, w := v }))
  ∧ (∀ (s : State) (t : Nat) (w : World), w = s.w.upTo t → s.w.on 3 = true → s.w.pins.blpair = true → s.w.f F.BL_CFG_EN 0 = 1 →
    exec (.epochBoundary t) s = .next (s.withW w.epoch)
    ∧ (w.role ≠ roActive → w.beats = true → w.epoch = w.sendHeartbeat) ∧ (w.role ≠ roActive → w.beats = false → w.epoch = w))
  ∧ (∀ (s : State) (j cause pc addr : Nat) (m : Mem) (v : World), s.w.split = false → j < 4 → s.w.on (s.w.coreIsl j) = true →
    (s.w.core j).st ≠ 0 → 1 ≤ cause → cause ≤ 6 → (m, v) = s.w.miscompare s.mem j cause pc addr →
    exec (.lsMiscompare j cause pc addr) s = .next { s with mem := m, w := v })

/-- Start-up: good supplies sample the straps and lead to the crystal step, or out of Off to the wake (R280, R293, R276); a good crystal starts
the islands with GL_BOOTSTAT.STAGE = 1, and a bad one only shows XTALFAIL (R280); an island whose turn it is starts, on and no longer waiting
(R281); a core in CORE reset starts at its entry address, C0 halting under HALT (R294, R297); a wipe's end clears its bit (R285); a Base Camp
entry whose rail is ready starts it, or only opens its gate when the rail is latched (R289, R188); a power loss is ignored in Sentinel and
otherwise takes the supplies (R284). What it rests on that is the model's choice and no rule's word stands in log entries 9 and 42. Rows it
completes: suppliesGood, xtalGood, xtalFail, islandStart, wipeDone, basecampStart, coreStart, powerLoss. -/
def Obligations.StartUpTakesEffect : Prop :=
  (∀ (s : State) (straps t : Nat) (pair sel ok : Bool) (w : World), w = s.w.upTo t →
    (w.pwr.phase ≠ 0 → w.pwr.off = false → exec (.suppliesGood straps pair sel ok t) s = .next (s.withW w))
    ∧ (w.pwr.phase = 0 → w.pwr.off = false → w.pwr.loss = false → ∃ v : World,
      exec (.suppliesGood straps pair sel ok t) s = .next (s.withW v) ∧ v.pwr.phase = 1 ∧ v.pwr.straps = straps % 4
      ∧ v.pins.blpair = pair ∧ v.pins.blsel = sel)
    ∧ (w.pwr.off = true → ∃ v : World, exec (.suppliesGood straps pair sel ok t) s = .next (s.withW v) ∧ v.pwr.off = false
      ∧ v.pwr.sent = 4 ∧ v.pwr.phase = 2)
    ∧ (w.pwr.phase = 1 → exec (.xtalGood t) s
      = .next (s.withW (World.sf { w with pwr := { w.pwr with phase := 2 } } F.GL_BOOTSTAT_STAGE 0 1).startAll))
    ∧ (w.pwr.phase = 1 → w.past .xtal 2000000 = true → exec (.xtalFail t) s = .next (s.withW (w.sf F.GL_BOOTSTAT_XTALFAIL 0 1)))
    ∧ (w.pwr.phase = 1 → w.past .xtal 2000000 = false → exec (.xtalFail t) s = .next (s.withW w))
    ∧ (w.pwr.phase ≠ 1 → exec (.xtalGood t) s = .next (s.withW w) ∧ exec (.xtalFail t) s = .next (s.withW w)))
  ∧ (∀ (s : State) (n lost t : Nat) (w : World), w = s.w.upTo t →
    (w.mayStart n = false → exec (.islandStart n lost t) s = .next (s.withW w))
    ∧ (∀ (m : Mem) (v : World), w.mayStart n = true → (m, v) = w.islandStart s.mem n lost →
      exec (.islandStart n lost t) s = .next { s with mem := m, w := v })
    ∧ (w.pwr.ind = true → exec (.powerLoss true t) s = .next (s.withW w) ∧ exec (.powerLoss false t) s = .next (s.withW w))
    ∧ (∀ held, w.pwr.ind = false → w.pwr.phase = 2 → ∃ (m : Mem) (v : World), exec (.powerLoss held t) s = .next { s with mem := m, w := v }
      ∧ v.pwr.loss = true ∧ v.pwr.phase = 0))
  ∧ (∀ (s : State) (c k : Nat), c < s.w.nCores → s.w.on (s.w.coreIsl c) = true →
    ((s.w.core c).st ≠ 0 ∨ s.w.tcmReady c = false ∨ s.w.coresFree = false → exec (.coreStart c) s = .next s)
    ∧ ((s.w.core c).st = 0 → s.w.tcmReady c = true → s.w.coresFree = true → s.w.recovery = false →
      (s.w.split = true ∨ s.w.fb F.LS_STAT_HELD c = false) → ∃ v : World, exec (.coreStart c) s = .next (s.withW v)
      ∧ (v.core c).pc = s.w.f F.CX_ENTRY_ADDR (s.w.phys c) / 2 * 2 ∧ v.regs = s.w.regs
      ∧ (v.core c).st = (if c = 0 ∧ s.w.f F.GL_BOOTOPT_HALT 0 ≠ 0 then 3 else 1))
    ∧ (∃ v : World, exec (.wipeDone k) s = .next (s.withW v) ∧ v.wiping.testBit k = false
      ∧ Keeps [F.GL_WIPESTAT_WIPING.id] s.w v))
  ∧ (∀ (s : State) (e t : Nat) (sense : Int) (w : World), w = s.w.upTo t →
    (w.bcOn = false → exec (.basecampStart e sense t) s = .next (s.withW w))
    ∧ (w.bcOn = true → (w.bcTaken 8).contains e = true → w.fb F.LE_RSTATE_GATE (w.bcRail e) = true →
      (w.f F.GL_BCSTAT_STARTED 0).testBit e = false → w.on (snIsl (w.bcRail e)) = true → w.on (leIsl (w.bcRail e)) = true →
      w.on (pwIslR (w.bcRail e)) = true → w.padsOwned = true → w.afterT1 (48000 + 10000 * bitsOf (w.bcEntry e 0) 6 6) = true →
      (w.rstate (w.bcRail e) ≠ rsOff → exec (.basecampStart e sense t) s = .next (s.withW (w.sf F.LE_RSTATE_GATE (w.bcRail e) 0)))
      ∧ (w.rstate (w.bcRail e) = rsOff → ∃ v : World, exec (.basecampStart e sense t) s = .next (s.withW v)
        ∧ v.f F.LE_RSTATE_GATE (w.bcRail e) = 0 ∧ (v.f F.GL_BCSTAT_STARTED 0).testBit e = decide (e < F.GL_BCSTAT_STARTED.wd))))

/-- With the security island on: an unlock without a fresh nonce fails and changes nothing else, one that an owner key signs acts and uses the
nonce up (R480 to R482); a key is programmed into an empty owner slot while PROVISIONED or RETURNED, and a request for another slot fails with
SEC_ERR.KEY (R468, R481); a slot that is not filled is not revoked (R468); the owner lock sets (R480); the minimum version only rises (R469); a
board OTP word is written once, while PROVISIONED (R483); an unlisted life-cycle request sets LC_ERR.BADVAL, and the pending wipe erases the
settings areas, or both banks when RETIRED (R298, R300). What it rests on that is the model's choice and no rule's word stands in log entries 7,
65 and 67. Rows it completes: lcReq, lcWipe, dbgunlock, ownunlock, keyprog, revoke, ownerLockSet, svncommit, otpWrite. -/
def Obligations.SecurityCommandsTakeEffect : Prop :=
  (∀ (s : State), s.w.on 20 = true →
    (s.w.sec.fresh = false → s.w.f F.LC_STATE_STATE 0 = 3 → ∃ v : World, exec .dbgunlock s = .next (s.withW v)
      ∧ v.f F.SEC_AUTHCTL_RESULT 0 = 3 ∧ v.f F.SEC_ERR_NONCE 0 = 1 ∧ v.f F.SEC_DBG_UNLOCKED 0 = s.w.f F.SEC_DBG_UNLOCKED 0)
    ∧ (∀ w : World, w = s.w.sf F.SEC_AUTHCTL_OP 0 2 → s.w.sec.fresh = true → s.w.f F.LC_STATE_STATE 0 = 3 →
      w.inClass .owner (w.f F.SEC_AUTHCTL_KEYSLOT 0) = true → w.signed = true → ∃ v : World, exec .dbgunlock s = .next (s.withW v)
        ∧ v.f F.SEC_AUTHCTL_RESULT 0 = 1 ∧ v.f F.SEC_DBG_UNLOCKED 0 = 1 ∧ v.sec.fresh = false)
    ∧ (s.w.sec.fresh = false → ∃ v : World, exec .ownunlock s = .next (s.withW v)
      ∧ v.f F.SEC_AUTHCTL_RESULT 0 = 3 ∧ v.f F.SEC_OWNLOCK_LOCKED 0 = s.w.f F.SEC_OWNLOCK_LOCKED 0)
    ∧ (∀ w : World, w = s.w.sf F.SEC_AUTHCTL_OP 0 3 → s.w.sec.fresh = true →
      w.inClass .owner (w.f F.SEC_AUTHCTL_KEYSLOT 0) = true → w.signed = true → ∃ v : World, exec .ownunlock s = .next (s.withW v)
        ∧ v.f F.SEC_AUTHCTL_RESULT 0 = 1 ∧ v.f F.SEC_OWNLOCK_LOCKED 0 = 0 ∧ v.sec.fresh = false)
    ∧ (∀ k, k = s.w.f F.SEC_AUTHCTL_ARG 0 →
      (4 ≤ k → k < 8 → s.w.f F.LC_STATE_STATE 0 = 2 ∨ s.w.f F.LC_STATE_STATE 0 = 4 → (s.w.f F.SEC_KEYSTAT_FILLED 0).testBit k = false →
        ∃ v : World, exec .keyprog s = .next (s.withW v) ∧ mget [] v.sec.keys k = s.w.authBytes 12
          ∧ (v.f F.SEC_KEYSTAT_FILLED 0).testBit k = true ∧ v.f F.SEC_AUTHCTL_RESULT 0 = 1)
      ∧ (k < 4 ∨ (s.w.f F.SEC_KEYSTAT_FILLED 0).testBit k = true → ∃ v : World, exec .keyprog s = .next (s.withW v)
        ∧ v.sec.keys = s.w.sec.keys ∧ v.f F.SEC_ERR_KEY 0 = 1)
      ∧ ((s.w.f F.SEC_KEYSTAT_FILLED 0).testBit k = false → ∃ v : World, exec .revoke s = .next (s.withW v)
        ∧ v.f F.SEC_KEYSTAT_REVOKED 0 = s.w.f F.SEC_KEYSTAT_REVOKED 0 ∧ v.f F.SEC_ERR_KEY 0 = 1))
    ∧ exec .ownerLockSet s = .next (s.withW (s.w.sf F.SEC_OWNLOCK_LOCKED 0 1))
    ∧ (∀ v, v = hdr s.mem (s.w.f F.FW_STAT_ACTIVE 0) 12 4 →
      (v ≤ s.w.f F.SEC_SVNMIN_SVN 0 → exec .svncommit s = .next s)
      ∧ (s.w.f F.GL_BOOTSTAT_STAGE 0 = 3 → s.w.f F.SEC_SVNMIN_SVN 0 < v → s.w.sec.svnUps < 64 → ∃ w : World,
        exec .svncommit s = .next (s.withW w) ∧ w.f F.SEC_SVNMIN_SVN 0 = v % 2 ^ F.SEC_SVNMIN_SVN.wd ∧ Keeps [F.SEC_SVNMIN_SVN.id] s.w w)
      ∧ (s.w.f F.GL_BOOTSTAT_STAGE 0 = 3 → s.w.f F.SEC_SVNMIN_SVN 0 < v → 64 ≤ s.w.sec.svnUps →
        exec .svncommit s = .next (s.withW (s.w.sf F.SEC_ERR_SVN 0 1))))
    ∧ (∀ k, k = s.w.f F.SEC_OTPCTL_WORD 0 →
      (s.w.f F.LC_STATE_STATE 0 ≠ 2 ∨ 78 < k ∨ k ∈ s.w.otpWr → exec .otpWrite s = .next (s.withW (s.w.sf F.SEC_ERR_OTPW 0 1)))
      ∧ (s.w.f F.LC_STATE_STATE 0 = 2 → k ≤ 78 → k ∉ s.w.otpWr → exec .otpWrite s
        = .next (s.withW { s.w with otp := mset 0 s.w.otp k (s.w.f F.SEC_OTPDATA_DATA 0), otpWr := s.w.otpWr ++ [k] }))))
  ∧ (∀ (s : State) (target t : Nat) (w : World), w = s.w.upTo t →
    (s.w.on 20 = true → w.f F.LC_STAT_BUSY 0 = 0 → w.pwr.warm = none → lcClass w.lcState (target % 8) = none →
      exec (.lcReq target t) s = .next (s.withW (w.sf F.LC_ERR_BADVAL 0 1)))
    ∧ (s.w.on 20 = true → w.f F.LC_STAT_BUSY 0 = 0 → w.pwr.warm = none →
      exec (.lcReq target t) s = .next (s.withW (w.lcReq (target % 8))))
    ∧ (w.f F.LC_STATE_WIPEPEND 0 = 1 → s.w.on 14 = true → w.f F.GL_BOOTSTAT_STAGE 0 = 5 → ∃ (m : Mem) (v : World),
      exec (.lcWipe t) s = .next { s with mem := m, w := v } ∧ v.f F.LC_STATE_WIPEPEND 0 = 0
      ∧ (w.f F.LC_STATE_STATE 0 ≠ 5 → ∀ a, 2 * 0x011E0000 ≤ a ∧ a < 2 * 0x01200000 ∨ 2 * 0x013E0000 ≤ a ∧ a < 2 * 0x01400000 →
        Mem.get m a = 0)
      ∧ (w.f F.LC_STATE_STATE 0 = 5 → ∀ a, 0x02000000 ≤ a → a < 0x02800000 → Mem.get m a = 0xFF)
      ∧ (w.f F.LC_STATE_STATE 0 ≠ 5 → ∀ a, ¬ (2 * 0x011E0000 ≤ a ∧ a < 2 * 0x01200000) → ¬ (2 * 0x013E0000 ≤ a ∧ a < 2 * 0x01400000) →
        Mem.get m a = Mem.get s.mem a)))

/-- The boot check starts C0 from the selected bank when it passes every check, from the other one after it fails, and stops at STAGE 4 when both
fail (R294, R467); a sector of a staging is erased and programmed with what the host gave, nothing outside it changing, and a failed read ends the
staging with its XSTAT (R470); a staging that has no byte left completes OK (R470); the program port refuses an address outside the settings area
with ERR, and erases or programs its sector when it is done (R478); a Completion Timeout is an answer with an error (R238, R411). What it rests on
that is the model's choice and no rule's word stands in log entries 64, 65 and 68. Rows it completes: bootCheck, stageSectorErase, stagingDone,
erase, prog, programPortDone, completionTimeout. -/
def Obligations.FlashAndBootTakeEffect : Prop :=
  (∀ (s : State) (ecc t : Nat) (w : World), w = s.w.upTo t → w.f F.GL_BOOTSTAT_STAGE 0 = 2 → s.w.on 12 = true → s.w.on 14 = true →
    s.w.on 20 = true → w.tcmReady 0 = true → w.coresFree = true → (w.core 0).st = 0 → w.f F.LC_STATE_WIPEPEND 0 = 0 →
    ∀ b, b = w.f F.FW_STAT_BOOTSEL 0 →
      (w.bankCheck s.mem b (ecc.testBit b) = 1 →
        exec (.bootCheck ecc t) s = .next (s.withW ((w.checkBank s.mem b ecc).1.bootFrom s.mem b false)))
      ∧ (∀ x : World, x = (w.checkBank s.mem b ecc).1 → w.bankCheck s.mem b (ecc.testBit b) ≠ 1 →
        (x.bankCheck s.mem (1 - b) (ecc.testBit (1 - b)) = 1 →
          exec (.bootCheck ecc t) s = .next (s.withW (((x.checkBank s.mem (1 - b) ecc).1.imageBad b).bootFrom s.mem (1 - b) true)))
        ∧ (x.bankCheck s.mem (1 - b) (ecc.testBit (1 - b)) ≠ 1 → exec (.bootCheck ecc t) s
          = .next (s.withW ((((x.checkBank s.mem (1 - b) ecc).1.imageBad b).sf F.GL_BOOTSTAT_STAGE 0 4).bootRec 0)))))
  ∧ (∀ (s : State) (j : FwJob) (l : List FwJob) (c : Cmd) (u : World), s.w.on 14 = true → s.w.fwq = j :: l → j.cmd = some c →
    j.sectorLen ≠ 0 → s.w.updateRefused = none → s.w.linkReady = true → s.w.headReady = false → s.w.pcie.np ≠ some 0 →
    u = World.emit { s.w with pcie := { s.w.pcie with np := s.w.pcie.np.map (· - 1) } } (.hostRead (j.addr + (j.pos - j.off)) j.sectorLen) →
    (∀ bs : List (List Nat), ∃ (m : Mem) (v : World), exec (.stageSectorErase (.data bs)) s = .next { s with mem := m, w := v }
      ∧ m = programSector s.mem j ((List.range j.sectorLen).map fun i => bs.flatten.getD i 0 % 256)
      ∧ v.fwq = { j with pos := j.pos + j.sectorLen } :: l ∧ v.regs = s.w.regs
      ∧ (∀ a, (a < bankByte j.bank + j.pos / 4096 * 4096 ∨ bankByte j.bank + j.pos / 4096 * 4096 + 4096 ≤ a) → Mem.get m a = Mem.get s.mem a))
    ∧ (∀ e, exec (.stageSectorErase (.error e)) s = .next { s with mem := programSector s.mem j [], w := u.failJob j stXfer e })
    ∧ exec (.completionTimeout 2 0) s
      = .next { s with mem := programSector s.mem j [], w := u.failJob j stXfer 1 })
  ∧ (∀ (s : State) (j : FwJob) (l : List FwJob) (c : Cmd), s.w.on 14 = true → s.w.fwq = j :: l → j.cmd = some c → j.sectorLen = 0 →
    exec .stagingDone s = .next (s.withW ((s.w.dropJob.complete c stOk 0 0).stagedWaits)))
  ∧ (∀ (s : State) (a : Nat), s.w.on 14 = true → a = s.w.f F.FW_PADDR_ADDR 0 →
    (s.w.fwp = none → inSettings a = false → exec .erase s = .next (s.withW (s.w.sf F.FW_PCTL_ERR 0 1))
      ∧ exec .prog s = .next (s.withW (s.w.sf F.FW_PCTL_ERR 0 1)))
    ∧ (s.w.fwp = none → inSettings a = true →
      exec .erase s = .next (s.withW (World.sf { s.w with fwp := some (a, none) } F.FW_PCTL_BUSY 0 1)))
    ∧ (s.w.fwp = none → inSettings a = true → a % 32 = 0 → ∃ d, exec .prog s = .next (s.withW (World.sf { s.w with fwp := some (a, some d) } F.FW_PCTL_BUSY 0 1))
      ∧ d = (List.range 16).flatMap fun i => [s.w.f F.FW_PDATA_DATA i % 65536, s.w.f F.FW_PDATA_DATA i / 65536])
    ∧ (∀ b, s.w.fwp = some (b, none) → exec .programPortDone s = .next { s with
        mem := Mem.erase s.mem (2 * s.w.flashAddr (b / 2048 * 2048)) (2 * s.w.flashAddr (b / 2048 * 2048) + 4096),
        w := World.sf { s.w with fwp := none } F.FW_PCTL_BUSY 0 0 })
    ∧ (∀ b d, s.w.fwp = some (b, some d) → exec .programPortDone s
      = .next { s with mem := s.w.memWrites s.mem b d, w := World.sf { s.w with fwp := none } F.FW_PCTL_BUSY 0 0 }))

/-- Images on a trained rope ring: a transfer starts with OPEN and FW_RSEND.BUSY, and one under way is not started again (R475); the ACK of CLOSE
ends it DONE, a NAK that is no CRC or order fault ends it REFUSED, a frame without an ACK for 100 µs is resent, and a fourth resend that fails ends it TIMEOUT (R476); a receiver that is not
enabled refuses OPEN, a frame with a bad CRC is refused and shown, data in order is taken and acknowledged, data out of order is refused, and
CLOSE before the last byte is refused (R475, R477). What it rests on that is the model's choice and no rule's word stands in log entry 63. Rows it
completes: fwRsendStart, imageOpen, imageData, imageClose, ropeAck, ropeNak, imageResendTimeout. -/
def Obligations.RopeImagesTakeEffect : Prop :=
  (∀ s : State, s.w.on 14 = true → s.w.on 18 = true →
    (s.w.f F.FW_RSEND_BUSY 0 ≠ 0 → exec .fwRsendStart s = .next s)
    ∧ (s.w.f F.FW_RSEND_BUSY 0 = 0 → ∃ v : World, exec .fwRsendStart s = .next (s.withW v) ∧ v.f F.FW_RSEND_BUSY 0 = 1 ∧ v.f F.FW_RSEND_RESULT 0 = 0
      ∧ v.side.tx = some { xid := s.w.side.xid, dst := s.w.f F.FW_RSEND_DST 0, bank := s.w.f F.FW_RSEND_BANK 0, len := s.w.f F.FW_RSLEN_LENGTH 0, at_ := s.w.clk.tk }))
  ∧ (∀ (s : State) (x : RopeTx) (arg t : Nat), s.w.ropeOn = true → s.w.on 14 = true → s.w.side.tx = some x →
    (x.stage = 2 → exec (.ropeAck 3 x.xid arg) s = .next (s.withW (s.w.endTx 1)))
    ∧ (∀ sub cause, cause ≠ 0x11 → cause ≠ 0x12 → exec (.ropeNak sub x.xid arg cause) s = .next (s.withW (s.w.endTx 3)))
    ∧ (∀ sub xid cause, xid ≠ x.xid → exec (.ropeNak sub xid arg cause) s = .next s ∧ exec (.ropeAck sub xid arg) s = .next s)
    ∧ (∀ w : World, w = s.w.upTo t → x.stage = 0 → x.at_ + 12800000 ≤ w.clk.tk → 4 ≤ x.tries → exec (.imageResendTimeout 1 arg t) s = .next (s.withW (w.endTx 2)))
    ∧ (∀ w : World, w = s.w.upTo t → x.stage = 0 → x.at_ + 12800000 ≤ w.clk.tk → x.tries < 4 → ∃ v : World, exec (.imageResendTimeout 1 arg t) s = .next (s.withW v)
      ∧ v.side.tx = some { x with tries := x.tries + 1, at_ := w.clk.tk } ∧ v.regs = w.regs)
    ∧ (∀ w : World, w = s.w.upTo t → w.clk.tk < x.at_ + 12800000 → exec (.imageResendTimeout 1 arg t) s = .next (s.withW w)))
  ∧ (∀ w res, (World.endTx w res).f F.FW_RSEND_BUSY 0 = 0 ∧ (World.endTx w res).f F.FW_RSEND_RESULT 0 = res % 2 ^ F.FW_RSEND_RESULT.wd
    ∧ (World.endTx w res).side.tx = none)
  ∧ (∀ (s : State) (src xid len off : Nat) (data : List Nat), s.w.ropeOn = true → s.w.on 14 = true →
    (exec (.imageOpen src xid len false) s = .next (s.withW (s.w.badFrame src 1 xid len)))
    ∧ (exec (.imageData src xid off data false) s = .next (s.withW (s.w.badFrame src 2 xid off)))
    ∧ (exec (.imageClose src xid false) s = .next (s.withW (s.w.badFrame src 3 xid 0)))
    ∧ (s.w.side.rx = none → s.w.f F.FW_RXCFG_EN 0 = 0 → exec (.imageOpen src xid len true) s = .next (s.withW (s.w.nak src 1 xid len 0x10)))
    ∧ (s.w.side.rx = none → s.w.f F.FW_RXCFG_EN 0 ≠ 0 → s.w.fwq = [] → 1 ≤ len → len ≤ 4194304 → s.w.updateRefused = none →
      exec (.imageOpen src xid len true) s = .next (s.withW (s.w.openRx src xid len)))
    ∧ (∀ x : RopeRx, s.w.side.rx = some x → x.xid = xid → x.src = src → x.cause = none →
      (off = x.next → off + data.length ≤ x.len → ∃ v : World, exec (.imageData src xid off data true) s = .next (s.withW v)
        ∧ v.side.rx = some { x with buf := x.buf ++ data.map (· % 256), next := x.next + data.length } ∧ v.regs = s.w.regs)
      ∧ (x.next < off → exec (.imageData src xid off data true) s = .next (s.withW (s.w.nak src 2 xid off 0x12)))
      ∧ (x.next ≠ x.len → exec (.imageClose src xid true) s = .next (s.withW (s.w.nak src 3 xid 0 0x12)))
      ∧ (x.next = x.len → (∀ j ∈ s.w.fwq, j.cmd ≠ none) → exec (.imageClose src xid true) s = .next (s.withW (s.w.ackClose x)))))

/-- What the arithmetic of a core does once it is issued (R304, R309): the destination takes the result, nothing else of the core but its
retirement changes, and nothing outside it. FN[6] selects a pair, FN[5] signed saturation. What it rests on that is the model's choice and no
rule's word stands in log entry 73. Rows it completes: coreNop, coreAdd, coreSub, coreAddi, coreAnd, coreOr, coreXor, coreAndi, coreOri, coreXori,
coreShf, coreMovi, coreMinmax, coreAdda, coreAddaw, coreMovaw, coreLdaL. -/
def Obligations.CoreArithmeticWritesItsDestination : Prop :=
  ∀ (s : State) (c : Nat) (i : BitVec 32) (p : Bool) (d a b : Nat), s.w.issues c i.toNat false → 
    p = insPair i.toNat → d = insD i.toNat → a = insA i.toNat → b = insB i.toNat → 
    (insOp i.toNat = 0x01 → exec (.coreNop c i) s = .next (s.ran c 2 fun k => k))
    ∧ ((p = true → d % 2 = 0 ∧ a % 2 = 0 ∧ b % 2 = 0) →
      (insOp i.toNat = 0x02 → exec (.coreAdd c i) s = .next (s.ran c 2 fun k =>
        if i.toNat.testBit 5 then k.put p d (unI (opWidth p) (satS (opWidth p) (sx (opWidth p) (k.get p a) + sx (opWidth p) (k.get p b))))
        else k.put p d ((k.get p a + k.get p b) % 2 ^ opWidth p)))
      ∧ (insOp i.toNat = 0x03 → exec (.coreSub c i) s = .next (s.ran c 2 fun k =>
        if i.toNat.testBit 5 then k.put p d (unI (opWidth p) (satS (opWidth p) (sx (opWidth p) (k.get p a) - sx (opWidth p) (k.get p b))))
        else k.put p d ((k.get p a + 2 ^ opWidth p - k.get p b % 2 ^ opWidth p) % 2 ^ opWidth p)))
      ∧ (insOp i.toNat = 0x05 → exec (.coreAnd c i) s = .next (s.ran c 2 fun k => k.put p d (k.get p a &&& k.get p b)))
      ∧ (insOp i.toNat = 0x06 → exec (.coreOr c i) s = .next (s.ran c 2 fun k => k.put p d (k.get p a ||| k.get p b)))
      ∧ (insOp i.toNat = 0x07 → exec (.coreXor c i) s = .next (s.ran c 2 fun k => k.put p d (k.get p a ^^^ k.get p b)))
      ∧ (insOp i.toNat = 0x0D → exec (.coreMinmax c i) s = .next (s.ran c 2 fun k =>
          k.put p d (minMax (bitsOf i.toNat 0 2) (opWidth p) (k.get p a) (k.get p b)))))
    ∧ ((p = true → d % 2 = 0 ∧ a % 2 = 0 ∧ (i.toNat.testBit 7 = false → b % 2 = 0)) → 
      insOp i.toNat = 0x0B → exec (.coreShf c i) s = .next (s.ran c 2 fun k =>
          k.put p d (shift (bitsOf i.toNat 8 2) (opWidth p) (k.get p a) (if i.toNat.testBit 7 then bitsOf i.toNat 0 5 else k.w b % 32))))
    ∧ (insOp i.toNat = 0x04 → exec (.coreAddi c i) s = .next (s.ran c 2 fun k => k.setW d (unI 16 (k.w a + sx 14 (bitsOf i.toNat 0 14)))))
    ∧ (insOp i.toNat = 0x08 → exec (.coreAndi c i) s = .next (s.ran c 2 fun k => k.setW d (k.w a &&& bitsOf i.toNat 0 14)))
    ∧ (insOp i.toNat = 0x09 → exec (.coreOri c i) s = .next (s.ran c 2 fun k => k.setW d (k.w a ||| bitsOf i.toNat 0 14)))
    ∧ (insOp i.toNat = 0x0A → exec (.coreXori c i) s = .next (s.ran c 2 fun k => k.setW d (k.w a ^^^ bitsOf i.toNat 0 14)))
    ∧ (insOp i.toNat = 0x0C → bitsOf i.toNat 16 2 = 0 → exec (.coreMovi c i) s = .next (s.ran c 2 fun k => k.setW d (i.toNat % 65536)))
    ∧ (d < 8 → a < 8 → 
      (insOp i.toNat = 0x10 → exec (.coreAdda c i) s = .next (s.ran c 2 fun k => k.setA d (unI 32 (k.a a + sx 14 (bitsOf i.toNat 0 14)))))
      ∧ (insOp i.toNat = 0x11 → exec (.coreAddaw c i) s = .next (s.ran c 2 fun k => k.setA d (unI 32 (k.a a + sx 16 (k.w b))))))
    ∧ (insOp i.toNat = 0x12 → i.toNat.testBit 0 = true → d % 2 = 0 → a < 8 → exec (.coreMovaw c i) s = .next (s.ran c 2 fun k => k.setPair d (k.a a)))
    ∧ (insOp i.toNat = 0x12 → i.toNat.testBit 0 = false → d < 8 → a % 2 = 0 → exec (.coreMovaw c i) s = .next (s.ran c 2 fun k => k.setA d (k.pair a)))
    ∧ (∀ lit : BitVec 32, s.w.issues c i.toNat true → insOp i.toNat = 0x13 → d < 8 → exec (.coreLdaL c i lit) s = .next (s.ran c 4 fun k => k.setA d lit.toNat))

/-- What the loads and stores of a core do once they are issued (R19, R21, R305, R308, R317, R318, R345): a two-word access to an odd address
raises ALIGN and one that the MPU refuses raises its cause, with no effect; one that needs an island to wake waits for it; a store that the buses
take enters the store buffer and invalidates the core's own buffered line; a load takes the words of memory, or of the one buffered store that
covers it exactly; An takes its new value. An access that goes to memory wakes a Trim-gated island. What it rests on that is the model's choice
and no rule's word stands in log entries 70, 71 and 72. Rows it completes: coreLd, coreSt, coreLdD, coreStD, coreLda, coreSta. -/
def Obligations.CoreLoadsAndStoresTakeEffect : Prop :=
  ∀ (s : State) (c : Nat) (i : BitVec 32) (u : World) (k : Core) (a : Nat) (upd : Option Nat), s.w.issues c i.toNat false → 
    u = s.w.setCore c (s.w.ready c) → k = s.w.core c → (a, upd) = k.ea i.toNat → memBad i.toNat = false → 
    ∀ e ∈ [(0x14, Instr.coreLd c i, MemKind.ld), (0x15, .coreSt c i, .st), (0x16, .coreLdD c i, .ldD), (0x17, .coreStD c i, .stD),
        (0x18, .coreLda c i, .lda), (0x19, .coreSta c i, .sta)],
      insOp i.toNat = e.1 → e.2.2.bad (insD i.toNat) = false → 
      (e.2.2.words = 2 → a % 2 = 1 → exec e.2.1 s
        = .next { s with mem := (u.enter s.mem c 0x10 a k.pc none).1, w := (u.enter s.mem c 0x10 a k.pc none).2 })
      ∧ ((e.2.2.words = 2 → a % 2 = 0) →
        (k.mpuOk (b2n e.2.2.store) a = false → exec e.2.1 s
          = .next { s with mem := (u.enter s.mem c (if e.2.2.store then 0x0A else 0x09) a k.pc none).1,
                           w := (u.enter s.mem c (if e.2.2.store then 0x0A else 0x09) a k.pc none).2 })
        ∧ (k.mpuOk (b2n e.2.2.store) a = true → 
          (∀ x, u.bus c a e.2.2.store false = .err x → exec e.2.1 s
            = .next { s with mem := (u.enter s.mem c x a k.pc none).1, w := (u.enter s.mem c x a k.pc none).2 })
          ∧ (∀ n, u.bus c a e.2.2.store false = .wake n → exec e.2.1 s = .next (s.withW (u.stall c n (.ins i.toNat))))
          ∧ (u.bus c a e.2.2.store false = .ok → isReg a = false → 
            (e.2.2.store = true → k.sb.length < 4 → exec e.2.1 s = .next ((s.ran c 2 fun k =>
              { k with sb := k.sb ++ [(u.memAddr (u.coreAddr c a), e.2.2.source k (insD i.toNat))],
                       lines := k.lines.filter fun l => l.1 != lineAt (u.memAddr (u.coreAddr c a)) }.advA i.toNat upd).touched
                (u.memAddr (u.coreAddr c a))))
            ∧ (e.2.2.store = false → k.overlap (u.memAddr (u.coreAddr c a)) e.2.2.words = none → exec e.2.1 s
              = .next ((s.ran c 2 fun k => e.2.2.sink (k.advA i.toNat upd) (insD i.toNat)
                  ((List.range e.2.2.words).map fun j => u.coreWord s.mem c (u.coreAddr c (a + j)))).touched (u.memAddr (u.coreAddr c a))))
            ∧ (∀ n l, e.2.2.store = false → k.overlap (u.memAddr (u.coreAddr c a)) e.2.2.words = some (n, u.memAddr (u.coreAddr c a), l) →
                l.length = e.2.2.words → exec e.2.1 s = .next (s.ran c 2 fun k => e.2.2.sink (k.advA i.toNat upd) (insD i.toNat) l)))))

/-- What compares, predicate logic and control transfers do once they are issued (R304, R306, R309, R311): a compare gives its condition to Pd,
with AND or OR to its old value; the PC takes the target, CALL forms leave the return address in A5, and beside the branch target buffer and its
miss counter nothing changes. What it rests on that is the model's choice and no rule's word stands in log entry 77. Rows it completes: coreCmpCc,
coreCmpCcAnd, coreCmpCcOr, corePlog, corePmov, coreBr, coreCall, coreJmp, coreCallr, coreJmpL, coreCallL. -/
def Obligations.CorePredicatesAndBranches : Prop :=
  ∀ (s : State) (c : Nat) (i : BitVec 32) (k : Core), s.w.issues c i.toNat false → k = s.w.core c → 
    (∀ cc dw a b (y : Core → Nat), cc = bitsOf i.toNat 16 3 → dw = i.toNat.testBit 14 → a = bitsOf i.toNat 10 4 → b = bitsOf i.toNat 0 4 → cc < 7 → 
      (i.toNat.testBit 15 = false → bitsOf i.toNat 4 6 = 0) → (dw = true → a % 2 = 0 ∧ (i.toNat.testBit 15 = false → b % 2 = 0)) → 
      (y = fun k => if i.toNat.testBit 15 then unI (opWidth dw) (sx 10 (bitsOf i.toNat 0 10)) else k.get dw b) → 
      (insOp i.toNat = 0x1A → exec (.coreCmpCc c i) s = .next (s.ran c 2 fun k => k.setP (insPd i.toNat) (cond cc (opWidth dw) (k.get dw a) (y k))))
      ∧ (insOp i.toNat = 0x1B → exec (.coreCmpCcAnd c i) s
        = .next (s.ran c 2 fun k => k.setP (insPd i.toNat) (k.p (insPd i.toNat) && cond cc (opWidth dw) (k.get dw a) (y k))))
      ∧ (insOp i.toNat = 0x1C → exec (.coreCmpCcOr c i) s
        = .next (s.ran c 2 fun k => k.setP (insPd i.toNat) (k.p (insPd i.toNat) || cond cc (opWidth dw) (k.get dw a) (y k)))))
    ∧ (∀ fn, fn = bitsOf i.toNat 10 2 → fn ≠ 3 → bitsOf i.toNat 0 10 = 0 → insOp i.toNat = 0x1D → 
      exec (.corePlog c i) s = .next (s.ran c 2 fun k =>
        let a := k.p (bitsOf i.toNat 16 3)
        let b := k.p (bitsOf i.toNat 13 3) != i.toNat.testBit 12
        k.setP (insPd i.toNat) (if fn = 0 then a && b else if fn = 1 then a || b else a != b)))
    ∧ (insOp i.toNat = 0x1E → i.toNat.testBit 0 = false → exec (.corePmov c i) s = .next (s.ran c 2 fun k => k.setW (insD i.toNat) (k.pr ||| 1)))
    ∧ (insOp i.toNat = 0x1E → i.toNat.testBit 0 = true → exec (.corePmov c i) s
      = .next (s.ran c 2 fun k => (List.range 8).foldl (fun (q : Core) n => q.setP n ((k.w (insA i.toNat)).testBit n)) k))
    ∧ (∀ lit : BitVec 32, ∀ e ∈ [(0x20, Instr.coreBr c i, unI 32 (k.pc + 2 * sx 22 (bitsOf i.toNat 0 22)), 0, true),
          (0x21, .coreCall c i, unI 32 (k.pc + 2 * sx 22 (bitsOf i.toNat 0 22)), 2, true),
          (0x22, .coreJmp c i, k.a (insN i.toNat), 0, bitsOf i.toNat 18 4 == 0 && bitsOf i.toNat 0 15 == 0),
          (0x23, .coreCallr c i, k.a (insN i.toNat), 2, bitsOf i.toNat 18 4 == 0 && bitsOf i.toNat 0 15 == 0),
          (0x24, .coreJmpL c i lit, lit.toNat, 0, bitsOf i.toNat 0 22 == 0), (0x25, .coreCallL c i lit, lit.toNat, 4, bitsOf i.toNat 0 22 == 0)],
        insOp i.toNat = e.1 → e.2.2.2.2 = true → e.1 < 0x22 ∨ e.2.2.1 % 2 = 0 → e.1 < 0x24 ∨ s.w.issues c i.toNat true → 
        ∃ (v : World) (bt : List (Nat × Btb)), exec e.2.1 s = .next (s.withW v)
          ∧ v.core c = ((if e.2.2.2.1 = 0 then { s.w.ready c with btb := bt }
              else { s.w.ready c with btb := bt }.setA 5 ((k.pc + e.2.2.2.1) % 2 ^ 32))).retired k.pc e.2.2.1
          ∧ (∀ j, j ≠ c → v.core j = s.w.core j) ∧ v.out = s.w.out ∧ Keeps [F.CX_PERF_BPMISS.id] s.w v)

/-- What the system instructions do once they are issued (R309, R325 to R329, R334, R341 to R343). TRAP completes and enters with its number and
the next PC; WAIT stops issue, or falls through when an interrupt is pending with IE = 0; SYNC.I and SYNC.M drain the store buffer, and SYNC.I
empties the line buffers and the BTB; CSRR and CSRW read and write the register named, a break of the TSB order raising TSB_RANGE; a gate that
passes its checks pushes its frame and enters at the gate's level; RETX restores the frame at TSBP. What it rests on that is the model's choice
and no rule's word stands in log entries 75 and 76. Rows it completes: coreCallg, coreRetx, coreTrap, coreWait, coreSyncI, coreSyncM, coreCsrr,
coreCsrw. -/
def Obligations.CoreSystemInstructionsTakeEffect : Prop :=
  ∀ (s : State) (c : Nat) (i : BitVec 32) (u : World) (k q : Core) (num d : Nat), s.w.issues c i.toNat false → sysBad i.toNat = false → 
    q = s.w.ready c → u = s.w.setCore c q → k = s.w.core c → num = insNum i.toNat → d = insD i.toNat → 
    (insOp i.toNat = 0x28 → ∀ t : World, t = s.w.setCore c { q with last := k.pc, ret := (k.ret + 1) % 2 ^ 48 } → 
      exec (.coreTrap c i) s = .next { s with mem := (t.enter s.mem c 0x03 num ((k.pc + 2) % 2 ^ 32) none).1,
                                              w := (t.enter s.mem c 0x03 num ((k.pc + 2) % 2 ^ 32) none).2 })
    ∧ (insOp i.toNat = 0x29 → k.mode % 4 ≠ 0 → exec (.coreWait c i) s
      = .next (if u.irqFor c && !k.mode.testBit 2 then s.ran c 2 fun k => k
        else s.withW ((s.w.setCore c { q with st := 2 }).start (.idle c))))
    ∧ (insOp i.toNat = 0x2A → exec (.coreSyncI c i) s = .next { s with
        mem := s.w.drained s.mem k.sb,
        w := s.w.setCore c ({ q with sb := [], lines := [], fills := [], btb := [] }.retired k.pc ((k.pc + 2) % 2 ^ 32)) })
    ∧ (insOp i.toNat = 0x2B → exec (.coreSyncM c i) s = .next { s with
        mem := s.w.drained s.mem k.sb,
        w := s.w.setCore c ({ q with sb := [] }.retired k.pc ((k.pc + 2) % 2 ^ 32)) })
    ∧ (insOp i.toNat = 0x2C → csrKnown num = true → csrLevel num false ≤ rank (k.mode % 4) → exec (.coreCsrr c i) s = .next (s.ran c 2 fun k =>
        ({ k with cycL := if num = 3 then u.cycles c else k.cycL, retL := if num = 6 then k.ret else k.retL }).setW d (u.csr c num)))
    ∧ (insOp i.toNat = 0x2D → csrKnown num = true → csrLevel num true ≤ rank (k.mode % 4) → num ≠ 1 ∨ rank (k.mode % 4) ≠ 1 → 
      (¬ (0x15 ≤ num ∧ num ≤ 0x17) → exec (.coreCsrw c i) s = .next (s.ran c 2 fun k => k.csrWrite num (k.w d)))
      ∧ (0x15 ≤ num → num ≤ 0x17 → ∀ z, q.writeTsb num (k.w d) = some z →
          exec (.coreCsrw c i) s = .next (s.withW (s.w.setCore c (z.retired k.pc ((k.pc + 2) % 2 ^ 32)))))
      ∧ (0x15 ≤ num → num ≤ 0x17 → q.writeTsb num (k.w d) = none → exec (.coreCsrw c i) s
          = .next { s with mem := (u.enter s.mem c 0x07 (k.w d) k.pc none).1, w := (u.enter s.mem c 0x07 (k.w d) k.pc none).2 }))
    ∧ (insOp i.toNat = 0x26 → num < k.gaten → k.sb = [] → k.tsblim < k.tsbp → ∀ g (e : Nat → Nat), g = (k.gateb + 16 * num) % 2 ^ 32 → 
        (e = fun n => u.memRead s.mem (u.coreAddr c (g + n))) → u.memOff (u.coreAddr c g) = false →
        k.gateBad e (u.inOwnTcm c g || isFlash g) = none → exec (.coreCallg c i) s = .next { s with
          mem := s.w.memWrites s.mem (s.w.tcmBase c + 64 * (k.tsbp - 1)) (q.frame { cause := 0x21, flags := 2, src := 0xFFFF, info := num, pc := (k.pc + 2) % 2 ^ 32 }),
          w := s.w.setCore c ({ (if (e 2).testBit 8 then { q with tsbp := k.tsbp - 1 }.setA 4 (e 4 + 65536 * e 5) else { q with tsbp := k.tsbp - 1 }) with
            mode := (k.mode &&& 8) ||| (if (e 2).testBit 9 then k.mode &&& 4 else 0) ||| (e 2 % 4) }.retired k.pc (e 0 + 65536 * e 1)) })
    ∧ (insOp i.toNat = 0x27 → k.mode % 4 ≠ 0 → 
      (k.tsbp = k.tsbtop → exec (.coreRetx c i) s = .next { s with mem := (u.enter s.mem c 0x06 0 k.pc none).1, w := (u.enter s.mem c 0x06 0 k.pc none).2 })
      ∧ (k.tsbp ≠ k.tsbtop → k.sb = [] → ∀ rd : Nat → Nat, (rd = fun n => Mem.word s.mem (s.w.tcmBase c + 64 * k.tsbp + n)) → 
        (rd 4 + 65536 * rd 5) % 2 = 0 → rank (rd 6 % 4) ≤ rank (rd 3 % 4) → rank (rd 6 % 4) ≤ rank (k.mode % 4) → (rd 1).testBit 0 = false → 
        exec (.coreRetx c i) s = .next (s.withW (s.w.setCore c ((q.restore rd ((rd 1).testBit 1)).retired k.pc (rd 4 + 65536 * rd 5))))))

/-- What the side unit and the core's own events do (R309, R315, R318, R320 to R322, R350, R363). An issued multiplication, division or read of MA
gives the side unit its result, a MAC its product; a result that arrives goes to its pair or into MA; the oldest store leaves the buffer; a line
that was requested becomes the most recently used of at most four; an accepted offer enters with cause 0x20; the debugger halts, resumes and steps
a core. What it rests on that is the model's choice and no rule's word stands in log entries 74 and 79. Rows it completes: coreMul, coreMuld,
coreMac, coreMar, coreMaz, coreDiv, sideUnitResult, storeDrain, lineFill, interruptAccept, dbgHalt, dbgResume, dbgStep. -/
def Obligations.CoreSideUnitTakesEffect : Prop :=
  ∀ (s : State) (c : Nat), 
    (∀ (i : BitVec 32) (d a b : Nat) (un : Bool), s.w.issues c i.toNat false → d = insD i.toNat → a = insA i.toNat → b = insB i.toNat → un = i.toNat.testBit 0 → 
      (insOp i.toNat = 0x34 → d % 2 = 0 → exec (.coreMul c i) s = .next (s.ran c 2 fun k => { k with side := k.side ++
          [{ dst := some d, val := if un then (k.w a : Int) * k.w b else sx 16 (k.w a) * sx 16 (k.w b) }] }))
      ∧ (insOp i.toNat = 0x35 → d % 2 = 0 → a % 2 = 0 → b % 2 = 0 → exec (.coreMuld c i) s = .next (s.ran c 2 fun k => { k with side := k.side ++
          [{ dst := some d, val :=
            let p : Int := if un then (k.pair a : Int) * k.pair b else sx 32 (k.pair a) * sx 32 (k.pair b)
            if i.toNat.testBit 1 then p / (2 ^ 32 : Nat) else p }] }))
      ∧ (insOp i.toNat = 0x36 → d = 0 → a % 2 = 0 → b % 2 = 0 → exec (.coreMac c i) s = .next (s.ran c 2 fun k => { k with side := k.side ++
          [{ dst := none, val :=
            let p : Int := if un then (k.pair a : Int) * k.pair b else sx 32 (k.pair a) * sx 32 (k.pair b)
            if i.toNat.testBit 1 then -p else p }] }))
      ∧ (insOp i.toNat = 0x37 → d % 2 = 0 → exec (.coreMar c i) s = .next (s.ran c 2 fun k =>
          { k with side := k.side ++ [{ dst := some d, val := marOf k.ma (bitsOf i.toNat 0 6) }], ma := if i.toNat.testBit 6 then 0 else k.ma }))
      ∧ (insOp i.toNat = 0x38 → exec (.coreMaz c i) s = .next (s.ran c 2 fun k => { k with ma := 0 }))
      ∧ (insOp i.toNat = 0x39 → d % 2 = 0 → a % 2 = 0 → b % 2 = 0 → exec (.coreDiv c i) s = .next (s.ran c 2 fun k => { k with side := k.side ++
          [{ dst := some d, val := if i.toNat.testBit 1 then (divOf un (k.pair a) (k.pair b)).2 else (divOf un (k.pair a) (k.pair b)).1
             isDiv := true, pc := k.pc, dz := k.pair b == 0, recov := k.mode.testBit 3 }] })))
    ∧ (c < s.w.nCores → s.w.on (s.w.coreIsl c) = true → 
      (∀ n r d, (s.w.core c).side[n]? = some r → r.dst = some d → exec (.sideUnitResult c n) s = .next (s.withW (s.w.setCore c
        { { (s.w.core c) with side := (s.w.core c).side.eraseIdx n }.setPair d (unI 32 r.val) with dz := (s.w.core c).dz || r.dz })))
      ∧ (∀ n r, (s.w.core c).side[n]? = some r → r.dst = none → (s.w.core c).ma + r.val = satS 72 ((s.w.core c).ma + r.val) →
        exec (.sideUnitResult c n) s
          = .next (s.withW (s.w.setCore c { (s.w.core c) with side := (s.w.core c).side.eraseIdx n, ma := (s.w.core c).ma + r.val })))
      ∧ (∀ e rest, (s.w.core c).sb = e :: rest → exec (.storeDrain c) s = .next
          { s with mem := if s.w.memOff e.1 then s.mem else s.w.memWrites s.mem e.1 e.2, w := s.w.setCore c { s.w.core c with sb := rest } }))
    ∧ (∀ line, c < s.w.nCores → (s.w.core c).fills.contains line = true → s.w.memOff line = false → 
      exec (.lineFill c line) s = .next (s.withW (s.w.setCore c { s.w.core c with fills := (s.w.core c).fills.filter fun x => x != line
                                                                                  lines := ((line, (List.range 16).map fun j => s.w.memRead s.mem (line + j)) :: (s.w.core c).lines).take 4 })))
    ∧ (∀ x, c < s.w.nCores → (s.w.core c).offer = some x → (s.w.core c).st = 1 → s.w.awake c = true → s.w.eligible c x = true → 
      s.w.stalled c = false → exec (.interruptAccept c) s
        = .next { s with mem := ((s.w.takeOffer c x).enter s.mem c 0x20 x (s.w.core c).pc (some x)).1,
                         w := ((s.w.takeOffer c x).enter s.mem c 0x20 x (s.w.core c).pc (some x)).2 })
    ∧ (s.w.on 21 = true → 
      (s.w.dbgOpen = false → ∀ i ∈ [Instr.dbgHalt c, .dbgResume c, .dbgStep c], exec i s = .next (s.withW (s.w.sf F.DBG_ERR_DENIED 0 1)))
      ∧ (s.w.dbgOpen = true → c < s.w.nCores → 
        ((s.w.core c).st = 1 ∨ (s.w.core c).st = 2 → exec (.dbgHalt c) s
          = .next (s.withW (s.w.setCore c { s.w.core c with st := 3, stepping := false, offer := none })))
        ∧ ((s.w.core c).st = 3 → exec (.dbgResume c) s = .next (s.withW (s.w.setCore c { s.w.core c with st := 1, stepping := false, replay := [] })))
        ∧ ((s.w.core c).st ≠ 0 → exec (.dbgStep c) s = .next (s.withW (s.w.setCore c { s.w.core c with st := 1, stepping := true, replay := [] })))))

/-- What the string instructions do once they are issued (R323, R324). With W13 = 0 they complete at once, CMPS with Pd = 1 and SCNS with Pd = 0.
An element of FILS stores W12 at A7, one of MOVS stores the word at A6 there, one of CMPS compares the words at A6 and A7 and one of SCNS the word
at A6 with W12; a difference, or the word sought, ends the instruction with the addresses on it; otherwise the addresses step by 1 and W13 counts
down. The accesses wake a Trim-gated island (R19). After an element that an interruption follows, the PC is still that of the instruction. What it
rests on that is the model's choice and no rule's word stands in log entry 78. Rows it completes: coreMovs, coreFils, coreCmps, coreScns. -/
def Obligations.CoreStringsTakeEffect : Prop :=
  ∀ (s : State) (c : Nat) (i : BitVec 32) (k q : Core) (u : World) (d : Int), s.w.issues c i.toNat false → bitsOf i.toNat 1 18 = 0 →
    k = s.w.core c → q = s.w.ready c → u = s.w.setCore c q → (d = if i.toNat.testBit 0 then -1 else 1) → 
    (k.w 13 = 0 → ∀ limit,
      (insOp i.toNat = 0x30 → exec (.coreMovs c i limit) s = .next (s.ran c 2 fun k => k))
      ∧ (insOp i.toNat = 0x31 → exec (.coreFils c i limit) s = .next (s.ran c 2 fun k => k))
      ∧ (insOp i.toNat = 0x32 → exec (.coreCmps c i limit) s = .next (s.ran c 2 fun k => k.setP (insPd i.toNat) true))
      ∧ (insOp i.toNat = 0x33 → exec (.coreScns c i limit) s = .next (s.ran c 2 fun k => k.setP (insPd i.toNat) false)))
    ∧ (∀ (x : StrKind) (src dst : Nat) (st6 st7 : Core → Core), k.sb = [] → k.w 13 ≠ 0 → k.w 13 < 65536 → 
        (∀ e ∈ x.uses k, k.mpuOk (b2n e.2) e.1 = true ∧ isReg e.1 = false ∧ u.bus c e.1 e.2 false = .ok) → 
        src = u.coreWord s.mem c (u.coreAddr c (k.a 6)) → dst = u.coreWord s.mem c (u.coreAddr c (k.a 7)) → 
        (st6 = fun k => k.setA 6 (unI 32 (k.a 6 + d))) → (st7 = fun k => k.setA 7 (unI 32 (k.a 7 + d))) → 
      ∀ (at_ : Nat → Nat) (buf : Nat → Core → Core), (at_ = fun n => u.memAddr (u.coreAddr c (k.a n))) → (buf = fun v k => { k with
          sb := [(u.memAddr (u.coreAddr c (k.a 7)), [v])], lines := k.lines.filter fun l => l.1 != lineAt (u.memAddr (u.coreAddr c (k.a 7))) }) → 
      (k.w 13 = 1 → 
        (x = .movs → insOp i.toNat = 0x30 → exec (.coreMovs c i none) s
          = .next (((s.ran c 2 fun k => (st7 (st6 (buf src k))).setW 13 0).touched (at_ 6)).touched (at_ 7)))
        ∧ (x = .fils → insOp i.toNat = 0x31 → exec (.coreFils c i none) s
          = .next ((s.ran c 2 fun k => (st7 (buf (k.w 12) k)).setW 13 0).touched (at_ 7)))
        ∧ (x = .cmps → insOp i.toNat = 0x32 → src = dst → exec (.coreCmps c i none) s
          = .next (((s.ran c 2 fun k => (st7 (st6 (k.setP (insPd i.toNat) true))).setW 13 0).touched (at_ 6)).touched (at_ 7)))
        ∧ (x = .scns → insOp i.toNat = 0x33 → src ≠ k.w 12 → exec (.coreScns c i none) s
          = .next ((s.ran c 2 fun k => (st6 (k.setP (insPd i.toNat) false)).setW 13 0).touched (at_ 6))))
      ∧ (x = .cmps → insOp i.toNat = 0x32 → src ≠ dst → exec (.coreCmps c i none) s
          = .next (((s.ran c 2 fun k => (k.setP (insPd i.toNat) true).setP (insPd i.toNat) false).touched (at_ 6)).touched (at_ 7)))
      ∧ (x = .scns → insOp i.toNat = 0x33 → src = k.w 12 → exec (.coreScns c i none) s
          = .next ((s.ran c 2 fun k => (k.setP (insPd i.toNat) false).setP (insPd i.toNat) true).touched (at_ 6)))
      ∧ (x = .fils → insOp i.toNat = 0x31 → 1 < k.w 13 → exec (.coreFils c i (some 1)) s
          = .next ((s.withW (s.w.setCore c ((st7 (buf (k.w 12) q)).setW 13 (k.w 13 - 1)))).touched (at_ 7))))

/-- When an instruction does not have its effect, and what entry does (R305, R307, R310, R314, R333 to R339). A word outside the table, a reserved
guard and a bit that must be 0 raise ILLEGAL with the word; below S, RETX and WAIT raise PRIV_INSTR; an odd target raises ALIGN with it; a fetch
that a region refuses raises its cause with the address. With a false guard the instruction only moves the PC on. Entry without stores or results
in flight pushes the 48 words of the frame, enters level M with IE = 0 and goes to XVEC; with no room for a frame the core takes the overflow.
What it rests on that is the model's choice and no rule's word stands in log entries 27 and 70. Rows it completes: coreIll, coreNop, coreJmp,
coreCallr, coreRetx, coreTrap, coreWait. -/
def Obligations.CoreGuardsAndExceptionEntry : Prop :=
  ∀ (s : State) (c : Nat) (i : BitVec 32) (u : World) (k q : Core) (enters : Nat → Nat → Host.Outcome State Fault Refusal),
    k = s.w.core c → q = s.w.ready c → u = s.w.setCore c q →
    (enters = fun cause info => .next { s with mem := (u.enter s.mem c cause info k.pc none).1, w := (u.enter s.mem c cause info k.pc none).2 }) →
    (s.w.fetches c false →
      (opKnown (insOp i.toNat) = false → exec (.coreIll c i) s = enters 0x01 i.toNat)
      ∧ (k.guard i.toNat = false → guardBad i.toNat = false → sysBad i.toNat = false →
          (insOp i.toNat = 0x01 → exec (.coreNop c i) s = .next (s.ran c 2 fun k => k))
          ∧ (insOp i.toNat = 0x27 → exec (.coreRetx c i) s = .next (s.ran c 2 fun k => k))
          ∧ (insOp i.toNat = 0x28 → exec (.coreTrap c i) s = .next (s.ran c 2 fun k => k))
          ∧ (insOp i.toNat = 0x29 → exec (.coreWait c i) s = .next (s.ran c 2 fun k => k)))
      ∧ (guardBad i.toNat = true ∨ sysBad i.toNat = true →
          (insOp i.toNat = 0x27 → exec (.coreRetx c i) s = enters 0x01 i.toNat)
          ∧ (insOp i.toNat = 0x28 → exec (.coreTrap c i) s = enters 0x01 i.toNat)
          ∧ (insOp i.toNat = 0x29 → exec (.coreWait c i) s = enters 0x01 i.toNat))
      ∧ (k.guard i.toNat = true → guardBad i.toNat = false → sysBad i.toNat = false → k.mode % 4 = 0 →
          (insOp i.toNat = 0x27 → exec (.coreRetx c i) s = enters 0x02 i.toNat)
          ∧ (insOp i.toNat = 0x29 → exec (.coreWait c i) s = enters 0x02 i.toNat))
      ∧ (k.guard i.toNat = true → k.a (insN i.toNat) % 2 = 1 →
          (insOp i.toNat = 0x22 → exec (.coreJmp c i) s = enters 0x10 (k.a (insN i.toNat)))
          ∧ (insOp i.toNat = 0x23 → exec (.coreCallr c i) s = enters 0x10 (k.a (insN i.toNat))))
      ∧ (k.sb = [] → k.tsblim < k.tsbp → ∀ cause info, enters cause info = .next { s with
            mem := s.w.memWrites s.mem (s.w.tcmBase c + 64 * (k.tsbp - 1)) (k.frame { cause := cause, flags := 0, src := 0xFFFF, info := info, pc := k.pc }),
            w := s.w.setCore c { q with
              tsbp := k.tsbp - 1, mode := (k.mode &&& 8) ||| 3, xcause := cause, xinfo := info, pc := k.xvec, offer := none } })
      ∧ (k.sb = [] → k.tsbp ≤ k.tsblim → ∀ cause info r, r = u.coreReset s.mem c → enters cause info = .next { s with
            mem := r.1, w := (r.2.irq (0x0A8 + r.2.phys c)).cairn 0x31 (leBytes 4 (r.2.phys c) ++ leBytes 4 k.xcause) }))
    ∧ (∀ e, s.w.mayIssue c = true → k.st = 1 → k.staged = [] → s.w.fetchBad c k.pc = some e → insOp i.toNat = 0x01 →
        exec (.coreNop c i) s = .next { s with
          mem := ((s.w.setCore c k).enter s.mem c e k.pc k.pc none).1
          w := ((s.w.setCore c k).enter s.mem c e k.pc k.pc none).2 })

/-- An issued DIV (R321): the quotient truncates toward zero and the remainder takes the dividend's sign; the results of a division by zero, with
MDSTAT.DZ set once the result arrives, and of 0x8000_0000 ÷ −1 are those of the rule; no operands raise an exception. Rows it completes: coreDiv,
sideUnitResult. -/
def Obligations.DivisionTruncatesTowardZero : Prop :=
  ∀ (s : State) (c : Nat) (i : BitVec 32) (k : Core) (a b : Nat) (x y : Int), s.w.issues c i.toNat false → insOp i.toNat = 0x39 → 
    insD i.toNat % 2 = 0 → insA i.toNat % 2 = 0 → insB i.toNat % 2 = 0 → k = s.w.core c → a = k.pair (insA i.toNat) → b = k.pair (insB i.toNat) →
    x = sx 32 a → y = sx 32 b → 
    (∃ q r : Int, exec (.coreDiv c i) s = .next (s.ran c 2 fun k => { k with side := k.side ++
        [{ dst := some (insD i.toNat), val := if i.toNat.testBit 1 then r else q, isDiv := true, pc := k.pc, dz := b == 0, recov := k.mode.testBit 3 }] })
      ∧ (i.toNat.testBit 0 = true → (b ≠ 0 → (a : Int) = q * b + r ∧ 0 ≤ r ∧ r < b) ∧ (b = 0 → q = 0xFFFFFFFF ∧ r = a))
      ∧ (i.toNat.testBit 0 = false → 
        (y ≠ 0 → ¬ (x = -0x80000000 ∧ y = -1) → x = q * y + r ∧ r.natAbs < y.natAbs ∧ (0 < r → 0 < x) ∧ (r < 0 → x < 0))
        ∧ (y = 0 → q = (if 0 ≤ x then 0x7FFFFFFF else -0x80000000) ∧ r = x)
        ∧ (x = -0x80000000 → y = -1 → q = 0x7FFFFFFF ∧ r = 0)))
    ∧ (∀ n e d, c < s.w.nCores → s.w.on (s.w.coreIsl c) = true → (s.w.core c).side[n]? = some e → e.dst = some d → e.dz = true →
        ∃ t, exec (.sideUnitResult c n) s = .next t ∧ (t.w.core c).dz = true)

/-- The MPU of a core below level M (R344): region `r` covers the 2^SIZE words at BASE, its bits below SIZE ignored and SIZE below 6 taken as 6,
while its EN bit is 1; the enabled region with the highest number that holds the address decides, by its attribute bit for the level and the kind
of access; an access that no enabled region holds is refused. -/
def Obligations.MpuHighestEnabledRegionDecides : Prop :=
  ∀ (k : Core) (kind a : Nat) (lo hi at_ : Nat → Nat) (size base : Nat → Nat), k.mode % 4 < 2 →
    (∀ r, lo r = mget 0 k.mpu (0x20 + 4 * r)) → (∀ r, hi r = mget 0 k.mpu (0x21 + 4 * r)) → (∀ r, at_ r = mget 0 k.mpu (0x22 + 4 * r)) →
    (∀ r, size r = if lo r % 32 < 6 then 6 else lo r % 32) → (∀ r, base r = (lo r / 64 * 64 + 65536 * hi r) / 2 ^ size r * 2 ^ size r) →
    (∀ r < 8, (at_ r).testBit 0 = true → base r ≤ a → a < base r + 2 ^ size r →
      (∀ q < 8, r < q → (at_ q).testBit 0 = true → a < base q ∨ base q + 2 ^ size q ≤ a) →
      k.mpuOk kind a = (at_ r).testBit (if k.mode % 4 = 1 then 1 + kind else 4 + kind))
    ∧ ((∀ q < 8, (at_ q).testBit 0 = true → a < base q ∨ base q + 2 ^ size q ≤ a) → k.mpuOk kind a = false)

/-- The eight semaphores with their island on (R355): a read of a free one takes it for the reader and answers TAKEN = 1 with the reader as
HOLDER; a read of a held one answers TAKEN = 0 with its holder and changes nothing but the answer given; a write of 0 releases it. Rows it
completes: icSemRead, icSemRelease. -/
def Obligations.SemaphoresAreTakenOnce : Prop :=
  ∀ (s : State) (a : Agent) (j : Nat), s.w.on 12 = true → j < 8 → (∀ c, a = .core c → c < 8) →
    (s.w.f F.IC_SEM_HOLDER j = 0xF → ∃ v : World, exec (.icSemRead a j) s = .next (s.withW (v.answered a R.IC_SEM j (1 + 16 * holderOf a)))
      ∧ v.f F.IC_SEM_HOLDER j = holderOf a ∧ (∀ i < 8, i ≠ j → v.f F.IC_SEM_HOLDER i = s.w.f F.IC_SEM_HOLDER i) ∧ Keeps [F.IC_SEM_HOLDER.id] (s.w.touch 12) v)
    ∧ (s.w.f F.IC_SEM_HOLDER j ≠ 0xF → exec (.icSemRead a j) s
      = .next (s.withW ((s.w.touch 12).answered a R.IC_SEM j (16 * s.w.f F.IC_SEM_HOLDER j))))
    ∧ (s.w.on 1 = true ∨ a ≠ .host → ∃ v : World, exec (.icSemRelease a j) s = .next (s.withW v) ∧ v.f F.IC_SEM_HOLDER j = 0xF
      ∧ (∀ i < 8, i ≠ j → v.f F.IC_SEM_HOLDER i = s.w.f F.IC_SEM_HOLDER i) ∧ Keeps [F.IC_SEM_HOLDER.id] (s.w.touch 12) v)

/-- On a trained belay link: an acknowledged frame is no longer held and BL_RTT shows its time (R368); a frame that is not acknowledged is sent
again and counted, and after four retries the link goes down with BL_ERR.RETRY (R368); a message with a bad CRC is answered NAK and not held, a
good one is answered ACK and, in the standby and once, held in arrival order (R249, R368); a heartbeat shows the partner's version and signature
(R369, R371). Rows it completes: stampMessage, effectMessage, decisionMessage, faultMessage, ack, nak, frameRetry, handoverFrame. -/
def Obligations.BelayFramesTakeEffect : Prop :=
  (∀ (s : State) (seq t : Nat) (x : Frame) (w : World), s.w.f F.BL_STAT_LINKUP 0 = 1 → w = s.w.upTo t →
    s.w.bly.sent.find? (fun y => y.seq == seq) = some x →
    (∃ v : World, (∀ y ∈ v.bly.sent, y.seq ≠ seq) ∧ Keeps [F.BL_RTT_RTT.id] w v
      ∧ ((∀ c sense wb, x.msg ≠ .effect c sense wb) → exec (.ack seq t) s = .next (s.withW v))
      ∧ (∀ c sense wb, x.msg = .effect c sense wb → exec (.ack seq t) s = .next (s.withW (v.releaseKey (if c.gseq.isSome then 0xFF else c.rail)))))
    ∧ (4 ≤ x.tries → exec (.nak seq) s = .next (s.withW ((s.w.sf F.BL_ERR_RETRY 0 1).sf F.BL_STAT_LINKUP 0 0))
      ∧ exec (.frameRetry seq) s = .next (s.withW ((s.w.sf F.BL_ERR_RETRY 0 1).sf F.BL_STAT_LINKUP 0 0)))
    ∧ (x.tries < 4 → ∃ v : World, exec (.nak seq) s = .next (s.withW v) ∧ exec (.frameRetry seq) s = .next (s.withW v)
      ∧ v.f F.BL_RTT_RETRIES 0 = (s.w.f F.BL_RTT_RETRIES 0 + 1) % 2 ^ F.BL_RTT_RETRIES.wd ∧ v.out = s.w.out ++ [.belay x.msg]
      ∧ Keeps [F.BL_RTT_RETRIES.id] s.w v))
  ∧ (∀ (s : State) (tag seq i sense : Nat) (c : Cmd) (wb : Option WB) (b : Bool) (why : Reason) (q : FaultMsg),
    s.w.f F.BL_STAT_LINKUP 0 = 1 →
    ∀ e ∈ [((Instr.stampMessage tag seq · c), BlyOut.stamp c), ((Instr.effectMessage tag seq · c sense wb), .effect c sense wb),
      ((Instr.decisionMessage tag seq · i b why), .decision i b why), ((Instr.faultMessage tag seq · q), .fault q)],
      exec (e.1 false) s = .next (s.withW (s.w.emit (.belay (.nak seq))))
      ∧ ∃ v : World, exec (e.1 true) s = .next (s.withW v) ∧ v.out = s.w.out ++ [.belay (.ack seq)] ∧ v.regs = s.w.regs
        ∧ (s.w.role = roStandby → (∀ x ∈ s.w.bly.msgs, x.2.1 ≠ seq) → v.bly.msgs = s.w.bly.msgs ++ [(tag % 65536, seq, e.2)])
        ∧ (s.w.role ≠ roStandby ∨ (∃ x ∈ s.w.bly.msgs, x.2.1 = seq) → v.bly.msgs = s.w.bly.msgs))
  ∧ (∀ (s : State) (seq h t : Nat), s.w.f F.BL_STAT_LINKUP 0 = 1 → s.w.role = roStandby →
    ∃ v : World, exec (.handoverFrame seq h t) s = .next (s.withW v) ∧ v.role = roActive ∧ v.bly.handIn = some h
      ∧ v.f F.BL_ERR_ROLECHG 0 = 1)

/-- In the standby, a snapshot's first frame starts its assembly, a bad frame or one out of order makes it torn and counts it once, and the last
of its 356 good frames makes it the mirror, with BL_STAT.SYNC = 1 and its epoch shown (R370, R378). A heartbeat shows the partner's update state,
version and signature, and one of an owner sets BL_STAT.KAIN (R366, R369, R371). Signatures that have differed for more than 10 µs set
BL_ERR.CFGDIFF (R371). What it rests on that is the model's choice and no rule's word stands in log entries 47 and 50. Rows it completes:
heartbeat, snapshot, cfgdiff. -/
def Obligations.SnapshotsAndHeartbeatsTakeEffect : Prop :=
  (∀ (s : State) (e part : Nat) (good : Bool) (sn : Snap), s.w.f F.BL_STAT_LINKUP 0 = 1 → s.w.role = roStandby →
    (s.w.bly.asm = none → exec (.snapshot e 0 true sn) s = .next (s.withW { s.w with bly := { s.w.bly with asm := some (e, 1, false) } }))
    ∧ (∀ n, s.w.bly.asm = some (e, n, false) → good = false ∨ part ≠ n → ∃ v : World, exec (.snapshot e part good sn) s = .next (s.withW v)
      ∧ v.bly.asm = some (e, 0, true) ∧ v.bly.mirror = s.w.bly.mirror
      ∧ v.f F.BL_CNT_TORN 0 = (s.w.f F.BL_CNT_TORN 0 + 1) % 2 ^ F.BL_CNT_TORN.wd ∧ Keeps [F.BL_CNT_TORN.id] s.w v)
    ∧ (∀ n, s.w.bly.asm = some (e, n, true) → exec (.snapshot e part good sn) s = .next s)
    ∧ (s.w.bly.asm = some (e, 355, false) → ∃ v : World, exec (.snapshot e 355 true sn) s = .next (s.withW v)
      ∧ v.bly.mirror = some { sn with epoch := e } ∧ v.bly.asm = none ∧ v.f F.BL_STAT_SYNC 0 = 1
      ∧ v.f F.BL_EPOCH_EPOCH 0 = e % 2 ^ F.BL_EPOCH_EPOCH.wd ∧ Keeps [F.BL_EPOCH_EPOCH.id, F.BL_STAT_SYNC.id, F.BL_STAT_UPD.id] s.w v))
  ∧ (∀ (s : State) (own sync : Bool) (upd romver cls sig tb t : Nat) (w : World), s.w.f F.BL_STAT_LINKUP 0 = 1 → s.w.follows = false →
    w = s.w.upTo t → ∃ v : World, exec (.heartbeat own sync upd romver cls sig tb t) s = .next (s.withW v)
      ∧ v.f F.BL_STAT_PUPD 0 = upd % 2 ^ F.BL_STAT_PUPD.wd ∧ v.f F.BL_PVER_ROMVER 0 = romver % 2 ^ F.BL_PVER_ROMVER.wd
      ∧ v.f F.BL_PVER_CLASS 0 = cls % 2 ^ F.BL_PVER_CLASS.wd ∧ v.f F.BL_PCFGSIG_SIG 0 = sig % 2 ^ 32
      ∧ (own = true → v.f F.BL_STAT_KAIN 0 = 1)
      ∧ Keeps [F.BL_CNT_HBMISS.id, F.BL_STAT_PUPD.id, F.BL_STAT_KAIN.id, F.BL_PVER_ROMVER.id, F.BL_PVER_CLASS.id, F.BL_PCFGSIG_SIG.id,
        F.BL_CFGSIG_SIG.id, F.BL_STAT_UPD.id] w v)
  ∧ (∀ (s : State) (t d : Nat) (w : World), w = s.w.upTo t → w.bly.diffAt = some d →
    (d + 1280000 < w.clk.tk → exec (.cfgdiff t) s = .next (s.withW (w.sf F.BL_ERR_CFGDIFF 0 1)))
    ∧ (w.clk.tk ≤ d + 1280000 → exec (.cfgdiff t) s = .next (s.withW w)))

/-- Pairing and ownership: three missed heartbeats lose the partner; an ACTIVE part goes on SOLO; a STANDBY one under an owner's keep-alive goes
SOLO with LINKLOST, a synchronised one takes the pads and the mirror, and one that is not takes the pads with NOTSYNC (R369, R372). A quiet BLKA_I
gives ownership to a SOLO part, in a tie to the one with BLSEL high (R366). A trained link whose checks pass pairs the owner as ACTIVE and the
other as STANDBY, and one whose checks fail sets their error bits (R367). The control bits refuse the partner, ask for snapshots, and ask for a
handover, which needs a synchronised partner (R367, R370, R374). What it rests on that is the model's choice and no rule's word stands in log
entries 50 and 52. Rows it completes: belayLinkTrained, partnerLost, blkaQuiet, keepaliveStop, handover, refuse, resync. -/
def Obligations.BelayRolesTakeEffect : Prop :=
  (∀ (s : State) (t : Nat) (w x : World), w = s.w.upTo t → w.f F.BL_STAT_PARTNER 0 = 1 →
    x = (w.sf F.BL_CNT_HBMISS 0 (w.f F.BL_CNT_HBMISS 0 + 3)).sf F.BL_STAT_PARTNER 0 2 →
    (w.clk.tk < w.bly.hbAt + 384000 → exec (.partnerLost t) s = .next (s.withW w))
    ∧ (w.bly.hbAt + 384000 ≤ w.clk.tk →
      (w.role = roActive → exec (.partnerLost t) s = .next (s.withW (x.setRole roSolo).unpair))
      ∧ (w.role = roStandby → w.f F.BL_STAT_KAIN 0 = 0 → w.f F.BL_STAT_SYNC 0 = 1 →
        exec (.partnerLost t) s = .next (s.withW (((x.setRole roActive).takePads.tkoMark 0 w.tb).resume true)))
      ∧ (w.role = roStandby → w.f F.BL_STAT_KAIN 0 = 0 → w.f F.BL_STAT_SYNC 0 = 0 → exec (.partnerLost t) s
        = .next (s.withW ((List.range w.nRails).foldl (fun w r => w.setRstate r rsOff) ((x.setRole roSolo).takePads.sf F.BL_ERR_NOTSYNC 0 1)).showRings))))
  ∧ (∀ (s : State) (t : Nat) (tie : Bool) (w : World), w = s.w.upTo t → s.w.on 3 = true →
    (w.f F.BL_STAT_OWN 0 = 1 → exec (.blkaQuiet tie t) s = .next (s.withW (w.sf F.BL_STAT_KAIN 0 0)))
    ∧ (w.pins.blpair = true → w.f F.BL_CFG_EN 0 = 1 → w.f F.BL_STAT_OWN 0 = 0 → w.bly.handIn = none → w.role = roSolo →
      (tie = false ∨ w.pins.blsel = true → exec (.blkaQuiet tie t) s = .next (s.withW (w.sf F.BL_STAT_KAIN 0 0).takePads.showRings))
      ∧ (tie = true → w.pins.blsel = false → exec (.blkaQuiet tie t) s = .next (s.withW (w.sf F.BL_STAT_KAIN 0 0)))))
  ∧ (∀ (s : State) (t : Nat) (w : World), w = s.w.upTo t → s.w.pins.blpair = true →
    exec (.keepaliveStop t) s = .next (s.withW (w.sf F.BL_STAT_OWN 0 0).showRings))
  ∧ (∀ (s : State) (va ro t : Nat) (pad ref own sel : Bool) (w : World), w = s.w.upTo t → s.w.on 3 = true → s.w.pins.blpair = true →
    s.w.f F.BL_CFG_EN 0 = 1 → w.role = roSolo →
    (w.pairErrs va ro pad ref ≠ [] → ∃ v : World, exec (.belayLinkTrained va ro pad ref own sel t) s = .next (s.withW v)
      ∧ (∀ B ∈ w.pairErrs va ro pad ref, v.f B 0 = 1) ∧ v.role = roSolo ∧ v.f F.BL_STAT_LINKUP 0 = 1)
    ∧ (w.pairErrs va ro pad ref = [] → w.f F.BL_STAT_OWN 0 = 1 → ∃ v : World,
      exec (.belayLinkTrained va ro pad ref own sel t) s = .next (s.withW v) ∧ v.role = roActive ∧ v.f F.BL_STAT_PARTNER 0 = 1
      ∧ v.f F.BL_STAT_LINKUP 0 = 1 ∧ (sel = w.pins.blsel → v.f F.BL_ERR_SELCONF 0 = 1)))
  ∧ (∀ s : State, s.w.on 3 = true →
    (∃ v : World, exec .refuse s = .next (s.withW v) ∧ v.f F.BL_ERR_REFUSED 0 = 1 ∧ v.bly.refuse = true ∧ v.out = s.w.out ++ [.belay (.control 2)]
      ∧ Keeps [F.BL_ERR_REFUSED.id] s.w v)
    ∧ (s.w.role ≠ roStandby → exec .resync s = .next s)
    ∧ (s.w.role = roStandby → ∃ v : World, exec .resync s = .next (s.withW v) ∧ v.f F.BL_STAT_SYNC 0 = 0 ∧ v.bly.mirror = none
      ∧ v.bly.msgs = [] ∧ v.out = s.w.out ++ [.belay (.control 1)] ∧ Keeps [F.BL_STAT_SYNC.id] s.w v)
    ∧ (s.w.role = roActive ∧ s.w.f F.BL_STAT_PARTNER 0 = 1 ∧ s.w.bly.pSync = true →
      exec .handover s = .next (s.withW { s.w with noFetch := true, bly := { s.w.bly with handReq := true } }))
    ∧ (¬ (s.w.role = roActive ∧ s.w.f F.BL_STAT_PARTNER 0 = 1 ∧ s.w.bly.pSync = true) →
      exec .handover s = .next (s.withW (s.w.sf F.BL_ERR_NOTSYNC 0 1))))

/-- A timer with its island on, at the instant of the event: an armed compare that COUNT has passed fires once, disarms and sets CMPHIT, and a
compare that is not armed does nothing (R397); a return to 0 sets WRAPPED and uses up one carry (R395, R396); a write of TM_CMP_LO commits all 48
bits and leaves the compare armed or fired (R397); a write of half of COUNT acts while the timer is stopped, and while it runs only sets BUSY
(R396); in EVENT mode a running timer counts at most two of a cycle's events (R394); the overrun counts clear (R401). The inputs of a timer with
its island on: a TM_CTL write starts, stops or clears it at once, and an event on an enabled input does so after its 2 ns holdoff, or counts in
TM_OVR inside the holdoff (R387, R399), an edge that no selector takes does nothing (R402), and in one cycle a clear wins over a count, a stop over
a start, and a capture takes COUNT from before the clear (R399); a clear sets COUNT and the prescaler to 0; a capture takes COUNT, or TB with CAPTB = 1, as it stood at the
event, and sets CAPNEW, and CAPOVR over an unread capture (R400). What it rests on that is the model's choice and no rule's word stands in log
entry 35. Rows it completes: timerStart, timerStop, timerClr, timerCap, timerCntEvent, timerCompare, timerWrap, timerCmpCommit, tmCntWrite,
timerOvrclr. -/
def Obligations.TimersTakeEffect : Prop :=
  (∀ (s : State) (t now n v ch : Nat) (hi fall : Bool) (w : World), t < 32 → s.w.on 17 = true → w = s.w.upTo now →
    (w.fb F.TM_STAT_ARMED t = true → w.tmPassed t = true → ∃ x : World, exec (.timerCompare t now) s = .next (s.withW x)
      ∧ x.f F.TM_STAT_ARMED t = 0 ∧ x.f F.TM_STAT_CMPHIT t = 1 ∧ Keeps [F.TM_STAT_ARMED.id, F.TM_STAT_CMPHIT.id] w x)
    ∧ (w.fb F.TM_STAT_ARMED t = false → exec (.timerCompare t now) s = .next (s.withW w))
    ∧ ((w.timer t).wraps ≠ 0 → w.f F.TM_CFG_CLKSRC (t + 1) ≠ 3 → ∃ x : World, exec (.timerWrap t now) s = .next (s.withW x)
      ∧ (x.timer t).wraps = (w.timer t).wraps - 1 ∧ x.f F.TM_STAT_WRAPPED t = 1 ∧ Keeps [F.TM_STAT_WRAPPED.id] w x)
    ∧ (∃ x : World, exec (.timerCmpCommit t v) s = .next (s.withW x)
      ∧ (x.timer t).cmp = v % 2 ^ 32 + 2 ^ 32 * s.w.f F.TM_CMP_HI_M_HI t
      ∧ (x.f F.TM_STAT_ARMED t = 1 ∧ x.tmPassed t = false ∨ x.f F.TM_STAT_ARMED t = 0 ∧ x.f F.TM_STAT_CMPHIT t = 1)
      ∧ Keeps [F.TM_CMP_LO_M_LO.id, F.TM_STAT_ARMED.id, F.TM_STAT_CMPHIT.id] s.w x)
    ∧ (s.w.fb F.TM_CTL_RUN t = true → exec (.tmCntWrite t hi v) s = .next (s.withW (s.w.sf F.TM_STAT_BUSY t 1)))
    ∧ (s.w.fb F.TM_CTL_RUN t = false → ∃ x : World, exec (.tmCntWrite t hi v) s = .next (s.withW x)
      ∧ (x.timer t).cnt = (if hi then (s.w.timer t).cnt % 2 ^ 32 + 2 ^ 32 * (v % 2 ^ 16) else (s.w.timer t).cnt / 2 ^ 32 * 2 ^ 32 + v % 2 ^ 32)
      ∧ Keeps [F.TM_STAT_ARMED.id, F.TM_STAT_CMPHIT.id] s.w x)
    ∧ (w.f F.TM_CFG_CLKSRC t = 2 → w.fb F.TM_CTL_RUN t = true → w.tmSel tmInCnt t ch fall = true →
      (w.clearsAt t now = false → exec (.timerCntEvent t n now ch fall) s = .next (s.withW (w.tmTick t (min n 2))))
      ∧ (w.clearsAt t now = true → exec (.timerCntEvent t n now ch fall) s = .next (s.withW w)))
    ∧ (w.tmSel tmInCnt t ch fall = false → exec (.timerCntEvent t n now ch fall) s = .next (s.withW w))
    ∧ (∃ x : World, exec (.timerOvrclr t) s = .next (s.withW x)
      ∧ (∀ G ∈ [F.TM_OVR_START, F.TM_OVR_STOP, F.TM_OVR_CAP, F.TM_OVR_CLR], x.f G t = 0)
      ∧ Keeps ([F.TM_OVR_START, F.TM_OVR_STOP, F.TM_OVR_CAP, F.TM_OVR_CLR].map Fld.id) s.w x))
  ∧ (∀ (s : State) (t now ch : Nat) (fall : Bool) (w x : World), t < 32 → s.w.on 17 = true → w = s.w.upTo now →
    (exec (.timerStart t none) s = .next (s.withW (s.w.sf F.TM_CTL_RUN t 1)))
    ∧ (exec (.timerStop t none) s = .next (s.withW (s.w.sf F.TM_CTL_RUN t 0)))
    ∧ (∃ v : World, exec (.timerClr t none) s = .next (s.withW v) ∧ (v.timer t).cnt = 0 ∧ (v.timer t).acc = 0
      ∧ Keeps [F.TM_STAT_ARMED.id, F.TM_STAT_CMPHIT.id] s.w v)
    ∧ (w.tmSel tmInStart t ch fall = true → w.inputFree t now → x = w.inputTaken t now →
      (x.actedWith (32 + t) now = false → exec (.timerStart t (some now) ch fall) s = .next (s.withW (x.sf F.TM_CTL_RUN t 1)))
      ∧ (x.actedWith (32 + t) now = true → exec (.timerStart t (some now) ch fall) s = .next (s.withW x)))
    ∧ (w.tmSel tmInStart t ch fall = true → ¬ w.inputFree t now →
      exec (.timerStart t (some now) ch fall) s = .next (s.withW (w.incSat F.TM_OVR_START t)))
    ∧ (w.tmSel tmInStart t ch fall = false → exec (.timerStart t (some now) ch fall) s = .next (s.withW w))
    ∧ (w.tmSel tmInStop t ch fall = true → w.inputFree (32 + t) now → x = w.inputTaken (32 + t) now →
      exec (.timerStop t (some now) ch fall) s = .next (s.withW (x.sf F.TM_CTL_RUN t 0)))
    ∧ (w.tmSel tmInClr t ch fall = true → w.inputFree (96 + t) now → x = w.inputTaken (96 + t) now →
      ∃ v : World, exec (.timerClr t (some now) ch fall) s = .next (s.withW v) ∧ (v.timer t).cnt = 0
        ∧ (v.timer t).before = (w.timer t).cnt)
    ∧ (w.tmSel tmInCap t ch fall = true → w.inputFree (64 + t) now → x = w.inputTaken (64 + t) now →
      ∃ v : World, exec (.timerCap t now ch fall) s = .next (s.withW v)
        ∧ (v.timer t).cap = (if w.fb F.TM_CFG_CAPTB t then w.tb % 2 ^ 48
            else if w.actedWith (96 + t) now then (w.timer t).before else (w.timer t).cnt)
        ∧ v.f F.TM_STAT_CAPNEW t = 1 ∧ (w.fb F.TM_STAT_CAPNEW t = true → v.f F.TM_STAT_CAPOVR t = 1)
        ∧ Keeps [F.TM_STAT_CAPNEW.id, F.TM_STAT_CAPOVR.id] x v))

/-- The Time Base under PTM: a dialogue is asked for while the link is ready and counts as failed otherwise, as does one without a result (R382);
a result shows its offset, and one beyond FARLIM sets TB_ERR.FAR and moves neither the rate nor the frequency (R382); a load that would go back
sets TB_ERR.BACK, one with a forecast in flight sets TB_ERR.BUSY, and any other sets the Time Base (R383). Writes of the event fabric: a channel
takes a listed source, is refused an unlisted one with EF_ERR.BADVAL, and is refused one that closes a loop of LUT cells with EF_ERR.LOOP and its
own number, its source unchanged (R385, R389); a cell's write is refused in the same way and acts otherwise (R389); a flip-flop's write presets Q
from INIT (R390); a watch's count restarts at a rise of EN (R391); a software event pulses, and each channel of it to the interrupt controller is an edge there (R386, R392). What it rests on that is the model's choice and
no rule's word stands in log entries 29 and 62. Rows it completes: tbLoad, ptmRequest, ptmResult, efChWrite, efLutbWrite, efFfcfgWrite,
watchEvent, efWcfgWrite, swEvent. -/
def Obligations.TimeBaseAndFabricTakeEffect : Prop :=
  ((∀ s : State, s.w.f F.TB_SYNC_SRC 0 = 1 → s.w.follows = false →
    (s.w.past .ptm (1000 * s.w.f F.HI_PTMCFG_INTERVAL 0) = true →
      (s.w.linkReady = true → s.w.pcie.ptm = true → exec .ptmRequest s = .next (s.withW ((s.w.start .ptm).emit .ptm)))
      ∧ (s.w.linkReady = false ∨ s.w.pcie.ptm = false → exec .ptmRequest s = .next (s.withW ((s.w.start .ptm).sf F.TB_ERR_PTMFAIL 0 1))))
    ∧ (s.w.past .ptm (1000 * s.w.f F.HI_PTMCFG_INTERVAL 0) = false → exec .ptmRequest s = .next s)
    ∧ (s.w.on 17 = true → exec (.ptmResult none) s = .next (s.withW (s.w.sf F.TB_ERR_PTMFAIL 0 1))
      ∧ ∀ d : Int, ∃ w : World, exec (.ptmResult (some d)) s = .next (s.withW w)
        ∧ w.f F.TB_OFS_OFS 0 = unI 32 (satS 32 d)
        ∧ (s.w.f F.TB_SYNC_FARLIM 0 * 128000 < (128 * d).natAbs → w.f F.TB_ERR_FAR 0 = 1 ∧ w.srv.freq = s.w.srv.freq
          ∧ w.f F.TB_RATENOW_RATE 0 = s.w.f F.TB_RATENOW_RATE 0)))
  ∧ (∀ (s : State) (v : Nat), s.w.on 17 = true → v = s.w.f F.TB_LOAD_LO_L_LO 0 + 2 ^ 32 * s.w.f F.TB_LOAD_HI_L_HI 0 →
    (v < s.w.tb → exec .tbLoad s = .next (s.withW (s.w.sf F.TB_ERR_BACK 0 1)))
    ∧ (s.w.tb ≤ v → (∃ r < s.w.nRails, s.w.inFlight r ≠ []) → exec .tbLoad s = .next (s.withW (s.w.sf F.TB_ERR_BUSY 0 1)))
    ∧ (s.w.tb ≤ v → (∀ r < s.w.nRails, s.w.inFlight r = []) → ∃ w : World, exec .tbLoad s = .next (s.withW w) ∧ w.tb = v % 2 ^ 64
      ∧ Keeps gridIds s.w w)))
  ∧ ((∀ (s : State) (c src : Nat), c < 256 → src < 512 →
    (srcListed src = false → exec (.efChWrite c src) s = .next (s.withW (s.w.sf F.EF_ERR_BADVAL 0 1)))
    ∧ (srcListed src = true → within 0x148 0x177 src = true → (s.w.sf F.EF_CH_SRC c src).lutLoop (src - 0x148) = true →
      exec (.efChWrite c src) s = .next (s.withW ((s.w.sf F.EF_ERR_LOOP 0 1).sf F.EF_ERR_LOOPCH 0 c)))
    ∧ (srcListed src = true → within 0x148 0x177 src = false ∨ (s.w.sf F.EF_CH_SRC c src).lutLoop (src - 0x148) = false →
      exec (.efChWrite c src) s = .next (s.withW (s.w.sf F.EF_CH_SRC c src))))
  ∧ (∀ (s : State) (l v : Nat) (w : World), l < 48 → w = s.w.putRW R.EF_LUTB l v →
    (w.lutLoop l = true → exec (.efLutbWrite l v) s = .next (s.withW ((s.w.sf F.EF_ERR_LOOP 0 1).sf F.EF_ERR_LOOPCH 0 (w.loopCh l))))
    ∧ (w.lutLoop l = false → exec (.efLutbWrite l v) s = .next (s.withW w)))
  ∧ (∀ (s : State) (f v : Nat), f < 16 → ∃ w : World, exec (.efFfcfgWrite f v) s = .next (s.withW w)
      ∧ w.f F.EF_FFCFG_Q f = bitsOf v 5 1 ∧ w.f F.EF_FFCFG_EN f = bitsOf v 0 4)
  ∧ (∀ (s : State) (x v : Nat), x < 32 → ∃ w : World, exec (.efWcfgWrite x v) s = .next (s.withW w)
      ∧ w.f F.EF_WCFG_COUNT x = (if s.w.f F.EF_WCFG_EN x = 0 ∧ bitOf v 8 = true then 0 else s.w.f F.EF_WCFG_COUNT x))
  ∧ (∀ (s : State) (x : Nat), x < 32 → ∃ v : World, exec (.swEvent x) s = .next (s.withW v) ∧ v.out = s.w.out ++ [.pulse (0x198 + x)]
      ∧ v.regs = s.w.regs
      ∧ ∀ c < 224, s.w.on 12 = true → s.w.f F.EF_CH_SRC c = 0x198 + x → 0x100 + c ∈ v.irqEdge)
  ∧ (∀ (s : State) (x ch : Nat) (fall : Bool), x < 32 →
      (s.w.fb F.EF_WCFG_EN x = true → s.w.f F.EF_WCFG_CH x = ch → s.w.fb F.EF_WCFG_FALL x = fall →
        exec (.watchEvent x ch fall) s = .next (s.withW ((s.w.inc F.EF_WCFG_COUNT x).orBit F.EF_WFLAG_FLAG 0 x)))
      ∧ (s.w.f F.EF_WCFG_CH x ≠ ch ∨ s.w.fb F.EF_WCFG_FALL x ≠ fall → exec (.watchEvent x ch fall) s = .next s)))

/-- An enabled input of a flip-flop acts after its 2 ns holdoff: CLK takes D or toggles, SET sets, CLR clears, CLR wins over SET and
SET over CLK in one cycle, and an event inside the holdoff only counts in OVR (R387, R390). A glitch filter waits N for a level that differs from its output and forgets it when the level comes back; a
stretch sets its output for N; a delay holds up to four events; a counter pulses at the N-th; what is due expires in order (R391). What it rests
on that is the model's choice and no rule's word stands in log entry 36. Rows it completes: ffClk, ffSet, ffClr, filterEvent, filterExpiry. -/
def Obligations.FabricBlocksTakeEffect : Prop :=
  (∀ (s : State) (f t ch : Nat) (fall : Bool) (w x : World), f < 16 → w = s.w.upTo t →
    ((w.f F.EF_FFCFG_EN f).testBit 1 = true → w.f F.EF_FF_CLK f = ch → w.fb F.EF_FFCFG_CLKFALL f = fall → w.inputFree (272 + f) t →
        x = w.inputTaken (272 + f) t →
      (x.actedWith (288 + f) t = false → x.actedWith (304 + f) t = false → exec (.ffClk f t ch fall) s
        = .next (s.withW (x.sf F.EF_FFCFG_Q f (if x.fb F.EF_FFCFG_T f then 1 - x.f F.EF_FFCFG_Q f else b2n (x.ffD f)))))
      ∧ (x.actedWith (288 + f) t = true ∨ x.actedWith (304 + f) t = true → exec (.ffClk f t ch fall) s = .next (s.withW x)))
    ∧ ((w.f F.EF_FFCFG_EN f).testBit 2 = true → w.f F.EF_FF_SET f = ch → w.inputFree (288 + f) t → x = w.inputTaken (288 + f) t →
      (x.actedWith (304 + f) t = false → exec (.ffSet f t ch) s = .next (s.withW (x.sf F.EF_FFCFG_Q f 1)))
      ∧ (x.actedWith (304 + f) t = true → exec (.ffSet f t ch) s = .next (s.withW x)))
    ∧ ((w.f F.EF_FFCFG_EN f).testBit 3 = true → w.f F.EF_FF_CLR f = ch → w.inputFree (304 + f) t → x = w.inputTaken (304 + f) t →
      exec (.ffClr f t ch) s = .next (s.withW (x.sf F.EF_FFCFG_Q f 0)))
    ∧ ((w.f F.EF_FFCFG_EN f).testBit 2 = true → w.f F.EF_FF_SET f = ch → ¬ w.inputFree (288 + f) t →
      exec (.ffSet f t ch) s = .next (s.withW (w.incSat F.EF_FFCFG_OVR f)))
    ∧ (w.f F.EF_FF_SET f ≠ ch → exec (.ffSet f t ch) s = .next (s.withW w)))
  ∧ (∀ (s : State) (f t ch : Nat) (rising : Bool) (w : World), f < 16 → w = s.w.upTo t → w.fb F.EF_FLTA_EN f = true → w.f F.EF_FLTA_IN f = ch →
    (w.f F.EF_FLTA_MODE f = 0 → exec (.filterEvent f rising t ch) s = .next (s.withW
      (w.setFilter f { w.filter f with due := if rising = w.fb F.EF_FLTB_OUT f then [] else [t + w.fltN f] })))
    ∧ (w.f F.EF_FLTA_MODE f ≠ 0 → rising = w.fb F.EF_FLTA_FALL f → exec (.filterEvent f rising t ch) s = .next (s.withW w))
    ∧ (∀ x : World, w.f F.EF_FLTA_MODE f ≠ 0 → rising ≠ w.fb F.EF_FLTA_FALL f → w.inputFree (512 + f) t → x = w.inputTaken (512 + f) t →
      (w.f F.EF_FLTA_MODE f = 1 → exec (.filterEvent f rising t ch) s
        = .next (s.withW ((x.setFilter f { w.filter f with due := [t + 256 + x.fltN f] }).sf F.EF_FLTB_OUT f 1)))
      ∧ (w.f F.EF_FLTA_MODE f = 2 → (w.filter f).due.length < 4 → exec (.filterEvent f rising t ch) s
        = .next (s.withW (x.setFilter f { w.filter f with due := (w.filter f).due ++ [t + 256 + x.fltN f] })))
      ∧ (w.f F.EF_FLTA_MODE f = 3 → x.f F.EF_FLTA_N f ≤ (w.filter f).cnt + 1 → exec (.filterEvent f rising t ch) s
        = .next (s.withW ((x.setFilter f { w.filter f with cnt := 0 }).pulse (0x188 + f))))))
  ∧ (∀ (s : State) (f t d : Nat) (l : List Nat) (w : World), f < 16 → w = s.w.upTo t → (w.filter f).due = d :: l →
    (w.clk.tk < d → exec (.filterExpiry f t) s = .next (s.withW w))
    ∧ (d ≤ w.clk.tk → ∃ v : World, exec (.filterExpiry f t) s = .next (s.withW v) ∧ (v.filter f).due = l
      ∧ (w.f F.EF_FLTA_MODE f = 1 → v.f F.EF_FLTB_OUT f = 0) ∧ Keeps [F.EF_FLTB_OUT.id] w v))

/-- The DMA engine's rows with its island on: a waiting NOP completes OK (R406); a waiting MOVE that passes the checks of R407 starts, and one
that fails a check ends with that check's status; the read engine issues the next beat of a started descriptor, from memory or as a host read
(R404, R412), and serves the user whose turn it is in the round robin of the highest class with work, as the write engine does (R405); its answer delivers the beat's elements, or fails the descriptor with the error's status (R412); the write engine drains the next
beat: to memory it stores exactly that beat's words, and every byte outside them is unchanged, and to the host it issues the write once the posted
credits above HI_TXRSV allow (R221); user 48 writes the next 64 bytes of a CAIRN_READ, whose last completes it (R238, R491); the oldest descriptor
with everything written is confirmed OK (R413, R414). DMA channels with their island on and not reserved to a trace unit: starting an idle channel
shows BUSY and loads the descriptor that CHPTR points to (R415), starting a busy one counts TRIGOVR, an edge of the trigger's channel starts it
the same way after its holdoff and is counted when it merges (R387, R415, R426), and an abort marks the running descriptor so that it issues no further beat (R415). What it rests on that is the model's choice and
no rule's word stands in log entries 53, 54 and 55. Rows it completes: dmaMove, dmaNop, dmaBeatRead, dmaBeatAnswer, dmaBeatWrite, dmaMoveConfirm,
dmaChannelStart, dmaChannelTrigger, dmaChannelAbort. -/
def Obligations.DmaTakesEffect : Prop :=
  ((∀ (s : State) (u i : Nat) (j : DJob), s.w.on 15 = true → s.w.dmaWaiting u = some (i, j) → j.at 0 2 = 0 →
    exec (.dmaNop u) s = .next (s.withW (s.w.dmaEnd s.mem u i j 0 0 0)))
  ∧ (∀ (s : State) (u i : Nat) (j : DJob), s.w.on 15 = true → s.w.dmaWaiting u = some (i, j) → j.at 0 2 = 0x0C01 →
    (s.w.moveBad (decide (u < 16)) j = none → exec (.dmaMove u) s = .next (s.withW (s.w.setJob u i { j with started := true })))
    ∧ (∀ st x, s.w.moveBad (decide (u < 16)) j = some (st, x) → exec (.dmaMove u) s = .next (s.withW (s.w.dmaEnd s.mem u i j st x 0))))
  ∧ (∀ (s : State) (u i a n : Nat) (j : DJob) (w : World), u < 49 → w = s.w.dmaServed 0 u →
    s.w.dmaReads u = some (i, j) → (∀ v < 49, (s.w.dmaReads v).isSome = true → s.w.dmaClass u ≤ s.w.dmaClass v →
      s.w.dmaClass v = s.w.dmaClass u ∧ dmaPos (mget 0 s.w.dmaLast (s.w.dmaClass u)) u ≤ dmaPos (mget 0 s.w.dmaLast (s.w.dmaClass u)) v) →
    a = j.srcAddr j.issued → n = beatLen j.sHost a j.slen j.issued →
    (j.sHost = true → exec (.dmaBeatRead u) s
      = .next (s.withW ((World.setJob { w with pcie := { w.pcie with np := w.pcie.np.map (· - 1) } } u i
          { j with issued := j.issued + n, flight := j.flight ++ [⟨j.issued, n, [], 0, s.w.clk.tk⟩] }).emit (.hostRead a (2 * n)))))
    ∧ (j.sHost = false → s.w.memOff a = false → exec (.dmaBeatRead u) s
      = .next (s.withW (w.setJob u i { j with issued := j.issued + n, flight := j.flight ++
          [⟨j.issued, n, (List.range n).map fun k => s.w.memRead s.mem (a + k), 0, s.w.clk.tk⟩] }))))
  ∧ (∀ (s : State) (u v : Nat), u < 49 → v < 49 → s.w.dmaClass u < s.w.dmaClass v →
    ((s.w.dmaReads v).isSome = true → exec (.dmaBeatRead u) s = .next s)
    ∧ (v ≠ 48 → (s.w.dmaWrites v).isSome = true → exec (.dmaBeatWrite u) s = .next s))
  ∧ (∀ (s : State) (u i : Nat) (j : DJob) (b : Beat) (l : List Beat) (data : List Nat), firstIdx (s.w.dmaQ u) (fun j => !j.flight.isEmpty) = some (i, j) →
    j.flight = b :: l → b.err = 0 → j.err = none →
    exec (.dmaBeatAnswer u data 0) s = .next (s.withW (s.w.setJob u i { j with flight := l, got := j.got ++
        (if j.sHost then (List.range b.count).map fun k => data.getD k 0 % 65536 else b.data) }))
    ∧ (∀ err, err ≠ 0 → exec (.dmaBeatAnswer u data err) s
        = .next (s.withW ((s.w.aerRead (if j.sHost then err else 0)).setJob u i (DJob.fail { j with flight := l } (dmaErr err) b.first b.count)))))
  ∧ (∀ (s : State) (u i a : Nat) (j : DJob) (l : List Nat) (w : World), u ≠ 48 → s.w.writeTurn u = true → w = s.w.dmaServed 1 u →
    s.w.dmaWrites u = some (i, j) → a = j.dstAddr j.written → l = j.outs (beatLen j.dHost a j.dlen j.written) j.written →
    l ≠ [] ∧ (j.dHost = true → s.w.traceReady (2 * l.length) = true ∧ exec (.dmaBeatWrite u) s
      = .next (s.withW (((w.spend [2 * l.length]).setJob u i { j with written := j.written + l.length }).emit (.hostWrite a (l.flatMap (leBytes 2))))))
    ∧ (j.dHost = false → s.w.memOff a = false → s.w.busyUnit a = none →
      ∃ m : Mem, exec (.dmaBeatWrite u) s = .next { s with mem := m, w := w.setJob u i { j with written := j.written + l.length } }
        ∧ m = s.w.memWrites s.mem a l
        ∧ ∀ y, (∀ k < l.length, y ≠ 2 * s.w.memAddr (a + k) ∧ y ≠ 2 * s.w.memAddr (a + k) + 1) → Mem.get m y = Mem.get s.mem y))
  ∧ (∀ (s : State) (j : CrnRead) (l : List CrnRead) (v : World), s.w.crnRd = j :: l → s.w.writeTurn 48 = true →
    v = ((s.w.dmaServed 1 48).spend [64]).emit (.hostWrite (j.addr + j.pos)
      (Mem.getBytes s.mem (0x06000000 + 256 * ((j.first + j.pos / 256) % 8192) + j.pos % 256) 64)) →
    (j.pos + 64 < 256 * j.count → exec (.dmaBeatWrite 48) s = .next (s.withW { v with crnRd := { j with pos := j.pos + 64 } :: l }))
    ∧ (256 * j.count ≤ j.pos + 64 → exec (.dmaBeatWrite 48) s
      = .next (s.withW (World.completeWaits { v with crnRd := l } (fun x => x.on == .cairn && x.cmd == j.cmd) stOk 0 j.count))))
  ∧ (∀ (s : State) (u : Nat) (j : DJob) (l : List DJob), s.w.dmaQ u = j :: l → j.flight = [] → j.abort = none → j.err = none → j.started = true →
    j.written = j.total → j.count = 0 → exec (.dmaMoveConfirm u) s = .next (s.withW (s.w.dmaEnd s.mem u 0 j 0 0 j.total))))
  ∧ (∀ (s : State) (c t ch : Nat) (fall : Bool) (w x : World), s.w.on 15 = true → s.w.chReserved c = false → w = s.w.upTo t →
    (s.w.f F.DMA_CHSTAT_BUSY c = 0 →
      exec (.dmaChannelStart c) s = .next (s.withW ((s.w.sf F.DMA_CHSTAT_BUSY c 1).chLoad s.mem c (s.w.f F.DMA_CHPTR_ADDR c / 32 * 32))))
    ∧ (s.w.f F.DMA_CHSTAT_BUSY c ≠ 0 → exec (.dmaChannelStart c) s = .next (s.withW (s.w.incSat F.DMA_CHSTAT_TRIGOVR c)))
    ∧ (w.fb F.DMA_CHCTL_TRIGEN c = true → w.f F.DMA_CHCTL_TRIGCH c = ch → w.fb F.DMA_CHCTL_TRIGFALL c = fall →
      (w.inputFree (640 + c) t → x = w.inputTaken (640 + c) t →
        (s.w.f F.DMA_CHSTAT_BUSY c = 0 → exec (.dmaChannelTrigger c t ch fall) s
          = .next (s.withW ((x.sf F.DMA_CHSTAT_BUSY c 1).chLoad s.mem c (s.w.f F.DMA_CHPTR_ADDR c / 32 * 32))))
        ∧ (s.w.f F.DMA_CHSTAT_BUSY c ≠ 0 → exec (.dmaChannelTrigger c t ch fall) s = .next (s.withW (x.incSat F.DMA_CHSTAT_TRIGOVR c))))
      ∧ (¬ w.inputFree (640 + c) t → exec (.dmaChannelTrigger c t ch fall) s = .next (s.withW (w.incSat F.DMA_CHSTAT_TRIGOVR c))))
    ∧ (w.fb F.DMA_CHCTL_TRIGEN c = false ∨ w.f F.DMA_CHCTL_TRIGCH c ≠ ch ∨ w.fb F.DMA_CHCTL_TRIGFALL c ≠ fall →
      exec (.dmaChannelTrigger c t ch fall) s = .next (s.withW w))
    ∧ (∀ j l, s.w.dmaQ (16 + c) = j :: l →
      exec (.dmaChannelAbort c) s = .next (s.withW ((s.w.setJob (16 + c) 0 { j with abort := some 0 }).dmaConfirm s.mem (16 + c)))
      ∧ ∀ n, (DJob.mayIssue { j with abort := some 0 } n) = false))

/-- Deinterleaving and transposing move every element once: under parameters that pass the checks of R407, the input element that each output
element takes lies in the transfer, and no two output elements take the same one (R411). -/
def Obligations.ReshuffleIsAPermutation : Prop :=  ∀ (j : DJob), j.shuf < 3 → j.shargBad = false → ∀ k < j.total, j.inputOf k < j.total ∧ ∀ k' < j.total, j.inputOf k = j.inputOf k' → k = k'

/-- Trace units with their island on: an arm that R421 and R428 do not refuse returns SEQ and DROPPED to 0 and arms the unit, or starts its
stream; a refused one shows its error flags, and one of a unit that runs shows STATE (R422); a trigger of an ARMED unit, by TR_CTL or by
an edge of the trigger's channel after its holdoff, makes it TRIGGERED and keeps its time, and of one that captured already counts TRIGOVR (R422,
R423); a STOP in the trigger's cycle wins over it (R423); a full record of an ARMED unit's stream stores its 64 words at slot
SEQ of the region, advances SEQ, and leaves every other byte of memory alone (R420, R424); a stop of a running unit with no partly filled record
leaves it DONE and STOPPED (R422, R424); a release of a DONE unit frees it (R422); TR_RDSEQ takes only a value between its own and SEQ (R425). A
BAR2 write inside the trace memory, its island on and no wipe running, stores a byte that lies in no capturing unit's region and no powered-down
bank, and leaves every other byte alone; a byte of a capturing unit's region is dropped and shows BUSYWR; with the island off or a wipe running
nothing is stored and HI_ERR.ISLAND_OFF is raised (R20, R286, R427). What it rests on that is the model's choice and no rule's word stands in log
entries 17 and 56. Rows it completes: traceArm, traceTrigger, traceStop, traceRelease, traceRecordWrite, trRdseqWrite, bar2Write. -/
def Obligations.TraceTakesEffect : Prop :=
  (∀ (s : State) (u : Nat), s.w.on 15 = true → u < 4 →
    (s.w.trRuns u = false → s.w.armBad u = [] → ∃ v : World, exec (.traceArm u) s = .next (s.withW v)
      ∧ v.f F.TR_STAT_STATE u = (if s.w.f F.TR_CFG_MODE u ≠ 0 then 4 else 1) ∧ v.f F.TR_SEQ_SEQ u = 0 ∧ v.f F.TR_DROP_DROPPED u = 0
      ∧ Keeps [F.TR_STAT_STATE.id, F.TR_SEQ_SEQ.id, F.TR_DROP_DROPPED.id, F.TR_TRIGSEQ_SEQ.id, F.TR_FIRSTSEQ_SEQ.id, F.TR_TRIGTB_LO_T_LO.id,
          F.TR_TRIGTB_HI_T_HI.id, F.TR_STAT_SHORTPRE.id, F.TR_STAT_STOPPED.id, F.TR_RDSEQ_SEQ.id] s.w v)
    ∧ (s.w.trRuns u = false → s.w.armBad u ≠ [] →
        exec (.traceArm u) s = .next (s.withW ((s.w.armBad u).foldl (fun w F => w.sf F u 1) s.w)))
    ∧ (s.w.trRuns u = true → exec (.traceArm u) s = .next (s.withW (s.w.sf F.TR_ERR_STATE u 1)))
    ∧ (∀ (t ch : Nat) (fall : Bool) (w x : World), w = s.w.upTo t → w.fb F.TR_CFG_TRIGEN u = true → w.f F.TR_CFG_TRIGCH u = ch →
        w.fb F.TR_CFG_TRIGFALL u = fall → w.trState u = 1 → w.inputFree (704 + u) t → x = w.inputTaken (704 + u) t →
        exec (.traceTrigger u true t ch fall) s
          = .next (s.withW (((x.sf F.TR_STAT_STATE u 2).sf F.TR_TRIGTB_LO_T_LO u x.tb).sf F.TR_TRIGTB_HI_T_HI u (x.tb / 2 ^ 32))))
    ∧ (∀ (t : Nat) (w : World), w = s.w.upTo t → w.trState u = 1 → exec (.traceTrigger u false t) s
        = .next (s.withW (((w.sf F.TR_STAT_STATE u 2).sf F.TR_TRIGTB_LO_T_LO u w.tb).sf F.TR_TRIGTB_HI_T_HI u (w.tb / 2 ^ 32))))
    ∧ (∀ (t : Nat) (w : World), w = s.w.upTo t → 2 ≤ w.trState u → exec (.traceTrigger u false t) s = .next (s.withW (w.incSat F.TR_STAT_TRIGOVR u)))
    ∧ (∀ (r : TrRec) (src q size : Nat), r.k < 8 → s.w.trState u = 1 → s.w.f F.TR_SRC_EN (8 * u + r.k) ≠ 0 → src = s.w.f F.TR_SRC_SRC (8 * u + r.k) →
        (s.w.trc_ u).drops = [] → q = s.w.f F.TR_SEQ_SEQ u → size = max 1 (s.w.trSize u) →
        ∃ m : Mem, exec (.traceRecordWrite u r) s = .next { s with mem := m, w := s.w.sf F.TR_SEQ_SEQ u (q + 1) }
          ∧ m = s.w.memWrites s.mem (trBase (s.w.f F.TR_CFG_BANK0 u) + q % size * 64) (trWords src (4 * b2n r.clip + 8 * b2n (r.slotMask != 0))
              (min 56 r.samples.length) q r.t 0 (r.slotMask % 256) (r.samples.map (· % 65536)))
          ∧ ∀ y, (∀ k < 64, y ≠ 2 * s.w.memAddr (trBase (s.w.f F.TR_CFG_BANK0 u) + q % size * 64 + k)
              ∧ y ≠ 2 * s.w.memAddr (trBase (s.w.f F.TR_CFG_BANK0 u) + q % size * 64 + k) + 1) → Mem.get m y = Mem.get s.mem y)
    ∧ (s.w.trState u = 2 → (s.w.trc_ u).trigIdx = none → s.w.tb = s.w.f F.TR_TRIGTB_LO_T_LO u + 2 ^ 32 * s.w.f F.TR_TRIGTB_HI_T_HI u →
        ∃ v : World, exec (.traceStop u []) s = .next (s.withW v) ∧ v.trState u = 3 ∧ v.f F.TR_STAT_STOPPED u = 1
          ∧ v.f F.TR_TRIGTB_LO_T_LO u = 0 ∧ v.f F.TR_TRIGTB_HI_T_HI u = 0)
    ∧ (s.w.trRuns u = true → s.w.trUntrigger u = s.w → exec (.traceStop u []) s
        = .next (s.withW ((s.w.sf F.TR_STAT_STOPPED u 1).trDone u (s.w.f F.TR_SEQ_SEQ u - min (s.w.f F.TR_SEQ_SEQ u) (s.w.trSize u)))))
    ∧ (s.w.trState u = 3 → exec (.traceRelease u) s
        = .next { s with mem := (s.w.sf F.TR_STAT_STATE u 0).dropBanks s.mem, w := s.w.sf F.TR_STAT_STATE u 0 })
    ∧ (∀ v, v < 2 ^ 32 → (s.w.f F.TR_RDSEQ_SEQ u ≤ v → v ≤ s.w.f F.TR_SEQ_SEQ u → exec (.trRdseqWrite u v) s = .next (s.withW (s.w.sf F.TR_RDSEQ_SEQ u v)))
        ∧ (v < s.w.f F.TR_RDSEQ_SEQ u ∨ s.w.f F.TR_SEQ_SEQ u < v → exec (.trRdseqWrite u v) s = .next (s.withW (s.w.sf F.TR_ERR_BADVAL u 1)))))
  ∧ (∀ (s : State) (off b : Nat), off < 0x1800000 →
    (s.w.on 15 = true → s.w.wiping.testBit 9 = false → s.w.busyUnit (0x02000000 + off / 2) = none → s.w.deadBank (0x02000000 + off / 2) = false →
      ∃ m : Mem, exec (.bar2Write off [b]) s = .next { s with mem := m, w := s.w.touch 15 } ∧ Mem.get m (0x04000000 + off) = BitVec.ofNat 8 b
        ∧ ∀ y, y ≠ 0x04000000 + off → Mem.get m y = Mem.get s.mem y)
    ∧ (∀ u, s.w.on 15 = true → s.w.wiping.testBit 9 = false → s.w.busyUnit (0x02000000 + off / 2) = some u →
      exec (.bar2Write off [b]) s = .next (s.withW ((s.w.touch 15).sf F.TR_ERR_BUSYWR u 1)))
    ∧ (∀ bytes, (s.w.on 15 = false ∨ s.w.wiping.testBit 9 = true) →
      exec (.bar2Write off bytes) s = .next (s.withW (s.w.hiErr F.HI_ERR_ISLAND_OFF (some (1, off))))))

/-- A pump channel with its island on: a DIRECT carrier midpoint takes the committed duties once, midpoints come a carrier period apart, and a
disabled channel takes none (R433); the two commands of a leg are never active together, neither is while the leg is OFF, and the balls carry
them with their polarity or are in high impedance (R433, R436, R438); a
write of PD_DUTYB commits the three duties (R433); the amplitude follows its target at once with SLEW = 0, and otherwise never passes it (R435); a
gate fault sets FLT and FLTHOLD, so that every leg is off, and its release acts only with the pin high (R436); the end of a boost's hold shows the
level in force (R446). The encoder of an enabled master channel, its island on: a request at a multiple of the period that comes before the end of
the gap waits and counts in LATE, and one after it, or the waiting one at its end, starts a frame and notes TB (R442); a frame whose ACK or end bit fails sets PD_ERR.ACK, moves neither position nor speed, and at LOSTN frames sets
ENCLOST (R441); a valid frame sets position, status and VALID, clears ENCLOST and counts (R441). What it rests on that is the model's choice and
no rule's word stands in log entries 37 and 38. Rows it completes: pdCarrierMidpoint, pdDutyCommit, ampSlewStep, pdGateFault, pdFaultRelease,
encoderRequest, encoderFrame, boostHoldEnd. -/
def Obligations.PumpAndEncoderTakeEffect : Prop :=
  (∀ (s : State) (k t v : Nat) (w : World), k < 4 → s.w.on 17 = true → w = s.w.upTo t →
    (w.fb F.PD_CFG_EN k = false → exec (.pdCarrierMidpoint k t) s = .next (s.withW w))
    ∧ (w.clk.tk < (w.pump k).midAt → exec (.pdCarrierMidpoint k t) s = .next (s.withW w))
    ∧ (∀ d, w.fb F.PD_CFG_EN k = true → w.f F.PD_CFG_MODE k = 1 → (w.pump k).midAt ≤ w.clk.tk → (w.pump k).commit = some d →
      exec (.pdCarrierMidpoint k t) s = .next (s.withW (w.setPump k
        { w.pump k with duty := d, commit := none, midAt := w.clk.tk + 1280 * w.f F.PD_PER_PER k })))
    ∧ (∀ leg x : Nat, ¬ ((w.pdCmd k leg x).1 = true ∧ (w.pdCmd k leg x).2 = true)
      ∧ (w.legsOff k = true → w.pdCmd k leg x = (false, false))
      ∧ (w.pdBalls k leg x ≠ none → w.pdBalls k leg x
          = some ((w.pdCmd k leg x).1 == w.fb F.PD_CFG_POLH k, (w.pdCmd k leg x).2 == w.fb F.PD_CFG_POLL k)))
    ∧ (∃ x : World, exec (.pdDutyCommit k v) s = .next (s.withW x)
      ∧ (x.pump k).commit = some [s.w.f F.PD_DUTYA_DA k, s.w.f F.PD_DUTYA_DB k, v % 2 ^ 16] ∧ Keeps [F.PD_DUTYB_DC.id] s.w x)
    ∧ (s.w.past (.amp k) 100000 = false → exec (.ampSlewStep k) s = .next s)
    ∧ (s.w.past (.amp k) 100000 = true → s.w.f F.PD_MOTOR_SLEW k = 0 → ∃ x : World, exec (.ampSlewStep k) s = .next (s.withW x)
      ∧ x.f F.PD_AMPNOW_AMP k = s.w.ampTarget k % 2 ^ 16 ∧ Keeps [F.PD_AMPNOW_AMP.id] s.w x)
    ∧ (s.w.past (.amp k) 100000 = true → s.w.f F.PD_MOTOR_SLEW k ≠ 0 → s.w.ampTarget k < 2 ^ 16 → s.w.f F.PD_AMPNOW_AMP k < 2 ^ 16 →
      ∃ x : World, exec (.ampSlewStep k) s = .next (s.withW x)
      ∧ (s.w.f F.PD_AMPNOW_AMP k ≤ s.w.ampTarget k → s.w.f F.PD_AMPNOW_AMP k ≤ x.f F.PD_AMPNOW_AMP k ∧ x.f F.PD_AMPNOW_AMP k ≤ s.w.ampTarget k)
      ∧ (s.w.ampTarget k ≤ s.w.f F.PD_AMPNOW_AMP k → s.w.ampTarget k ≤ x.f F.PD_AMPNOW_AMP k ∧ x.f F.PD_AMPNOW_AMP k ≤ s.w.f F.PD_AMPNOW_AMP k)
      ∧ Keeps [F.PD_AMPNOW_AMP.id] s.w x)
    ∧ (exec (.boostHoldEnd k t) s = .next (s.withW ((w.showBoost k).ampFollow k)))
    ∧ (∃ x : World, exec (.pdGateFault k) s = .next (s.withW x) ∧ x.f F.PD_ERR_FLT k = 1 ∧ x.f F.PD_STAT_FLTHOLD k = 1
      ∧ x.legsOff k = true ∧ Keeps [F.PD_ERR_FLT.id, F.PD_STAT_FLTHOLD.id] s.w x)
    ∧ (∃ x : World, exec (.pdFaultRelease k false) s = .next (s.withW x) ∧ x.regs = s.w.regs)
    ∧ (∃ x : World, exec (.pdFaultRelease k true) s = .next (s.withW x) ∧ x.regs = ((s.w.sf F.PD_ERR_FLT k 0).sf F.PD_STAT_FLTHOLD k 0).regs))
  ∧ ((∀ (s : State) (k t : Nat) (w : World), k < 4 → s.w.on 17 = true → w = s.w.upTo t → w.fb F.PD_CFG_EN k = true → w.fb F.PD_CFG_SRC k = false →
    w.padsOwned = true →
    (w.clk.tk < (w.pump k).freeAt → w.encDue k = true → exec (.encoderRequest k t) s
      = .next (s.withW ((w.setPump k { w.pump k with wait := true }).incSat F.PD_STAT_LATE k)))
    ∧ (w.encDue k = false → (w.pump k).wait = false → exec (.encoderRequest k t) s = .next (s.withW w))
    ∧ ((w.pump k).freeAt ≤ w.clk.tk → w.encDue k = true ∨ (w.pump k).wait = true → ∃ x : World, exec (.encoderRequest k t) s = .next (s.withW x)
      ∧ (x.pump k).busy = true ∧ (x.pump k).wait = false ∧ (x.pump k).postb = w.tb ∧ x.regs = w.regs))
  ∧ (∀ (s : State) (k t : Nat) (bits : List Bool) (ack endOk : Bool) (w : World), k < 4 → s.w.on 17 = true → w = s.w.upTo t →
    (w.pump k).busy = true → (w.pump k).freeAt ≤ w.clk.tk → w.encTakers 3 k = [] →
    ((ack = false ∨ endOk = false) → ∃ x : World, exec (.encoderFrame k bits ack endOk t) s = .next (s.withW x)
      ∧ x.f F.PD_ERR_ACK k = 1 ∧ Keeps [F.PD_ERR_ACK.id, F.PD_STAT_ENCLOST.id] w x
      ∧ (w.f F.PD_ENCCFG_LOSTN k ≤ (w.pump k).bad + 1 → x.f F.PD_STAT_ENCLOST k = 1))
    ∧ (∀ pos, pos = msbVal (bits.take 24) → ack = true → endOk = true → w.f F.PD_ENCCFG_GRAY k = 0 → w.encBad k bits true true pos = none →
      (w.pump k).prev = none → ∃ x : World, exec (.encoderFrame k bits ack endOk t) s = .next (s.withW x)
        ∧ x.f F.PD_POS_POS k = pos % 2 ^ 24 ∧ x.f F.PD_POS_VALID k = 1 ∧ x.f F.PD_STAT_ENCLOST k = 0
        ∧ x.f F.PD_STAT_FRAMES k = (w.f F.PD_STAT_FRAMES k + 1) % 2 ^ F.PD_STAT_FRAMES.wd)))

/-- Every PMBus read is answered from the page's copy, the page register or the constants while the part answers on the bus, changes nothing else,
and is not acknowledged otherwise (R449 to R451). A PMBus write that the part answers is acknowledged; one whose PEC fails is discarded with
STATUS_CML bit 5, one that WRITE_PROTECT or WREN forbids sets bit 6, an unlisted code sets bit 7 (R449 to R451); an allowed one selects the page,
sets WRITE_PROTECT, clears the pages' status bits, or issues its rail command on every selected page (R448, R451); the alert response gives the
address while the alert line is low; the copy that reads answer from is taken every 100 µs (R450, R452). What it rests on that is the model's
choice and no rule's word stands in log entries 57, 58 and 59. Rows it completes: page, operation, clearFaults, writeProtect, capability,
voutMode, voutCommand, statusByte, statusWord, statusVout, statusIout, statusTemperature, statusCml, readVout, readIout, readTemperature1,
readPout, pmbusRevision, mfrId, mfrModel, invalidCommand, alertResponse, pmbusCopyRefresh. -/
def Obligations.PmbusTakesEffect : Prop :=
  (∀ (s : State) (pec : Bool), ∀ e ∈ [
    (Instr.page none pec, [s.w.pmb.page]), (.operation none pec, [if s.w.pmCopy.en then 0x80 else 0]), (.writeProtect none pec, [s.w.pmb.wp]),
    (.capability, [0xD0]), (.voutMode, [0x13]), (.voutCommand none pec, leBytes 2 s.w.pmCopy.vcmd),
    (.statusByte, [s.w.pmCopy.word % 256]), (.statusWord, leBytes 2 s.w.pmCopy.word), (.statusVout, [s.w.pmCopy.vout]), (.statusIout, [s.w.pmCopy.iout]),
    (.statusTemperature, [s.w.pmCopy.tstat]), (.statusCml, [s.w.pmCopy.cml]), (.readVout, leBytes 2 s.w.pmCopy.v), (.readIout, leBytes 2 s.w.pmCopy.i),
    (.readTemperature1, leBytes 2 s.w.pmCopy.temp), (.readPout, leBytes 2 s.w.pmCopy.p), (.pmbusRevision, [0x44]), (.mfrId, [3, 0x4D, 0x52, 0x44]),
    (.mfrModel, [6, 0x4C, 0x58, 0x31, 0x32] ++ (if s.w.lx1264 then [0x36, 0x34] else [0x38, 0x30]))],
    (s.w.pmOn = true → exec e.1 s = .next (s.withW (s.w.emit (.bus (some e.2)))))
    ∧ (s.w.pmOn = false → exec e.1 s = .next (s.withW (s.w.emit (.bus none)))))
  ∧ (∀ (s : State) (w : World), s.w.pmOn = true → w = s.w.emit (.bus (some [])) →
    (∀ v, ∀ i ∈ [Instr.page (some v) false, .operation (some v) false, .clearFaults false, .writeProtect (some v) false, .voutCommand (some v) false],
      exec i s = .next (s.withW (w.pmCml 5)))
    ∧ (∀ v, w.wpAllows 0x00 = true →
      (v = 0xFF ∨ v < w.nRails → exec (.page (some v) true) s = .next (s.withW { w with pmb := { w.pmb with page := v } }))
      ∧ (v ≠ 0xFF → w.nRails ≤ v → exec (.page (some v) true) s = .next (s.withW (w.pmCml 6))))
    ∧ (∀ v, w.wpAllows 0x01 = false ∨ (w.f F.SI_PMCFG_WREN 0).testBit 0 = false →
      exec (.operation (some v) true) s = .next (s.withW (w.pmCml 6)))
    ∧ (w.wpAllows 0x01 = true → (w.f F.SI_PMCFG_WREN 0).testBit 0 = true →
      exec (.operation (some 0x80) true) s
        = .next (s.withW (w.pmPages.foldl (fun w r => w.busIssue .pmbus (.railEnable (w.targetOf r) 0 0) r) w))
      ∧ exec (.operation (some 0x00) true) s = .next (s.withW (w.pmPages.foldl (fun w r => w.busIssue .pmbus (.railDisable 0) r) w))
      ∧ exec (.operation (some 0x40) true) s = .next (s.withW (w.pmPages.foldl (fun w r => w.busIssue .pmbus (.railDisable 1) r) w)))
    ∧ (w.wpAllows 0x03 = true → (w.f F.SI_PMCFG_WREN 0).testBit 0 = true → w.f F.SI_PMCFG_CLRF 0 = 0 →
      ∃ v : World, exec (.clearFaults true) s = .next (s.withW v) ∧ v.regs = s.w.regs
        ∧ v.pmb = w.pmPages.foldl (fun p r => p.clear r) w.pmb)
    ∧ (∀ v, v ∈ [0x80, 0x40, 0x20, 0x00] → w.wpAllows 0x10 = true →
      exec (.writeProtect (some v) true) s = .next (s.withW { w with pmb := { w.pmb with wp := v } }))
    ∧ (∀ v, w.wpAllows 0x21 = true → (w.f F.SI_PMCFG_WREN 0).testBit 1 = true → exec (.voutCommand (some v) true) s
      = .next (s.withW (w.pmPages.foldl (fun w r => w.busIssue .pmbus (.setTarget (rdiv (v * 125 : Nat) 8).toNat 0) r) w)))
    ∧ (∀ code, code ∉ pmCodes → exec (.invalidCommand code) s = .next (s.withW (w.pmCml 7)))
    ∧ (s.w.alertLow = true → ∃ v : World, exec .alertResponse s = .next (s.withW v)
      ∧ v.out = s.w.out ++ [.bus (some [2 * s.w.f F.SI_PMCFG_ADDR 0])] ∧ v.regs = s.w.regs)
    ∧ (s.w.alertLow = false → exec .alertResponse s = .next (s.withW (s.w.emit (.bus none))))
    ∧ (∀ t u, u = s.w.upTo t → u.past .copy 100000 = true → u.on 18 = true → exec (.pmbusCopyRefresh t) s
      = .next (s.withW ((List.range u.nRails).foldl World.copyPage (((List.range u.nRails).foldl World.meansOf u).start .copy)))))

/-- What AVSBus frames do (R453 to R455). On a port that answers, a frame with a bad CRC gets SlaveAck 0b10 and has no effect, an unmapped address
0b11; a committed Voltage write within SI_AVSLIM issues SET_TARGET with TARGET = V × 128 and gets 0b00, outside it gets 0b11; the reads answer
with the mapped rail's values; a write to the Status register clears the alert. What it rests on that is the model's choice and no rule's word
stands in log entries 59 and 60. Rows it completes: avsVoltageWrite, avsVoltageRead, avsVouttransrateRead, avsCurrentRead, avsTemperatureRead,
avsStatusRead, avsStatusWrite. -/
def Obligations.AvsFramesAreAnswered : Prop :=
  ∀ (s : State) (k a v r : Nat), s.w.avsOn k = true → 
    (∀ i ∈ [Instr.avsVoltageWrite k a v false, .avsVoltageRead k a false, .avsVouttransrateRead k a false, .avsCurrentRead k a false,
        .avsTemperatureRead k a false, .avsStatusRead k a false, .avsStatusWrite k a false],
      exec i s = .next (s.withW (s.w.emit (.avs 2 0))))
    ∧ (a < 0xF → s.w.avsRail k a = none →
      ∀ i ∈ [Instr.avsVoltageWrite k a v true, .avsVoltageRead k a true, .avsVouttransrateRead k a true, .avsCurrentRead k a true,
        .avsTemperatureRead k a true, .avsStatusRead k a true, .avsStatusWrite k a true],
      exec i s = .next (s.withW (s.w.emit (.avs 3 0))))
    ∧ (a < 4 → s.w.avsRail k a = some r →
      (s.w.avsLimOk r v = false → exec (.avsVoltageWrite k a v true) s = .next (s.withW (s.w.emit (.avs 3 0))))
      ∧ (s.w.avsLimOk r v = true → s.w.busFull (.avs k) = true → exec (.avsVoltageWrite k a v true) s = .next (s.withW (s.w.emit (.avs 1 0))))
      ∧ (s.w.avsLimOk r v = true → s.w.busFull (.avs k) = false → exec (.avsVoltageWrite k a v true) s
        = .next (s.withW ((s.w.issue (.avs k) (.setTarget (v * 128) 0) r 0).emit (.avs 0 0))))
      ∧ exec (.avsVoltageRead k a true) s
        = .next (s.withW (s.w.emit (.avs 0 (unI 16 (rdiv ((s.w.rail r).meanV * s.w.f F.RSC_DIVR_RATIO r) (256 * 16384 * 512))))))
      ∧ exec (.avsVouttransrateRead k a true) s = .next (s.withW (s.w.emit
          (.avs 0 (unI 16 (257 * satU 8 (s.w.lf F.LE_RAMP_STEP r * 25 / (8 * s.w.f F.LE_STAT_ROUNDS_NOW r)) : Nat)))))
      ∧ exec (.avsCurrentRead k a true) s = .next (s.withW (s.w.emit (.avs 0 (unI 16 (rdiv ((s.w.rail r).meanI * 100) 1024)))))
      ∧ (∀ x, s.w.railTemp r = some x → exec (.avsTemperatureRead k a true) s = .next (s.withW (s.w.emit (.avs 0 (unI 16 (rdiv (x * 10) 256))))))
      ∧ exec (.avsStatusRead k a true) s = .next (s.withW (s.w.emit (.avs 0 (unI 16
          (2 ^ 15 * b2n ((s.w.f F.SI_AVSSTAT_VDONE k).testBit a) + 2 ^ 14 * b2n ((s.w.f F.SI_AVSSTAT_ALERT k).testBit a) : Nat)))))
      ∧ ∃ u : World, exec (.avsStatusWrite k a true) s = .next (s.withW u) ∧ (u.f F.SI_AVSSTAT_ALERT k).testBit a = false
        ∧ u.out = s.w.out ++ [.avs 0 0] ∧ Keeps [F.SI_AVSSTAT_ALERT.id] s.w u)

/-- What the I3C commands do (R456, R457). An addressed target takes up to 64 bytes of a private write into SI_I3CRX, ends a private read after
TXLEN bytes, answers the reading CCCs, and loses its address on RSTDAA; a target without an address takes one from ENTDAA or SETDASA; ENEC lets a
waiting in-band interrupt out; an address that matches while SID is off is acknowledged and wakes the part. What it rests on that is the model's
choice and no rule's word stands in log entry 61. Rows it completes: privateWrite, privateRead, entdaa, setdasa, rstdaa, getpid, getbcr, getdcr,
getstatus, enec, disec, ibi, i3cAddressMatch. -/
def Obligations.I3cCommandsTakeEffect : Prop :=
  ∀ (s : State),
    (s.w.i3cOn = true →
      (∀ bytes : List Nat, ∃ v : World, exec (.privateWrite bytes) s = .next (s.withW v)
        ∧ v.f F.SI_I3CSTAT_RXLEN 0 = min bytes.length 64 ∧ v.f F.SI_I3CSTAT_RXNEW 0 = 1
        ∧ (∀ i, 4 * i < min bytes.length 64 → v.f F.SI_I3CRX_DATA i = wordAt ((bytes.take 64).map (· % 256)) i % 2 ^ 32)
        ∧ v.out = s.w.out ++ [.bus (some [])] ∧ Keeps [F.SI_I3CRX_DATA.id, F.SI_I3CSTAT_RXLEN.id, F.SI_I3CSTAT_RXNEW.id] s.w v)
      ∧ (∀ n, exec (.privateRead n) s = .next (s.withW (s.w.emit (.bus (some
          ((((List.range 16).flatMap fun i => leBytes 4 (s.w.f F.SI_I3CTX_DATA i))).take (min n (s.w.f F.SI_I3CCTL_TXLEN 0))))))))
      ∧ (∀ e ∈ [(Instr.getpid, i3cPidBytes), (.getbcr, [Config.i3cBcr]), (.getdcr, [Config.i3cDcr]), (.getstatus, [0, b2n s.w.side.ibi])],
          exec e.1 s = .next (s.withW (s.w.emit (.bus (some e.2)))))
      ∧ exec .disec s = .next (s.withW { s.w with side := { s.w.side with i3cEv := false } })
      ∧ (s.w.side.ibi = false → exec .enec s = .next (s.withW { s.w with side := { s.w.side with i3cEv := true } }))
      ∧ (s.w.side.ibi = true → exec .enec s = .next (s.withW (World.emit { s.w with side := { s.w.side with i3cEv := true, ibi := false } }
          (.bus (some [2 * s.w.f F.SI_I3CCFG_DA 0 + 1])))))
      ∧ (s.w.on 18 = true → s.w.side.i3cEv = true → exec .ibi s = .next (s.withW (World.emit { s.w with side := { s.w.side with ibi := false } }
          (.bus (some [2 * s.w.f F.SI_I3CCFG_DA 0 + 1])))))
      ∧ ∃ v : World, exec .rstdaa s = .next (s.withW v) ∧ v.f F.SI_I3CCFG_DA 0 = 0 ∧ Keeps [F.SI_I3CCFG_DA.id] s.w v)
    ∧ (s.w.on 18 = true → s.w.side.i3cEv = false → exec .ibi s = .next (s.withW { s.w with side := { s.w.side with ibi := true } }))
    ∧ (s.w.busOn = true → s.w.fb F.SI_I3CCFG_DA 0 = false → ∀ da < 128, 
      (∃ v : World, exec (.entdaa da) s = .next (s.withW v) ∧ v.f F.SI_I3CCFG_DA 0 = da
        ∧ v.out = s.w.out ++ [.bus (some (i3cPidBytes ++ [Config.i3cBcr, Config.i3cDcr]))] ∧ Keeps [F.SI_I3CCFG_DA.id] s.w v)
      ∧ (∃ v : World, exec (.setdasa da) s = .next (s.withW v) ∧ v.f F.SI_I3CCFG_DA 0 = da ∧ v.out = s.w.out ++ [.bus (some [])]
        ∧ Keeps [F.SI_I3CCFG_DA.id] s.w v))
    ∧ (∀ addr t w, w = s.w.upTo t → 
      exec (.i3cAddressMatch addr false t) s = .next (s.withW w)
      ∧ (s.w.padsOwned = true → addr ≠ 0 → addr = s.w.f F.SI_I3CCFG_WAKEADDR 0 ∨ s.w.on 18 = false ∧ addr = s.w.f F.SI_I3CCFG_DA 0 →
          exec (.i3cAddressMatch addr true t) s
            = .next (s.withW (if s.w.on 18 then (w.emit (.bus (some []))).pulse 0x1BB else ((w.emit (.bus (some []))).pulse 0x1BB).wake 1 0)))
      ∧ (addr ≠ s.w.f F.SI_I3CCFG_WAKEADDR 0 → addr ≠ s.w.f F.SI_I3CCFG_DA 0 → exec (.i3cAddressMatch addr true t) s = .next (s.withW w)))

/-- What the rope and the boundary scan do (R460 to R463, R531, R533). A root enumerates as node 0 and sends count 1; a node takes the count it
receives and forwards the next one, or sets OVER at 16; a second root's ENUM, or none within 100 µs, sets ROOT; a SYNC adds the input cable and
7,680 ticks to ACC; frames from or for the node stop there, others go on, and all of them through the bypass while the node takes no part; loss of
carrier sets LOS. EXTEST, CLAMP and HIGHZ drive only while no rail is enabled and BLPAIR is low, and are BYPASS otherwise; TRST_N low for 100 ns
resets the port, below 50 ns it is ignored. What it rests on that is the model's choice and no rule's word stands in log entries 62 and 69. Rows
it completes: carrierGain, ropeEnumRequest, enum, enumTimeout, ropeSyncSend, sync, ropeFrameForward, ropeLos, bypass, idcode, samplePreload,
extest, clamp, highz, jtagReset. -/
def Obligations.RopeAndBoundaryScanTakeEffect : Prop :=
  ∀ (s : State) (t : Nat) (w : World), w = s.w.upTo t → 
    (s.w.ropeOn = true → s.w.fb F.SI_ROPECFG_ROOT 0 = true → 
      (∃ v : World, exec .ropeEnumRequest s = .next (s.withW v) ∧ v.f F.SI_ROPESTAT_NODE 0 = 0 ∧ v.f F.SI_ROPESTAT_NUMBERED 0 = 1
        ∧ v.out = s.w.out ++ [.rope ⟨1, 0, 0xF, [1]⟩] ∧ Keeps [F.SI_ROPESTAT_NODE.id, F.SI_ROPESTAT_NUMBERED.id] s.w v)
      ∧ (∀ count, s.w.side.enumAt = none → ∃ v : World, exec (.enum count t) s = .next (s.withW v) ∧ v.f F.SI_ROPEERR_ROOT 0 = 1
        ∧ v.out = s.w.out)
      ∧ (∀ t0 acc, exec (.sync t0 acc t) s = .next (s.withW w))
      ∧ (s.w.f F.SI_ROPECFG_SYNCPER 0 ≠ 0 → w.tb % (s.w.f F.SI_ROPECFG_SYNCPER 0 * 1000) = 0 →
          exec (.ropeSyncSend t) s = .next (s.withW (w.emit (.rope ⟨2, 0, 0xF, leBytes 8 w.tb ++ leBytes 4 0⟩)))))
    ∧ (s.w.ropeOn = true → s.w.fb F.SI_ROPECFG_ROOT 0 = false → ∀ count, 
      (count < 16 → ∃ v : World, exec (.enum count t) s = .next (s.withW v) ∧ v.f F.SI_ROPESTAT_NODE 0 = count ∧ v.f F.SI_ROPESTAT_NUMBERED 0 = 1
        ∧ v.out = s.w.out ++ [.rope ⟨1, 0, 0xF, [count + 1]⟩] ∧ Keeps [F.SI_ROPESTAT_NODE.id, F.SI_ROPESTAT_NUMBERED.id] w v)
      ∧ (16 ≤ count → ∃ v : World, exec (.enum count t) s = .next (s.withW v) ∧ v.f F.SI_ROPEERR_OVER 0 = 1 ∧ v.f F.SI_ROPESTAT_NUMBERED 0 = 0
        ∧ v.out = s.w.out ++ [.rope ⟨1, 0, 0xF, [count]⟩] ∧ Keeps [F.SI_ROPEERR_OVER.id, F.SI_ROPESTAT_NUMBERED.id] w v)
      ∧ (s.w.f F.TB_SYNC_SRC 0 ≠ 2 → ∀ t0 acc, exec (.sync t0 acc t) s = .next (s.withW
          ((w.pulse 0x1BE).emit (.rope ⟨2, 0, 0xF, leBytes 8 t0 ++ leBytes 4 (acc + s.w.f F.SI_ROPECAB_CAB 0 + 7680)⟩))))
      ∧ (∃ v : World, exec (.carrierGain t) s = .next (s.withW v) ∧ v.f F.SI_ROPESTAT_CARRIER 0 = 1 ∧ v.side.enumAt = some w.clk.tk
        ∧ v.out = s.w.out ∧ Keeps [F.SI_ROPESTAT_CARRIER.id] w v))
    ∧ (∀ a, s.w.ropeOn = true → s.w.side.enumAt = some a → a + 128 * 100000 ≤ max s.w.clk.tk t → 
      ∃ v : World, exec (.enumTimeout t) s = .next (s.withW v) ∧ v.f F.SI_ROPEERR_ROOT 0 = 1 ∧ v.side.enumAt = none ∧ Keeps [F.SI_ROPEERR_ROOT.id] w v)
    ∧ (∀ x : RopeFrame,
      (s.w.ropeOn = false → ∀ good, exec (.ropeFrameForward x good t) s = .next (s.withW (w.emit (.rope x))))
      ∧ (s.w.ropeOn = true → s.w.fb F.SI_ROPESTAT_NUMBERED 0 = true → exec (.ropeFrameForward x true t) s
        = .next (s.withW (if s.w.f F.SI_ROPESTAT_NODE 0 = x.src ∨ s.w.f F.SI_ROPESTAT_NODE 0 = x.dst then w else w.emit (.rope x)))))
    ∧ (s.w.on 18 = true → ∃ v : World, exec (.ropeLos t) s = .next (s.withW v) ∧ v.f F.SI_ROPESTAT_CARRIER 0 = 0 ∧ v.f F.SI_ROPEERR_LOS 0 = 1
      ∧ Keeps [F.SI_ROPESTAT_CARRIER.id, F.SI_ROPEERR_LOS.id] w v)
    ∧ (∀ balls bits : List Bool,
      exec (.bypass bits) s = .next (s.withW ((s.w.setIr .bypass).emit (.scan (false :: bits).dropLast)))
      ∧ exec .idcode s = .next (s.withW ((s.w.setIr .idcode).emit (.scan ((List.range 32).map fun i => s.w.idcode.testBit i))))
      ∧ exec (.samplePreload balls bits) s = .next (s.withW (World.emit { s.w with jtag := { s.w.jtag with ir := .sample, cells := bits } } (.scan balls)))
      ∧ (s.w.scanFree = true → 
        exec (.extest balls bits) s = .next (s.withW ((World.emit { s.w with jtag := { s.w.jtag with ir := .extest, cells := bits } } (.scan balls)).emit
          (.drive (some bits))))
        ∧ exec (.clamp bits) s = .next (s.withW (((s.w.setIr .clamp).emit (.drive (some s.w.jtag.cells))).emit (.scan (false :: bits).dropLast)))
        ∧ exec (.highz bits) s = .next (s.withW (((s.w.setIr .highz).emit (.drive none)).emit (.scan (false :: bits).dropLast))))
      ∧ (s.w.scanFree = false → ∀ e ∈ [(Instr.extest balls bits, JtagIr.extest), (.clamp bits, .clamp), (.highz bits, .highz)],
        exec e.1 s = .next (s.withW ((s.w.setIr e.2).emit (.scan (false :: bits).dropLast)))))
    ∧ (∀ ns, (ns < 50 → exec (.jtagReset ns) s = .next s) ∧ (100 ≤ ns → exec (.jtagReset ns) s = .next (s.withW (s.w.setIr .idcode)))
      ∧ (50 ≤ ns → ns < 100 → ∃ b : Bool, exec (.jtagReset ns) s
          = .next (s.withW (let v : World := { s.w with free := s.w.free + 1 }; if b then v.setIr .idcode else v))))
end

