-- ==== Sys2Proof/Laws/SMap.lean ====
section
/-! SUPPORT. The laws of the sparse map: a read after a write, and that a write keeps the canonical form. -/

namespace Sys2Proof.Machine

theorem mget_mdel_same {α : Type} (d : α) (m : List (Nat × α)) (x : Nat) : mget d (mdel m x) x = d := by
  induction m with
  | nil => rfl
  | cons e m ih =>
    obtain ⟨k, v⟩ := e
    by_cases h : k = x
    · simp [mdel, h, ih]
    · simp [mdel, h, mget, Ne.symm h, ih]

theorem mget_mdel_ne {α : Type} (d : α) (m : List (Nat × α)) {x y : Nat} (hy : y ≠ x) :
    mget d (mdel m x) y = mget d m y := by
  induction m with
  | nil => rfl
  | cons e m ih =>
    obtain ⟨k, v⟩ := e
    by_cases h : k = x
    · subst h
      simp [mdel, mget, hy, ih]
    · simp [mdel, h, mget, ih]

theorem mget_mins_ne {α : Type} (d : α) (m : List (Nat × α)) {x y : Nat} (v : α) (hy : y ≠ x) :
    mget d (mins m x v) y = mget d m y := by
  induction m with
  | nil => simp [mins, mget, hy]
  | cons e m ih =>
    obtain ⟨k, w⟩ := e
    by_cases h : x < k <;> simp [mins, h, mget, hy, ih]

theorem mget_mins_same {α : Type} (d : α) (m : List (Nat × α)) (x : Nat) (v : α) :
    mget d (mins (mdel m x) x v) x = v := by
  induction m with
  | nil => simp [mdel, mins, mget]
  | cons e m ih =>
    obtain ⟨k, w⟩ := e
    by_cases hk : k = x
    · simp [mdel, hk, ih]
    · by_cases h : x < k <;> simp [mdel, hk, mins, h, mget, Ne.symm hk, ih]

/-- A read after a write to the same key. -/
@[simp] theorem mget_mset_same {α : Type} [DecidableEq α] (d : α) (m : List (Nat × α)) (x : Nat) (v : α) :
    mget d (mset d m x v) x = v := by
  unfold mset
  split
  · next h => rw [mget_mdel_same, h]
  · exact mget_mins_same d m x v

/-- A write leaves every other key alone, whatever either key reads as when unlisted. -/
theorem mget_mset_ne {α : Type} [DecidableEq α] (d d' : α) (m : List (Nat × α)) {x y : Nat} (v : α) (hy : y ≠ x) :
    mget d (mset d' m x v) y = mget d m y := by
  unfold mset
  split
  · exact mget_mdel_ne d m hy
  · rw [mget_mins_ne d _ v hy, mget_mdel_ne d m hy]

theorem mdel_mdel {α : Type} (m : List (Nat × α)) (x : Nat) : mdel (mdel m x) x = mdel m x := by
  induction m with
  | nil => rfl
  | cons e m ih =>
    obtain ⟨k, v⟩ := e
    by_cases h : k = x
    · simp [mdel, h, ih]
    · simp [mdel, h, ih]

theorem mdel_mins {α : Type} (m : List (Nat × α)) (x : Nat) (v : α) : mdel (mins m x v) x = mdel m x := by
  induction m with
  | nil => simp [mins, mdel]
  | cons e m ih =>
    obtain ⟨k, w⟩ := e
    by_cases h : x < k
    · simp [mins, h, mdel]
    · by_cases hk : k = x <;> simp [mins, h, mdel, hk, ih]

/-- The last of two writes to a key counts. -/
theorem mset_mset {α : Type} [DecidableEq α] (d : α) (m : List (Nat × α)) (x : Nat) (u v : α) : mset d (mset d m x u) x v = mset d m x v := by
  have h : mdel (mset d m x u) x = mdel m x := by
    unfold mset
    split
    · exact mdel_mdel m x
    · rw [mdel_mins, mdel_mdel]
  unfold mset at h ⊢
  rw [h]

/-- Keys that a filter drops read as unlisted; the others as before. -/
theorem mget_filter {α : Type} (d : α) (p : Nat → Bool) (m : List (Nat × α)) (x : Nat) :
    mget d (m.filter fun e => p e.1) x = if p x then mget d m x else d := by
  induction m with
  | nil => simp [mget]
  | cons e m ih =>
    obtain ⟨k, v⟩ := e
    by_cases hk : p k = true
    · rw [List.filter_cons_of_pos (by exact hk)]
      simp only [mget, ih]
      by_cases hx : x = k
      · subst hx; simp [hk]
      · simp [hx]
    · rw [List.filter_cons_of_neg (by exact hk), ih]
      simp only [mget]
      by_cases hx : x = k
      · subst hx; simp [hk]
      · simp [hx]

end Sys2Proof.Machine
end

