-- ==== Sys2Proof/Laws/State.lean ====
section
/-! SUPPORT. What each update of the state leaves and what it sets: one lemma per accessor and update. -/

namespace Sys2Proof.Machine

/-- Keys of different fields of the register map differ at every pair of instances. -/
theorem key_ne {G F : Fld} (hG : G.id < 4096) (hF : F.id < 4096) (h : G.id ≠ F.id) (j i : Nat) : G.key j ≠ F.key i := by
  unfold Fld.key
  omega

/-- Keys of different instances of one field differ. -/
theorem key_inst {F : Fld} {j i : Nat} (h : j ≠ i) : F.key j ≠ F.key i := by
  unfold Fld.key
  omega

/-! ### Register fields -/

@[simp] theorem f_sf_same (w : World) (F : Fld) (i v : Nat) : (w.sf F i v).f F i = v % 2 ^ F.wd := by
  simp [World.f, World.sf]

theorem f_sf_key (w : World) (F : Fld) (i v : Nat) {G : Fld} {j : Nat} (h : G.key j ≠ F.key i) :
    (w.sf F i v).f G j = w.f G j := mget_mset_ne _ _ _ _ h

theorem f_sf_ne (w : World) {G F : Fld} (i v j : Nat) (h : G.id ≠ F.id ∧ G.id < 4096 ∧ F.id < 4096) :
    (w.sf F i v).f G j = w.f G j := f_sf_key w F i v (key_ne h.2.1 h.2.2 h.1 j i)

theorem f_sf_inst (w : World) {F : Fld} {i j : Nat} (v : Nat) (h : j ≠ i) : (w.sf F i v).f F j = w.f F j :=
  f_sf_key w F i v (key_inst h)

@[simp] theorem lf_slf_same (w : World) (F : Fld) (i v : Nat) : (w.slf F i v).lf F i = v % 2 ^ F.wd := by
  simp [World.lf, World.slf]

theorem lf_slf_ne (w : World) {G F : Fld} (i v j : Nat) (h : G.id ≠ F.id ∧ G.id < 4096 ∧ F.id < 4096) :
    (w.slf F i v).lf G j = w.lf G j := mget_mset_ne _ _ _ _ (key_ne h.2.1 h.2.2 h.1 j i)

theorem lf_slf_inst (w : World) {F : Fld} {i j : Nat} (v : Nat) (h : j ≠ i) : (w.slf F i v).lf F j = w.lf F j :=
  mget_mset_ne _ _ _ _ (key_inst h)

/-! ### Per-unit state -/

@[simp] theorem engine_setEngine (w : World) (k : Nat) (e : Eng) : (w.setEngine k e).engine k = e := mget_mset_same _ _ _ _
theorem engine_setEngine_ne (w : World) {k j : Nat} (e : Eng) (h : j ≠ k) : (w.setEngine k e).engine j = w.engine j := mget_mset_ne _ _ _ _ h
@[simp] theorem intent_setIntent (w : World) (k : Nat) (e : Itn) : (w.setIntent k e).intent k = e := mget_mset_same _ _ _ _
theorem intent_setIntent_ne (w : World) {k j : Nat} (e : Itn) (h : j ≠ k) : (w.setIntent k e).intent j = w.intent j := mget_mset_ne _ _ _ _ h
@[simp] theorem rail_setRail (w : World) (k : Nat) (e : Prt) : (w.setRail k e).rail k = e := mget_mset_same _ _ _ _
theorem rail_setRail_ne (w : World) {k j : Nat} (e : Prt) (h : j ≠ k) : (w.setRail k e).rail j = w.rail j := mget_mset_ne _ _ _ _ h
@[simp] theorem phase_setPhase (w : World) (k : Nat) (e : Ph) : (w.setPhase k e).phase k = e := mget_mset_same _ _ _ _
theorem phase_setPhase_ne (w : World) {k j : Nat} (e : Ph) (h : j ≠ k) : (w.setPhase k e).phase j = w.phase j := mget_mset_ne _ _ _ _ h
@[simp] theorem converter_setConverter (w : World) (k : Nat) (e : Conv) : (w.setConverter k e).converter k = e := mget_mset_same _ _ _ _
theorem converter_setConverter_ne (w : World) {k j : Nat} (e : Conv) (h : j ≠ k) : (w.setConverter k e).converter j = w.converter j := mget_mset_ne _ _ _ _ h
@[simp] theorem fc_setFc (w : World) (k : Nat) (e : Fc) : (w.setFc k e).fc k = e := mget_mset_same _ _ _ _
theorem fc_setFc_ne (w : World) {k j : Nat} (e : Fc) (h : j ≠ k) : (w.setFc k e).fc j = w.fc j := mget_mset_ne _ _ _ _ h
@[simp] theorem ring_setRing (w : World) (k : Nat) (e : Ring) : (w.setRing k e).ring k = e := mget_mset_same _ _ _ _
theorem ring_setRing_ne (w : World) {k j : Nat} (e : Ring) (h : j ≠ k) : (w.setRing k e).ring j = w.ring j := mget_mset_ne _ _ _ _ h
@[simp] theorem ledger_setLedger (w : World) (k : Nat) (e : Led) : (w.setLedger k e).ledger k = e := mget_mset_same _ _ _ _
theorem ledger_setLedger_ne (w : World) {k j : Nat} (e : Led) (h : j ≠ k) : (w.setLedger k e).ledger j = w.ledger j := mget_mset_ne _ _ _ _ h
@[simp] theorem core_setCore (w : World) (k : Nat) (e : Core) : (w.setCore k e).core k = e := mget_mset_same _ _ _ _
theorem core_setCore_ne (w : World) {k j : Nat} (e : Core) (h : j ≠ k) : (w.setCore k e).core j = w.core j := mget_mset_ne _ _ _ _ h
@[simp] theorem timer_setTimer (w : World) (k : Nat) (e : Tm) : (w.setTimer k e).timer k = e := mget_mset_same _ _ _ _
theorem timer_setTimer_ne (w : World) {k j : Nat} (e : Tm) (h : j ≠ k) : (w.setTimer k e).timer j = w.timer j := mget_mset_ne _ _ _ _ h

/-! ### Accessors that an update does not touch -/

@[simp] theorem lf_sf (w : World) (F : Fld) (i v : Nat) (G : Fld) (j : Nat) : (w.sf F i v).lf G j = w.lf G j := rfl
@[simp] theorem engine_sf (w : World) (F : Fld) (i v : Nat) (j : Nat) : (w.sf F i v).engine j = w.engine j := rfl
@[simp] theorem intent_sf (w : World) (F : Fld) (i v : Nat) (j : Nat) : (w.sf F i v).intent j = w.intent j := rfl
@[simp] theorem rail_sf (w : World) (F : Fld) (i v : Nat) (j : Nat) : (w.sf F i v).rail j = w.rail j := rfl
@[simp] theorem phase_sf (w : World) (F : Fld) (i v : Nat) (j : Nat) : (w.sf F i v).phase j = w.phase j := rfl
@[simp] theorem converter_sf (w : World) (F : Fld) (i v : Nat) (j : Nat) : (w.sf F i v).converter j = w.converter j := rfl
@[simp] theorem fc_sf (w : World) (F : Fld) (i v : Nat) (j : Nat) : (w.sf F i v).fc j = w.fc j := rfl
@[simp] theorem ring_sf (w : World) (F : Fld) (i v : Nat) (j : Nat) : (w.sf F i v).ring j = w.ring j := rfl
@[simp] theorem ledger_sf (w : World) (F : Fld) (i v : Nat) (j : Nat) : (w.sf F i v).ledger j = w.ledger j := rfl
@[simp] theorem core_sf (w : World) (F : Fld) (i v : Nat) (j : Nat) : (w.sf F i v).core j = w.core j := rfl
@[simp] theorem timer_sf (w : World) (F : Fld) (i v : Nat) (j : Nat) : (w.sf F i v).timer j = w.timer j := rfl
@[simp] theorem f_slf (w : World) (F : Fld) (i v : Nat) (G : Fld) (j : Nat) : (w.slf F i v).f G j = w.f G j := rfl
@[simp] theorem engine_slf (w : World) (F : Fld) (i v : Nat) (j : Nat) : (w.slf F i v).engine j = w.engine j := rfl
@[simp] theorem intent_slf (w : World) (F : Fld) (i v : Nat) (j : Nat) : (w.slf F i v).intent j = w.intent j := rfl
@[simp] theorem rail_slf (w : World) (F : Fld) (i v : Nat) (j : Nat) : (w.slf F i v).rail j = w.rail j := rfl
@[simp] theorem phase_slf (w : World) (F : Fld) (i v : Nat) (j : Nat) : (w.slf F i v).phase j = w.phase j := rfl
@[simp] theorem converter_slf (w : World) (F : Fld) (i v : Nat) (j : Nat) : (w.slf F i v).converter j = w.converter j := rfl
@[simp] theorem fc_slf (w : World) (F : Fld) (i v : Nat) (j : Nat) : (w.slf F i v).fc j = w.fc j := rfl
@[simp] theorem ring_slf (w : World) (F : Fld) (i v : Nat) (j : Nat) : (w.slf F i v).ring j = w.ring j := rfl
@[simp] theorem ledger_slf (w : World) (F : Fld) (i v : Nat) (j : Nat) : (w.slf F i v).ledger j = w.ledger j := rfl
@[simp] theorem core_slf (w : World) (F : Fld) (i v : Nat) (j : Nat) : (w.slf F i v).core j = w.core j := rfl
@[simp] theorem timer_slf (w : World) (F : Fld) (i v : Nat) (j : Nat) : (w.slf F i v).timer j = w.timer j := rfl
@[simp] theorem f_emit (w : World) (o : Out) (G : Fld) (j : Nat) : (w.emit o).f G j = w.f G j := rfl
@[simp] theorem lf_emit (w : World) (o : Out) (G : Fld) (j : Nat) : (w.emit o).lf G j = w.lf G j := rfl
@[simp] theorem engine_emit (w : World) (o : Out) (j : Nat) : (w.emit o).engine j = w.engine j := rfl
@[simp] theorem intent_emit (w : World) (o : Out) (j : Nat) : (w.emit o).intent j = w.intent j := rfl
@[simp] theorem rail_emit (w : World) (o : Out) (j : Nat) : (w.emit o).rail j = w.rail j := rfl
@[simp] theorem phase_emit (w : World) (o : Out) (j : Nat) : (w.emit o).phase j = w.phase j := rfl
@[simp] theorem converter_emit (w : World) (o : Out) (j : Nat) : (w.emit o).converter j = w.converter j := rfl
@[simp] theorem fc_emit (w : World) (o : Out) (j : Nat) : (w.emit o).fc j = w.fc j := rfl
@[simp] theorem ring_emit (w : World) (o : Out) (j : Nat) : (w.emit o).ring j = w.ring j := rfl
@[simp] theorem ledger_emit (w : World) (o : Out) (j : Nat) : (w.emit o).ledger j = w.ledger j := rfl
@[simp] theorem core_emit (w : World) (o : Out) (j : Nat) : (w.emit o).core j = w.core j := rfl
@[simp] theorem timer_emit (w : World) (o : Out) (j : Nat) : (w.emit o).timer j = w.timer j := rfl
@[simp] theorem f_setEngine (w : World) (k : Nat) (e : Eng) (G : Fld) (j : Nat) : (w.setEngine k e).f G j = w.f G j := rfl
@[simp] theorem lf_setEngine (w : World) (k : Nat) (e : Eng) (G : Fld) (j : Nat) : (w.setEngine k e).lf G j = w.lf G j := rfl
@[simp] theorem intent_setEngine (w : World) (k : Nat) (e : Eng) (j : Nat) : (w.setEngine k e).intent j = w.intent j := rfl
@[simp] theorem rail_setEngine (w : World) (k : Nat) (e : Eng) (j : Nat) : (w.setEngine k e).rail j = w.rail j := rfl
@[simp] theorem phase_setEngine (w : World) (k : Nat) (e : Eng) (j : Nat) : (w.setEngine k e).phase j = w.phase j := rfl
@[simp] theorem converter_setEngine (w : World) (k : Nat) (e : Eng) (j : Nat) : (w.setEngine k e).converter j = w.converter j := rfl
@[simp] theorem fc_setEngine (w : World) (k : Nat) (e : Eng) (j : Nat) : (w.setEngine k e).fc j = w.fc j := rfl
@[simp] theorem ring_setEngine (w : World) (k : Nat) (e : Eng) (j : Nat) : (w.setEngine k e).ring j = w.ring j := rfl
@[simp] theorem ledger_setEngine (w : World) (k : Nat) (e : Eng) (j : Nat) : (w.setEngine k e).ledger j = w.ledger j := rfl
@[simp] theorem core_setEngine (w : World) (k : Nat) (e : Eng) (j : Nat) : (w.setEngine k e).core j = w.core j := rfl
@[simp] theorem timer_setEngine (w : World) (k : Nat) (e : Eng) (j : Nat) : (w.setEngine k e).timer j = w.timer j := rfl
@[simp] theorem f_setIntent (w : World) (k : Nat) (e : Itn) (G : Fld) (j : Nat) : (w.setIntent k e).f G j = w.f G j := rfl
@[simp] theorem lf_setIntent (w : World) (k : Nat) (e : Itn) (G : Fld) (j : Nat) : (w.setIntent k e).lf G j = w.lf G j := rfl
@[simp] theorem engine_setIntent (w : World) (k : Nat) (e : Itn) (j : Nat) : (w.setIntent k e).engine j = w.engine j := rfl
@[simp] theorem rail_setIntent (w : World) (k : Nat) (e : Itn) (j : Nat) : (w.setIntent k e).rail j = w.rail j := rfl
@[simp] theorem phase_setIntent (w : World) (k : Nat) (e : Itn) (j : Nat) : (w.setIntent k e).phase j = w.phase j := rfl
@[simp] theorem converter_setIntent (w : World) (k : Nat) (e : Itn) (j : Nat) : (w.setIntent k e).converter j = w.converter j := rfl
@[simp] theorem fc_setIntent (w : World) (k : Nat) (e : Itn) (j : Nat) : (w.setIntent k e).fc j = w.fc j := rfl
@[simp] theorem ring_setIntent (w : World) (k : Nat) (e : Itn) (j : Nat) : (w.setIntent k e).ring j = w.ring j := rfl
@[simp] theorem ledger_setIntent (w : World) (k : Nat) (e : Itn) (j : Nat) : (w.setIntent k e).ledger j = w.ledger j := rfl
@[simp] theorem core_setIntent (w : World) (k : Nat) (e : Itn) (j : Nat) : (w.setIntent k e).core j = w.core j := rfl
@[simp] theorem timer_setIntent (w : World) (k : Nat) (e : Itn) (j : Nat) : (w.setIntent k e).timer j = w.timer j := rfl
@[simp] theorem f_setRail (w : World) (k : Nat) (e : Prt) (G : Fld) (j : Nat) : (w.setRail k e).f G j = w.f G j := rfl
@[simp] theorem lf_setRail (w : World) (k : Nat) (e : Prt) (G : Fld) (j : Nat) : (w.setRail k e).lf G j = w.lf G j := rfl
@[simp] theorem engine_setRail (w : World) (k : Nat) (e : Prt) (j : Nat) : (w.setRail k e).engine j = w.engine j := rfl
@[simp] theorem intent_setRail (w : World) (k : Nat) (e : Prt) (j : Nat) : (w.setRail k e).intent j = w.intent j := rfl
@[simp] theorem phase_setRail (w : World) (k : Nat) (e : Prt) (j : Nat) : (w.setRail k e).phase j = w.phase j := rfl
@[simp] theorem converter_setRail (w : World) (k : Nat) (e : Prt) (j : Nat) : (w.setRail k e).converter j = w.converter j := rfl
@[simp] theorem fc_setRail (w : World) (k : Nat) (e : Prt) (j : Nat) : (w.setRail k e).fc j = w.fc j := rfl
@[simp] theorem ring_setRail (w : World) (k : Nat) (e : Prt) (j : Nat) : (w.setRail k e).ring j = w.ring j := rfl
@[simp] theorem ledger_setRail (w : World) (k : Nat) (e : Prt) (j : Nat) : (w.setRail k e).ledger j = w.ledger j := rfl
@[simp] theorem core_setRail (w : World) (k : Nat) (e : Prt) (j : Nat) : (w.setRail k e).core j = w.core j := rfl
@[simp] theorem timer_setRail (w : World) (k : Nat) (e : Prt) (j : Nat) : (w.setRail k e).timer j = w.timer j := rfl
@[simp] theorem f_setPhase (w : World) (k : Nat) (e : Ph) (G : Fld) (j : Nat) : (w.setPhase k e).f G j = w.f G j := rfl
@[simp] theorem lf_setPhase (w : World) (k : Nat) (e : Ph) (G : Fld) (j : Nat) : (w.setPhase k e).lf G j = w.lf G j := rfl
@[simp] theorem engine_setPhase (w : World) (k : Nat) (e : Ph) (j : Nat) : (w.setPhase k e).engine j = w.engine j := rfl
@[simp] theorem intent_setPhase (w : World) (k : Nat) (e : Ph) (j : Nat) : (w.setPhase k e).intent j = w.intent j := rfl
@[simp] theorem rail_setPhase (w : World) (k : Nat) (e : Ph) (j : Nat) : (w.setPhase k e).rail j = w.rail j := rfl
@[simp] theorem converter_setPhase (w : World) (k : Nat) (e : Ph) (j : Nat) : (w.setPhase k e).converter j = w.converter j := rfl
@[simp] theorem fc_setPhase (w : World) (k : Nat) (e : Ph) (j : Nat) : (w.setPhase k e).fc j = w.fc j := rfl
@[simp] theorem ring_setPhase (w : World) (k : Nat) (e : Ph) (j : Nat) : (w.setPhase k e).ring j = w.ring j := rfl
@[simp] theorem ledger_setPhase (w : World) (k : Nat) (e : Ph) (j : Nat) : (w.setPhase k e).ledger j = w.ledger j := rfl
@[simp] theorem core_setPhase (w : World) (k : Nat) (e : Ph) (j : Nat) : (w.setPhase k e).core j = w.core j := rfl
@[simp] theorem timer_setPhase (w : World) (k : Nat) (e : Ph) (j : Nat) : (w.setPhase k e).timer j = w.timer j := rfl
@[simp] theorem f_setConverter (w : World) (k : Nat) (e : Conv) (G : Fld) (j : Nat) : (w.setConverter k e).f G j = w.f G j := rfl
@[simp] theorem lf_setConverter (w : World) (k : Nat) (e : Conv) (G : Fld) (j : Nat) : (w.setConverter k e).lf G j = w.lf G j := rfl
@[simp] theorem engine_setConverter (w : World) (k : Nat) (e : Conv) (j : Nat) : (w.setConverter k e).engine j = w.engine j := rfl
@[simp] theorem intent_setConverter (w : World) (k : Nat) (e : Conv) (j : Nat) : (w.setConverter k e).intent j = w.intent j := rfl
@[simp] theorem rail_setConverter (w : World) (k : Nat) (e : Conv) (j : Nat) : (w.setConverter k e).rail j = w.rail j := rfl
@[simp] theorem phase_setConverter (w : World) (k : Nat) (e : Conv) (j : Nat) : (w.setConverter k e).phase j = w.phase j := rfl
@[simp] theorem fc_setConverter (w : World) (k : Nat) (e : Conv) (j : Nat) : (w.setConverter k e).fc j = w.fc j := rfl
@[simp] theorem ring_setConverter (w : World) (k : Nat) (e : Conv) (j : Nat) : (w.setConverter k e).ring j = w.ring j := rfl
@[simp] theorem ledger_setConverter (w : World) (k : Nat) (e : Conv) (j : Nat) : (w.setConverter k e).ledger j = w.ledger j := rfl
@[simp] theorem core_setConverter (w : World) (k : Nat) (e : Conv) (j : Nat) : (w.setConverter k e).core j = w.core j := rfl
@[simp] theorem timer_setConverter (w : World) (k : Nat) (e : Conv) (j : Nat) : (w.setConverter k e).timer j = w.timer j := rfl
@[simp] theorem f_setFc (w : World) (k : Nat) (e : Fc) (G : Fld) (j : Nat) : (w.setFc k e).f G j = w.f G j := rfl
@[simp] theorem lf_setFc (w : World) (k : Nat) (e : Fc) (G : Fld) (j : Nat) : (w.setFc k e).lf G j = w.lf G j := rfl
@[simp] theorem engine_setFc (w : World) (k : Nat) (e : Fc) (j : Nat) : (w.setFc k e).engine j = w.engine j := rfl
@[simp] theorem intent_setFc (w : World) (k : Nat) (e : Fc) (j : Nat) : (w.setFc k e).intent j = w.intent j := rfl
@[simp] theorem rail_setFc (w : World) (k : Nat) (e : Fc) (j : Nat) : (w.setFc k e).rail j = w.rail j := rfl
@[simp] theorem phase_setFc (w : World) (k : Nat) (e : Fc) (j : Nat) : (w.setFc k e).phase j = w.phase j := rfl
@[simp] theorem converter_setFc (w : World) (k : Nat) (e : Fc) (j : Nat) : (w.setFc k e).converter j = w.converter j := rfl
@[simp] theorem ring_setFc (w : World) (k : Nat) (e : Fc) (j : Nat) : (w.setFc k e).ring j = w.ring j := rfl
@[simp] theorem ledger_setFc (w : World) (k : Nat) (e : Fc) (j : Nat) : (w.setFc k e).ledger j = w.ledger j := rfl
@[simp] theorem core_setFc (w : World) (k : Nat) (e : Fc) (j : Nat) : (w.setFc k e).core j = w.core j := rfl
@[simp] theorem timer_setFc (w : World) (k : Nat) (e : Fc) (j : Nat) : (w.setFc k e).timer j = w.timer j := rfl
@[simp] theorem f_setRing (w : World) (k : Nat) (e : Ring) (G : Fld) (j : Nat) : (w.setRing k e).f G j = w.f G j := rfl
@[simp] theorem lf_setRing (w : World) (k : Nat) (e : Ring) (G : Fld) (j : Nat) : (w.setRing k e).lf G j = w.lf G j := rfl
@[simp] theorem engine_setRing (w : World) (k : Nat) (e : Ring) (j : Nat) : (w.setRing k e).engine j = w.engine j := rfl
@[simp] theorem intent_setRing (w : World) (k : Nat) (e : Ring) (j : Nat) : (w.setRing k e).intent j = w.intent j := rfl
@[simp] theorem rail_setRing (w : World) (k : Nat) (e : Ring) (j : Nat) : (w.setRing k e).rail j = w.rail j := rfl
@[simp] theorem phase_setRing (w : World) (k : Nat) (e : Ring) (j : Nat) : (w.setRing k e).phase j = w.phase j := rfl
@[simp] theorem converter_setRing (w : World) (k : Nat) (e : Ring) (j : Nat) : (w.setRing k e).converter j = w.converter j := rfl
@[simp] theorem fc_setRing (w : World) (k : Nat) (e : Ring) (j : Nat) : (w.setRing k e).fc j = w.fc j := rfl
@[simp] theorem ledger_setRing (w : World) (k : Nat) (e : Ring) (j : Nat) : (w.setRing k e).ledger j = w.ledger j := rfl
@[simp] theorem core_setRing (w : World) (k : Nat) (e : Ring) (j : Nat) : (w.setRing k e).core j = w.core j := rfl
@[simp] theorem timer_setRing (w : World) (k : Nat) (e : Ring) (j : Nat) : (w.setRing k e).timer j = w.timer j := rfl
@[simp] theorem f_setLedger (w : World) (k : Nat) (e : Led) (G : Fld) (j : Nat) : (w.setLedger k e).f G j = w.f G j := rfl
@[simp] theorem lf_setLedger (w : World) (k : Nat) (e : Led) (G : Fld) (j : Nat) : (w.setLedger k e).lf G j = w.lf G j := rfl
@[simp] theorem engine_setLedger (w : World) (k : Nat) (e : Led) (j : Nat) : (w.setLedger k e).engine j = w.engine j := rfl
@[simp] theorem intent_setLedger (w : World) (k : Nat) (e : Led) (j : Nat) : (w.setLedger k e).intent j = w.intent j := rfl
@[simp] theorem rail_setLedger (w : World) (k : Nat) (e : Led) (j : Nat) : (w.setLedger k e).rail j = w.rail j := rfl
@[simp] theorem phase_setLedger (w : World) (k : Nat) (e : Led) (j : Nat) : (w.setLedger k e).phase j = w.phase j := rfl
@[simp] theorem converter_setLedger (w : World) (k : Nat) (e : Led) (j : Nat) : (w.setLedger k e).converter j = w.converter j := rfl
@[simp] theorem fc_setLedger (w : World) (k : Nat) (e : Led) (j : Nat) : (w.setLedger k e).fc j = w.fc j := rfl
@[simp] theorem ring_setLedger (w : World) (k : Nat) (e : Led) (j : Nat) : (w.setLedger k e).ring j = w.ring j := rfl
@[simp] theorem core_setLedger (w : World) (k : Nat) (e : Led) (j : Nat) : (w.setLedger k e).core j = w.core j := rfl
@[simp] theorem timer_setLedger (w : World) (k : Nat) (e : Led) (j : Nat) : (w.setLedger k e).timer j = w.timer j := rfl
@[simp] theorem f_setCore (w : World) (k : Nat) (e : Core) (G : Fld) (j : Nat) : (w.setCore k e).f G j = w.f G j := rfl
@[simp] theorem lf_setCore (w : World) (k : Nat) (e : Core) (G : Fld) (j : Nat) : (w.setCore k e).lf G j = w.lf G j := rfl
@[simp] theorem engine_setCore (w : World) (k : Nat) (e : Core) (j : Nat) : (w.setCore k e).engine j = w.engine j := rfl
@[simp] theorem intent_setCore (w : World) (k : Nat) (e : Core) (j : Nat) : (w.setCore k e).intent j = w.intent j := rfl
@[simp] theorem rail_setCore (w : World) (k : Nat) (e : Core) (j : Nat) : (w.setCore k e).rail j = w.rail j := rfl
@[simp] theorem phase_setCore (w : World) (k : Nat) (e : Core) (j : Nat) : (w.setCore k e).phase j = w.phase j := rfl
@[simp] theorem converter_setCore (w : World) (k : Nat) (e : Core) (j : Nat) : (w.setCore k e).converter j = w.converter j := rfl
@[simp] theorem fc_setCore (w : World) (k : Nat) (e : Core) (j : Nat) : (w.setCore k e).fc j = w.fc j := rfl
@[simp] theorem ring_setCore (w : World) (k : Nat) (e : Core) (j : Nat) : (w.setCore k e).ring j = w.ring j := rfl
@[simp] theorem ledger_setCore (w : World) (k : Nat) (e : Core) (j : Nat) : (w.setCore k e).ledger j = w.ledger j := rfl
@[simp] theorem timer_setCore (w : World) (k : Nat) (e : Core) (j : Nat) : (w.setCore k e).timer j = w.timer j := rfl
@[simp] theorem f_setTimer (w : World) (k : Nat) (e : Tm) (G : Fld) (j : Nat) : (w.setTimer k e).f G j = w.f G j := rfl
@[simp] theorem lf_setTimer (w : World) (k : Nat) (e : Tm) (G : Fld) (j : Nat) : (w.setTimer k e).lf G j = w.lf G j := rfl
@[simp] theorem engine_setTimer (w : World) (k : Nat) (e : Tm) (j : Nat) : (w.setTimer k e).engine j = w.engine j := rfl
@[simp] theorem intent_setTimer (w : World) (k : Nat) (e : Tm) (j : Nat) : (w.setTimer k e).intent j = w.intent j := rfl
@[simp] theorem rail_setTimer (w : World) (k : Nat) (e : Tm) (j : Nat) : (w.setTimer k e).rail j = w.rail j := rfl
@[simp] theorem phase_setTimer (w : World) (k : Nat) (e : Tm) (j : Nat) : (w.setTimer k e).phase j = w.phase j := rfl
@[simp] theorem converter_setTimer (w : World) (k : Nat) (e : Tm) (j : Nat) : (w.setTimer k e).converter j = w.converter j := rfl
@[simp] theorem fc_setTimer (w : World) (k : Nat) (e : Tm) (j : Nat) : (w.setTimer k e).fc j = w.fc j := rfl
@[simp] theorem ring_setTimer (w : World) (k : Nat) (e : Tm) (j : Nat) : (w.setTimer k e).ring j = w.ring j := rfl
@[simp] theorem ledger_setTimer (w : World) (k : Nat) (e : Tm) (j : Nat) : (w.setTimer k e).ledger j = w.ledger j := rfl
@[simp] theorem core_setTimer (w : World) (k : Nat) (e : Tm) (j : Nat) : (w.setTimer k e).core j = w.core j := rfl

/-! ### Raw fields that a register write or an output does not touch -/

@[simp] theorem lx1264_sf (w : World) (F : Fld) (i v : Nat) : (w.sf F i v).lx1264 = w.lx1264 := rfl
@[simp] theorem rwo_sf (w : World) (F : Fld) (i v : Nat) : (w.sf F i v).rwo = w.rwo := rfl
@[simp] theorem hold_sf (w : World) (F : Fld) (i v : Nat) : (w.sf F i v).hold = w.hold := rfl
@[simp] theorem clk_sf (w : World) (F : Fld) (i v : Nat) : (w.sf F i v).clk = w.clk := rfl
@[simp] theorem pins_sf (w : World) (F : Fld) (i v : Nat) : (w.sf F i v).pins = w.pins := rfl
@[simp] theorem out_sf (w : World) (F : Fld) (i v : Nat) : (w.sf F i v).out = w.out := rfl
@[simp] theorem islOn_sf (w : World) (F : Fld) (i v : Nat) : (w.sf F i v).islOn = w.islOn := rfl
@[simp] theorem irqEdge_sf (w : World) (F : Fld) (i v : Nat) : (w.sf F i v).irqEdge = w.irqEdge := rfl
@[simp] theorem efSeen_sf (w : World) (F : Fld) (i v : Nat) : (w.sf F i v).efSeen = w.efSeen := rfl
@[simp] theorem dmaLast_sf (w : World) (F : Fld) (i v : Nat) : (w.sf F i v).dmaLast = w.dmaLast := rfl
@[simp] theorem bindOk_sf (w : World) (F : Fld) (i v : Nat) : (w.sf F i v).bindOk = w.bindOk := rfl
@[simp] theorem cmd_sf (w : World) (F : Fld) (i v : Nat) : (w.sf F i v).cmd = w.cmd := rfl
@[simp] theorem bly_sf (w : World) (F : Fld) (i v : Nat) : (w.sf F i v).bly = w.bly := rfl
@[simp] theorem buf_sf (w : World) (F : Fld) (i v : Nat) : (w.sf F i v).buf = w.buf := rfl
@[simp] theorem pcie_sf (w : World) (F : Fld) (i v : Nat) : (w.sf F i v).pcie = w.pcie := rfl
@[simp] theorem noFetch_sf (w : World) (F : Fld) (i v : Nat) : (w.sf F i v).noFetch = w.noFetch := rfl
@[simp] theorem telNo_sf (w : World) (F : Fld) (i v : Nat) : (w.sf F i v).telNo = w.telNo := rfl
@[simp] theorem dma_sf (w : World) (F : Fld) (i v : Nat) : (w.sf F i v).dma = w.dma := rfl
@[simp] theorem trc_sf (w : World) (F : Fld) (i v : Nat) : (w.sf F i v).trc = w.trc := rfl
@[simp] theorem wiping_sf (w : World) (F : Fld) (i v : Nat) : (w.sf F i v).wiping = w.wiping := rfl
@[simp] theorem srv_sf (w : World) (F : Fld) (i v : Nat) : (w.sf F i v).srv = w.srv := rfl
@[simp] theorem flt_sf (w : World) (F : Fld) (i v : Nat) : (w.sf F i v).flt = w.flt := rfl
@[simp] theorem inputs_sf (w : World) (F : Fld) (i v : Nat) : (w.sf F i v).inputs = w.inputs := rfl
@[simp] theorem pd_sf (w : World) (F : Fld) (i v : Nat) : (w.sf F i v).pd = w.pd := rfl
@[simp] theorem crn_sf (w : World) (F : Fld) (i v : Nat) : (w.sf F i v).crn = w.crn := rfl
@[simp] theorem boosts_sf (w : World) (F : Fld) (i v : Nat) : (w.sf F i v).boosts = w.boosts := rfl
@[simp] theorem pmb_sf (w : World) (F : Fld) (i v : Nat) : (w.sf F i v).pmb = w.pmb := rfl
@[simp] theorem budgets_sf (w : World) (F : Fld) (i v : Nat) : (w.sf F i v).budgets = w.budgets := rfl
@[simp] theorem sentArmed_sf (w : World) (F : Fld) (i v : Nat) : (w.sf F i v).sentArmed = w.sentArmed := rfl
@[simp] theorem lsTimes_sf (w : World) (F : Fld) (i v : Nat) : (w.sf F i v).lsTimes = w.lsTimes := rfl
@[simp] theorem pwr_sf (w : World) (F : Fld) (i v : Nat) : (w.sf F i v).pwr = w.pwr := rfl
@[simp] theorem free_sf (w : World) (F : Fld) (i v : Nat) : (w.sf F i v).free = w.free := rfl
@[simp] theorem fwq_sf (w : World) (F : Fld) (i v : Nat) : (w.sf F i v).fwq = w.fwq := rfl
@[simp] theorem fwp_sf (w : World) (F : Fld) (i v : Nat) : (w.sf F i v).fwp = w.fwp := rfl
@[simp] theorem otp_sf (w : World) (F : Fld) (i v : Nat) : (w.sf F i v).otp = w.otp := rfl
@[simp] theorem otpWr_sf (w : World) (F : Fld) (i v : Nat) : (w.sf F i v).otpWr = w.otpWr := rfl
@[simp] theorem sec_sf (w : World) (F : Fld) (i v : Nat) : (w.sf F i v).sec = w.sec := rfl
@[simp] theorem side_sf (w : World) (F : Fld) (i v : Nat) : (w.sf F i v).side = w.side := rfl
@[simp] theorem jtag_sf (w : World) (F : Fld) (i v : Nat) : (w.sf F i v).jtag = w.jtag := rfl
@[simp] theorem lx1264_slf (w : World) (F : Fld) (i v : Nat) : (w.slf F i v).lx1264 = w.lx1264 := rfl
@[simp] theorem rwo_slf (w : World) (F : Fld) (i v : Nat) : (w.slf F i v).rwo = w.rwo := rfl
@[simp] theorem hold_slf (w : World) (F : Fld) (i v : Nat) : (w.slf F i v).hold = w.hold := rfl
@[simp] theorem clk_slf (w : World) (F : Fld) (i v : Nat) : (w.slf F i v).clk = w.clk := rfl
@[simp] theorem pins_slf (w : World) (F : Fld) (i v : Nat) : (w.slf F i v).pins = w.pins := rfl
@[simp] theorem out_slf (w : World) (F : Fld) (i v : Nat) : (w.slf F i v).out = w.out := rfl
@[simp] theorem islOn_slf (w : World) (F : Fld) (i v : Nat) : (w.slf F i v).islOn = w.islOn := rfl
@[simp] theorem irqEdge_slf (w : World) (F : Fld) (i v : Nat) : (w.slf F i v).irqEdge = w.irqEdge := rfl
@[simp] theorem efSeen_slf (w : World) (F : Fld) (i v : Nat) : (w.slf F i v).efSeen = w.efSeen := rfl
@[simp] theorem dmaLast_slf (w : World) (F : Fld) (i v : Nat) : (w.slf F i v).dmaLast = w.dmaLast := rfl
@[simp] theorem bindOk_slf (w : World) (F : Fld) (i v : Nat) : (w.slf F i v).bindOk = w.bindOk := rfl
@[simp] theorem cmd_slf (w : World) (F : Fld) (i v : Nat) : (w.slf F i v).cmd = w.cmd := rfl
@[simp] theorem bly_slf (w : World) (F : Fld) (i v : Nat) : (w.slf F i v).bly = w.bly := rfl
@[simp] theorem buf_slf (w : World) (F : Fld) (i v : Nat) : (w.slf F i v).buf = w.buf := rfl
@[simp] theorem pcie_slf (w : World) (F : Fld) (i v : Nat) : (w.slf F i v).pcie = w.pcie := rfl
@[simp] theorem noFetch_slf (w : World) (F : Fld) (i v : Nat) : (w.slf F i v).noFetch = w.noFetch := rfl
@[simp] theorem telNo_slf (w : World) (F : Fld) (i v : Nat) : (w.slf F i v).telNo = w.telNo := rfl
@[simp] theorem dma_slf (w : World) (F : Fld) (i v : Nat) : (w.slf F i v).dma = w.dma := rfl
@[simp] theorem trc_slf (w : World) (F : Fld) (i v : Nat) : (w.slf F i v).trc = w.trc := rfl
@[simp] theorem wiping_slf (w : World) (F : Fld) (i v : Nat) : (w.slf F i v).wiping = w.wiping := rfl
@[simp] theorem srv_slf (w : World) (F : Fld) (i v : Nat) : (w.slf F i v).srv = w.srv := rfl
@[simp] theorem flt_slf (w : World) (F : Fld) (i v : Nat) : (w.slf F i v).flt = w.flt := rfl
@[simp] theorem inputs_slf (w : World) (F : Fld) (i v : Nat) : (w.slf F i v).inputs = w.inputs := rfl
@[simp] theorem pd_slf (w : World) (F : Fld) (i v : Nat) : (w.slf F i v).pd = w.pd := rfl
@[simp] theorem crn_slf (w : World) (F : Fld) (i v : Nat) : (w.slf F i v).crn = w.crn := rfl
@[simp] theorem boosts_slf (w : World) (F : Fld) (i v : Nat) : (w.slf F i v).boosts = w.boosts := rfl
@[simp] theorem pmb_slf (w : World) (F : Fld) (i v : Nat) : (w.slf F i v).pmb = w.pmb := rfl
@[simp] theorem budgets_slf (w : World) (F : Fld) (i v : Nat) : (w.slf F i v).budgets = w.budgets := rfl
@[simp] theorem sentArmed_slf (w : World) (F : Fld) (i v : Nat) : (w.slf F i v).sentArmed = w.sentArmed := rfl
@[simp] theorem lsTimes_slf (w : World) (F : Fld) (i v : Nat) : (w.slf F i v).lsTimes = w.lsTimes := rfl
@[simp] theorem pwr_slf (w : World) (F : Fld) (i v : Nat) : (w.slf F i v).pwr = w.pwr := rfl
@[simp] theorem free_slf (w : World) (F : Fld) (i v : Nat) : (w.slf F i v).free = w.free := rfl
@[simp] theorem fwq_slf (w : World) (F : Fld) (i v : Nat) : (w.slf F i v).fwq = w.fwq := rfl
@[simp] theorem fwp_slf (w : World) (F : Fld) (i v : Nat) : (w.slf F i v).fwp = w.fwp := rfl
@[simp] theorem otp_slf (w : World) (F : Fld) (i v : Nat) : (w.slf F i v).otp = w.otp := rfl
@[simp] theorem otpWr_slf (w : World) (F : Fld) (i v : Nat) : (w.slf F i v).otpWr = w.otpWr := rfl
@[simp] theorem sec_slf (w : World) (F : Fld) (i v : Nat) : (w.slf F i v).sec = w.sec := rfl
@[simp] theorem side_slf (w : World) (F : Fld) (i v : Nat) : (w.slf F i v).side = w.side := rfl
@[simp] theorem jtag_slf (w : World) (F : Fld) (i v : Nat) : (w.slf F i v).jtag = w.jtag := rfl
@[simp] theorem lx1264_emit (w : World) (o : Out) : (w.emit o).lx1264 = w.lx1264 := rfl
@[simp] theorem rwo_emit (w : World) (o : Out) : (w.emit o).rwo = w.rwo := rfl
@[simp] theorem hold_emit (w : World) (o : Out) : (w.emit o).hold = w.hold := rfl
@[simp] theorem clk_emit (w : World) (o : Out) : (w.emit o).clk = w.clk := rfl
@[simp] theorem pins_emit (w : World) (o : Out) : (w.emit o).pins = w.pins := rfl
@[simp] theorem islOn_emit (w : World) (o : Out) : (w.emit o).islOn = w.islOn := rfl
@[simp] theorem irqEdge_emit (w : World) (o : Out) : (w.emit o).irqEdge = w.irqEdge := rfl
@[simp] theorem efSeen_emit (w : World) (o : Out) : (w.emit o).efSeen = w.efSeen := rfl
@[simp] theorem dmaLast_emit (w : World) (o : Out) : (w.emit o).dmaLast = w.dmaLast := rfl
@[simp] theorem bindOk_emit (w : World) (o : Out) : (w.emit o).bindOk = w.bindOk := rfl
@[simp] theorem cmd_emit (w : World) (o : Out) : (w.emit o).cmd = w.cmd := rfl
@[simp] theorem bly_emit (w : World) (o : Out) : (w.emit o).bly = w.bly := rfl
@[simp] theorem buf_emit (w : World) (o : Out) : (w.emit o).buf = w.buf := rfl
@[simp] theorem pcie_emit (w : World) (o : Out) : (w.emit o).pcie = w.pcie := rfl
@[simp] theorem noFetch_emit (w : World) (o : Out) : (w.emit o).noFetch = w.noFetch := rfl
@[simp] theorem telNo_emit (w : World) (o : Out) : (w.emit o).telNo = w.telNo := rfl
@[simp] theorem dma_emit (w : World) (o : Out) : (w.emit o).dma = w.dma := rfl
@[simp] theorem trc_emit (w : World) (o : Out) : (w.emit o).trc = w.trc := rfl
@[simp] theorem wiping_emit (w : World) (o : Out) : (w.emit o).wiping = w.wiping := rfl
@[simp] theorem srv_emit (w : World) (o : Out) : (w.emit o).srv = w.srv := rfl
@[simp] theorem flt_emit (w : World) (o : Out) : (w.emit o).flt = w.flt := rfl
@[simp] theorem inputs_emit (w : World) (o : Out) : (w.emit o).inputs = w.inputs := rfl
@[simp] theorem pd_emit (w : World) (o : Out) : (w.emit o).pd = w.pd := rfl
@[simp] theorem crn_emit (w : World) (o : Out) : (w.emit o).crn = w.crn := rfl
@[simp] theorem boosts_emit (w : World) (o : Out) : (w.emit o).boosts = w.boosts := rfl
@[simp] theorem pmb_emit (w : World) (o : Out) : (w.emit o).pmb = w.pmb := rfl
@[simp] theorem budgets_emit (w : World) (o : Out) : (w.emit o).budgets = w.budgets := rfl
@[simp] theorem sentArmed_emit (w : World) (o : Out) : (w.emit o).sentArmed = w.sentArmed := rfl
@[simp] theorem lsTimes_emit (w : World) (o : Out) : (w.emit o).lsTimes = w.lsTimes := rfl
@[simp] theorem pwr_emit (w : World) (o : Out) : (w.emit o).pwr = w.pwr := rfl
@[simp] theorem free_emit (w : World) (o : Out) : (w.emit o).free = w.free := rfl
@[simp] theorem fwq_emit (w : World) (o : Out) : (w.emit o).fwq = w.fwq := rfl
@[simp] theorem fwp_emit (w : World) (o : Out) : (w.emit o).fwp = w.fwp := rfl
@[simp] theorem otp_emit (w : World) (o : Out) : (w.emit o).otp = w.otp := rfl
@[simp] theorem otpWr_emit (w : World) (o : Out) : (w.emit o).otpWr = w.otpWr := rfl
@[simp] theorem sec_emit (w : World) (o : Out) : (w.emit o).sec = w.sec := rfl
@[simp] theorem side_emit (w : World) (o : Out) : (w.emit o).side = w.side := rfl
@[simp] theorem jtag_emit (w : World) (o : Out) : (w.emit o).jtag = w.jtag := rfl

@[simp] theorem out_emit (w : World) (o : Out) : (w.emit o).out = w.out ++ [o] := rfl

@[simp] theorem cmp_sf (w : World) (F : Fld) (i v : Nat) : (w.sf F i v).cmp = w.cmp := rfl
@[simp] theorem hkcAt_sf (w : World) (F : Fld) (i v : Nat) : (w.sf F i v).hkcAt = w.hkcAt := rfl
@[simp] theorem timed_sf (w : World) (F : Fld) (i v : Nat) : (w.sf F i v).timed = w.timed := rfl
@[simp] theorem bindPair_sf (w : World) (F : Fld) (i v : Nat) : (w.sf F i v).bindPair = w.bindPair := rfl
@[simp] theorem waitq_sf (w : World) (F : Fld) (i v : Nat) : (w.sf F i v).waitq = w.waitq := rfl
@[simp] theorem rrNext_sf (w : World) (F : Fld) (i v : Nat) : (w.sf F i v).rrNext = w.rrNext := rfl
@[simp] theorem crnRd_sf (w : World) (F : Fld) (i v : Nat) : (w.sf F i v).crnRd = w.crnRd := rfl
@[simp] theorem cmp_slf (w : World) (F : Fld) (i v : Nat) : (w.slf F i v).cmp = w.cmp := rfl
@[simp] theorem hkcAt_slf (w : World) (F : Fld) (i v : Nat) : (w.slf F i v).hkcAt = w.hkcAt := rfl
@[simp] theorem timed_slf (w : World) (F : Fld) (i v : Nat) : (w.slf F i v).timed = w.timed := rfl
@[simp] theorem bindPair_slf (w : World) (F : Fld) (i v : Nat) : (w.slf F i v).bindPair = w.bindPair := rfl
@[simp] theorem waitq_slf (w : World) (F : Fld) (i v : Nat) : (w.slf F i v).waitq = w.waitq := rfl
@[simp] theorem rrNext_slf (w : World) (F : Fld) (i v : Nat) : (w.slf F i v).rrNext = w.rrNext := rfl
@[simp] theorem crnRd_slf (w : World) (F : Fld) (i v : Nat) : (w.slf F i v).crnRd = w.crnRd := rfl
@[simp] theorem cmp_emit (w : World) (o : Out) : (w.emit o).cmp = w.cmp := rfl
@[simp] theorem hkcAt_emit (w : World) (o : Out) : (w.emit o).hkcAt = w.hkcAt := rfl
@[simp] theorem timed_emit (w : World) (o : Out) : (w.emit o).timed = w.timed := rfl
@[simp] theorem bindPair_emit (w : World) (o : Out) : (w.emit o).bindPair = w.bindPair := rfl
@[simp] theorem waitq_emit (w : World) (o : Out) : (w.emit o).waitq = w.waitq := rfl
@[simp] theorem rrNext_emit (w : World) (o : Out) : (w.emit o).rrNext = w.rrNext := rfl
@[simp] theorem crnRd_emit (w : World) (o : Out) : (w.emit o).crnRd = w.crnRd := rfl

/-! ### Measured intervals -/

@[simp] theorem timed_start (w : World) (k : Timed) : (w.start k).timed = mset 0 w.timed k.key (w.clk.tk + 1) := rfl
/-- An interval that begins is not over before its first ns has passed. -/
theorem past_start (w : World) (k : Timed) (ns : Nat) : (w.start k).past k ns = decide (ns = 0) := by
  simp only [World.past, World.start, mget_mset_same, decide_eq_decide]
  omega
theorem past_start_ne (w : World) {k j : Timed} (ns : Nat) (h : j.key ≠ k.key) : (w.start k).past j ns = w.past j ns := by
  simp only [World.past, World.start, mget_mset_ne _ _ _ _ h]
@[simp] theorem f_start (w : World) (k : Timed) (G : Fld) (j : Nat) : (w.start k).f G j = w.f G j := rfl
@[simp] theorem lf_start (w : World) (k : Timed) (G : Fld) (j : Nat) : (w.start k).lf G j = w.lf G j := rfl
@[simp] theorem engine_start (w : World) (k : Timed) (j : Nat) : (w.start k).engine j = w.engine j := rfl
@[simp] theorem intent_start (w : World) (k : Timed) (j : Nat) : (w.start k).intent j = w.intent j := rfl
@[simp] theorem rail_start (w : World) (k : Timed) (j : Nat) : (w.start k).rail j = w.rail j := rfl
@[simp] theorem phase_start (w : World) (k : Timed) (j : Nat) : (w.start k).phase j = w.phase j := rfl
@[simp] theorem converter_start (w : World) (k : Timed) (j : Nat) : (w.start k).converter j = w.converter j := rfl
@[simp] theorem fc_start (w : World) (k : Timed) (j : Nat) : (w.start k).fc j = w.fc j := rfl
@[simp] theorem ring_start (w : World) (k : Timed) (j : Nat) : (w.start k).ring j = w.ring j := rfl
@[simp] theorem ledger_start (w : World) (k : Timed) (j : Nat) : (w.start k).ledger j = w.ledger j := rfl
@[simp] theorem core_start (w : World) (k : Timed) (j : Nat) : (w.start k).core j = w.core j := rfl
@[simp] theorem timer_start (w : World) (k : Timed) (j : Nat) : (w.start k).timer j = w.timer j := rfl
@[simp] theorem clk_start (w : World) (k : Timed) : (w.start k).clk = w.clk := rfl
@[simp] theorem pins_start (w : World) (k : Timed) : (w.start k).pins = w.pins := rfl
@[simp] theorem out_start (w : World) (k : Timed) : (w.start k).out = w.out := rfl
@[simp] theorem islOn_start (w : World) (k : Timed) : (w.start k).islOn = w.islOn := rfl
@[simp] theorem cmd_start (w : World) (k : Timed) : (w.start k).cmd = w.cmd := rfl
@[simp] theorem bly_start (w : World) (k : Timed) : (w.start k).bly = w.bly := rfl
@[simp] theorem buf_start (w : World) (k : Timed) : (w.start k).buf = w.buf := rfl
@[simp] theorem waitq_start (w : World) (k : Timed) : (w.start k).waitq = w.waitq := rfl
@[simp] theorem pcie_start (w : World) (k : Timed) : (w.start k).pcie = w.pcie := rfl
@[simp] theorem dma_start (w : World) (k : Timed) : (w.start k).dma = w.dma := rfl
@[simp] theorem pwr_start (w : World) (k : Timed) : (w.start k).pwr = w.pwr := rfl
@[simp] theorem wiping_start (w : World) (k : Timed) : (w.start k).wiping = w.wiping := rfl
@[simp] theorem free_start (w : World) (k : Timed) : (w.start k).free = w.free := rfl
@[simp] theorem sentArmed_start (w : World) (k : Timed) : (w.start k).sentArmed = w.sentArmed := rfl
@[simp] theorem fwq_start (w : World) (k : Timed) : (w.start k).fwq = w.fwq := rfl
@[simp] theorem budgets_start (w : World) (k : Timed) : (w.start k).budgets = w.budgets := rfl

/-! ### Lifting to the whole state -/

@[simp] theorem onW_eq (s : State) (f : World → World) : onW s f = .next (s.withW (f s.w)) := rfl

end Sys2Proof.Machine
end

