-- ==== Sys2Proof/Laws/Time.lean ====
section
/-! SUPPORT. What the passing of time changes: the clock, the timers, and two fields of the timers. -/

namespace Sys2Proof.Machine

/-- `w'` is `w` but for the clock, the timers and the register store. -/
def timeShape (w w' : World) : Prop := ∃ c r m, w' = { w with clk := c, regs := r, tm := m }

/-- A field that no timer changes as it counts. -/
abbrev Fld.still (G : Fld) : Prop := G.id ≠ F.TM_CTL_RUN.id ∧ G.id ≠ F.TM_STAT_ARMED.id ∧ G.id < 4096

theorem tmAdd_shape (w : World) (t n : Nat) : timeShape w (w.tmAdd t n) := by
  unfold World.tmAdd
  dsimp only
  split
  · exact ⟨_, _, _, rfl⟩
  · split <;> exact ⟨_, _, _, rfl⟩

theorem f_tmAdd (w : World) (t n : Nat) {G : Fld} (h : G.still) (j : Nat) : (w.tmAdd t n).f G j = w.f G j := by
  unfold World.tmAdd
  dsimp only
  split
  · rfl
  · split
    · rw [f_sf_ne _ _ _ _ ⟨h.1, h.2.2, by decide⟩]; rfl
    · rw [f_sf_ne _ _ _ _ ⟨h.2.1, h.2.2, by decide⟩]; rfl

theorem timeShape.trans {a b c : World} (h : timeShape a b) (g : timeShape b c) : timeShape a c := by
  obtain ⟨_, _, _, rfl⟩ := h
  obtain ⟨_, _, _, rfl⟩ := g
  exact ⟨_, _, _, rfl⟩

theorem tmFold_shape (l : List Nat) (k : World → Nat → Nat) (w : World) :
    timeShape w (l.foldl (fun w t => w.tmTick t (k w t)) w) := by
  induction l generalizing w with
  | nil => exact ⟨_, _, _, rfl⟩
  | cons t l ih =>
    refine timeShape.trans (timeShape.trans ⟨_, _, _, rfl⟩ (tmAdd_shape _ _ _)) (ih _)

theorem f_tmFold (l : List Nat) (k : World → Nat → Nat) (w : World) {G : Fld} (h : G.still) (j : Nat) :
    (l.foldl (fun w t => w.tmTick t (k w t)) w).f G j = w.f G j := by
  induction l generalizing w with
  | nil => rfl
  | cons t l ih =>
    rw [List.foldl_cons, ih]
    exact f_tmAdd _ _ _ h j

theorem advance_shape (w : World) (dt : Nat) : timeShape w (w.advance dt) :=
  timeShape.trans ⟨_, _, _, rfl⟩ (tmFold_shape _ _ _)

theorem upTo_shape (w : World) (t : Nat) : timeShape w (w.upTo t) := by
  unfold World.upTo
  split
  · exact advance_shape _ _
  · exact ⟨_, _, _, rfl⟩

theorem f_advance (w : World) (dt : Nat) {G : Fld} (h : G.still) (j : Nat) : (w.advance dt).f G j = w.f G j :=
  f_tmFold _ _ _ h j

/-- A register field that timers do not change reads the same when time has passed. -/
theorem f_upTo (w : World) (t : Nat) {G : Fld} (h : G.still) (j : Nat) : (w.upTo t).f G j = w.f G j := by
  unfold World.upTo
  split
  · exact f_advance _ _ h j
  · rfl

theorem tmAdd_clk (w : World) (t n : Nat) : (w.tmAdd t n).clk = w.clk := by
  unfold World.tmAdd
  dsimp only
  split
  · rfl
  · split <;> rfl

theorem tmFold_clk (l : List Nat) (k : World → Nat → Nat) (w : World) :
    (l.foldl (fun w t => w.tmTick t (k w t)) w).clk = w.clk := by
  induction l generalizing w with
  | nil => rfl
  | cons t l ih =>
    rw [List.foldl_cons, ih]
    exact tmAdd_clk _ _ _

theorem advance_clk (w : World) (dt : Nat) : (w.advance dt).clk = w.clk.step (w.fs F.TB_RATENOW_RATE 0) dt :=
  tmFold_clk _ _ _

/-- Time passes up to the event's instant, and never goes back. -/
@[simp] theorem upTo_tk (w : World) (t : Nat) : (w.upTo t).clk.tk = max w.clk.tk t := by
  unfold World.upTo
  split
  · rw [advance_clk]
    simp only [Clock.step]
    omega
  · omega

@[simp] theorem lx1264_upTo (w : World) (t : Nat) : (w.upTo t).lx1264 = w.lx1264 := by
  obtain ⟨_, _, _, h⟩ := upTo_shape w t
  rw [h]

@[simp] theorem live_upTo (w : World) (t : Nat) : (w.upTo t).live = w.live := by
  obtain ⟨_, _, _, h⟩ := upTo_shape w t
  rw [h]

@[simp] theorem rwo_upTo (w : World) (t : Nat) : (w.upTo t).rwo = w.rwo := by
  obtain ⟨_, _, _, h⟩ := upTo_shape w t
  rw [h]

@[simp] theorem hold_upTo (w : World) (t : Nat) : (w.upTo t).hold = w.hold := by
  obtain ⟨_, _, _, h⟩ := upTo_shape w t
  rw [h]

@[simp] theorem pins_upTo (w : World) (t : Nat) : (w.upTo t).pins = w.pins := by
  obtain ⟨_, _, _, h⟩ := upTo_shape w t
  rw [h]

@[simp] theorem out_upTo (w : World) (t : Nat) : (w.upTo t).out = w.out := by
  obtain ⟨_, _, _, h⟩ := upTo_shape w t
  rw [h]

@[simp] theorem islOn_upTo (w : World) (t : Nat) : (w.upTo t).islOn = w.islOn := by
  obtain ⟨_, _, _, h⟩ := upTo_shape w t
  rw [h]

@[simp] theorem irqEdge_upTo (w : World) (t : Nat) : (w.upTo t).irqEdge = w.irqEdge := by
  obtain ⟨_, _, _, h⟩ := upTo_shape w t
  rw [h]

@[simp] theorem efSeen_upTo (w : World) (t : Nat) : (w.upTo t).efSeen = w.efSeen := by
  obtain ⟨_, _, _, h⟩ := upTo_shape w t
  rw [h]

@[simp] theorem dmaLast_upTo (w : World) (t : Nat) : (w.upTo t).dmaLast = w.dmaLast := by
  obtain ⟨_, _, _, h⟩ := upTo_shape w t
  rw [h]

@[simp] theorem cmp_upTo (w : World) (t : Nat) : (w.upTo t).cmp = w.cmp := by
  obtain ⟨_, _, _, h⟩ := upTo_shape w t
  rw [h]

@[simp] theorem hkcAt_upTo (w : World) (t : Nat) : (w.upTo t).hkcAt = w.hkcAt := by
  obtain ⟨_, _, _, h⟩ := upTo_shape w t
  rw [h]

@[simp] theorem timed_upTo (w : World) (t : Nat) : (w.upTo t).timed = w.timed := by
  obtain ⟨_, _, _, h⟩ := upTo_shape w t
  rw [h]

@[simp] theorem bindPair_upTo (w : World) (t : Nat) : (w.upTo t).bindPair = w.bindPair := by
  obtain ⟨_, _, _, h⟩ := upTo_shape w t
  rw [h]

@[simp] theorem waitq_upTo (w : World) (t : Nat) : (w.upTo t).waitq = w.waitq := by
  obtain ⟨_, _, _, h⟩ := upTo_shape w t
  rw [h]

@[simp] theorem rrNext_upTo (w : World) (t : Nat) : (w.upTo t).rrNext = w.rrNext := by
  obtain ⟨_, _, _, h⟩ := upTo_shape w t
  rw [h]

@[simp] theorem crnRd_upTo (w : World) (t : Nat) : (w.upTo t).crnRd = w.crnRd := by
  obtain ⟨_, _, _, h⟩ := upTo_shape w t
  rw [h]

@[simp] theorem eng_upTo (w : World) (t : Nat) : (w.upTo t).eng = w.eng := by
  obtain ⟨_, _, _, h⟩ := upTo_shape w t
  rw [h]

@[simp] theorem itn_upTo (w : World) (t : Nat) : (w.upTo t).itn = w.itn := by
  obtain ⟨_, _, _, h⟩ := upTo_shape w t
  rw [h]

@[simp] theorem prt_upTo (w : World) (t : Nat) : (w.upTo t).prt = w.prt := by
  obtain ⟨_, _, _, h⟩ := upTo_shape w t
  rw [h]

@[simp] theorem ph_upTo (w : World) (t : Nat) : (w.upTo t).ph = w.ph := by
  obtain ⟨_, _, _, h⟩ := upTo_shape w t
  rw [h]

@[simp] theorem conv_upTo (w : World) (t : Nat) : (w.upTo t).conv = w.conv := by
  obtain ⟨_, _, _, h⟩ := upTo_shape w t
  rw [h]

@[simp] theorem bindOk_upTo (w : World) (t : Nat) : (w.upTo t).bindOk = w.bindOk := by
  obtain ⟨_, _, _, h⟩ := upTo_shape w t
  rw [h]

@[simp] theorem fcs_upTo (w : World) (t : Nat) : (w.upTo t).fcs = w.fcs := by
  obtain ⟨_, _, _, h⟩ := upTo_shape w t
  rw [h]

@[simp] theorem cmd_upTo (w : World) (t : Nat) : (w.upTo t).cmd = w.cmd := by
  obtain ⟨_, _, _, h⟩ := upTo_shape w t
  rw [h]

@[simp] theorem bly_upTo (w : World) (t : Nat) : (w.upTo t).bly = w.bly := by
  obtain ⟨_, _, _, h⟩ := upTo_shape w t
  rw [h]

@[simp] theorem rings_upTo (w : World) (t : Nat) : (w.upTo t).rings = w.rings := by
  obtain ⟨_, _, _, h⟩ := upTo_shape w t
  rw [h]

@[simp] theorem buf_upTo (w : World) (t : Nat) : (w.upTo t).buf = w.buf := by
  obtain ⟨_, _, _, h⟩ := upTo_shape w t
  rw [h]

@[simp] theorem pcie_upTo (w : World) (t : Nat) : (w.upTo t).pcie = w.pcie := by
  obtain ⟨_, _, _, h⟩ := upTo_shape w t
  rw [h]

@[simp] theorem noFetch_upTo (w : World) (t : Nat) : (w.upTo t).noFetch = w.noFetch := by
  obtain ⟨_, _, _, h⟩ := upTo_shape w t
  rw [h]

@[simp] theorem telNo_upTo (w : World) (t : Nat) : (w.upTo t).telNo = w.telNo := by
  obtain ⟨_, _, _, h⟩ := upTo_shape w t
  rw [h]

@[simp] theorem dma_upTo (w : World) (t : Nat) : (w.upTo t).dma = w.dma := by
  obtain ⟨_, _, _, h⟩ := upTo_shape w t
  rw [h]

@[simp] theorem trc_upTo (w : World) (t : Nat) : (w.upTo t).trc = w.trc := by
  obtain ⟨_, _, _, h⟩ := upTo_shape w t
  rw [h]

@[simp] theorem wiping_upTo (w : World) (t : Nat) : (w.upTo t).wiping = w.wiping := by
  obtain ⟨_, _, _, h⟩ := upTo_shape w t
  rw [h]

@[simp] theorem srv_upTo (w : World) (t : Nat) : (w.upTo t).srv = w.srv := by
  obtain ⟨_, _, _, h⟩ := upTo_shape w t
  rw [h]

@[simp] theorem flt_upTo (w : World) (t : Nat) : (w.upTo t).flt = w.flt := by
  obtain ⟨_, _, _, h⟩ := upTo_shape w t
  rw [h]

@[simp] theorem inputs_upTo (w : World) (t : Nat) : (w.upTo t).inputs = w.inputs := by
  obtain ⟨_, _, _, h⟩ := upTo_shape w t
  rw [h]

@[simp] theorem pd_upTo (w : World) (t : Nat) : (w.upTo t).pd = w.pd := by
  obtain ⟨_, _, _, h⟩ := upTo_shape w t
  rw [h]

@[simp] theorem crn_upTo (w : World) (t : Nat) : (w.upTo t).crn = w.crn := by
  obtain ⟨_, _, _, h⟩ := upTo_shape w t
  rw [h]

@[simp] theorem boosts_upTo (w : World) (t : Nat) : (w.upTo t).boosts = w.boosts := by
  obtain ⟨_, _, _, h⟩ := upTo_shape w t
  rw [h]

@[simp] theorem pmb_upTo (w : World) (t : Nat) : (w.upTo t).pmb = w.pmb := by
  obtain ⟨_, _, _, h⟩ := upTo_shape w t
  rw [h]

@[simp] theorem budgets_upTo (w : World) (t : Nat) : (w.upTo t).budgets = w.budgets := by
  obtain ⟨_, _, _, h⟩ := upTo_shape w t
  rw [h]

@[simp] theorem sentArmed_upTo (w : World) (t : Nat) : (w.upTo t).sentArmed = w.sentArmed := by
  obtain ⟨_, _, _, h⟩ := upTo_shape w t
  rw [h]

@[simp] theorem led_upTo (w : World) (t : Nat) : (w.upTo t).led = w.led := by
  obtain ⟨_, _, _, h⟩ := upTo_shape w t
  rw [h]

@[simp] theorem cores_upTo (w : World) (t : Nat) : (w.upTo t).cores = w.cores := by
  obtain ⟨_, _, _, h⟩ := upTo_shape w t
  rw [h]

@[simp] theorem lsTimes_upTo (w : World) (t : Nat) : (w.upTo t).lsTimes = w.lsTimes := by
  obtain ⟨_, _, _, h⟩ := upTo_shape w t
  rw [h]

@[simp] theorem pwr_upTo (w : World) (t : Nat) : (w.upTo t).pwr = w.pwr := by
  obtain ⟨_, _, _, h⟩ := upTo_shape w t
  rw [h]

@[simp] theorem free_upTo (w : World) (t : Nat) : (w.upTo t).free = w.free := by
  obtain ⟨_, _, _, h⟩ := upTo_shape w t
  rw [h]

@[simp] theorem fwq_upTo (w : World) (t : Nat) : (w.upTo t).fwq = w.fwq := by
  obtain ⟨_, _, _, h⟩ := upTo_shape w t
  rw [h]

@[simp] theorem fwp_upTo (w : World) (t : Nat) : (w.upTo t).fwp = w.fwp := by
  obtain ⟨_, _, _, h⟩ := upTo_shape w t
  rw [h]

@[simp] theorem otp_upTo (w : World) (t : Nat) : (w.upTo t).otp = w.otp := by
  obtain ⟨_, _, _, h⟩ := upTo_shape w t
  rw [h]

@[simp] theorem otpWr_upTo (w : World) (t : Nat) : (w.upTo t).otpWr = w.otpWr := by
  obtain ⟨_, _, _, h⟩ := upTo_shape w t
  rw [h]

@[simp] theorem sec_upTo (w : World) (t : Nat) : (w.upTo t).sec = w.sec := by
  obtain ⟨_, _, _, h⟩ := upTo_shape w t
  rw [h]

@[simp] theorem side_upTo (w : World) (t : Nat) : (w.upTo t).side = w.side := by
  obtain ⟨_, _, _, h⟩ := upTo_shape w t
  rw [h]

@[simp] theorem jtag_upTo (w : World) (t : Nat) : (w.upTo t).jtag = w.jtag := by
  obtain ⟨_, _, _, h⟩ := upTo_shape w t
  rw [h]

@[simp] theorem lf_upTo (w : World) (t : Nat) (G : Fld) (j : Nat) : (w.upTo t).lf G j = w.lf G j := by
  simp [World.lf]

@[simp] theorem engine_upTo (w : World) (t : Nat) (j : Nat) : (w.upTo t).engine j = w.engine j := by
  simp [World.engine]

@[simp] theorem intent_upTo (w : World) (t : Nat) (j : Nat) : (w.upTo t).intent j = w.intent j := by
  simp [World.intent]

@[simp] theorem rail_upTo (w : World) (t : Nat) (j : Nat) : (w.upTo t).rail j = w.rail j := by
  simp [World.rail]

@[simp] theorem phase_upTo (w : World) (t : Nat) (j : Nat) : (w.upTo t).phase j = w.phase j := by
  simp [World.phase]

@[simp] theorem converter_upTo (w : World) (t : Nat) (j : Nat) : (w.upTo t).converter j = w.converter j := by
  simp [World.converter]

@[simp] theorem fc_upTo (w : World) (t : Nat) (j : Nat) : (w.upTo t).fc j = w.fc j := by
  simp [World.fc]

@[simp] theorem ring_upTo (w : World) (t : Nat) (j : Nat) : (w.upTo t).ring j = w.ring j := by
  simp [World.ring]

@[simp] theorem ledger_upTo (w : World) (t : Nat) (j : Nat) : (w.upTo t).ledger j = w.ledger j := by
  simp [World.ledger]

@[simp] theorem core_upTo (w : World) (t : Nat) (j : Nat) : (w.upTo t).core j = w.core j := by
  simp [World.core]

end Sys2Proof.Machine
end

