-- ==== Sys2Proof/Laws/Keeps.lean ====
section
/-! SUPPORT. Frames over the register store: `Keeps l w w'` says that every register field whose number is not in `l` reads in
`w'` as it did in `w`.  Each update has its rule, so that the frame of an operation is put together from its parts. -/

namespace Sys2Proof.Machine

theorem Keeps.f {l : List Nat} {w w' : World} (h : Keeps l w w') {G : Fld} (hG : G.id < 4096 ∧ G.id ∉ l) (j : Nat) :
    w'.f G j = w.f G j := h G hG.1 hG.2 j

theorem Keeps.refl (l : List Nat) (w : World) : Keeps l w w := fun _ _ _ _ => rfl

theorem Keeps.trans {l : List Nat} {a b c : World} (h : Keeps l a b) (g : Keeps l b c) : Keeps l a c :=
  fun G h1 h2 j => (g G h1 h2 j).trans (h G h1 h2 j)

theorem Keeps.mono {l m : List Nat} {a b : World} (h : Keeps l a b) (hs : l ⊆ m) : Keeps m a b :=
  fun G h1 h2 j => h G h1 (fun x => h2 (hs x)) j

/-- Any update that leaves the register store alone. -/
theorem Keeps.regs {l : List Nat} {a b c : World} (h : Keeps l a b) (g : c.regs = b.regs) : Keeps l a c :=
  fun G h1 h2 j => by rw [← h G h1 h2 j]; simp only [World.f, g]

theorem Keeps.sf {l : List Nat} {a b : World} (h : Keeps l a b) {F : Fld} {i v : Nat} (hF : F.id < 4096 ∧ F.id ∈ l) :
    Keeps l a (b.sf F i v) := fun G h1 h2 j => by
  rw [f_sf_ne (G := G) (F := F) b i v j ⟨fun x => h2 (x ▸ hF.2), h1, hF.1⟩]
  exact h G h1 h2 j

theorem Keeps.inc {l : List Nat} {a b : World} (h : Keeps l a b) {F : Fld} {i : Nat} (hF : F.id < 4096 ∧ F.id ∈ l) :
    Keeps l a (b.inc F i) := h.sf hF

theorem Keeps.incSat {l : List Nat} {a b : World} (h : Keeps l a b) {F : Fld} {i : Nat} (hF : F.id < 4096 ∧ F.id ∈ l) :
    Keeps l a (b.incSat F i) := h.sf hF

theorem Keeps.sfI {l : List Nat} {a b : World} (h : Keeps l a b) {F : Fld} {i : Nat} {v : Int}
    (hF : F.id < 4096 ∧ F.id ∈ l) : Keeps l a (b.sfI F i v) := h.sf hF

theorem Keeps.orBit {l : List Nat} {a b : World} (h : Keeps l a b) {F : Fld} {i k : Nat} (hF : F.id < 4096 ∧ F.id ∈ l) :
    Keeps l a (b.orBit F i k) := h.sf hF

theorem Keeps.clrBit {l : List Nat} {a b : World} (h : Keeps l a b) {F : Fld} {i k : Nat} (hF : F.id < 4096 ∧ F.id ∈ l) :
    Keeps l a (b.clrBit F i k) := h.sf hF

theorem Keeps.ite {l : List Nat} {a b c : World} {p : Prop} [Decidable p] (h : Keeps l a b) (g : Keeps l a c) :
    Keeps l a (if p then b else c) := by split <;> assumption

theorem Keeps.when {l : List Nat} {a b : World} {c : Bool} {f : World → World} (h : Keeps l a b)
    (g : ∀ w, Keeps l a w → Keeps l a (f w)) : Keeps l a (b.when c f) := by
  unfold World.when
  split
  · exact g b h
  · exact h

theorem Keeps.foldl {α : Type} {l : List Nat} {a : World} {f : World → α → World} (xs : List α) {b : World}
    (h : Keeps l a b) (g : ∀ w x, Keeps l a w → Keeps l a (f w x)) : Keeps l a (xs.foldl f b) := by
  induction xs generalizing b with
  | nil => exact h
  | cons x xs ih => exact ih (g b x h)

theorem Keeps.upTo {l : List Nat} {a b : World} (h : Keeps l a b) {t : Nat}
    (hl : F.TM_CTL_RUN.id ∈ l ∧ F.TM_STAT_ARMED.id ∈ l) : Keeps l a (b.upTo t) := fun G h1 h2 j => by
  rw [f_upTo b t ⟨fun x => h2 (x ▸ hl.1), fun x => h2 (x ▸ hl.2), h1⟩]
  exact h G h1 h2 j

/-! ### Updates outside the register store -/

theorem Keeps.setEngine {l : List Nat} {a b : World} (h : Keeps l a b) {k : Nat} {e : Eng} : Keeps l a (b.setEngine k e) := h.regs rfl
theorem Keeps.setIntent {l : List Nat} {a b : World} (h : Keeps l a b) {k : Nat} {e : Itn} : Keeps l a (b.setIntent k e) := h.regs rfl
theorem Keeps.setRail {l : List Nat} {a b : World} (h : Keeps l a b) {k : Nat} {e : Prt} : Keeps l a (b.setRail k e) := h.regs rfl
theorem Keeps.setPhase {l : List Nat} {a b : World} (h : Keeps l a b) {k : Nat} {e : Ph} : Keeps l a (b.setPhase k e) := h.regs rfl
theorem Keeps.setConverter {l : List Nat} {a b : World} (h : Keeps l a b) {k : Nat} {e : Conv} : Keeps l a (b.setConverter k e) := h.regs rfl
theorem Keeps.setFc {l : List Nat} {a b : World} (h : Keeps l a b) {k : Nat} {e : Fc} : Keeps l a (b.setFc k e) := h.regs rfl
theorem Keeps.setRing {l : List Nat} {a b : World} (h : Keeps l a b) {k : Nat} {e : Ring} : Keeps l a (b.setRing k e) := h.regs rfl
theorem Keeps.setLedger {l : List Nat} {a b : World} (h : Keeps l a b) {k : Nat} {e : Led} : Keeps l a (b.setLedger k e) := h.regs rfl
theorem Keeps.setCore {l : List Nat} {a b : World} (h : Keeps l a b) {k : Nat} {e : Core} : Keeps l a (b.setCore k e) := h.regs rfl
theorem Keeps.setTimer {l : List Nat} {a b : World} (h : Keeps l a b) {k : Nat} {e : Tm} : Keeps l a (b.setTimer k e) := h.regs rfl
theorem Keeps.slf {l : List Nat} {a b : World} (h : Keeps l a b) {F : Fld} {i v : Nat} : Keeps l a (b.slf F i v) := h.regs rfl
theorem Keeps.adopt {l : List Nat} {a b : World} (h : Keeps l a b) {F : Fld} {i : Nat} : Keeps l a (b.adopt F i) := h.regs rfl
theorem Keeps.emit {l : List Nat} {a b : World} (h : Keeps l a b) {o : Out} : Keeps l a (b.emit o) := h.regs rfl
theorem Keeps.pulse {l : List Nat} {a b : World} (h : Keeps l a b) {n : Nat} : Keeps l a (b.pulse n) := h.regs rfl
theorem Keeps.send {l : List Nat} {a b : World} (h : Keeps l a b) {m : BlyOut} : Keeps l a (b.send m) := h.regs rfl
theorem Keeps.with_live {l : List Nat} {a b : World} (h : Keeps l a b) {x : List (Nat × Nat)} : Keeps l a { b with live := x } := h.regs rfl
theorem Keeps.with_rwo {l : List Nat} {a b : World} (h : Keeps l a b) {x : List Nat} : Keeps l a { b with rwo := x } := h.regs rfl
theorem Keeps.with_hold {l : List Nat} {a b : World} (h : Keeps l a b) {x : List (Nat × Nat)} : Keeps l a { b with hold := x } := h.regs rfl
theorem Keeps.with_clk {l : List Nat} {a b : World} (h : Keeps l a b) {x : Clock} : Keeps l a { b with clk := x } := h.regs rfl
theorem Keeps.with_pins {l : List Nat} {a b : World} (h : Keeps l a b) {x : Pins} : Keeps l a { b with pins := x } := h.regs rfl
theorem Keeps.with_out {l : List Nat} {a b : World} (h : Keeps l a b) {x : List Out} : Keeps l a { b with out := x } := h.regs rfl
theorem Keeps.with_islOn {l : List Nat} {a b : World} (h : Keeps l a b) {x : Nat} : Keeps l a { b with islOn := x } := h.regs rfl
theorem Keeps.with_irqEdge {l : List Nat} {a b : World} (h : Keeps l a b) {x : List Nat} : Keeps l a { b with irqEdge := x } := h.regs rfl
theorem Keeps.with_eng {l : List Nat} {a b : World} (h : Keeps l a b) {x : List (Nat × Eng)} : Keeps l a { b with eng := x } := h.regs rfl
theorem Keeps.with_itn {l : List Nat} {a b : World} (h : Keeps l a b) {x : List (Nat × Itn)} : Keeps l a { b with itn := x } := h.regs rfl
theorem Keeps.with_prt {l : List Nat} {a b : World} (h : Keeps l a b) {x : List (Nat × Prt)} : Keeps l a { b with prt := x } := h.regs rfl
theorem Keeps.with_ph {l : List Nat} {a b : World} (h : Keeps l a b) {x : List (Nat × Ph)} : Keeps l a { b with ph := x } := h.regs rfl
theorem Keeps.with_conv {l : List Nat} {a b : World} (h : Keeps l a b) {x : List (Nat × Conv)} : Keeps l a { b with conv := x } := h.regs rfl
theorem Keeps.with_bindOk {l : List Nat} {a b : World} (h : Keeps l a b) {x : Nat} : Keeps l a { b with bindOk := x } := h.regs rfl
theorem Keeps.with_fcs {l : List Nat} {a b : World} (h : Keeps l a b) {x : List (Nat × Fc)} : Keeps l a { b with fcs := x } := h.regs rfl
theorem Keeps.with_cmd {l : List Nat} {a b : World} (h : Keeps l a b) {x : CmdSt} : Keeps l a { b with cmd := x } := h.regs rfl
theorem Keeps.with_bly {l : List Nat} {a b : World} (h : Keeps l a b) {x : Bly} : Keeps l a { b with bly := x } := h.regs rfl
theorem Keeps.with_rings {l : List Nat} {a b : World} (h : Keeps l a b) {x : List (Nat × Ring)} : Keeps l a { b with rings := x } := h.regs rfl
theorem Keeps.with_buf {l : List Nat} {a b : World} (h : Keeps l a b) {x : List BufEnt} : Keeps l a { b with buf := x } := h.regs rfl
theorem Keeps.with_pcie {l : List Nat} {a b : World} (h : Keeps l a b) {x : Pcie} : Keeps l a { b with pcie := x } := h.regs rfl
theorem Keeps.with_noFetch {l : List Nat} {a b : World} (h : Keeps l a b) {x : Bool} : Keeps l a { b with noFetch := x } := h.regs rfl
theorem Keeps.with_telNo {l : List Nat} {a b : World} (h : Keeps l a b) {x : Nat} : Keeps l a { b with telNo := x } := h.regs rfl
theorem Keeps.with_dma {l : List Nat} {a b : World} (h : Keeps l a b) {x : List (Nat × List DJob)} : Keeps l a { b with dma := x } := h.regs rfl
theorem Keeps.with_trc {l : List Nat} {a b : World} (h : Keeps l a b) {x : List (Nat × Trc)} : Keeps l a { b with trc := x } := h.regs rfl
theorem Keeps.with_wiping {l : List Nat} {a b : World} (h : Keeps l a b) {x : Nat} : Keeps l a { b with wiping := x } := h.regs rfl
theorem Keeps.with_tm {l : List Nat} {a b : World} (h : Keeps l a b) {x : List (Nat × Tm)} : Keeps l a { b with tm := x } := h.regs rfl
theorem Keeps.with_srv {l : List Nat} {a b : World} (h : Keeps l a b) {x : Srv} : Keeps l a { b with srv := x } := h.regs rfl
theorem Keeps.with_flt {l : List Nat} {a b : World} (h : Keeps l a b) {x : List (Nat × Flt)} : Keeps l a { b with flt := x } := h.regs rfl
theorem Keeps.with_inputs {l : List Nat} {a b : World} (h : Keeps l a b) {x : List (Nat × Nat)} : Keeps l a { b with inputs := x } := h.regs rfl
theorem Keeps.with_pd {l : List Nat} {a b : World} (h : Keeps l a b) {x : List (Nat × Pd)} : Keeps l a { b with pd := x } := h.regs rfl
theorem Keeps.with_crn {l : List Nat} {a b : World} (h : Keeps l a b) {x : Crn} : Keeps l a { b with crn := x } := h.regs rfl
theorem Keeps.with_boosts {l : List Nat} {a b : World} (h : Keeps l a b) {x : List Boost} : Keeps l a { b with boosts := x } := h.regs rfl
theorem Keeps.with_pmb {l : List Nat} {a b : World} (h : Keeps l a b) {x : Pmb} : Keeps l a { b with pmb := x } := h.regs rfl
theorem Keeps.with_budgets {l : List Nat} {a b : World} (h : Keeps l a b) {x : List (Nat × Nat × Nat × Nat)} : Keeps l a { b with budgets := x } := h.regs rfl
theorem Keeps.with_sentArmed {l : List Nat} {a b : World} (h : Keeps l a b) {x : Bool} : Keeps l a { b with sentArmed := x } := h.regs rfl
theorem Keeps.with_led {l : List Nat} {a b : World} (h : Keeps l a b) {x : List (Nat × Led)} : Keeps l a { b with led := x } := h.regs rfl
theorem Keeps.with_cores {l : List Nat} {a b : World} (h : Keeps l a b) {x : List (Nat × Core)} : Keeps l a { b with cores := x } := h.regs rfl
theorem Keeps.with_lsTimes {l : List Nat} {a b : World} (h : Keeps l a b) {x : List (Nat × Nat)} : Keeps l a { b with lsTimes := x } := h.regs rfl
theorem Keeps.with_pwr {l : List Nat} {a b : World} (h : Keeps l a b) {x : Pwr} : Keeps l a { b with pwr := x } := h.regs rfl
theorem Keeps.with_free {l : List Nat} {a b : World} (h : Keeps l a b) {x : Nat} : Keeps l a { b with free := x } := h.regs rfl
theorem Keeps.with_fwq {l : List Nat} {a b : World} (h : Keeps l a b) {x : List FwJob} : Keeps l a { b with fwq := x } := h.regs rfl
theorem Keeps.with_fwp {l : List Nat} {a b : World} (h : Keeps l a b) {x : Option (Nat × Option (List Nat))} : Keeps l a { b with fwp := x } := h.regs rfl
theorem Keeps.with_otp {l : List Nat} {a b : World} (h : Keeps l a b) {x : List (Nat × Nat)} : Keeps l a { b with otp := x } := h.regs rfl
theorem Keeps.with_otpWr {l : List Nat} {a b : World} (h : Keeps l a b) {x : List Nat} : Keeps l a { b with otpWr := x } := h.regs rfl
theorem Keeps.with_sec {l : List Nat} {a b : World} (h : Keeps l a b) {x : Sec} : Keeps l a { b with sec := x } := h.regs rfl
theorem Keeps.with_side {l : List Nat} {a b : World} (h : Keeps l a b) {x : Side} : Keeps l a { b with side := x } := h.regs rfl
theorem Keeps.with_jtag {l : List Nat} {a b : World} (h : Keeps l a b) {x : Jtag} : Keeps l a { b with jtag := x } := h.regs rfl

/-! ### Records, interrupts and messages -/

@[simp] theorem f_irq (w : World) (n : Nat) (G : Fld) (j : Nat) : (w.irq n).f G j = w.f G j := by
  unfold World.irq
  split <;> rfl

theorem irq_regs (w : World) (n : Nat) : (w.irq n).regs = w.regs := by
  unfold World.irq
  split <;> rfl

theorem Keeps.irq {l : List Nat} {a b : World} (h : Keeps l a b) {n : Nat} : Keeps l a (b.irq n) := h.regs (irq_regs _ _)

theorem put_regs (w : World) (e : BufEnt) : (w.put e).regs = w.regs := by
  unfold World.put
  split <;> rfl

theorem when_start_regs (w : World) (b : Bool) (k : Timed) : (w.when b fun w => w.start k).regs = w.regs := by
  cases b <;> rfl

theorem signal_regs (w : World) (n : Nat) (b : Bool) : (w.signal n b).regs = w.regs := by
  unfold World.signal
  dsimp only
  split
  · exact (put_regs _ _).trans (when_start_regs w _ _)
  · exact when_start_regs w _ _

theorem putRecord_regs (w : World) (h : HRec) (b : Bool) : (w.putRecord h b).regs = w.regs :=
  (signal_regs _ _ _).trans (put_regs _ _)

theorem Keeps.start {l : List Nat} {a b : World} (h : Keeps l a b) {k : Timed} : Keeps l a (b.start k) := h.regs rfl
theorem Keeps.put {l : List Nat} {a b : World} (h : Keeps l a b) {e : BufEnt} : Keeps l a (b.put e) := h.regs (put_regs _ _)
theorem Keeps.spend {l : List Nat} {a b : World} (h : Keeps l a b) {x : List Nat} : Keeps l a (b.spend x) := h.regs rfl

theorem enterGap_regs (w : World) (n : Nat) : (w.enterGap n).regs = w.regs := by
  unfold World.enterGap
  split
  · rfl
  · exact putRecord_regs _ _ _

theorem Keeps.record {l : List Nat} {a b : World} (h : Keeps l a b) {cls rail : Nat} {pay : List Nat}
    (hl : recordIds ⊆ l) : Keeps l a (b.record cls rail pay) := by
  have h1 : Keeps l a (b.inc F.RING_SEQ_SEQ (b.routeOf cls)) := h.inc ⟨by decide, hl (by decide)⟩
  unfold World.record
  dsimp only
  split
  · exact (h1.inc ⟨by decide, hl (by decide)⟩).regs rfl
  · exact h1.regs ((putRecord_regs _ _ _).trans (enterGap_regs _ _))

theorem Keeps.cairn {l : List Nat} {a b : World} (h : Keeps l a b) {typ : Nat} {pay : List Nat}
    (hl : F.CRN_STAT_DROPPED.id ∈ l) : Keeps l a (b.cairn typ pay) := by
  unfold World.cairn
  dsimp only
  split
  · exact h.regs rfl
  · exact ((h.inc ⟨by decide, hl⟩).regs (irq_regs _ _)).regs rfl

end Sys2Proof.Machine
end

