-- ==== Sys2Proof/Laws/KeepsRail.lean ====
section
/-! SUPPORT. The register frames of the shared operations of rails, phases, forecasts and completions. -/

namespace Sys2Proof.Machine

theorem Keeps.setNreq {l : List Nat} {a b : World} (h : Keeps l a b) {r n : Nat} (hl : gridIds ⊆ l) :
    Keeps l a (b.setNreq r n) := by
  refine Keeps.trans h (Keeps.mono ?_ hl)
  unfold World.setNreq World.needGrid
  repeat' first
    | with_reducible exact Keeps.refl _ _
    | with_reducible refine Keeps.sf ?_ (by decide)
    | with_reducible refine Keeps.setRail ?_
    | extract_lets +lift
    | split

theorem Keeps.regrid {l : List Nat} {a b : World} (h : Keeps l a b) {r : Nat} (hl : gridIds ⊆ l) :
    Keeps l a (b.regrid r) := by
  refine Keeps.trans h (Keeps.mono ?_ hl)
  unfold World.regrid World.regridPhase
  repeat' first
    | with_reducible assumption
    | with_reducible exact Keeps.refl _ _
    | with_reducible refine Keeps.sf ?_ (by decide)
    | with_reducible refine Keeps.setRail ?_
    | with_reducible refine Keeps.setPhase ?_
    | with_reducible refine Keeps.foldl _ ?_ (fun w x h => ?_)
    | extract_lets +lift
    | split

theorem Keeps.force {l : List Nat} {a b : World} (h : Keeps l a b) {p s n : Nat} (hl : levelIds ⊆ l) :
    Keeps l a (b.force p s n) := by
  refine Keeps.trans h (Keeps.mono ?_ hl)
  unfold World.force World.setPhSt
  repeat' first
    | with_reducible exact Keeps.refl _ _
    | with_reducible refine Keeps.sf ?_ (by decide)
    | with_reducible refine Keeps.setPhase ?_

theorem Keeps.boot {l : List Nat} {a b : World} (h : Keeps l a b) {r p n : Nat} (hl : levelIds ⊆ l) :
    Keeps l a (b.boot r p n) := by
  refine Keeps.trans h (Keeps.mono ?_ hl)
  unfold World.boot
  repeat' first
    | with_reducible exact Keeps.refl _ _
    | with_reducible refine Keeps.setPhase ?_
    | with_reducible refine Keeps.force ?_ (by decide)

theorem Keeps.unkill {l : List Nat} {a b : World} (h : Keeps l a b) {p : Nat} {k : Kill → Bool} (hl : levelIds ⊆ l) :
    Keeps l a (b.unkill p k) := by
  refine Keeps.trans h (Keeps.mono ?_ hl)
  unfold World.unkill World.setKills
  repeat' first
    | with_reducible exact Keeps.refl _ _
    | with_reducible refine Keeps.sf ?_ (by decide)
    | with_reducible refine Keeps.setPhase ?_
    | with_reducible refine Keeps.force ?_ (by decide)
    | with_reducible refine Keeps.boot ?_ (by decide)
    | extract_lets +lift
    | split

theorem Keeps.phasesOff {l : List Nat} {a b : World} (h : Keeps l a b) {r : Nat} (hl : levelIds ⊆ l) :
    Keeps l a (b.phasesOff r) := by
  refine Keeps.trans h (Keeps.mono ?_ hl)
  unfold World.phasesOff
  repeat' first
    | with_reducible assumption
    | with_reducible exact Keeps.refl _ _
    | with_reducible refine Keeps.sf ?_ (by decide)
    | with_reducible refine Keeps.setPhase ?_
    | with_reducible refine Keeps.foldl _ ?_ (fun w x h => ?_)
    | with_reducible refine Keeps.force ?_ (by decide)

theorem Keeps.offEdge {l : List Nat} {a b : World} (h : Keeps l a b) {r p n : Nat} (hl : loadIds ⊆ l) :
    Keeps l a (b.offEdge r p n) := by
  refine Keeps.trans h (Keeps.mono ?_ hl)
  unfold World.offEdge
  repeat' first
    | with_reducible exact Keeps.refl _ _
    | with_reducible refine Keeps.sf ?_ (by decide)
    | with_reducible refine Keeps.setPhase ?_

theorem Keeps.loadWord {l : List Nat} {a b : World} (h : Keeps l a b) {r p d n : Nat} (hl : loadIds ⊆ l) :
    Keeps l a (b.loadWord r p d n) := by
  refine Keeps.trans h (Keeps.mono ?_ hl)
  unfold World.loadWord World.loadHigh World.loadLow World.lim
  repeat' first
    | with_reducible assumption
    | with_reducible exact Keeps.refl _ _
    | with_reducible refine Keeps.sf ?_ (by decide)
    | with_reducible refine Keeps.setPhase ?_
    | with_reducible refine Keeps.when ?_ (fun w h => ?_)
    | extract_lets +lift
    | split

theorem Keeps.loadPulse {l : List Nat} {a b : World} (h : Keeps l a b) {r p d n : Nat} (hl : loadIds ⊆ l) :
    Keeps l a (b.loadPulse r p d n) := by
  refine Keeps.trans h (Keeps.mono ?_ hl)
  unfold World.loadPulse World.lim
  repeat' first
    | with_reducible assumption
    | with_reducible exact Keeps.refl _ _
    | with_reducible refine Keeps.sf ?_ (by decide)
    | with_reducible refine Keeps.setPhase ?_
    | with_reducible refine Keeps.when ?_ (fun w h => ?_)
    | extract_lets +lift
    | split

theorem Keeps.settleL {l : List Nat} {a : World} {r p lim : Nat} (hl : loadIds ⊆ l) (xs : List Load) {b : World} (h : Keeps l a b) :
    Keeps l a (b.settleL r p lim xs) := by
  induction xs generalizing b with
  | nil => exact h.setPhase
  | cons x xs ih =>
    unfold World.settleL World.offIfDue
    split
    · exact ih (Keeps.ite (Keeps.loadPulse (Keeps.ite (h.offEdge hl) h) hl) (Keeps.loadWord (Keeps.ite (h.offEdge hl) h) hl))
    · exact h.setPhase

theorem Keeps.settle {l : List Nat} {a b : World} (h : Keeps l a b) {p lim : Nat} (hl : loadIds ⊆ l) : Keeps l a (b.settle p lim) := by
  unfold World.settle
  split
  · exact h
  · exact Keeps.ite h (Keeps.settleL hl _ h)

theorem Keeps.kill {l : List Nat} {a b : World} (h : Keeps l a b) {p : Nat} {k : Kill} (hl : killIds ⊆ l) :
    Keeps l a (b.kill p k) := by
  refine Keeps.trans h (Keeps.mono ?_ hl)
  unfold World.kill World.dropLoads World.setKills
  repeat' first
    | with_reducible assumption
    | with_reducible exact Keeps.refl _ _
    | with_reducible refine Keeps.sf ?_ (by decide)
    | with_reducible refine Keeps.setPhase ?_
    | with_reducible refine Keeps.when ?_ (fun w h => ?_)
    | with_reducible refine Keeps.settle ?_ (by decide)
    | with_reducible refine Keeps.force ?_ (by decide)
    | extract_lets +lift
    | split

theorem Keeps.queueOutcome {l : List Nat} {a b : World} (h : Keeps l a b) {o : Outcome} (hl : outcomeIds ⊆ l) :
    Keeps l a (b.queueOutcome o) := by
  refine Keeps.trans h (Keeps.mono ?_ hl)
  unfold World.queueOutcome World.tstat World.releaseOne
  repeat' first
    | with_reducible assumption
    | with_reducible exact Keeps.refl _ _
    | with_reducible refine Keeps.sf ?_ (by decide)
    | with_reducible refine Keeps.incSat ?_ (by decide)
    | with_reducible refine Keeps.setIntent ?_
    | with_reducible refine Keeps.record ?_ (by decide)
    | with_reducible refine Keeps.when ?_ (fun w h => ?_)
    | extract_lets +lift
    | split

theorem Keeps.freeFc {l : List Nat} {a b : World} (h : Keeps l a b) {i : Nat} (hl : fcIds ⊆ l) :
    Keeps l a (b.freeFc i) := by
  refine Keeps.trans h (Keeps.mono ?_ hl)
  unfold World.freeFc World.showFlight World.endBoost
  repeat' first
    | with_reducible exact Keeps.refl _ _
    | with_reducible refine Keeps.sf ?_ (by decide)
    | with_reducible refine Keeps.setIntent ?_
    | with_reducible refine Keeps.setFc ?_
    | with_reducible refine Keeps.with_boosts ?_

theorem Keeps.endFc {l : List Nat} {a b : World} (h : Keeps l a b) {i : Nat} {why : Reason} (hl : fcIds ⊆ l) :
    Keeps l a (b.endFc i why) := by
  refine Keeps.trans h (Keeps.mono ?_ hl)
  unfold World.endFc
  repeat' first
    | with_reducible exact Keeps.refl _ _
    | with_reducible refine Keeps.setFc ?_
    | with_reducible refine Keeps.queueOutcome ?_ (by decide)
    | with_reducible refine Keeps.freeFc ?_ (by decide)

theorem Keeps.startRollback {l : List Nat} {a b : World} (h : Keeps l a b) {r i : Nat} {why rest : Reason} :
    Keeps l a (b.startRollback r i why rest) := by
  unfold World.startRollback World.toRolling
  repeat' first
    | with_reducible assumption
    | with_reducible refine Keeps.setIntent ?_
    | with_reducible refine Keeps.setFc ?_
    | with_reducible refine Keeps.foldl _ ?_ (fun w x h => ?_)

/-- The end of a rail's forecasts by a trip, a disable or a stop. -/
theorem Keeps.endForecasts {l : List Nat} {a b : World} (h : Keeps l a b) {r : Nat} {why : Reason} (hl : fcIds ⊆ l) :
    Keeps l a (b.endForecasts r why) := by
  refine Keeps.trans h (Keeps.mono ?_ hl)
  unfold World.endForecasts
  repeat' first
    | with_reducible assumption
    | with_reducible exact Keeps.refl _ _
    | with_reducible refine Keeps.setFc ?_
    | with_reducible refine Keeps.send ?_
    | with_reducible refine Keeps.when ?_ (fun w h => ?_)
    | with_reducible refine Keeps.foldl _ ?_ (fun w x h => ?_)
    | with_reducible refine Keeps.startRollback ?_
    | with_reducible refine Keeps.freeFc ?_ (by decide)
    | with_reducible refine Keeps.endFc ?_ (by decide)
    | extract_lets +lift
    | split

theorem Keeps.finishRollback {l : List Nat} {a b : World} (h : Keeps l a b) {r : Nat} (hl : rollIds ⊆ l) :
    Keeps l a (b.finishRollback r) := by
  refine Keeps.trans h (Keeps.mono ?_ hl)
  unfold World.finishRollback
  repeat' first
    | with_reducible assumption
    | with_reducible exact Keeps.refl _ _
    | with_reducible refine Keeps.sf ?_ (by decide)
    | with_reducible refine Keeps.setIntent ?_
    | with_reducible refine Keeps.foldl _ ?_ (fun w x h => ?_)
    | with_reducible refine Keeps.queueOutcome ?_ (by decide)
    | with_reducible refine Keeps.freeFc ?_ (by decide)
    | with_reducible refine Keeps.setNreq ?_ (by decide)
    | extract_lets +lift
    | split

theorem Keeps.stopRollback {l : List Nat} {a b : World} (h : Keeps l a b) {r : Nat} (hl : rollIds ⊆ l) :
    Keeps l a (b.stopRollback r) := by
  refine Keeps.trans h (Keeps.mono ?_ hl)
  unfold World.stopRollback
  repeat' first
    | with_reducible exact Keeps.refl _ _
    | with_reducible refine Keeps.sf ?_ (by decide)
    | with_reducible refine Keeps.setEngine ?_
    | with_reducible refine Keeps.setIntent ?_
    | with_reducible refine Keeps.finishRollback ?_ (by decide)
    | extract_lets +lift
    | split

theorem Keeps.dropCal {l : List Nat} {a b : World} (h : Keeps l a b) {r : Nat} (hl : [F.LE_CALCFG_EVERY.id] ⊆ l) :
    Keeps l a (b.dropCal r) := by
  refine Keeps.trans h (Keeps.mono ?_ hl)
  unfold World.dropCal
  repeat' first
    | with_reducible exact Keeps.refl _ _
    | with_reducible refine Keeps.sf ?_ (by decide)
    | with_reducible refine Keeps.setRail ?_
    | with_reducible refine Keeps.slf ?_
    | extract_lets +lift
    | split

theorem bindFaults_ids (w : World) (g : Nat) : ∀ F ∈ w.bindFaults g, F.id < 4096 ∧ F.id ∈ bindIds := by
  unfold World.bindFaults
  simp only [List.mem_append]
  intro F h
  rcases h with (((h | h) | h) | h) | h
  all_goals
    split at h
    · rw [List.mem_singleton] at h
      subst h
      decide
    · exact absurd h (List.not_mem_nil)

theorem Keeps.bindShow {l : List Nat} {a b : World} (h : Keeps l a b) {l' : List Nat} (hl : bindIds ⊆ l) :
    Keeps l a (b.bindShow l') := by
  refine Keeps.trans h (Keeps.mono ?_ hl)
  unfold World.bindShow World.needGrid
  repeat' first
    | with_reducible assumption
    | with_reducible exact Keeps.refl _ _
    | with_reducible refine Keeps.sf ?_ (by decide)
    | with_reducible refine Keeps.setRail ?_
    | with_reducible refine Keeps.foldl _ ?_ (fun w x h => ?_)
    | extract_lets +lift
    | split

theorem Keeps.bindPhase {l : List Nat} {a b : World} (h : Keeps l a b) {p : Nat} (hl : bindIds ⊆ l) :
    Keeps l a (b.bindPhase p) := by
  refine Keeps.trans h (Keeps.mono ?_ hl)
  unfold World.bindPhase World.setKills
  repeat' first
    | with_reducible exact Keeps.refl _ _
    | with_reducible refine Keeps.sf ?_ (by decide)
    | with_reducible refine Keeps.setPhase ?_
    | with_reducible refine Keeps.slf ?_
    | with_reducible refine Keeps.force ?_ (by decide)
    | with_reducible refine Keeps.kill ?_ (by decide)
    | extract_lets +lift
    | split

theorem Keeps.bindAdopt {l : List Nat} {a b : World} (h : Keeps l a b) {g : Nat} {sel : Nat → Bool} (hl : bindIds ⊆ l) :
    Keeps l a (b.bindAdopt g sel) := by
  refine Keeps.trans h (Keeps.mono ?_ hl)
  unfold World.bindAdopt World.bindForget
  repeat' first
    | with_reducible assumption
    | with_reducible exact Keeps.refl _ _
    | with_reducible refine Keeps.sf ?_ (by decide)
    | with_reducible refine Keeps.foldl _ ?_ (fun w x h => ?_)
    | with_reducible refine Keeps.bindShow ?_ (by decide)
    | with_reducible refine Keeps.bindPhase ?_ (by decide)
    | with_reducible refine Keeps.ite ?_ ?_
    | with_reducible refine Keeps.with_bindOk ?_

theorem Keeps.sfs {l : List Nat} {a : World} {i v : Nat} (fs : List Fld) (hf : ∀ F ∈ fs, F.id < 4096 ∧ F.id ∈ l) {b : World}
    (h : Keeps l a b) : Keeps l a (fs.foldl (fun w F => w.sf F i v) b) := by
  induction fs generalizing b with
  | nil => exact h
  | cons F fs ih => exact ih (fun G hG => hf G (List.mem_cons_of_mem _ hG)) (h.sf (hf F List.mem_cons_self))

theorem Keeps.bindPoint {l : List Nat} {a b : World} (h : Keeps l a b) {g : Nat} {r : Option Nat} (hl : bindIds ⊆ l) :
    Keeps l a (b.bindPoint g r) := by
  refine Keeps.trans h (Keeps.mono ?_ hl)
  unfold World.bindPoint
  extract_lets +lift diff mine gs bad idle
  have hb : ∀ F ∈ bad, F.id < 4096 ∧ F.id ∈ bindIds := fun F hF => by
    obtain ⟨x, -, hx⟩ := List.mem_flatMap.1 hF
    exact bindFaults_ids b x F hx
  refine Keeps.ite (Keeps.refl _ _) (Keeps.ite (Keeps.ite (Keeps.refl _ _) (Keeps.ite ?_ ?_)) ?_)
  · exact Keeps.foldl _ (Keeps.refl _ _) fun w h k => (Keeps.sfs bad hb k).sf (by decide)
  · exact Keeps.bindAdopt (Keeps.with_bindOk (Keeps.refl _ _)) (List.Subset.refl _)
  · exact Keeps.bindAdopt (Keeps.refl _ _) (List.Subset.refl _)

theorem Keeps.railSetAdopt {l : List Nat} {a b : World} (h : Keeps l a b) {r : Nat} (hl : setIds ⊆ l) :
    Keeps l a (b.railSetAdopt r) := by
  refine Keeps.trans h (Keeps.mono ?_ hl)
  unfold World.railSetAdopt World.adoptAll World.needGrid
  repeat' first
    | with_reducible assumption
    | with_reducible exact Keeps.refl _ _
    | with_reducible refine Keeps.sf ?_ (by decide)
    | with_reducible refine Keeps.clrBit ?_ (by decide)
    | with_reducible refine Keeps.setRail ?_
    | with_reducible refine Keeps.when ?_ (fun w h => ?_)
    | with_reducible refine Keeps.foldl _ ?_ (fun w x h => ?_)
    | with_reducible refine Keeps.adopt ?_
    | extract_lets +lift
    | split

theorem Keeps.stopRunning {l : List Nat} {a b : World} (h : Keeps l a b) {r : Nat} (hl : stopIds ⊆ l) :
    Keeps l a (b.stopRunning r) := by
  refine Keeps.trans h (Keeps.mono ?_ hl)
  unfold World.stopRunning
  repeat' first
    | with_reducible assumption
    | with_reducible exact Keeps.refl _ _
    | with_reducible refine Keeps.sf ?_ (by decide)
    | with_reducible refine Keeps.setRail ?_
    | with_reducible refine Keeps.when ?_ (fun w h => ?_)
    | with_reducible refine Keeps.stopRollback ?_ (by decide)
    | with_reducible refine Keeps.endForecasts ?_ (by decide)
    | with_reducible refine Keeps.phasesOff ?_ (by decide)
    | with_reducible refine Keeps.railSetAdopt ?_ (by decide)
    | with_reducible refine Keeps.bindPoint ?_ (by decide)
    | with_reducible refine Keeps.regrid ?_ (by decide)

theorem Keeps.disableStep {l : List Nat} {a b : World} (h : Keeps l a b) {r : Nat} (hl : stopIds ⊆ l) :
    Keeps l a (b.disableStep r) := by
  refine Keeps.trans h (Keeps.mono ?_ hl)
  unfold World.disableStep
  repeat' first
    | with_reducible exact Keeps.refl _ _
    | with_reducible refine Keeps.setRail ?_
    | with_reducible refine Keeps.stopRunning ?_ (by decide)
    | with_reducible refine Keeps.dropCal ?_ (by decide)

theorem enterWB_regs (w : World) (n : Nat) (s : Slot) (b : WB) : (w.enterWB n s b).regs = w.regs :=
  (signal_regs _ _ _).trans (put_regs _ _)

theorem flushSlots_regs (n : Nat) (l : List Slot) (w : World) : (w.flushSlots n l).regs = w.regs := by
  induction l generalizing w with
  | nil => rfl
  | cons s l ih =>
    unfold World.flushSlots
    split
    · rw [ih, enterWB_regs]
    · rfl

theorem Keeps.flushRing {l : List Nat} {a b : World} (h : Keeps l a b) {n : Nat} : Keeps l a (b.flushRing n) :=
  h.regs (flushSlots_regs _ _ _)

theorem Keeps.enterWB {l : List Nat} {a b : World} (h : Keeps l a b) {n : Nat} {s : Slot} {x : WB} :
    Keeps l a (b.enterWB n s x) := h.regs (enterWB_regs _ _ _ _)

theorem Keeps.setCml {l : List Nat} {a b : World} (h : Keeps l a b) {r n : Nat} : Keeps l a (b.setCml r n) := h.regs rfl

theorem Keeps.avsAlert {l : List Nat} {a b : World} (h : Keeps l a b) {k r : Nat} (hl : F.SI_AVSSTAT_ALERT.id ∈ l) :
    Keeps l a (b.avsAlert k r) := Keeps.foldl _ h fun _ _ h => h.orBit ⟨by decide, hl⟩

theorem Keeps.busCompletion {l : List Nat} {a b : World} (h : Keeps l a b) {c : Cmd} {k st x : Nat} (hl : doneIds ⊆ l) :
    Keeps l a (b.busCompletion c k st x) := by
  refine Keeps.trans h (Keeps.mono ?_ hl)
  unfold World.busCompletion
  repeat' first
    | with_reducible exact Keeps.refl _ _
    | with_reducible refine Keeps.sf ?_ (by decide)
    | with_reducible refine Keeps.emit ?_

theorem Keeps.complete {l : List Nat} {a b : World} (h : Keeps l a b) {c : Cmd} {st x res : Nat} (hl : doneIds ⊆ l) :
    Keeps l a (b.complete c st x res) := by
  refine Keeps.trans h (Keeps.mono ?_ hl)
  have hb := fun k => (Keeps.refl doneIds b).busCompletion (c := c) (k := k) (st := st) (x := x) (List.Subset.refl _)
  unfold World.complete
  split
  · exact Keeps.refl _ _
  · dsimp only
    split
    · exact (Keeps.setRing (Keeps.refl _ _)).flushRing
    · exact (Keeps.refl _ _).enterWB
  · dsimp only
    split
    · exact hb _
    · exact (hb _).setCml
  · dsimp only
    split
    · exact hb _
    · exact (hb _).avsAlert (by decide)
  · split
    · exact Keeps.refl _ _
    · exact (Keeps.refl _ _).sf (by decide)

theorem Keeps.completeWaits {l : List Nat} {a b : World} (h : Keeps l a b) {p : Waiting → Bool} {st x res : Nat}
    (hl : doneIds ⊆ l) : Keeps l a (b.completeWaits p st x res) :=
  Keeps.foldl _ h.with_cmd fun _ _ h => h.complete hl

theorem Keeps.startRail {l : List Nat} {a b : World} (h : Keeps l a b) {r : Nat} {ref : Int} {base : Bool} (hl : startIds ⊆ l) :
    Keeps l a (b.startRail r ref base) := by
  refine Keeps.trans h (Keeps.mono ?_ hl)
  unfold World.startRail World.setRstate World.rscStart
  repeat' first
    | with_reducible assumption
    | with_reducible exact Keeps.refl _ _
    | with_reducible refine Keeps.sf ?_ (by decide)
    | with_reducible refine Keeps.setRail ?_
    | with_reducible refine Keeps.setEngine ?_
    | with_reducible refine Keeps.setIntent ?_
    | with_reducible refine Keeps.setConverter ?_
    | with_reducible refine Keeps.foldl _ ?_ (fun w x h => ?_)
    | with_reducible refine Keeps.setNreq ?_ (by decide)
    | with_reducible refine Keeps.regrid ?_ (by decide)
    | extract_lets +lift
    | split

theorem Keeps.releaseKills {l : List Nat} {a b : World} (h : Keeps l a b) {r : Nat} {k : Kill → Bool} (hl : levelIds ⊆ l) :
    Keeps l a (b.releaseKills r k) := by
  refine Keeps.trans h (Keeps.mono ?_ hl)
  unfold World.releaseKills
  repeat' first
    | with_reducible assumption
    | with_reducible exact Keeps.refl _ _
    | with_reducible refine Keeps.foldl _ ?_ (fun w x h => ?_)
    | with_reducible refine Keeps.unkill ?_ (by decide)

/-! ### Fields that each operation leaves -/

theorem f_record {w : World} {cls rail : Nat} {pay : List Nat} {G : Fld} (h : G.id < 4096 ∧ G.id ∉ recordIds) (j : Nat) :
    (w.record cls rail pay).f G j = w.f G j := ((Keeps.refl recordIds w).record (List.Subset.refl _)).f h j

theorem f_setNreq {w : World} {r n : Nat} {G : Fld} (h : G.id < 4096 ∧ G.id ∉ gridIds) (j : Nat) :
    (w.setNreq r n).f G j = w.f G j := ((Keeps.refl gridIds w).setNreq (List.Subset.refl _)).f h j

theorem f_regrid {w : World} {r : Nat} {G : Fld} (h : G.id < 4096 ∧ G.id ∉ gridIds) (j : Nat) :
    (w.regrid r).f G j = w.f G j := ((Keeps.refl gridIds w).regrid (List.Subset.refl _)).f h j

theorem f_force {w : World} {p s n : Nat} {G : Fld} (h : G.id < 4096 ∧ G.id ∉ levelIds) (j : Nat) :
    (w.force p s n).f G j = w.f G j := ((Keeps.refl levelIds w).force (List.Subset.refl _)).f h j

theorem f_boot {w : World} {r p n : Nat} {G : Fld} (h : G.id < 4096 ∧ G.id ∉ levelIds) (j : Nat) :
    (w.boot r p n).f G j = w.f G j := ((Keeps.refl levelIds w).boot (List.Subset.refl _)).f h j

theorem f_kill {w : World} {p : Nat} {k : Kill} {G : Fld} (h : G.id < 4096 ∧ G.id ∉ killIds) (j : Nat) :
    (w.kill p k).f G j = w.f G j := ((Keeps.refl killIds w).kill (List.Subset.refl _)).f h j

theorem f_unkill {w : World} {p : Nat} {k : Kill → Bool} {G : Fld} (h : G.id < 4096 ∧ G.id ∉ levelIds) (j : Nat) :
    (w.unkill p k).f G j = w.f G j := ((Keeps.refl levelIds w).unkill (List.Subset.refl _)).f h j

theorem f_phasesOff {w : World} {r : Nat} {G : Fld} (h : G.id < 4096 ∧ G.id ∉ levelIds) (j : Nat) :
    (w.phasesOff r).f G j = w.f G j := ((Keeps.refl levelIds w).phasesOff (List.Subset.refl _)).f h j

theorem f_settle {w : World} {p n : Nat} {G : Fld} (h : G.id < 4096 ∧ G.id ∉ loadIds) (j : Nat) :
    (w.settle p n).f G j = w.f G j := ((Keeps.refl loadIds w).settle (List.Subset.refl _)).f h j

theorem f_queueOutcome {w : World} {o : Outcome} {G : Fld} (h : G.id < 4096 ∧ G.id ∉ outcomeIds) (j : Nat) :
    (w.queueOutcome o).f G j = w.f G j := ((Keeps.refl outcomeIds w).queueOutcome (List.Subset.refl _)).f h j

theorem f_freeFc {w : World} {i : Nat} {G : Fld} (h : G.id < 4096 ∧ G.id ∉ fcIds) (j : Nat) :
    (w.freeFc i).f G j = w.f G j := ((Keeps.refl fcIds w).freeFc (List.Subset.refl _)).f h j

theorem f_endFc {w : World} {i : Nat} {why : Reason} {G : Fld} (h : G.id < 4096 ∧ G.id ∉ fcIds) (j : Nat) :
    (w.endFc i why).f G j = w.f G j := ((Keeps.refl fcIds w).endFc (List.Subset.refl _)).f h j

theorem f_endForecasts {w : World} {r : Nat} {why : Reason} {G : Fld} (h : G.id < 4096 ∧ G.id ∉ fcIds) (j : Nat) :
    (w.endForecasts r why).f G j = w.f G j := ((Keeps.refl fcIds w).endForecasts (List.Subset.refl _)).f h j

theorem f_stopRollback {w : World} {r : Nat} {G : Fld} (h : G.id < 4096 ∧ G.id ∉ rollIds) (j : Nat) :
    (w.stopRollback r).f G j = w.f G j := ((Keeps.refl rollIds w).stopRollback (List.Subset.refl _)).f h j

theorem f_bindPoint {w : World} {g : Nat} {r : Option Nat} {G : Fld} (h : G.id < 4096 ∧ G.id ∉ bindIds) (j : Nat) :
    (w.bindPoint g r).f G j = w.f G j := ((Keeps.refl bindIds w).bindPoint (List.Subset.refl _)).f h j

theorem f_railSetAdopt {w : World} {r : Nat} {G : Fld} (h : G.id < 4096 ∧ G.id ∉ setIds) (j : Nat) :
    (w.railSetAdopt r).f G j = w.f G j := ((Keeps.refl setIds w).railSetAdopt (List.Subset.refl _)).f h j

theorem f_stopRunning {w : World} {r : Nat} {G : Fld} (h : G.id < 4096 ∧ G.id ∉ stopIds) (j : Nat) :
    (w.stopRunning r).f G j = w.f G j := ((Keeps.refl stopIds w).stopRunning (List.Subset.refl _)).f h j

theorem f_disableStep {w : World} {r : Nat} {G : Fld} (h : G.id < 4096 ∧ G.id ∉ stopIds) (j : Nat) :
    (w.disableStep r).f G j = w.f G j := ((Keeps.refl stopIds w).disableStep (List.Subset.refl _)).f h j

theorem f_complete {w : World} {c : Cmd} {st x res : Nat} {G : Fld} (h : G.id < 4096 ∧ G.id ∉ doneIds) (j : Nat) :
    (w.complete c st x res).f G j = w.f G j := ((Keeps.refl doneIds w).complete (List.Subset.refl _)).f h j

theorem f_completeWaits {w : World} {p : Waiting → Bool} {st x res : Nat} {G : Fld} (h : G.id < 4096 ∧ G.id ∉ doneIds) (j : Nat) :
    (w.completeWaits p st x res).f G j = w.f G j := ((Keeps.refl doneIds w).completeWaits (List.Subset.refl _)).f h j

theorem f_startRail {w : World} {r : Nat} {ref : Int} {base : Bool} {G : Fld} (h : G.id < 4096 ∧ G.id ∉ startIds) (j : Nat) :
    (w.startRail r ref base).f G j = w.f G j := ((Keeps.refl startIds w).startRail (List.Subset.refl _)).f h j

theorem f_releaseKills {w : World} {r : Nat} {k : Kill → Bool} {G : Fld} (h : G.id < 4096 ∧ G.id ∉ levelIds) (j : Nat) :
    (w.releaseKills r k).f G j = w.f G j := ((Keeps.refl levelIds w).releaseKills (List.Subset.refl _)).f h j

end Sys2Proof.Machine
end

