-- ==== Sys2Proof/Laws/Commands.lean ====
section
/-! SUPPORT. The path of a command that takes its turn at once. -/

namespace Sys2Proof.Machine

/-- The command unit replaced. -/
def World.setCmd (w : World) (c : CmdSt) : World := { w with cmd := c }

@[simp] theorem f_setCmd (w : World) (c : CmdSt) (G : Fld) (j : Nat) : (w.setCmd c).f G j = w.f G j := rfl
@[simp] theorem cmd_setCmd (w : World) (c : CmdSt) : (w.setCmd c).cmd = c := rfl
@[simp] theorem paired_setCmd (w : World) (c : CmdSt) : (w.setCmd c).paired = w.paired := rfl
@[simp] theorem setCmd_setCmd (w : World) (c d : CmdSt) : (w.setCmd c).setCmd d = w.setCmd d := rfl
theorem setCmd_self (w : World) : w.setCmd w.cmd = w := rfl

theorem drawn_keeps (w : World) (op : Op) (r : Nat) :
    Keeps [F.LE_RSEQ_NEXT.id, F.FC_RSTAT_FSEQ.id] w (w.drawn op r) := by
  unfold World.drawn
  split
  · exact ((Keeps.refl _ _).inc (by decide)).inc (by decide)
  · exact (Keeps.refl _ _).inc (by decide)

@[simp] theorem paired_drawn (w : World) (op : Op) (r : Nat) : (w.drawn op r).paired = w.paired := by
  unfold World.paired
  rw [(drawn_keeps w op r).f (by decide), (drawn_keeps w op r).f (by decide)]

/-- Nothing but registers changes when a stamp is drawn. -/
theorem drawn_shape (w : World) (op : Op) (r : Nat) : ∃ g, w.drawn op r = { w with regs := g } := by
  unfold World.drawn
  split <;> exact ⟨_, rfl⟩

@[simp] theorem cmd_drawn (w : World) (op : Op) (r : Nat) : (w.drawn op r).cmd = w.cmd := by
  obtain ⟨_, h⟩ := drawn_shape w op r
  rw [h]

theorem drawStamps_rail (w : World) {r : Nat} (hr : r ≠ 0xFF) (src : CmdSrc) (op : Op) :
    w.drawStamps { src := src, op := op, rail := r, stamp := 0xFFFFFFFF, bad := none }
      = (w.drawn op r, w.stamped src op r) := by
  unfold World.drawStamps World.stamped World.drawn
  rw [if_neg hr]
  cases op
  case forecast p =>
    show ((w.inc F.LE_RSEQ_NEXT r).inc F.FC_RSTAT_FSEQ r, _) = _
    have h : (w.inc F.LE_RSEQ_NEXT r).f F.FC_RSTAT_FSEQ r = w.f F.FC_RSTAT_FSEQ r := f_sf_ne _ _ _ _ (by decide)
    simp only [h]
  all_goals rfl

/-- A present rail's command enters the queue with its stamp (R228). -/
theorem stamp_rail {w : World} {r : Nat} (hr : r < w.nRails) (hp : w.paired = false) (src : CmdSrc) (op : Op) :
    w.stamp src op r none = (w.drawn op r).setCmd { w.cmd with queue := w.cmd.queue ++ [w.stamped src op r] } := by
  have hr24 : w.nRails ≤ 24 := by unfold World.nRails; split <;> omega
  have hcond : ¬(r ≠ 0xFF ∧ w.nRails ≤ r) := by omega
  unfold World.stamp
  rw [if_neg hcond, drawStamps_rail w (by omega) src op]
  show World.when ((w.drawn op r).setCmd { (w.drawn op r).cmd with queue := (w.drawn op r).cmd.queue ++ [w.stamped src op r] }) _ _ = _
  rw [cmd_drawn]
  unfold World.when
  rw [if_neg]
  show ¬(((w.drawn op r).setCmd _).paired = true)
  rw [paired_setCmd, paired_drawn, hp]
  decide

/-- A part without a partner sends no effect message (R249). -/
theorem sendEffect_alone {w : World} (h : w.paired = false) (c : Cmd) (sense : Int) (act : World → World) :
    w.sendEffect c sense act = act w := by
  unfold World.sendEffect
  rw [if_neg (by rw [h]; decide)]

/-- A part without a partner judges the command whose turn it is (R229, R230). -/
theorem turn_alone {v : World} {c : Cmd} {r : Nat} (hr : r < 0x100) (hp : v.paired = false) (h : v.turnOf r = some c) (sense : Int) :
    v.turn r sense = (v.setCmd { v.cmd with queue := v.cmd.queue.erase c }).judge c sense := by
  have hs : ∀ act, (v.setCmd { v.cmd with queue := v.cmd.queue.erase c }).sendEffect c sense act
      = act (v.setCmd { v.cmd with queue := v.cmd.queue.erase c }) := fun act => sendEffect_alone (by rw [paired_setCmd, hp]) c sense act
  unfold World.turn
  rw [if_neg (by omega), h]
  exact (congrArg (ite _ _) (hs (·.judge c sense))).trans (ite_self _)

/-- The only command of a rail whose gate is open has its turn (R229). -/
theorem turnOf_single {v : World} {c : Cmd} {r : Nat} (hr : r ≠ 0xFF) (hq : v.cmd.queue = [c]) (hc : c.rails = [(r, c.stamp)])
    (hg : c.gseq = none) (hf : c.faulted = none) (hp : v.paired = false) (hs : v.sentArmed = false) (hz : v.pwr.sent = 0)
    (hgate : v.f F.LE_RSTATE_GATE r = 0) (hd : v.disabling r = false) (hdue : c.due = none) : v.turnOf r = some c := by
  have hon : (c.on r).isSome = true := by simp [Cmd.on, hc]
  unfold World.turnOf
  simp [hr, hq, List.find?, hon, hc, hg, hf, hp, hs, hz, World.fb, hgate, hd, hdue]

/-- A stamped command that has its turn takes it (R229). -/
theorem issue_turn {w : World} {src : CmdSrc} {op : Op} {r : Nat} {sense : Int} {c : Cmd}
    (h1 : (w.stamp src op r none).cmd.queue.getLast? = some c)
    (h2 : w.cmd.queue.length < (w.stamp src op r none).cmd.queue.length)
    (h3 : (w.stamp src op r none).turnOf r = some c) :
    w.issue src op r sense = (w.stamp src op r none).turn r sense := by
  unfold World.issue
  dsimp only
  rw [h1]
  dsimp only
  rw [if_pos ⟨h2, h3⟩]

/-- A rail command on a free rail is stamped and judged at once (R228, R229). -/
theorem issue_free {w : World} {r : Nat} (h : w.turnFree r) (src : CmdSrc) (op : Op) (sense : Int) :
    w.issue src op r sense = (w.drawn op r).judge (w.stamped src op r) sense := by
  obtain ⟨hr, hq, -, hp, hs, hz, hg, -, hd⟩ := h
  have hr24 : w.nRails ≤ 24 := by unfold World.nRails; split <;> omega
  have hst := stamp_rail hr hp src op
  rw [hq, List.nil_append] at hst
  obtain ⟨_, hshape⟩ := drawn_shape w op r
  have hturn : ((w.drawn op r).setCmd { w.cmd with queue := [w.stamped src op r] }).turnOf r = some (w.stamped src op r) :=
    turnOf_single (by omega) rfl rfl rfl rfl (by rw [paired_setCmd, paired_drawn, hp]) (by rw [hshape]; exact hs)
      (by rw [hshape]; exact hz) (by rw [f_setCmd, (drawn_keeps w op r).f (by decide), hg]) (by rw [hshape]; exact hd) rfl
  have hback : (w.drawn op r).setCmd { w.cmd with queue := [] } = w.drawn op r := by
    rw [show ({ w.cmd with queue := [] } : CmdSt) = (w.drawn op r).cmd by rw [cmd_drawn, ← hq], setCmd_self]
  have hend : ((w.drawn op r).setCmd { w.cmd with queue := [w.stamped src op r] }).turn r sense
      = (w.drawn op r).judge (w.stamped src op r) sense := by
    rw [turn_alone (by omega) (by rw [paired_setCmd, paired_drawn, hp]) hturn sense]
    simp only [cmd_setCmd, List.erase_cons_head]
    rw [setCmd_setCmd, hback]
  rw [issue_turn (c := w.stamped src op r), hst, hend]
  · rw [hst]; rfl
  · rw [hst, hq]; exact Nat.zero_lt_one
  · rw [hst]; exact hturn

/-- Completing no waiting command changes nothing. -/
theorem completeWaits_none (w : World) (p : Waiting → Bool) (hp : ∀ x, p x = false) (st x res : Nat) :
    w.completeWaits p st x res = w := by
  have h1 : w.cmd.waits.filter p = [] := by simp [hp]
  have h2 : (w.cmd.waits.filter fun x => !p x) = w.cmd.waits := by simp [hp]
  unfold World.completeWaits
  simp only [h1, h2]
  rfl

/-- With no command waiting, a command that has passed takes effect at once unless it has an update boundary to wait for (R230). -/
theorem passed_now {v : World} {c : Cmd} {sense : Int} (hw : v.cmd.waits = [])
    (h : v.updating c.rail = false ∨ v.boundaryValue c = none) : v.passed c sense = (v.tookEffect c).effect c sense := by
  have hn : ¬((v.updating c.rail && c.due.isNone && (v.boundaryValue c).isSome) = true) := by
    rcases h with h | h <;> simp [h]
  unfold World.passed
  rw [if_neg hn]
  unfold World.takeEffect
  simp only [hw, List.filter_nil]
  split
  · exact completeWaits_none _ _ (fun x => rfl) _ _ _
  · rfl

/-- On a rail that takes updates, a command that has an update boundary to wait for stands at the front of the queue (R229, R230). -/
theorem passed_due {v : World} {c : Cmd} {sense : Int} {x : Nat} (hu : v.updating c.rail = true) (hd : c.due = none)
    (hx : v.boundaryValue c = some x) :
    v.passed c sense = { v with cmd := { v.cmd with queue := { c with due := some x } :: v.cmd.queue } } := by
  unfold World.passed
  rw [if_pos (by simp [hu, hd, hx]), hx]

/-- A rail command that is legal and within its parameters and own checks passes (R230, R242). -/
theorem judge_passed {v : World} {c : Cmd} {r : Nat} {sense : Int} (hc : c.rail = r) (hr : r ≠ 0xFF)
    (hlegal : legal c.op (v.rstate r) = .acts) (hlc : v.f F.LC_STATE_STATE 0 ≠ 5)
    (hfc : c.op.isForecast = true → v.fb F.FC_CFG_EN 0 = true ∧ v.fb F.FC_RAILA_IEN r = true)
    (hrb : c.op.railBad r = false) (hb : c.op.bad = none) (hcb : c.bad = none) (hpb : v.paramBad c = none)
    (hown : v.ownCheck c = none) (hna : c.namesAbsent v = false) : v.judge c sense = v.passed c sense := by
  have hall : c.op.isAll r = false := by simp [Op.isAll, hr]
  subst hc
  unfold World.judge World.namedRails
  dsimp only
  rw [hall, hna]
  simp only [Bool.false_eq_true, if_false, hr, List.find?, hlegal]
  have h1 : (Legal.acts == Legal.refused) = false := rfl
  have h2 : (Legal.acts == Legal.noEffect) = false := rfl
  have hf : (c.op.isForecast && c.rail != 0xFF && (!v.fb F.FC_CFG_EN 0 || !v.fb F.FC_RAILA_IEN c.rail)) = false := by
    cases h : c.op.isForecast
    · rfl
    · obtain ⟨a, b⟩ := hfc h
      simp [a, b]
  simp only [h1, hlc, hlegal, false_and, if_false, List.all_cons, h2, List.all_nil, Bool.and_false, Bool.false_and,
    Bool.false_eq_true, hf, hrb, hb, hcb, minOff, hpb, hown]

@[simp] theorem stamped_rail (w : World) (src : CmdSrc) (op : Op) (r : Nat) : (w.stamped src op r).rail = r := rfl
@[simp] theorem stamped_op (w : World) (src : CmdSrc) (op : Op) (r : Nat) : (w.stamped src op r).op = op := rfl
@[simp] theorem stamped_src (w : World) (src : CmdSrc) (op : Op) (r : Nat) : (w.stamped src op r).src = src := rfl

theorem tookEffect_stamped (w : World) (src : CmdSrc) (op : Op) (r : Nat) :
    (w.drawn op r).tookEffect (w.stamped src op r) = w.taken op r := rfl

theorem Keeps.taken (w : World) (op : Op) (r : Nat) : Keeps takenIds w (w.taken op r) :=
  ((drawn_keeps w op r).mono (by decide)).sf (by decide)

theorem taken_shape (w : World) (op : Op) (r : Nat) : ∃ g, w.taken op r = { w with regs := g } := by
  obtain ⟨g, h⟩ := drawn_shape w op r
  exact ⟨(w.taken op r).regs, by rw [World.taken, h]; rfl⟩

/-- A rail command on a free rail that is legal and within its parameters and own checks passes at once (R230). -/
theorem issue_passed {w : World} {r : Nat} (h : w.turnFree r) (src : CmdSrc) (op : Op) (sense : Int)
    (hlegal : legal op (w.rstate r) = .acts)
    (hfc : op.isForecast = true → w.fb F.FC_CFG_EN 0 = true ∧ w.fb F.FC_RAILA_IEN r = true)
    (hkind : op.kind ≠ .allOnly ∧ op.kind ≠ .noneOnly) (hb : op.bad = none) (hpb : (w.drawn op r).paramBad (w.stamped src op r) = none)
    (hown : (w.drawn op r).ownCheck (w.stamped src op r) = none) (hna : (w.stamped src op r).namesAbsent w = false) :
    w.issue src op r sense = (w.drawn op r).passed (w.stamped src op r) sense := by
  have hk := drawn_keeps w op r
  have hr24 : w.nRails ≤ 24 := by unfold World.nRails; split <;> omega
  have hr := h.1
  have hrb : op.railBad r = false := by
    unfold Op.railBad
    split
    · exact beq_eq_false_iff_ne.mpr (by omega)
    · rfl
    · rfl
    · next hk => exact absurd hk hkind.1
    · next hk => exact absurd hk hkind.2
  rw [issue_free h, judge_passed (r := r) rfl (by omega) ?_ ?_ ?_ hrb hb rfl hpb hown ?_]
  · unfold World.rstate
    rw [hk.f (by decide)]
    exact hlegal
  · rw [hk.f (by decide)]
    exact h.2.2.2.2.2.2.2.1
  · intro hf
    unfold World.fb
    rw [hk.f (by decide), hk.f (by decide)]
    exact hfc hf
  · obtain ⟨g, hg⟩ := drawn_shape w op r
    rw [hg]
    exact hna

/-- A rail command on a free rail that passes its checks and has no boundary to wait for takes effect at once (R230). -/
theorem issue_acts {w : World} {r : Nat} (h : w.turnFree r) (src : CmdSrc) (op : Op) (sense : Int)
    (hlegal : legal op (w.rstate r) = .acts)
    (hfc : op.isForecast = true → w.fb F.FC_CFG_EN 0 = true ∧ w.fb F.FC_RAILA_IEN r = true)
    (hkind : op.kind ≠ .allOnly ∧ op.kind ≠ .noneOnly) (hb : op.bad = none) (hpb : (w.drawn op r).paramBad (w.stamped src op r) = none)
    (hown : (w.drawn op r).ownCheck (w.stamped src op r) = none) (hna : (w.stamped src op r).namesAbsent w = false)
    (hnow : w.updating r = false ∨ (w.drawn op r).boundaryValue (w.stamped src op r) = none) :
    w.issue src op r sense = (w.taken op r).effect (w.stamped src op r) sense := by
  rw [issue_passed h src op sense hlegal hfc hkind hb hpb hown hna, passed_now (by rw [cmd_drawn]; exact h.2.2.1) ?_, tookEffect_stamped]
  refine hnow.imp_left fun hu => ?_
  show (w.drawn op r).updating r = false
  unfold World.updating World.fb at hu ⊢
  rw [(drawn_keeps w op r).f (by decide)]
  exact hu

/-! ### Commands under GSEQ -/

theorem foldl_inc_shape (l : List (Nat × Nat)) (w : World) :
    ∃ g, l.foldl (fun w e => w.inc F.LE_RSEQ_NEXT e.1) w = { w with regs := g } := by
  induction l generalizing w with
  | nil => exact ⟨_, rfl⟩
  | cons e l ih =>
    obtain ⟨g, h⟩ := ih (w.inc F.LE_RSEQ_NEXT e.1)
    exact ⟨g, h⟩

theorem drawnG_shape (w : World) (op : Op) : ∃ g, w.drawnG op = { w with regs := g } := by
  obtain ⟨g, h⟩ := foldl_inc_shape (w.railStamps op) (w.inc F.GL_GSEQ_NEXT 0)
  exact ⟨g, h⟩

theorem drawnG_keeps (w : World) (op : Op) : Keeps [F.GL_GSEQ_NEXT.id, F.LE_RSEQ_NEXT.id] w (w.drawnG op) :=
  Keeps.foldl _ ((Keeps.refl _ _).inc (by decide)) fun _ _ h => h.inc (by decide)

theorem takenG_keeps (w : World) (op : Op) :
    Keeps [F.GL_GSEQ_NEXT.id, F.LE_RSEQ_NEXT.id, F.LE_RLAST_LAST.id] w (w.takenG op) :=
  Keeps.foldl _ ((drawnG_keeps w op).mono (by decide)) fun _ _ h => h.sf (by decide)

theorem foldl_last_shape (l : List (Nat × Nat)) (w : World) :
    ∃ g, l.foldl (fun w e => w.sf F.LE_RLAST_LAST e.1 e.2) w = { w with regs := g } := by
  induction l generalizing w with
  | nil => exact ⟨_, rfl⟩
  | cons e l ih =>
    obtain ⟨g, h⟩ := ih (w.sf F.LE_RLAST_LAST e.1 e.2)
    exact ⟨g, h⟩

theorem takenG_shape (w : World) (op : Op) : ∃ g, w.takenG op = { w with regs := g } := by
  obtain ⟨g, h⟩ := foldl_last_shape (w.railStamps op) (w.drawnG op)
  obtain ⟨g', h'⟩ := drawnG_shape w op
  exact ⟨g, by rw [World.takenG, h, h']⟩

theorem drawStamps_gseq (w : World) (src : CmdSrc) (op : Op) :
    w.drawStamps { src := src, op := op, rail := 0xFF, stamp := 0xFFFFFFFF, bad := none }
      = (w.drawnG op, w.stampedG src op) := by
  unfold World.drawStamps World.drawnG World.stampedG World.railStamps
  rw [if_pos rfl]
  cases h : op.isAll 0xFF
  · simp only [h, Bool.false_eq_true, if_false]
    rfl
  · simp only [h, if_true]
    have hr : ∀ q, (w.inc F.GL_GSEQ_NEXT 0).f F.LE_RSEQ_NEXT q = w.f F.LE_RSEQ_NEXT q := fun q => f_sf_ne _ _ _ _ (by decide)
    have hn : (w.inc F.GL_GSEQ_NEXT 0).nRails = w.nRails := rfl
    simp only [hr, hn]

theorem paired_drawnG (w : World) (op : Op) : (w.drawnG op).paired = w.paired := by
  unfold World.paired
  rw [(drawnG_keeps w op).f (by decide), (drawnG_keeps w op).f (by decide)]

theorem stamp_gseq {w : World} (hp : w.paired = false) (src : CmdSrc) (op : Op) :
    w.stamp src op 0xFF none = (w.drawnG op).setCmd { w.cmd with queue := w.cmd.queue ++ [w.stampedG src op] } := by
  obtain ⟨g, hs⟩ := drawnG_shape w op
  have hc : (w.drawnG op).cmd = w.cmd := by rw [hs]
  unfold World.stamp
  rw [if_neg (fun h => h.1 rfl), drawStamps_gseq]
  show World.when ((w.drawnG op).setCmd { (w.drawnG op).cmd with queue := (w.drawnG op).cmd.queue ++ [w.stampedG src op] }) _ _ = _
  rw [hc]
  unfold World.when
  rw [if_neg]
  show ¬(((w.drawnG op).setCmd _).paired = true)
  rw [paired_setCmd, paired_drawnG, hp]
  decide

theorem on_map (l : List Nat) (k : Nat → Nat) {q : Nat} (hq : q ∈ l) :
    ((l.map fun r => (r, k r)).find? fun e => e.1 == q).isSome = true := by
  rw [List.find?_isSome]
  exact ⟨(q, k q), List.mem_map.mpr ⟨q, hq, rfl⟩, by simp⟩

/-- A command under GSEQ with nothing waiting is stamped and judged at once (R228, R229). -/
theorem issue_gseq {w : World} {op : Op} (h : w.turnFreeG op) (src : CmdSrc) (sense : Int) :
    w.issue src op 0xFF sense = (w.drawnG op).judge (w.stampedG src op) sense := by
  obtain ⟨hq, -, hp, hs, hz, -, hg⟩ := h
  have hst := stamp_gseq hp src op
  rw [hq, List.nil_append] at hst
  obtain ⟨_, hshape⟩ := drawnG_shape w op
  have hturn : ((w.drawnG op).setCmd { w.cmd with queue := [w.stampedG src op] }).turnOf 0xFF = some (w.stampedG src op) := by
    unfold World.turnOf
    have hp' : ((w.drawnG op).setCmd { w.cmd with queue := [w.stampedG src op] }).paired = false := by
      rw [paired_setCmd, paired_drawnG, hp]
    have hs' : ((w.drawnG op).setCmd { w.cmd with queue := [w.stampedG src op] }).sentArmed = false := by
      rw [hshape]; exact hs
    have hz' : ((w.drawnG op).setCmd { w.cmd with queue := [w.stampedG src op] }).pwr.sent = 0 := by
      rw [hshape]; exact hz
    have hrails : ((w.stampedG src op).rails.all fun e =>
        (([w.stampedG src op].find? fun c => (c.on e.1).isSome) == some (w.stampedG src op))
          && !((w.drawnG op).setCmd { w.cmd with queue := [w.stampedG src op] }).fb F.LE_RSTATE_GATE e.1
          && !((w.drawnG op).setCmd { w.cmd with queue := [w.stampedG src op] }).disabling e.1) = true := by
      rw [List.all_eq_true]
      intro e he
      have hall : op.isAll 0xFF = true := by
        cases hx : op.isAll 0xFF
        · simp [World.stampedG, World.railStamps, hx] at he
        · rfl
      simp only [World.stampedG, World.railStamps, hall, if_true, List.mem_map, List.mem_range] at he
      obtain ⟨q, hqr, rfl⟩ := he
      have hon : ((w.stampedG src op).on q).isSome = true := by
        simp only [World.stampedG, World.railStamps, hall, if_true, Cmd.on, Option.isSome_map]
        exact on_map _ _ (List.mem_range.mpr hqr)
      have hgq : ((w.drawnG op).setCmd { w.cmd with queue := [w.stampedG src op] }).fb F.LE_RSTATE_GATE q = false := by
        unfold World.fb
        rw [f_setCmd, (drawnG_keeps w op).f (by decide), (hg hall q hqr).1]
        rfl
      have hdq : ((w.drawnG op).setCmd { w.cmd with queue := [w.stampedG src op] }).disabling q = false := by
        rw [hshape]
        exact (hg hall q hqr).2
      simp [List.find?, hon, hgq, hdq]
    simp only [cmd_setCmd, hp', hs', hz', if_pos]
    have hfind : ([w.stampedG src op].find? fun c => c.gseq.isSome) = some (w.stampedG src op) := rfl
    rw [hfind]
    simp only [hrails]
    simp [World.stampedG]
  have hcmd : (w.drawnG op).cmd = w.cmd := by rw [hshape]
  have hback : (w.drawnG op).setCmd { w.cmd with queue := [] } = w.drawnG op := by
    rw [show ({ w.cmd with queue := [] } : CmdSt) = (w.drawnG op).cmd by rw [hcmd, ← hq], setCmd_self]
  have hend : ((w.drawnG op).setCmd { w.cmd with queue := [w.stampedG src op] }).turn 0xFF sense
      = (w.drawnG op).judge (w.stampedG src op) sense := by
    rw [turn_alone (by decide) (by rw [paired_setCmd, paired_drawnG, hp]) hturn sense]
    simp only [cmd_setCmd, List.erase_cons_head]
    rw [setCmd_setCmd, hback]
  rw [issue_turn (c := w.stampedG src op), hst, hend]
  · rw [hst]; rfl
  · rw [hst, hq]; exact Nat.zero_lt_one
  · rw [hst]; exact hturn

theorem tookEffect_stampedG (w : World) (src : CmdSrc) (op : Op) :
    (w.drawnG op).tookEffect (w.stampedG src op) = w.takenG op := rfl

/-- A command under GSEQ has no update boundary to wait for. -/
theorem boundaryValue_gseq {op : Op} (hrb : op.railBad 0xFF = false) (v w : World) (src : CmdSrc) : v.boundaryValue (w.stampedG src op) = none := by
  cases op <;> first | rfl | (simp [Op.railBad, Op.kind] at hrb)

/-- A GSEQ command that is not for all rails and passes its checks takes effect at once (R230). -/
theorem issue_gseq_acts {w : World} {op : Op} (h : w.turnFreeG op) (src : CmdSrc) (sense : Int)
    (hall : op.isAll 0xFF = false) (hrb : op.railBad 0xFF = false) (hb : op.bad = none)
    (hpb : (w.drawnG op).paramBad (w.stampedG src op) = none) (hown : (w.drawnG op).ownCheck (w.stampedG src op) = none)
    (hna : (w.stampedG src op).namesAbsent w = false) : w.issue src op 0xFF sense = (w.takenG op).effect (w.stampedG src op) sense := by
  have hk := drawnG_keeps w op
  obtain ⟨_, hshape⟩ := drawnG_shape w op
  have hw : (w.drawnG op).cmd.waits = [] := by rw [hshape]; exact h.2.1
  have hlc : (w.drawnG op).f F.LC_STATE_STATE 0 ≠ 5 := by rw [hk.f (by decide)]; exact h.2.2.2.2.2.1
  have hna' : (w.stampedG src op).namesAbsent (w.drawnG op) = false := by rw [hshape]; exact hna
  rw [issue_gseq h]
  unfold World.judge World.namedRails
  dsimp only
  rw [hna', show (w.stampedG src op).op = op from rfl, show (w.stampedG src op).rail = 0xFF from rfl, hall]
  have hx : (0xFF != 0xFF : Bool) = false := rfl
  simp only [Bool.false_eq_true, if_false, if_true, List.find?, hlc, false_and, List.isEmpty_nil, Bool.not_true, Bool.false_and,
    hx, Bool.and_false, hrb, hb, show (w.stampedG src op).bad = none from rfl, minOff, hpb, hown]
  exact passed_now hw (.inr (boundaryValue_gseq hrb _ w src))

/-- A command for all rails that no rail's state refuses, and that acts on one, takes effect at once (R230, R242). -/
theorem issue_all_acts {w : World} {op : Op} (h : w.turnFreeG op) (src : CmdSrc) (sense : Int)
    (hall : op.isAll 0xFF = true) (hno : ∀ r < w.nRails, legal op (w.rstate r) ≠ .refused)
    (hsome : ∃ r < w.nRails, legal op (w.rstate r) = .acts) (hrb : op.railBad 0xFF = false) (hb : op.bad = none)
    (hfc : op.isForecast = false)
    (hpb : (w.drawnG op).paramBad (w.stampedG src op) = none) (hown : (w.drawnG op).ownCheck (w.stampedG src op) = none)
    (hna : (w.stampedG src op).namesAbsent w = false) : w.issue src op 0xFF sense = (w.takenG op).effect (w.stampedG src op) sense := by
  have hk := drawnG_keeps w op
  obtain ⟨_, hshape⟩ := drawnG_shape w op
  have hw : (w.drawnG op).cmd.waits = [] := by rw [hshape]; exact h.2.1
  have hlc : (w.drawnG op).f F.LC_STATE_STATE 0 ≠ 5 := by rw [hk.f (by decide)]; exact h.2.2.2.2.2.1
  have hst : ∀ q, (w.drawnG op).rstate q = w.rstate q := fun q => hk.f (by decide) q
  have hnr : (w.drawnG op).nRails = w.nRails := by rw [hshape]; rfl
  have hfind : ((List.range w.nRails).find? fun q => legal op (w.rstate q) == .refused) = none := by
    rw [List.find?_eq_none]
    intro q hq
    have := hno q (List.mem_range.mp hq)
    simpa using this
  have hnall : ((List.range w.nRails).all fun q => legal op (w.rstate q) == .noEffect) = false := by
    obtain ⟨q, hq, hl⟩ := hsome
    rw [List.all_eq_false]
    exact ⟨q, List.mem_range.mpr hq, by rw [hl]; decide⟩
  have hna' : (w.stampedG src op).namesAbsent (w.drawnG op) = false := by rw [hshape]; exact hna
  rw [issue_gseq h]
  unfold World.judge World.namedRails
  dsimp only
  rw [hna', show (w.stampedG src op).op = op from rfl, show (w.stampedG src op).rail = 0xFF from rfl, hall]
  simp only [if_true, hst, hnr, hfind, hlc, false_and, if_false, hnall, Bool.and_false, Bool.false_eq_true, hfc, Bool.false_and,
    hrb, hb, show (w.stampedG src op).bad = none from rfl, minOff, hpb, hown]
  exact passed_now hw (.inr (boundaryValue_gseq hrb _ w src))

end Sys2Proof.Machine
end

