-- ==== Sys2Proof/Laws/Phases.lean ====
section
/-! SUPPORT. What the operations of the phases change. -/

namespace Sys2Proof.Machine

/-- What the begin of a cycle does: the high interval is due, and only PW_EDGE.DUTY and PW_PHSTAT.LIM change (R147, R166). -/
theorem beginCycle_spec (w : World) (r p cs : Nat) : ((w.beginCycle r p cs).phase p).hi = true ∧ ((w.beginCycle r p cs).phase p).cs = cs
    ∧ (w.beginCycle r p cs).f F.PW_EDGE_DUTY p = (w.phase p).word % 2 ^ 24
    ∧ Keeps [F.PW_PHSTAT_LIM.id, F.PW_EDGE_DUTY.id] w (w.beginCycle r p cs) := by
  unfold World.beginCycle
  dsimp only
  refine ⟨?_, ?_, ?_, Keeps.setPhase (Keeps.sf ?_ (by decide))⟩
  · rw [phase_setPhase]
  · rw [phase_setPhase]
  · rw [f_setPhase, f_sf_same]; rfl
  · exact Keeps.ite ((Keeps.refl _ _).sf (by decide)) (Keeps.refl _ _)

theorem when_sf_shape {w v : World} (h : ∃ g, v = { w with regs := g }) (c : Bool) (F : Fld) (i n : Nat) :
    ∃ g, v.when c (fun w => w.sf F i n) = { w with regs := g } := by
  obtain ⟨g, rfl⟩ := h
  unfold World.when
  cases c
  · exact ⟨_, rfl⟩
  · exact ⟨_, rfl⟩

theorem currentWord_shape (w : World) (icc : Bool) (p : Nat) (x : Int) :
    ∃ g, (w.currentWord icc p x).1 = { w with regs := g } := by
  unfold World.currentWord
  by_cases h : (!w.fb (if icc then F.ICC_CFG_EN else F.PCC_CFG_EN) p) = true
  · rw [if_pos h]; exact ⟨w.regs, rfl⟩
  · rw [if_neg h]
    exact when_sf_shape (when_sf_shape ⟨w.regs, rfl⟩ _ _ _ _) _ _ _ _

theorem Keeps.currentWord {l : List Nat} {a b : World} (h : Keeps l a b) {icc : Bool} {p : Nat} {x : Int}
    (hl : [F.ICC_ERR_CLIP.id, F.PCC_ERR_CLIP.id, F.ICC_ERR_SAT.id, F.PCC_ERR_SAT.id] ⊆ l) : Keeps l a (b.currentWord icc p x).1 := by
  refine Keeps.trans h (Keeps.mono ?_ hl)
  unfold World.currentWord
  by_cases h : (!b.fb (if icc then F.ICC_CFG_EN else F.PCC_CFG_EN) p) = true
  · rw [if_pos h]; exact Keeps.refl _ _
  · rw [if_neg h]
    refine Keeps.when (Keeps.when (Keeps.refl _ _) fun w h => h.sf ?_) fun w h => h.sf ?_ <;> cases icc <;> decide

theorem Keeps.takeCode {l : List Nat} {a b : World} (h : Keeps l a b) {p : Nat} {x : Int}
    (hl : [F.ICC_ERR_CLIP.id, F.PCC_ERR_CLIP.id, F.ICC_ERR_SAT.id, F.PCC_ERR_SAT.id] ⊆ l) : Keeps l a (b.takeCode p x).1 :=
  (h.currentWord hl).setPhase

theorem takeCode_shape (w : World) (p : Nat) (x : Int) : ∃ g h, (w.takeCode p x).1 = { w with regs := g, ph := h } := by
  obtain ⟨g, hg⟩ := currentWord_shape w false p x
  show ∃ g h, World.setPhase (w.currentWord false p x).1 p _ = _
  rw [hg]
  exact ⟨_, _, rfl⟩

theorem takeCode_live (w : World) (p : Nat) (x : Int) (G : Fld) (j : Nat) : (w.takeCode p x).1.lf G j = w.lf G j := by
  obtain ⟨_, _, h⟩ := takeCode_shape w p x
  unfold World.lf
  rw [h]

theorem lf_adoptAll (l : List Fld) (r : Nat) (hl : l.Pairwise (fun a b => a.id ≠ b.id)) (hb : ∀ F ∈ l, F.id < 4096) (w : World) :
    ∀ G ∈ l, (w.adoptAll l r).lf G r = w.f G r % 2 ^ G.wd := by
  induction l generalizing w with
  | nil => intro G h; cases h
  | cons F l ih =>
    intro G hG
    obtain ⟨h1, h2⟩ := List.pairwise_cons.mp hl
    have hrest : ∀ (m : List Fld) (w : World), (∀ K ∈ m, G.id ≠ K.id ∧ K.id < 4096) → (w.adoptAll m r).lf G r = w.lf G r := by
      intro m
      induction m with
      | nil => exact fun _ _ => rfl
      | cons K m ihm =>
        intro w hm
        refine (ihm _ (fun K hK => hm K (List.mem_cons_of_mem _ hK))).trans ?_
        exact lf_slf_ne _ _ _ _ ⟨(hm K (List.mem_cons_self ..)).1, hb G hG, (hm K (List.mem_cons_self ..)).2⟩
    rcases List.mem_cons.mp hG with rfl | hG'
    · refine (hrest l _ (fun K hK => ⟨h1 K hK, hb K (List.mem_cons_of_mem _ hK)⟩)).trans ?_
      exact lf_slf_same _ _ _ _
    · exact (ih h2 (fun F hF => hb F (List.mem_cons_of_mem _ hF)) _ G hG')

theorem regrid_live (w : World) (r : Nat) : (w.regrid r).live = w.live := by
  unfold World.regrid
  split
  · show World.live (List.foldl _ _ _) = (w.setRail r { w.rail r with gridDue := false }).live
    generalize w.setRail r { w.rail r with gridDue := false } = v
    generalize (w.bound r).zipIdx = l
    induction l generalizing v with
    | nil => rfl
    | cons e l ih =>
      rw [List.foldl_cons, ih]
      unfold World.regridPhase
      dsimp only
      split
      · rfl
      · split <;> rfl
  · rfl

theorem adoptAll_regs (l : List Fld) (r : Nat) (w : World) : (w.adoptAll l r).regs = w.regs := by
  induction l generalizing w with
  | nil => rfl
  | cons F l ih => exact (ih _).trans rfl

end Sys2Proof.Machine
end

