-- ==== Sys2Proof/Laws/Belay.lean ====
section
/-! SUPPORT. Lemmas about the belay link and its roles: what each shared operation can do. -/

namespace Sys2Proof.Machine

theorem updDone_keeps (w : World) : Keeps [F.BL_STAT_UPD.id] w w.updDone := by
  unfold World.updDone
  exact Keeps.ite (Keeps.sf (Keeps.refl _ _) (by decide)) (Keeps.refl _ _)

theorem updDone_bly (w : World) : w.updDone.bly = w.bly := by
  unfold World.updDone
  split <;> rfl

theorem heard_keeps (w : World) (own sync : Bool) (upd romver cls sig : Nat) : Keeps [F.BL_CNT_HBMISS.id, F.BL_STAT_PUPD.id, F.BL_STAT_KAIN.id,
    F.BL_PVER_ROMVER.id, F.BL_PVER_CLASS.id, F.BL_PCFGSIG_SIG.id, F.BL_CFGSIG_SIG.id] w (w.heard own sync upd romver cls sig) := by
  unfold World.heard
  exact Keeps.sf (Keeps.sf (Keeps.sf (Keeps.sf (Keeps.when (Keeps.sf (Keeps.with_bly (Keeps.sf (Keeps.refl _ _) (by decide))) (by decide))
    fun w h => Keeps.sf h (by decide)) (by decide)) (by decide)) (by decide)) (by decide)

theorem heard_f (w : World) (own sync : Bool) (upd romver cls sig : Nat) (v : World) (hv : v = w.heard own sync upd romver cls sig) :
    v.f F.BL_STAT_PUPD 0 = upd % 2 ^ F.BL_STAT_PUPD.wd ∧ v.f F.BL_PVER_ROMVER 0 = romver % 2 ^ F.BL_PVER_ROMVER.wd
      ∧ v.f F.BL_PVER_CLASS 0 = cls % 2 ^ F.BL_PVER_CLASS.wd ∧ v.f F.BL_PCFGSIG_SIG 0 = sig % 2 ^ 32
      ∧ (own = true → v.f F.BL_STAT_KAIN 0 = 1) := by
  rw [hv]
  unfold World.heard
  dsimp only
  refine ⟨?_, ?_, ?_, ?_, fun h => ?_⟩
  · rw [f_sf_ne _ _ _ _ (by decide), f_sf_ne _ _ _ _ (by decide), f_sf_ne _ _ _ _ (by decide), f_sf_ne _ _ _ _ (by decide)]
    refine ((Keeps.when (l := [F.BL_STAT_KAIN.id]) (Keeps.refl _ _) fun w h => Keeps.sf h (by decide)).f (by decide) _).trans ?_
    rw [f_sf_same]
  · rw [f_sf_ne _ _ _ _ (by decide), f_sf_ne _ _ _ _ (by decide), f_sf_ne _ _ _ _ (by decide), f_sf_same]
  · rw [f_sf_ne _ _ _ _ (by decide), f_sf_ne _ _ _ _ (by decide), f_sf_same]
  · rw [f_sf_ne _ _ _ _ (by decide), f_sf_same]; rfl
  · rw [f_sf_ne _ _ _ _ (by decide), f_sf_ne _ _ _ _ (by decide), f_sf_ne _ _ _ _ (by decide), f_sf_ne _ _ _ _ (by decide)]
    unfold World.when
    rw [if_pos h, f_sf_same]; rfl

theorem pairErrs_sf (w : World) {A : Fld} (i v : Nat) (h : A.id ≠ F.LE_UCODE_VER_ROMVER.id ∧ A.id ≠ F.PM_PADCFG_LX0960.id ∧ A.id < 4096) (a b : Nat) (c d : Bool) :
    (w.sf A i v).pairErrs a b c d = w.pairErrs a b c d := by
  unfold World.pairErrs World.fb
  rw [f_sf_ne _ _ _ _ ⟨h.1.symm, by decide, h.2.2⟩, f_sf_ne _ _ _ _ ⟨h.2.1.symm, by decide, h.2.2⟩]
  rfl

theorem pairErrs_mem (w : World) (a b : Nat) (c d : Bool) :
    ∀ B ∈ w.pairErrs a b c d, B ∈ [F.BL_ERR_VARIANT, F.BL_ERR_COMPAT, F.BL_ERR_PADMODE, F.BL_ERR_REFUSED] := by
  intro B h
  unfold World.pairErrs at h
  simp only [List.mem_append] at h
  rcases h with ((h | h) | h) | h
  all_goals
    split at h
    · simp at h; simp [h]
    · cases h

theorem setBits_keep : ∀ (l : List Fld) (w : World) (G : Fld), (∀ B ∈ l, B.id < 4096) → G.id < 4096 → (∀ B ∈ l, B.id ≠ G.id) → ∀ j,
      (l.foldl (fun w B => w.sf B 0 1) w).f G j = w.f G j := by
  intro l
  induction l with
  | nil => exact fun _ _ _ _ _ _ => rfl
  | cons B l ih =>
    intro w G h1 h2 h3 j
    rw [List.foldl_cons, ih _ _ (fun C h => h1 C (List.mem_cons_of_mem _ h)) h2 (fun C h => h3 C (List.mem_cons_of_mem _ h))]
    exact f_sf_ne _ _ _ _ ⟨(h3 B (List.mem_cons_self ..)).symm, h2, h1 B (List.mem_cons_self ..)⟩

theorem setBits_f : ∀ (l : List Fld) (w : World), (∀ B ∈ l, B.id < 4096 ∧ 1 % 2 ^ B.wd = 1) → (∀ B ∈ l, ∀ C ∈ l, B.id = C.id → B = C) →
    ∀ B ∈ l, (l.foldl (fun w B => w.sf B 0 1) w).f B 0 = 1 := by
  intro l
  induction l with
  | nil => intro _ _ _ B h; cases h
  | cons C l ih =>
    intro w h1 h2 B hB
    have ih' := ih (w.sf C 0 1) (fun D h => h1 D (List.mem_cons_of_mem _ h))
      (fun D hD E hE => h2 D (List.mem_cons_of_mem _ hD) E (List.mem_cons_of_mem _ hE))
    rw [List.foldl_cons]
    by_cases hm : B ∈ l
    · exact ih' B hm
    · obtain rfl : B = C := (List.mem_cons.mp hB).resolve_right hm
      rw [setBits_keep _ _ _ (fun D h => (h1 D (List.mem_cons_of_mem _ h)).1) (h1 B hB).1
        (fun D h e => hm (h2 D (List.mem_cons_of_mem _ h) B hB e ▸ h)), f_sf_same]
      exact (h1 B hB).2

end Sys2Proof.Machine
end

