-- ==== Sys2Proof/Laws/Bits.lean ====
section
/-! SUPPORT. Clearing one bit of a number and of a field. -/

namespace Sys2Proof.Machine

theorem sx_mod (wd v : Nat) : sx wd v % (2 ^ wd : Nat) = ((v % 2 ^ wd : Nat) : Int) := by
  unfold sx
  split
  · rw [← Int.natCast_emod, Nat.mod_mod]
  · rw [Int.sub_emod_right, ← Int.natCast_emod, Nat.mod_mod]
theorem unI_sum (wd a b : Nat) : unI wd (sx wd a + sx wd b) = (a + b) % 2 ^ wd := by
  unfold unI
  rw [Int.add_emod, sx_mod, sx_mod, ← Int.natCast_add, ← Int.natCast_emod, Int.toNat_natCast, ← Nat.add_mod]
theorem unI_diff (wd a b : Nat) : unI wd (sx wd a - sx wd b) = (a + 2 ^ wd - b % 2 ^ wd) % 2 ^ wd := by
  unfold unI
  have hb : b % 2 ^ wd < 2 ^ wd := Nat.mod_lt _ (Nat.two_pow_pos wd)
  rw [Int.sub_emod, sx_mod, sx_mod]
  have : (((a % 2 ^ wd : Nat) : Int) - ((b % 2 ^ wd : Nat) : Int)) % (2 ^ wd : Nat)
      = ((a % 2 ^ wd + 2 ^ wd - b % 2 ^ wd : Nat) : Int) % (2 ^ wd : Nat) := by
    rw [Int.ofNat_sub (by omega), Int.natCast_add]
    rw [show ((a % 2 ^ wd : Nat) : Int) + ((2 ^ wd : Nat) : Int) - ((b % 2 ^ wd : Nat) : Int) = ((a % 2 ^ wd : Nat) : Int) - ((b % 2 ^ wd : Nat) : Int) + ((2 ^ wd : Nat) : Int) by omega, Int.add_emod_right]
  rw [this, ← Int.natCast_emod, Int.toNat_natCast]
  rw [Nat.add_sub_assoc (by omega), Nat.add_sub_assoc (by omega), Nat.mod_add_mod]

theorem testBit_sub (v b j : Nat) (h : v.testBit b = true) : (v - 2 ^ b).testBit j = (v.testBit j && j != b) := by
  obtain ⟨q, r, hr, hv⟩ : ∃ q r, r < 2 ^ b ∧ v = 2 ^ b * (2 * q + 1) + r := by
    refine ⟨v / 2 ^ b / 2, v % 2 ^ b, Nat.mod_lt _ (Nat.two_pow_pos b), ?_⟩
    have h1 : v / 2 ^ b % 2 = 1 := by
      rw [Nat.testBit_eq_decide_div_mod_eq] at h
      simpa using h
    have h2 : 2 * (v / 2 ^ b / 2) + 1 = v / 2 ^ b := by omega
    rw [h2]
    exact (Nat.div_add_mod v (2 ^ b)).symm
  have hs : v - 2 ^ b = 2 ^ b * (2 * q) + r := by rw [hv, Nat.mul_add, Nat.mul_one]; omega
  rw [hs, hv, Nat.testBit_two_pow_mul_add _ hr, Nat.testBit_two_pow_mul_add _ hr]
  by_cases hj : j < b
  · rw [if_pos hj, if_pos hj]
    have : (j != b) = true := by simp; omega
    rw [this, Bool.and_true]
  · rw [if_neg hj, if_neg hj]
    by_cases he : j = b
    · subst he
      simp
    · obtain ⟨k, hk⟩ : ∃ k, j - b = k + 1 := ⟨j - b - 1, by omega⟩
      rw [hk, Nat.testBit_succ, Nat.testBit_succ]
      have : (j != b) = true := by simpa using he
      rw [this, Bool.and_true, show 2 * q / 2 = q by omega, show (2 * q + 1) / 2 = q by omega]

theorem clrBit_testBit (w : World) (F : Fld) (i k j : Nat) (h : k = j ∨ (w.f F i).testBit j = false) :
    ((w.clrBit F i k).f F i).testBit j = false := by
  unfold World.clrBit
  rw [f_sf_same, Nat.testBit_mod_two_pow]
  have : (if (w.f F i).testBit k = true then w.f F i - 2 ^ k else w.f F i).testBit j = false := by
    split
    · rename_i hb
      rw [testBit_sub _ _ _ hb]
      rcases h with rfl | h
      · simp
      · rw [h]; rfl
    · rename_i hb
      rcases h with rfl | h
      · simpa using hb
      · exact h
  rw [this, Bool.and_false]

end Sys2Proof.Machine
end

