-- ==== Sys2Proof/Laws/Mem.lean ====
section
/-! SUPPORT. The laws of addressed memory: a read after a write, and that every operation keeps the canonical form. -/

namespace Sys2Proof.Machine

theorem Mem.get_eq_mget (m : Mem) (x : Nat) : m.get x = mget (unlisted x) m x := by
  induction m with
  | nil => rfl
  | cons e m ih =>
    obtain ⟨a, b⟩ := e
    simp only [Mem.get, mget, ih]

/-- A read after a write to the same byte. -/
@[simp] theorem Mem.get_set_same (m : Mem) (x : Nat) (v : Byte) : (m.set x v).get x = v := by
  rw [Mem.get_eq_mget]
  exact mget_mset_same _ _ _ _

/-- A write of one byte leaves every other byte alone. -/
theorem Mem.get_set_ne (m : Mem) {x y : Nat} (v : Byte) (h : y ≠ x) : (m.set x v).get y = m.get y := by
  rw [Mem.get_eq_mget, Mem.get_eq_mget]
  exact mget_mset_ne _ _ _ _ h

/-- The stored words leave every byte outside them alone. -/
theorem Mem.get_setWord_ne (m : Mem) {w y : Nat} (v : Nat) (h : y ≠ 2 * w ∧ y ≠ 2 * w + 1) : (m.setWord w v).get y = m.get y := by
  unfold Mem.setWord
  rw [Mem.get_set_ne _ _ h.2, Mem.get_set_ne _ _ h.1]

theorem Mem.word_setWord_same (m : Mem) (w v : Nat) : (m.setWord w v).word w = v % 65536 := by
  unfold Mem.setWord Mem.word
  rw [Mem.get_set_ne _ _ (by omega), Mem.get_set_same, Mem.get_set_same]
  simp only [BitVec.toNat_ofNat]
  omega

theorem Mem.word_setWord_ne (m : Mem) {w x : Nat} (v : Nat) (h : x ≠ w) : (m.setWord w v).word x = m.word x := by
  unfold Mem.word
  rw [Mem.get_setWord_ne _ _ ⟨by omega, by omega⟩, Mem.get_setWord_ne _ _ ⟨by omega, by omega⟩]

/-! ### The canonical form -/

/-- `m` in canonical form above `lo`, as a proposition. -/
def Mem.okP (lo : Option Nat) : Mem → Prop
  | [] => True
  | (a, b) :: m => (∀ p, lo = some p → p < a) ∧ b ≠ unlisted a ∧ Mem.okP (some a) m

theorem Mem.ok_iff (m : Mem) : ∀ lo, Mem.ok lo m = true ↔ Mem.okP lo m := by
  induction m with
  | nil => intro lo; simp [Mem.ok, Mem.okP]
  | cons e m ih =>
    intro lo
    obtain ⟨a, b⟩ := e
    cases lo <;> simp [Mem.ok, Mem.okP, ih, and_assoc]

theorem Mem.okP_mono (m : Mem) {lo lo' : Option Nat} (h : ∀ q, lo' = some q → ∃ p, lo = some p ∧ q ≤ p) (hm : Mem.okP lo m) :
    Mem.okP lo' m := by
  cases m with
  | nil => trivial
  | cons e m =>
    refine ⟨fun q hq => ?_, hm.2⟩
    obtain ⟨p, hp, hqp⟩ := h q hq
    exact Nat.lt_of_le_of_lt hqp (hm.1 p hp)

theorem Mem.okP_tail {lo : Option Nat} {e : Host.Cell} {m : Mem} (h : Mem.okP lo (e :: m)) : Mem.okP lo m :=
  Mem.okP_mono m (fun q hq => ⟨e.1, rfl, Nat.le_of_lt (h.1 q hq)⟩) h.2.2

theorem Mem.okP_filter (p : Host.Cell → Bool) (m : Mem) : ∀ lo, Mem.okP lo m → Mem.okP lo (m.filter p) := by
  induction m with
  | nil => exact fun _ h => h
  | cons e m ih =>
    intro lo h
    by_cases hp : p e = true
    · rw [List.filter_cons_of_pos hp]
      exact ⟨h.1, h.2.1, ih _ h.2.2⟩
    · rw [List.filter_cons_of_neg hp]
      exact ih _ (Mem.okP_tail h)

theorem Mem.okP_mdel (x : Nat) (m : Mem) : ∀ lo, Mem.okP lo m → Mem.okP lo (mdel m x) := by
  induction m with
  | nil => exact fun _ h => h
  | cons e m ih =>
    intro lo h
    obtain ⟨a, b⟩ := e
    unfold mdel
    split
    · exact ih _ (Mem.okP_tail h)
    · exact ⟨h.1, h.2.1, ih _ h.2.2⟩

theorem not_key_mdel {α : Type} (x : Nat) (m : List (Nat × α)) : ∀ e ∈ mdel m x, e.1 ≠ x := by
  induction m with
  | nil => exact fun e h => absurd h (by simp [mdel])
  | cons c m ih =>
    obtain ⟨a, b⟩ := c
    unfold mdel
    split
    · exact ih
    · intro e he
      rcases List.mem_cons.mp he with rfl | he
      · assumption
      · exact ih e he

theorem Mem.okP_mins (x : Nat) (v : Byte) (hv : v ≠ unlisted x) (m : Mem) : ∀ lo, (∀ p, lo = some p → p < x) → (∀ e ∈ m, e.1 ≠ x) →
    Mem.okP lo m → Mem.okP lo (mins m x v) := by
  induction m with
  | nil => exact fun lo hx _ _ => ⟨hx, hv, trivial⟩
  | cons c m ih =>
    intro lo hx hn h
    obtain ⟨a, b⟩ := c
    unfold mins
    split
    · next hlt => exact ⟨hx, hv, fun p hp => by cases hp; exact hlt, h.2⟩
    · next hlt =>
      have hne : a ≠ x := hn (a, b) (List.mem_cons_self ..)
      refine ⟨h.1, h.2.1, ih (some a) (fun p hp => by cases hp; omega) (fun e he => hn e (List.mem_cons_of_mem _ he)) h.2.2⟩

/-- A write of one byte keeps the canonical form. -/
theorem Mem.wf_set {m : Mem} (x : Nat) (v : Byte) (h : m.wf = true) : (m.set x v).wf = true := by
  unfold Mem.wf at *
  rw [Mem.ok_iff] at *
  unfold Mem.set mset
  split
  · exact Mem.okP_mdel x m _ h
  · next hv => exact Mem.okP_mins x v hv _ _ (fun _ h => by cases h) (not_key_mdel x m) (Mem.okP_mdel x m _ h)

theorem Mem.wf_setBytes (l : List Nat) : ∀ {m : Mem} (x : Nat), m.wf = true → (m.setBytes x l).wf = true := by
  induction l with
  | nil => exact fun _ h => h
  | cons b l ih => exact fun x h => ih (x + 1) (Mem.wf_set _ _ h)

theorem Mem.wf_setWord {m : Mem} (w v : Nat) (h : m.wf = true) : (m.setWord w v).wf = true := Mem.wf_set _ _ (Mem.wf_set _ _ h)

theorem Mem.wf_setDword {m : Mem} (w v : Nat) (h : m.wf = true) : (m.setDword w v).wf = true := Mem.wf_setWord _ _ (Mem.wf_setWord _ _ h)

theorem Mem.wf_erase {m : Mem} (lo hi : Nat) (h : m.wf = true) : (m.erase lo hi).wf = true := by
  unfold Mem.wf at *
  rw [Mem.ok_iff] at *
  exact Mem.okP_filter _ m _ h

theorem wf_dropBanks (w : World) {m : Mem} (h : m.wf = true) : (w.dropBanks m).wf = true := by
  unfold World.dropBanks
  generalize (List.range 12).filter (fun b => !w.bankOn b) = l
  induction l generalizing m with
  | nil => exact h
  | cons b l ih => exact ih (Mem.wf_erase _ _ h)

theorem wf_memWrite (w : World) {m : Mem} (a v : Nat) (h : m.wf = true) : (w.memWrite m a v).wf = true := by
  unfold World.memWrite
  split
  · exact h
  · exact Mem.wf_setWord _ _ h

theorem wf_memWrites (w : World) (l : List Nat) : ∀ {m : Mem} (a : Nat), m.wf = true → (w.memWrites m a l).wf = true := by
  induction l with
  | nil => exact fun _ h => h
  | cons v l ih => exact fun a h => ih (a + 1) (wf_memWrite w a v h)

theorem wf_wipeMem (l : List Nat) : ∀ {m : Mem}, m.wf = true → (wipeMem m l).wf = true := by
  induction l with
  | nil => exact fun h => h
  | cons k l ih => exact fun h => ih (Mem.wf_erase _ _ h)

/-- Words stored from `a` leave every byte alone that is none of theirs. -/
theorem get_memWrites (w : World) (l : List Nat) : ∀ (m : Mem) (a y : Nat),
    (∀ k < l.length, y ≠ 2 * w.memAddr (a + k) ∧ y ≠ 2 * w.memAddr (a + k) + 1) → (w.memWrites m a l).get y = m.get y := by
  induction l with
  | nil => exact fun _ _ _ _ => rfl
  | cons v l ih =>
    intro m a y h
    have h0 := h 0 (by simp)
    refine (ih _ (a + 1) y fun k hk => ?_).trans ?_
    · have := h (k + 1) (by simp; omega)
      rwa [show a + (k + 1) = a + 1 + k by omega] at this
    · unfold World.memWrite
      split
      · rfl
      · exact Mem.get_setWord_ne m v h0

/-- An erase puts its range back and leaves every other byte alone. -/
theorem Mem.get_erase (m : Mem) (lo hi y : Nat) :
    (m.erase lo hi).get y = if lo ≤ y ∧ y < hi then unlisted y else m.get y := by
  rw [Mem.get_eq_mget, Mem.get_eq_mget]
  refine (mget_filter (unlisted y) (fun a => !(decide (lo ≤ a) && decide (a < hi))) m y).trans ?_
  by_cases h : lo ≤ y ∧ y < hi
  · rw [if_pos h, if_neg (by simp [h.1, h.2])]
  · rw [if_neg h, if_pos (by simp; omega)]

/-- Wiped memories read as unlisted, and every byte outside them as before. -/
theorem get_wipeMem (l : List Nat) : ∀ (m : Mem) (y : Nat),
    ((∃ k ∈ l, 2 * (wipeRange k).1 ≤ y ∧ y < 2 * (wipeRange k).2) → Mem.get (wipeMem m l) y = unlisted y)
    ∧ ((∀ k ∈ l, ¬ (2 * (wipeRange k).1 ≤ y ∧ y < 2 * (wipeRange k).2)) → Mem.get (wipeMem m l) y = Mem.get m y) := by
  induction l with
  | nil => exact fun m y => ⟨fun ⟨k, h, _⟩ => absurd h (by simp), fun _ => rfl⟩
  | cons k l ih =>
    intro m y
    have h := ih (Mem.erase m (2 * (wipeRange k).1) (2 * (wipeRange k).2)) y
    show (_ → Mem.get (wipeMem (Mem.erase m _ _) l) y = _) ∧ (_ → Mem.get (wipeMem (Mem.erase m _ _) l) y = _)
    by_cases hl : ∃ j ∈ l, 2 * (wipeRange j).1 ≤ y ∧ y < 2 * (wipeRange j).2
    · refine ⟨fun _ => h.1 hl, fun hn => ?_⟩
      obtain ⟨j, hj, hr⟩ := hl
      exact absurd hr (hn j (List.mem_cons_of_mem _ hj))
    · have hl' : ∀ j ∈ l, ¬ (2 * (wipeRange j).1 ≤ y ∧ y < 2 * (wipeRange j).2) := fun j hj hr => hl ⟨j, hj, hr⟩
      rw [h.2 hl', Mem.get_erase]
      refine ⟨fun ⟨j, hj, hr⟩ => ?_, fun hn => if_neg (hn k (List.mem_cons_self ..))⟩
      rcases List.mem_cons.mp hj with rfl | hj
      · exact if_pos hr
      · exact absurd hr (hl' j hj)

/-- A register reset: what it picks reads as at reset, and the rest as before (R9, R551). -/
theorem f_resetRegs (w : World) (p : Fld → Nat → Bool) {g : Reg} {F : Fld} {i : Nat} (h : keyField (F.key i) = some (g, F)) :
    (w.resetRegs p).f F i = if p F (g.islandOf F.sub (keyInst (F.key i))) then F.reset i else w.f F i := by
  unfold World.resetRegs World.f
  dsimp only
  unfold mkeep
  refine (mget_filter (F.reset i) (fun k => match keyField k with
    | some (g, F) => !p F (g.islandOf F.sub (keyInst k))
    | none => true) w.regs (F.key i)).trans ?_
  rw [h]
  dsimp only
  by_cases hp : p F (g.islandOf F.sub (keyInst (F.key i))) = true
  · rw [if_pos hp, if_neg (by simp [hp])]
  · rw [if_neg hp, if_pos (by simpa using hp)]

end Sys2Proof.Machine
end

