-- ==== Sys2Proof/Laws/Blocks.lean ====
section
/-! SUPPORT. Lemmas about DMA, interrupts, pump drive, sensing, timers and the event fabric: what each shared operation can do. -/

namespace Sys2Proof.Machine

/-- Pairs (quotient, remainder) are swapped one to one: `g` columns of `f` become `f` columns of `g`. -/

theorem swap_div (f g o : Nat) (ho : o < f * g) : o % g * f + o / g < f * g ∧ (o % g * f + o / g) / f = o % g ∧ (o % g * f + o / g) % f = o / g := by
  have hf : 0 < f := Nat.pos_of_ne_zero (fun h => by subst h; simp at ho)
  have hg : 0 < g := Nat.pos_of_ne_zero (fun h => by subst h; simp at ho)
  have h1 : o / g < f := Nat.div_lt_of_lt_mul (by rw [Nat.mul_comm]; exact ho)
  have h2 : o % g < g := Nat.mod_lt _ hg
  refine ⟨?_, ?_, ?_⟩
  · have : (o % g + 1) * f ≤ g * f := Nat.mul_le_mul_right f h2
    rw [Nat.add_mul, Nat.mul_comm g f] at this
    omega
  · rw [Nat.mul_comm, Nat.mul_add_div hf, Nat.div_eq_of_lt h1]; rfl
  · rw [Nat.mul_comm, Nat.mul_add_mod, Nat.mod_eq_of_lt h1]

theorem swap_inj (f g o o' : Nat) (ho : o < f * g) (ho' : o' < f * g) (h : o % g * f + o / g = o' % g * f + o' / g) : o = o' := by
  obtain ⟨_, a, b⟩ := swap_div f g o ho
  obtain ⟨_, a', b'⟩ := swap_div f g o' ho'
  rw [h] at a b
  have e1 : o % g = o' % g := a.symm.trans a'
  have e2 : o / g = o' / g := b.symm.trans b'
  rw [← Nat.div_add_mod o g, ← Nat.div_add_mod o' g, e1, e2]

/-- A one-to-one map of each block of `B` elements is one to one on whole blocks. -/

theorem block_perm (B n : Nat) (p : Nat → Nat) (h1 : ∀ o < B, p o < B) (h2 : ∀ o < B, ∀ o' < B, p o = p o' → o = o') (k : Nat) (hk : k < B * n) :
    k / B * B + p (k % B) < B * n ∧ ∀ k' < B * n, k / B * B + p (k % B) = k' / B * B + p (k' % B) → k = k' := by
  have hB : 0 < B := Nat.pos_of_ne_zero (fun h => by subst h; simp at hk)
  have hm : k % B < B := Nat.mod_lt _ hB
  have hd : k / B < n := Nat.div_lt_of_lt_mul hk
  refine ⟨?_, fun k' hk' he => ?_⟩
  · have := h1 _ hm
    have h3 : (k / B + 1) * B ≤ n * B := Nat.mul_le_mul_right B hd
    rw [Nat.add_mul, Nat.mul_comm n B] at h3
    omega
  · have hm' : k' % B < B := Nat.mod_lt _ hB
    have q1 : (k / B * B + p (k % B)) / B = k / B := by rw [Nat.mul_comm, Nat.mul_add_div hB, Nat.div_eq_of_lt (h1 _ hm)]; rfl
    have q2 : (k' / B * B + p (k' % B)) / B = k' / B := by rw [Nat.mul_comm, Nat.mul_add_div hB, Nat.div_eq_of_lt (h1 _ hm')]; rfl
    have e1 : k / B = k' / B := by rw [← q1, he, q2]
    rw [e1] at he
    have e2 := h2 _ hm _ hm' (by omega)
    rw [← Nat.div_add_mod k B, ← Nat.div_add_mod k' B, e1, e2]

theorem keeps_statClear (l : List Nat) (w : World) : Keeps [F.FC_TSTAT_HIT_HIT.id, F.FC_TSTAT_MISS_MISS.id, F.FC_TSTAT_ABORT_ABORT.id, F.FC_TSTAT_REFUSE_REFUSE.id] w
    (l.foldl (fun w t => (((w.sf F.FC_TSTAT_HIT_HIT t 0).sf F.FC_TSTAT_MISS_MISS t 0).sf F.FC_TSTAT_ABORT_ABORT t 0).sf F.FC_TSTAT_REFUSE_REFUSE t 0) w) :=
  Keeps.foldl l (Keeps.refl _ _) fun _ _ h => (((h.sf (by decide)).sf (by decide)).sf (by decide)).sf (by decide)

theorem zero_statClear (G : Fld) (hG : G = F.FC_TSTAT_HIT_HIT ∨ G = F.FC_TSTAT_MISS_MISS ∨ G = F.FC_TSTAT_ABORT_ABORT ∨ G = F.FC_TSTAT_REFUSE_REFUSE)
    (t : Nat) (l : List Nat) : ∀ w : World, (t ∈ l ∨ w.f G t = 0) →
    (l.foldl (fun w t => (((w.sf F.FC_TSTAT_HIT_HIT t 0).sf F.FC_TSTAT_MISS_MISS t 0).sf F.FC_TSTAT_ABORT_ABORT t 0).sf F.FC_TSTAT_REFUSE_REFUSE t 0) w).f G t = 0 := by
  induction l with
  | nil => exact fun w h => h.elim (fun h => absurd h (by simp)) id
  | cons q l ih =>
    intro w h
    refine ih _ ?_
    by_cases hq : t = q
    · subst hq
      right
      rcases hG with rfl | rfl | rfl | rfl
      · rw [f_sf_ne _ _ _ _ (by decide), f_sf_ne _ _ _ _ (by decide), f_sf_ne _ _ _ _ (by decide), f_sf_same]; rfl
      · rw [f_sf_ne _ _ _ _ (by decide), f_sf_ne _ _ _ _ (by decide), f_sf_same]; rfl
      · rw [f_sf_ne _ _ _ _ (by decide), f_sf_same]; rfl
      · rw [f_sf_same]; rfl
    · refine h.elim (fun h => Or.inl ((List.mem_cons.mp h).resolve_left hq)) fun h => Or.inr ?_
      have : ∀ (w : World) (F : Fld), G.id < 4096 → F.id < 4096 → (w.sf F q 0).f G t = w.f G t := fun w F h1 h2 => by
        by_cases h : G.id = F.id
        · exact f_sf_key _ _ _ _ (fun h' => hq (by unfold Fld.key at h'; omega))
        · exact f_sf_ne _ _ _ _ ⟨h, h1, h2⟩
      have hi : G.id < 4096 := by rcases hG with rfl | rfl | rfl | rfl <;> decide
      rw [this _ _ hi (by decide), this _ _ hi (by decide), this _ _ hi (by decide), this _ _ hi (by decide)]
      exact h

theorem keeps_irq (w : World) (src : Nat) (l : List Nat) : Keeps l w (w.irq src) := by
  unfold World.irq
  exact Keeps.ite (Keeps.refl _ _) (Keeps.with_irqEdge (Keeps.refl _ _))

theorem pdIrq_regs (w : World) (k : Nat) (c : Bool) : (w.pdIrq k c).regs = w.regs := by
  unfold World.pdIrq World.when
  split
  · exact irq_regs _ _
  · rfl

theorem f_pdIrq (w : World) (k : Nat) (c : Bool) (G : Fld) (j : Nat) : (w.pdIrq k c).f G j = w.f G j := by
  unfold World.f
  rw [pdIrq_regs]

theorem legsOff_hold (w : World) (k : Nat) (h : w.fb F.PD_STAT_FLTHOLD k = true) : w.legsOff k = true := by
  unfold World.legsOff
  simp [h]

theorem encInvalid_keeps (w : World) (k : Nat) : Keeps [F.PD_STAT_ENCLOST.id] w (w.encInvalid k) := by
  unfold World.encInvalid
  dsimp only
  exact Keeps.ite (Keeps.sf (Keeps.regs (Keeps.with_pd (Keeps.refl _ _)) (pdIrq_regs _ _ _)) (by decide)) (Keeps.with_pd (Keeps.refl _ _))

theorem est_setEst (v : Conv) (p : CorrPar) (s : Nat) (x : Int) : (v.setEst p s x).est p s = x := by
  cases p <;> exact mget_mset_same _ _ _ _

theorem adoptAll_ne (l : List Fld) (r k : Nat) (h : k ≠ r) (hl : ∀ F ∈ l, F.id < 4096) (G : Fld) (hG : G.id < 4096) : ∀ w : World, (w.adoptAll l r).lf G k = w.lf G k := by
  induction l with
  | nil => exact fun _ => rfl
  | cons F l ih =>
    intro w
    refine (ih (fun F hF => hl F (List.mem_cons_of_mem _ hF)) _).trans ?_
    by_cases hi : G.id = F.id
    · exact mget_mset_ne _ _ _ _ (fun h' => h (by unfold Fld.key at h'; omega))
    · exact lf_slf_ne _ _ _ _ ⟨hi, hG, hl F (List.mem_cons_self ..)⟩

theorem hkcAdopt_regs (l : List Nat) : ∀ w : World, (l.foldl (fun w e => w.adoptAll seqFields e) w).regs = w.regs := by
  induction l with
  | nil => exact fun _ => rfl
  | cons e l ih => exact fun w => (ih _).trans (adoptAll_regs _ _ _)

theorem hkcAdopt_lf (G : Fld) (hG : G ∈ seqFields) (k : Nat) (l : List Nat) : ∀ w : World, (k ∈ l ∨ w.lf G k = w.f G k % 2 ^ G.wd) →
    (l.foldl (fun w e => w.adoptAll seqFields e) w).lf G k = w.f G k % 2 ^ G.wd := by
  have hid : ∀ F ∈ seqFields, F.id < 4096 := by decide
  induction l with
  | nil => exact fun w h => h.elim (fun h => absurd h (by simp)) id
  | cons e l ih =>
    intro w h
    have hr : (w.adoptAll seqFields e).f G k = w.f G k := by unfold World.f; rw [adoptAll_regs]
    refine (ih (w.adoptAll seqFields e) ?_).trans (by rw [hr])
    rw [hr]
    by_cases he : k = e
    · subst he
      exact Or.inr (lf_adoptAll seqFields k (by decide) (by decide) w G hG)
    · exact h.elim (fun h => Or.inl ((List.mem_cons.mp h).resolve_left he)) fun h => Or.inr ((adoptAll_ne _ _ _ he hid G (hid G hG) w).trans h)

theorem regridPhase_clk (w : World) (r p k : Nat) : (w.regridPhase r p k).clk = w.clk := by
  unfold World.regridPhase
  dsimp only
  split
  · rfl
  · split <;> rfl

theorem regrid_clk (w : World) (r : Nat) : (w.regrid r).clk = w.clk := by
  unfold World.regrid
  split
  · generalize (w.bound r).zipIdx = l
    refine Eq.trans ?_ (show (w.setRail r { w.rail r with gridDue := false }).clk = w.clk from rfl)
    generalize w.setRail r { w.rail r with gridDue := false } = v
    induction l generalizing v with
    | nil => rfl
    | cons e l ih => exact (ih _).trans (regridPhase_clk _ _ _ _)
  · rfl

theorem regrids_clk (l : List Nat) (w : World) : (l.foldl World.regrid w).clk = w.clk := by
  induction l generalizing w with
  | nil => rfl
  | cons r l ih => rw [List.foldl_cons, ih, regrid_clk]

theorem rdiv_same (k d : Int) (hk : 0 < k) : rdiv (k * d) k = d := by
  unfold rdiv
  rw [if_neg (by omega)]
  have h1 : (k * d).natAbs = k.natAbs * d.natAbs := Int.natAbs_mul _ _
  have h2 : (2 * (k * d).natAbs + k.natAbs) / (2 * k.natAbs) = d.natAbs := by
    rw [h1]
    have hp : 0 < k.natAbs := by omega
    rw [show 2 * (k.natAbs * d.natAbs) + k.natAbs = k.natAbs + 2 * k.natAbs * d.natAbs by rw [Nat.mul_assoc, Nat.add_comm]]
    rw [Nat.add_mul_div_left _ _ (by omega), Nat.div_eq_of_lt (by omega), Nat.zero_add]
  dsimp only
  rw [h2]
  by_cases hd : d < 0
  · have : k * d < 0 := Int.mul_neg_of_pos_of_neg hk hd
    rw [if_neg (by simp [this]; omega)]
    omega
  · have : 0 ≤ k * d := Int.mul_nonneg (by omega) (by omega)
    rw [if_pos (by simp; omega)]
    omega

theorem servoLock_keeps (w : World) (x : Int) : Keeps [F.TB_STAT_LOCKED.id] w (w.servoLock x) ∧ (w.servoLock x).srv.freq = w.srv.freq := by
  unfold World.servoLock
  extract_lets good _ w'
  have k : Keeps [F.TB_STAT_LOCKED.id] w w' := Keeps.with_srv (Keeps.refl _ _)
  refine ⟨Keeps.ite (k.sf (by decide)) (Keeps.ite (k.sf (by decide)) k), ?_⟩
  split
  · rfl
  · split <;> rfl

theorem servo_keeps (w : World) (x : Int) (ti : Nat) : Keeps [F.TB_RATENOW_RATE.id, F.TB_ERR_FAR.id, F.TB_STAT_LOCKED.id]
    (w.sfI F.TB_OFS_OFS 0 (satS 32 (rdiv x 128))) (w.servo x ti) := by
  refine Keeps.trans ?_ ((servoLock_keeps _ _).1.mono (by decide))
  unfold World.servoRate
  exact Keeps.ite (Keeps.sfI (Keeps.with_srv (Keeps.refl _ _)) (by decide)) ((Keeps.refl _ _).sf (by decide))

theorem input_free {w : World} {key t : Nat} (h : w.inputFree key t) (m a : World → World) :
    w.input key t m a = a { w with inputs := mset 0 w.inputs key (t + 1) } := by
  unfold World.input
  dsimp only
  rw [if_neg (by unfold World.inputFree at h; omega)]

theorem input_busy {w : World} {key t : Nat} (h : ¬ w.inputFree key t) (m a : World → World) : w.input key t m a = m w := by
  unfold World.input
  dsimp only
  rw [if_pos (by unfold World.inputFree at h; omega)]

theorem tmJudge_keeps (w : World) (t : Nat) : Keeps [F.TM_STAT_ARMED.id, F.TM_STAT_CMPHIT.id] w (w.tmJudge t) := by
  unfold World.tmJudge World.tmIrq World.irq
  refine Keeps.ite (Keeps.when ?_ fun w h => Keeps.ite h h.with_irqEdge) (Keeps.refl _ _)
  exact Keeps.pulse (Keeps.sf (Keeps.sf (Keeps.refl _ _) (by decide)) (by decide))

theorem tmIrq_regs (w : World) (t c : Nat) : (w.tmIrq t c).regs = w.regs := by
  unfold World.tmIrq World.when World.irq
  dsimp only
  repeat' split
  all_goals rfl

theorem f_tmIrq (w : World) (t c : Nat) (G : Fld) (j : Nat) : (w.tmIrq t c).f G j = w.f G j := by
  unfold World.f
  rw [tmIrq_regs]

theorem f_pulse (w : World) (n : Nat) (G : Fld) (j : Nat) : (w.pulse n).f G j = w.f G j := rfl

theorem tmIrq_timer (w : World) (t c j : Nat) : (w.tmIrq t c).timer j = w.timer j := by
  unfold World.tmIrq World.when World.irq
  dsimp only
  repeat' split
  all_goals rfl

theorem timer_tmJudge (w : World) (t j : Nat) : (w.tmJudge t).timer j = w.timer j := by
  unfold World.tmJudge
  split
  · exact (tmIrq_timer _ _ _ _).trans rfl
  · rfl

theorem tmJudge_fired (w : World) (t : Nat) (h : (w.fb F.TM_STAT_ARMED t && w.tmPassed t) = true) :
    (w.tmJudge t).f F.TM_STAT_ARMED t = 0 ∧ (w.tmJudge t).f F.TM_STAT_CMPHIT t = 1 := by
  unfold World.tmJudge
  rw [if_pos h]
  rw [f_tmIrq, f_tmIrq, f_pulse, f_pulse, f_sf_ne _ _ _ _ (by decide), f_sf_same, f_sf_same]
  exact ⟨rfl, rfl⟩

end Sys2Proof.Machine
end

