-- ==== Sys2Proof/Laws/Cores.lean ====
section
/-! SUPPORT. How an instruction of a core runs: what issuing one leaves to its own effect. -/

namespace Sys2Proof.Machine

theorem setCore_setCore (w : World) (c : Nat) (a b : Core) : (w.setCore c a).setCore c b = w.setCore c b := by
  unfold World.setCore
  exact congrArg (fun l => { w with cores := l }) (mset_mset _ _ _ _ _)

theorem requestLine_shape (w : World) (c l : Nat) : ∀ k, (w.setCore c k).requestLine c l = w.setCore c (((w.setCore c k).requestLine c l).core c) := by
  intro k
  unfold World.requestLine
  dsimp only
  split
  · rw [core_setCore]
  · rw [setCore_setCore, core_setCore, core_setCore]

theorem touchLine_shape (w : World) (c a : Nat) (k : Core) :
    (w.setCore c k).touchLine c a = w.setCore c (((w.setCore c k).touchLine c a).core c) := by
  unfold World.touchLine
  split
  · rw [core_setCore]
  · dsimp only
    split
    · rw [setCore_setCore]
      exact requestLine_shape w c _ _
    · rw [setCore_setCore, core_setCore, core_setCore]

theorem touchLine_core (w : World) (c a : Nat) : ((w.setCore c (w.core c)).touchLine c a).core c = (w.touchLine c a).core c := by
  unfold World.touchLine
  rw [core_setCore]
  split
  · rw [core_setCore]
  · dsimp only
    rw [setCore_setCore]

theorem tick_idle {k : Core} (h : k.staged = []) : k.tick = k := by
  unfold Core.tick
  rw [h]
  cases k
  cases h
  rfl

/-- What a core keeps through the fetch of its instruction. -/
def Core.fetchOnly (k q : Core) : Prop := ∃ l f, q = { k with lines := l, fills := f }

theorem ready_fetchOnly (w : World) (c : Nat) : Core.fetchOnly (w.core c) (w.ready c) := by
  unfold World.ready World.touchLine
  split
  · exact ⟨_, _, rfl⟩
  · dsimp only
    unfold World.requestLine
    split
    · dsimp only
      split
      · rw [core_setCore]; exact ⟨_, _, rfl⟩
      · rw [core_setCore, core_setCore]; exact ⟨_, _, rfl⟩
    · rw [core_setCore]; exact ⟨_, _, rfl⟩

theorem fetchBad_setCore (w : World) (c a : Nat) : (w.setCore c (w.core c)).fetchBad c a = w.fetchBad c a := by
  unfold World.fetchBad
  rw [core_setCore]
  rfl

/-- A fetched instruction that need not wait acts. -/
theorem runIns_act {w : World} {c i : Nat} {long : Bool} (h : w.fetches c long) (m : Mem) (mk : World → Ins)
    (hl : (mk (w.setCore c (w.core c))).long = long) (hy : (mk (w.setCore c (w.core c))).busy = false) :
    w.runIns m c i mk = (w.setCore c (w.ready c)).act m c i (w.core c).pc (mk (w.setCore c (w.core c))) := by
  obtain ⟨h1, h2, h3, h4, h5, h6, h7⟩ := h
  have hlw : w.leaveWait c = w := by unfold World.leaveWait; dsimp only; rw [if_neg (by rw [h2]; decide)]
  have hwt : ∀ l, (w.core c).waits l = false := by intro l; unfold Core.waits; rw [h5]; rfl
  have hsh : (w.setCore c (w.core c)).touchLine c (w.core c).pc = w.setCore c (w.ready c) := by
    rw [touchLine_shape, touchLine_core]; rfl
  unfold World.runIns
  rw [hlw]
  dsimp only
  rw [tick_idle h3]
  generalize mk (w.setCore c (w.core c)) = x at *
  have hff : (w.setCore c (w.core c)).fetchFault c (w.core c).pc (((w.core c).pc + 2) % 2 ^ 32) x.long = none := by
    unfold World.fetchFault
    rw [fetchBad_setCore, fetchBad_setCore, h6.1, hl, Option.map_none, Option.none_or]
    split
    · next h => rw [(h7 h).1]; rfl
    · rfl
  have hfm : w.fetchMiss c (w.core c).pc (((w.core c).pc + 2) % 2 ^ 32) x.long = none := by
    unfold World.fetchMiss
    rw [h6.2, hl, Option.none_or]
    split
    · next h => exact (h7 h).2
    · rfl
  rw [hff, hfm, hwt, hy, hsh]
  rfl

/-- An instruction that is issued leaves everything to its own effect. -/
theorem runIns_go {w : World} {c i : Nat} {long : Bool} (h : w.issues c i long) (m : Mem) (mk : World → Ins)
    (hl : (mk (w.setCore c (w.core c))).long = long) (hb : (mk (w.setCore c (w.core c))).bad = false)
    (hy : (mk (w.setCore c (w.core c))).busy = false) (hp : (mk (w.setCore c (w.core c))).priv = false)
    (hj : ((mk (w.setCore c (w.core c))).jump.any fun t => t % 2 == 1) = false) :
    w.runIns m c i mk = ((mk (w.setCore c (w.core c))).go m (w.setCore c (w.ready c))).finish c (w.core c).pc := by
  obtain ⟨l, f, hr⟩ := ready_fetchOnly w c
  have hg : (w.ready c).guard i = true := by rw [hr]; exact h.2.1
  rw [runIns_act h.1 m mk hl hy]
  unfold World.act
  dsimp only
  rw [core_setCore, hg, hj, h.2.2, hb, hp]
  rfl

theorem coreRow_go {s : State} {c op : Nat} {i : BitVec 32} {long : Bool} (h : s.w.issues c i.toNat long) (ho : insOp i.toNat = op) (mk : World → Ins)
    (hl : (mk (s.w.setCore c (s.w.core c))).long = long) (hb : (mk (s.w.setCore c (s.w.core c))).bad = false)
    (hy : (mk (s.w.setCore c (s.w.core c))).busy = false) (hp : (mk (s.w.setCore c (s.w.core c))).priv = false)
    (hj : ((mk (s.w.setCore c (s.w.core c))).jump.any fun t => t % 2 == 1) = false) :
    coreRow s c i op mk = onM s fun m w => ((mk (w.setCore c (w.core c))).go m (w.setCore c (w.ready c))).finish c (w.core c).pc := by
  unfold coreRow onM
  dsimp only
  rw [if_pos ⟨h.1.1, ho⟩, runIns_go h s.mem mk hl hb hy hp hj]

theorem retire_setCore {w : World} {c : Nat} {k : Core} (h1 : k.st = 1) (h2 : k.stepping = false) (old pc : Nat) :
    (w.setCore c k).retire c old pc = w.setCore c (k.retired old pc) := by
  unfold World.retire
  dsimp only
  rw [core_setCore, if_neg (by rw [h1]; decide), setCore_setCore]
  congr 1
  cases k
  cases h1
  cases h2
  rfl

/-- An instruction that is issued and changes its core by `f` alone. -/
theorem coreRow_next {s : State} {c op : Nat} {i : BitVec 32} (h : s.w.issues c i.toNat false) (ho : insOp i.toNat = op) (mk : World → Ins)
    (f : Core → Core) (hl : (mk (s.w.setCore c (s.w.core c))).long = false) (hb : (mk (s.w.setCore c (s.w.core c))).bad = false)
    (hy : (mk (s.w.setCore c (s.w.core c))).busy = false) (hp : (mk (s.w.setCore c (s.w.core c))).priv = false)
    (hj : (mk (s.w.setCore c (s.w.core c))).jump = none)
    (hgo : ∀ m w, (mk (s.w.setCore c (s.w.core c))).go m w = .next m (w.setCore c (f (w.core c))) (w.after c))
    (h1 : (f (s.w.ready c)).st = 1) (h2 : (f (s.w.ready c)).stepping = false) : coreRow s c i op mk = .next (s.ran c 2 f) := by
  rw [coreRow_go h ho mk hl hb hy hp (by rw [hj]; rfl)]
  obtain ⟨l, q, hr⟩ := ready_fetchOnly s.w c
  have hpc : (s.w.ready c).pc = (s.w.core c).pc := by rw [hr]
  unfold onM
  dsimp only
  rw [hgo]
  unfold Exe.finish
  dsimp only
  rw [core_setCore, setCore_setCore, retire_setCore h1 h2]
  unfold World.after World.pcOf
  rw [core_setCore, hpc]
  rfl

/-- A register instruction that is issued. -/
theorem coreRow_reg {s : State} {c op : Nat} {i : BitVec 32} (h : s.w.issues c i.toNat false) (ho : insOp i.toNat = op) {bad : Bool} {regs : List Nat}
    {f : Core → Core} (hb : bad = false) (h1 : (f (s.w.ready c)).st = 1) (h2 : (f (s.w.ready c)).stepping = false) :
    coreRow s c i op (regIns c bad regs f) = .next (s.ran c 2 f) :=
  coreRow_next h ho _ f rfl hb rfl rfl rfl (fun _ _ => rfl) h1 h2

theorem coreRow_act {s : State} {c op : Nat} {i : BitVec 32} {long : Bool} (h : s.w.fetches c long) (ho : insOp i.toNat = op) (mk : World → Ins)
    (hl : (mk (s.w.setCore c (s.w.core c))).long = long) (hy : (mk (s.w.setCore c (s.w.core c))).busy = false) :
    coreRow s c i op mk = onM s fun m w => (w.setCore c (w.ready c)).act m c i.toNat (w.core c).pc (mk (w.setCore c (w.core c))) := by
  unfold coreRow onM
  dsimp only
  rw [if_pos ⟨h.1, ho⟩, runIns_act h s.mem mk hl hy]

theorem setCore_off (w : World) (c : Nat) (k : Core) : (w.setCore c k).memOff = w.memOff ∧ (w.setCore c k).memWrites = w.memWrites := by
  refine ⟨rfl, ?_⟩
  funext m a l
  induction l generalizing m a with
  | nil => rfl
  | cons v l ih => exact ih _ _

/-- Draining the whole store buffer. -/
theorem drainAll_setCore (w : World) (m : Mem) (c : Nat) (k : Core) :
    (w.setCore c k).drainAll m c = (w.drained m k.sb, w.setCore c { k with sb := [] }) := by
  have h : ∀ (l : List (Nat × List Nat)) (m : Mem) (k : Core), k.sb = l →
      (w.setCore c k).drainStores m c l.length = (w.drained m l, w.setCore c { k with sb := [] }) := by
    intro l
    induction l with
    | nil =>
      intro m k hk
      refine Prod.ext rfl ?_
      show w.setCore c k = _
      rw [← hk]
    | cons e l ih =>
      intro m k hk
      show World.drainStores _ _ _ (l.length + 1) = _
      unfold World.drainStores
      dsimp only
      rw [core_setCore, hk]
      dsimp only
      rw [setCore_setCore, (setCore_off _ _ _).1, (setCore_off _ _ _).2]
      exact ih _ { k with sb := l } rfl
  unfold World.drainAll
  rw [core_setCore]
  exact h k.sb m k rfl

theorem landAll_idle (w : World) (c : Nat) (k : Core) (h : k.side = []) : (w.setCore c k).landAll c = (w.setCore c k, none) := by
  unfold World.landAll
  dsimp only
  rw [core_setCore, h, setCore_setCore]
  refine Prod.ext ?_ rfl
  show w.setCore c _ = _
  congr 1
  cases k
  cases h
  rfl

theorem gateBad_lines (k : Core) (l : List (Nat × List Nat)) (f : List Nat) (e : Nat → Nat) (b : Bool) :
    Core.gateBad { k with lines := l, fills := f } e b = k.gateBad e b := by
  unfold Core.gateBad
  rfl

theorem drainAll_empty (w : World) (m : Mem) (c : Nat) (q : Core) (h : q.sb = []) : (w.setCore c q).drainAll m c = (m, w.setCore c q) := by
  rw [drainAll_setCore, h]
  refine Prod.ext rfl ?_
  show w.setCore c _ = w.setCore c q
  congr 1
  cases q
  cases h
  rfl

theorem pushFrame_ok (w : World) (m : Mem) (c : Nat) (q : Core) (h : FrameHead) (ht : q.tsblim < q.tsbp) :
    (w.setCore c q).pushFrame m c h = some (w.memWrites m (w.tcmBase c + 64 * (q.tsbp - 1)) (q.frame h), w.setCore c { q with tsbp := q.tsbp - 1 }) := by
  unfold World.pushFrame
  dsimp only
  rw [core_setCore, if_neg (by omega), setCore_setCore, (setCore_off _ _ _).2]
  unfold World.frameAt
  rw [core_setCore]
  rfl

theorem gateCall_ok (w : World) (m : Mem) (c num : Nat) (q : Core) (hsb : q.sb = []) (hside : q.side = []) (ht : q.tsblim < q.tsbp) (g : Nat)
    (e : Nat → Nat) (hg : g = (q.gateb + 16 * num) % 2 ^ 32) (he : e = fun n => (w.setCore c q).memRead m ((w.setCore c q).coreAddr c (g + n)))
    (hoff : (w.setCore c q).memOff ((w.setCore c q).coreAddr c g) = false)
    (hb : q.gateBad e ((w.setCore c q).inOwnTcm c g || isFlash g) = none) :
    (w.setCore c q).gateCall m c num = .next
      (w.memWrites m (w.tcmBase c + 64 * (q.tsbp - 1)) (q.frame { cause := 0x21, flags := 2, src := 0xFFFF, info := num, pc := (q.pc + 2) % 2 ^ 32 }))
      (w.setCore c { (if (e 2).testBit 8 then { q with tsbp := q.tsbp - 1 }.setA 4 (e 4 + 65536 * e 5) else { q with tsbp := q.tsbp - 1 }) with
          mode := (q.mode &&& 8) ||| (if (e 2).testBit 9 then q.mode &&& 4 else 0) ||| (e 2 % 4) }) (e 0 + 65536 * e 1) := by
  subst he hg
  unfold World.gateCall
  dsimp only
  rw [core_setCore, drainAll_empty _ _ _ _ hsb]
  dsimp only
  rw [hoff, if_neg Bool.false_ne_true, hb]
  dsimp only
  rw [landAll_idle _ _ _ hside]
  dsimp only
  rw [pushFrame_ok _ _ _ _ _ ht]
  dsimp only
  rw [core_setCore, setCore_setCore]
  generalize Nat.testBit _ 8 = b8
  cases b8 <;> rfl

theorem retx_ok (w : World) (m : Mem) (c : Nat) (q : Core) (hsb : q.sb = []) (hside : q.side = []) (ht : q.tsbp ≠ q.tsbtop) (rd : Nat → Nat)
    (hrd : rd = fun n => Mem.word m (w.tcmBase c + 64 * q.tsbp + n)) (ha : (rd 4 + 65536 * rd 5) % 2 = 0) (hp1 : rank (rd 6 % 4) ≤ rank (rd 3 % 4))
    (hp2 : rank (rd 6 % 4) ≤ rank (q.mode % 4)) (hint : (rd 1).testBit 0 = false) :
    (w.setCore c q).retx m c = .next m (w.setCore c (q.restore rd ((rd 1).testBit 1))) (rd 4 + 65536 * rd 5) := by
  subst hrd
  dsimp only at ha hp1 hp2 hint ⊢
  unfold World.retx
  dsimp only
  rw [core_setCore, if_neg ht, drainAll_empty _ _ _ _ hsb]
  dsimp only
  rw [core_setCore]
  rw [show (w.setCore c q).frameAt c = w.tcmBase c + 64 * q.tsbp by
    unfold World.frameAt
    rw [core_setCore]
    rfl]
  rw [if_neg (by omega), if_neg (by omega), landAll_idle _ _ _ hside]
  dsimp only
  rw [hint, Bool.false_and, core_setCore, setCore_setCore]
  rfl

theorem touch_setCore (w : World) (n c : Nat) (q : Core) : (w.setCore c q).touch n = (w.touch n).setCore c q := by
  unfold World.touch
  rw [show (w.setCore c q).fb F.PM_CFG_TRIMEN 0 = w.fb F.PM_CFG_TRIMEN 0 from rfl]
  cases w.fb F.PM_CFG_TRIMEN 0
  · rfl
  · unfold World.when
    rw [if_pos rfl, if_pos rfl]
    dsimp only
    rw [show (w.setCore c q).pwr = w.pwr from rfl]
    split <;> rfl

/-- An access of a core leaves its registers alone when it wakes a gated island's clock. -/
theorem touchAt_setCore (w : World) (x c : Nat) (q : Core) : (w.setCore c q).touchAt x = (w.touchAt x).setCore c q := by
  unfold World.touchAt
  split
  · exact touch_setCore _ _ _ _
  · rfl

theorem ungate_keeps {l : List Nat} {w v : World} (h : Keeps l w v) (hl : F.PM_STATE_STATE.id ∈ l) (n : Nat) : Keeps l w (v.ungate n) := by
  unfold World.ungate World.showPm
  exact (h.with_pwr).sf ⟨by decide, hl⟩

theorem touch_keeps (w : World) (n : Nat) : Keeps [F.PM_STATE_STATE.id] w (w.touch n) :=
  (Keeps.refl _ w).when fun _ h => (h.when fun _ h => ungate_keeps h (by decide) n).start

theorem touch_cores (w : World) (n : Nat) : (w.touch n).cores = w.cores := by
  unfold World.touch World.when
  split
  · dsimp only
    split <;> rfl
  · rfl

/-- Where an access to a gated island wakes its clock, addresses and what memory answers stay as they were. -/
theorem touchAt_reads (w : World) (x : Nat) : (w.touchAt x).cores = w.cores ∧ Keeps [F.PM_STATE_STATE.id] w (w.touchAt x)
    ∧ (w.touchAt x).memAddr = w.memAddr ∧ (w.touchAt x).coreAddr = w.coreAddr := by
  have hk : (w.touchAt x).cores = w.cores ∧ Keeps [F.PM_STATE_STATE.id] w (w.touchAt x) := by
    unfold World.touchAt
    split
    · exact ⟨touch_cores _ _, touch_keeps _ _⟩
    · exact ⟨rfl, Keeps.refl _ _⟩
  have hs : (w.touchAt x).split = w.split := congrArg (fun n => n != 0) (hk.2.f (G := F.GL_BOOTOPT_SPLIT) (by decide) 0)
  refine ⟨hk.1, hk.2, ?_, ?_⟩
  · funext a
    unfold World.memAddr World.flashAddr
    rw [hs, hk.2.f (by decide)]
  · funext c a
    unfold World.coreAddr World.tcmBase World.phys
    rw [hs]

theorem touchAt_memRead (w : World) (m : Mem) (x a : Nat) : (w.touchAt x).memRead m a = w.memRead m a := by
  obtain ⟨-, hk, ha, -⟩ := touchAt_reads w x
  unfold World.memRead
  rw [ha]
  have : (w.touchAt x).deadBank = w.deadBank := by
    funext b
    unfold World.deadBank World.bankOn World.bankInUse World.trState World.trRegion
    simp only [hk.f (G := F.EL_SSTAT_ACT) (by decide), hk.f (G := F.TR_STAT_STATE) (by decide), hk.f (G := F.TR_CFG_BANK0) (by decide), hk.f (G := F.TR_CFG_NBANK) (by decide)]
  rw [this]

/-- A word that a core reads is the same before and after an access of its own. -/
theorem coreWord_touchAt (w : World) (m : Mem) (x c : Nat) (q : Core) (a : Nat) : ((w.touchAt x).setCore c q).coreWord m c a = (w.setCore c q).coreWord m c a := by
  unfold World.coreWord
  rw [core_setCore, core_setCore, ← touchAt_setCore, touchAt_memRead]

/-- A store that enters the buffer. -/
theorem coreStore_buffer (w : World) (m : Mem) (c : Nat) (q : Core) (a : Nat) (l : List Nat) (hr : isReg a = false) (hs : q.sb.length < 4) :
    (w.setCore c q).coreStore m c a l = (m, (w.touchAt ((w.setCore c q).memAddr ((w.setCore c q).coreAddr c a))).setCore c { q with
      sb := q.sb ++ [((w.setCore c q).memAddr ((w.setCore c q).coreAddr c a), l)],
      lines := q.lines.filter fun e => e.1 != lineAt ((w.setCore c q).memAddr ((w.setCore c q).coreAddr c a)) }) := by
  unfold World.coreStore
  rw [hr, if_neg Bool.false_ne_true, core_setCore, if_neg (by omega)]
  dsimp only
  rw [touchAt_setCore, core_setCore, setCore_setCore]

/-- A load that no buffered store overlaps. -/
theorem coreLoad_mem (w : World) (m : Mem) (c : Nat) (q : Core) (a n : Nat) (hr : isReg a = false)
    (ho : q.overlap ((w.setCore c q).memAddr ((w.setCore c q).coreAddr c a)) n = none) :
    (w.setCore c q).coreLoad m c a n
      = (m, (w.touchAt ((w.setCore c q).memAddr ((w.setCore c q).coreAddr c a))).setCore c q, (List.range n).map fun j => (w.setCore c q).coreWord m c ((w.setCore c q).coreAddr c (a + j))) := by
  unfold World.coreLoad
  rw [hr, if_neg Bool.false_ne_true, core_setCore]
  dsimp only
  rw [ho, touchAt_setCore]

theorem setP_shape (k : Core) (n : Nat) (b : Bool) : ∃ p, k.setP n b = { k with pr := p } := by
  unfold Core.setP
  split
  · exact ⟨_, rfl⟩
  · exact ⟨_, rfl⟩

end Sys2Proof.Machine
end

