-- ==== Sys2Proof/Laws/CoreRows.lean ====
section
/-! SUPPORT. Lemmas about the rows of the core: what each shared operation can do. -/

namespace Sys2Proof.Machine

theorem memRow {s : State} {c op : Nat} {i : BitVec 32} (x : MemKind) (h : s.w.issues c i.toNat false) (ho : insOp i.toNat = op)
    (hm : memBad i.toNat = false) (hb : x.bad (insD i.toNat) = false) :
    coreRow s c i op (memIns c i.toNat x) = onM s fun m w => ((w.setCore c (w.ready c)).memGo m c i.toNat x false).finish c (w.core c).pc :=
  coreRow_go h ho _ rfl (by show (memBad i.toNat || x.bad (insD i.toNat)) = false; rw [hm, hb]; rfl) rfl rfl rfl

theorem advA_st (k : Core) (i : Nat) (x : Option Nat) : (k.advA i x).st = k.st ∧ (k.advA i x).stepping = k.stepping := by cases x <;> exact ⟨rfl, rfl⟩

theorem sink_st (x : MemKind) (k : Core) (d : Nat) (l : List Nat) : (x.sink k d l).st = k.st ∧ (x.sink k d l).stepping = k.stepping := by
  cases x <;> exact ⟨rfl, rfl⟩

theorem finish_next {s : State} {c : Nat} {m : Mem} {k : Core} (h1 : k.st = 1) (h2 : k.stepping = false) (old pc : Nat) :
    (Exe.next m (s.w.setCore c k) pc).finish c old = (m, s.w.setCore c (k.retired old pc)) := by
  unfold Exe.finish
  dsimp only
  rw [retire_setCore h1 h2]

theorem setP_st (k : Core) (n : Nat) (b : Bool) : (k.setP n b).st = k.st ∧ (k.setP n b).stepping = k.stepping := by
  unfold Core.setP
  split <;> exact ⟨rfl, rfl⟩

theorem setPs_st (l : List Nat) (t : Nat → Bool) : ∀ k : Core, (l.foldl (fun (q : Core) n => q.setP n (t n)) k).st = k.st
    ∧ (l.foldl (fun (q : Core) n => q.setP n (t n)) k).stepping = k.stepping := by
  induction l with
  | nil => exact fun _ => ⟨rfl, rfl⟩
  | cons a l ih => exact fun k => ⟨(ih _).1.trans (setP_st _ _ _).1, (ih _).2.trans (setP_st _ _ _).2⟩

theorem branch_spec (w : World) (c pc : Nat) (t : Option Nat) : ∃ bt, (w.branch c pc t).core c = { w.core c with btb := bt }
    ∧ (∀ j, j ≠ c → (w.branch c pc t).core j = w.core j) ∧ (w.branch c pc t).out = w.out ∧ Keeps [F.CX_PERF_BPMISS.id] w (w.branch c pc t) := by
  have hw : ∀ (b : Bool) (i : Nat), ∀ v, v = (w.when b fun w => w.inc F.CX_PERF_BPMISS i) → 
      (∀ j, v.core j = w.core j) ∧ v.out = w.out ∧ Keeps [F.CX_PERF_BPMISS.id] w v := by
    intro b i v hv
    rw [hv]
    unfold World.when
    cases b
    · exact ⟨fun _ => rfl, rfl, Keeps.refl _ _⟩
    · exact ⟨fun _ => rfl, rfl, (Keeps.refl _ _).sf (by decide)⟩
  unfold World.branch
  dsimp only
  generalize hv : (w.when _ fun w => w.inc F.CX_PERF_BPMISS (w.phys c)) = v
  obtain ⟨h1, h2, h3⟩ := hw _ _ v hv.symm
  split
  · refine ⟨_, core_setCore _ _ _, fun j hj => (core_setCore_ne _ _ hj).trans (h1 j), h2, h3.setCore⟩
  · refine ⟨_, core_setCore _ _ _, fun j hj => (core_setCore_ne _ _ hj).trans (h1 j), h2, h3.setCore⟩
  · refine ⟨_, core_setCore _ _ _, fun j hj => (core_setCore_ne _ _ hj).trans (h1 j), h2, h3.setCore⟩
  · exact ⟨_, h1 c, fun j _ => h1 j, h2, h3⟩

theorem goTo_spec (s : State) (c t : Nat) (link : Option Nat) (old : Nat) (h1 : (s.w.ready c).st = 1) (h2 : (s.w.ready c).stepping = false) :
    ∃ (v : World) (bt : List (Nat × Btb)), ((s.w.setCore c (s.w.ready c)).goTo s.mem c t link).finish c old = (s.mem, v)
      ∧ v.core c = (match link with | none => { s.w.ready c with btb := bt } | some r => { s.w.ready c with btb := bt }.setA 5 r).retired old t
      ∧ (∀ j, j ≠ c → v.core j = s.w.core j) ∧ v.out = s.w.out ∧ Keeps [F.CX_PERF_BPMISS.id] s.w v := by
  obtain ⟨bt, hb1, hb2, hb3, hb4⟩ := branch_spec (s.w.setCore c (s.w.ready c)) c ((s.w.setCore c (s.w.ready c)).pcOf c) (some t)
  rw [core_setCore] at hb1
  have hb2' : ∀ j, j ≠ c → ((s.w.setCore c (s.w.ready c)).branch c ((s.w.setCore c (s.w.ready c)).pcOf c) (some t)).core j = s.w.core j :=
    fun j hj => (hb2 j hj).trans (core_setCore_ne _ _ hj)
  have hk : Keeps [F.CX_PERF_BPMISS.id] s.w ((s.w.setCore c (s.w.ready c)).branch c ((s.w.setCore c (s.w.ready c)).pcOf c) (some t)) :=
    Keeps.trans ((Keeps.refl _ _).setCore) hb4
  unfold World.goTo
  dsimp only
  generalize (s.w.setCore c (s.w.ready c)).branch c ((s.w.setCore c (s.w.ready c)).pcOf c) (some t) = v at *
  have hret : ∀ (u : World) (k : Core), u.core c = k → k.st = 1 → k.stepping = false → u.retire c old t = u.setCore c (k.retired old t) := by
    intro u k hk g1 g2
    unfold World.retire
    dsimp only
    rw [hk, if_neg (by rw [g1]; decide)]
    congr 1
    cases k
    cases g1
    cases g2
    rfl
  unfold Exe.finish
  cases link with
  | none =>
    dsimp only
    rw [hret v _ hb1 h1 h2]
    exact ⟨_, bt, rfl, core_setCore _ _ _, fun j hj => (core_setCore_ne _ _ hj).trans (hb2' j hj), hb3, hk.setCore⟩
  | some r =>
    dsimp only
    rw [hb1, retire_setCore (by exact h1) (by exact h2)]
    exact ⟨_, bt, rfl, core_setCore _ _ _, fun j hj => (core_setCore_ne _ _ hj).trans (hb2' j hj), hb3, hk.setCore⟩

theorem csrWrite_st (k : Core) (n v : Nat) : (k.csrWrite n v).st = k.st ∧ (k.csrWrite n v).stepping = k.stepping := by
  unfold Core.csrWrite
  dsimp only
  split
  all_goals first
    | exact ⟨rfl, rfl⟩
    | (split <;> exact ⟨rfl, rfl⟩)

theorem writeTsb_st {k z : Core} {n v : Nat} (h : k.writeTsb n v = some z) : z.st = k.st ∧ z.stepping = k.stepping := by
  unfold Core.writeTsb at h
  dsimp only at h
  generalize hk : (if n = 0x15 then { k with tsbp := v % 4096 } else if n = 0x16 then { k with tsblim := v % 4096 } else { k with tsbtop := v % 4096 } : Core) = q at h
  have hq : q.st = k.st ∧ q.stepping = k.stepping := by
    rw [← hk]
    split
    · exact ⟨rfl, rfl⟩
    · split <;> exact ⟨rfl, rfl⟩
  split at h
  · cases h
    exact hq
  · cases h

theorem foldW_st (l : List Nat) (f : Core → Nat → Core) (hf : ∀ k n, (f k n).st = k.st ∧ (f k n).stepping = k.stepping) : ∀ k : Core,
    (l.foldl f k).st = k.st ∧ (l.foldl f k).stepping = k.stepping := by
  induction l with
  | nil => exact fun _ => ⟨rfl, rfl⟩
  | cons a l ih => exact fun k => ⟨(ih _).1.trans (hf _ _).1, (ih _).2.trans (hf _ _).2⟩

theorem restore_st (k : Core) (rd : Nat → Nat) (g : Bool) : (k.restore rd g).st = k.st ∧ (k.restore rd g).stepping = k.stepping := by
  have h1 := foldW_st (List.range 16) (fun (k : Core) n => if g && decide (n < 4) then k else k.setW n (rd (10 + n)))
    (fun k n => by split <;> exact ⟨rfl, rfl⟩)
  have h2 := foldW_st (List.range 8) (fun (k : Core) n => k.setA n (rd (26 + 2 * n) + 65536 * rd (27 + 2 * n))) (fun k n => ⟨rfl, rfl⟩)
  unfold Core.restore
  dsimp only
  exact ⟨(h2 _).1.trans (h1 _).1, (h2 _).2.trans (h1 _).2⟩

theorem elements_zero (w : World) (m : Mem) (c i : Nat) (x : StrKind) (b : Bool) (h : (w.core c).w 13 = 0) (n : Nat) :
    w.elements m c i x b n = .next m w (w.after c) := by
  cases n
  · exact if_pos h
  · exact if_pos h

theorem elements_hold (w : World) (m : Mem) (c i : Nat) (x : StrKind) (b : Bool) (h : (w.core c).w 13 ≠ 0) : w.elements m c i x b (1 - 1) = .hold m w := if_neg h

theorem elements_one (w : World) (m : Mem) (c i : Nat) (x : StrKind) (b : Bool) (h : (w.core c).w 13 ≠ 0) {n : Nat} (hn : 0 < n) :
    w.elements m c i x b n = match w.tryElement m c i x b with
      | .more m w => w.elements m c i x b (n - 1)
      | .stop m w => .next m w (w.after c)
      | .fail e => e := by
  cases n with
  | zero => omega
  | succ n => exact if_neg h

theorem tryElement_ok (w : World) (m : Mem) (c i : Nat) (x : StrKind) (b : Bool)
    (h : ∀ e ∈ x.uses (w.core c), (w.core c).mpuOk (b2n e.2) e.1 = true ∧ isReg e.1 = false ∧ w.bus c e.1 e.2 b = .ok) :
    w.tryElement m c i x b = w.element m c i x := by
  unfold World.tryElement
  dsimp only
  have : ((x.uses (w.core c)).findSome? fun u => (w.strBus c u.1 u.2 b).map fun r => (u.1, r)) = none := by
    rw [List.findSome?_eq_none_iff]
    intro e he
    obtain ⟨h1, h2, h3⟩ := h e he
    unfold World.strBus
    rw [h1, h2, h3]
    rfl
  rw [this]

theorem w_setW_same (k : Core) (n v : Nat) : (k.setW n v).w n = v % 65536 := by unfold Core.setW Core.w; exact mget_mset_same _ _ _ _

theorem strRow {s : State} {c op : Nat} {i : BitVec 32} (x : StrKind) (lim : Option Nat) (h : s.w.issues c i.toNat false) (ho : insOp i.toNat = op)
    (hz : bitsOf i.toNat 1 18 = 0) :
    coreRow s c i op (strIns c i.toNat x lim) = onM s fun m w => ((w.setCore c (w.ready c)).strGo m c i.toNat x lim false).finish c (w.core c).pc :=
  coreRow_go h ho _ rfl (by show (bitsOf i.toNat 1 18 != 0) = false; rw [hz]; rfl) rfl rfl rfl

theorem overlap_empty (q : Core) (h : q.sb = []) (a n : Nat) : q.overlap a n = none := by
  unfold Core.overlap
  rw [h]
  rfl

theorem elem_fils (w : World) (m : Mem) (c i : Nat) (q : Core) (h7 : isReg (q.a 7) = false) (hs : q.sb = []) :
    (w.setCore c q).element m c i .fils = .more m ((w.touchAt ((w.setCore c q).memAddr ((w.setCore c q).coreAddr c (q.a 7)))).setCore c (StrKind.fils.step { q with
      sb := [((w.setCore c q).memAddr ((w.setCore c q).coreAddr c (q.a 7)), [q.w 12])],
      lines := q.lines.filter fun l => l.1 != lineAt ((w.setCore c q).memAddr ((w.setCore c q).coreAddr c (q.a 7))) } (i.testBit 0))) := by
  unfold World.element
  dsimp only
  rw [core_setCore, coreStore_buffer _ _ _ _ _ _ h7 (by rw [hs]; decide)]
  dsimp only
  rw [core_setCore, setCore_setCore, hs, List.nil_append]

theorem elem_movs (w : World) (m : Mem) (c i : Nat) (q : Core) (h6 : isReg (q.a 6) = false) (h7 : isReg (q.a 7) = false) (hs : q.sb = []) :
    (w.setCore c q).element m c i .movs = .more m (((w.touchAt ((w.setCore c q).memAddr ((w.setCore c q).coreAddr c (q.a 6)))).touchAt
      ((w.setCore c q).memAddr ((w.setCore c q).coreAddr c (q.a 7)))).setCore c (StrKind.movs.step { q with
      sb := [((w.setCore c q).memAddr ((w.setCore c q).coreAddr c (q.a 7)), [(w.setCore c q).coreWord m c ((w.setCore c q).coreAddr c (q.a 6))])],
      lines := q.lines.filter fun l => l.1 != lineAt ((w.setCore c q).memAddr ((w.setCore c q).coreAddr c (q.a 7))) } (i.testBit 0))) := by
  unfold World.element
  dsimp only
  rw [core_setCore, coreLoad_mem _ _ _ _ _ _ h6 (overlap_empty _ hs _ _)]
  dsimp only
  rw [coreStore_buffer _ _ _ _ _ _ h7 (by rw [hs]; decide)]
  dsimp only
  obtain ⟨-, -, e1, e2⟩ := touchAt_reads (w.setCore c q) ((w.setCore c q).memAddr ((w.setCore c q).coreAddr c (q.a 6)))
  rw [touchAt_setCore] at e1 e2
  rw [core_setCore, setCore_setCore, hs, List.nil_append, e1, e2]
  rfl

theorem elem_cmps (w : World) (m : Mem) (c i : Nat) (q : Core) (h6 : isReg (q.a 6) = false) (h7 : isReg (q.a 7) = false) (hs : q.sb = []) :
    (w.setCore c q).element m c i .cmps =
      let v := (w.touchAt ((w.setCore c q).memAddr ((w.setCore c q).coreAddr c (q.a 6)))).touchAt ((w.setCore c q).memAddr ((w.setCore c q).coreAddr c (q.a 7)))
      if (w.setCore c q).coreWord m c ((w.setCore c q).coreAddr c (q.a 6)) = (w.setCore c q).coreWord m c ((w.setCore c q).coreAddr c (q.a 7))
      then .more m (v.setCore c (StrKind.cmps.step q (i.testBit 0))) else .stop m (v.setCore c (q.setP (insPd i) false)) := by
  unfold World.element
  dsimp only
  rw [core_setCore, coreLoad_mem _ _ _ _ _ _ h6 (overlap_empty _ hs _ _)]
  dsimp only
  rw [coreLoad_mem _ _ _ _ _ _ h7 (overlap_empty _ hs _ _)]
  dsimp only
  obtain ⟨-, -, e1, e2⟩ := touchAt_reads (w.setCore c q) ((w.setCore c q).memAddr ((w.setCore c q).coreAddr c (q.a 6)))
  rw [touchAt_setCore] at e1 e2
  rw [core_setCore, setCore_setCore, setCore_setCore, e1, e2]
  simp only [coreWord_touchAt]
  show (if [_] = [_] then _ else _) = _
  simp only [List.cons.injEq, and_true, Nat.add_zero]

theorem elem_scns (w : World) (m : Mem) (c i : Nat) (q : Core) (h6 : isReg (q.a 6) = false) (hs : q.sb = []) :
    (w.setCore c q).element m c i .scns =
      let v := w.touchAt ((w.setCore c q).memAddr ((w.setCore c q).coreAddr c (q.a 6)))
      if (w.setCore c q).coreWord m c ((w.setCore c q).coreAddr c (q.a 6)) = q.w 12
      then .stop m (v.setCore c (q.setP (insPd i) true)) else .more m (v.setCore c (StrKind.scns.step q (i.testBit 0))) := by
  unfold World.element
  dsimp only
  rw [core_setCore, coreLoad_mem _ _ _ _ _ _ h6 (overlap_empty _ hs _ _)]
  dsimp only
  rw [core_setCore, setCore_setCore, setCore_setCore]
  show (if [_] = [_] then _ else _) = _
  simp only [List.cons.injEq, and_true, Nat.add_zero]

theorem step_w13 (x : StrKind) (k : Core) (b : Bool) : (x.step k b).w 13 = (k.w 13 - 1) % 65536 := by
  unfold StrKind.step
  dsimp only
  unfold Core.setW Core.w
  dsimp only
  rw [mget_mset_same]
  cases x <;> rfl

theorem coreWord_pr (w : World) (m : Mem) (c x : Nat) (q : Core) (p : Nat) :
    (w.setCore c { q with pr := p }).coreWord m c x = (w.setCore c q).coreWord m c x := by
  unfold World.coreWord
  rw [core_setCore, core_setCore]
  rfl

theorem step_movs (y : Core) (b : Bool) (d : Int) (n : Nat) (hd : d = if b then -1 else 1) (h : y.w 13 = n + 1) : StrKind.movs.step y b =
    ((y.setA 6 (unI 32 (y.a 6 + d))).setA 7 (unI 32 ((y.setA 6 (unI 32 (y.a 6 + d))).a 7 + d))).setW 13 n := by
  subst hd
  show Core.setW _ 13 (y.w 13 - 1) = _
  rw [h]
  rfl

theorem step_cmps (y : Core) (b : Bool) (d : Int) (n : Nat) (hd : d = if b then -1 else 1) (h : y.w 13 = n + 1) : StrKind.cmps.step y b =
    ((y.setA 6 (unI 32 (y.a 6 + d))).setA 7 (unI 32 ((y.setA 6 (unI 32 (y.a 6 + d))).a 7 + d))).setW 13 n := by
  subst hd
  show Core.setW _ 13 (y.w 13 - 1) = _
  rw [h]
  rfl

theorem step_fils (y : Core) (b : Bool) (d : Int) (n : Nat) (hd : d = if b then -1 else 1) (h : y.w 13 = n + 1) : StrKind.fils.step y b =
    (y.setA 7 (unI 32 (y.a 7 + d))).setW 13 n := by
  subst hd
  show Core.setW _ 13 (y.w 13 - 1) = _
  rw [h]
  rfl

theorem step_scns (y : Core) (b : Bool) (d : Int) (n : Nat) (hd : d = if b then -1 else 1) (h : y.w 13 = n + 1) : StrKind.scns.step y b =
    (y.setA 6 (unI 32 (y.a 6 + d))).setW 13 n := by
  subst hd
  show Core.setW _ 13 (y.w 13 - 1) = _
  rw [h]
  rfl

theorem forceAll_none {k : Core} (h : k.staged = []) : k.forceAll = k := by
  unfold Core.forceAll
  rw [h]
  cases k
  cases h
  rfl

theorem quiesce_idle (w : World) (m : Mem) (c pc : Nat) (q : Core) (h1 : q.staged = []) (h2 : q.sb = []) (h3 : q.side = []) :
    (w.setCore c q).quiesce m c pc = (m, w.setCore c q, pc) := by
  unfold World.quiesce
  dsimp only
  rw [core_setCore, setCore_setCore, forceAll_none h1, drainAll_empty _ _ _ _ h2]
  dsimp only
  rw [landAll_idle _ _ _ h3]

theorem frame_ready (k : Core) (l f) (h : FrameHead) : Core.frame { k with lines := l, fills := f } h = k.frame h := rfl

theorem enter_ok (w : World) (m : Mem) (c cause info pc : Nat) (q : Core) (h0 : q.st = 1) (hs : q.stepping = false) (h1 : q.staged = []) (h2 : q.sb = [])
    (h3 : q.side = []) (ht : q.tsblim < q.tsbp) : (w.setCore c q).enter m c cause info pc none =
      (w.memWrites m (w.tcmBase c + 64 * (q.tsbp - 1)) (q.frame { cause := cause, flags := 0, src := 0xFFFF, info := info, pc := pc }),
       w.setCore c { q with tsbp := q.tsbp - 1, mode := (q.mode &&& 8) ||| 3, xcause := cause, xinfo := info, pc := q.xvec, offer := none }) := by
  unfold World.enter
  rw [quiesce_idle _ _ _ _ _ h1 h2 h3]
  dsimp only
  rw [pushFrame_ok _ _ _ _ _ ht]
  dsimp only
  rw [core_setCore, setCore_setCore]
  refine Prod.ext rfl ?_
  dsimp only
  congr 1
  rw [hs]
  cases q
  cases h0
  cases hs
  rfl

theorem enter_over (w : World) (m : Mem) (c cause info pc : Nat) (q : Core) (h1 : q.staged = []) (h2 : q.sb = [])
    (h3 : q.side = []) (ht : q.tsbp ≤ q.tsblim) : (w.setCore c q).enter m c cause info pc none = (w.setCore c q).lockup m c := by
  unfold World.enter
  rw [quiesce_idle _ _ _ _ _ h1 h2 h3]
  dsimp only
  unfold World.pushFrame
  dsimp only
  rw [core_setCore, if_pos ht]

theorem act_jump (w : World) (m : Mem) (c i pc : Nat) (x : Ins) {t t' : Nat} (hj : x.jump = some t) (hg : (w.core c).guard i = true) (ho : t % 2 = 1) (ht : t = t') :
    w.act m c i pc x = w.enter m c 0x10 t' pc none := by
  subst ht
  unfold World.act
  dsimp only
  rw [hj, hg, if_pos (by rw [Option.any_some, ho]; rfl)]
  rfl

theorem fetchFault_first {w : World} {c pc pc2 e : Nat} {long : Bool} (h : w.fetchBad c pc = some e) : w.fetchFault c pc pc2 long = some (e, pc) := by
  unfold World.fetchFault
  rw [h]
  rfl

theorem fetchDo_bad (e a : Nat) (miss : Option World) (m : Mem) (fault : Nat → Nat → Mem × World) (go : Mem × World) :
    fetchDo (some (e, a)) miss m fault go = fault e a := rfl

theorem runIns_bad {w : World} {c i e : Nat} (h2 : (w.core c).st = 1) (h3 : (w.core c).staged = []) (h4 : w.fetchBad c (w.core c).pc = some e) {m : Mem}
    {mk : World → Ins} : w.runIns m c i mk = (w.setCore c (w.core c)).enter m c e (w.core c).pc (w.core c).pc none := by
  have hlw : w.leaveWait c = w := by unfold World.leaveWait; dsimp only; rw [if_neg (by rw [h2]; decide)]
  unfold World.runIns
  rw [hlw]
  dsimp only
  rw [tick_idle h3, fetchFault_first ((fetchBad_setCore _ _ _).trans h4)]
  exact fetchDo_bad _ _ _ _ _ _

theorem lockup_eq (w : World) (m : Mem) (c x : Nat) {r : Mem × World} (hr : w.coreReset m c = r) (hx : (w.core c).xcause = x) : w.lockup m c =
    (r.1, (r.2.irq (0x0A8 + r.2.phys c)).cairn 0x31 (leBytes 4 (r.2.phys c) ++ leBytes 4 x)) := by
  unfold World.lockup
  rw [hr, hx]

theorem isTcm_own {w : World} {c n : Nat} (hc : c < w.nCores) (hn : n < 0x20000) : isTcm (w.tcmBase c + n) = true ∧ w.memAddr (w.tcmBase c + n) = w.tcmBase c + n := by
  unfold World.nCores at hc
  unfold World.tcmBase World.phys
  have h1 : isTcm (1048576 + (if w.split = true then c else 2 * c) * 131072 + n) = true := by
    unfold isTcm within
    split at hc
    · rename_i h; rw [if_pos h]; simp only [Bool.and_eq_true, decide_eq_true_eq]; omega
    · rename_i h; rw [if_neg h]; simp only [Bool.and_eq_true, decide_eq_true_eq]; omega
  refine ⟨h1, ?_⟩
  unfold World.memAddr
  rw [if_pos h1, if_neg]
  cases h : w.split
  · rw [if_neg Bool.false_ne_true]
    simp only [Bool.not_false, Bool.true_and, beq_iff_eq]
    omega
  · simp

theorem memWrite_own {w : World} {m : Mem} {c n v : Nat} (hc : c < w.nCores) (hn : n < 0x20000) :
    w.memWrite m (w.tcmBase c + n) v = m.setWord (w.tcmBase c + n) v := by
  obtain ⟨h1, h2⟩ := isTcm_own hc hn
  unfold World.memWrite
  rw [h2, if_neg]
  have h3 : isTrace (w.tcmBase c + n) = false := by
    unfold isTcm within at h1
    unfold isTrace within
    simp only [Bool.and_eq_true, decide_eq_true_eq] at h1
    simp only [Bool.and_eq_false_iff, decide_eq_false_iff_not]
    omega
  unfold World.deadBank memIsl
  rw [h1, h3]
  simp

theorem word_memWrites {w : World} {c : Nat} (hc : c < w.nCores) (l : List Nat) : ∀ (m : Mem) (n : Nat), n + l.length ≤ 0x20000 → 
    (∀ x, (∀ j < l.length, x ≠ w.tcmBase c + n + j) → (w.memWrites m (w.tcmBase c + n) l).word x = m.word x)
    ∧ ∀ j v, l[j]? = some v → (w.memWrites m (w.tcmBase c + n) l).word (w.tcmBase c + n + j) = v % 65536 := by
  induction l with
  | nil => exact fun m n _ => ⟨fun _ _ => rfl, fun j v h => by simp at h⟩
  | cons v l ih =>
    intro m n hn
    rw [List.length_cons] at hn
    obtain ⟨h1, h2⟩ := ih (m.setWord (w.tcmBase c + n) v) (n + 1) (by omega)
    have he : w.memWrites m (w.tcmBase c + n) (v :: l) = w.memWrites (m.setWord (w.tcmBase c + n) v) (w.tcmBase c + (n + 1)) l := by
      show w.memWrites (w.memWrite m _ v) _ l = _
      rw [memWrite_own hc (by omega)]
      rfl
    rw [he]
    refine ⟨fun x hx => ?_, fun j u hu => ?_⟩
    · rw [h1 x (fun j hj => by have := hx (j + 1) (by simp; omega); omega), Mem.word_setWord_ne _ _ (by have := hx 0 (by simp); omega)]
    · cases j with
      | zero =>
        rw [h1 _ (fun j hj => by omega)]
        simp at hu
        rw [Nat.add_zero, Mem.word_setWord_same, hu]
      | succ j => rw [← h2 j u hu]; congr 1; omega

theorem setWs_spec (f : Nat → Nat) (n : Nat) (k : Core) :
    (∃ r, ((List.range n).foldl (fun (k : Core) n => k.setW n (f n)) k) = { k with wr := r })
    ∧ ∀ j < n, ((List.range n).foldl (fun (k : Core) n => k.setW n (f n)) k).w j = f j % 65536 := by
  induction n with
  | zero => exact ⟨⟨_, rfl⟩, fun j h => absurd h (by omega)⟩
  | succ n ih =>
    obtain ⟨⟨r, hr⟩, h2⟩ := ih
    rw [List.range_succ, List.foldl_append]
    refine ⟨?_, fun j hj => ?_⟩
    · rw [hr]; exact ⟨_, rfl⟩
    · show Core.w (Core.setW _ n (f n)) j = _
      by_cases hjn : j = n
      · subst hjn; exact mget_mset_same _ _ _ _
      · exact (mget_mset_ne _ _ _ _ hjn).trans (h2 j (by omega))

theorem setAs_spec (f : Nat → Nat) (n : Nat) (k : Core) :
    (∃ r, ((List.range n).foldl (fun (k : Core) n => k.setA n (f n)) k) = { k with ar := r })
    ∧ ∀ j < n, ((List.range n).foldl (fun (k : Core) n => k.setA n (f n)) k).a j = f j % 2 ^ 32 := by
  induction n with
  | zero => exact ⟨⟨_, rfl⟩, fun j h => absurd h (by omega)⟩
  | succ n ih =>
    obtain ⟨⟨r, hr⟩, h2⟩ := ih
    rw [List.range_succ, List.foldl_append]
    refine ⟨?_, fun j hj => ?_⟩
    · rw [hr]; exact ⟨_, rfl⟩
    · show Core.a (Core.setA _ n (f n)) j = _
      by_cases hjn : j = n
      · subst hjn; exact mget_mset_same _ _ _ _
      · exact (mget_mset_ne _ _ _ _ hjn).trans (h2 j (by omega))

theorem restore_spec (k : Core) (rd : Nat → Nat) : ∃ y, k.restore rd false = y ∧ (∀ n < 16, y.w n = rd (10 + n) % 65536)
    ∧ (∀ n < 8, y.a n = (rd (26 + 2 * n) + 65536 * rd (27 + 2 * n)) % 2 ^ 32) ∧ y.mode = rd 6 % 16 ∧ y.pr = (rd 7 &&& 0xFE) ||| 1
    ∧ y.ma = sx 72 (rd 42 + 2 ^ 16 * rd 43 + 2 ^ 32 * rd 44 + 2 ^ 48 * rd 45 + 2 ^ 64 * (rd 46 % 256)) ∧ y.tsbp = k.tsbp + 1 := by
  refine ⟨_, rfl, ?_⟩
  unfold Core.restore
  simp only [Bool.false_and, Bool.false_eq_true, if_false]
  obtain ⟨⟨r1, e1⟩, g1⟩ := setWs_spec (fun n => rd (10 + n)) 16 k
  obtain ⟨⟨r2, e2⟩, g2⟩ := setAs_spec (fun n => rd (26 + 2 * n) + 65536 * rd (27 + 2 * n)) 8 ((List.range 16).foldl (fun (k : Core) n => k.setW n (rd (10 + n))) k)
  rw [e1] at g1 g2 e2 ⊢
  rw [e2] at g2 ⊢
  exact ⟨g1, g2, trivial, trivial, trivial, rfl⟩

theorem frame_len (k : Core) (h : FrameHead) : (k.frame h).length = 48 := rfl

/-- Two words from each element of a list stand at an even place and the odd one after it. -/
theorem flatMap_two {α : Type} (p q : Nat → α) : ∀ (l : List Nat) (i : Nat),
    (l.flatMap fun n => [p n, q n])[2 * i]? = l[i]?.map p ∧ (l.flatMap fun n => [p n, q n])[2 * i + 1]? = l[i]?.map q
  | [], _ => ⟨rfl, rfl⟩
  | _ :: _, 0 => ⟨rfl, rfl⟩
  | _ :: l, i + 1 => by
    have := flatMap_two p q l i
    simpa [Nat.mul_add] using this

/-- Places 10 to 25 of a frame hold W0 to W15. -/
theorem frame_w (k : Core) (h : FrameHead) {n : Nat} (hn : n < 16) : (k.frame h)[10 + n]? = some (k.w n) := by
  unfold Core.frame
  rw [List.append_assoc, List.append_assoc, List.getElem?_append_right (Nat.le_add_right 10 n)]
  simp [List.getElem?_append_left, hn]

/-- Places 26 to 41 hold the halves of A0 to A7. -/
theorem frame_a (k : Core) (h : FrameHead) {n : Nat} (hn : n < 8) :
    (k.frame h)[26 + 2 * n]? = some (k.a n % 65536) ∧ (k.frame h)[27 + 2 * n]? = some (k.a n / 65536 % 65536) := by
  have g := flatMap_two (fun n => k.a n % 65536) (fun n => k.a n / 65536 % 65536) (List.range 8) n
  rw [List.getElem?_range hn] at g
  have hl : ((List.range 8).flatMap fun n => [k.a n % 65536, k.a n / 65536 % 65536]).length = 16 := rfl
  have at_ : ∀ j < 16, (k.frame h)[26 + j]? = ((List.range 8).flatMap fun n => [k.a n % 65536, k.a n / 65536 % 65536])[j]? := by
    intro j hj
    unfold Core.frame
    rw [List.append_assoc, List.getElem?_append_right (Nat.le_add_right 26 j)]
    refine (congrArg _ (show 26 + j - 26 = j from Nat.add_sub_cancel_left ..)).trans ?_
    exact List.getElem?_append_left (hl ▸ hj)
  exact ⟨(at_ _ (by omega)).trans g.1, (show 27 + 2 * n = 26 + (2 * n + 1) by omega) ▸ (at_ _ (by omega)).trans g.2⟩

theorem frame_get (k : Core) (h : FrameHead) : ∀ f, f = k.frame h → 
    f[1]? = some h.flags ∧ f[3]? = some (k.mode % 4) ∧ f[4]? = some (h.pc % 65536) ∧ f[5]? = some (h.pc / 65536 % 65536) ∧ f[6]? = some k.mode ∧ f[7]? = some (k.pr &&& 0xFE)
    ∧ (∀ n < 16, f[10 + n]? = some (k.w n)) ∧ (∀ n < 8, f[26 + 2 * n]? = some (k.a n % 65536) ∧ f[27 + 2 * n]? = some (k.a n / 65536 % 65536))
    ∧ ∀ x, x = unI 72 k.ma → f[42]? = some (x % 65536) ∧ f[43]? = some (x / 2 ^ 16 % 65536) ∧ f[44]? = some (x / 2 ^ 32 % 65536) ∧ f[45]? = some (x / 2 ^ 48 % 65536)
      ∧ f[46]? = some (x / 2 ^ 64) := by
  rintro _ rfl
  refine ⟨rfl, rfl, rfl, rfl, rfl, rfl, fun n hn => frame_w k h hn, fun n hn => frame_a k h hn, ?_⟩
  rintro _ rfl
  exact ⟨rfl, rfl, rfl, rfl, rfl⟩

theorem div_eq_iff (a b n : Nat) : a / 2 ^ n = b / 2 ^ n ↔ b / 2 ^ n * 2 ^ n ≤ a ∧ a < b / 2 ^ n * 2 ^ n + 2 ^ n := by
  have h := Nat.two_pow_pos n
  constructor
  · intro he
    rw [← he]
    exact ⟨Nat.div_mul_le_self a _, Nat.lt_div_mul_add h⟩
  · intro ⟨h1, h2⟩
    refine Nat.le_antisymm ?_ ((Nat.le_div_iff_mul_le h).2 h1)
    exact Nat.lt_succ_iff.1 ((Nat.div_lt_iff_lt_mul h).2 (by rw [Nat.succ_mul]; exact h2))

theorem find_high (p : Nat → Bool) (r : Nat) (h : p r = true) (n : Nat) : r < n → (∀ q < n, r < q → p q = false) → (List.range n).reverse.find? p = some r := by
  induction n with
  | zero => exact fun h => absurd h (by omega)
  | succ n ih =>
    intro hr hq
    rw [List.range_succ, List.reverse_append]
    show List.find? p (n :: _) = _
    rw [List.find?_cons]
    by_cases hn : r = n
    · subst hn; rw [h]
    · rw [hq n (by omega) (by omega)]
      exact ih (by omega) fun q h1 h2 => hq q (by omega) h2

theorem div_issue {s : State} {c : Nat} {i : BitVec 32} (h : s.w.issues c i.toNat false) (ho : insOp i.toNat = 0x39) (hd : insD i.toNat % 2 = 0)
    (ha : insA i.toNat % 2 = 0) (hb : insB i.toNat % 2 = 0) (k : Core) (hk : k = s.w.core c) {a b : Nat} (ea : a = k.pair (insA i.toNat)) (eb : b = k.pair (insB i.toNat)) :
    exec (.coreDiv c i) s = .next (s.ran c 2 fun k => { k with side := k.side ++
        [{ dst := some (insD i.toNat), val := if i.toNat.testBit 1 then (divOf (i.toNat.testBit 0) a b).2 else (divOf (i.toNat.testBit 0) a b).1,
           isDiv := true, pc := k.pc, dz := b == 0, recov := k.mode.testBit 3 }] }) := by
  subst hk ea eb
  obtain ⟨l, f, hr⟩ := ready_fetchOnly s.w c
  have h1 : (s.w.ready c).st = 1 := by rw [hr]; exact h.1.2.1
  have h2 : (s.w.ready c).stepping = false := by rw [hr]; exact h.1.2.2.2.1
  have hs : (s.w.core c).side = [] := h.1.2.2.2.2.1
  have hdb : ((s.w.setCore c (s.w.core c)).core c).divBusy = false := by
    rw [core_setCore]
    unfold Core.divBusy
    rw [hs]; rfl
  have hev : ∀ {d : Nat}, d % 2 = 0 → oddPair d = false := by
    intro d hd
    unfold oddPair
    rw [hd]; rfl
  have key : exec (.coreDiv c i) s = .next (s.ran c 2 fun k => { k with side := k.side ++
        [{ dst := some (insD i.toNat), val := if i.toNat.testBit 1 then (divOf (i.toNat.testBit 0) (k.pair (insA i.toNat)) (k.pair (insB i.toNat))).2
            else (divOf (i.toNat.testBit 0) (k.pair (insA i.toNat)) (k.pair (insB i.toNat))).1,
           isDiv := true, pc := k.pc, dz := k.pair (insB i.toNat) == 0, recov := k.mode.testBit 3 }] }) :=
    coreRow_next h ho _ _ rfl (show pairsBad i.toNat = false by unfold pairsBad; rw [hev hd, hev ha, hev hb]; rfl) hdb rfl rfl (fun _ _ => rfl) h1 h2
  rw [key]
  unfold State.ran
  rw [hr]
  rfl

end Sys2Proof.Machine
end

