-- ==== Sys2Proof/Laws/Form.lean ====
section
/-! SUPPORT. Every operation on the addressed memories keeps their canonical form: one lemma per operation. -/

namespace Sys2Proof.Machine

theorem wf_ite {c : Prop} [Decidable c] {m : Mem} {a b : World} (h : m.wf = true) : (if c then (m, a) else (m, b)).1.wf = true := by
  split <;> exact h

/-! ### Cores -/

theorem wf_drainStores (c n : Nat) : ∀ {w : World} {m : Mem}, m.wf = true → (w.drainStores m c n).1.wf = true := by
  induction n with
  | zero => exact fun h => h
  | succ n ih =>
    intro w m h
    unfold World.drainStores
    dsimp only
    split
    · exact h
    · refine ih ?_
      split
      · exact h
      · exact wf_memWrites w _ _ h

theorem wf_drainAll (w : World) {m : Mem} (c : Nat) (h : m.wf = true) : (w.drainAll m c).1.wf = true := wf_drainStores c _ h

theorem wf_coreLoad (w : World) {m : Mem} (c a n : Nat) (h : m.wf = true) : (w.coreLoad m c a n).1.wf = true := by
  unfold World.coreLoad
  split
  · exact wf_drainAll w c h
  · dsimp only
    split
    · exact h
    · split
      · exact h
      · exact wf_drainStores c _ h

theorem wf_coreReset (w : World) {m : Mem} (c : Nat) (h : m.wf = true) : (w.coreReset m c).1.wf = true := wf_wipeMem _ h

theorem wf_lockup (w : World) {m : Mem} (c : Nat) (h : m.wf = true) : (w.lockup m c).1.wf = true := wf_coreReset w c h

theorem wf_pushFrame (w : World) {m m' : Mem} {w' : World} (c : Nat) (x : FrameHead) (h : m.wf = true) (hp : w.pushFrame m c x = some (m', w')) :
    m'.wf = true := by
  unfold World.pushFrame at hp
  dsimp only at hp
  split at hp
  · cases hp
  · cases hp
    exact wf_memWrites w _ _ h

theorem wf_quiesce (w : World) {m : Mem} (c pc : Nat) (h : m.wf = true) : (w.quiesce m c pc).1.wf = true := by
  unfold World.quiesce
  dsimp only
  split
  · exact wf_drainAll _ c h
  · exact wf_drainAll _ c h

theorem wf_enter (w : World) {m : Mem} (c cause info pc : Nat) (src : Option Nat) (h : m.wf = true) : (w.enter m c cause info pc src).1.wf = true := by
  unfold World.enter
  have hs := wf_quiesce w c pc h
  generalize w.quiesce m c pc = p at hs
  obtain ⟨m, w, pc⟩ := p
  dsimp only
  split
  · exact wf_lockup w c hs
  · rename_i hp
    exact wf_pushFrame w c _ hs hp

theorem wf_accept (w : World) {m : Mem} (c : Nat) (h : m.wf = true) : (w.accept m c).1.wf = true := by
  unfold World.accept
  split
  · exact h
  · split
    · exact wf_enter _ _ _ _ _ _ h
    · exact h

theorem wf_busError (w : World) {m : Mem} (c cause addr : Nat) (h : m.wf = true) : (w.busError m c cause addr).1.wf = true := by
  unfold World.busError
  split
  · exact wf_enter _ _ _ _ _ _ h
  · exact h

/-! ### Islands, resets, power -/

theorem wf_loseUnit (w : World) {m : Mem} (n : Nat) (h : m.wf = true) : (w.loseUnit m n).1.wf = true := by
  unfold World.loseUnit
  split <;> first | exact h | exact wf_wipeMem _ h

theorem wf_loseIsland (w : World) {m : Mem} (n : Nat) (h : m.wf = true) : (w.loseIsland m n).1.wf = true := wf_loseUnit w n h

theorem wf_islandReset (w : World) {m : Mem} (n : Nat) (h : m.wf = true) : (w.islandReset m n).1.wf = true := by
  have hp := wf_loseIsland w n h
  unfold World.islandReset
  generalize w.loseIsland m n = p at hp
  exact hp

theorem wf_islandRequest (w : World) {m : Mem} (n : Nat) (b : Bool) (h : m.wf = true) : (w.islandRequest m n b).1.wf = true := by
  unfold World.islandRequest
  split
  · exact h
  · split
    · exact h
    · exact wf_islandReset w n h

theorem wf_loseAll (w : World) {m : Mem} (p : Fld → Nat → Bool) (h : m.wf = true) : (w.loseAll m p).1.wf = true := by
  unfold World.loseAll
  dsimp only
  exact wf_wipeMem _ h

theorem wf_sets (l : List Host.Cell) : ∀ {m : Mem}, m.wf = true → Mem.wf (l.foldl (fun (m : Mem) c => m.set c.1 c.2) m) = true := by
  induction l with
  | nil => exact fun h => h
  | cons e l ih => exact fun h => ih (Mem.wf_set _ _ h)

theorem wf_powerDown (w : World) {m : Mem} (n ret : Nat) (h : m.wf = true) : (w.powerDown m n ret).1.wf = true := by
  have hp : (if n = 2 then (m, w.resetIslRegs 2) else w.loseIsland m n).1.wf = true := by
    split
    · exact h
    · exact wf_loseIsland w n h
  unfold World.powerDown
  dsimp only
  generalize (if n = 2 then (m, w.resetIslRegs 2) else w.loseIsland m n) = p at hp ⊢
  obtain ⟨x, v⟩ := p
  dsimp only at hp ⊢
  generalize List.flatMap _ _ = l
  exact wf_sets l hp

theorem wf_islStop (w : World) {m : Mem} (n : Nat) (h : m.wf = true) : (w.islStop m n).1.wf = true := by
  unfold World.islStop
  extract_lets need bad
  split
  · exact h
  · split
    · exact h
    · have hp := wf_powerDown w n 0 h
      generalize w.powerDown m n 0 = p at hp
      exact hp

theorem wf_sentDown (w : World) {m : Mem} (n : Nat) (h : m.wf = true) : (w.sentDown m n).1.wf = true := by
  unfold World.sentDown
  generalize (if w.pwr.sent = 1 ∧ w.coresIdle then w.sentStop else w) = v
  dsimp only
  split
  · exact h
  · have hp := wf_powerDown v n v.pwr.ret h
    generalize v.powerDown m n v.pwr.ret = p at hp ⊢
    split
    · exact hp
    · split
      · exact hp
      · exact hp

theorem wf_loseSupplies (w : World) {m : Mem} (h : m.wf = true) : (w.loseSupplies m).1.wf = true := by
  unfold World.loseSupplies
  dsimp only
  exact wf_loseAll w _ h

theorem wf_offEntry (w : World) {m : Mem} (h : m.wf = true) : (w.offEntry m).1.wf = true := by
  unfold World.offEntry
  split
  · exact h
  · exact wf_loseSupplies w h

theorem wf_warmIslands (w : World) {m : Mem} (a b : Nat) (h : m.wf = true) : (w.warmIslands m a b).1.wf = true := by
  unfold World.warmIslands
  dsimp only
  exact wf_loseAll w _ h

theorem wf_checkBanks (w : World) {m : Mem} (n : Nat) (h : m.wf = true) : (w.checkBanks m n).1.wf = true := by
  unfold World.checkBanks
  dsimp only
  split
  · exact h
  · exact wf_wipeMem _ h

theorem wf_islandStart (w : World) {m : Mem} (n lost : Nat) (h : m.wf = true) : (w.islandStart m n lost).1.wf = true := by
  unfold World.islandStart
  dsimp only
  refine wf_wipeMem _ ?_
  split
  · exact wf_checkBanks w lost h
  · exact h

theorem wf_miscompare (w : World) {m : Mem} (j cause pc addr : Nat) (h : m.wf = true) : (w.miscompare m j cause pc addr).1.wf = true := by
  unfold World.miscompare
  dsimp only
  split
  · exact wf_wipeMem _ h
  · exact h

/-! ### Cairn, firmware, trace, DMA -/

theorem wf_putSlot (w : World) {m : Mem} (r : CrnRec) (b : Bool) (h : m.wf = true) : (w.putSlot m r b).1.wf = true := by
  unfold World.putSlot
  dsimp only
  exact Mem.wf_setBytes _ _ h

theorem wf_crnNext (w : World) {m : Mem} (b : Bool) (h : m.wf = true) : (w.crnNext m b).1.wf = true := by
  unfold World.crnNext
  split
  · exact wf_putSlot _ _ b h
  · split
    · exact h
    · exact wf_putSlot _ _ b h

theorem wf_crnFlush (n : Nat) : ∀ {w : World} {m : Mem}, m.wf = true → (w.crnFlush m n).1.wf = true := by
  induction n with
  | zero => exact fun h => h
  | succ n ih => exact fun {w m} h => ih (wf_crnNext w true h)

theorem wf_crnLoss (w : World) {m : Mem} (b : Bool) (h : m.wf = true) : (w.crnLoss m b).1.wf = true := by
  unfold World.crnLoss
  split
  · exact h
  · split
    · dsimp only
      have hp := wf_crnFlush (w.crn.queue.length + b2n (decide (w.crn.drops ≠ 0))) (w := w) h
      generalize w.crnFlush m (w.crn.queue.length + b2n (decide (w.crn.drops ≠ 0))) = p at hp ⊢
      obtain ⟨x, v⟩ := p
      dsimp only
      exact wf_putSlot _ _ true hp
    · exact h

theorem wf_powerLoss (w : World) {m : Mem} (b : Bool) (h : m.wf = true) : (w.powerLoss m b).1.wf = true := by
  have hp := wf_crnLoss w b h
  unfold World.powerLoss
  generalize w.crnLoss m b = p at hp
  obtain ⟨x, v⟩ := p
  dsimp only
  exact wf_loseSupplies _ hp

theorem wf_programSector {m : Mem} (j : FwJob) (l : List Nat) (h : m.wf = true) : (programSector m j l).wf = true :=
  Mem.wf_setBytes _ _ (Mem.wf_erase _ _ h)

theorem wf_stageSector (w : World) {m : Mem} (ans : ReadAns) (h : m.wf = true) : (w.stageSector m ans).1.wf = true := by
  unfold World.stageSector
  dsimp only
  repeat' first
    | with_reducible exact h
    | with_reducible exact wf_programSector _ _ h
    | split

theorem wf_portDone (w : World) {m : Mem} (h : m.wf = true) : (w.portDone m).1.wf = true := by
  unfold World.portDone
  split
  · exact h
  · exact Mem.wf_erase _ _ h
  · exact wf_memWrites w _ _ h

theorem wf_lcWipe (w : World) {m : Mem} (h : m.wf = true) : (w.lcWipe m).1.wf = true := by
  unfold World.lcWipe
  dsimp only
  split
  · exact Mem.wf_erase _ _ h
  · exact Mem.wf_setBytes _ _ (Mem.wf_setBytes _ _ h)

theorem wf_trPut (w : World) {m : Mem} (u : Nat) (f : Nat → List Nat) (h : m.wf = true) : (w.trPut m u f).1.wf = true := by
  unfold World.trPut
  dsimp only
  exact wf_memWrites w _ _ h

theorem wf_trGap (w : World) {m : Mem} (u src : Nat) (h : m.wf = true) : (w.trGap m u src).1.wf = true := by
  unfold World.trGap
  split
  · exact h
  · exact wf_trPut _ _ _ h

theorem wf_trRecord (w : World) {m : Mem} (u : Nat) (r : TrRec) (h : m.wf = true) : (w.trRecord m u r).1.wf = true := by
  unfold World.trRecord
  dsimp only
  split
  · exact h
  · have h1 : (if w.trRoom u = true then w.trGap m u (w.f F.TR_SRC_SRC (8 * u + r.k)) else (m, w)).1.wf = true := by
      split
      · exact wf_trGap w u _ h
      · exact h
    generalize (if w.trRoom u = true then w.trGap m u (w.f F.TR_SRC_SRC (8 * u + r.k)) else (m, w)) = p at h1 ⊢
    obtain ⟨m, w⟩ := p
    dsimp only at h1 ⊢
    split
    · exact h1
    · generalize hf : w.trPut m u _ = q
      have h2 : q.1.wf = true := hf ▸ wf_trPut w u _ h1
      obtain ⟨m, w⟩ := q
      dsimp only at h2 ⊢
      exact wf_ite h2

theorem wf_trRecords (u : Nat) (l : List TrRec) : ∀ {p : Mem × World}, p.1.wf = true →
    (l.foldl (fun (a : Mem × World) r => if a.2.trRuns u && decide (r.k < 8) then a.2.trRecord a.1 u r else a) p).1.wf = true := by
  induction l with
  | nil => exact fun h => h
  | cons r l ih =>
    intro p h
    rw [List.foldl_cons]
    refine ih ?_
    split
    · exact wf_trRecord _ u r h
    · exact h

theorem wf_bar2Bytes (l : List Nat) : ∀ {w : World} {m : Mem} (off : Nat), m.wf = true → (w.bar2Bytes m off l).1.wf = true := by
  induction l with
  | nil => exact fun _ h => h
  | cons b l ih =>
    intro w m off h
    refine ih _ ?_
    unfold World.bar2Byte
    dsimp only
    split
    · exact h
    · split
      · exact h
      · split
        · exact h
        · exact Mem.wf_set _ _ h

theorem wf_dmaWrite (w : World) {m : Mem} (u : Nat) (h : m.wf = true) : (w.dmaWrite m u).1.wf = true := by
  unfold World.dmaWrite
  split
  · exact h
  · dsimp only
    split
    · exact h
    · split
      · exact h
      · split
        · exact h
        · exact wf_memWrites w _ _ h

/-! ### Register writes -/

/-- A register's write keeps the form of the memories. -/
def Wr.keepsForm (f : Wr) : Prop := ∀ (m : Mem) (w : World) (a : Agent) (i v k : Nat), m.wf = true → (f m w a i v k).1.wf = true

theorem Wr.keepsForm_same {f : Wr} (h : ∀ m w a i v k, (f m w a i v k).1 = m) : f.keepsForm := fun m w a i v k hm => by rw [h]; exact hm
theorem Wr.keepsForm_w (f : World → Nat → Nat → World) : (wrW f).keepsForm := Wr.keepsForm_same fun _ _ _ _ _ _ => rfl
theorem Wr.keepsForm_then (g : Reg) (f : World → Nat → Nat → World) : (wrThen g f).keepsForm := Wr.keepsForm_same fun _ _ _ _ _ _ => rfl
theorem Wr.keepsForm_unless (g : Reg) (bad : World → Nat → Nat → Bool) (err : World → Nat → World) : (wrUnless g bad err).keepsForm :=
  Wr.keepsForm_same fun _ _ _ _ _ _ => rfl

theorem keepsForm_wrRstctl : Wr.keepsForm wrRstctl := by
  intro m w a i v k h
  unfold wrRstctl
  dsimp only
  have hl : ∀ (l : List Nat) (p : Mem × World), p.1.wf = true →
      (l.foldl (fun (p : Mem × World) c => if p.2.on (p.2.coreIsl c) then p.2.coreReset p.1 c else p) p).1.wf = true := by
    intro l
    induction l with
    | nil => exact fun _ h => h
    | cons c l ih =>
      intro p h
      rw [List.foldl_cons]
      refine ih _ ?_
      split
      · exact wf_coreReset _ c h
      · exact h
  exact hl _ (m, w) h

theorem keepsForm_wrIslrst : Wr.keepsForm wrIslrst := by
  intro m w a i v k h
  unfold wrIslrst
  have hl : ∀ (l : List Nat) (p : Mem × World), p.1.wf = true →
      (l.foldl (fun (p : Mem × World) n => p.2.islandRequest p.1 n true) p).1.wf = true := by
    intro l
    induction l with
    | nil => exact fun _ h => h
    | cons c l ih => exact fun p h => ih _ (wf_islandRequest _ c true h)
  exact hl _ (m, w) h

theorem keepsForm_wrIslreq : Wr.keepsForm wrIslreq := by
  intro m w a i v k h
  unfold wrIslreq
  have hl : ∀ (l : List Nat) (p : Mem × World), p.1.wf = true →
      (l.foldl (fun (p : Mem × World) n => p.2.islStop p.1 n) p).1.wf = true := by
    intro l
    induction l with
    | nil => exact fun _ h => h
    | cons c l ih => exact fun p h => ih _ (wf_islStop _ c h)
  exact hl _ (m, w) h

theorem keepsForm_wrTrctl : Wr.keepsForm wrTrctl := by
  intro m w a i v k h
  unfold wrTrctl
  dsimp only
  split
  · exact wf_dropBanks _ h
  · exact h

theorem Wr.forall_cons {g : Reg} {f : Wr} {l : List (Reg × Wr)} (hf : f.keepsForm) (hl : ∀ e ∈ l, Wr.keepsForm e.2) : ∀ e ∈ (g, f) :: l, Wr.keepsForm e.2 :=
  List.forall_mem_cons.2 ⟨hf, hl⟩

theorem Wr.forall_nil : ∀ e ∈ ([] : List (Reg × Wr)), Wr.keepsForm e.2 := fun _ h => absurd h List.not_mem_nil

theorem keepsForm_writersGlobal : ∀ e ∈ writersGlobal, Wr.keepsForm e.2 := by
  unfold writersGlobal
  repeat' first
    | with_reducible exact Wr.forall_nil
    | refine Wr.forall_cons ?_ ?_
    | with_reducible exact keepsForm_wrRstctl
    | with_reducible exact keepsForm_wrIslrst
    | with_reducible exact Wr.keepsForm_w _
    | with_reducible exact Wr.keepsForm_then _ _
    | with_reducible exact Wr.keepsForm_unless _ _ _
    | with_reducible exact Wr.keepsForm_same fun _ _ _ _ _ _ => rfl

theorem keepsForm_writersRoute : ∀ e ∈ writersRoute, Wr.keepsForm e.2 := by
  have hresp : ∀ g, Wr.keepsForm (wrResp g) := fun g => Wr.keepsForm_same fun _ _ _ _ _ _ => by unfold wrResp; split <;> rfl
  have hrail : Wr.keepsForm wrRailcfg := Wr.keepsForm_same fun _ _ _ _ _ _ => by unfold wrRailcfg; split <;> rfl
  unfold writersRoute
  repeat' first
    | with_reducible exact Wr.forall_nil
    | refine Wr.forall_cons ?_ ?_
    | with_reducible exact hresp _
    | with_reducible exact hrail
    | with_reducible exact Wr.keepsForm_w _
    | with_reducible exact Wr.keepsForm_then _ _
    | with_reducible exact Wr.keepsForm_unless _ _ _
    | with_reducible exact Wr.keepsForm_same fun _ _ _ _ _ _ => rfl

theorem keepsForm_writersCore : ∀ e ∈ writersCore, Wr.keepsForm e.2 := by
  have hdbg : Wr.keepsForm wrDbgctl := Wr.keepsForm_same fun _ _ _ _ _ _ => by unfold wrDbgctl; split <;> rfl
  unfold writersCore
  repeat' first
    | with_reducible exact Wr.forall_nil
    | refine Wr.forall_cons ?_ ?_
    | with_reducible exact hdbg
    | with_reducible exact Wr.keepsForm_w _
    | with_reducible exact Wr.keepsForm_same fun _ _ _ _ _ _ => rfl

theorem keepsForm_writersMem : ∀ e ∈ writersMem, Wr.keepsForm e.2 := by
  have hwbuf : Wr.keepsForm wrWbuf := Wr.keepsForm_same fun _ _ _ _ _ _ => by unfold wrWbuf; split <;> rfl
  unfold writersMem
  repeat' first
    | with_reducible exact Wr.forall_nil
    | refine Wr.forall_cons ?_ ?_
    | with_reducible exact keepsForm_wrTrctl
    | with_reducible exact hwbuf
    | with_reducible exact Wr.keepsForm_w _
    | with_reducible exact Wr.keepsForm_same fun _ _ _ _ _ _ => rfl

theorem keepsForm_writersTime : ∀ e ∈ writersTime, Wr.keepsForm e.2 := by
  have hpd : Wr.keepsForm wrPdcfg := Wr.keepsForm_same fun _ _ _ _ _ _ => by unfold wrPdcfg; split <;> rfl
  have hmot : Wr.keepsForm wrMotor := Wr.keepsForm_same fun _ _ _ _ _ _ => by unfold wrMotor; split <;> rfl
  unfold writersTime
  repeat' first
    | with_reducible exact Wr.forall_nil
    | refine Wr.forall_cons ?_ ?_
    | with_reducible exact hpd
    | with_reducible exact hmot
    | with_reducible exact Wr.keepsForm_w _
    | with_reducible exact Wr.keepsForm_then _ _
    | with_reducible exact Wr.keepsForm_unless _ _ _
    | with_reducible exact Wr.keepsForm_same fun _ _ _ _ _ _ => rfl

theorem keepsForm_writersRest : ∀ e ∈ writersRest, Wr.keepsForm e.2 := by
  unfold writersRest
  repeat' first
    | with_reducible exact Wr.forall_nil
    | refine Wr.forall_cons ?_ ?_
    | with_reducible exact keepsForm_wrIslreq
    | with_reducible exact Wr.keepsForm_w _
    | with_reducible exact Wr.keepsForm_then _ _
    | with_reducible exact Wr.keepsForm_same fun _ _ _ _ _ _ => rfl

theorem keepsForm_writers : ∀ e ∈ writers, Wr.keepsForm e.2 := by
  intro e he
  unfold writers at he
  simp only [List.mem_append] at he
  rcases he with ((((h | h) | h) | h) | h) | h
  · exact keepsForm_writersGlobal e h
  · exact keepsForm_writersRoute e h
  · exact keepsForm_writersCore e h
  · exact keepsForm_writersMem e h
  · exact keepsForm_writersTime e h
  · exact keepsForm_writersRest e h

theorem wf_writeReg (w : World) {m : Mem} (a : Agent) (g : Reg) (i v k : Nat) (h : m.wf = true) : (w.writeReg m a g i v k).1.wf = true := by
  unfold World.writeReg
  split
  · exact h
  · dsimp only
    split
    · rename_i e he
      exact keepsForm_writers e (List.mem_of_find?_eq_some he) m _ a i _ k h
    · exact h

theorem wf_writeAt (w : World) {m : Mem} (a : Agent) (off v k : Nat) (h : m.wf = true) : (w.writeAt m a off v k).1.wf = true := by
  unfold World.writeAt
  split
  · exact wf_writeReg w a _ _ v k h
  · exact h

theorem wf_hostWrite (w : World) {m : Mem} (off v k : Nat) (h : m.wf = true) : (w.hostWrite m off v k).1.wf = true := by
  unfold World.hostWrite
  split
  · exact h
  · split
    · exact h
    · split
      · exact h
      · split
        · exact h
        · exact wf_writeAt w .host off v _ h

/-! ### Instructions -/

/-- The memories that an instruction leaves are canonical. -/
def Exe.formOk : Exe → Prop
  | .next m _ _ => m.wf = true
  | .exc m _ _ _ _ => m.wf = true
  | .hold m _ => m.wf = true

theorem wf_finish {e : Exe} (c old : Nat) (h : e.formOk) : (e.finish c old).1.wf = true := by
  unfold Exe.finish
  unfold Exe.formOk at h
  cases e with
  | next m w pc => exact h
  | exc m w cause info pc =>
    dsimp only at h ⊢
    exact wf_enter w c cause info pc none h
  | hold m w => exact h

theorem wf_coreStore (w : World) {m : Mem} (c a : Nat) (l : List Nat) (h : m.wf = true) : (w.coreStore m c a l).1.wf = true := by
  unfold World.coreStore
  split
  · have hp := wf_drainAll w c h
    generalize w.drainAll m c = p at hp
    obtain ⟨m, w⟩ := p
    dsimp only at hp ⊢
    split
    · exact wf_writeAt w _ _ _ _ hp
    · split
      · exact wf_writeAt w _ _ _ _ hp
      · exact wf_writeAt w _ _ _ _ hp
  · dsimp only
    split
    · exact wf_drainStores c 1 h
    · exact h

theorem formOk_memGo (w : World) {m : Mem} (c i : Nat) (x : MemKind) (b : Bool) (h : m.wf = true) : (w.memGo m c i x b).formOk := by
  unfold World.memGo
  dsimp only
  split
  · exact h
  · split
    · exact h
    · split
      · exact h
      · exact h
      · split
        · exact wf_coreStore w c _ _ h
        · exact wf_coreLoad w c _ _ h

theorem formOk_retx (w : World) {m : Mem} (c : Nat) (h : m.wf = true) : (w.retx m c).formOk := by
  unfold World.retx
  dsimp only
  split
  · exact h
  · have hp := wf_drainAll w c h
    generalize w.drainAll m c = p at hp
    obtain ⟨m, w⟩ := p
    dsimp only at hp ⊢
    split
    · exact hp
    · split
      · exact hp
      · exact hp

theorem formOk_gateCall (w : World) {m : Mem} (c num : Nat) (h : m.wf = true) : (w.gateCall m c num).formOk := by
  unfold World.gateCall
  dsimp only
  have hp := wf_drainAll w c h
  generalize w.drainAll m c = p at hp
  obtain ⟨m, w⟩ := p
  dsimp only at hp ⊢
  split
  · exact hp
  · split
    · exact hp
    · generalize w.landAll c = q
      obtain ⟨w, x⟩ := q
      dsimp only
      split
      · exact wf_lockup w c hp
      · rename_i hq
        exact wf_pushFrame w c _ hp hq

/-- The memories that an element leaves are canonical. -/
def Elem.formOk : Elem → Prop
  | .more m _ => m.wf = true
  | .stop m _ => m.wf = true
  | .fail e => e.formOk

theorem formOk_element (w : World) {m : Mem} (c i : Nat) (x : StrKind) (h : m.wf = true) : (w.element m c i x).formOk := by
  unfold World.element
  cases x <;> dsimp only
  · have hp := wf_coreLoad w c ((w.core c).a 6) 1 h
    generalize w.coreLoad m c ((w.core c).a 6) 1 = p at hp
    obtain ⟨m1, w1, l⟩ := p
    exact wf_coreStore w1 c _ l hp
  · exact wf_coreStore w c _ _ h
  · have hp := wf_coreLoad w c ((w.core c).a 6) 1 h
    generalize w.coreLoad m c ((w.core c).a 6) 1 = p at hp
    obtain ⟨m1, w1, l⟩ := p
    dsimp only at hp ⊢
    have hq := wf_coreLoad w1 c ((w.core c).a 7) 1 hp
    generalize w1.coreLoad m1 c ((w.core c).a 7) 1 = q at hq
    obtain ⟨m2, w2, r⟩ := q
    dsimp only at hq ⊢
    split
    · exact hq
    · exact hq
  · have hp := wf_coreLoad w c ((w.core c).a 6) 1 h
    generalize w.coreLoad m c ((w.core c).a 6) 1 = p at hp
    obtain ⟨m1, w1, l⟩ := p
    dsimp only at hp ⊢
    split
    · exact hp
    · exact hp

theorem formOk_tryElement (w : World) {m : Mem} (c i : Nat) (x : StrKind) (b : Bool) (h : m.wf = true) : (w.tryElement m c i x b).formOk := by
  unfold World.tryElement
  dsimp only
  split
  · exact h
  · exact h
  · exact formOk_element w c i x h

theorem formOk_elements (c i : Nat) (x : StrKind) (b : Bool) (n : Nat) : ∀ {w : World} {m : Mem}, m.wf = true → (w.elements m c i x b n).formOk := by
  induction n with
  | zero =>
    intro w m h
    unfold World.elements
    split <;> exact h
  | succ n ih =>
    intro w m h
    unfold World.elements
    split
    · exact h
    · have hp := formOk_tryElement w c i x b h
      generalize w.tryElement m c i x b = p at hp
      cases p with
      | more m w => exact ih hp
      | stop m w => exact hp
      | fail e => exact hp

theorem formOk_strGo (w : World) {m : Mem} (c i : Nat) (x : StrKind) (l : Option Nat) (b : Bool) (h : m.wf = true) : (w.strGo m c i x l b).formOk :=
  formOk_elements c i x b _ h

theorem wf_again (w : World) {m : Mem} (c i : Nat) (b : Bool) (h : m.wf = true) : (w.again m c i b).1.wf = true := by
  have h1 : ∀ x, ((fun x => w.memGo m c i x b) x).formOk := fun x => formOk_memGo w c i x b h
  have h2 : ∀ x, ((fun x => w.strGo m c i x none b) x).formOk := fun x => formOk_strGo w c i x none b h
  unfold World.again
  generalize (fun x => w.memGo m c i x b) = go at h1 ⊢
  generalize (fun x => w.strGo m c i x none b) = str at h2 ⊢
  refine wf_finish _ _ ?_
  generalize insOp i = o
  split <;> first | exact h1 _ | exact h2 _ | exact h

theorem wf_endStall (w : World) {m : Mem} (c : Nat) (b : Bool) (h : m.wf = true) : (w.endStall m c b).1.wf = true := by
  unfold World.endStall
  dsimp only
  repeat' first
    | with_reducible exact h
    | with_reducible exact wf_again _ _ _ _ h
    | with_reducible exact wf_busError _ _ _ _ h
    | with_reducible exact wf_writeAt _ _ _ _ _ h
    | split

theorem wf_offRequest (w : World) {m : Mem} (c n addr : Nat) (op : StallOp) (h : m.wf = true) : (w.offRequest m c n addr op).1.wf = true := by
  unfold World.offRequest
  split
  · exact h
  · split
    · exact h
    · exact wf_busError _ _ _ _ h

theorem wf_readRow (w : World) {m : Mem} (a : Agent) (g : Reg) (i : Nat) (h : m.wf = true) : (w.readRow m a g i).1.wf = true := by
  unfold World.readRow
  dsimp only
  split
  · exact h
  · split
    · exact h
    · cases a
      · exact h
      · exact wf_offRequest _ _ _ _ _ h

theorem wf_request (w : World) {m : Mem} (a : Agent) (addr v k : Nat) (h : m.wf = true) : (w.request m a addr v k).1.wf = true := by
  unfold World.request
  repeat' first
    | with_reducible exact wf_hostWrite _ _ _ _ h
    | with_reducible exact wf_busError _ _ _ _ h
    | with_reducible exact wf_offRequest _ _ _ _ _ h
    | with_reducible exact wf_writeAt _ _ _ _ _ h
    | with_reducible exact h
    | split

theorem wf_act (w : World) {m : Mem} (c i pc : Nat) (x : Ins) (h : m.wf = true) (hx : ∀ m w, m.wf = true → (x.go m w).formOk) :
    (w.act m c i pc x).1.wf = true := by
  unfold World.act
  dsimp only
  repeat' first
    | with_reducible exact wf_enter _ _ _ _ _ _ h
    | with_reducible exact wf_finish _ _ (hx m w h)
    | with_reducible exact h
    | split

theorem wf_fetchDo {bad : Option (Nat × Nat)} {miss : Option World} {m : Mem} {fault : Nat → Nat → Mem × World} {go : Mem × World} (h : m.wf = true)
    (hf : ∀ e a, (fault e a).1.wf = true) (hg : go.1.wf = true) : (fetchDo bad miss m fault go).1.wf = true := by
  unfold fetchDo
  split
  · exact hf _ _
  · split
    · exact h
    · exact hg

theorem wf_runIns (w : World) {m : Mem} (c i : Nat) (mk : World → Ins) (h : m.wf = true) (hx : ∀ v m w, m.wf = true → ((mk v).go m w).formOk) :
    (w.runIns m c i mk).1.wf = true := by
  unfold World.runIns
  dsimp only
  refine wf_fetchDo h (fun e a => wf_enter _ _ _ _ _ _ h) ?_
  split
  · exact h
  · exact wf_act _ _ _ _ _ h (hx _)

/-- A row of the instruction set keeps the form of the memories. -/
theorem form_coreRow {s t : State} (c : Nat) (i : BitVec 32) (op : Nat) (mk : World → Ins) (hx : ∀ v m w, Mem.wf m = true → ((mk v).go m w).formOk)
    (h : Mem.wf s.mem = true) (ht : coreRow s c i op mk = .next t) : Mem.wf t.mem = true := by
  unfold coreRow onM at ht
  dsimp only at ht
  cases ht
  dsimp only
  split
  · exact wf_runIns _ _ _ _ h hx
  · exact h

end Sys2Proof.Machine
end

