-- ==== Sys2Proof/Laws/Ports.lean ====
section
/-! SUPPORT. Lemmas about security, firmware and the side interfaces: what each shared operation can do. -/

namespace Sys2Proof.Machine

theorem secFail_keeps (w : World) (res : Nat) (err : Fld) (h : err.id < 4096) :
    Keeps [F.SEC_AUTHCTL_RESULT.id, err.id, F.CRN_STAT_DROPPED.id] w (w.secFail res err) := by
  unfold World.secFail
  refine Keeps.cairn (Keeps.sf (Keeps.sf (Keeps.refl _ _) ⟨by decide, List.mem_cons_self ..⟩) ⟨h, List.mem_cons_of_mem _ (List.mem_cons_self ..)⟩) ?_
  exact List.mem_cons_of_mem _ (List.mem_cons_of_mem _ (List.mem_cons_self ..))

theorem cairn_keeps (w : World) (t : Nat) (p : List Nat) : Keeps [F.CRN_STAT_DROPPED.id] w (w.cairn t p) := Keeps.cairn (Keeps.refl _ _) (by decide)

theorem cairn_sec (w : World) (t : Nat) (p : List Nat) : (w.cairn t p).sec = w.sec := by
  unfold World.cairn
  dsimp only
  split
  · rfl
  · unfold World.irq World.inc
    split <;> rfl

theorem secFail_sec (w : World) (res : Nat) (err : Fld) : (w.secFail res err).sec = w.sec := by
  unfold World.secFail
  rw [cairn_sec]; rfl

theorem secFail_err (w : World) (res : Nat) (err : Fld) (h : err.id ≠ F.CRN_STAT_DROPPED.id ∧ err.id < 4096) :
    (w.secFail res err).f err 0 = 1 % 2 ^ err.wd := by
  unfold World.secFail
  rw [(cairn_keeps _ _ _).f ⟨h.2, by simpa using h.1⟩, f_sf_same]

theorem secFail_res (w : World) (res : Nat) (err : Fld) (h : F.SEC_AUTHCTL_RESULT.id ≠ err.id ∧ err.id < 4096) :
    (w.secFail res err).f F.SEC_AUTHCTL_RESULT 0 = res % 8 := by
  unfold World.secFail
  rw [(cairn_keeps _ _ _).f (by decide), f_sf_ne _ _ _ _ ⟨h.1, by decide, h.2⟩, f_sf_same]; rfl

theorem authorise_stale (w : World) (c : KeyClass) (h : w.sec.fresh = false) :
    w.authorise c = (World.secFail { w with sec := { w.sec with fresh := false } } 3 F.SEC_ERR_NONCE, false) := by
  unfold World.authorise
  dsimp only
  rw [h]
  rfl

theorem authorise_ok (w : World) (c : KeyClass) (h : w.sec.fresh = true) (h1 : w.inClass c (w.f F.SEC_AUTHCTL_KEYSLOT 0) = true)
    (h2 : w.signed = true) : w.authorise c = (World.sf { w with sec := { w.sec with fresh := false } } F.SEC_AUTHCTL_RESULT 0 1, true) := by
  have h5 : World.inClass { w with sec := { w.sec with fresh := false } } c (w.f F.SEC_AUTHCTL_KEYSLOT 0) = true := h1
  have h6 : World.signed { w with sec := { w.sec with fresh := false } } = true := h2
  unfold World.authorise
  dsimp only
  have h7 : World.f { w with sec := { w.sec with fresh := false } } F.SEC_AUTHCTL_KEYSLOT 0 = w.f F.SEC_AUTHCTL_KEYSLOT 0 := rfl
  rw [h, if_neg (by decide), h7, h5, h6, if_neg (by decide)]

theorem get_setBytes_out (l : List Nat) : ∀ (m : Mem) (x y : Nat), (y < x ∨ x + l.length ≤ y) → Mem.get (m.setBytes x l) y = Mem.get m y := by
  induction l with
  | nil => exact fun _ _ _ _ => rfl
  | cons b l ih =>
    intro m x y h
    show Mem.get (Mem.setBytes (m.set x _) (x + 1) l) y = _
    rw [ih _ _ _ (by simp only [List.length_cons] at h; omega), Mem.get_set_ne _ _ (by simp only [List.length_cons] at h; omega)]

theorem get_setBytes_zero (n : Nat) : ∀ (m : Mem) (x y : Nat), x ≤ y → y < x + n → Mem.get (m.setBytes x (List.replicate n 0)) y = 0 := by
  induction n with
  | zero => exact fun _ _ _ h1 h2 => absurd h2 (by omega)
  | succ n ih =>
    intro m x y h1 h2
    show Mem.get (Mem.setBytes (m.set x _) (x + 1) (List.replicate n 0)) y = 0
    by_cases h : y = x
    · subst h
      rw [get_setBytes_out _ _ _ _ (by omega), Mem.get_set_same]
      rfl
    · exact ih _ _ _ (by omega) (by omega)

theorem checkBank_ok (w : World) (m : Mem) (b ecc : Nat) : (w.checkBank m b ecc).2 = (w.bankCheck m b (ecc.testBit b) == 1) := rfl

theorem ropeSend_rest (w : World) (t d : Nat) (p : List Nat) : (w.ropeSend t d p).regs = w.regs ∧ (w.ropeSend t d p).side = w.side := by
  unfold World.ropeSend World.when
  split <;> exact ⟨rfl, rfl⟩

theorem meansFold (l : List Nat) : ∀ w : World, (l.foldl World.meansOf w).islOn = w.islOn ∧ (l.foldl World.meansOf w).lx1264 = w.lx1264 := by
  induction l with
  | nil => exact fun _ => ⟨rfl, rfl⟩
  | cons r l ih =>
    intro w
    rw [List.foldl_cons, (ih _).1, (ih _).2]
    unfold World.meansOf
    dsimp only
    split <;> exact ⟨rfl, rfl⟩

theorem padsOwned_upTo (w : World) (t : Nat) : (w.upTo t).padsOwned = w.padsOwned := by
  unfold World.padsOwned World.fb
  rw [f_upTo _ _ (by decide), f_upTo _ _ (by decide), pins_upTo]

theorem rxFold (l : List Nat) (k : Nat → Nat) : ∀ w : World,
    Keeps [F.SI_I3CRX_DATA.id] w (l.foldl (fun w i => w.sf F.SI_I3CRX_DATA i (k i)) w)
    ∧ (l.foldl (fun w i => w.sf F.SI_I3CRX_DATA i (k i)) w).out = w.out := by
  induction l with
  | nil => exact fun w => ⟨Keeps.refl _ _, rfl⟩
  | cons a l ih => exact fun w => ⟨((Keeps.refl _ _).sf (by decide)).trans (ih _).1, (ih _).2⟩

theorem rxFold_f (l : List Nat) (k : Nat → Nat) (hl : l.Nodup) : ∀ (w : World) (i : Nat), i ∈ l →
    (l.foldl (fun w i => w.sf F.SI_I3CRX_DATA i (k i)) w).f F.SI_I3CRX_DATA i = k i % 2 ^ 32 := by
  have hout : ∀ (l : List Nat) (w : World) (i : Nat), i ∉ l →
      (l.foldl (fun w i => w.sf F.SI_I3CRX_DATA i (k i)) w).f F.SI_I3CRX_DATA i = w.f F.SI_I3CRX_DATA i := by
    intro l
    induction l with
    | nil => exact fun _ _ _ => rfl
    | cons a l ih =>
      intro w i hi
      rw [List.foldl_cons, ih _ _ (fun h => hi (List.mem_cons_of_mem _ h)),
        f_sf_inst _ _ (fun h => hi (by rw [h]; exact List.mem_cons_self))]
  induction l with
  | nil => exact fun _ _ h => absurd h (List.not_mem_nil)
  | cons a l ih =>
    intro w i hi
    rw [List.foldl_cons]
    rcases List.mem_cons.mp hi with rfl | hi
    · rw [hout _ _ _ (List.nodup_cons.mp hl).1, f_sf_same]
      rfl
    · exact ih (List.nodup_cons.mp hl).2 _ _ hi

end Sys2Proof.Machine
end

