-- ==== Sys2Proof/Laws/Rails.lean ====
section
/-! SUPPORT. Lemmas about commands, loop engine, protection and PWM of the rails: what each shared operation can do. -/

namespace Sys2Proof.Machine

theorem clearOk_keeps {v w : World} {r : Nat} (hk : Keeps takenIds w v) (h1 : v.rail r = w.rail r) (h2 : v.clk = w.clk) :
    v.clearOk r = w.clearOk r := by
  unfold World.clearOk World.faulted World.rstate World.railEn World.clearConds World.tb World.fb
  simp only [hk.f (G := F.LE_RSTATE_RSTATE) (by decide), hk.f (G := F.PW_RSTAT_RAILEN) (by decide), hk.f (G := F.PROT_RTIME_TOFF) (by decide),
    hk.f (G := F.PROT_HKLIM_ENTRY) (by decide), hk.f (G := F.HKC_RES_VALUE) (by decide), hk.f (G := F.PROT_RFLT_CAUSE) (by decide),
    hk.f (G := F.PROT_HKVAL_HI) (by decide), hk.f (G := F.PROT_HKVAL_LO) (by decide), hk.f (G := F.RSC_STAT_SLICE_FLT) (by decide),
    hk.f (G := F.PROT_VSTAT_OUT) (by decide), hk.f (G := F.RSC_ERR_REFLOST) (by decide), h1, h2]

theorem bound_eq {v w : World} (h1 : v.live = w.live) (h2 : v.lx1264 = w.lx1264) (r : Nat) : v.bound r = w.bound r := by
  unfold World.bound World.boundTo World.nPhases World.lf
  rw [h1, h2]

theorem padsFree_keeps {l : List Nat} {v w : World} {r : Nat} (hk : Keeps l w v) (hl : F.PM_PADHELD_HELD.id ∉ l) (hb : v.bound r = w.bound r) :
    v.padsFree r = w.padsFree r := by
  unfold World.padsFree
  simp only [hk.f (G := F.PM_PADHELD_HELD) ⟨by decide, hl⟩, hb]

theorem f_foldl_en (l : List Nat) (w : World) {p : Nat} (hp : p ∈ l ∨ w.f F.PCC_CFG_EN p = 1) :
    (l.foldl (fun w p => w.sf F.PCC_CFG_EN p 1) w).f F.PCC_CFG_EN p = 1 := by
  induction l generalizing w with
  | nil => exact hp.elim (fun h => by cases h) id
  | cons q l ih =>
    apply ih
    by_cases hq : p = q
    · right; subst hq; exact f_sf_same _ _ _ _
    · rcases hp with h | h
      · left
        cases h
        · exact absurd rfl hq
        · assumption
      · right
        exact (f_sf_inst _ _ hq).trans h

/-- What a stop does after LE_STAT.RUN fell does not raise it. -/
theorem f_stopRunning_run (w : World) (r : Nat) : (w.stopRunning r).f F.LE_STAT_RUN r = 0 := by
  unfold World.stopRunning
  extract_lets _ w1 w2 w3 w4 w5 w6 w7
  have h2 : w2.f F.LE_STAT_RUN r = 0 := (f_sf_same (w1.phasesOff r) F.LE_STAT_RUN r 0).trans rfl
  have h4 : Keeps ([F.PROT_VSTAT_ARMED.id] ++ fcIds) w2 w4 :=
    ((Keeps.refl _ w2).sf (by decide)).when fun _ h => Keeps.endForecasts h (by decide)
  have h5 : Keeps (rollIds ++ [F.PROT_VSTAT_ARMED.id]) w2 w5 := Keeps.stopRollback (h4.mono (by decide)) (by decide)
  have h7 : Keeps (rollIds ++ setIds ++ [F.PROT_VSTAT_ARMED.id, F.LE_STAT_IACT.id]) w2 w7 :=
    ((h5.mono (by decide)).sf (by decide)).when fun _ h => Keeps.railSetAdopt h (by decide)
  refine (Keeps.f (l := rollIds ++ bindIds ++ setIds ++ [F.PROT_VSTAT_ARMED.id, F.LE_STAT_IACT.id]) ?_ (by decide) r).trans h2
  exact Keeps.regrid (Keeps.bindPoint (Keeps.bindPoint (h7.mono (by decide)) (by decide)) (by decide)) (by decide)

theorem f_disableStep_run (w : World) (r : Nat) : (w.disableStep r).f F.LE_STAT_RUN r = 0 := by
  unfold World.disableStep
  exact (f_setRail _ _ _ _ _).trans (f_stopRunning_run _ _)

theorem nRails_pos (w : World) : 0 < w.nRails := by unfold World.nRails; split <;> omega

theorem lf_adoptAll_ne (m : List Fld) (r : Nat) (G : Fld) (j : Nat) (hG : G.id < 4096) : ∀ (w : World), (∀ K ∈ m, G.id ≠ K.id ∧ K.id < 4096) →
    (w.adoptAll m r).lf G j = w.lf G j := by
  induction m with
  | nil => exact fun _ _ => rfl
  | cons K m ihm =>
    intro w hm
    refine (ihm _ (fun K hK => hm K (List.mem_cons_of_mem _ hK))).trans ?_
    exact lf_slf_ne _ _ _ _ ⟨(hm K (List.mem_cons_self ..)).1, hG, (hm K (List.mem_cons_self ..)).2⟩

theorem adoptSlots_regs (F : Fld) (b : Nat) (l : List Nat) : ∀ w : World, (l.foldl (fun w k => w.adopt F (b + k)) w).regs = w.regs := by
  induction l with
  | nil => exact fun _ => rfl
  | cons k l ih => exact fun w => (ih _).trans rfl

theorem lf_adoptSlots_ne (F G : Fld) (b j : Nat) (hF : F.id < 4096) (hG : G.id < 4096) (h : G.id ≠ F.id) (l : List Nat) :
    ∀ w : World, (l.foldl (fun w k => w.adopt F (b + k)) w).lf G j = w.lf G j := by
  induction l with
  | nil => exact fun _ => rfl
  | cons k l ih => exact fun w => (ih _).trans (lf_slf_ne _ _ _ _ ⟨h, hG, hF⟩)

theorem lf_adoptSlots (F : Fld) (b : Nat) (l : List Nat) : ∀ (w : World) (k : Nat), (k ∈ l ∨ w.lf F (b + k) = w.f F (b + k) % 2 ^ F.wd) →
    (l.foldl (fun w k => w.adopt F (b + k)) w).lf F (b + k) = w.f F (b + k) % 2 ^ F.wd := by
  induction l with
  | nil => exact fun w k h => h.elim (fun h => absurd h (by simp)) id
  | cons q l ih =>
    intro w k h
    refine (ih (w.adopt F (b + q)) k ?_).trans rfl
    by_cases hq : k = q
    · subst hq
      exact Or.inr (lf_slf_same _ _ _ _)
    · refine h.elim (fun h => Or.inl ((List.mem_cons.mp h).resolve_left hq)) fun h => Or.inr ?_
      exact (lf_slf_inst _ _ (by omega)).trans h

theorem satS32 (v : Int) : -2 ^ 31 ≤ satS 32 v ∧ satS 32 v ≤ 2 ^ 31 - 1 := by
  unfold satS clampI
  omega

theorem exec_x (l : Latch) (q : Seq) (m : MW) : (l.exec q m).x = q.x ∨ ∃ v, (l.exec q m).x = q.x.set m.d (satS 32 v) := by
  unfold Latch.exec
  dsimp only
  cases m.op <;> simp only [Seq.put]
  all_goals first
    | exact Or.inl trivial
    | exact Or.inl rfl
    | exact Or.inr ⟨_, rfl⟩
    | (split <;> first | exact Or.inl trivial | exact Or.inl rfl | exact Or.inr ⟨_, rfl⟩)

theorem keeps_applyKill {l : List Nat} {a b : World} (h : Keeps l a b) {r src : Nat} {p : Option Nat} {au : Bool} (hl : killIds ⊆ l) :
    Keeps l a (b.applyKill r src p au) := by
  unfold World.applyKill
  generalize b.killOf r src p = x
  obtain ⟨x, mid⟩ := x
  exact Keeps.foldl _ (Keeps.ite h h.setRail) fun w p h => Keeps.kill h hl

theorem keeps_addLane {l : List Nat} {a b : World} (h : Keeps l a b) {r : Nat} {p : Option Nat} (hl : F.PROT_RPH_LANES.id ∈ l) :
    Keeps l a (b.addLane r p) := by
  unfold World.addLane
  split
  · exact h.orBit ⟨by decide, hl⟩
  · exact h

abbrev tailIds : List Nat := F.CRN_STAT_DROPPED.id :: stopIds ++ doneIds

theorem keeps_addCause {l : List Nat} {a b : World} (h : Keeps l a b) {r m : Nat} (hl : F.PROT_RFLT_CAUSE.id ∈ l) : Keeps l a (b.addCause r m) :=
  (h.sf (F := F.PROT_RFLT_CAUSE) (i := r) (v := b.f F.PROT_RFLT_CAUSE r ||| m) ⟨by decide, hl⟩).with_pmb

theorem keeps_sendFault {l : List Nat} {a b : World} (h : Keeps l a b) {r : Nat} {m : FaultMsg} : Keeps l a (b.sendFault r m) := by
  unfold World.sendFault
  split
  · exact (h.when fun _ h => h.send).setRail
  · exact h.setRail

theorem keeps_faultRecords {l : List Nat} {a b : World} (h : Keeps l a b) {r resp mask first s : Nat} {esc : Bool} {why : Reason}
    (hl : F.CRN_STAT_DROPPED.id :: fcIds ++ doneIds ⊆ l) : Keeps l a (b.faultRecords r resp mask first s esc why) := by
  refine Keeps.trans h (Keeps.mono ?_ hl)
  unfold World.faultRecords
  extract_lets pay _ w1 w2 w3 w4 w5
  have h2 : Keeps (F.CRN_STAT_DROPPED.id :: fcIds ++ doneIds) b w2 := 
    Keeps.cairn (Keeps.record (l := F.CRN_STAT_DROPPED.id :: fcIds ++ doneIds) (Keeps.refl _ b).setRail (by decide)) (by decide)
  exact Keeps.foldl _ (Keeps.completeWaits (Keeps.endForecasts (keeps_sendFault h2) (by decide)) (by decide)) fun _ _ h => Keeps.avsAlert h (by decide)

theorem keeps_faultStop {l : List Nat} {a b : World} (h : Keeps l a b) {r : Nat} (hl : stopIds ⊆ l) : Keeps l a (b.faultStop r) := by
  unfold World.faultStop
  extract_lets w1 w2
  have h1 : Keeps l a w1 := h.when fun _ h => h.setRail.start
  exact Keeps.ite h1.setRail (Keeps.ite (Keeps.stopRunning h1 hl).setRail h1.setRail)

theorem keeps_faultTail {l : List Nat} {a b : World} (h : Keeps l a b) {r resp mask first s : Nat} {esc : Bool} {why : Reason} (hl : tailIds ⊆ l) :
    Keeps l a ((b.faultRecords r resp mask first s esc why).faultStop r) :=
  keeps_faultStop (keeps_faultRecords h (List.Subset.trans (by decide) hl)) (List.Subset.trans (by decide) hl)

/-- The registers of a fault: the state, the first source, the flags, the gate and the counts (R182, R184, R186, R187). -/
theorem faultRegs_f (w : World) (r mask first s : Nat) (lat esc : Bool) {v : World} (hv : v = w.faultRegs r mask first s lat esc) :
    v.rstate r = (if lat then rsLatched else rsHiccup) ∧ v.f F.PROT_RFLT_FIRST r = first % 32 ∧ v.f F.PROT_RFLT_LATCHED r = b2n lat
      ∧ v.f F.PROT_RFLT_HICCUP r = b2n !lat ∧ v.f F.LE_RSTATE_GATE r = 1 ∧ v.f F.PROT_RCNT_FAULTS r = (w.f F.PROT_RCNT_FAULTS r + 1) % 65536
      ∧ v.f F.PROT_RCNT_TRIPS r = w.f F.PROT_RCNT_TRIPS r ∧ v.f F.LE_STAT_FROZEN r = w.f F.LE_STAT_FROZEN r := by
  subst hv
  unfold World.faultRegs
  extract_lets base w1 w2 w3 w4 w5 w6 w7 w8 _ w9
  have k2 : Keeps [F.LE_CALCFG_EVERY.id] w w2 := Keeps.dropCal ((Keeps.refl _ w).when fun _ h => h.start) (by decide)
  have k4 : Keeps [F.PROT_RFLT_FIRST.id, F.PROT_RFLT_CAUSE.id] w3 w4 := ((Keeps.refl _ w3).sf (by decide)).sf (by decide)
  have k5 : Keeps [F.PROT_RFLT_CAUSE.id, F.PROT_RFLT_LATCHED.id] w4 w5 := (keeps_addCause (Keeps.refl _ w4) (by decide)).sf (by decide)
  have k6 : Keeps [F.PROT_RFLT_HICCUP.id, F.PROT_RFLT_ESC.id] w5 w6 := ((Keeps.refl _ w5).sf (by decide)).sf (by decide)
  have k7 : Keeps [F.PROT_RFTS_LO_T_LO.id, F.PROT_RFTS_HI_T_HI.id] w6 w7 := ((Keeps.refl _ w6).sf (by decide)).sf (by decide)
  have k8 : Keeps [F.PROT_RCNT_FAULTS.id] w7 w8 := (Keeps.refl _ w7).inc (by decide)
  have k9 : Keeps [F.LE_RSTATE_GATE.id] w8 (w9.sf F.LE_RSTATE_GATE r 1) := ((Keeps.refl _ w8).setRail).sf (by decide)
  have e : ∀ G : Fld, World.f { w9.sf F.LE_RSTATE_GATE r 1 with cmd := _ } G r = (w9.sf F.LE_RSTATE_GATE r 1).f G r := fun _ => rfl
  have hb : ∀ b : Bool, b2n b % 2 ^ 1 = b2n b := by decide
  have h3 : w3.f F.LE_RSTATE_RSTATE r = if lat then rsLatched else rsHiccup := by
    refine (f_sf_same w2 F.LE_RSTATE_RSTATE r _).trans ?_
    cases lat <;> rfl
  have k37 : Keeps [F.PROT_RFLT_FIRST.id, F.PROT_RFLT_CAUSE.id, F.PROT_RFLT_LATCHED.id, F.PROT_RFLT_HICCUP.id, F.PROT_RFLT_ESC.id,
      F.PROT_RFTS_LO_T_LO.id, F.PROT_RFTS_HI_T_HI.id] w3 w7 :=
    (((k4.mono (by decide)).trans (k5.mono (by decide))).trans (k6.mono (by decide))).trans (k7.mono (by decide))
  have k3 : Keeps [F.LE_RSTATE_RSTATE.id] w2 w3 := (Keeps.refl _ w2).sf (by decide)
  refine ⟨?_, ?_, ?_, ?_, ?_, ?_, ?_, ?_⟩
  · exact ((k9.f (by decide) r).trans ((k8.f (by decide) r).trans (k37.f (by decide) r))).trans h3
  · refine ((k9.f (by decide) r).trans ((k8.f (by decide) r).trans ((k7.f (by decide) r).trans ((k6.f (by decide) r).trans (k5.f (by decide) r))))).trans ?_
    exact (f_sf_ne _ _ _ _ (by decide)).trans (f_sf_same w3 F.PROT_RFLT_FIRST r first)
  · refine ((k9.f (by decide) r).trans ((k8.f (by decide) r).trans ((k7.f (by decide) r).trans (k6.f (by decide) r)))).trans ?_
    exact (f_sf_same _ F.PROT_RFLT_LATCHED r _).trans (hb _)
  · refine ((k9.f (by decide) r).trans ((k8.f (by decide) r).trans (k7.f (by decide) r))).trans ?_
    exact (f_sf_ne _ _ _ _ (by decide)).trans ((f_sf_same w5 F.PROT_RFLT_HICCUP r _).trans (hb _))
  · exact f_sf_same w9 F.LE_RSTATE_GATE r 1
  · refine (k9.f (by decide) r).trans ((f_sf_same w7 F.PROT_RCNT_FAULTS r _).trans ?_)
    rw [k37.f (by decide), k3.f (by decide), k2.f (by decide)]
    rfl
  · exact ((k9.f (by decide) r).trans ((k8.f (by decide) r).trans (k37.f (by decide) r))).trans ((k3.f (by decide) r).trans (k2.f (by decide) r))
  · exact ((k9.f (by decide) r).trans ((k8.f (by decide) r).trans (k37.f (by decide) r))).trans ((k3.f (by decide) r).trans (k2.f (by decide) r))

abbrev headIds : List Nat := [F.PROT_RESC_ESCCNT.id, F.LE_STAT_FROZEN.id, F.PROT_RPH_LANES.id, F.PROT_RCNT_TRIPS.id] ++ killIds

/-- What every trip does: FROZEN rises, and the first of a 1 ns cycle counts (R102, R180, R185, R194). -/
theorem tripHead_f (w : World) (r src : Nat) (p : Option Nat) (c au : Bool) {v : World} (hv : v = w.tripHead r src p c au) :
    Keeps headIds w v ∧ v.f F.LE_STAT_FROZEN r = 1
      ∧ v.f F.PROT_RCNT_TRIPS r = if w.tripped r then w.f F.PROT_RCNT_TRIPS r else (w.f F.PROT_RCNT_TRIPS r + 1) % 65536 := by
  subst hv
  unfold World.tripHead
  extract_lets again _ w1 w2 w3 w4
  have k3 : Keeps (F.PROT_RESC_ESCCNT.id :: killIds) w w3 :=
    keeps_applyKill (((Keeps.refl _ w).setRail).when fun _ h => h.incSat (by decide)) (by decide)
  have k4 : Keeps [F.PROT_RPH_LANES.id] (w3.sf F.LE_STAT_FROZEN r 1) w4 := keeps_addLane (Keeps.refl _ _) (by decide)
  have h4 : w4.f F.LE_STAT_FROZEN r = 1 := (k4.f (by decide) r).trans (f_sf_same w3 F.LE_STAT_FROZEN r 1)
  have h5 : w4.f F.PROT_RCNT_TRIPS r = w.f F.PROT_RCNT_TRIPS r :=
    (k4.f (by decide) r).trans ((f_sf_ne _ _ _ _ (by decide)).trans (k3.f (by decide) r))
  have k : Keeps headIds w w4 := ((k3.mono (by decide)).sf (by decide)).trans (k4.mono (by decide))
  by_cases ha : again = true
  · rw [if_pos ha, if_pos ha]
    exact ⟨k, h4, h5⟩
  · rw [if_neg ha, if_neg ha]
    refine ⟨(k.inc (by decide)).pulse, (f_sf_ne _ _ _ _ (by decide)).trans h4, ?_⟩
    exact (f_sf_same w4 F.PROT_RCNT_TRIPS r _).trans (by rw [h5]; rfl)

theorem keeps_holdKills {l : List Nat} {a b : World} (h : Keeps l a b) {r m : Nat} : Keeps l a (b.holdKills r m) :=
  Keeps.foldl _ h fun _ _ h => h.setPhase

/-- A raise on a rail in no faulted state whose response acts is a trip (R179). -/
theorem raise_trip (w : World) (r src : Nat) (p : Option Nat) (h : ¬ (w.f F.PROT_RRESP (16 * r + src) < 2 ∨ 4 < w.f F.PROT_RRESP (16 * r + src)))
    (hf : w.faulted r = false) : w.raise r src p = (w.orBit F.PROT_RHIST_SEEN r src).trip r src p (w.f F.PROT_RRESP (16 * r + src)) := by
  unfold World.raise
  dsimp only
  rw [if_neg h, if_neg]
  unfold World.faulted World.rstate at *
  rw [((Keeps.refl [F.PROT_RHIST_SEEN.id] w).orBit (by decide)).f (by decide), hf]
  decide

/-- An unfaulted raise that does not escalate: its part before the response, and that response (R180, R182, R185). -/
theorem raise_head (w : World) (r src : Nat) (p : Option Nat) (h : ¬ (w.f F.PROT_RRESP (16 * r + src) < 2 ∨ 4 < w.f F.PROT_RRESP (16 * r + src)))
    (hf : w.faulted r = false) (hne : w.f F.PROT_RRESP (16 * r + src) ≠ 2 ∨ w.f F.PROT_RCFG_ESCN r = 0) :
    ∃ w1 : World, Keeps (F.PROT_RHIST_SEEN.id :: headIds) w w1 ∧ w1.f F.LE_STAT_FROZEN r = 1
      ∧ w1.f F.PROT_RCNT_TRIPS r = (if w.tripped r then w.f F.PROT_RCNT_TRIPS r else (w.f F.PROT_RCNT_TRIPS r + 1) % 65536)
      ∧ w.raise r src p = if w.f F.PROT_RRESP (16 * r + src) = 2 then w1.endForecasts r (tripReason src)
        else w1.shutdown r (w.f F.PROT_RRESP (16 * r + src)) (w.tripMask r src) false (tripReason src) := by
  have h0 : Keeps [F.PROT_RHIST_SEEN.id] w (w.orBit F.PROT_RHIST_SEEN r src) := (Keeps.refl _ w).orBit (by decide)
  have he : (w.orBit F.PROT_RHIST_SEEN r src).escalates r (w.f F.PROT_RRESP (16 * r + src)) = false := by
    unfold World.escalates World.fb
    rw [h0.f (by decide)]
    rcases hne with h | h <;> simp [h]
  obtain ⟨h1, h2, h3⟩ := tripHead_f (w.orBit F.PROT_RHIST_SEEN r src) r src p (w.f F.PROT_RRESP (16 * r + src) == 2) (w.f F.PROT_RRESP (16 * r + src) == 2) rfl
  rw [h0.f (by decide)] at h3
  rw [raise_trip w r src p h hf]
  unfold World.trip
  extract_lets again mask esc resp w2 w3 _ w4
  have e1 : esc = false := by show (!again && _) = false; rw [he, Bool.and_false]
  have e2 : resp = w.f F.PROT_RRESP (16 * r + src) := by show (if esc = true then _ else _) = _; rw [e1]; rfl
  have e3 : w2 = (w.orBit F.PROT_RHIST_SEEN r src).tripHead r src p (w.f F.PROT_RRESP (16 * r + src) == 2) (w.f F.PROT_RRESP (16 * r + src) == 2) := by
    show World.tripHead _ r src p _ (resp == 2) = _
    rw [e2]
  rw [← e3] at h1 h2 h3
  by_cases hr : w.f F.PROT_RRESP (16 * r + src) = 2
  · refine ⟨w2, (h0.mono (by decide)).trans (h1.mono (by decide)), h2, h3, ?_⟩
    rw [e2, if_pos hr, if_pos hr]
  · have k4 : Keeps [F.PROT_RESC_ESCCNT.id] w2 w4 := (keeps_holdKills (((Keeps.refl _ w2).when fun _ h => (h.sf (by decide)).setRail))).setRail
    refine ⟨w4, ((h0.mono (by decide)).trans (h1.mono (by decide))).trans (k4.mono (by decide)), (k4.f (by decide) r).trans h2, (k4.f (by decide) r).trans h3, ?_⟩
    rw [e2, if_neg hr, if_neg hr, e1]
    rfl

end Sys2Proof.Machine
end

