-- ==== Sys2Proof/Laws/Registers.lean ====
section
/-! SUPPORT. Lemmas about register reads and writes: what each shared operation can do. -/

namespace Sys2Proof.Machine

theorem regAbsent_off (w : World) (g : Reg) (i : Nat)
    (h : (([R.FC_RAILA, R.FC_RAILB, R.FC_RAILC, R.FC_RAILD, R.FC_RSTAT, R.SI_AVSLIM, R.EL_RACC_LO, R.EL_RACC_HI, R.EL_RUSED_LO,
      R.EL_RUSED_HI, R.EL_RLIM_LO, R.EL_RLIM_HI, R.EL_RWIN, R.EL_RRES_LO, R.EL_RRES_HI, R.EL_RSTAT, R.EL_SACC_LO, R.EL_SACC_HI, R.EL_SPWR, R.PM_TRIM,
      R.PD_BOOSTAMP, R.LS_CFG, R.LS_STAT, R.LS_MCPC, R.LS_MCADDR].map Reg.id).all fun x => x != g.id) = true) : w.regAbsent g i = false := by
  simp only [List.map_cons, List.map_nil, List.all_cons, List.all_nil, bne_iff_ne, ne_eq, Bool.and_eq_true, Bool.and_true] at h
  unfold World.regAbsent
  simp [h, Ne.symm h.2.2.2.2.2.2.2.2.2.2.2.2.2.2.2.2.2.2.2.2.1]

/-- A read row of a register that its own function reads: its island's clock is woken first. -/
theorem readRow_reader (w v : World) (m : Mem) (a : Agent) (g : Reg) (i : Nat) (f : World → Agent → Nat → World × Nat) (hr : reader g i = some f)
    (hab : w.regAbsent g i = false) (hup : w.blockUp (g.islandOf 1 i)) (hv : v = w.touch (blockIsl (g.islandOf 1 i))) :
    w.readRow m a g i = (m, (f v a i).1.answered a g i (f v a i).2) := by
  subst hv
  unfold World.readRow
  dsimp only
  rw [hup.1, hup.2, if_neg (by decide), if_pos rfl]
  unfold World.readReg
  rw [hab, if_neg Bool.false_ne_true, hr]
  dsimp only
  cases a <;> rfl

theorem reader_latch {g h : Reg} (hm : (g, h) ∈ latchPairs) (i : Nat) : reader g i = some fun w _ i => w.latchHi g h i := by
  simp only [latchPairs, List.mem_cons, List.not_mem_nil, or_false, Prod.mk.injEq] at hm
  iterate 11 (rcases hm with ⟨rfl, rfl⟩ | hm; · rfl)
  obtain ⟨rfl, rfl⟩ := hm
  rfl

theorem readRow_latch (w v : World) (m : Mem) (a : Agent) {g h : Reg} (i : Nat) (hm : (g, h) ∈ latchPairs)
    (hab : w.regAbsent g i = false) (hup : w.blockUp (g.islandOf 1 i)) (hv : v = w.touch (blockIsl (g.islandOf 1 i))) :
    w.readRow m a g i = (m, (v.setHeld h i (v.rawShow h i)).answered a g i (v.rawShow g i)) :=
  readRow_reader w v m a g i _ (reader_latch hm i) hab hup hv

theorem drawFold (w : World) (n : Nat) :
    let v := (List.range n).foldl (fun w i => let (w, x) := w.draw; w.sf F.SEC_NONCE_NONCE i x) w
    v.free = w.free + n ∧ (∀ i < n, v.f F.SEC_NONCE_NONCE i = Config.freeValue (w.free + i) % 2 ^ 32) ∧ Keeps [F.SEC_NONCE_NONCE.id] w v := by
  induction n with
  | zero => exact ⟨rfl, fun _ h => absurd h (Nat.not_lt_zero _), Keeps.refl _ _⟩
  | succ n ih =>
    dsimp only at ih ⊢
    rw [List.range_succ, List.foldl_append, List.foldl_cons, List.foldl_nil]
    generalize List.foldl _ w (List.range n) = v at ih ⊢
    refine ⟨congrArg (· + 1) ih.1, fun i hi => ?_, (ih.2.2.regs (c := { v with free := v.free + 1 }) rfl).sf (by decide)⟩
    by_cases h : i = n
    · subst h
      rw [f_sf_same]
      show Config.freeValue v.free % _ = _
      rw [ih.1]
      rfl
    · rw [f_sf_inst _ _ h]
      exact ih.2.1 i (by omega)

def layDist : List (Nat × Fld × Nat) → Bool
  | [] => true
  | a :: l => l.all (fun b => !(a.2.1.id == b.2.1.id && (a.2.2 == b.2.2 || a.2.1.sub != b.2.1.sub))) && layDist l && decide (a.2.1.id < 4096)

set_option maxRecDepth 4000 in

theorem lays_dist : (allRegs.all fun g => layDist g.lay) = true := by decide

set_option maxRecDepth 4000 in

theorem lays_any : (allRegs.all fun g => g.lay.any fun e => e.2.1.cut e.1 0xFFFFFFFF != 0) = true := by decide

theorem writeField_key (w : World) (lk : Bool) (lo : Nat) (B : Fld) (i v mask : Nat) {G : Fld} {j : Nat} (h : G.key j ≠ B.key i) :
    (w.writeField lk lo B i v mask).f G j = w.f G j := by
  unfold World.writeField
  dsimp only
  split
  · exact f_sf_key _ _ _ _ h
  · split
    · rfl
    · exact f_sf_key _ _ _ _ h
  · exact f_sf_key _ _ _ _ h
  · split
    · rfl
    · exact f_sf_key w B i (B.cut lo v) h
  · rfl
  · rfl

theorem writeField_rwo (w : World) (lk : Bool) (lo : Nat) (B : Fld) (i v mask : Nat) {K : Nat} (h : K ≠ B.key i) :
    (w.writeField lk lo B i v mask).rwo.contains K = w.rwo.contains K := by
  unfold World.writeField
  dsimp only
  split
  · rfl
  · split <;> rfl
  · rfl
  · split
    · rfl
    · show (w.rwo ++ [B.key i]).contains K = _
      simp [h]
  · rfl
  · rfl

theorem key_ne_of {F G : Fld} {i j : Nat} (hF : F.id < 4096) (hG : G.id < 4096) (h : F.id = G.id → i ≠ j) : F.key i ≠ G.key j := by
  unfold Fld.key
  intro he
  have : F.id = G.id := by omega
  exact h this (by omega)

theorem lay_keys {l : List (Nat × Fld × Nat)} {a : Nat × Fld × Nat} (h : layDist (a :: l) = true) (i : Nat) :
    ∀ b ∈ l, b.2.1.key (i * b.2.1.sub + b.2.2) ≠ a.2.1.key (i * a.2.1.sub + a.2.2) := by
  intro b hb
  have ids : ∀ (l : List (Nat × Fld × Nat)), layDist l = true → ∀ b ∈ l, b.2.1.id < 4096 := by
    intro l
    induction l with
    | nil => exact fun _ _ h => absurd h List.not_mem_nil
    | cons c l ih =>
      intro h b hb
      unfold layDist at h
      rw [Bool.and_eq_true, Bool.and_eq_true] at h
      rcases List.mem_cons.mp hb with rfl | hb
      · exact of_decide_eq_true h.2
      · exact ih h.1.2 b hb
  have hi := ids _ h
  refine key_ne_of (hi b (List.mem_cons_of_mem _ hb)) (hi a List.mem_cons_self) fun he => ?_
  unfold layDist at h
  rw [Bool.and_eq_true, Bool.and_eq_true] at h
  have := List.all_eq_true.mp h.1.1 b hb
  simp only [he, beq_self_eq_true, Bool.true_and, Bool.not_eq_eq_eq_not, Bool.not_true, Bool.or_eq_false_iff, beq_eq_false_iff_ne, bne_eq_false_iff_eq] at this
  rw [this.2]
  intro hc
  exact this.1 (by omega)

/-- The fold over a layout reaches each field once. -/
theorem fold_field (lk : Fld → Bool) (i v mask : Nat) : ∀ (l : List (Nat × Fld × Nat)) (w : World), layDist l = true → ∀ e ∈ l,
    ∃ w1 : World, w1.f e.2.1 (i * e.2.1.sub + e.2.2) = w.f e.2.1 (i * e.2.1.sub + e.2.2)
      ∧ w1.rwo.contains (e.2.1.key (i * e.2.1.sub + e.2.2)) = w.rwo.contains (e.2.1.key (i * e.2.1.sub + e.2.2))
      ∧ (l.foldl (fun w e => w.writeField (lk e.2.1) e.1 e.2.1 (i * e.2.1.sub + e.2.2) v mask) w).f e.2.1 (i * e.2.1.sub + e.2.2)
        = (w1.writeField (lk e.2.1) e.1 e.2.1 (i * e.2.1.sub + e.2.2) v mask).f e.2.1 (i * e.2.1.sub + e.2.2) := by
  intro l
  induction l with
  | nil => exact fun _ _ _ h => absurd h List.not_mem_nil
  | cons a l ih =>
    intro w hd e he
    have hk := lay_keys hd i
    have hd' : layDist l = true := by
      unfold layDist at hd
      rw [Bool.and_eq_true, Bool.and_eq_true] at hd
      exact hd.1.2
    rw [List.foldl_cons]
    rcases List.mem_cons.mp he with rfl | he
    · refine ⟨w, rfl, rfl, ?_⟩
      have : ∀ (l : List (Nat × Fld × Nat)) (w : World), (∀ b ∈ l, b.2.1.key (i * b.2.1.sub + b.2.2) ≠ e.2.1.key (i * e.2.1.sub + e.2.2)) →
          (l.foldl (fun w e => w.writeField (lk e.2.1) e.1 e.2.1 (i * e.2.1.sub + e.2.2) v mask) w).f e.2.1 (i * e.2.1.sub + e.2.2)
            = w.f e.2.1 (i * e.2.1.sub + e.2.2) := by
        intro l
        induction l with
        | nil => exact fun _ _ => rfl
        | cons b l ih2 =>
          intro w h
          rw [List.foldl_cons, ih2 _ (fun b hb => h b (List.mem_cons_of_mem _ hb)), writeField_key _ _ _ _ _ _ _ (h b List.mem_cons_self).symm]
      exact this l _ hk
    · obtain ⟨w1, h1, h2, h3⟩ := ih (w.writeField (lk a.2.1) a.1 a.2.1 (i * a.2.1.sub + a.2.2) v mask) hd' e he
      refine ⟨w1, ?_, ?_, h3⟩
      · rw [h1, writeField_key _ _ _ _ _ _ _ (hk e he)]
      · rw [h2, writeField_rwo _ _ _ _ _ _ _ (hk e he)]

theorem writeField_keeps {l : List Nat} {a w : World} (h : Keeps l a w) (lk : Bool) (lo : Nat) (B : Fld) (i v mask : Nat) (hB : B.id < 4096 ∧ B.id ∈ l) :
    Keeps l a (w.writeField lk lo B i v mask) := by
  unfold World.writeField
  dsimp only
  split
  · exact h.sf hB
  · split
    · exact h
    · exact h.sf hB
  · exact h.sf hB
  · split
    · exact h
    · exact (h.sf hB).regs rfl
  · exact h
  · exact h

theorem plain_keeps (w : World) (g : Reg) (i v mask : Nat) (hd : layDist g.lay = true) : Keeps (g.lay.map fun e => e.2.1.id) w (w.plain g i v mask) := by
  unfold World.plain
  dsimp only
  have : ∀ (l : List (Nat × Fld × Nat)) (ids : List Nat) (u : World), Keeps ids w u → layDist l = true → (∀ e ∈ l, e.2.1.id ∈ ids) →
      Keeps ids w (l.foldl (fun u e => u.writeField (w.lkSet e.2.1) e.1 e.2.1 (i * e.2.1.sub + e.2.2) v mask) u) := by
    intro l
    induction l with
    | nil => exact fun _ _ h _ _ => h
    | cons a l ih =>
      intro ids u h hd hm
      unfold layDist at hd
      rw [Bool.and_eq_true, Bool.and_eq_true] at hd
      exact ih ids _ (writeField_keeps h _ _ _ _ _ _ ⟨of_decide_eq_true hd.2, hm a List.mem_cons_self⟩) hd.1.2 fun e he => hm e (List.mem_cons_of_mem _ he)
  exact this _ _ _ (Keeps.refl _ _) hd fun e he => List.mem_map.mpr ⟨e, he, rfl⟩

theorem cut_lt (F : Fld) (lo v : Nat) : F.cut lo v % 2 ^ F.wd = F.cut lo v := by
  unfold Fld.cut bitsOf
  exact Nat.mod_mod _ _

theorem regOf_blockOff {w : World} {off : Nat} {x : Reg × Nat} (h : w.regOf off = some x) : w.blockOff off = false := by
  unfold World.regOf at h
  unfold World.blockOff
  split at h
  · cases h
  · rename_i n o hb
    split at h
    · cases h
    · rename_i hc
      rw [Bool.or_eq_true, not_or] at hc
      simp only [Bool.not_eq_true] at hc
      rw [hc.2, Bool.and_false]

theorem regOf_block {w : World} {off : Nat} {x : Reg × Nat} (h : w.regOf off = some x) : ∃ b, blockOf off = some b := by
  unfold World.regOf at h
  split at h
  · cases h
  · rename_i n o hb
    exact ⟨_, hb⟩

theorem mergeMask_all (k v : Nat) : mergeMask k (v % 2 ^ 32) (0xFFFFFFFF % 2 ^ 32) = v % 2 ^ 32 := by
  unfold mergeMask
  have h : v % 2 ^ 32 &&& 0xFFFFFFFF = v % 2 ^ 32 := by
    rw [show 0xFFFFFFFF = 2 ^ 32 - 1 by decide, Nat.and_two_pow_sub_one_eq_mod, Nat.mod_mod]
  rw [show 0xFFFFFFFF % 2 ^ 32 = 0xFFFFFFFF by decide, show (0xFFFFFFFF ^^^ 0xFFFFFFFF : Nat) = 0 by decide, Nat.and_zero, Nat.zero_or, h]

theorem writeReg_plain {w : World} {g : Reg} {i mask : Nat} (m : Mem) (a : Agent) (v : Nat) (hab : w.regAbsent g i = false)
    (hw : (writers.find? fun e => e.1.id == g.id) = none) (hm : (g.lay.any fun e => e.2.1.cut e.1 mask != 0) = true) {u : World}
    (hu : u = w.touch (blockIsl (g.islandOf 1 i))) : w.writeReg m a g i v mask = (m, u.plain g i (mergeMask (u.keepBits g i) v mask) mask) := by
  subst hu
  unfold World.writeReg
  rw [hab, hm, if_neg (by decide), hw]

end Sys2Proof.Machine
end

