-- ==== Sys2Proof/Laws/Supplies.lean ====
section
/-! SUPPORT. Lemmas about power, reset, start-up and the form of the memories: what each shared operation can do. -/

namespace Sys2Proof.Machine

theorem f_showPm (w : World) : w.showPm.f F.PM_STATE_STATE 0
    = (if w.pwr.sent ≠ 0 then 3 else if w.pwr.hold ≠ 0 then 2 else if w.pwr.gated ≠ 0 ∧ w.fb F.PM_CFG_TRIMEN 0 then 1 else 0) := by
  unfold World.showPm
  rw [f_sf_same]
  repeat' split
  all_goals rfl

theorem sentPre_f (w : World) {G : Fld} (hG : G.id < 4096 ∧ G.id ∉ [F.TR_STAT_STATE.id]) : w.keepRsc.trStop.pdCoast.f G 0 = w.f G 0 := by
  have h1 : w.keepRsc.f G 0 = w.f G 0 := by
    refine (Keeps.foldl (l := []) _ (Keeps.refl _ _) fun w r h => ?_).f ⟨hG.1, List.not_mem_nil⟩ 0
    dsimp only
    exact Keeps.ite h.setConverter h
  have h2 : ∀ w : World, w.trStop.f G 0 = w.f G 0 := fun w => by
    refine (Keeps.foldl (l := [F.TR_STAT_STATE.id]) _ (Keeps.refl _ _) fun w r h => ?_).f hG 0
    exact Keeps.with_trc (h.sf (by decide))
  have h3 : ∀ w : World, w.pdCoast.f G 0 = w.f G 0 := fun w => by
    refine (Keeps.foldl (l := []) _ (Keeps.refl _ _) fun w r h => ?_).f ⟨hG.1, List.not_mem_nil⟩ 0
    exact Keeps.with_pd h
  rw [h3, h2, h1]

theorem clrBits_f (F : Fld) (l : List Nat) (w : World) (j : Nat) (h : j ∈ l ∨ (w.f F 0).testBit j = false) :
    ((l.foldl (fun w n => w.clrBit F 0 n) w).f F 0).testBit j = false := by
  induction l generalizing w with
  | nil => exact h.resolve_left (by simp)
  | cons n l ih =>
    refine ih _ ?_
    by_cases hj : j ∈ l
    · exact Or.inl hj
    · refine Or.inr ?_
      unfold World.clrBit
      rw [f_sf_same, Nat.testBit_mod_two_pow]
      have : (if (w.f F 0).testBit n = true then w.f F 0 - 2 ^ n else w.f F 0).testBit j = false := by
        rcases h with h | h
        · obtain rfl : j = n := (List.mem_cons.mp h).resolve_right hj
          split
          · rename_i hb
            rw [testBit_sub _ _ _ hb]
            simp
          · rename_i hb; simpa using hb
        · split
          · rename_i hb
            rw [testBit_sub _ _ _ hb, h]
            rfl
          · exact h
      rw [this, Bool.and_false]

theorem writeCtl_regs (w : World) : w.writeCtl.regs = w.regs := rfl

theorem putSlot_spec (w : World) (m : Mem) (r : CrnRec) :
    (w.putSlot m r false).1 = m.setBytes (slotByte (freeSlot m ((w.f F.CRN_WRPTR_SLOT 0 + 1) % 8192) 8191))
      (r.bytes (w.f F.CRN_RNUM_NEXT 0) (b2n (decide (0 < w.f F.CRN_PINLEFT_LEFT 0))) (w.f F.CRN_BOOTN_BOOTN 0))
    ∧ (w.putSlot m r false).2.crn.queue = w.crn.queue
    ∧ (w.putSlot m r false).2.f F.CRN_RNUM_NEXT 0 = (w.f F.CRN_RNUM_NEXT 0 + 1) % 2 ^ F.CRN_RNUM_NEXT.wd
    ∧ (w.putSlot m r false).2.f F.CRN_WRPTR_SLOT 0 = freeSlot m ((w.f F.CRN_WRPTR_SLOT 0 + 1) % 8192) 8191 % 2 ^ F.CRN_WRPTR_SLOT.wd
    ∧ Keeps [F.CRN_RNUM_NEXT.id, F.CRN_WRPTR_SLOT.id, F.CRN_PINLEFT_LEFT.id] w (w.putSlot m r false).2 := by
  have hq : ∀ (y : World) (b : Bool), (y.when b World.writeCtl).crn.queue = y.crn.queue ∧ (y.when b World.writeCtl).regs = y.regs := by
    intro y b
    cases b <;> exact ⟨rfl, rfl⟩
  have hi : ∀ (y : World) (b : Bool), (y.when b fun w => w.irq 0x0D0).crn = y.crn ∧ (y.when b fun w => w.irq 0x0D0).regs = y.regs := by
    intro y b
    cases b
    · exact ⟨rfl, rfl⟩
    · refine ⟨?_, irq_regs _ _⟩
      show (World.irq _ _).crn = _
      unfold World.irq
      split <;> rfl
  unfold World.putSlot
  generalize freeSlot m ((w.f F.CRN_WRPTR_SLOT 0 + 1) % 8192) 8191 = s
  extract_lets slot pin rn flags m1 w1 w2 _ w3 w4
  have k2 : Keeps [F.CRN_PINLEFT_LEFT.id] w1 w2 := (Keeps.refl _ w1).sf (by decide)
  have e : ∀ G : Fld, World.f (w4.when (w4.fb F.CRN_CFG_IEN 0) fun w => w.irq 0x0D0) G 0 = w2.f G 0 := fun G => by
    unfold World.f
    rw [(hi _ _).2, (hq _ _).2]
  have ef : flags = b2n (decide (0 < pin)) := Nat.add_zero _
  have em : m1 = m.setBytes (slotByte s) (r.bytes rn (b2n (decide (0 < pin))) (w.f F.CRN_BOOTN_BOOTN 0)) := by rw [← ef]
  clear_value m1
  refine ⟨em, ?_, ?_, ?_, ?_⟩
  · exact (congrArg Crn.queue (hi w4 _).1).trans (hq w3 _).1
  · exact ((e _).trans (k2.f (by decide) 0)).trans ((f_sf_ne _ _ _ _ (by decide)).trans (f_sf_same w F.CRN_RNUM_NEXT 0 _))
  · exact ((e _).trans (k2.f (by decide) 0)).trans (f_sf_same _ F.CRN_WRPTR_SLOT 0 _)
  · have k : Keeps [F.CRN_RNUM_NEXT.id, F.CRN_WRPTR_SLOT.id, F.CRN_PINLEFT_LEFT.id] w w2 :=
      (((Keeps.refl _ w).sf (by decide)).sf (by decide)).sf (by decide)
    exact k.regs (((hi w4 _).2.trans (hq w3 _).2).trans rfl)

theorem startWipe_keeps (w : World) (l : List Nat) : Keeps [F.GL_WIPESTAT_WIPING.id] w (w.startWipe l) := Keeps.sf (Keeps.refl _ _) (by decide)

/-- What the straps and the board's OTP words can set. -/
abbrev strapIds : List Nat := [F.BL_CFG_EN, F.SI_PMCFG_ADDR, F.SI_ROPECFG_ROOT, F.PM_PADCFG_LX0960, F.HI_LINKCAP_MAXSPEED, F.HI_LINKCAP_MAXWIDTH].map Fld.id

theorem linkCaps_keeps {l : List Nat} {w v : World} (h : Keeps l w v) (hl : strapIds ⊆ l) : Keeps l w v.linkCaps := by
  refine Keeps.trans h (Keeps.mono ?_ hl)
  unfold World.linkCaps
  extract_lets
  split
  · exact Keeps.refl _ _
  · exact ((Keeps.refl _ v).sf (by decide)).sf (by decide)

theorem strap_keeps (l : List Nat) (w : World) : Keeps strapIds w (l.foldl World.strapRegs w) := by
  refine Keeps.foldl _ (Keeps.refl _ _) fun w n h => ?_
  unfold World.strapRegs
  split
  · exact linkCaps_keeps h.with_pcie (List.Subset.refl _)
  · exact h.sf (by decide)
  · exact (h.sf (by decide)).sf (by decide)
  · exact h.sf (by decide)
  · exact h

theorem strapRegs_same (w : World) (n : Nat) : (w.strapRegs n).otp = w.otp ∧ (w.strapRegs n).pwr = w.pwr ∧ (w.strapRegs n).pins = w.pins := by
  unfold World.strapRegs
  split
  · unfold World.linkCaps
    dsimp only
    split <;> exact ⟨rfl, rfl, rfl⟩
  all_goals exact ⟨rfl, rfl, rfl⟩

theorem strap_otp (l : List Nat) : ∀ w : World, (l.foldl World.strapRegs w).otp = w.otp := by
  induction l with
  | nil => exact fun _ => rfl
  | cons n l ih => exact fun w => (ih _).trans (strapRegs_same w n).1

/-- The bits of GL_RSTCAUSE. -/
abbrev causeIds : List Nat := [F.GL_RSTCAUSE_POR, F.GL_RSTCAUSE_PIN, F.GL_RSTCAUSE_PLOSS, F.GL_RSTCAUSE_OFFEXIT, F.GL_RSTCAUSE_FW,
  F.GL_RSTCAUSE_HOST, F.GL_RSTCAUSE_DBG, F.GL_RSTCAUSE_LC].map Fld.id

theorem setCause_keeps (w : World) (c : Nat) : Keeps causeIds w (w.setCause c) := by
  have h : ∀ (l : List (Fld × Nat)) (v : World), Keeps causeIds w v → (∀ e ∈ l, e.1.id < 4096 ∧ e.1.id ∈ causeIds) →
      Keeps causeIds w (l.foldl (fun w e => w.sf e.1 0 (b2n (e.2 == c))) v) := by
    intro l
    induction l with
    | nil => exact fun _ hv _ => hv
    | cons e l ih => exact fun v hv hm => ih _ (hv.sf (hm e List.mem_cons_self)) fun x hx => hm x (List.mem_cons_of_mem _ hx)
  exact h _ w (Keeps.refl _ w) (by decide)

theorem setCause_f (w : World) (c : Nat) :
    (w.setCause c).f F.GL_RSTCAUSE_PIN 0 = b2n (1 == c) ∧ (w.setCause c).f F.GL_RSTCAUSE_POR 0 = b2n (0 == c) := by
  have hb : ∀ b : Bool, b2n b % 2 ^ 1 = b2n b := by decide
  unfold World.setCause
  simp only [List.zipIdx_cons, List.zipIdx_nil, List.foldl_cons, List.foldl_nil]
  refine ⟨?_, ?_⟩
  · iterate 6 rw [f_sf_ne _ _ _ _ (by decide)]
    exact (f_sf_same _ _ _ _).trans (hb _)
  · iterate 7 rw [f_sf_ne _ _ _ _ (by decide)]
    exact (f_sf_same _ _ _ _).trans (hb _)

theorem strap_pwr (l : List Nat) (w : World) (p : World → Nat → Prop) [∀ w n, Decidable (p w n)] :
    (l.foldl (fun w n => if p w n then w.strapRegs n else w) w).pwr = w.pwr
    ∧ (l.foldl (fun w n => if p w n then w.strapRegs n else w) w).pins = w.pins := by
  induction l generalizing w with
  | nil => exact ⟨rfl, rfl⟩
  | cons n l ih =>
    rw [List.foldl_cons, (ih _).1, (ih _).2]
    split
    · exact (strapRegs_same w n).2
    · exact ⟨rfl, rfl⟩

theorem suppliesGood_base (w : World) (straps : Nat) (pair sel ok : Bool) : ∃ x : World,
    x.pwr = { w.pwr with straps := straps % 4 } ∧ x.pins = { w.pins with blpair := pair, blsel := sel }
    ∧ w.suppliesGood straps pair sel ok = (if x.pwr.off then
        World.startAll { (x.setCause 3).wakeLast 6 true with pwr := { ((x.setCause 3).wakeLast 6 true).pwr with off := false, sent := 4, chk := true, ret := 0x801, phase := 2 } }
      else if x.pwr.loss then
        World.startAll { (x.setCause 2).takeOptions with pwr := { (x.setCause 2).pwr with loss := false, chk := true, ret := 0x801, phase := 2 } }
      else (World.takeOptions { (x.when (!x.fb F.GL_RSTCAUSE_PIN 0) fun w => w.setCause 0) with
        pwr := { (x.when (!x.fb F.GL_RSTCAUSE_PIN 0) fun w => w.setCause 0).pwr with phase := 1 } }).start .xtal) := by
  refine ⟨(List.range 22).foldl (fun w n => if n = 3 ∨ w.on n then w.strapRegs n else w)
    ((World.sf { w with pins := { w.pins with blpair := pair, blsel := sel }, pwr := { w.pwr with straps := straps % 4 } }
      F.CRN_STAT_HOLDLOW 0 (b2n !ok)).sf F.BL_STAT_SEL 0 (b2n sel)), (strap_pwr _ _ _).1, (strap_pwr _ _ _).2, rfl⟩

theorem restartPairs_keeps (w : World) : Keeps [] w w.restartPairs ∧ w.restartPairs.wiping = w.wiping := by
  refine ⟨Keeps.foldl _ (Keeps.refl _ _) fun w c h => Keeps.ite (Keeps.setCore h) h, ?_⟩
  unfold World.restartPairs
  generalize List.range w.nCores = l
  induction l generalizing w with
  | nil => rfl
  | cons c l ih =>
    rw [List.foldl_cons, ih]
    split <;> rfl

theorem form_mem {c : Instr} {s t : State} (h : ∃ u, exec c s = .next u ∧ u.mem = s.mem) (hs : s.memOk) (ht : exec c s = .next t) : t.memOk := by
  obtain ⟨u, h1, h2⟩ := h
  rw [h1] at ht
  cases ht
  unfold State.memOk
  rw [h2]
  exact hs

theorem formOk_ite {c : Bool} {m : Mem} {w v : World} {p : Nat} (h : m.wf = true) : (if c then Exe.next m w p else Exe.hold m v).formOk := by
  split <;> exact h

theorem form_onW {s t : State} (f : World → World) (h : s.memOk) (ht : onW s f = .next t) : t.memOk := by
  unfold onW at ht
  cases ht
  exact h

theorem form_onM {s t : State} (f : Mem → World → Mem × World) (hf : ∀ m w, Mem.wf m = true → (f m w).1.wf = true) (h : s.memOk) (ht : onM s f = .next t) : t.memOk := by
  unfold onM at ht
  cases ht
  exact hf _ _ h

end Sys2Proof.Machine
end

