-- ==== Sys2Proof/WellFormed.lean ====
section
/-! DEFINITION. Commands as a sender can form them: every index names one of the part's instances (R3 and the tables that give
each unit's count), and every value fits its register. -/

namespace Sys2Proof

open Sys2Proof.Machine

/-- A value of `n` bits. -/
def valOk (n v : Nat) : Bool := decide (v < 2 ^ n)

/-- The host, or one of the eight logical cores. -/
def agentOk : Agent → Bool
  | .host => true
  | .core c => decide (c < 8)

/-- A ring of sixteen, or another source of commands (R229). -/
def srcOk : CmdSrc → Bool
  | .ring n slot _ => decide (n < 16) && decide (slot < 4096)
  | .avs k => decide (k < 4)
  | .gone => false
  | .pmbus | .firmware => true

/-- A kill ball, or an event-fabric channel. -/
def killInOk : KillIn → Bool
  | .ball k => decide (k < 4)
  | .chan c => decide (c < 256)

/-- The command is well formed. -/
def Instr.ok : Instr → Bool
  | .registerWrite a addr value mask => agentOk a && decide (addr < 0x100000) && valOk 32 value && valOk 32 mask
  | .registerRequestTimeout a addr => agentOk a && decide (addr < 0x100000)
  | .autowakeAccess c => decide (c < 8)
  | .autowakeTimeout c _ => decide (c < 8)
  | .trimGate n => decide (n < 22)
  | .trimUngate n => decide (n < 22)
  | .holdingCopyRead c _ => decide (c < 8)
  | .rscSwresRead a n => agentOk a && decide (n < 24)
  | .pccSwresRead a p => agentOk a && decide (p < 132)
  | .hkcResRead a e => agentOk a && decide (e < 64)
  | .fcEntcRead a i => agentOk a && decide (i < 128)
  | .tbLoRead a => agentOk a
  | .tmCntLoRead a t => agentOk a && decide (t < 32)
  | .tmCapLoRead a t => agentOk a && decide (t < 32)
  | .protRftsLoRead a r => agentOk a && decide (r < 24)
  | .elLoRead a addr => agentOk a && decide (addr < 0x4000)
  | .pdPostbLoRead a k => agentOk a && decide (k < 4)
  | .blTkoLoRead a => agentOk a
  | .trTrigtbLoRead a u => agentOk a && decide (u < 4)
  | .icSemRead a j => agentOk a && decide (j < 8)
  | .icSemRelease a j => agentOk a && decide (j < 8)
  | .nonceRead a => agentOk a
  | .corrStep n sl _ _ _ => decide (n < 24) && decide (sl < 8)
  | .refSettled n => decide (n < 24)
  | .reflost isl ref _ => (isl == 4 || isl == 5) && decide (ref < 2)
  | .rscSwresPeriod n _ _ => decide (n < 24)
  | .rscSlotWrite n value => decide (n < 24) && valOk 32 value
  | .rscCfgWrite n value => decide (n < 24) && valOk 32 value
  | .rscCorrWrite n sl _ value => decide (n < 24) && decide (sl < 8) && valOk 32 value
  | .pccAutozeroStart p _ => decide (p < 128)
  | .pccAutozeroDone p codes _ => decide (p < 128) && decide (codes.length = 256)
  | .pccSwresPeriod isl _ => (isl == 6 || isl == 7 || isl == 17)
  | .hkcPassStart _ => true
  | .hkcTrigger ch _ => decide (ch < 256)
  | .hkcEntryDone e _ => decide (e < 64)
  | .hkcSwap => true
  | .elStale k => decide (k < 4)
  | .loopUpdate r _ _ _ _ _ => decide (r < 24)
  | .leCommit r => decide (r < 24)
  | .forecast src rail _ => srcOk src && decide (rail < 256)
  | .forecastCancel src rail _ => srcOk src && decide (rail < 256)
  | .hintEdge p _ _ => decide (p < 16)
  | .hackPulseEnd k => decide (k < 4)
  | .reservationRequest i => decide (i < 128)
  | .reservationAnswer i => decide (i < 128)
  | .outcomeRelease r => decide (r < 24)
  | .decisionMessageAccept i => decide (i < 128)
  | .precoolRequest i => decide (i < 128)
  | .fcTplWrite t _ value => decide (t < 32) && valOk 32 value
  | .statclr => true
  | .pwmCycleStart p _ => decide (p < 128)
  | .pwmOffEdge p _ => decide (p < 128)
  | .zeroCrossMid p _ _ => decide (p < 128)
  | .bcommit isl _ => (isl == 10 || isl == 11)
  | .rcommit r => decide (r < 24)
  | .pwNreqWrite r _ => decide (r < 24)
  | .shedEnd p _ _ => decide (p < 128)
  | .killLineAssert x _ => killInOk x
  | .killLineRelease x r _ _ => killInOk x && decide (r < 24)
  | .railRunning r _ => decide (r < 24)
  | .railEnFall r _ => decide (r < 24)
  | .dllRelockStep p _ => decide (p < 128)
  | .pcmpTrip p _ _ => decide (p < 128)
  | .pcmpLimit p _ _ => decide (p < 128)
  | .vcmpTrip v _ _ => decide (v < 48)
  | .iphoc p _ => decide (p < 128)
  | .iphneg p _ => decide (p < 128)
  | .railStop r _ => decide (r < 24)
  | .killAutoRelease r _ => decide (r < 24)
  | .escDecay r => decide (r < 24)
  | .hiccupWaitEnd r _ => decide (r < 24)
  | .hiccupRetriesClear r => decide (r < 24)
  | .faultClear src rail => srcOk src && decide (rail < 256)
  | .protRclrWrite r value => decide (r < 24) && valOk 32 value
  | .commandGateOpen r => decide (r < 24)
  | .doorbell n value => decide (n < 16) && valOk 32 value
  | .descriptorFetch n _ => decide (n < 16)
  | .descriptorStamp _ l => l.all fun e => decide (e.1 < 16)
  | .linkReset _ => true
  | .flr => true
  | .ringEnable n => decide (n < 16)
  | .ringDisable n => decide (n < 16)
  | .ringResume n => decide (n < 16)
  | .ringReset n => decide (n < 16)
  | .postedWriteDrain _ _ => true
  | .msixCoalesceTimer n => decide (n < 16)
  | .telemPeriod => true
  | .commandTurn rail _ => decide (rail < 0x110)
  | .nop src rail => srcOk src && decide (rail < 256)
  | .railEnable src rail _ _ _ _ => srcOk src && decide (rail < 256)
  | .railDisable src rail _ => srcOk src && decide (rail < 256)
  | .setTarget src rail _ _ => srcOk src && decide (rail < 256)
  | .setNph src rail _ => srcOk src && decide (rail < 256)
  | .queryRail src rail => srcOk src && decide (rail < 256)
  | .calibrate src rail _ _ _ _ => srcOk src && decide (rail < 256)
  | .calibrationEnd r => decide (r < 24)
  | .budgetSet src rail _ _ _ => srcOk src && decide (rail < 256)
  | .pmSentinel src => srcOk src
  | .fwStage src _ _ _ => srcOk src
  | .fwActivate src bank => srcOk src && valOk 8 bank
  | .cairnRead src _ _ _ => srcOk src
  | .stampMessage _ _ _ _ => true
  | .effectMessage _ _ _ _ _ _ => true
  | .decisionMessage _ _ _ _ _ _ => true
  | .faultMessage _ _ _ _ => true
  | .ack _ _ => true
  | .nak _ => true
  | .frameRetry _ => true
  | .belayLinkTrained _ _ _ _ _ _ _ => true
  | .epochBoundary _ => true
  | .heartbeat _ _ _ _ _ _ _ _ => true
  | .snapshot _ _ _ _ => true
  | .partnerLost _ => true
  | .blkaQuiet _ _ => true
  | .keepaliveStop _ => true
  | .handover => true
  | .handoverFrame _ _ _ => true
  | .refuse => true
  | .resync => true
  | .cfgdiff _ => true
  | .lsMiscompare j cause pc addr => decide (j < 4) && (decide (1 ≤ cause) && decide (cause ≤ 6)) && valOk 32 pc && valOk 32 addr
  | .ledgerTick _ _ => true
  | .selfBudgetStep => true
  | .holdEntry _ => true
  | .holdExit code _ _ => decide (code < 16)
  | .sentinelEntry _ => true
  | .sentinelEntryTimeout _ => true
  | .wakeSource code _ _ => decide (code < 16)
  | .offEntry _ => true
  | .pmPadrelWrite _ => true
  | .islreqStop n => decide (n < 22)
  | .islreqStart n => decide (n < 22)
  | .suppliesGood _ _ _ _ _ => true
  | .xtalGood _ => true
  | .xtalFail _ => true
  | .islandStart n _ _ => decide (n < 22)
  | .wipeDone k => decide (k < 18)
  | .basecampStart e _ _ => decide (e < 8)
  | .bootCheck _ _ => true
  | .coldReset _ => true
  | .warmReset cause _ => (decide (4 ≤ cause) && decide (cause < 8))
  | .warmResetIslands _ _ => true
  | .islandReset n _ => decide (n < 22)
  | .coreReset c => decide (c < 8)
  | .coreStart c => decide (c < 8)
  | .powerLoss _ _ => true
  | .lcReq target _ => decide (target < 8)
  | .lcWipe _ => true
  | .coreIll c _ => decide (c < 8)
  | .coreNop c _ => decide (c < 8)
  | .coreAdd c _ => decide (c < 8)
  | .coreSub c _ => decide (c < 8)
  | .coreAddi c _ => decide (c < 8)
  | .coreAnd c _ => decide (c < 8)
  | .coreOr c _ => decide (c < 8)
  | .coreXor c _ => decide (c < 8)
  | .coreAndi c _ => decide (c < 8)
  | .coreOri c _ => decide (c < 8)
  | .coreXori c _ => decide (c < 8)
  | .coreShf c _ => decide (c < 8)
  | .coreMovi c _ => decide (c < 8)
  | .coreMinmax c _ => decide (c < 8)
  | .coreAdda c _ => decide (c < 8)
  | .coreAddaw c _ => decide (c < 8)
  | .coreMovaw c _ => decide (c < 8)
  | .coreLdaL c _ _ => decide (c < 8)
  | .coreLd c _ => decide (c < 8)
  | .coreSt c _ => decide (c < 8)
  | .coreLdD c _ => decide (c < 8)
  | .coreStD c _ => decide (c < 8)
  | .coreLda c _ => decide (c < 8)
  | .coreSta c _ => decide (c < 8)
  | .coreCmpCc c _ => decide (c < 8)
  | .coreCmpCcAnd c _ => decide (c < 8)
  | .coreCmpCcOr c _ => decide (c < 8)
  | .corePlog c _ => decide (c < 8)
  | .corePmov c _ => decide (c < 8)
  | .coreBr c _ => decide (c < 8)
  | .coreCall c _ => decide (c < 8)
  | .coreJmp c _ => decide (c < 8)
  | .coreCallr c _ => decide (c < 8)
  | .coreJmpL c _ _ => decide (c < 8)
  | .coreCallL c _ _ => decide (c < 8)
  | .coreCallg c _ => decide (c < 8)
  | .coreRetx c _ => decide (c < 8)
  | .coreTrap c _ => decide (c < 8)
  | .coreWait c _ => decide (c < 8)
  | .coreSyncI c _ => decide (c < 8)
  | .coreSyncM c _ => decide (c < 8)
  | .coreCsrr c _ => decide (c < 8)
  | .coreCsrw c _ => decide (c < 8)
  | .coreMovs c _ _ => decide (c < 8)
  | .coreFils c _ _ => decide (c < 8)
  | .coreCmps c _ _ => decide (c < 8)
  | .coreScns c _ _ => decide (c < 8)
  | .coreMul c _ => decide (c < 8)
  | .coreMuld c _ => decide (c < 8)
  | .coreMac c _ => decide (c < 8)
  | .coreMar c _ => decide (c < 8)
  | .coreMaz c _ => decide (c < 8)
  | .coreDiv c _ => decide (c < 8)
  | .sideUnitResult c _ => decide (c < 8)
  | .storeDrain c => decide (c < 8)
  | .lineFill c _ => decide (c < 8)
  | .icSourcePend src => decide (src < 512)
  | .icOffer => true
  | .interruptAccept c => decide (c < 8)
  | .icCfgWrite src value => decide (src < 512) && valOk 32 value
  | .dbgHalt c => decide (c < 8)
  | .dbgResume c => decide (c < 8)
  | .dbgStep c => decide (c < 8)
  | .tbLoad => true
  | .ptmRequest => true
  | .ptmResult _ => true
  | .efChWrite c src => decide (c < 256) && decide (src < 512)
  | .efLutbWrite l value => decide (l < 48) && valOk 32 value
  | .efFfcfgWrite f value => decide (f < 16) && valOk 32 value
  | .ffClk f _ ch _ => decide (f < 16 ∧ ch < 256)
  | .ffSet f _ ch => decide (f < 16 ∧ ch < 256)
  | .ffClr f _ ch => decide (f < 16 ∧ ch < 256)
  | .filterEvent f _ _ ch => decide (f < 16 ∧ ch < 256)
  | .filterExpiry f _ => decide (f < 16)
  | .watchEvent x ch _ => decide (x < 32 ∧ ch < 256)
  | .efWcfgWrite x value => decide (x < 32) && valOk 32 value
  | .swEvent x => decide (x < 32)
  | .timerStart t _ ch _ => decide (t < 32 ∧ ch < 256)
  | .timerStop t _ ch _ => decide (t < 32 ∧ ch < 256)
  | .timerClr t _ ch _ => decide (t < 32 ∧ ch < 256)
  | .timerCap t _ ch _ => decide (t < 32 ∧ ch < 256)
  | .timerCntEvent t _ _ ch _ => decide (t < 32 ∧ ch < 256)
  | .timerCompare t _ => decide (t < 32)
  | .timerWrap t _ => decide (t < 32)
  | .timerCmpCommit t value => decide (t < 32) && valOk 32 value
  | .tmCntWrite t _ value => decide (t < 32) && valOk 32 value
  | .timerOvrclr t => decide (t < 32)
  | .dmaMove u => decide (u < 48)
  | .dmaNop u => decide (u < 48)
  | .dmaBeatRead u => decide (u < 48)
  | .dmaBeatAnswer u _ _ => decide (u < 48)
  | .dmaBeatWrite u => decide (u < 49)
  | .dmaMoveConfirm u => decide (u < 48)
  | .dmaChannelStart c => decide (c < 32)
  | .dmaChannelTrigger c _ ch _ => decide (c < 32 ∧ ch < 256)
  | .dmaChannelAbort c => decide (c < 32)
  | .traceArm u => decide (u < 4)
  | .traceTrigger u _ _ ch _ => decide (u < 4 ∧ ch < 256)
  | .traceStop u _ => decide (u < 4)
  | .traceRelease u => decide (u < 4)
  | .traceRecordWrite u _ => decide (u < 4)
  | .trRdseqWrite u value => decide (u < 4) && valOk 32 value
  | .bar2Write off _ => decide (off < 0x2000000)
  | .pdCarrierMidpoint k _ => decide (k < 4)
  | .pdDutyCommit k value => decide (k < 4) && valOk 32 value
  | .ampSlewStep k => decide (k < 4)
  | .pdGateFault k => decide (k < 4)
  | .pdFaultRelease k _ => decide (k < 4)
  | .encoderRequest k _ => decide (k < 4)
  | .encoderFrame k _ _ _ _ => decide (k < 4)
  | .boostHoldEnd k _ => decide (k < 4)
  | .page _ _ => true
  | .operation _ _ => true
  | .clearFaults _ => true
  | .writeProtect _ _ => true
  | .capability => true
  | .voutMode => true
  | .voutCommand _ _ => true
  | .statusByte => true
  | .statusWord => true
  | .statusVout => true
  | .statusIout => true
  | .statusTemperature => true
  | .statusCml => true
  | .readVout => true
  | .readIout => true
  | .readTemperature1 => true
  | .readPout => true
  | .pmbusRevision => true
  | .mfrId => true
  | .mfrModel => true
  | .invalidCommand code => valOk 8 code
  | .alertResponse => true
  | .pmbusCopyRefresh _ => true
  | .avsVoltageWrite k a _ _ => decide (k < 4) && decide (a < 16)
  | .avsVoltageRead k a _ => decide (k < 4) && decide (a < 16)
  | .avsVouttransrateRead k a _ => decide (k < 4) && decide (a < 16)
  | .avsCurrentRead k a _ => decide (k < 4) && decide (a < 16)
  | .avsTemperatureRead k a _ => decide (k < 4) && decide (a < 16)
  | .avsStatusRead k a _ => decide (k < 4) && decide (a < 16)
  | .avsStatusWrite k a _ => decide (k < 4) && decide (a < 16)
  | .privateWrite _ => true
  | .privateRead _ => true
  | .entdaa _ => true
  | .setdasa _ => true
  | .rstdaa => true
  | .getpid => true
  | .getbcr => true
  | .getdcr => true
  | .getstatus => true
  | .enec => true
  | .disec => true
  | .ibi => true
  | .i3cAddressMatch _ _ _ => true
  | .carrierGain _ => true
  | .ropeEnumRequest => true
  | .enum _ _ => true
  | .enumTimeout _ => true
  | .ropeSyncSend _ => true
  | .sync _ _ _ => true
  | .ropeFrameForward _ _ _ => true
  | .ropeLos _ => true
  | .fwRsendStart => true
  | .imageOpen _ _ _ _ => true
  | .imageData _ _ _ _ _ => true
  | .imageClose _ _ _ => true
  | .ropeAck _ _ _ => true
  | .ropeNak _ _ _ _ => true
  | .imageResendTimeout _ _ _ => true
  | .stageSectorErase _ => true
  | .stagingDone => true
  | .erase => true
  | .prog => true
  | .programPortDone => true
  | .dbgunlock => true
  | .ownunlock => true
  | .keyprog => true
  | .revoke => true
  | .ownerLockSet => true
  | .svncommit => true
  | .otpWrite => true
  | .crnWctlGo a _ => agentOk a
  | .cairnRecordWrite => true
  | .bypass _ => true
  | .idcode => true
  | .samplePreload _ _ => true
  | .extest _ _ => true
  | .clamp _ => true
  | .highz _ => true
  | .jtagReset _ => true
  | .completionTimeout _ _ => true
  | .linkUp speed width _ _ => decide (1 ≤ speed) && decide (speed ≤ 6) && [1, 2, 4, 8].contains width
  | .configWrite _ => true
  | .islandOffRead off bar _ => (bar == 0 && decide (off < 0x100000)) || (bar == 1 && decide (off < 0x2000000))
  | .badlenRequest off kind => decide (off < 0x100000) && decide (kind < 3)
  | .comparatorDeassert pcmp n _ _ => decide (n < if pcmp then 128 else 48)
  | .islandPowerDown n _ => decide (n < 22)
  | .delayLineLock isl => (isl == 10 || isl == 11)

end Sys2Proof
end

