-- ==== Sys2Proof/Tests/Slice0.lean ====
section
/-! SUPPORT. Small checks of the model against numbers that the manual writes out, ill-formed terms that WellFormed refuses, and
for each statement a state and operands that meet its hypotheses. -/

namespace Sys2Proof.Tests

set_option Elab.async false

open Sys2Proof Sys2Proof.Machine

/-- A part with every island on. -/
def allOn : World := { islOn := 0x3FFFFF }

/-- A state around a world. -/
def st (w : World) : State := { pending := [], mem := [], w := w }

/-- The state an outcome answers. -/
def after (s : State) : Host.Outcome State Fault Refusal → State
  | .next t => t
  | _ => s

/-- A core that runs in its own TCM at M level with room in its TSB. -/
def run : Core := { st := 1, pc := 0x2000, mode := 0xB, xvec := 0x100, tsbp := 16, tsbtop := 16, tsblim := 8 }

/-- The world in which core 0 is `k`. -/
def core0 (k : Core) : World := allOn.setCore 0 k

/-! ### Witnesses: general statements -/

theorem witness_step : ∃ s : State, ∃ c rest, s.pending = c :: rest := ⟨{ st allOn with pending := [.statclr] }, _, _, rfl⟩
theorem witness_idle : State.reset.pending = [] := rfl
theorem witness_memory_frame : mayStore .statclr = false := rfl
theorem witness_memory_form : State.reset.memOk := rfl

/-- The state in the handler after core 0 met a word that is outside the table. -/
def entered : State := after (st (core0 run)) (exec (.coreIll 0 0x0FC00000#32) (st (core0 run)))

theorem witness_entry : (core0 run).fetches 0 false ∧ opKnown (insOp 0x0FC00000) = false ∧ run.sb = [] ∧ run.tsblim < run.tsbp ∧ run.tsbp ≤ run.tsbtop
    ∧ run.tsbp ≤ 2048 ∧ run.mode % 4 ≠ 2 ∧ run.pc % 2 = 0 := by
  unfold World.fetches World.fetched
  decide +kernel
theorem witness_return : (∃ t, exec (.coreIll 0 0x0FC00000#32) (st (core0 run)) = .next t) ∧ entered.w.issues 0 0x09C00000 false
    ∧ insOp 0x09C00000 = 0x27 ∧ sysBad 0x09C00000 = false := by
  refine ⟨⟨_, rfl⟩, ?_⟩
  unfold World.issues World.fetches World.fetched
  decide +kernel

/-! ### Witnesses: registers and sensing -/

theorem witness_register_write : allOn.regOf 0x218 = some (R.GL_WAKEVEC, 0) ∧ allOn.regAbsent R.GL_WAKEVEC 0 = false
    ∧ (writers.find? fun e => e.1.id == R.GL_WAKEVEC.id) = none ∧ allOn.on 1 = true
    ∧ (R.GL_WAKEVEC.lay.any fun e => e.2.1.cut e.1 0xFFFF != 0) = true := by
  decide +kernel
theorem witness_register_off : ({ islOn := 3 } : World).blockOff 0x18000 = true ∧ ({ islOn := 3 } : World).on 1 = true
    ∧ ((core0 run).setOn 2 false).blockOff 0x18000 = true ∧ ((core0 run).setOn 2 false).awake 0 = true := by
  decide +kernel
theorem witness_register_timeout : (core0 run).regOf (0x21A / 4 * 4) = some (R.GL_WAKEVEC, 0) ∧ 0 < (core0 run).nCores ∧ (core0 run).awake 0 = true := by
  decide +kernel
/-- Core 0 waits for island 4 with this access. -/
def stalling (x : StallOp) : World := { core0 run with pwr := { stalls := [(0, 4, x)] } }

theorem witness_register_stall : ((stalling (.read 0x20000)).pwr.stalls.find? fun e => e.1 == 0) = some (0, 4, .read 0x20000) ∧ (stalling (.ins 0)).on 4 = true
    ∧ ((stalling (.write 0x20000 5 0)).pwr.stalls.find? fun e => e.1 == 0) = some (0, 4, .write 0x20000 5 0)
    ∧ (((stalling (.ins 0)).setOn 4 false).upTo 384000).on 4 = false ∧ (((stalling (.ins 0)).setOn 4 false).upTo 384000).past (.access 0) 3000 = true
    ∧ ((core0 run).setOn 2 false).stalled 0 = false ∧ (((core0 run).setOn 2 false).sf F.PM_AUTOWAKE_AW 0 4).f F.PM_AUTOWAKE_AW 0 = 4
    ∧ ((core0 run).setOn 2 false).f F.PM_AUTOWAKE_AW 0 = 0 := by
  decide +kernel

theorem witness_latching_reads : allOn.blockUp (R.RSC_SWRES.islandOf 1 23) ∧ 23 < allOn.nRails ∧ allOn.blockUp (R.PCC_SWRES.islandOf 1 127)
    ∧ allOn.blockUp (R.HKC_RES.islandOf 1 63) ∧ allOn.blockUp (R.FC_ENTC.islandOf 1 127) ∧ allOn.blockUp (R.TB_LO.islandOf 1 0)
    ∧ allOn.blockUp (R.TM_CNT_LO.islandOf 1 31) ∧ allOn.blockUp (R.TM_CAP_LO.islandOf 1 31) ∧ allOn.blockUp (R.PROT_RFTS_LO.islandOf 1 23)
    ∧ allOn.blockUp (R.PD_POSTB_LO.islandOf 1 3) ∧ allOn.blockUp (R.TR_TRIGTB_LO.islandOf 1 3) ∧ allOn.blockUp (R.BL_TKO_LO.islandOf 1 0)
    ∧ allOn.blockUp (R.EL_RACC_LO.islandOf 1 0) ∧ allOn.blockUp (R.SEC_NONCE.islandOf 1 0) ∧ (allOn.sf F.TM_CFG_CLKSRC 31 3).f F.TM_CFG_CLKSRC 31 = 3 := by
  unfold World.blockUp
  decide +kernel
theorem witness_latched_pair : regAt 19 256 = some (R.EL_RACC_LO, 0) ∧ (R.EL_RACC_LO, R.EL_RACC_HI) ∈ latchPairs
    ∧ allOn.regAbsent R.EL_RACC_LO 0 = false := by
  decide +kernel
theorem witness_holding_copy : allOn.regOf (4 * 28680) = some (R.BL_TKO_LO, 0) ∧ (reader R.BL_TKO_LO 0).isSome = true
    ∧ allOn.regAbsent R.BL_TKO_LO 0 = false := by
  decide +kernel

/-- Rail 3's sense converter enabled. -/
def sensing : World := allOn.sf F.RSC_CFG_EN 3 1

theorem witness_corr_step : (sensing.upTo 320).fb F.RSC_CFG_EN 3 = true ∧ (sensing.upTo 320).on (snIsl 3) = true ∧ (sensing.upTo 320).clk.tk % 320 = 0
    ∧ (200000000 : Int).natAbs ≤ 10000 * (sensing.upTo 320).corrFault 3 .gain ∧ 10000 * (sensing.upTo 320).corrFault 3 .gain < (200000001 : Int).natAbs
    ∧ mget 0 ((sensing.upTo 320).converter 3).applied 21 = 0 ∧ (sensing.upTo 320).f F.RSC_STAT_SLICE_FLT 3 = 0
    ∧ ((sensing.sf F.RSC_CFG_CORR_FRZ 3 1).upTo 320).fb F.RSC_CFG_CORR_FRZ 3 = true ∧ (sensing.upTo 320).fb F.RSC_CFG_CORR_FRZ 3 = false := by
  decide +kernel
theorem witness_reflost : sensing.on (snIsl 3) = true ∧ (idxs sensing.nRails fun n => snIsl n == snIsl 3 && sensing.f F.RSC_CFG_REFSEL n == 0) ≠ []
    ∧ (5000 : Int) < (5001 : Int).natAbs ∧ (-5000 : Int).natAbs ≤ 5000 := by
  decide +kernel
/-- Time for a result period of 1,000 µs has passed, and slice 2 is a LOOP slice. -/
theorem witness_software_result : (sensing.upTo 128000000).fb F.RSC_CFG_EN 3 = true ∧ (sensing.upTo 128000000).on (snIsl 3) = true
    ∧ ((sensing.upTo 128000000).converter 3).swAt + 128000 * ((sensing.upTo 128000000).f F.RSC_SWCFG_SWDIV 3 + 1) ≤ (sensing.upTo 128000000).clk.tk
    ∧ (([(2, (5 : Int))].filter fun x => (sensing.upTo 128000000).sliceSrc 3 x.1 == (sensing.upTo 128000000).f F.RSC_SWCFG_SWSRC 3
      && !((sensing.upTo 128000000).f F.RSC_STAT_SLICE_FLT 3).testBit x.1).map fun x => (sensing.upTo 128000000).convert 3 x.1 x.2) ≠ [] := by
  decide +kernel
theorem witness_slots : (allOn.sf F.LE_RSTATE_RSTATE 3 2).enabled 3 = true ∧ 1 < notLoop 0x5 ∧ allOn.enabled 3 = false ∧ notLoop 1 ≤ 1
    ∧ bitsOf 0x12 1 2 < 2 ∧ bitsOf 0x12 4 2 ≠ 3 := by
  decide +kernel
theorem witness_current_words : ∃ w l, (allOn.sf F.PCC_CFG_EN 5 1).currentWords false 5 [7] = (w, l) ∧ w.fb F.PCC_CFG_EN 5 = true
    ∧ (allOn.sf F.PCC_CFG_EN 5 1).fb F.PCC_CFG_EN 5 = true := ⟨_, _, rfl, by decide +kernel, by decide +kernel⟩

/-- Phase 5 has been in mid since time 0, its channel ready for autozero; 4,000 ns have passed. -/
def autozero (az : Option (Nat × Bool)) : World :=
  (((allOn.sf F.PCC_CFG_EN 5 1).sf F.PCC_CFG_AZ_EN 5 1).sf F.PW_EDGE_LVL 5 lvMid |>.setPhase 5 { az := az } |>.upTo 512000).settled 5

theorem witness_autozero : (autozero none).fb F.PCC_CFG_EN 5 = true ∧ (autozero none).fb F.PCC_CFG_AZ_EN 5 = true ∧ (autozero none).midFrom 5 = some 0
    ∧ 0 + 256000 + 131072 ≤ (autozero none).clk.tbq ∧ ((autozero none).phase 5).az = none ∧ ((autozero (some (0, false))).phase 5).az = some (0, false)
    ∧ (autozero (some (0, false))).midFrom 5 = some 0 ∧ (rdiv (16 * ((List.replicate 256 (163 : Int)).map ((autozero none).pccCode 5)).sum) 256).natAbs ≤ 2621
    ∧ 2621 < (rdiv (16 * ((List.replicate 256 (164 : Int)).map ((autozero none).pccCode 5)).sum) 256).natAbs := by
  decide +kernel
theorem witness_channel_result : allOn.on 6 = true ∧ pcIsl 5 = 6 ∧ 5 < allOn.nPhases ∧ (allOn.upTo 128000000).past (.pccSw 6) (1000 * (allOn.f F.PCC_SWCTL_SWDIV 0 + 1)) = true := by
  decide +kernel
/-- A housekeeping pass is at entry 5, which takes one code. -/
def pass5 : World := (((allOn.sf F.HKC_STAT_BUSY 0 1).sf F.HKC_STAT_ENTRY 0 5).start .hkcEntry).upTo 256000

theorem witness_housekeeping_entry : pass5.on 17 = true ∧ pass5.fb F.HKC_STAT_BUSY 0 = true ∧ pass5.f F.HKC_STAT_ENTRY 0 = 5
    ∧ [7].length = pass5.lf F.HKC_SEQ_REPEAT 5 + 1 ∧ pass5.past .hkcEntry (pass5.hkcTime 5) = true
    ∧ ((pass5.sf F.HKC_CTL_EN 0 1).hkcAt = 0) ∧ ((pass5.sf F.HKC_CTL_MODE 0 1).f F.HKC_CTL_TRIG 0 = 0) := by
  decide +kernel
theorem witness_housekeeping : (allOn.sf F.HKC_STAT_BUSY 0 1).fb F.HKC_STAT_BUSY 0 = true ∧ allOn.fb F.HKC_STAT_BUSY 0 = false
    ∧ (allOn.sf F.HKC_CTL_EN 0 1).fb F.HKC_CTL_EN 0 = true ∧ allOn.fb F.HKC_CTL_MODE 0 = false ∧ (allOn.sf F.HKC_CTL_MODE 0 1).fb F.HKC_CTL_MODE 0 = true
    ∧ (allOn.sf F.HKC_STAT_ENTRY 0 5).f F.HKC_STAT_ENTRY 0 = 5 ∧ (allOn.slf F.HKC_SEQ_LAST 5 1).lf F.HKC_SEQ_LAST 5 = 1
    ∧ (allOn.sf F.HKC_CTL_SWAP 0 1).fb F.HKC_CTL_SWAP 0 = true := by
  decide +kernel

/-! ### Witnesses: loop engine and intents -/

/-- Rail 3 regulates with updates of 2 rounds, its engine may take updates. -/
def regulating : World :=
  (((allOn.sf F.LE_RSTATE_RSTATE 3 rsRegulating).sf F.RSC_STAT_REFRDY 3 1).sf F.LE_STAT_ROUNDS_NOW 3 2).setRail 3 { running := true, engOn := true, firstUpd := true }

theorem witness_loop_update : (regulating.upTo 640).mayUpdate 3 = true ∧ ((regulating.upTo 640).rail 3).rampDown = false
    ∧ (List.replicate 16 (0 : Int)).length = 8 * (regulating.upTo 640).f F.LE_STAT_ROUNDS_NOW 3 ∧ ((regulating.upTo 640).engine 3).ref = 0
    ∧ ((regulating.setRail 3 { running := true, engOn := true, rampDown := true }).upTo 640).mayUpdate 3 = true
    ∧ (regulating.upTo 641).mayUpdate 3 = false := by
  decide +kernel
theorem witness_le_commit : allOn.on (leIsl 3) = true ∧ allOn.f F.LE_CTL_COMMIT 3 = 0 ∧ allOn.updating 3 = false ∧ (allOn.rail 3).calSaved = none
    ∧ ((allOn.sf F.LE_CTL_COMMIT 3 1).sf F.LE_CTL_COMMIT 3 0).leRefused 3 = none
    ∧ (∃ flag, (((allOn.sf F.LE_FORM_FORM 3 7).sf F.LE_CTL_COMMIT 3 1).sf F.LE_CTL_COMMIT 3 0).leRefused 3 = some flag) := by
  refine ⟨by decide +kernel, by decide +kernel, by decide +kernel, rfl, by decide +kernel, ?_⟩
  exact Option.isSome_iff_exists.1 (by decide +kernel)

/-! ### Witnesses: PWM and protection -/

/-- Phase 5 bound to rail 3, in the state given and with these items. -/
def boundAt (x : Nat) (h : Ph) : World := (((allOn.slf F.PW_BIND_EN 5 1).slf F.PW_BIND_RAIL 5 3).setPhSt 5 x).setPhase 5 h
/-- A high interval from tick 0 to tick 1,000. -/
def high : Ph := { hi := true, offAt := 1000 }

theorem witness_pwm_edges : (boundAt phBoot { nextStart := 9 }).railOf 5 = some 3 ∧ (boundAt phBoot {}).cot 3 = false ∧ (boundAt phBoot {}).phSt 5 = phBoot
    ∧ ((boundAt phBoot { nextStart := 9 }).upTo 9).clk.tbq = 9 ∧ ((boundAt phBoot { nextStart := 9 }).phase 5).loads = []
    ∧ (boundAt phActive {}).phSt 5 = phActive ∧ ((boundAt phActive high).phase 5).hi = true ∧ 1000 ≤ ((boundAt phActive high).upTo 1000).clk.tbq
    ∧ ((boundAt phActive high).upTo 999).clk.tbq < 1000 ∧ (boundAt phShed {}).settled 5 = boundAt phShed {} ∧ (boundAt phShed {}).phSt 5 = phShed
    ∧ ((boundAt phShed {}).phase 5).shedAt + 128 * (boundAt phShed {}).lf F.PW_SHEDMAX_SHEDMAX 3
      ≤ ((boundAt phShed {}).upTo (128 * (boundAt phShed {}).lf F.PW_SHEDMAX_SHEDMAX 3)).clk.tbq := by
  decide +kernel
/-- Phase 5 is low in its cycle, under diode emulation. -/
def emulating : World := (boundAt phActive { nextStart := 100000 }).slf F.PW_RAILCFG_DE 3 1

theorem witness_zero_cross : emulating.lf F.PW_RAILCFG_DE 3 = 1 ∧ emulating.railOf 5 = some 3 ∧ emulating.settled 5 = emulating
    ∧ (emulating.takeCode 5 (-8)).1.lvl 5 = lvLow ∧ (emulating.takeCode 5 (-8)).2 ≤ (emulating.takeCode 5 (-8)).1.lfs F.PW_ZC_ZCTHR 3 := by
  decide +kernel
theorem witness_rcommit : ∃ w : World, w.on (pwIslR 3) = true ∧ w.updating 3 = false ∧ 16000 ≤ w.f F.PW_PER_PER 3 ∧ w.f F.PW_PER_PER 3 ≤ 512000
    ∧ w.f F.PW_RAILPH_PH 3 < w.f F.PW_PER_PER 3 ∧ w.f F.PW_RAILCFG_MOD 3 ≤ 1 ∧ w.f F.PW_TLIM_TONMIN 3 + w.f F.PW_TLIM_TOFFMIN 3 < w.f F.PW_PER_PER 3 :=
  ⟨allOn.sf F.PW_PER_PER 3 16000, by decide +kernel⟩
theorem witness_pw_nreq : 1 % 64 ≠ 0 ∧ 64 % 64 = 0 ∧ (allOn.sf F.LE_STAT_RUN 3 1).updating 3 = true ∧ allOn.updating 3 = false := by decide +kernel
theorem witness_bcommit : allOn.on 11 = true ∧ allOn.f F.PW_CTL_BCOMMIT 1 = 0 ∧ allOn.f F.PW_CTL_BCOMMIT 0 = 0 ∧ allOn.on 10 = true
    ∧ (∀ p < allOn.nPhases, grpP p = 1 → ∀ r ∈ (allOn.bindAsk 1 false).bindRails p, allOn.updating r = false)
    ∧ (allOn.bindAsk 1 false).bindFaults 1 = []
    ∧ ((((allOn.sf F.PW_BIND_EN 65 1).sf F.PW_BIND_RAIL 65 12).sf F.PW_BIND_EN 64 1 |>.sf F.PW_BIND_RAIL 64 12).bindAsk 1 false).bindFaults 1 ≠ [] := by
  decide +kernel
/-- Ball KILL0_N, which rail 3 selects, with 64 ns periods. -/
def killing : World := (allOn.sf F.PW_KSEL_KL 3 1).slf F.PW_PER_PER 3 8192

theorem witness_kill_lines : killing.killBits (.ball 0) = [0] ∧ (killing.driveLines (.ball 0) true).linesOn 3 ≠ 0 ∧ killing.linesOn 3 = 0
    ∧ (((killing.driveLines (.ball 0) true).driveLines (.ball 0) false).upTo 9000).linesOn 3 = 0
    ∧ (((killing.driveLines (.ball 0) true).driveLines (.ball 0) false).upTo 9000).periodSince 3 0 = true
    ∧ ((((killing.sf F.PW_KSEL_KL 3 3).driveLines (.ball 1) true).driveLines (.ball 0) false).upTo 9000).linesOn 3 ≠ 0
    ∧ (((killing.driveLines (.ball 0) true).driveLines (.ball 0) false).upTo 9).periodSince 3 0 = false := by
  decide +kernel
theorem witness_rail_running : ∃ w : World, w.railEn 3 = true ∧ (w.rail 3).firstUpd = true ∧ (w.rail 3).engOn = true ∧ (w.rail 3).running = false
    ∧ (w.rail 3).enAt + 128 * w.f F.PW_ENCFG_ENDLY 3 ≤ w.clk.tbq ∧ w.rstate 3 = rsStarting :=
  ⟨(((allOn.sf F.PW_RSTAT_RAILEN 3 1).setRail 3 { firstUpd := true, engOn := true }).setRstate 3 rsStarting).upTo 8388608, by decide +kernel⟩
theorem witness_rail_en_fall : ∃ w : World, (w.rail 3).enFallDue = true ∧ w.rstate 3 = rsStopping
    ∧ (w.rail 3).disAt + 128 * w.f F.PW_ENCFG_OFFDLY 3 ≤ w.clk.tbq :=
  ⟨((allOn.setRail 3 { enFallDue := true }).setRstate 3 rsStopping).upTo 8388608, by decide +kernel⟩

/-- Rail 3 with response `x` to source `src`. -/
def responds (src x : Nat) : World := (allOn.setRstate 3 rsRegulating).sf F.PROT_RRESP (16 * 3 + src) x

theorem witness_raise : (responds 15 1).f F.PROT_RRESP (16 * 3 + 15) < 2 ∧ (responds 15 4).f F.PROT_RRESP (16 * 3 + 15) = 4 ∧ (responds 15 4).faulted 3 = false
    ∧ (responds 15 3).f F.PROT_RRESP (16 * 3 + 15) = 3
    ∧ ((responds 15 3).sf F.PROT_RCFG_HICMAX 3 2).f F.PROT_RFLT_RETRIES 3 < ((responds 15 3).sf F.PROT_RCFG_HICMAX 3 2).f F.PROT_RCFG_HICMAX 3
    ∧ ((responds 15 4).setRstate 3 rsLatched).faulted 3 = true ∧ ((responds 15 4).upTo 128).rfts 3 ≠ ((responds 15 4).upTo 128).tb
    ∧ (responds 15 3).rstate 3 ≠ rsOff ∧ (responds 15 3).rstate 3 ≠ rsStopping ∧ (responds 15 2).f F.PROT_RRESP (16 * 3 + 15) = 2
    ∧ ((responds 15 2).sf F.PROT_RCFG_ESCN 3 0).f F.PROT_RCFG_ESCN 3 = 0 := by
  decide +kernel
/-- Phase 5, high, with its comparator in the mode given, K = W = 1 and no blanking. -/
def compares (mode : Nat) : World :=
  (((boundAt phActive high).sf F.PROT_PCFG_MODE 5 mode).sf F.PROT_PBLK_K 5 1).sf F.PROT_PBLK_W 5 1 |>.sf F.PROT_PBLK_BLANK 5 0
/-- The filter of phase 5's comparator after one sample of `x` nV. -/
def sampled (mode : Nat) (x : Int) : World := (compares mode).sampleIn 5 ((compares mode).pcmpBit 5 0 x)
/-- The two comparators of rail 3 run with K = W = 1. -/
def vcompares : World :=
  [6, 7].foldl (fun w v => ((w.sf F.PROT_VCFG_EN v 1).sf F.PROT_VCFG_K v 1).sf F.PROT_VCFG_W v 1) (allOn.sf F.PROT_VSTAT_ARMED 7 1)

theorem witness_comparators : (compares 1).pcmpOn 5 1 = true ∧ (compares 2).pcmpOn 5 2 = true ∧ (compares 2).pcmpOn 5 0 = true ∧ (compares 2).settled 5 = compares 2
    ∧ majority ((sampled 1 1000000000).hist 5) ((sampled 1 0).f F.PROT_PBLK_K 5) ((sampled 1 0).f F.PROT_PBLK_W 5) = true
    ∧ majority ((sampled 1 (-1)).hist 5) ((sampled 1 0).f F.PROT_PBLK_K 5) ((sampled 1 0).f F.PROT_PBLK_W 5) = false
    ∧ (compares 2).railOf 5 = some 3 ∧ (compares 2).f F.PROT_PSTAT_OUT 5 = 0 ∧ (compares 2).lvl 5 = lvHigh ∧ ((compares 2).phase 5).forced = false
    ∧ ((compares 2).sf F.PROT_PSTAT_OUT 5 1).f F.PROT_PSTAT_OUT 5 ≠ 0 := by
  decide +kernel
theorem witness_voltage_comparators : vcompares.vcmpOn 6 = true ∧ vcompares.vcmpOn 7 = true ∧ vcompares.f F.PROT_VSTAT_OUT 6 = 0
    ∧ vcompares.f F.PROT_VSTAT_ARMED 7 ≠ 0
    ∧ majority ((vcompares.sampleIn 134 (vcompares.vcmpBit 6 1000000)).hist 134) (vcompares.f F.PROT_VCFG_K 6) (vcompares.f F.PROT_VCFG_W 6) = true
    ∧ majority ((vcompares.sampleIn 135 (vcompares.vcmpBit 7 (-1000000))).hist 135) (vcompares.f F.PROT_VCFG_K 7) (vcompares.f F.PROT_VCFG_W 7) = true
    ∧ majority ((vcompares.sampleIn 135 (vcompares.vcmpBit 7 1000000)).hist 135) (vcompares.f F.PROT_VCFG_K 7) (vcompares.f F.PROT_VCFG_W 7) = false
    ∧ (vcompares.sf F.PROT_VSTAT_OUT 7 1).f F.PROT_VSTAT_OUT 7 ≠ 0 := by
  decide +kernel

/-- Limits of rail 3 that a code of phase 5 meets, and its current word for the code. -/
def limited (hi neg : Nat) : World := (((boundAt phActive {}).sf F.PCC_CFG_EN 5 1).sf F.PROT_DLIM0_IPHLIM 3 hi).sf F.PROT_DLIM1_INEG 3 neg
def word5 (hi neg : Nat) (code : Int) : Int := ((limited hi neg).takeCode 5 code).2

theorem witness_digital_limits : (((limited 1 0).takeCode 5 100).1.f F.PROT_DLIM0_IPHLIM 3 : Int) < word5 1 0 100
    ∧ word5 1 0 (-100) < -(((limited 1 0).takeCode 5 (-100)).1.f F.PROT_DLIM1_INEG 3 : Int)
    ∧ word5 1000 1000 0 ≤ (((limited 1000 1000).takeCode 5 0).1.f F.PROT_DLIM0_IPHLIM 3 : Int)
    ∧ -(((limited 1000 1000).takeCode 5 0).1.f F.PROT_DLIM1_INEG 3 : Int) ≤ word5 1000 1000 0
    ∧ ((limited 1 0).takeCode 5 100).1.railOf 5 = some 3 := by
  decide +kernel
theorem witness_protection_times : (((allOn.setRail 3 { stopDue := true }).upTo 12800).rail 3).stopDue = true
    ∧ 0 + 1280 * (allOn.upTo 12800).f F.PROT_RCFG_KHOLD 3 ≤ (allOn.upTo 12800).clk.tbq
    ∧ (allOn.sf F.PROT_RESC_ESCDEC 3 1).f F.PROT_RESC_ESCDEC 3 ≠ 0 ∧ (allOn.upTo 128000).past (.esc 3) 1000 = true
    ∧ ((allOn.setRail 3 { running := true }).upTo 128000000).rail 3 = { running := true }
    ∧ 0 + 128000 * ((allOn.sf F.PROT_RTIME_HICTIME 3 1000).upTo 128000000).f F.PROT_RTIME_HICTIME 3 ≤ (allOn.upTo 128000000).clk.tbq
    ∧ ((allOn.sf F.LE_RSTATE_GATE 3 1).f F.LE_RSTATE_GATE 3 ≠ 0) ∧ allOn.faultQueued 3 = false ∧ allOn.paired = false := by
  decide +kernel
theorem witness_hiccup : (allOn.setRstate 3 rsHiccup).railEn 3 = false ∧ (allOn.setRstate 3 rsHiccup).clearConds 3 = true
    ∧ ((allOn.sf F.PROT_RTIME_HICTIME 3 1000).upTo 128000000).past (.hiccup 3) (1000 * (allOn.sf F.PROT_RTIME_HICTIME 3 1000).f F.PROT_RTIME_HICTIME 3) = true
    ∧ (allOn.setRstate 3 rsHiccup).f F.PROT_RCFG_HICMAX 3 ≤ 15
    ∧ (((allOn.setRstate 3 rsHiccup).sf F.PROT_VSTAT_OUT 6 1).clearConds 3 = false)
    ∧ ((allOn.setRstate 3 rsHiccup).sf F.PROT_RCFG_HICMAX 3 0).f F.PROT_RCFG_HICMAX 3 ≤ (allOn.setRstate 3 rsHiccup).f F.PROT_RFLT_RETRIES 3 := by
  decide +kernel
theorem witness_rclr : ∃ w : World, (∃ c ∈ w.cmd.queue, c.src = .firmware ∧ c.rail = 3) ∧ w.on (leIsl 3) = true :=
  ⟨{ allOn with cmd := { queue := [{ src := .firmware, op := .faultClear, rail := 3, stamp := 0 }] } }, ⟨_, List.mem_cons_self, rfl, rfl⟩, by decide +kernel⟩

/-! ### Witnesses: rings -/

/-- Ring 15 set up with 16 slots, as a command ring, in the state given. -/
def ring15 (x : Nat) : World := ((allOn.sf F.RING_CFG_SIZE 15 4).sf F.RING_CFG_TYPE 15 1).setRgState 15 x

theorem witness_doorbell : (ring15 rgRun).rgState 15 ≠ rgOff ∧ (ring15 rgRun).ringLen 15 = 16 ∧ (ring15 rgRun).f F.RING_TAIL_TAIL 15 = 0
    ∧ (ring15 rgRun).f F.RING_DONE_DONE 15 = 0 ∧ 15 < (ring15 rgRun).ringLen 15 ∧ (ring15 rgRun).ringLen 15 ≤ 16 ∧ (ring15 rgOff).rgState 15 = rgOff := by
  decide +kernel
theorem witness_ring_enable : (ring15 rgOff).rgType 15 ≠ 0 ∧ 4 ≤ (ring15 rgOff).f F.RING_CFG_SIZE 15 ∧ (ring15 rgOff).f F.RING_CFG_SIZE 15 ≤ 12
    ∧ (ring15 rgOff).f F.RING_CFG_LOCAL 15 = 0 ∧ ((ring15 rgOff).ring 15).stale = false ∧ ((ring15 rgOff).sf F.RING_CFG_SIZE 15 3).f F.RING_CFG_SIZE 15 < 4 := by
  decide +kernel
theorem witness_ring_disable : (ring15 rgRun).rgState 15 ≠ rgStandby ∧ (ring15 rgRun).rgPending 15 = 0
    ∧ ((ring15 rgRun).sf F.RING_HEAD_HEAD 15 1).rgPending 15 ≠ 0 ∧ (ring15 rgHalted).rgState 15 = rgHalted := by
  decide +kernel

/-- Ring 15 may fetch: one slot posted, the link ready. -/
def fetching : World := ((((ring15 rgRun).sf F.RING_TAIL_TAIL 15 1).sf F.RING_CTL_EN 15 1).sf F.HI_STAT_DLUP 0 1).sf F.HI_STAT_BME 0 1

theorem witness_fetch : fetching.linkReady = true ∧ fetching.mayFetch 15 = true ∧ fetching.nextFetch 15 = some (0, 1) ∧ fetching.rrTurn = some 15
    ∧ fetching.headReady = false ∧ fetching.pcie.np ≠ some 0 := by
  decide +kernel
theorem witness_descriptor : ∃ w : World, (w.ring 15).reads = (0, 1, 0) :: [] ∧ w.on 2 = true :=
  ⟨(ring15 rgRun).setRing 15 { reads := [(0, 1, 0)] }, by decide +kernel⟩
theorem witness_own : bitOf (fieldAt (List.replicate 64 0) 63 1) 7 = false ∧ bitOf (fieldAt (List.replicate 63 0 ++ [0x80]) 63 1) 7 = true := by decide +kernel
theorem witness_drain : ({ fetching with buf := [.msix 3] } : World).buf = .msix 3 :: [] ∧ ({ fetching with buf := [.msix 3] } : World).linkReady = true
    ∧ ({ fetching with buf := [.msix 3] } : World).headReady = true ∧ fetching.headReady = false ∧ fetching.blockedOn = none
    ∧ ({ fetching with buf := [.record { (default : HRec) with ring := 14, cls := 1 } false] } : World).blockedOn = some 14
    ∧ fetching.f F.RING_CTL_EN 15 ≠ 0 ∧ (fetching.ring 15).waitOn = none := by
  decide +kernel
theorem witness_event_ring : ∃ w : World, w.evtReady 14 = true ∧ w.ringGiven 14 ≠ 0 ∧ w.linkReady = true :=
  ⟨((((fetching.sf F.RING_CFG_SIZE 14 4).sf F.RING_CFG_TYPE 14 2).setRgState 14 rgRun).sf F.RING_TAIL_TAIL 14 1).sf F.RING_CTL_EN 14 1, by decide +kernel⟩
theorem witness_coalesce : ∃ w : World, w.f F.RING_ICOAL_TIME 15 ≠ 0 ∧ 0 < (w.ring 15).unsig ∧ w.past (.msix 15) (1000 * w.f F.RING_ICOAL_TIME 15) = true :=
  ⟨((allOn.sf F.RING_ICOAL_TIME 15 1).setRing 15 { unsig := 1 }).upTo 128000, by decide +kernel⟩
theorem witness_telemetry : ∃ w : World, w.on 2 = true ∧ w.f F.RING_TELCFG_PERIOD 0 ≠ 0
    ∧ w.past .telem (1000 * max 10 (w.f F.RING_TELCFG_PERIOD 0)) = true :=
  ⟨(allOn.sf F.RING_TELCFG_PERIOD 0 1).upTo 1280000, by decide +kernel⟩
theorem witness_link_up : allOn.on 1 = true ∧ 1 ≤ min 6 (allOn.f F.HI_LINKCAP_MAXSPEED 0) ∧ min 6 (allOn.f F.HI_LINKCAP_MAXSPEED 0) ≤ 6
    ∧ (linkWidth 8 (allOn.f F.HI_LINKCAP_MAXWIDTH 0)).isSome = true := by
  decide +kernel
theorem witness_island_off_read : (allOn.setOn 4 false).on ((0x20000 - 0x10000) / 0x4000) = false ∧ allOn.absent ((0x20000 - 0x10000) / 0x4000) = false
    ∧ (0x67FFC - 0x10000) / 0x4000 < 22 ∧ bar0Isl 0x20000 = some 4 ∧ (allOn.setOn 15 false).on 15 = false := by
  decide +kernel

/-! ### Witnesses: commands -/

/-- Rail 3 takes commands: DEPLOYED, its state as given. -/
def deployed (x : Nat) : World := (((allOn.sf F.LC_STATE_STATE 0 3).slf F.PW_BIND_EN 5 1).slf F.PW_BIND_RAIL 5 3).setRstate 3 x

theorem witness_turn_free : (deployed rsRegulating).turnFree 3 ∧ (deployed rsRegulating).rstate 3 = rsRegulating ∧ (deployed rsRegulating).targetCode 3 1 ≤ 262143
    ∧ (deployed rsOff).turnFree 3 ∧ (deployed rsOff).rstate 3 ≤ rsRegulating ∧ (deployed rsRegulating).updating 3 = false := by
  unfold World.turnFree
  decide +kernel
/-- Rail 3 regulates and takes updates. -/
def updatingRail : World := (deployed rsRegulating).sf F.LE_STAT_RUN 3 1
theorem witness_turn_boundary : updatingRail.turnFree 3 ∧ updatingRail.rstate 3 = rsRegulating ∧ updatingRail.targetCode 3 1 ≤ 262143 ∧ updatingRail.updating 3 = true := by
  unfold World.turnFree
  decide +kernel
theorem witness_due : ∃ (w : World) (c : Cmd), w.dueOn 3 = some c ∧ c.due = some 5 ∧ c.rails = [(3, c.stamp)] ∧ w.paired = false ∧ w.cmd.waits = []
    ∧ c.op = .setTarget 1 0 :=
  let c : Cmd := { src := .firmware, op := .setTarget 1 0, rail := 3, stamp := 7, rails := [(3, 7)], due := some 5 }
  ⟨{ updatingRail with cmd := { queue := [c] } }, c, by decide +kernel⟩
/-- A SET_TARGET waits for the boundary, and a NOP behind it for the SET_TARGET (R229, R233). -/
theorem test_target_boundary : let w := (updatingRail.issue .firmware (.setTarget 1000 0) 3 0).issue .firmware .nop 3 0
    w.f F.LE_TARGET_CODE 3 = 0 ∧ w.turnOf 3 = none ∧ w.cmd.queue.length = 2
    ∧ (w.boundaryTurns 2 3).f F.LE_TARGET_CODE 3 = w.targetCode 3 1000 ∧ ((w.boundaryTurns 2 3).turnOf 3).isSome = true := by
  decide +kernel
theorem witness_fault_clear : ∃ w : World, w.clearOk 3 = true ∧ w.turnFree 3 :=
  ⟨{ deployed rsLatched with clk := { tbq := 2 ^ 40 } }, by unfold World.turnFree; decide +kernel⟩
theorem witness_calibrate : ∃ w : World, w.turnFree 3 ∧ w.rstate 3 = rsRegulating ∧ w.lf F.LE_FORM_FORM 3 = 1 ∧ w.inFlight 3 = [] ∧ w.boundTo 5 3 = true
    ∧ w.phSt 5 = phActive :=
  ⟨((deployed rsRegulating).slf F.LE_FORM_FORM 3 1).setPhSt 5 phActive, by unfold World.turnFree; decide +kernel⟩
theorem witness_rail_enable : ∃ w : World, w.turnFree 3 ∧ w.rstate 3 = rsOff ∧ w.targetCode 3 1 ≤ 262143
    ∧ w.lf F.LE_FORM_FORM 3 ≠ 0 ∧ w.f F.RSC_CFG_MODE 3 = 0 ∧ w.f F.RSC_CFG_REFSEL 3 ≠ 2 ∧ w.bound 3 ≠ [] :=
  ⟨(deployed rsOff).slf F.LE_FORM_FORM 3 1, by unfold World.turnFree; decide +kernel⟩
theorem witness_rail_disable : (deployed rsHiccup).turnFree 3 ∧ (deployed rsHiccup).rstate 3 ≠ rsOff ∧ (deployed rsHiccup).rstate 3 ≠ rsLatched
    ∧ (deployed rsStopping).turnFree 3 ∧ (deployed rsStopping).rstate 3 = rsStopping ∧ (deployed rsHiccup).rstate 3 = rsHiccup := by
  unfold World.turnFree
  decide +kernel

/-- A forecast's parameters, within their limits. -/
def fcPar : FcParam := { (default : FcParam) with start := 100000, step := 256, adv := 1023, cwin := 40, pclead := 1023, rise := 100, fall := 100, dwell := 100 }
/-- Rail 3 regulates with intents enabled. -/
def intents : World := (((((deployed rsRegulating).sf F.FC_CFG_EN 0 1).sf F.FC_RAILA_IEN 3 1).sf F.FC_RAILA_SPH 3 4095).sf F.FC_RAILA_NMAX 3 1).sf F.FC_RAILB_IPHMAX 3 65535

theorem witness_forecast : intents.turnFree 3 ∧ intents.rstate 3 = rsRegulating ∧ intents.fb F.FC_CFG_EN 0 = true ∧ intents.fb F.FC_RAILA_IEN 3 = true
    ∧ fcBad fcPar = none ∧ (intents.drawn (.forecast fcPar) 3).fcCheck 3 fcPar = none ∧ intents.freeIdx = some 0 := by
  unfold World.turnFree
  decide +kernel
theorem witness_forecast_cancel : ∃ w : World, w.turnFree 3 ∧ w.rstate 3 = rsRegulating ∧ (w.fc (261 % 128)).fid = 261 ∧ (w.fc (261 % 128)).rail = 3
    ∧ (w.fc (261 % 128)).st ∈ [FSt.wait, .run, .matched, .passive] :=
  ⟨intents.setFc 5 { st := .passive, fid := 261, rail := 3 }, by unfold World.turnFree; decide +kernel⟩
theorem witness_calibration_end : (deployed rsCalibrating).rstate 3 = rsCalibrating ∧ ((deployed rsCalibrating).rail 3).calEnds ≤ (deployed rsCalibrating).clk.tbq
    ∧ ((deployed rsCalibrating).sf F.LE_CALRES_COUNT 3 255).f F.LE_CALRES_COUNT 3 = 255 := by
  decide +kernel
theorem witness_gseq : (deployed rsOff).turnFreeG .nop ∧ (deployed rsOff).turnFreeG (.budgetSet 10 0 2) ∧ (deployed rsOff).turnFreeG .pmSentinel
    ∧ (∀ r < (deployed rsOff).nRails, (deployed rsOff).rstate r = rsOff ∨ (deployed rsOff).rstate r = rsLatched) := by
  unfold World.turnFreeG
  decide +kernel
theorem witness_update : (deployed rsOff).turnFreeG (.fwStage 64 64 4194240) ∧ ((deployed rsOff).drawnG (.fwStage 64 64 4194240)).updateRefused = none
    ∧ (deployed rsOff).turnFreeG (.fwActivate 1) ∧ 1 = (deployed rsOff).inactiveBank ∧ ((deployed rsOff).drawnG (.fwActivate 1)).updateRefused = none
    ∧ (deployed rsOff).turnFreeG (.cairnRead 256 8191 8192) := by
  unfold World.turnFreeG
  decide +kernel

/-- A NOP of rail 3 waits. -/
def waiting : World := { deployed rsOff with cmd := { queue := [{ src := .firmware, op := .nop, rail := 3, stamp := 7, rails := [(3, 7)] }] } }

theorem witness_command_turn : waiting.turnOf 3 = some { src := .firmware, op := .nop, rail := 3, stamp := 7, rails := [(3, 7)] } ∧ waiting.paired = false
    ∧ waiting.sentArmed = false ∧ waiting.pwr.sent = 0 ∧ waiting.f F.LE_RSTATE_GATE 3 = 0 ∧ waiting.f F.LC_STATE_STATE 0 ≠ 5 := by
  decide +kernel

/-! ### Witnesses: intents, interrupts and the ledger -/

theorem witness_hint : ∃ w : World, mget 0 (w.upTo 1).pins.hintSeen 15 = 0 + 1 ∧ (w.upTo 1).tb < 0 + 8 ∧ (w.upTo 1).on 8 = true :=
  ⟨{ allOn with pins := { hintSeen := [(15, 1)] } }, by decide +kernel⟩
theorem witness_hint_taken : ((allOn.sf F.HINT_CFG_EDGE 15 1).f F.HINT_CFG_EDGE 15).testBit 0 = true
    ∧ (∀ a, mget 0 (allOn.upTo 1).pins.hintSeen 15 = a + 1 → a + 8 ≤ (allOn.upTo 1).tb) :=
  ⟨by decide +kernel, fun a h => absurd (show (0 : Nat) = a + 1 from h) (by omega)⟩
theorem witness_hint_acts : ∃ w : World, w.hintsOn = true ∧ w.fb F.HINT_CFG_EN 15 = true ∧ w.fb F.FC_TPLA_EN (w.f F.HINT_CFG_TPL 15) = true ∧ w.heldOff 15 = false :=
  ⟨(allOn.sf F.HINT_CFG_EN 15 1).sf F.FC_TPLA_EN 0 1, by decide +kernel⟩
theorem witness_templates : allOn.f F.FC_TPLA_EN 31 = 0 ∧ allOn.tplBad 1 0 = false ∧ (∃ x, x < 7 ∧ allOn.tplBad x 0xFFFFFFFF = true)
    ∧ (allOn.sf F.FC_TPLA_EN 31 1).f F.FC_TPLA_EN 31 ≠ 0 := by
  decide +kernel

/-- Forecast 5 of rail 3, with these items. -/
def entry (f : Fc) : World := allOn.setFc 5 { f with rail := 3 }

theorem witness_reservations : ((entry { st := .wait }).fc 5).st = .wait ∧ ((entry { st := .wait }).fc 5).res = .none
    ∧ (entry { st := .wait }).raStart ((entry { st := .wait }).fc 5) ≤ ((entry { st := .wait }).clk.tk : Int) + 2560000
    ∧ (entry { st := .wait, res := .asked }).firstAsked 3 = some 5
    ∧ (∃ g, (entry { st := .wait, res := .asked }).grantOf 5 = some g) ∧ ((entry { st := .run, decision := some true }).fc 5).decision = some true
    ∧ ((entry { st := .run, decision := some false }).fc 5).decision = some false := by
  refine ⟨by decide +kernel, by decide +kernel, by decide +kernel, by decide +kernel, Option.isSome_iff_exists.1 (by decide +kernel), by decide +kernel, by decide +kernel⟩
theorem witness_refused_grant : ∃ w : World, w.grantOf 5 = none :=
  ⟨((entry { st := .wait, res := .asked, step := 1000000, dwell := 1000000, vref := 1000000 }).sf F.EL_CTL_EN 0 1).sf F.EL_RWIN_MODE 3 1, by decide +kernel⟩
theorem witness_precool : ((entry { st := .run, pcen := true, pclvl := 1, pcch := 3 }).fc 5).pcen = true ∧ allOn.f F.PD_CFG_EN 3 = 0
    ∧ (allOn.sf F.PD_CFG_EN 3 1).f F.PD_CFG_EN 3 ≠ 0 ∧ ((entry { st := .run, pcen := true, pclvl := 1, pcch := 3 }).fc 5).boosted = false
    ∧ ((entry { st := .run, pcen := true, pclvl := 1, pcch := 3 }).fc 5).start ≤ allOn.tb + 1000000 * 0 := by
  decide +kernel
theorem witness_outcome : ∃ w : World, ∃ o, (w.intent 3).outq.find? (fun o => o.fseq == (w.intent 3).relSeq % 65536) = some o :=
  ⟨allOn.setIntent 3 { outq := [default] }, _, rfl⟩
theorem witness_interrupts : ∃ e l, icReal e = true ∧ icLevel e = false ∧ icReal l = true ∧ icLevel l = true ∧ e ∈ ({ allOn with irqEdge := [e] } : World).irqEdge :=
  ⟨0x030, 0, by decide +kernel⟩
theorem witness_offer : allOn.icLvl 511 ≠ bitsOf 1 0 4 ∧ allOn.f F.IC_SEM_HOLDER 7 = 0xF ∧ (allOn.sf F.IC_SEM_HOLDER 7 8).f F.IC_SEM_HOLDER 7 ≠ 0xF := by
  decide +kernel
theorem witness_ledger : (allOn.sf F.EL_INCFG_EN 3 1).f F.EL_INCFG_EN 3 ≠ 0 ∧ (allOn.upTo 128000000).past (.stale 3) 1000000 = true
    ∧ (allOn.upTo 128000).past .ledger 1000 = true ∧ (allOn.upTo 1280000).past .self 10000 = true
    ∧ ((allOn.sf F.EL_SLIM_LO_L_LO 0 5).pair F.EL_SLIM_LO_L_LO F.EL_SLIM_HI_L_HI 0 < ((allOn.sf F.EL_SLIM_LO_L_LO 0 5).sf F.EL_SUSED_LO_U_LO 0 9).selfProjection)
    ∧ (allOn.sf F.EL_SWIN_MODE 0 1).f F.EL_SWIN_MODE 0 ≠ 0 ∧ allOn.f F.EL_SSTAT_ACT 0 < 15
    ∧ 10 * (allOn.sf F.EL_SLIM_LO_L_LO 0 5).selfProjection < 9 * (allOn.sf F.EL_SLIM_LO_L_LO 0 5).pair F.EL_SLIM_LO_L_LO F.EL_SLIM_HI_L_HI 0 := by
  decide +kernel

/-! ### Witnesses: power, reset and start-up -/

theorem witness_trim : ∃ w : World, w.on 21 = true ∧ w.fb F.PM_CFG_TRIMEN 0 = true ∧ w.trimIdle 21 ≠ 0 ∧ w.pwr.sent = 0
    ∧ w.past (.trim 21) (w.trimIdle 21) = true ∧ w.islBusy 21 = false ∧ ({ w with crn := { queue := [⟨1, 3, 0, 0, []⟩] } } : World).islBusy 16 = true
    ∧ ({ w with pwr := { gated := 2 ^ 21 } } : World).pwr.gated.testBit 21 = true :=
  ⟨((allOn.sf F.PM_CFG_TRIMEN 0 1).sf F.PM_TRIM_IDLE 21 5).upTo 128000, by decide +kernel⟩
theorem witness_hold : ∃ w : World, w.f F.PM_CFG_AUTOHOLD 0 = 1 ∧ w.pwr.hold = 0 ∧ w.pwr.sent = 0 ∧ w.coresIdle = true ∧ (∃ c < w.nCores, (w.core c).st = 2)
    ∧ ∀ c < w.nCores, (w.core c).st = 2 → w.past (.idle c) (1000 * w.f F.PM_HOLD_IDLE_IDLE 0) = true :=
  ⟨((core0 { run with st := 2 }).sf F.PM_CFG_AUTOHOLD 0 1).upTo 12800000, by decide +kernel⟩
theorem witness_wake : ∃ w : World, w.pwr.hold ≠ 0 ∧ w.wakeOk 1 0 = true ∧ w.wakeOk 2 0 = false :=
  ⟨({ allOn with pwr := { hold := 1 } } : World).sf F.PM_WAKE_EN_SRC 0 1, by decide +kernel⟩
theorem witness_sentinel_wake : ∃ w : World, w.wakeOk 1 0 = true ∧ w.pwr.off = false ∧ w.pwr.sent = 3 :=
  ⟨{ allOn with pwr := { sent := 3, wakeEn := 1 } }, by decide +kernel⟩
theorem witness_sentinel : ({ core0 run with sentArmed := true } : World).coresIdle = false ∧ allOn.f F.PM_CFG_AUTOSENT 0 = 0
    ∧ ({ allOn with sentArmed := true } : World).entries = [] ∧ ({ allOn with pwr := { sent := 0 } } : World).pwr.sent = 0
    ∧ (World.upTo { allOn with pwr := { sent := 1 } } 128000000).past .entry (1000 * allOn.f F.PM_ENTRYTO_TO 0) = true
    ∧ ({ allOn with pwr := { sent := 2 } } : World).nextDown.isSome = true ∧ ({ allOn with pwr := { sent := 3, ind := true } } : World).pwr.ind = true := by
  decide +kernel
theorem witness_island_down : ∃ n m v, ({ allOn with pwr := { sent := 2 } } : World).nextDown = some n
    ∧ (m, v) = ({ allOn with pwr := { sent := 2 } } : World).powerDown [] n 0 ∧ v.nextDown.isSome = true :=
  ⟨21, _, _, by decide +kernel, rfl, by decide +kernel⟩
theorem witness_islands : (deployed rsRegulating).islNeeded 19 = true ∧ (core0 run).absent 0 = false ∧ (core0 run).islNeeded 13 = false
    ∧ (core0 { run with st := 1 }).coreIsl 0 = 12 ∧ ((core0 run).core 0).st ≠ 0 ∧ ((core0 run).setOn 13 false).islNeeded 12 = false
    ∧ allOn.islNeeded 21 = false ∧ allOn.absent 21 = false ∧ (allOn.setOn 21 false).on 21 = false
    ∧ allOn.pwr.toStart.testBit 21 = false ∧ (allOn.sf F.PM_PADCFG_LX0960 0 1).f F.PM_PADCFG_LX0960 0 ≠ 0 ∧ allOn.f F.PM_PADCFG_LX0960 0 = 0 := by
  decide +kernel
theorem witness_cairn : ({ allOn with wiping := 2 ^ 14 } : World).wiping.testBit 14 = true ∧ allOn.wiping.testBit 14 = false ∧ allOn.crn.drops = 0
    ∧ ∃ r l, ({ allOn with crn := { queue := [⟨1, 3, 0, 0, []⟩] } } : World).crn.queue = r :: l := ⟨by decide +kernel, by decide +kernel, rfl, _, _, rfl⟩
theorem witness_core_reset : (core0 run).on ((core0 run).coreIsl 0) = true ∧ 0 < (core0 run).nCores ∧ keyField (F.PM_CFG_TRIMEN.key 0) = some (R.PM_CFG, F.PM_CFG_TRIMEN)
    ∧ F.PM_CFG_TRIMEN.cls ≠ .never := by
  decide +kernel
theorem witness_warm : ({ allOn with pwr := { warm := some 4 } } : World).pwr.warm ≠ none ∧ allOn.pwr.warm = none
    ∧ ¬ (allOn.role = roActive ∧ allOn.f F.BL_STAT_PARTNER 0 = 1 ∧ allOn.bly.pSync = true) := by
  decide +kernel
theorem witness_warm_active : ∃ w : World, w.pwr.warm = none ∧ w.role = roActive ∧ w.f F.BL_STAT_PARTNER 0 = 1 ∧ w.bly.pSync = true :=
  ⟨({ allOn with bly := { pSync := true } } : World).setRole roActive |>.sf F.BL_STAT_PARTNER 0 1, by decide +kernel⟩
theorem witness_warm_islands : ∃ w : World, w.pwr.warm = some 4 ∧ w.clk.tk < w.pwr.warmAt + 12800000 ∧ ∃ r < w.nRails, w.railEn r = true :=
  ⟨({ allOn with pwr := { warm := some 4 } } : World).sf F.PW_RSTAT_RAILEN 3 1, by decide +kernel⟩
theorem witness_warm_islands_late : ∃ w : World, w.pwr.warm = some 4 ∧ w.pwr.warmAt + 12800000 ≤ w.clk.tk :=
  ⟨{ allOn with pwr := { warm := some 4 }, clk := { tk := 12800000 } }, by decide +kernel⟩
theorem witness_epoch : ∃ w : World, w.pins.blpair = true ∧ w.f F.BL_CFG_EN 0 = 1 ∧ w.role ≠ roActive ∧ w.beats = false :=
  ⟨({ allOn with pins := { blpair := true } } : World).sf F.BL_CFG_EN 0 1, by decide +kernel⟩
theorem witness_miscompare : (core0 run).split = false ∧ (core0 run).on ((core0 run).coreIsl 0) = true ∧ ((core0 run).core 0).st ≠ 0 := by decide +kernel
theorem witness_supplies : ({ allOn with pwr := { phase := 0 } } : World).pwr.off = false ∧ ({ allOn with pwr := { off := true } } : World).pwr.off = true
    ∧ ({ allOn with pwr := { phase := 1 } } : World).pwr.phase = 1 ∧ ({ allOn with pwr := { ind := true } } : World).pwr.ind = true
    ∧ ({ allOn with pwr := { phase := 2 } } : World).pwr.phase = 2 := by
  decide +kernel
theorem witness_island_start : (World.upTo { islOn := 1, pwr := { phase := 2, toStart := 2 ^ 21 } } 12800000).mayStart 21 = true ∧ allOn.mayStart 21 = false := by decide +kernel
theorem witness_core_start : ((deployed rsOff).core 0).st = 0 ∧ (deployed rsOff).tcmReady 0 = true ∧ (deployed rsOff).coresFree = true ∧ (deployed rsOff).recovery = false
    ∧ (deployed rsOff).fb F.LS_STAT_HELD 0 = false ∧ allOn.coresFree = false := by
  decide +kernel

/-- OTP with Base Camp entry 7 for rail 3: enabled, phase 5 to 6 and nominal values. -/
def camp : World :=
  { (deployed rsOff).sf F.GL_BOOTOPT_BCEN 0 1 with otp := [(70, 1 + 2 * 3 + 2 ^ 16 * 5 + 2 ^ 23), (71, 50000 + 2 ^ 20), (72, 0x4000 + 2 ^ 16), (73, 0)] }

/-- The camp with time for entry 7's start behind it, and the rail in the state given. -/
def camped (x : Nat) : World := ((camp.setRstate 3 x).sf F.LE_RSTATE_GATE 3 1).upTo 100000000

theorem witness_base_camp : allOn.bcOn = false ∧ camp.bcOn = true ∧ (camped rsOff).bcOn = true ∧ ((camped rsOff).bcTaken 8).contains 7 = true
    ∧ (camped rsOff).bcRail 7 = 3 ∧ (camped rsOff).fb F.LE_RSTATE_GATE 3 = true ∧ ((camped rsOff).f F.GL_BCSTAT_STARTED 0).testBit 7 = false
    ∧ (camped rsOff).padsOwned = true ∧ (camped rsOff).afterT1 (48000 + 10000 * bitsOf ((camped rsOff).bcEntry 7 0) 6 6) = true
    ∧ (camped rsOff).rstate 3 = rsOff ∧ (camped rsLatched).rstate 3 ≠ rsOff := by
  decide +kernel
theorem witness_crystal : (World.upTo { pwr := { phase := 1 } } 256000000).past .xtal 2000000 = true
    ∧ ({ pwr := { phase := 1 } } : World).past .xtal 2000000 = false := by
  decide +kernel

/-! ### Witnesses: security, flash and the rope -/

theorem witness_unlock : (deployed rsOff).sec.fresh = false ∧ (deployed rsOff).f F.LC_STATE_STATE 0 = 3 ∧ allOn.on 20 = true := by decide +kernel
theorem witness_keys : ((allOn.sf F.SEC_AUTHCTL_ARG 0 7).sf F.LC_STATE_STATE 0 2).f F.SEC_AUTHCTL_ARG 0 = 7 ∧ (allOn.f F.SEC_KEYSTAT_FILLED 0).testBit 7 = false
    ∧ (allOn.f F.SEC_KEYSTAT_FILLED 0).testBit 0 = true := by
  decide +kernel
theorem witness_minimum_version : ∃ m : Mem, allOn.f F.SEC_SVNMIN_SVN 0 < hdr m (allOn.f F.FW_STAT_ACTIVE 0) 12 4
    ∧ ¬ hdr m (allOn.f F.FW_STAT_ACTIVE 0) 12 4 ≤ allOn.f F.SEC_SVNMIN_SVN 0 ∧ hdr (Mem.setBytes m (bankByte 0 + 12) [0, 0, 0, 0]) 0 12 4 ≤ 0 :=
  ⟨Mem.setBytes [] (bankByte 0 + 12) [5, 0, 0, 0], by decide +kernel⟩
theorem witness_otp : (allOn.sf F.SEC_OTPCTL_WORD 0 78).f F.SEC_OTPCTL_WORD 0 = 78 ∧ 78 ∉ allOn.otpWr ∧ allOn.f F.LC_STATE_STATE 0 ≠ 2
    ∧ (allOn.sf F.LC_STATE_STATE 0 2).f F.LC_STATE_STATE 0 = 2 := by
  decide +kernel
theorem witness_life_cycle : lcClass (deployed rsOff).lcState 1 = none ∧ (deployed rsOff).f F.LC_STAT_BUSY 0 = 0 ∧ (deployed rsOff).pwr.warm = none
    ∧ ((allOn.sf F.LC_STATE_WIPEPEND 0 1).sf F.GL_BOOTSTAT_STAGE 0 5).f F.LC_STATE_WIPEPEND 0 = 1 := by
  decide +kernel
theorem witness_boot : ∃ w : World, w.f F.GL_BOOTSTAT_STAGE 0 = 2 ∧ w.tcmReady 0 = true ∧ w.coresFree = true ∧ (w.core 0).st = 0 ∧ w.f F.LC_STATE_WIPEPEND 0 = 0
    ∧ w.bankCheck [] (w.f F.FW_STAT_BOOTSEL 0) false ≠ 1 ∧ (w.checkBank [] (w.f F.FW_STAT_BOOTSEL 0) 0).1.bankCheck [] (1 - w.f F.FW_STAT_BOOTSEL 0) false ≠ 1 :=
  ⟨(deployed rsOff).sf F.GL_BOOTSTAT_STAGE 0 2, by decide +kernel⟩

/-- A staging of 64 bytes for bank 1, and one with no byte left. -/
def staging (pos : Nat) : FwJob := ⟨some { src := .firmware, op := .fwStage 64 64 0, rail := 0xFF, stamp := 0 }, 64, 1, 0, 64, pos⟩

theorem witness_staging : ({ allOn with fwq := [staging 0] } : World).fwq = staging 0 :: [] ∧ (staging 0).sectorLen ≠ 0 ∧ (staging 64).sectorLen = 0
    ∧ ({ allOn with fwq := [staging 0] } : World).updateRefused = none ∧ fetching.linkReady = true ∧ fetching.headReady = false ∧ fetching.pcie.np ≠ some 0 := by
  decide +kernel
theorem witness_program_port : allOn.fwp = none ∧ inSettings 0x011DFFFF = false ∧ inSettings 0x011E0000 = true ∧ inSettings 0x011FFFE0 = true ∧ 0x011FFFE0 % 32 = 0
    ∧ (allOn.sf F.FW_PADDR_ADDR 0 0x011FFFE0).f F.FW_PADDR_ADDR 0 = 0x011FFFE0 := by
  decide +kernel

/-- The rope is enabled; an image is on its way out, or in. -/
def roped (x : Side) : World := { allOn.sf F.SI_ROPECFG_EN 0 1 with side := x }

theorem witness_rope_images : allOn.f F.FW_RSEND_BUSY 0 = 0 ∧ (allOn.sf F.FW_RSEND_BUSY 0 1).f F.FW_RSEND_BUSY 0 ≠ 0
    ∧ (roped { tx := some ⟨5, 1, 0, 64, 2, 0, [], 0, 0⟩ }).ropeOn = true ∧ (roped { tx := some ⟨5, 1, 0, 64, 2, 0, [], 0, 0⟩ }).side.tx = some ⟨5, 1, 0, 64, 2, 0, [], 0, 0⟩
    ∧ (roped {}).side.rx = none ∧ (roped {}).f F.FW_RXCFG_EN 0 = 0 ∧ ((roped {}).sf F.FW_RXCFG_EN 0 1).f F.FW_RXCFG_EN 0 ≠ 0 ∧ (roped {}).fwq = []
    ∧ (roped {}).updateRefused = none := by
  decide +kernel

/-! ### Witnesses: cores -/

/-- Core 0 at an instruction of its own TCM with these items; the world it runs in. -/
def at0 (k : Core) : World := core0 k

theorem witness_arithmetic : (at0 run).issues 0 0x04000000 false ∧ insOp 0x01000000 = 4 ∧ insPair 0x00800040 = true ∧ (at0 run).issues 0 0x04C00000 true := by
  unfold World.issues World.fetches World.fetched
  decide +kernel
theorem witness_loads : (at0 { run with ar := [(2, 0x2100)] }).issues 0 0x05812002 false ∧ insOp 0x05812002 = 0x16 ∧ memBad 0x05812002 = false
    ∧ MemKind.ldD.bad (insD 0x05812002) = false ∧ run.mpuOk 0 0x2100 = true ∧ (at0 run).bus 0 0x2100 false false = .ok ∧ isReg 0x2100 = false
    ∧ run.overlap 0x2100 2 = none := by
  unfold World.issues World.fetches World.fetched
  decide +kernel
theorem witness_refused_loads : ({ run with mode := 0 } : Core).mpuOk 1 0x2100 = false ∧ (∃ x, (at0 run).bus 0 0x01000000 true false = .err x)
    ∧ ({ run with sb := [(0x2100, [1, 2])] } : Core).overlap 0x2100 2 = some (0, 0x2100, [1, 2]) := by
  refine ⟨by decide +kernel, ⟨0x12, by decide +kernel⟩, by decide +kernel⟩
theorem witness_waking_load : (((at0 run).setOn 15 false).sf F.PM_AUTOWAKE_AW 0 (2 ^ 15)).bus 0 0x00200000 false false = .wake 15 := by decide +kernel
theorem witness_compares : (at0 run).issues 0 0x0689A800 false ∧ insOp 0x0689A800 = 0x1A ∧ bitsOf 0x0689A800 16 3 < 7 ∧ (0x0689A800 : Nat).testBit 15 = true
    ∧ ({ run with pr := 3 } : Core).guard 0x183FFFFC = true ∧ (at0 { run with pr := 3 }).issues 0 0x183FFFFC false ∧ insOp 0x183FFFFC = 0x20 := by
  unfold World.issues World.fetches World.fetched
  decide +kernel
theorem witness_jumps : (at0 run).issues 0 0x09000000 true ∧ insOp 0x09000000 = 0x24 ∧ bitsOf 0x09000000 0 22 = 0 ∧ insOp 0x07400000 = 0x1D ∧ insOp 0x07800001 = 0x1E := by
  unfold World.issues World.fetches World.fetched
  decide +kernel
theorem witness_system : (at0 run).issues 0 0x0A000000 false ∧ insOp 0x0A000000 = 0x28 ∧ sysBad 0x0A000000 = false ∧ run.mode % 4 ≠ 0 ∧ run.tsbp = run.tsbtop
    ∧ csrKnown 0x15 = true ∧ csrLevel 0x15 true ≤ rank (run.mode % 4) ∧ run.writeTsb 0x15 0xFFFF = none ∧ (run.writeTsb 0x15 9).isSome = true := by
  unfold World.issues World.fetches World.fetched
  decide +kernel
theorem witness_gate : (0 : Nat) < ({ run with gaten := 1, gateb := 0x2200 } : Core).gaten ∧ (at0 run).memOff ((at0 run).coreAddr 0 0x2200) = false
    ∧ ({ run with gaten := 1 } : Core).gateBad (fun n => [0x3000, 0, 0x003].getD n 0) ((at0 run).inOwnTcm 0 0x2200 || isFlash 0x2200) = none := by
  decide +kernel
theorem witness_side_unit : (at0 run).issues 0 0x0E400000 false ∧ insOp 0x0E400000 = 0x39
    ∧ ({ run with side := [{ dst := some 2, val := 7, dz := true }] } : Core).side[0]? = some { dst := some 2, val := 7, dz := true }
    ∧ (0 : Int) + 5 = satS 72 (0 + 5) := by
  unfold World.issues World.fetches World.fetched
  decide +kernel
theorem witness_line_fill : ({ run with fills := [0x01000000] } : Core).fills.contains 0x01000000 = true ∧ allOn.memOff 0x01000000 = false := by decide +kernel
theorem witness_accept : ∃ w : World, (w.core 0).offer = some 192 ∧ (w.core 0).st = 1 ∧ w.awake 0 = true ∧ w.eligible 0 192 = true ∧ (w.pwr.stalls.any fun e => e.1 == 0) = false :=
  ⟨(((core0 { run with offer := some 192, mode := 0xF }).sf F.IC_CFG_LVL 192 15).sf F.IC_CFG_PEND 192 1).sf F.IC_MASK_MASK 6 0, by decide +kernel⟩
theorem witness_debug : (deployed rsOff).dbgOpen = false ∧ (allOn.sf F.LC_STATE_STATE 0 1).dbgOpen = true ∧ allOn.on 21 = true := by decide +kernel
theorem witness_strings : (at0 { run with wr := [(13, 1)], ar := [(6, 0x2100), (7, 0x2200)] }).issues 0 0x0C000000 false ∧ insOp 0x0C000000 = 0x30
    ∧ bitsOf 0x0C000000 1 18 = 0 ∧ run.w 13 = 0 ∧ ({ run with wr := [(13, 65535)] } : Core).w 13 = 65535
    ∧ (∀ e ∈ StrKind.movs.uses { run with ar := [(6, 0x2100), (7, 0x2200)] }, ({ run with ar := [(6, 0x2100), (7, 0x2200)] } : Core).mpuOk (b2n e.2) e.1 = true
      ∧ isReg e.1 = false ∧ (at0 run).bus 0 e.1 e.2 false = .ok) := by
  unfold World.issues World.fetches World.fetched
  decide +kernel
theorem witness_guards : ({ run with pr := 1 } : Core).guard 0x18400000 = false ∧ guardBad 0x18400000 = false ∧ (∃ i, guardBad i = true) ∧ sysBad 0x0A404001 = true
    ∧ ({ run with mode := 0 } : Core).mode % 4 = 0 ∧ ({ run with ar := [(0, 0x2101)] } : Core).a (insN 0x08800000) % 2 = 1 ∧ run.tsblim < run.tsbp
    ∧ ({ run with tsbp := 8 } : Core).tsbp ≤ ({ run with tsbp := 8 } : Core).tsblim := by
  refine ⟨by decide +kernel, by decide +kernel, ⟨0x80000000, by decide +kernel⟩, by decide +kernel⟩
theorem witness_fetch_refused : ∃ e, (at0 { run with pc := 0x40000 }).fetchBad 0 0x40000 = some e ∧ (at0 run).mayIssue 0 = true := ⟨0x15, by decide +kernel⟩

/-- A core at U level whose MPU region 7 covers 64 words at 0x2000 for everything, and region 0 the 2^20 words at 0. -/
def guarded : Core := { run with mode := 0, mpu := [(0x20, 20), (0x22, 0x71), (0x3C, 0x2000), (0x3E, 0x7F)] }

theorem witness_mpu : guarded.mode % 4 < 2 ∧ mget 0 guarded.mpu (0x20 + 4 * 7) = 0x2000 ∧ (mget 0 guarded.mpu (0x22 + 4 * 7)).testBit 0 = true
    ∧ guarded.mpuOk 0 0x203F = true ∧ guarded.mpuOk 0 0x200000 = false := by
  decide +kernel
theorem witness_divide : (at0 run).issues 0 0x0E400000 false ∧ insD 0x0E400000 % 2 = 0 ∧ insA 0x0E400000 % 2 = 0 ∧ insB 0x0E400000 % 2 = 0
    ∧ ({ run with wr := [(1, 0x8000)] } : Core).pair 0 = 0x80000000 ∧ sx 32 0x80000000 = -0x80000000 ∧ sx 32 0xFFFFFFFF = -1 := by
  unfold World.issues World.fetches World.fetched
  decide +kernel

/-! ### Witnesses: belay -/

/-- A part whose belay link is up, in this role. -/
def linked (role : Nat) (x : Bly) : World := ({ allOn with bly := x, pins := { blpair := true } } : World).setRole role |>.sf F.BL_STAT_LINKUP 0 1

theorem witness_frames : ∃ x : Frame, x.tries = 4 ∧ (linked roActive { sent := [x] }).bly.sent.find? (fun y => y.seq == x.seq) = some x
    ∧ (linked roActive { sent := [x] }).f F.BL_STAT_LINKUP 0 = 1 := ⟨⟨7, .ack 3, 0, 4⟩, rfl, rfl, by decide +kernel⟩
theorem witness_messages : (linked roStandby {}).role = roStandby ∧ (linked roStandby {}).bly.msgs = [] ∧ (linked roActive {}).role ≠ roStandby := by decide +kernel
theorem witness_snapshots : (linked roStandby { asm := some (9, 355, false) }).bly.asm = some (9, 355, false) ∧ (linked roStandby {}).bly.asm = none
    ∧ (linked roActive {}).follows = false ∧ (linked roStandby { diffAt := some 0 }).bly.diffAt = some 0 := by
  decide +kernel
theorem witness_partner_lost : ∃ w : World, w.f F.BL_STAT_PARTNER 0 = 1 ∧ w.bly.hbAt + 384000 ≤ w.clk.tk ∧ w.role = roStandby ∧ w.f F.BL_STAT_KAIN 0 = 0
    ∧ w.f F.BL_STAT_SYNC 0 = 1 :=
  ⟨({ linked roStandby {} with clk := { tk := 384000 } } : World).sf F.BL_STAT_PARTNER 0 1 |>.sf F.BL_STAT_SYNC 0 1, by decide +kernel⟩
theorem witness_ownership : ∃ w : World, w.pins.blpair = true ∧ w.f F.BL_CFG_EN 0 = 1 ∧ w.f F.BL_STAT_OWN 0 = 0 ∧ w.bly.handIn = none ∧ w.role = roSolo
    ∧ w.pins.blsel = false :=
  ⟨(linked roSolo {}).sf F.BL_CFG_EN 0 1, by decide +kernel⟩
theorem witness_pairing : (linked roSolo {}).pairErrs 0 (allOn.f F.LE_UCODE_VER_ROMVER 0) false false = [] ∧ (linked roSolo {}).pairErrs 1 0 true true ≠ []
    ∧ ((linked roSolo {}).sf F.BL_STAT_OWN 0 1).f F.BL_STAT_OWN 0 = 1 := by
  decide +kernel
theorem witness_handover : ((linked roActive { pSync := true }).sf F.BL_STAT_PARTNER 0 1).f F.BL_STAT_PARTNER 0 = 1 ∧ (linked roActive { pSync := true }).bly.pSync = true := by
  decide +kernel

/-! ### Witnesses: timers and the event fabric -/

theorem witness_timer_compare : (allOn.sf F.TM_STAT_ARMED 31 1).fb F.TM_STAT_ARMED 31 = true ∧ allOn.tmPassed 31 = true ∧ allOn.fb F.TM_STAT_ARMED 31 = false
    ∧ ((allOn.setTimer 31 { wraps := 1 }).timer 31).wraps ≠ 0 ∧ allOn.f F.TM_CFG_CLKSRC (31 + 1) ≠ 3 ∧ (allOn.sf F.TM_CTL_RUN 31 1).fb F.TM_CTL_RUN 31 = true
    ∧ (allOn.sf F.TM_CFG_CLKSRC 31 2).f F.TM_CFG_CLKSRC 31 = 2 ∧ (allOn.sf F.TM_INCNT_EN 63 1).tmSel tmInCnt 31 0 false = true
    ∧ allOn.tmSel tmInCnt 31 0 true = false ∧ allOn.clearsAt 31 0 = false ∧ ({ allOn with inputs := [(127, 1)] } : World).clearsAt 31 256 = true := by
  decide +kernel
theorem witness_timer_inputs : (allOn.sf F.TM_INSTART_EN 62 1).tmSel tmInStart 31 0 false = true
    ∧ (allOn.sf F.TM_INSTOP_EN 62 1).tmSel tmInStop 31 0 false = true ∧ (allOn.sf F.TM_INCLR_EN 62 1).tmSel tmInClr 31 0 false = true
    ∧ (allOn.sf F.TM_INCAP_EN 62 1).tmSel tmInCap 31 0 false = true ∧ allOn.tmSel tmInStart 31 0 false = false ∧ allOn.inputFree 31 0
    ∧ allOn.actedWith 63 0 = false ∧ (({ allOn with inputs := [(63, 1)] } : World).inputTaken 31 0).actedWith 63 0 = true
    ∧ ¬ ({ allOn with inputs := [(31, 1)] } : World).inputFree 31 100 := by
  unfold World.inputFree
  decide +kernel
theorem witness_ptm : (allOn.sf F.TB_SYNC_SRC 0 1).f F.TB_SYNC_SRC 0 = 1 ∧ allOn.follows = false ∧ allOn.linkReady = false ∧ fetching.linkReady = true
    ∧ ({ fetching with pcie := { ptm := true } } : World).pcie.ptm = true ∧ allOn.past .ptm (1000 * allOn.f F.HI_PTMCFG_INTERVAL 0) = false
    ∧ (allOn.upTo (128000 * allOn.f F.HI_PTMCFG_INTERVAL 0)).past .ptm (1000 * allOn.f F.HI_PTMCFG_INTERVAL 0) = true
    ∧ allOn.f F.TB_SYNC_FARLIM 0 * 128000 < (128 * (10 ^ 12 : Int)).natAbs := by
  decide +kernel
theorem witness_load : (0 : Nat) < ({ allOn with clk := { tbq := 128 } } : World).tb ∧ (∀ r < allOn.nRails, allOn.inFlight r = [])
    ∧ (∃ r < (entry { st := .run, fseq := 0 }).nRails, (entry { st := .run, fseq := 0 }).inFlight r ≠ []) := by
  decide +kernel
theorem witness_fabric : srcListed 0x0A9 = false ∧ srcListed 0x148 = true ∧ within 0x148 0x177 0x148 = true
    ∧ (∃ w : World, (w.sf F.EF_CH_SRC 0 0x148).lutLoop 0 = true) ∧ (allOn.sf F.EF_CH_SRC 255 0x148).lutLoop 0 = false
    ∧ (allOn.sf F.EF_WCFG_EN 31 1).fb F.EF_WCFG_EN 31 = true ∧ allOn.f F.EF_WCFG_CH 31 = 0 ∧ allOn.fb F.EF_WCFG_FALL 31 = false
    ∧ (allOn.sf F.EF_CH_SRC 223 0x1B7).f F.EF_CH_SRC 223 = 0x198 + 31 :=
  ⟨by decide +kernel, by decide +kernel, by decide +kernel, ⟨allOn.sf F.EF_LUTB_INEN 0 1, by decide +kernel⟩, by decide +kernel⟩
theorem witness_flip_flop : ((allOn.sf F.EF_FFCFG_EN 15 0xF).f F.EF_FFCFG_EN 15).testBit 3 = true ∧ allOn.inputFree (304 + 15) 0
    ∧ ¬ ({ allOn with inputs := [(303, 1)] } : World).inputFree (288 + 15) 100 ∧ allOn.f F.EF_FF_CLK 15 = 0 ∧ allOn.fb F.EF_FFCFG_CLKFALL 15 = false
    ∧ allOn.actedWith 319 0 = false ∧ (({ allOn with inputs := [(319, 1)] } : World).inputTaken 303 0).actedWith 319 0 = true := by
  unfold World.inputFree
  decide +kernel
theorem witness_filter : (allOn.sf F.EF_FLTA_EN 15 1).fb F.EF_FLTA_EN 15 = true ∧ (allOn.sf F.EF_FLTA_MODE 15 3).f F.EF_FLTA_MODE 15 = 3 ∧ allOn.f F.EF_FLTA_MODE 15 = 0
    ∧ allOn.fb F.EF_FLTA_FALL 15 = false ∧ (allOn.filter 15).due.length < 4 ∧ allOn.f F.EF_FLTA_N 15 ≤ (allOn.filter 15).cnt + 1
    ∧ ((allOn.setFilter 15 { due := [5] }).filter 15).due = 5 :: [] := by
  decide +kernel

/-! ### Witnesses: DMA and trace -/

/-- A MOVE of 8 words between classes `cls`, both at the start of shared SRAM in the part, with this shuffle argument. -/
def mvRaw (cls arg : Nat) : List Nat :=
  leBytes 2 0x0C01 ++ [0xFF, 0] ++ leBytes 4 0 ++ leBytes 8 0x00200000 ++ leBytes 8 0x00201000 ++ leBytes 2 8 ++ leBytes 2 1 ++ leBytes 4 0
    ++ leBytes 2 8 ++ leBytes 2 1 ++ leBytes 4 0 ++ [cls, arg] ++ List.replicate 22 0

/-- Channel 3 has this descriptor. -/
def dmaOf (j : DJob) : World := { allOn with dma := [(19, [j])] }

theorem witness_dma_wait : (dmaOf { raw := List.replicate 64 0 }).dmaWaiting 19 = some (0, { raw := List.replicate 64 0 })
    ∧ ({ raw := List.replicate 64 0 } : DJob).at 0 2 = 0 ∧ (dmaOf { raw := mvRaw 5 0 }).dmaWaiting 19 = some (0, { raw := mvRaw 5 0 })
    ∧ ({ raw := mvRaw 5 0 } : DJob).at 0 2 = 0x0C01 ∧ (∃ x, (dmaOf { raw := mvRaw 5 1 }).moveBad false { raw := mvRaw 5 1 } = some x) := by
  refine ⟨by decide +kernel, by decide +kernel, by decide +kernel, by decide +kernel, Option.isSome_iff_exists.1 (by decide +kernel)⟩
theorem witness_dma_read : (dmaOf { raw := mvRaw 5 0, started := true }).dmaReads 19 = some (0, { raw := mvRaw 5 0, started := true })
    ∧ (∀ v < 49, ((dmaOf { raw := mvRaw 5 0, started := true }).dmaReads v).isSome = true → v = 19)
    ∧ (({ fetching with dma := [(19, [{ raw := mvRaw 4 0, started := true }])] } : World).dmaReads 19).isSome = true ∧ allOn.memOff 0x00200000 = false
    ∧ (allOn.sf F.DMA_CHCTL_PRIO 3 1).dmaClass 18 < (allOn.sf F.DMA_CHCTL_PRIO 3 1).dmaClass 19 ∧ ({ raw := mvRaw 5 0 } : DJob).sHost = false ∧ ({ raw := mvRaw 4 0 } : DJob).sHost = true := by
  decide +kernel
theorem witness_dma_answer : ∃ b : Beat, b.err = 0 ∧ firstIdx ((dmaOf { raw := mvRaw 4 0, started := true, flight := [b] }).dmaQ 19) (fun j => !j.flight.isEmpty)
    = some (0, { raw := mvRaw 4 0, started := true, flight := [b] }) := ⟨⟨0, 8, [], 0, 0⟩, by decide +kernel⟩
theorem witness_dma_write : ((dmaOf { raw := mvRaw 5 0, started := true, issued := 8, got := List.replicate 8 7 }).dmaWrites 19).isSome = true
    ∧ (dmaOf { raw := mvRaw 5 0, started := true, issued := 8, got := List.replicate 8 7 }).writeTurn 19 = true
    ∧ ({ fetching with dma := [(19, [{ raw := mvRaw 1 0, started := true, issued := 8, got := List.replicate 8 7 }])] } : World).writeTurn 19 = true ∧ ({ raw := mvRaw 5 0 } : DJob).dHost = false
    ∧ ({ raw := mvRaw 1 0 } : DJob).dHost = true ∧ allOn.wipingAt 0x00201000 = false ∧ allOn.memOff 0x00201000 = false ∧ allOn.busyUnit 0x00201000 = none := by
  decide +kernel
theorem witness_dma_confirm : ({ raw := mvRaw 5 0, started := true, issued := 8, written := 8 } : DJob).written = ({ raw := mvRaw 5 0, started := true } : DJob).total
    ∧ ({ raw := mvRaw 5 0, started := true, issued := 8 } : DJob).count = 0 := by
  decide +kernel
theorem witness_dma_links : ({ fetching with pcie := { ph := some 100, pd := some 1000, np := some 1 } } : World).traceReady 64 = true
    ∧ ({ fetching with pcie := { np := some 1 } } : World).pcie.np ≠ some 0 ∧ fetching.traceReady 64 = true
    ∧ ∃ w : World, ∃ j l, w.writeTurn 48 = true ∧ w.crnRd = j :: l ∧ 256 * j.count ≤ j.pos + 64 :=
  ⟨by decide +kernel, by decide +kernel, by decide +kernel, { fetching with crnRd := [{ cmd := default, addr := 0, first := 0, count := 1, pos := 192 }] }, _, _,
    by decide +kernel, rfl, by decide⟩
theorem witness_dma_channel : allOn.chReserved 31 = false ∧ allOn.f F.DMA_CHSTAT_BUSY 31 = 0 ∧ (allOn.sf F.DMA_CHSTAT_BUSY 31 1).f F.DMA_CHSTAT_BUSY 31 ≠ 0
    ∧ (allOn.sf F.DMA_CHCTL_TRIGEN 31 1).fb F.DMA_CHCTL_TRIGEN 31 = true ∧ allOn.f F.DMA_CHCTL_TRIGCH 31 = 0
    ∧ allOn.fb F.DMA_CHCTL_TRIGFALL 31 = false ∧ allOn.inputFree (640 + 31) 0 ∧ ¬ ({ allOn with inputs := [(671, 1)] } : World).inputFree 671 100 := by
  unfold World.inputFree
  decide +kernel
theorem witness_shuffle : ({ raw := mvRaw 0x15 3 } : DJob).shuf = 1 ∧ ({ raw := mvRaw 0x15 3 } : DJob).shargBad = false ∧ 7 < ({ raw := mvRaw 0x15 3 } : DJob).total
    ∧ ({ raw := mvRaw 0x05 0 } : DJob).shuf = 0 ∧ ({ raw := mvRaw 0x05 0 } : DJob).shargBad = false := by
  decide +kernel

/-- Trace unit 3 in a state. -/
def tracing (x : Nat) : World := (allOn.sf F.TR_STAT_STATE 3 x).sf F.TR_SRC_EN 31 1

theorem witness_trace_arm : ∃ w : World, w.trRuns 3 = false ∧ w.armBad 3 = [] :=
  ⟨((tracing 0).sf F.TR_CFG_BANK0 3 11).sf F.TR_CFG_NBANK 3 1, by decide +kernel⟩
theorem witness_trace : allOn.armBad 3 ≠ [] ∧ (tracing 4).trRuns 3 = true ∧ (tracing 1).trState 3 = 1 ∧ 2 ≤ (tracing 2).trState 3 ∧ (tracing 3).trState 3 = 3
    ∧ (tracing 1).f F.TR_SRC_EN (8 * 3 + 7) ≠ 0 ∧ ((tracing 1).trc_ 3).drops = [] ∧ (tracing 1).f F.TR_RDSEQ_SEQ 3 ≤ 0 ∧ (tracing 1).f F.TR_SEQ_SEQ 3 < 1
    ∧ ((tracing 1).sf F.TR_CFG_TRIGEN 3 1).fb F.TR_CFG_TRIGEN 3 = true ∧ (tracing 4).trUntrigger 3 = tracing 4 ∧ ((tracing 2).trc_ 3).trigIdx = none
    ∧ (tracing 2).tb = (tracing 2).f F.TR_TRIGTB_LO_T_LO 3 + 2 ^ 32 * (tracing 2).f F.TR_TRIGTB_HI_T_HI 3 := by
  decide +kernel
theorem witness_bar2 : allOn.wiping.testBit 9 = false ∧ allOn.busyUnit (0x02000000 + 0x17FFFFF / 2) = none ∧ allOn.deadBank (0x02000000 + 0x17FFFFF / 2) = false
    ∧ (((tracing 1).sf F.TR_CFG_BANK0 3 11).sf F.TR_CFG_NBANK 3 1).busyUnit (0x02000000 + 0x17FFFFF / 2) = some 3
    ∧ ({ allOn with wiping := 2 ^ 9 } : World).wiping.testBit 9 = true := by
  decide +kernel

/-! ### Witnesses: pump drive and the side interfaces -/

theorem witness_slew : allOn.past (.amp 3) 100000 = false ∧ (allOn.upTo 12800000).past (.amp 3) 100000 = true
    ∧ (allOn.upTo 12800000).past .copy 100000 = true ∧ (allOn.upTo 12800000).on 18 = true := by
  decide +kernel
theorem witness_pump : allOn.fb F.PD_CFG_EN 3 = false ∧ (∃ d, ((allOn.setPump 3 { commit := some [1, 2, 3] }).pump 3).commit = some d)
    ∧ ((allOn.sf F.PD_CFG_EN 3 1).sf F.PD_CFG_MODE 3 1).f F.PD_CFG_MODE 3 = 1 ∧ (allOn.sf F.PD_MOTOR_SLEW 3 0).f F.PD_MOTOR_SLEW 3 = 0
    ∧ (allOn.sf F.PD_MOTOR_SLEW 3 1).f F.PD_MOTOR_SLEW 3 ≠ 0 ∧ allOn.ampTarget 3 < 2 ^ 16 ∧ allOn.f F.PD_AMPNOW_AMP 3 < 2 ^ 16 :=
  ⟨by decide +kernel, ⟨_, rfl⟩, by decide +kernel⟩
theorem witness_encoder : ∃ w : World, w.fb F.PD_CFG_EN 3 = true ∧ w.fb F.PD_CFG_SRC 3 = false ∧ (w.pump 3).freeAt ≤ w.clk.tk ∧ (w.pump 3).busy = true
    ∧ w.padsOwned = true ∧ w.encDue 3 = true ∧ (w.pump 3).wait = false ∧ w.encTakers 3 3 = [] ∧ (w.pump 3).prev = none ∧ w.f F.PD_ENCCFG_GRAY 3 = 0 :=
  ⟨(allOn.sf F.PD_CFG_EN 3 1).setPump 3 { busy := true }, by decide +kernel⟩
theorem witness_encoder_late : ((allOn.setPump 3 { freeAt := 9 }).clk.tk < ((allOn.setPump 3 { freeAt := 9 }).pump 3).freeAt) := by decide +kernel
theorem witness_pmbus : ∃ w : World, w.pmOn = true ∧ w.wpAllows 0x00 = true ∧ w.wpAllows 0x01 = true ∧ w.wpAllows 0x03 = true ∧ w.wpAllows 0x10 = true
    ∧ w.wpAllows 0x21 = true ∧ (w.f F.SI_PMCFG_WREN 0).testBit 0 = true ∧ (w.f F.SI_PMCFG_WREN 0).testBit 1 = true ∧ w.f F.SI_PMCFG_CLRF 0 = 0 :=
  ⟨(({ allOn with pmb := { wp := 0 } } : World).sf F.SI_PMCFG_EN 0 1).sf F.SI_PMCFG_WREN 0 3, by decide +kernel⟩
theorem witness_pmbus_off : ({ allOn with islOn := 1 } : World).pmOn = false ∧ allOn.wpAllows 0x01 = false ∧ 0x00FE ∉ pmCodes ∧ allOn.alertLow = false
    ∧ ∃ w : World, w.alertLow = true :=
  ⟨by decide +kernel, by decide +kernel, by decide +kernel, by decide +kernel, allOn.sf F.PROT_RFLT_LATCHED 3 1 |>.setCml 3 5, by decide +kernel⟩

/-- AVSBus port 3 answers, its address 0 mapped to rail 3. -/
def avs : World := (((allOn.sf F.SI_AVSMAP_EN 3 1).sf F.SI_AVSMAP_MAP 3 0x23).sf F.SI_AVSLIM_VMAX 3 1000).sf F.SI_AVSLIM_VMIN 3 500

theorem witness_avs : avs.avsOn 3 = true ∧ avs.avsRail 3 0 = some 3 ∧ avs.avsRail 3 1 = none ∧ avs.avsLimOk 3 1000 = true ∧ avs.avsLimOk 3 499 = false
    ∧ avs.busFull (.avs 3) = false
    ∧ ({ avs with cmd := { queue := List.replicate 4 { src := .avs 3, op := .nop, rail := 3, stamp := 0 } } } : World).busFull (.avs 3) = true := by
  decide +kernel
theorem witness_avs_temperature : ∃ w : World, ∃ x, w.railTemp 3 = some x :=
  ⟨allOn.slf F.HKC_SEQ_INPUT (allOn.f F.PROT_HKLIM_ENTRY 3) 32, Option.isSome_iff_exists.1 (by decide +kernel)⟩
theorem witness_i3c : (allOn.sf F.SI_I3CCFG_DA 0 9).i3cOn = true ∧ allOn.busOn = true ∧ allOn.fb F.SI_I3CCFG_DA 0 = false ∧ allOn.padsOwned = true
    ∧ ({ allOn with side := { ibi := true } } : World).side.ibi = true ∧ ({ allOn with side := { i3cEv := false } } : World).side.i3cEv = false
    ∧ (allOn.sf F.SI_I3CCFG_WAKEADDR 0 9).f F.SI_I3CCFG_WAKEADDR 0 = 9 := by
  decide +kernel
theorem witness_rope : (roped {}).ropeOn = true ∧ (roped {}).fb F.SI_ROPECFG_ROOT 0 = false ∧ ((roped {}).sf F.SI_ROPECFG_ROOT 0 1).fb F.SI_ROPECFG_ROOT 0 = true
    ∧ ((roped {}).sf F.SI_ROPECFG_SYNCPER 0 1).f F.SI_ROPECFG_SYNCPER 0 ≠ 0 ∧ (roped {}).tb % 1000 = 0 ∧ (roped {}).f F.TB_SYNC_SRC 0 ≠ 2
    ∧ (roped { enumAt := some 0 }).side.enumAt = some 0 ∧ ((roped {}).sf F.SI_ROPESTAT_NUMBERED 0 1).fb F.SI_ROPESTAT_NUMBERED 0 = true ∧ allOn.ropeOn = false := by
  decide +kernel
theorem witness_scan : allOn.scanFree = true ∧ (deployed rsRegulating).scanFree = false := by decide +kernel

/-! Hypotheses over the opaque values of Config (a signature that verifies, a hash that matches, an image that passes its
checks) have no witness that Lean can compute: the manual leaves the values open. -/

/-! ### WellFormed: each check refuses an ill-formed term -/

theorem test_ok_agent : (Instr.tbLoRead (.core 7)).ok = true ∧ (Instr.tbLoRead (.core 8)).ok = false ∧ (Instr.tbLoRead .host).ok = true := by decide
theorem test_ok_source : (Instr.nop (.ring 15 4095 false) 0xFF).ok = true ∧ (Instr.nop (.ring 16 0 false) 0).ok = false
    ∧ (Instr.nop (.ring 0 4096 false) 0).ok = false ∧ (Instr.nop (.avs 4) 0).ok = false ∧ (Instr.nop .gone 0).ok = false := by
  decide
theorem test_ok_value : (Instr.rscSlotWrite 23 0xFFFFFFFF).ok = true ∧ (Instr.rscSlotWrite 23 0x100000000).ok = false
    ∧ (Instr.rscSlotWrite 24 0).ok = false := by
  decide
theorem test_ok_address : (Instr.registerWrite .host 0xFFFFF 0 0).ok = true ∧ (Instr.registerWrite .host 0x100000 0 0).ok = false
    ∧ (Instr.registerWrite .host 0 0x100000000 0).ok = false ∧ (Instr.registerWrite .host 0 0 0x100000000).ok = false := by
  decide
theorem test_ok_index : (Instr.loopUpdate 24 0 [] [] none 0).ok = false ∧ (Instr.pcmpTrip 128 0 []).ok = false ∧ (Instr.vcmpTrip 48 0 []).ok = false
    ∧ (Instr.hintEdge 16 true 0).ok = false ∧ (Instr.trimGate 22).ok = false ∧ (Instr.reflost 6 0 0).ok = false ∧ (Instr.reflost 4 2 0).ok = false
    ∧ (Instr.bcommit 9 true).ok = false ∧ (Instr.commandTurn 0x110 0).ok = false := by
  decide

/-! ### Numbers of the manual: loop engines, phases, sensing -/

/-- R90: the listing's encodings, in step order. -/
theorem test_microwords : progVM3F.map MW.bits = [0x58000, 0x60000, 0x68000, 0x08040, 0x48820, 0x20023, 0x28026, 0x32000, 0x3AA00, 0x13085, 0x0B844,
    0x1BBAA, 0x13307, 0x0C042, 0x1C42C, 0x13308, 0x5482B, 0x13309, 0x43328, 0x88300] := by
  decide
/-- R90, R91 and the table of forms: the cycle counts N. -/
theorem test_form_lengths : progVM3F.length = 20 ∧ progVM3.length = 15 ∧ progCMF.length = 12 ∧ progCM.length = 7 ∧ progCOT.length = 10 ∧ progBC.length = 8 := by
  decide
/-- The blend of the worked rollback: the integrator before and after updates 1, 2, 4 and 8. -/
theorem test_blend : blendItem 1 1122304 73728 = 991232 ∧ blendItem 2 990720 73728 = 859721 ∧ blendItem 4 727783 73728 = 596972
    ∧ blendItem 8 203472 73728 = 73728 := by
  decide
/-- The worked scaling of VM3-F: DFF from 48,000 at VINK 2,048, and the lane's duty word from it. -/
theorem test_dff : ((((allOn.slf F.LE_VIN_VINK 4 2048).setEngine 4 { ref := 96000 * 256 }).sf F.RSC_DIVR_RATIO 4 16384).dffFrom 4 48000).engine 4
    = { ref := 96000 * 256, dff := 67108864 } ∧ dutyWord 67108864 = 0x100000 := by
  decide +kernel
/-- One period of PH005: the offset of rank 5 of 24, and the on-times of both words. -/
theorem test_pwm_times : cycleOffset 25600 5 24 = 5333 ∧ onTime 0x1C4B00 25600 = 2829 ∧ onTime 0x300000 25600 = 4800 := by decide
/-- The same period's adaptive dead time at 17,063 current words. -/
theorem test_dead_time : (((allOn.slf F.PW_DT_DTHL 4 256).slf F.PW_DTA_ADT 4 1).slf F.PW_DTA_DTK 4 8 |>.slf F.PW_DTA_DTMIN 4 64).dtHl 4 17063 = 123 := by
  decide +kernel
/-- 400 A on RL04: code 1,365 at KA 819,200. -/
theorem test_current_word : (((allOn.sf F.PCC_CFG_EN 0 1).sf F.PCC_KA_KA 0 819200).currentWord false 0 1365).2 = 17063 := by decide +kernel

/-! ### Numbers of the manual: intent and ledger -/

/-- The worked forecast of HINT2: N_need 24, ADV_eff 100 ns, LEAD 340 ns. -/
theorem test_lead : ((((allOn.sf F.FC_RAILA_SPH 4 1800).sf F.FC_RAILA_NMAX 4 24).sf F.FC_RAILB_IPHMAX 4 272).sf F.FC_RAILB_TPHADD 4 200
    |>.sf F.LE_STAT_ROUNDS_NOW 4 8 |>.sf F.PW_RSTAT_NREQ 4 4 |>.setEngine 4 { iest0 := some 10240 }).lead 4 { step := 6240, rise := 1000, adv := 100 }
    = (24, 12800, 43520) := by
  decide +kernel
/-- The reservation that is asked for, and the one held at the capped step. -/
theorem test_reservation : ({ vref := 96000 * 256 * 16384, rise := 1000, dwell := 312, fall := 1000 } : Fc).time2 = 2 * 5992
    ∧ ({ vref := 96000 * 256 * 16384 } : Fc).energy 6240 11984 = 1752660 ∧ ({ vref := 96000 * 256 * 16384 } : Fc).energy 2670 11984 = 749937 := by
  decide +kernel

/-! ### Numbers of the manual: register addresses, the core's words, timers, the pump -/

/-- PW_EDGE[17] at BAR0+0x38224, LE_COEF[4][3] at BAR0+0x3090C, CX_CTL[5] at BAR0+0x44040, PD_CFG of PD1 at BAR0+0x56200. -/
theorem test_addresses : allOn.regOf 0x38224 = some (R.PW_EDGE, 17) ∧ allOn.regOf 0x3090C = some (R.LE_COEF, 32 * 4 + 3) ∧ allOn.regOf 0x44040 = some (R.CX_CTL, 5)
    ∧ allOn.regOf 0x56200 = some (R.PD_CFG, 1) := by
  decide +kernel
/-- The fields of the loop of squares: LD.D W0:W1,[A2],#2; ADDI W10,W10,#-1; CMP.NE P1,W10,#0; MAC; (P1) BR -4; MAR W2:W3. -/
theorem test_core_words : insOp 0x05812002 = 0x16 ∧ insN 0x05812002 = 2 ∧ insAm 0x05812002 = 1 ∧ insOfs 0x05812002 = 2
    ∧ insOp 0x012ABFFF = 0x04 ∧ insD 0x012ABFFF = 10 ∧ insA 0x012ABFFF = 10 ∧ insImm 0x012ABFFF = -1
    ∧ insOp 0x0689A800 = 0x1A ∧ insPd 0x0689A800 = 1 ∧ bitsOf 0x0689A800 16 3 = 1 ∧ bitsOf 0x0689A800 10 4 = 10 ∧ insOp 0x0D800000 = 0x36
    ∧ insGp 0x183FFFFC = 1 ∧ insGn 0x183FFFFC = false ∧ insOp 0x183FFFFC = 0x20 ∧ sx 22 (bitsOf 0x183FFFFC 0 22) = -4
    ∧ insOp 0x0DC80000 = 0x37 ∧ insD 0x0DC80000 = 2 := by
  decide
/-- A compare across the wrap: passed at 0 ns, armed at 100 ns and at 200 ns, passed at 320 ns. -/
theorem test_compare : (allOn.setTimer 5 { cnt := 0xFFFFFFFFFF00, cmp := 0xFFFFFFFFFEFF }).tmPassed 5 = true
    ∧ (allOn.setTimer 5 { cnt := 0xFFFFFFFFFF64, cmp := 0xFFFFFFFFFF65 }).tmPassed 5 = false
    ∧ (allOn.setTimer 5 { cnt := 0xFFFFFFFFFFC8, cmp := 0x40 }).tmPassed 5 = false ∧ (allOn.setTimer 5 { cnt := 0x40, cmp := 0x40 }).tmPassed 5 = true := by
  decide +kernel
/-- Two frames 50,000 ns apart, 0x4000 counts: the speed word is 0x01388000. -/
theorem test_speed : ((allOn.setPump 0 { prev := some (0x120000, 50000), lastOk := true }).encValid 0 0x124000 0 100000).f F.PD_SPEED_SPEED 0 = 0x01388000 := by
  decide +kernel

end Sys2Proof.Tests
end

/-! The division of the side unit (R321): what `divOf` gives in each of its cases, and the arrival of a result. -/

namespace Sys2Proof.Machine

/-! ### Quotient and remainder -/

theorem divOf_unsigned {b : Nat} (a : Nat) (hb : b ≠ 0) : divOf true a b = (((a / b : Nat) : Int), ((a % b : Nat) : Int)) := by
  simp only [divOf, if_true, if_neg hb]

theorem divOf_unsigned_zero (a : Nat) : divOf true a 0 = (0xFFFFFFFF, (a : Int)) := rfl

theorem divOf_signed {a b : Nat} (hb : sx 32 b ≠ 0) (hov : ¬ (sx 32 a = -0x80000000 ∧ sx 32 b = -1)) :
    divOf false a b = ((sx 32 a).tdiv (sx 32 b), (sx 32 a).tmod (sx 32 b)) := by
  simp only [divOf, Bool.false_eq_true, if_false, if_neg hb, if_neg hov]

theorem divOf_signed_zero {a b : Nat} (hb : sx 32 b = 0) :
    divOf false a b = (if 0 ≤ sx 32 a then 0x7FFFFFFF else -0x80000000, sx 32 a) := by
  simp only [divOf, Bool.false_eq_true, if_false, if_pos hb]

theorem divOf_signed_overflow {a b : Nat} (ha : sx 32 a = -0x80000000) (hb : sx 32 b = -1) : divOf false a b = (0x7FFFFFFF, 0) := by
  have hne : sx 32 b ≠ 0 := by omega
  simp only [divOf, Bool.false_eq_true, if_false, if_neg hne, if_pos (And.intro ha hb)]

/-- A positive remainder has a positive dividend: that of a dividend not above 0 is the opposite of its magnitude's. -/
theorem pos_of_tmod_pos {x y : Int} (h : 0 < x.tmod y) : 0 < x := by
  refine Int.not_le.1 fun hx => ?_
  have hn : 0 ≤ (-x).tmod y := Int.tmod_nonneg y (Int.neg_nonneg_of_nonpos hx)
  rw [Int.neg_tmod] at hn
  omega

theorem neg_of_tmod_neg {x y : Int} (h : x.tmod y < 0) : x < 0 := by
  refine Int.not_le.1 fun hx => ?_
  have hn : 0 ≤ x.tmod y := Int.tmod_nonneg y hx
  omega

theorem natAbs_tmod_lt (x : Int) {y : Int} (hy : y ≠ 0) : (x.tmod y).natAbs < y.natAbs := by
  rw [Int.natAbs_tmod]
  exact Nat.mod_lt _ (Int.natAbs_pos.2 hy)

/-- Unsigned operands (R321): quotient and remainder of the naturals, or the results of a division by zero. -/
theorem divOf_unsigned_spec (a b : Nat) {q r : Int} (h : divOf true a b = (q, r)) :
    (b ≠ 0 → (a : Int) = q * b + r ∧ 0 ≤ r ∧ r < b) ∧ (b = 0 → q = 0xFFFFFFFF ∧ r = a) := by
  refine ⟨fun hb => ?_, fun hb => ?_⟩
  · rw [divOf_unsigned a hb] at h
    cases h
    exact ⟨by exact_mod_cast (Nat.div_add_mod' a b).symm, Int.natCast_nonneg _, by exact_mod_cast Nat.mod_lt a (Nat.pos_of_ne_zero hb)⟩
  · subst hb
    rw [divOf_unsigned_zero] at h
    cases h
    exact ⟨rfl, rfl⟩

/-- Signed operands (R321): truncation toward zero with the remainder on the dividend's side, or the results of the two corners. -/
theorem divOf_signed_spec (a b : Nat) {q r x y : Int} (hx : x = sx 32 a) (hy : y = sx 32 b) (h : divOf false a b = (q, r)) :
    (y ≠ 0 → ¬ (x = -0x80000000 ∧ y = -1) → x = q * y + r ∧ r.natAbs < y.natAbs ∧ (0 < r → 0 < x) ∧ (r < 0 → x < 0))
    ∧ (y = 0 → q = (if 0 ≤ x then 0x7FFFFFFF else -0x80000000) ∧ r = x)
    ∧ (x = -0x80000000 → y = -1 → q = 0x7FFFFFFF ∧ r = 0) := by
  subst hx hy
  refine ⟨fun hb hov => ?_, fun hb => ?_, fun ha hb => ?_⟩
  · rw [divOf_signed hb hov] at h
    cases h
    exact ⟨(Int.tdiv_mul_add_tmod _ _).symm, natAbs_tmod_lt _ hb, pos_of_tmod_pos, neg_of_tmod_neg⟩
  · rw [divOf_signed_zero hb] at h
    cases h
    exact ⟨rfl, rfl⟩
  · rw [divOf_signed_overflow ha hb] at h
    cases h
    exact ⟨rfl, rfl⟩

/-! ### The arrival of a result -/

theorem execSideUnitResult_next {s : State} {c n : Nat} {e : SideRes} (hc : c < s.w.nCores) (hon : s.w.on (s.w.coreIsl c) = true)
    (he : (s.w.core c).side[n]? = some e) : execSideUnitResult c n s
      = .next (s.withW ((s.w.setCore c { s.w.core c with side := (s.w.core c).side.eraseIdx n }).landResult c e)) := by
  have hrun : ¬ (s.w.nCores ≤ c ∨ s.w.on (s.w.coreIsl c) = false) := by simp [hc, hon]
  unfold execSideUnitResult
  simp only [onW_eq, if_neg hrun, he]

/-- A result for a pair leaves MDSTAT.DZ set when it was, or when it is that of a division by zero. -/
theorem landResult_dz (w : World) (c : Nat) {e : SideRes} {d : Nat} (hd : e.dst = some d) :
    ((w.landResult c e).core c).dz = ((w.core c).dz || e.dz) := by
  unfold World.landResult
  rw [hd]
  exact congrArg Core.dz (core_setCore _ _ _)

/-- Settles O43: the issue is that of `div_issue`, and the two operand kinds are the cases of `divOf`. -/
theorem divisionTruncatesTowardZero : Obligations.DivisionTruncatesTowardZero := by
  intro s c i k a b x y hiss hop hd ha hb hk ea eb hx hy
  refine ⟨?issue, ?arrival⟩
  case issue =>
    refine ⟨_, _, div_issue hiss hop hd ha hb k hk ea eb, fun hu => ?_, fun hu => ?_⟩
    · rw [hu]
      exact divOf_unsigned_spec a b rfl
    · rw [hu]
      exact divOf_signed_spec a b hx hy rfl
  case arrival =>
    intro n e d hc hon he hdst hdz
    refine ⟨_, execSideUnitResult_next hc hon he, ?_⟩
    calc _ = (_ || e.dz) := landResult_dz _ c hdst
      _ = true := by rw [hdz, Bool.or_true]

end Sys2Proof.Machine

/-! Memory protection (R344): which addresses an enabled region holds, and the region that decides. -/

namespace Sys2Proof.Machine

/-! ### What a region covers -/

/-- A region holds the 2^SIZE words from its BASE on: two addresses agree above their low SIZE bits iff one lies in the other's aligned block. -/
theorem inRegion_iff (k : Core) (a : Nat) {r size base : Nat}
    (hsize : size = if mget 0 k.mpu (0x20 + 4 * r) % 32 < 6 then 6 else mget 0 k.mpu (0x20 + 4 * r) % 32)
    (hbase : base = (mget 0 k.mpu (0x20 + 4 * r) / 64 * 64 + 65536 * mget 0 k.mpu (0x21 + 4 * r)) / 2 ^ size * 2 ^ size) :
    k.inRegion r a = true ↔ (mget 0 k.mpu (0x22 + 4 * r)).testBit 0 = true ∧ base ≤ a ∧ a < base + 2 ^ size := by
  have hmax : max 6 (mget 0 k.mpu (0x20 + 4 * r) % 32) = size := by
    rw [hsize]
    split <;> omega
  simp only [Core.inRegion, hmax, hbase, Bool.and_eq_true, beq_iff_eq, div_eq_iff]

/-! ### The region that decides -/

theorem mpuOk_of_highest_region {k : Core} {a r : Nat} (kind : Nat) (hlvl : k.mode % 4 < 2) (hr : r < 8) (hin : k.inRegion r a = true)
    (habove : ∀ q < 8, r < q → k.inRegion q a = false) :
    k.mpuOk kind a = (mget 0 k.mpu (0x22 + 4 * r)).testBit (if k.mode % 4 = 1 then 1 + kind else 4 + kind) := by
  have hfind : (List.range 8).reverse.find? (fun r => k.inRegion r a) = some r := find_high _ r hin 8 hr habove
  simp only [Core.mpuOk, if_neg (Nat.not_le.2 hlvl), hfind]

theorem mpuOk_of_no_region {k : Core} {a : Nat} (kind : Nat) (hlvl : k.mode % 4 < 2) (hnone : ∀ q < 8, k.inRegion q a = false) :
    k.mpuOk kind a = false := by
  have hfind : (List.range 8).reverse.find? (fun r => k.inRegion r a) = none := by
    simpa [List.find?_eq_none] using hnone
  simp only [Core.mpuOk, if_neg (Nat.not_le.2 hlvl), hfind]

/-- Settles O44: the registers' fields give `inRegion`, and the search from region 7 down ends at the highest one that holds the address. -/
theorem mpuHighestEnabledRegionDecides : Obligations.MpuHighestEnabledRegionDecides := by
  intro k kind a lo hi at_ size base hlvl hlo hhi hat hsize hbase
  simp only [hlo, hhi] at hsize hbase
  simp only [hat]
  have hiff := fun r => inRegion_iff k a (hsize r) (hbase r)
  have hout : ∀ q, ((mget 0 k.mpu (0x22 + 4 * q)).testBit 0 = true → a < base q ∨ base q + 2 ^ size q ≤ a) → k.inRegion q a = false := by
    refine fun q h => Bool.eq_false_iff.2 fun hin => ?_
    obtain ⟨hen, hlow, hhigh⟩ := (hiff q).1 hin
    have := h hen
    omega
  refine ⟨fun r hr hen hlow hhigh habove => ?decided, fun hnone => ?refused⟩
  case decided =>
    exact mpuOk_of_highest_region kind hlvl hr ((hiff r).2 ⟨hen, hlow, hhigh⟩) fun q hq hrq => hout q (habove q hq hrq)
  case refused =>
    exact mpuOk_of_no_region kind hlvl fun q hq => hout q (hnone q hq)

end Sys2Proof.Machine

/-! The steps of the block: the queue, the idle step, completion of every command, and the canonical form of the memories. -/

namespace Sys2Proof.Machine

/-! ### Completion and the frame of the memories -/

/-- Every command completes and leaves the queue. -/
theorem exec_completes (c : Instr) (s : State) : ∃ t, exec c s = .next t ∧ t.pending = s.pending := by
  cases c <;> exact ⟨_, rfl, rfl⟩

/-- A command outside `mayStore` leaves the addressed memories alone. -/
theorem exec_mem_of_not_mayStore {c : Instr} (s : State) (h : mayStore c = false) : ∃ t, exec c s = .next t ∧ t.mem = s.mem := by
  cases c <;> cases h <;> exact ⟨_, rfl, rfl⟩

/-! ### A step and the queue -/

/-- Settles O1: `step` is a case distinction on the queue. -/
theorem stepRunsTheFrontCommand : Obligations.StepRunsTheFrontCommand := by
  intro c rest s h
  simp only [step, h]

theorem step_idle {s : State} (h : s.pending = []) : step s = .next (s.withW (s.w.advance 128)) := by
  simp only [step, h, State.withW]

/-- Settles O2: time that passes moves the clock, the timers and the two fields of the timers alone. -/
theorem idleStepLetsTimePass : Obligations.IdleStepLetsTimePass := by
  intro s h
  obtain ⟨c, r, m, hv⟩ := advance_shape s.w 128
  have hkeeps : Keeps [F.TM_CTL_RUN.id, F.TM_STAT_ARMED.id] s.w (s.w.advance 128) := fun G hlt hmem j =>
    f_advance s.w 128 ⟨fun e => hmem (by simp [e]), fun e => hmem (by simp [e]), hlt⟩ j
  refine ⟨_, step_idle h, advance_clk s.w 128, hkeeps, ?_⟩
  rw [hv]
  exact ⟨rfl, rfl, rfl, rfl⟩

/-- Settles O3: a command acts on the state beside the queue, and one outside `mayStore` on the state beside the memories too. -/
theorem everyCommandCompletes : Obligations.EveryCommandCompletes := by
  intro c s
  obtain ⟨t, ht, hq⟩ := exec_completes c s
  refine ⟨t, ht, hq, fun h a => ?_⟩
  obtain ⟨u, hu, hm⟩ := exec_mem_of_not_mayStore s h
  obtain rfl : t = u := Host.Outcome.next.inj (ht.symm.trans hu)
  rw [hm]

/-! ### The canonical form of the memories -/

theorem wf_if {c : Prop} [Decidable c] {x y : Mem × World} (hx : x.1.wf = true) (hy : y.1.wf = true) : (if c then x else y).1.wf = true := by
  split
  · exact hx
  · exact hy

/-- A row of the instruction set, once its instruction keeps the form. -/
theorem form_row {s t : State} {c op : Nat} {i : BitVec 32} {mk : World → Ins} (hs : s.memOk) (ht : coreRow s c i op mk = .next t)
    (hx : ∀ v m w, Mem.wf m = true → ((mk v).go m w).formOk) : t.memOk := form_coreRow c i op mk hx hs ht

/-- An instruction that changes registers alone. -/
theorem form_regRow {s t : State} {c op : Nat} {i : BitVec 32} {bad : Bool} {regs : List Nat} {f : Core → Core} (hs : s.memOk)
    (ht : coreRow s c i op (regIns c bad regs f) = .next t) : t.memOk := form_row hs ht fun _ _ _ h => h

/-- A load or a store. -/
theorem form_memRow {s t : State} {c op : Nat} {i : BitVec 32} {x : MemKind} (hs : s.memOk)
    (ht : coreRow s c i op (memIns c i.toNat x) = .next t) : t.memOk := form_row hs ht fun _ _ w h => formOk_memGo w c _ x false h

/-- A string instruction. -/
theorem form_strRow {s t : State} {c op : Nat} {i : BitVec 32} {x : StrKind} {limit : Option Nat} (hs : s.memOk)
    (ht : coreRow s c i op (strIns c i.toNat x limit) = .next t) : t.memOk := form_row hs ht fun _ _ w h => formOk_strGo w c _ x limit false h

theorem form_corePmov {s t : State} {c : Nat} {i : BitVec 32} (hs : s.memOk) (ht : execCorePmov c i s = .next t) : t.memOk := by
  refine form_row hs ht fun v m w h => ?_
  split <;> exact h

theorem form_coreMovaw {s t : State} {c : Nat} {i : BitVec 32} (hs : s.memOk) (ht : execCoreMovaw c i s = .next t) : t.memOk := by
  refine form_row hs ht fun v m w h => ?_
  unfold movawIns
  split <;> exact h

theorem form_coreWait {s t : State} {c : Nat} {i : BitVec 32} (hs : s.memOk) (ht : execCoreWait c i s = .next t) : t.memOk := by
  refine form_row hs ht fun v m w h => ?_
  dsimp only
  generalize w.irqFor c = b
  cases b
  · exact h
  · exact formOk_ite h

theorem form_coreCsrw {s t : State} {c : Nat} {i : BitVec 32} (hs : s.memOk) (ht : execCoreCsrw c i s = .next t) : t.memOk := by
  refine form_row hs ht fun v m w h => ?_
  dsimp only
  split
  · split <;> exact h
  · exact h

theorem form_holdingCopyRead {s t : State} {c addr : Nat} (hs : s.memOk) (ht : execHoldingCopyRead c addr s = .next t) : t.memOk := by
  refine form_onM _ (fun m w h => wf_if h ?_) hs ht
  split
  · exact h
  · exact wf_if h (wf_if (wf_offRequest w c _ _ _ h) h)

theorem form_requestTimeout {s t : State} {a : Agent} {addr : Nat} (hs : s.memOk) (ht : execRegisterRequestTimeout a addr s = .next t) :
    t.memOk := by
  refine form_onM _ (fun m w h => wf_if h ?_) hs ht
  cases a with
  | host => exact h
  | core c => exact wf_busError w c _ _ h

theorem form_elLoRead {s t : State} {a : Agent} {addr : Nat} (hs : s.memOk) (ht : execElLoRead a addr s = .next t) : t.memOk := by
  cases ht
  change Mem.wf (Prod.fst _) = true
  split
  · exact wf_if (wf_readRow s.w a _ _ hs) hs
  · exact hs

theorem form_warmResetIslands {s t : State} {straps at_ : Nat} (hs : s.memOk) (ht : execWarmResetIslands straps at_ s = .next t) :
    t.memOk := by
  cases ht
  change Mem.wf (Prod.fst _) = true
  split
  · exact hs
  · exact wf_if (wf_warmIslands _ _ _ hs) hs

/-- A command that may store keeps the canonical form, by the lemma of the operation it makes. -/
theorem storing_keeps_memOk {c : Instr} {s t : State} (hc : mayStore c = true) (hs : s.memOk) (ht : exec c s = .next t) : t.memOk := by
  cases c
  case registerRequestTimeout => exact form_requestTimeout hs ht
  case holdingCopyRead c addr => exact form_holdingCopyRead (c := c) (addr := addr) hs ht
  case elLoRead => exact form_elLoRead hs ht
  case warmResetIslands => exact form_warmResetIslands hs ht
  case coreNop | coreAdd | coreSub | coreAddi | coreAnd | coreOr | coreXor | coreAndi | coreOri | coreXori | coreShf | coreMovi | coreMinmax
      | coreAdda | coreAddaw | coreCmpCc | coreCmpCcAnd | coreCmpCcOr | corePlog | coreMul | coreMuld | coreMac =>
    exact form_regRow hs ht
  case coreMovaw => exact form_coreMovaw hs ht
  case corePmov => exact form_corePmov hs ht
  case coreLdaL | coreBr | coreCall | coreJmp | coreCallr | coreJmpL | coreCallL | coreTrap | coreCsrr | coreMar | coreMaz | coreDiv =>
    exact form_row hs ht fun _ _ _ h => h
  case coreLd | coreSt | coreLdD | coreStD | coreLda | coreSta => exact form_memRow hs ht
  case coreCallg => exact form_row hs ht fun _ _ w h => formOk_gateCall w _ _ h
  case coreRetx => exact form_row hs ht fun _ _ w h => formOk_retx w _ h
  case coreWait c i => exact form_coreWait (c := c) (i := i) hs ht
  case coreSyncI | coreSyncM => exact form_row hs ht fun _ _ w h => wf_drainAll w _ h
  case coreCsrw => exact form_coreCsrw hs ht
  case coreMovs | coreFils | coreCmps | coreScns => exact form_strRow hs ht
  all_goals cases hc
  all_goals cases ht
  case registerWrite => exact wf_request s.w _ _ _ _ hs
  case autowakeAccess => exact wf_endStall s.w _ _ hs
  case autowakeTimeout => exact wf_endStall (s.w.upTo _) _ _ hs
  case rscSwresRead | hkcResRead | fcEntcRead | tmCntLoRead | tmCapLoRead | protRftsLoRead | pdPostbLoRead | trTrigtbLoRead | icSemRead =>
    exact wf_if (wf_readRow s.w _ _ _ hs) hs
  case pccSwresRead => exact wf_if (wf_readRow s.w _ _ _ hs) (wf_if (wf_readRow s.w _ _ _ hs) hs)
  case tbLoRead | blTkoLoRead | nonceRead => exact wf_readRow s.w _ _ _ hs
  case icSemRelease => exact wf_if (wf_request s.w _ _ _ _ hs) hs
  case lsMiscompare => exact wf_if hs (wf_miscompare s.w _ _ _ _ hs)
  case selfBudgetStep => exact wf_if (wf_dropBanks _ hs) hs
  case offEntry => exact wf_offEntry (s.w.upTo _) hs
  case islreqStop => exact wf_if (wf_islStop s.w _ hs) hs
  case islandStart => exact wf_if (wf_islandStart (s.w.upTo _) _ _ hs) hs
  case coldReset => exact wf_wipeMem _ hs
  case islandReset => exact wf_islandRequest s.w _ _ hs
  case coreReset => exact wf_if (wf_coreReset s.w _ hs) hs
  case powerLoss => exact wf_if hs (wf_powerLoss (s.w.upTo _) _ hs)
  case lcWipe => exact wf_if (wf_lcWipe (s.w.upTo _) hs) hs
  case coreIll => exact wf_if (wf_runIns s.w _ _ _ hs fun _ _ _ h => h) hs
  case storeDrain => exact wf_if (wf_drainStores _ _ hs) hs
  case interruptAccept => exact wf_if (wf_accept s.w _ hs) hs
  case dmaBeatWrite => exact wf_if hs (wf_if hs (wf_dmaWrite _ _ hs))
  case traceStop => exact wf_if hs (wf_trRecords _ _ hs)
  case traceRelease => exact wf_if (wf_dropBanks _ hs) hs
  case traceRecordWrite => exact wf_if (wf_trRecord s.w _ _ hs) hs
  case bar2Write => exact wf_if hs (wf_if hs (wf_bar2Bytes _ _ hs))
  case stageSectorErase => exact wf_if (wf_stageSector s.w _ hs) hs
  case programPortDone => exact wf_if (wf_portDone s.w hs) hs
  case cairnRecordWrite => exact wf_if (wf_crnNext s.w _ hs) hs
  case completionTimeout => exact wf_if hs (wf_if hs (wf_if (wf_stageSector s.w _ hs) hs))
  case islandPowerDown => exact wf_sentDown (s.w.upTo _) _ hs

theorem exec_keeps_memOk {c : Instr} {s t : State} (hs : s.memOk) (ht : exec c s = .next t) : t.memOk := by
  cases hc : mayStore c with
  | false => exact form_mem (exec_mem_of_not_mayStore s hc) hs ht
  | true => exact storing_keeps_memOk hc hs ht

/-- Settles O5: the front command keeps the form, and an idle step leaves the memories. -/
theorem everyStepKeepsTheMemoryForm : Obligations.EveryStepKeepsTheMemoryForm := by
  intro s t hs ht
  cases hq : s.pending with
  | nil =>
    rw [step_idle hq] at ht
    cases ht
    exact hs
  | cons c rest =>
    rw [stepRunsTheFrontCommand c rest s hq] at ht
    have hrest : State.memOk { s with pending := rest } := hs
    exact exec_keeps_memOk hrest ht

end Sys2Proof.Machine

/-! Exceptions of an instruction (R305, R307, R337), and the round trip of an entry and a RETX (R335, R339, R341). -/

namespace Sys2Proof.Machine

/-! ### A core once its instruction is fetched -/

theorem ready_guard (w : World) (c i : Nat) : (w.ready c).guard i = (w.core c).guard i := by
  obtain ⟨l, f, hr⟩ := ready_fetchOnly w c
  rw [hr]
  rfl

/-- A fetch leaves what the issue of an instruction looks at. -/
theorem fetches_ready {w : World} {c : Nat} {long : Bool} (h : w.fetches c long) :
    (w.ready c).st = 1 ∧ (w.ready c).stepping = false ∧ (w.ready c).staged = [] ∧ (w.ready c).side = [] := by
  obtain ⟨-, hst, hstaged, hstep, hside, -⟩ := h
  obtain ⟨l, f, hr⟩ := ready_fetchOnly w c
  rw [hr]
  exact ⟨hst, hstep, hstaged, hside⟩

/-! ### An instruction that does not have its effect -/

theorem act_bad {w : World} {c i : Nat} {x : Ins} (m : Mem) (pc : Nat) (hj : x.jump = none) (hb : (guardBad i || x.bad) = true) :
    w.act m c i pc x = w.enter m c 0x01 i pc none := by
  simp [World.act, hj, hb]

theorem act_priv {w : World} {c i : Nat} {x : Ins} (m : Mem) (pc : Nat) (hj : x.jump = none) (hb : (guardBad i || x.bad) = false)
    (hg : (w.core c).guard i = true) (hp : x.priv = true) : w.act m c i pc x = w.enter m c 0x02 i pc none := by
  simp [World.act, hj, hb, hg, hp]

theorem act_skip {w : World} {c i : Nat} {x : Ins} (m : Mem) (pc : Nat) (hj : x.jump = none) (hb : (guardBad i || x.bad) = false)
    (hg : (w.core c).guard i = false) (ht : x.btb = false) (hl : x.long = false) :
    w.act m c i pc x = (m, w.retire c pc ((pc + 2) % 2 ^ 32)) := by
  simp [World.act, World.when, hj, hb, hg, ht, hl]

section Rows

variable {s : State} {c op : Nat} {i : BitVec 32} {mk : World → Ins}

theorem coreRow_bad (h : s.w.fetches c false) (ho : insOp i.toNat = op) (hl : (mk (s.w.setCore c (s.w.core c))).long = false)
    (hy : (mk (s.w.setCore c (s.w.core c))).busy = false) (hj : (mk (s.w.setCore c (s.w.core c))).jump = none)
    (hb : (guardBad i.toNat || (mk (s.w.setCore c (s.w.core c))).bad) = true) :
    coreRow s c i op mk
      = onM s fun m w => (w.setCore c (w.ready c)).enter m c 0x01 i.toNat (w.core c).pc none := by
  rw [coreRow_act h ho mk hl hy]
  simp only [onM, act_bad s.mem _ hj hb]

theorem coreRow_priv (h : s.w.fetches c false) (ho : insOp i.toNat = op) (hl : (mk (s.w.setCore c (s.w.core c))).long = false)
    (hy : (mk (s.w.setCore c (s.w.core c))).busy = false) (hj : (mk (s.w.setCore c (s.w.core c))).jump = none)
    (hb : (guardBad i.toNat || (mk (s.w.setCore c (s.w.core c))).bad) = false) (hg : (s.w.core c).guard i.toNat = true)
    (hp : (mk (s.w.setCore c (s.w.core c))).priv = true) :
    coreRow s c i op mk
      = onM s fun m w => (w.setCore c (w.ready c)).enter m c 0x02 i.toNat (w.core c).pc none := by
  have hready : ((s.w.setCore c (s.w.ready c)).core c).guard i.toNat = true := by rw [core_setCore, ready_guard, hg]
  rw [coreRow_act h ho mk hl hy]
  simp only [onM, act_priv s.mem _ hj hb hready hp]

theorem coreRow_skip (h : s.w.fetches c false) (ho : insOp i.toNat = op) (hl : (mk (s.w.setCore c (s.w.core c))).long = false)
    (hy : (mk (s.w.setCore c (s.w.core c))).busy = false) (hj : (mk (s.w.setCore c (s.w.core c))).jump = none)
    (hb : (guardBad i.toNat || (mk (s.w.setCore c (s.w.core c))).bad) = false) (hg : (s.w.core c).guard i.toNat = false)
    (ht : (mk (s.w.setCore c (s.w.core c))).btb = false) : coreRow s c i op mk = .next (s.ran c 2 fun k => k) := by
  have hready : ((s.w.setCore c (s.w.ready c)).core c).guard i.toNat = false := by rw [core_setCore, ready_guard, hg]
  obtain ⟨hst, hstep, -⟩ := fetches_ready h
  rw [coreRow_act h ho mk hl hy]
  simp only [onM, act_skip s.mem _ hj hb hready ht hl, retire_setCore hst hstep, State.ran, State.withW]

theorem coreRow_jump (h : s.w.fetches c false) (ho : insOp i.toNat = op) (hl : (mk (s.w.setCore c (s.w.core c))).long = false)
    (hy : (mk (s.w.setCore c (s.w.core c))).busy = false) {t : Nat} (hj : (mk (s.w.setCore c (s.w.core c))).jump = some t)
    (hg : (s.w.core c).guard i.toNat = true) (hodd : t % 2 = 1) :
    coreRow s c i op mk = onM s fun m w => (w.setCore c (w.ready c)).enter m c 0x10 t (w.core c).pc none := by
  have hready : ((s.w.setCore c (s.w.ready c)).core c).guard i.toNat = true := by rw [core_setCore, ready_guard, hg]
  rw [coreRow_act h ho mk hl hy]
  simp only [onM, act_jump _ s.mem c i.toNat _ _ hj hready hodd rfl]

end Rows

/-- A word outside the table raises ILLEGAL. -/
theorem coreIll_enters {s : State} {c : Nat} {i : BitVec 32} (h : s.w.fetches c false) (ho : opKnown (insOp i.toNat) = false) :
    exec (.coreIll c i) s = onM s fun m w => (w.setCore c (w.ready c)).enter m c 0x01 i.toNat (w.core c).pc none := by
  have hbad : (guardBad i.toNat || true) = true := Bool.or_true _
  change execCoreIll c i s = _
  unfold execCoreIll onM
  dsimp only
  rw [if_pos ⟨h.1, ho⟩, runIns_act h s.mem _ rfl rfl, act_bad s.mem _ rfl hbad]

/-- Entry with nothing in flight and room for a frame (R335, R339). -/
theorem enter_of_room {w : World} {c : Nat} (h : w.fetches c false) (hsb : (w.core c).sb = []) (ht : (w.core c).tsblim < (w.core c).tsbp)
    (m : Mem) (cause info pc : Nat) : (w.setCore c (w.ready c)).enter m c cause info pc none =
      (w.memWrites m (w.tcmBase c + 64 * ((w.core c).tsbp - 1)) ((w.core c).frame { cause := cause, flags := 0, src := 0xFFFF, info := info, pc := pc }),
       w.setCore c { w.ready c with tsbp := (w.core c).tsbp - 1, mode := ((w.core c).mode &&& 8) ||| 3, xcause := cause, xinfo := info,
                                    pc := (w.core c).xvec, offer := none }) := by
  obtain ⟨hst, hstep, hstaged, hside⟩ := fetches_ready h
  obtain ⟨l, f, hr⟩ := ready_fetchOnly w c
  rw [enter_ok w m c cause info pc _ hst hstep hstaged (by rw [hr]; exact hsb) hside (by rw [hr]; exact ht), hr]
  rfl

/-- Settles O42: each clause is one branch of `act`, or the entry that those branches make. -/
theorem coreGuardsAndExceptionEntry : Obligations.CoreGuardsAndExceptionEntry := by
  rintro s c i u k q enters rfl rfl rfl rfl
  refine ⟨fun h => ⟨fun ho => coreIll_enters h ho, ?skipped, ?illegal, ?level, ?odd, ?room, ?full⟩, ?fetch⟩
  case skipped =>
    intro hg hgb hsb
    have hnop : (guardBad i.toNat || false) = false := by rw [hgb]; rfl
    have hsys : (guardBad i.toNat || sysBad i.toNat) = false := by rw [hgb, hsb]; rfl
    exact ⟨fun ho => coreRow_skip h ho rfl rfl rfl hnop hg rfl, fun ho => coreRow_skip h ho rfl rfl rfl hsys hg rfl,
      fun ho => coreRow_skip h ho rfl rfl rfl hsys hg rfl, fun ho => coreRow_skip h ho rfl rfl rfl hsys hg rfl⟩
  case illegal =>
    intro hbad
    have hsys : (guardBad i.toNat || sysBad i.toNat) = true := Bool.or_eq_true_iff.2 hbad
    exact ⟨fun ho => coreRow_bad h ho rfl rfl rfl hsys, fun ho => coreRow_bad h ho rfl rfl rfl hsys, fun ho => coreRow_bad h ho rfl rfl rfl hsys⟩
  case level =>
    intro hg hgb hsb hmode
    have hsys : (guardBad i.toNat || sysBad i.toNat) = false := by rw [hgb, hsb]; rfl
    have hpriv : (((s.w.setCore c (s.w.core c)).core c).mode % 4 == 0) = true := by rw [core_setCore, hmode]; rfl
    exact ⟨fun ho => coreRow_priv h ho rfl rfl rfl hsys hg hpriv, fun ho => coreRow_priv h ho rfl rfl rfl hsys hg hpriv⟩
  case odd =>
    intro hg hodd
    have htarget : some (((s.w.setCore c (s.w.core c)).core c).a (insN i.toNat)) = some ((s.w.core c).a (insN i.toNat)) := by rw [core_setCore]
    exact ⟨fun ho => coreRow_jump h ho rfl rfl htarget hg hodd, fun ho => coreRow_jump h ho rfl rfl htarget hg hodd⟩
  case room =>
    intro hsb ht cause info
    dsimp only
    rw [enter_of_room h hsb ht]
  case full =>
    rintro hsb ht cause info r rfl
    obtain ⟨-, -, hstaged, hside⟩ := fetches_ready h
    obtain ⟨l, f, hr⟩ := ready_fetchOnly s.w c
    have hcause : ((s.w.setCore c (s.w.ready c)).core c).xcause = (s.w.core c).xcause := by rw [core_setCore, hr]
    dsimp only
    rw [enter_over _ s.mem c cause info _ _ hstaged (by rw [hr]; exact hsb) hside (by rw [hr]; exact ht), lockup_eq _ s.mem c _ rfl hcause]
  case fetch =>
    intro e hmay hst hstaged hbad ho
    change coreRow s c i 0x01 (regIns c false [] id) = _
    unfold coreRow onM
    dsimp only
    rw [if_pos ⟨hmay, ho⟩, runIns_bad hst hstaged hbad]

/-! ### The frame that an entry pushes, read back -/

/-- Word `n` of a frame that core `c` has stored at slot `p` of its trap stack (R338, R339). -/
theorem word_of_frame {w : World} {m : Mem} {c p n v : Nat} {l : List Nat} (hc : c < w.nCores) (hp : p < 2048) (hlen : l.length = 48)
    (hn : l[n]? = some v) : Mem.word (w.memWrites m (w.tcmBase c + 64 * p) l) (w.tcmBase c + 64 * p + n) = v % 65536 :=
  (word_memWrites hc l m (64 * p) (by omega)).2 n v hn

/-- The words of a value below 2^72 make it again. -/
theorem sum_of_words {x : Nat} (h : x < 2 ^ 72) : x % 65536 % 65536 + 2 ^ 16 * (x / 2 ^ 16 % 65536 % 65536) + 2 ^ 32 * (x / 2 ^ 32 % 65536 % 65536)
    + 2 ^ 48 * (x / 2 ^ 48 % 65536 % 65536) + 2 ^ 64 * (x / 2 ^ 64 % 65536 % 256) = x := by
  omega

theorem unI_lt (wd : Nat) (x : Int) : unI wd x < 2 ^ wd := by
  have hpos : (0 : Int) < (2 ^ wd : Nat) := Int.natCast_pos.mpr (Nat.two_pow_pos wd)
  have hlt := Int.emod_lt_of_pos x hpos
  unfold unI
  omega

/-- What `restore` reads from a frame gives back the items that the frame saved. -/
theorem restore_of_frame {k q : Core} {h : FrameHead} {rd : Nat → Nat} (hrd : ∀ n v, (k.frame h)[n]? = some v → rd n = v % 65536) :
    (∀ n < 16, (q.restore rd false).w n = k.w n % 65536) ∧ (∀ n < 8, (q.restore rd false).a n = k.a n % 2 ^ 32)
    ∧ (q.restore rd false).pr = (k.pr &&& 0xFE) ||| 1 ∧ (q.restore rd false).ma = sx 72 (unI 72 k.ma) ∧ (q.restore rd false).mode = k.mode % 16
    ∧ (q.restore rd false).tsbp = q.tsbp + 1 := by
  obtain ⟨y, hy, hw, ha, hmode, hpr, hma, htsbp⟩ := restore_spec q rd
  obtain ⟨-, -, -, -, gmode, gpr, gw, ga, gma⟩ := frame_get k h _ rfl
  obtain ⟨g42, g43, g44, g45, g46⟩ := gma _ rfl
  rw [hy]
  refine ⟨fun n hn => ?_, fun n hn => ?_, ?_, ?_, ?_, htsbp⟩
  · rw [hw n hn, hrd _ _ (gw n hn), Nat.mod_mod]
  · obtain ⟨glo, ghi⟩ := ga n hn
    rw [ha n hn, hrd _ _ glo, hrd _ _ ghi]
    omega
  · have hsmall : k.pr &&& 0xFE < 65536 := Nat.lt_of_le_of_lt Nat.and_le_right (by decide)
    rw [hpr, hrd _ _ gpr, Nat.mod_eq_of_lt hsmall, Nat.and_assoc, Nat.and_self]
  · rw [hma, hrd _ _ g42, hrd _ _ g43, hrd _ _ g44, hrd _ _ g45, hrd _ _ g46, sum_of_words (unI_lt 72 k.ma)]
  · rw [hmode, hrd _ _ gmode]
    omega

/-- An entry at `q` has left the frame of `k` on the trap stack: RETX takes it back (R341). -/
theorem retx_of_frame {w : World} {m : Mem} {c : Nat} {k q : Core} {h : FrameHead} (hc : c < w.nCores) (hsb : q.sb = []) (hside : q.side = [])
    (htop : q.tsbp < q.tsbtop) (hslot : q.tsbp < 2048) (hmode : k.mode % 4 ≠ 2) (hlevel : q.mode % 4 = 3) (hpc : h.pc % 2 = 0)
    (hflags : h.flags = 0) {m' : Mem} (hm : m' = w.memWrites m (w.tcmBase c + 64 * q.tsbp) (k.frame h)) :
    ∃ rd : Nat → Nat, (∀ n v, (k.frame h)[n]? = some v → rd n = v % 65536)
      ∧ (w.setCore c q).retx m' c = .next m' (w.setCore c (q.restore rd false)) (h.pc % 2 ^ 32) := by
  obtain ⟨gflags, gpriv, gpcl, gpch, gmode, -⟩ := frame_get k h _ rfl
  have hrd : ∀ n v, (k.frame h)[n]? = some v → Mem.word m' (w.tcmBase c + 64 * q.tsbp + n) = v % 65536 := fun n v hn => by
    rw [hm]
    exact word_of_frame hc hslot (frame_len k h) hn
  refine ⟨fun n => Mem.word m' (w.tcmBase c + 64 * q.tsbp + n), hrd, ?_⟩
  have e1 := hrd _ _ gflags
  have e3 := hrd _ _ gpriv
  have e4 := hrd _ _ gpcl
  have e5 := hrd _ _ gpch
  have e6 := hrd _ _ gmode
  have hrank : rank (k.mode % 4) ≤ rank 3 :=
    (show ∀ x < 4, x ≠ 2 → rank x ≤ rank 3 by decide) _ (Nat.mod_lt _ (by decide)) hmode
  rw [retx_ok w m' c q hsb hside (by omega) _ rfl]
  · simp only [e1, e4, e5, hflags]
    congr 1
    omega
  · simp only [e4, e5]
    omega
  · simp only [e3, e6]
    exact Nat.le_of_eq (congrArg rank (by omega))
  · simp only [e6, hlevel]
    rw [show k.mode % 65536 % 4 = k.mode % 4 by omega]
    exact hrank
  · simp only [e1, hflags]
    rfl

theorem lt_nCores_of_mayIssue {w : World} {c : Nat} (h : w.mayIssue c = true) : c < w.nCores := by
  simp only [World.mayIssue, Bool.and_eq_true, decide_eq_true_eq] at h
  exact h.1.1.1.1

/-- PRIV of the mode that an entry sets is M (R335). -/
theorem entry_mode_level (v : Nat) : ((v &&& 8) ||| 3) % 4 = 3 := by
  have h8 : (v &&& 8) % 4 = 0 := by
    rw [Nat.and_mod_two_pow (n := 2)]
    exact Nat.and_zero _
  rw [Nat.or_mod_two_pow (n := 2), h8]
  rfl

/-- A RETX issued at level M acts on the core as its fetch leaves it. -/
theorem coreRetx_go {s : State} {c : Nat} {j : BitVec 32} (h : s.w.issues c j.toNat false) (ho : insOp j.toNat = 0x27) (hsys : sysBad j.toNat = false)
    (hlevel : (s.w.core c).mode % 4 = 3) :
    exec (.coreRetx c j) s = onM s fun m w => ((w.setCore c (w.ready c)).retx m c).finish c (w.core c).pc := by
  have hpriv : (((s.w.setCore c (s.w.core c)).core c).mode % 4 == 0) = false := by
    rw [core_setCore, hlevel]
    rfl
  exact coreRow_go h ho _ rfl hsys rfl hpriv rfl

/-- RETX as the first instruction of a handler, with the frame of `k` on the trap stack: the core takes the frame and goes on at its PC. -/
theorem coreRetx_of_frame {t : State} {c : Nat} {j : BitVec 32} {k q : Core} {h : FrameHead} {m : Mem} (hi : t.w.issues c j.toNat false)
    (ho : insOp j.toNat = 0x27) (hsys : sysBad j.toNat = false) (hq : t.w.ready c = q) (hsb : q.sb = [])
    (htop : q.tsbp < q.tsbtop) (hslot : q.tsbp < 2048) (hmode : k.mode % 4 ≠ 2) (hlevel : q.mode % 4 = 3) (hpc : h.pc % 2 = 0)
    (hflags : h.flags = 0) (hm : t.mem = t.w.memWrites m (t.w.tcmBase c + 64 * q.tsbp) (k.frame h)) :
    ∃ rd : Nat → Nat, (∀ n v, (k.frame h)[n]? = some v → rd n = v % 65536)
      ∧ exec (.coreRetx c j) t
        = .next (t.withW (t.w.setCore c ((q.restore rd false).retired (t.w.core c).pc (h.pc % 2 ^ 32)))) := by
  obtain ⟨hst, hstep, -, hside⟩ := fetches_ready hi.1
  obtain ⟨l, f, hr⟩ := ready_fetchOnly t.w c
  have hcore : (t.w.core c).mode % 4 = 3 := by rw [← hlevel, ← hq, hr]
  rw [hq] at hst hstep hside
  obtain ⟨rd, hrd, hretx⟩ := retx_of_frame (lt_nCores_of_mayIssue hi.1.1) hsb hside htop hslot hmode hlevel hpc hflags hm
  have hstq := (restore_st q rd false).1.trans hst
  have hstepq := (restore_st q rd false).2.trans hstep
  refine ⟨rd, hrd, ?_⟩
  rw [coreRetx_go hi ho hsys hcore]
  simp only [onM, hq, hretx, Exe.finish, retire_setCore hstq hstepq, State.withW]

/-- The core after the entry that an ILLEGAL instruction makes, as far as a RETX looks at it. -/
theorem coreIll_state {s : State} {c : Nat} {i : BitVec 32} (h : s.w.fetches c false) (ho : opKnown (insOp i.toNat) = false)
    (hsb : (s.w.core c).sb = []) (ht : (s.w.core c).tsblim < (s.w.core c).tsbp) : ∃ k : Core,
      exec (.coreIll c i) s = .next { s with
        mem := s.w.memWrites s.mem (s.w.tcmBase c + 64 * ((s.w.core c).tsbp - 1))
          ((s.w.core c).frame { cause := 0x01, flags := 0, src := 0xFFFF, info := i.toNat, pc := (s.w.core c).pc })
        w := s.w.setCore c k }
      ∧ k.mode % 4 = 3 ∧ k.tsbp = (s.w.core c).tsbp - 1 ∧ k.tsbtop = (s.w.core c).tsbtop ∧ k.sb = [] ∧ k.side = [] ∧ k.st = 1
      ∧ k.stepping = false := by
  obtain ⟨hst, hstep, -, hside⟩ := fetches_ready h
  obtain ⟨l, f, hr⟩ := ready_fetchOnly s.w c
  rw [coreIll_enters h ho]
  simp only [onM, enter_of_room h hsb ht]
  refine ⟨_, rfl, entry_mode_level _, rfl, ?_, ?_, hside, hst, hstep⟩
  · rw [hr]
  · rw [hr]
    exact hsb

/-! Retirement moves the PC and the counts alone. -/

@[simp] theorem w_retired (k : Core) (old pc n : Nat) : (k.retired old pc).w n = k.w n := rfl
@[simp] theorem a_retired (k : Core) (old pc n : Nat) : (k.retired old pc).a n = k.a n := rfl
@[simp] theorem pr_retired (k : Core) (old pc : Nat) : (k.retired old pc).pr = k.pr := rfl
@[simp] theorem ma_retired (k : Core) (old pc : Nat) : (k.retired old pc).ma = k.ma := rfl
@[simp] theorem mode_retired (k : Core) (old pc : Nat) : (k.retired old pc).mode = k.mode := rfl
@[simp] theorem tsbp_retired (k : Core) (old pc : Nat) : (k.retired old pc).tsbp = k.tsbp := rfl
@[simp] theorem pc_retired (k : Core) (old pc : Nat) : (k.retired old pc).pc = pc := rfl

/-- Settles O6: the entry pushes the frame of `frame_get`, and the RETX reads it back by `retx_of_frame` and `restore_of_frame`. -/
theorem entryAndReturnRestoreTheTask : Obligations.EntryAndReturnRestoreTheTask := by
  rintro s t c i j k rfl hf hop hsb hlim htop hcap hmode hpc ht hi ho hsys
  obtain ⟨k1, hill, hlevel1, htsbp1, htop1, hsb1, -⟩ := coreIll_state hf hop hsb hlim
  rw [hill] at ht
  cases ht
  obtain ⟨l, f, hq⟩ := ready_fetchOnly (s.w.setCore c k1) c
  rw [core_setCore] at hq
  have hmem : s.w.memWrites s.mem (s.w.tcmBase c + 64 * ((s.w.core c).tsbp - 1))
        ((s.w.core c).frame { cause := 0x01, flags := 0, src := 0xFFFF, info := i.toNat, pc := (s.w.core c).pc })
      = (s.w.setCore c k1).memWrites s.mem ((s.w.setCore c k1).tcmBase c + 64 * k1.tsbp)
        ((s.w.core c).frame { cause := 0x01, flags := 0, src := 0xFFFF, info := i.toNat, pc := (s.w.core c).pc }) := by
    rw [(setCore_off s.w c k1).2, htsbp1]
    rfl
  obtain ⟨rd, hrd, hret⟩ := coreRetx_of_frame hi ho hsys hq hsb1 (by dsimp only; omega) (by dsimp only; omega) hmode hlevel1 hpc rfl hmem
  refine ⟨_, _, hret, rfl, rfl, ?_⟩
  obtain ⟨hw, ha, hpr, hma, hmd, htp⟩ := restore_of_frame (q := { k1 with lines := l, fills := f }) hrd
  have htsbp : k1.tsbp + 1 = (s.w.core c).tsbp := by omega
  simp only [State.withW, core_setCore, w_retired, a_retired, pr_retired, ma_retired, mode_retired, tsbp_retired, pc_retired]
  exact ⟨hw, ha, hpr, hma, hmd, trivial, htp.trans htsbp⟩

end Sys2Proof.Machine

/-! The sequencer (R81, R86), the reshuffle of a transfer (R411), and the faults of a rail (R179 to R185). -/

namespace Sys2Proof.Machine

/-! ### The sequencer -/

/-- Every register lies in its format. -/
def Seq.saturated (q : Seq) : Prop := ∀ v ∈ q.x, -2 ^ 31 ≤ v ∧ v ≤ 2 ^ 31 - 1

theorem exec_saturated (l : Latch) {q : Seq} (m : MW) (h : q.saturated) : (l.exec q m).saturated := by
  intro v hv
  rcases exec_x l q m with hx | ⟨u, hx⟩
  · exact h v (hx ▸ hv)
  · rw [hx] at hv
    rcases List.mem_or_eq_of_mem_set hv with hmem | rfl
    · exact h v hmem
    · exact satS32 u

theorem foldl_exec_saturated (l : Latch) (p : List MW) : ∀ q : Seq, q.saturated → (p.foldl l.exec q).saturated := by
  induction p with
  | nil => exact fun _ h => h
  | cons m p ih => exact fun q h => ih _ (exec_saturated l m h)

/-- Settles O12: the registers start at 0, and each microword keeps them in their formats. -/
theorem sequencerRegistersSaturate : Obligations.SequencerRegistersSaturate := by
  intro l e p
  refine foldl_exec_saturated l p { x := List.replicate 16 0, e := e } fun v hv => ?_
  rw [List.eq_of_mem_replicate hv]
  decide

/-- A microword of a frozen rail leaves the integrator, but for the blend of a rollback. -/
theorem exec_frozen_i {l : Latch} (hf : l.frozen = true) (hb : l.blend = none) (q : Seq) (m : MW) : (l.exec q m).e.i = q.e.i := by
  unfold Latch.exec
  cases m.op <;> simp [hf, hb, Seq.put]

theorem foldl_exec_frozen_i {l : Latch} (hf : l.frozen = true) (hb : l.blend = none) (p : List MW) :
    ∀ q : Seq, (p.foldl l.exec q).e.i = q.e.i := by
  induction p with
  | nil => exact fun _ => rfl
  | cons m p ih => exact fun q => (ih _).trans (exec_frozen_i hf hb q m)

/-- What INTG leaves in the integrator of a rail that is not frozen. -/
theorem exec_intg_i {l : Latch} {m : MW} (q : Seq) (hop : m.op = .intg) (hf : l.frozen = false) :
    (l.exec q m).e.i = min (max (q.e.i + rdiv (q.reg m.a * l.operand q m) (2 ^ 8)) (l.coef.getD (m.idx + 1) 0 * 2 ^ 16))
      (l.coef.getD (m.idx + 2) 0 * 2 ^ 16) := by
  simp [Latch.exec, hop, hf, Seq.put]

/-- Settles O13: microword by microword, and INTG's limits. -/
theorem frozenHoldsTheIntegrator : Obligations.FrozenHoldsTheIntegrator := by
  refine ⟨fun l e p hf hb => foldl_exec_frozen_i hf hb p _, fun l q m hop hf hle => ?_⟩
  rw [exec_intg_i q hop hf]
  have hle16 := Int.mul_le_mul_of_nonneg_right hle (show (0 : Int) ≤ 2 ^ 16 by decide)
  exact ⟨Int.le_min.mpr ⟨Int.le_max_right _ _, hle16⟩, Int.min_le_right _ _⟩

/-! ### The reshuffle of a transfer -/

/-- Blocks of `f * g` elements, each of which is read as a `g` by `f` array and written as its transpose. -/
theorem transpose_perm (f g n k : Nat) (hk : k < f * g * n) :
    k / (f * g) * (f * g) + (k % (f * g) % g * f + k % (f * g) / g) < f * g * n
    ∧ ∀ k' < f * g * n, k / (f * g) * (f * g) + (k % (f * g) % g * f + k % (f * g) / g)
      = k' / (f * g) * (f * g) + (k' % (f * g) % g * f + k' % (f * g) / g) → k = k' :=
  block_perm (f * g) n (fun o => o % g * f + o / g) (fun o ho => (swap_div f g o ho).1) (fun o ho o' ho' => swap_inj f g o o' ho ho') k hk

/-- Settles O53: both reshuffles transpose blocks, and the third moves nothing. -/
theorem reshuffleIsAPermutation : Obligations.ReshuffleIsAPermutation := by
  intro j hs hbad k hk
  unfold DJob.total at hk ⊢
  unfold DJob.shargBad at hbad
  unfold DJob.inputOf
  obtain h0 | h1 | h2 : j.shuf = 0 ∨ j.shuf = 1 ∨ j.shuf = 2 := by omega
  · simp only [h0]
    exact ⟨hk, fun _ _ h => h⟩
  · simp only [h1, Bool.or_eq_false_iff, bne_eq_false_iff_eq] at hbad ⊢
    have hL : j.factor * (j.slen / j.factor) = j.slen := Nat.mul_div_cancel' (Nat.dvd_of_mod_eq_zero hbad.2)
    have := transpose_perm j.factor (j.slen / j.factor) j.slines k (by rwa [hL])
    simpa only [hL, Nat.add_assoc] using this
  · simp only [h2, Bool.or_eq_false_iff, bne_eq_false_iff_eq] at hbad ⊢
    have hlines : j.slen * j.factor * (j.slines / j.factor) = j.slen * j.slines := by
      rw [Nat.mul_assoc, Nat.mul_div_cancel' (Nat.dvd_of_mod_eq_zero hbad.2)]
    have := transpose_perm j.slen j.factor (j.slines / j.factor) k (by rwa [hlines])
    simpa only [hlines, Nat.mul_comm j.factor j.slen, Nat.add_assoc] using this

/-! ### What a kill can change beside the registers -/

/-- `w'` differs from `w` in registers, phases and the protection of rails alone. -/
def routeShape (w w' : World) : Prop := ∃ g h p, w' = { w with regs := g, ph := h, prt := p }

theorem routeShape.refl (w : World) : routeShape w w := ⟨_, _, _, rfl⟩

theorem routeShape.trans {a b c : World} (h : routeShape a b) (g : routeShape b c) : routeShape a c := by
  obtain ⟨x, y, z, rfl⟩ := h
  obtain ⟨x', y', z', rfl⟩ := g
  exact ⟨x', y', z', rfl⟩

theorem routeShape.sf {a b : World} (h : routeShape a b) (G : Fld) (i v : Nat) : routeShape a (b.sf G i v) := h.trans ⟨_, _, _, rfl⟩
theorem routeShape.setPhase {a b : World} (h : routeShape a b) (p : Nat) (x : Ph) : routeShape a (b.setPhase p x) := h.trans ⟨_, _, _, rfl⟩
theorem routeShape.setRail {a b : World} (h : routeShape a b) (r : Nat) (x : Prt) : routeShape a (b.setRail r x) := h.trans ⟨_, _, _, rfl⟩

theorem routeShape.ite {a b c : World} {p : Prop} [Decidable p] (h : routeShape a b) (g : routeShape a c) : routeShape a (if p then b else c) := by
  split
  · exact h
  · exact g

theorem routeShape.when {a b : World} {c : Bool} {f : World → World} (h : routeShape a b) (g : ∀ w, routeShape w (f w)) :
    routeShape a (b.when c f) := by
  unfold World.when
  exact (h.trans (g b)).ite h

theorem routeShape.foldl {α : Type} {f : World → α → World} (g : ∀ w x, routeShape w (f w x)) (l : List α) :
    ∀ w, routeShape w (l.foldl f w) := by
  induction l with
  | nil => exact routeShape.refl
  | cons x l ih => exact fun w => (g w x).trans (ih _)

theorem routeShape.tb {a b : World} (h : routeShape a b) : b.tb = a.tb := by
  obtain ⟨_, _, _, rfl⟩ := h
  rfl

theorem offEdge_shape (w : World) (r p off : Nat) : routeShape w (w.offEdge r p off) := ((routeShape.refl w).sf _ _ _).setPhase _ _

theorem offIfDue_shape (w : World) (r p off : Nat) : routeShape w (w.offIfDue r p off) := (offEdge_shape w r p _).ite (routeShape.refl w)

theorem lim_shape (w : World) (p : Nat) (b : Bool) : routeShape w (w.lim p b) := (routeShape.refl w).when fun w => (routeShape.refl w).sf _ _ _

theorem loadHigh_shape (w : World) (r p d tL : Nat) (h : Ph) : routeShape w (w.loadHigh r p d tL h) :=
  ((lim_shape w p _).sf _ _ _).setPhase _ _

theorem loadLow_shape (w : World) (r p d tL : Nat) (h : Ph) : routeShape w (w.loadLow r p d tL h) := by
  have h0 : routeShape w (w.sf F.PW_EDGE_DUTY p d) := (routeShape.refl w).sf _ _ _
  exact ((h0.trans (lim_shape _ p _)).ite ((h0.trans (lim_shape _ p _)).setPhase _ _)).ite h0

theorem loadWord_shape (w : World) (r p d tL : Nat) : routeShape w (w.loadWord r p d tL) := by
  have h0 := routeShape.refl w
  exact (h0.setPhase _ _).ite ((((h0.setPhase _ _).trans (loadHigh_shape _ r p d tL _)).ite
    ((h0.setPhase _ _).trans (loadLow_shape _ r p d tL _))).ite h0)

theorem loadPulse_shape (w : World) (r p ton tL : Nat) : routeShape w (w.loadPulse r p ton tL) := by
  have h0 := routeShape.refl w
  exact h0.ite (((h0.when fun w => (routeShape.refl w).sf _ _ _).trans (lim_shape _ p _)).setPhase _ _)

theorem settleL_shape (r p lim : Nat) (l : List Load) : ∀ w : World, routeShape w (w.settleL r p lim l) := by
  induction l with
  | nil => exact fun w => (routeShape.refl w).setPhase _ _
  | cons x l ih =>
    intro w
    have hload := (offIfDue_shape w r p x.at_).trans ((loadPulse_shape (w.offIfDue r p x.at_) r p x.val x.at_).ite
      (c := (w.offIfDue r p x.at_).loadWord r p x.val x.at_) (p := x.pulse = true) (loadWord_shape _ r p x.val x.at_))
    exact (hload.trans (ih _)).ite ((routeShape.refl w).setPhase _ _)

theorem settle_shape (w : World) (p lim : Nat) : routeShape w (w.settle p lim) := by
  unfold World.settle
  split
  · exact routeShape.refl w
  · exact (routeShape.refl w).ite (settleL_shape _ p lim _ w)

theorem dropLoads_shape (w : World) (p : Nat) : routeShape w (w.dropLoads p) :=
  ((settle_shape w p _).when fun w => (routeShape.refl w).sf _ _ _).setPhase _ _

theorem setKills_shape (w : World) (p : Nat) (l : List Kill) : routeShape w (w.setKills p l) := ((routeShape.refl w).setPhase _ _).sf _ _ _

theorem force_shape (w : World) (p s l : Nat) : routeShape w (w.force p s l) := (((routeShape.refl w).sf _ _ _).sf _ _ _).setPhase _ _

theorem kill_shape (w : World) (p : Nat) (k : Kill) : routeShape w (w.kill p k) := by
  have h0 := (dropLoads_shape w p).trans (setKills_shape _ p (((w.dropLoads p).phase p).kills.filter (fun x => x.src != k.src) ++ [k]))
  exact (h0.trans (force_shape _ p _ _)).ite h0

theorem applyKill_shape (w : World) (r src : Nat) (p : Option Nat) (auto : Bool) : routeShape w (w.applyKill r src p auto) := by
  unfold World.applyKill
  generalize w.killOf r src p = x
  obtain ⟨l, mid⟩ := x
  have h0 := routeShape.refl w
  exact (h0.ite (h0.setRail r _)).trans (routeShape.foldl (fun w p => kill_shape w p _) l _)

theorem addLane_shape (w : World) (r : Nat) (p : Option Nat) : routeShape w (w.addLane r p) := by
  unfold World.addLane
  split
  · exact (routeShape.refl w).sf _ _ _
  · exact routeShape.refl w

/-! ### The response of a raised source -/

/-- A shutdown is `faultRegs` and what follows it, which touches no state, flag, gate or count (R182, R184). -/
theorem shutdown_keeps (w : World) (r resp mask : Nat) (esc : Bool) (why : Reason) :
    ∃ s e, Keeps tailIds (w.faultRegs r mask (firstOf mask) s (w.latches r resp) e) (w.shutdown r resp mask esc why) := by
  unfold World.shutdown
  exact ⟨_, _, keeps_faultTail (Keeps.refl _ _) (List.Subset.refl _)⟩

theorem shutdown_f (w : World) (r resp mask : Nat) (esc : Bool) (why : Reason) {lat : Bool} (hlat : w.latches r resp = lat) {v : World}
    (hv : v = w.shutdown r resp mask esc why) :
    v.rstate r = (if lat then rsLatched else rsHiccup) ∧ v.f F.PROT_RFLT_FIRST r = firstOf mask % 32 ∧ v.f F.PROT_RFLT_LATCHED r = b2n lat
      ∧ v.f F.PROT_RFLT_HICCUP r = b2n !lat ∧ v.f F.LE_RSTATE_GATE r = 1 ∧ v.f F.PROT_RCNT_FAULTS r = (w.f F.PROT_RCNT_FAULTS r + 1) % 65536
      ∧ v.f F.PROT_RCNT_TRIPS r = w.f F.PROT_RCNT_TRIPS r ∧ v.f F.LE_STAT_FROZEN r = w.f F.LE_STAT_FROZEN r := by
  obtain ⟨s, e, hk⟩ := shutdown_keeps w r resp mask esc why
  rw [← hv, hlat] at hk
  obtain ⟨hstate, hfirst, hlatched, hhiccup, hgate, hfaults, htrips, hfrozen⟩ := faultRegs_f w r mask (firstOf mask) s lat e rfl
  have hf : ∀ G : Fld, G.id < 4096 ∧ G.id ∉ tailIds → v.f G r = (w.faultRegs r mask (firstOf mask) s lat e).f G r := fun G hG => hk.f hG r
  exact ⟨(hf _ (by decide)).trans hstate, (hf _ (by decide)).trans hfirst, (hf _ (by decide)).trans hlatched, (hf _ (by decide)).trans hhiccup,
    (hf _ (by decide)).trans hgate, (hf _ (by decide)).trans hfaults, (hf _ (by decide)).trans htrips, (hf _ (by decide)).trans hfrozen⟩

/-- A source below response 2 is only shown in RHIST (R179). -/
theorem raise_shown (w : World) (r src : Nat) (p : Option Nat) (h : w.f F.PROT_RRESP (16 * r + src) < 2) :
    w.raise r src p = w.orBit F.PROT_RHIST_SEEN r src := by
  unfold World.raise
  dsimp only
  rw [if_pos (.inl h)]

/-- A source that acts on a rail in a faulted state, after the ns of its fault (R184). -/
theorem raise_late (w : World) (r src : Nat) (p : Option Nat) (hlo : 2 ≤ w.f F.PROT_RRESP (16 * r + src)) (hhi : w.f F.PROT_RRESP (16 * r + src) ≤ 4)
    (hf : w.faulted r = true) (ht : w.rfts r ≠ w.tb) :
    (w.raise r src p).rstate r = w.rstate r ∧ (w.raise r src p).f F.LE_STAT_FROZEN r = 1
      ∧ (w.raise r src p).f F.PROT_RFLT_CAUSE r = (w.f F.PROT_RFLT_CAUSE r ||| 2 ^ src) % 2 ^ F.PROT_RFLT_CAUSE.wd := by
  have hacts : ¬ (w.f F.PROT_RRESP (16 * r + src) < 2 ∨ 4 < w.f F.PROT_RRESP (16 * r + src)) := by omega
  have hseen : Keeps [F.PROT_RHIST_SEEN.id] w (w.orBit F.PROT_RHIST_SEEN r src) := (Keeps.refl _ w).orBit (by decide)
  have hfaulted : (w.orBit F.PROT_RHIST_SEEN r src).faulted r = true := by
    unfold World.faulted World.rstate at hf ⊢
    rw [hseen.f (by decide)]
    exact hf
  unfold World.raise
  dsimp only
  rw [if_neg hacts, if_pos hfaulted]
  generalize hu : w.orBit F.PROT_RHIST_SEEN r src = u at hseen
  have htb : u.tb = w.tb := by rw [← hu]; rfl
  have hcause : u.f F.PROT_RFLT_CAUSE r = w.f F.PROT_RFLT_CAUSE r := hseen.f (by decide) r
  unfold World.lateSource
  extract_lets v1 v2
  have k1 : Keeps [F.PROT_RPH_LANES.id] (u.addCause r (2 ^ src)) v1 := keeps_addLane (Keeps.refl _ _) (by decide)
  have k0 : Keeps [F.PROT_RFLT_CAUSE.id] u (u.addCause r (2 ^ src)) := keeps_addCause (Keeps.refl _ _) (by decide)
  have k2 : Keeps (F.LE_STAT_FROZEN.id :: killIds) v1 v2 := (keeps_applyKill (Keeps.refl _ _) (by decide)).sf (by decide)
  have k : Keeps (F.PROT_RHIST_SEEN.id :: F.PROT_RFLT_CAUSE.id :: F.PROT_RPH_LANES.id :: F.LE_STAT_FROZEN.id :: killIds) w v2 :=
    (((hseen.mono (by decide)).trans (k0.mono (by decide))).trans (k1.mono (by decide))).trans (k2.mono (by decide))
  have hrfts : v2.rfts r = w.rfts r := by
    unfold World.rfts
    rw [k.f (by decide), k.f (by decide)]
  have htime : v2.tb = v1.tb := ((applyKill_shape v1 r src p false).sf _ _ _).tb
  have htime1 : v1.tb = u.tb := (addLane_shape (u.addCause r (2 ^ src)) r p).tb
  rw [if_neg (by rw [hrfts, htime, htime1, htb]; exact ht)]
  refine ⟨k.f (by decide) r, f_sf_same _ F.LE_STAT_FROZEN r 1, ?_⟩
  rw [k2.f (by decide), k1.f (by decide), ← hcause]
  exact f_sf_same _ F.PROT_RFLT_CAUSE r _

/-- Settles O19: an acting raise is its head and a shutdown, or the end of the forecasts under KILL_AUTO. -/
theorem raiseFollowsItsResponse : Obligations.RaiseFollowsItsResponse := by
  intro w r src p _
  refine ⟨raise_shown w r src p, fun hresp hf => ?latch, fun hresp hf hretry hoff hstop => ?hiccup, fun hresp hf hesc => ?auto,
    fun hlo hhi hf ht => raise_late w r src p hlo hhi hf ht⟩
  case latch =>
    obtain ⟨w1, hk, hfrozen, htrips, hraise⟩ := raise_head w r src p (by omega) hf (.inl (by omega))
    rw [hresp, if_neg (by decide)] at hraise
    have hlat : w1.latches r 4 = true := rfl
    obtain ⟨vstate, vfirst, vlatched, -, vgate, vfaults, vtrips, vfrozen⟩ := shutdown_f w1 r 4 (w.tripMask r src) false (tripReason src) hlat hraise
    refine ⟨vstate, vlatched, vgate, vfrozen.trans hfrozen, vfirst, ?_, vtrips.trans htrips⟩
    rw [vfaults, hk.f (by decide)]
  case hiccup =>
    obtain ⟨w1, hk, hfrozen, htrips, hraise⟩ := raise_head w r src p (by omega) hf (.inl (by omega))
    rw [hresp, if_neg (by decide)] at hraise
    have hlat : w1.latches r 3 = false := by
      unfold World.rstate at hoff hstop
      unfold World.latches World.rstate
      rw [hk.f (by decide), hk.f (by decide), hk.f (by decide)]
      simp [hoff, hstop, hretry]
    obtain ⟨vstate, -, -, vhiccup, vgate, vfaults, -⟩ := shutdown_f w1 r 3 (w.tripMask r src) false (tripReason src) hlat hraise
    refine ⟨vstate, vhiccup, vgate, ?_⟩
    rw [vfaults, hk.f (by decide)]
  case auto =>
    obtain ⟨w1, hk, hfrozen, htrips, hraise⟩ := raise_head w r src p (by omega) hf (.inr hesc)
    rw [hresp, if_pos rfl] at hraise
    rw [hraise]
    unfold World.rstate
    rw [f_endForecasts (by decide), f_endForecasts (by decide), f_endForecasts (by decide), hk.f (by decide)]
    exact ⟨rfl, hfrozen, htrips⟩

end Sys2Proof.Machine

/-! Arithmetic, predicates and control transfers of an issued instruction (R304, R306, R309, R311). -/

namespace Sys2Proof.Machine

/-! ### Shapes of register instructions -/

theorem put_st (k : Core) (p : Bool) (d v : Nat) : (k.put p d v).st = k.st ∧ (k.put p d v).stepping = k.stepping := by
  cases p <;> exact ⟨rfl, rfl⟩

theorem issues_ready {w : World} {c i : Nat} {long : Bool} (h : w.issues c i long) : (w.ready c).st = 1 ∧ (w.ready c).stepping = false := by
  obtain ⟨hst, hstep, -⟩ := fetches_ready h.1
  exact ⟨hst, hstep⟩

section Rows

variable {s : State} {c op : Nat} {i : BitVec 32}

/-- An issued instruction that changes registers by `f`, which neither stops nor steps the core. -/
theorem regRow (h : s.w.issues c i.toNat false) (ho : insOp i.toNat = op) {bad : Bool} {regs : List Nat} {f : Core → Core} (hb : bad = false)
    (hf : ∀ k, (f k).st = k.st ∧ (f k).stepping = k.stepping) : coreRow s c i op (regIns c bad regs f) = .next (s.ran c 2 f) := by
  obtain ⟨hst, hstep⟩ := issues_ready h
  exact coreRow_reg h ho hb ((hf _).1.trans hst) ((hf _).2.trans hstep)

/-- The pairs of a two-operand instruction are even (R305). -/
theorem pair_ok {p : Bool} {d a b : Nat} (h : p = true → d % 2 = 0 ∧ a % 2 = 0 ∧ b % 2 = 0) :
    (p && (oddPair d || oddPair a || oddPair b)) = false := by
  cases p with
  | false => rfl
  | true =>
    obtain ⟨hd, ha, hb⟩ := h rfl
    simp [oddPair, hd, ha, hb]

theorem aluRow (h : s.w.issues c i.toNat false) (ho : insOp i.toNat = op) (g : Nat → Nat → Nat → Nat)
    (hp : insPair i.toNat = true → insD i.toNat % 2 = 0 ∧ insA i.toNat % 2 = 0 ∧ insB i.toNat % 2 = 0) :
    coreRow s c i op (aluIns c i.toNat g) = .next (s.ran c 2 fun k => k.put (insPair i.toNat) (insD i.toNat)
      (g (opWidth (insPair i.toNat)) (k.get (insPair i.toNat) (insA i.toNat)) (k.get (insPair i.toNat) (insB i.toNat)))) :=
  regRow h ho (pair_ok hp) fun k => put_st k _ _ _

theorem immRow (h : s.w.issues c i.toNat false) (ho : insOp i.toNat = op) (g : Nat → Nat) :
    coreRow s c i op (immIns c i.toNat g) = .next (s.ran c 2 fun k => k.setW (insD i.toNat) (g (k.w (insA i.toNat)))) :=
  regRow h ho rfl fun _ => ⟨rfl, rfl⟩

end Rows

/-- A sum that saturates under FN[5] and wraps else. -/
theorem put_sumOf (k : Core) (p sat : Bool) (d a b wd : Nat) : k.put p d (sumOf wd sat (sx wd a + sx wd b))
    = if sat then k.put p d (unI wd (satS wd (sx wd a + sx wd b))) else k.put p d ((a + b) % 2 ^ wd) := by
  cases sat with
  | false => simp [sumOf, unI_sum]
  | true => simp [sumOf]

theorem put_diffOf (k : Core) (p sat : Bool) (d a b wd : Nat) : k.put p d (sumOf wd sat (sx wd a - sx wd b))
    = if sat then k.put p d (unI wd (satS wd (sx wd a - sx wd b))) else k.put p d ((a + 2 ^ wd - b % 2 ^ wd) % 2 ^ wd) := by
  cases sat with
  | false => simp [sumOf, unI_diff]
  | true => simp [sumOf]

theorem highA_of_lt {n : Nat} (h : n < 8) : highA n = false := by
  simp [highA, h]

theorem oddPair_of_even {n : Nat} (h : n % 2 = 0) : oddPair n = false := by
  simp [oddPair, h]

theorem coreShf_next {s : State} {c : Nat} {i : BitVec 32} (h : s.w.issues c i.toNat false) (ho : insOp i.toNat = 0x0B)
    (hp : insPair i.toNat = true → insD i.toNat % 2 = 0 ∧ insA i.toNat % 2 = 0 ∧ (i.toNat.testBit 7 = false → insB i.toNat % 2 = 0)) :
    exec (.coreShf c i) s = .next (s.ran c 2 fun k => k.put (insPair i.toNat) (insD i.toNat)
      (shift (bitsOf i.toNat 8 2) (opWidth (insPair i.toNat)) (k.get (insPair i.toNat) (insA i.toNat))
        (if i.toNat.testBit 7 then bitsOf i.toNat 0 5 else k.w (insB i.toNat) % 32))) := by
  refine regRow h ho ?_ fun k => put_st k _ _ _
  cases hpair : insPair i.toNat with
  | false => rfl
  | true =>
    obtain ⟨hd, ha, hb⟩ := hp hpair
    cases himm : i.toNat.testBit 7 with
    | false => simp [oddPair, hd, ha, hb himm]
    | true => simp [oddPair, hd, ha]

/-- A long instruction that changes registers by `f`. -/
theorem coreLdaL_next {s : State} {c : Nat} {i : BitVec 32} (lit : BitVec 32) (h : s.w.issues c i.toNat true) (ho : insOp i.toNat = 0x13)
    (hd : insD i.toNat < 8) : exec (.coreLdaL c i lit) s = .next (s.ran c 4 fun k => k.setA (insD i.toNat) lit.toNat) := by
  obtain ⟨hst, hstep⟩ := issues_ready h
  obtain ⟨l, f, hr⟩ := ready_fetchOnly s.w c
  have hpc : (s.w.ready c).pc = (s.w.core c).pc := by rw [hr]
  have hrow := coreRow_go (s := s) h ho
    (fun _ => { long := true, bad := highA (insD i.toNat)
                go := fun m w => .next m (w.setCore c ((w.core c).setA (insD i.toNat) lit.toNat)) ((w.pcOf c + 4) % 2 ^ 32) })
    rfl (highA_of_lt hd) rfl rfl rfl
  refine hrow.trans ?_
  have hst' : ((s.w.ready c).setA (insD i.toNat) lit.toNat).st = 1 := hst
  have hstep' : ((s.w.ready c).setA (insD i.toNat) lit.toNat).stepping = false := hstep
  simp only [onM, Exe.finish, World.pcOf, core_setCore, setCore_setCore, retire_setCore hst' hstep', hpc, State.ran, State.withW]

/-- Settles O36: each row is a register instruction whose encoding is accepted. -/
theorem coreArithmeticWritesItsDestination : Obligations.CoreArithmeticWritesItsDestination := by
  rintro s c i p d a b h rfl rfl rfl rfl
  refine ⟨fun ho => regRow h ho rfl fun _ => ⟨rfl, rfl⟩, fun hp => ?alu, fun hp ho => coreShf_next h ho hp, fun ho => immRow h ho _,
    fun ho => immRow h ho _, fun ho => immRow h ho _, fun ho => immRow h ho _, fun ho hb => ?movi, fun hd ha => ?addr, fun ho h0 hd ha => ?toPair,
    fun ho h0 hd ha => ?toAddr, fun lit hl ho hd => coreLdaL_next lit hl ho hd⟩
  case alu =>
    refine ⟨fun ho => ?add, fun ho => ?sub, fun ho => aluRow h ho _ hp, fun ho => aluRow h ho _ hp, fun ho => aluRow h ho _ hp,
      fun ho => aluRow h ho _ hp⟩
    case add =>
      have hrow := aluRow h ho (fun wd a b => sumOf wd (i.toNat.testBit 5) (sx wd a + sx wd b)) hp
      simp only [put_sumOf] at hrow
      exact hrow
    case sub =>
      have hrow := aluRow h ho (fun wd a b => sumOf wd (i.toNat.testBit 5) (sx wd a - sx wd b)) hp
      simp only [put_diffOf] at hrow
      exact hrow
  case movi => exact regRow h ho (by simp [hb]) fun _ => ⟨rfl, rfl⟩
  case addr =>
    have hbad : (highA (insD i.toNat) || highA (insA i.toNat)) = false := by rw [highA_of_lt hd, highA_of_lt ha]; rfl
    exact ⟨fun ho => regRow h ho hbad fun _ => ⟨rfl, rfl⟩, fun ho => regRow h ho hbad fun _ => ⟨rfl, rfl⟩⟩
  case toPair =>
    have hbad : (oddPair (insD i.toNat) || highA (insA i.toNat)) = false := by rw [oddPair_of_even hd, highA_of_lt ha]; rfl
    change coreRow s c i 0x12 (movawIns c i.toNat) = _
    rw [movawIns, if_pos h0]
    exact regRow h ho hbad fun _ => ⟨rfl, rfl⟩
  case toAddr =>
    have hbad : (highA (insD i.toNat) || oddPair (insA i.toNat)) = false := by rw [highA_of_lt hd, oddPair_of_even ha]; rfl
    change coreRow s c i 0x12 (movawIns c i.toNat) = _
    rw [movawIns, if_neg (by rw [h0]; decide)]
    exact regRow h ho hbad fun _ => ⟨rfl, rfl⟩

/-! ### Compares and control transfers -/

/-- An issued compare whose encoding is accepted. -/
theorem cmpRow {s : State} {c op : Nat} {i : BitVec 32} (h : s.w.issues c i.toNat false) (ho : insOp i.toNat = op) (g : Bool → Bool → Bool)
    (hcc : bitsOf i.toNat 16 3 < 7) (himm : i.toNat.testBit 15 = false → bitsOf i.toNat 4 6 = 0)
    (hdw : i.toNat.testBit 14 = true → bitsOf i.toNat 10 4 % 2 = 0 ∧ (i.toNat.testBit 15 = false → bitsOf i.toNat 0 4 % 2 = 0)) :
    coreRow s c i op (cmpIns c i.toNat g) = .next (s.ran c 2 fun k => k.setP (insPd i.toNat) (g (k.p (insPd i.toNat))
      (cond (bitsOf i.toNat 16 3) (opWidth (i.toNat.testBit 14)) (k.get (i.toNat.testBit 14) (bitsOf i.toNat 10 4))
        (if i.toNat.testBit 15 then unI (opWidth (i.toNat.testBit 14)) (sx 10 (bitsOf i.toNat 0 10))
          else k.get (i.toNat.testBit 14) (bitsOf i.toNat 0 4))))) := by
  refine regRow h ho ?_ fun k => setP_st k _ _
  have hcc' : (bitsOf i.toNat 16 3 == 7) = false := by simp; omega
  cases h15 : i.toNat.testBit 15 <;> cases h14 : i.toNat.testBit 14 <;> simp_all [oddPair]

/-- The core that has gone from `pc` to `t` beside its branch target buffer: a CALL form, whose instruction has `len` words, leaves the return
address in A5 (R306). -/
def Core.gone (k : Core) (pc t len : Nat) (bt : List (Nat × Btb)) : Core :=
  ((if len = 0 then { k with btb := bt } else { k with btb := bt }.setA 5 ((pc + len) % 2 ^ 32))).retired pc t

/-- An issued control transfer of core `c` to `t` leaves the world `v`. -/
def World.goneTo (w : World) (c t len : Nat) (v : World) : Prop :=
  ∃ bt : List (Nat × Btb), v.core c = (w.ready c).gone (w.core c).pc t len bt
    ∧ (∀ j, j ≠ c → v.core j = w.core j) ∧ v.out = w.out ∧ Keeps [F.CX_PERF_BPMISS.id] w v

section Transfers

variable {s : State} {c op : Nat} {i : BitVec 32}

theorem goToRow {long : Bool} (h : s.w.issues c i.toNat long) (ho : insOp i.toNat = op) (mk : World → Ins)
    {t len : Nat} (hl : (mk (s.w.setCore c (s.w.core c))).long = long) (hb : (mk (s.w.setCore c (s.w.core c))).bad = false)
    (hy : (mk (s.w.setCore c (s.w.core c))).busy = false) (hp : (mk (s.w.setCore c (s.w.core c))).priv = false)
    (hj : ((mk (s.w.setCore c (s.w.core c))).jump.any fun t => t % 2 == 1) = false)
    (hgo : (mk (s.w.setCore c (s.w.core c))).go s.mem (s.w.setCore c (s.w.ready c))
      = (s.w.setCore c (s.w.ready c)).goTo s.mem c t (if len = 0 then none else some (((s.w.core c).pc + len) % 2 ^ 32))) :
    ∃ v, coreRow s c i op mk = .next (s.withW v) ∧ s.w.goneTo c t len v := by
  obtain ⟨hst, hstep⟩ := issues_ready h
  obtain ⟨v, bt, hv, hcore, hrest⟩ :=
    goTo_spec s c t (if len = 0 then none else some (((s.w.core c).pc + len) % 2 ^ 32)) (s.w.core c).pc hst hstep
  refine ⟨v, ?_, bt, ?_, hrest⟩
  · rw [coreRow_go h ho mk hl hb hy hp hj]
    simp only [onM, hgo, hv, State.withW]
  · rw [hcore]
    unfold Core.gone
    by_cases hlen : len = 0
    · simp only [if_pos hlen]
    · simp only [if_neg hlen]

theorem ready_pc (w : World) (c : Nat) : (w.ready c).pc = (w.core c).pc := by
  obtain ⟨l, f, hr⟩ := ready_fetchOnly w c
  rw [hr]

theorem ready_a (w : World) (c n : Nat) : (w.ready c).a n = (w.core c).a n := by
  obtain ⟨l, f, hr⟩ := ready_fetchOnly w c
  rw [hr]
  rfl

theorem branchRow (h : s.w.issues c i.toNat false) (ho : insOp i.toNat = op) (link : Bool) :
    ∃ v, coreRow s c i op (branchIns c i.toNat link) = .next (s.withW v)
      ∧ s.w.goneTo c (brTarget (s.w.core c).pc i.toNat) (if link then 2 else 0) v := by
  refine goToRow h ho (branchIns c i.toNat link) rfl rfl rfl rfl rfl ?_
  cases link <;> simp [branchIns, World.after, World.pcOf, ready_pc]

theorem jumpRow (h : s.w.issues c i.toNat false) (ho : insOp i.toNat = op) (link : Bool)
    (hz : (bitsOf i.toNat 18 4 == 0 && bitsOf i.toNat 0 15 == 0) = true) (heven : (s.w.core c).a (insN i.toNat) % 2 = 0) :
    ∃ v, coreRow s c i op (jumpIns c i.toNat link) = .next (s.withW v)
      ∧ s.w.goneTo c ((s.w.core c).a (insN i.toNat)) (if link then 2 else 0) v := by
  simp only [Bool.and_eq_true, beq_iff_eq] at hz
  refine goToRow h ho (jumpIns c i.toNat link) rfl (by simp [jumpIns, hz]) rfl rfl (by simp [jumpIns, heven]) ?_
  cases link <;> simp [jumpIns, World.after, World.pcOf, ready_pc, ready_a]

theorem longRow (h : s.w.issues c i.toNat true) (ho : insOp i.toNat = op) (link : Bool) (lit : BitVec 32)
    (hz : (bitsOf i.toNat 0 22 == 0) = true) (heven : lit.toNat % 2 = 0) :
    ∃ v, coreRow s c i op (longIns c i.toNat lit.toNat link) = .next (s.withW v) ∧ s.w.goneTo c lit.toNat (if link then 4 else 0) v := by
  rw [beq_iff_eq] at hz
  refine goToRow h ho (longIns c i.toNat lit.toNat link) rfl (by simp [longIns, hz]) rfl rfl (by simp [longIns, heven]) ?_
  cases link <;> simp [longIns, World.pcOf, ready_pc]

end Transfers

/-- Settles O38: compares and moves are register instructions, and every transfer is one `goTo`. -/
theorem corePredicatesAndBranches : Obligations.CorePredicatesAndBranches := by
  rintro s c i k h rfl
  refine ⟨?compare, ?logic, fun ho h0 => ?toWord, fun ho h0 => ?fromWord, fun lit e he ho hok heven hlong => ?transfer⟩
  case compare =>
    rintro cc dw a b y rfl rfl rfl rfl hcc himm hdw rfl
    exact ⟨fun ho => cmpRow h ho _ hcc himm hdw, fun ho => cmpRow h ho _ hcc himm hdw, fun ho => cmpRow h ho _ hcc himm hdw⟩
  case logic =>
    rintro fn rfl hfn hzero ho
    exact regRow h ho (by simp [hfn, hzero]) fun k => setP_st k _ _
  case toWord =>
    change coreRow s c i 0x1E (if i.toNat.testBit 0 then _ else _) = _
    rw [if_neg (by rw [h0]; decide)]
    exact regRow h ho rfl fun _ => ⟨rfl, rfl⟩
  case fromWord =>
    change coreRow s c i 0x1E (if i.toNat.testBit 0 then _ else _) = _
    rw [if_pos h0]
    exact regRow h ho rfl fun k => setPs_st _ _ k
  case transfer =>
    simp only [List.mem_cons, List.not_mem_nil, or_false] at he
    have hdone : ∀ {r : Res} {t len : Nat}, (∃ v, r = .next (s.withW v) ∧ s.w.goneTo c t len v) → ∃ (v : World) (bt : List (Nat × Btb)),
        r = .next (s.withW v) ∧ v.core c = (s.w.ready c).gone (s.w.core c).pc t len bt
        ∧ (∀ j, j ≠ c → v.core j = s.w.core j) ∧ v.out = s.w.out ∧ Keeps [F.CX_PERF_BPMISS.id] s.w v :=
      fun ⟨v, hv, bt, hrest⟩ => ⟨v, bt, hv, hrest⟩
    rcases he with rfl | rfl | rfl | rfl | rfl | rfl
    · exact hdone (branchRow h ho false)
    · exact hdone (branchRow h ho true)
    · exact hdone (jumpRow h ho false hok (heven.resolve_left (show ¬ 0x22 < 0x22 by decide)))
    · exact hdone (jumpRow h ho true hok (heven.resolve_left (show ¬ 0x23 < 0x22 by decide)))
    · exact hdone (longRow (hlong.resolve_left (show ¬ 0x24 < 0x24 by decide)) ho false lit hok (heven.resolve_left (show ¬ 0x24 < 0x22 by decide)))
    · exact hdone (longRow (hlong.resolve_left (show ¬ 0x25 < 0x24 by decide)) ho true lit hok (heven.resolve_left (show ¬ 0x25 < 0x22 by decide)))

end Sys2Proof.Machine

/-! Register reads and writes: what answers, what a write changes, and what stops it (R7, R19 to R22, R29, R355, R552). -/

namespace Sys2Proof.Machine

/-! ### Reads -/

section Reads

variable {s : State} {a : Agent} {g : Reg} {i : Nat} {c : Instr}

/-- A command that is the read of a register whose read does `f`. -/
theorem exec_readRow (hc : exec c s = onM s fun m w => w.readRow m a g i) (f : World → Agent → Nat → World × Nat) (hr : reader g i = some f)
    (hab : s.w.regAbsent g i = false) (hup : s.w.blockUp (g.islandOf 1 i)) {u : World} (hu : u = s.w.touch (blockIsl (g.islandOf 1 i))) :
    exec c s = .next (s.withW ((f u a i).1.answered a g i (f u a i).2)) := by
  rw [hc]
  unfold onM
  dsimp only
  rw [readRow_reader s.w u s.mem a g i f hr hab hup hu]
  rfl

/-- A read under a bound that its operand keeps. -/
theorem readRow_if {p : Prop} [Decidable p] (hp : p) :
    (onM s fun m w => if p then w.readRow m a g i else (m, w)) = onM s fun m w => w.readRow m a g i :=
  congrArg (onM s) (funext fun _ => funext fun _ => if_pos hp)

/-- A read of a register of an absent island answers 0. -/
theorem exec_readRow_absent (hc : exec c s = onM s fun m w => w.readRow m a g i) (h : s.w.absent (blockIsl (g.islandOf 1 i)) = true) :
    exec c s = .next (s.withW (s.w.emit (.read a 0))) := by
  rw [hc]
  unfold onM World.readRow
  dsimp only
  rw [h, if_pos rfl]
  rfl

/-- A host read of a register of an off island answers 0xFA11FA11. -/
theorem exec_readRow_off (hc : exec c s = onM s fun m w => w.readRow m .host g i) (h : s.w.absent (blockIsl (g.islandOf 1 i)) = false)
    (ho : s.w.on (blockIsl (g.islandOf 1 i)) = false) :
    exec c s = .next (s.withW ((s.w.hiErr F.HI_ERR_ISLAND_OFF (some (0, g.addr i))).emit (.read .host 0xFA11FA11))) := by
  rw [hc]
  unfold onM World.readRow
  dsimp only
  rw [h, ho, if_neg Bool.false_ne_true, if_neg Bool.false_ne_true]
  rfl

end Reads

theorem readCntLo_alone (u : World) (i : Nat) (h : u.f F.TM_CFG_CLKSRC i = 3) :
    u.readCntLo i = (u.sf F.TM_CNT_HI_C_HI i ((u.timer i).cnt / 2 ^ 32), (u.timer i).cnt % 2 ^ 32) := by
  unfold World.readCntLo
  dsimp only
  have hsrc : (u.sf F.TM_CNT_HI_C_HI i ((u.timer i).cnt / 2 ^ 32)).f F.TM_CFG_CLKSRC i = 3 := by rwa [f_sf_ne (h := by decide)]
  rw [if_pos hsrc]
  rfl

/-- What the read of the first nonce word leaves (R481). -/
theorem drawNonce_spec (u : World) : u.drawNonce.sec.fresh = true ∧ u.drawNonce.free = u.free + 8
    ∧ (∀ j < 8, u.drawNonce.f F.SEC_NONCE_NONCE j = Config.freeValue (u.free + j) % 2 ^ 32) ∧ Keeps [F.SEC_NONCE_NONCE.id] u u.drawNonce := by
  obtain ⟨hfree, hnonce, hkeep⟩ := drawFold u 8
  exact ⟨rfl, hfree, hnonce, hkeep.regs rfl⟩

/-- An answer changes the holding copies and the outputs only. -/
theorem answered_shape (v : World) (a : Agent) (g : Reg) (i x : Nat) : ∃ h o, v.answered a g i x = { v with hold := h, out := o } := by
  cases a with
  | host => exact ⟨v.hold, _, rfl⟩
  | core c => exact ⟨_, _, rfl⟩

/-- A latching _LO register of the ledger is read by its address (R278). -/
theorem elLoRead_row {s : State} {a : Agent} {addr i : Nat} {g h : Reg} (hm : (g, h) ∈ latchPairs) (hat : regAt 19 addr = some (g, i)) :
    exec (.elLoRead a addr) s = onM s fun m w => w.readRow m a g i := by
  have hl : (latchPairs.any fun e => e.1.id == g.id) = true := List.any_eq_true.mpr ⟨_, hm, beq_self_eq_true _⟩
  show (onM s fun m w => match regAt 19 addr with
    | some (g, i) => if latchPairs.any fun e => e.1.id == g.id then w.readRow m a g i else (m, w)
    | none => (m, w)) = _
  rw [hat]
  exact readRow_if hl

theorem blockOf_upper {m n o : Nat} (h : blockOf (4 * m) = some (n, o)) : blockOf (4 * m + 2) = some (n, o + 2) := by
  unfold blockOf at h ⊢
  split at h
  next h1 =>
    obtain ⟨rfl, rfl⟩ := Prod.mk.inj (Option.some.inj h)
    rw [if_pos (by omega)]
  next h1 =>
    split at h
    next h2 =>
      obtain ⟨rfl, rfl⟩ := Prod.mk.inj (Option.some.inj h)
      have hn : (4 * m + 2 - 0x10000) / 0x4000 = (4 * m - 0x10000) / 0x4000 := by omega
      have ho : (4 * m + 2 - 0x10000) % 0x4000 = (4 * m - 0x10000) % 0x4000 + 2 := by omega
      rw [if_neg (by omega), if_pos (by omega), hn, ho]
    next => cases h

/-- A register at an offset lies in a block that is present and on. -/
theorem regOf_at {w : World} {off i : Nat} {g : Reg} (h : w.regOf off = some (g, i)) : ∃ n o, blockOf off = some (n, o)
    ∧ w.absent (blockIsl n) = false ∧ w.on (blockIsl n) = true ∧ regAt n o = some (g, i) := by
  obtain ⟨⟨n, o⟩, hb⟩ := regOf_block h
  unfold World.regOf at h
  rw [hb] at h
  dsimp only at h
  split at h
  next => cases h
  next hup =>
    rw [Bool.or_eq_true, not_or, Bool.not_eq_true, Bool.not_eq_true', Bool.not_eq_false] at hup
    exact ⟨n, o, hb, hup.1, hup.2, h⟩

theorem readWord_upper {w : World} {m i : Nat} {g : Reg} {a : Agent} (hreg : w.regOf (4 * m) = some (g, i)) (hrd : (reader g i).isSome = true)
    (hab : w.regAbsent g i = false) : w.readWord a (4 * m + 2) = (w, w.held g i / 65536) := by
  have hlow : (4 * m + 2) / 4 * 4 = 4 * m := by omega
  have hmod : (4 * m + 2) % 4 ≠ 0 := by omega
  unfold World.readWord
  rw [hlow, hreg]
  dsimp only
  rw [if_neg hmod, hrd, hab]
  rfl

theorem holdingCopyRead_on {s : State} {c m i : Nat} {g : Reg} (hreg : s.w.regOf (4 * m) = some (g, i)) (hrd : (reader g i).isSome = true)
    (hab : s.w.regAbsent g i = false) : exec (.holdingCopyRead c (0x40000 + 2 * m + 1)) s
      = .next (s.withW (s.w.emit (.read (.core c) (s.w.held g i / 65536)))) := by
  have hoff : (0x40000 + 2 * m + 1 - 0x40000) * 2 = 4 * m + 2 := by omega
  have hin : ¬ (0x40000 + 2 * m + 1 < 0x40000 ∨ (4 * m + 2) % 4 ≠ 2) := by omega
  obtain ⟨n, o, hb, habs, hon, hat⟩ := regOf_at hreg
  have hb' := blockOf_upper hb
  have hup : s.w.blockOff (4 * m + 2) = false := by
    unfold World.blockOff
    rw [hb']
    dsimp only
    rw [habs, hon]
    rfl
  change execHoldingCopyRead c (0x40000 + 2 * m + 1) s = _
  unfold execHoldingCopyRead onM
  dsimp only
  rw [hoff, if_neg hin, hb']
  dsimp only
  rw [Nat.add_sub_cancel, hat, Option.any_some]
  dsimp only
  rw [hrd, Bool.not_true, if_neg Bool.false_ne_true, hup, if_neg Bool.false_ne_true]
  unfold World.readAt
  rw [readWord_upper hreg hrd hab]
  rfl

theorem pccSwresRead_row {s : State} {a : Agent} {i : Nat} (hi : i < 128) :
    exec (.pccSwresRead a i) s = onM s fun m w => w.readRow m a R.PCC_SWRES i := by
  change execPccSwresRead a i s = _
  unfold execPccSwresRead
  simp only [hi, if_true]

theorem pccSwresRead_icc {s : State} {a : Agent} {i : Nat} (hi : i < 4) :
    exec (.pccSwresRead a (128 + i)) s = onM s fun m w => w.readRow m a R.ICC_SWRES i := by
  have h1 : ¬ 128 + i < 128 := by omega
  have h2 : 128 + i < 132 := by omega
  change execPccSwresRead a (128 + i) s = _
  unfold execPccSwresRead
  simp only [h1, h2, if_true, if_false, Nat.add_sub_cancel_left]

/-- Settles O8: each row is the read of its register, whose reader is the model's, and `readRow_reader` answers it. -/
theorem latchingReadsTakeEffect : Obligations.LatchingReadsTakeEffect := by
  unfold Obligations.LatchingReadsTakeEffect
  intro s a
  refine ⟨fun g i u hu hab hup => ⟨?_, ?_, ?_, ?_, ?_, ?_, ?_, ?_, ?_, ?_⟩, fun c m g i => holdingCopyRead_on, ?_⟩
  · rintro rfl hi
    exact exec_readRow (c := .rscSwresRead a i) (readRow_if hi) _ rfl hab hup hu
  · rintro rfl hi
    exact exec_readRow (pccSwresRead_row hi) _ rfl hab hup hu
  · rintro rfl hi
    exact exec_readRow (pccSwresRead_icc hi) _ rfl hab hup hu
  · rintro rfl hi
    exact exec_readRow (c := .hkcResRead a i) (readRow_if hi) _ rfl hab hup hu
  · rintro rfl hi
    exact exec_readRow (c := .fcEntcRead a i) (readRow_if hi) _ rfl hab hup hu
  · rintro rfl rfl
    exact exec_readRow (c := .tbLoRead a) rfl _ rfl hab hup hu
  · rintro rfl hi hclk
    rw [exec_readRow (c := .tmCntLoRead a i) (readRow_if hi) (fun w _ t => w.readCntLo t) rfl hab hup hu, readCntLo_alone u i hclk]
  · rintro rfl hi
    exact exec_readRow (c := .tmCapLoRead a i) (readRow_if hi) _ rfl hab hup hu
  · intro h hm c hc
    have hrow : exec c s = onM s fun m w => w.readRow m a g i := by
      rcases hc with ⟨rfl, rfl, hi⟩ | ⟨rfl, rfl, hi⟩ | ⟨rfl, rfl, hi⟩ | ⟨rfl, rfl, rfl⟩ | ⟨addr, rfl, hat⟩
      · exact readRow_if hi
      · exact readRow_if hi
      · exact readRow_if hi
      · rfl
      · exact elLoRead_row hm hat
    exact exec_readRow hrow _ (reader_latch hm i) hab hup hu
  · rintro rfl rfl
    obtain ⟨hfresh, hfree, hnonce, hkeep⟩ := drawNonce_spec u
    obtain ⟨x, o, hx⟩ := answered_shape u.drawNonce a R.SEC_NONCE 0 (u.drawNonce.rawShow R.SEC_NONCE 0)
    refine ⟨_, exec_readRow (c := .nonceRead a) rfl _ rfl hab hup hu, ?_⟩
    show (u.drawNonce.answered a R.SEC_NONCE 0 (u.drawNonce.rawShow R.SEC_NONCE 0)).sec.fresh = true ∧ _
    dsimp only
    rw [hx]
    exact ⟨hfresh, hfree, hnonce, hkeep.regs rfl⟩
  · intro g i c hc
    have hrow : exec c s = onM s fun m w => w.readRow m a g i := by
      rcases hc with ⟨rfl, rfl, hi⟩ | ⟨rfl, rfl, hi⟩ | ⟨rfl, rfl, hi⟩
      · exact readRow_if hi
      · exact pccSwresRead_row hi
      · exact readRow_if hi
    refine ⟨exec_readRow_absent hrow, fun hab hoff ha => ?_⟩
    subst ha
    exact exec_readRow_off hrow hab hoff

end Sys2Proof.Machine

namespace Sys2Proof.Machine

/-! ### Writes -/

theorem f_writeField (u : World) (lk : Bool) (lo : Nat) (B : Fld) (j v mask : Nat) {x : World} (hx : x = u.writeField lk lo B j v mask)
    {y : Nat} (hy : y = B.cut lo v) :
    (B.acc = .rw → x.f B j = y)
    ∧ (B.acc = .w1c → x.f B j = (u.f B j - (u.f B j &&& y)) % 2 ^ B.wd)
    ∧ (B.acc = .ro ∨ B.acc = .wo → x.f B j = u.f B j)
    ∧ (B.acc = .lk → x.f B j = if lk then u.f B j else y)
    ∧ (B.acc = .rwo → B.cut lo mask ≠ 0 → x.f B j = if u.rwo.contains (B.key j) then u.f B j else y) := by
  subst hx hy
  unfold World.writeField
  refine ⟨fun h => ?_, fun h => ?_, fun h => ?_, fun h => ?_, fun h hhit => ?_⟩
  · rw [h]
    exact (f_sf_same _ _ _ _).trans (cut_lt _ _ _)
  · rw [h]
    exact f_sf_same _ _ _ _
  · rcases h with h | h <;> rw [h]
  · rw [h]
    cases lk with
    | true => rfl
    | false => exact (f_sf_same _ _ _ _).trans (cut_lt _ _ _)
  · have hb : (B.cut lo mask != 0) = true := bne_iff_ne.mpr hhit
    rw [h]
    dsimp only
    rw [hb, Bool.not_true, Bool.false_or]
    split
    · rfl
    · exact (f_sf_same u _ _ _).trans (cut_lt _ _ _)

section Requests

variable {w : World} {m : Mem} {off v : Nat}

/-- A host write of a whole register word below the doorbell pages goes to the register at its offset. -/
theorem hostWrite_at (hb : w.blockOff off = false) (h1 : off < 0x80000) (h2 : off % 4 = 0) (h3 : w.on 1 = true) :
    w.request m .host off v 0xFFFFFFFF = w.writeAt m .host off (v % 2 ^ 32) 0xFFFFFFFF := by
  have hin : ¬ (0x100000 ≤ off ∨ w.on 1 = false) := by rw [h3]; simp; omega
  have hlen : ¬ ((0xFFFFFFFF : Nat) % 2 ^ 32 ≠ 0xFFFFFFFF ∨ off % 4 ≠ 0) := by omega
  have hpage : within 0x80000 0x8FFFF off = false := by simp [within]; omega
  show w.hostWrite m off _ _ = _
  unfold World.hostWrite
  rw [if_neg hin, if_neg hlen, hpage, if_neg Bool.false_ne_true, hb, if_neg Bool.false_ne_true]

/-- A core's write of a register word in a block that is not off goes to the register at its offset. -/
theorem coreWrite_at {c mask : Nat} {x : Nat × Nat} (hx : blockOf off = some x) (hb : w.blockOff off = false) (h2 : off % 4 = 0) :
    w.request m (.core c) off v mask = w.writeAt m (.core c) off (v % 2 ^ 32) (mask % 2 ^ 32) := by
  unfold World.request
  dsimp only
  rw [if_neg (not_not_intro h2), hx]
  dsimp only
  rw [hb, if_neg Bool.false_ne_true]

theorem writeAt_reg {a : Agent} {g : Reg} {i mask : Nat} (h : w.regOf off = some (g, i)) : w.writeAt m a off v mask = w.writeReg m a g i v mask := by
  unfold World.writeAt
  rw [h]

theorem blockOf_lt {x : Nat × Nat} (h : blockOf off = some x) : off < 0x68000 := by
  unfold blockOf at h
  split at h
  next h1 => omega
  next => split at h
          next h2 => exact h2
          next => cases h

/-- The host's write to a block of an off island is dropped. -/
theorem hostWrite_off (h : w.blockOff off = true) {x : Nat × Nat} (hx : blockOf off = some x) (h2 : off % 4 = 0) (h3 : w.on 1 = true) :
    w.request m .host off v 0xFFFFFFFF = (m, w.hiErr F.HI_ERR_ISLAND_OFF (some (0, off))) := by
  have hlt := blockOf_lt hx
  have hin : ¬ (0x100000 ≤ off ∨ w.on 1 = false) := by rw [h3]; simp; omega
  have hlen : ¬ ((0xFFFFFFFF : Nat) % 2 ^ 32 ≠ 0xFFFFFFFF ∨ off % 4 ≠ 0) := by omega
  have hpage : within 0x80000 0x8FFFF off = false := by simp [within]; omega
  show w.hostWrite m off _ _ = _
  unfold World.hostWrite
  rw [if_neg hin, if_neg hlen, hpage, if_neg Bool.false_ne_true, h, if_pos rfl]

theorem busError_on {c cause addr : Nat} (hc : c < w.nCores) (ha : w.awake c = true) :
    w.busError m c cause addr = w.enter m c cause addr (w.core c).pc none := if_pos ⟨hc, ha⟩

/-- A core's write to a block of an off island (R20). -/
theorem coreWrite_off {c mask n o : Nat} (h : w.blockOff off = true) (hx : blockOf off = some (n, o)) (h2 : off % 4 = 0) (hc : c < w.nCores)
    (ha : w.awake c = true) (hst : w.stalled c = false) :
    w.request m (.core c) off v mask = if (w.f F.PM_AUTOWAKE_AW 0).testBit (blockIsl n)
      then (m, w.stall c (blockIsl n) (.write off (v % 2 ^ 32) (mask % 2 ^ 32)))
      else w.enter m c 0x13 (0x40000 + off / 2) (w.core c).pc none := by
  have hgo : ¬ (w.nCores ≤ c ∨ w.awake c = false ∨ w.stalled c = true) := by rw [ha, hst]; simp; omega
  unfold World.request
  dsimp only
  rw [if_neg (not_not_intro h2), hx]
  dsimp only
  rw [h, if_pos rfl]
  unfold World.offRequest
  rw [if_neg hgo, busError_on hc ha]

end Requests

theorem writeReg_own {w : World} {g : Reg} {i mask : Nat} (m : Mem) (a : Agent) (v : Nat) {e : Reg × Wr} (hab : w.regAbsent g i = false)
    (hw : (writers.find? fun e => e.1.id == g.id) = some e) (hm : (g.lay.any fun e => e.2.1.cut e.1 mask != 0) = true) {u : World}
    (hu : u = w.touch (blockIsl (g.islandOf 1 i))) : w.writeReg m a g i v mask = e.2 m u a i (mergeMask (u.keepBits g i) v mask) mask := by
  subst hu
  unfold World.writeReg
  rw [hab, hm, if_neg (by decide)]
  dsimp only
  rw [hw]

section Writes

variable {s : State} {g : Reg} {i off v : Nat} {u : World}

theorem exec_write {a : Agent} {mask : Nat} {r : Mem × World} (h : s.w.request s.mem a off v mask = r) :
    exec (.registerWrite a off v mask) s = .next { s with mem := r.1, w := r.2 } := by
  subst h
  rfl

theorem hostWrite_plain (hg : g ∈ allRegs) (hreg : s.w.regOf off = some (g, i)) (hab : s.w.regAbsent g i = false)
    (hu : u = s.w.touch (blockIsl (g.islandOf 1 i))) (h1 : off < 0x80000) (h2 : off % 4 = 0) (h3 : s.w.on 1 = true)
    (hw : (writers.find? fun e => e.1.id == g.id) = none) :
    exec (.registerWrite .host off v 0xFFFFFFFF) s = .next (s.withW (u.plain g i (v % 2 ^ 32) 0xFFFFFFFF)) := by
  have hany := List.all_eq_true.mp lays_any g hg
  have hreq : s.w.request s.mem .host off v 0xFFFFFFFF = (s.mem, u.plain g i (v % 2 ^ 32) 0xFFFFFFFF) := by
    rw [hostWrite_at (regOf_blockOff hreg) h1 h2 h3, writeAt_reg hreg, writeReg_plain s.mem .host _ hab hw hany hu]
    exact congrArg (fun x => (s.mem, u.plain g i x 0xFFFFFFFF)) (mergeMask_all _ v)
  exact exec_write hreq

theorem hostWrite_own (hreg : s.w.regOf off = some (g, i)) (hab : s.w.regAbsent g i = false)
    (hu : u = s.w.touch (blockIsl (g.islandOf 1 i))) (h1 : off < 0x80000) (h2 : off % 4 = 0) (h3 : s.w.on 1 = true) {e : Reg × Wr}
    (hw : (writers.find? fun e => e.1.id == g.id) = some e) (hm : (g.lay.any fun e => e.2.1.cut e.1 0xFFFFFFFF != 0) = true)
    {r : Mem × World} (hr : r = e.2 s.mem u .host i (v % 2 ^ 32) 0xFFFFFFFF) :
    exec (.registerWrite .host off v 0xFFFFFFFF) s = .next { s with mem := r.1, w := r.2 } := by
  have hreq : s.w.request s.mem .host off v 0xFFFFFFFF = r := by
    rw [hostWrite_at (regOf_blockOff hreg) h1 h2 h3, writeAt_reg hreg, writeReg_own s.mem .host _ hab hw hm hu, hr]
    exact congrArg (fun x => e.2 s.mem u .host i x 0xFFFFFFFF) (mergeMask_all _ v)
  exact exec_write hreq

theorem coreWrite_plain {c mask : Nat} (hreg : s.w.regOf off = some (g, i)) (hab : s.w.regAbsent g i = false)
    (hu : u = s.w.touch (blockIsl (g.islandOf 1 i))) (h2 : off % 4 = 0) (hw : (writers.find? fun e => e.1.id == g.id) = none)
    (hm : (g.lay.any fun e => e.2.1.cut e.1 (mask % 2 ^ 32) != 0) = true) :
    exec (.registerWrite (.core c) off v mask) s = .next (s.withW
      (u.plain g i (mergeMask (u.keepBits g i) (v % 2 ^ 32) (mask % 2 ^ 32)) (mask % 2 ^ 32))) := by
  obtain ⟨x, hx⟩ := regOf_block hreg
  have hreq : s.w.request s.mem (.core c) off v mask
      = (s.mem, u.plain g i (mergeMask (u.keepBits g i) (v % 2 ^ 32) (mask % 2 ^ 32)) (mask % 2 ^ 32)) := by
    rw [coreWrite_at hx (regOf_blockOff hreg) h2, writeAt_reg hreg, writeReg_plain s.mem _ _ hab hw hm hu]
  exact exec_write hreq

end Writes

/-- What a plain write of a whole register leaves in each field, by its access type (R7). -/
theorem plain_fields {g : Reg} (hg : g ∈ allRegs) (u : World) (i v : Nat) {x : World} (hx : x = u.plain g i v 0xFFFFFFFF) :
    ∀ e ∈ g.lay, ∀ F j y, F = e.2.1 → j = i * F.sub + e.2.2 → y = F.cut e.1 v →
      (F.acc = .rw → x.f F j = y)
      ∧ (F.acc = .w1c → x.f F j = (u.f F j - (u.f F j &&& y)) % 2 ^ F.wd)
      ∧ (F.acc = .ro ∨ F.acc = .wo → x.f F j = u.f F j)
      ∧ (F.acc = .lk → x.f F j = if u.lkSet F then u.f F j else y)
      ∧ (F.acc = .rwo → F.cut e.1 0xFFFFFFFF ≠ 0 → x.f F j = if u.rwo.contains (F.key j) then u.f F j else y) := by
  intro e he F j y hF hj hy
  subst hF hj
  obtain ⟨w1, hval, hrwo, hfold⟩ := fold_field u.lkSet i v 0xFFFFFFFF g.lay u (List.all_eq_true.mp lays_dist g hg) e he
  have hfx : x.f e.2.1 (i * e.2.1.sub + e.2.2)
      = (w1.writeField (u.lkSet e.2.1) e.1 e.2.1 (i * e.2.1.sub + e.2.2) v 0xFFFFFFFF).f e.2.1 (i * e.2.1.sub + e.2.2) := by
    rw [hx]
    exact hfold
  rw [hfx, ← hval, ← hrwo]
  exact f_writeField w1 (u.lkSet e.2.1) e.1 e.2.1 _ v 0xFFFFFFFF rfl hy

section Timeouts

variable {s : State} {off n o : Nat}

/-- A block whose island is on has not answered (R29). -/
theorem requestTimeout_host (hb : blockOf off = some (n, o)) (habs : s.w.absent (blockIsl n) = false) (hon : s.w.on (blockIsl n) = true) :
    exec (.registerRequestTimeout .host off) s
      = .next (s.withW ((s.w.hiErr F.HI_ERR_ISLAND_TIMEOUT (some (0, off))).emit (.read .host 0xFA11FA11))) := by
  change execRegisterRequestTimeout .host off s = _
  unfold execRegisterRequestTimeout onM
  simp only [hb, habs, hon, Bool.not_false, Bool.true_and, Bool.not_true, Bool.false_eq_true, if_false]
  rfl

theorem requestTimeout_core (hb : blockOf off = some (n, o)) (habs : s.w.absent (blockIsl n) = false) (hon : s.w.on (blockIsl n) = true)
    {c : Nat} (hc : c < s.w.nCores) (ha : s.w.awake c = true) {r : Mem × World}
    (hr : r = s.w.enter s.mem c 0x14 (0x40000 + off / 2) (s.w.core c).pc none) :
    exec (.registerRequestTimeout (.core c) off) s = .next { s with mem := r.1, w := r.2 } := by
  subst hr
  change execRegisterRequestTimeout (.core c) off s = _
  unfold execRegisterRequestTimeout onM
  simp only [hb, habs, hon, Bool.not_false, Bool.true_and, Bool.not_true, Bool.false_eq_true, if_false, busError_on hc ha]

end Timeouts

/-! ### Stalled accesses -/

/-- What ends core `c`'s wait for island `n`: the access leaves the list and goes on, or is late (R20). -/
theorem endStall_go {w z : World} {m : Mem} {c n : Nat} {op : StallOp} {late : Bool}
    (hf : (w.pwr.stalls.find? fun e => e.1 == c) = some (c, n, op))
    (hz : z = { w with pwr := { w.pwr with stalls := w.pwr.stalls.filter fun e => e.1 != c } })
    (hon : w.on n = !late) (hp : late = true → w.past (.access c) 3000 = true) :
    (∀ i, op = .ins i → w.endStall m c late = z.again m c i late)
    ∧ (∀ addr v mask, op = .write addr v mask → w.endStall m c late
      = if late then z.busError m c 0x13 (0x40000 + addr / 2) else z.writeAt m (.core c) addr v mask)
    ∧ (∀ addr, op = .read addr → w.endStall m c late = if late then z.busError m c 0x13 (0x40000 + addr / 2) else (m, z.readAt c addr)) := by
  have hgo : ¬ (w.on n = late ∨ (late && !w.past (.access c) 3000) = true) := by
    cases late with
    | false => simp [hon]
    | true => simp [hon, hp rfl]
  subst hz
  unfold World.endStall
  rw [hf]
  dsimp only
  rw [if_neg hgo]
  refine ⟨fun i h => ?_, fun addr v mask h => ?_, fun addr h => ?_⟩
  all_goals
    subst h
    rfl

/-- The island of core `c`'s waiting access is on, and the access goes on. -/
theorem autowakeAccess_go {s : State} {z : World} {c n : Nat} {op : StallOp} (hf : (s.w.pwr.stalls.find? fun e => e.1 == c) = some (c, n, op))
    (hz : z = { s.w with pwr := { s.w.pwr with stalls := s.w.pwr.stalls.filter fun e => e.1 != c } }) (hon : s.w.on n = true) :
    (∀ addr x mask r, op = .write addr x mask → r = z.writeAt s.mem (.core c) addr x mask →
      exec (.autowakeAccess c) s = .next { s with mem := r.1, w := r.2 })
    ∧ (∀ addr, op = .read addr → exec (.autowakeAccess c) s = .next (s.withW (z.readAt c addr)))
    ∧ (∀ i r, op = .ins i → r = z.again s.mem c i false → exec (.autowakeAccess c) s = .next { s with mem := r.1, w := r.2 }) := by
  obtain ⟨hins, hwrite, hread⟩ := endStall_go (m := s.mem) (late := false) hf hz hon fun h => nomatch h
  have hex : ∀ r, s.w.endStall s.mem c false = r → exec (.autowakeAccess c) s = .next { s with mem := r.1, w := r.2 } :=
    fun r h => by subst h; rfl
  refine ⟨fun addr x mask r hop hr => ?_, fun addr hop => ?_, fun i r hop hr => ?_⟩
  · subst hr
    exact hex _ (hwrite addr x mask hop)
  · exact hex _ (hread addr hop)
  · subst hr
    exact hex _ (hins i hop)

/-- The island of core `c`'s waiting access has not come within 3 µs. -/
theorem autowakeTimeout_go {s : State} {w z : World} {c n t : Nat} {op : StallOp}
    (hf : (s.w.pwr.stalls.find? fun e => e.1 == c) = some (c, n, op)) (hw : w = s.w.upTo t)
    (hz : z = { w with pwr := { w.pwr with stalls := w.pwr.stalls.filter fun e => e.1 != c } }) (hon : w.on n = false)
    (hp : w.past (.access c) 3000 = true) :
    (∀ addr, op = .read addr ∨ (∃ x mask, op = .write addr x mask) → c < z.nCores → z.awake c = true →
      ∀ r, r = z.enter s.mem c 0x13 (0x40000 + addr / 2) (z.core c).pc none →
      exec (.autowakeTimeout c t) s = .next { s with mem := r.1, w := r.2 })
    ∧ (∀ i r, op = .ins i → r = z.again s.mem c i true → exec (.autowakeTimeout c t) s = .next { s with mem := r.1, w := r.2 }) := by
  have hf' : (w.pwr.stalls.find? fun e => e.1 == c) = some (c, n, op) := by rw [hw, pwr_upTo]; exact hf
  obtain ⟨hins, hwrite, hread⟩ := endStall_go (m := s.mem) (late := true) hf' hz hon fun _ => hp
  have hex : ∀ r, w.endStall s.mem c true = r → exec (.autowakeTimeout c t) s = .next { s with mem := r.1, w := r.2 } :=
    fun r h => by subst h hw; rfl
  refine ⟨fun addr hop hc ha r hr => ?_, fun i r hop hr => ?_⟩
  · subst hr
    have herr := busError_on (m := s.mem) (cause := 0x13) (addr := 0x40000 + addr / 2) hc ha
    rcases hop with hop | ⟨x, mask, hop⟩
    · exact hex _ ((hread addr hop).trans herr)
    · exact hex _ ((hwrite addr x mask hop).trans herr)
  · subst hr
    exact hex _ (hins i hop)

/-! ### Requests of a wrong length -/

theorem badlen_flagged {s : State} {off : Nat} {z : World} (h1 : s.w.on 1 = true) (ho : off < 0x100000)
    (hz : z = s.w.hiErr F.HI_ERR_BADLEN (some (0, off))) :
    exec (.badlenRequest off 0) s = .next (s.withW z)
    ∧ exec (.badlenRequest off 1) s
      = .next (s.withW (World.emit { z with pcie := { z.pcie with aer := { z.pcie.aer with unc := z.pcie.aer.unc ||| 2 ^ 15 } } } .abort))
    ∧ exec (.badlenRequest off 2) s = .next (s.withW ((z.hostRead (off / 4 * 4)).1.emit (.read .host (z.hostRead (off / 4 * 4)).2))) := by
  subst hz
  have hgo : ∀ kind, exec (.badlenRequest off kind) s = .next (s.withW (s.w.badLen off kind)) := fun kind => by
    change onW s (fun w => if w.on 1 ∧ off < 0x100000 then w.badLen off kind else w) = _
    unfold onW
    dsimp only
    rw [if_pos ⟨h1, ho⟩]
    rfl
  exact ⟨hgo 0, hgo 1, hgo 2⟩

/-- Settles O7: the request finds its register, block or doorbell by its offset, and the register's writer or `plain` gives the fields. -/
theorem registerWritesFollowAccessTypes : Obligations.RegisterWritesFollowAccessTypes := by
  unfold Obligations.RegisterWritesFollowAccessTypes
  intro s off v
  refine ⟨fun g i u hg hreg hab hu => ⟨fun h1 h2 h3 hw => ?_, fun e h1 h2 h3 hw hm r hr => hostWrite_own hreg hab hu h1 h2 h3 hw hm hr,
      fun c mask h2 hw hm => coreWrite_plain hreg hab hu h2 hw hm⟩, fun hreg hb h1 h2 h3 => ?_, fun n o isl hb hisl hoff h2 => ?_,
    fun n o hb habs hon => ⟨requestTimeout_host hb habs hon, fun c r hc ha hr => requestTimeout_core hb habs hon hc ha hr⟩,
    fun z h1 ho hz => badlen_flagged h1 ho hz,
    fun c n op t z w hf hw => ⟨fun hz hon => autowakeAccess_go hf hz hon, fun hz hon hp => autowakeTimeout_go hf hw hz hon hp⟩⟩
  · exact ⟨_, hostWrite_plain hg hreg hab hu h1 h2 h3 hw, plain_fields hg u i (v % 2 ^ 32) rfl,
      plain_keeps u g i _ _ (List.all_eq_true.mp lays_dist g hg)⟩
  · have hreq : s.w.request s.mem .host off v 0xFFFFFFFF = (s.mem, s.w) := by
      rw [hostWrite_at hb h1 h2 h3]
      unfold World.writeAt
      rw [hreg]
    exact exec_write hreq
  · subst hisl
    refine ⟨fun h3 => exec_write (hostWrite_off hoff hb h2 h3), fun c mask hc ha hst => ?_⟩
    have hreq := coreWrite_off (m := s.mem) (v := v) (mask := mask) hoff hb h2 hc ha hst
    refine ⟨fun haw r hr => ?_, fun haw => ?_⟩
    · rw [haw, if_neg Bool.false_ne_true] at hreq
      exact hr ▸ exec_write hreq
    · rw [haw, if_pos rfl] at hreq
      exact exec_write hreq

/-! ### Semaphores -/

theorem holder_touch (w : World) (i : Nat) : (w.touch 12).f F.IC_SEM_HOLDER i = w.f F.IC_SEM_HOLDER i :=
  (touch_keeps w 12).f (by decide) i

set_option maxRecDepth 8000 in
/-- The release's register, whose writer takes the 0. -/
theorem semRelease_reg : ∀ j < 8, blockIsl (R.IC_SEM.islandOf 1 j) = 12 ∧ blockOf (R.IC_SEM.addr j) = some (12, 0x1880 + 4 * j) ∧ regAt 12 (0x1880 + 4 * j) = some (R.IC_SEM, j)
    ∧ R.IC_SEM.addr j < 0x80000 ∧ R.IC_SEM.addr j % 4 = 0 := by
  decide

theorem semRelease_go {w : World} {m : Mem} {a : Agent} {j : Nat} (hon : w.on 12 = true) (hj : j < 8) (ha : w.on 1 = true ∨ a ≠ .host) :
    w.request m a (R.IC_SEM.addr j) 0 0xFFFFFFFF = (m, (w.touch 12).sf F.IC_SEM_HOLDER j 0xF) := by
  obtain ⟨hsem, hb, hat, hlt, hmod⟩ := semRelease_reg j hj
  have habs : w.absent 12 = false := by simp [World.absent]
  have hreg : w.regOf (R.IC_SEM.addr j) = some (R.IC_SEM, j) := by
    unfold World.regOf
    rw [hb]
    dsimp only
    have hisl : blockIsl 12 = 12 := rfl
    rw [hisl, habs, hon]
    exact hat
  have hwrite : w.writeReg m a R.IC_SEM j 0 0xFFFFFFFF = (m, (w.touch 12).sf F.IC_SEM_HOLDER j 0xF) := by
    rw [writeReg_own (e := (R.IC_SEM, wrW World.writeSem)) m a 0 (regAbsent_off w _ _ (by decide)) rfl (by decide) rfl, hsem]
    have hz : mergeMask ((w.touch 12).keepBits R.IC_SEM j) 0 0xFFFFFFFF = 0 := mergeMask_all _ 0
    show (m, (w.touch 12).writeSem j _) = _
    rw [hz]
    rfl
  cases a with
  | host => rw [hostWrite_at (regOf_blockOff hreg) hlt hmod (ha.resolve_right fun h => h rfl), writeAt_reg hreg]; exact hwrite
  | core c => rw [coreWrite_at hb (regOf_blockOff hreg) hmod, writeAt_reg hreg]; exact hwrite

/-- A semaphore whose holder is set: the other ones stay. -/
theorem setHolder_spec (w : World) (j h : Nat) : ((w.touch 12).sf F.IC_SEM_HOLDER j h).f F.IC_SEM_HOLDER j = h % 16
    ∧ (∀ i < 8, i ≠ j → ((w.touch 12).sf F.IC_SEM_HOLDER j h).f F.IC_SEM_HOLDER i = w.f F.IC_SEM_HOLDER i)
    ∧ Keeps [F.IC_SEM_HOLDER.id] (w.touch 12) ((w.touch 12).sf F.IC_SEM_HOLDER j h) :=
  ⟨f_sf_same _ _ _ _, fun i _ hi => (f_sf_inst _ _ hi).trans (holder_touch w i), (Keeps.refl _ _).sf (by decide)⟩

/-- Settles O45: the read goes through the reader of IC_SEM, the release through its writer. -/
theorem semaphoresAreTakenOnce : Obligations.SemaphoresAreTakenOnce := by
  unfold Obligations.SemaphoresAreTakenOnce
  intro s a j hon hj hcore
  have habs : s.w.absent 12 = false := by simp [World.absent]
  obtain ⟨hsem, -⟩ := semRelease_reg j hj
  have hread : exec (.icSemRead a j) s = .next (s.withW (((s.w.touch 12).readSem a j).1.answered a R.IC_SEM j ((s.w.touch 12).readSem a j).2)) :=
    exec_readRow (c := .icSemRead a j) (readRow_if hj) (fun w a j => w.readSem a j) rfl (regAbsent_off _ _ _ (by decide)) (by unfold World.blockUp; rw [hsem]; exact ⟨habs, hon⟩) (by rw [hsem])
  have hhold : holderOf a % 16 = holderOf a := by
    cases a with
    | host => rfl
    | core c => exact Nat.mod_eq_of_lt (Nat.lt_trans (hcore c rfl) (by decide))
  refine ⟨fun hfree => ?_, fun hheld => ?_, fun ha => ?_⟩
  · obtain ⟨hsame, hother, hkeep⟩ := setHolder_spec s.w j (holderOf a)
    have hsem : (s.w.touch 12).readSem a j = ((s.w.touch 12).sf F.IC_SEM_HOLDER j (holderOf a), 1 + 16 * holderOf a) :=
      if_pos ((holder_touch s.w j).trans hfree)
    rw [hsem] at hread
    exact ⟨_, hread, hsame.trans hhold, hother, hkeep⟩
  · have hsem : (s.w.touch 12).readSem a j = (s.w.touch 12, 16 * (s.w.touch 12).f F.IC_SEM_HOLDER j) :=
      if_neg fun h => hheld ((holder_touch s.w j).symm.trans h)
    rw [hsem, holder_touch] at hread
    exact hread
  · obtain ⟨hsame, hother, hkeep⟩ := setHolder_spec s.w j 0xF
    have hrel : exec (.icSemRelease a j) s = .next (s.withW ((s.w.touch 12).sf F.IC_SEM_HOLDER j 0xF)) := by
      change onM s (fun m w => if j < 8 then w.request m a (R.IC_SEM.addr j) 0 0xFFFFFFFF else (m, w)) = _
      unfold onM
      dsimp only
      rw [if_pos hj, semRelease_go hon hj ha]
      rfl
    exact ⟨_, hrel, hsame, hother, hkeep⟩

end Sys2Proof.Machine

/-! Loads and stores of a core (R305, R308, R317, R318). -/

namespace Sys2Proof.Machine

section MemGo

variable {w : World} {m : Mem} {c i : Nat} {x : MemKind} {a : Nat} {upd : Option Nat}

/-- The access is even where it has two words (R308). -/
def MemKind.aligned (x : MemKind) (a : Nat) : Prop := x.words = 2 → a % 2 = 0

theorem memGo_odd (he : (w.core c).ea i = (a, upd)) (hx : x.words = 2) (ha : a % 2 = 1) :
    w.memGo m c i x false = .exc m w 0x10 a (w.core c).pc := by
  unfold World.memGo
  dsimp only
  rw [he]
  exact if_pos ⟨hx, ha⟩

theorem not_odd {x : MemKind} {a : Nat} (h : x.aligned a) : ¬ (x.words = 2 ∧ a % 2 = 1) := fun ⟨hx, ha⟩ => by
  have := h hx
  omega

theorem memGo_refused (he : (w.core c).ea i = (a, upd)) (hx : x.aligned a) (hm : (w.core c).mpuOk (b2n x.store) a = false) :
    w.memGo m c i x false = .exc m w (if x.store then 0x0A else 0x09) a (w.core c).pc := by
  unfold World.memGo
  dsimp only
  rw [he]
  dsimp only
  rw [if_neg (not_odd hx), hm]
  rfl

/-- An access that the MPU takes is the bus's. -/
theorem memGo_err {e : Nat} (he : (w.core c).ea i = (a, upd)) (hx : x.aligned a) (hm : (w.core c).mpuOk (b2n x.store) a = true)
    (hb : w.bus c a x.store false = .err e) : w.memGo m c i x false = .exc m w e a (w.core c).pc := by
  unfold World.memGo
  dsimp only
  rw [he]
  dsimp only
  rw [if_neg (not_odd hx), hm, hb]
  rfl

theorem memGo_wake {n : Nat} (he : (w.core c).ea i = (a, upd)) (hx : x.aligned a) (hm : (w.core c).mpuOk (b2n x.store) a = true)
    (hb : w.bus c a x.store false = .wake n) : w.memGo m c i x false = .hold m (w.stall c n (.ins i)) := by
  unfold World.memGo
  dsimp only
  rw [he]
  dsimp only
  rw [if_neg (not_odd hx), hm, hb]
  rfl

theorem memGo_store (he : (w.core c).ea i = (a, upd)) (hx : x.aligned a) (hm : (w.core c).mpuOk (b2n x.store) a = true)
    (hb : w.bus c a x.store false = .ok) (hs : x.store = true) {m' : Mem} {w' : World}
    (hr : w.coreStore m c a (x.source (w.core c) (insD i)) = (m', w')) :
    w.memGo m c i x false = .next m' (w'.setCore c ((w'.core c).advA i upd)) (w'.after c) := by
  unfold World.memGo
  dsimp only
  rw [he]
  dsimp only
  rw [if_neg (not_odd hx), hm, hb]
  simp only [hs, hr, Bool.not_true, Bool.false_eq_true, if_false, if_true]

theorem memGo_load (he : (w.core c).ea i = (a, upd)) (hx : x.aligned a) (hm : (w.core c).mpuOk (b2n x.store) a = true)
    (hb : w.bus c a x.store false = .ok) (hs : x.store = false) {m' : Mem} {w' : World} {l : List Nat}
    (hr : w.coreLoad m c a x.words = (m', w', l)) :
    w.memGo m c i x false = .next m' (w'.setCore c (x.sink ((w'.core c).advA i upd) (insD i) l)) (w'.after c) := by
  unfold World.memGo
  dsimp only
  rw [he]
  dsimp only
  rw [if_neg (not_odd hx), hm, hb]
  simp only [hs, hr, Bool.not_true, Bool.false_eq_true, if_false]

end MemGo

/-- A load that one buffered store covers exactly takes its words (R317). -/
theorem coreLoad_forward {w : World} {m : Mem} {c a n j : Nat} {l : List Nat} (hr : isReg a = false)
    (ho : (w.core c).overlap (w.memAddr (w.coreAddr c a)) n = some (j, w.memAddr (w.coreAddr c a), l)) (hl : l.length = n) :
    w.coreLoad m c a n = (m, w, l) := by
  unfold World.coreLoad
  rw [hr, if_neg Bool.false_ne_true]
  dsimp only
  rw [ho]
  dsimp only
  rw [if_pos ⟨rfl, hl⟩]

/-- What an instruction that changes core `c` by `f`, beside a world `v`, leaves when it is done. -/
theorem finish_setCore {v : World} {m : Mem} {c old : Nat} {k : Core} (h1 : k.st = 1) (h2 : k.stepping = false) (pc : Nat) :
    (Exe.next m (v.setCore c k) pc).finish c old = (m, v.setCore c (k.retired old pc)) :=
  congrArg (m, ·) (retire_setCore h1 h2 old pc)

/-- The words of a store wait in core `k`'s buffer for the memory word `y`, and its own line of them is invalid (R318, R345). -/
def Core.stored (k : Core) (y : Nat) (l : List Nat) : Core :=
  { k with sb := k.sb ++ [(y, l)], lines := k.lines.filter fun l => l.1 != lineAt y }

theorem stored_st (k : Core) (y : Nat) (l : List Nat) : (k.stored y l).st = k.st ∧ (k.stored y l).stepping = k.stepping ∧ (k.stored y l).pc = k.pc :=
  ⟨rfl, rfl, rfl⟩

section MemRows

variable {s : State} {c : Nat} {i : BitVec 32} {u : World} {a : Nat} {upd : Option Nat} {x : MemKind}

theorem ran_exec {op : Nat} {e : Exe} (h : s.w.issues c i.toNat false) (ho : insOp i.toNat = op) (hm : memBad i.toNat = false)
    (hb : x.bad (insD i.toNat) = false) (hu : u = s.w.setCore c (s.w.ready c)) (he : u.memGo s.mem c i.toNat x false = e) {r : Mem × World}
    (hr : e.finish c (s.w.core c).pc = r) : coreRow s c i op (memIns c i.toNat x) = .next { s with mem := r.1, w := r.2 } := by
  subst hu he hr
  exact memRow x h ho hm hb

/-- A store that the bus takes waits in the buffer (R318). -/
theorem store_next (h : s.w.issues c i.toNat false) (hu : u = s.w.setCore c (s.w.ready c)) (he : (u.core c).ea i.toNat = (a, upd))
    (hx : x.aligned a) (hm : (u.core c).mpuOk (b2n x.store) a = true) (hb : u.bus c a x.store false = .ok) (hreg : isReg a = false)
    (hs : x.store = true) (hsb : (s.w.ready c).sb.length < 4) {y : Nat} (hy : y = u.memAddr (u.coreAddr c a)) :
    (u.memGo s.mem c i.toNat x false).finish c (s.w.core c).pc = (s.mem, ((s.ran c 2 fun k =>
      (k.stored y (x.source k (insD i.toNat))).advA i.toNat upd).touched y).w) := by
  obtain ⟨hst, hstep⟩ := issues_ready h
  have hcore : u.core c = s.w.ready c := by rw [hu, core_setCore]
  have hstore : u.coreStore s.mem c a (x.source (u.core c) (insD i.toNat))
      = (s.mem, (s.w.touchAt y).setCore c ((s.w.ready c).stored y (x.source (u.core c) (insD i.toNat)))) := by
    subst hu hy
    exact coreStore_buffer s.w s.mem c (s.w.ready c) a _ hreg hsb
  obtain ⟨hst', hstep', hpc⟩ := stored_st (s.w.ready c) y (x.source (s.w.ready c) (insD i.toNat))
  rw [memGo_store he hx hm hb hs hstore, hcore]
  simp only [core_setCore, setCore_setCore, World.after, World.pcOf]
  rw [finish_setCore ((advA_st _ _ _).1.trans (hst'.trans hst)) ((advA_st _ _ _).2.trans (hstep'.trans hstep)), hpc, ready_pc]
  simp only [State.ran, State.touched, State.withW, touchAt_setCore]

/-- A load that no buffered store overlaps reads memory. -/
theorem load_next (h : s.w.issues c i.toNat false) (hu : u = s.w.setCore c (s.w.ready c)) (he : (u.core c).ea i.toNat = (a, upd))
    (hx : x.aligned a) (hm : (u.core c).mpuOk (b2n x.store) a = true) (hb : u.bus c a x.store false = .ok) (hreg : isReg a = false)
    (hs : x.store = false) {y : Nat} (hy : y = u.memAddr (u.coreAddr c a)) (ho : (s.w.ready c).overlap y x.words = none) :
    (u.memGo s.mem c i.toNat x false).finish c (s.w.core c).pc = (s.mem, ((s.ran c 2 fun k => x.sink (k.advA i.toNat upd) (insD i.toNat)
      ((List.range x.words).map fun j => u.coreWord s.mem c (u.coreAddr c (a + j)))).touched y).w) := by
  obtain ⟨hst, hstep⟩ := issues_ready h
  have hload := coreLoad_mem s.w s.mem c (s.w.ready c) a x.words hreg (by rw [← hu, ← hy]; exact ho)
  rw [← hu, ← hy] at hload
  rw [memGo_load he hx hm hb hs hload]
  simp only [core_setCore, setCore_setCore, World.after, World.pcOf]
  rw [finish_setCore ((sink_st _ _ _ _).1.trans ((advA_st _ _ _).1.trans hst)) ((sink_st _ _ _ _).2.trans ((advA_st _ _ _).2.trans hstep)), ready_pc]
  simp only [State.ran, State.touched, State.withW, touchAt_setCore]

/-- A load that one buffered store covers exactly. -/
theorem forward_next (h : s.w.issues c i.toNat false) (hu : u = s.w.setCore c (s.w.ready c)) (he : (u.core c).ea i.toNat = (a, upd))
    (hx : x.aligned a) (hm : (u.core c).mpuOk (b2n x.store) a = true) (hb : u.bus c a x.store false = .ok) (hreg : isReg a = false)
    (hs : x.store = false) {n : Nat} {l : List Nat}
    (ho : (u.core c).overlap (u.memAddr (u.coreAddr c a)) x.words = some (n, u.memAddr (u.coreAddr c a), l)) (hl : l.length = x.words) :
    (u.memGo s.mem c i.toNat x false).finish c (s.w.core c).pc
      = (s.mem, (s.ran c 2 fun k => x.sink (k.advA i.toNat upd) (insD i.toNat) l).w) := by
  obtain ⟨hst, hstep⟩ := issues_ready h
  rw [memGo_load he hx hm hb hs (coreLoad_forward hreg ho hl)]
  subst hu
  simp only [core_setCore, setCore_setCore, World.after, World.pcOf]
  rw [finish_setCore ((sink_st _ _ _ _).1.trans ((advA_st _ _ _).1.trans hst)) ((sink_st _ _ _ _).2.trans ((advA_st _ _ _).2.trans hstep)), ready_pc]
  simp only [State.ran, State.withW]

end MemRows

/-- What the fetch of an instruction leaves of core `c` for its address, its region and its buffered stores. -/
theorem ready_access (w : World) (c i : Nat) : (w.ready c).ea i = (w.core c).ea i ∧ (∀ n a, (w.ready c).mpuOk n a = (w.core c).mpuOk n a)
    ∧ (w.ready c).sb = (w.core c).sb ∧ (∀ a n, (w.ready c).overlap a n = (w.core c).overlap a n) := by
  obtain ⟨l, f, hr⟩ := ready_fetchOnly w c
  rw [hr]
  exact ⟨rfl, fun _ _ => rfl, rfl, fun _ _ => rfl⟩

/-- The row of `memIns x`. -/
theorem memRow_of_mem {s : State} {c : Nat} {i : BitVec 32} {e : Nat × Instr × MemKind} (he : e ∈ [(0x14, Instr.coreLd c i, MemKind.ld),
    (0x15, .coreSt c i, .st), (0x16, .coreLdD c i, .ldD), (0x17, .coreStD c i, .stD), (0x18, .coreLda c i, .lda), (0x19, .coreSta c i, .sta)]) :
    exec e.2.1 s = coreRow s c i e.1 (memIns c i.toNat e.2.2) := by
  simp only [List.mem_cons, List.not_mem_nil, or_false] at he
  rcases he with rfl | rfl | rfl | rfl | rfl | rfl <;> rfl

/-- Settles O37: the six rows are `memGo`, whose branches the statement lists. -/
theorem coreLoadsAndStoresTakeEffect : Obligations.CoreLoadsAndStoresTakeEffect := by
  rintro s c i u k a upd h hu rfl hea hmb e hmem ho hbad
  obtain ⟨hea', hmpu, hsb, hover⟩ := ready_access s.w c i.toNat
  have hcore : u.core c = s.w.ready c := by rw [hu, core_setCore]
  have hpc : (u.core c).pc = (s.w.core c).pc := by rw [hcore, ready_pc]
  have he : (u.core c).ea i.toNat = (a, upd) := by rw [hcore, hea', ← hea]
  have hm : ∀ b, (s.w.core c).mpuOk (b2n e.2.2.store) a = b → (u.core c).mpuOk (b2n e.2.2.store) a = b := fun b hb => by rw [hcore, hmpu, hb]
  rw [memRow_of_mem hmem]
  have hrun : ∀ {x r}, u.memGo s.mem c i.toNat e.2.2 false = x → x.finish c (s.w.core c).pc = r →
      coreRow s c i e.1 (memIns c i.toNat e.2.2) = .next { s with mem := r.1, w := r.2 } := fun hx hr => ran_exec h ho hmb hbad hu hx hr
  rw [← hpc]
  refine ⟨fun hw ha => hrun (memGo_odd he hw ha) rfl, fun hx => ⟨fun hk => hrun (memGo_refused he hx (hm _ hk)) rfl, fun hk =>
    ⟨fun x hb => hrun (memGo_err he hx (hm _ hk) hb) rfl, fun n hb => hrun (memGo_wake he hx (hm _ hk) hb) rfl, fun hb hreg =>
      ⟨fun hs hlen => ?store, fun hs hno => ?load, fun n l hs hov hl => ?forward⟩⟩⟩⟩
  case store => exact hrun rfl (store_next h hu he hx (hm _ hk) hb hreg hs (by rw [hsb]; exact hlen) rfl)
  case load => exact hrun rfl (load_next h hu he hx (hm _ hk) hb hreg hs rfl (by rw [hover]; exact hno))
  case forward => exact hrun rfl (forward_next h hu he hx (hm _ hk) hb hreg hs (by rw [hcore, hover]; exact hov) hl)

end Sys2Proof.Machine

/-! System instructions of a core (R309, R325 to R329, R334, R341 to R343). -/

namespace Sys2Proof.Machine

theorem ready_sys (w : World) (c : Nat) : ∃ l f, w.ready c = { w.core c with lines := l, fills := f } := ready_fetchOnly w c

theorem finish_exc (m : Mem) (w : World) (cause info pc c old : Nat) :
    (Exe.exc m w cause info pc).finish c old = w.enter m c cause info pc none := rfl

section SystemRows

variable {s : State} {c op : Nat} {i : BitVec 32}

/-- An issued instruction whose effect is `e`, once it is finished. -/
theorem coreRow_done (h : s.w.issues c i.toNat false) (ho : insOp i.toNat = op) (mk : World → Ins)
    (hl : (mk (s.w.setCore c (s.w.core c))).long = false) (hb : (mk (s.w.setCore c (s.w.core c))).bad = false)
    (hy : (mk (s.w.setCore c (s.w.core c))).busy = false) (hp : (mk (s.w.setCore c (s.w.core c))).priv = false)
    (hj : ((mk (s.w.setCore c (s.w.core c))).jump.any fun t => t % 2 == 1) = false) {e : Exe}
    (hgo : (mk (s.w.setCore c (s.w.core c))).go s.mem (s.w.setCore c (s.w.ready c)) = e) {r : Mem × World} (hr : e.finish c (s.w.core c).pc = r) :
    coreRow s c i op mk = .next { s with mem := r.1, w := r.2 } := by
  subst hgo hr
  exact coreRow_go h ho mk hl hb hy hp hj

/-- An issued instruction leaves memory `m`, and core `c` as `k`, which goes on at `pc`. -/
theorem retired_done (h : s.w.issues c i.toNat false) (ho : insOp i.toNat = op) (mk : World → Ins)
    (hl : (mk (s.w.setCore c (s.w.core c))).long = false) (hb : (mk (s.w.setCore c (s.w.core c))).bad = false)
    (hy : (mk (s.w.setCore c (s.w.core c))).busy = false) (hp : (mk (s.w.setCore c (s.w.core c))).priv = false)
    (hj : ((mk (s.w.setCore c (s.w.core c))).jump.any fun t => t % 2 == 1) = false) {m : Mem} {k : Core} {pc : Nat}
    (hgo : (mk (s.w.setCore c (s.w.core c))).go s.mem (s.w.setCore c (s.w.ready c)) = .next m (s.w.setCore c k) pc)
    (hst : k.st = (s.w.ready c).st) (hstep : k.stepping = (s.w.ready c).stepping) :
    coreRow s c i op mk = .next { s with mem := m, w := s.w.setCore c (k.retired (s.w.core c).pc pc) } := by
  obtain ⟨hst', hstep'⟩ := issues_ready h
  exact coreRow_done h ho mk hl hb hy hp hj hgo (finish_next (hst.trans hst') (hstep.trans hstep') _ _)

theorem trap_enters (h : s.w.issues c i.toNat false) (hsys : sysBad i.toNat = false) (ho : insOp i.toNat = 0x28) {t : World}
    (ht : t = s.w.setCore c { s.w.ready c with last := (s.w.core c).pc, ret := ((s.w.core c).ret + 1) % 2 ^ 48 }) :
    exec (.coreTrap c i) s = .next { s with
      mem := (t.enter s.mem c 0x03 (insNum i.toNat) (((s.w.core c).pc + 2) % 2 ^ 32) none).1,
      w := (t.enter s.mem c 0x03 (insNum i.toNat) (((s.w.core c).pc + 2) % 2 ^ 32) none).2 } := by
  have hret : (s.w.ready c).ret = (s.w.core c).ret := by
    obtain ⟨l, f, hready⟩ := ready_sys s.w c
    rw [hready]
  generalize hr : t.enter s.mem c 0x03 (insNum i.toNat) (((s.w.core c).pc + 2) % 2 ^ 32) none = r
  refine coreRow_done h ho _ rfl hsys rfl rfl rfl (e := .exc s.mem t 0x03 (insNum i.toNat) (((s.w.core c).pc + 2) % 2 ^ 32)) ?_ ((finish_exc ..).trans hr)
  subst ht
  simp only [core_setCore, setCore_setCore, World.after, World.pcOf, ready_pc, hret]

theorem wait_stops (h : s.w.issues c i.toNat false) (hsys : sysBad i.toNat = false) (ho : insOp i.toNat = 0x29) (hp : (s.w.core c).mode % 4 ≠ 0)
    {u : World} (hu : u = s.w.setCore c (s.w.ready c)) :
    exec (.coreWait c i) s = .next (if u.irqFor c && !(s.w.core c).mode.testBit 2 then s.ran c 2 fun k => k
      else s.withW ((s.w.setCore c { s.w.ready c with st := 2 }).start (.idle c))) := by
  obtain ⟨hst, hstep⟩ := issues_ready h
  obtain ⟨l, f, hr⟩ := ready_sys s.w c
  have hmode : (s.w.ready c).mode = (s.w.core c).mode := by rw [hr]
  have hpriv : (((s.w.setCore c (s.w.core c)).core c).mode % 4 == 0) = false := by rw [core_setCore]; simp [hp]
  have hcore : u.core c = s.w.ready c := by rw [hu, core_setCore]
  refine Eq.trans (coreRow_done h ho _ rfl hsys rfl hpriv rfl (e := if u.irqFor c && !(s.w.core c).mode.testBit 2 then .next s.mem u (u.after c)
    else .hold s.mem ((u.setCore c { u.core c with st := 2 }).start (.idle c))) ?_ rfl) ?_
  · subst hu
    dsimp only
    rw [core_setCore, hmode]
  · generalize (u.irqFor c && !(s.w.core c).mode.testBit 2) = b
    cases b with
    | true =>
      subst hu
      simp only [if_true, World.after, World.pcOf, core_setCore, ready_pc, finish_next hst hstep, State.ran, State.withW]
    | false =>
      subst hu
      simp only [Bool.false_eq_true, if_false, core_setCore, setCore_setCore, Exe.finish, State.withW]

/-- SYNC.I: the store buffer drains, and the line buffers and the BTB are empty (R326). -/
theorem syncI_drains (h : s.w.issues c i.toNat false) (hsys : sysBad i.toNat = false) (ho : insOp i.toNat = 0x2A) :
    exec (.coreSyncI c i) s = .next { s with
      mem := s.w.drained s.mem (s.w.core c).sb,
      w := s.w.setCore c ({ s.w.ready c with sb := [], lines := [], fills := [], btb := [] }.retired (s.w.core c).pc (((s.w.core c).pc + 2) % 2 ^ 32)) } := by
  obtain ⟨l, g, hr⟩ := ready_sys s.w c
  have hsb : (s.w.ready c).sb = (s.w.core c).sb := by rw [hr]
  refine retired_done h ho _ rfl hsys rfl rfl rfl (k := { s.w.ready c with sb := [], lines := [], fills := [], btb := [] }) ?_ rfl rfl
  simp only [drainAll_setCore, core_setCore, setCore_setCore, World.after, World.pcOf, hsb]
  rw [← ready_pc]

theorem syncM_drains (h : s.w.issues c i.toNat false) (hsys : sysBad i.toNat = false) (ho : insOp i.toNat = 0x2B) :
    exec (.coreSyncM c i) s = .next { s with
      mem := s.w.drained s.mem (s.w.core c).sb,
      w := s.w.setCore c ({ s.w.ready c with sb := [] }.retired (s.w.core c).pc (((s.w.core c).pc + 2) % 2 ^ 32)) } := by
  obtain ⟨l, g, hr⟩ := ready_sys s.w c
  have hsb : (s.w.ready c).sb = (s.w.core c).sb := by rw [hr]
  refine retired_done h ho _ rfl hsys rfl rfl rfl (k := { s.w.ready c with sb := [] }) ?_ rfl rfl
  simp only [drainAll_setCore, core_setCore, World.after, World.pcOf, hsb]
  rw [← ready_pc]

/-- What a read of a control register leaves of the core beside its destination: the counters' low words latch (R327). -/
theorem csrRead_spec (w : World) (q : Core) (n : Nat) : (w.setCore c q).csrRead c n = (w.setCore c { q with
    cycL := if n = 3 then (w.setCore c q).cycles c else q.cycL, retL := if n = 6 then q.ret else q.retL }, (w.setCore c q).csr c n) := by
  unfold World.csrRead
  simp only [core_setCore, setCore_setCore]
  by_cases h3 : n = 3
  · rw [if_pos h3, if_pos h3, if_neg (by omega)]
  · rw [if_neg h3, if_neg h3]
    by_cases h6 : n = 6
    · rw [if_pos h6, if_pos h6]
    · rw [if_neg h6, if_neg h6]

theorem csrr_next (h : s.w.issues c i.toNat false) (hsys : sysBad i.toNat = false) (ho : insOp i.toNat = 0x2C)
    (hk : csrKnown (insNum i.toNat) = true) (hlvl : csrLevel (insNum i.toNat) false ≤ rank ((s.w.core c).mode % 4))
    {u : World} (hu : u = s.w.setCore c (s.w.ready c)) :
    exec (.coreCsrr c i) s = .next (s.ran c 2 fun k => ({ k with
      cycL := if insNum i.toNat = 3 then u.cycles c else k.cycL,
      retL := if insNum i.toNat = 6 then k.ret else k.retL }).setW (insD i.toNat) (u.csr c (insNum i.toNat))) := by
  have hbad : (sysBad i.toNat || !csrKnown (insNum i.toNat)) = false := by rw [hsys, hk]; rfl
  have hpriv : decide (rank (((s.w.setCore c (s.w.core c)).core c).mode % 4) < csrLevel (insNum i.toNat) false) = false := by
    rw [core_setCore]
    exact decide_eq_false (by omega)
  subst hu
  refine Eq.trans (retired_done h ho _ rfl hbad rfl hpriv rfl (m := s.mem) (pc := ((s.w.core c).pc + 2) % 2 ^ 32) (k := ({ s.w.ready c with
    cycL := if insNum i.toNat = 3 then (s.w.setCore c (s.w.ready c)).cycles c else (s.w.ready c).cycL,
    retL := if insNum i.toNat = 6 then (s.w.ready c).ret else (s.w.ready c).retL }).setW (insD i.toNat)
      ((s.w.setCore c (s.w.ready c)).csr c (insNum i.toNat))) ?_ rfl rfl) rfl
  dsimp only
  rw [csrRead_spec]
  simp only [core_setCore, setCore_setCore, World.after, World.pcOf]
  rw [← ready_pc]

/-- A CSRW that its level allows (R327, R328). -/
theorem csrw_allowed {k : Core} {n v : Nat} (hlvl : csrLevel n true ≤ rank (k.mode % 4)) (h1 : n ≠ 1 ∨ rank (k.mode % 4) ≠ 1) :
    (decide (rank (k.mode % 4) < csrLevel n true)
      || (n == 1 && rank (k.mode % 4) == 1 && (v % 4 != k.mode % 4 || v.testBit 3 != k.mode.testBit 3))) = false := by
  have hno : (n == 1 && rank (k.mode % 4) == 1) = false := by
    rcases h1 with h1 | h1
    · simp [h1]
    · simp [h1]
  rw [hno, Bool.false_and, Bool.or_false]
  exact decide_eq_false (by omega)

section Csrw

variable (h : s.w.issues c i.toNat false) (hsys : sysBad i.toNat = false) (ho : insOp i.toNat = 0x2D)
  (hk : csrKnown (insNum i.toNat) = true) (hlvl : csrLevel (insNum i.toNat) true ≤ rank ((s.w.core c).mode % 4))
  (h1 : insNum i.toNat ≠ 1 ∨ rank ((s.w.core c).mode % 4) ≠ 1)
include h hsys ho hk hlvl h1

/-- A CSRW whose effect is `e`. -/
theorem csrw_done {e : Exe}
    (hplain : ¬ (0x15 ≤ insNum i.toNat ∧ insNum i.toNat ≤ 0x17) → e = .next s.mem
      (s.w.setCore c ((s.w.ready c).csrWrite (insNum i.toNat) ((s.w.core c).w (insD i.toNat)))) (((s.w.core c).pc + 2) % 2 ^ 32))
    (hset : 0x15 ≤ insNum i.toNat ∧ insNum i.toNat ≤ 0x17 → ∀ z, (s.w.ready c).writeTsb (insNum i.toNat) ((s.w.core c).w (insD i.toNat)) = some z →
      e = .next s.mem (s.w.setCore c z) (((s.w.core c).pc + 2) % 2 ^ 32))
    (hrange : 0x15 ≤ insNum i.toNat ∧ insNum i.toNat ≤ 0x17 → (s.w.ready c).writeTsb (insNum i.toNat) ((s.w.core c).w (insD i.toNat)) = none →
      e = .exc s.mem (s.w.setCore c (s.w.ready c)) 0x07 ((s.w.core c).w (insD i.toNat)) (s.w.core c).pc)
    {r : Mem × World} (hr : e.finish c (s.w.core c).pc = r) : exec (.coreCsrw c i) s = .next { s with mem := r.1, w := r.2 } := by
  have hbad : (sysBad i.toNat || !csrKnown (insNum i.toNat)) = false := by rw [hsys, hk]; rfl
  have hpriv := csrw_allowed (v := (s.w.core c).w (insD i.toNat)) hlvl h1
  have hcore : (s.w.setCore c (s.w.core c)).core c = s.w.core c := core_setCore _ _ _
  refine coreRow_done h ho _ rfl hbad rfl ?_ rfl ?_ hr
  · dsimp only
    rw [hcore]
    exact hpriv
  · dsimp only
    rw [hcore]
    simp only [setCore_setCore, World.after, World.pcOf, core_setCore, ready_pc]
    by_cases hn : 0x15 ≤ insNum i.toNat ∧ insNum i.toNat ≤ 0x17
    · rw [if_pos hn]
      cases hz : (s.w.ready c).writeTsb (insNum i.toNat) ((s.w.core c).w (insD i.toNat)) with
      | some z => exact (hset hn z hz).symm
      | none => exact (hrange hn hz).symm
    · rw [if_neg hn]
      exact (hplain hn).symm

theorem csrw_plain (hn : ¬ (0x15 ≤ insNum i.toNat ∧ insNum i.toNat ≤ 0x17)) :
    exec (.coreCsrw c i) s = .next (s.ran c 2 fun k => k.csrWrite (insNum i.toNat) (k.w (insD i.toNat))) := by
  obtain ⟨hst, hstep⟩ := issues_ready h
  have hw : (s.w.ready c).w (insD i.toNat) = (s.w.core c).w (insD i.toNat) := by
    obtain ⟨l, f, hr⟩ := ready_sys s.w c
    rw [hr]
    rfl
  have hfin := finish_next (s := s) (c := c) (m := s.mem) (k := (s.w.ready c).csrWrite (insNum i.toNat) ((s.w.core c).w (insD i.toNat)))
    ((csrWrite_st _ _ _).1.trans hst) ((csrWrite_st _ _ _).2.trans hstep) (s.w.core c).pc (((s.w.core c).pc + 2) % 2 ^ 32)
  rw [csrw_done h hsys ho hk hlvl h1 (fun _ => rfl) (fun hr => absurd hr hn) (fun hr => absurd hr hn) hfin]
  unfold State.ran
  dsimp only
  rw [hw]
  rfl

theorem csrw_tsb (hn : 0x15 ≤ insNum i.toNat ∧ insNum i.toNat ≤ 0x17) {z : Core}
    (hz : (s.w.ready c).writeTsb (insNum i.toNat) ((s.w.core c).w (insD i.toNat)) = some z) :
    exec (.coreCsrw c i) s = .next (s.withW (s.w.setCore c (z.retired (s.w.core c).pc (((s.w.core c).pc + 2) % 2 ^ 32)))) := by
  obtain ⟨hst, hstep⟩ := issues_ready h
  obtain ⟨hst', hstep'⟩ := writeTsb_st hz
  have hfin := finish_next (s := s) (c := c) (m := s.mem) (k := z) (hst'.trans hst) (hstep'.trans hstep) (s.w.core c).pc
    (((s.w.core c).pc + 2) % 2 ^ 32)
  exact csrw_done h hsys ho hk hlvl h1 (fun hr => absurd hn hr) (fun _ y hy => by rw [hz] at hy; cases hy; rfl)
    (fun _ hy => by rw [hz] at hy; cases hy) hfin

theorem csrw_range (hn : 0x15 ≤ insNum i.toNat ∧ insNum i.toNat ≤ 0x17)
    (hz : (s.w.ready c).writeTsb (insNum i.toNat) ((s.w.core c).w (insD i.toNat)) = none) {r : Mem × World}
    (hr : (s.w.setCore c (s.w.ready c)).enter s.mem c 0x07 ((s.w.core c).w (insD i.toNat)) (s.w.core c).pc none = r) :
    exec (.coreCsrw c i) s = .next { s with mem := r.1, w := r.2 } :=
  csrw_done h hsys ho hk hlvl h1 (fun hr => absurd hn hr) (fun _ y hy => by rw [hz] at hy; cases hy) (fun _ _ => rfl) ((finish_exc ..).trans hr)

end Csrw

/-- A gate that passes its checks pushes its frame and enters at its level (R341, R342). -/
theorem callg_enters (h : s.w.issues c i.toNat false) (hsys : sysBad i.toNat = false) (ho : insOp i.toNat = 0x26)
    (hn : insNum i.toNat < (s.w.core c).gaten) (hsb : (s.w.core c).sb = []) (ht : (s.w.core c).tsblim < (s.w.core c).tsbp) {k q : Core} {u : World}
    (hk : k = s.w.core c) (hq : q = s.w.ready c) (hu : u = s.w.setCore c q) {g : Nat} {e : Nat → Nat}
    (hg : g = (k.gateb + 16 * insNum i.toNat) % 2 ^ 32) (he : e = fun n => u.memRead s.mem (u.coreAddr c (g + n)))
    (hoff : u.memOff (u.coreAddr c g) = false) (hb : k.gateBad e (u.inOwnTcm c g || isFlash g) = none) :
    exec (.coreCallg c i) s = .next { s with
      mem := s.w.memWrites s.mem (s.w.tcmBase c + 64 * (k.tsbp - 1))
        (q.frame { cause := 0x21, flags := 2, src := 0xFFFF, info := insNum i.toNat, pc := (k.pc + 2) % 2 ^ 32 }),
      w := s.w.setCore c ({ (if (e 2).testBit 8 then { q with tsbp := k.tsbp - 1 }.setA 4 (e 4 + 65536 * e 5) else { q with tsbp := k.tsbp - 1 }) with
        mode := (k.mode &&& 8) ||| (if (e 2).testBit 9 then k.mode &&& 4 else 0) ||| (e 2 % 4) }.retired k.pc (e 0 + 65536 * e 1)) } := by
  obtain ⟨-, -, -, -, hside, -⟩ := h.1
  have hbad : (sysBad i.toNat || decide (((s.w.setCore c (s.w.core c)).core c).gaten ≤ insNum i.toNat)) = false := by
    rw [hsys, core_setCore, Bool.false_or]
    exact decide_eq_false (by omega)
  obtain ⟨l, f, hr⟩ := ready_sys s.w c
  rw [← hq, ← hk] at hr
  have hsame : q.sb = k.sb ∧ q.side = k.side ∧ q.tsblim = k.tsblim ∧ q.tsbp = k.tsbp ∧ q.gateb = k.gateb ∧ q.pc = k.pc ∧ q.mode = k.mode := by
    rw [hr]
    exact ⟨rfl, rfl, rfl, rfl, rfl, rfl, rfl⟩
  obtain ⟨e1, e2, e3, e4, e5, e6, e7⟩ := hsame
  have hgate : q.gateBad e (u.inOwnTcm c g || isFlash g) = none := by rw [hr, gateBad_lines]; exact hb
  rw [← hk] at hsb ht hside
  subst hu
  have hcall := gateCall_ok s.w s.mem c (insNum i.toNat) q (e1.trans hsb) (e2.trans hside) (by rw [e3, e4]; exact ht) g e (by rw [e5]; exact hg) he hoff hgate
  rw [← e4, ← e6, ← e7]
  subst hq
  have hdone : exec (.coreCallg c i) s = _ :=
    retired_done h ho _ rfl hbad rfl rfl rfl hcall (by cases (e 2).testBit 8 <;> rfl) (by cases (e 2).testBit 8 <;> rfl)
  rw [← ready_pc] at hdone
  exact hdone

theorem retx_underflow {w : World} {m : Mem} {c : Nat} {q : Core} (ht : q.tsbp = q.tsbtop) :
    (w.setCore c q).retx m c = .exc m (w.setCore c q) 0x06 0 q.pc := by
  unfold World.retx
  dsimp only
  rw [core_setCore, if_pos ht]

section Retx

variable (h : s.w.issues c i.toNat false) (hsys : sysBad i.toNat = false) (ho : insOp i.toNat = 0x27) (hp : (s.w.core c).mode % 4 ≠ 0)
include h hsys ho hp

/-- A RETX at level S or M whose effect is `e`. -/
theorem retx_done {e : Exe} (hgo : (s.w.setCore c (s.w.ready c)).retx s.mem c = e) {r : Mem × World} (hr : e.finish c (s.w.core c).pc = r) :
    exec (.coreRetx c i) s = .next { s with mem := r.1, w := r.2 } := by
  have hpriv : (((s.w.setCore c (s.w.core c)).core c).mode % 4 == 0) = false := by rw [core_setCore]; simp [hp]
  exact coreRow_done h ho _ rfl hsys rfl hpriv rfl hgo hr

theorem retx_empty (ht : (s.w.core c).tsbp = (s.w.core c).tsbtop) {r : Mem × World}
    (hr : (s.w.setCore c (s.w.ready c)).enter s.mem c 0x06 0 (s.w.core c).pc none = r) :
    exec (.coreRetx c i) s = .next { s with mem := r.1, w := r.2 } := by
  have ht' : (s.w.ready c).tsbp = (s.w.ready c).tsbtop := by
    obtain ⟨l, f, hready⟩ := ready_sys s.w c
    rw [hready]
    exact ht
  have hgo := retx_underflow (w := s.w) (m := s.mem) (c := c) ht'
  rw [ready_pc] at hgo
  exact retx_done h hsys ho hp hgo ((finish_exc ..).trans hr)

theorem retx_restores (ht : (s.w.core c).tsbp ≠ (s.w.core c).tsbtop) (hsb : (s.w.core c).sb = []) {rd : Nat → Nat}
    (hrd : rd = fun n => Mem.word s.mem (s.w.tcmBase c + 64 * (s.w.core c).tsbp + n)) (ha : (rd 4 + 65536 * rd 5) % 2 = 0)
    (hp1 : rank (rd 6 % 4) ≤ rank (rd 3 % 4)) (hp2 : rank (rd 6 % 4) ≤ rank ((s.w.core c).mode % 4)) (hint : (rd 1).testBit 0 = false) :
    exec (.coreRetx c i) s = .next (s.withW (s.w.setCore c
      (((s.w.ready c).restore rd ((rd 1).testBit 1)).retired (s.w.core c).pc (rd 4 + 65536 * rd 5)))) := by
  obtain ⟨-, -, -, -, hside, -⟩ := h.1
  obtain ⟨hst, hstep⟩ := issues_ready h
  have hgo := retx_ok s.w s.mem c (s.w.ready c)
  obtain ⟨l, f, hr⟩ := ready_sys s.w c
  have hsame : (s.w.ready c).sb = [] ∧ (s.w.ready c).side = [] ∧ (s.w.ready c).tsbp = (s.w.core c).tsbp
      ∧ (s.w.ready c).tsbtop = (s.w.core c).tsbtop ∧ (s.w.ready c).mode = (s.w.core c).mode := by
    rw [hr]
    exact ⟨hsb, hside, rfl, rfl, rfl⟩
  obtain ⟨e1, e2, e3, e4, e5⟩ := hsame
  have hret := hgo e1 e2 (by rw [e3, e4]; exact ht) rd (by rw [e3]; exact hrd) ha hp1 (by rw [e5]; exact hp2) hint
  exact retx_done h hsys ho hp hret (finish_next ((restore_st _ _ _).1.trans hst) ((restore_st _ _ _).2.trans hstep) _ _)

end Retx

end SystemRows

/-- Settles O39: each row is issued, and what its effect leaves is finished by `retired_done` or entered by `finish_exc`. -/
theorem coreSystemInstructionsTakeEffect : Obligations.CoreSystemInstructionsTakeEffect := by
  rintro s c i u k q num d h hsys rfl rfl rfl rfl rfl
  refine ⟨fun ho t ht => trap_enters h hsys ho ht, fun ho hp => wait_stops h hsys ho hp rfl, syncI_drains h hsys, syncM_drains h hsys,
    fun ho hk hlvl => csrr_next h hsys ho hk hlvl rfl, fun ho hk hlvl h1 => ⟨csrw_plain h hsys ho hk hlvl h1,
      fun hlo hhi z hz => csrw_tsb h hsys ho hk hlvl h1 ⟨hlo, hhi⟩ hz, fun hlo hhi hz => csrw_range h hsys ho hk hlvl h1 ⟨hlo, hhi⟩ hz rfl⟩,
    fun ho hn hsb ht g e hg he hoff hb => callg_enters h hsys ho hn hsb ht rfl rfl rfl hg he hoff hb,
    fun ho hp => ⟨fun ht => retx_empty h hsys ho hp ht rfl, fun ht hsb rd hrd ha hp1 hp2 hint =>
      retx_restores h hsys ho hp ht hsb hrd ha hp1 hp2 hint⟩⟩

end Sys2Proof.Machine

/-! The side unit, the core's own events and the string instructions (R309, R315, R318, R320 to R324, R350, R363). -/

namespace Sys2Proof.Machine

/-! ### The side unit -/

section SideRows

variable {s : State} {c op : Nat} {i : BitVec 32}

/-- An issued instruction that may wait for the side unit, which is idle. -/
theorem sideRow (h : s.w.issues c i.toNat false) (ho : insOp i.toNat = op) {bad : Bool} {regs : List Nat} (f : Core → Core) (busy : Core → Bool)
    (hb : bad = false) (hbusy : ∀ k : Core, k.side = [] → busy k = false) (hf : ∀ k, (f k).st = k.st ∧ (f k).stepping = k.stepping) :
    coreRow s c i op (fun w => { regIns c bad regs f w with busy := busy (w.core c) }) = .next (s.ran c 2 f) := by
  obtain ⟨-, -, -, -, hside, -⟩ := h.1
  obtain ⟨hst, hstep⟩ := issues_ready h
  have hidle : busy ((s.w.setCore c (s.w.core c)).core c) = false := by rw [core_setCore]; exact hbusy _ hside
  exact coreRow_next h ho _ f rfl hb hidle rfl rfl (fun _ _ => rfl) ((hf _).1.trans hst) ((hf _).2.trans hstep)

theorem macBusy_idle (k : Core) (h : k.side = []) : k.macBusy = false := by
  unfold Core.macBusy
  rw [h]
  rfl

theorem divBusy_idle (k : Core) (h : k.side = []) : k.divBusy = false := by
  unfold Core.divBusy
  rw [h]
  rfl

theorem pairsBad_even (hd : insD i.toNat % 2 = 0) (ha : insA i.toNat % 2 = 0) (hb : insB i.toNat % 2 = 0) : pairsBad i.toNat = false := by
  unfold pairsBad
  rw [oddPair_of_even hd, oddPair_of_even ha, oddPair_of_even hb]
  rfl

end SideRows

/-- The multiplications, divisions and moves of the accumulator give the side unit its work (R320 to R322). -/
theorem side_issued (s : State) (c : Nat) (i : BitVec 32) (d a b : Nat) (un : Bool) (h : s.w.issues c i.toNat false) (hd : d = insD i.toNat)
    (ha : a = insA i.toNat) (hb : b = insB i.toNat) (hun : un = i.toNat.testBit 0) :
    (insOp i.toNat = 0x34 → d % 2 = 0 → exec (.coreMul c i) s = .next (s.ran c 2 fun k => { k with side := k.side ++
        [{ dst := some d, val := if un then (k.w a : Int) * k.w b else sx 16 (k.w a) * sx 16 (k.w b) }] }))
    ∧ (insOp i.toNat = 0x35 → d % 2 = 0 → a % 2 = 0 → b % 2 = 0 → exec (.coreMuld c i) s = .next (s.ran c 2 fun k => { k with side := k.side ++
        [{ dst := some d, val :=
          let p : Int := if un then (k.pair a : Int) * k.pair b else sx 32 (k.pair a) * sx 32 (k.pair b)
          if i.toNat.testBit 1 then p / (2 ^ 32 : Nat) else p }] }))
    ∧ (insOp i.toNat = 0x36 → d = 0 → a % 2 = 0 → b % 2 = 0 → exec (.coreMac c i) s = .next (s.ran c 2 fun k => { k with side := k.side ++
        [{ dst := none, val :=
          let p : Int := if un then (k.pair a : Int) * k.pair b else sx 32 (k.pair a) * sx 32 (k.pair b)
          if i.toNat.testBit 1 then -p else p }] }))
    ∧ (insOp i.toNat = 0x37 → d % 2 = 0 → exec (.coreMar c i) s = .next (s.ran c 2 fun k =>
        { k with side := k.side ++ [{ dst := some d, val := marOf k.ma (bitsOf i.toNat 0 6) }], ma := if i.toNat.testBit 6 then 0 else k.ma }))
    ∧ (insOp i.toNat = 0x38 → exec (.coreMaz c i) s = .next (s.ran c 2 fun k => { k with ma := 0 }))
    ∧ (insOp i.toNat = 0x39 → d % 2 = 0 → a % 2 = 0 → b % 2 = 0 → exec (.coreDiv c i) s = .next (s.ran c 2 fun k => { k with side := k.side ++
        [{ dst := some d, val := if i.toNat.testBit 1 then (divOf un (k.pair a) (k.pair b)).2 else (divOf un (k.pair a) (k.pair b)).1
           isDiv := true, pc := k.pc, dz := k.pair b == 0, recov := k.mode.testBit 3 }] })) := by
  subst hd ha hb hun
  refine ⟨fun ho hd => ?_, fun ho hd ha hb => ?_, fun ho hd ha hb => ?_, fun ho hd => ?_, fun ho => ?_, fun ho hd ha hb => ?_⟩
  · exact regRow h ho (oddPair_of_even hd) fun _ => ⟨rfl, rfl⟩
  · exact regRow h ho (pairsBad_even hd ha hb) fun _ => ⟨rfl, rfl⟩
  · exact regRow h ho (by rw [hd, oddPair_of_even ha, oddPair_of_even hb]; rfl) fun _ => ⟨rfl, rfl⟩
  · exact sideRow h ho _ Core.macBusy (oddPair_of_even hd) macBusy_idle fun _ => ⟨rfl, rfl⟩
  · exact sideRow h ho _ Core.macBusy rfl macBusy_idle fun _ => ⟨rfl, rfl⟩
  · exact sideRow h ho _ Core.divBusy (pairsBad_even hd ha hb) divBusy_idle fun _ => ⟨rfl, rfl⟩

/-! ### The core's own events -/

section Events

variable {s : State} {c : Nat}

theorem sideUnitResult_pair (hc : c < s.w.nCores) (hon : s.w.on (s.w.coreIsl c) = true) {n d : Nat} {r : SideRes}
    (hr : (s.w.core c).side[n]? = some r) (hd : r.dst = some d) : exec (.sideUnitResult c n) s = .next (s.withW (s.w.setCore c
      { { (s.w.core c) with side := (s.w.core c).side.eraseIdx n }.setPair d (unI 32 r.val) with dz := (s.w.core c).dz || r.dz })) := by
  refine (execSideUnitResult_next hc hon hr).trans ?_
  unfold World.landResult
  rw [hd]
  simp only [core_setCore, setCore_setCore]
  rfl

theorem sideUnitResult_ma (hc : c < s.w.nCores) (hon : s.w.on (s.w.coreIsl c) = true) {n : Nat} {r : SideRes}
    (hr : (s.w.core c).side[n]? = some r) (hd : r.dst = none) (hsat : (s.w.core c).ma + r.val = satS 72 ((s.w.core c).ma + r.val)) :
    exec (.sideUnitResult c n) s
      = .next (s.withW (s.w.setCore c { (s.w.core c) with side := (s.w.core c).side.eraseIdx n, ma := (s.w.core c).ma + r.val })) := by
  refine (execSideUnitResult_next hc hon hr).trans ?_
  unfold World.landResult
  rw [hd]
  unfold World.addMa
  simp only [core_setCore, setCore_setCore]
  rw [if_pos hsat]

theorem storeDrain_oldest (hc : c < s.w.nCores) (hon : s.w.on (s.w.coreIsl c) = true) {e : Nat × List Nat} {rest : List (Nat × List Nat)}
    (he : (s.w.core c).sb = e :: rest) : exec (.storeDrain c) s = .next
      { s with mem := if s.w.memOff e.1 then s.mem else s.w.memWrites s.mem e.1 e.2, w := s.w.setCore c { s.w.core c with sb := rest } } := by
  change onM s (fun m w => if c < w.nCores ∧ w.on (w.coreIsl c) then w.drainStores m c 1 else (m, w)) = _
  unfold onM
  simp only [hc, hon, and_self, if_true, World.drainStores, he]

theorem lineFill_buffers {line : Nat} (hc : c < s.w.nCores) (hf : (s.w.core c).fills.contains line = true) (ho : s.w.memOff line = false) :
    exec (.lineFill c line) s = .next (s.withW (s.w.setCore c { s.w.core c with
      fills := (s.w.core c).fills.filter fun x => x != line
      lines := ((line, (List.range 16).map fun j => s.w.memRead s.mem (line + j)) :: (s.w.core c).lines).take 4 })) := by
  have hgo : c < s.w.nCores ∧ (s.w.core c).fills.contains line = true ∧ s.w.memOff line = false := ⟨hc, hf, ho⟩
  change execLineFill c line s = _
  unfold execLineFill onW
  dsimp only
  rw [if_pos hgo]
  rfl

theorem interruptAccept_enters {x : Nat} (hc : c < s.w.nCores) (hoff : (s.w.core c).offer = some x) (hst : (s.w.core c).st = 1)
    (ha : s.w.awake c = true) (he : s.w.eligible c x = true) (hs : s.w.stalled c = false) : exec (.interruptAccept c) s
      = .next { s with mem := ((s.w.takeOffer c x).enter s.mem c 0x20 x (s.w.core c).pc (some x)).1,
                       w := ((s.w.takeOffer c x).enter s.mem c 0x20 x (s.w.core c).pc (some x)).2 } := by
  have hrun : s.w.leaveWait c = s.w := by
    unfold World.leaveWait
    exact if_neg (by rw [hst]; decide)
  have hgo : (s.w.awake c && s.w.eligible c x && !s.w.stalled c) = true := by rw [ha, he, hs]; rfl
  change onM s (fun m w => if c < w.nCores then w.accept m c else (m, w)) = _
  unfold onM World.accept
  dsimp only
  rw [if_pos hc, hoff]
  dsimp only
  rw [if_pos hgo, hrun]

/-! ### The debugger (R363) -/

theorem dbg_denied (hon : s.w.on 21 = true) (ho : s.w.dbgOpen = false) (f : World → World) :
    onW s (fun w => w.dbgRow f) = .next (s.withW (s.w.sf F.DBG_ERR_DENIED 0 1)) := by
  unfold onW World.dbgRow
  simp [hon, ho, State.withW]

theorem dbg_open (hon : s.w.on 21 = true) (ho : s.w.dbgOpen = true) (f : World → World) {v : World} (hv : f s.w = v) :
    onW s (fun w => w.dbgRow f) = .next (s.withW v) := by
  unfold onW World.dbgRow
  simp [hon, ho, State.withW, hv]

end Events

/-- Settles O40: issued instructions, the events of the buffers, and the debugger's rows. -/
theorem coreSideUnitTakesEffect : Obligations.CoreSideUnitTakesEffect := by
  intro s c
  refine ⟨fun i d a b un h hd ha hb hun => side_issued s c i d a b un h hd ha hb hun, fun hc hon => ⟨fun n r d hr hd => sideUnitResult_pair hc hon hr hd,
    fun n r hr hd hsat => sideUnitResult_ma hc hon hr hd hsat, fun e rest he => storeDrain_oldest hc hon he⟩,
    fun line hc hf ho => lineFill_buffers hc hf ho, fun x hc hoff hst ha he hs => interruptAccept_enters hc hoff hst ha he hs, fun hon => ⟨fun ho i hi => ?_,
      fun ho hc => ⟨fun hst => ?_, fun hst => ?_, fun hst => ?_⟩⟩⟩
  · simp only [List.mem_cons, List.not_mem_nil, or_false] at hi
    rcases hi with rfl | rfl | rfl
    · exact dbg_denied hon ho _
    · exact dbg_denied hon ho _
    · exact dbg_denied hon ho _
  · exact dbg_open hon ho (fun w => w.dbgHalt c) (if_pos ⟨hc, hst⟩)
  · exact dbg_open hon ho (fun w => w.dbgResume c) (if_pos ⟨hc, hst⟩)
  · exact dbg_open hon ho (fun w => w.dbgStep c) (if_pos ⟨hc, hst⟩)

end Sys2Proof.Machine

/-! The string instructions of a core (R323, R324). -/

namespace Sys2Proof.Machine

/-- What a string instruction presets before its first element: CMPS holds until a difference, SCNS fails until the word is found (R323). -/
def StrKind.start (x : StrKind) (i : Nat) (k : Core) : Core :=
  match x with
  | .cmps => k.setP (insPd i) true
  | .scns => k.setP (insPd i) false
  | _ => k

theorem start_shape (x : StrKind) (i : Nat) (k : Core) : ∃ p, x.start i k = { k with pr := p } := by
  cases x with
  | movs => exact ⟨k.pr, rfl⟩
  | fils => exact ⟨k.pr, rfl⟩
  | cmps => exact setP_shape k _ _
  | scns => exact setP_shape k _ _

theorem strGo_start (w : World) (m : Mem) (c i : Nat) (q : Core) (x : StrKind) (lim : Option Nat) :
    (w.setCore c q).strGo m c i x lim false = (w.setCore c (x.start i q)).elements m c i x false (min (lim.getD 65536) 65536) := by
  unfold World.strGo
  simp only [core_setCore, setCore_setCore]
  cases x <;> rfl

section StrRows

variable {s : State} {c op : Nat} {i : BitVec 32} {x : StrKind}

/-- The core that runs the elements: the fetched core with its predicate preset, whose registers are those of the core. -/
theorem start_ready (x : StrKind) (i : Nat) (w : World) (c : Nat) (n : Nat) : (x.start i (w.ready c)).st = (w.ready c).st
    ∧ (x.start i (w.ready c)).stepping = (w.ready c).stepping ∧ (x.start i (w.ready c)).pc = (w.core c).pc
    ∧ (x.start i (w.ready c)).w n = (w.core c).w n ∧ (x.start i (w.ready c)).a n = (w.core c).a n
    ∧ (x.start i (w.ready c)).sb = (w.core c).sb := by
  obtain ⟨p, hp⟩ := start_shape x i (w.ready c)
  obtain ⟨l, f, hr⟩ := ready_sys w c
  rw [hp, hr]
  exact ⟨rfl, rfl, rfl, rfl, rfl, rfl⟩

theorem str_done (h : s.w.issues c i.toNat false) (ho : insOp i.toNat = op) (hz : bitsOf i.toNat 1 18 = 0) {lim : Option Nat} {e : Exe}
    (he : (s.w.setCore c (x.start i.toNat (s.w.ready c))).elements s.mem c i.toNat x false (min (lim.getD 65536) 65536) = e) {r : Mem × World}
    (hr : e.finish c (s.w.core c).pc = r) : coreRow s c i op (strIns c i.toNat x lim) = .next { s with mem := r.1, w := r.2 } := by
  subst he hr
  rw [strRow x lim h ho hz]
  unfold onM
  dsimp only
  rw [strGo_start]

/-- With W13 = 0 a string instruction is done with its predicate preset. -/
theorem str_empty (h : s.w.issues c i.toNat false) (ho : insOp i.toNat = op) (hz : bitsOf i.toNat 1 18 = 0) (h13 : (s.w.core c).w 13 = 0)
    (lim : Option Nat) : coreRow s c i op (strIns c i.toNat x lim) = .next (s.ran c 2 fun k => x.start i.toNat k) := by
  obtain ⟨hst, hstep⟩ := issues_ready h
  obtain ⟨e1, e2, e3, e4, -⟩ := start_ready x i.toNat s.w c 13
  have hel := elements_zero (s.w.setCore c (x.start i.toNat (s.w.ready c))) s.mem c i.toNat x false
    (by rw [core_setCore, e4]; exact h13) (min (lim.getD 65536) 65536)
  simp only [World.after, World.pcOf, core_setCore, e3] at hel
  exact str_done h ho hz hel (finish_next (e1.trans hst) (e2.trans hstep) _ _)

section Elements

variable (h : s.w.issues c i.toNat false) (ho : insOp i.toNat = op) (hz : bitsOf i.toNat 1 18 = 0) {v : World} {z : Core}
  (h13 : (s.w.core c).w 13 ≠ 0)
include h ho hz h13

/-- The last element: the instruction is done. -/
theorem str_last (hel : (s.w.setCore c (x.start i.toNat (s.w.ready c))).tryElement s.mem c i.toNat x false = .more s.mem (v.setCore c z))
    (hz13 : z.w 13 = 0) (hst : z.st = (s.w.ready c).st ∧ z.stepping = (s.w.ready c).stepping ∧ z.pc = (s.w.ready c).pc) :
    coreRow s c i op (strIns c i.toNat x none) = .next (s.withW (v.setCore c (z.retired (s.w.core c).pc (((s.w.core c).pc + 2) % 2 ^ 32)))) := by
  obtain ⟨hst', hstep'⟩ := issues_ready h
  obtain ⟨-, -, -, e4, -⟩ := start_ready x i.toNat s.w c 13
  obtain ⟨hzst, hzstep, hzpc⟩ := hst
  rw [ready_pc] at hzpc
  have hone := elements_one (s.w.setCore c (x.start i.toNat (s.w.ready c))) s.mem c i.toNat x false
    (by rw [core_setCore, e4]; exact h13) (n := 65536) (by decide)
  rw [hel] at hone
  dsimp only at hone
  rw [elements_zero (v.setCore c z) s.mem c i.toNat x false (by rw [core_setCore]; exact hz13)] at hone
  simp only [World.after, World.pcOf, core_setCore, hzpc] at hone
  exact str_done (lim := none) h ho hz hone (finish_setCore (hzst.trans hst') (hzstep.trans hstep') _)

/-- An element that ends the instruction. -/
theorem str_stop (hel : (s.w.setCore c (x.start i.toNat (s.w.ready c))).tryElement s.mem c i.toNat x false = .stop s.mem (v.setCore c z))
    (hst : z.st = (s.w.ready c).st ∧ z.stepping = (s.w.ready c).stepping ∧ z.pc = (s.w.ready c).pc) :
    coreRow s c i op (strIns c i.toNat x none) = .next (s.withW (v.setCore c (z.retired (s.w.core c).pc (((s.w.core c).pc + 2) % 2 ^ 32)))) := by
  obtain ⟨hst', hstep'⟩ := issues_ready h
  obtain ⟨-, -, -, e4, -⟩ := start_ready x i.toNat s.w c 13
  obtain ⟨hzst, hzstep, hzpc⟩ := hst
  rw [ready_pc] at hzpc
  have hone := elements_one (s.w.setCore c (x.start i.toNat (s.w.ready c))) s.mem c i.toNat x false
    (by rw [core_setCore, e4]; exact h13) (n := 65536) (by decide)
  rw [hel] at hone
  simp only [World.after, World.pcOf, core_setCore, hzpc] at hone
  exact str_done (lim := none) h ho hz hone (finish_setCore (hzst.trans hst') (hzstep.trans hstep') _)

/-- An element that an interruption follows: the PC is still that of the instruction. -/
theorem str_interrupted (hel : (s.w.setCore c (x.start i.toNat (s.w.ready c))).tryElement s.mem c i.toNat x false = .more s.mem (v.setCore c z))
    (hz13 : z.w 13 ≠ 0) :
    coreRow s c i op (strIns c i.toNat x (some 1)) = .next (s.withW (v.setCore c z)) := by
  obtain ⟨-, -, -, e4, -⟩ := start_ready x i.toNat s.w c 13
  have hone := elements_one (s.w.setCore c (x.start i.toNat (s.w.ready c))) s.mem c i.toNat x false
    (by rw [core_setCore, e4]; exact h13) (n := 1) (by decide)
  rw [hel] at hone
  dsimp only at hone
  rw [elements_hold (v.setCore c z) s.mem c i.toNat x false (by rw [core_setCore]; exact hz13)] at hone
  exact str_done (lim := some 1) h ho hz hone rfl

end Elements

/-- The accesses of an element go through where the core's own do. -/
theorem start_access (w : World) (c i : Nat) (x : StrKind)
    (h : ∀ e ∈ x.uses (w.core c), (w.core c).mpuOk (b2n e.2) e.1 = true ∧ isReg e.1 = false
      ∧ (w.setCore c (w.ready c)).bus c e.1 e.2 false = .ok) (m : Mem) :
    (w.setCore c (x.start i (w.ready c))).tryElement m c i x false = (w.setCore c (x.start i (w.ready c))).element m c i x := by
  obtain ⟨p, hp⟩ := start_shape x i (w.ready c)
  obtain ⟨l, f, hr⟩ := ready_sys w c
  refine tryElement_ok _ _ _ _ _ _ fun e he => ?_
  rw [core_setCore] at he ⊢
  rw [hp, hr] at he ⊢
  rw [hr] at h
  have huse : x.uses { { w.core c with lines := l, fills := f } with pr := p } = x.uses (w.core c) := by cases x <;> rfl
  rw [huse] at he
  exact h e he

/-- Address register `n` moves by an element of direction `d` (R323). -/
def Core.moved (k : Core) (n : Nat) (d : Int) : Core := k.setA n (unI 32 (k.a n + d))

/-- The one word `v` waits in the store buffer for the memory word `y`, and the core's own line of it is invalid. -/
def Core.buffered (k : Core) (y v : Nat) : Core := { k with sb := [(y, [v])], lines := k.lines.filter fun l => l.1 != lineAt y }

theorem memAddr_setCore (w : World) (c : Nat) (k : Core) (a : Nat) : (w.setCore c k).memAddr a = w.memAddr a := rfl

theorem coreAddr_setCore (w : World) (c : Nat) (k : Core) (a : Nat) : (w.setCore c k).coreAddr c a = w.coreAddr c a := rfl

/-- The memory word that address register `n` of core `c` names. -/
def World.strAt (w : World) (c n : Nat) : Nat := w.memAddr (w.coreAddr c ((w.core c).a n))

/-- The word at it, as the core reads it. -/
def World.strWord (w : World) (m : Mem) (c n : Nat) : Nat := (w.setCore c (w.ready c)).coreWord m c (w.coreAddr c ((w.core c).a n))

theorem ready_w (w : World) (c n : Nat) : (w.ready c).w n = (w.core c).w n := by
  obtain ⟨l, f, hr⟩ := ready_sys w c
  rw [hr]
  rfl

theorem ready_sb (w : World) (c : Nat) : (w.ready c).sb = (w.core c).sb := by
  obtain ⟨l, f, hr⟩ := ready_sys w c
  rw [hr]

/-- The accesses of an element of core `c` go through. -/
def World.strOk (w : World) (c : Nat) (x : StrKind) : Prop := ∀ e ∈ x.uses (w.core c),
  (w.core c).mpuOk (b2n e.2) e.1 = true ∧ isReg e.1 = false ∧ (w.setCore c (w.ready c)).bus c e.1 e.2 false = .ok

theorem setP_rest (k : Core) (n : Nat) (b : Bool) : (k.setP n b).st = k.st ∧ (k.setP n b).stepping = k.stepping ∧ (k.setP n b).pc = k.pc := by
  obtain ⟨p, hp⟩ := setP_shape k n b
  rw [hp]
  exact ⟨rfl, rfl, rfl⟩

theorem setP_twice_rest (k : Core) (n : Nat) (a b : Bool) : ((k.setP n a).setP n b).st = k.st ∧ ((k.setP n a).setP n b).stepping = k.stepping
    ∧ ((k.setP n a).setP n b).pc = k.pc := by
  obtain ⟨p, hp⟩ := setP_shape k n a
  rw [hp]
  exact setP_rest { k with pr := p } n b

theorem step_cmps_moved {y : Core} {b : Bool} {d : Int} {n : Nat} (hd : d = if b then -1 else 1) (h : y.w 13 = n + 1) :
    StrKind.cmps.step y b = ((y.moved 6 d).moved 7 d).setW 13 n := step_cmps y b d n hd h

theorem step_scns_moved {y : Core} {b : Bool} {d : Int} {n : Nat} (hd : d = if b then -1 else 1) (h : y.w 13 = n + 1) :
    StrKind.scns.step y b = (y.moved 6 d).setW 13 n := step_scns y b d n hd h

section Kinds

variable {d : Int} (h : s.w.issues c i.toNat false) (hz : bitsOf i.toNat 1 18 = 0) (hd : d = if i.toNat.testBit 0 then -1 else 1)
  (hsb : (s.w.core c).sb = []) (huse : s.w.strOk c x)

section
include hd hsb huse

theorem element_movs (hx : x = .movs) {n : Nat} (h13 : (s.w.core c).w 13 = n + 1) :
    (s.w.setCore c (x.start i.toNat (s.w.ready c))).tryElement s.mem c i.toNat x false
      = .more s.mem (((s.w.touchAt (s.w.strAt c 6)).touchAt (s.w.strAt c 7)).setCore c
        (((((s.w.ready c).buffered (s.w.strAt c 7) (s.w.strWord s.mem c 6)).moved 6 d).moved 7 d).setW 13 n)) := by
  subst hx
  obtain ⟨-, h6, -⟩ := huse ((s.w.core c).a 6, false) (by simp [StrKind.uses])
  obtain ⟨-, h7, -⟩ := huse ((s.w.core c).a 7, true) (by simp [StrKind.uses])
  rw [← ready_a] at h6 h7
  rw [start_access s.w c i.toNat .movs huse]
  have hel := elem_movs s.w s.mem c i.toNat (s.w.ready c) h6 h7 (by rw [ready_sb, hsb])
  simp only [ready_a, memAddr_setCore, coreAddr_setCore] at hel
  have hstep := step_movs ((s.w.ready c).buffered (s.w.strAt c 7) (s.w.strWord s.mem c 6)) (i.toNat.testBit 0) d n hd ((ready_w s.w c 13).trans h13)
  exact hel.trans (congrArg (fun z => Elem.more s.mem (((s.w.touchAt (s.w.strAt c 6)).touchAt (s.w.strAt c 7)).setCore c z)) hstep)

theorem element_fils (hx : x = .fils) {n : Nat} (h13 : (s.w.core c).w 13 = n + 1) :
    (s.w.setCore c (x.start i.toNat (s.w.ready c))).tryElement s.mem c i.toNat x false
      = .more s.mem ((s.w.touchAt (s.w.strAt c 7)).setCore c
        ((((s.w.ready c).buffered (s.w.strAt c 7) ((s.w.ready c).w 12)).moved 7 d).setW 13 n)) := by
  subst hx
  obtain ⟨-, h7, -⟩ := huse ((s.w.core c).a 7, true) (by simp [StrKind.uses])
  rw [← ready_a] at h7
  rw [start_access s.w c i.toNat .fils huse]
  have hel := elem_fils s.w s.mem c i.toNat (s.w.ready c) h7 (by rw [ready_sb, hsb])
  simp only [ready_a, memAddr_setCore, coreAddr_setCore] at hel
  have hstep := step_fils ((s.w.ready c).buffered (s.w.strAt c 7) ((s.w.ready c).w 12)) (i.toNat.testBit 0) d n hd ((ready_w s.w c 13).trans h13)
  exact hel.trans (congrArg (fun z => Elem.more s.mem ((s.w.touchAt (s.w.strAt c 7)).setCore c z)) hstep)

/-- The predicate of CMPS is preset: what the element compares is as it was. -/
theorem element_cmps (hx : x = .cmps) {n : Nat} (h13 : (s.w.core c).w 13 = n + 1) :
    (s.w.setCore c (x.start i.toNat (s.w.ready c))).tryElement s.mem c i.toNat x false
      = if s.w.strWord s.mem c 6 = s.w.strWord s.mem c 7
        then .more s.mem (((s.w.touchAt (s.w.strAt c 6)).touchAt (s.w.strAt c 7)).setCore c
          (((((s.w.ready c).setP (insPd i.toNat) true).moved 6 d).moved 7 d).setW 13 n))
        else .stop s.mem (((s.w.touchAt (s.w.strAt c 6)).touchAt (s.w.strAt c 7)).setCore c
          (((s.w.ready c).setP (insPd i.toNat) true).setP (insPd i.toNat) false)) := by
  subst hx
  obtain ⟨-, h6, -⟩ := huse ((s.w.core c).a 6, false) (by simp [StrKind.uses])
  obtain ⟨-, h7, -⟩ := huse ((s.w.core c).a 7, false) (by simp [StrKind.uses])
  rw [← ready_a] at h6 h7
  rw [start_access s.w c i.toNat .cmps huse]
  obtain ⟨p, hp⟩ := setP_shape (s.w.ready c) (insPd i.toNat) true
  have hel := elem_cmps s.w s.mem c i.toNat ((s.w.ready c).setP (insPd i.toNat) true) (by rw [hp]; exact h6) (by rw [hp]; exact h7)
    (by rw [hp]; exact (ready_sb s.w c).trans hsb)
  have ha : ∀ n, ((s.w.ready c).setP (insPd i.toNat) true).a n = (s.w.core c).a n := fun n => by rw [hp]; exact ready_a s.w c n
  have h13' : ((s.w.ready c).setP (insPd i.toNat) true).w 13 = n + 1 := by rw [hp]; exact (ready_w s.w c 13).trans h13
  have hread : ∀ y, (s.w.setCore c ((s.w.ready c).setP (insPd i.toNat) true)).coreWord s.mem c y
      = (s.w.setCore c (s.w.ready c)).coreWord s.mem c y := fun y => by rw [hp]; exact coreWord_pr ..
  rw [step_cmps_moved hd h13'] at hel
  simp only [ha, hread, memAddr_setCore, coreAddr_setCore] at hel
  exact hel

theorem element_scns (hx : x = .scns) {n : Nat} (h13 : (s.w.core c).w 13 = n + 1) :
    (s.w.setCore c (x.start i.toNat (s.w.ready c))).tryElement s.mem c i.toNat x false
      = if s.w.strWord s.mem c 6 = (s.w.core c).w 12
        then .stop s.mem ((s.w.touchAt (s.w.strAt c 6)).setCore c
          (((s.w.ready c).setP (insPd i.toNat) false).setP (insPd i.toNat) true))
        else .more s.mem ((s.w.touchAt (s.w.strAt c 6)).setCore c
          ((((s.w.ready c).setP (insPd i.toNat) false).moved 6 d).setW 13 n)) := by
  subst hx
  obtain ⟨-, h6, -⟩ := huse ((s.w.core c).a 6, false) (by simp [StrKind.uses])
  rw [← ready_a] at h6
  rw [start_access s.w c i.toNat .scns huse]
  obtain ⟨p, hp⟩ := setP_shape (s.w.ready c) (insPd i.toNat) false
  have hel := elem_scns s.w s.mem c i.toNat ((s.w.ready c).setP (insPd i.toNat) false) (by rw [hp]; exact h6)
    (by rw [hp]; exact (ready_sb s.w c).trans hsb)
  have ha : ∀ n, ((s.w.ready c).setP (insPd i.toNat) false).a n = (s.w.core c).a n := fun n => by rw [hp]; exact ready_a s.w c n
  have hw : ∀ n, ((s.w.ready c).setP (insPd i.toNat) false).w n = (s.w.core c).w n := fun n => by rw [hp]; exact ready_w s.w c n
  have hread : ∀ y, (s.w.setCore c ((s.w.ready c).setP (insPd i.toNat) false)).coreWord s.mem c y
      = (s.w.setCore c (s.w.ready c)).coreWord s.mem c y := fun y => by rw [hp]; exact coreWord_pr ..
  rw [step_scns_moved hd ((hw 13).trans h13)] at hel
  simp only [ha, hread, hw, memAddr_setCore, coreAddr_setCore] at hel
  exact hel

end

theorem finish_touched {r : Res} {k : Core} {y : Nat} {f : Core → Core}
    (hr : r = .next (s.withW ((s.w.touchAt y).setCore c k))) (hk : k = (f (s.w.ready c)).retired (s.w.core c).pc (((s.w.core c).pc + 2) % 2 ^ 32)) :
    r = .next ((s.ran c 2 f).touched y) := by
  subst hk
  rw [hr]
  simp only [State.ran, State.touched, State.withW, touchAt_setCore]

theorem finish_touched_twice {r : Res} {k : Core} {y y' : Nat} {f : Core → Core}
    (hr : r = .next (s.withW (((s.w.touchAt y).touchAt y').setCore c k)))
    (hk : k = (f (s.w.ready c)).retired (s.w.core c).pc (((s.w.core c).pc + 2) % 2 ^ 32)) :
    r = .next (((s.ran c 2 f).touched y).touched y') := by
  subst hk
  rw [hr]
  simp only [State.ran, State.touched, State.withW, touchAt_setCore]

end Kinds

end StrRows

/-- Settles O41: an element of each kind is `tryElement`, and the instruction ends, goes on or is done by `elements`. -/
theorem coreStringsTakeEffect : Obligations.CoreStringsTakeEffect := by
  rintro s c i k q u d h hz rfl rfl rfl hd
  refine ⟨fun h13 limit => ⟨fun ho => str_empty (x := .movs) h ho hz h13 limit, fun ho => str_empty (x := .fils) h ho hz h13 limit,
    fun ho => str_empty (x := .cmps) h ho hz h13 limit, fun ho => str_empty (x := .scns) h ho hz h13 limit⟩, ?_⟩
  rintro x src dst st6 st7 hsb hne hlt huse rfl rfl rfl rfl at_ buf rfl rfl
  obtain ⟨n, hn⟩ := Nat.exists_eq_succ_of_ne_zero hne
  refine ⟨fun h1 => ⟨fun hx ho => ?movs, fun hx ho => ?fils, fun hx ho heq => ?cmps, fun hx ho hno => ?scns⟩,
    fun hx ho hdiff => ?differ, fun hx ho heq => ?found, fun hx ho h1 => ?interrupted⟩
  case movs =>
    have hdone := str_last h ho hz hne (element_movs (n := 0) hd hsb huse hx h1) (w_setW_same _ 13 0) ⟨rfl, rfl, rfl⟩
    subst hx
    refine finish_touched_twice hdone ?_
    simp only [Core.moved, Core.buffered, World.strAt, World.strWord, memAddr_setCore, coreAddr_setCore, ready_a]
  case fils =>
    have hdone := str_last h ho hz hne (element_fils (n := 0) hd hsb huse hx h1) (w_setW_same _ 13 0) ⟨rfl, rfl, rfl⟩
    subst hx
    refine finish_touched hdone ?_
    simp only [Core.moved, Core.buffered, World.strAt, memAddr_setCore, coreAddr_setCore, ready_a]
  case cmps =>
    have hel := element_cmps (n := 0) hd hsb huse hx h1
    rw [if_pos (show s.w.strWord s.mem c 6 = s.w.strWord s.mem c 7 from heq)] at hel
    have hdone := str_last h ho hz hne hel (w_setW_same _ 13 0) (setP_rest _ _ _)
    subst hx
    refine finish_touched_twice hdone ?_
    simp only [Core.moved]
  case scns =>
    have hel := element_scns (n := 0) hd hsb huse hx h1
    rw [if_neg (show ¬ s.w.strWord s.mem c 6 = (s.w.core c).w 12 from hno)] at hel
    have hdone := str_last h ho hz hne hel (w_setW_same _ 13 0) (setP_rest _ _ _)
    subst hx
    refine finish_touched hdone ?_
    simp only [Core.moved]
  case differ =>
    have hel := element_cmps hd hsb huse hx hn
    rw [if_neg (show ¬ s.w.strWord s.mem c 6 = s.w.strWord s.mem c 7 from hdiff)] at hel
    have hdone := str_stop h ho hz hne hel (setP_twice_rest _ _ _ _)
    subst hx
    exact finish_touched_twice hdone rfl
  case found =>
    have hel := element_scns hd hsb huse hx hn
    rw [if_pos (show s.w.strWord s.mem c 6 = (s.w.core c).w 12 from heq)] at hel
    have hdone := str_stop h ho hz hne hel (setP_twice_rest _ _ _ _)
    subst hx
    exact finish_touched hdone rfl
  case interrupted =>
    have hleft : n % 65536 ≠ 0 := by omega
    have hdone := str_interrupted h ho hz hne (element_fils hd hsb huse hx hn) (by rw [w_setW_same]; exact hleft)
    have hpred : (s.w.core c).w 13 - 1 = n := by omega
    subst hx
    refine hdone.trans ?_
    simp only [State.touched, State.withW, touchAt_setCore, Core.moved, Core.buffered, World.strAt, memAddr_setCore, coreAddr_setCore, ready_a,
      ready_w, hpred]

end Sys2Proof.Machine

/-! Frames, snapshots and heartbeats of the belay link (R249, R366 to R371, R378). -/

namespace Sys2Proof.Machine

/-- A command that changes the world by `f`. -/
theorem onW_next {s : State} {f : World → World} {v : World} (h : f s.w = v) : onW s f = .next (s.withW v) := by
  subst h
  rfl

/-- A command that changes memory and world by `f`. -/
theorem onM_next {s : State} {f : Mem → World → Mem × World} {r : Mem × World} (h : f s.mem s.w = r) :
    onM s f = .next { s with mem := r.1, w := r.2 } := by
  subst h
  rfl

theorem fb_of_one {w : World} {F : Fld} {i : Nat} (h : w.f F i = 1) : w.fb F i = true := by
  unfold World.fb
  rw [h]
  rfl

theorem fb_of_zero {w : World} {F : Fld} {i : Nat} (h : w.f F i = 0) : w.fb F i = false := by
  unfold World.fb
  rw [h]
  rfl

theorem linkUp_upTo {w : World} {t : Nat} (h : w.f F.BL_STAT_LINKUP 0 = 1) : (w.upTo t).fb F.BL_STAT_LINKUP 0 = true :=
  fb_of_one ((f_upTo w t (by decide) 0).trans h)

/-! ### Acknowledgements and retries (R368) -/

/-- The acknowledged frame `x` is no longer held, and BL_RTT shows its time. -/
def World.acked (w : World) (seq : Nat) (x : Frame) : World :=
  World.sf { w with bly := { w.bly with sent := w.bly.sent.filter fun (y : Frame) => y.seq != seq } } F.BL_RTT_RTT 0
    (satU 16 (nsIn x.sentAt (w.clk.tk - x.sentAt)))

theorem acked_spec (w : World) (seq : Nat) (x : Frame) :
    (∀ y ∈ (w.acked seq x).bly.sent, y.seq ≠ seq) ∧ Keeps [F.BL_RTT_RTT.id] w (w.acked seq x) := by
  refine ⟨fun y hy => ?_, ((Keeps.refl _ w).with_bly).sf (by decide)⟩
  exact bne_iff_ne.mp (List.mem_filter.mp hy).2

/-- A message that is no effect needs no ring slot released. -/
theorem ack_plain {w : World} {seq : Nat} {x : Frame} (hf : w.bly.sent.find? (fun y => y.seq == seq) = some x)
    (hx : ∀ c sense wb, x.msg ≠ .effect c sense wb) : w.ack seq = w.acked seq x := by
  unfold World.ack
  rw [hf]
  dsimp only
  split
  next c sense wb h => exact absurd h (hx c sense wb)
  next => rfl

theorem ack_effect {w : World} {seq : Nat} {x : Frame} (hf : w.bly.sent.find? (fun y => y.seq == seq) = some x)
    {c : Cmd} {sense : Int} {wb : Option WB} (hx : x.msg = .effect c sense wb) :
    w.ack seq = (w.acked seq x).releaseKey (if c.gseq.isSome then 0xFF else c.rail) := by
  unfold World.ack
  rw [hf]
  dsimp only
  rw [hx]
  rfl

theorem retryFrame_gone {w : World} {seq : Nat} {x : Frame} (hf : w.bly.sent.find? (fun y => y.seq == seq) = some x) (hx : 4 ≤ x.tries) :
    w.retryFrame seq = (w.sf F.BL_ERR_RETRY 0 1).sf F.BL_STAT_LINKUP 0 0 := by
  unfold World.retryFrame
  rw [hf]
  exact if_pos hx

/-- A retried frame is counted and sent again. -/
theorem retryFrame_again {w : World} {seq : Nat} {x : Frame} (hf : w.bly.sent.find? (fun y => y.seq == seq) = some x) (hx : x.tries < 4) :
    (w.retryFrame seq).f F.BL_RTT_RETRIES 0 = (w.f F.BL_RTT_RETRIES 0 + 1) % 2 ^ F.BL_RTT_RETRIES.wd
    ∧ (w.retryFrame seq).out = w.out ++ [.belay x.msg] ∧ Keeps [F.BL_RTT_RETRIES.id] w (w.retryFrame seq) := by
  unfold World.retryFrame
  rw [hf]
  dsimp only
  rw [if_neg (by omega)]
  exact ⟨f_sf_same _ _ _ _, rfl, (((Keeps.refl _ w).with_bly).inc (by decide)).emit⟩

theorem nak_retries {s : State} {seq : Nat} (h : s.w.f F.BL_STAT_LINKUP 0 = 1) {v : World} (hv : s.w.retryFrame seq = v) :
    exec (.nak seq) s = .next (s.withW v) ∧ exec (.frameRetry seq) s = .next (s.withW v) :=
  ⟨onW_next ((if_pos (fb_of_one h)).trans hv), onW_next ((if_pos (fb_of_one h)).trans hv)⟩

/-! ### Messages (R249, R368) -/

theorem receive_bad {w : World} {tag seq : Nat} {m : BlyOut} (h : w.f F.BL_STAT_LINKUP 0 = 1) :
    w.receive tag seq false m = w.emit (.belay (.nak seq)) := by
  unfold World.receive
  rw [fb_of_one h]
  rfl

/-- A good message is answered ACK, and held in the standby once. -/
theorem receive_good {w : World} {tag seq : Nat} {m : BlyOut} (h : w.f F.BL_STAT_LINKUP 0 = 1) {v : World} (hv : v = w.receive tag seq true m) :
    v.out = w.out ++ [.belay (.ack seq)] ∧ v.regs = w.regs
    ∧ (w.role = roStandby → (∀ x ∈ w.bly.msgs, x.2.1 ≠ seq) → v.bly.msgs = w.bly.msgs ++ [(tag % 65536, seq, m)])
    ∧ (w.role ≠ roStandby ∨ (∃ x ∈ w.bly.msgs, x.2.1 = seq) → v.bly.msgs = w.bly.msgs) := by
  have hany : w.bly.msgs.any (fun x => x.2.1 == seq) = true ↔ ∃ x ∈ w.bly.msgs, x.2.1 = seq := by
    simp only [List.any_eq_true, beq_iff_eq]
  subst hv
  unfold World.receive
  rw [fb_of_one h, if_neg (by decide), if_neg (by decide)]
  by_cases hold : w.role ≠ roStandby ∨ w.bly.msgs.any (fun x => x.2.1 == seq) = true
  · have hkept : w.role ≠ roStandby ∨ ∃ x ∈ w.bly.msgs, x.2.1 = seq := hold.imp_right hany.mp
    have hold' : (w.emit (.belay (.ack seq))).role ≠ roStandby ∨ (w.emit (.belay (.ack seq))).bly.msgs.any (fun x => x.2.1 == seq) = true := hold
    dsimp only
    rw [if_pos hold']
    refine ⟨rfl, rfl, fun hrole hnew => ?_, fun _ => rfl⟩
    rcases hkept with hr | ⟨x, hx, hseq⟩
    · exact absurd hrole hr
    · exact absurd hseq (hnew x hx)
  · have hnew : ¬ (w.role ≠ roStandby ∨ ∃ x ∈ w.bly.msgs, x.2.1 = seq) := fun h => hold (h.imp_right hany.mpr)
    have hold' : ¬ ((w.emit (.belay (.ack seq))).role ≠ roStandby ∨ (w.emit (.belay (.ack seq))).bly.msgs.any (fun x => x.2.1 == seq) = true) := hold
    dsimp only
    rw [if_neg hold']
    exact ⟨rfl, rfl, fun _ _ => rfl, fun h => absurd h hnew⟩

/-! ### The handover -/

theorem role_standby_ne {w : World} (h : w.role = roStandby) : w.role ≠ roActive := by
  rw [h]
  decide

theorem setRole_active {w : World} (h : w.role = roStandby) : (w.setRole roActive).role = roActive ∧ (w.setRole roActive).bly = w.bly
    ∧ (w.setRole roActive).f F.BL_ERR_ROLECHG 0 = 1 := by
  unfold World.setRole
  rw [if_neg (role_standby_ne h)]
  refine ⟨?_, rfl, f_sf_same _ _ _ _⟩
  exact (f_sf_ne _ _ _ _ (by decide)).trans (f_sf_same _ _ _ _)

theorem handoverFrame_active {w : World} (seq h : Nat) (hrole : w.role = roStandby) : (w.handoverFrame seq h).role = roActive
    ∧ (w.handoverFrame seq h).bly = { w.bly with handIn := some h } ∧ (w.handoverFrame seq h).f F.BL_ERR_ROLECHG 0 = 1 := by
  have hrole' : (w.emit (.belay (.ack seq))).role = roStandby := hrole
  unfold World.handoverFrame
  dsimp only
  rw [if_pos hrole']
  exact setRole_active hrole'

/-- Settles O46: the frame's row is the model's operation on the frame that it finds. -/
theorem belayFramesTakeEffect : Obligations.BelayFramesTakeEffect := by
  unfold Obligations.BelayFramesTakeEffect
  refine ⟨?_, ?_, ?_⟩
  · rintro s seq t x w hup rfl hf
    have hup' := linkUp_upTo (t := t) hup
    have hf0 : s.w.bly.sent.find? (fun y => y.seq == seq) = some x := hf
    have hf' : (s.w.upTo t).bly.sent.find? (fun y => y.seq == seq) = some x := by rwa [bly_upTo]
    obtain ⟨hgone, hkeep⟩ := acked_spec (s.w.upTo t) seq x
    refine ⟨⟨_, hgone, hkeep, fun hx => ?_, fun c sense wb hx => ?_⟩, fun hx => nak_retries hup (retryFrame_gone hf hx), fun hx => ?_⟩
    · change execAck seq t s = _
      exact onW_next ((if_pos hup').trans (ack_plain hf' hx))
    · change execAck seq t s = _
      exact onW_next ((if_pos hup').trans (ack_effect hf' hx))
    obtain ⟨hn, hfr⟩ := nak_retries (seq := seq) hup rfl
    exact ⟨_, hn, hfr, retryFrame_again hf hx⟩
  · intro s tag seq i sense c wb b why q hup e he
    have hrow : ∀ good, exec (e.1 good) s = onW s fun w => w.receive tag seq good e.2 := fun good => by
      simp only [List.mem_cons, List.not_mem_nil, or_false] at he
      rcases he with rfl | rfl | rfl | rfl <;> rfl
    exact ⟨(hrow false).trans (onW_next (receive_bad hup)), _, (hrow true).trans (onW_next rfl), receive_good hup rfl⟩
  · intro s seq h t hup hrole
    obtain ⟨hact, hbly, hchg⟩ := handoverFrame_active seq h ((f_upTo s.w t (by decide) 0).trans hrole)
    exact ⟨_, show execHandoverFrame seq h t s = _ from onW_next (if_pos (linkUp_upTo hup)), hact, by rw [hbly], hchg⟩

/-! ### Snapshots (R370, R378) -/

theorem snapshot_next {s : State} {e part : Nat} {good : Bool} {sn : Snap} (hup : s.w.f F.BL_STAT_LINKUP 0 = 1) (hrole : s.w.role = roStandby)
    {v : World} (hv : s.w.snapFrame e part good sn = v) : exec (.snapshot e part good sn) s = .next (s.withW v) :=
  onW_next ((if_pos ⟨fb_of_one hup, hrole⟩).trans hv)

theorem snapFrame_first {w : World} {e : Nat} {sn : Snap} (h : w.bly.asm = none) :
    w.snapFrame e 0 true sn = { w with bly := { w.bly with asm := some (e, 1, false) } } := by
  unfold World.snapFrame
  rw [h]
  rfl

theorem snapFrame_torn {w : World} {e part n : Nat} {good : Bool} {sn : Snap} (h : w.bly.asm = some (e, n, true)) :
    w.snapFrame e part good sn = w := by
  unfold World.snapFrame
  rw [h]
  dsimp only
  rw [if_pos rfl, if_pos rfl]

theorem snapFrame_tears {w : World} {e part n : Nat} {good : Bool} {sn : Snap} (h : w.bly.asm = some (e, n, false)) (hb : good = false ∨ part ≠ n) :
    w.snapFrame e part good sn = w.tear e := by
  have hno : ¬ (good = true ∧ part = n) := fun ⟨hg, hp⟩ => hb.elim (fun h => by rw [hg] at h; cases h) fun h => h hp
  unfold World.snapFrame
  rw [h]
  dsimp only
  rw [if_pos rfl, if_neg Bool.false_ne_true, if_neg hno]

theorem snapFrame_last {w : World} {e : Nat} {sn : Snap} (h : w.bly.asm = some (e, 355, false)) :
    w.snapFrame e 355 true sn = w.takeSnap { sn with epoch := e } := by
  unfold World.snapFrame
  rw [h]
  dsimp only
  rw [if_pos rfl, if_neg Bool.false_ne_true, if_pos ⟨rfl, rfl⟩]
  rfl

/-- The world that has taken snapshot `sn`, before its update state is judged. -/
theorem takeSnap_spec (w : World) (sn : Snap) : (w.takeSnap sn).bly.mirror = some sn ∧ (w.takeSnap sn).bly.asm = none
    ∧ (w.takeSnap sn).f F.BL_STAT_SYNC 0 = 1 ∧ (w.takeSnap sn).f F.BL_EPOCH_EPOCH 0 = sn.epoch % 2 ^ F.BL_EPOCH_EPOCH.wd
    ∧ Keeps [F.BL_EPOCH_EPOCH.id, F.BL_STAT_SYNC.id, F.BL_STAT_UPD.id] w (w.takeSnap sn) := by
  obtain ⟨u, hu, hregs, hmirror, hasm⟩ : ∃ u : World, w.takeSnap sn = ((u.sf F.BL_EPOCH_EPOCH 0 sn.epoch).sf F.BL_STAT_SYNC 0 1).updDone
      ∧ u.regs = w.regs ∧ u.bly.mirror = some sn ∧ u.bly.asm = none := ⟨_, rfl, rfl, rfl, rfl⟩
  have hdone := updDone_keeps ((u.sf F.BL_EPOCH_EPOCH 0 sn.epoch).sf F.BL_STAT_SYNC 0 1)
  rw [hu]
  refine ⟨?_, ?_, ?_, ?_, ?_⟩
  · rw [updDone_bly]
    exact hmirror
  · rw [updDone_bly]
    exact hasm
  · rw [hdone.f (by decide) 0]
    exact f_sf_same _ _ _ _
  · rw [hdone.f (by decide) 0, f_sf_ne _ _ _ _ (by decide)]
    exact f_sf_same _ _ _ _
  · have hset : Keeps [F.BL_EPOCH_EPOCH.id, F.BL_STAT_SYNC.id, F.BL_STAT_UPD.id] w ((u.sf F.BL_EPOCH_EPOCH 0 sn.epoch).sf F.BL_STAT_SYNC 0 1) :=
      (((Keeps.refl _ w).regs hregs).sf (by decide)).sf (by decide)
    exact hset.trans (hdone.mono (by decide))

/-! ### Heartbeats (R366, R369, R371) -/

theorem follows_keeps {l : List Nat} {w v : World} (hk : Keeps l w v) (h1 : F.BL_STAT_ROLE.id ∉ l) (h2 : F.BL_CFG_TBFOLLOW.id ∉ l) :
    v.follows = w.follows := by
  unfold World.follows World.fb
  rw [hk.f ⟨by decide, h1⟩, hk.f ⟨by decide, h2⟩]

theorem heartbeat_spec (w : World) (own sync : Bool) (upd romver cls sig tb : Nat) (hf : w.follows = false) {v : World}
    (hv : v = w.heartbeat own sync upd romver cls sig tb) :
    v.f F.BL_STAT_PUPD 0 = upd % 2 ^ F.BL_STAT_PUPD.wd ∧ v.f F.BL_PVER_ROMVER 0 = romver % 2 ^ F.BL_PVER_ROMVER.wd
    ∧ v.f F.BL_PVER_CLASS 0 = cls % 2 ^ F.BL_PVER_CLASS.wd ∧ v.f F.BL_PCFGSIG_SIG 0 = sig % 2 ^ 32
    ∧ (own = true → v.f F.BL_STAT_KAIN 0 = 1)
    ∧ Keeps [F.BL_CNT_HBMISS.id, F.BL_STAT_PUPD.id, F.BL_STAT_KAIN.id, F.BL_PVER_ROMVER.id, F.BL_PVER_CLASS.id, F.BL_PCFGSIG_SIG.id,
      F.BL_CFGSIG_SIG.id, F.BL_STAT_UPD.id] w v := by
  have hheard := heard_keeps w own sync upd romver cls sig
  obtain ⟨hpupd, hrom, hcls, hsig, hka⟩ := heard_f w own sync upd romver cls sig _ rfl
  have hstep : v = (w.heard own sync upd romver cls sig).when ((w.heard own sync upd romver cls sig).role == roActive && sync) World.updDone := by
    rw [hv]
    unfold World.heartbeat
    generalize hu : (w.heard own sync upd romver cls sig).when ((w.heard own sync upd romver cls sig).role == roActive && sync) World.updDone = u
    have hku : Keeps [F.BL_CNT_HBMISS.id, F.BL_STAT_PUPD.id, F.BL_STAT_KAIN.id, F.BL_PVER_ROMVER.id, F.BL_PVER_CLASS.id, F.BL_PCFGSIG_SIG.id,
        F.BL_CFGSIG_SIG.id, F.BL_STAT_UPD.id] w u := by
      rw [← hu]
      exact (hheard.mono (by decide)).when fun x hx => hx.trans ((updDone_keeps x).mono (by decide))
    dsimp only
    rw [hu, follows_keeps hku (by decide) (by decide), hf]
    rfl
  have hk : Keeps [F.BL_STAT_UPD.id] (w.heard own sync upd romver cls sig) v := by
    rw [hstep]
    exact (Keeps.refl _ _).when fun x hx => hx.trans (updDone_keeps x)
  refine ⟨(hk.f (by decide) 0).trans hpupd, (hk.f (by decide) 0).trans hrom, (hk.f (by decide) 0).trans hcls, (hk.f (by decide) 0).trans hsig,
    fun ho => (hk.f (by decide) 0).trans (hka ho), (hheard.mono (by decide)).trans (hk.mono (by decide))⟩

theorem follows_upTo (w : World) (t : Nat) : (w.upTo t).follows = w.follows := by
  unfold World.follows World.fb
  rw [f_upTo w t (by decide), f_upTo w t (by decide)]

theorem cfgdiff_next {s : State} {t d : Nat} {w : World} (hw : w = s.w.upTo t) (hd : w.bly.diffAt = some d) :
    exec (.cfgdiff t) s = .next (s.withW (if d + 128 * 10000 < w.clk.tk then w.sf F.BL_ERR_CFGDIFF 0 1 else w)) := by
  subst hw
  change execCfgdiff t s = _
  refine onW_next ?_
  dsimp only
  rw [hd]

/-- Settles O47: each row is one operation of the link on the received frame. -/
theorem snapshotsAndHeartbeatsTakeEffect : Obligations.SnapshotsAndHeartbeatsTakeEffect := by
  unfold Obligations.SnapshotsAndHeartbeatsTakeEffect
  refine ⟨fun s e part good sn hup hrole => ⟨fun h => snapshot_next hup hrole (snapFrame_first h), fun n h hb => ?_,
    fun n h => snapshot_next hup hrole (snapFrame_torn h), fun h => ?_⟩, ?_, ?_⟩
  · refine ⟨_, snapshot_next hup hrole (snapFrame_tears h hb), rfl, rfl, f_sf_same _ _ _ _, ?_⟩
    exact ((Keeps.refl _ s.w).with_bly).inc (by decide)
  · exact ⟨_, snapshot_next hup hrole (snapFrame_last h), takeSnap_spec s.w { sn with epoch := e }⟩
  · rintro s own sync upd romver cls sig tb t w hup hf rfl
    exact ⟨_, show execHeartbeat own sync upd romver cls sig tb t s = _ from onW_next (if_pos (linkUp_upTo hup)),
      heartbeat_spec (s.w.upTo t) own sync upd romver cls sig tb ((follows_upTo s.w t).trans hf) rfl⟩
  · intro s t d w hw hd
    have hnext := cfgdiff_next hw hd
    refine ⟨fun hlt => ?_, fun hge => ?_⟩
    · rwa [if_pos (by omega)] at hnext
    · rwa [if_neg (by omega)] at hnext

end Sys2Proof.Machine

/-! Timers: their compares, wraps, inputs and captures (R394 to R402). -/

namespace Sys2Proof.Machine

@[simp] theorem on_upTo (w : World) (t n : Nat) : (w.upTo t).on n = w.on n := by
  unfold World.on
  rw [islOn_upTo]

theorem fb_upTo (w : World) (t : Nat) {G : Fld} (h : G.still) (j : Nat) : (w.upTo t).fb G j = w.fb G j := by
  unfold World.fb
  rw [f_upTo w t h]

theorem upTo_twice (w : World) (t : Nat) : (w.upTo t).upTo t = w.upTo t := by
  have hlate : ¬ (w.upTo t).clk.tk < t := by
    rw [upTo_tk]
    omega
  exact if_neg hlate

/-- A block input that is taken leaves every register field but the two that a running timer moves. -/
theorem f_inputTaken (w : World) (key t : Nat) {G : Fld} (h : G.still) (j : Nat) : (w.inputTaken key t).f G j = w.f G j := f_upTo _ _ h _

/-! ### An edge at an input (R387, R399) -/

section
variable {w : World} {kind t now ch key : Nat} {g : TmIn} {ovr : Fld} {fall : Bool} {act : World → World}

theorem tmInput_direct (ht : t < 32) (hon : w.on 17 = true) : w.tmInput kind t g ovr none ch fall act = act w := by
  unfold World.tmInput
  rw [hon, decide_eq_true ht]
  rfl

theorem tmInput_edge (ht : t < 32) (hon : w.on 17 = true) : w.tmInput kind t g ovr (some now) ch fall act
    = if (w.upTo now).tmSel g t ch fall then (w.upTo now).input (32 * kind + t) now (fun w => w.incSat ovr t) fun w => act (w.upTo (now + 256))
      else w.upTo now := by
  unfold World.tmInput
  rw [hon, decide_eq_true ht]
  rfl

theorem tmInput_unselected (ht : t < 32) (hon : w.on 17 = true) (hsel : (w.upTo now).tmSel g t ch fall = false) :
    w.tmInput kind t g ovr (some now) ch fall act = w.upTo now := by
  rw [tmInput_edge ht hon, hsel, if_neg Bool.false_ne_true]

theorem tmInput_taken (ht : t < 32) (hon : w.on 17 = true) (hsel : (w.upTo now).tmSel g t ch fall = true) (hkey : 32 * kind + t = key)
    (hfree : (w.upTo now).inputFree key now) : w.tmInput kind t g ovr (some now) ch fall act = act ((w.upTo now).inputTaken key now) := by
  rw [tmInput_edge ht hon, hsel, if_pos rfl, hkey, input_free hfree]
  rfl

theorem tmInput_merged (ht : t < 32) (hon : w.on 17 = true) (hsel : (w.upTo now).tmSel g t ch fall = true) (hkey : 32 * kind + t = key)
    (hbusy : ¬ (w.upTo now).inputFree key now) : w.tmInput kind t g ovr (some now) ch fall act = (w.upTo now).incSat ovr t := by
  rw [tmInput_edge ht hon, hsel, if_pos rfl, hkey, input_busy hbusy]
end

/-! ### Compares and wraps (R395 to R397) -/

theorem tmJudge_rest {w : World} {t : Nat} (h : w.fb F.TM_STAT_ARMED t = false) : w.tmJudge t = w := by
  unfold World.tmJudge
  rw [h, Bool.false_and, if_neg Bool.false_ne_true]

/-- An armed compare stays armed, or has fired. -/
theorem tmJudge_armed {w : World} {t : Nat} (h : w.f F.TM_STAT_ARMED t = 1) :
    (w.tmJudge t).f F.TM_STAT_ARMED t = 1 ∧ (w.tmJudge t).tmPassed t = false
    ∨ (w.tmJudge t).f F.TM_STAT_ARMED t = 0 ∧ (w.tmJudge t).f F.TM_STAT_CMPHIT t = 1 := by
  by_cases hp : w.tmPassed t = true
  · exact .inr (tmJudge_fired w t (by rw [fb_of_one h, hp]; rfl))
  · have hp := Bool.eq_false_iff.mpr hp
    have hsame : w.tmJudge t = w := by
      unfold World.tmJudge
      rw [hp, Bool.and_false, if_neg Bool.false_ne_true]
    rw [hsame]
    exact .inl ⟨h, hp⟩

/-- COUNT returns to 0 by a wrap that no timer above counts. -/
theorem tmWrap_alone {w : World} {t : Nat} (hw : (w.timer t).wraps ≠ 0) (hc : w.f F.TM_CFG_CLKSRC (t + 1) ≠ 3) :
    ((w.tmWrap t).timer t).wraps = (w.timer t).wraps - 1 ∧ (w.tmWrap t).f F.TM_STAT_WRAPPED t = 1
    ∧ Keeps [F.TM_STAT_WRAPPED.id] w (w.tmWrap t) := by
  obtain ⟨u, hu, htm, hset, hkeep⟩ : ∃ u : World, u = (((w.setTimer t { w.timer t with wraps := (w.timer t).wraps - 1 }).sf F.TM_STAT_WRAPPED t 1).pulse
      (0x100 + t)).tmIrq t 1 ∧ (u.timer t).wraps = (w.timer t).wraps - 1 ∧ u.f F.TM_STAT_WRAPPED t = 1 ∧ Keeps [F.TM_STAT_WRAPPED.id] w u := by
    refine ⟨_, rfl, ?_, ?_, ?_⟩
    · rw [tmIrq_timer]
      exact congrArg Tm.wraps (timer_setTimer w t _)
    · rw [f_tmIrq, f_pulse, f_sf_same]
      rfl
    · exact (((Keeps.refl _ w).setTimer.sf (by decide)).pulse).regs (tmIrq_regs _ _ _)
  have hstep : w.tmWrap t = u := by
    have hsrc : ¬ (t + 1 < 32 ∧ u.f F.TM_CFG_CLKSRC (t + 1) = 3 ∧ u.fb F.TM_CTL_RUN (t + 1) = true) := fun ⟨_, h3, _⟩ =>
      hc ((hkeep.f (by decide) _).symm.trans h3)
    unfold World.tmWrap
    dsimp only
    rw [if_neg hw, ← hu, if_neg hsrc]
  rw [hstep]
  exact ⟨htm, hset, hkeep⟩

/-- A write of TM_CMP_LO commits the compare value and arms it. -/
theorem tmCommit_spec (w : World) (t v : Nat) : ((w.tmCommit t v).timer t).cmp = v % 2 ^ 32 + 2 ^ 32 * w.f F.TM_CMP_HI_M_HI t
    ∧ ((w.tmCommit t v).f F.TM_STAT_ARMED t = 1 ∧ (w.tmCommit t v).tmPassed t = false
      ∨ (w.tmCommit t v).f F.TM_STAT_ARMED t = 0 ∧ (w.tmCommit t v).f F.TM_STAT_CMPHIT t = 1)
    ∧ Keeps [F.TM_CMP_LO_M_LO.id, F.TM_STAT_ARMED.id, F.TM_STAT_CMPHIT.id] w (w.tmCommit t v) := by
  obtain ⟨u, hu, hcmp, hkeep⟩ : ∃ u : World, w.tmCommit t v = (u.sf F.TM_STAT_ARMED t 1).tmJudge t
      ∧ (u.timer t).cmp = v % 2 ^ 32 + 2 ^ 32 * (w.sf F.TM_CMP_LO_M_LO t v).f F.TM_CMP_HI_M_HI t ∧ Keeps [F.TM_CMP_LO_M_LO.id] w u :=
    ⟨_, rfl, congrArg Tm.cmp (timer_setTimer _ t _), ((Keeps.refl _ w).sf (by decide)).setTimer⟩
  rw [f_sf_ne _ _ _ _ (by decide)] at hcmp
  rw [hu]
  refine ⟨?_, tmJudge_armed (f_sf_same _ _ _ _), ?_⟩
  · rw [timer_tmJudge]
    exact hcmp
  · have harm : Keeps [F.TM_CMP_LO_M_LO.id, F.TM_STAT_ARMED.id, F.TM_STAT_CMPHIT.id] w (u.sf F.TM_STAT_ARMED t 1) :=
      (hkeep.mono (by decide)).sf (by decide)
    exact harm.trans ((tmJudge_keeps _ t).mono (by decide))

theorem writeCnt_running {w : World} {t v : Nat} {hi : Bool} (h : w.fb F.TM_CTL_RUN t = true) : w.writeCnt t hi v = w.sf F.TM_STAT_BUSY t 1 := by
  unfold World.writeCnt
  rw [h, if_pos rfl]

theorem writeCnt_stopped {w : World} {t v : Nat} {hi : Bool} (h : w.fb F.TM_CTL_RUN t = false) :
    ((w.writeCnt t hi v).timer t).cnt = (if hi then (w.timer t).cnt % 2 ^ 32 + 2 ^ 32 * (v % 2 ^ 16) else (w.timer t).cnt / 2 ^ 32 * 2 ^ 32 + v % 2 ^ 32)
    ∧ Keeps [F.TM_STAT_ARMED.id, F.TM_STAT_CMPHIT.id] w (w.writeCnt t hi v) := by
  unfold World.writeCnt
  rw [h, if_neg Bool.false_ne_true]
  refine ⟨?_, (Keeps.refl _ w).setTimer.trans (tmJudge_keeps _ t)⟩
  rw [timer_tmJudge, timer_setTimer]

theorem tmOvrclr_spec (w : World) (t : Nat) :
    (∀ G ∈ [F.TM_OVR_START, F.TM_OVR_STOP, F.TM_OVR_CAP, F.TM_OVR_CLR], (w.tmOvrclr t).f G t = 0)
    ∧ Keeps ([F.TM_OVR_START, F.TM_OVR_STOP, F.TM_OVR_CAP, F.TM_OVR_CLR].map Fld.id) w (w.tmOvrclr t) := by
  unfold World.tmOvrclr
  refine ⟨fun G hG => ?_, ((((Keeps.refl _ w).sf (by decide)).sf (by decide)).sf (by decide)).sf (by decide)⟩
  simp only [List.mem_cons, List.not_mem_nil, or_false] at hG
  rcases hG with rfl | rfl | rfl | rfl
  · rw [f_sf_ne _ _ _ _ (by decide), f_sf_ne _ _ _ _ (by decide), f_sf_ne _ _ _ _ (by decide), f_sf_same]
    rfl
  · rw [f_sf_ne _ _ _ _ (by decide), f_sf_ne _ _ _ _ (by decide), f_sf_same]
    rfl
  · rw [f_sf_ne _ _ _ _ (by decide), f_sf_same]
    rfl
  · rw [f_sf_same]
    rfl

/-! ### Clears and captures (R399, R400) -/

theorem tmClear_spec (w : World) (t : Nat) : ((w.tmClear t).timer t).cnt = 0 ∧ ((w.tmClear t).timer t).acc = 0
    ∧ ((w.tmClear t).timer t).before = (w.timer t).before ∧ Keeps [F.TM_STAT_ARMED.id, F.TM_STAT_CMPHIT.id] w (w.tmClear t) := by
  have htm : (w.tmClear t).timer t = { w.timer t with cnt := 0, acc := 0 } := by
    unfold World.tmClear
    rw [timer_tmJudge]
    exact timer_setTimer w t _
  rw [htm]
  exact ⟨rfl, rfl, rfl, ((Keeps.refl _ w).setTimer.sf (by decide)).trans (tmJudge_keeps _ t)⟩

theorem tmCapture_spec (w : World) (t v : Nat) : ((w.tmCapture t v).timer t).cap = v ∧ (w.tmCapture t v).f F.TM_STAT_CAPNEW t = 1
    ∧ (w.fb F.TM_STAT_CAPNEW t = true → (w.tmCapture t v).f F.TM_STAT_CAPOVR t = 1)
    ∧ Keeps [F.TM_STAT_CAPNEW.id, F.TM_STAT_CAPOVR.id] w (w.tmCapture t v) := by
  obtain ⟨u, hu, hkeep, hovr⟩ : ∃ u : World, w.tmCapture t v = ((u.setTimer t { u.timer t with cap := v }).sf F.TM_STAT_CAPNEW t 1).tmIrq t 2
      ∧ Keeps [F.TM_STAT_CAPNEW.id, F.TM_STAT_CAPOVR.id] w u ∧ (w.fb F.TM_STAT_CAPNEW t = true → u.f F.TM_STAT_CAPOVR t = 1) := by
    refine ⟨_, rfl, (Keeps.refl _ w).when fun x hx => hx.sf (by decide), fun hnew => ?_⟩
    unfold World.when
    rw [hnew, if_pos rfl, f_sf_same]
    rfl
  rw [hu]
  refine ⟨?_, ?_, fun hnew => ?_, (hkeep.setTimer.sf (by decide)).regs (tmIrq_regs _ _ _)⟩
  · rw [tmIrq_timer]
    exact congrArg Tm.cap (timer_setTimer u t _)
  · rw [f_tmIrq, f_sf_same]
    rfl
  · rw [f_tmIrq, f_sf_ne _ _ _ _ (by decide)]
    exact hovr hnew

/-- Settles O49: each row is the timer's operation, on the input that takes its edge. -/
theorem timersTakeEffect : Obligations.TimersTakeEffect := by
  unfold Obligations.TimersTakeEffect
  refine ⟨?_, ?_⟩
  · rintro s t now n v ch hi fall w ht hon rfl
    have hrow : t < 32 ∧ (s.w.upTo now).on 17 = true := ⟨ht, (on_upTo _ _ _).trans hon⟩
    refine ⟨fun harm hp => ?_, fun harm => ?_, fun hw hc => ?_, ?_, fun hrun => ?_, fun hrun => ?_, fun hsrc hrun hsel => ⟨fun hclr => ?_, fun hclr => ?_⟩,
      fun hsel => ?_, ?_⟩
    · obtain ⟨h0, h1⟩ := tmJudge_fired (s.w.upTo now) t (by rw [harm, hp]; rfl)
      exact ⟨_, show execTimerCompare t now s = _ from onW_next (if_pos hrow), h0, h1, tmJudge_keeps _ t⟩
    · exact show execTimerCompare t now s = _ from onW_next ((if_pos hrow).trans (tmJudge_rest harm))
    · exact ⟨_, show execTimerWrap t now s = _ from onW_next (if_pos hrow), tmWrap_alone hw hc⟩
    · exact ⟨_, onW_next (if_pos ⟨ht, hon⟩), tmCommit_spec s.w t v⟩
    · exact onW_next ((if_pos ⟨ht, hon⟩).trans (writeCnt_running hrun))
    · exact ⟨_, onW_next (if_pos ⟨ht, hon⟩), writeCnt_stopped hrun⟩
    · exact show execTimerCntEvent t n now s ch fall = _ from onW_next (if_pos ⟨ht, hrow.2, hsrc, hrun, hsel, hclr⟩)
    · refine show execTimerCntEvent t n now s ch fall = _ from onW_next (if_neg fun ⟨_, _, _, _, _, hno⟩ => ?_)
      rw [hclr] at hno
      cases hno
    · refine show execTimerCntEvent t n now s ch fall = _ from onW_next (if_neg fun ⟨_, _, _, _, hyes, _⟩ => ?_)
      rw [hsel] at hyes
      cases hyes
    · exact ⟨_, onW_next (if_pos ⟨ht, hon⟩), tmOvrclr_spec s.w t⟩
  · rintro s t now ch fall w x ht hon rfl
    have hrow : t < 32 ∧ (s.w.upTo now).on 17 = true := ⟨ht, (on_upTo _ _ _).trans hon⟩
    refine ⟨show execTimerStart t none s = _ from onW_next (tmInput_direct ht hon), show execTimerStop t none s = _ from onW_next (tmInput_direct ht hon),
      ?_, ?_, fun hsel hbusy => ?_, fun hsel => ?_, ?_, ?_, ?_⟩
    · obtain ⟨hcnt, hacc, -, hkeep⟩ := tmClear_spec (s.w.setTimer t { s.w.timer t with before := (s.w.timer t).cnt }) t
      exact ⟨_, show execTimerClr t none s = _ from onW_next (tmInput_direct ht hon), hcnt, hacc, (Keeps.refl _ s.w).setTimer.trans hkeep⟩
    · rintro hsel hfree rfl
      have hact := fun ovr act => tmInput_taken (kind := 0) (ovr := ovr) (act := act) ht hon hsel (by omega) hfree
      refine ⟨fun hno => ?_, fun hyes => ?_⟩
      · exact show execTimerStart t (some now) s ch fall = _ from onW_next ((hact _ _).trans (if_neg fun h => Bool.false_ne_true (hno.symm.trans h)))
      · exact show execTimerStart t (some now) s ch fall = _ from onW_next ((hact _ _).trans (if_pos hyes))
    · exact show execTimerStart t (some now) s ch fall = _ from onW_next (tmInput_merged ht hon hsel (by omega) hbusy)
    · exact show execTimerStart t (some now) s ch fall = _ from onW_next (tmInput_unselected ht hon hsel)
    · rintro hsel hfree rfl
      exact show execTimerStop t (some now) s ch fall = _ from onW_next (tmInput_taken ht hon hsel (by omega) hfree)
    · rintro hsel hfree rfl
      refine ⟨_, show execTimerClr t (some now) s ch fall = _ from onW_next (tmInput_taken ht hon hsel (by omega) hfree), ?_⟩
      obtain ⟨hcnt, -, hbefore, -⟩ := tmClear_spec (((s.w.upTo now).inputTaken (96 + t) now).setTimer t
        { ((s.w.upTo now).inputTaken (96 + t) now).timer t with before := ((s.w.upTo now).timer t).cnt }) t
      exact ⟨hcnt, hbefore.trans (congrArg Tm.before (timer_setTimer _ t _))⟩
    · rintro hsel hfree rfl
      obtain ⟨hcap, hnew, hovr, hkeep⟩ := tmCapture_spec ((s.w.upTo now).inputTaken (64 + t) now) t ((s.w.upTo now).capValue t now)
      refine ⟨_, show execTimerCap t now s ch fall = _ from onW_next ?_, hcap, hnew, fun h => hovr ?_, hkeep⟩
      · have hacted := tmInput_taken (w := s.w.upTo now) (kind := 2) (key := 64 + t) (g := tmInCap) (ovr := F.TM_OVR_CAP)
          (act := World.tmCapture t ((s.w.upTo now).capValue t now)) ht hrow.2 (by rwa [upTo_twice]) (by omega) (by rwa [upTo_twice])
        rw [upTo_twice] at hacted
        exact hacted
      · unfold World.fb at h ⊢
        rwa [f_inputTaken _ _ _ (by decide)]

end Sys2Proof.Machine

/-! The Time Base under PTM and the event fabric (R380 to R392). -/

namespace Sys2Proof.Machine

/-! ### The Time Base (R382, R383) -/

theorem servoRate_far {w : World} {x : Int} {ti : Nat} (h : w.f F.TB_SYNC_FARLIM 0 * 128000 < x.natAbs) :
    w.servoRate x ti = w.sf F.TB_ERR_FAR 0 1 := if_neg (by omega)

/-- A result beyond FARLIM shows FAR and moves neither the rate nor the frequency. -/
theorem servo_far {w : World} {x : Int} {ti : Nat} (h : w.f F.TB_SYNC_FARLIM 0 * 128000 < x.natAbs) :
    (w.servo x ti).f F.TB_ERR_FAR 0 = 1 ∧ (w.servo x ti).srv.freq = w.srv.freq
    ∧ (w.servo x ti).f F.TB_RATENOW_RATE 0 = w.f F.TB_RATENOW_RATE 0 := by
  obtain ⟨u, hu, hsrv, hkeep⟩ : ∃ u : World, w.servo x ti = (u.servoRate x ti).servoLock x ∧ u.srv = w.srv ∧ Keeps [F.TB_OFS_OFS.id] w u :=
    ⟨_, rfl, rfl, (Keeps.refl _ w).sfI (by decide)⟩
  obtain ⟨hlock, hfreq⟩ := servoLock_keeps (u.sf F.TB_ERR_FAR 0 1) x
  rw [hu, servoRate_far (by rwa [hkeep.f (by decide) 0])]
  refine ⟨(hlock.f (by decide) 0).trans (f_sf_same _ _ _ _), hfreq.trans (congrArg Srv.freq hsrv), ?_⟩
  rw [hlock.f (by decide) 0, f_sf_ne _ _ _ _ (by decide), hkeep.f (by decide) 0]

/-- TB_OFS shows the offset. -/
theorem servo_offset (w : World) (d : Int) (ti : Nat) : (w.servo (128 * d) ti).f F.TB_OFS_OFS 0 = unI 32 (satS 32 d) := by
  rw [(servo_keeps w (128 * d) ti).f (by decide) 0, rdiv_same 128 d (by decide)]
  exact (f_sf_same _ _ _ _).trans (Nat.mod_eq_of_lt (unI_lt _ _))

theorem ptmRequest_next {s : State} (h1 : s.w.f F.TB_SYNC_SRC 0 = 1) (h2 : s.w.follows = false)
    (hp : s.w.past .ptm (1000 * s.w.f F.HI_PTMCFG_INTERVAL 0) = true) {v : World}
    (hv : (if (s.w.start .ptm).linkReady ∧ (s.w.start .ptm).pcie.ptm then (s.w.start .ptm).emit .ptm else (s.w.start .ptm).sf F.TB_ERR_PTMFAIL 0 1) = v) :
    exec .ptmRequest s = .next (s.withW v) := by
  have hno : ¬ (s.w.f F.TB_SYNC_SRC 0 ≠ 1 ∨ s.w.follows ∨ !s.w.past .ptm (1000 * s.w.f F.HI_PTMCFG_INTERVAL 0)) := by
    rw [h1, h2, hp]
    decide
  change execPtmRequest s = _
  exact onW_next ((if_neg hno).trans hv)

theorem ptmRequest_waits {s : State} (hp : s.w.past .ptm (1000 * s.w.f F.HI_PTMCFG_INTERVAL 0) = false) : exec .ptmRequest s = .next s := by
  change execPtmRequest s = .next (s.withW s.w)
  refine onW_next (if_pos (.inr (.inr ?_)))
  rw [hp]
  rfl

theorem ptmResult_next {s : State} (h1 : s.w.f F.TB_SYNC_SRC 0 = 1) (h2 : s.w.follows = false) (hon : s.w.on 17 = true) :
    exec (.ptmResult none) s = .next (s.withW (s.w.sf F.TB_ERR_PTMFAIL 0 1))
    ∧ ∀ d, exec (.ptmResult (some d)) s = .next (s.withW (s.w.servo (128 * d) (s.w.f F.HI_PTMCFG_INTERVAL 0 * 1000))) := by
  have hno : ¬ (s.w.f F.TB_SYNC_SRC 0 ≠ 1 ∨ s.w.follows ∨ s.w.on 17 = false) := by
    rw [h1, h2, hon]
    decide
  exact ⟨show execPtmResult none s = _ from onW_next (if_neg hno), fun d => show execPtmResult (some d) s = _ from onW_next (if_neg hno)⟩

theorem tbLoad_next {s : State} (hon : s.w.on 17 = true) {v : World} (hv : s.w.tbLoad = v) : exec .tbLoad s = .next (s.withW v) :=
  onW_next ((if_pos hon).trans hv)

theorem tbLoad_back {w : World} (h : w.f F.TB_LOAD_LO_L_LO 0 + 2 ^ 32 * w.f F.TB_LOAD_HI_L_HI 0 < w.tb) : w.tbLoad = w.sf F.TB_ERR_BACK 0 1 :=
  if_pos h

theorem tbLoad_busy {w : World} (h : w.tb ≤ w.f F.TB_LOAD_LO_L_LO 0 + 2 ^ 32 * w.f F.TB_LOAD_HI_L_HI 0)
    (hf : ∃ r < w.nRails, w.inFlight r ≠ []) : w.tbLoad = w.sf F.TB_ERR_BUSY 0 1 := by
  obtain ⟨r, hr, hne⟩ := hf
  have hany : ((List.range w.nRails).any fun r => !(w.inFlight r).isEmpty) = true :=
    List.any_eq_true.mpr ⟨r, List.mem_range.mpr hr, by simpa using hne⟩
  unfold World.tbLoad
  dsimp only
  rw [if_neg (Nat.not_lt.mpr h), if_pos hany]

/-- A forward load with nothing in flight sets the Time Base and regrids the phases. -/
theorem tbLoad_sets {w : World} {v : Nat} (hv : v = w.f F.TB_LOAD_LO_L_LO 0 + 2 ^ 32 * w.f F.TB_LOAD_HI_L_HI 0) (h : w.tb ≤ v)
    (hf : ∀ r < w.nRails, w.inFlight r = []) : w.tbLoad.tb = v % 2 ^ 64 ∧ Keeps gridIds w w.tbLoad := by
  have hany : ¬ ((List.range w.nRails).any fun r => !(w.inFlight r).isEmpty) = true := by
    intro hsome
    obtain ⟨r, hr, hne⟩ := List.any_eq_true.mp hsome
    rw [hf r (List.mem_range.mp hr)] at hne
    exact absurd hne (by decide)
  obtain ⟨u, hu, hregs, hclk⟩ : ∃ u : World, w.tbLoad = (List.range w.nRails).foldl World.regrid u ∧ u.regs = w.regs ∧ u.clk.tbq = v * 128 := by
    unfold World.tbLoad
    dsimp only
    rw [← hv, if_neg (Nat.not_lt.mpr h), if_neg hany]
    exact ⟨_, rfl, rfl, rfl⟩
  rw [hu]
  refine ⟨?_, Keeps.foldl _ ((Keeps.refl _ w).regs hregs) fun _ _ hx => hx.regrid (by decide)⟩
  unfold World.tb
  rw [regrids_clk, hclk, Nat.mul_div_cancel v (by decide)]

/-! ### Writes of the fabric (R385, R389 to R391) -/

theorem efChWrite_next {s : State} {c src : Nat} (hc : c < 256) (hs : src < 512) {v : World} (hv : s.w.writeCh c src = v) :
    exec (.efChWrite c src) s = .next (s.withW v) := by
  change execEfChWrite c src s = _
  exact onW_next ((if_pos ⟨hc, hs⟩).trans hv)

theorem writeCh_unlisted {w : World} {c src : Nat} (h : srcListed src = false) : w.writeCh c src = w.sf F.EF_ERR_BADVAL 0 1 := by
  unfold World.writeCh
  rw [h]
  rfl

theorem writeCh_listed {w : World} {c src : Nat} (h : srcListed src = true) : w.writeCh c src =
    if within 0x148 0x177 src ∧ (w.sf F.EF_CH_SRC c src).lutLoop (src - 0x148) then w.loopErr c else w.sf F.EF_CH_SRC c src := by
  unfold World.writeCh
  rw [h]
  rfl

theorem putRW_ffcfg (w : World) (f v : Nat) : w.putRW R.EF_FFCFG f v = (((w.sf F.EF_FFCFG_EN f (bitsOf v 0 4)).sf F.EF_FFCFG_T f (bitsOf v 4 1)).sf
    F.EF_FFCFG_INIT f (bitsOf v 5 1)).sf F.EF_FFCFG_CLKFALL f (bitsOf v 6 1) := by
  simp only [World.putRW, R.EF_FFCFG, List.foldl_cons, List.foldl_nil, F.EF_FFCFG_EN, F.EF_FFCFG_T, F.EF_FFCFG_INIT, F.EF_FFCFG_CLKFALL, F.EF_FFCFG_Q,
    F.EF_FFCFG_OVR, Nat.mul_one, Nat.add_zero, Fld.cut, if_true, reduceCtorEq, if_false]

/-- A flip-flop's write takes the configuration's fields and presets Q. -/
theorem writeFfcfg_spec (w : World) (f v : Nat) : (w.writeFfcfg f v).f F.EF_FFCFG_Q f = bitsOf v 5 1
    ∧ (w.writeFfcfg f v).f F.EF_FFCFG_EN f = bitsOf v 0 4 := by
  unfold World.writeFfcfg
  dsimp only
  rw [putRW_ffcfg]
  generalize hput : (((w.sf F.EF_FFCFG_EN f (bitsOf v 0 4)).sf F.EF_FFCFG_T f (bitsOf v 4 1)).sf F.EF_FFCFG_INIT f (bitsOf v 5 1)).sf F.EF_FFCFG_CLKFALL f
    (bitsOf v 6 1) = u
  have hinit : u.f F.EF_FFCFG_INIT f = bitsOf v 5 1 := by
    rw [← hput, f_sf_ne _ _ _ _ (by decide), f_sf_same]
    exact Nat.mod_mod _ _
  have hen : u.f F.EF_FFCFG_EN f = bitsOf v 0 4 := by
    rw [← hput, f_sf_ne _ _ _ _ (by decide), f_sf_ne _ _ _ _ (by decide), f_sf_ne _ _ _ _ (by decide), f_sf_same]
    exact Nat.mod_mod _ _
  rw [hinit, f_sf_same, f_sf_ne _ _ _ _ (by decide), hen]
  exact ⟨Nat.mod_mod _ _, rfl⟩

/-- A watch's count restarts at a rise of EN. -/
theorem writeWcfg_count (w : World) (x v : Nat) : (w.writeWcfg x v).f F.EF_WCFG_COUNT x
    = if w.f F.EF_WCFG_EN x = 0 ∧ bitOf v 8 = true then 0 else w.f F.EF_WCFG_COUNT x := by
  obtain ⟨u, hu, hkeep⟩ : ∃ u : World, w.writeWcfg x v = u.when (!w.fb F.EF_WCFG_EN x && bitOf v 8) (fun w => w.sf F.EF_WCFG_COUNT x 0)
      ∧ Keeps [F.EF_WCFG_CH.id, F.EF_WCFG_EN.id, F.EF_WCFG_FALL.id] w u :=
    ⟨_, rfl, (((Keeps.refl _ w).sf (by decide)).sf (by decide)).sf (by decide)⟩
  have hrise : (!w.fb F.EF_WCFG_EN x && bitOf v 8) = true ↔ w.f F.EF_WCFG_EN x = 0 ∧ bitOf v 8 = true := by
    unfold World.fb
    simp
  rw [hu]
  unfold World.when
  by_cases h : w.f F.EF_WCFG_EN x = 0 ∧ bitOf v 8 = true
  · rw [if_pos (hrise.mpr h), if_pos h, f_sf_same]
    rfl
  · rw [if_neg fun hr => h (hrise.mp hr), if_neg h, hkeep.f (by decide) x]

/-- A cell's write acts unless it closes a loop. -/
theorem efLutbWrite_next {s : State} {l v : Nat} (hl : l < 48) {w : World} (hw : w = s.w.putRW R.EF_LUTB l v) :
    exec (.efLutbWrite l v) s = .next (s.withW (if w.lutLoop l then s.w.loopErr (w.loopCh l) else w)) := by
  change execEfLutbWrite l v s = _
  refine onW_next ((if_pos hl).trans ?_)
  unfold World.writeLutb
  rw [← hw]

/-! ### Software events (R386, R392) -/

theorem mem_of_mget {d v : Nat} {k : Nat} : ∀ {m : List (Nat × Nat)}, mget d m k = v → v ≠ d → ∃ e ∈ m, e.1 = k
  | [], h, hv => absurd h.symm hv
  | (k', v') :: m, h, hv => by
    by_cases hk : k = k'
    · exact ⟨(k', v'), List.mem_cons_self, hk.symm⟩
    · obtain ⟨e, he, hek⟩ := mem_of_mget (m := m) ((if_neg hk).symm.trans h) hv
      exact ⟨e, List.mem_cons_of_mem _ he, hek⟩

/-- A channel that does not read its reset source is one of those whose source is set. -/
theorem mem_chSet {w : World} {c : Nat} (h : w.f F.EF_CH_SRC c ≠ 0x1FF) : c ∈ w.chSet := by
  obtain ⟨e, he, hk⟩ := mem_of_mget (m := w.regs) (k := F.EF_CH_SRC.key c) rfl h
  have hid : keyId e.1 = F.EF_CH_SRC.id := by
    rw [hk]
    change (32 + 4096 * c) % 4096 = 32
    omega
  have hinst : keyInst e.1 = c := by
    rw [hk]
    change (32 + 4096 * c) / 4096 = c
    omega
  exact List.mem_map.mpr ⟨e, List.mem_filter.mpr ⟨he, by rw [hid]; rfl⟩, hinst⟩

/-- A software event has no level of its own. -/
theorem srcLevel_sw (w : World) {x : Nat} (hx : x < 32) : w.srcLevel (0x198 + x) = false := by
  have hfalse : ∀ lo hi, hi < 0x198 → within lo hi (0x198 + x) = false := fun lo hi h => by
    unfold within
    rw [decide_eq_false (by omega : ¬ 0x198 + x ≤ hi), Bool.and_false]
  unfold World.srcLevel
  simp only [hfalse _ _ (by decide : 0x02F < 0x198), hfalse _ _ (by decide : 0x05F < 0x198), hfalse _ _ (by decide : 0x077 < 0x198),
    hfalse _ _ (by decide : 0x187 < 0x198), hfalse _ _ (by decide : 0x197 < 0x198)]
  simp only [Bool.false_eq_true, if_false]
  rw [if_neg (by omega : ¬ 0x198 + x = 0x1BA), ite_self]

/-- A channel of a software event to the interrupt controller is an edge there. -/
theorem swEvent_edge {w : World} {x c : Nat} (hx : x < 32) (hc : c < 224) (hon : w.on 12 = true) (hsrc : w.f F.EF_CH_SRC c = 0x198 + x) :
    0x100 + c ∈ (w.pulse (0x198 + x)).irqEdge := by
  have hno : within 0x148 0x177 (0x198 + x) = false := by
    unfold within
    rw [decide_eq_false (by omega : ¬ 0x198 + x ≤ 0x177), Bool.and_false]
  have hhi : w.chAt (some (0x198 + x)) c = true := by
    unfold World.chAt World.srcNow
    dsimp only
    rw [hsrc, hno, if_neg Bool.false_ne_true, BEq.rfl, Bool.true_or]
  have hlo : w.chAt none c = false := by
    unfold World.chAt World.srcNow
    dsimp only
    rw [hsrc, hno, if_neg Bool.false_ne_true, srcLevel_sw w hx]
    rfl
  have hedge : 0x100 + c ∈ w.efEdges (0x198 + x) := by
    unfold World.efEdges
    rw [hon, if_pos rfl]
    refine List.mem_map.mpr ⟨c, List.mem_filter.mpr ⟨mem_chSet (by omega), ?_⟩, rfl⟩
    rw [hhi, hlo, decide_eq_true hc]
    rfl
  by_cases hold : w.irqEdge.contains (0x100 + c) = true
  · exact List.mem_append_left _ (List.contains_iff_mem.mp hold)
  · exact List.mem_append_right _ (List.mem_filter.mpr ⟨hedge, by rw [Bool.eq_false_iff.mpr hold]; rfl⟩)

/-- Settles O50: each row is the model's operation, in the case that its condition selects. -/
theorem timeBaseAndFabricTakeEffect : Obligations.TimeBaseAndFabricTakeEffect := by
  unfold Obligations.TimeBaseAndFabricTakeEffect
  refine ⟨⟨fun s hsrc hf => ⟨fun hp => ⟨fun hl hm => ?_, fun hno => ?_⟩, ptmRequest_waits, fun hon => ?_⟩, fun s v hon hv => ⟨fun h => ?_, fun h hb => ?_, fun h hf => ?_⟩⟩,
    fun s c src hc hs => ⟨fun h => ?_, fun h hin hloop => ?_, fun h hok => ?_⟩, fun s l v w hl hw => ⟨fun h => ?_, fun h => ?_⟩, fun s f v hf => ?_, fun s x v hx => ?_,
    fun s x hx => ?_, fun s x ch fall hx => ⟨fun hen hch hfall => ?_, fun hno => ?_⟩⟩
  · exact ptmRequest_next hsrc hf hp (if_pos ⟨hl, hm⟩)
  · refine ptmRequest_next hsrc hf hp (if_neg ?_)
    rintro ⟨hl, hm⟩
    rcases hno with h | h
    · exact Bool.false_ne_true (h.symm.trans hl)
    · exact Bool.false_ne_true (h.symm.trans hm)
  · obtain ⟨hnone, hsome⟩ := ptmResult_next hsrc hf hon
    exact ⟨hnone, fun d => ⟨_, hsome d, servo_offset s.w d _, fun h => servo_far h⟩⟩
  · exact tbLoad_next hon (tbLoad_back (hv ▸ h))
  · exact tbLoad_next hon (tbLoad_busy (hv ▸ h) hb)
  · exact ⟨_, tbLoad_next hon rfl, tbLoad_sets hv h hf⟩
  · exact efChWrite_next hc hs (writeCh_unlisted h)
  · exact efChWrite_next hc hs ((writeCh_listed h).trans (if_pos ⟨hin, hloop⟩))
  · refine efChWrite_next hc hs ((writeCh_listed h).trans (if_neg ?_))
    rintro ⟨hin, hloop⟩
    rcases hok with h | h
    · exact Bool.false_ne_true (h.symm.trans hin)
    · exact Bool.false_ne_true (h.symm.trans hloop)
  · rw [efLutbWrite_next hl hw, if_pos h]
    rfl
  · rw [efLutbWrite_next hl hw, h, if_neg Bool.false_ne_true]
  · exact ⟨_, onW_next (if_pos hf), writeFfcfg_spec s.w f v⟩
  · exact ⟨_, onW_next (if_pos hx), writeWcfg_count s.w x v⟩
  · exact ⟨_, onW_next (if_pos hx), rfl, rfl, fun c hc hon hsrc => swEvent_edge hx hc hon hsrc⟩
  · exact show execWatchEvent x s ch fall = _ from onW_next (if_pos ⟨hx, hen, hch, hfall⟩)
  · refine show execWatchEvent x s ch fall = .next (s.withW s.w) from onW_next (if_neg ?_)
    rintro ⟨_, _, hch, hfall⟩
    rcases hno with h | h
    · exact h hch
    · exact h hfall

end Sys2Proof.Machine

/-! Flip-flops and filters of the event fabric (R387, R390, R391). -/

namespace Sys2Proof.Machine

/-! ### Flip-flops (R390) -/

section
variable {w : World} {kind f t ch key : Nat} {sel : Fld} {act : World → World}

theorem ffInput_edge (hf : f < 16) (hen : ((w.upTo t).f F.EF_FFCFG_EN f).testBit kind = true) (hsel : (w.upTo t).f sel f = ch) :
    w.ffInput kind f t sel ch act = (w.upTo t).input (256 + 16 * kind + f) t (World.ffOver f) fun w => act (w.upTo (t + 256)) :=
  if_pos ⟨hf, hen, hsel⟩

theorem ffInput_taken (hf : f < 16) (hen : ((w.upTo t).f F.EF_FFCFG_EN f).testBit kind = true) (hsel : (w.upTo t).f sel f = ch)
    (hkey : 256 + 16 * kind + f = key) (hfree : (w.upTo t).inputFree key t) :
    w.ffInput kind f t sel ch act = act ((w.upTo t).inputTaken key t) := by
  rw [ffInput_edge hf hen hsel, hkey, input_free hfree]
  rfl

theorem ffInput_merged (hf : f < 16) (hen : ((w.upTo t).f F.EF_FFCFG_EN f).testBit kind = true) (hsel : (w.upTo t).f sel f = ch)
    (hkey : 256 + 16 * kind + f = key) (hbusy : ¬ (w.upTo t).inputFree key t) :
    w.ffInput kind f t sel ch act = (w.upTo t).incSat F.EF_FFCFG_OVR f := by
  rw [ffInput_edge hf hen hsel, hkey, input_busy hbusy]
  rfl

theorem ffInput_unselected (hsel : (w.upTo t).f sel f ≠ ch) : w.ffInput kind f t sel ch act = w.upTo t :=
  if_neg fun ⟨_, _, h⟩ => hsel h
end

/-! ### Filters (R391) -/

theorem filter_setFilter (w : World) (f : Nat) (x : Flt) : (w.setFilter f x).filter f = x := mget_mset_same _ _ _ _

theorem filterEvent_next {s : State} {f t ch : Nat} {rising : Bool} (hf : f < 16) (hin : (s.w.upTo t).f F.EF_FLTA_IN f = ch) {v : World}
    (hv : (s.w.upTo t).filterEvent f rising t = v) : exec (.filterEvent f rising t ch) s = .next (s.withW v) := by
  change execFilterEvent f rising t s ch = _
  exact onW_next ((if_pos ⟨hf, hin⟩).trans hv)

/-- A glitch filter waits for a level that differs from its output. -/
theorem filterEvent_glitch {w : World} {f t : Nat} {rising : Bool} (hen : w.fb F.EF_FLTA_EN f = true) (hm : w.f F.EF_FLTA_MODE f = 0) :
    w.filterEvent f rising t
    = w.setFilter f { w.filter f with due := if rising = w.fb F.EF_FLTB_OUT f then [] else [t + w.fltN f] } := by
  unfold World.filterEvent
  dsimp only
  rw [hen, if_neg (by decide), if_pos hm]

theorem filterEvent_unselected {w : World} {f t : Nat} {rising : Bool} (hen : w.fb F.EF_FLTA_EN f = true) (hm : w.f F.EF_FLTA_MODE f ≠ 0)
    (hedge : rising = w.fb F.EF_FLTA_FALL f) : w.filterEvent f rising t = w := by
  unfold World.filterEvent
  dsimp only
  rw [hen, if_neg (by decide), if_neg hm, if_pos hedge]

section
variable {w x : World} {f t : Nat} {rising : Bool} (hen : w.fb F.EF_FLTA_EN f = true) (hm : w.f F.EF_FLTA_MODE f ≠ 0)
  (hedge : rising ≠ w.fb F.EF_FLTA_FALL f) (hfree : w.inputFree (512 + f) t) (hx : x = w.inputTaken (512 + f) t)
include hen hm hedge hfree hx

/-- What a selected edge does to a stretch, a delay or a counter, once its holdoff is over. -/
theorem filterEvent_acts : w.filterEvent f rising t = match w.f F.EF_FLTA_MODE f with
    | 1 => (x.setFilter f { w.filter f with due := [t + 256 + x.fltN f] }).sf F.EF_FLTB_OUT f 1
    | 2 => if (w.filter f).due.length < 4 then x.setFilter f { w.filter f with due := (w.filter f).due ++ [t + 256 + x.fltN f] }
      else x.incSat F.EF_FLTB_OVR f
    | _ => if x.f F.EF_FLTA_N f ≤ (w.filter f).cnt + 1 then (x.setFilter f { w.filter f with cnt := 0 }).pulse (0x188 + f)
      else x.setFilter f { w.filter f with cnt := (w.filter f).cnt + 1 } := by
  have hmode : x.f F.EF_FLTA_MODE f = w.f F.EF_FLTA_MODE f := by
    rw [hx]
    exact f_inputTaken w _ t (by decide) f
  subst hx
  unfold World.filterEvent
  dsimp only
  rw [hen, if_neg (by decide), if_neg hm, if_neg hedge, input_free hfree, ← hmode]
  rfl

theorem filterEvent_stretch (h1 : w.f F.EF_FLTA_MODE f = 1) :
    w.filterEvent f rising t = (x.setFilter f { w.filter f with due := [t + 256 + x.fltN f] }).sf F.EF_FLTB_OUT f 1 := by
  rw [filterEvent_acts hen hm hedge hfree hx, h1]
  rfl

theorem filterEvent_delay (h2 : w.f F.EF_FLTA_MODE f = 2) (hroom : (w.filter f).due.length < 4) :
    w.filterEvent f rising t = x.setFilter f { w.filter f with due := (w.filter f).due ++ [t + 256 + x.fltN f] } := by
  rw [filterEvent_acts hen hm hedge hfree hx, h2]
  exact if_pos hroom

theorem filterEvent_counts (h3 : w.f F.EF_FLTA_MODE f = 3) (hlast : x.f F.EF_FLTA_N f ≤ (w.filter f).cnt + 1) :
    w.filterEvent f rising t = (x.setFilter f { w.filter f with cnt := 0 }).pulse (0x188 + f) := by
  rw [filterEvent_acts hen hm hedge hfree hx, h3]
  exact if_pos hlast
end

theorem filterExpiry_waits {w : World} {f d : Nat} {l : List Nat} (hd : (w.filter f).due = d :: l) (h : w.clk.tk < d) : w.filterExpiry f = w := by
  unfold World.filterExpiry
  dsimp only
  rw [hd]
  exact if_pos h

/-- The oldest instant that is due leaves its filter. -/
theorem filterExpiry_spec {w : World} {f d : Nat} {l : List Nat} (hd : (w.filter f).due = d :: l) (h : d ≤ w.clk.tk) :
    ((w.filterExpiry f).filter f).due = l ∧ (w.f F.EF_FLTA_MODE f = 1 → (w.filterExpiry f).f F.EF_FLTB_OUT f = 0)
    ∧ Keeps [F.EF_FLTB_OUT.id] w (w.filterExpiry f) := by
  obtain ⟨u, hu, hfilter, hregs⟩ : ∃ u : World, w.filterExpiry f = (match w.f F.EF_FLTA_MODE f with
      | 0 => u.sf F.EF_FLTB_OUT f (1 - u.f F.EF_FLTB_OUT f)
      | 1 => u.sf F.EF_FLTB_OUT f 0
      | _ => u.pulse (0x188 + f)) ∧ u.filter f = { w.filter f with due := l } ∧ u.regs = w.regs := by
    refine ⟨w.setFilter f { w.filter f with due := l }, ?_, filter_setFilter _ _ _, rfl⟩
    unfold World.filterExpiry
    dsimp only
    rw [hd]
    exact if_neg (Nat.not_lt.mpr h)
  have hkeep : Keeps [F.EF_FLTB_OUT.id] w u := (Keeps.refl _ w).regs hregs
  rw [hu]
  match w.f F.EF_FLTA_MODE f with
  | 0 => exact ⟨congrArg Flt.due hfilter, fun h => absurd h (by decide), hkeep.sf (by decide)⟩
  | 1 => exact ⟨congrArg Flt.due hfilter, fun _ => f_sf_same _ _ _ _, hkeep.sf (by decide)⟩
  | n + 2 => exact ⟨congrArg Flt.due hfilter, fun h => absurd h (by omega), hkeep.pulse⟩

/-- Settles O51: an input that takes its event acts, and one in its holdoff counts; a filter's event acts by its mode. -/
theorem fabricBlocksTakeEffect : Obligations.FabricBlocksTakeEffect := by
  unfold Obligations.FabricBlocksTakeEffect
  refine ⟨?_, ?_, ?_⟩
  · rintro s f t ch fall w x hf rfl
    refine ⟨?_, ?_, ?_, fun hen hsel hbusy => ?_, fun hsel => ?_⟩
    · rintro hen hsel hfall hfree rfl
      have hrow := ffInput_taken (act := World.ffClk f t) hf hen hsel (by omega) hfree
      refine ⟨fun hset hclr => ?_, fun hlost => ?_⟩
      · refine show execFfClk f t s ch fall = _ from onW_next ((if_pos hfall).trans (hrow.trans (if_neg ?_)))
        rw [hset, hclr]
        decide
      · exact show execFfClk f t s ch fall = _ from onW_next ((if_pos hfall).trans (hrow.trans (if_pos hlost)))
    · rintro hen hsel hfree rfl
      have hrow := ffInput_taken (act := World.ffSet f t) hf hen hsel (by omega) hfree
      refine ⟨fun hclr => ?_, fun hclr => ?_⟩
      · exact show execFfSet f t s ch = _ from onW_next (hrow.trans (if_neg (Bool.eq_false_iff.mp hclr)))
      · exact show execFfSet f t s ch = _ from onW_next (hrow.trans (if_pos hclr))
    · rintro hen hsel hfree rfl
      exact show execFfClr f t s ch = _ from onW_next (ffInput_taken hf hen hsel (by omega) hfree)
    · exact show execFfSet f t s ch = _ from onW_next (ffInput_merged hf hen hsel (by omega) hbusy)
    · exact show execFfSet f t s ch = _ from onW_next (ffInput_unselected hsel)
  · rintro s f t ch rising w hf rfl hen hin
    refine ⟨fun hm => ?_, fun hm hedge => ?_, fun x hm hedge hfree hx => ⟨fun h1 => ?_, fun h2 hroom => ?_, fun h3 hlast => ?_⟩⟩
    · exact filterEvent_next hf hin (filterEvent_glitch hen hm)
    · exact filterEvent_next hf hin (filterEvent_unselected hen hm hedge)
    · exact filterEvent_next hf hin (filterEvent_stretch hen hm hedge hfree hx h1)
    · exact filterEvent_next hf hin (filterEvent_delay hen hm hedge hfree hx h2 hroom)
    · exact filterEvent_next hf hin (filterEvent_counts hen hm hedge hfree hx h3 hlast)
  · rintro s f t d l w hf rfl hd
    refine ⟨fun h => ?_, fun h => ⟨_, ?_, filterExpiry_spec hd h⟩⟩
    · exact show execFilterExpiry f t s = _ from onW_next ((if_pos hf).trans (filterExpiry_waits hd h))
    · exact show execFilterExpiry f t s = _ from onW_next (if_pos hf)

end Sys2Proof.Machine

/-! The coolant pump drive and its encoder (R433 to R446). -/

namespace Sys2Proof.Machine

@[simp] theorem pump_setPump (w : World) (k : Nat) (p : Pd) : (w.setPump k p).pump k = p := mget_mset_same _ _ _ _

theorem setPump_setPump (w : World) (k : Nat) (p q : Pd) : (w.setPump k p).setPump k q = w.setPump k q := by
  unfold World.setPump
  rw [mset_mset]

theorem Keeps.setPump {l : List Nat} {a b : World} (h : Keeps l a b) {k : Nat} {p : Pd} : Keeps l a (b.setPump k p) := h.regs rfl

/-! ### Midpoints and gate commands (R433, R436, R438) -/

theorem pdCarrierMidpoint_waits {s : State} {k t : Nat} (h : (s.w.upTo t).clk.tk < ((s.w.upTo t).pump k).midAt) :
    exec (.pdCarrierMidpoint k t) s = .next (s.withW (s.w.upTo t)) := by
  change execPdCarrierMidpoint k t s = _
  exact onW_next (if_neg fun ⟨_, _, hlate⟩ => Nat.not_lt.mpr hlate h)

theorem pdMidpoint_disabled {w : World} {k : Nat} (h : w.fb F.PD_CFG_EN k = false) : (w.pdMidpoint k).nextMid k = w := by
  unfold World.pdMidpoint World.nextMid
  rw [h, Bool.not_false, if_pos rfl, h, if_neg Bool.false_ne_true]

/-- A DIRECT midpoint takes the committed duties once. -/
theorem pdMidpoint_direct {w : World} {k : Nat} {d : List Nat} (hen : w.fb F.PD_CFG_EN k = true) (hm : w.f F.PD_CFG_MODE k = 1)
    (hd : (w.pump k).commit = some d) : (w.pdMidpoint k).nextMid k
    = w.setPump k { w.pump k with duty := d, commit := none, midAt := w.clk.tk + 1280 * w.f F.PD_PER_PER k } := by
  have hmid : w.pdMidpoint k = w.setPump k { w.pump k with duty := d, commit := none } := by
    unfold World.pdMidpoint
    dsimp only
    rw [hen, if_neg (by decide), if_pos hm, hd]
  have hen' : (w.setPump k { w.pump k with duty := d, commit := none }).fb F.PD_CFG_EN k = true := hen
  rw [hmid]
  unfold World.nextMid
  rw [if_pos hen', pump_setPump, setPump_setPump]
  rfl

/-- The high side is active around the midpoint, the low side only outside it. -/
theorem pdCmd_exclusive (w : World) (k leg x : Nat) : ¬ ((w.pdCmd k leg x).1 = true ∧ (w.pdCmd k leg x).2 = true) := by
  unfold World.pdCmd
  dsimp only
  split
  · simp
  · split
    · simp
    · simp only [Bool.and_eq_true, Bool.or_eq_true, decide_eq_true_eq]
      omega

theorem pdCmd_off {w : World} {k leg x : Nat} (h : w.legsOff k = true) : w.pdCmd k leg x = (false, false) := if_pos h

theorem pdBalls_driven {w : World} {k leg x : Nat} (h : w.pdBalls k leg x ≠ none) : w.pdBalls k leg x
    = some ((w.pdCmd k leg x).1 == w.fb F.PD_CFG_POLH k, (w.pdCmd k leg x).2 == w.fb F.PD_CFG_POLL k) := by
  unfold World.pdBalls at h ⊢
  by_cases hz : (!w.padsOwned || !w.on 17 || bitOf (w.f F.PM_PADHELD_HELD 0) 17) = true
  · exact absurd (if_pos hz) h
  · exact if_neg hz

/-- A write of PD_DUTYB commits the three duties. -/
theorem pdCommit_spec (w : World) (k v : Nat) :
    ((w.pdCommit k v).pump k).commit = some [w.f F.PD_DUTYA_DA k, w.f F.PD_DUTYA_DB k, v % 2 ^ 16] ∧ Keeps [F.PD_DUTYB_DC.id] w (w.pdCommit k v) := by
  refine ⟨?_, ((Keeps.refl _ w).sf (by decide)).setPump⟩
  unfold World.pdCommit
  dsimp only
  rw [pump_setPump, f_sf_ne _ _ _ _ (by decide), f_sf_ne _ _ _ _ (by decide), f_sf_same]
  rfl

/-! ### The amplitude (R435) -/

theorem ampSlewStep_next {s : State} {k : Nat} (hk : k < 4) (hon : s.w.on 17 = true) (hp : s.w.past (.amp k) 100000 = true) :
    exec (.ampSlewStep k) s = .next (s.withW ((s.w.ampStep k).start (.amp k))) := by
  change execAmpSlewStep k s = _
  exact onW_next (if_pos ⟨hk, hon, hp⟩)

theorem ampSlewStep_waits {s : State} {k : Nat} (hp : s.w.past (.amp k) 100000 = false) : exec (.ampSlewStep k) s = .next s := by
  change execAmpSlewStep k s = .next (s.withW s.w)
  exact onW_next (if_neg fun ⟨_, _, h⟩ => Bool.false_ne_true (hp.symm.trans h))

/-- Without a slew rate the amplitude follows its target at once. -/
theorem ampStep_follows {w : World} {k : Nat} (h : w.f F.PD_MOTOR_SLEW k = 0) :
    (w.ampStep k).f F.PD_AMPNOW_AMP k = w.ampTarget k % 2 ^ 16 ∧ Keeps [F.PD_AMPNOW_AMP.id] w (w.ampStep k) := by
  obtain ⟨u, hu, hregs, htarget⟩ : ∃ u : World, w.ampStep k = u.ampFollow k ∧ u.regs = w.regs ∧ u.ampTarget k = w.ampTarget k := by
    unfold World.ampStep
    dsimp only
    rw [if_pos h]
    exact ⟨_, rfl, rfl, rfl⟩
  have hkeep : Keeps [F.PD_AMPNOW_AMP.id] w u := (Keeps.refl _ w).regs hregs
  rw [hu]
  unfold World.ampFollow
  rw [if_pos ((hkeep.f (by decide) k).trans h), htarget, f_sf_same]
  exact ⟨rfl, hkeep.sf (by decide)⟩

/-- A slew step moves the amplitude toward its target and never past it. -/
theorem ampStep_slews {w : World} {k : Nat} (h : w.f F.PD_MOTOR_SLEW k ≠ 0) (ht : w.ampTarget k < 2 ^ 16) (ha : w.f F.PD_AMPNOW_AMP k < 2 ^ 16) :
    (w.f F.PD_AMPNOW_AMP k ≤ w.ampTarget k → w.f F.PD_AMPNOW_AMP k ≤ (w.ampStep k).f F.PD_AMPNOW_AMP k ∧ (w.ampStep k).f F.PD_AMPNOW_AMP k ≤ w.ampTarget k)
    ∧ (w.ampTarget k ≤ w.f F.PD_AMPNOW_AMP k → w.ampTarget k ≤ (w.ampStep k).f F.PD_AMPNOW_AMP k ∧ (w.ampStep k).f F.PD_AMPNOW_AMP k ≤ w.f F.PD_AMPNOW_AMP k)
    ∧ Keeps [F.PD_AMPNOW_AMP.id] w (w.ampStep k) := by
  obtain ⟨u, d, hu, hregs⟩ : ∃ (u : World) (d : Nat), w.ampStep k = u.sf F.PD_AMPNOW_AMP k
      (if w.f F.PD_AMPNOW_AMP k < w.ampTarget k then min (w.ampTarget k) (w.f F.PD_AMPNOW_AMP k + d) else max (w.ampTarget k) (w.f F.PD_AMPNOW_AMP k - d))
      ∧ u.regs = w.regs := by
    unfold World.ampStep
    dsimp only
    rw [if_neg h]
    exact ⟨_, _, rfl, rfl⟩
  have hwd : 2 ^ F.PD_AMPNOW_AMP.wd = 65536 := rfl
  have hkeep : Keeps [F.PD_AMPNOW_AMP.id] w u := (Keeps.refl _ w).regs hregs
  rw [hu, f_sf_same, hwd]
  generalize w.ampTarget k = T at *
  generalize w.f F.PD_AMPNOW_AMP k = A at *
  refine ⟨fun hle => ?_, fun hge => ?_, hkeep.sf (by decide)⟩
  · split <;> omega
  · split <;> omega

/-! ### Gate faults (R436) -/

theorem pdFaultRelease_next {s : State} {k : Nat} {high : Bool} (hk : k < 4) (hon : s.w.on 17 = true) {v : World}
    (hv : World.pdRelease { s.w with pins := { s.w.pins with pdFlt := if high then
      (if s.w.pins.pdFlt.testBit k then s.w.pins.pdFlt - 2 ^ k else s.w.pins.pdFlt) else s.w.pins.pdFlt ||| 2 ^ k } } k = v) :
    exec (.pdFaultRelease k high) s = .next (s.withW v) := by
  have hno : ¬ (4 ≤ k ∨ s.w.on 17 = false) := by
    rw [hon]
    simp only [Bool.true_eq_false, or_false]
    omega
  change execPdFaultRelease k high s = _
  exact onW_next ((if_neg hno).trans hv)

/-- A gate fault is shown and holds every leg off. -/
theorem pdGateFault_spec {s : State} {k : Nat} (hk : k < 4) (hon : s.w.on 17 = true) : ∃ x : World, exec (.pdGateFault k) s = .next (s.withW x)
    ∧ x.f F.PD_ERR_FLT k = 1 ∧ x.f F.PD_STAT_FLTHOLD k = 1 ∧ x.legsOff k = true ∧ Keeps [F.PD_ERR_FLT.id, F.PD_STAT_FLTHOLD.id] s.w x := by
  have hno : ¬ (4 ≤ k ∨ s.w.on 17 = false) := by
    rw [hon]
    simp only [Bool.true_eq_false, or_false]
    omega
  obtain ⟨x, hx, hregs⟩ : ∃ x : World, exec (.pdGateFault k) s = .next (s.withW x) ∧ x.regs = ((s.w.sf F.PD_ERR_FLT k 1).sf F.PD_STAT_FLTHOLD k 1).regs :=
    ⟨_, show execPdGateFault k s = _ from onW_next (if_neg hno), (pdIrq_regs _ _ _).trans rfl⟩
  have hkeep : Keeps [] ((s.w.sf F.PD_ERR_FLT k 1).sf F.PD_STAT_FLTHOLD k 1) x := (Keeps.refl _ _).regs hregs
  have hhold : x.f F.PD_STAT_FLTHOLD k = 1 := (hkeep.f (by decide) k).trans (f_sf_same _ _ _ _)
  refine ⟨x, hx, ?_, hhold, legsOff_hold x k (fb_of_one hhold), (((Keeps.refl _ s.w).sf (by decide)).sf (by decide)).regs hregs⟩
  rw [hkeep.f (by decide) k, f_sf_ne _ _ _ _ (by decide), f_sf_same]
  rfl

theorem pdFaultRelease_low {s : State} {k : Nat} (hk : k < 4) (hon : s.w.on 17 = true) :
    ∃ x : World, exec (.pdFaultRelease k false) s = .next (s.withW x) ∧ x.regs = s.w.regs := by
  refine ⟨_, pdFaultRelease_next hk hon (if_pos ?_), rfl⟩
  simp [Nat.testBit_or]

theorem pdFaultRelease_high {s : State} {k : Nat} (hk : k < 4) (hon : s.w.on 17 = true) :
    ∃ x : World, exec (.pdFaultRelease k true) s = .next (s.withW x) ∧ x.regs = ((s.w.sf F.PD_ERR_FLT k 0).sf F.PD_STAT_FLTHOLD k 0).regs := by
  refine ⟨_, pdFaultRelease_next hk hon (if_neg ?_), rfl⟩
  dsimp only
  rw [if_pos rfl]
  by_cases hset : s.w.pins.pdFlt.testBit k = true
  · rw [if_pos hset, testBit_sub _ _ _ hset]
    simp
  · rwa [if_neg hset]

/-! ### Encoder requests (R438, R442) -/

theorem encoderRequest_next {s : State} {k t : Nat} (hk : k < 4) (hon : s.w.on 17 = true) {v : World} (hv : (s.w.upTo t).encRequest k = v) :
    exec (.encoderRequest k t) s = .next (s.withW v) := by
  change execEncoderRequest k t s = _
  exact onW_next ((if_pos ⟨hk, (on_upTo _ _ _).trans hon⟩).trans hv)

section
variable {w : World} {k : Nat} (hen : w.fb F.PD_CFG_EN k = true) (hsrc : w.fb F.PD_CFG_SRC k = false) (hpads : w.padsOwned = true)
include hen hsrc hpads

theorem encRequest_master : w.encRequest k = if (w.pump k).freeAt ≤ w.clk.tk then (if (w.pump k).wait || w.encDue k then w.encStart k else w)
    else if w.encDue k then (w.setPump k { w.pump k with wait := true }).incSat F.PD_STAT_LATE k else w := by
  unfold World.encRequest
  dsimp only
  rw [hen, hsrc, hpads, if_neg (by decide)]

theorem encRequest_late (hbusy : w.clk.tk < (w.pump k).freeAt) (hdue : w.encDue k = true) :
    w.encRequest k = (w.setPump k { w.pump k with wait := true }).incSat F.PD_STAT_LATE k := by
  rw [encRequest_master hen hsrc hpads, if_neg (Nat.not_le.mpr hbusy), if_pos hdue]

theorem encRequest_none (hdue : w.encDue k = false) (hwait : (w.pump k).wait = false) : w.encRequest k = w := by
  rw [encRequest_master hen hsrc hpads, hdue, hwait]
  by_cases hfree : (w.pump k).freeAt ≤ w.clk.tk
  · rw [if_pos hfree]
    rfl
  · rw [if_neg hfree]
    rfl

theorem encRequest_starts (hfree : (w.pump k).freeAt ≤ w.clk.tk) (h : w.encDue k = true ∨ (w.pump k).wait = true) :
    w.encRequest k = w.encStart k := by
  rw [encRequest_master hen hsrc hpads, if_pos hfree, if_pos (by rcases h with h | h <;> simp [h])]
end

theorem encStart_spec (w : World) (k : Nat) : ((w.encStart k).pump k).busy = true ∧ ((w.encStart k).pump k).wait = false
    ∧ ((w.encStart k).pump k).postb = w.tb ∧ (w.encStart k).regs = w.regs := by
  unfold World.encStart
  dsimp only
  rw [pump_setPump]
  exact ⟨rfl, rfl, rfl, rfl⟩

/-! ### Encoder frames (R441) -/

theorem encoderFrame_next {s : State} {k t : Nat} {bits : List Bool} {ack endOk : Bool} (hk : k < 4) (hon : s.w.on 17 = true) {v : World}
    (hv : (s.w.upTo t).encFrame k bits ack endOk = v) : exec (.encoderFrame k bits ack endOk t) s = .next (s.withW v) := by
  change execEncoderFrame k bits ack endOk t s = _
  exact onW_next ((if_pos ⟨hk, (on_upTo _ _ _).trans hon⟩).trans hv)

/-- The channel once its frame has ended. -/
def World.frameEnded (w : World) (k : Nat) : World := w.setPump k { w.pump k with busy := false }

theorem pump_frameEnded (w : World) (k : Nat) : (w.frameEnded k).pump k = { w.pump k with busy := false } := pump_setPump w k _

theorem encBad_frameEnded (w : World) (k : Nat) (bits : List Bool) (ack endOk : Bool) (pos : Nat) :
    (w.frameEnded k).encBad k bits ack endOk pos = w.encBad k bits ack endOk pos := by
  have hprev : ((w.frameEnded k).pump k).prev = (w.pump k).prev := by rw [pump_frameEnded]
  unfold World.encBad
  dsimp only
  rw [hprev]
  rfl

theorem encBad_ack {w : World} {k : Nat} {bits : List Bool} {ack endOk : Bool} (pos : Nat) (h : ack = false ∨ endOk = false) :
    w.encBad k bits ack endOk pos = some F.PD_ERR_ACK := by
  have hbad : (!ack || !endOk) = true := by rcases h with h | h <;> simp [h]
  exact if_pos hbad

section
variable {w : World} {k : Nat} {bits : List Bool} {ack endOk : Bool} (hbusy : (w.pump k).busy = true) (hfree : (w.pump k).freeAt ≤ w.clk.tk)
  (htakers : w.encTakers 3 k = [])
include hbusy hfree htakers

theorem encFrame_bad (h : ack = false ∨ endOk = false) :
    w.encFrame k bits ack endOk = ((w.frameEnded k).sf F.PD_ERR_ACK k 1).encInvalid k := by
  have hends : ¬ (!(w.pump k).busy || decide (w.clk.tk < (w.pump k).freeAt)) = true := by
    rw [hbusy, decide_eq_false (Nat.not_lt.mpr hfree)]
    decide
  have htakers' : (w.frameEnded k).encTakers 3 k = [] := htakers
  have hbad := fun pos => (encBad_frameEnded w k bits ack endOk pos).trans (encBad_ack pos h)
  unfold World.encFrame
  unfold World.frameEnded at htakers' hbad ⊢
  dsimp only
  rw [if_neg hends, hbad, htakers']
  rfl

theorem encFrame_valid {pos : Nat} (hpos : pos = msbVal (bits.take 24)) (hgray : w.f F.PD_ENCCFG_GRAY k = 0)
    (hok : w.encBad k bits ack endOk pos = none) : ∃ st, w.encFrame k bits ack endOk = (w.frameEnded k).encValid k pos st (w.pump k).postb := by
  have hends : ¬ (!(w.pump k).busy || decide (w.clk.tk < (w.pump k).freeAt)) = true := by
    rw [hbusy, decide_eq_false (Nat.not_lt.mpr hfree)]
    decide
  have htakers' : (w.frameEnded k).encTakers 3 k = [] := htakers
  have hok' := (encBad_frameEnded w k bits ack endOk pos).trans hok
  unfold World.encFrame
  unfold World.frameEnded at htakers' hok' ⊢
  dsimp only
  rw [if_neg hends, fb_of_zero hgray, if_neg Bool.false_ne_true, ← hpos, hok', htakers']
  exact ⟨_, rfl⟩
end

/-- A frame that is not valid moves neither position nor speed. -/
theorem encInvalid_ack (w : World) (k : Nat) {v : World} (hv : v = ((w.frameEnded k).sf F.PD_ERR_ACK k 1).encInvalid k) :
    v.f F.PD_ERR_ACK k = 1 ∧ Keeps [F.PD_ERR_ACK.id, F.PD_STAT_ENCLOST.id] w v
    ∧ (w.f F.PD_ENCCFG_LOSTN k ≤ (w.pump k).bad + 1 → v.f F.PD_STAT_ENCLOST k = 1) := by
  have hshown : Keeps [F.PD_ERR_ACK.id] w ((w.frameEnded k).sf F.PD_ERR_ACK k 1) := (Keeps.refl _ w).setPump.sf (by decide)
  have hkeep := encInvalid_keeps ((w.frameEnded k).sf F.PD_ERR_ACK k 1) k
  subst hv
  refine ⟨(hkeep.f (by decide) k).trans (f_sf_same _ _ _ _), (hshown.mono (by decide)).trans (hkeep.mono (by decide)), fun hlost => ?_⟩
  have hbad : (((w.frameEnded k).sf F.PD_ERR_ACK k 1).pump k).bad = (w.pump k).bad := by
    change ((w.frameEnded k).pump k).bad = _
    rw [pump_frameEnded]
  have hn : max 1 (((w.frameEnded k).sf F.PD_ERR_ACK k 1).f F.PD_ENCCFG_LOSTN k) ≤ (((w.frameEnded k).sf F.PD_ERR_ACK k 1).pump k).bad + 1 := by
    rw [hshown.f (by decide) k, hbad]
    omega
  unfold World.encInvalid
  dsimp only
  rw [if_pos hn, f_sf_same]
  rfl

/-- A valid frame after none sets position and status and counts. -/
theorem encValid_first {w : World} {k pos st tb : Nat} (hp : (w.pump k).prev = none) :
    (w.encValid k pos st tb).f F.PD_POS_POS k = pos % 2 ^ 24 ∧ (w.encValid k pos st tb).f F.PD_POS_VALID k = 1
    ∧ (w.encValid k pos st tb).f F.PD_STAT_ENCLOST k = 0
    ∧ (w.encValid k pos st tb).f F.PD_STAT_FRAMES k = (w.f F.PD_STAT_FRAMES k + 1) % 2 ^ F.PD_STAT_FRAMES.wd := by
  obtain ⟨u, hu, hregs⟩ : ∃ u : World, w.encValid k pos st tb = u ∧ u.regs = (World.sf (World.inc (((((w.sf F.PD_POS_POS k pos).sf F.PD_POS_ST k st).sf
      F.PD_POS_VALID k 1).sf F.PD_POSTB_LO_T_LO k tb).sf F.PD_POSTB_HI_T_HI k (tb / 2 ^ 32)) F.PD_STAT_FRAMES k) F.PD_STAT_ENCLOST k 0).regs := by
    unfold World.encValid
    dsimp only
    rw [hp]
    exact ⟨_, rfl, rfl⟩
  have hread : ∀ G j, u.f G j = _ := fun G j => congrArg (fun g => mget (G.reset j) g (G.key j)) hregs
  have hframes : ∀ {x : World}, x.inc F.PD_STAT_FRAMES k = x.sf F.PD_STAT_FRAMES k (x.f F.PD_STAT_FRAMES k + 1) := rfl
  have hkeep : Keeps [F.PD_POS_POS.id, F.PD_POS_ST.id, F.PD_POS_VALID.id, F.PD_POSTB_LO_T_LO.id, F.PD_POSTB_HI_T_HI.id] w
      (((((w.sf F.PD_POS_POS k pos).sf F.PD_POS_ST k st).sf F.PD_POS_VALID k 1).sf F.PD_POSTB_LO_T_LO k tb).sf F.PD_POSTB_HI_T_HI k (tb / 2 ^ 32)) :=
    (((((Keeps.refl _ w).sf (by decide)).sf (by decide)).sf (by decide)).sf (by decide)).sf (by decide)
  rw [hu]
  refine ⟨(hread _ _).trans ?_, (hread _ _).trans ?_, (hread _ _).trans (f_sf_same _ _ _ _), (hread _ _).trans ?_⟩
  · change World.f _ _ _ = _
    rw [f_sf_ne _ _ _ _ (by decide), hframes, f_sf_ne _ _ _ _ (by decide), f_sf_ne _ _ _ _ (by decide), f_sf_ne _ _ _ _ (by decide),
      f_sf_ne _ _ _ _ (by decide), f_sf_ne _ _ _ _ (by decide), f_sf_same]
    rfl
  · change World.f _ _ _ = _
    rw [f_sf_ne _ _ _ _ (by decide), hframes, f_sf_ne _ _ _ _ (by decide), f_sf_ne _ _ _ _ (by decide), f_sf_ne _ _ _ _ (by decide), f_sf_same]
    rfl
  · change World.f _ _ _ = _
    rw [f_sf_ne _ _ _ _ (by decide), hframes, f_sf_same, hkeep.f (by decide) k]

/-- Settles O55: each row is the channel's operation, in the case that its condition selects. -/
theorem pumpAndEncoderTakeEffect : Obligations.PumpAndEncoderTakeEffect := by
  unfold Obligations.PumpAndEncoderTakeEffect
  refine ⟨?_, ?_, ?_⟩
  · rintro s k t v w hk hon rfl
    refine ⟨fun hen => ?_, pdCarrierMidpoint_waits, fun d hen hm hlate hd => ?_, fun leg x => ⟨pdCmd_exclusive _ _ _ _, pdCmd_off, pdBalls_driven⟩,
      ⟨_, onW_next (if_pos ⟨hk, hon⟩), pdCommit_spec s.w k v⟩, ampSlewStep_waits, fun hp hz => ?_, fun hp hnz ht ha => ?_, ?_,
      pdGateFault_spec hk hon, pdFaultRelease_low hk hon, pdFaultRelease_high hk hon⟩
    · by_cases hlate : ((s.w.upTo t).pump k).midAt ≤ (s.w.upTo t).clk.tk
      · exact show execPdCarrierMidpoint k t s = _ from
          onW_next ((if_pos ⟨hk, (on_upTo _ _ _).trans hon, hlate⟩).trans (pdMidpoint_disabled hen))
      · exact pdCarrierMidpoint_waits (Nat.not_le.mp hlate)
    · exact show execPdCarrierMidpoint k t s = _ from
        onW_next ((if_pos ⟨hk, (on_upTo _ _ _).trans hon, hlate⟩).trans (pdMidpoint_direct hen hm hd))
    · obtain ⟨hamp, hkeep⟩ := ampStep_follows hz
      exact ⟨_, ampSlewStep_next hk hon hp, hamp, hkeep.start⟩
    · obtain ⟨hup, hdown, hkeep⟩ := ampStep_slews hnz ht ha
      exact ⟨_, ampSlewStep_next hk hon hp, hup, hdown, hkeep.start⟩
    · exact show execBoostHoldEnd k t s = _ from onW_next (if_pos hk)
  · rintro s k t w hk hon rfl hen hsrc hpads
    refine ⟨fun hb hdue => ?_, fun hdue hwait => ?_, fun hfree h => ?_⟩
    · exact encoderRequest_next hk hon (encRequest_late hen hsrc hpads hb hdue)
    · exact encoderRequest_next hk hon (encRequest_none hen hsrc hpads hdue hwait)
    · exact ⟨_, encoderRequest_next hk hon (encRequest_starts hen hsrc hpads hfree h), encStart_spec _ _⟩
  · rintro s k t bits ack endOk w hk hon rfl hbusy hfree htakers
    refine ⟨fun h => ?_, ?_⟩
    · exact ⟨_, encoderFrame_next hk hon (encFrame_bad hbusy hfree htakers h), encInvalid_ack _ k rfl⟩
    · rintro pos hpos rfl rfl hgray hok hprev
      obtain ⟨st, hst⟩ := encFrame_valid hbusy hfree htakers hpos hgray hok
      exact ⟨_, encoderFrame_next hk hon hst, encValid_first ((congrArg Pd.prev (pump_setPump _ k _)).trans hprev)⟩

end Sys2Proof.Machine

/-! PMBus and AVSBus (R448 to R455). -/

namespace Sys2Proof.Machine

/-! ### PMBus reads (R449, R450) -/

/-- A read that the part answers with `f`. -/
theorem pmRead_row {s : State} {i : Instr} (f : World → List Nat) (h : exec i s = onW s fun w => w.pmRead f) :
    (s.w.pmOn = true → exec i s = .next (s.withW (s.w.emit (.bus (some (f s.w))))))
    ∧ (s.w.pmOn = false → exec i s = .next (s.withW (s.w.emit (.bus none)))) :=
  ⟨fun hon => h.trans (onW_next (if_pos hon)), fun hoff => h.trans (onW_next (if_neg (Bool.eq_false_iff.mp hoff)))⟩

/-! ### PMBus writes (R449, R451) -/

section
variable {w : World} {code : Nat} {allowed : Bool} {act : World → World} (hon : w.pmOn = true)
include hon

theorem pmWrite_pec : w.pmWrite code false allowed act = (w.emit (.bus (some []))).pmCml 5 := by
  unfold World.pmWrite
  rw [hon]
  rfl

theorem pmWrite_refused (h : (w.emit (.bus (some []))).wpAllows code = false ∨ allowed = false) :
    w.pmWrite code true allowed act = (w.emit (.bus (some []))).pmCml 6 := by
  have hno : ((w.emit (.bus (some []))).wpAllows code && allowed) = false := by
    rcases h with h | h
    · rw [h, Bool.false_and]
    · rw [h, Bool.and_false]
  unfold World.pmWrite
  dsimp only
  rw [hon, hno]
  rfl

theorem pmWrite_acts (h : (w.emit (.bus (some []))).wpAllows code = true) (ha : allowed = true) :
    w.pmWrite code true allowed act = act (w.emit (.bus (some []))) := by
  unfold World.pmWrite
  dsimp only
  rw [hon, h, ha]
  rfl
end

/-- The status bits of pages `l` clear, and no rail command is issued. -/
theorem clearPages_spec (l : List Nat) : ∀ w : World, w.f F.SI_PMCFG_CLRF 0 = 0 → ∀ v : World, v = l.foldl (fun w r =>
      World.when { w with pmb := w.pmb.clear r } (World.fb { w with pmb := w.pmb.clear r } F.SI_PMCFG_CLRF 0) fun w => w.busIssue .pmbus .faultClear r) w →
    v.regs = w.regs ∧ v.pmb = l.foldl (fun p r => p.clear r) w.pmb := by
  induction l with
  | nil =>
    rintro w _ v rfl
    exact ⟨rfl, rfl⟩
  | cons r l ih =>
    intro w hz v hv
    have hno : World.fb { w with pmb := w.pmb.clear r } F.SI_PMCFG_CLRF 0 = false := fb_of_zero hz
    rw [List.foldl_cons, hno] at hv
    exact ih { w with pmb := w.pmb.clear r } hz v hv

theorem clearFaults_spec {s : State} {w : World} (hon : s.w.pmOn = true) (hw : w = s.w.emit (.bus (some []))) (hwp : w.wpAllows 0x03 = true)
    (hen : (w.f F.SI_PMCFG_WREN 0).testBit 0 = true) (hz : w.f F.SI_PMCFG_CLRF 0 = 0) : ∃ v : World, exec (.clearFaults true) s = .next (s.withW v)
      ∧ v.regs = s.w.regs ∧ v.pmb = w.pmPages.foldl (fun p r => p.clear r) w.pmb := by
  subst hw
  exact ⟨_, show execClearFaults true s = _ from onW_next (pmWrite_acts hon hwp hen), clearPages_spec _ _ hz _ rfl⟩

theorem alertResponse_spec {s : State} (hon : s.w.pmOn = true) (hlow : s.w.alertLow = true) :
    ∃ v : World, exec .alertResponse s = .next (s.withW v) ∧ v.out = s.w.out ++ [.bus (some [2 * s.w.f F.SI_PMCFG_ADDR 0])] ∧ v.regs = s.w.regs := by
  have hboth : (s.w.pmOn && s.w.alertLow) = true := by rw [hon, hlow]; rfl
  exact ⟨_, show execAlertResponse s = _ from onW_next (if_pos hboth), rfl, rfl⟩

theorem alertResponse_none {s : State} (hlow : s.w.alertLow = false) : exec .alertResponse s = .next (s.withW (s.w.emit (.bus none))) := by
  refine show execAlertResponse s = _ from onW_next (if_neg ?_)
  rw [hlow, Bool.and_false]
  exact Bool.false_ne_true

/-- The copy is taken once its 100 µs have passed. -/
theorem copyRefresh_next {s : State} {t : Nat} {u : World} (hu : u = s.w.upTo t) (hp : u.past .copy 100000 = true) (hon : u.on 18 = true) :
    exec (.pmbusCopyRefresh t) s
    = .next (s.withW ((List.range u.nRails).foldl World.copyPage (((List.range u.nRails).foldl World.meansOf u).start .copy))) := by
  subst hu
  obtain ⟨hisl, hlx⟩ := meansFold (List.range (s.w.upTo t).nRails) (s.w.upTo t)
  generalize hm : (List.range (s.w.upTo t).nRails).foldl World.meansOf (s.w.upTo t) = m at hisl hlx
  have hon' : (m.start .copy).on 18 = true := by
    change bitOf m.islOn 18 = true
    rw [hisl]
    exact hon
  have hn : (m.start .copy).nRails = (s.w.upTo t).nRails := by
    change m.nRails = _
    unfold World.nRails
    rw [hlx]
  change execPmbusCopyRefresh t s = _
  refine onW_next ?_
  dsimp only
  rw [hp, if_neg (by decide), hm]
  unfold World.when
  rw [if_pos hon']
  dsimp only
  rw [hn]

/-- Settles O56: reads answer from the copy, the registers or the constants, and a write acts where its protection allows it. -/
theorem pmbusTakesEffect : Obligations.PmbusTakesEffect := by
  unfold Obligations.PmbusTakesEffect
  refine ⟨fun s pec => ?_, ?_⟩
  · simp only [List.forall_mem_cons]
    exact ⟨pmRead_row (fun w => [w.pmb.page]) rfl, pmRead_row (fun w => [if w.pmCopy.en then 0x80 else 0]) rfl, pmRead_row (fun w => [w.pmb.wp]) rfl,
      pmRead_row (fun _ => [0xD0]) rfl, pmRead_row (fun _ => [0x13]) rfl, pmRead_row (fun w => leBytes 2 w.pmCopy.vcmd) rfl,
      pmRead_row (fun w => [w.pmCopy.word % 256]) rfl, pmRead_row (fun w => leBytes 2 w.pmCopy.word) rfl, pmRead_row (fun w => [w.pmCopy.vout]) rfl,
      pmRead_row (fun w => [w.pmCopy.iout]) rfl, pmRead_row (fun w => [w.pmCopy.tstat]) rfl, pmRead_row (fun w => [w.pmCopy.cml]) rfl,
      pmRead_row (fun w => leBytes 2 w.pmCopy.v) rfl, pmRead_row (fun w => leBytes 2 w.pmCopy.i) rfl, pmRead_row (fun w => leBytes 2 w.pmCopy.temp) rfl,
      pmRead_row (fun w => leBytes 2 w.pmCopy.p) rfl, pmRead_row (fun _ => [0x44]) rfl, pmRead_row (fun _ => [3, 0x4D, 0x52, 0x44]) rfl,
      pmRead_row (fun w => [6, 0x4C, 0x58, 0x31, 0x32] ++ (if w.lx1264 then [0x36, 0x34] else [0x38, 0x30])) rfl,
      fun e he => absurd he List.not_mem_nil⟩
  · intro s w hon hw
    refine ⟨fun v i hi => ?_, fun v hwp => ⟨fun hv => ?_, fun hff hv => ?_⟩, fun v hno => ?_, fun hwp hen => ⟨?_, ?_, ?_⟩, clearFaults_spec hon hw, fun v hv hwp => ?_,
      fun v hwp hen => ?_, fun code hcode => ?_, alertResponse_spec hon, alertResponse_none, fun t u hu => copyRefresh_next hu⟩
    · subst hw
      simp only [List.mem_cons, List.not_mem_nil, or_false] at hi
      rcases hi with rfl | rfl | rfl | rfl | rfl
      · exact show execPage (some v) false s = _ from onW_next (pmWrite_pec hon)
      · exact show execOperation (some v) false s = _ from onW_next (pmWrite_pec hon)
      · exact show execClearFaults false s = _ from onW_next (pmWrite_pec hon)
      · exact show execWriteProtect (some v) false s = _ from onW_next (pmWrite_pec hon)
      · exact show execVoutCommand (some v) false s = _ from onW_next (pmWrite_pec hon)
    · subst hw
      exact show execPage (some v) true s = _ from onW_next ((pmWrite_acts hon hwp rfl).trans (if_pos hv))
    · subst hw
      exact show execPage (some v) true s = _ from
        onW_next ((pmWrite_acts hon hwp rfl).trans (if_neg fun h => h.elim hff fun hlt => Nat.not_lt.mpr hv hlt))
    · subst hw
      exact show execOperation (some v) true s = _ from onW_next (pmWrite_refused hon hno)
    · subst hw
      exact show execOperation (some 0x80) true s = _ from onW_next ((pmWrite_acts hon hwp hen).trans rfl)
    · subst hw
      exact show execOperation (some 0x00) true s = _ from onW_next ((pmWrite_acts hon hwp hen).trans rfl)
    · subst hw
      exact show execOperation (some 0x40) true s = _ from onW_next ((pmWrite_acts hon hwp hen).trans rfl)
    · subst hw
      exact show execWriteProtect (some v) true s = _ from
        onW_next ((pmWrite_acts hon hwp rfl).trans (if_pos (List.contains_iff_mem.mpr hv)))
    · subst hw
      exact show execVoutCommand (some v) true s = _ from onW_next (pmWrite_acts hon hwp hen)
    · subst hw
      exact show execInvalidCommand code s = _ from onW_next ((if_neg fun h => hcode (List.contains_iff_mem.mp h)).trans (if_pos hon))

/-! ### AVSBus (R453 to R455) -/

section
variable {w : World} {k a : Nat} (hon : w.avsOn k = true)
include hon

theorem avsRead_crc {f : World → Nat → World × Int} : w.avsRead k a false f = w.emit (.avs 2 0) := by
  unfold World.avsRead
  rw [hon]
  rfl

theorem avsRead_unmapped {f : World → Nat → World × Int} (h : w.avsRail k a = none) : w.avsRead k a true f = w.emit (.avs 3 0) := by
  unfold World.avsRead
  rw [hon, h]
  rfl

theorem avsRead_mapped {f : World → Nat → World × Int} {r : Nat} (h : w.avsRail k a = some r) :
    w.avsRead k a true f = (f w r).1.emit (.avs 0 (unI 16 (f w r).2)) := by
  unfold World.avsRead
  rw [hon, h]
  rfl
end

theorem avsRails_one {w : World} {k a : Nat} (h : a ≠ 0xF) : w.avsRails k a = (w.avsRail k a).toList := if_neg h

/-- A Voltage write is answered with its SlaveAck, and issues the rails' commands when that is 0b00. -/
theorem avsVoltageWrite_next {s : State} {k a v : Nat} {crc : Bool} (hon : s.w.avsOn k = true) {n : Nat} (hack : s.w.avsAck k a v crc = n) {u : World}
    (hu : (s.w.when (n == 0) fun w => (w.avsRails k a).foldl (fun w r => w.busIssue (.avs k) (.setTarget (v * 128) 0) r) w).emit (.avs n 0) = u) :
    exec (.avsVoltageWrite k a v crc) s = .next (s.withW u) := by
  subst hack
  change execAvsVoltageWrite k a v crc s = _
  refine onW_next ?_
  rw [hon, if_neg (by decide)]
  exact hu

theorem avsStatusWrite_crc {s : State} {k a : Nat} (hon : s.w.avsOn k = true) :
    exec (.avsStatusWrite k a false) s = .next (s.withW (s.w.emit (.avs 2 0))) := by
  change execAvsStatusWrite k a false s = _
  refine onW_next ?_
  rw [hon]
  rfl

theorem avsStatusWrite_unmapped {s : State} {k a : Nat} (hon : s.w.avsOn k = true) (h : s.w.avsRails k a = []) :
    exec (.avsStatusWrite k a true) s = .next (s.withW (s.w.emit (.avs 3 0))) := by
  change execAvsStatusWrite k a true s = _
  refine onW_next ?_
  rw [hon, h]
  rfl

/-- Clearing the bits of a list clears them, and nothing else. -/
theorem clrBits_spec (F : Fld) (i : Nat) (hF : F.id < 4096) (l : List Nat) : ∀ (w v : World), v = l.foldl (fun w b => w.clrBit F i b) w →
    (∀ j, j ∈ l ∨ (w.f F i).testBit j = false → (v.f F i).testBit j = false) ∧ v.out = w.out ∧ Keeps [F.id] w v := by
  induction l with
  | nil =>
    rintro w v rfl
    exact ⟨fun j h => h.elim (fun h => absurd h List.not_mem_nil) id, rfl, Keeps.refl _ _⟩
  | cons b l ih =>
    intro w v hv
    obtain ⟨hbits, hout, hkeep⟩ := ih (w.clrBit F i b) v hv
    refine ⟨fun j h => hbits j ?_, hout, ((Keeps.refl _ w).clrBit ⟨hF, List.mem_cons_self⟩).trans hkeep⟩
    rcases h with h | h
    · rcases List.mem_cons.mp h with rfl | h
      · exact .inr (clrBit_testBit w F i j j (.inl rfl))
      · exact .inl h
    · exact .inr (clrBit_testBit w F i b j (.inr h))

theorem avsStatusWrite_clears {s : State} {k a r : Nat} (hon : s.w.avsOn k = true) (ha : a < 4) (hr : s.w.avsRail k a = some r) :
    ∃ u : World, exec (.avsStatusWrite k a true) s = .next (s.withW u) ∧ (u.f F.SI_AVSSTAT_ALERT k).testBit a = false
      ∧ u.out = s.w.out ++ [.avs 0 0] ∧ Keeps [F.SI_AVSSTAT_ALERT.id] s.w u := by
  have hrails : s.w.avsRails k a = [r] := by
    rw [avsRails_one (by omega), hr]
    rfl
  obtain ⟨l, v, hmem, hv, hnext⟩ : ∃ (l : List Nat) (v : World), a ∈ l ∧ v = l.foldl (fun w b => w.clrBit F.SI_AVSSTAT_ALERT k b) s.w
      ∧ exec (.avsStatusWrite k a true) s = .next (s.withW (v.emit (.avs 0 0))) := by
    refine ⟨idxs 4 fun b => (a == 0xF || b == a) && (s.w.avsRail k b).isSome, _, ?_, rfl, ?_⟩
    · refine List.mem_filter.mpr ⟨List.mem_range.mpr ha, ?_⟩
      rw [hr, BEq.rfl, Bool.or_true]
      rfl
    · change execAvsStatusWrite k a true s = _
      refine onW_next ?_
      rw [hon, hrails]
      rfl
  obtain ⟨hbits, hout, hkeep⟩ := clrBits_spec F.SI_AVSSTAT_ALERT k (by decide) l s.w v hv
  exact ⟨_, hnext, hbits a (.inl hmem), congrArg (· ++ _) hout, hkeep.emit⟩

/-- Settles O57: a frame is answered by its CRC, its address' rail and the limits, in this order. -/
theorem avsFramesAreAnswered : Obligations.AvsFramesAreAnswered := by
  unfold Obligations.AvsFramesAreAnswered
  intro s k a v r hon
  refine ⟨fun i hi => ?_, fun ha hnone i hi => ?_, fun ha hr => ?_⟩
  · simp only [List.mem_cons, List.not_mem_nil, or_false] at hi
    rcases hi with rfl | rfl | rfl | rfl | rfl | rfl | rfl
    · exact avsVoltageWrite_next hon rfl rfl
    · exact show execAvsVoltageRead k a false s = _ from onW_next (avsRead_crc hon)
    · exact show execAvsVouttransrateRead k a false s = _ from onW_next (avsRead_crc hon)
    · exact show execAvsCurrentRead k a false s = _ from onW_next (avsRead_crc hon)
    · exact show execAvsTemperatureRead k a false s = _ from onW_next (avsRead_crc hon)
    · exact show execAvsStatusRead k a false s = _ from onW_next (avsRead_crc hon)
    · exact avsStatusWrite_crc hon
  · have hrails : s.w.avsRails k a = [] := by
      rw [avsRails_one (by omega), hnone]
      rfl
    have hack : s.w.avsAck k a v true = 3 := by
      unfold World.avsAck
      rw [hrails]
      rfl
    simp only [List.mem_cons, List.not_mem_nil, or_false] at hi
    rcases hi with rfl | rfl | rfl | rfl | rfl | rfl | rfl
    · exact avsVoltageWrite_next hon hack rfl
    · exact show execAvsVoltageRead k a true s = _ from onW_next (avsRead_unmapped hon hnone)
    · exact show execAvsVouttransrateRead k a true s = _ from onW_next (avsRead_unmapped hon hnone)
    · exact show execAvsCurrentRead k a true s = _ from onW_next (avsRead_unmapped hon hnone)
    · exact show execAvsTemperatureRead k a true s = _ from onW_next (avsRead_unmapped hon hnone)
    · exact show execAvsStatusRead k a true s = _ from onW_next (avsRead_unmapped hon hnone)
    · exact avsStatusWrite_unmapped hon hrails
  · have hrails : s.w.avsRails k a = [r] := by
      rw [avsRails_one (by omega), hr]
      rfl
    have hack : s.w.avsAck k a v true = if !s.w.avsLimOk r v then 3 else if s.w.busFull (.avs k) then 1 else 0 := by
      unfold World.avsAck
      rw [hrails]
      simp
    refine ⟨fun hlim => ?_, fun hlim hfull => ?_, fun hlim hfull => ?_, ?_, ?_, ?_, fun x hx => ?_, ?_, avsStatusWrite_clears hon ha hr⟩
    · exact avsVoltageWrite_next (n := 3) hon (by rw [hack, hlim]; rfl) rfl
    · exact avsVoltageWrite_next (n := 1) hon (by rw [hack, hlim, hfull]; rfl) rfl
    · refine avsVoltageWrite_next (n := 0) hon (by rw [hack, hlim, hfull]; rfl) ?_
      have hroom : ¬ 4 ≤ (s.w.cmd.queue.countP fun c => c.src == .avs k) := of_decide_eq_false hfull
      have hissue : s.w.busIssue (.avs k) (.setTarget (v * 128) 0) r = s.w.issue (.avs k) (.setTarget (v * 128) 0) r 0 := if_neg hroom
      unfold World.when
      rw [if_pos (by rfl)]
      dsimp only
      rw [hrails, List.foldl_cons, List.foldl_nil, hissue]
    · exact show execAvsVoltageRead k a true s = _ from onW_next (avsRead_mapped hon hr)
    · exact show execAvsVouttransrateRead k a true s = _ from onW_next (avsRead_mapped hon hr)
    · exact show execAvsCurrentRead k a true s = _ from onW_next (avsRead_mapped hon hr)
    · have htemp : s.w.temp r = (s.w, x) := by
        unfold World.temp
        rw [hx]
      refine show execAvsTemperatureRead k a true s = _ from onW_next ((avsRead_mapped hon hr).trans ?_)
      dsimp only
      rw [htemp]
    · exact show execAvsStatusRead k a true s = _ from onW_next (avsRead_mapped hon hr)

end Sys2Proof.Machine

/-! I3C, the rope and the boundary scan (R456 to R463, R531, R533). -/

namespace Sys2Proof.Machine

/-! ### I3C (R456, R457) -/

theorem busOn_of_i3cOn {w : World} (h : w.i3cOn = true) : w.busOn = true := (Bool.and_eq_true _ _ ▸ h : w.busOn = true ∧ _).1

/-- The bytes that the controller writes to the target, at most 64, go to SI_I3CRX. -/
theorem privateWrite_spec {s : State} (hon : s.w.i3cOn = true) (bytes : List Nat) : ∃ v : World, exec (.privateWrite bytes) s = .next (s.withW v)
    ∧ v.f F.SI_I3CSTAT_RXLEN 0 = min bytes.length 64 ∧ v.f F.SI_I3CSTAT_RXNEW 0 = 1
    ∧ (∀ i, 4 * i < min bytes.length 64 → v.f F.SI_I3CRX_DATA i = wordAt ((bytes.take 64).map (· % 256)) i % 2 ^ 32)
    ∧ v.out = s.w.out ++ [.bus (some [])] ∧ Keeps [F.SI_I3CRX_DATA.id, F.SI_I3CSTAT_RXLEN.id, F.SI_I3CSTAT_RXNEW.id] s.w v := by
  have hlen : ((bytes.take 64).map (· % 256)).length = min bytes.length 64 := by
    rw [List.length_map, List.length_take, Nat.min_comm]
  obtain ⟨u, hu, hnext⟩ : ∃ u : World, u = (List.range ((((bytes.take 64).map (· % 256)).length + 3) / 4)).foldl
      (fun w i => w.sf F.SI_I3CRX_DATA i (wordAt ((bytes.take 64).map (· % 256)) i)) s.w ∧ exec (.privateWrite bytes) s
      = .next (s.withW (((u.sf F.SI_I3CSTAT_RXLEN 0 ((bytes.take 64).map (· % 256)).length).sf F.SI_I3CSTAT_RXNEW 0 1).emit (.bus (some [])))) := by
    refine ⟨_, rfl, show execPrivateWrite bytes s = _ from onW_next (if_neg ?_)⟩
    rw [hon]
    decide
  rw [hlen] at hu hnext
  obtain ⟨hkeep, hout⟩ := rxFold (List.range ((min bytes.length 64 + 3) / 4)) (wordAt ((bytes.take 64).map (· % 256))) s.w
  rw [← hu] at hkeep hout
  refine ⟨_, hnext, ?_, (f_emit _ _ _ _).trans (f_sf_same _ _ _ _), fun i hi => ?_, congrArg (· ++ _) hout, (((hkeep.mono (by decide)).sf (by decide)).sf (by decide)).emit⟩
  · rw [f_emit, f_sf_ne _ _ _ _ (by decide), f_sf_same]
    refine Nat.mod_eq_of_lt ?_
    change min bytes.length 64 < 2 ^ 7
    omega
  · rw [f_emit, f_sf_ne _ _ _ _ (by decide), f_sf_ne _ _ _ _ (by decide), hu]
    exact rxFold_f _ _ List.nodup_range s.w i (List.mem_range.mpr (by omega))

theorem privateRead_next {s : State} (hon : s.w.i3cOn = true) (n : Nat) : exec (.privateRead n) s = .next (s.withW (s.w.emit (.bus (some
    ((((List.range 16).flatMap fun i => leBytes 4 (s.w.f F.SI_I3CTX_DATA i))).take (min n (s.w.f F.SI_I3CCTL_TXLEN 0))))))) := by
  refine show execPrivateRead n s = _ from onW_next (if_neg ?_)
  rw [hon]
  decide

/-- A direct CCC that reads is answered. -/
theorem i3cGet_next {s : State} {i : Instr} (f : World → List Nat) (hon : s.w.i3cOn = true) (h : exec i s = onW s fun w => w.i3cGet (f w)) :
    exec i s = .next (s.withW (s.w.emit (.bus (some (f s.w))))) := by
  rw [h]
  refine onW_next ?_
  unfold World.i3cGet
  rw [if_pos hon]

theorem ibiGo_raises {w : World} (h1 : w.side.ibi = true) (h2 : w.side.i3cEv = true) (h3 : w.i3cOn = true) :
    w.ibiGo = World.emit { w with side := { w.side with ibi := false } } (.bus (some [2 * w.f F.SI_I3CCFG_DA 0 + 1])) := by
  unfold World.ibiGo
  rw [h1, h2, h3]
  rfl

theorem ibiGo_waits {w : World} (h : w.side.ibi = false ∨ w.side.i3cEv = false) : w.ibiGo = w := by
  have hno : (w.side.ibi && w.side.i3cEv && w.i3cOn) = false := by
    rcases h with h | h
    · rw [h]
      rfl
    · rw [h, Bool.and_false]
      rfl
  unfold World.ibiGo
  rw [hno]
  rfl

/-- A target without an address takes `da`, and answers. -/
theorem takesAddress {s : State} {i : Instr} {l : List Nat} {da : Nat} (hbus : s.w.busOn = true) (hno : s.w.fb F.SI_I3CCFG_DA 0 = false) (hda : da < 128)
    (h : exec i s = onW s fun w => if w.busOn && !w.fb F.SI_I3CCFG_DA 0 then (w.sf F.SI_I3CCFG_DA 0 da).emit (.bus (some l)) else w.emit (.bus none)) :
    ∃ v : World, exec i s = .next (s.withW v) ∧ v.f F.SI_I3CCFG_DA 0 = da ∧ v.out = s.w.out ++ [.bus (some l)] ∧ Keeps [F.SI_I3CCFG_DA.id] s.w v := by
  refine ⟨_, h.trans (onW_next (if_pos ?_)), ?_, rfl, ((Keeps.refl _ _).sf (by decide)).emit⟩
  · rw [hbus, hno]
    rfl
  · exact (f_sf_same _ _ _ _).trans (Nat.mod_eq_of_lt hda)

/-- A matching address is acknowledged, and wakes the part when SID is off. -/
theorem addressMatch_hit {s : State} {addr t : Nat} (hp : s.w.padsOwned = true) (h0 : addr ≠ 0)
    (hhit : addr = s.w.f F.SI_I3CCFG_WAKEADDR 0 ∨ s.w.on 18 = false ∧ addr = s.w.f F.SI_I3CCFG_DA 0) {w : World} (hw : w = s.w.upTo t) :
    exec (.i3cAddressMatch addr true t) s
    = .next (s.withW (if s.w.on 18 then (w.emit (.bus (some []))).pulse 0x1BB else ((w.emit (.bus (some []))).pulse 0x1BB).wake 1 0)) := by
  have hwa : w.f F.SI_I3CCFG_WAKEADDR 0 = s.w.f F.SI_I3CCFG_WAKEADDR 0 := hw ▸ f_upTo s.w t (by decide) 0
  have hda : w.f F.SI_I3CCFG_DA 0 = s.w.f F.SI_I3CCFG_DA 0 := hw ▸ f_upTo s.w t (by decide) 0
  have hpads : w.padsOwned = true := hw ▸ (padsOwned_upTo s.w t).trans hp
  have hon : w.on 18 = s.w.on 18 := hw ▸ on_upTo s.w t 18
  change execI3cAddressMatch addr true t s = _
  refine onW_next ?_
  dsimp only
  rw [← hw, hwa, hda, hpads, hon, if_neg (by decide)]
  cases h18 : s.w.on 18 with
  | true =>
    have hwake : addr = s.w.f F.SI_I3CCFG_WAKEADDR 0 := hhit.elim id fun h => Bool.noConfusion (h18.symm.trans h.1)
    rw [if_pos rfl, if_pos rfl, if_pos]
    rw [← hwake, BEq.rfl, Bool.true_and]
    exact bne_iff_ne.mpr h0
  | false =>
    have hany : (addr == s.w.f F.SI_I3CCFG_WAKEADDR 0 && s.w.f F.SI_I3CCFG_WAKEADDR 0 != 0
        || addr == s.w.f F.SI_I3CCFG_DA 0 && s.w.f F.SI_I3CCFG_DA 0 != 0) = true := by
      have hself : (addr == addr && addr != 0) = true := by
        rw [BEq.rfl, Bool.true_and]
        exact bne_iff_ne.mpr h0
      rcases hhit with h | ⟨-, h⟩
      · rw [← h, hself, Bool.true_or]
      · rw [← h, hself, Bool.or_true]
    rw [if_neg Bool.false_ne_true, if_neg Bool.false_ne_true, if_pos hany]

theorem addressMatch_other {s : State} {addr t : Nat} (h1 : addr ≠ s.w.f F.SI_I3CCFG_WAKEADDR 0) (h2 : addr ≠ s.w.f F.SI_I3CCFG_DA 0) :
    exec (.i3cAddressMatch addr true t) s = .next (s.withW (s.w.upTo t)) := by
  have hwa : (addr == s.w.f F.SI_I3CCFG_WAKEADDR 0) = false := beq_false_of_ne h1
  have hda : (addr == s.w.f F.SI_I3CCFG_DA 0) = false := beq_false_of_ne h2
  change execI3cAddressMatch addr true t s = _
  refine onW_next ?_
  dsimp only
  rw [f_upTo s.w t (by decide), f_upTo s.w t (by decide), hwa, hda, Bool.false_and, Bool.false_and, Bool.or_false, if_neg Bool.false_ne_true,
    if_neg Bool.false_ne_true, ite_self, ite_self]

/-- Settles O58: an addressed target answers, and one that is not takes its address or waits. -/
theorem i3cCommandsTakeEffect : Obligations.I3cCommandsTakeEffect := by
  unfold Obligations.I3cCommandsTakeEffect
  intro s
  refine ⟨fun hon => ⟨privateWrite_spec hon, privateRead_next hon, ?_, ?_, fun hibi => ?_, fun hibi => ?_, fun h18 hev => ?_, ?_⟩,
    fun h18 hev => ?_, fun hbus hno da hda => ⟨takesAddress hbus hno hda rfl, takesAddress hbus hno hda rfl⟩, ?_⟩
  · simp only [List.forall_mem_cons]
    exact ⟨i3cGet_next (fun _ => i3cPidBytes) hon rfl, i3cGet_next (fun _ => [Config.i3cBcr]) hon rfl, i3cGet_next (fun _ => [Config.i3cDcr]) hon rfl,
      i3cGet_next (fun w => [0, b2n w.side.ibi]) hon rfl, fun e he => absurd he List.not_mem_nil⟩
  · exact show execDisec s = _ from onW_next (if_pos hon)
  · exact show execEnec s = _ from onW_next ((if_pos hon).trans (ibiGo_waits (.inl hibi)))
  · refine show execEnec s = _ from onW_next ((if_pos hon).trans (ibiGo_raises hibi rfl hon))
  · refine show execIbi s = _ from onW_next ((if_pos h18).trans (ibiGo_raises rfl hev hon))
  · exact ⟨_, show execRstdaa s = _ from onW_next (if_pos (busOn_of_i3cOn hon)), (f_emit _ _ _ _).trans (f_sf_same _ _ _ _), ((Keeps.refl _ _).sf (by decide)).emit⟩
  · exact show execIbi s = _ from onW_next ((if_pos h18).trans (ibiGo_waits (.inr hev)))
  · rintro addr t w rfl
    exact ⟨show execI3cAddressMatch addr false t s = _ from onW_next (if_pos rfl), fun hp h0 hhit => addressMatch_hit hp h0 hhit rfl, addressMatch_other⟩

end Sys2Proof.Machine

/-! The rope and the boundary scan (R460 to R463, R531, R533). -/

namespace Sys2Proof.Machine

/-! ### The rope (R460 to R463) -/

theorem ropeOn_upTo (w : World) (t : Nat) : (w.upTo t).ropeOn = w.ropeOn := by
  unfold World.ropeOn
  rw [on_upTo, fb_upTo w t (by decide)]

theorem on18_of_ropeOn {w : World} (h : w.ropeOn = true) : w.on 18 = true := by
  unfold World.ropeOn at h
  exact (Bool.and_eq_true_iff.mp h).1

/-- The root is node 0 and sends count 1. -/
theorem enumSend_spec (w : World) : w.enumSend.f F.SI_ROPESTAT_NODE 0 = 0 ∧ w.enumSend.f F.SI_ROPESTAT_NUMBERED 0 = 1
    ∧ w.enumSend.out = w.out ++ [.rope ⟨1, 0, 0xF, [1]⟩] ∧ Keeps [F.SI_ROPESTAT_NODE.id, F.SI_ROPESTAT_NUMBERED.id] w w.enumSend := by
  obtain ⟨v, hv, hregs, hout⟩ : ∃ v : World, w.enumSend = v ∧ v.regs = ((w.sf F.SI_ROPESTAT_NODE 0 0).sf F.SI_ROPESTAT_NUMBERED 0 1).regs
      ∧ v.out = w.out ++ [.rope ⟨1, 0, 0xF, [1]⟩] := ⟨_, rfl, rfl, rfl⟩
  have hkeep : Keeps [] ((w.sf F.SI_ROPESTAT_NODE 0 0).sf F.SI_ROPESTAT_NUMBERED 0 1) v := (Keeps.refl _ _).regs hregs
  rw [hv]
  refine ⟨?_, (hkeep.f (by decide) 0).trans (f_sf_same _ _ _ _), hout, (((Keeps.refl _ w).sf (by decide)).sf (by decide)).regs hregs⟩
  rw [hkeep.f (by decide) 0, f_sf_ne _ _ _ _ (by decide), f_sf_same]
  rfl

theorem enum_next {s : State} {count t : Nat} (hon : s.w.ropeOn = true) {v : World} (hv : (s.w.upTo t).enumIn count = v) :
    exec (.enum count t) s = .next (s.withW v) := by
  change execEnum count t s = _
  exact onW_next ((if_pos ((ropeOn_upTo s.w t).trans hon)).trans hv)

/-- A second root's ENUM is an error. -/
theorem enumIn_root {w : World} {count : Nat} (hroot : w.fb F.SI_ROPECFG_ROOT 0 = true) (hnone : w.side.enumAt = none) :
    w.enumIn count = w.sf F.SI_ROPEERR_ROOT 0 1 := by
  unfold World.enumIn
  rw [hroot, hnone]
  rfl

/-- A node takes the count that it receives, and forwards the next one. -/
theorem enumIn_node {w : World} {count : Nat} (hroot : w.fb F.SI_ROPECFG_ROOT 0 = false) (h : count < 16) :
    (w.enumIn count).f F.SI_ROPESTAT_NODE 0 = count ∧ (w.enumIn count).f F.SI_ROPESTAT_NUMBERED 0 = 1
    ∧ (w.enumIn count).out = w.out ++ [.rope ⟨1, 0, 0xF, [count + 1]⟩]
    ∧ Keeps [F.SI_ROPESTAT_NODE.id, F.SI_ROPESTAT_NUMBERED.id] w (w.enumIn count) := by
  obtain ⟨u, hu, hregs, hout⟩ : ∃ u : World, w.enumIn count
      = ((u.sf F.SI_ROPESTAT_NODE 0 count).sf F.SI_ROPESTAT_NUMBERED 0 1).emit (.rope ⟨1, 0, 0xF, [count + 1]⟩) ∧ u.regs = w.regs ∧ u.out = w.out := by
    unfold World.enumIn
    dsimp only
    rw [hroot, if_neg Bool.false_ne_true, if_neg (by omega)]
    exact ⟨_, rfl, rfl, rfl⟩
  rw [hu]
  refine ⟨?_, (f_emit _ _ _ _).trans (f_sf_same _ _ _ _), congrArg (· ++ _) hout,
    ((((Keeps.refl _ w).regs hregs).sf (by decide)).sf (by decide)).emit⟩
  rw [f_emit, f_sf_ne _ _ _ _ (by decide), f_sf_same]
  exact Nat.mod_eq_of_lt h

theorem enumIn_over {w : World} {count : Nat} (hroot : w.fb F.SI_ROPECFG_ROOT 0 = false) (h : 16 ≤ count) :
    (w.enumIn count).f F.SI_ROPEERR_OVER 0 = 1 ∧ (w.enumIn count).f F.SI_ROPESTAT_NUMBERED 0 = 0
    ∧ (w.enumIn count).out = w.out ++ [.rope ⟨1, 0, 0xF, [count]⟩]
    ∧ Keeps [F.SI_ROPEERR_OVER.id, F.SI_ROPESTAT_NUMBERED.id] w (w.enumIn count) := by
  obtain ⟨u, hu, hregs, hout⟩ : ∃ u : World, w.enumIn count
      = ((u.sf F.SI_ROPESTAT_NUMBERED 0 0).sf F.SI_ROPEERR_OVER 0 1).emit (.rope ⟨1, 0, 0xF, [count]⟩) ∧ u.regs = w.regs ∧ u.out = w.out := by
    unfold World.enumIn
    dsimp only
    rw [hroot, if_neg Bool.false_ne_true, if_pos h]
    exact ⟨_, rfl, rfl, rfl⟩
  rw [hu]
  refine ⟨(f_emit _ _ _ _).trans (f_sf_same _ _ _ _), ?_, congrArg (· ++ _) hout,
    ((((Keeps.refl _ w).regs hregs).sf (by decide)).sf (by decide)).emit⟩
  rw [f_emit, f_sf_ne _ _ _ _ (by decide), f_sf_same]
  rfl

theorem sync_root {s : State} {t0 acc t : Nat} (hon : s.w.ropeOn = true) (hroot : s.w.fb F.SI_ROPECFG_ROOT 0 = true) :
    exec (.sync t0 acc t) s = .next (s.withW (s.w.upTo t)) := by
  change execSync t0 acc t s = _
  refine onW_next ?_
  dsimp only
  rw [ropeOn_upTo, hon, fb_upTo s.w t (by decide), hroot]
  rfl

/-- A SYNC passes on with the input cable and 7,680 ticks added to ACC. -/
theorem sync_node {s : State} {t0 acc t : Nat} (hon : s.w.ropeOn = true) (hroot : s.w.fb F.SI_ROPECFG_ROOT 0 = false)
    (hsrc : s.w.f F.TB_SYNC_SRC 0 ≠ 2) : exec (.sync t0 acc t) s = .next (s.withW
      (((s.w.upTo t).pulse 0x1BE).emit (.rope ⟨2, 0, 0xF, leBytes 8 t0 ++ leBytes 4 (acc + s.w.f F.SI_ROPECAB_CAB 0 + 7680)⟩))) := by
  have hno : (((s.w.upTo t).pulse 0x1BE).f F.TB_SYNC_SRC 0 == 2 && !((s.w.upTo t).pulse 0x1BE).follows && ((s.w.upTo t).pulse 0x1BE).on 17) = false := by
    rw [f_pulse, f_upTo s.w t (by decide), beq_false_of_ne hsrc]
    rfl
  have hin : (s.w.upTo t).syncIn t0 acc
      = ((s.w.upTo t).pulse 0x1BE).emit (.rope ⟨2, 0, 0xF, leBytes 8 t0 ++ leBytes 4 (acc + s.w.f F.SI_ROPECAB_CAB 0 + 7680)⟩) := by
    unfold World.syncIn World.when syncPay
    dsimp only
    rw [hno, if_neg Bool.false_ne_true, f_upTo s.w t (by decide)]
  change execSync t0 acc t s = _
  refine onW_next ?_
  dsimp only
  rw [ropeOn_upTo, hon, fb_upTo s.w t (by decide), hroot, if_neg (by decide), if_neg (by decide), hin]

theorem ropeSyncSend_next {s : State} {t : Nat} (hon : s.w.ropeOn = true) (hroot : s.w.fb F.SI_ROPECFG_ROOT 0 = true)
    (hper : s.w.f F.SI_ROPECFG_SYNCPER 0 ≠ 0) {w : World} (hw : w = s.w.upTo t) (hdue : w.tb % (s.w.f F.SI_ROPECFG_SYNCPER 0 * 1000) = 0) :
    exec (.ropeSyncSend t) s = .next (s.withW (w.emit (.rope ⟨2, 0, 0xF, leBytes 8 w.tb ++ leBytes 4 0⟩))) := by
  subst hw
  have hgo : ((s.w.upTo t).ropeOn && (s.w.upTo t).fb F.SI_ROPECFG_ROOT 0 && (s.w.upTo t).f F.SI_ROPECFG_SYNCPER 0 * 1000 != 0
      && (s.w.upTo t).tb % ((s.w.upTo t).f F.SI_ROPECFG_SYNCPER 0 * 1000) == 0) = true := by
    rw [ropeOn_upTo, hon, fb_upTo s.w t (by decide), hroot, f_upTo s.w t (by decide), hdue, bne_iff_ne.mpr (by omega : s.w.f F.SI_ROPECFG_SYNCPER 0 * 1000 ≠ 0)]
    rfl
  change execRopeSyncSend t s = _
  exact onW_next (if_pos hgo)

/-- A node that gains its carrier waits for an ENUM. -/
theorem carrierGain_node {s : State} {t : Nat} (hon : s.w.ropeOn = true) (hroot : s.w.fb F.SI_ROPECFG_ROOT 0 = false) {w : World} (hw : w = s.w.upTo t) :
    ∃ v : World, exec (.carrierGain t) s = .next (s.withW v) ∧ v.f F.SI_ROPESTAT_CARRIER 0 = 1 ∧ v.side.enumAt = some w.clk.tk
      ∧ v.out = s.w.out ∧ Keeps [F.SI_ROPESTAT_CARRIER.id] w v := by
  have hkeep : Keeps [F.SI_ROPESTAT_CARRIER.id] (s.w.upTo t) ((s.w.upTo t).sf F.SI_ROPESTAT_CARRIER 0 1) := (Keeps.refl _ _).sf (by decide)
  have hon' : ((s.w.upTo t).sf F.SI_ROPESTAT_CARRIER 0 1).ropeOn = true := by
    unfold World.ropeOn World.fb
    rw [hkeep.f (by decide) 0]
    exact (ropeOn_upTo s.w t).trans hon
  have hroot' : ((s.w.upTo t).sf F.SI_ROPESTAT_CARRIER 0 1).fb F.SI_ROPECFG_ROOT 0 = false := by
    unfold World.fb
    rw [hkeep.f (by decide) 0]
    exact (fb_upTo s.w t (by decide) 0).trans hroot
  subst hw
  refine ⟨World.sf { s.w.upTo t with side := { (s.w.upTo t).side with enumAt := some (s.w.upTo t).clk.tk } } F.SI_ROPESTAT_CARRIER 0 1, ?_,
    f_sf_same _ _ _ _, rfl, out_upTo s.w t, (Keeps.refl _ _).with_side.sf (by decide)⟩
  change execCarrierGain t s = _
  refine onW_next ?_
  dsimp only
  rw [on_upTo, on18_of_ropeOn hon, if_neg (by decide), hon', if_neg (by decide), hroot', if_neg (by decide)]
  rfl

/-- Without an ENUM for 100 µs the node shows ROOT. -/
theorem enumTimeout_spec {s : State} {t a : Nat} (hon : s.w.ropeOn = true) (ha : s.w.side.enumAt = some a) (hlate : a + 128 * 100000 ≤ max s.w.clk.tk t)
    {w : World} (hw : w = s.w.upTo t) : ∃ v : World, exec (.enumTimeout t) s = .next (s.withW v) ∧ v.f F.SI_ROPEERR_ROOT 0 = 1
      ∧ v.side.enumAt = none ∧ Keeps [F.SI_ROPEERR_ROOT.id] w v := by
  subst hw
  have hgo : (s.w.upTo t).ropeOn = true ∧ a + 128 * 100000 ≤ (s.w.upTo t).clk.tk := ⟨(ropeOn_upTo s.w t).trans hon, by rwa [upTo_tk]⟩
  refine ⟨World.sf { s.w.upTo t with side := { (s.w.upTo t).side with enumAt := none } } F.SI_ROPEERR_ROOT 0 1, ?_, f_sf_same _ _ _ _, rfl,
    (Keeps.refl _ _).with_side.sf (by decide)⟩
  change execEnumTimeout t s = _
  refine onW_next ?_
  dsimp only
  rw [side_upTo, ha]
  exact if_pos hgo

theorem ropeFrame_bypass {s : State} {x : RopeFrame} {good : Bool} {t : Nat} (hoff : s.w.ropeOn = false) :
    exec (.ropeFrameForward x good t) s = .next (s.withW ((s.w.upTo t).emit (.rope x))) := by
  change execRopeFrameForward x good t s = _
  refine onW_next ?_
  dsimp only
  rw [ropeOn_upTo, hoff]
  rfl

/-- A good frame from or for the node stops there, and others go on. -/
theorem ropeFrame_good {s : State} {x : RopeFrame} {t : Nat} (hon : s.w.ropeOn = true) (hnum : s.w.fb F.SI_ROPESTAT_NUMBERED 0 = true) :
    exec (.ropeFrameForward x true t) s = .next (s.withW
      (if s.w.f F.SI_ROPESTAT_NODE 0 = x.src ∨ s.w.f F.SI_ROPESTAT_NODE 0 = x.dst then s.w.upTo t else (s.w.upTo t).emit (.rope x))) := by
  have hnode : (s.w.upTo t).ropeNode = some (s.w.f F.SI_ROPESTAT_NODE 0) := by
    unfold World.ropeNode
    rw [fb_upTo s.w t (by decide), hnum, if_pos rfl, f_upTo s.w t (by decide)]
  change execRopeFrameForward x true t s = _
  refine onW_next ?_
  dsimp only
  rw [ropeOn_upTo, hon, if_neg (by decide)]
  unfold World.when
  simp only [Bool.not_true, Bool.false_eq_true, if_false, hnode, Option.some.injEq]

theorem ropeLos_spec {s : State} {t : Nat} (h18 : s.w.on 18 = true) {w : World} (hw : w = s.w.upTo t) : ∃ v : World, exec (.ropeLos t) s = .next (s.withW v)
    ∧ v.f F.SI_ROPESTAT_CARRIER 0 = 0 ∧ v.f F.SI_ROPEERR_LOS 0 = 1 ∧ Keeps [F.SI_ROPESTAT_CARRIER.id, F.SI_ROPEERR_LOS.id] w v := by
  subst hw
  refine ⟨_, show execRopeLos t s = _ from onW_next (if_pos ((on_upTo _ _ _).trans h18)), ?_, f_sf_same _ _ _ _,
    ((Keeps.refl _ _).sf (by decide)).sf (by decide)⟩
  rw [f_sf_ne _ _ _ _ (by decide), f_sf_same]
  rfl

/-! ### The boundary scan (R531, R533) -/

theorem scanFree_setIr (w : World) (i : JtagIr) : (w.setIr i).scanFree = w.scanFree := rfl

/-- EXTEST, CLAMP and HIGHZ drive while no rail is enabled and BLPAIR is low. -/
theorem scan_drives {s : State} (h : s.w.scanFree = true) (balls bits : List Bool) :
    exec (.extest balls bits) s = .next (s.withW ((World.emit { s.w with jtag := { s.w.jtag with ir := .extest, cells := bits } } (.scan balls)).emit
      (.drive (some bits))))
    ∧ exec (.clamp bits) s = .next (s.withW (((s.w.setIr .clamp).emit (.drive (some s.w.jtag.cells))).emit (.scan (false :: bits).dropLast)))
    ∧ exec (.highz bits) s = .next (s.withW (((s.w.setIr .highz).emit (.drive none)).emit (.scan (false :: bits).dropLast))) := by
  refine ⟨show execExtest balls bits s = _ from onW_next (if_pos h), show execClamp bits s = _ from onW_next ?_, show execHighz bits s = _ from onW_next ?_⟩
  · unfold World.when
    rw [if_pos h]
    rfl
  · unfold World.when
    rw [if_pos h]
    rfl

theorem scan_bypassed {s : State} (h : s.w.scanFree = false) (balls bits : List Bool) :
    ∀ e ∈ [(Instr.extest balls bits, JtagIr.extest), (.clamp bits, .clamp), (.highz bits, .highz)],
      exec e.1 s = .next (s.withW ((s.w.setIr e.2).emit (.scan (false :: bits).dropLast))) := by
  have hno : ¬ s.w.scanFree = true := Bool.eq_false_iff.mp h
  intro e he
  simp only [List.mem_cons, List.not_mem_nil, or_false] at he
  rcases he with rfl | rfl | rfl
  · exact show execExtest balls bits s = _ from onW_next (if_neg hno)
  · refine show execClamp bits s = _ from onW_next ?_
    unfold World.when
    rw [if_neg hno]
    rfl
  · refine show execHighz bits s = _ from onW_next ?_
    unfold World.when
    rw [if_neg hno]
    rfl

theorem jtagReset_spec (s : State) (ns : Nat) : (ns < 50 → exec (.jtagReset ns) s = .next s)
    ∧ (100 ≤ ns → exec (.jtagReset ns) s = .next (s.withW (s.w.setIr .idcode)))
    ∧ (50 ≤ ns → ns < 100 → ∃ b : Bool, exec (.jtagReset ns) s
      = .next (s.withW (let v : World := { s.w with free := s.w.free + 1 }; if b then v.setIr .idcode else v))) := by
  refine ⟨fun h => ?_, fun h => ?_, fun h1 h2 => ⟨decide (Config.freeValue s.w.free % 2 = 1), ?_⟩⟩
  · exact show execJtagReset ns s = .next (s.withW s.w) from onW_next (if_pos h)
  · exact show execJtagReset ns s = _ from onW_next ((if_neg (by omega)).trans (if_pos h))
  · refine show execJtagReset ns s = _ from onW_next ((if_neg (by omega)).trans ((if_neg (by omega)).trans ?_))
    simp only [decide_eq_true_eq]
    rfl

/-- Settles O59: a frame acts by the node's part in the ring, and an instruction of the port by what it may drive. -/
theorem ropeAndBoundaryScanTakeEffect : Obligations.RopeAndBoundaryScanTakeEffect := by
  unfold Obligations.RopeAndBoundaryScanTakeEffect
  rintro s t w rfl
  refine ⟨fun hon hroot => ⟨?_, fun count hnone => ?_, fun t0 acc => sync_root hon hroot, fun hper hdue => ropeSyncSend_next hon hroot hper rfl hdue⟩,
    fun hon hroot count => ⟨fun h => ?_, fun h => ?_, fun hsrc t0 acc => sync_node hon hroot hsrc, carrierGain_node hon hroot rfl⟩,
    fun a hon ha hlate => enumTimeout_spec hon ha hlate rfl, fun x => ⟨fun hoff good => ropeFrame_bypass hoff, ropeFrame_good⟩,
    fun h18 => ropeLos_spec h18 rfl, fun balls bits => ⟨?_, ?_, ?_, fun h => scan_drives h balls bits, fun h => scan_bypassed h balls bits⟩, jtagReset_spec s⟩
  · have hgo : (s.w.ropeOn && s.w.fb F.SI_ROPECFG_ROOT 0) = true := by rw [hon, hroot]; rfl
    exact ⟨_, show execRopeEnumRequest s = _ from onW_next (if_pos hgo), enumSend_spec s.w⟩
  · refine ⟨_, enum_next hon (enumIn_root ((fb_upTo s.w t (by decide) 0).trans hroot) ?_), f_sf_same _ _ _ _, out_upTo s.w t⟩
    rwa [side_upTo]
  · obtain ⟨hnode, hnum, hout, hkeep⟩ := enumIn_node ((fb_upTo s.w t (by decide) 0).trans hroot) h
    exact ⟨_, enum_next hon rfl, hnode, hnum, by rw [hout, out_upTo], hkeep⟩
  · obtain ⟨hover, hnum, hout, hkeep⟩ := enumIn_over ((fb_upTo s.w t (by decide) 0).trans hroot) h
    exact ⟨_, enum_next hon rfl, hover, hnum, by rw [hout, out_upTo], hkeep⟩
  · exact show execBypass bits s = _ from onW_next rfl
  · exact show execIdcode s = _ from onW_next rfl
  · exact show execSamplePreload balls bits s = _ from onW_next rfl

end Sys2Proof.Machine

/-! Hint pins, templates, reservations, decisions and outcomes of forecasts (R107 to R137). -/

namespace Sys2Proof.Machine

/-! ### Hint pins (R112 to R114, R458) -/

theorem hintEdge_next {s : State} {p t : Nat} {rising : Bool} (hon : (s.w.upTo t).on 8 = true) (hp : p < 16) {v : World}
    (hv : (s.w.upTo t).hintEdge p rising = v) : exec (.hintEdge p rising t) s = .next (s.withW v) := by
  have hgo : ((s.w.upTo t).on 8 && decide (p < 16)) = true := by
    rw [hon, decide_eq_true hp]
    rfl
  change execHintEdge p rising t s = _
  exact onW_next ((if_pos hgo).trans hv)

/-- An edge closer than 8 ns to the pin's last merges into it. -/
theorem hintEdge_merged {w : World} {p a : Nat} {rising : Bool} (ha : mget 0 w.pins.hintSeen p = a + 1) (h : w.tb < a + 8) :
    w.hintEdge p rising = w.inc F.HINT_CNT_IGNORED p := by
  unfold World.hintEdge
  rw [ha]
  exact if_pos (decide_eq_true h)

theorem hintEdge_seen {w v : World} {p : Nat} {rising : Bool} (h : ∀ a, mget 0 w.pins.hintSeen p = a + 1 → a + 8 ≤ w.tb)
    (hv : v = { w with pins := { w.pins with hintSeen := mset 0 w.pins.hintSeen p (w.tb + 1) } }) :
    w.hintEdge p rising = v.when ((w.f F.HINT_CFG_EDGE p).testBit (if rising then 0 else 1)) fun w => w.hint p := by
  subst hv
  unfold World.hintEdge
  cases hseen : mget 0 w.pins.hintSeen p with
  | zero => rfl
  | succ a => exact if_neg fun hlate => absurd (of_decide_eq_true hlate) (Nat.not_lt.mpr (h a hseen))

/-- A selected edge that is not held off becomes its template's forecast, or is refused. -/
theorem hint_selected {w : World} {p tpl r : Nat} (htpl : tpl = w.f F.HINT_CFG_TPL p) (hr : r = w.f F.FC_TPLA_RAIL tpl) (hon : w.hintsOn = true)
    (hpin : w.fb F.HINT_CFG_EN p = true) (hen : w.fb F.FC_TPLA_EN tpl = true) (hfree : w.heldOff p = false) :
    w.hint p = if (w.pulse (0x0B0 + p)).hintOk r (w.template tpl w.tb) then (w.pulse (0x0B0 + p)).hintAccept p tpl r (w.template tpl w.tb)
      else ((w.pulse (0x0B0 + p)).incSat F.FC_TSTAT_REFUSE_REFUSE tpl).sf F.FC_ERR_REFUSED 0 1 := by
  subst htpl hr
  have hgo : ¬ (!(w.pulse (0x0B0 + p)).hintsOn || !(w.pulse (0x0B0 + p)).fb F.HINT_CFG_EN p
      || !(w.pulse (0x0B0 + p)).fb F.FC_TPLA_EN (w.f F.HINT_CFG_TPL p) || (w.pulse (0x0B0 + p)).heldOff p) = true := by
    rw [show (w.pulse (0x0B0 + p)).hintsOn = true from hon, show (w.pulse (0x0B0 + p)).fb F.HINT_CFG_EN p = true from hpin,
      show (w.pulse (0x0B0 + p)).fb F.FC_TPLA_EN (w.f F.HINT_CFG_TPL p) = true from hen, show (w.pulse (0x0B0 + p)).heldOff p = false from hfree]
    decide
  unfold World.hint
  dsimp only
  rw [if_neg hgo]
  rfl

/-! ### Templates (R107, R115, R137) -/

theorem fcTplWrite_next {s : State} {t x v : Nat} (hon : s.w.on 8 = true) (ht : t < 32) (hx : x < 7) {u : World} (hu : s.w.writeTpl t x v = u) :
    exec (.fcTplWrite t x v) s = .next (s.withW u) := by
  change execFcTplWrite t x v s = _
  exact onW_next ((if_pos ⟨hon, ht, hx⟩).trans hu)

theorem writeTpl_disabled {w : World} {t x v : Nat} (hen : w.f F.FC_TPLA_EN t = 0) :
    w.writeTpl t x v = if w.tplBad x v then w.sf F.FC_ERR_BADVAL 0 1 else w.putRW (tplReg x) t v := by
  unfold World.writeTpl
  rw [fb_of_zero hen, if_neg Bool.false_ne_true]

theorem writeTpl_busy {w : World} {t x v : Nat} (hen : w.f F.FC_TPLA_EN t ≠ 0) (hx : x ≠ 0) : w.writeTpl t x v = w.sf F.FC_ERR_TPLBUSY 0 1 := by
  have hon : w.fb F.FC_TPLA_EN t = true := bne_iff_ne.mpr hen
  unfold World.writeTpl
  rw [if_pos hon, if_neg hx]

theorem statClear_spec (w : World) :
    (∀ t < 32, w.statClear.f F.FC_TSTAT_HIT_HIT t = 0 ∧ w.statClear.f F.FC_TSTAT_MISS_MISS t = 0 ∧ w.statClear.f F.FC_TSTAT_ABORT_ABORT t = 0
      ∧ w.statClear.f F.FC_TSTAT_REFUSE_REFUSE t = 0)
    ∧ Keeps [F.FC_TSTAT_HIT_HIT.id, F.FC_TSTAT_MISS_MISS.id, F.FC_TSTAT_ABORT_ABORT.id, F.FC_TSTAT_REFUSE_REFUSE.id] w w.statClear := by
  refine ⟨fun t ht => ?_, keeps_statClear _ w⟩
  have hzero := fun G hG => zero_statClear G hG t (List.range 32) w (.inl (List.mem_range.mpr ht))
  exact ⟨hzero _ (.inl rfl), hzero _ (.inr (.inl rfl)), hzero _ (.inr (.inr (.inl rfl))), hzero _ (.inr (.inr (.inr rfl)))⟩

/-- Settles O14: an edge merges, is left aside or acts, and a template's write is taken or refused. -/
theorem hintEdgesAndTemplatesTakeEffect : Obligations.HintEdgesAndTemplatesTakeEffect := by
  unfold Obligations.HintEdgesAndTemplatesTakeEffect
  refine ⟨?_, ?_, fun w p tpl r => hint_selected, fun s k h => ?_, fun s k h => ?_, fun s t x v hon ht hx => ⟨fun hen hok => ?_, fun hen hbad => ?_, fun hen hx0 => ?_⟩,
    fun s hon => ?_⟩
  · rintro s w p a t rising rfl hon hp ha h
    exact hintEdge_next hon hp (hintEdge_merged ha h)
  · rintro s w v p t rising rfl hon hp hold hv
    have hrow := hintEdge_next hon hp (hintEdge_seen (rising := rising) hold hv)
    exact ⟨fun hsel => hrow.trans (by rw [hsel]; rfl), fun hsel => hrow.trans (by rw [hsel]; rfl)⟩
  · exact show execHackPulseEnd k s = _ from onW_next (if_neg (Nat.not_lt.mpr h))
  · exact show execHackPulseEnd k s = _ from onW_next (if_pos h)
  · exact fcTplWrite_next hon ht hx ((writeTpl_disabled hen).trans (if_neg (Bool.eq_false_iff.mp hok)))
  · exact fcTplWrite_next hon ht hx ((writeTpl_disabled hen).trans (if_pos hbad))
  · exact fcTplWrite_next hon ht hx (writeTpl_busy hen hx0)
  · exact ⟨_, onW_next (if_pos hon), statClear_spec s.w⟩

/-! ### Reservations and pre-cool requests (R120, R132, R263) -/

theorem reservationAnswer_next {s : State} {i : Nat} (h : s.w.firstAsked (s.w.fc i).rail = some i) {v : World} (hv : s.w.answer i = v) :
    exec (.reservationAnswer i) s = .next (s.withW v) := by
  change execReservationAnswer i s = _
  exact onW_next ((if_pos h).trans hv)

theorem answer_refused {w : World} {i : Nat} (h : w.grantOf i = none) : w.answer i = w.setFc i { w.fc i with res := .refused } := by
  unfold World.answer
  rw [h]

/-- A grant is held at once; one below the step asked for is counted. -/
theorem answer_granted {w : World} {i : Nat} {g : Int} (h : w.grantOf i = some g) {v : World} (hv : v = w.answer i) :
    (v.fc i).res = .granted ∧ (v.fc i).grant = g ∧ (v.fc i).held = (w.fc i).energy g.natAbs (w.fc i).time2
    ∧ v.f F.EL_RSTAT_CAPN (w.fc i).rail % 2 ^ F.EL_RSTAT_CAPN.wd
      = (w.f F.EL_RSTAT_CAPN (w.fc i).rail + if g = (w.fc i).step then 0 else 1) % 2 ^ F.EL_RSTAT_CAPN.wd
    ∧ Keeps [F.EL_RSTAT_CAPN.id] w v := by
  obtain ⟨u, hu, hfc, hregs⟩ : ∃ u : World, v = u.when (g != (w.fc i).step) (fun x => x.inc F.EL_RSTAT_CAPN (w.fc i).rail)
      ∧ u.fc i = { w.fc i with res := .granted, grant := g, held := (w.fc i).energy g.natAbs (w.fc i).time2 } ∧ u.regs = w.regs := by
    refine ⟨w.setFc i { w.fc i with res := .granted, grant := g, held := (w.fc i).energy g.natAbs (w.fc i).time2 }, ?_, fc_setFc w i _, rfl⟩
    rw [hv]
    unfold World.answer
    rw [h]
  have hkeep : Keeps [] w u := (Keeps.refl _ w).regs hregs
  have hcapn := hkeep.f (G := F.EL_RSTAT_CAPN) (by decide) (w.fc i).rail
  rw [hu]
  unfold World.when
  by_cases hg : g = (w.fc i).step
  · rw [if_neg (by simpa using hg), if_pos hg, hcapn]
    exact ⟨congrArg Fc.res hfc, congrArg Fc.grant hfc, congrArg Fc.held hfc, rfl, hkeep.mono (by decide)⟩
  · rw [if_pos (bne_iff_ne.mpr hg), if_neg hg]
    refine ⟨congrArg Fc.res hfc, congrArg Fc.grant hfc, congrArg Fc.held hfc, ?_, (hkeep.mono (by decide)).inc (by decide)⟩
    exact (congrArg (· % 2 ^ F.EL_RSTAT_CAPN.wd) (f_sf_same _ _ _ _)).trans (by rw [Nat.mod_mod, hcapn])

theorem precoolRequest_next {s : State} {i : Nat} (hpc : (s.w.fc i).pcen = true) (hb : (s.w.fc i).boosted = false) (h1 : (s.w.fc i).st ≠ .free)
    (h2 : (s.w.fc i).st ≠ .passive) (hdue : (s.w.fc i).start ≤ s.w.tb + 1000000 * (s.w.fc i).pclead) {v : World} (hv : s.w.openBoost i = v) :
    exec (.precoolRequest i) s = .next (s.withW v) := by
  have hgo : s.w.precoolDue i = true := by
    unfold World.precoolDue
    dsimp only
    rw [hpc, hb, bne_iff_ne.mpr h1, bne_iff_ne.mpr h2, decide_eq_true hdue]
    rfl
  change execPrecoolRequest i s = _
  exact onW_next ((if_pos hgo).trans hv)

/-- A pre-cool request opens its boost on an enabled channel only. -/
theorem openBoost_eq {w v : World} {i : Nat} (hv : v = w.setFc i { w.fc i with boosted := true }) (hl : (w.fc i).pclvl ≠ 0) :
    w.openBoost i = if !w.fb F.PD_CFG_EN (w.fc i).pcch then v.sf F.PD_ERR_BOOSTOFF (w.fc i).pcch 1
      else World.showBoost { v with boosts := v.boosts ++ [⟨(w.fc i).pcch, (w.fc i).pclvl, some i, none⟩] } (w.fc i).pcch := by
  subst hv
  exact if_neg hl

/-! ### Decisions and outcomes (R121, R131, R134) -/

theorem fcStep_decided {w : World} {i d : Nat} {x y : Int} {b : Bool} (hst : (w.fc i).st = .run ∨ (w.fc i).st = .matched)
    (hd : (w.fc i).decision = some b) :
    w.fcStep i x y d = if (w.fc i).acc then (if b then w.commitFc i else w.startRollback (w.fc i).rail i (w.fc i).why .elder) else w := by
  have hact : w.actDecided i = if (w.fc i).acc then (if b then w.commitFc i else w.startRollback (w.fc i).rail i (w.fc i).why .elder) else w := by
    unfold World.actDecided
    dsimp only
    rw [hd]
    cases (w.fc i).acc <;> simp
  unfold World.fcStep
  rcases hst with hst | hst
  · simp only [hst, hd]
    exact hact
  · simp only [hst, hd]
    exact hact

theorem releaseOne_first {w : World} {r : Nat} {o : Outcome} (h : (w.intent r).outq.find? (fun o => o.fseq == (w.intent r).relSeq % 65536) = some o) :
    w.releaseOne r = ((w.setIntent r { w.intent r with
      outq := (w.intent r).outq.filter (fun x => x.fseq != o.fseq), relSeq := ((w.intent r).relSeq + 1) % 65536 }).sf
        F.FC_RSTAT_LASTOUT r o.out).record 2 r o.bytes := by
  unfold World.releaseOne
  dsimp only
  rw [h]

/-- Settles O15: each row is the forecast's own operation, in the case that its condition selects. -/
theorem reservationsAndDecisionsTakeEffect : Obligations.ReservationsAndDecisionsTakeEffect := by
  unfold Obligations.ReservationsAndDecisionsTakeEffect
  refine ⟨fun s i hst hres hdue => ?_, fun s i h => ⟨fun hg => ?_, fun g hg => ?_⟩, fun s i w hpc hb h1 h2 hdue hw hl => ⟨fun hen => ?_, fun hen => ?_⟩,
    fun s i hd => ?_, fun w i d x y b hst hd => fcStep_decided hst hd, fun s r o h => ?_⟩
  · exact show execReservationRequest i s = _ from onW_next (if_pos ⟨hst, hres, hdue⟩)
  · exact reservationAnswer_next h (answer_refused hg)
  · exact ⟨_, reservationAnswer_next h rfl, answer_granted hg rfl⟩
  · refine precoolRequest_next hpc hb h1 h2 hdue ((openBoost_eq hw hl).trans ?_)
    rw [fb_of_zero hen]
    rfl
  · refine precoolRequest_next hpc hb h1 h2 hdue ((openBoost_eq hw hl).trans ?_)
    rw [show s.w.fb F.PD_CFG_EN (s.w.fc i).pcch = true from bne_iff_ne.mpr hen]
    rfl
  · refine show execDecisionMessageAccept i s = _ from onW_next (if_neg ?_)
    rwa [Option.isNone_iff_eq_none]
  · exact show execOutcomeRelease r s = _ from onW_next (releaseOne_first h)

end Sys2Proof.Machine

/-! The edges of bound phases (R144 to R157). -/

namespace Sys2Proof.Machine

/-! ### Levels at the ball (R153, R154) -/

theorem railOf_live {w v : World} (h : v.live = w.live) (p : Nat) : v.railOf p = w.railOf p := by
  unfold World.railOf World.lf
  rw [h]

theorem ball_active {w : World} {p r x : Nat} (hr : w.railOf p = some r) (hs : w.phSt p = phActive) : w.ball p x = w.switchLvl r p x := by
  unfold World.ball
  rw [hr]
  exact if_pos (.inl hs)

theorem ball_high {w : World} {p r x : Nat} (hr : w.railOf p = some r) (hs : w.phSt p = phActive) (hhi : (w.phase p).hi = true)
    (hon : (w.phase p).onAt ≤ x) (hoff : x < (w.phase p).offAt) : (w.ball p x).1 = lvHigh := by
  rw [ball_active hr hs]
  unfold World.switchLvl
  dsimp only
  rw [hhi, decide_eq_true hon, decide_eq_true hoff]
  rfl

/-- After an off edge the ball is mid for DT_HL. -/
theorem ball_dead {w : World} {p r x : Nat} (hr : w.railOf p = some r) (hs : w.phSt p = phActive) (hhi : (w.phase p).hi = false)
    (hdem : (w.phase p).dem = false) (hx : x < (w.phase p).lastOff + (w.phase p).dtHl) : (w.ball p x).1 = lvMid := by
  rw [ball_active hr hs]
  unfold World.switchLvl
  dsimp only
  rw [hhi, hdem, if_pos hx]
  rfl

/-- Diode emulation turns a low ball to mid. -/
theorem lvl_emulated {w : World} {p r : Nat} (hr : w.railOf p = some r) (hs : w.phSt p = phActive) (hlow : w.lvl p = lvLow) :
    (w.setPhase p { w.phase p with dem := true, demAt := w.clk.tbq }).lvl p = lvMid := by
  have hnot : ¬ ((w.phase p).hi && decide ((w.phase p).onAt ≤ w.clk.tbq) && decide (w.clk.tbq < (w.phase p).offAt)) = true := by
    intro hhigh
    unfold World.lvl at hlow
    rw [ball_active hr hs] at hlow
    unfold World.switchLvl at hlow
    rw [if_pos hhigh] at hlow
    exact absurd hlow (by decide)
  have hphase := phase_setPhase w p { w.phase p with dem := true, demAt := w.clk.tbq }
  generalize hv : w.setPhase p { w.phase p with dem := true, demAt := w.clk.tbq } = v at hphase ⊢
  have hclk : v.clk = w.clk := hv ▸ rfl
  have hrail : v.railOf p = some r := hv ▸ hr
  have hst : v.phSt p = phActive := hv ▸ hs
  unfold World.lvl
  rw [ball_active hrail hst]
  unfold World.switchLvl
  rw [hphase, hclk]
  dsimp only
  rw [if_neg hnot]
  split
  · rfl
  · rw [if_pos (by simp)]

/-! ### Cycle starts (R144, R149, R151, R157) -/

theorem settle_empty {w : World} {p lim : Nat} (h : (w.phase p).loads = []) : w.settle p lim = w := by
  unfold World.settle
  rw [h]
  cases w.railOf p with
  | none => rfl
  | some r => rfl

theorem offIfDue_low {w : World} {r p t : Nat} (h : (w.phase p).hi = false) : w.offIfDue r p t = w := by
  refine if_neg fun ⟨hhi, _⟩ => ?_
  rw [h] at hhi
  cases hhi

/-- A cycle that begins changes the phase, its duty word and its LIM bit. -/
theorem lim_live (w : World) (p : Nat) (b : Bool) : (w.lim p b).live = w.live := by
  unfold World.lim World.when
  split
  · rfl
  · rfl

theorem beginCycle_shape (w : World) (r p cs : Nat) : ∃ u q, w.beginCycle r p cs = World.setPhase u p q
    ∧ u.live = w.live ∧ q.onAt = w.onLimit r (w.phase p) (w.natOn r cs (w.phase p)) := by
  unfold World.beginCycle
  dsimp only
  generalize limitOff _ _ _ _ _ = edge
  obtain ⟨off, l⟩ := edge
  exact ⟨_, _, rfl, lim_live w p _, rfl⟩

/-- A bound phase that begins a cycle is high from its on edge to its off edge. -/
theorem beginCycle_active {w : World} {r p cs : Nat} (hr : w.railOf p = some r) (hs : w.phSt p = phActive) {v : World} (hv : v = w.beginCycle r p cs) :
    v.phSt p = phActive ∧ v.f F.PW_EDGE_DUTY p = (w.phase p).word % 2 ^ 24 ∧ (v.phase p).hi = true
    ∧ (v.phase p).onAt = w.onLimit r (w.phase p) (w.natOn r cs (w.phase p))
    ∧ (∀ x, (v.phase p).onAt ≤ x → x < (v.phase p).offAt → (v.ball p x).1 = lvHigh)
    ∧ Keeps [F.PW_PHSTAT_LIM.id, F.PW_EDGE_DUTY.id] w v := by
  obtain ⟨hhi, -, hduty, hkeep⟩ := beginCycle_spec w r p cs
  obtain ⟨u, q, hq, hlive, hon⟩ := beginCycle_shape w r p cs
  rw [← hv] at hhi hduty hkeep hq
  have hst : v.phSt p = phActive := (hkeep.f (by decide) p).trans hs
  have hrail : v.railOf p = some r := (railOf_live (by rw [hq]; exact hlive) p).trans hr
  refine ⟨hst, hduty, hhi, ?_, fun x => ball_high hrail hst hhi, hkeep⟩
  rw [hq, phase_setPhase]
  exact hon

theorem cycleStart_waits {w : World} {p r : Nat} (hr : w.railOf p = some r) (h : w.clk.tbq < (w.phase p).nextStart) : w.cycleStart p = w := by
  unfold World.cycleStart
  rw [hr]
  exact if_neg (Nat.not_le.mpr h)

theorem endAuto_setPhase_sf (w : World) (p : Nat) (q : Ph) (F : Fld) (v src : Nat) :
    ((w.setPhase p q).sf F p v).endAuto p src = (w.setPhase p { q with kills := q.kills.map (Kill.endAt src w.clk.tbq) }).sf F p v := by
  have hphase : ((w.setPhase p q).sf F p v).phase p = q := phase_setPhase w p q
  unfold World.endAuto
  rw [hphase]
  exact congrArg (fun ph => World.sf { w with ph := ph } F p v) (mset_mset {} w.ph p _ _)

section
variable {w : World} {p r : Nat} (hr : w.railOf p = some r) (hc : w.cot r = false) (hl : (w.phase p).loads = []) (hhi : (w.phase p).hi = false)
  (hdue : (w.phase p).nextStart ≤ w.clk.tbq)
include hr hc hl hhi hdue

/-- The first cycle start of a booted phase. -/
theorem cycleStart_boot (hs : w.phSt p = phBoot) : w.cycleStart p = (w.setPhSt p phActive).beginCycle r p (w.phase p).nextStart := by
  have hc' : (w.setPhSt p phActive).cot r = false := hc
  unfold World.cycleStart
  rw [hr]
  dsimp only
  rw [if_pos hdue]
  unfold World.cycleAt
  dsimp only
  rw [settle_empty hl, offIfDue_low hhi, if_pos hs, hc', if_neg Bool.false_ne_true]

/-- A later cycle start of an ACTIVE phase: the run of limited cycles is over. -/
theorem cycleStart_active (hs : w.phSt p = phActive) (hf : (w.phase p).forced = false) : ∃ q : Ph,
    w.cycleStart p = ((w.setPhase p q).sf F.PROT_PSTAT_LRUN p 0).beginCycle r p (w.phase p).nextStart
    ∧ q.word = (w.phase p).word ∧ q.wordAt = (w.phase p).wordAt ∧ q.lastOff = (w.phase p).lastOff ∧ q.dtHl = (w.phase p).dtHl := by
  have hend : w.cycleEnd r p = (w.setPhase p { w.phase p with lrun := 0, kills := (w.phase p).kills.map (Kill.endAt 1 w.clk.tbq) }).sf
      F.PROT_PSTAT_LRUN p 0 := by
    unfold World.cycleEnd
    dsimp only
    rw [if_neg (by rw [hf]; exact Bool.false_ne_true)]
    exact endAuto_setPhase_sf w p { w.phase p with lrun := 0 } F.PROT_PSTAT_LRUN 0 1
  have hgo : (w.cycleEnd r p).phSt p = phActive ∧ (!(w.cycleEnd r p).cot r) = true := by
    rw [hend]
    refine ⟨(f_sf_ne _ _ _ _ (by decide)).trans hs, ?_⟩
    have hcot : (((w.setPhase p { w.phase p with lrun := 0, kills := (w.phase p).kills.map (Kill.endAt 1 w.clk.tbq) }).sf
        F.PROT_PSTAT_LRUN p 0).cot r) = false := hc
    exact congrArg Bool.not hcot
  refine ⟨{ w.phase p with lrun := 0, kills := (w.phase p).kills.map (Kill.endAt 1 w.clk.tbq) }, ?_, rfl, rfl, rfl, rfl⟩
  · unfold World.cycleStart
    rw [hr]
    dsimp only
    rw [if_pos hdue]
    unfold World.cycleAt
    dsimp only
    rw [settle_empty hl, offIfDue_low hhi, if_neg (by rw [hs]; decide), if_pos hs, if_pos hgo, hend]

/-- A cycle start makes the phase ACTIVE and high from its on edge to its off edge. -/
theorem cycleStart_spec (hs : w.phSt p = phBoot ∨ w.phSt p = phActive ∧ (w.phase p).forced = false) {v : World} (hv : v = w.cycleStart p) :
    v.phSt p = phActive ∧ v.f F.PW_EDGE_DUTY p = (w.phase p).word % 2 ^ 24 ∧ (v.phase p).hi = true
    ∧ (v.phase p).onAt = w.onLimit r (w.phase p) (w.natOn r (w.phase p).nextStart (w.phase p))
    ∧ (∀ x, (v.phase p).onAt ≤ x → x < (v.phase p).offAt → (v.ball p x).1 = lvHigh)
    ∧ (w.phSt p = phActive → v.f F.PROT_PSTAT_LRUN p = 0) := by
  rcases hs with hs | ⟨hs, hf⟩
  · have hrail : (w.setPhSt p phActive).railOf p = some r := hr
    obtain ⟨hst, hduty, hhigh, hon, hball, -⟩ := beginCycle_active hrail (f_sf_same _ _ _ _) (hv.trans (cycleStart_boot hr hc hl hhi hdue hs))
    refine ⟨hst, hduty, hhigh, hon, hball, fun hact => ?_⟩
    rw [hs] at hact
    exact absurd hact (by decide)
  · obtain ⟨q, hq, hword, hwordAt, hoff, hdt⟩ := cycleStart_active hr hc hl hhi hdue hs hf
    have hphase : ((w.setPhase p q).sf F.PROT_PSTAT_LRUN p 0).phase p = q := phase_setPhase w p q
    have hrail : ((w.setPhase p q).sf F.PROT_PSTAT_LRUN p 0).railOf p = some r := hr
    obtain ⟨hst, hduty, hhigh, hon, hball, hkeep⟩ := beginCycle_active hrail ((f_sf_ne _ _ _ _ (by decide)).trans hs) (hv.trans hq)
    rw [hphase] at hduty hon
    refine ⟨hst, by rw [hduty, hword], hhigh, hon.trans ?_, hball, fun _ => (hkeep.f (by decide) p).trans (f_sf_same _ _ _ _)⟩
    unfold World.onLimit World.natOn
    rw [hword, hwordAt, hoff, hdt]
    rfl
end

/-! ### Off edges (R146, R153) -/

/-- An off edge that is due leaves the ball mid for DT_HL. -/
theorem offPoint_spec {w : World} {p r : Nat} (hr : w.railOf p = some r) (hl : (w.phase p).loads = []) (hhi : (w.phase p).hi = true)
    (hdue : (w.phase p).offAt ≤ w.clk.tbq) {v : World} (hv : v = w.offPoint p) :
    (v.phase p).hi = false ∧ (v.phase p).lastOff = (w.phase p).offAt ∧ v.f F.PW_PHSTAT_DTNOW p = satU 8 (w.dtHl r (w.cur p) / 4) % 2 ^ 8
    ∧ (w.phSt p = phActive → ∀ x, (w.phase p).offAt ≤ x → x < (w.phase p).offAt + w.dtHl r (w.cur p) → (v.ball p x).1 = lvMid)
    ∧ Keeps [F.PW_PHSTAT_DTNOW.id] w v := by
  have hstep : v = w.offEdge r p (w.phase p).offAt := by
    rw [hv]
    unfold World.offPoint World.settled
    rw [hr]
    dsimp only
    rw [settle_empty hl]
    exact if_pos ⟨hhi, hdue⟩
  obtain ⟨q, hq, hqhi, hqdem, hqoff, hqdt⟩ : ∃ q : Ph, v = (w.sf F.PW_PHSTAT_DTNOW p (satU 8 (w.dtHl r (w.cur p) / 4))).setPhase p q
      ∧ q.hi = false ∧ q.dem = false ∧ q.lastOff = (w.phase p).offAt ∧ q.dtHl = w.dtHl r (w.cur p) := ⟨_, hstep, rfl, rfl, rfl, rfl⟩
  have hphase : v.phase p = q := hq ▸ phase_setPhase _ p q
  have hkeep : Keeps [F.PW_PHSTAT_DTNOW.id] w v := hq ▸ ((Keeps.refl _ w).sf (by decide)).setPhase
  have hrail : v.railOf p = some r := hq ▸ hr
  refine ⟨hphase ▸ hqhi, hphase ▸ hqoff, ?_, fun hs x _ hx => ?_, hkeep⟩
  · rw [hq]
    exact f_sf_same _ _ _ _
  · refine ball_dead hrail ((hkeep.f (by decide) p).trans hs) (hphase ▸ hqhi) (hphase ▸ hqdem) ?_
    rw [hphase, hqoff, hqdt]
    exact hx

theorem offPoint_waits {w : World} {p r : Nat} (hr : w.railOf p = some r) (hl : (w.phase p).loads = []) (h : w.clk.tbq < (w.phase p).offAt) :
    w.offPoint p = w := by
  unfold World.offPoint World.settled
  rw [hr]
  dsimp only
  rw [settle_empty hl]
  exact if_neg fun ⟨_, hdue⟩ => Nat.not_lt.mpr hdue h

/-! ### Zero crossings and the end of SHED (R154, R157) -/

theorem zeroCross_shed {w : World} {r p : Nat} {i : Int} (hi : i ≤ w.lfs F.PW_ZC_ZCTHR r) (hs : w.phSt p = phShed) :
    w.zeroCross r p i = w.force p phOff lvMid := by
  unfold World.zeroCross
  rw [if_neg (Int.not_lt.mpr hi), if_pos hs]

theorem zeroCross_emulated {w : World} {r p : Nat} {i : Int} (hi : i ≤ w.lfs F.PW_ZC_ZCTHR r) (hde : w.lf F.PW_RAILCFG_DE r = 1)
    (hs : w.phSt p = phActive) (hlow : w.lvl p = lvLow) :
    w.zeroCross r p i = w.setPhase p { w.phase p with dem := true, demAt := w.clk.tbq } := by
  unfold World.zeroCross
  rw [if_neg (Int.not_lt.mpr hi), if_neg (by rw [hs]; decide), if_pos ⟨hde, hs, hlow⟩]

theorem takeCode_reads {w u : World} {p : Nat} {code i : Int} (h : w.takeCode p code = (u, i)) :
    u.railOf p = w.railOf p ∧ u.phSt p = w.phSt p := by
  have hu : u = (w.takeCode p code).1 := by rw [h]
  obtain ⟨g, q, hshape⟩ := takeCode_shape w p code
  have hkeep := Keeps.takeCode (Keeps.refl [F.ICC_ERR_CLIP.id, F.PCC_ERR_CLIP.id, F.ICC_ERR_SAT.id, F.PCC_ERR_SAT.id] w) (p := p) (x := code) (by decide)
  refine ⟨railOf_live ?_ p, ?_⟩
  · rw [hu, hshape]
  · rw [hu]
    exact hkeep.f (by decide) p

/-- Settles O16: each edge is the phase's operation at its time, and nothing before it. -/
theorem pwmEdgesHappen : Obligations.PwmEdgesHappen := by
  unfold Obligations.PwmEdgesHappen
  refine ⟨?_, ?_, ?_, ?_, fun w p => ⟨?_, ?_⟩, fun s p move h => ?_⟩
  · rintro s p r t cs w h rfl hr hc rfl hl hhi rfl hs
    refine ⟨fun hdue => ?_, fun hlate => ?_⟩
    · obtain ⟨hst, hduty, hhigh, hon, hball, hrun⟩ := cycleStart_spec hr hc hl hhi hdue hs rfl
      exact ⟨_, show execPwmCycleStart p t s = _ from onW_next rfl, hst, hduty, hhigh, hon, hball, hrun⟩
    · exact show execPwmCycleStart p t s = _ from onW_next (cycleStart_waits hr hlate)
  · rintro s p r t w h rfl hr rfl hl hhi
    refine ⟨fun hdue => ⟨_, show execPwmOffEdge p t s = _ from onW_next rfl, offPoint_spec hr hl hhi hdue rfl⟩, fun hlate => ?_⟩
    exact show execPwmOffEdge p t s = _ from onW_next (offPoint_waits hr hl hlate)
  · rintro s p r t code i w u rfl hcode hr hde hs hlow hi
    refine ⟨_, show execZeroCrossMid p code s t = _ from onW_next ?_, rfl, lvl_emulated hr hs hlow⟩
    dsimp only
    rw [hcode]
    dsimp only
    rw [hr]
    dsimp only
    rw [if_pos hs]
    exact zeroCross_emulated hi hde hs hlow
  · rintro s p r t w rfl hr hs
    refine ⟨fun hend => ?_, fun code u i hcode hi => ?_⟩
    · refine show execShedEnd p none s t = _ from onW_next ?_
      dsimp only
      rw [hr]
      exact if_pos ⟨hs, hend⟩
    · obtain ⟨hrail, hst⟩ := takeCode_reads hcode
      refine show execShedEnd p (some code) s t = _ from onW_next ?_
      dsimp only
      rw [hcode]
      dsimp only
      rw [hrail.trans hr]
      dsimp only
      rw [if_pos (hst.trans hs)]
      exact zeroCross_shed hi (hst.trans hs)
  · change ((w.setPhSt p phOff).sf F.PW_EDGE_LVL p lvMid).phSt p = phOff
    exact (f_sf_ne _ _ _ _ (by decide)).trans (f_sf_same _ _ _ _)
  · change ((w.setPhSt p phOff).sf F.PW_EDGE_LVL p lvMid).f F.PW_EDGE_LVL p = lvMid
    exact f_sf_same _ _ _ _
  · exact show execDllRelockStep p move s = _ from onW_next (if_pos h)

end Sys2Proof.Machine

/-! Trace units and the trace memory (R420 to R427). -/

namespace Sys2Proof.Machine

theorem onM_withW {s : State} {f : Mem → World → Mem × World} {v : World} (h : f s.mem s.w = (s.mem, v)) : onM s f = .next (s.withW v) :=
  onM_next h

theorem Keeps.setTrc {l : List Nat} {a b : World} (h : Keeps l a b) {u : Nat} {t : Trc} : Keeps l a (b.setTrc u t) := h.regs rfl

/-! ### Arms (R422) -/

/-- The unit with its counts, times and flags cleared, before the arm shows its state. -/
def World.trCleared (w : World) (u : Nat) : World :=
  ((((((((w.sf F.TR_SEQ_SEQ u 0).sf F.TR_DROP_DROPPED u 0).sf F.TR_TRIGSEQ_SEQ u 0xFFFFFFFF).sf F.TR_FIRSTSEQ_SEQ u 0).sf
    F.TR_TRIGTB_LO_T_LO u 0).sf F.TR_TRIGTB_HI_T_HI u 0).sf F.TR_STAT_SHORTPRE u 0).sf F.TR_STAT_STOPPED u 0).setTrc u {}

theorem trArm_clears {w : World} {u : Nat} (hr : w.trRuns u = false) (hb : w.armBad u = []) : w.trArm u =
    if (w.trCleared u).fb F.TR_CFG_MODE u then ((w.trCleared u).sf F.TR_RDSEQ_SEQ u 0).sf F.TR_STAT_STATE u 4
    else (w.trCleared u).sf F.TR_STAT_STATE u 1 := by
  unfold World.trArm
  rw [hr, if_neg Bool.false_ne_true, hb]
  rfl

theorem trCleared_spec (w : World) (u : Nat) : (w.trCleared u).f F.TR_SEQ_SEQ u = 0 ∧ (w.trCleared u).f F.TR_DROP_DROPPED u = 0
    ∧ Keeps [F.TR_SEQ_SEQ.id, F.TR_DROP_DROPPED.id, F.TR_TRIGSEQ_SEQ.id, F.TR_FIRSTSEQ_SEQ.id, F.TR_TRIGTB_LO_T_LO.id,
        F.TR_TRIGTB_HI_T_HI.id, F.TR_STAT_SHORTPRE.id, F.TR_STAT_STOPPED.id] w (w.trCleared u) := by
  have hhead : Keeps [F.TR_SEQ_SEQ.id, F.TR_DROP_DROPPED.id] w ((w.sf F.TR_SEQ_SEQ u 0).sf F.TR_DROP_DROPPED u 0) :=
    ((Keeps.refl _ w).sf (by decide)).sf (by decide)
  have htail : Keeps [F.TR_TRIGSEQ_SEQ.id, F.TR_FIRSTSEQ_SEQ.id, F.TR_TRIGTB_LO_T_LO.id, F.TR_TRIGTB_HI_T_HI.id, F.TR_STAT_SHORTPRE.id,
      F.TR_STAT_STOPPED.id] ((w.sf F.TR_SEQ_SEQ u 0).sf F.TR_DROP_DROPPED u 0) (w.trCleared u) :=
    (((((((Keeps.refl _ _).sf (by decide)).sf (by decide)).sf (by decide)).sf (by decide)).sf (by decide)).sf (by decide)).setTrc
  refine ⟨?_, ?_, (hhead.mono (by decide)).trans (htail.mono (by decide))⟩
  · rw [htail.f (by decide), f_sf_ne _ _ _ _ (by decide), f_sf_same]
    rfl
  · rw [htail.f (by decide), f_sf_same]
    rfl

/-- An arm that nothing refuses starts the unit with empty counts. -/
theorem trArm_armed {w : World} {u : Nat} (hr : w.trRuns u = false) (hb : w.armBad u = []) :
    (w.trArm u).f F.TR_STAT_STATE u = (if w.f F.TR_CFG_MODE u ≠ 0 then 4 else 1) ∧ (w.trArm u).f F.TR_SEQ_SEQ u = 0
    ∧ (w.trArm u).f F.TR_DROP_DROPPED u = 0
    ∧ Keeps [F.TR_STAT_STATE.id, F.TR_SEQ_SEQ.id, F.TR_DROP_DROPPED.id, F.TR_TRIGSEQ_SEQ.id, F.TR_FIRSTSEQ_SEQ.id, F.TR_TRIGTB_LO_T_LO.id,
        F.TR_TRIGTB_HI_T_HI.id, F.TR_STAT_SHORTPRE.id, F.TR_STAT_STOPPED.id, F.TR_RDSEQ_SEQ.id] w (w.trArm u) := by
  obtain ⟨hseq, hdrop, hkeep⟩ := trCleared_spec w u
  have hmode : (w.trCleared u).f F.TR_CFG_MODE u = w.f F.TR_CFG_MODE u := hkeep.f (by decide) u
  rw [trArm_clears hr hb]
  by_cases hm : w.f F.TR_CFG_MODE u = 0
  · rw [fb_of_zero (hmode.trans hm), if_neg Bool.false_ne_true, if_neg (not_not_intro hm)]
    refine ⟨f_sf_same _ _ _ _, ?_, ?_, (hkeep.mono (by decide)).sf (by decide)⟩
    · rw [f_sf_ne _ _ _ _ (by decide), hseq]
    · rw [f_sf_ne _ _ _ _ (by decide), hdrop]
  · have hstream : (w.trCleared u).fb F.TR_CFG_MODE u = true := bne_iff_ne.mpr (hmode ▸ hm)
    rw [hstream, if_pos rfl, if_pos hm]
    refine ⟨f_sf_same _ _ _ _, ?_, ?_, ((hkeep.mono (by decide)).sf (by decide)).sf (by decide)⟩
    · rw [f_sf_ne _ _ _ _ (by decide), f_sf_ne _ _ _ _ (by decide), hseq]
    · rw [f_sf_ne _ _ _ _ (by decide), f_sf_ne _ _ _ _ (by decide), hdrop]

theorem trArm_refused {w : World} {u : Nat} (hr : w.trRuns u = false) (hb : w.armBad u ≠ []) :
    w.trArm u = (w.armBad u).foldl (fun w F => w.sf F u 1) w := by
  unfold World.trArm
  rw [hr, if_neg Bool.false_ne_true]
  dsimp only
  rw [if_pos (by rw [Bool.not_eq_true', List.isEmpty_eq_false_iff]; exact hb)]

theorem trArm_running {w : World} {u : Nat} (hr : w.trRuns u = true) : w.trArm u = w.sf F.TR_ERR_STATE u 1 := if_pos hr

theorem traceArm_next {s : State} {u : Nat} (hon : s.w.on 15 = true) (hu : u < 4) {v : World} (hv : s.w.trArm u = v) :
    exec (.traceArm u) s = .next (s.withW v) :=
  show execTraceArm u s = _ from onW_next ((if_pos ⟨hon, hu⟩).trans hv)

/-! ### Triggers (R422, R423) -/

theorem trTrigger_armed {w : World} {u : Nat} (h : w.trState u = 1) :
    w.trTrigger u = ((w.sf F.TR_STAT_STATE u 2).sf F.TR_TRIGTB_LO_T_LO u w.tb).sf F.TR_TRIGTB_HI_T_HI u (w.tb / 2 ^ 32) := if_pos h

theorem trTrigger_captured {w : World} {u : Nat} (h : 2 ≤ w.trState u) : w.trTrigger u = w.incSat F.TR_STAT_TRIGOVR u := by
  unfold World.trTrigger
  rw [if_neg (by omega), if_neg (by omega)]

theorem traceTrigger_direct {s : State} {u t : Nat} (hon : s.w.on 15 = true) (hu : u < 4) {v : World} (hv : (s.w.upTo t).trTrigger u = v) :
    exec (.traceTrigger u false t) s = .next (s.withW v) := by
  refine show execTraceTrigger u false t s = _ from onW_next ?_
  dsimp only
  rw [on_upTo, hon, decide_eq_true hu]
  exact hv

theorem traceTrigger_edge {s : State} {u t ch : Nat} {fall : Bool} (hon : s.w.on 15 = true) (hu : u < 4)
    (hen : (s.w.upTo t).fb F.TR_CFG_TRIGEN u = true) (hch : (s.w.upTo t).f F.TR_CFG_TRIGCH u = ch) (hfall : (s.w.upTo t).fb F.TR_CFG_TRIGFALL u = fall)
    (hfree : (s.w.upTo t).inputFree (704 + u) t) :
    exec (.traceTrigger u true t ch fall) s = .next (s.withW (((s.w.upTo t).inputTaken (704 + u) t).trTrigger u)) := by
  refine show execTraceTrigger u true t s ch fall = _ from onW_next ?_
  dsimp only
  rw [on_upTo, hon, decide_eq_true hu, hen, hch, hfall, beq_self_eq_true, beq_self_eq_true, input_free hfree]
  rfl

/-! ### Records (R420, R424) -/

theorem trGap_none {w : World} {u src : Nat} (h : (w.trc_ u).drops = []) (m : Mem) : w.trGap m u src = (m, w) := by
  unfold World.trGap
  rw [h]
  rfl

theorem trRoom_snapshot {w : World} {u : Nat} (h : w.trState u = 1) : w.trRoom u = true := by
  unfold World.trRoom
  rw [h]
  rfl

/-- A record of an ARMED unit is stored in its slot. -/
theorem trRecord_armed {w : World} {u : Nat} {r : TrRec} (hs : w.trState u = 1) (hen : w.f F.TR_SRC_EN (8 * u + r.k) ≠ 0)
    (hd : (w.trc_ u).drops = []) (m : Mem) : w.trRecord m u r = w.trPut m u fun s => trWords (w.f F.TR_SRC_SRC (8 * u + r.k))
      (4 * b2n r.clip + 8 * b2n (r.slotMask != 0)) (min 56 r.samples.length) s r.t 0 (r.slotMask % 256) (r.samples.map (· % 65536)) := by
  have hrun : (w.trRuns u && w.fb F.TR_SRC_EN (8 * u + r.k)) = true := by
    unfold World.trRuns World.fb
    rw [hs, bne_iff_ne.mpr hen]
    rfl
  have hput : (w.sf F.TR_SEQ_SEQ u (w.f F.TR_SEQ_SEQ u + 1)).trState u ≠ 2 := by
    unfold World.trState
    rw [f_sf_ne _ _ _ _ (by decide)]
    exact fun h => absurd (hs.symm.trans h) (by decide)
  unfold World.trRecord
  dsimp only
  rw [hrun, if_neg (by decide), trRoom_snapshot hs, if_pos rfl, trGap_none hd]
  dsimp only
  rw [trRoom_snapshot hs, if_neg (by decide), hs]
  simp only [show ¬ (1 : Nat) = 2 by decide, false_and, if_false, Option.isSome_none, show b2n false = 0 from rfl, Nat.mul_zero, Nat.zero_add]
  unfold World.trPut
  dsimp only
  rw [if_neg (fun ⟨h, _⟩ => hput h)]
  rfl

theorem trWords_length_le (src flags nsamp seq t idx mask : Nat) (samples : List Nat) :
    (trWords src flags nsamp seq t idx mask samples).length ≤ 64 := by
  unfold trWords
  rw [List.length_append, List.length_take]
  exact Nat.add_le_add_left (Nat.min_le_left 56 _) 8

theorem traceRecordWrite_next {s : State} {u : Nat} {r : TrRec} (hon : s.w.on 15 = true) (hu : u < 4) (hk : r.k < 8) {q : Mem × World}
    (hq : s.w.trRecord s.mem u r = q) : exec (.traceRecordWrite u r) s = .next { s with mem := q.1, w := q.2 } := by
  change execTraceRecordWrite u r s = _
  exact onM_next ((if_pos ⟨hon, hu, hk⟩).trans hq)

/-! ### Stops (R422, R423) -/

theorem Keeps.trSignal {l : List Nat} {a b : World} (h : Keeps l a b) {kind u : Nat} (hl : recordIds ⊆ l) : Keeps l a (b.trSignal kind u) :=
  (h.when fun _ hx => hx.record hl).when fun _ hx => hx.pulse.irq

theorem Keeps.trDone {l : List Nat} {a b : World} (h : Keeps l a b) {u first : Nat}
    (hl : F.TR_STAT_STATE.id :: F.TR_FIRSTSEQ_SEQ.id :: recordIds ⊆ l) : Keeps l a (b.trDone u first) :=
  ((h.sf ⟨by decide, hl (by decide)⟩).sf ⟨by decide, hl (by decide)⟩).trSignal fun _ hx => hl (List.mem_cons_of_mem _ (List.mem_cons_of_mem _ hx))

theorem trDone_state (w : World) (u first : Nat) : (w.trDone u first).trState u = 3 := by
  have htail : Keeps recordIds ((w.sf F.TR_STAT_STATE u 3).sf F.TR_FIRSTSEQ_SEQ u first) (w.trDone u first) :=
    (Keeps.refl _ _).trSignal (List.Subset.refl _)
  unfold World.trState
  rw [htail.f (by decide), f_sf_ne _ _ _ _ (by decide), f_sf_same]
  rfl

/-- A stop of a unit that still runs once a trigger of the cycle has given way. -/
theorem traceStop_next {s : State} {u : Nat} {x : World} (hon : s.w.on 15 = true) (hu : u < 4) (hr : s.w.trRuns u = true)
    (hx : s.w.trUntrigger u = x) (hrx : x.trRuns u = true) : exec (.traceStop u []) s
    = .next (s.withW ((x.sf F.TR_STAT_STOPPED u 1).trDone u (x.f F.TR_SEQ_SEQ u - min (x.f F.TR_SEQ_SEQ u) (x.trSize u)))) := by
  change execTraceStop u [] s = _
  refine onM_withW ?_
  rw [hon, decide_eq_true hu, hr, if_neg (by decide)]
  simp only [List.foldl_nil]
  rw [hx]
  exact congrArg (Prod.mk s.mem) (if_pos hrx)

/-- A stop of a unit triggered in the same cycle. -/
theorem traceStop_untriggers {w x v : World} {u first : Nat} (hs : w.trState u = 2) (hi : (w.trc_ u).trigIdx = none)
    (ht : w.tb = w.f F.TR_TRIGTB_LO_T_LO u + 2 ^ 32 * w.f F.TR_TRIGTB_HI_T_HI u) (hx : x = w.trUntrigger u)
    (hv : v = (x.sf F.TR_STAT_STOPPED u 1).trDone u first) : x.trState u = 1 ∧ v.trState u = 3 ∧ v.f F.TR_STAT_STOPPED u = 1
    ∧ v.f F.TR_TRIGTB_LO_T_LO u = 0 ∧ v.f F.TR_TRIGTB_HI_T_HI u = 0 := by
  have hxe : x = ((w.sf F.TR_STAT_STATE u 1).sf F.TR_TRIGTB_LO_T_LO u 0).sf F.TR_TRIGTB_HI_T_HI u 0 := hx.trans (if_pos ⟨hs, hi, ht.symm⟩)
  have htail : Keeps (F.TR_STAT_STATE.id :: F.TR_FIRSTSEQ_SEQ.id :: recordIds) (x.sf F.TR_STAT_STOPPED u 1) v :=
    hv ▸ (Keeps.refl _ _).trDone (List.Subset.refl _)
  refine ⟨?_, hv ▸ trDone_state _ u first, ?_, ?_, ?_⟩
  · unfold World.trState
    rw [hxe, f_sf_ne _ _ _ _ (by decide), f_sf_ne _ _ _ _ (by decide), f_sf_same]
    rfl
  · rw [htail.f (by decide), f_sf_same]
    rfl
  · rw [htail.f (by decide), f_sf_ne _ _ _ _ (by decide), hxe, f_sf_ne _ _ _ _ (by decide), f_sf_same]
    rfl
  · rw [htail.f (by decide), f_sf_ne _ _ _ _ (by decide), hxe, f_sf_same]
    rfl

/-! ### BAR2 (R20, R286, R427) -/

section
variable {s : State} {off b : Nat} (hoff : off < 0x1800000)
include hoff

theorem bar2Write_byte (hon : s.w.on 15 = true) (hw : s.w.wiping.testBit 9 = false) {r : Mem × World}
    (hr : (s.w.touch 15).bar2Byte s.mem off b = r) : exec (.bar2Write off [b]) s = .next { s with mem := r.1, w := r.2 } := by
  refine show execBar2Write off [b] s = _ from onM_next ?_
  rw [if_neg (Nat.not_le.mpr hoff), hon, hw, if_neg (by decide)]
  exact hr

theorem bar2Write_absent {bytes : List Nat} (h : s.w.on 15 = false ∨ s.w.wiping.testBit 9 = true) :
    exec (.bar2Write off bytes) s = .next (s.withW (s.w.hiErr F.HI_ERR_ISLAND_OFF (some (1, off)))) := by
  change execBar2Write off bytes s = _
  refine onM_withW ?_
  rw [if_neg (Nat.not_le.mpr hoff), if_pos (by rcases h with h | h <;> simp [h])]
end

theorem touch_trRegion (w : World) (n : Nat) : (w.touch n).trRegion = w.trRegion := by
  have hk := touch_keeps w n
  funext u
  unfold World.trRegion
  rw [hk.f (by decide), hk.f (by decide)]

theorem busyUnit_touch (w : World) (n a : Nat) : (w.touch n).busyUnit a = w.busyUnit a := by
  have hk := touch_keeps w n
  have hrun : (w.touch n).trRuns = w.trRuns := by
    funext u
    unfold World.trRuns World.trState
    rw [hk.f (by decide)]
  unfold World.busyUnit
  rw [touch_trRegion, hrun]

theorem deadBank_touch (w : World) (n a : Nat) : (w.touch n).deadBank a = w.deadBank a := by
  have hk := touch_keeps w n
  have huse : (w.touch n).bankInUse = w.bankInUse := by
    funext b
    unfold World.bankInUse World.trState
    rw [touch_trRegion]
    simp only [hk.f (show F.TR_STAT_STATE.id < 4096 ∧ F.TR_STAT_STATE.id ∉ [F.PM_STATE_STATE.id] by decide)]
  unfold World.deadBank World.bankOn
  rw [hk.f (by decide), huse]

/-- A byte outside every capturing unit's region and every dead bank is stored. -/
theorem bar2Byte_stored {w : World} {off b : Nat} (hoff : off < 0x1800000) (hb : w.busyUnit (0x02000000 + off / 2) = none)
    (hd : w.deadBank (0x02000000 + off / 2) = false) (m : Mem) : w.bar2Byte m off b = (m.set (0x04000000 + off) (BitVec.ofNat 8 b), w) := by
  unfold World.bar2Byte
  dsimp only
  rw [if_neg (Nat.not_le.mpr hoff), hb]
  dsimp only
  rw [hd, if_neg Bool.false_ne_true]

theorem bar2Byte_busy {w : World} {off b u : Nat} (hoff : off < 0x1800000) (hb : w.busyUnit (0x02000000 + off / 2) = some u) (m : Mem) :
    w.bar2Byte m off b = (m, w.sf F.TR_ERR_BUSYWR u 1) := by
  unfold World.bar2Byte
  dsimp only
  rw [if_neg (Nat.not_le.mpr hoff), hb]

/-- Settles O54: each row by its operation, and what it stores. -/
theorem traceTakesEffect : Obligations.TraceTakesEffect := by
  unfold Obligations.TraceTakesEffect
  refine ⟨fun s u hon hu => ⟨fun hr hb => ?_, fun hr hb => ?_, fun hr => ?_, ?_, ?_, ?_, ?_, fun hs hi ht => ?_, fun hr hx => ?_, fun hs => ?_,
    fun v hv => ⟨fun hlo hhi => ?_, fun hout => ?_⟩⟩, fun s off b hoff => ⟨fun hon hw hb hd => ?_, fun u hon hw hb => ?_, fun bytes h => ?_⟩⟩
  · exact ⟨_, traceArm_next hon hu rfl, trArm_armed hr hb⟩
  · exact traceArm_next hon hu (trArm_refused hr hb)
  · exact traceArm_next hon hu (trArm_running hr)
  · rintro t ch fall w x rfl hen hch hfall hs hfree rfl
    rw [traceTrigger_edge hon hu hen hch hfall hfree, trTrigger_armed ((f_inputTaken _ _ _ (by decide) _).trans hs)]
  · rintro t w rfl hs
    exact traceTrigger_direct hon hu (trTrigger_armed hs)
  · rintro t w rfl hs
    exact traceTrigger_direct hon hu (trTrigger_captured hs)
  · rintro r src q size hk hs hen rfl hd rfl rfl
    have hput := trRecord_armed hs hen hd s.mem
    unfold World.trPut at hput
    dsimp only at hput
    have hexec := traceRecordWrite_next hon hu hk hput
    dsimp only at hexec
    refine ⟨_, hexec, rfl, fun y hy => ?_⟩
    refine get_memWrites s.w _ s.mem _ y fun k hlen => hy k (Nat.lt_of_lt_of_le hlen ?_)
    exact trWords_length_le ..
  · have hrun : s.w.trRuns u = true := by
      unfold World.trRuns
      rw [hs]
      rfl
    obtain ⟨hx1, hst, hstop, hlo, hhi⟩ := traceStop_untriggers hs hi ht rfl rfl
    have hrx : (s.w.trUntrigger u).trRuns u = true := by
      unfold World.trRuns
      rw [hx1]
      rfl
    exact ⟨_, traceStop_next hon hu hrun rfl hrx, hst, hstop, hlo, hhi⟩
  · exact traceStop_next hon hu hr hx hr
  · have hexec : execTraceRelease u s = _ := onM_next (if_pos ⟨hon, hu, hs⟩)
    exact hexec
  · refine show execTrRdseqWrite u v s = _ from onW_next ((if_pos ⟨hon, hu, hv⟩).trans (if_neg ?_))
    omega
  · exact show execTrRdseqWrite u v s = _ from onW_next ((if_pos ⟨hon, hu, hv⟩).trans (if_pos hout))
  · rw [← busyUnit_touch s.w 15] at hb
    rw [← deadBank_touch s.w 15] at hd
    have hexec := bar2Write_byte (b := b) hoff hon hw (bar2Byte_stored hoff hb hd s.mem)
    exact ⟨_, hexec, Mem.get_set_same _ _ _, fun y hy => Mem.get_set_ne _ _ hy⟩
  · rw [← busyUnit_touch s.w 15] at hb
    have hexec := bar2Write_byte (b := b) hoff hon hw (bar2Byte_busy hoff hb s.mem)
    exact hexec
  · exact bar2Write_absent hoff h

end Sys2Proof.Machine

/-! The DMA engine: descriptors, beats and channels (R404 to R415). -/

namespace Sys2Proof.Machine

/-! ### Descriptors (R406, R407) -/

theorem dmaNop_next {s : State} {u i : Nat} {j : DJob} (hon : s.w.on 15 = true) (hj : s.w.dmaWaiting u = some (i, j)) (hop : j.at 0 2 = 0) :
    exec (.dmaNop u) s = .next (s.withW (s.w.dmaEnd s.mem u i j 0 0 0)) := by
  change execDmaNop u s = _
  refine onW_next ?_
  rw [hj]
  exact if_pos ⟨hop, hon⟩

section
variable {s : State} {u i : Nat} {j : DJob} (hon : s.w.on 15 = true) (hj : s.w.dmaWaiting u = some (i, j)) (hop : j.at 0 2 = 0x0C01)
include hon hj hop

theorem dmaMove_starts (h : s.w.moveBad (decide (u < 16)) j = none) :
    exec (.dmaMove u) s = .next (s.withW (s.w.setJob u i { j with started := true })) := by
  change execDmaMove u s = _
  refine onW_next ?_
  unfold World.dmaMove
  rw [hj]
  dsimp only
  rw [hop, hon, if_neg (by decide), h]

theorem dmaMove_fails {st x : Nat} (h : s.w.moveBad (decide (u < 16)) j = some (st, x)) :
    exec (.dmaMove u) s = .next (s.withW (s.w.dmaEnd s.mem u i j st x 0)) := by
  change execDmaMove u s = _
  refine onW_next ?_
  unfold World.dmaMove
  rw [hj]
  dsimp only
  rw [hop, hon, if_neg (by decide), h]
end

/-! ### Whose turn it is (R405) -/

/-- A user that is ready and behind whom every other ready user of its class or a higher one comes has its turn. -/
theorem dmaTurn_of_first {w : World} {e u : Nat} {ready : Nat → Bool} (hu : ready u = true)
    (h : ∀ v < 49, ready v = true → w.dmaClass u ≤ w.dmaClass v → w.dmaClass v = w.dmaClass u
      ∧ dmaPos (mget 0 w.dmaLast (4 * e + w.dmaClass u)) u ≤ dmaPos (mget 0 w.dmaLast (4 * e + w.dmaClass u)) v) : w.dmaTurn e ready u = true := by
  unfold World.dmaTurn
  rw [Bool.and_eq_true, List.all_eq_true]
  refine ⟨hu, fun v hv => ?_⟩
  by_cases hready : ready v = true
  · by_cases hclass : w.dmaClass u ≤ w.dmaClass v
    · obtain ⟨heq, hpos⟩ := h v (List.mem_range.mp hv) hready hclass
      simp [heq, hpos]
    · simp [Nat.lt_of_not_le hclass]
  · simp [Bool.eq_false_iff.mpr hready]

/-- No user has its turn before a ready one of a higher class. -/
theorem dmaTurn_behind {w : World} {e u v : Nat} {ready : Nat → Bool} (hv : v < 49) (hready : ready v = true) (hclass : w.dmaClass u < w.dmaClass v) :
    w.dmaTurn e ready u = false := by
  unfold World.dmaTurn
  rw [Bool.and_eq_false_iff, List.all_eq_false]
  refine .inr ⟨v, List.mem_range.mpr hv, ?_⟩
  simp [hready, Nat.le_of_lt hclass, Nat.ne_of_gt hclass]

/-! ### Reads (R404, R412) -/

theorem dmaBeatRead_next {s : State} {u : Nat} (h : s.w.readTurn u = true) {v : World} (hv : (s.w.dmaServed 0 u).dmaRead s.mem u = v) :
    exec (.dmaBeatRead u) s = .next (s.withW v) :=
  show execDmaBeatRead u s = _ from onW_next ((if_pos h).trans hv)

section
variable {w : World} {u i : Nat} {j : DJob} (hj : w.dmaReads u = some (i, j))
include hj

theorem dmaRead_host (hs : j.sHost = true) (m : Mem) : w.dmaRead m u
    = (World.setJob { w with pcie := { w.pcie with np := w.pcie.np.map (· - 1) } } u i
        { j with issued := j.issued + beatLen j.sHost (j.srcAddr j.issued) j.slen j.issued
                 flight := j.flight ++ [⟨j.issued, beatLen j.sHost (j.srcAddr j.issued) j.slen j.issued, [], 0, w.clk.tk⟩] }).emit
      (.hostRead (j.srcAddr j.issued) (2 * beatLen j.sHost (j.srcAddr j.issued) j.slen j.issued)) := by
  unfold World.dmaRead
  rw [hj]
  exact if_pos hs

theorem dmaRead_memory (hs : j.sHost = false) (hm : w.memOff (j.srcAddr j.issued) = false) (m : Mem) : w.dmaRead m u
    = w.setJob u i { j with
        issued := j.issued + beatLen j.sHost (j.srcAddr j.issued) j.slen j.issued
        flight := j.flight ++ [⟨j.issued, beatLen j.sHost (j.srcAddr j.issued) j.slen j.issued,
          (List.range (beatLen j.sHost (j.srcAddr j.issued) j.slen j.issued)).map fun k => w.memRead m (j.srcAddr j.issued + k), 0, w.clk.tk⟩] } := by
  unfold World.dmaRead
  rw [hj]
  dsimp only
  rw [if_neg (by rw [hs]; exact Bool.false_ne_true), hm]
  rfl
end

/-! ### Answers (R412) -/

section
variable {w : World} {u i : Nat} {j : DJob} {b : Beat} {l : List Beat} (hj : firstIdx (w.dmaQ u) (fun j => !j.flight.isEmpty) = some (i, j))
  (hf : j.flight = b :: l) (hb : b.err = 0)
include hj hf hb

theorem dmaAnswer_data (he : j.err = none) (data : List Nat) : w.dmaAnswer u data 0 = w.setJob u i { j with flight := l, got := j.got ++
    (if j.sHost then (List.range b.count).map fun k => data.getD k 0 % 65536 else b.data) } := by
  unfold World.dmaAnswer
  rw [hj]
  dsimp only
  rw [hf]
  dsimp only
  rw [hb, if_neg (not_not_intro rfl), if_neg (not_not_intro rfl), if_neg (by rw [he]; exact Bool.false_ne_true)]
  rfl

theorem dmaAnswer_error {err : Nat} (he : err ≠ 0) (data : List Nat) : w.dmaAnswer u data err
    = (w.aerRead (if j.sHost then err else 0)).setJob u i (DJob.fail { j with flight := l } (dmaErr err) b.first b.count) := by
  unfold World.dmaAnswer
  rw [hj]
  dsimp only
  rw [hf]
  dsimp only
  rw [hb, if_neg (not_not_intro rfl), if_pos he]
  rfl
end

/-! ### Writes (R221, R238, R412, R491) -/

theorem dmaBeatWrite_next {s : State} {u : Nat} (h : s.w.writeTurn u = true) (hu : u ≠ 48) {m : Mem} {v : World}
    (hv : (s.w.dmaServed 1 u).dmaWrite s.mem u = (m, v)) : exec (.dmaBeatWrite u) s = .next { s with mem := m, w := v } := by
  change execDmaBeatWrite u s = _
  refine onM_next (r := (m, v)) ?_
  rw [h, if_neg (by decide), if_neg hu]
  exact hv

/-- What the write engine drains for a user: at least one element, with the credits for it. -/
theorem dmaWrites_beat {w : World} {u i : Nat} {j : DJob} (hj : w.dmaWrites u = some (i, j)) :
    j.beat ≠ [] ∧ (j.dHost = true → w.traceReady (2 * j.beat.length) = true) := by
  unfold World.dmaWrites at hj
  obtain ⟨-, hgo⟩ := Option.filter_eq_some_iff.mp hj
  dsimp only at hgo
  simp only [Bool.and_eq_true, Bool.not_eq_true', List.isEmpty_eq_false_iff] at hgo
  obtain ⟨⟨-, hne⟩, hready⟩ := hgo
  refine ⟨hne, fun hd => ?_⟩
  rw [hd, if_pos rfl] at hready
  exact hready

section
variable {w : World} {u i : Nat} {j : DJob} (hj : w.dmaWrites u = some (i, j))
include hj

theorem dmaWrite_host (hd : j.dHost = true) (m : Mem) : w.dmaWrite m u = (m, ((w.spend [2 * j.beat.length]).setJob u i
    { j with written := j.written + j.beat.length }).emit (.hostWrite (j.dstAddr j.written) (j.beat.flatMap (leBytes 2)))) := by
  unfold World.dmaWrite
  rw [hj]
  exact if_pos hd

theorem dmaWrite_memory (hd : j.dHost = false) (hm : w.memOff (j.dstAddr j.written) = false) (hb : w.busyUnit (j.dstAddr j.written) = none) (m : Mem) :
    w.dmaWrite m u = (w.memWrites m (j.dstAddr j.written) j.beat, w.setJob u i { j with written := j.written + j.beat.length }) := by
  unfold World.dmaWrite
  rw [hj]
  dsimp only
  rw [if_neg (by rw [hd]; exact Bool.false_ne_true), hm, if_neg Bool.false_ne_true, hb]
  rfl
end

theorem memWrites_dmaServed (w : World) (e u : Nat) (l : List Nat) : ∀ (m : Mem) (a : Nat), (w.dmaServed e u).memWrites m a l = w.memWrites m a l := by
  induction l with
  | nil => exact fun _ _ => rfl
  | cons v l ih => exact fun m a => ih (w.memWrite m a v) (a + 1)

theorem dmaBeatWrite_cairn {s : State} (h : s.w.writeTurn 48 = true) {v : World} (hv : (s.w.dmaServed 1 48).crnWrite s.mem = v) :
    exec (.dmaBeatWrite 48) s = .next (s.withW v) := by
  change execDmaBeatWrite 48 s = _
  refine onM_withW ?_
  rw [h, if_neg (by decide), if_pos rfl, hv]

/-! ### Channels (R415, R426) -/

section
variable {w : World} {c : Nat} (hres : w.chReserved c = false) (hon : w.on 15 = true)
include hres hon

theorem chStart_idle (hb : w.f F.DMA_CHSTAT_BUSY c = 0) (m : Mem) :
    w.chStart m c = (w.sf F.DMA_CHSTAT_BUSY c 1).chLoad m c (w.f F.DMA_CHPTR_ADDR c / 32 * 32) := by
  unfold World.chStart
  rw [hres, hon, if_neg (by decide), fb_of_zero hb, if_neg Bool.false_ne_true]

theorem chStart_busy (hb : w.f F.DMA_CHSTAT_BUSY c ≠ 0) (m : Mem) : w.chStart m c = w.incSat F.DMA_CHSTAT_TRIGOVR c := by
  have hbusy : w.fb F.DMA_CHSTAT_BUSY c = true := bne_iff_ne.mpr hb
  unfold World.chStart
  rw [hres, hon, if_neg (by decide), hbusy, if_pos rfl]
end

theorem dmaChannelTrigger_edge {s : State} {c t ch : Nat} {fall : Bool} (hon : s.w.on 15 = true) (hen : (s.w.upTo t).fb F.DMA_CHCTL_TRIGEN c = true)
    (hch : (s.w.upTo t).f F.DMA_CHCTL_TRIGCH c = ch) (hfall : (s.w.upTo t).fb F.DMA_CHCTL_TRIGFALL c = fall) {v : World}
    (hv : (s.w.upTo t).input (640 + c) t (fun w => if w.chReserved c then w else w.incSat F.DMA_CHSTAT_TRIGOVR c)
      (fun w => (w.upTo (t + 256)).chStart s.mem c) = v) : exec (.dmaChannelTrigger c t ch fall) s = .next (s.withW v) := by
  change execDmaChannelTrigger c s t ch fall = _
  refine onW_next ?_
  dsimp only
  rw [on_upTo, hon, hen, hch, hfall, beq_self_eq_true, beq_self_eq_true, if_neg (by decide), hv]

theorem dmaChannelTrigger_unselected {s : State} {c t ch : Nat} {fall : Bool} (h : (s.w.upTo t).fb F.DMA_CHCTL_TRIGEN c = false
    ∨ (s.w.upTo t).f F.DMA_CHCTL_TRIGCH c ≠ ch ∨ (s.w.upTo t).fb F.DMA_CHCTL_TRIGFALL c ≠ fall) :
    exec (.dmaChannelTrigger c t ch fall) s = .next (s.withW (s.w.upTo t)) := by
  change execDmaChannelTrigger c s t ch fall = _
  refine onW_next (if_pos ?_)
  simp only [Bool.not_eq_true', Bool.and_eq_false_iff, beq_eq_false_iff_ne]
  rcases h with h | h | h
  · exact .inl (.inl (.inr h))
  · exact .inl (.inr h)
  · exact .inr h

theorem chReserved_upTo (w : World) (t c : Nat) : (w.upTo t).chReserved c = w.chReserved c := by
  unfold World.chReserved
  rw [fb_upTo _ _ (by decide)]

theorem chReserved_inputTaken (w : World) (key t c : Nat) : (w.inputTaken key t).chReserved c = w.chReserved c := by
  unfold World.inputTaken
  rw [chReserved_upTo]
  rfl

/-- ABORT marks the running descriptor, which issues no further beat. -/
theorem dmaChannelAbort_next {s : State} {c : Nat} {j : DJob} {l : List DJob} (hon : s.w.on 15 = true) (hq : s.w.dmaQ (16 + c) = j :: l) :
    exec (.dmaChannelAbort c) s = .next (s.withW ((s.w.setJob (16 + c) 0 { j with abort := some 0 }).dmaConfirm s.mem (16 + c))) := by
  change execDmaChannelAbort c s = _
  refine onW_next ((if_pos hon).trans ?_)
  unfold World.chAbort
  rw [hq]

theorem mayIssue_aborted (j : DJob) (n : Nat) : DJob.mayIssue { j with abort := some 0 } n = false := by
  unfold DJob.mayIssue
  rw [show Option.isNone (some 0) = false from rfl, Bool.and_false, Bool.false_and, Bool.false_and]

/-! ### Confirmation (R413, R414, R491) -/

theorem dmaConfirm_done {w : World} {u : Nat} {j : DJob} {l : List DJob} (hq : w.dmaQ u = j :: l) (hf : j.flight = []) (ha : j.abort = none)
    (he : j.err = none) (hs : j.started = true) (hw : j.written = j.total) (hc : j.count = 0) (m : Mem) :
    w.dmaConfirm m u = w.dmaEnd m u 0 j 0 0 j.total := by
  unfold World.dmaConfirm
  rw [hq]
  dsimp only
  rw [if_neg (by rw [hf]; decide), ha, he]
  exact if_pos ⟨hs, hw, hc⟩

theorem crnWrite_next {w : World} {j : CrnRead} {l : List CrnRead} (hq : w.crnRd = j :: l) (m : Mem) {v : World}
    (hv : v = (w.spend [64]).emit (.hostWrite (j.addr + j.pos)
      (Mem.getBytes m (0x06000000 + 256 * ((j.first + j.pos / 256) % 8192) + j.pos % 256) 64))) :
    w.crnWrite m = if j.pos + 64 < 256 * j.count then { v with crnRd := { j with pos := j.pos + 64 } :: l }
      else World.completeWaits { v with crnRd := l } (fun x => x.on == .cairn && x.cmd == j.cmd) stOk 0 j.count := by
  unfold World.crnWrite
  rw [hq]
  dsimp only
  rw [← hv]

/-- Settles O52: each row by the engine's operation for the descriptor, beat or channel. -/
theorem dmaTakesEffect : Obligations.DmaTakesEffect := by
  unfold Obligations.DmaTakesEffect
  refine ⟨⟨fun s u i j hon hj hop => dmaNop_next hon hj hop, fun s u i j hon hj hop => ⟨dmaMove_starts hon hj hop, fun st x => dmaMove_fails hon hj hop⟩,
    ?_, fun s u v hu hv hclass => ⟨fun hready => ?_, fun h48 hready => ?_⟩, fun s u i j b l data hj hf hb he => ⟨?_, fun err herr => ?_⟩, ?_, ?_, ?_⟩, ?_⟩
  · rintro s u i a n j w hu rfl hj hfirst rfl rfl
    have hturn : s.w.readTurn u = true := by
      refine dmaTurn_of_first (by rw [hj]; rfl) ?_
      rw [Nat.mul_zero, Nat.zero_add]
      exact hfirst
    have hserved : (s.w.dmaServed 0 u).dmaReads u = some (i, j) := hj
    exact ⟨fun hs => dmaBeatRead_next hturn (dmaRead_host hserved hs _), fun hs hm => dmaBeatRead_next hturn (dmaRead_memory hserved hs hm _)⟩
  · exact show execDmaBeatRead u s = _ from onW_next (v := s.w) (if_neg (Bool.eq_false_iff.mp (dmaTurn_behind hv hready hclass)))
  · have hturn : s.w.writeTurn u = false := dmaTurn_behind hv (by rw [if_neg h48]; exact hready) hclass
    refine show execDmaBeatWrite u s = _ from onM_withW (v := s.w) (if_pos ?_)
    rw [hturn]
    rfl
  · exact show execDmaBeatAnswer u data 0 s = _ from onW_next (dmaAnswer_data hj hf hb he data)
  · exact show execDmaBeatAnswer u data err s = _ from onW_next (dmaAnswer_error hj hf hb herr data)
  · rintro s u i a j l w hu hturn rfl hj rfl hl
    have hbeat : l = j.beat := hl
    subst hbeat
    have hserved : (s.w.dmaServed 1 u).dmaWrites u = some (i, j) := hj
    obtain ⟨hne, hready⟩ := dmaWrites_beat hj
    refine ⟨hne, fun hd => ⟨hready hd, dmaBeatWrite_next hturn hu (dmaWrite_host hserved hd _)⟩, fun hd hm hb => ?_⟩
    have hstored := dmaWrite_memory hserved hd hm hb s.mem
    rw [memWrites_dmaServed] at hstored
    exact ⟨_, dmaBeatWrite_next hturn hu hstored, rfl, fun y => get_memWrites s.w _ _ _ y⟩
  · rintro s j l v hq hturn hv
    have hnext := crnWrite_next (w := s.w.dmaServed 1 48) hq s.mem hv
    exact ⟨fun hmore => dmaBeatWrite_cairn hturn (hnext.trans (if_pos hmore)),
      fun hlast => dmaBeatWrite_cairn hturn (hnext.trans (if_neg (Nat.not_lt.mpr hlast)))⟩
  · intro s u j l hq hf ha he hs hw hc
    exact show execDmaMoveConfirm u s = _ from onW_next (dmaConfirm_done hq hf ha he hs hw hc s.mem)
  · rintro s c t ch fall w x hon hres rfl
    refine ⟨fun hb => ?_, fun hb => ?_, fun hen hch hfall => ⟨?_, fun hbusy => ?_⟩, dmaChannelTrigger_unselected,
      fun j l hq => ⟨dmaChannelAbort_next hon hq, mayIssue_aborted j⟩⟩
    · exact show execDmaChannelStart c s = _ from onW_next (chStart_idle hres hon hb s.mem)
    · exact show execDmaChannelStart c s = _ from onW_next (chStart_busy hres hon hb s.mem)
    · rintro hfree rfl
      have hx : ((s.w.upTo t).inputTaken (640 + c) t).f F.DMA_CHSTAT_BUSY c = s.w.f F.DMA_CHSTAT_BUSY c :=
        (f_inputTaken _ _ _ (by decide) _).trans (f_upTo _ _ (by decide) _)
      have hptr : ((s.w.upTo t).inputTaken (640 + c) t).f F.DMA_CHPTR_ADDR c = s.w.f F.DMA_CHPTR_ADDR c :=
        (f_inputTaken _ _ _ (by decide) _).trans (f_upTo _ _ (by decide) _)
      have hres' : ((s.w.upTo t).inputTaken (640 + c) t).chReserved c = false := by rw [chReserved_inputTaken, chReserved_upTo, hres]
      have hon' : ((s.w.upTo t).inputTaken (640 + c) t).on 15 = true := by
        unfold World.inputTaken
        rw [on_upTo]
        exact (on_upTo _ _ _).trans hon
      refine ⟨fun hb => dmaChannelTrigger_edge hon hen hch hfall ((input_free hfree _ _).trans ?_),
        fun hb => dmaChannelTrigger_edge hon hen hch hfall ((input_free hfree _ _).trans ?_)⟩
      · rw [← hptr]
        exact chStart_idle hres' hon' (hx.trans hb) s.mem
      · exact chStart_busy hres' hon' (fun h => hb (hx.symm.trans h)) s.mem
    · refine dmaChannelTrigger_edge hon hen hch hfall ((input_busy hbusy _ _).trans ?_)
      rw [chReserved_upTo, hres, if_neg Bool.false_ne_true]

end Sys2Proof.Machine

/-! Doorbells, the controls of the rings, and their traffic over the link (R208 to R221). -/

namespace Sys2Proof.Machine

/-- A field that one later write leaves. -/
theorem f_sf_sf (w : World) {G F : Fld} (i v j x : Nat) (h : G.id ≠ F.id ∧ G.id < 4096 ∧ F.id < 4096) : ((w.sf G i v).sf F j x).f G i = v % 2 ^ G.wd := by
  rw [f_sf_ne _ _ _ _ h, f_sf_same]

/-! ### Doorbells (R210) -/

theorem doorbell_next {s : State} {n v : Nat} (hn : n < 16) {w : World} (hw : s.w.doorbell n v = w) : exec (.doorbell n v) s = .next (s.withW w) :=
  show execDoorbell n v s = _ from onW_next ((if_pos hn).trans hw)

theorem doorbell_off {w : World} {n v : Nat} (hon : w.on 2 = true) (hs : w.rgState n = rgOff) :
    w.doorbell n v = w.hiErr F.HI_ERR_DBOFF (some (0, 0x80000 + 0x1000 * n)) := by
  unfold World.doorbell
  dsimp only
  rw [hon, if_neg (by decide), if_pos hs]

section
variable {w : World} {n v len : Nat} {dist : Nat → Nat} (hon : w.on 2 = true) (hs : w.rgState n ≠ rgOff) (hlen : len = w.ringLen n)
  (hdist : ∀ t, dist t = (t + len - w.f F.RING_DONE_DONE n % len) % len)
include hon hs hlen hdist

theorem doorbell_ring : w.doorbell n v = if len ≤ v ∨ dist v < dist (w.f F.RING_TAIL_TAIL n) then w.sf F.RING_ERR_DBRANGE n 1
    else if (w.sf F.RING_TAIL_TAIL n v).rgState n = rgStalled then (w.sf F.RING_TAIL_TAIL n v).setRgState n rgRun else w.sf F.RING_TAIL_TAIL n v := by
  rw [hdist, hdist, hlen]
  unfold World.doorbell
  dsimp only
  rw [hon, if_neg (by decide), if_neg hs]

/-- A doorbell within the ring moves TAIL, and wakes a STALLED ring. -/
theorem doorbell_moves (hv : v < len) (hd : dist (w.f F.RING_TAIL_TAIL n) ≤ dist v) : (w.doorbell n v).f F.RING_TAIL_TAIL n = v % 2 ^ F.RING_TAIL_TAIL.wd
    ∧ (w.doorbell n v).rgState n = (if w.rgState n = rgStalled then rgRun else w.rgState n)
    ∧ Keeps [F.RING_TAIL_TAIL.id, F.RING_STAT_STATE.id] w (w.doorbell n v) := by
  have hst : (w.sf F.RING_TAIL_TAIL n v).rgState n = w.rgState n := f_sf_ne _ _ _ _ (by decide)
  rw [doorbell_ring hon hs hlen hdist, if_neg (by omega), hst]
  split
  · exact ⟨f_sf_sf _ _ _ _ _ (by decide), f_sf_same _ _ _ _, ((Keeps.refl _ w).sf (by decide)).sf (by decide)⟩
  · exact ⟨f_sf_same _ _ _ _, hst, (Keeps.refl _ w).sf (by decide)⟩

theorem doorbell_range (h : len ≤ v ∨ dist v < dist (w.f F.RING_TAIL_TAIL n)) : w.doorbell n v = w.sf F.RING_ERR_DBRANGE n 1 :=
  (doorbell_ring hon hs hlen hdist).trans (if_pos h)
end

/-! ### Enabling and disabling (R211, R212) -/

theorem rgGo_cases (w : World) (n : Nat) : w.rgGo n = rgRun ∨ w.rgGo n = rgStandby := by
  unfold World.rgGo
  split
  · exact .inr rfl
  · exact .inl rfl

theorem ringEnable_configured {w : World} {n : Nat} (hs : w.rgState n = rgOff) (hty : w.rgType n ≠ 0) (h4 : 4 ≤ w.f F.RING_CFG_SIZE n)
    (h12 : w.f F.RING_CFG_SIZE n ≤ 12) (hloc : w.f F.RING_CFG_LOCAL n = 0 ∨ w.rgType n = 1) (hst : (w.ring n).stale = false) :
    ∃ u : World, w.ringEnable n = ((((u.sf F.RING_HEAD_HEAD n 0).sf F.RING_TAIL_TAIL n 0).sf F.RING_DONE_DONE n 0).sf
      F.RING_CTL_EN n 1).setRgState n ((((u.sf F.RING_HEAD_HEAD n 0).sf F.RING_TAIL_TAIL n 0).sf F.RING_DONE_DONE n 0).rgGo n)
      ∧ u.regs = w.regs := by
  have hok : ¬ (w.rgType n = 0 ∨ w.f F.RING_CFG_SIZE n < 4 ∨ 12 < w.f F.RING_CFG_SIZE n ∨ w.fb F.RING_CFG_LOCAL n = true ∧ w.rgType n ≠ 1) := by
    rintro (h | h | h | ⟨hl, h⟩)
    · exact hty h
    · omega
    · omega
    · rcases hloc with h0 | h1
      · rw [fb_of_zero h0] at hl
        cases hl
      · exact h h1
  unfold World.ringEnable
  dsimp only
  rw [if_neg (not_not_intro hs), if_neg hok, hst]
  exact ⟨_, rfl, rfl⟩

/-- A ring that is enabled runs, or stands by, with its pointers at 0. -/
theorem ringEnable_spec {w : World} {n : Nat} (hs : w.rgState n = rgOff) (hty : w.rgType n ≠ 0) (h4 : 4 ≤ w.f F.RING_CFG_SIZE n)
    (h12 : w.f F.RING_CFG_SIZE n ≤ 12) (hloc : w.f F.RING_CFG_LOCAL n = 0 ∨ w.rgType n = 1) (hst : (w.ring n).stale = false) {v : World}
    (hv : v = w.ringEnable n) : v.f F.RING_CTL_EN n = 1 ∧ (v.rgState n = rgRun ∨ v.rgState n = rgStandby) ∧ v.f F.RING_HEAD_HEAD n = 0
    ∧ v.f F.RING_TAIL_TAIL n = 0 ∧ v.f F.RING_DONE_DONE n = 0
    ∧ Keeps [F.RING_CTL_EN.id, F.RING_STAT_STATE.id, F.RING_HEAD_HEAD.id, F.RING_TAIL_TAIL.id, F.RING_DONE_DONE.id] w v := by
  obtain ⟨u, hu, hregs⟩ := ringEnable_configured hs hty h4 h12 hloc hst
  have hgo := rgGo_cases (((u.sf F.RING_HEAD_HEAD n 0).sf F.RING_TAIL_TAIL n 0).sf F.RING_DONE_DONE n 0) n
  generalize (((u.sf F.RING_HEAD_HEAD n 0).sf F.RING_TAIL_TAIL n 0).sf F.RING_DONE_DONE n 0).rgGo n = g at hu hgo
  rw [hv, hu]
  refine ⟨f_sf_sf _ _ _ _ _ (by decide), hgo.imp ?_ ?_, ?_, ?_, ?_, ?_⟩
  · rintro rfl
    exact f_sf_same _ _ _ _
  · rintro rfl
    exact f_sf_same _ _ _ _
  · unfold World.setRgState
    rw [f_sf_ne _ _ _ _ (by decide), f_sf_ne _ _ _ _ (by decide), f_sf_ne _ _ _ _ (by decide), f_sf_sf _ _ _ _ _ (by decide)]
    rfl
  · unfold World.setRgState
    rw [f_sf_ne _ _ _ _ (by decide), f_sf_ne _ _ _ _ (by decide), f_sf_sf _ _ _ _ _ (by decide)]
    rfl
  · unfold World.setRgState
    rw [f_sf_ne _ _ _ _ (by decide), f_sf_sf _ _ _ _ _ (by decide)]
    rfl
  · exact ((((((Keeps.refl _ w).regs hregs).sf (by decide)).sf (by decide)).sf (by decide)).sf (by decide)).sf (by decide)

theorem ringEnable_refused {w : World} {n : Nat} (hs : w.rgState n = rgOff) (h : w.rgType n = 0 ∨ w.f F.RING_CFG_SIZE n < 4 ∨ 12 < w.f F.RING_CFG_SIZE n) :
    w.ringEnable n = w.sf F.RING_ERR_CFG n 1 := by
  unfold World.ringEnable
  dsimp only
  rw [if_neg (not_not_intro hs), if_pos (h.imp_right (Or.imp_right .inl))]

/-- What RESET discards shows in RING_ABN alone. -/
theorem Keeps.discardRing {l : List Nat} {a b : World} (h : Keeps l a b) {n : Nat} {evt : Bool} (hl : F.RING_ABN_ABANDONED.id ∈ l) :
    Keeps l a (b.discardRing n evt) := by
  cases evt with
  | true => exact h.regs rfl
  | false =>
    have habn : Keeps l a ((b.mapEntries fun l => l.filter fun e => !isWbOf n e).sf F.RING_ABN_ABANDONED n
        (b.f F.RING_ABN_ABANDONED n + b.entries.countP (isWbOf n))) := (h.regs rfl).sf ⟨by decide, hl⟩
    exact habn.regs rfl

section
variable {w : World} {n : Nat} (hs : w.rgState n ≠ rgOff)
include hs

theorem ringDisable_idle (hb : w.rgState n ≠ rgStandby) (hp : w.rgPending n = 0) : (w.ringDisable n).f F.RING_CTL_EN n = 0
    ∧ (w.ringDisable n).rgState n = rgOff ∧ Keeps [F.RING_CTL_EN.id, F.RING_STAT_STATE.id] w (w.ringDisable n) := by
  have hstep : w.ringDisable n = ((w.sf F.RING_CTL_EN n 0).setRgState n rgOff).setRing n { w.ring n with reads := [] } := by
    unfold World.ringDisable
    dsimp only
    rw [if_neg (not_or.mpr ⟨hs, hb⟩), if_pos hp]
  rw [hstep]
  exact ⟨(f_setRing ..).trans (f_sf_sf w _ _ _ _ (by decide)), (f_setRing ..).trans (f_sf_same _ _ _ _), (((Keeps.refl _ w).sf (by decide)).sf (by decide)).setRing⟩

theorem ringDisable_pending (hb : w.rgState n ≠ rgStandby) (hp : w.rgPending n ≠ 0) : w.ringDisable n = w.sf F.RING_ERR_CFG n 1 := by
  unfold World.ringDisable
  dsimp only
  rw [if_neg (not_or.mpr ⟨hs, hb⟩), if_neg hp]

theorem ringReset_spec : (w.ringReset n).f F.RING_CTL_EN n = 0 ∧ (w.ringReset n).rgState n = rgOff ∧ ((w.ringReset n).ring n).reads = []
    ∧ Keeps [F.RING_CTL_EN.id, F.RING_STAT_STATE.id, F.RING_ABN_ABANDONED.id] w (w.ringReset n) := by
  obtain ⟨u, hu, hkeep, hreads⟩ : ∃ u : World, w.ringReset n = (u.sf F.RING_CTL_EN n 0).setRgState n rgOff
      ∧ Keeps [F.RING_CTL_EN.id, F.RING_STAT_STATE.id, F.RING_ABN_ABANDONED.id] w u ∧ (u.ring n).reads = [] := by
    unfold World.ringReset
    rw [if_neg hs]
    exact ⟨_, rfl, (Keeps.setRing (Keeps.discardRing (Keeps.refl _ w) (by decide))), congrArg Ring.reads (ring_setRing _ n _)⟩
  rw [hu]
  exact ⟨f_sf_sf u _ _ _ _ (by decide), f_sf_same _ _ _ _, hreads, (hkeep.sf (by decide)).sf (by decide)⟩
end

/-- Settles O22: each control acts as its operation on the ring's registers. -/
theorem ringControlsTakeEffect : Obligations.RingControlsTakeEffect := by
  unfold Obligations.RingControlsTakeEffect
  intro s n hn hon
  refine ⟨fun v len dist hs hlen hdist => ⟨fun hv hd => ?_, fun h => ?_⟩, fun v hs => ?_, fun hs hty h4 h12 hloc hst => ?_, fun hs hbad => ?_,
    fun hs hb => ⟨fun hp => ?_, fun hp => ?_⟩, fun hs => ?_, fun hs => ?_⟩
  · exact ⟨_, doorbell_next hn rfl, doorbell_moves hon hs hlen hdist hv hd⟩
  · exact doorbell_next hn (doorbell_range hon hs hlen hdist h)
  · exact doorbell_next hn (doorbell_off hon hs)
  · exact ⟨_, show execRingEnable n s = _ from onW_next (if_pos ⟨hon, hn⟩), ringEnable_spec hs hty h4 h12 hloc hst rfl⟩
  · exact show execRingEnable n s = _ from onW_next ((if_pos ⟨hon, hn⟩).trans (ringEnable_refused hs hbad))
  · exact ⟨_, show execRingDisable n s = _ from onW_next (if_pos ⟨hon, hn⟩), ringDisable_idle hs hb hp⟩
  · exact show execRingDisable n s = _ from onW_next ((if_pos ⟨hon, hn⟩).trans (ringDisable_pending hs hb hp))
  · exact show execRingResume n s = _ from onW_next ((if_pos ⟨hon, hn⟩).trans (if_pos hs))
  · exact ⟨_, show execRingReset n s = _ from onW_next (if_pos ⟨hon, hn⟩), ringReset_spec hs⟩

end Sys2Proof.Machine

/-! Ring traffic: fetches, answers, the drain, messages and telemetry (R208 to R221). -/

namespace Sys2Proof.Machine

/-! ### Fetches and their answers (R211, R213, R214) -/

theorem fetch_turn {w : World} {n pos k : Nat} (ht : w.rrTurn = some n) (hh : w.headReady = false) (hnp : w.pcie.np ≠ some 0)
    (hf : w.nextFetch n = some (pos, k)) : w.fetch n
    = (World.setRing { w with rrNext := (n + 1) % 16, pcie := { w.pcie with np := w.pcie.np.map (· - 1) } } n
        { w.ring n with reads := (w.ring n).reads ++ [(pos, k, w.clk.tk)] }).emit (.hostRead (w.slotAddr n pos) (64 * k)) := by
  have hgo : ¬ (w.rrTurn ≠ some n ∨ w.headReady = true ∨ w.pcie.np = some 0) := by
    rintro (h | h | h)
    · exact h ht
    · rw [hh] at h
      cases h
    · exact hnp h
  unfold World.fetch
  rw [if_neg hgo, hf]
  rfl

/-- The answers of a cycle, ring by ring up to ring `k`. -/
theorem answers_succ (l : List (Nat × ReadAns)) (k : Nat) : ((List.range (k + 1)).flatMap fun n => l.filter fun e => e.1 == n)
    = ((List.range k).flatMap fun n => l.filter fun e => e.1 == n) ++ l.filter fun e => e.1 == k := by
  rw [List.range_succ, List.flatMap_append, List.flatMap_singleton]

theorem answers_one (n : Nat) (x : ReadAns) (k : Nat) : ((List.range k).flatMap fun i => [(n, x)].filter fun e => e.1 == i)
    = if n < k then [(n, x)] else [] := by
  induction k with
  | zero => rfl
  | succ k ih =>
    rw [answers_succ, ih, List.filter_cons, List.filter_nil]
    rcases Nat.lt_trichotomy n k with h | h | h
    · simp [h, Nat.lt_succ_of_lt h, Nat.ne_of_lt h]
    · simp [h]
    · simp [Nat.not_lt_of_gt h, show ¬ n < k + 1 by omega, Nat.ne_of_gt h]

/-- Two answers of a cycle are taken in ascending ring number. -/
theorem answers_two {n m : Nat} (h : m < n) (x y : ReadAns) (k : Nat) : ((List.range k).flatMap fun i => [(n, x), (m, y)].filter fun e => e.1 == i)
    = (if m < k then [(m, y)] else []) ++ if n < k then [(n, x)] else [] := by
  induction k with
  | zero => rfl
  | succ k ih =>
    have hsplit : [(n, x), (m, y)].filter (fun e => e.1 == k) = [(n, x)].filter (fun e => e.1 == k) ++ [(m, y)].filter (fun e => e.1 == k) :=
      List.filter_append [(n, x)] [(m, y)]
    have hn := answers_one n x (k + 1)
    have hm := answers_one m y (k + 1)
    rw [answers_succ, answers_one] at hn hm
    rw [answers_succ, ih, hsplit, ← hn, ← hm]
    by_cases hk : n < k
    · rw [if_pos hk, if_pos (Nat.lt_trans h hk)]
      simp [Nat.ne_of_lt hk, Nat.ne_of_lt (Nat.lt_trans h hk)]
    · by_cases hmk : m < k
      · simp [hk, hmk, Nat.ne_of_lt hmk]
      · by_cases hnk : n = k
        · exact absurd (hnk ▸ h) hmk
        · simp [hk, hmk, hnk]

theorem fetchAnswers_one {n : Nat} (hn : n < 16) (w : World) (x : ReadAns) : w.fetchAnswers [(n, x)] = w.fetchAnswer n x := by
  unfold World.fetchAnswers
  rw [answers_one, if_pos hn]
  rfl

theorem fetchAnswers_two {n m : Nat} (hn : n < 16) (hm : m < n) (w : World) (x y : ReadAns) :
    w.fetchAnswers [(n, x), (m, y)] = (w.fetchAnswer m y).fetchAnswer n x := by
  unfold World.fetchAnswers
  rw [answers_two hm, if_pos hn, if_pos (Nat.lt_trans hm hn)]
  rfl

theorem fetchAnswer_data {w : World} {n slot k c : Nat} {l : List (Nat × Nat × Nat)} (h : (w.ring n).reads = (slot, k, c) :: l) (bs : List (List Nat)) :
    w.fetchAnswer n (.data bs) = (w.setRing n { w.ring n with reads := l }).stampAll n slot ((List.range k).map fun i => bs.getD i []) := by
  unfold World.fetchAnswer
  rw [h]

theorem fetchAnswer_error {w : World} {n slot k c : Nat} {l : List (Nat × Nat × Nat)} (h : (w.ring n).reads = (slot, k, c) :: l) (e : Nat) :
    w.fetchAnswer n (.error e) = (w.aerRead e).haltRing n F.RING_ERR_FETCH := by
  unfold World.fetchAnswer
  rw [h]

/-- A halted ring has no read in flight and shows its error. -/
theorem haltRing_fetch (w : World) (n : Nat) : (w.haltRing n F.RING_ERR_FETCH).rgState n = rgHalted
    ∧ (w.haltRing n F.RING_ERR_FETCH).f F.RING_ERR_FETCH n = 1 ∧ ((w.haltRing n F.RING_ERR_FETCH).ring n).reads = [] := by
  unfold World.haltRing World.rgState
  rw [f_setRing, f_setRing, ring_setRing]
  exact ⟨f_sf_same _ _ _ _, f_sf_sf w _ _ _ _ (by decide), rfl⟩

theorem stampAll_stalls {w : World} {n slot : Nat} {b : List Nat} {l : List (List Nat)} (h : bitOf (fieldAt b 63 1) 7 = false) :
    (w.stampAll n slot (b :: l)).rgState n = rgStalled ∧ (w.stampAll n slot (b :: l)).f F.RING_ERR_OWN n = 1 := by
  have hstep : w.stampAll n slot (b :: l) = w.stallRing n := by
    unfold World.stampAll
    rw [h]
    rfl
  rw [hstep]
  unfold World.stallRing World.rgState
  rw [f_setRing, f_setRing]
  exact ⟨f_sf_same _ _ _ _, f_sf_sf w _ _ _ _ (by decide)⟩

theorem stampAll_takes {w : World} {n slot : Nat} {b : List Nat} {l : List (List Nat)} (h : bitOf (fieldAt b 63 1) 7 = true) :
    w.stampAll n slot (b :: l) = (w.stampDesc n slot b).stampAll n ((slot + 1) % w.ringLen n) l := by
  rw [World.stampAll, h]
  rfl

/-! ### The drain (R208, R216, R218, R220, R221) -/

/-- A record that its ring holds up has nothing to write. -/
theorem blockedOn_some {w : World} (h : w.blockedOn ≠ none) : ∃ r x l, w.buf = .record r x :: l
    ∧ (w.evtReady r.ring = false ∨ w.ringGiven r.ring = 0) := by
  unfold World.blockedOn at h
  split at h
  next r x l hbuf =>
    split at h
    next hb => exact ⟨r, x, l, hbuf, hb.2.imp_left fun hr => by simpa using hr⟩
    next => exact absurd rfl h
  next => exact absurd rfl h

theorem headReady_record {w : World} {r : HRec} {x : Bool} {l : List BufEnt} (hbuf : w.buf = .record r x :: l)
    (h : w.evtReady r.ring = false ∨ w.ringGiven r.ring = 0) : w.headReady = false := by
  have hwrites : w.headWrites = none := by
    unfold World.headWrites
    rw [hbuf]
    dsimp only
    rw [if_neg]
    rcases h with h | h
    · simp [h]
    · simp [h]
  unfold World.headReady
  rw [hwrites, Option.any_none, Bool.and_false]

theorem blockedOn_of_ready {w : World} (h : w.headReady = true) : w.blockedOn = none := by
  refine Decidable.byContradiction fun hb => ?_
  obtain ⟨r, x, l, hbuf, hr⟩ := blockedOn_some hb
  rw [headReady_record hbuf hr] at h
  cases h

/-- A bit of HI_ERR leaves the rings' registers, and the head of the buffer is the same entry. -/
theorem Keeps.hiErr {l : List Nat} {a b : World} (h : Keeps l a b) {B : Fld} {x : Option (Nat × Nat)} (hB : B.id < 4096)
    (hl : B.id :: [F.HI_ERRADDR_OFFSET.id, F.HI_ERRADDR_BAR.id, F.HI_ERRADDR_VALID.id] ⊆ l) : Keeps l a (b.hiErr B x) := by
  have hbit : Keeps l a (b.sf B 0 1) := h.sf ⟨hB, hl List.mem_cons_self⟩
  have haddr : ∀ G ∈ [F.HI_ERRADDR_OFFSET.id, F.HI_ERRADDR_BAR.id, F.HI_ERRADDR_VALID.id], G ∈ l := fun G hG => hl (List.mem_cons_of_mem _ hG)
  unfold World.hiErr
  refine Keeps.ite h ?_
  cases x with
  | none => exact Keeps.ite hbit.put hbit
  | some e =>
    have hat : Keeps l a (if b.hiErrWord = 0 then (((b.sf B 0 1).sf F.HI_ERRADDR_OFFSET 0 e.2).sf F.HI_ERRADDR_BAR 0 e.1).sf F.HI_ERRADDR_VALID 0 1
        else b.sf B 0 1) := Keeps.ite (((hbit.sf ⟨by decide, haddr _ (by decide)⟩).sf ⟨by decide, haddr _ (by decide)⟩).sf
          ⟨by decide, haddr _ (by decide)⟩) hbit
    exact Keeps.ite hat.put hat

theorem put_buf_head (w : World) (e : BufEnt) {x : BufEnt} {l : List BufEnt} (h : w.buf = x :: l) : ∃ l', (w.put e).buf = x :: l' := by
  unfold World.put
  split
  · exact ⟨l ++ [e], by rw [h]; rfl⟩
  · exact ⟨l, h⟩

theorem hiErr_buf_head (w : World) (B : Fld) {x : BufEnt} {l : List BufEnt} (h : w.buf = x :: l) : ∃ l', (w.hiErr B none).buf = x :: l' := by
  unfold World.hiErr
  dsimp only
  split
  · exact ⟨l, h⟩
  · split
    · exact put_buf_head _ _ h
    · exact ⟨l, h⟩

/-- The record that is held up is held up after HI_ERR.EVTBLOCK is raised, too. -/
theorem drain_blocked {w : World} (h : w.blockedOn ≠ none) : w.drain = w.hiErr F.HI_ERR_EVTBLOCK none := by
  obtain ⟨r, x, l, hbuf, hr⟩ := blockedOn_some h
  have hk : Keeps [F.HI_ERR_EVTBLOCK.id, F.HI_ERRADDR_OFFSET.id, F.HI_ERRADDR_BAR.id, F.HI_ERRADDR_VALID.id] w (w.hiErr F.HI_ERR_EVTBLOCK none) :=
    (Keeps.refl _ w).hiErr (by decide) (by decide)
  obtain ⟨l', hbuf'⟩ := hiErr_buf_head w F.HI_ERR_EVTBLOCK hbuf
  have hlen : (w.hiErr F.HI_ERR_EVTBLOCK none).ringLen r.ring = w.ringLen r.ring := by
    unfold World.ringLen
    rw [hk.f (by decide)]
  have hready : (w.hiErr F.HI_ERR_EVTBLOCK none).evtReady r.ring = false ∨ (w.hiErr F.HI_ERR_EVTBLOCK none).ringGiven r.ring = 0 := by
    unfold World.evtReady World.ringGiven World.fb
    rw [hlen, hk.f (by decide), hk.f (by decide), hk.f (by decide), hk.f (by decide)]
    exact hr
  have hsome : w.blockedOn.isSome = true := Option.isSome_iff_ne_none.mpr h
  unfold World.drain World.when
  rw [hsome, if_pos rfl]
  dsimp only
  rw [headReady_record hbuf' hready, if_neg Bool.false_ne_true]

theorem drain_open {w : World} (h : w.blockedOn = none) : w.drain = if w.headReady then (w.spend (w.headWrites.getD [])).drainHead else w := by
  unfold World.drain World.when
  rw [h]
  rfl

theorem drainHead_msix {w : World} {l : List BufEnt} {v : Nat} (h : w.buf = .msix v :: l) :
    w.drainHead = (World.sendMsix { w with buf := l } v).refill := by
  unfold World.drainHead
  rw [h]

theorem drainHead_wb {w : World} {l : List BufEnt} {n slot : Nat} {b : WB} {x : Bool} (h : w.buf = .wb n slot b x :: l) (hw : (w.ring n).waitOn = none) :
    w.drainHead = (World.writeSlotBack { w with buf := l } n slot 44 b.bytes).refill := by
  have hno : ¬ ((World.writeSlotBack { w with buf := l } n slot 44 b.bytes).ring n).waitOn = some slot := by
    rw [show (World.writeSlotBack { w with buf := l } n slot 44 b.bytes).ring n = w.ring n from rfl, hw]
    exact fun h => nomatch h
  unfold World.drainHead
  rw [h]
  dsimp only
  rw [if_neg hno]

theorem drainHead_record {w : World} {l : List BufEnt} {r : HRec} {x : Bool} (h : w.buf = .record r x :: l) {k : Nat}
    (hk : k = w.f F.RING_HEAD_HEAD r.ring) : w.drainHead = World.refill (World.sf (World.writeSlotBack { w with buf := l } r.ring k 0 r.bytes)
      F.RING_HEAD_HEAD r.ring ((k + 1) % (World.writeSlotBack { w with buf := l } r.ring k 0 r.bytes).ringLen r.ring)) := by
  subst hk
  unfold World.drainHead
  rw [h]

/-- Settles O23: each row by the ring engine's operation. -/
theorem ringTrafficAndLinkTakeEffect : Obligations.RingTrafficAndLinkTakeEffect := by
  unfold Obligations.RingTrafficAndLinkTakeEffect
  refine ⟨?_, ?_, fun w n m x y hn => ⟨fetchAnswers_one hn w x, fun hm => fetchAnswers_two hn hm w x y⟩, fun w n slot k c l h => ⟨fetchAnswer_data h,
    fun e => ?_⟩, fun w n slot b l => ⟨stampAll_stalls, stampAll_takes⟩, ?_, fun w l => ⟨fun v => drainHead_msix, fun n slot b x => drainHead_wb, ?_⟩,
    fun w n k off bytes => rfl, fun s n hn ht hu hp => ?_, fun s hon hper hp => ⟨_, rfl, ?_⟩⟩
  · rintro s n np pos k w rfl ht hh hnp hf
    exact show execDescriptorFetch n s np = _ from onW_next (fetch_turn ht hh hnp hf)
  · rintro s t l w rfl hon
    exact show execDescriptorStamp t l s = _ from onW_next (if_pos hon)
  · rw [fetchAnswer_error h]
    exact haltRing_fetch _ n
  · rintro s ph pd w rfl
    refine ⟨fun hh => ?_, fun hh hb => ?_, fun hb => ?_⟩
    · exact show execPostedWriteDrain s ph pd = _ from onW_next ((drain_open (blockedOn_of_ready hh)).trans (if_pos hh))
    · exact show execPostedWriteDrain s ph pd = _ from onW_next ((drain_open hb).trans (if_neg (Bool.eq_false_iff.mp hh)))
    · exact show execPostedWriteDrain s ph pd = _ from onW_next (drain_blocked hb)
  · rintro h x k v hbuf hk rfl
    exact drainHead_record hbuf hk
  · have htime : s.w.fb F.RING_ICOAL_TIME n = true := bne_iff_ne.mpr ht
    refine show execMsixCoalesceTimer n s = _ from onW_next ?_
    rw [decide_eq_true hn, htime, decide_eq_true hu, hp]
    rfl
  · have hperiod : s.w.fb F.RING_TELCFG_PERIOD 0 = true := bne_iff_ne.mpr hper
    refine show execTelemPeriod s = _ from onW_next ?_
    rw [hon, hperiod, hp]
    rfl

end Sys2Proof.Machine

/-! The boot check, stagings and the program port (R294, R467 to R478). -/

namespace Sys2Proof.Machine

/-! ### The boot check (R294, R467) -/

section
variable {w : World} {m : Mem} {b ecc : Nat} (hb : b = w.f F.FW_STAT_BOOTSEL 0)
include hb

theorem bootCheck_selected (h : w.bankCheck m b (ecc.testBit b) = 1) : w.bootCheck m ecc = (w.checkBank m b ecc).1.bootFrom m b false := by
  have hok : (w.checkBank m b ecc).2 = true := (checkBank_ok w m b ecc).trans (beq_iff_eq.mpr h)
  unfold World.bootCheck
  dsimp only
  rw [← hb]
  exact if_pos hok

section
variable {x : World} (hx : x = (w.checkBank m b ecc).1) (h : w.bankCheck m b (ecc.testBit b) ≠ 1)
include hx h

theorem bootCheck_other : w.bootCheck m ecc = if (x.checkBank m (1 - b) ecc).2 then ((x.checkBank m (1 - b) ecc).1.imageBad b).bootFrom m (1 - b) true
    else (((x.checkBank m (1 - b) ecc).1.imageBad b).sf F.GL_BOOTSTAT_STAGE 0 4).bootRec 0 := by
  have hbad : ¬ (w.checkBank m b ecc).2 = true := by
    rw [checkBank_ok, beq_iff_eq]
    exact h
  unfold World.bootCheck
  dsimp only
  rw [← hb, hx]
  exact if_neg hbad

theorem bootCheck_fallback (h2 : x.bankCheck m (1 - b) (ecc.testBit (1 - b)) = 1) :
    w.bootCheck m ecc = ((x.checkBank m (1 - b) ecc).1.imageBad b).bootFrom m (1 - b) true :=
  (bootCheck_other hb hx h).trans (if_pos ((checkBank_ok x m _ ecc).trans (beq_iff_eq.mpr h2)))

theorem bootCheck_stops (h2 : x.bankCheck m (1 - b) (ecc.testBit (1 - b)) ≠ 1) :
    w.bootCheck m ecc = (((x.checkBank m (1 - b) ecc).1.imageBad b).sf F.GL_BOOTSTAT_STAGE 0 4).bootRec 0 := by
  refine (bootCheck_other hb hx h).trans (if_neg ?_)
  rw [checkBank_ok, beq_iff_eq]
  exact h2
end
end

/-! ### Stagings (R238, R470) -/

/-- What an answer makes of the sector a staging has erased: its bytes are programmed, and an error ends the staging (R470). -/
def stagedSector (m : Mem) (u : World) (j : FwJob) : ReadAns → Mem × World
  | .error e => (programSector m j [], u.failJob j stXfer e)
  | .data bs => (programSector m j ((List.range j.sectorLen).map fun i => bs.flatten.getD i 0 % 256), u.moveJob j j.sectorLen)

section
variable {w : World} {m : Mem} {j : FwJob} {l : List FwJob} {c : Cmd} (hq : w.fwq = j :: l) (hc : j.cmd = some c) (hn : j.sectorLen ≠ 0)
  (hu : w.updateRefused = none) (hl : w.linkReady = true) (hh : w.headReady = false) (hnp : w.pcie.np ≠ some 0) {u : World}
  (hu' : u = World.emit { w with pcie := { w.pcie with np := w.pcie.np.map (· - 1) } } (.hostRead (j.addr + (j.pos - j.off)) j.sectorLen))
include hq hc hn hu hl hh hnp hu'

theorem stageSector_host (ans : ReadAns) : w.stageSector m ans = stagedSector m u j ans := by
  have hgo : ¬ (!w.linkReady || w.headReady || w.pcie.np == some 0) = true := by
    rw [hl, hh]
    simpa using hnp
  subst hu'
  unfold World.stageSector
  split
  next h =>
    rw [hq] at h
    cases h
  next i k h =>
    obtain ⟨rfl, rfl⟩ := List.cons.inj (hq.symm.trans h)
    dsimp only
    rw [if_neg hn, hu, hc]
    dsimp only
    rw [if_neg hgo]
    cases ans with
    | data bs => rfl
    | error e => rfl
end

theorem get_setBytes_length (m : Mem) (x : Nat) (l : List Nat) {y lo hi : Nat} (h : lo ≤ x) (hl : x + l.length ≤ hi) (hy : y < lo ∨ hi ≤ y) :
    Mem.get (m.setBytes x l) y = Mem.get m y :=
  get_setBytes_out l m x y (hy.imp (fun hlt => Nat.lt_of_lt_of_le hlt h) fun hge => Nat.le_trans hl hge)

/-- A programmed sector leaves every byte outside it. -/
theorem programSector_outside (m : Mem) (j : FwJob) (l : List Nat) (hl : l.length ≤ j.sectorLen) {a : Nat}
    (ha : a < bankByte j.bank + j.pos / 4096 * 4096 ∨ bankByte j.bank + j.pos / 4096 * 4096 + 4096 ≤ a) :
    Mem.get (programSector m j l) a = Mem.get m a := by
  have hlen : j.sectorLen ≤ (j.pos / 4096 + 1) * 4096 - j.pos := Nat.sub_le_sub_right (Nat.min_le_right _ _) _
  unfold programSector
  dsimp only
  rw [get_setBytes_length (lo := bankByte j.bank + j.pos / 4096 * 4096) (hi := bankByte j.bank + j.pos / 4096 * 4096 + 4096) _ _ _
    (by omega) (by omega) ha, Mem.get_erase, if_neg (by omega)]

theorem stageSectorErase_next {s : State} (hon : s.w.on 14 = true) {ans : ReadAns} {q : Mem × World} (hq : s.w.stageSector s.mem ans = q) :
    exec (.stageSectorErase ans) s = .next { s with mem := q.1, w := q.2 } := by
  change execStageSectorErase ans s = _
  exact onM_next ((if_pos hon).trans hq)

theorem stagingDone_host {w : World} {j : FwJob} {l : List FwJob} {c : Cmd} (hq : w.fwq = j :: l) (hc : j.cmd = some c) (hn : j.sectorLen = 0) :
    w.stagingDone = (w.dropJob.complete c stOk 0 0).stagedWaits := by
  unfold World.stagingDone
  rw [hq]
  dsimp only
  rw [if_neg (not_not_intro hn), hc]

/-! ### The program port (R478) -/

section
variable {w : World} {a : Nat} (ha : a = w.f F.FW_PADDR_ADDR 0) (hp : w.fwp = none)
include ha hp

theorem portGo_outside (h : inSettings a = false) (prog : Bool) : w.portGo prog = w.sf F.FW_PCTL_ERR 0 1 := by
  unfold World.portGo
  dsimp only
  rw [← ha, hp, h]
  rfl

theorem portGo_erase (h : inSettings a = true) : w.portGo false = World.sf { w with fwp := some (a, none) } F.FW_PCTL_BUSY 0 1 := by
  unfold World.portGo
  dsimp only
  rw [← ha, hp, h]
  rfl

theorem portGo_program (h : inSettings a = true) (h32 : a % 32 = 0) : w.portGo true = World.sf { w with fwp := some (a, some
    ((List.range 16).flatMap fun i => [w.f F.FW_PDATA_DATA i % 65536, w.f F.FW_PDATA_DATA i / 65536])) } F.FW_PCTL_BUSY 0 1 := by
  unfold World.portGo
  dsimp only
  rw [← ha, hp, h, h32]
  rfl
end

theorem programPortDone_next {s : State} (hon : s.w.on 14 = true) {q : Mem × World} (hq : s.w.portDone s.mem = q) :
    exec .programPortDone s = .next { s with mem := q.1, w := q.2 } := by
  change execProgramPortDone s = _
  exact onM_next ((if_pos hon).trans hq)

theorem portDone_erase {w : World} {a : Nat} (h : w.fwp = some (a, none)) (m : Mem) : w.portDone m
    = (Mem.erase m (2 * w.flashAddr (a / 2048 * 2048)) (2 * w.flashAddr (a / 2048 * 2048) + 4096), World.sf { w with fwp := none } F.FW_PCTL_BUSY 0 0) := by
  unfold World.portDone
  rw [h]

theorem portDone_program {w : World} {a : Nat} {d : List Nat} (h : w.fwp = some (a, some d)) (m : Mem) : w.portDone m
    = (w.memWrites m a d, World.sf { w with fwp := none } F.FW_PCTL_BUSY 0 0) := by
  unfold World.portDone
  rw [h]

/-- Settles O34: each row by its operation, the sector's frame by the bytes that are programmed. -/
theorem flashAndBootTakeEffect : Obligations.FlashAndBootTakeEffect := by
  unfold Obligations.FlashAndBootTakeEffect
  refine ⟨?_, fun s j l c u hon hq hc hn hu hl hh hnp hu' => ⟨fun bs => ?_, fun e => ?_, ?_⟩, fun s j l c hon hq hc hn => ?_,
    fun s a hon ha => ⟨fun hp h => ⟨?_, ?_⟩, fun hp h => ?_, fun hp h h32 => ⟨_, ?_, rfl⟩, fun b hp => ?_, fun b d hp => ?_⟩⟩
  · rintro s ecc t w rfl hst h12 h14 h20 htcm hfree hidle hwipe b hb
    have hgo : execBootCheck ecc t s = .next (s.withW ((s.w.upTo t).bootCheck s.mem ecc)) :=
      onW_next (if_pos ⟨hst, (on_upTo _ _ _).trans h12, (on_upTo _ _ _).trans h14, (on_upTo _ _ _).trans h20, htcm, hfree, hidle, fb_of_zero hwipe⟩)
    refine ⟨fun h => ?_, fun x hx h => ⟨fun h2 => ?_, fun h2 => ?_⟩⟩
    · rw [← bootCheck_selected hb h]
      exact hgo
    · rw [← bootCheck_fallback hb hx h h2]
      exact hgo
    · rw [← bootCheck_stops hb hx h h2]
      exact hgo
  · have hexec := stageSectorErase_next hon (stageSector_host (m := s.mem) hq hc hn hu hl hh hnp hu' (.data bs))
    dsimp only [stagedSector] at hexec
    refine ⟨_, _, hexec, rfl, ?_, ?_, fun a => programSector_outside s.mem j _ ?_⟩
    · rw [hu']
      unfold World.moveJob World.emit
      rw [show (({ s.w with pcie := { s.w.pcie with np := s.w.pcie.np.map (· - 1) } } : World)).fwq = s.w.fwq from rfl, hq]
      rfl
    · rw [hu']
      rfl
    · exact Nat.le_of_eq ((List.length_map _).trans List.length_range)
  · have hexec := stageSectorErase_next hon (stageSector_host (m := s.mem) hq hc hn hu hl hh hnp hu' (.error e))
    exact hexec
  · have hhead : (s.w.fwq.head?.any fun j => j.cmd.isSome) = true := by
      rw [hq, List.head?_cons, Option.any_some, hc]
      rfl
    change execCompletionTimeout 2 0 s = _
    refine onM_next (r := (_, _)) ?_
    rw [if_neg (fun h => absurd h.1 (by decide)), if_neg (fun h => absurd h.1 (by decide)), if_pos ⟨rfl, hon, hhead⟩]
    exact stageSector_host hq hc hn hu hl hh hnp hu' (.error 1)
  · exact show execStagingDone s = _ from onW_next ((if_pos hon).trans (stagingDone_host hq hc hn))
  · exact show execErase s = _ from onW_next ((if_pos hon).trans (portGo_outside ha hp h false))
  · exact show execProg s = _ from onW_next ((if_pos hon).trans (portGo_outside ha hp h true))
  · exact show execErase s = _ from onW_next ((if_pos hon).trans (portGo_erase ha hp h))
  · exact show execProg s = _ from onW_next ((if_pos hon).trans (portGo_program ha hp h h32))
  · have hexec := programPortDone_next hon (portDone_erase hp s.mem)
    exact hexec
  · have hexec := programPortDone_next hon (portDone_program hp s.mem)
    exact hexec

end Sys2Proof.Machine

/-! Images over the rope: the sender and the receiver (R475 to R477). -/

namespace Sys2Proof.Machine

/-! ### The sender (R475, R476) -/

theorem fwRsendStart_next {s : State} (h14 : s.w.on 14 = true) (h18 : s.w.on 18 = true) {v : World} (hv : s.w.rsendStart = v) :
    exec .fwRsendStart s = .next (s.withW v) := by
  change execFwRsendStart s = _
  refine onW_next ?_
  rw [h14, h18]
  exact hv

theorem ropeSend_regs (w : World) (typ dst : Nat) (pay : List Nat) : (w.ropeSend typ dst pay).regs = w.regs := (ropeSend_rest w typ dst pay).1

theorem rsendStart_spec {w : World} (h : w.f F.FW_RSEND_BUSY 0 = 0) : w.rsendStart.f F.FW_RSEND_BUSY 0 = 1 ∧ w.rsendStart.f F.FW_RSEND_RESULT 0 = 0
    ∧ w.rsendStart.side.tx = some { xid := w.side.xid, dst := w.f F.FW_RSEND_DST 0, bank := w.f F.FW_RSEND_BANK 0, len := w.f F.FW_RSLEN_LENGTH 0, at_ := w.clk.tk } := by
  obtain ⟨u, hu, hregs, htx⟩ : ∃ u : World, w.rsendStart = u
      ∧ u.regs = (((w.sf F.FW_RSEND_BUSY 0 1).sf F.FW_RSEND_RESULT 0 0).ropeSend 3 (w.f F.FW_RSEND_DST 0)
        (imgHead 1 w.side.xid (w.f F.FW_RSLEN_LENGTH 0))).regs
      ∧ u.side.tx = some { xid := w.side.xid, dst := w.f F.FW_RSEND_DST 0, bank := w.f F.FW_RSEND_BANK 0, len := w.f F.FW_RSLEN_LENGTH 0, at_ := w.clk.tk } := by
    unfold World.rsendStart
    rw [fb_of_zero h, if_neg Bool.false_ne_true]
    exact ⟨_, rfl, rfl, rfl⟩
  rw [ropeSend_regs] at hregs
  have hkeep : Keeps [] ((w.sf F.FW_RSEND_BUSY 0 1).sf F.FW_RSEND_RESULT 0 0) u := (Keeps.refl _ _).regs hregs
  rw [hu]
  refine ⟨?_, ?_, htx⟩
  · rw [hkeep.f (by decide), f_sf_sf _ _ _ _ _ (by decide)]
    rfl
  · rw [hkeep.f (by decide), f_sf_same]
    rfl

theorem rope_next {s : State} {f : World → World} (hon : s.w.ropeOn = true) (h14 : s.w.on 14 = true) {v : World} (hv : f s.w = v) :
    onW s (fun w => if w.ropeOn && w.on 14 then f w else w) = .next (s.withW v) := by
  refine onW_next ?_
  rw [hon, h14]
  exact hv

theorem ropeAck_close {w : World} {x : RopeTx} (hx : w.side.tx = some x) (m : Mem) (arg : Nat) (hs : x.stage = 2) :
    w.ropeAck m 3 x.xid arg = w.endTx 1 := by
  unfold World.ropeAck
  rw [hx]
  dsimp only
  rw [if_neg (not_not_intro rfl), hs]
  rfl

section
variable {s : State} {x : RopeTx} (hon : s.w.ropeOn = true) (h14 : s.w.on 14 = true) (hx : s.w.side.tx = some x)
include hon h14 hx

theorem ropeNak_refuses (sub arg cause : Nat) (h11 : cause ≠ 0x11) (h12 : cause ≠ 0x12) : exec (.ropeNak sub x.xid arg cause) s = .next (s.withW (s.w.endTx 3)) := by
  change execRopeNak sub x.xid arg cause s = _
  refine onW_next ?_
  rw [hx]
  dsimp only
  rw [hon, h14, if_neg (by simp), if_neg (not_or.mpr ⟨h11, h12⟩)]

/-- A frame of another transfer changes nothing. -/
theorem rope_other (sub xid arg cause : Nat) (h : xid ≠ x.xid) : exec (.ropeNak sub xid arg cause) s = .next s
    ∧ exec (.ropeAck sub xid arg) s = .next s := by
  refine ⟨?_, ?_⟩
  · change execRopeNak sub xid arg cause s = _
    refine onW_next (v := s.w) ?_
    rw [hx]
    exact if_pos (by simp [h.symm])
  · change execRopeAck sub xid arg s = _
    refine onW_next (v := s.w) ?_
    unfold World.ropeAck
    rw [hon, h14, hx]
    exact if_pos h.symm

end

theorem resendTimeout_due {s : State} {x : RopeTx} (h14 : s.w.on 14 = true) (hx : s.w.side.tx = some x) {t arg : Nat} (hs : x.stage = 0) (ht : x.at_ + 12800000 ≤ (s.w.upTo t).clk.tk) : exec (.imageResendTimeout 1 arg t) s
    = .next (s.withW (if 4 ≤ x.tries then (s.w.upTo t).endTx 2
      else ((s.w.upTo t).sendFrame s.mem x 1 x.len).putTx { x with tries := x.tries + 1, at_ := (s.w.upTo t).clk.tk })) := by
  have hgo : (s.w.upTo t).on 14 = true ∧ x.sentAt 1 arg + 12800000 ≤ (s.w.upTo t).clk.tk := ⟨(on_upTo _ _ _).trans h14, ht⟩
  have hres : (s.w.upTo t).ropeResend s.mem x 1 arg = if 4 ≤ x.tries then (s.w.upTo t).endTx 2
      else ((s.w.upTo t).sendFrame s.mem x 1 x.len).putTx { x with tries := x.tries + 1, at_ := (s.w.upTo t).clk.tk } := by
    unfold World.ropeResend
    rw [if_neg (fun h => absurd h.2 (by decide)), if_pos (.inl ⟨hs, rfl⟩)]
    rfl
  change execImageResendTimeout 1 arg t s = _
  refine onW_next ?_
  dsimp only
  rw [side_upTo, hx]
  exact (if_pos hgo).trans hres

theorem resendTimeout_early {s : State} {x : RopeTx} (hx : s.w.side.tx = some x) {t arg : Nat} (ht : (s.w.upTo t).clk.tk < x.at_ + 12800000) :
    exec (.imageResendTimeout 1 arg t) s = .next (s.withW (s.w.upTo t)) := by
  change execImageResendTimeout 1 arg t s = _
  refine onW_next ?_
  dsimp only
  rw [side_upTo, hx]
  exact if_neg fun ⟨_, hdue⟩ => Nat.not_lt.mpr hdue ht

theorem endTx_spec (w : World) (res : Nat) : (w.endTx res).f F.FW_RSEND_BUSY 0 = 0
    ∧ (w.endTx res).f F.FW_RSEND_RESULT 0 = res % 2 ^ F.FW_RSEND_RESULT.wd ∧ (w.endTx res).side.tx = none := by
  unfold World.endTx
  exact ⟨f_sf_sf _ _ _ _ _ (by decide), f_sf_same _ _ _ _, rfl⟩

/-! ### The receiver (R475, R477) -/

section
variable {w : World} {src xid len : Nat} (hrx : w.side.rx = none)
include hrx

theorem imageOpen_disabled (h : w.f F.FW_RXCFG_EN 0 = 0) : w.imageOpen src xid len true = w.nak src 1 xid len 0x10 := by
  unfold World.imageOpen
  rw [hrx, fb_of_zero h]
  rfl

theorem imageOpen_accepted (h : w.f F.FW_RXCFG_EN 0 ≠ 0) (hq : w.fwq = []) (h1 : 1 ≤ len) (h4 : len ≤ 4194304) (hu : w.updateRefused = none) :
    w.imageOpen src xid len true = w.openRx src xid len := by
  have hen : w.fb F.FW_RXCFG_EN 0 = true := bne_iff_ne.mpr h
  have hok : ¬ (!w.fb F.FW_RXCFG_EN 0 || w.side.rx.isSome || !w.fwq.isEmpty || len == 0 || decide (4194304 < len)) = true := by
    rw [hen, hrx, hq]
    simp [Nat.ne_of_gt h1, h4]
  unfold World.imageOpen
  rw [if_neg (by decide), if_neg (by rw [hrx]; exact Bool.false_ne_true), if_neg hok, hu]
end

section
variable {w : World} {src xid off : Nat} {data : List Nat} {x : RopeRx} (hrx : w.side.rx = some x) (hid : x.xid = xid) (hsrc : x.src = src)
  (hc : x.cause = none)
include hrx hid hsrc hc

theorem imageData_open : w.imageData src xid off data true = if off < x.next then w.ropeSend 4 src (imgHead 2 xid off)
    else if x.next < off ∨ x.len < off + data.length then w.nak src 2 xid off 0x12
    else World.ropeSend { w with side := { w.side with rx := some { x with buf := x.buf ++ data.map (· % 256), next := x.next + data.length } } }
      4 src (imgHead 2 xid off) := by
  unfold World.imageData
  rw [if_neg (by decide)]
  split
  next h =>
    rw [hrx] at h
    cases h
  next y h =>
    obtain rfl := Option.some.inj (hrx.symm.trans h)
    rw [if_neg (by simp [hid, hsrc]), hc]

/-- Data in order is taken. -/
theorem imageData_taken (ho : off = x.next) (hl : off + data.length ≤ x.len) : (w.imageData src xid off data true).side.rx
      = some { x with buf := x.buf ++ data.map (· % 256), next := x.next + data.length }
    ∧ (w.imageData src xid off data true).regs = w.regs := by
  rw [imageData_open hrx hid hsrc hc, if_neg (by omega), if_neg (by omega)]
  obtain ⟨hregs, hside⟩ := ropeSend_rest { w with side := { w.side with rx := some { x with buf := x.buf ++ data.map (· % 256), next := x.next + data.length } } }
    4 src (imgHead 2 xid off)
  rw [hregs, hside]
  exact ⟨rfl, rfl⟩

theorem imageData_early (h : x.next < off) : w.imageData src xid off data true = w.nak src 2 xid off 0x12 := by
  rw [imageData_open hrx hid hsrc hc, if_neg (Nat.not_lt.mpr (Nat.le_of_lt h)), if_pos (.inl h)]

theorem imageClose_open : w.imageClose src xid true = if x.next ≠ x.len then w.nak src 3 xid 0 0x12
    else if w.fwq.any fun j => j.cmd.isNone then { w with side := { w.side with rx := some { x with close := true } } } else w.ackClose x := by
  unfold World.imageClose
  rw [if_neg (by decide)]
  split
  next h =>
    rw [hrx] at h
    cases h
  next y h =>
    obtain rfl := Option.some.inj (hrx.symm.trans h)
    rw [if_neg (by simp [hid, hsrc]), hc]

theorem imageClose_acknowledged (h : x.next = x.len) (hq : ∀ j ∈ w.fwq, j.cmd ≠ none) : w.imageClose src xid true = w.ackClose x := by
  rw [imageClose_open hrx hid hsrc hc, if_neg (not_not_intro h), if_neg]
  rw [List.any_eq_true]
  rintro ⟨j, hj, hnone⟩
  exact hq j hj (Option.isNone_iff_eq_none.mp hnone)
end

/-- Settles O35: each frame by the sender's or the receiver's operation. -/
theorem ropeImagesTakeEffect : Obligations.RopeImagesTakeEffect := by
  unfold Obligations.RopeImagesTakeEffect
  refine ⟨fun s h14 h18 => ⟨fun h => ?_, fun h => ⟨_, fwRsendStart_next h14 h18 rfl, rsendStart_spec h⟩⟩,
    fun s x arg t hon h14 hx => ⟨fun hs => show execRopeAck 3 x.xid arg s = _ from rope_next hon h14 (ropeAck_close hx s.mem arg hs),
      fun sub cause h11 h12 => ropeNak_refuses hon h14 hx sub arg cause h11 h12, fun sub xid cause h => rope_other hon h14 hx sub xid arg cause h,
      ?_, ?_, ?_⟩, endTx_spec,
    fun s src xid len off data hon h14 => ⟨show execImageOpen src xid len false s = _ from rope_next hon h14 rfl,
      show execImageData src xid off data false s = _ from rope_next hon h14 rfl, show execImageClose src xid false s = _ from rope_next hon h14 rfl, fun hrx h => ?_,
      fun hrx h hq h1 h4 hu => ?_, fun x hrx hid hsrc hc => ⟨fun ho hl => ?_, fun h => ?_, fun h => ?_, fun h hq => ?_⟩⟩⟩
  · exact fwRsendStart_next (v := s.w) h14 h18 (if_pos (bne_iff_ne.mpr h))
  · rintro w rfl hs ht h4
    rw [resendTimeout_due h14 hx hs ht, if_pos h4]
  · rintro w rfl hs ht h4
    rw [resendTimeout_due h14 hx hs ht, if_neg (Nat.not_le.mpr h4)]
    exact ⟨_, rfl, rfl, ropeSend_regs _ _ _ _⟩
  · rintro w rfl ht
    exact resendTimeout_early hx ht
  · exact show execImageOpen src xid len true s = _ from rope_next hon h14 (imageOpen_disabled hrx h)
  · exact show execImageOpen src xid len true s = _ from rope_next hon h14 (imageOpen_accepted hrx h hq h1 h4 hu)
  · exact ⟨_, show execImageData src xid off data true s = _ from rope_next hon h14 rfl, imageData_taken hrx hid hsrc hc ho hl⟩
  · exact show execImageData src xid off data true s = _ from rope_next hon h14 (imageData_early hrx hid hsrc hc h)
  · exact show execImageClose src xid true s = _ from rope_next hon h14 ((imageClose_open hrx hid hsrc hc).trans (if_pos h))
  · exact show execImageClose src xid true s = _ from rope_next hon h14 (imageClose_acknowledged hrx hid hsrc hc h hq)

end Sys2Proof.Machine

/-! Unlocks, keys, board OTP and the life cycle (R298 to R301, R468, R469, R480 to R483). -/

namespace Sys2Proof.Machine

/-! ### Unlocks (R480 to R482) -/

theorem dbgUnlock_open {w : World} (hl : w.f F.LC_STATE_STATE 0 = 3) : w.dbgUnlock = if (w.authorise .owner).2 then
    ((w.authorise .owner).1.sf F.SEC_DBG_UNLOCKED 0 1).cairn 0x50 (leBytes 4 2 ++ leBytes 4 ((w.authorise .owner).1.f F.SEC_AUTHCTL_ARG 0)
      ++ leBytes 4 ((w.authorise .owner).1.f F.SEC_AUTHCTL_KEYSLOT 0) ++ leBytes 4 1) else (w.authorise .owner).1 := by
  unfold World.dbgUnlock World.lcState
  rw [if_neg (not_not_intro hl)]

/-- A failed attempt shows its result and its bit, and changes no other field. -/
theorem stale_spec {w : World} (hf : w.sec.fresh = false) (c : KeyClass) : (w.authorise c).2 = false
    ∧ (w.authorise c).1.f F.SEC_AUTHCTL_RESULT 0 = 3 ∧ (w.authorise c).1.f F.SEC_ERR_NONCE 0 = 1
    ∧ Keeps [F.SEC_AUTHCTL_RESULT.id, F.SEC_ERR_NONCE.id, F.CRN_STAT_DROPPED.id] w (w.authorise c).1 := by
  rw [authorise_stale w c hf]
  refine ⟨rfl, secFail_res _ _ _ (by decide), secFail_err _ _ _ (by decide), ?_⟩
  have hbase : Keeps [F.SEC_AUTHCTL_RESULT.id, F.SEC_ERR_NONCE.id, F.CRN_STAT_DROPPED.id] w { w with sec := { w.sec with fresh := false } } :=
    (Keeps.refl _ w).with_sec
  exact hbase.trans (secFail_keeps _ 3 F.SEC_ERR_NONCE (by decide))

theorem dbgUnlock_stale {w : World} (hl : w.f F.LC_STATE_STATE 0 = 3) (hf : w.sec.fresh = false) : w.dbgUnlock.f F.SEC_AUTHCTL_RESULT 0 = 3
    ∧ w.dbgUnlock.f F.SEC_ERR_NONCE 0 = 1 ∧ w.dbgUnlock.f F.SEC_DBG_UNLOCKED 0 = w.f F.SEC_DBG_UNLOCKED 0 := by
  obtain ⟨hno, hres, herr, hkeep⟩ := stale_spec hf .owner
  rw [dbgUnlock_open hl, hno, if_neg Bool.false_ne_true]
  exact ⟨hres, herr, hkeep.f (by decide) 0⟩

section
variable {w : World} (hf : w.sec.fresh = true) (hc : w.inClass .owner (w.f F.SEC_AUTHCTL_KEYSLOT 0) = true) (hs : w.signed = true)
include hf hc hs

theorem dbgUnlock_signed (hl : w.f F.LC_STATE_STATE 0 = 3) : w.dbgUnlock.f F.SEC_AUTHCTL_RESULT 0 = 1 ∧ w.dbgUnlock.f F.SEC_DBG_UNLOCKED 0 = 1
    ∧ w.dbgUnlock.sec.fresh = false := by
  rw [dbgUnlock_open hl, authorise_ok w .owner hf hc hs, if_pos rfl]
  refine ⟨?_, ?_, ?_⟩
  · rw [(cairn_keeps _ _ _).f (by decide), f_sf_sf _ _ _ _ _ (by decide)]
    rfl
  · rw [(cairn_keeps _ _ _).f (by decide), f_sf_same]
    rfl
  · rw [cairn_sec]
    rfl

theorem ownUnlock_signed : w.ownUnlock.f F.SEC_AUTHCTL_RESULT 0 = 1 ∧ w.ownUnlock.f F.SEC_OWNLOCK_LOCKED 0 = 0 ∧ w.ownUnlock.sec.fresh = false := by
  unfold World.ownUnlock
  rw [authorise_ok w .owner hf hc hs]
  exact ⟨f_sf_sf _ _ _ _ _ (by decide), f_sf_same _ _ _ _, rfl⟩
end

theorem ownUnlock_stale {w : World} (hf : w.sec.fresh = false) : w.ownUnlock.f F.SEC_AUTHCTL_RESULT 0 = 3
    ∧ w.ownUnlock.f F.SEC_OWNLOCK_LOCKED 0 = w.f F.SEC_OWNLOCK_LOCKED 0 := by
  obtain ⟨hno, hres, -, hkeep⟩ := stale_spec hf .owner
  have hstep : w.ownUnlock = (w.authorise .owner).1 := by
    unfold World.ownUnlock
    exact if_neg (Bool.eq_false_iff.mp hno)
  rw [hstep]
  exact ⟨hres, hkeep.f (by decide) 0⟩

/-! ### Keys (R468, R481) -/

theorem testBit_orBit (w : World) (F : Fld) (k : Nat) (hk : k < F.wd) : ((w.orBit F 0 k).f F 0).testBit k = true := by
  unfold World.orBit
  rw [f_sf_same, Nat.testBit_mod_two_pow, Nat.testBit_or, Nat.testBit_two_pow_self, Bool.or_true, decide_eq_true hk]
  rfl

theorem keyProg_programs {w : World} {k : Nat} (hk : k = w.f F.SEC_AUTHCTL_ARG 0) (h4 : 4 ≤ k) (h8 : k < 8)
    (hl : w.f F.LC_STATE_STATE 0 = 2 ∨ w.f F.LC_STATE_STATE 0 = 4) (hfree : (w.f F.SEC_KEYSTAT_FILLED 0).testBit k = false) :
    mget [] w.keyProg.sec.keys k = w.authBytes 12 ∧ (w.keyProg.f F.SEC_KEYSTAT_FILLED 0).testBit k = true ∧ w.keyProg.f F.SEC_AUTHCTL_RESULT 0 = 1 := by
  have hok : ¬ (k < 4 ∨ 8 ≤ k ∨ (w.lcState ≠ 2 ∧ w.lcState ≠ 4) ∨ (w.f F.SEC_KEYSTAT_FILLED 0).testBit k = true) := by
    unfold World.lcState
    rw [hfree]
    rintro (h | h | ⟨h2, h4'⟩ | h)
    · omega
    · omega
    · exact hl.elim h2 h4'
    · cases h
  have hstep : w.keyProg = (World.orBit { w with sec := { w.sec with fresh := false, keys := mset [] w.sec.keys k (w.authBytes 12) } }
      F.SEC_KEYSTAT_FILLED 0 k).sf F.SEC_AUTHCTL_RESULT 0 1 := by
    unfold World.keyProg
    dsimp only
    rw [← hk]
    exact if_neg hok
  have hkeys : w.keyProg.sec.keys = mset [] w.sec.keys k (w.authBytes 12) := by
    rw [hstep]
    rfl
  refine ⟨by rw [hkeys, mget_mset_same], ?_, by rw [hstep]; exact f_sf_same _ _ _ _⟩
  rw [hstep]
  rw [f_sf_ne _ _ _ _ (by decide)]
  exact testBit_orBit _ _ _ h8

theorem secState_err (w : World) : (w.secState F.SEC_ERR_KEY).f F.SEC_ERR_KEY 0 = 1 ∧ (w.secState F.SEC_ERR_KEY).sec.keys = w.sec.keys
    ∧ (w.secState F.SEC_ERR_KEY).f F.SEC_KEYSTAT_REVOKED 0 = w.f F.SEC_KEYSTAT_REVOKED 0 := by
  unfold World.secState
  refine ⟨secFail_err _ _ _ (by decide), ?_, (secFail_keeps _ 4 F.SEC_ERR_KEY (by decide)).f (by decide) 0⟩
  rw [secFail_sec]

theorem keyProg_refused {w : World} {k : Nat} (hk : k = w.f F.SEC_AUTHCTL_ARG 0) (h : k < 4 ∨ (w.f F.SEC_KEYSTAT_FILLED 0).testBit k = true) :
    w.keyProg = w.secState F.SEC_ERR_KEY := by
  unfold World.keyProg
  dsimp only
  rw [← hk]
  exact if_pos (h.imp_right fun hfull => .inr (.inr hfull))

theorem revoke_unfilled {w : World} {k : Nat} (hk : k = w.f F.SEC_AUTHCTL_ARG 0) (h : (w.f F.SEC_KEYSTAT_FILLED 0).testBit k = false) :
    w.revoke = w.secState F.SEC_ERR_KEY := by
  have hslot : w.slotOk k = false := by
    unfold World.slotOk
    rw [h, Bool.and_false, Bool.false_and]
  unfold World.revoke
  dsimp only
  rw [← hk]
  exact if_pos (.inr (.inl hslot))

/-! ### Versions and board OTP (R469, R483) -/

section
variable {w : World} {m : Mem} {v : Nat} (hv : v = hdr m (w.f F.FW_STAT_ACTIVE 0) 12 4)
include hv

theorem svnCommit_lower (h : v ≤ w.f F.SEC_SVNMIN_SVN 0) : w.svnCommit m = w := by
  unfold World.svnCommit
  dsimp only
  rw [← hv]
  exact if_pos (.inr h)

theorem svnCommit_higher (hs : w.f F.GL_BOOTSTAT_STAGE 0 = 3) (h : w.f F.SEC_SVNMIN_SVN 0 < v) : w.svnCommit m =
    if 64 ≤ w.sec.svnUps then w.sf F.SEC_ERR_SVN 0 1
    else World.sf { w with sec := { w.sec with svnUps := w.sec.svnUps + 1 } } F.SEC_SVNMIN_SVN 0 v := by
  unfold World.svnCommit
  dsimp only
  rw [← hv, if_neg (not_or.mpr ⟨not_not_intro hs, Nat.not_le.mpr h⟩)]
end

section
variable {w : World} {k : Nat} (hk : k = w.f F.SEC_OTPCTL_WORD 0)
include hk

theorem otpWrite_refused (h : w.f F.LC_STATE_STATE 0 ≠ 2 ∨ 78 < k ∨ k ∈ w.otpWr) : w.otpWrite = w.sf F.SEC_ERR_OTPW 0 1 := by
  unfold World.otpWrite World.lcState
  dsimp only
  rw [← hk]
  exact if_pos (h.imp_right (Or.imp_right List.contains_iff_mem.mpr))

theorem otpWrite_once (hl : w.f F.LC_STATE_STATE 0 = 2) (h78 : k ≤ 78) (hn : k ∉ w.otpWr) :
    w.otpWrite = { w with otp := mset 0 w.otp k (w.f F.SEC_OTPDATA_DATA 0), otpWr := w.otpWr ++ [k] } := by
  unfold World.otpWrite World.lcState
  dsimp only
  rw [← hk]
  refine if_neg ?_
  rintro (h | h | h)
  · exact h hl
  · exact Nat.not_lt.mpr h78 h
  · exact hn (List.contains_iff_mem.mp h)
end

/-! ### The life cycle (R298 to R301) -/

theorem lcReq_unlisted {w : World} {new : Nat} (h : lcClass w.lcState new = none) : w.lcReq new = w.sf F.LC_ERR_BADVAL 0 1 := by
  unfold World.lcReq
  rw [h]

theorem lcReq_next {s : State} {target t : Nat} (hon : s.w.on 20 = true) (hb : (s.w.upTo t).f F.LC_STAT_BUSY 0 = 0)
    (hw : (s.w.upTo t).pwr.warm = none) {v : World} (hv : (s.w.upTo t).lcReq (target % 8) = v) : exec (.lcReq target t) s = .next (s.withW v) :=
  show execLcReq target t s = _ from onW_next ((if_pos ⟨(on_upTo _ _ _).trans hon, fb_of_zero hb, hw⟩).trans hv)

theorem lcWipe_next {s : State} {t : Nat} (hp : (s.w.upTo t).f F.LC_STATE_WIPEPEND 0 = 1) (hon : s.w.on 14 = true)
    (hs : (s.w.upTo t).f F.GL_BOOTSTAT_STAGE 0 = 5) {q : Mem × World} (hq : (s.w.upTo t).lcWipe s.mem = q) :
    exec (.lcWipe t) s = .next { s with mem := q.1, w := q.2 } := by
  change execLcWipe t s = _
  exact onM_next ((if_pos ⟨fb_of_one hp, (on_upTo _ _ _).trans hon, hs⟩).trans hq)

theorem lcWipe_pend (w : World) (m : Mem) : (w.lcWipe m).2.f F.LC_STATE_WIPEPEND 0 = 0 := by
  have hk : Keeps [F.GL_BOOTSTAT_STAGE.id] (w.sf F.LC_STATE_WIPEPEND 0 0) (w.lcWipe m).2 := (Keeps.refl _ _).when fun x hx => hx.sf (by decide)
  rw [hk.f (by decide), f_sf_same]
  rfl

/-- The two settings areas read zero after the wipe, and nothing else of the memory changes. -/
theorem lcWipe_settings {w : World} (h : w.f F.LC_STATE_STATE 0 ≠ 5) (m : Mem) (a : Nat) :
    ((2 * 0x011E0000 ≤ a ∧ a < 2 * 0x01200000 ∨ 2 * 0x013E0000 ≤ a ∧ a < 2 * 0x01400000) → Mem.get (w.lcWipe m).1 a = 0)
    ∧ (¬ (2 * 0x011E0000 ≤ a ∧ a < 2 * 0x01200000) → ¬ (2 * 0x013E0000 ≤ a ∧ a < 2 * 0x01400000) → Mem.get (w.lcWipe m).1 a = Mem.get m a) := by
  have hmem : (w.lcWipe m).1 = (m.setBytes (2 * 0x011E0000) (List.replicate 0x40000 0)).setBytes (2 * 0x013E0000) (List.replicate 0x40000 0) :=
    if_neg h
  have hsecond : ¬ (2 * 0x013E0000 ≤ a ∧ a < 2 * 0x01400000) → Mem.get (w.lcWipe m).1 a = Mem.get (m.setBytes (2 * 0x011E0000) (List.replicate 0x40000 0)) a := by
    intro hout
    rw [hmem]
    refine get_setBytes_out _ _ _ _ ?_
    rw [List.length_replicate]
    omega
  refine ⟨fun hin => ?_, fun h1 h2 => ?_⟩
  · by_cases h2 : 2 * 0x013E0000 ≤ a ∧ a < 2 * 0x01400000
    · rw [hmem]
      exact get_setBytes_zero _ _ _ _ h2.1 (by omega)
    · rw [hsecond h2]
      obtain ⟨hlo, hhi⟩ := hin.resolve_right h2
      exact get_setBytes_zero _ _ _ _ hlo (by omega)
  · rw [hsecond h2]
    refine get_setBytes_out _ _ _ _ ?_
    rw [List.length_replicate]
    omega

/-- Both banks of a RETIRED part are erased. -/
theorem lcWipe_retired {w : World} (h : w.f F.LC_STATE_STATE 0 = 5) (m : Mem) {a : Nat} (hlo : 0x02000000 ≤ a) (hhi : a < 0x02800000) :
    Mem.get (w.lcWipe m).1 a = 0xFF := by
  have hmem : (w.lcWipe m).1 = m.erase (bankByte 0) (bankByte 2) := if_pos h
  rw [hmem, Mem.get_erase, if_pos ⟨hlo, hhi⟩]
  unfold unlisted
  exact if_pos (by omega)

/-- Settles O33: each operation by what its checks leave. -/
theorem securityCommandsTakeEffect : Obligations.SecurityCommandsTakeEffect := by
  unfold Obligations.SecurityCommandsTakeEffect
  refine ⟨fun s hon => ⟨fun hf hl => ?_, ?_, fun hf => ?_, ?_, fun k hk => ⟨fun h4 h8 hl hfree => ?_, fun h => ?_, fun h => ?_⟩, ?_,
    fun v hv => ⟨fun h => ?_, fun hs h h64 => ?_, fun hs h h64 => ?_⟩, fun k hk => ⟨fun h => ?_, fun hl h78 hn => ?_⟩⟩, ?_⟩
  · obtain ⟨hres, herr, hdbg⟩ := dbgUnlock_stale (w := s.w.sf F.SEC_AUTHCTL_OP 0 2) ((f_sf_ne _ _ _ _ (by decide)).trans hl) hf
    exact ⟨_, show execDbgunlock s = _ from onW_next (if_pos hon), hres, herr, hdbg.trans (f_sf_ne _ _ _ _ (by decide))⟩
  · rintro w rfl hf hl hc hs
    exact ⟨_, show execDbgunlock s = _ from onW_next (if_pos hon), dbgUnlock_signed hf hc hs ((f_sf_ne _ _ _ _ (by decide)).trans hl)⟩
  · obtain ⟨hres, hown⟩ := ownUnlock_stale (w := s.w.sf F.SEC_AUTHCTL_OP 0 3) hf
    exact ⟨_, show execOwnunlock s = _ from onW_next (if_pos hon), hres, hown.trans (f_sf_ne _ _ _ _ (by decide))⟩
  · rintro w rfl hf hc hs
    exact ⟨_, show execOwnunlock s = _ from onW_next (if_pos hon), ownUnlock_signed hf hc hs⟩
  · have hprog := keyProg_programs (w := s.w.sf F.SEC_AUTHCTL_OP 0 4) (k := k) (hk.trans (f_sf_ne _ _ _ _ (by decide)).symm) h4 h8
      (by rwa [f_sf_ne _ _ _ _ (by decide)]) (by rwa [f_sf_ne _ _ _ _ (by decide)])
    have hbytes : (s.w.sf F.SEC_AUTHCTL_OP 0 4).authBytes 12 = s.w.authBytes 12 := by
      unfold World.authBytes
      simp only [f_sf_ne s.w (G := F.SEC_AUTH_DATA) (F := F.SEC_AUTHCTL_OP) 0 4 _ (by decide)]
    rw [hbytes] at hprog
    exact ⟨_, show execKeyprog s = _ from onW_next (if_pos hon), hprog⟩
  · have href := keyProg_refused (w := s.w.sf F.SEC_AUTHCTL_OP 0 4) (k := k) (hk.trans (f_sf_ne _ _ _ _ (by decide)).symm)
      (by rwa [f_sf_ne _ _ _ _ (by decide)])
    obtain ⟨herr, hkeys, -⟩ := secState_err (s.w.sf F.SEC_AUTHCTL_OP 0 4)
    exact ⟨_, show execKeyprog s = _ from onW_next ((if_pos hon).trans href), hkeys, herr⟩
  · have href := revoke_unfilled (w := s.w.sf F.SEC_AUTHCTL_OP 0 5) (k := k) (hk.trans (f_sf_ne _ _ _ _ (by decide)).symm)
      (by rwa [f_sf_ne _ _ _ _ (by decide)])
    obtain ⟨herr, -, hrev⟩ := secState_err (s.w.sf F.SEC_AUTHCTL_OP 0 5)
    exact ⟨_, show execRevoke s = _ from onW_next ((if_pos hon).trans href), hrev.trans (f_sf_ne _ _ _ _ (by decide)), herr⟩
  · exact show execOwnerLockSet s = _ from onW_next (if_pos hon)
  · exact show execSvncommit s = _ from onW_next (v := s.w) ((if_pos hon).trans (svnCommit_lower hv h))
  · have hup := (svnCommit_higher hv hs h).trans (if_neg (Nat.not_le.mpr h64))
    exact ⟨_, show execSvncommit s = _ from onW_next ((if_pos hon).trans hup), f_sf_same _ _ _ _, (Keeps.refl _ s.w).with_sec.sf (by decide)⟩
  · exact show execSvncommit s = _ from onW_next ((if_pos hon).trans ((svnCommit_higher hv hs h).trans (if_pos h64)))
  · exact show execOtpWrite s = _ from onW_next ((if_pos hon).trans (otpWrite_refused hk h))
  · exact show execOtpWrite s = _ from onW_next ((if_pos hon).trans (otpWrite_once hk hl h78 hn))
  · rintro s target t w rfl
    refine ⟨fun hon hb hw h => lcReq_next hon hb hw (lcReq_unlisted h), fun hon hb hw => lcReq_next hon hb hw rfl, fun hp hon hs => ?_⟩
    exact ⟨_, _, lcWipe_next hp hon hs rfl, lcWipe_pend _ _, fun h a => (lcWipe_settings h s.mem a).1, fun h a => lcWipe_retired h s.mem,
      fun h a => (lcWipe_settings h s.mem a).2⟩

end Sys2Proof.Machine

/-! Island requests, pads, and the Cairn records (R275, R277, R486 to R490). -/

namespace Sys2Proof.Machine

/-! ### Stops and starts by request (R277) -/

theorem islreqStop_next {s : State} {n : Nat} (hn : n < 22) (hon : s.w.on 19 = true) (ha : s.w.absent n = false) {m : Mem} {v : World}
    (hq : s.w.islStop s.mem n = (m, v)) : exec (.islreqStop n) s = .next { s with mem := m, w := v } := by
  change execIslreqStop n s = _
  exact onM_next (r := (m, v)) ((if_pos ⟨hn, hon, ha⟩).trans hq)

/-- ALW, and a core island one of whose cores runs, do not stop by request. -/
theorem islStop_bad {w : World} {n : Nat} (h : n = 0 ∨ (n = 12 ∨ n = 13) ∧ ∃ c < w.nCores, w.coreIsl c = n ∧ (w.core c).st ≠ 0) (m : Mem) :
    w.islStop m n = (m, (w.when (w.islNeeded n) fun w => w.sf F.PM_ERR_DEPENDENT 0 1).sf F.PM_ERR_BADVAL 0 1) := by
  have hbad : (n == 0 || ((n == 12 || n == 13) && (List.range w.nCores).any (fun c => w.coreIsl c == n && (w.core c).st != 0))) = true := by
    rw [Bool.or_eq_true, Bool.and_eq_true, Bool.or_eq_true, beq_iff_eq, beq_iff_eq, beq_iff_eq, List.any_eq_true]
    refine h.imp_right fun ⟨h12, c, hc, hisl, hst⟩ => ⟨h12, c, List.mem_range.mpr hc, ?_⟩
    rw [hisl, beq_self_eq_true, bne_iff_ne.mpr hst]
    rfl
  unfold World.islStop
  dsimp only
  rw [hbad, Bool.or_true, if_pos rfl]
  rfl

section
variable {w : World} {n : Nat} (h0 : n ≠ 0) (h12 : n ≠ 12) (h13 : n ≠ 13)
include h0 h12 h13

theorem islStop_free (m : Mem) : w.islStop m n = if w.islNeeded n then (m, w.sf F.PM_ERR_DEPENDENT 0 1)
    else if w.on n = false then (m, w)
    else ((w.powerDown m n 0).1, ((w.powerDown m n 0).2.when (n == 17) fun v => v.copyFields w hkpKept).showRings) := by
  have hbad : (n == 0 || ((n == 12 || n == 13) && (List.range w.nCores).any (fun c => w.coreIsl c == n && (w.core c).st != 0))) = false := by
    rw [beq_false_of_ne h0, beq_false_of_ne h12, beq_false_of_ne h13]
    rfl
  unfold World.islStop
  dsimp only
  rw [hbad, Bool.or_false]
  by_cases hneed : w.islNeeded n = true
  · rw [if_pos hneed, if_pos hneed, hneed]
    rfl
  · rw [if_neg hneed, if_neg hneed]
end

/-! ### Pads (R275) -/

theorem Keeps.padsFreed {l : List Nat} {a b : World} (h : Keeps l a b) (hl : F.PW_RSTAT_RAILEN.id ∈ l) : Keeps l a b.padsFreed :=
  Keeps.foldl _ h fun _ _ hx => hx.sf ⟨by decide, hl⟩

/-- Released pads are held no more. -/
theorem padRel_spec {w : World} (h : w.f F.PM_PADCFG_LX0960 0 = 0) (mask : Nat) :
    (∀ n < 22, mask.testBit n = true → ((w.padRel mask).f F.PM_PADHELD_HELD 0).testBit n = false)
    ∧ Keeps [F.PM_PADHELD_HELD.id, F.PW_RSTAT_RAILEN.id] w (w.padRel mask) := by
  have hstep : w.padRel mask = ((idxs 22 fun n => mask.testBit n).foldl (fun w n => w.clrBit F.PM_PADHELD_HELD 0 n) w).padsFreed := by
    unfold World.padRel
    rw [fb_of_zero h, if_neg Bool.false_ne_true]
  have hclr : Keeps [F.PM_PADHELD_HELD.id, F.PW_RSTAT_RAILEN.id] w ((idxs 22 fun n => mask.testBit n).foldl (fun w n => w.clrBit F.PM_PADHELD_HELD 0 n) w) :=
    Keeps.foldl _ (Keeps.refl _ w) fun _ _ hx => hx.clrBit (by decide)
  rw [hstep]
  refine ⟨fun n hn hbit => ?_, hclr.padsFreed (by decide)⟩
  rw [(Keeps.padsFreed (Keeps.refl [F.PW_RSTAT_RAILEN.id] _) (by decide)).f (by decide)]
  exact clrBits_f _ _ w n (.inl (List.mem_filter.mpr ⟨List.mem_range.mpr hn, hbit⟩))

/-! ### Records (R486, R488, R490) -/

theorem cairnRecordWrite_next {s : State} (hon : s.w.on 16 = true) (hw : s.w.wiping.testBit 14 = false) {q : Mem × World}
    (hq : s.w.crnNext s.mem false = q) : exec .cairnRecordWrite s = .next { s with mem := q.1, w := q.2 } := by
  change execCairnRecordWrite s = _
  refine onM_next ?_
  rw [hon, hw]
  exact hq

section
variable {w : World} (hd : w.crn.drops = 0)
include hd

theorem crnNext_empty (hq : w.crn.queue = []) (m : Mem) (hold : Bool) : w.crnNext m hold = (m, w) := by
  unfold World.crnNext World.dropRec
  rw [if_pos hd]
  dsimp only
  rw [hq]

theorem crnNext_record {r : CrnRec} {l : List CrnRec} (hq : w.crn.queue = r :: l) (m : Mem) (hold : Bool) :
    w.crnNext m hold = World.putSlot { w with crn := { w.crn with queue := l } } m r hold := by
  unfold World.crnNext World.dropRec
  rw [if_pos hd]
  dsimp only
  rw [hq]
end

theorem crnWctl_core {s : State} (hon : s.w.on 16 = true) (typ c : Nat) {v : World}
    (hv : (s.w.sf F.CRN_WCTL_TYPE 0 typ).crnGo = v) : exec (.crnWctlGo (.core c) typ) s = .next (s.withW v) := by
  have hbit : (typ % 65536 + 2 ^ 31).testBit 31 = true := by
    rw [Nat.testBit_eq_decide_div_mod_eq]
    exact decide_eq_true (by omega)
  have htype : s.w.sf F.CRN_WCTL_TYPE 0 (typ % 65536 + 2 ^ 31) = s.w.sf F.CRN_WCTL_TYPE 0 typ := by
    unfold World.sf
    rw [show (typ % 65536 + 2 ^ 31) % 2 ^ F.CRN_WCTL_TYPE.wd = typ % 2 ^ F.CRN_WCTL_TYPE.wd from
      show (typ % 65536 + 2147483648) % 65536 = typ % 65536 by omega]
  change execCrnWctlGo (.core c) typ s = _
  refine onW_next ((if_pos hon).trans ?_)
  unfold World.writeWctl World.when
  dsimp only
  rw [hbit, if_pos rfl, htype, hv]

theorem crnGo_type {w : World} {typ : Nat} (ht : typ < 65536) : (w.sf F.CRN_WCTL_TYPE 0 typ).crnGo =
    if typ < 0x8000 then (w.sf F.CRN_WCTL_TYPE 0 typ).sf F.CRN_ERR_BADTYPE 0 1
    else if 16 ≤ w.crn.queue.length then (w.sf F.CRN_WCTL_TYPE 0 typ).sf F.CRN_ERR_FULL 0 1
    else (w.sf F.CRN_WCTL_TYPE 0 typ).cairn typ ((List.range 56).flatMap fun i => leBytes 4 ((w.sf F.CRN_WCTL_TYPE 0 typ).f F.CRN_WBUF_DATA i)) := by
  have htype : (w.sf F.CRN_WCTL_TYPE 0 typ).f F.CRN_WCTL_TYPE 0 = typ := (f_sf_same _ _ _ _).trans (Nat.mod_eq_of_lt ht)
  unfold World.crnGo
  dsimp only
  rw [htype]
  rfl

/-- Settles O30: each request by its operation, and the Cairn writer slot by slot. -/
theorem islandRequestsAndCairnTakeEffect : Obligations.IslandRequestsAndCairnTakeEffect := by
  unfold Obligations.IslandRequestsAndCairnTakeEffect
  refine ⟨fun s n mask hon => ⟨fun ha => ?_, fun h12 ha hneed hrun => ?_, fun h0 hn h12 h13 ha => ⟨fun hneed => ?_, fun m v hneed hup hv => ?_⟩,
    fun hn hoff ha hst => ?_, fun h => ?_, fun h => ?_⟩, fun s hon => ⟨fun hw => ?_, fun hw hd hq => ?_, fun r l i hw hd hq hi => ?_, fun typ => ?_,
      fun typ c ht => ⟨_, rfl, fun hlow => ?_, fun hhi hfull => ?_, fun hhi hroom => ?_⟩⟩⟩
  · exact islreqStop_next (by decide) hon ha (islStop_bad (.inl rfl) s.mem)
  · have hstop := islStop_bad (w := s.w) (.inr ⟨h12, hrun⟩) s.mem
    rw [hneed] at hstop
    exact islreqStop_next (by omega) hon ha hstop
  · exact islreqStop_next hn hon ha ((islStop_free h0 h12 h13 s.mem).trans (if_pos hneed))
  · have hstop := islStop_free (w := s.w) h0 h12 h13 s.mem
    rw [if_neg (Bool.eq_false_iff.mp hneed), if_neg (by rw [hup]; decide), ← hv] at hstop
    dsimp only at hstop
    exact islreqStop_next hn hon ha hstop
  · refine show execIslreqStart n s = _ from onW_next ((if_pos ⟨hn, hon⟩).trans (if_neg ?_))
    rw [hoff, ha, hst]
    decide
  · refine show execPmPadrelWrite mask s = _ from onW_next (v := s.w) ((if_pos hon).trans (if_pos ?_))
    exact bne_iff_ne.mpr h
  · exact ⟨_, show execPmPadrelWrite mask s = _ from onW_next (if_pos hon), padRel_spec h mask⟩
  · change execCairnRecordWrite s = _
    refine onM_withW (v := s.w) ?_
    rw [hon, hw]
    rfl
  · have hexec := cairnRecordWrite_next hon hw (crnNext_empty hd hq s.mem false)
    exact hexec
  · subst hi
    obtain ⟨hmem, hqueue, hnum, hptr, hkeep⟩ := putSlot_spec { s.w with crn := { s.w.crn with queue := l } } s.mem r
    exact ⟨_, _, cairnRecordWrite_next hon hw (crnNext_record hd hq s.mem false), hqueue, hmem, hnum, hptr, (Keeps.refl _ s.w).with_crn.trans hkeep⟩
  · exact show execCrnWctlGo .host typ s = _ from onW_next (if_pos hon)
  · exact crnWctl_core hon typ c ((crnGo_type ht).trans (if_pos hlow))
  · exact crnWctl_core hon typ c ((crnGo_type ht).trans ((if_neg (Nat.not_lt.mpr hhi)).trans (if_pos hfull)))
  · exact crnWctl_core hon typ c ((crnGo_type ht).trans ((if_neg (Nat.not_lt.mpr hhi)).trans (if_neg (Nat.not_le.mpr hroom))))

end Sys2Proof.Machine

/-! What the operations of a phase leave: they change registers and the phases' own state only (R146 to R161). -/

namespace Sys2Proof.Machine

/-- `v` is `w` but for registers and the state of phases. -/
def phShape (w v : World) : Prop := ∃ g h, v = { w with regs := g, ph := h }

theorem phShape.refl (w : World) : phShape w w := ⟨_, _, rfl⟩

theorem phShape.trans {a b c : World} (h : phShape a b) (k : phShape b c) : phShape a c := by
  obtain ⟨g, p, rfl⟩ := h
  obtain ⟨g', p', rfl⟩ := k
  exact ⟨_, _, rfl⟩

theorem phShape.sf {a b : World} (h : phShape a b) {F : Fld} {i v : Nat} : phShape a (b.sf F i v) := h.trans ⟨_, b.ph, rfl⟩

theorem phShape.setPhase {a b : World} (h : phShape a b) {p : Nat} {q : Ph} : phShape a (b.setPhase p q) := h.trans ⟨b.regs, _, rfl⟩

theorem phShape.ite {a b c : World} {x : Prop} [Decidable x] (h : phShape a b) (k : phShape a c) : phShape a (if x then b else c) := by
  split
  · exact h
  · exact k

theorem phShape.when {a b : World} (h : phShape a b) {x : Bool} {f : World → World} (k : ∀ u, phShape a u → phShape a (f u)) :
    phShape a (b.when x f) := phShape.ite (k b h) h

theorem phShape.lim {a b : World} (h : phShape a b) {p : Nat} {x : Bool} : phShape a (b.lim p x) := h.when fun _ hu => hu.sf

theorem phShape.foldl {α : Type} {a : World} {f : World → α → World} (l : List α) {b : World} (h : phShape a b)
    (k : ∀ u x, phShape a u → phShape a (f u x)) : phShape a (l.foldl f b) := by
  induction l generalizing b with
  | nil => exact h
  | cons x l ih => exact ih (k b x h)

section
variable {w v : World} (h : phShape w v)
include h

theorem phShape.live : v.live = w.live := by
  obtain ⟨g, p, rfl⟩ := h
  rfl

theorem phShape.lx1264 : v.lx1264 = w.lx1264 := by
  obtain ⟨g, p, rfl⟩ := h
  rfl

theorem phShape.pins : v.pins = w.pins := by
  obtain ⟨g, p, rfl⟩ := h
  rfl

theorem phShape.conv : v.conv = w.conv := by
  obtain ⟨g, p, rfl⟩ := h
  rfl
end

/-! ### The operations -/

theorem force_phShape (w : World) (p s l : Nat) : phShape w (w.force p s l) :=
  phShape.setPhase (phShape.sf (phShape.sf (phShape.refl w)))

theorem offEdge_phShape (w : World) (r p off : Nat) : phShape w (w.offEdge r p off) := (phShape.refl w).sf.setPhase

theorem loadHigh_phShape (w : World) (r p d tL : Nat) (h : Ph) : phShape w (w.loadHigh r p d tL h) := by
  unfold World.loadHigh
  dsimp only
  generalize limitOff _ _ _ _ _ = edge
  exact (phShape.refl w).lim.sf.setPhase

theorem loadLow_phShape (w : World) (r p d tL : Nat) (h : Ph) : phShape w (w.loadLow r p d tL h) := by
  unfold World.loadLow
  dsimp only
  generalize limitOff _ _ _ _ _ = edge
  have hduty : phShape w (w.sf F.PW_EDGE_DUTY p d) := (phShape.refl w).sf
  exact phShape.ite (phShape.ite hduty.lim hduty.lim.setPhase) hduty

theorem loadWord_phShape (w : World) (r p d tL : Nat) : phShape w (w.loadWord r p d tL) := by
  unfold World.loadWord
  refine phShape.ite (phShape.refl w).setPhase (phShape.ite ?_ (phShape.refl w))
  exact phShape.ite ((phShape.refl w).setPhase.trans (loadHigh_phShape ..)) ((phShape.refl w).setPhase.trans (loadLow_phShape ..))

theorem loadPulse_phShape (w : World) (r p ton tL : Nat) : phShape w (w.loadPulse r p ton tL) :=
  phShape.ite (phShape.refl w) (((phShape.refl w).when fun _ hu => hu.sf).lim.setPhase)

theorem settleL_phShape (r p lim : Nat) (l : List Load) : ∀ w : World, phShape w (w.settleL r p lim l) := by
  induction l with
  | nil => exact fun w => (phShape.refl w).setPhase
  | cons x l ih =>
    intro w
    have hoff : phShape w (w.offIfDue r p x.at_) := phShape.ite (offEdge_phShape ..) (phShape.refl w)
    refine phShape.ite ?_ (phShape.refl w).setPhase
    exact (hoff.trans (phShape.ite (loadPulse_phShape ..) (loadWord_phShape ..))).trans (ih _)

theorem settle_phShape (w : World) (p lim : Nat) : phShape w (w.settle p lim) := by
  unfold World.settle
  cases w.railOf p with
  | none => exact phShape.refl w
  | some r => exact phShape.ite (phShape.refl w) (settleL_phShape r p lim _ w)

theorem setKills_phShape (w : World) (p : Nat) (l : List Kill) : phShape w (w.setKills p l) := (phShape.refl w).setPhase.sf

theorem kill_phShape (w : World) (p : Nat) (k : Kill) : phShape w (w.kill p k) := by
  have hdrop : phShape w (w.dropLoads p) := ((settle_phShape ..).when fun _ hu => hu.sf).setPhase
  exact phShape.ite ((hdrop.trans (setKills_phShape ..)).trans (force_phShape ..)) (hdrop.trans (setKills_phShape ..))

end Sys2Proof.Machine

/-! Settings and bindings of the PWM islands (R148, R155, R159, R164). -/

namespace Sys2Proof.Machine

/-! ### RCOMMIT (R164) -/

theorem railSetAdopt_accepts {w : World} {r : Nat} (hlo : 16000 ≤ w.f F.PW_PER_PER r) (hhi : w.f F.PW_PER_PER r ≤ 512000)
    (hph : w.f F.PW_RAILPH_PH r < w.f F.PW_PER_PER r) (hmod : w.f F.PW_RAILCFG_MOD r ≤ 1)
    (hton : w.f F.PW_TLIM_TONMIN r + w.f F.PW_TLIM_TOFFMIN r < w.f F.PW_PER_PER r) : ∃ moved, w.railSetAdopt r
      = ((w.clrBit F.PW_CTL_RCOMMIT (grpR r) (r % 12)).adoptAll pwRailSet r).when moved fun w => w.needGrid r := by
  unfold World.railSetAdopt
  exact ⟨_, if_neg (by omega)⟩

theorem needGrid_live (w : World) (moved : Bool) (r : Nat) : (w.when moved fun w => w.needGrid r).live = w.live := by
  unfold World.when
  split
  · rfl
  · rfl

/-- The whole set of a rail that is not regulating comes in force. -/
theorem rcommit_spec {w : World} {r : Nat} (hr : r < w.nRails) (hu : w.updating r = false) (hlo : 16000 ≤ w.f F.PW_PER_PER r)
    (hhi : w.f F.PW_PER_PER r ≤ 512000) (hph : w.f F.PW_RAILPH_PH r < w.f F.PW_PER_PER r) (hmod : w.f F.PW_RAILCFG_MOD r ≤ 1)
    (hton : w.f F.PW_TLIM_TONMIN r + w.f F.PW_TLIM_TOFFMIN r < w.f F.PW_PER_PER r) :
    (∀ G ∈ pwRailSet, (w.rcommit r).lf G r = w.f G r % 2 ^ G.wd) ∧ Keeps (F.PW_CTL_RCOMMIT.id :: gridIds) w (w.rcommit r) := by
  have hask : Keeps [F.PW_CTL_RCOMMIT.id] w (w.orBit F.PW_CTL_RCOMMIT (grpR r) (r % 12)) := (Keeps.refl _ w).orBit (by decide)
  generalize hx : w.orBit F.PW_CTL_RCOMMIT (grpR r) (r % 12) = x at hask
  have hf : ∀ {G : Fld}, G.id < 4096 ∧ G.id ∉ [F.PW_CTL_RCOMMIT.id] → x.f G r = w.f G r := fun hG => hask.f hG r
  obtain ⟨moved, hadopt⟩ := railSetAdopt_accepts (w := x) (r := r) (by rwa [hf (by decide)]) (by rwa [hf (by decide)])
    (by rwa [hf (by decide), hf (by decide)]) (by rwa [hf (by decide)]) (by rwa [hf (by decide), hf (by decide), hf (by decide)])
  have hidle : x.updating r = false := by
    unfold World.updating World.fb at hu ⊢
    rwa [hf (by decide)]
  have hstep : w.rcommit r = (x.railSetAdopt r).regrid r := by
    unfold World.rcommit
    rw [if_neg (Nat.not_le.mpr hr), hx]
    dsimp only
    rw [hidle]
    rfl
  have hclr : Keeps [F.PW_CTL_RCOMMIT.id] w (x.clrBit F.PW_CTL_RCOMMIT (grpR r) (r % 12)) := hask.clrBit (by decide)
  rw [hstep, hadopt]
  refine ⟨fun G hG => ?_, ?_⟩
  · unfold World.lf
    rw [regrid_live, needGrid_live]
    refine (lf_adoptAll pwRailSet r (by decide) (by decide) _ G hG).trans ?_
    have hid : G.id < 4096 ∧ G.id ∉ [F.PW_CTL_RCOMMIT.id] :=
      (show ∀ G ∈ pwRailSet, G.id < 4096 ∧ G.id ∉ [F.PW_CTL_RCOMMIT.id] by decide) G hG
    rw [hclr.f hid]
  · have hset : Keeps (F.PW_CTL_RCOMMIT.id :: gridIds) w ((x.clrBit F.PW_CTL_RCOMMIT (grpR r) (r % 12)).adoptAll pwRailSet r) :=
      (hclr.mono (by decide)).regs (adoptAll_regs _ _ _)
    exact (hset.when fun _ hu => hu.setRail).regrid (by decide)

theorem pwNreqWrite_next {s : State} {r n : Nat} (hon : s.w.on (pwIslR r) = true) (hr : r < s.w.nRails) {v : World} (hv : s.w.writeNreq r n = v) :
    exec (.pwNreqWrite r n) s = .next (s.withW v) := by
  refine show execPwNreqWrite r n s = _ from onW_next ((if_neg ?_).trans hv)
  rw [hon]
  exact not_or.mpr ⟨Nat.not_le.mpr hr, by decide⟩

/-! ### The bindings of some phases come in force (R155) -/

/-- The registers that adopting bindings writes, but for the commit bit and the fault flags. -/
abbrev adoptIds : List Nat := killIds ++ [F.PW_RSTAT_NBOUND.id, F.PW_RSTAT_NREQ.id, F.PW_STAT_XGCOUNT.id, F.PW_PHSTAT_XG.id, F.PCC_CFG_EN.id]

/-- Phase `p`'s binding in force becomes the one its registers hold. -/
def World.bindTake (w : World) (p : Nat) : World :=
  ((w.slf F.PW_BIND_EN p (w.bindOf true p).1).slf F.PW_BIND_RAIL p (w.bindOf true p).2.1).slf F.PW_BIND_LANE p (w.bindOf true p).2.2

theorem bindPhase_frame (w : World) (p : Nat) : (w.bindPhase p).live = (w.bindTake p).live ∧ (w.bindPhase p).lx1264 = w.lx1264
    ∧ Keeps adoptIds w (w.bindPhase p) := by
  unfold World.bindPhase World.setKills
  extract_lets b st u x y q z k v
  have hx : Keeps adoptIds w x := (Keeps.refl _ w).force (by decide) |>.slf.slf.slf
  have hz : Keeps adoptIds w z := (hx.sf (by decide)).setPhase.sf (by decide)
  have hv : Keeps adoptIds w v := hz.setPhase.sf (by decide)
  have hlive : v.live = (w.bindTake p).live := rfl
  have hpart : v.lx1264 = w.lx1264 := rfl
  refine ⟨?_, ?_, Keeps.ite (hv.kill (by decide)) hv⟩
  · split
    · exact (kill_phShape ..).live.trans hlive
    · exact hlive
  · split
    · exact (kill_phShape ..).lx1264.trans hpart
    · exact hpart

theorem bindOf_false (w : World) (q : Nat) : w.bindOf false q = (w.lf F.PW_BIND_EN q, w.lf F.PW_BIND_RAIL q, w.lf F.PW_BIND_LANE q) :=
  if_neg Bool.false_ne_true

theorem bindOf_true (w : World) (q : Nat) : w.bindOf true q = (w.f F.PW_BIND_EN q % 2, w.f F.PW_BIND_RAIL q % 32, w.f F.PW_BIND_LANE q % 32) :=
  if_pos rfl

theorem bindTake_bindOf (w : World) (p q : Nat) : (w.bindTake p).bindOf false q = if q = p then w.bindOf true p else w.bindOf false q := by
  rw [bindOf_false]
  unfold World.bindTake
  split
  next h =>
    subst h
    rw [lf_slf_ne _ _ _ _ (by decide), lf_slf_ne _ _ _ _ (by decide), lf_slf_same, lf_slf_ne _ _ _ _ (by decide), lf_slf_same, lf_slf_same, bindOf_true]
    simp [F.PW_BIND_EN, F.PW_BIND_RAIL, F.PW_BIND_LANE]
  next h =>
    rw [lf_slf_ne _ _ _ _ (by decide), lf_slf_ne _ _ _ _ (by decide), lf_slf_inst _ _ h, lf_slf_ne _ _ _ _ (by decide), lf_slf_inst _ _ h,
      lf_slf_ne _ _ _ _ (by decide), lf_slf_inst _ _ h, lf_slf_ne _ _ _ _ (by decide), lf_slf_ne _ _ _ _ (by decide), bindOf_false]

theorem bindOf_live {w v : World} (h : v.live = w.live) (q : Nat) : v.bindOf false q = w.bindOf false q := by
  rw [bindOf_false, bindOf_false]
  unfold World.lf
  rw [h]

theorem bindOf_shadow {w v : World} (h : Keeps adoptIds w v) (q : Nat) : v.bindOf true q = w.bindOf true q := by
  rw [bindOf_true, bindOf_true, h.f (by decide), h.f (by decide), h.f (by decide)]

theorem bindPhase_bindOf (w : World) (p q : Nat) : (w.bindPhase p).bindOf false q = if q = p then w.bindOf true p else w.bindOf false q :=
  (bindOf_live (bindPhase_frame w p).1 q).trans (bindTake_bindOf w p q)

theorem bindPhases_frame (l : List Nat) : ∀ w : World, Keeps adoptIds w (l.foldl (fun w p => w.bindPhase p) w)
    ∧ (l.foldl (fun w p => w.bindPhase p) w).lx1264 = w.lx1264
    ∧ ∀ q, (l.foldl (fun w p => w.bindPhase p) w).bindOf false q = if q ∈ l then w.bindOf true q else w.bindOf false q := by
  induction l with
  | nil => exact fun w => ⟨Keeps.refl _ w, rfl, fun q => (if_neg (List.not_mem_nil)).symm⟩
  | cons p l ih =>
    intro w
    obtain ⟨-, hx, hk⟩ := bindPhase_frame w p
    obtain ⟨hkl, hxl, hof⟩ := ih (w.bindPhase p)
    refine ⟨hk.trans hkl, hxl.trans hx, fun q => (hof q).trans ?_⟩
    rw [bindOf_shadow hk, bindPhase_bindOf]
    by_cases hq : q ∈ l
    · rw [if_pos hq, if_pos (List.mem_cons_of_mem p hq)]
    · rw [if_neg hq]
      by_cases hp : q = p
      · rw [if_pos hp, if_pos (hp ▸ List.mem_cons_self), hp]
      · rw [if_neg hp, if_neg (fun h => (List.mem_cons.1 h).elim hp hq)]

theorem bindShow_frame (w : World) (rails : List Nat) : Keeps adoptIds w (w.bindShow rails) ∧ (w.bindShow rails).lx1264 = w.lx1264
    ∧ (w.bindShow rails).live = w.live := by
  unfold World.bindShow
  extract_lets x xg
  suffices h : Keeps adoptIds w x ∧ x.lx1264 = w.lx1264 ∧ x.live = w.live from
    ⟨(h.1.sf (by decide)).sf (by decide), h.2.1, h.2.2⟩
  refine List.foldlRecOn (motive := fun x => Keeps adoptIds w x ∧ x.lx1264 = w.lx1264 ∧ x.live = w.live) rails _ ⟨Keeps.refl _ w, rfl, rfl⟩ ?_
  intro u hu r _
  obtain ⟨hk, hx, hl⟩ := hu
  have hy : Keeps adoptIds w (u.sf F.PW_RSTAT_NBOUND r (u.bound r).length) := hk.sf (by decide)
  dsimp only
  split
  · exact ⟨(hy.sf (by decide)).setRail, hx, hl⟩
  · exact ⟨hy.setRail, hx, hl⟩

/-! ### The commit bit of an island is set and judged (R155) -/

theorem bindForget_testBit (w : World) (g : Nat) : (w.bindForget g).bindOk.testBit g = false := by
  unfold World.bindForget
  split
  next h => exact (testBit_sub _ _ _ h).trans (by rw [bne_self_eq_false, Bool.and_false])
  next h => exact Bool.eq_false_iff.mpr h

theorem bindForget_with (w : World) (g : Nat) : ∃ o, w.bindForget g = { w with bindOk := o } := by
  unfold World.bindForget
  split
  · exact ⟨_, rfl⟩
  · exact ⟨_, rfl⟩

/-- A group of phases whose island's commit bit is set, all chosen: each takes the binding its registers hold and the bit reads 0. -/
theorem bindAdopt_all {w : World} {g : Nat} {sel : Nat → Bool} (hg : w.fb F.PW_CTL_BCOMMIT g = true) (hsel : ∀ p, sel p = true) :
    (w.bindAdopt g sel).f F.PW_CTL_BCOMMIT g = 0
      ∧ ∀ p < w.nPhases, grpP p = g → (w.bindAdopt g sel).bindOf false p = w.bindOf true p := by
  unfold World.bindAdopt
  extract_lets l rails x y
  obtain ⟨hkx, hpx, hox⟩ := bindPhases_frame l w
  have hy : Keeps adoptIds w y ∧ y.lx1264 = w.lx1264 ∧ y.live = x.live := by
    obtain ⟨hk, hp, hl⟩ := bindShow_frame x rails.eraseDups
    unfold y
    split
    · exact ⟨hkx, hpx, rfl⟩
    · exact ⟨hkx.trans hk, hp.trans hpx, hl⟩
  obtain ⟨hky, hpy, hly⟩ := hy
  have hfy : y.fb F.PW_CTL_BCOMMIT g = true := by
    unfold World.fb at hg ⊢
    rwa [hky.f (by decide)]
  have hnext : ∀ {u : World} {p}, u.fb F.PW_CTL_BCOMMIT g = true → grpP p = g → u.bindNext p = u.bindOf true p := by
    intro u p hu hp
    unfold World.bindNext
    rw [hp, hu]
  have hsame : ∀ p < w.nPhases, grpP p = g → y.bindOf false p = w.bindOf true p := by
    intro p hlt hp
    rw [bindOf_live hly, hox]
    split
    · rfl
    next hnot =>
      have hdiff : w.bindDiffers p = false := by
        refine Decidable.byContradiction fun h => ?_
        refine hnot (List.mem_filter.mpr ⟨List.mem_range.mpr hlt, ?_⟩)
        rw [hp, beq_self_eq_true, hsel, eq_true_of_ne_false h]
        rfl
      unfold World.bindDiffers at hdiff
      rw [hnext hg hp] at hdiff
      exact (bne_eq_false_iff_eq.mp hdiff).symm
  have hnone : ((List.range y.nPhases).any fun p => grpP p == g && y.bindDiffers p) = false := by
    refine List.any_eq_false.mpr fun p hp => ?_
    rw [Bool.and_eq_true]
    rintro ⟨hgp, hd⟩
    have hgp := beq_iff_eq.mp hgp
    have hlt : p < w.nPhases := by
      have := List.mem_range.mp hp
      unfold World.nPhases at this ⊢
      rwa [hpy] at this
    unfold World.bindDiffers at hd
    rw [hnext hfy hgp, hsame p hlt hgp, bindOf_shadow hky, bne_self_eq_false] at hd
    exact Bool.false_ne_true hd
  rw [hnone, if_neg Bool.false_ne_true]
  obtain ⟨o, ho⟩ := bindForget_with (y.sf F.PW_CTL_BCOMMIT g 0) g
  rw [ho]
  exact ⟨f_sf_same y F.PW_CTL_BCOMMIT g 0, hsame⟩

theorem bindPoint_judged {w : World} {g : Nat} (hg : w.fb F.PW_CTL_BCOMMIT g = true) (hp : w.bindPair = false) (hok : w.bindOk.testBit g = false) :
    ∃ (o : Nat) (sel : Nat → Bool), (∀ p, sel p = true) ∧ w.bindPoint g none = if !(w.bindFaults g).isEmpty
      then ((w.bindFaults g).foldl (fun w F => w.sf F g 1) w).sf F.PW_CTL_BCOMMIT g 0
      else World.bindAdopt { w with bindOk := o } g sel := by
  have hpair : (w.bindPair && w.fb F.PW_CTL_BCOMMIT (1 - g) && !w.bindOk.testBit (1 - g)) = false := by
    rw [hp]
    rfl
  unfold World.bindPoint
  dsimp only
  rw [if_neg (by rw [hg]; decide), hok, if_pos (show (!false) = true from rfl), if_neg (by exact Bool.false_ne_true), hpair, if_neg Bool.false_ne_true,
    List.flatMap_singleton]
  exact ⟨_, _, fun _ => Bool.true_or _, rfl⟩

/-- The flags that a set of bindings can raise. -/
abbrev bindErrs : List Fld := [F.PW_ERR_BINDLIM, F.PW_ERR_XGLIM, F.PW_ERR_LANEDUP, F.PW_ERR_ACTIVE, F.PW_ERR_BADVAL]

theorem bindFaults_errs (w : World) (g : Nat) : ∀ F ∈ w.bindFaults g, F ∈ bindErrs := by
  have happ : ∀ {l m : List Fld}, (∀ F ∈ l, F ∈ bindErrs) → (∀ F ∈ m, F ∈ bindErrs) → ∀ F ∈ l ++ m, F ∈ bindErrs :=
    fun hl hm F hF => (List.mem_append.1 hF).elim (hl F) (hm F)
  unfold World.bindFaults
  have hopt : ∀ (c : Prop) [Decidable c] (E : Fld), E ∈ bindErrs → ∀ F ∈ (if c then [E] else []), F ∈ bindErrs := by
    intro c _ E hE F hF
    split at hF
    · exact List.mem_singleton.1 hF ▸ hE
    · cases hF
  exact happ (happ (happ (happ (hopt _ _ (by decide)) (hopt _ _ (by decide))) (hopt _ _ (by decide))) (hopt _ _ (by decide))) (hopt _ _ (by decide))

theorem raiseFlags_one (l : List Fld) (g : Nat) (hl : ∀ F ∈ l, F ∈ bindErrs) {G : Fld} (hG : G ∈ bindErrs) : ∀ w : World, (G ∈ l ∨ w.f G g = 1) →
    (l.foldl (fun w F => w.sf F g 1) w).f G g = 1 := by
  induction l with
  | nil => exact fun w h => h.resolve_left List.not_mem_nil
  | cons F l ih =>
    intro w h
    refine ih (fun K hK => hl K (List.mem_cons_of_mem _ hK)) (w.sf F g 1) ?_
    have hone : (1 : Nat) % 2 ^ G.wd = 1 := (show ∀ G ∈ bindErrs, 1 % 2 ^ G.wd = 1 by decide) G hG
    have hsep := (show ∀ F ∈ bindErrs, ∀ G ∈ bindErrs, F = G ∨ (G.id ≠ F.id ∧ G.id < 4096 ∧ F.id < 4096) by decide) F (hl F List.mem_cons_self) G hG
    rcases hsep with rfl | hne
    · exact .inr ((f_sf_same w F g 1).trans hone)
    · rcases h with h | h
      · rcases List.mem_cons.1 h with rfl | h
        · exact absurd rfl hne.1
        · exact .inl h
      · exact .inr ((f_sf_ne w g 1 g hne).trans h)

theorem raiseFlags_live (l : List Fld) (g : Nat) (w : World) : (l.foldl (fun w F => w.sf F g 1) w).live = w.live :=
  List.foldlRecOn (motive := fun u : World => u.live = w.live) l _ rfl fun _ hu _ _ => hu

theorem bindFaults_isEmpty (w : World) (g : Nat) : (!(w.bindFaults g).isEmpty) = true ↔ w.bindFaults g ≠ [] := by
  rw [Bool.not_eq_true', List.isEmpty_eq_false_iff]

/-- What judging a commit comes to: a set without a fault comes in force and one with a fault only shows its flags, and the bit reads 0 (R155). -/
theorem bindPoint_spec {w : World} {g : Nat} (hg : w.fb F.PW_CTL_BCOMMIT g = true) (hp : w.bindPair = false) (hok : w.bindOk.testBit g = false) :
    (w.bindPoint g none).f F.PW_CTL_BCOMMIT g = 0
      ∧ (w.bindFaults g = [] → ∀ p < w.nPhases, grpP p = g → (w.bindPoint g none).bindOf false p = w.bindOf true p)
      ∧ (w.bindFaults g ≠ [] → (w.bindPoint g none).live = w.live ∧ ∀ G ∈ w.bindFaults g, (w.bindPoint g none).f G g = 1) := by
  obtain ⟨o, sel, hsel, hpoint⟩ := bindPoint_judged hg hp hok
  rw [hpoint]
  by_cases hbad : w.bindFaults g = []
  · rw [if_neg (fun h => (bindFaults_isEmpty w g).1 h hbad)]
    obtain ⟨hzero, hall⟩ := bindAdopt_all (w := { w with bindOk := o }) (sel := sel) hg hsel
    exact ⟨hzero, fun _ => hall, fun h => absurd hbad h⟩
  · rw [if_pos ((bindFaults_isEmpty w g).2 hbad)]
    refine ⟨f_sf_same _ F.PW_CTL_BCOMMIT g 0, fun h => absurd h hbad, fun _ => ⟨raiseFlags_live _ g w, fun G hG => ?_⟩⟩
    have herr := bindFaults_errs w g G hG
    have hne := (show ∀ G ∈ bindErrs, G.id ≠ F.PW_CTL_BCOMMIT.id ∧ G.id < 4096 ∧ F.PW_CTL_BCOMMIT.id < 4096 by decide) G herr
    rw [f_sf_ne _ _ _ _ hne]
    exact raiseFlags_one _ g (bindFaults_errs w g) herr w (.inl hG)

theorem bindAsk_spec (w : World) (g : Nat) : (w.bindAsk g false).fb F.PW_CTL_BCOMMIT g = true ∧ (w.bindAsk g false).bindPair = false
    ∧ (w.bindAsk g false).bindOk.testBit g = false ∧ (w.bindAsk g false).live = w.live ∧ (w.bindAsk g false).lx1264 = w.lx1264
    ∧ Keeps [F.PW_CTL_BCOMMIT.id] w (w.bindAsk g false) := by
  have hok := bindForget_testBit (w.sf F.PW_CTL_BCOMMIT g 1) g
  obtain ⟨o, ho⟩ := bindForget_with (w.sf F.PW_CTL_BCOMMIT g 1) g
  have hk : Keeps [F.PW_CTL_BCOMMIT.id] w (w.sf F.PW_CTL_BCOMMIT g 1) := (Keeps.refl _ w).sf (by decide)
  rw [ho] at hok
  unfold World.bindAsk
  rw [ho]
  exact ⟨fb_of_one (f_sf_same w F.PW_CTL_BCOMMIT g 1), rfl, hok, rfl, rfl, hk⟩

theorem bindStart_idle {w : World} {g : Nat} (hg : w.fb F.PW_CTL_BCOMMIT g = true)
    (hidle : ∀ p < w.nPhases, grpP p = g → ∀ r ∈ w.bindRails p, w.updating r = false) :
    ∃ l : List Nat, w.bindStart g = l.foldl (fun w r => w.regrid r) (w.bindPoint g none) := by
  have hnone : ((((List.range w.nPhases).filter fun p => grpP p == g && w.bindDiffers p).any fun p => (w.bindRails p).any fun r => w.updating r) = true) →
      False := by
    intro h
    obtain ⟨p, hp, h⟩ := List.any_eq_true.1 h
    obtain ⟨r, hr, h⟩ := List.any_eq_true.1 h
    obtain ⟨hlt, hcond⟩ := List.mem_filter.1 hp
    rw [hidle p (List.mem_range.1 hlt) (beq_iff_eq.1 (Bool.and_eq_true_iff.1 hcond).1) r hr] at h
    exact Bool.false_ne_true h
  unfold World.bindStart
  rw [if_neg (by rw [hg]; decide)]
  exact ⟨_, if_neg hnone⟩

theorem regrids_frame (l : List Nat) (w : World) : Keeps gridIds w (l.foldl (fun w r => w.regrid r) w) ∧ (l.foldl (fun w r => w.regrid r) w).live = w.live :=
  List.foldlRecOn (motive := fun u => Keeps gridIds w u ∧ u.live = w.live) l _ ⟨Keeps.refl _ w, rfl⟩
    fun u hu r _ => ⟨hu.1.regrid (by decide), (regrid_live u r).trans hu.2⟩

theorem bcommit_spec {w w1 : World} {g : Nat} (h0 : w.f F.PW_CTL_BCOMMIT g = 0) (h1 : w1 = w.bindAsk g false)
    (hidle : ∀ p < w.nPhases, grpP p = g → ∀ r ∈ w1.bindRails p, w.updating r = false) :
    (w.bcommit g).f F.PW_CTL_BCOMMIT g = 0 ∧ Keeps (bindIds ++ gridIds) w (w.bcommit g)
      ∧ (w1.bindFaults g = [] → ∀ p < w.nPhases, grpP p = g → (w.bcommit g).lf F.PW_BIND_EN p = w.f F.PW_BIND_EN p % 2
        ∧ (w.bcommit g).lf F.PW_BIND_RAIL p = w.f F.PW_BIND_RAIL p % 32 ∧ (w.bcommit g).lf F.PW_BIND_LANE p = w.f F.PW_BIND_LANE p % 32)
      ∧ (w1.bindFaults g ≠ [] → (w.bcommit g).live = w.live ∧ ∀ G ∈ w1.bindFaults g, (w.bcommit g).f G g = 1) := by
  obtain ⟨hg, hp, hok, hlive, hlx, hk⟩ := bindAsk_spec w g
  rw [← h1] at hg hp hok hlive hlx hk
  have hphases : w1.nPhases = w.nPhases := by
    unfold World.nPhases
    rw [hlx]
  have hupd : ∀ r, w1.updating r = w.updating r := fun r => by
    unfold World.updating World.fb
    rw [hk.f (by decide)]
  obtain ⟨l, hstart⟩ := bindStart_idle hg (fun p hlt hgp r hr => (hupd r).trans (hidle p (hphases ▸ hlt) hgp r hr))
  have hcommit : w.bcommit g = l.foldl (fun w r => w.regrid r) (w1.bindPoint g none) := by
    unfold World.bcommit
    rw [if_neg (by rw [fb_of_zero h0]; exact Bool.false_ne_true), ← h1, hstart]
  obtain ⟨hzero, hgood, hbad⟩ := bindPoint_spec hg hp hok
  obtain ⟨hgrid, hgl⟩ := regrids_frame l (w1.bindPoint g none)
  have hpoint : Keeps bindIds w (w1.bindPoint g none) := (hk.mono (by decide)).bindPoint (by decide)
  rw [hcommit]
  refine ⟨?_, (hpoint.mono (by decide)).trans (hgrid.mono (by decide)), fun h p hlt hgp => ?_, fun h => ?_⟩
  · rw [hgrid.f (by decide), hzero]
  · have hof := (bindOf_live hgl p).trans (hgood h p (hphases.symm ▸ hlt) hgp)
    rw [bindOf_false, bindOf_true, hk.f (by decide), hk.f (by decide), hk.f (by decide)] at hof
    obtain ⟨hen, hrest⟩ := Prod.mk.inj hof
    obtain ⟨hrail, hlane⟩ := Prod.mk.inj hrest
    exact ⟨hen, hrail, hlane⟩
  · obtain ⟨hsame, hflags⟩ := hbad h
    refine ⟨(hgl.trans hsame).trans hlive, fun G hG => ?_⟩
    have herr := (show ∀ G ∈ bindErrs, G.id < 4096 ∧ G.id ∉ gridIds by decide) G (bindFaults_errs w1 g G hG)
    rw [hgrid.f herr, hflags G hG]

theorem bcommit_next {s : State} {isl g : Nat} (hi : isl = 10 ∧ g = 0 ∨ isl = 11 ∧ g = 1) (hon : s.w.on isl = true) :
    exec (.bcommit isl false) s = .next (s.withW (s.w.bcommit g)) := by
  change execBcommit isl s false = _
  refine onW_next ((if_neg (fun h => Bool.false_ne_true h)).trans ((if_neg (by rw [hon]; decide)).trans ?_))
  obtain ⟨rfl, rfl⟩ | ⟨rfl, rfl⟩ := hi
  · rfl
  · rfl

theorem bcommitBoth_next {s : State} (h10 : s.w.on 10 = true) (h11 : s.w.on 11 = true) (h0 : s.w.f F.PW_CTL_BCOMMIT 0 = 0)
    (h1 : s.w.f F.PW_CTL_BCOMMIT 1 = 0) :
    exec (.bcommit 10 true) s = .next (s.withW ((((s.w.bindAsk 0 true).bindAsk 1 true).bindStart 0).bindStart 1)) := by
  change execBcommit 10 s true = _
  refine onW_next ((if_pos (by rw [h10, h11]; rfl)).trans ?_)
  unfold World.bcommitBoth
  exact if_neg (by rw [fb_of_zero h0, fb_of_zero h1]; decide)

/-- Settles O17: RCOMMIT and PW_NREQ by their branches; a commit of bindings by the fold of the phases that take theirs. -/
theorem pwmSettingsTakeEffect : Obligations.PwmSettingsTakeEffect := by
  unfold Obligations.PwmSettingsTakeEffect
  refine ⟨⟨?rcommit, ?nreq, ?refused, ?lock⟩, ?bcommit, ?both⟩
  case rcommit =>
    intro s r hon hr hu hlo hhi hph hmod hton
    obtain ⟨hset, hk⟩ := rcommit_spec hr hu hlo hhi hph hmod hton
    exact ⟨_, show execRcommit r s = _ from onW_next (if_pos hon), hset, hk⟩
  case nreq =>
    intro s r n hon hr hn
    refine pwNreqWrite_next hon hr (if_neg ?_)
    rintro ⟨hz, hu⟩
    exact hn.elim (fun h => h hz) fun h => Bool.false_ne_true (h.symm.trans hu)
  case refused =>
    intro s r n hon hr hz hu
    exact pwNreqWrite_next hon hr (if_pos ⟨hz, hu⟩)
  case lock =>
    intro s
    exact ⟨show execDelayLineLock 10 s = _ from onW_next (if_pos rfl),
      show execDelayLineLock 11 s = _ from onW_next ((if_neg (by decide)).trans (if_pos rfl))⟩
  case bcommit =>
    intro s isl g w1 hi hon h0 h1 hidle
    exact ⟨_, bcommit_next hi hon, bcommit_spec h0 h1 hidle⟩
  case both =>
    intro s h10 h11 h0 h1
    exact bcommitBoth_next h10 h11 h0 h1

end Sys2Proof.Machine

/-! Kill lines, running rails and RAIL_EN (R161, R162, R182, R241). -/

namespace Sys2Proof.Machine

/-! ### Lines are driven (R161) -/

theorem testBit_add (v b j : Nat) (h : v.testBit b = false) : (v + 2 ^ b).testBit j = (v.testBit j || j == b) := by
  have hb : (v + 2 ^ b).testBit b = true := by
    rw [Nat.add_comm, Nat.testBit_two_pow_add_eq, h]
    rfl
  by_cases hj : j = b
  · rw [hj, hb, beq_self_eq_true, Bool.or_true]
  · have hsub := testBit_sub (v + 2 ^ b) b j hb
    rw [Nat.add_sub_cancel, bne_iff_ne.mpr hj, Bool.and_true] at hsub
    rw [← hsub, beq_false_of_ne hj, Bool.or_false]

/-- One bit of the kill lines is driven high. -/
theorem driveBit_spec (u : World) (b : Nat) : ∃ v : World, (if true = u.pins.kill.testBit b then u
      else u.setKillPins (if true = true then u.pins.kill + 2 ^ b else u.pins.kill - 2 ^ b)) = v ∧ v.regs = u.regs
    ∧ v.pins.kill.testBit b = true ∧ ∀ j, u.pins.kill.testBit j = true → v.pins.kill.testBit j = true := by
  split
  next h => exact ⟨u, rfl, rfl, h.symm, fun _ hj => hj⟩
  next h =>
    have hclear : u.pins.kill.testBit b = false := Bool.eq_false_iff.mpr fun ht => h ht.symm
    refine ⟨_, rfl, rfl, ?_, fun j hj => ?_⟩
    · exact (testBit_add _ _ _ hclear).trans (by rw [beq_self_eq_true, Bool.or_true])
    · exact (testBit_add _ _ _ hclear).trans (by rw [hj, Bool.true_or])

theorem driveBits_spec (l : List Nat) : ∀ u : World, ∃ v : World, l.foldl (fun w b => if true = w.pins.kill.testBit b then w
      else w.setKillPins (if true = true then w.pins.kill + 2 ^ b else w.pins.kill - 2 ^ b)) u = v ∧ v.regs = u.regs
    ∧ (∀ b ∈ l, v.pins.kill.testBit b = true) ∧ ∀ j, u.pins.kill.testBit j = true → v.pins.kill.testBit j = true := by
  induction l with
  | nil => exact fun u => ⟨u, rfl, rfl, fun _ h => absurd h List.not_mem_nil, fun _ h => h⟩
  | cons b l ih =>
    intro u
    obtain ⟨x, hx, hregs, hset, hold⟩ := driveBit_spec u b
    obtain ⟨v, hv, hregs', hset', hold'⟩ := ih x
    refine ⟨v, (by rw [List.foldl_cons, hx]; exact hv), hregs'.trans hregs, fun j hj => ?_, fun j hj => hold' j (hold j hj)⟩
    rcases List.mem_cons.1 hj with rfl | hj
    · exact hold' _ hset
    · exact hset' j hj

theorem driveLines_on (w : World) (x : KillIn) : (w.driveLines x true).regs = w.regs ∧ ∀ b ∈ w.killBits x, (w.driveLines x true).pins.kill.testBit b = true := by
  obtain ⟨v, hv, hregs, hset, -⟩ := driveBits_spec (w.killBits x) w
  have hdrive : w.driveLines x true = v := hv
  rw [hdrive]
  exact ⟨hregs, hset⟩

/-! ### A line kill (R161) -/

theorem Keeps.lineKill {a b : World} {l : List Nat} (h : Keeps l a b) {r : Nat} (hl : F.LE_STAT_FROZEN.id :: killIds ++ fcIds ⊆ l) : Keeps l a (b.lineKill r) := by
  refine h.trans (Keeps.mono ?_ hl)
  unfold World.lineKill
  refine Keeps.ite (Keeps.refl _ b) ?_
  have hkill : Keeps (F.LE_STAT_FROZEN.id :: killIds ++ fcIds) b ((b.bound r).foldl (fun w p => w.kill p (w.lineKillOf r)) b) :=
    Keeps.foldl _ (Keeps.refl _ b) fun _ _ hu => hu.kill (by decide)
  exact ((hkill.sf (by decide)).setRail).endForecasts (by decide)

theorem killLineAssert_keeps {w u : World} (x : KillIn) (hu : u = w.driveLines x true) (l : List Nat) :
    Keeps (F.LE_STAT_FROZEN.id :: killIds ++ fcIds) w (l.foldl (fun w r => w.lineKill r) u) := by
  have hdrive : Keeps (F.LE_STAT_FROZEN.id :: killIds ++ fcIds) w u := hu ▸ (Keeps.refl _ w).regs (driveLines_on w x).1
  exact Keeps.foldl _ hdrive fun _ _ hv => hv.lineKill (List.Subset.refl _)

theorem dropLoads_phSt (w : World) (p q : Nat) : (w.dropLoads p).phSt q = w.phSt q := by
  have hk : Keeps loadIds w (w.dropLoads p) := by
    unfold World.dropLoads
    exact (((Keeps.refl _ w).settle (List.Subset.refl _)).when fun _ hu => hu.sf (by decide)).setPhase
  exact hk.f (by decide) q

theorem setKills_phSt (w : World) (p q : Nat) (l : List Kill) : (w.setKills p l).phSt q = w.phSt q :=
  f_sf_ne _ _ _ _ (by decide)

theorem force_phSt_self (w : World) (p s l : Nat) : (w.force p s l).phSt p = s % 8 := f_sf_sf w p s p l (by decide)

theorem force_phSt_ne (w : World) {p q : Nat} (h : q ≠ p) (s l : Nat) : (w.force p s l).phSt q = w.phSt q :=
  (f_sf_ne _ _ _ _ (by decide)).trans (f_sf_inst _ _ h)

theorem kill_phSt_ne {w : World} {p q : Nat} {k : Kill} (h : q ≠ p) : (w.kill p k).phSt q = w.phSt q := by
  unfold World.kill
  extract_lets x l y st
  have hy : y.phSt q = w.phSt q := (setKills_phSt x p q l).trans (dropLoads_phSt w p q)
  split
  · exact (force_phSt_ne y h _ _).trans hy
  · exact hy

theorem kill_phSt_self {w : World} {p : Nat} {k : Kill} (h : w.phSt p = phActive ∨ w.phSt p = phKilled) : (w.kill p k).phSt p = phKilled := by
  unfold World.kill
  extract_lets x l y st
  have hst : st = w.phSt p := (setKills_phSt x p p l).trans (dropLoads_phSt w p p)
  rw [if_pos (by rcases h with h | h <;> rw [hst, h] <;> rfl)]
  exact force_phSt_self y p phKilled _

/-- Line kills of a list of phases leave each of its ACTIVE phases KILLED. -/
theorem lineKills_phSt (r : Nat) {p : Nat} (l : List Nat) : ∀ w : World, (w.phSt p = phKilled ∨ w.phSt p = phActive ∧ p ∈ l) →
    (l.foldl (fun w p => w.kill p (w.lineKillOf r)) w).phSt p = phKilled := by
  induction l with
  | nil => exact fun w h => h.resolve_right fun h => absurd h.2 List.not_mem_nil
  | cons q l ih =>
    intro w h
    refine ih (w.kill q (w.lineKillOf r)) ?_
    by_cases hq : p = q
    · exact .inl (hq ▸ kill_phSt_self (hq ▸ (h.imp_right And.left).symm))
    · rw [kill_phSt_ne hq]
      exact h.imp_right fun h => ⟨h.1, (List.mem_cons.1 h.2).resolve_left hq⟩

theorem lineKill_acts {w : World} {r : Nat} (h : w.linesOn r ≠ 0) : (w.lineKill r).f F.LE_STAT_FROZEN r = 1
    ∧ ∀ p ∈ w.bound r, w.phSt p = phActive → (w.lineKill r).phSt p = phKilled := by
  unfold World.lineKill World.phSt
  rw [if_neg h]
  dsimp only
  refine ⟨?_, fun p hp hst => ?_⟩
  · rw [f_endForecasts (by decide)]
    exact f_sf_same _ F.LE_STAT_FROZEN r 1
  · rw [f_endForecasts (by decide)]
    refine (f_sf_ne _ (G := F.PW_PHSTAT_STATE) (F := F.LE_STAT_FROZEN) r 1 p (by decide)).trans ?_
    exact lineKills_phSt r (w.bound r) w (.inr ⟨hst, hp⟩)

/-! ### Running, and RAIL_EN (R162, R241) -/

theorem railRunning_next {s : State} {r t : Nat} {w : World} (hw : w = s.w.upTo t) (hen : w.railEn r = true) (hupd : (w.rail r).firstUpd = true)
    (heng : (w.rail r).engOn = true) (hrun : (w.rail r).running = false) (hat : (w.rail r).enAt + 128 * w.f F.PW_ENCFG_ENDLY r ≤ w.clk.tbq)
    (hst : w.rstate r = rsStarting) : exec (.railRunning r t) s = .next (s.withW (((w.setRail r { w.rail r with running := true }).setRstate r rsRegulating).completeWaits
        (fun x => x.cmd.rail == r && x.on == .running) stOk 0)) := by
  change execRailRunning r t s = _
  refine onW_next ?_
  rw [← hw]
  dsimp only
  rw [if_pos (by rw [hen, hupd, heng, hrun, hst, decide_eq_true hat]; rfl), if_pos (show (w.setRail r { w.rail r with running := true }).rstate r = rsStarting from hst)]

/-- The registers that the fall of RAIL_EN writes. -/
abbrev enFallIds : List Nat := F.PW_RSTAT_RAILEN.id :: F.LE_RSTATE_RSTATE.id :: doneIds

theorem railEnFall_next {s : State} {r t : Nat} {w : World} (hw : w = s.w.upTo t) (hdue : (w.rail r).enFallDue = true) (hst : w.rstate r = rsStopping)
    (hat : (w.rail r).disAt + 128 * w.f F.PW_ENCFG_OFFDLY r ≤ w.clk.tbq) : ∃ v : World, exec (.railEnFall r t) s = .next (s.withW v)
      ∧ v.f F.PW_RSTAT_RAILEN r = 0 ∧ v.f F.LE_RSTATE_RSTATE r = rsOff ∧ Keeps enFallIds w v := by
  obtain ⟨x, hx⟩ : ∃ x : World, x = ((w.sf F.PW_RSTAT_RAILEN r 0).start (.hiccup r)).setRail r
    { ((w.sf F.PW_RSTAT_RAILEN r 0).start (.hiccup r)).rail r with enFallDue := false, offSince := ((w.sf F.PW_RSTAT_RAILEN r 0).start (.hiccup r)).tb } := ⟨_, rfl⟩
  have hkx : Keeps enFallIds w x := hx ▸ (((Keeps.refl _ w).sf (by decide)).start).setRail
  have hoff : x.f F.PW_RSTAT_RAILEN r = 0 := hx ▸ f_sf_same w F.PW_RSTAT_RAILEN r 0
  have hstx : x.rstate r = rsStopping := hx ▸ (f_sf_ne w (G := F.LE_RSTATE_RSTATE) (F := F.PW_RSTAT_RAILEN) r 0 r (by decide)).trans hst
  have hexec : exec (.railEnFall r t) s = .next (s.withW (((x.setRstate r rsOff).start .quiet).enFell r)) := by
    change execRailEnFall r t s = _
    refine onW_next ?_
    rw [← hw]
    dsimp only
    rw [if_neg (by rw [hdue]; simp [Nat.not_lt.mpr hat]), ← hx, if_pos hstx]
  have hquiet : Keeps enFallIds w ((x.setRstate r rsOff).start .quiet) := (hkx.sf (by decide)).start
  refine ⟨_, hexec, ?_, ?_, ?_⟩
  all_goals unfold World.enFell; dsimp only
  · rw [f_completeWaits (by decide)]
    exact (f_sf_ne x (G := F.PW_RSTAT_RAILEN) (F := F.LE_RSTATE_RSTATE) r rsOff r (by decide)).trans hoff
  · rw [f_completeWaits (by decide)]
    exact f_sf_same x F.LE_RSTATE_RSTATE r rsOff
  · exact (hquiet.with_cmd).completeWaits (by decide)

/-- Settles O18: the lines that an input drives, the kill of a rail's phases one by one, and the branches of running and of RAIL_EN's fall. -/
theorem railLinesAndPowerTakeEffect : Obligations.RailLinesAndPowerTakeEffect := by
  unfold Obligations.RailLinesAndPowerTakeEffect
  refine ⟨?assert, ?acts, ?release, ?running, ?enFall⟩
  case assert =>
    intro s x t w u v hw hu hv
    refine ⟨?_, fun b hb => hu ▸ (driveLines_on w x).2 b hb, hv ▸ killLineAssert_keeps x hu _⟩
    refine show execKillLineAssert x s t = _ from onW_next ?_
    rw [← hw, hv, hu]
    rfl
  case acts => exact fun w r h => lineKill_acts h
  case release =>
    intro s x r t0 t u w hu hw
    constructor
    · intro hl hp
      refine show execKillLineRelease x r s t0 t = _ from onW_next ?_
      rw [← hu]
      dsimp only
      rw [← hw]
      exact if_pos ⟨hl, hp⟩
    · intro h
      refine show execKillLineRelease x r s t0 t = _ from onW_next ?_
      rw [← hu]
      dsimp only
      rw [← hw]
      refine if_neg ?_
      rintro ⟨hl, hp⟩
      exact h.elim (fun h => h hl) fun h => Bool.false_ne_true (h.symm.trans hp)
  case running => exact fun s r t w hw hen hupd heng hrun hat hst => railRunning_next hw hen hupd heng hrun hat hst
  case enFall => exact fun s r t w hw hdue hst hat => railEnFall_next hw hdue hst hat

end Sys2Proof.Machine

/-! What a command's completion leaves: it changes the registers, the rings' books and the bus side only (R205, R209, R220). -/

namespace Sys2Proof.Machine

/-- `v` is `w` but for what a completion reaches: registers, rings, the posted-write buffer, running times, outputs and the bus side. -/
def doneShape (w v : World) : Prop := ∃ g rs b q t o p, v = { w with regs := g, rings := rs, buf := b, waitq := q, timed := t, out := o, pmb := p }

theorem doneShape.refl (w : World) : doneShape w w := ⟨_, _, _, _, _, _, _, rfl⟩

theorem doneShape.trans {a b c : World} (h : doneShape a b) (k : doneShape b c) : doneShape a c := by
  obtain ⟨_, _, _, _, _, _, _, rfl⟩ := h
  obtain ⟨_, _, _, _, _, _, _, rfl⟩ := k
  exact ⟨_, _, _, _, _, _, _, rfl⟩

theorem doneShape.sf {a b : World} (h : doneShape a b) {F : Fld} {i v : Nat} : doneShape a (b.sf F i v) :=
  h.trans ⟨_, b.rings, b.buf, b.waitq, b.timed, b.out, b.pmb, rfl⟩

theorem doneShape.setRing {a b : World} (h : doneShape a b) {n : Nat} {x : Ring} : doneShape a (b.setRing n x) :=
  h.trans ⟨b.regs, _, b.buf, b.waitq, b.timed, b.out, b.pmb, rfl⟩

theorem doneShape.start {a b : World} (h : doneShape a b) {k : Timed} : doneShape a (b.start k) :=
  h.trans ⟨b.regs, b.rings, b.buf, b.waitq, _, b.out, b.pmb, rfl⟩

theorem doneShape.emit {a b : World} (h : doneShape a b) {x : Out} : doneShape a (b.emit x) :=
  h.trans ⟨b.regs, b.rings, b.buf, b.waitq, b.timed, _, b.pmb, rfl⟩

theorem doneShape.ite {a b c : World} {x : Prop} [Decidable x] (h : doneShape a b) (k : doneShape a c) : doneShape a (if x then b else c) := by
  split
  · exact h
  · exact k

theorem doneShape.foldl {α : Type} {a : World} {f : World → α → World} (l : List α) {b : World} (h : doneShape a b)
    (k : ∀ u x, doneShape a u → doneShape a (f u x)) : doneShape a (l.foldl f b) :=
  List.foldlRecOn (motive := fun u => doneShape a u) l f h fun u hu x _ => k u x hu

section
variable {w v : World} (h : doneShape w v)
include h

theorem doneShape.cmd : v.cmd = w.cmd := by
  obtain ⟨_, _, _, _, _, _, _, rfl⟩ := h
  rfl

theorem doneShape.live : v.live = w.live := by
  obtain ⟨_, _, _, _, _, _, _, rfl⟩ := h
  rfl

theorem doneShape.prt : v.prt = w.prt := by
  obtain ⟨_, _, _, _, _, _, _, rfl⟩ := h
  rfl

theorem doneShape.conv : v.conv = w.conv := by
  obtain ⟨_, _, _, _, _, _, _, rfl⟩ := h
  rfl
end

/-! ### The operations of a completion -/

theorem put_doneShape {a b : World} (h : doneShape a b) (e : BufEnt) : doneShape a (b.put e) := by
  unfold World.put
  exact doneShape.ite (h.trans ⟨b.regs, b.rings, _, b.waitq, b.timed, b.out, b.pmb, rfl⟩) (h.trans ⟨b.regs, b.rings, b.buf, _, b.timed, b.out, b.pmb, rfl⟩)

theorem signal_doneShape {a b : World} (h : doneShape a b) (n : Nat) (irq : Bool) : doneShape a (b.signal n irq) := by
  have hstart : doneShape a (b.when ((b.ring n).unsig + 1 == 1) fun w => w.start (.msix n)) := doneShape.ite h.start h
  unfold World.signal
  dsimp only
  exact doneShape.ite (put_doneShape hstart.setRing _) hstart.setRing

theorem enterWB_doneShape {a b : World} (h : doneShape a b) (n : Nat) (s : Slot) (x : WB) : doneShape a (b.enterWB n s x) :=
  signal_doneShape (put_doneShape h _) n s.irq

theorem flushSlots_doneShape {a : World} (n : Nat) (l : List Slot) : ∀ b : World, doneShape a b → doneShape a (b.flushSlots n l) := by
  induction l with
  | nil => exact fun b h => h.setRing
  | cons s l ih =>
    intro b h
    unfold World.flushSlots
    split
    · exact ih _ (enterWB_doneShape h n s _)
    · exact h.setRing

theorem complete_doneShape (w : World) (c : Cmd) (st x res : Nat) : doneShape w (w.complete c st x res) := by
  have hbus : ∀ k, doneShape w (w.busCompletion c k st x) := fun k => (doneShape.refl w).sf.sf.sf.sf.sf.emit
  unfold World.complete
  split
  · exact doneShape.refl w
  · exact doneShape.ite (flushSlots_doneShape _ _ _ (doneShape.refl w).setRing) (enterWB_doneShape (doneShape.refl w) _ _ _)
  · exact doneShape.ite (hbus 0) ((hbus 0).trans ⟨_, _, _, _, _, _, _, rfl⟩)
  · exact doneShape.ite (hbus _) (doneShape.foldl _ (hbus _) fun _ _ hu => hu.sf)
  · exact doneShape.ite (doneShape.refl w) (doneShape.refl w).sf

end Sys2Proof.Machine

/-! Commands that set, query, clear and calibrate a rail (R159, R191, R229 to R237, R262). -/

namespace Sys2Proof.Machine

/-! ### What the drawn stamp leaves -/

/-- The world after a command took its stamp reads as before but for the stamp registers. -/
theorem taken_reads (w : World) (op : Op) (r : Nat) : ∃ g, w.taken op r = { w with regs := g } ∧ Keeps takenIds w { w with regs := g } := by
  obtain ⟨g, hg⟩ := taken_shape w op r
  exact ⟨g, hg, hg ▸ Keeps.taken w op r⟩

theorem drawn_reads (w : World) (op : Op) (r : Nat) : ∃ g, w.drawn op r = { w with regs := g } ∧ Keeps takenIds w { w with regs := g } := by
  obtain ⟨g, hg⟩ := drawn_shape w op r
  exact ⟨g, hg, hg ▸ (drawn_keeps w op r).mono (by decide)⟩

theorem kind_rail {op : Op} (h : op.kind = .rail) : op.kind ≠ .allOnly ∧ op.kind ≠ .noneOnly := by
  rw [h]
  decide

theorem rail_ne_all {w : World} {r : Nat} (h : r < w.nRails) : r ≠ 0xFF := by
  have hle : w.nRails ≤ 24 := by
    unfold World.nRails
    split
    · decide
    · exact Nat.le_refl 24
  omega

/-! ### NOP and QUERY_RAIL -/

theorem nop_next {s : State} {r : Nat} (h : s.w.turnFree r) (src : CmdSrc) :
    exec (.nop src r) s = .next (s.withW ((s.w.taken .nop r).complete (s.w.stamped src .nop r) stOk 0 0)) :=
  show execNop src r s = _ from onW_next (issue_acts h src .nop 0 rfl (fun hf => absurd hf (by decide)) (by decide) rfl rfl rfl rfl (.inr rfl))

theorem taken_queryResult (w : World) (op : Op) (r : Nat) :
    (w.taken op r).rstate r + 16 * (w.taken op r).nph r + 1024 * ((w.taken op r).inFlight r).length + 16384 * (w.taken op r).f F.LE_STAT_FROZEN r
      = w.rstate r + 16 * w.nph r + 1024 * (w.inFlight r).length + 16384 * w.f F.LE_STAT_FROZEN r := by
  obtain ⟨g, hg, hk⟩ := taken_reads w op r
  have hph : ∀ p, World.phSt { w with regs := g } p = w.phSt p := fun p => hk.f (by decide) p
  have hnph : World.nph { w with regs := g } r = w.nph r := by
    unfold World.nph World.inState
    simp only [hph]
    rfl
  rw [hg, hnph, hk.f (by decide)]
  unfold World.rstate
  rw [hk.f (by decide)]
  rfl

theorem queryRail_next {s : State} {r : Nat} (h : s.w.turnFree r) (src : CmdSrc) :
    exec (.queryRail src r) s = .next (s.withW ((s.w.taken .queryRail r).complete (s.w.stamped src .queryRail r) stOk 0
      (s.w.rstate r + 16 * s.w.nph r + 1024 * (s.w.inFlight r).length + 16384 * s.w.f F.LE_STAT_FROZEN r))) := by
  change execQueryRail src r s = _
  refine onW_next ((issue_acts h src .queryRail 0 rfl (fun hf => absurd hf (by decide)) (by decide) rfl rfl rfl rfl (.inr rfl)).trans ?_)
  rw [← taken_queryResult s.w .queryRail r]
  rfl

/-! ### SET_TARGET -/

theorem targetCode_drawn (w : World) (op : Op) (r q t : Nat) : (w.drawn op r).targetCode q t = w.targetCode q t := by
  unfold World.targetCode
  rw [(drawn_keeps w op r).f (by decide)]

theorem targetCode_taken (w : World) (op : Op) (r q t : Nat) : (w.taken op r).targetCode q t = w.targetCode q t := by
  unfold World.targetCode
  rw [(Keeps.taken w op r).f (by decide)]

/-- The registers that a SET_TARGET writes with its effect. -/
abbrev targetIds : List Nat := F.LE_TARGET_CODE.id :: F.SI_AVSSTAT_VDONE.id :: doneIds

/-- A SET_TARGET completes at once or waits for REF: its target code and the queue stay. -/
theorem setTarget_ends {v y : World} {c : Cmd} {x : Nat} (hx : y.f F.LE_TARGET_CODE c.rail = x) (hq : y.cmd.queue = v.cmd.queue) (hk : Keeps targetIds v y)
    (b : Prop) [Decidable b] : (if b then y.await c .refTarget else y.complete c stOk 0 0).f F.LE_TARGET_CODE c.rail = x
      ∧ (if b then y.await c .refTarget else y.complete c stOk 0 0).cmd.queue = v.cmd.queue
      ∧ Keeps targetIds v (if b then y.await c .refTarget else y.complete c stOk 0 0) := by
  split
  · exact ⟨hx, hq, hk.with_cmd⟩
  · refine ⟨((Keeps.refl doneIds y).complete (List.Subset.refl _)).f (by decide) c.rail |>.trans hx, ?_, hk.complete (by decide)⟩
    rw [(complete_doneShape y c stOk 0 0).cmd, hq]

theorem clrBits_frame (l : List Nat) (k : Nat) (w : World) : Keeps [F.SI_AVSSTAT_VDONE.id] w (l.foldl (fun w a => w.clrBit F.SI_AVSSTAT_VDONE k a) w)
    ∧ (l.foldl (fun w a => w.clrBit F.SI_AVSSTAT_VDONE k a) w).cmd = w.cmd :=
  List.foldlRecOn (motive := fun u : World => Keeps [F.SI_AVSSTAT_VDONE.id] w u ∧ u.cmd = w.cmd) l _ ⟨Keeps.refl _ w, rfl⟩
    fun _ hu _ _ => ⟨hu.1.clrBit (by decide), hu.2⟩

/-- The effect of a SET_TARGET with a code: the rail's target code is that code, and the queue of commands stays. -/
theorem setTarget_effect {v : World} {c : Cmd} {t fl x : Nat} (sense : Int) (hop : c.op = .setTarget t fl) (hx : c.due.getD (v.targetCode c.rail t) = x)
    (hlt : x < 2 ^ 18) : (v.effect c sense).f F.LE_TARGET_CODE c.rail = x ∧ (v.effect c sense).cmd.queue = v.cmd.queue
      ∧ Keeps targetIds v (v.effect c sense) := by
  have hset : (v.sf F.LE_TARGET_CODE c.rail x).f F.LE_TARGET_CODE c.rail = x := (f_sf_same v F.LE_TARGET_CODE c.rail x).trans (Nat.mod_eq_of_lt hlt)
  have hk : Keeps targetIds v (v.sf F.LE_TARGET_CODE c.rail x) := (Keeps.refl _ v).sf (by decide)
  unfold World.effect
  rw [hop]
  dsimp only
  rw [hx]
  cases c.src with
  | avs k =>
    obtain ⟨hkc, hcmd⟩ := clrBits_frame ((v.sf F.LE_TARGET_CODE c.rail x).avsOf k c.rail) k (v.sf F.LE_TARGET_CODE c.rail x)
    refine setTarget_ends (v := v) ?_ ?_ ?_ _
    · exact (hkc.f (by decide) c.rail).trans hset
    · exact congrArg CmdSt.queue hcmd
    · exact (hk.trans (hkc.mono (by decide))).with_pmb
  | ring n slot irq => exact setTarget_ends (v := v) hset rfl hk _
  | pmbus => exact setTarget_ends (v := v) hset rfl hk _
  | firmware => exact setTarget_ends (v := v) hset rfl hk _
  | gone => exact setTarget_ends (v := v) hset rfl hk _

section
variable {s : State} {r t fl : Nat} (h : s.w.turnFree r) (hst : s.w.rstate r = rsStarting ∨ s.w.rstate r = rsRegulating) (h1 : 1 ≤ t) (h2 : t ≤ 1048575)
  (hfl : fl ≤ 1) (hc : s.w.targetCode r t ≤ 262143)
include h hst h1 h2 hfl hc

theorem setTarget_passed (src : CmdSrc) : s.w.issue src (.setTarget t fl) r 0
    = (s.w.drawn (.setTarget t fl) r).passed (s.w.stamped src (.setTarget t fl) r) 0 := by
  have hlegal : legal (.setTarget t fl) (s.w.rstate r) = .acts := by
    rcases hst with h | h <;> rw [h] <;> rfl
  have hbad : (Op.setTarget t fl).bad = none := (if_neg (by omega)).trans (if_neg (by omega))
  have hcode : (s.w.drawn (.setTarget t fl) r).paramBad (s.w.stamped src (.setTarget t fl) r) = none := by
    refine if_neg (Nat.not_lt.mpr ?_)
    rw [targetCode_drawn]
    exact hc
  exact issue_passed h src _ 0 hlegal (fun hf => absurd hf Bool.false_ne_true) (kind_rail rfl) hbad hcode rfl rfl

theorem setTarget_now (src : CmdSrc) (hu : s.w.updating r = false) : ∃ v, exec (.setTarget src r t fl) s = .next (s.withW v)
    ∧ v.f F.LE_TARGET_CODE r = s.w.targetCode r t ∧ v.f F.LE_RLAST_LAST r = s.w.f F.LE_RSEQ_NEXT r % 2 ^ 32
    ∧ Keeps (F.LE_TARGET_CODE.id :: F.SI_AVSSTAT_VDONE.id :: takenIds ++ doneIds) s.w v := by
  have hidle : (s.w.drawn (.setTarget t fl) r).updating r = false := by
    unfold World.updating World.fb at hu ⊢
    rwa [(drawn_keeps s.w _ r).f (by decide)]
  have hexec : exec (.setTarget src r t fl) s = .next (s.withW ((s.w.taken (.setTarget t fl) r).effect (s.w.stamped src (.setTarget t fl) r) 0)) := by
    refine show execSetTarget src r t fl s = _ from onW_next ((setTarget_passed h hst h1 h2 hfl hc src).trans ?_)
    refine passed_now ?_ (.inl hidle)
    rw [cmd_drawn]
    exact h.2.2.1
  obtain ⟨hcode, -, hk⟩ := setTarget_effect (v := s.w.taken (.setTarget t fl) r) (c := s.w.stamped src (.setTarget t fl) r) (x := s.w.targetCode r t) 0 rfl
    (targetCode_taken s.w _ r r t) (by omega)
  refine ⟨_, hexec, hcode, ?_, ((Keeps.taken s.w _ r).mono (by decide)).trans (hk.mono (by decide))⟩
  rw [hk.f (by decide)]
  exact f_sf_same _ F.LE_RLAST_LAST r _

theorem setTarget_due (src : CmdSrc) (hu : s.w.updating r = true) :
    exec (.setTarget src r t fl) s = .next (s.withW { s.w.drawn (.setTarget t fl) r with
      cmd := { s.w.cmd with queue := [{ s.w.stamped src (.setTarget t fl) r with due := some (s.w.targetCode r t) }] } }) := by
  have hup : (s.w.drawn (.setTarget t fl) r).updating r = true := by
    unfold World.updating World.fb at hu ⊢
    rwa [(drawn_keeps s.w _ r).f (by decide)]
  refine show execSetTarget src r t fl s = _ from onW_next ((setTarget_passed h hst h1 h2 hfl hc src).trans ?_)
  have hval : (s.w.drawn (.setTarget t fl) r).boundaryValue (s.w.stamped src (.setTarget t fl) r) = some (s.w.targetCode r t) :=
    congrArg some (targetCode_drawn s.w _ r r t)
  rw [passed_due hup rfl hval, cmd_drawn, h.2.1]
end

/-! ### SET_NPH -/

theorem taken_bound (w : World) (op : Op) (r q : Nat) : (w.taken op r).bound q = w.bound q := by
  obtain ⟨g, hg⟩ := taken_shape w op r
  rw [hg]
  rfl

theorem firmwareNph_needMax (w : World) (r n : Nat) : (w.firmwareNph r n).needMax r = w.needMax r := by
  have hage : ∀ q, (w.firmwareNph r n).age r q = w.age r q := by
    intro q
    unfold World.age World.firmwareNph
    rw [intent_setIntent]
  unfold World.needMax World.inFc World.inFlight
  simp only [hage]
  rfl

/-- The effect of a SET_NPH: the count is written and asked for, and the result is the count it will take. -/
theorem setNph_effect {v : World} {c : Cmd} {n r : Nat} (sense : Int) (hop : c.op = .setNph n) (hr : c.rail = r) (hn : n ≤ 32) :
    ∃ u : World, v.effect c sense = u.complete c stOk 0 (min (v.bound r).length (max n (v.needMax r))) ∧ u.f F.PW_NREQ_NREQ r = n
      ∧ (u.intent r).fwReq = some n ∧ u.cmd = v.cmd ∧ Keeps [F.PW_NREQ_NREQ.id] v u := by
  refine ⟨(v.sf F.PW_NREQ_NREQ r n).firmwareNph r n, ?_, ?_, ?_, rfl, ((Keeps.refl _ v).sf (by decide)).setIntent⟩
  · subst hr
    unfold World.effect
    rw [hop]
    dsimp only
    have hneed : ((v.sf F.PW_NREQ_NREQ c.rail n).firmwareNph c.rail n).needMax c.rail = v.needMax c.rail := firmwareNph_needMax ..
    have hbound : ((v.sf F.PW_NREQ_NREQ c.rail n).firmwareNph c.rail n).bound c.rail = v.bound c.rail := rfl
    rw [hneed, hbound]
  · exact (f_sf_same v F.PW_NREQ_NREQ r n).trans (Nat.mod_eq_of_lt (show n < 64 by omega))
  · exact congrArg Itn.fwReq (intent_setIntent ..)

section
variable {s : State} {r n : Nat} (h : s.w.turnFree r) (hst : s.w.rstate r ≤ rsRegulating) (h1 : 1 ≤ n) (h2 : n ≤ 32)
include h hst h1 h2

theorem setNph_passed (src : CmdSrc) : s.w.issue src (.setNph n) r 0 = (s.w.drawn (.setNph n) r).passed (s.w.stamped src (.setNph n) r) 0 := by
  have hlegal : ∀ st ≤ rsRegulating, legal (.setNph n) st = .acts := by
    intro st hle
    have hcase : st = 0 ∨ st = 1 ∨ st = 2 := by
      have : st ≤ 2 := hle
      omega
    rcases hcase with rfl | rfl | rfl <;> rfl
  have hbad : (Op.setNph n).bad = none := if_neg (by omega)
  exact issue_passed h src _ 0 (hlegal _ hst) (fun hf => absurd hf Bool.false_ne_true) (kind_rail rfl) hbad rfl rfl rfl

theorem setNph_now (src : CmdSrc) (hu : s.w.updating r = false) : ∃ u, exec (.setNph src r n) s
      = .next (s.withW (u.complete (s.w.stamped src (.setNph n) r) stOk 0 (min (s.w.bound r).length (max n (s.w.needMax r)))))
    ∧ u.f F.PW_NREQ_NREQ r = n ∧ (u.intent r).fwReq = some n ∧ Keeps (F.PW_NREQ_NREQ.id :: takenIds) s.w u := by
  have hidle : (s.w.drawn (.setNph n) r).updating r = false := by
    unfold World.updating World.fb at hu ⊢
    rwa [(drawn_keeps s.w _ r).f (by decide)]
  obtain ⟨u, heff, hnreq, hfw, -, hk⟩ := setNph_effect (v := s.w.taken (.setNph n) r) (c := s.w.stamped src (.setNph n) r) (r := r) 0 rfl rfl h2
  have hneed : (s.w.taken (.setNph n) r).needMax r = s.w.needMax r := by
    obtain ⟨g, hg⟩ := taken_shape s.w (.setNph n) r
    rw [hg]
    rfl
  rw [taken_bound, hneed] at heff
  refine ⟨u, ?_, hnreq, hfw, ((Keeps.taken s.w _ r).mono (by decide)).trans (hk.mono (by decide))⟩
  refine show execSetNph src r n s = _ from onW_next ((setNph_passed h hst h1 h2 src).trans (Eq.trans ?_ heff))
  refine passed_now ?_ (.inl hidle)
  rw [cmd_drawn]
  exact h.2.2.1

theorem setNph_due (src : CmdSrc) (hu : s.w.updating r = true) :
    exec (.setNph src r n) s = .next (s.withW { s.w.drawn (.setNph n) r with
      cmd := { s.w.cmd with queue := [{ s.w.stamped src (.setNph n) r with due := some n }] } }) := by
  have hup : (s.w.drawn (.setNph n) r).updating r = true := by
    unfold World.updating World.fb at hu ⊢
    rwa [(drawn_keeps s.w _ r).f (by decide)]
  refine show execSetNph src r n s = _ from onW_next ((setNph_passed h hst h1 h2 src).trans ?_)
  have hval : (s.w.drawn (.setNph n) r).boundaryValue (s.w.stamped src (.setNph n) r) = some n := rfl
  rw [passed_due hup rfl hval, cmd_drawn, h.2.1]
end

/-! ### The update boundary of a waiting command (R229, R230) -/

/-- With nothing else waiting, a command that takes effect shows its stamp and acts. -/
theorem takeEffect_alone {w : World} (h : w.cmd.waits = []) (c : Cmd) (sense : Int) : w.takeEffect c sense = (w.tookEffect c).effect c sense := by
  unfold World.takeEffect
  rw [h]
  split
  · exact completeWaits_none _ _ (fun x => rfl) _ _ _
  · rfl

theorem dueOn_rail {w : World} {r : Nat} {c : Cmd} (h : w.dueOn r = some c) : c.rail = r := by
  have hp := List.find?_some h
  exact beq_iff_eq.1 (Bool.and_eq_true_iff.1 hp).2

theorem dueActs_alone {w : World} {c : Cmd} {r : Nat} (hc : c.rails = [(r, c.stamp)]) (hp : w.paired = false) (hw : w.cmd.waits = []) :
    w.dueActs c = (World.sf { w with cmd := { w.cmd with queue := w.cmd.queue.erase c } } F.LE_RLAST_LAST r c.stamp).effect c 0 := by
  unfold World.dueActs
  rw [sendEffect_alone (by exact hp)]
  refine (takeEffect_alone (by exact hw) c 0).trans ?_
  unfold World.tookEffect
  rw [hc]
  rfl

section
variable {w : World} {c : Cmd} {r x : Nat} (hd : w.dueOn r = some c) (hx : c.due = some x) (hc : c.rails = [(r, c.stamp)]) (hp : w.paired = false)
  (hw : w.cmd.waits = [])
include hd hc hp hw

include hx in
theorem dueActs_setTarget {t fl : Nat} (hop : c.op = .setTarget t fl) (hlt : x < 2 ^ 18) : (w.dueActs c).f F.LE_TARGET_CODE r = x
    ∧ (w.dueActs c).f F.LE_RLAST_LAST r = c.stamp % 2 ^ 32 ∧ (w.dueActs c).cmd.queue = w.cmd.queue.erase c := by
  have hr := dueOn_rail hd
  rw [dueActs_alone hc hp hw]
  obtain ⟨hcode, hq, hk⟩ := setTarget_effect (v := World.sf { w with cmd := { w.cmd with queue := w.cmd.queue.erase c } } F.LE_RLAST_LAST r c.stamp)
    (c := c) (x := x) 0 hop (by rw [hx]; rfl) hlt
  rw [hr] at hcode
  refine ⟨hcode, ?_, hq⟩
  rw [hk.f (by decide)]
  exact f_sf_same _ F.LE_RLAST_LAST r _

theorem dueActs_setNph {n : Nat} (hop : c.op = .setNph n) (h2 : n ≤ 32) : ∃ u : World, w.dueActs c
      = u.complete c stOk 0 (min (w.bound r).length (max n (w.needMax r)))
    ∧ u.f F.PW_NREQ_NREQ r = n ∧ (u.intent r).fwReq = some n ∧ u.cmd.queue = w.cmd.queue.erase c := by
  obtain ⟨u, heff, hnreq, hfw, hcmd, -⟩ := setNph_effect (v := World.sf { w with cmd := { w.cmd with queue := w.cmd.queue.erase c } } F.LE_RLAST_LAST r c.stamp)
    (c := c) 0 hop (dueOn_rail hd) h2
  exact ⟨u, (dueActs_alone hc hp hw).trans heff, hnreq, hfw, congrArg CmdSt.queue hcmd⟩
end

/-! ### FAULT_CLEAR (R191) -/

theorem clearOk_drawn (w : World) (op : Op) (r : Nat) : (w.drawn op r).clearOk r = w.clearOk r := by
  obtain ⟨g, hg, hk⟩ := drawn_reads w op r
  rw [hg]
  exact clearOk_keeps hk rfl rfl

theorem faulted_of_clearOk {w : World} {r : Nat} (h : w.clearOk r = true) : w.rstate r = rsHiccup ∨ w.rstate r = rsLatched := by
  have hf : w.faulted r = true := (Bool.and_eq_true_iff.1 (Bool.and_eq_true_iff.1 (Bool.and_eq_true_iff.1 h).1).1).1
  exact (Bool.or_eq_true_iff.1 hf).imp beq_iff_eq.1 beq_iff_eq.1

/-- A field among some that are written 0 in turn reads 0. -/
theorem writeZeros_f (l : List Fld) (r : Nat) {G : Fld} (hsep : ∀ F ∈ l, F = G ∨ (G.id ≠ F.id ∧ G.id < 4096 ∧ F.id < 4096)) : ∀ w : World,
    (G ∈ l ∨ w.f G r = 0) → (l.foldl (fun w F => w.sf F r 0) w).f G r = 0 := by
  induction l with
  | nil => exact fun w h => h.resolve_left List.not_mem_nil
  | cons F l ih =>
    intro w h
    refine ih (fun K hK => hsep K (List.mem_cons_of_mem _ hK)) (w.sf F r 0) ?_
    rcases hsep F List.mem_cons_self with rfl | hne
    · exact .inr ((f_sf_same w F r 0).trans (Nat.zero_mod _))
    · refine h.imp (fun h => (List.mem_cons.1 h).resolve_left fun hFG => hne.1 (hFG ▸ rfl)) fun h => ?_
      rw [f_sf_ne _ _ _ _ hne, h]

/-- The fields that an accepted clear returns to 0, in the order in which it writes them. -/
abbrev clearedFields : List Fld := [F.LE_STAT_FROZEN, F.PROT_RFLT_FIRST, F.PROT_RFLT_CAUSE, F.PROT_RFLT_RETRIES, F.PROT_RESC_ESCCNT, F.PROT_RPH_LANES,
  F.PROT_RFLT_LATCHED, F.PROT_RFLT_HICCUP]

/-- The registers that an accepted clear writes. -/
abbrev clearIds : List Nat := killIds ++ recordIds ++ [F.LE_RSTATE_RSTATE.id, F.LE_STAT_FROZEN.id, F.PROT_RFLT_FIRST.id,
  F.PROT_RFLT_CAUSE.id, F.PROT_RFLT_RETRIES.id, F.PROT_RESC_ESCCNT.id, F.PROT_RPH_LANES.id, F.PROT_RFLT_LATCHED.id, F.PROT_RFLT_HICCUP.id]

theorem clearRail_spec (w : World) (r stamp : Nat) : (w.clearRail r stamp).rstate r = rsOff
    ∧ (∀ G ∈ clearedFields, (w.clearRail r stamp).f G r = 0) ∧ Keeps clearIds w (w.clearRail r stamp) := by
  obtain ⟨u, hu⟩ : ∃ u : World, u = ((w.when (w.rstate r == rsHiccup) fun w => w.start .quiet).setRstate r rsOff).releaseKills r fun k => k.src == 16 := ⟨_, rfl⟩
  have hstate : u.f F.LE_RSTATE_RSTATE r = rsOff := by
    rw [hu, ((Keeps.refl levelIds _).releaseKills (List.Subset.refl _)).f (by decide)]
    exact f_sf_same _ F.LE_RSTATE_RSTATE r rsOff
  have hku : Keeps clearIds w u := by
    rw [hu]
    exact ((((Keeps.refl _ w).when fun _ h => h.start).sf (by decide))).releaseKills (by decide)
  obtain ⟨v, hv⟩ : ∃ v : World, v = clearedFields.foldl (fun w F => w.sf F r 0) u := ⟨_, rfl⟩
  have hclear : w.clearRail r stamp = (v.setRail r { v.rail r with fstamp := 0, fresp := 0, hicWait := false }).record 1 r (w.faultBytes r 3 0 stamp) := by
    rw [hv, hu]
    rfl
  have hkv : Keeps (clearedFields.map Fld.id) u v := by
    rw [hv]
    exact Keeps.sfs clearedFields (by decide) (Keeps.refl _ u)
  rw [hclear]
  refine ⟨?_, fun G hG => ?_, ?_⟩
  · unfold World.rstate
    rw [f_record (by decide)]
    exact (hkv.f (by decide) r).trans hstate
  · have hid := (show ∀ G ∈ clearedFields, G.id < 4096 ∧ G.id ∉ recordIds by decide) G hG
    have hsep := (show ∀ G ∈ clearedFields, ∀ F ∈ clearedFields, F = G ∨ (G.id ≠ F.id ∧ G.id < 4096 ∧ F.id < 4096) by decide) G hG
    rw [f_record hid, f_setRail, hv]
    exact writeZeros_f clearedFields r hsep u (.inl hG)
  · exact ((hku.trans (hkv.mono (by decide))).setRail).record (by decide)

theorem faultClear_next {s : State} {r : Nat} (h : s.w.turnFree r) (hok : s.w.clearOk r = true) (src : CmdSrc) :
    exec (.faultClear src r) s = .next (s.withW (((s.w.taken .faultClear r).clearRail r (s.w.f F.LE_RSEQ_NEXT r)).complete (s.w.stamped src .faultClear r) stOk 0 0)) := by
  have hlegal : legal .faultClear (s.w.rstate r) = .acts := by
    rcases faulted_of_clearOk hok with h | h <;> rw [h] <;> rfl
  have hown : (s.w.drawn .faultClear r).ownCheck (s.w.stamped src .faultClear r) = none := if_pos ((clearOk_drawn s.w _ r).trans hok)
  exact show execFaultClear src r s = _ from
    onW_next (issue_acts h src .faultClear 0 hlegal (fun hf => absurd hf Bool.false_ne_true) (kind_rail rfl) rfl rfl hown rfl (.inr rfl))

/-! ### BUDGET_SET (R262) -/

theorem budgetSet_next {s : State} {r n l md : Nat} (h : s.w.turnFree r) (h1 : 10 ≤ n) (h2 : n ≤ 10000000) (hmd : md ≤ 2) (src : CmdSrc) :
    exec (.budgetSet src r n l md) s = .next (s.withW
      (({ s.w.taken (.budgetSet n l md) r with budgets := s.w.budgets ++ [(r, n, l, md)] } : World).await (s.w.stamped src (.budgetSet n l md) r) .budget)) := by
  have hbad : (Op.budgetSet n l md).bad = none := (if_neg (by omega)).trans (if_neg (by omega))
  have hkind : (Op.budgetSet n l md).kind ≠ .allOnly ∧ (Op.budgetSet n l md).kind ≠ .noneOnly := show RailKind.railOrNone ≠ _ ∧ RailKind.railOrNone ≠ _ by decide
  refine show execBudgetSet src r n l md s = _ from
    onW_next ((issue_acts h src (.budgetSet n l md) 0 rfl (fun hf => absurd hf Bool.false_ne_true) hkind hbad rfl rfl rfl (.inr rfl)).trans ?_)
  obtain ⟨g, hg⟩ := taken_shape s.w (.budgetSet n l md) r
  unfold World.effect
  rw [stamped_op, stamped_rail]
  dsimp only
  rw [hg, if_neg (rail_ne_all h.1)]

/-! ### CALIBRATE (R237) -/

/-- The fields of a calibration's injection (R237). -/
abbrev calFields : List Fld := [F.LE_CALCFG_PHASE, F.LE_CALCFG_PULSE, F.LE_CALCFG_EVERY]

/-- The effect of CALIBRATE: the injection's fields are in force, form CAL is to be adopted and the old one is saved. -/
theorem calibrate_effect {v : World} {c : Cmd} {r p e u t : Nat} (sense : Int) (hop : c.op = .calibrate p e u t) (hr : c.rail = r)
    (hp : p < 128) (he : e < 256) (hu : u < 65536) : ∃ x : World, v.effect c sense = x.await c .calEnd
      ∧ x.rstate r = rsCalibrating ∧ (x.rail r).calAdopt = some 7 ∧ (x.rail r).calSaved = some (v.lf F.LE_FORM_FORM r)
      ∧ (x.rail r).calEnds = v.clk.tbq + 128000 * t
      ∧ x.lf F.LE_CALCFG_PHASE r = p ∧ x.lf F.LE_CALCFG_PULSE r = u ∧ x.lf F.LE_CALCFG_EVERY r = e
      ∧ x.f F.LE_CALRES_SUM r = 0 ∧ x.f F.LE_CALRES_COUNT r = 0 := by
  subst hr
  obtain ⟨y, hy⟩ : ∃ y : World, y = v.setRail c.rail { v.rail c.rail with
    calSaved := some (v.lf F.LE_FORM_FORM c.rail), calAdopt := some 7, calEnds := v.clk.tbq + 128000 * t } := ⟨_, rfl⟩
  obtain ⟨z, hz⟩ : ∃ z : World, z = ((y.sf F.LE_CALCFG_PHASE c.rail p).sf F.LE_CALCFG_PULSE c.rail u).sf F.LE_CALCFG_EVERY c.rail e := ⟨_, rfl⟩
  have hrail : z.rail c.rail = { v.rail c.rail with
      calSaved := some (v.lf F.LE_FORM_FORM c.rail), calAdopt := some 7, calEnds := v.clk.tbq + 128000 * t } := by
    rw [hz, hy]
    exact rail_setRail ..
  have hphase : z.f F.LE_CALCFG_PHASE c.rail = p % 128 := by
    rw [hz, f_sf_ne _ _ _ _ (by decide)]
    exact f_sf_sf y c.rail p c.rail u (by decide)
  have hpulse : z.f F.LE_CALCFG_PULSE c.rail = u % 65536 := by
    rw [hz]
    exact f_sf_sf _ c.rail u c.rail e (by decide)
  have hevery : z.f F.LE_CALCFG_EVERY c.rail = e % 256 := by
    rw [hz]
    exact f_sf_same ..
  have hlive := lf_adoptAll calFields c.rail (by decide) (by decide) z
  refine ⟨(((z.adoptAll calFields c.rail).sf F.LE_CALRES_SUM c.rail 0).sf F.LE_CALRES_COUNT c.rail 0).setRstate c.rail rsCalibrating, ?_, f_sf_same .., ?_, ?_, ?_,
    ?_, ?_, ?_, ?_, ?_⟩
  · rw [hz, hy]
    unfold World.effect
    rw [hop]
  · exact congrArg Prt.calAdopt hrail
  · exact congrArg Prt.calSaved hrail
  · exact congrArg Prt.calEnds hrail
  · refine (hlive F.LE_CALCFG_PHASE (by decide)).trans ?_
    rw [hphase, Nat.mod_eq_of_lt hp, Nat.mod_eq_of_lt (by exact hp)]
  · refine (hlive F.LE_CALCFG_PULSE (by decide)).trans ?_
    rw [hpulse, Nat.mod_eq_of_lt hu, Nat.mod_eq_of_lt (by exact hu)]
  · refine (hlive F.LE_CALCFG_EVERY (by decide)).trans ?_
    rw [hevery, Nat.mod_eq_of_lt he, Nat.mod_eq_of_lt (by exact he)]
  · refine (f_sf_ne _ _ _ _ (by decide)).trans ?_
    exact f_sf_sf _ c.rail 0 c.rail 0 (by decide)
  · exact f_sf_sf _ c.rail 0 c.rail rsCalibrating (by decide)

theorem nPhases_le (w : World) : w.nPhases ≤ 128 := by
  unfold World.nPhases
  split
  · decide
  · exact Nat.le_refl 128

section
variable {s : State} {r p e u t : Nat} (h : s.w.turnFree r) (hst : s.w.rstate r = rsRegulating) (hp : p < s.w.nPhases) (he1 : 1 ≤ e) (he2 : e ≤ 255)
  (hu1 : 1 ≤ u) (hu2 : u ≤ 65535) (ht1 : 1 ≤ t) (ht2 : t ≤ 65535) (hform : s.w.lf F.LE_FORM_FORM r = 1 ∨ s.w.lf F.LE_FORM_FORM r = 4)
  (hfl : s.w.inFlight r = []) (hbound : s.w.boundTo p r = true) (hact : s.w.phSt p = phActive)
include h hst hp he1 he2 hu1 hu2 ht1 ht2 hform hfl hbound hact

theorem calibrate_next (src : CmdSrc) : exec (.calibrate src r p e u t) s
    = .next (s.withW ((s.w.taken (.calibrate p e u t) r).effect (s.w.stamped src (.calibrate p e u t) r) 0)) := by
  have hle := nPhases_le s.w
  obtain ⟨g, hg, hk⟩ := drawn_reads s.w (.calibrate p e u t) r
  have hlegal : legal (.calibrate p e u t) (s.w.rstate r) = .acts := by
    rw [hst]
    rfl
  have hbad : (Op.calibrate p e u t).bad = none :=
    (if_neg (by omega)).trans ((if_neg (by omega)).trans ((if_neg (by omega)).trans (if_neg (by omega))))
  have hphase : (s.w.drawn (.calibrate p e u t) r).paramBad (s.w.stamped src (.calibrate p e u t) r) = none := by
    refine if_pos ⟨?_, ?_⟩
    · rw [hg]
      exact hbound
    · rw [hg]
      exact (hk.f (by decide) p).trans hact
  have hown : (s.w.drawn (.calibrate p e u t) r).ownCheck (s.w.stamped src (.calibrate p e u t) r) = none := by
    rw [hg]
    refine (if_neg (fun hno => hform.elim hno.1 hno.2)).trans (if_neg ?_)
    rw [show World.inFlight { s.w with regs := g } (s.w.stamped src (.calibrate p e u t) r).rail = [] from hfl]
    decide
  have hpresent : (s.w.stamped src (.calibrate p e u t) r).namesAbsent s.w = false := by
    refine Bool.and_eq_false_iff.mpr (.inl (decide_eq_false ?_))
    exact Nat.not_le.mpr hp
  exact show execCalibrate src r p e u t s = _ from
    onW_next (issue_acts h src (.calibrate p e u t) 0 hlegal (fun hf => absurd hf Bool.false_ne_true) (kind_rail rfl) hbad hphase hown hpresent (.inr rfl))

theorem calibrate_acts (src : CmdSrc) : ∃ v : World, exec (.calibrate src r p e u t) s = .next (s.withW (v.await (s.w.stamped src (.calibrate p e u t) r) .calEnd))
    ∧ v.rstate r = rsCalibrating ∧ (v.rail r).calAdopt = some 7 ∧ (v.rail r).calSaved = some (s.w.lf F.LE_FORM_FORM r)
    ∧ (v.rail r).calEnds = s.w.clk.tbq + 128000 * t
    ∧ v.lf F.LE_CALCFG_PHASE r = p ∧ v.lf F.LE_CALCFG_PULSE r = u ∧ v.lf F.LE_CALCFG_EVERY r = e
    ∧ v.f F.LE_CALRES_SUM r = 0 ∧ v.f F.LE_CALRES_COUNT r = 0 := by
  have hle := nPhases_le s.w
  obtain ⟨x, heff, hfacts⟩ := calibrate_effect (v := s.w.taken (.calibrate p e u t) r) (c := s.w.stamped src (.calibrate p e u t) r) (p := p) (e := e)
    (u := u) (t := t) 0 rfl rfl (by omega) (by omega) (by omega)
  have hexec := calibrate_next h hst hp he1 he2 hu1 hu2 ht1 ht2 hform hfl hbound hact src
  rw [heff] at hexec
  obtain ⟨g, hg⟩ := taken_shape s.w (.calibrate p e u t) r
  rw [hg] at hfacts
  exact ⟨x, hexec, hfacts⟩
end

/-- Settles O24: each command passes its checks on a rail whose turn is free, and its effect is its own lemma. -/
theorem railCommandsTakeEffect : Obligations.RailCommandsTakeEffect := by
  unfold Obligations.RailCommandsTakeEffect
  refine ⟨?free, ?target, ?nph, ?due, ?clear, ?budget, ?calibrate⟩
  case free => exact fun s src r h => ⟨nop_next h src, queryRail_next h src⟩
  case target =>
    intro s src r t fl h hst h1 h2 hfl hc
    exact ⟨setTarget_now h hst h1 h2 hfl hc src, setTarget_due h hst h1 h2 hfl hc src⟩
  case nph =>
    intro s src r n h hst h1 h2
    exact ⟨setNph_now h hst h1 h2 src, setNph_due h hst h1 h2 src⟩
  case due =>
    intro w c r x hd hx hc hp hw
    exact ⟨fun t fl hop hlt => dueActs_setTarget hd hx hc hp hw hop hlt, fun n hop _ h2 => dueActs_setNph hd hc hp hw hop h2⟩
  case clear =>
    intro s src r h hok
    obtain ⟨hstate, hzero, hk⟩ := clearRail_spec (s.w.taken .faultClear r) r (s.w.f F.LE_RSEQ_NEXT r)
    exact ⟨_, faultClear_next h hok src, hstate, hzero _ (by decide), hzero _ (by decide), hzero _ (by decide), hzero _ (by decide), hzero _ (by decide),
      hzero _ (by decide), hzero _ (by decide), ((Keeps.taken s.w _ r).mono (by decide)).trans (hk.mono (by decide))⟩
  case budget => exact fun s src r n l md h h1 h2 hmd => budgetSet_next h h1 h2 hmd src
  case calibrate =>
    intro s src r p e u t h hst hp he1 he2 hu1 hu2 ht1 ht2 hform hfl hbound hact
    exact calibrate_acts h hst hp he1 he2 hu1 hu2 ht1 ht2 hform hfl hbound hact src

end Sys2Proof.Machine

/-! The start of a rail whose sense converter's EN field holds a value wider than its one bit (R236). -/

namespace Sys2Proof.Machine

/-- A rail's start leaves EN of a sense converter that is enabled. -/
theorem startRail_enabled {w : World} {r : Nat} (ref : Int) (base : Bool) (h : w.fb F.RSC_CFG_EN r = true) :
    (w.startRail r ref base).f F.RSC_CFG_EN r = w.f F.RSC_CFG_EN r := by
  obtain ⟨x, hx⟩ : ∃ x : World, x = ((w.setEngine r { w.engine r with
      ref := ref, isum1 := none, err1 := 0, iest0 := none, iest1 := none, stopped := false, calCount := 0, calFrom := none }).sf
      F.LE_REFNOW_CODE r (ref / 256).toNat).setRstate r (if base then rsBasecamp else rsStarting) := ⟨_, rfl⟩
  have hkx : Keeps [F.LE_REFNOW_CODE.id, F.LE_RSTATE_RSTATE.id] w x := by
    rw [hx]
    exact (((Keeps.refl _ w).setEngine).sf (by decide)).sf (by decide)
  have hen : x.f F.RSC_CFG_EN r = w.f F.RSC_CFG_EN r := hkx.f (by decide) r
  have hstart : x.rscStart r = x := if_pos (by unfold World.fb at h ⊢; rwa [hen])
  have htail : Keeps [F.PCC_CFG_EN.id, F.PW_RSTAT_RAILEN.id, F.PW_RSTAT_NREQ.id, F.PW_PHSTAT_RANK.id] x (w.startRail r ref base) := by
    unfold World.startRail
    dsimp only
    rw [← hx, hstart]
    exact (((((Keeps.foldl _ (Keeps.refl _ x) fun _ _ hu => hu.sf (by decide)).sf (by decide)).setNreq (by decide)).regrid (by decide)).setIntent).setRail
  rw [htail.f (by decide), hen]

/-- A world in which EN of sense converter 0 holds 2: no register write gives it, but the statement asks for every world. -/
def wideEnable : World := { State.reset.w with regs := [(F.RSC_CFG_EN.key 0, 2)] }

/-- Refutes O25: where RSC_CFG.EN holds 2, the start of the rail finds the converter enabled and leaves 2, not 1. The other clauses are not at issue. -/
theorem not_railStartsAndStopsTakeEffect : ¬ Obligations.RailStartsAndStopsTakeEffect := by
  unfold Obligations.RailStartsAndStopsTakeEffect
  rintro ⟨-, hstart, -⟩
  obtain ⟨-, -, hone, -⟩ := hstart wideEnable 0 0 false
  rw [startRail_enabled (w := wideEnable) 0 false rfl] at hone
  exact absurd hone (show (2 : Nat) ≠ 1 by decide)

end Sys2Proof.Machine

/-! FORECAST, FORECAST_CANCEL and the end of a calibration (R109, R110, R116, R121, R128, R237). -/

namespace Sys2Proof.Machine

/-! ### FORECAST (R109, R110, R116) -/

theorem forecast_next {s : State} {r : Nat} {p : FcParam} (h : s.w.turnFree r) (hst : s.w.rstate r = rsRegulating) (hen : s.w.fb F.FC_CFG_EN 0 = true)
    (hien : s.w.fb F.FC_RAILA_IEN r = true) (hbad : fcBad p = none) (hcheck : (s.w.drawn (.forecast p) r).fcCheck r p = none) (src : CmdSrc) :
    exec (.forecast src r p) s = .next (s.withW ((s.w.taken (.forecast p) r).effect (s.w.stamped src (.forecast p) r) 0)) := by
  have hlegal : legal (.forecast p) (s.w.rstate r) = .acts := by
    rw [hst]
    rfl
  exact show execForecast src r p s = _ from
    onW_next (issue_acts h src (.forecast p) 0 hlegal (fun _ => ⟨hen, hien⟩) (kind_rail rfl) hbad rfl hcheck rfl (.inr rfl))

theorem showFlight_fcs (w : World) (r : Nat) : (w.showFlight r).fcs = w.fcs := rfl

section
variable {w : World} {i : Nat} (h : w.freeIdx = some i)
include h

theorem freeIdx_lowest : (w.fc i).st = .free ∧ ∀ j < i, (w.fc j).st ≠ .free := by
  obtain ⟨hi, -, hlow⟩ := List.find?_range_eq_some.1 h
  refine ⟨beq_iff_eq.1 hi, fun j hj hfree => ?_⟩
  have hno := hlow j hj
  rw [hfree] at hno
  exact Bool.false_ne_true hno

/-- What an accepted forecast leaves in the table (R109, R116). -/
theorem fcAccept_spec (r : Nat) (p : FcParam) (src srcidx q : Nat) : (w.fcAccept r p src srcidx q).2 = (w.fc i).nextFid i
    ∧ ((w.fcAccept r p src srcidx q).1.fc i).st = (if w.intentForm r then .wait else .passive)
    ∧ ((w.fcAccept r p src srcidx q).1.fc i).fseq = q ∧ ((w.fcAccept r p src srcidx q).1.fc i).rail = r
    ∧ ((w.fcAccept r p src srcidx q).1.fc i).fid = (w.fc i).nextFid i
    ∧ ∀ j, j ≠ i → (w.fcAccept r p src srcidx q).1.fc j = w.fc j := by
  obtain ⟨x, hx, hst, hq, hr, hfid⟩ : ∃ x : Fc, w.fcAccept r p src srcidx q = ((w.setFc i x).showFlight r, (w.fc i).nextFid i)
      ∧ x.st = (if w.intentForm r then .wait else .passive) ∧ x.fseq = q ∧ x.rail = r ∧ x.fid = (w.fc i).nextFid i := by
    unfold World.fcAccept
    rw [h]
    exact ⟨_, rfl, rfl, rfl, rfl, rfl⟩
  have hsame : ((w.setFc i x).showFlight r).fc i = x := fc_setFc w i x
  rw [hx, hsame]
  exact ⟨rfl, hst, hq, hr, hfid, fun j hj => fc_setFc_ne w x hj⟩
end

/-! ### FORECAST_CANCEL (R121, R128) -/

theorem forecastCancel_next {s : State} {r fid : Nat} (h : s.w.turnFree r) (hst : s.w.rstate r = rsRegulating) (hfid : (s.w.fc (fid % 128)).fid = fid)
    (hr : (s.w.fc (fid % 128)).rail = r) (hin : (s.w.fc (fid % 128)).st ∈ [FSt.wait, .run, .matched, .passive]) (src : CmdSrc) :
    exec (.forecastCancel src r fid) s = .next (s.withW (
      ((s.w.taken (.forecastCancel fid) r).setFc (fid % 128) { s.w.fc (fid % 128) with cancel := true }).complete
        (s.w.stamped src (.forecastCancel fid) r) stOk 0 0)) := by
  have hlegal : legal (.forecastCancel fid) (s.w.rstate r) = .acts := by
    rw [hst]
    rfl
  have hlive : (s.w.fc (fid % 128)).st ≠ .free ∧ (s.w.fc (fid % 128)).st ≠ .committed ∧ (s.w.fc (fid % 128)).st ≠ .rolling :=
    (show ∀ x ∈ [FSt.wait, .run, .matched, .passive], x ≠ .free ∧ x ≠ .committed ∧ x ≠ .rolling by decide) _ hin
  obtain ⟨g, hg⟩ := drawn_shape s.w (.forecastCancel fid) r
  obtain ⟨g', hg'⟩ := taken_shape s.w (.forecastCancel fid) r
  have hparam : (s.w.drawn (.forecastCancel fid) r).paramBad (s.w.stamped src (.forecastCancel fid) r) = none := by
    rw [hg]
    exact if_neg fun hno => hno.2.2 hr
  have hown : (s.w.drawn (.forecastCancel fid) r).ownCheck (s.w.stamped src (.forecastCancel fid) r) = none := by
    rw [hg]
    exact (if_neg fun hno => hno.elim hlive.1 fun hne => hne hfid).trans (if_neg fun hno => hno.elim hlive.2.1 hlive.2.2)
  refine show execForecastCancel src r fid s = _ from
    onW_next ((issue_acts h src (.forecastCancel fid) 0 hlegal (fun hf => absurd hf Bool.false_ne_true) (kind_rail rfl) rfl hparam hown rfl (.inr rfl)).trans ?_)
  rw [hg']
  rfl

/-! ### The end of a calibration (R237) -/

theorem calibrationEnd_next {s : State} {r : Nat} (hst : s.w.rstate r = rsCalibrating)
    (hend : s.w.f F.LE_CALRES_COUNT r = 255 ∨ (s.w.rail r).calEnds ≤ s.w.clk.tbq) : ∃ v : World, exec (.calibrationEnd r) s = .next (s.withW v)
      ∧ v.rstate r = rsRegulating ∧ v.f F.LE_CALCFG_EVERY r = 0 ∧ v.lf F.LE_CALCFG_EVERY r = 0
      ∧ (v.rail r).calAdopt = (s.w.rail r).calSaved ∧ (v.rail r).calSaved = none ∧ Keeps [F.LE_RSTATE_RSTATE.id, F.LE_CALCFG_EVERY.id] s.w v := by
  obtain ⟨x, hx⟩ : ∃ x : World, x = (s.w.sf F.LE_CALCFG_EVERY r 0).slf F.LE_CALCFG_EVERY r 0 := ⟨_, rfl⟩
  have hkx : Keeps [F.LE_RSTATE_RSTATE.id, F.LE_CALCFG_EVERY.id] s.w x := hx ▸ ((Keeps.refl _ s.w).sf (by decide)).slf
  have hrail : x.rail r = s.w.rail r := hx ▸ rfl
  have hnot : ¬ (s.w.rstate r ≠ rsCalibrating ∨ (s.w.f F.LE_CALRES_COUNT r < 255 ∧ s.w.clk.tbq < (s.w.rail r).calEnds)) := by
    rintro (hno | ⟨hlow, hearly⟩)
    · exact hno hst
    · omega
  refine ⟨(x.setRail r { x.rail r with calAdopt := (x.rail r).calSaved, calSaved := none }).setRstate r rsRegulating, ?_, f_sf_same .., ?_, ?_, ?_, ?_,
    (hkx.setRail).sf (by decide)⟩
  · refine show execCalibrationEnd r s = _ from onW_next ((if_neg hnot).trans ?_)
    rw [hx]
  · refine (f_sf_ne _ _ _ _ (by decide)).trans ?_
    rw [hx]
    exact f_sf_same s.w F.LE_CALCFG_EVERY r 0
  · rw [hx]
    exact lf_slf_same _ F.LE_CALCFG_EVERY r 0
  · refine (congrArg Prt.calAdopt (rail_setRail ..)).trans ?_
    rw [hrail]
  · exact congrArg Prt.calSaved (rail_setRail ..)

/-- Settles O26: the checks of the two commands pass and each effect is one write of the forecast table. -/
theorem forecastCommandsTakeEffect : Obligations.ForecastCommandsTakeEffect := by
  unfold Obligations.ForecastCommandsTakeEffect
  refine ⟨?forecast, ?accept, ?cancel, ?calEnd⟩
  case forecast =>
    intro s src r p h hst hen hien hbad hcheck
    refine (forecast_next h hst hen hien hbad hcheck src).trans ?_
    cases src <;> rfl
  case accept =>
    intro w r p src srcidx q i h
    obtain ⟨hfree, hlow⟩ := freeIdx_lowest h
    exact ⟨hfree, hlow, fcAccept_spec h r p src srcidx q⟩
  case cancel => exact fun s src r fid h hst hfid hr hin => forecastCancel_next h hst hfid hr hin src
  case calEnd => exact fun s r hst hend => calibrationEnd_next hst hend

end Sys2Proof.Machine

/-! A command at the front of the queue while the outcomes of its rail's disable are still to be queued (R130, R229). -/

namespace Sys2Proof.Machine

/-- No command of a rail has its turn while forecasts that a disable ended still roll back (R130). -/
theorem turnOf_disabling {w : World} {r st : Nat} {c : Cmd} {rest : List Cmd} (hr : r ≠ 0xFF) (hq : w.cmd.queue = c :: rest) (hc : c.rails = [(r, st)])
    (hd : w.disabling r = true) : w.turnOf r = none := by
  have hon : (c.on r).isSome = true := by
    unfold Cmd.on
    rw [hc, List.find?_cons_of_pos (by exact beq_self_eq_true r)]
    rfl
  have hfirst : w.cmd.queue.find? (fun c => (c.on r).isSome) = some c := by
    rw [hq]
    exact List.find?_cons_of_pos hon
  unfold World.turnOf
  dsimp only
  rw [if_neg hr, hfirst]
  dsimp only
  rw [hc]
  simp only [List.all_cons, hd, Bool.not_true, Bool.and_false, Bool.false_and]
  exact if_neg Bool.false_ne_true

/-- A NOP of rail 0 at the front of the queue. -/
def waitingNop : Cmd := { src := .firmware, op := .nop, rail := 0, stamp := 0, rails := [(0, 0)] }

/-- Rail 0 was disabled with a forecast under way, whose rollback is not done, and a NOP of it waits. -/
def disablingWorld : World :=
  { State.reset.w with fcs := [(0, { st := .rolling, rail := 0, why := .railOff })], cmd := { State.reset.w.cmd with queue := [waitingNop] } }

theorem disablingWorld_disabling : disablingWorld.disabling 0 = true := by decide

/-- Refutes O27: its last clause leaves out R130. While a disable's rollback is under way the NOP at the front has no turn, and the queue stays. -/
theorem not_commandOrderTakesEffect : ¬ Obligations.CommandOrderTakesEffect := by
  unfold Obligations.CommandOrderTakesEffect
  rintro ⟨-, -, hnop⟩
  have hclaim := hnop { State.reset with w := disablingWorld } 0 0 0 .firmware [] (by decide) (by decide) rfl rfl (by decide) (by decide) rfl
  have hturn : disablingWorld.turnOf 0 = none := turnOf_disabling (c := waitingNop) (rest := []) (by decide) rfl rfl disablingWorld_disabling
  have hstays : exec (.commandTurn 0 0) { State.reset with w := disablingWorld } = .next { State.reset with w := disablingWorld } := by
    refine show execCommandTurn 0 0 _ = _ from onW_next ((if_neg (by decide)).trans ?_)
    rw [hturn]
  have hstate := Host.Outcome.next.inj (hclaim.symm.trans hstays)
  have hqueue := congrArg (fun s : State => s.w.cmd.queue) hstate
  exact List.cons_ne_nil _ _ (hqueue.symm.trans (congrArg CmdSt.queue (complete_doneShape _ _ stOk 0 0).cmd))

end Sys2Proof.Machine

/-! Comparators, digital limits, shutdown, recovery and clearing (R170 to R187, R231, R245). -/

namespace Sys2Proof.Machine

/-! ### Samples reach a filter (R170, R171, R174) -/

theorem pcmpRun_one {w u : World} {p : Nat} {x : Int} {out : Bool} (hu : u = w.sampleIn p (w.pcmpBit p w.clk.tbq x))
    (ho : out = majority (u.hist p) (u.f F.PROT_PBLK_K p) (u.f F.PROT_PBLK_W p)) :
    w.pcmpRun p [x] = if out = w.fb F.PROT_PSTAT_OUT p then u else if out then u.pcmpRise p else u.pcmpFall p := by
  rw [ho, hu]
  rfl

theorem vcmpRun_one {w u : World} {v : Nat} {x : Int} {out : Bool} (hu : u = w.sampleIn (128 + v) (w.vcmpBit v x))
    (ho : out = majority (u.hist (128 + v)) (u.f F.PROT_VCFG_K v) (u.f F.PROT_VCFG_W v)) :
    w.vcmpRun v [x] = if out = w.fb F.PROT_VSTAT_OUT v then u else if out then u.vcmpRise v else u.vcmpFall v := by
  rw [ho, hu]
  rfl

section
variable {w u : World} {p : Nat} {x : Int} {out : Bool} (hu : u = w.sampleIn p (w.pcmpBit p w.clk.tbq x))
  (ho : out = majority (u.hist p) (u.f F.PROT_PBLK_K p) (u.f F.PROT_PBLK_W p))
include hu ho

theorem pcmpRun_rises (h1 : out = true) (h0 : w.f F.PROT_PSTAT_OUT p = 0) : w.pcmpRun p [x] = u.pcmpRise p := by
  rw [pcmpRun_one hu ho, h1, fb_of_zero h0]
  rfl

theorem pcmpRun_falls (h0 : out = false) (h1 : w.f F.PROT_PSTAT_OUT p ≠ 0) : w.pcmpRun p [x] = u.pcmpFall p := by
  have hb : w.fb F.PROT_PSTAT_OUT p = true := bne_iff_ne.mpr h1
  rw [pcmpRun_one hu ho, h0, hb]
  rfl

theorem pcmpRun_stays (h : out = w.fb F.PROT_PSTAT_OUT p) : w.pcmpRun p [x] = u := (pcmpRun_one hu ho).trans (if_pos h)
end

section
variable {w u : World} {v : Nat} {x : Int} {out : Bool} (hu : u = w.sampleIn (128 + v) (w.vcmpBit v x))
  (ho : out = majority (u.hist (128 + v)) (u.f F.PROT_VCFG_K v) (u.f F.PROT_VCFG_W v))
include hu ho

theorem vcmpRun_rises (h1 : out = true) (h0 : w.f F.PROT_VSTAT_OUT v = 0) : w.vcmpRun v [x] = u.vcmpRise v := by
  rw [vcmpRun_one hu ho, h1, fb_of_zero h0]
  rfl

theorem vcmpRun_falls (h0 : out = false) (h1 : w.f F.PROT_VSTAT_OUT v ≠ 0) : w.vcmpRun v [x] = u.vcmpFall v := by
  have hb : w.fb F.PROT_VSTAT_OUT v = true := bne_iff_ne.mpr h1
  rw [vcmpRun_one hu ho, h0, hb]
  rfl
end

/-! ### A filtered output rises (R171, R173, R174) -/

theorem pcmpRise_trip {u : World} {p r : Nat} (hr : u.railOf p = some r) (hm : u.f F.PROT_PCFG_MODE p = 1) :
    u.pcmpRise p = ((u.sf F.PROT_PSTAT_OUT p 1).sf F.PROT_PSTAT_TRIPPED p 1).raise r 0 (some p) := by
  have hr' : (u.sf F.PROT_PSTAT_OUT p 1).railOf p = some r := hr
  unfold World.pcmpRise
  dsimp only
  rw [hr', hm]
  rfl

theorem nextOn_sf (u : World) (r p v : Nat) : (u.sf F.PROT_PSTAT_OUT p v).nextOn r p = u.nextOn r p := by
  unfold World.nextOn World.phSt
  rw [f_sf_ne _ _ _ _ (by decide)]
  rfl

theorem switchLvl_sf (u : World) (r p v t : Nat) : (u.sf F.PROT_PSTAT_OUT p v).switchLvl r p t = u.switchLvl r p t := by
  unfold World.switchLvl
  rw [nextOn_sf]
  rfl

/-- The level of a ball does not hang on the comparator's output. -/
theorem lvl_sf (u : World) (p v : Nat) : (u.sf F.PROT_PSTAT_OUT p v).lvl p = u.lvl p := by
  unfold World.lvl World.ball World.phSt
  rw [f_sf_ne _ _ _ _ (by decide), f_sf_ne _ _ _ _ (by decide)]
  simp only [switchLvl_sf]
  rfl

/-- In LIMIT mode the high interval of the phase ends and its cycle is counted. -/
theorem pcmpRise_limit {u : World} {p r : Nat} (hr : u.railOf p = some r) (hm : u.f F.PROT_PCFG_MODE p = 2) (hl : u.lvl p = lvHigh)
    (hf : (u.phase p).forced = false) : ((u.pcmpRise p).phase p).hi = false ∧ ((u.pcmpRise p).phase p).lastOff = u.clk.tbq
      ∧ (u.pcmpRise p).f F.PROT_PSTAT_OUT p = 1 ∧ (u.pcmpRise p).f F.PROT_PSTAT_LIMITED p = 1
      ∧ (u.pcmpRise p).f F.PROT_PSTAT_LCOUNT p = (u.f F.PROT_PSTAT_LCOUNT p + 1) % 65536
      ∧ Keeps [F.PROT_PSTAT_OUT.id, F.PROT_PSTAT_LIMITED.id, F.PROT_PSTAT_LCOUNT.id, F.PW_PHSTAT_DTNOW.id] u (u.pcmpRise p) := by
  obtain ⟨x, hx⟩ : ∃ x : World, x = (u.sf F.PROT_PSTAT_OUT p 1).sf F.PROT_PSTAT_LIMITED p 1 := ⟨_, rfl⟩
  obtain ⟨y, hy⟩ : ∃ y : World, y = (x.inc F.PROT_PSTAT_LCOUNT p).setPhase p { x.phase p with forced := true } := ⟨_, rfl⟩
  have hrise : u.pcmpRise p = y.offEdge r p u.clk.tbq := by
    have hr' : (u.sf F.PROT_PSTAT_OUT p 1).railOf p = some r := hr
    have hl' : (u.sf F.PROT_PSTAT_OUT p 1).lvl p = lvHigh := (lvl_sf u p 1).trans hl
    have hf' : (((u.sf F.PROT_PSTAT_OUT p 1).sf F.PROT_PSTAT_LIMITED p 1).phase p).forced = false := hf
    unfold World.pcmpRise
    dsimp only
    rw [hr', hm, hl']
    dsimp only
    rw [if_neg (by decide), if_pos ⟨rfl, rfl⟩, hf', hy, hx]
    rfl
  have hcount : x.f F.PROT_PSTAT_LCOUNT p = u.f F.PROT_PSTAT_LCOUNT p := by
    rw [hx, f_sf_ne _ _ _ _ (by decide), f_sf_ne _ _ _ _ (by decide)]
  have hkx : Keeps [F.PROT_PSTAT_OUT.id, F.PROT_PSTAT_LIMITED.id] u x := hx ▸ ((Keeps.refl _ u).sf (by decide)).sf (by decide)
  have hky : Keeps [F.PROT_PSTAT_LCOUNT.id] x y := hy ▸ ((Keeps.refl _ x).sf (by decide)).setPhase
  have hoff : Keeps [F.PW_PHSTAT_DTNOW.id] y (y.offEdge r p u.clk.tbq) := ((Keeps.refl _ y).sf (by decide)).setPhase
  have hphase : ∃ q : Ph, (y.offEdge r p u.clk.tbq).phase p = q ∧ q.hi = false ∧ q.lastOff = u.clk.tbq := ⟨_, phase_setPhase .., rfl, rfl⟩
  obtain ⟨q, hq, hhi, hlast⟩ := hphase
  rw [hrise, hq]
  refine ⟨hhi, hlast, ?_, ?_, ?_, ((hkx.mono (by decide)).trans (hky.mono (by decide))).trans (hoff.mono (by decide))⟩
  · rw [hoff.f (by decide), hky.f (by decide), hx]
    exact f_sf_sf u p 1 p 1 (by decide)
  · rw [hoff.f (by decide), hky.f (by decide), hx]
    exact f_sf_same ..
  · rw [hoff.f (by decide), ← hcount, hy]
    exact f_sf_same ..

theorem vcmpRise_ov {u : World} {v : Nat} (hv : v % 2 = 0) :
    u.vcmpRise v = ((u.sf F.PROT_VSTAT_OUT v 1).sf F.PROT_VSTAT_TRIPPED v 1).raise (v / 2) 2 none := if_pos hv

theorem vcmpRise_uv {u : World} {v : Nat} (hv : v % 2 = 1) (ha : u.f F.PROT_VSTAT_ARMED v ≠ 0) :
    u.vcmpRise v = ((u.sf F.PROT_VSTAT_OUT v 1).sf F.PROT_VSTAT_TRIPPED v 1).raise (v / 2) 3 none := by
  have harmed : (u.sf F.PROT_VSTAT_OUT v 1).fb F.PROT_VSTAT_ARMED v = true := by
    refine bne_iff_ne.mpr ?_
    rwa [f_sf_ne _ _ _ _ (by decide)]
  exact (if_neg (by omega)).trans (if_pos harmed)

/-! ### Digital limits (R178) -/

section
variable {w u : World} {p r : Nat} {code i : Int} (hc : w.takeCode p code = (u, i)) (hr : u.railOf p = some r)
include hc hr

theorem newCurrent_limits {z : World} (hz : z = u.zeroCross r p i) : w.newCurrent p code =
    (let v := if (u.f F.PROT_DLIM0_IPHLIM r : Int) < i then z.raise r 4 (some p) else z.endAuto p 4
     if i < -(u.f F.PROT_DLIM1_INEG r : Int) then v.raise r 5 (some p) else v.endAuto p 5) := by
  have hlim : z.f F.PROT_DLIM0_IPHLIM r = u.f F.PROT_DLIM0_IPHLIM r := by
    rw [hz]
    unfold World.zeroCross
    have hk : Keeps levelIds u (if u.lfs F.PW_ZC_ZCTHR r < i then u else if u.phSt p = phShed then u.force p phOff lvMid
        else if u.lf F.PW_RAILCFG_DE r = 1 ∧ u.phSt p = phActive ∧ u.lvl p = lvLow then u.setPhase p { u.phase p with dem := true, demAt := u.clk.tbq }
        else u) :=
      Keeps.ite (Keeps.refl _ u) (Keeps.ite ((Keeps.refl _ u).force (List.Subset.refl _)) (Keeps.ite (Keeps.refl _ u).setPhase (Keeps.refl _ u)))
    exact hk.f (by decide) r
  unfold World.newCurrent
  rw [hc]
  dsimp only
  rw [hr]
  dsimp only
  rw [← hz, hlim]
end

/-- Settles O20: one sample through each filter, what a rise or fall of its output does, and the two limits of a current word. -/
theorem protectionEventsTakeEffect : Obligations.ProtectionEventsTakeEffect := by
  unfold Obligations.ProtectionEventsTakeEffect
  refine ⟨?samples, ?vsamples, ?pcmp, ?vcmp, ?limits⟩
  case samples =>
    intro s w p t xs hw
    subst hw
    exact ⟨fun h => show execPcmpTrip p t s xs = _ from onW_next (if_pos h), fun h => show execPcmpLimit p t s xs = _ from onW_next (if_pos h),
      fun h => show execComparatorDeassert true p t s xs = _ from onW_next ((if_pos rfl).trans (if_pos h))⟩
  case vsamples =>
    intro s w v t xs hw h
    subst hw
    exact ⟨show execVcmpTrip v t s xs = _ from onW_next (if_pos h),
      show execComparatorDeassert false v t s xs = _ from onW_next ((if_neg Bool.false_ne_true).trans (if_pos h))⟩
  case pcmp =>
    intro w u p r x out hu ho hr
    have hru : u.railOf p = some r := hu ▸ hr
    refine ⟨fun h1 h0 hm => ?_, fun h1 h0 hm hl hf => ?_, pcmpRun_falls hu ho, pcmpRun_stays hu ho⟩
    · exact (pcmpRun_rises hu ho h1 h0).trans (pcmpRise_trip hru (hu ▸ hm))
    · have hw : w.regs = u.regs ∧ u.clk = w.clk := hu ▸ ⟨rfl, rfl⟩
      obtain ⟨hhi, hlast, hout, hlimited, hcount, hk⟩ := pcmpRise_limit hru (hu ▸ hm) (hu ▸ hl) (hu ▸ hf)
      refine ⟨_, pcmpRun_rises hu ho h1 h0, hhi, hw.2 ▸ hlast, hout, hlimited, ?_, ?_⟩
      · subst hu
        exact hcount
      · subst hu
        exact hk
  case vcmp =>
    intro w u v x out hu ho
    refine ⟨fun h1 h0 hv => ?_, fun h1 h0 hv ha => ?_, fun h0 h1 hv => ?_⟩
    · exact (vcmpRun_rises hu ho h1 h0).trans (vcmpRise_ov hv)
    · exact (vcmpRun_rises hu ho h1 h0).trans (vcmpRise_uv hv (hu ▸ ha))
    · exact (vcmpRun_falls hu ho h0 h1).trans (if_neg (by omega))
  case limits =>
    intro s p r code i u w hc hr hw
    have hnew := newCurrent_limits hc hr hw
    refine ⟨fun ho hn => ?_, fun ho hn => ?_, fun ho hn => ⟨?_, ?_⟩⟩
    · refine show execIphoc p code s = _ from onW_next (hnew.trans ?_)
      dsimp only
      rw [if_pos ho, if_neg (Int.not_lt.mpr hn)]
    · refine show execIphneg p code s = _ from onW_next (hnew.trans ?_)
      dsimp only
      rw [if_neg (Int.not_lt.mpr ho), if_pos hn]
    · refine show execIphoc p code s = _ from onW_next (hnew.trans ?_)
      dsimp only
      rw [if_neg (Int.not_lt.mpr ho), if_neg (Int.not_lt.mpr hn)]
    · refine show execIphneg p code s = _ from onW_next (hnew.trans ?_)
      dsimp only
      rw [if_neg (Int.not_lt.mpr ho), if_neg (Int.not_lt.mpr hn)]

end Sys2Proof.Machine

/-! Shutdown, recovery and clearing of a rail (R181 to R187, R231, R245). -/

namespace Sys2Proof.Machine

/-! ### A rail stops running (R182) -/

theorem railStop_next {s : State} {w : World} {r t : Nat} (hw : w = s.w.upTo t) (hd : (w.rail r).stopDue = true)
    (ht : (w.rail r).holdAt + 1280 * w.f F.PROT_RCFG_KHOLD r ≤ w.clk.tbq) : exec (.railStop r t) s = .next (s.withW
      ((w.stopRunning r).setRail r { (w.stopRunning r).rail r with enFallDue := (w.stopRunning r).railEn r, disAt := (w.stopRunning r).clk.tbq })) := by
  refine show execRailStop r t s = _ from onW_next ?_
  rw [← hw]
  exact if_pos ⟨hd, ht⟩

/-! ### Hiccups and escalation (R181, R184) -/

theorem escDecay_next {s : State} {r : Nat} (h0 : s.w.f F.PROT_RESC_ESCDEC r ≠ 0) (hp : s.w.past (.esc r) (1000 * s.w.f F.PROT_RESC_ESCDEC r) = true) :
    exec (.escDecay r) s = .next (s.withW ((s.w.sf F.PROT_RESC_ESCCNT r (s.w.f F.PROT_RESC_ESCCNT r - 1)).start (.esc r))) := by
  refine show execEscDecay r s = _ from onW_next (if_neg ?_)
  rw [hp]
  exact fun h => h.elim h0 (by decide)

section
variable {s : State} {w : World} {r t : Nat} (hw : w = s.w.upTo t) (hst : w.rstate r = rsHiccup) (hen : w.railEn r = false)
  (hp : w.past (.hiccup r) (1000 * w.f F.PROT_RTIME_HICTIME r) = true)
include hw hst hen hp

/-- The hiccup wait of a rail that has one ends: only the conditions and the count of retries decide. -/
theorem hiccupWaitEnd_next : exec (.hiccupWaitEnd r t) s = .next (s.withW (if w.clearConds r then w.retry r
    else if w.f F.PROT_RFLT_RETRIES r < w.f F.PROT_RCFG_HICMAX r then (w.inc F.PROT_RFLT_RETRIES r).start (.hiccup r)
    else (((((w.sf F.PROT_RFLT_HICCUP r 0).sf F.PROT_RFLT_LATCHED r 1).sf F.PROT_RFLT_ESC r 1).setRstate r rsLatched).setRail r
      { w.rail r with hicWait := false }))) := by
  refine show execHiccupWaitEnd r t s = _ from onW_next ?_
  rw [← hw]
  refine if_neg ?_
  rw [hst, hen, hp]
  decide

theorem hiccupWaitEnd_latches (hc : w.clearConds r = false) (hm : w.f F.PROT_RCFG_HICMAX r ≤ w.f F.PROT_RFLT_RETRIES r) :
    ∃ v : World, exec (.hiccupWaitEnd r t) s = .next (s.withW v) ∧ v.rstate r = rsLatched ∧ v.f F.PROT_RFLT_LATCHED r = 1
      ∧ v.f F.PROT_RFLT_HICCUP r = 0 ∧ v.f F.PROT_RFLT_ESC r = 1
      ∧ Keeps [F.PROT_RFLT_HICCUP.id, F.PROT_RFLT_LATCHED.id, F.PROT_RFLT_ESC.id, F.LE_RSTATE_RSTATE.id] w v := by
  have hexec := hiccupWaitEnd_next hw hst hen hp
  rw [hc, if_neg Bool.false_ne_true, if_neg (Nat.not_lt.mpr hm)] at hexec
  refine ⟨_, hexec, ?_, ?_, ?_, ?_, (((((Keeps.refl _ w).sf (by decide)).sf (by decide)).sf (by decide)).sf (by decide)).setRail⟩
  all_goals unfold World.setRstate
  · exact f_sf_same _ F.LE_RSTATE_RSTATE r rsLatched
  · rw [f_setRail, f_sf_ne _ _ _ _ (by decide)]
    exact f_sf_sf _ r 1 r 1 (by decide)
  · rw [f_setRail, f_sf_ne _ _ _ _ (by decide), f_sf_ne _ _ _ _ (by decide)]
    exact f_sf_sf w r 0 r 1 (by decide)
  · rw [f_setRail]
    exact f_sf_sf _ r 1 r rsLatched (by decide)
end

/-! ### PROT_RCLR (R231) -/

section
variable {s : State} {r v : Nat} (hon : s.w.on (leIsl r) = true) (hv : v % 2 = 1) (hr : r < s.w.nRails)
include hon hv hr

theorem protRclrWrite_next {u : World} (hu : (if s.w.cmd.queue.any fun c => c.src == .firmware && c.rail == r then s.w.sf F.PROT_ERR_CLRBUSY (grpR r) 1
    else World.setCmd (s.w.inc F.LE_RSEQ_NEXT r) { s.w.cmd with queue := s.w.cmd.queue ++
      [{ src := .firmware, op := .faultClear, rail := r, stamp := s.w.f F.LE_RSEQ_NEXT r, rails := [(r, s.w.f F.LE_RSEQ_NEXT r)] }] }) = u) :
    exec (.protRclrWrite r v) s = .next (s.withW u) := by
  refine show execProtRclrWrite r v s = _ from onW_next ((if_pos hon).trans ?_)
  unfold World.writeRclr
  rw [if_neg (by omega)]
  exact hu

theorem protRclrWrite_queues (h : ∀ c ∈ s.w.cmd.queue, ¬ (c.src = .firmware ∧ c.rail = r)) :
    ∃ w : World, exec (.protRclrWrite r v) s = .next (s.withW w) ∧ Keeps [F.LE_RSEQ_NEXT.id] s.w w
      ∧ w.f F.LE_RSEQ_NEXT r = (s.w.f F.LE_RSEQ_NEXT r + 1) % 2 ^ F.LE_RSEQ_NEXT.wd
      ∧ w.cmd.queue = s.w.cmd.queue ++ [{ src := .firmware, op := .faultClear, rail := r, stamp := s.w.f F.LE_RSEQ_NEXT r, rails := [(r, s.w.f F.LE_RSEQ_NEXT r)] }] := by
  refine ⟨_, protRclrWrite_next hon hv hr (if_neg ?_), ((Keeps.refl _ s.w).inc (by decide)).with_cmd, f_sf_same .., rfl⟩
  rw [List.any_eq_true]
  rintro ⟨c, hc, hcond⟩
  obtain ⟨hsrc, hrail⟩ := Bool.and_eq_true_iff.1 hcond
  exact h c hc ⟨beq_iff_eq.1 hsrc, beq_iff_eq.1 hrail⟩

theorem protRclrWrite_busy (h : ∃ c ∈ s.w.cmd.queue, c.src = .firmware ∧ c.rail = r) :
    exec (.protRclrWrite r v) s = .next (s.withW (s.w.sf F.PROT_ERR_CLRBUSY (grpR r) 1)) := by
  obtain ⟨c, hc, hsrc, hrail⟩ := h
  refine protRclrWrite_next hon hv hr (if_pos (List.any_eq_true.mpr ⟨c, hc, ?_⟩))
  exact Bool.and_eq_true_iff.mpr ⟨beq_iff_eq.mpr hsrc, beq_iff_eq.mpr hrail⟩
end

/-! ### The command gate (R187, R245) -/

theorem commandGateOpen_next {s : State} {r : Nat} {hit : Cmd → Bool} (hg : s.w.f F.LE_RSTATE_GATE r ≠ 0) (hq : s.w.faultQueued r = false)
    (hp : s.w.paired = false ∨ (s.w.rail r).blyTook = true) (hhit : ∀ c, hit c = ((c.on r).isSome && c.faulted.isSome)) :
    exec (.commandGateOpen r) s = .next (s.withW ((s.w.cmd.queue.filter hit).foldl (fun w c => w.settleVoid c stRailFaulted (c.faulted.getD 0) 0 .notAccepted)
      { s.w.sf F.LE_RSTATE_GATE r 0 with cmd := { s.w.cmd with queue := s.w.cmd.queue.filter fun c => !hit c } })) := by
  have hgate : s.w.fb F.LE_RSTATE_GATE r = true := bne_iff_ne.mpr hg
  obtain rfl : hit = fun c => (c.on r).isSome && c.faulted.isSome := funext hhit
  refine show execCommandGateOpen r s = _ from onW_next ((if_neg ?_).trans (if_neg ?_))
  · rw [hgate, hq]
    decide
  · rintro ⟨hpair, htook⟩
    rcases hp with h | h
    · exact Bool.false_ne_true (h.symm.trans hpair)
    · rw [h] at htook
      exact Bool.false_ne_true htook

/-- Settles O21: each row by the branch its hypotheses choose. -/
theorem protectionTimesTakeEffect : Obligations.ProtectionTimesTakeEffect := by
  unfold Obligations.ProtectionTimesTakeEffect
  refine ⟨?stop, ?release, ?decay, ?wait, ?retries, ?rclr, ?gate⟩
  case stop =>
    intro s w r t hw hd ht
    exact ⟨_, _, rfl, railStop_next hw hd ht, rfl, f_stopRunning_run w r, ((Keeps.refl _ w).stopRunning (List.Subset.refl _)).setRail⟩
  case release =>
    intro s w r t hw
    subst hw
    exact show execKillAutoRelease r t s = _ from onW_next rfl
  case decay => exact fun s r h0 hp => escDecay_next h0 hp
  case wait =>
    intro s w r t hw hst hen hp
    have hexec := hiccupWaitEnd_next hw hst hen hp
    refine ⟨fun hc => ?_, fun hc hlt => ?_, fun hc hm => hiccupWaitEnd_latches hw hst hen hp hc hm⟩
    · rw [hexec, if_pos hc]
    · rw [hexec, hc, if_neg Bool.false_ne_true, if_pos hlt]
  case retries =>
    intro s r hrun ht
    exact show execHiccupRetriesClear r s = _ from onW_next (if_pos ⟨hrun, ht⟩)
  case rclr =>
    intro s r v hon hv hr
    exact ⟨protRclrWrite_queues hon hv hr, protRclrWrite_busy hon hv hr⟩
  case gate => exact fun s r hit hg hq hp hhit => commandGateOpen_next hg hq hp hhit

end Sys2Proof.Machine

/-! What raising a fault leaves: the sense converters' books and the live table of the housekeeping converter (R70, R179 to R185). -/

namespace Sys2Proof.Machine

/-- `v` has the sense converters of `w` and its live LAST bits of the housekeeping table. -/
def sensed (w v : World) : Prop := v.conv = w.conv ∧ v.lf F.HKC_SEQ_LAST = w.lf F.HKC_SEQ_LAST

/-! ### The relation's rules -/

theorem sensed.refl (w : World) : sensed w w := ⟨rfl, rfl⟩

theorem sensed.trans {a b c : World} (h : sensed a b) (k : sensed b c) : sensed a c := ⟨k.1.trans h.1, k.2.trans h.2⟩

/-- A change of anything but the converters and the live values. -/
theorem sensed.of {a b c : World} (h : sensed a b) (hc : c.conv = b.conv) (hl : c.live = b.live) : sensed a c :=
  ⟨hc.trans h.1, (show c.lf F.HKC_SEQ_LAST = b.lf F.HKC_SEQ_LAST by unfold World.lf; rw [hl]).trans h.2⟩

theorem sensed.phases {a b c : World} (h : sensed a b) (k : phShape b c) : sensed a c := h.of k.conv k.live

theorem sensed.done {a b c : World} (h : sensed a b) (k : doneShape b c) : sensed a c := h.of k.conv k.live

theorem sensed.sf {a b : World} (h : sensed a b) {G : Fld} {i v : Nat} : sensed a (b.sf G i v) := h.of rfl rfl

theorem sensed.setRail {a b : World} (h : sensed a b) {r : Nat} {x : Prt} : sensed a (b.setRail r x) := h.of rfl rfl
theorem sensed.setIntent {a b : World} (h : sensed a b) {r : Nat} {x : Itn} : sensed a (b.setIntent r x) := h.of rfl rfl
theorem sensed.setEngine {a b : World} (h : sensed a b) {r : Nat} {x : Eng} : sensed a (b.setEngine r x) := h.of rfl rfl
theorem sensed.setPhase {a b : World} (h : sensed a b) {p : Nat} {x : Ph} : sensed a (b.setPhase p x) := h.of rfl rfl
theorem sensed.setFc {a b : World} (h : sensed a b) {i : Nat} {x : Fc} : sensed a (b.setFc i x) := h.of rfl rfl
theorem sensed.setRing {a b : World} (h : sensed a b) {n : Nat} {x : Ring} : sensed a (b.setRing n x) := h.of rfl rfl
theorem sensed.start {a b : World} (h : sensed a b) {k : Timed} : sensed a (b.start k) := h.of rfl rfl
theorem sensed.send {a b : World} (h : sensed a b) {m : BlyOut} : sensed a (b.send m) := h.of rfl rfl
theorem sensed.with_cmd {a b : World} (h : sensed a b) {x : CmdSt} : sensed a { b with cmd := x } := h.of rfl rfl
theorem sensed.with_crn {a b : World} (h : sensed a b) {x : Crn} : sensed a { b with crn := x } := h.of rfl rfl
theorem sensed.with_boosts {a b : World} (h : sensed a b) {x : List Boost} : sensed a { b with boosts := x } := h.of rfl rfl
theorem sensed.with_irqEdge {a b : World} (h : sensed a b) {x : List Nat} : sensed a { b with irqEdge := x } := h.of rfl rfl

theorem sensed.slf {a b : World} (h : sensed a b) {G : Fld} {i v : Nat} (hG : G.id ≠ F.HKC_SEQ_LAST.id ∧ G.id < 4096) : sensed a (b.slf G i v) :=
  ⟨h.1, (funext fun j => lf_slf_ne b i v j ⟨hG.1.symm, by decide, hG.2⟩).trans h.2⟩

theorem sensed.ite {a b c : World} {x : Prop} [Decidable x] (h : sensed a b) (k : sensed a c) : sensed a (if x then b else c) := by
  split
  · exact h
  · exact k

theorem sensed.when {a b : World} {x : Bool} {f : World → World} (h : sensed a b) (k : ∀ u, sensed a u → sensed a (f u)) : sensed a (b.when x f) :=
  (k b h).ite h

theorem sensed.foldl {α : Type} {a b : World} {f : World → α → World} (l : List α) (h : sensed a b) (k : ∀ u x, sensed a u → sensed a (f u x)) :
    sensed a (l.foldl f b) :=
  List.foldlRecOn (motive := fun u => sensed a u) l f h fun u hu x _ => k u x hu

theorem sensed.adoptAll {a b : World} (h : sensed a b) (l : List Fld) (i : Nat) (hl : ∀ G ∈ l, F.HKC_SEQ_LAST.id ≠ G.id ∧ G.id < 4096) :
    sensed a (b.adoptAll l i) := by
  have hconv : (b.adoptAll l i).conv = b.conv := List.foldlRecOn (motive := fun u : World => u.conv = b.conv) l _ rfl fun u hu _ _ => hu
  exact ⟨hconv.trans h.1, (funext fun j => lf_adoptAll_ne l i F.HKC_SEQ_LAST j (by decide) b hl).trans h.2⟩

/-! ### Records, messages and completions -/

section
variable {a b : World} (h : sensed a b)
include h

theorem sensed.putRecord {x : HRec} {res : Bool} : sensed a (b.putRecord x res) :=
  h.done (signal_doneShape (put_doneShape (doneShape.refl _) _) _ _)

theorem sensed.enterGap {n : Nat} : sensed a (b.enterGap n) := by
  unfold World.enterGap
  split
  · exact h
  · exact h.setRing.putRecord

theorem sensed.record {cls rail : Nat} {pay : List Nat} : sensed a (b.record cls rail pay) := by
  unfold World.record
  exact sensed.ite h.sf.sf.setRing h.sf.enterGap.putRecord

theorem sensed.irq {n : Nat} : sensed a (b.irq n) := by
  unfold World.irq
  exact sensed.ite h h.with_irqEdge

theorem sensed.cairn {typ : Nat} {pay : List Nat} : sensed a (b.cairn typ pay) := by
  unfold World.cairn
  exact sensed.ite h.with_crn h.sf.irq.with_crn

theorem sensed.pulse {src : Nat} : sensed a (b.pulse src) := h.of rfl rfl

theorem sensed.completeWaits {p : Waiting → Bool} {st x res : Nat} : sensed a (b.completeWaits p st x res) := by
  unfold World.completeWaits
  exact sensed.foldl _ h.with_cmd fun u _ hu => hu.done (complete_doneShape u _ _ _ _)

theorem sensed.avsAlert {k r : Nat} : sensed a (b.avsAlert k r) := sensed.foldl _ h fun _ _ hu => hu.sf

theorem sensed.sendFault {r : Nat} {m : FaultMsg} : sensed a (b.sendFault r m) := by
  unfold World.sendFault
  exact sensed.ite (h.when fun _ hu => hu.send).setRail h.setRail

/-! ### Forecasts and rollbacks -/

theorem sensed.releaseOne {r : Nat} : sensed a (b.releaseOne r) := by
  unfold World.releaseOne
  dsimp only
  split
  · exact h
  · exact h.setIntent.sf.record

theorem sensed.queueOutcome {o : Outcome} : sensed a (b.queueOutcome o) := by
  have hstat : sensed a (b.tstat o) := by
    unfold World.tstat
    exact sensed.ite (sensed.ite h.sf (sensed.ite h.sf h.sf)) h
  unfold World.queueOutcome
  exact hstat.setIntent.when fun _ hu => hu.releaseOne

theorem sensed.freeFc {i : Nat} : sensed a (b.freeFc i) := by
  have hboost : sensed a (b.endBoost i) := h.with_boosts
  exact hboost.setIntent.setFc.sf.sf

theorem sensed.endFc {i : Nat} {why : Reason} : sensed a (b.endFc i why) := h.setFc.freeFc.queueOutcome

theorem sensed.startRollback {r i : Nat} {why rest : Reason} : sensed a (b.startRollback r i why rest) := by
  have hroll : ∀ l, sensed a (b.toRolling l i why rest) := fun l => sensed.foldl l h fun _ _ hu => hu.setFc
  unfold World.startRollback
  exact (hroll _).setIntent

theorem sensed.endForecasts {r : Nat} {why : Reason} : sensed a (b.endForecasts r why) := by
  have hsend : sensed a (b.when b.paired fun w => (w.inFc r [.run, .matched]).foldl (fun w i => w.send (.decision i false why)) w) :=
    h.when fun u hu => sensed.foldl _ hu fun _ _ hv => hv.send
  unfold World.endForecasts
  extract_lets x y z
  have hy : sensed a y := by
    unfold y
    split
    · exact hsend
    · exact hsend.startRollback
  exact sensed.foldl _ (sensed.foldl _ hy fun _ _ hu => hu.freeFc) fun _ _ hu => hu.setFc.endFc

theorem sensed.setNreq {r n : Nat} : sensed a (b.setNreq r n) := by
  unfold World.setNreq
  exact sensed.ite h h.sf.setRail

theorem sensed.finishRollback {r : Nat} : sensed a (b.finishRollback r) := by
  unfold World.finishRollback
  dsimp only
  split
  · exact h
  · exact sensed.foldl _ h.setIntent.sf.setNreq fun _ _ hu => hu.freeFc.queueOutcome

theorem sensed.stopRollback {r : Nat} : sensed a (b.stopRollback r) := by
  unfold World.stopRollback
  dsimp only
  split
  · exact h.setIntent
  · exact h.setEngine.sf.sf.sf.setIntent.finishRollback.setIntent.sf

/-! ### Phases and their bindings -/

theorem sensed.force {p s l : Nat} : sensed a (b.force p s l) := h.phases (force_phShape b p s l)

theorem sensed.phasesOff {r : Nat} : sensed a (b.phasesOff r) := sensed.foldl _ h fun _ _ hu => hu.setPhase.sf.force

theorem sensed.regrid {r : Nat} : sensed a (b.regrid r) := by
  have hone : ∀ (u : World) (e : Nat × Nat), sensed a u → sensed a (u.regridPhase r e.1 e.2) := by
    intro u e hu
    unfold World.regridPhase
    exact sensed.ite hu.sf.setPhase (sensed.ite hu.sf.setPhase hu.sf)
  unfold World.regrid
  exact sensed.ite (sensed.foldl _ h.setRail hone) h

theorem sensed.railSetAdopt {r : Nat} : sensed a (b.railSetAdopt r) := by
  unfold World.railSetAdopt
  exact sensed.ite h.sf.sf ((sensed.adoptAll h.sf pwRailSet r (by decide)).when fun _ hu => hu.setRail)

theorem sensed.bindPhase {p : Nat} : sensed a (b.bindPhase p) := by
  unfold World.bindPhase
  extract_lets x st u y z q k v
  have hy : sensed a y := ((h.force.slf (by decide)).slf (by decide)).slf (by decide)
  have hv : sensed a v := (hy.sf.phases (setKills_phShape ..)).setPhase.sf
  exact sensed.ite (hv.phases (kill_phShape ..)) hv

theorem sensed.bindShow {l : List Nat} : sensed a (b.bindShow l) := by
  unfold World.bindShow
  exact (sensed.foldl l h fun u r hu => (sensed.ite hu.sf.sf hu.sf).setRail).sf.sf

theorem sensed.bindForget {g : Nat} : sensed a (b.bindForget g) := by
  obtain ⟨o, ho⟩ := bindForget_with b g
  rw [ho]
  exact h.of rfl rfl

theorem sensed.bindAdopt {g : Nat} {sel : Nat → Bool} : sensed a (b.bindAdopt g sel) := by
  unfold World.bindAdopt
  extract_lets l rails x y
  have hx : sensed a x := sensed.foldl l h fun _ _ hu => hu.bindPhase
  have hy : sensed a y := sensed.ite hx hx.bindShow
  exact sensed.ite hy hy.sf.bindForget

theorem sensed.bindPoint {g : Nat} {r : Option Nat} : sensed a (b.bindPoint g r) := by
  unfold World.bindPoint
  extract_lets diff mine gs bad idle
  have hbad : sensed a (gs.foldl (fun w h => (bad.foldl (fun w F => w.sf F h 1) w).sf F.PW_CTL_BCOMMIT h 0) b) :=
    sensed.foldl _ h fun _ _ hu => (sensed.foldl _ hu fun _ _ hv => hv.sf).sf
  have hok : sensed a { b with bindOk := gs.foldl (fun a h => a ||| 2 ^ h) b.bindOk } := h.of rfl rfl
  exact sensed.ite h (sensed.ite (sensed.ite h (sensed.ite hbad hok.bindAdopt)) h.bindAdopt)

/-! ### Stops -/

theorem sensed.dropCal {r : Nat} : sensed a (b.dropCal r) := by
  unfold World.dropCal
  split
  · exact h
  · exact ((h.slf (by decide)).sf.slf (by decide)).setRail

theorem sensed.stopRunning {r : Nat} : sensed a (b.stopRunning r) := by
  unfold World.stopRunning
  extract_lets q w c d e f g k
  have hd : sensed a d := h.setRail.phasesOff.sf.sf
  have hf : sensed a f := (hd.when fun _ hu => hu.endForecasts).stopRollback
  have hk : sensed a k := hf.sf.when fun _ hu => hu.railSetAdopt
  exact hk.bindPoint.bindPoint.regrid

/-! ### Faults -/

theorem sensed.applyKill {r src : Nat} {p : Option Nat} {auto : Bool} : sensed a (b.applyKill r src p auto) := by
  unfold World.applyKill
  generalize b.killOf r src p = e
  obtain ⟨l, mid⟩ := e
  exact sensed.foldl l (sensed.ite h h.setRail) fun _ _ hu => hu.phases (kill_phShape ..)

theorem sensed.addLane {r : Nat} {p : Option Nat} : sensed a (b.addLane r p) := by
  unfold World.addLane
  split
  · exact h.sf
  · exact h

theorem sensed.addCause {r m : Nat} : sensed a (b.addCause r m) := h.of rfl rfl

theorem sensed.faultRegs {r mask first s : Nat} {lat esc : Bool} : sensed a (b.faultRegs r mask first s lat esc) := by
  unfold World.faultRegs
  exact ((h.when fun _ hu => hu.start).dropCal.sf.sf.sf.addCause.sf.sf.sf.sf.sf.sf.setRail.sf).with_cmd

theorem sensed.faultRecords {r resp mask first s : Nat} {esc : Bool} {why : Reason} : sensed a (b.faultRecords r resp mask first s esc why) := by
  unfold World.faultRecords
  exact sensed.foldl _ h.setRail.record.cairn.sendFault.endForecasts.completeWaits fun _ _ hu => hu.avsAlert

theorem sensed.faultStop {r : Nat} : sensed a (b.faultStop r) := by
  unfold World.faultStop
  extract_lets x y
  have hx : sensed a x := h.when fun _ hu => hu.setRail.start
  exact sensed.ite hx.setRail (sensed.ite hx.stopRunning.setRail hx.setRail)

theorem sensed.shutdown {r resp mask : Nat} {esc : Bool} {why : Reason} : sensed a (b.shutdown r resp mask esc why) := by
  unfold World.shutdown
  exact h.faultRegs.faultRecords.faultStop

theorem sensed.joinFault {r resp : Nat} : sensed a (b.joinFault r resp) := by
  unfold World.joinFault
  extract_lets p x y c z
  have hz : sensed a z := ((h.when fun _ hu => hu.sf).when fun _ hu => hu.sf).setRail
  exact sensed.ite hz.sf.sf.sf.setRail hz

theorem sensed.amendFault {r : Nat} : sensed a (b.amendFault r) := by
  unfold World.amendFault
  extract_lets pay x same fix
  have hx : sensed a x := by
    unfold x
    split
    · exact h.sendFault
    · exact h
  exact hx.of rfl rfl

theorem sensed.lateSource {r src resp : Nat} {p : Option Nat} : sensed a (b.lateSource r src p resp) := by
  unfold World.lateSource
  extract_lets x y z
  have hy : sensed a y := h.addCause.addLane.applyKill.sf
  have hz : sensed a z := hy.sf
  exact sensed.ite (sensed.amendFault (sensed.ite hz.joinFault hz)) hy

theorem sensed.tripHead {r src : Nat} {p : Option Nat} {count auto : Bool} : sensed a (b.tripHead r src p count auto) := by
  unfold World.tripHead
  extract_lets again q x y z u
  have hu : sensed a u := ((h.setRail.when fun _ hv => hv.sf).applyKill).sf.addLane
  exact sensed.ite hu hu.sf.pulse

theorem sensed.trip {r src resp : Nat} {p : Option Nat} : sensed a (b.trip r src p resp) := by
  unfold World.trip
  extract_lets again mask esc resp' x y q z
  have hx : sensed a x := h.tripHead
  have hy : sensed a y := hx.when fun _ hu => hu.sf.setRail
  have hz : sensed a z := (sensed.foldl _ hy fun _ _ hu => hu.setPhase).setRail
  exact sensed.ite hx.endForecasts hz.shutdown

theorem sensed.raise {r src : Nat} {p : Option Nat} : sensed a (b.raise r src p) := by
  unfold World.raise
  exact sensed.ite h.sf (sensed.ite h.sf.lateSource h.sf.trip)

end

/-! ### The registers that a raised source can write -/

/-- The registers that a fault writes in its own right. -/
abbrev faultIds : List Nat := [F.LE_RSTATE_RSTATE.id, F.LE_RSTATE_GATE.id, F.PROT_RFLT_FIRST.id, F.PROT_RFLT_CAUSE.id, F.PROT_RFLT_LATCHED.id,
  F.PROT_RFLT_HICCUP.id, F.PROT_RFLT_ESC.id, F.PROT_RFTS_LO_T_LO.id, F.PROT_RFTS_HI_T_HI.id, F.PROT_RCNT_FAULTS.id, F.LE_CALCFG_EVERY.id]

/-- The registers that raising a source can write. -/
abbrev raiseIds : List Nat := F.PROT_RHIST_SEEN.id :: faultIds ++ headIds ++ tailIds

section
variable {a b : World} (h : Keeps raiseIds a b)
include h

theorem keeps_faultRegs {r mask first s : Nat} {lat esc : Bool} : Keeps raiseIds a (b.faultRegs r mask first s lat esc) := by
  unfold World.faultRegs World.setRstate
  extract_lets base u v w1 w2 w3 w4 w5 w6 q w8
  have hv : Keeps raiseIds a v := (h.when fun _ hu => hu.start).dropCal (by decide)
  have h2 : Keeps raiseIds a w2 := ((hv.sf (by decide)).sf (by decide)).sf (by decide)
  have h4 : Keeps raiseIds a w4 := (((keeps_addCause h2 (by decide)).sf (by decide)).sf (by decide)).sf (by decide)
  have h8 : Keeps raiseIds a w8 := (((h4.sf (by decide)).sf (by decide)).inc (by decide)).setRail
  exact (h8.sf (by decide)).with_cmd

theorem keeps_shutdown {r resp mask : Nat} {esc : Bool} {why : Reason} : Keeps raiseIds a (b.shutdown r resp mask esc why) := by
  unfold World.shutdown
  exact keeps_faultTail (keeps_faultRegs h) (by decide)

theorem keeps_joinFault {r resp : Nat} : Keeps raiseIds a (b.joinFault r resp) := by
  unfold World.joinFault World.setRstate
  extract_lets p x y c z
  have hy : Keeps raiseIds a y := (h.when fun _ hu => hu.sf (by decide)).when fun _ hu => hu.sf (by decide)
  have hz : Keeps raiseIds a z := hy.setRail
  exact Keeps.ite (((hz.sf (by decide)).sf (by decide)).sf (by decide)).setRail hz

theorem keeps_amendFault {r : Nat} : Keeps raiseIds a (b.amendFault r) := by
  unfold World.amendFault
  extract_lets pay x same fix
  have hx : Keeps raiseIds a x := by
    unfold x
    split
    · exact keeps_sendFault h
    · exact h
  exact hx.regs rfl

theorem keeps_lateSource {r src resp : Nat} {p : Option Nat} : Keeps raiseIds a (b.lateSource r src p resp) := by
  unfold World.lateSource
  extract_lets x y z
  have hx : Keeps raiseIds a x := keeps_addLane (keeps_addCause h (by decide)) (by decide)
  have hy : Keeps raiseIds a y := (keeps_applyKill hx (by decide)).sf (by decide)
  have hz : Keeps raiseIds a z := hy.sf (by decide)
  exact Keeps.ite (keeps_amendFault (Keeps.ite (keeps_joinFault hz) hz)) hy

theorem keeps_trip {r src resp : Nat} {p : Option Nat} : Keeps raiseIds a (b.trip r src p resp) := by
  unfold World.trip
  extract_lets again mask esc resp' x y q z
  have hx : Keeps raiseIds a x := h.trans ((tripHead_f b r src p _ _ rfl).1.mono (by decide))
  have hy : Keeps raiseIds a y := hx.when fun _ hu => (hu.sf (by decide)).setRail
  have hz : Keeps raiseIds a z := (keeps_holdKills hy).setRail
  exact Keeps.ite (hx.endForecasts (by decide)) (keeps_shutdown hz)

theorem keeps_raise {r src : Nat} {p : Option Nat} : Keeps raiseIds a (b.raise r src p) := by
  unfold World.raise
  have hs : Keeps raiseIds a (b.orBit F.PROT_RHIST_SEEN r src) := h.orBit (by decide)
  exact Keeps.ite hs (Keeps.ite (keeps_lateSource hs) (keeps_trip hs))

end

end Sys2Proof.Machine

/-! The rail sense converter: corrections, references, slots and results (R38 to R55). -/

namespace Sys2Proof.Machine

/-! ### The estimate of a slice and its correction register (R41 to R44) -/

/-- The registers that the windows of a parameter write. -/
abbrev quietIds (par : CorrPar) : List Nat := [(corrFlag par).id, F.RSC_STAT_CONV.id, F.RSC_STAT_FIRSTUSE.id]

theorem corrFlag_id (par : CorrPar) : (corrFlag par).id < 4096 := by
  cases par <;> decide

theorem corrFld_id (par : CorrPar) : (corrFld par).id < 4096 ∧ (corrFld par).id ∉ quietIds par := by
  cases par <;> decide

theorem mode_not_quiet (par : CorrPar) : F.RSC_CFG_MODE.id < 4096 ∧ F.RSC_CFG_MODE.id ∉ quietIds par := by
  cases par <;> decide

theorem mode_not_corr (par : CorrPar) : F.RSC_CFG_MODE.id < 4096 ∧ F.RSC_CFG_MODE.id ∉ (corrFld par).id :: quietIds par := by
  cases par <;> decide

theorem frz_not_quiet (par : CorrPar) : F.RSC_CFG_CORR_FRZ.id < 4096 ∧ F.RSC_CFG_CORR_FRZ.id ∉ quietIds par := by
  cases par <;> decide

theorem flt_not_quiet (par : CorrPar) : F.RSC_STAT_SLICE_FLT.id < 4096 ∧ F.RSC_STAT_SLICE_FLT.id ∉ (corrFld par).id :: quietIds par := by
  cases par <;> decide

theorem applied_setConverter (w : World) (n : Nat) (c : Conv) : ((w.setConverter n c).converter n).applied = c.applied :=
  congrArg Conv.applied (converter_setConverter w n c)

/-- The windows of a parameter leave the times of its corrections, the clock, and all but the flags (R42). -/
theorem quietCount_frame (w : World) (n : Nat) (p : CorrPar) (k : Nat) : Keeps (quietIds p) w (w.quietCount n p k)
    ∧ ((w.quietCount n p k).converter n).applied = (w.converter n).applied ∧ (w.quietCount n p k).clk = w.clk := by
  unfold World.quietCount
  extract_lets v x y
  have hx : Keeps (quietIds p) w x := (Keeps.refl _ w).setConverter
  have happ : (x.converter n).applied = (w.converter n).applied := applied_setConverter ..
  have hy : Keeps (quietIds p) w y ∧ (y.converter n).applied = (w.converter n).applied ∧ y.clk = w.clk := by
    unfold y World.when
    split
    · exact ⟨hx.sf ⟨corrFlag_id p, List.mem_cons_self⟩, happ, rfl⟩
    · exact ⟨hx, happ, rfl⟩
  obtain ⟨hk, ha, hc⟩ := hy
  split
  · exact ⟨(hk.sf ⟨by decide, by simp⟩).sf ⟨by decide, by simp⟩, ha, hc⟩
  · exact ⟨hk, ha, hc⟩

theorem quietWindows_frame (w : World) (n : Nat) (p : CorrPar) : Keeps (quietIds p) w (w.quietWindows n p)
    ∧ ((w.quietWindows n p).converter n).applied = (w.converter n).applied ∧ (w.quietWindows n p).clk = w.clk := by
  unfold World.quietWindows
  extract_lets v now start key base k calm x
  split
  · exact ⟨(Keeps.refl _ w).setConverter, applied_setConverter .., rfl⟩
  · split
    · exact ⟨Keeps.refl _ w, rfl, rfl⟩
    · obtain ⟨hk, ha, hc⟩ := quietCount_frame x n p (if calm then mget 0 v.quiet (corrIdx p) + k else k - 1)
      exact ⟨((Keeps.refl _ w).setConverter (b := w)).trans hk, ha.trans (applied_setConverter ..), hc⟩

section
variable {w : World} {n sl i : Nat} {par : CorrPar} {est d : Int} (hi : i = 8 * n + sl)
  (hd : d = clampI (-(w.corrStep n par)) (w.corrStep n par) (corrReg par est - w.fs (corrFld par) i))

/-- The step of the applied value toward an estimate that the converter holds. -/
theorem applyCorr_frame {y : World} (hest : (y.converter n).est par sl = est) : ((y.applyCorr n sl par).converter n).est par sl = est
    ∧ Keeps [(corrFld par).id] y (y.applyCorr n sl par) := by
  unfold World.applyCorr
  extract_lets v j key last z st e
  split
  · exact ⟨hest, Keeps.refl _ y⟩
  · refine ⟨?_, ((Keeps.refl _ y).sf ⟨(corrFld_id par).1, List.mem_cons_self⟩).setConverter⟩
    rw [converter_setConverter, ← hest]
    cases par <;> rfl

theorem applyCorr_frozen {y : World} (hf : y.fb F.RSC_CFG_CORR_FRZ n = true) : y.applyCorr n sl par = y := if_pos (.inl hf)

include hi hd

theorem applyCorr_steps {y : World} (hest : (y.converter n).est par sl = est) (hf : y.fb F.RSC_CFG_CORR_FRZ n = false) (ht : y.clk.tk % 320 = 0)
    (ha : mget 0 (y.converter n).applied (3 * sl + corrIdx par) = 0 ∨ mget 0 (y.converter n).applied (3 * sl + corrIdx par) + 128000 ≤ y.clk.tk + 1)
    (hstep : y.corrStep n par = w.corrStep n par) (hfs : y.fs (corrFld par) i = w.fs (corrFld par) i) :
    (y.applyCorr n sl par).f (corrFld par) i % 2 ^ (corrFld par).wd = unI (corrFld par).wd (w.fs (corrFld par) i + d) := by
  have hd' : clampI (-(y.corrStep n par)) (y.corrStep n par) (corrReg par ((y.converter n).est par sl) - y.fs (corrFld par) (8 * n + sl)) = d := by
    rw [hest, hstep, ← hi, hfs, hd]
  unfold World.applyCorr
  dsimp only
  rw [hd', ← hi, hfs]
  by_cases hz : d = 0
  · rw [if_pos (.inr (.inr (.inr hz))), hz, Int.add_zero, ← hfs]
    unfold unI World.fs
    rw [sx_mod, Int.toNat_natCast]
  · rw [if_neg ?_]
    · refine (congrArg (· % 2 ^ (corrFld par).wd) (f_sf_same y (corrFld par) i _)).trans ?_
      rw [Nat.mod_mod, Nat.mod_eq_of_lt (unI_lt _ _)]
    · rintro (h | h | h | h)
      · exact Bool.false_ne_true (hf.symm.trans h)
      · exact h ht
      · omega
      · exact hz h
end

theorem sliceFault_sensed (w : World) (n sl : Nat) : (w.sliceFault n sl).conv = w.conv := by
  unfold World.sliceFault
  extract_lets m v reg x y z
  have hz : sensed w z := (((sensed.refl w).sf.sf).pulse.irq).cairn
  exact (sensed.ite (sensed.refl w) (hz.when fun _ hu => hu.raise)).1

/-- The first slice of a converter that is declared faulty (R43). -/
theorem sliceFault_first {w : World} {n sl : Nat} (h0 : w.f F.RSC_STAT_SLICE_FLT n = 0) (hsl : sl < 8) :
    (w.sliceFault n sl).f F.RSC_STAT_SLICE_FLT n = 2 ^ sl ∧ (w.sliceFault n sl).f F.RSC_ERR_SLICE_NEW n = 1 := by
  have hpow : 2 ^ sl < 2 ^ 8 := Nat.pow_lt_pow_right (by decide) hsl
  unfold World.sliceFault
  extract_lets m v reg x y z
  have hm : m = 0 := h0
  have hx : x.f F.RSC_STAT_SLICE_FLT n = 2 ^ sl ∧ x.f F.RSC_ERR_SLICE_NEW n = 1 := by
    refine ⟨?_, f_sf_same _ F.RSC_ERR_SLICE_NEW n 1⟩
    refine (f_sf_sf w n _ n 1 (by decide)).trans ?_
    rw [h0, Nat.zero_or]
    exact Nat.mod_eq_of_lt hpow
  have hz : Keeps [F.CRN_STAT_DROPPED.id] x z := by
    have hy : Keeps [F.CRN_STAT_DROPPED.id] x y := keeps_irq (x.pulse (0x078 + n)) (0x030 + n) _
    exact hy.cairn (by decide)
  rw [hm, if_neg (by rw [Nat.zero_testBit]; exact Bool.false_ne_true)]
  refine ⟨?_, ?_⟩
  · exact (hz.f (by decide) n).trans hx.1
  · exact (hz.f (by decide) n).trans hx.2

section
variable {w : World} {n sl i : Nat} {par : CorrPar} {est d : Int} (hi : i = 8 * n + sl)
  (hd : d = clampI (-(w.corrStep n par)) (w.corrStep n par) (corrReg par est - w.fs (corrFld par) i))
include hi hd

/-- What an estimate does: it is held, and its register takes the step unless a fault is declared (R40 to R44). -/
theorem corr_spec (hsl : sl < 8) : ((w.corr n sl par est).converter n).est par sl = est
    ∧ (est.natAbs ≤ 10000 * w.corrFault n par → Keeps ((corrFld par).id :: quietIds par) w (w.corr n sl par est)
      ∧ (w.fb F.RSC_CFG_CORR_FRZ n = true → (w.corr n sl par est).f (corrFld par) i = w.f (corrFld par) i)
      ∧ (w.fb F.RSC_CFG_CORR_FRZ n = false → w.clk.tk % 320 = 0 →
          mget 0 (w.converter n).applied (3 * sl + corrIdx par) = 0
            ∨ mget 0 (w.converter n).applied (3 * sl + corrIdx par) + 128000 ≤ w.clk.tk + 1 →
          (w.corr n sl par est).f (corrFld par) i % 2 ^ (corrFld par).wd = unI (corrFld par).wd (w.fs (corrFld par) i + d)))
    ∧ (10000 * w.corrFault n par < est.natAbs → w.f F.RSC_STAT_SLICE_FLT n = 0 →
      (w.corr n sl par est).f F.RSC_STAT_SLICE_FLT n = 2 ^ sl ∧ (w.corr n sl par est).f F.RSC_ERR_SLICE_NEW n = 1) := by
  obtain ⟨hkx, hax, hcx⟩ := quietWindows_frame w n par
  obtain ⟨x, hx⟩ : ∃ x : World, x = w.quietWindows n par := ⟨_, rfl⟩
  rw [← hx] at hkx hax hcx
  obtain ⟨y, hy⟩ : ∃ y : World, y = x.setConverter n ((x.converter n).setEst par sl est) := ⟨_, rfl⟩
  have hky : Keeps (quietIds par) w y := hy ▸ hkx.setConverter
  have hest : (y.converter n).est par sl = est := by
    rw [hy, converter_setConverter, est_setEst]
  have happ : (y.converter n).applied = (w.converter n).applied := by
    rw [hy, converter_setConverter, ← hax]
    cases par <;> rfl
  have hclk : y.clk = w.clk := hy ▸ hcx
  obtain ⟨z, hz⟩ : ∃ z : World, z = y.applyCorr n sl par := ⟨_, rfl⟩
  obtain ⟨hestz, hkz⟩ := applyCorr_frame hest
  rw [← hz] at hestz hkz
  have hkwz : Keeps ((corrFld par).id :: quietIds par) w z := (hky.mono (List.subset_cons_self ..)).trans (hkz.mono (by simp))
  have hcorr : w.corr n sl par est = z.when (decide (10000 * w.corrFault n par < est.natAbs)) fun w => w.sliceFault n sl := by
    have hmode : z.f F.RSC_CFG_MODE n = w.f F.RSC_CFG_MODE n := hkwz.f (mode_not_corr par) n
    have hfault : z.corrFault n par = w.corrFault n par := by
      unfold World.corrFault
      rw [hmode]
    rw [hz, hy, hx] at hfault ⊢
    unfold World.corr
    dsimp only
    rw [hfault]
  rw [hcorr]
  have hfrz : y.fb F.RSC_CFG_CORR_FRZ n = w.fb F.RSC_CFG_CORR_FRZ n := by
    unfold World.fb
    rw [hky.f (frz_not_quiet par)]
  refine ⟨?_, fun hle => ?_, fun hlt h0 => ?_⟩
  · unfold World.when
    split
    · exact (show ((z.sliceFault n sl).converter n) = z.converter n by unfold World.converter; rw [sliceFault_sensed]) ▸ hestz
    · exact hestz
  · have hstay : (z.when (decide (10000 * w.corrFault n par < est.natAbs)) fun w => w.sliceFault n sl) = z := by
      rw [decide_eq_false (Nat.not_lt.mpr hle)]
      rfl
    rw [hstay]
    refine ⟨hkwz, fun hf => ?_, fun hf ht ha => ?_⟩
    · rw [hz, applyCorr_frozen (hfrz.trans hf), hky.f (corrFld_id par)]
    · have hstep : y.corrStep n par = w.corrStep n par := by
        unfold World.corrStep
        rw [hky.f (mode_not_quiet par)]
      have hfs : y.fs (corrFld par) i = w.fs (corrFld par) i := by
        unfold World.fs
        rw [hky.f (corrFld_id par)]
      rw [hz]
      exact applyCorr_steps hi hd hest (hfrz.trans hf) (hclk ▸ ht) (by rw [happ, hclk]; exact ha) hstep hfs
  · rw [decide_eq_true hlt]
    have hflt : z.f F.RSC_STAT_SLICE_FLT n = 0 := (hkwz.f (flt_not_quiet par) n).trans h0
    exact sliceFault_first hflt hsl
end

theorem corrStep_next {s : State} {n sl t : Nat} {w : World} (par : CorrPar) (est : Int) (hw : w = s.w.upTo t) (hen : w.fb F.RSC_CFG_EN n = true)
    (hon : w.on (snIsl n) = true) (hsl : sl < 8) : exec (.corrStep n sl par est t) s = .next (s.withW (w.corr n sl par est)) := by
  refine show execCorrStep n sl par est t s = _ from onW_next ?_
  rw [← hw]
  exact if_pos ⟨hen, hon, hsl⟩

/-! ### Writes of the converter's registers (R44, R48, R50, R51) -/

theorem rscCorrWrite_next {s : State} {n sl v : Nat} {par : CorrPar} (hn : n < s.w.nRails) (hon : s.w.on (snIsl n) = true) (hsl : sl < 8) {u : World}
    (hu : s.w.writeCorr n sl par v = u) : exec (.rscCorrWrite n sl par v) s = .next (s.withW u) :=
  show execRscCorrWrite n sl par v s = _ from onW_next ((if_pos ⟨hn, hsl, hon⟩).trans hu)

theorem writeCorr_unfrozen {w : World} {n sl v : Nat} {par : CorrPar} (h : w.fb F.RSC_CFG_CORR_FRZ n = false) :
    w.writeCorr n sl par v = w.sf F.RSC_ERR_FRZBUSY n 1 := if_neg (by rw [h]; exact Bool.false_ne_true)

theorem writeCorr_plain {w : World} {n sl v : Nat} {par : CorrPar} (h : w.fb F.RSC_CFG_CORR_FRZ n = true) (hp : par ≠ .skew) :
    w.writeCorr n sl par v = w.sf (corrFld par) (8 * n + sl) v := by
  refine (if_pos h).trans ?_
  cases par with
  | gain => rfl
  | ofs => rfl
  | skew => exact absurd rfl hp

theorem rscSlotWrite_next {s : State} {n v : Nat} (hn : n < s.w.nRails) (hon : s.w.on (snIsl n) = true) {u : World} (hu : s.w.writeSlot n v = u) :
    exec (.rscSlotWrite n v) s = .next (s.withW u) := show execRscSlotWrite n v s = _ from onW_next ((if_pos ⟨hn, hon⟩).trans hu)

/-- A change of MODE or REFSEL asked of an enabled rail shows REFBUSY and nothing else. -/
theorem refuseChange_frame {x y : World} {n : Nat} {ask : Prop} [Decidable ask] (h : y = if ask then x else x.sf F.RSC_ERR_REFBUSY n 1) :
    Keeps [F.RSC_ERR_REFBUSY.id] x y ∧ (¬ ask ∨ x.f F.RSC_ERR_REFBUSY n = 1 → y.f F.RSC_ERR_REFBUSY n = 1) := by
  subst h
  split
  next hask => exact ⟨Keeps.refl _ x, fun h => h.resolve_left fun hno => hno hask⟩
  next hask => exact ⟨(Keeps.refl _ x).sf (by decide), fun _ => f_sf_same x F.RSC_ERR_REFBUSY n 1⟩

theorem enabled_keeps {l : List Nat} {w v : World} (h : Keeps l w v) (hl : F.LE_RSTATE_RSTATE.id ∉ l) (n : Nat) : v.enabled n = w.enabled n := by
  unfold World.enabled World.rstate
  rw [h.f ⟨by decide, hl⟩]

section
variable {w : World} {n v : Nat} (hen : w.enabled n = true) (hm : bitsOf v 1 2 < 2) (hr : bitsOf v 4 2 ≠ 3)
include hen hm hr

theorem writeRscCfg_enabled : (w.writeRscCfg n v).f F.RSC_CFG_EN n = v % 2 ∧ (w.writeRscCfg n v).f F.RSC_CFG_CORR_FRZ n = bitsOf v 8 1
    ∧ (w.writeRscCfg n v).f F.RSC_CFG_MODE n = w.f F.RSC_CFG_MODE n ∧ (w.writeRscCfg n v).f F.RSC_CFG_REFSEL n = w.f F.RSC_CFG_REFSEL n
    ∧ ((bitsOf v 1 2 ≠ w.f F.RSC_CFG_MODE n ∨ bitsOf v 4 2 ≠ w.f F.RSC_CFG_REFSEL n) → (w.writeRscCfg n v).f F.RSC_ERR_REFBUSY n = 1)
    ∧ Keeps [F.RSC_CFG_EN.id, F.RSC_CFG_CORR_FRZ.id, F.RSC_ERR_REFBUSY.id] w (w.writeRscCfg n v) := by
  obtain ⟨x, hx⟩ : ∃ x : World, x = ((w.when (v % 2 == 1) fun w => w.rscStart n).sf F.RSC_CFG_EN n (v % 2)).sf F.RSC_CFG_CORR_FRZ n (bitsOf v 8 1) := ⟨_, rfl⟩
  have hkx : Keeps [F.RSC_CFG_EN.id, F.RSC_CFG_CORR_FRZ.id] w x := by
    have hstart : Keeps [F.RSC_CFG_EN.id, F.RSC_CFG_CORR_FRZ.id] w (w.when (v % 2 == 1) fun w => w.rscStart n) :=
      (Keeps.refl _ w).when fun u hu => Keeps.ite hu (hu.setConverter.sf (by decide))
    exact hx ▸ (hstart.sf (by decide)).sf (by decide)
  have hmode := hkx.f (G := F.RSC_CFG_MODE) (by decide) n
  have href := hkx.f (G := F.RSC_CFG_REFSEL) (by decide) n
  obtain ⟨y, hy⟩ : ∃ y : World, y = if bitsOf v 1 2 = x.f F.RSC_CFG_MODE n then x else x.sf F.RSC_ERR_REFBUSY n 1 := ⟨_, rfl⟩
  obtain ⟨z, hz⟩ : ∃ z : World, z = if bitsOf v 4 2 = y.f F.RSC_CFG_REFSEL n then y else y.sf F.RSC_ERR_REFBUSY n 1 := ⟨_, rfl⟩
  obtain ⟨hky, hby⟩ := refuseChange_frame hy
  obtain ⟨hkz, hbz⟩ := refuseChange_frame hz
  have hxz : Keeps [F.RSC_ERR_REFBUSY.id] x z := hky.trans hkz
  have hwrite : w.writeRscCfg n v = z := by
    have hex : x.enabled n = true := (enabled_keeps hkx (by decide) n).trans hen
    have hey : y.enabled n = true := (enabled_keeps hky (by decide) n).trans hex
    unfold World.writeRscCfg
    dsimp only
    rw [← hx, if_neg (Nat.not_le.mpr hm), if_pos hex, ← hy, if_neg hr, if_pos hey, ← hz]
  rw [hwrite]
  refine ⟨?_, ?_, ?_, ?_, fun h => ?_, (hkx.mono (by decide)).trans (hxz.mono (by decide))⟩
  · rw [hxz.f (by decide), hx]
    refine (f_sf_sf _ n (v % 2) n _ (by decide)).trans ?_
    exact Nat.mod_mod _ _
  · rw [hxz.f (by decide), hx]
    refine (f_sf_same _ F.RSC_CFG_CORR_FRZ n _).trans ?_
    exact Nat.mod_mod _ _
  · rw [hxz.f (by decide), hmode]
  · rw [hxz.f (by decide), href]
  · rcases h with h | h
    · exact hbz (.inr (hby (.inl (by rwa [hmode]))))
    · exact hbz (.inl (by rwa [hky.f (by decide), href]))
end

/-! ### Software results (R38, R54, R55) -/

/-- The registers that a software-result period writes but for RESULT, NEW and OVR. -/
abbrev swRestIds : List Nat := [F.RSC_SWRES_SRC.id, F.RSC_SWRES_CLIPPED.id, F.RSC_SWRES_UNSETTLED.id, F.RSC_SWCNT_COUNT.id]

theorem newResult_frame (w : World) (i : Nat) : (w.newResult F.RSC_SWRES_NEW F.RSC_SWRES_OVR i).f F.RSC_SWRES_NEW i = 1
    ∧ (w.f F.RSC_SWRES_NEW i ≠ 0 → (w.newResult F.RSC_SWRES_NEW F.RSC_SWRES_OVR i).f F.RSC_SWRES_OVR i = 1)
    ∧ Keeps [F.RSC_SWRES_NEW.id, F.RSC_SWRES_OVR.id] w (w.newResult F.RSC_SWRES_NEW F.RSC_SWRES_OVR i) := by
  unfold World.newResult
  refine ⟨f_sf_same _ F.RSC_SWRES_NEW i 1, fun h => ?_, ((Keeps.refl _ w).when fun _ hu => hu.sf (by decide)).sf (by decide)⟩
  have hb : w.fb F.RSC_SWRES_NEW i = true := bne_iff_ne.mpr h
  rw [hb]
  exact f_sf_sf w i 1 i 1 (by decide)

section
variable {w : World} {n : Nat} {samples : List (Nat × Int)} {c : List (Int × Bool)}
  (hc : c = ((samples.filter fun x => w.sliceSrc n x.1 == (if w.f F.RSC_CFG_MODE n = 0 then w.f F.RSC_SWCFG_SWSRC n else 1)
    && !(w.f F.RSC_STAT_SLICE_FLT n).testBit x.1).map fun x => w.convert n x.1 x.2)) (hne : c ≠ [])
include hc hne

/-- A period with words of its source writes their mean and counts. -/
theorem swPeriod_spec : (w.swPeriod n samples).f F.RSC_SWRES_RESULT n = unI 16 (rdiv (c.map (·.1)).sum c.length) % 2 ^ 16
    ∧ (w.swPeriod n samples).f F.RSC_SWRES_NEW n = 1 ∧ (w.f F.RSC_SWRES_NEW n ≠ 0 → (w.swPeriod n samples).f F.RSC_SWRES_OVR n = 1)
    ∧ (w.swPeriod n samples).f F.RSC_SWRES_CLIPPED n = b2n (c.any (·.2))
    ∧ (c.any (·.2) = true → (w.swPeriod n samples).f F.RSC_ERR_CLIP n = 1)
    ∧ (w.swPeriod n samples).f F.RSC_SWCNT_COUNT n = (w.f F.RSC_SWCNT_COUNT n + 1) % 2 ^ F.RSC_SWCNT_COUNT.wd := by
  obtain ⟨x, hx⟩ : ∃ x : World, x = w.when (c.any (·.2)) fun w => w.sf F.RSC_ERR_CLIP n 1 := ⟨_, rfl⟩
  have hkx : Keeps [F.RSC_ERR_CLIP.id] w x := hx ▸ (Keeps.refl _ w).when fun _ hu => hu.sf (by decide)
  obtain ⟨hnew, hovr, hky⟩ := newResult_frame x n
  obtain ⟨y, hy⟩ : ∃ y : World, y = (x.newResult F.RSC_SWRES_NEW F.RSC_SWRES_OVR n).sf F.RSC_SWRES_RESULT n (unI 16 (rdiv (c.map (·.1)).sum c.length)) := ⟨_, rfl⟩
  have hres : Keeps [F.RSC_SWRES_RESULT.id] (x.newResult F.RSC_SWRES_NEW F.RSC_SWRES_OVR n) y := hy ▸ (Keeps.refl _ _).sf (by decide)
  obtain ⟨z, hz⟩ : ∃ z : World, z = (y.sf F.RSC_SWRES_SRC n (y.f F.RSC_SWCFG_SWSRC n)).sf F.RSC_SWRES_CLIPPED n (b2n (c.any (·.2))) := ⟨_, rfl⟩
  have hkz : Keeps [F.RSC_SWRES_SRC.id, F.RSC_SWRES_CLIPPED.id] y z := hz ▸ ((Keeps.refl _ y).sf (by decide)).sf (by decide)
  obtain ⟨u, hu⟩ : ∃ u : World, u = z.sf F.RSC_SWRES_UNSETTLED n (b2n (!z.fb F.RSC_STAT_REFRDY n || (z.converter n).unsettled)) := ⟨_, rfl⟩
  have hku : Keeps [F.RSC_SWRES_UNSETTLED.id] z u := hu ▸ (Keeps.refl _ z).sf (by decide)
  have hstep : ∃ cv, w.swPeriod n samples = (u.inc F.RSC_SWCNT_COUNT n).setConverter n cv := by
    have hempty : ¬ c.isEmpty = true := fun h => hne (List.isEmpty_iff.1 h)
    have hall : w.convertAll n (samples.filter fun x => w.sliceSrc n x.1 == (if w.f F.RSC_CFG_MODE n = 0 then w.f F.RSC_SWCFG_SWSRC n else 1)
        && !(w.f F.RSC_STAT_SLICE_FLT n).testBit x.1) = (x, c) := by
      unfold World.convertAll
      rw [← hc, hx]
    unfold World.swPeriod
    dsimp only
    rw [hall]
    dsimp only
    rw [if_neg hempty]
    dsimp only
    rw [← hy, ← hz, ← hu]
    exact ⟨_, rfl⟩
  obtain ⟨cv, hcv⟩ := hstep
  have hkv : Keeps [F.RSC_SWCNT_COUNT.id] u ((u.inc F.RSC_SWCNT_COUNT n).setConverter n cv) := ((Keeps.refl _ u).inc (by decide)).setConverter
  have hyv : Keeps swRestIds y ((u.inc F.RSC_SWCNT_COUNT n).setConverter n cv) :=
    ((hkz.mono (by decide)).trans (hku.mono (by decide))).trans (hkv.mono (by decide))
  rw [hcv]
  refine ⟨?_, ?_, fun h => ?_, ?_, fun h => ?_, ?_⟩
  · rw [hyv.f (by decide), hy]
    exact f_sf_same ..
  · rw [hyv.f (by decide), hres.f (by decide), hnew]
  · rw [hyv.f (by decide), hres.f (by decide)]
    exact hovr (by rwa [hkx.f (by decide)])
  · rw [hkv.f (by decide), hku.f (by decide), hz]
    refine (f_sf_same _ F.RSC_SWRES_CLIPPED n _).trans ?_
    cases c.any (·.2) <;> rfl
  · rw [hyv.f (by decide), hres.f (by decide), hky.f (by decide), hx, h]
    exact f_sf_same w F.RSC_ERR_CLIP n 1
  · refine (f_sf_same u F.RSC_SWCNT_COUNT n _).trans ?_
    rw [hku.f (by decide), hkz.f (by decide), hres.f (by decide), hky.f (by decide), hkx.f (by decide)]
end

/-- Settles O9: an estimate's windows, step and fault one after the other; the writes by their branches; a period word by word. -/
theorem railSensingTakesEffect : Obligations.RailSensingTakesEffect := by
  unfold Obligations.RailSensingTakesEffect
  refine ⟨?corr, ?write, ?settled, ?lost, ?slot, ?cfg, ?period⟩
  case corr =>
    intro s n sl t i par est d w hw hen hon hsl hi hd
    exact ⟨_, corrStep_next par est hw hen hon hsl, corr_spec hi hd hsl⟩
  case write =>
    intro s n sl v par hn hon hsl
    exact ⟨fun h => rscCorrWrite_next hn hon hsl (writeCorr_unfrozen h), fun h hp => rscCorrWrite_next hn hon hsl (writeCorr_plain h hp),
      fun h => rscCorrWrite_next hn hon hsl (if_pos h)⟩
  case settled => exact fun s n hon => show execRefSettled n s = _ from onW_next (if_pos hon)
  case lost =>
    intro s isl ref dev l hr hon hl
    subst hl
    exact ⟨fun h => show execReflost isl ref s dev = _ from onW_next ((if_pos ⟨hr, hon⟩).trans (if_pos h)),
      fun h => show execReflost isl ref s dev = _ from onW_next ((if_pos ⟨hr, hon⟩).trans (if_neg (Nat.not_lt.mpr h)))⟩
  case slot =>
    intro s n v hn hon
    refine ⟨fun hen hl => rscSlotWrite_next hn hon (if_pos ⟨hen, hl⟩), fun h => rscSlotWrite_next hn hon (if_neg ?_)⟩
    rintro ⟨hen, hl⟩
    rcases h with h | h
    · exact Bool.false_ne_true (h.symm.trans hen)
    · omega
  case cfg =>
    intro s n v hn hon hen hm hr
    exact ⟨_, show execRscCfgWrite n v s = _ from onW_next (if_pos ⟨hn, hon⟩), writeRscCfg_enabled hen hm hr⟩
  case period =>
    intro s n t samples w c hw hen hon hdue hc hne
    refine ⟨_, show execRscSwresPeriod n t samples s = _ from onW_next ?_, swPeriod_spec hc hne⟩
    rw [← hw]
    exact if_pos ⟨hen, hon, decide_eq_true hdue⟩

end Sys2Proof.Machine

/-! Current channels and the housekeeping converter (R60 to R71). -/

namespace Sys2Proof.Machine

/-! ### Phase current channels (R63, R66) -/

theorem pccSwresPeriod_next {s : State} {isl p : Nat} {codes : List Int} {v : World} (hon : s.w.on isl = true) (h17 : isl ≠ 17) (hp : pcIsl p = isl)
    (hlt : p < s.w.nPhases) (hpast : s.w.past (.pccSw isl) (1000 * (s.w.f F.PCC_SWCTL_SWDIV (isl - 6) + 1)) = true)
    (hv : (s.w.start (.pccSw isl)).currentResult false p codes = v) : exec (.pccSwresPeriod isl [(p, codes)]) s = .next (s.withW v) := by
  have hdiv : s.w.swDiv isl = s.w.f F.PCC_SWCTL_SWDIV (isl - 6) := if_neg h17
  refine show execPccSwresPeriod isl [(p, codes)] s = _ from onW_next ((if_neg ?_).trans ?_)
  · rw [hdiv, hpast, hon]
    decide
  · exact (if_neg h17).trans ((if_pos ⟨hp, hlt⟩).trans hv)

theorem currentResult_mean {u w : World} {p : Nat} {codes l : List Int} (hne : codes ≠ []) (hw : u.currentWords false p codes = (w, l))
    (hen : w.fb F.PCC_CFG_EN p = true) :
    u.currentResult false p codes = (w.newResult F.PCC_SWRES_NEW F.PCC_SWRES_OVR p).sfI F.PCC_SWRES_CURRENT p (rdiv l.sum l.length) := by
  have hgo : ¬ (codes.isEmpty || !w.fb F.PCC_CFG_EN p) = true := by
    rw [hen, List.isEmpty_eq_false_iff.mpr hne]
    decide
  unfold World.currentResult
  rw [hw]
  dsimp only
  exact (if_neg hgo).trans (if_neg Bool.false_ne_true)

section
variable {w : World} {p m : Nat} (hm : w.midFrom p = some m)
include hm

theorem azStart_begins (hen : w.fb F.PCC_CFG_EN p = true) (haz : w.fb F.PCC_CFG_AZ_EN p = true) (ht : m + 256000 ≤ w.clk.tbq)
    (hnew : ∀ b, (w.phase p).az ≠ some (m, b)) : w.azStart p = w.setPhase p { w.phase p with az := some (m, false) } := by
  have hany : (w.phase p).az.any (fun a => a.1 == m) = false := by
    cases hcase : (w.phase p).az with
    | none => rfl
    | some a =>
      refine beq_false_of_ne fun hfst => hnew a.2 ?_
      rw [hcase, ← hfst]
  unfold World.azStart
  rw [hm]
  refine if_neg ?_
  rw [hen, haz, hany]
  simp [Nat.not_lt.mpr ht]

theorem azDone_takes {codes : List Int} {avg : Int} (haz : (w.phase p).az = some (m, false)) (hlen : codes.length = 256)
    (ht : m + 256000 + 131072 ≤ w.clk.tbq) (havg : avg = rdiv (16 * (codes.map (w.pccCode p)).sum) 256) :
    w.azDone p codes = if 2621 < avg.natAbs then (w.setPhase p { w.phase p with az := some (m, true) }).sf F.PCC_ERR_AZ_FAIL p 1
      else (w.setPhase p { w.phase p with az := some (m, true) }).sfI F.PCC_OFS_OFS p avg := by
  have hgo : ¬ (w.midFrom p ≠ some m ∨ codes.length ≠ 256 ∨ w.clk.tbq < m + 256000 + 131072) := by
    rintro (h | h | h)
    · exact h hm
    · exact h hlen
    · omega
  unfold World.azDone
  rw [haz, havg]
  exact if_neg hgo
end

/-! ### Passes of the housekeeping converter (R68 to R70) -/

theorem hkcSwap_next {s : State} (hon : s.w.on 17 = true) {v : World}
    (hv : (if s.w.fb F.HKC_STAT_BUSY 0 then s.w.sf F.HKC_CTL_SWAP 0 1 else (s.w.sf F.HKC_CTL_SWAP 0 1).hkcAdopt) = v) : exec .hkcSwap s = .next (s.withW v) := by
  have hbusy : (s.w.sf F.HKC_CTL_SWAP 0 1).fb F.HKC_STAT_BUSY 0 = s.w.fb F.HKC_STAT_BUSY 0 := by
    unfold World.fb
    rw [f_sf_ne _ _ _ _ (by decide)]
  refine show execHkcSwap s = _ from onW_next ((if_pos hon).trans ?_)
  unfold World.hkcSwap
  dsimp only
  rw [hbusy]
  exact hv

theorem hkcStart_spec (w : World) : w.hkcStart.f F.HKC_STAT_BUSY 0 = 1 ∧ w.hkcStart.f F.HKC_STAT_ENTRY 0 = 0 ∧ w.hkcStart.hkcAt = w.clk.tk + 1
    ∧ Keeps [F.HKC_STAT_BUSY.id, F.HKC_STAT_ENTRY.id] w w.hkcStart := by
  obtain ⟨x, hx⟩ : ∃ x : World, x = { w with hkcAt := w.clk.tk + 1 } := ⟨_, rfl⟩
  have hk : Keeps [F.HKC_STAT_BUSY.id, F.HKC_STAT_ENTRY.id] w x := hx ▸ (Keeps.refl _ w).regs rfl
  have hat : x.hkcAt = w.clk.tk + 1 := hx ▸ rfl
  have hstart : w.hkcStart = ((x.sf F.HKC_STAT_BUSY 0 1).sf F.HKC_STAT_ENTRY 0 0).start .hkcEntry := hx ▸ rfl
  rw [hstart]
  refine ⟨?_, ?_, hat, ((hk.sf (by decide)).sf (by decide)).start⟩
  · exact f_sf_sf (G := F.HKC_STAT_BUSY) (F := F.HKC_STAT_ENTRY) x 0 1 0 0 (by decide)
  · exact f_sf_same (x.sf F.HKC_STAT_BUSY 0 1) F.HKC_STAT_ENTRY 0 0

section
variable {s : State} {t : Nat} {w : World} (hw : w = s.w.upTo t) (hon : w.on 17 = true) (hen : w.fb F.HKC_CTL_EN 0 = true)
include hw hon hen

theorem hkcPassStart_next (hmode : w.fb F.HKC_CTL_MODE 0 = false) (hbusy : w.fb F.HKC_STAT_BUSY 0 = false)
    (hdue : w.hkcAt = 0 ∨ w.hkcAt + 128000 * w.hkcPeriod ≤ w.clk.tk + 1) : exec (.hkcPassStart t) s = .next (s.withW w.hkcStart) := by
  have hd : w.hkcDue = true := by
    unfold World.hkcDue
    rw [Bool.or_eq_true, beq_iff_eq, decide_eq_true_iff]
    exact hdue
  refine show execHkcPassStart s t = _ from onW_next ?_
  rw [← hw]
  exact if_pos ⟨hon, hen, by rw [hmode]; rfl, by rw [hbusy]; rfl, hd⟩

theorem hkcTrigger_next {ch : Nat} (hmode : w.fb F.HKC_CTL_MODE 0 = true) (hch : w.f F.HKC_CTL_TRIG 0 = ch) :
    exec (.hkcTrigger ch t) s = .next (s.withW (if w.fb F.HKC_STAT_BUSY 0 then w.incSat F.HKC_ERR_TRIGLOST 0 else w.hkcStart)) := by
  refine show execHkcTrigger s ch t = _ from onW_next ?_
  rw [← hw]
  refine if_neg ?_
  rw [hon, hen, hmode]
  simp [hch]
end

/-! ### The end of an entry (R68, R71) -/

/-- The registers that a result can write through the rails that use it. -/
abbrev railIds : List Nat := F.LE_ERR_VIN.id :: raiseIds

/-- The registers of the step to the next entry. -/
abbrev nextIds : List Nat := [F.HKC_STAT_BUSY.id, F.HKC_STAT_PASSES.id, F.HKC_CTL_SWAP.id, F.HKC_STAT_ENTRY.id]

section
variable {a b : World} (hk : Keeps railIds a b) (hs : sensed a b)
include hk hs

theorem dffFrom_frame (r v : Nat) : Keeps railIds a (b.dffFrom r v) ∧ sensed a (b.dffFrom r v) := by
  unfold World.dffFrom
  dsimp only
  split
  · exact ⟨hk.sf (by decide), hs.sf⟩
  · split
    · exact ⟨hk.regs rfl, hs.of rfl rfl⟩
    · exact ⟨hk.setEngine, hs.setEngine⟩

/-- A limit of a rail over its result raises a source, and one that holds ends its conditions (R177, R181). -/
theorem limit_frame (r src : Nat) (hit : Bool) :
    Keeps railIds a (if hit then b.raise r src none else (b.bound r).foldl (fun w p => w.endAuto p src) b)
    ∧ sensed a (if hit then b.raise r src none else (b.bound r).foldl (fun w p => w.endAuto p src) b) := by
  refine ⟨Keeps.ite ?_ ?_, sensed.ite ?_ ?_⟩
  · exact hk.trans ((keeps_raise (Keeps.refl _ b)).mono (List.subset_cons_self _ _))
  · exact Keeps.foldl _ hk fun _ _ hu => hu.setPhase
  · exact hs.raise
  · exact sensed.foldl _ hs fun _ _ hu => hu.setPhase

theorem hkcRail_frame (e v r : Nat) : Keeps railIds a (b.hkcRail e v r) ∧ sensed a (b.hkcRail e v r) := by
  unfold World.hkcRail
  extract_lets x test
  have hx : Keeps railIds a x ∧ sensed a x := by
    unfold x World.when
    split
    · exact dffFrom_frame hk hs r v
    · exact ⟨hk, hs⟩
  split
  · obtain ⟨hk1, hs1⟩ := limit_frame hx.1 hx.2 r 10 (decide (x.f F.PROT_HKVAL_HI r < v))
    exact limit_frame hk1 hs1 r 11 _
  · exact hx
end

theorem hkcRails_frame (w : World) (e v : Nat) (l : List Nat) :
    Keeps railIds w (l.foldl (fun w r => w.hkcRail e v r) w) ∧ sensed w (l.foldl (fun w r => w.hkcRail e v r) w) :=
  List.foldlRecOn (motive := fun u => Keeps railIds w u ∧ sensed w u) l _ ⟨Keeps.refl _ w, sensed.refl w⟩
    fun _ hu r _ => hkcRail_frame hu.1 hu.2 e v r

theorem hkcNext_keeps (w : World) (e : Nat) : Keeps nextIds w (w.hkcNext e) := by
  unfold World.hkcNext
  refine Keeps.ite ?_ ((Keeps.refl _ w).sf (by decide)).start
  exact (((Keeps.refl _ w).sf (by decide)).inc (by decide)).when fun u hu => (hu.sf (by decide)).regs (hkcAdopt_regs _ _)

theorem hkcNext_entry {w : World} {e : Nat} (hlast : w.lf F.HKC_SEQ_LAST e ≠ 1) (he : e < 63) : (w.hkcNext e).f F.HKC_STAT_ENTRY 0 = e + 1 := by
  have hmod : (e + 1) % 2 ^ F.HKC_STAT_ENTRY.wd = e + 1 := Nat.mod_eq_of_lt (show e + 1 < 64 by omega)
  unfold World.hkcNext
  rw [if_neg (not_or.mpr ⟨hlast, by omega⟩), f_start, f_sf_same, hmod]

/-- The end of a pass (R68, R70). -/
theorem hkcNext_last {w : World} {e : Nat} (hlast : w.lf F.HKC_SEQ_LAST e = 1 ∨ e = 63) :
    (w.hkcNext e).f F.HKC_STAT_BUSY 0 = 0 ∧ (w.hkcNext e).f F.HKC_STAT_PASSES 0 = (w.f F.HKC_STAT_PASSES 0 + 1) % 2 ^ F.HKC_STAT_PASSES.wd
    ∧ (w.fb F.HKC_CTL_SWAP 0 = true → (w.hkcNext e).f F.HKC_CTL_SWAP 0 = 0 ∧ ∀ G ∈ seqFields, ∀ k < 64, (w.hkcNext e).lf G k = w.f G k % 2 ^ G.wd) := by
  obtain ⟨x, hx⟩ : ∃ x : World, x = (w.sf F.HKC_STAT_BUSY 0 0).inc F.HKC_STAT_PASSES 0 := ⟨_, rfl⟩
  have hnext : w.hkcNext e = x.when (x.fb F.HKC_CTL_SWAP 0) World.hkcAdopt := by
    rw [hx]
    exact if_pos hlast
  have hkx : Keeps [F.HKC_STAT_BUSY.id, F.HKC_STAT_PASSES.id] w x := hx ▸ ((Keeps.refl _ w).sf (by decide)).inc (by decide)
  have hadopt : ∀ u : World, Keeps [F.HKC_CTL_SWAP.id] u u.hkcAdopt := fun u => ((Keeps.refl _ u).sf (by decide)).regs (hkcAdopt_regs _ _)
  have hkn : Keeps [F.HKC_CTL_SWAP.id] x (w.hkcNext e) := hnext ▸ (Keeps.refl _ x).when fun u hu => hu.trans (hadopt u)
  refine ⟨?_, ?_, fun hswap => ?_⟩
  · rw [hkn.f (by decide), hx]
    exact f_sf_sf (G := F.HKC_STAT_BUSY) (F := F.HKC_STAT_PASSES) w 0 0 0 _ (by decide)
  · rw [hkn.f (by decide), hx]
    refine (f_sf_same _ F.HKC_STAT_PASSES 0 _).trans ?_
    rw [f_sf_ne w _ _ _ (by decide)]
  · have hs : x.fb F.HKC_CTL_SWAP 0 = true := by
      rw [← hswap]
      unfold World.fb
      rw [hkx.f (by decide)]
    have hn : w.hkcNext e = x.hkcAdopt := hnext.trans (if_pos hs)
    rw [hn]
    refine ⟨?_, fun G hG k hlt => ?_⟩
    · exact (((Keeps.refl [] _).regs (hkcAdopt_regs _ _)).f (by decide) 0).trans (f_sf_same x F.HKC_CTL_SWAP 0 0)
    · have hid : G.id < 4096 ∧ G.id ∉ [F.HKC_STAT_BUSY.id, F.HKC_STAT_PASSES.id, F.HKC_CTL_SWAP.id] :=
        (show ∀ G ∈ seqFields, G.id < 4096 ∧ G.id ∉ [F.HKC_STAT_BUSY.id, F.HKC_STAT_PASSES.id, F.HKC_CTL_SWAP.id] by decide) G hG
      have hks : Keeps [F.HKC_STAT_BUSY.id, F.HKC_STAT_PASSES.id, F.HKC_CTL_SWAP.id] w (x.sf F.HKC_CTL_SWAP 0 0) :=
        (hkx.mono (by decide)).sf (by decide)
      refine (hkcAdopt_lf G hG k (List.range 64) _ (.inl (List.mem_range.mpr hlt))).trans ?_
      rw [hks.f hid]

theorem hkcEntryDone_next {s : State} {e : Nat} {codes : List Nat} (hon : s.w.on 17 = true) (hbusy : s.w.fb F.HKC_STAT_BUSY 0 = true) (hent : s.w.f F.HKC_STAT_ENTRY 0 = e)
    (hlen : codes.length = s.w.lf F.HKC_SEQ_REPEAT e + 1) (hpast : s.w.past .hkcEntry (s.w.hkcTime e) = true) :
    exec (.hkcEntryDone e codes) s = .next (s.withW (s.w.hkcEntry e codes)) :=
  show execHkcEntryDone e codes s = _ from onW_next (if_pos ⟨hon, hbusy, hent, hlen, hpast⟩)

/-- A refused sub-channel gives zero codes and shows BADSEL, which the codes do not depend on (R67). -/
theorem hkcCodes_badsel (w : World) (e : Nat) (codes : List Nat) :
    (w.when (!w.subselOk e) fun w => w.sf F.HKC_ERR_BADSEL 0 1).hkcCodes e codes = w.hkcCodes e codes := by
  cases h : w.subselOk e
  · have hbad : (w.sf F.HKC_ERR_BADSEL 0 1).subselOk e = false := h
    refine (if_pos ?_).trans (if_pos ?_).symm
    · exact (congrArg not hbad :)
    · exact (congrArg not h :)
  · rfl

theorem hkcEntry_spec {w : World} {e : Nat} {codes l : List Nat} (hl : l = w.hkcCodes e codes) :
    (w.hkcEntry e codes).f F.HKC_RES_VALUE e = (rdiv (l.sum : Nat) l.length).toNat % 2 ^ 16 ∧ (w.hkcEntry e codes).f F.HKC_RES_NEW e = 1
    ∧ (w.hkcEntry e codes).f F.HKC_DIRECT_VALUE 0 = l.getLastD 0 % 2 ^ 16
    ∧ (w.lf F.HKC_SEQ_LAST e ≠ 1 → e < 63 → (w.hkcEntry e codes).f F.HKC_STAT_ENTRY 0 = e + 1) := by
  unfold World.hkcEntry
  extract_lets a c v b p d q z k u
  have hc : c = l := (hkcCodes_badsel w e codes).trans hl.symm
  have hsb : sensed w b := ((sensed.refl w).when fun _ hu => hu.sf).when (fun _ hu => hu.sf) |>.sf.sf
  have hkp : Keeps [F.HKC_RES_PASS.id] b p := (Keeps.refl _ b).sf (by decide)
  have hkq : Keeps [] d q := (Keeps.refl _ d).when fun u hu => hu.trans (((Keeps.refl [] u).regs rfl).trans (keeps_irq _ _ _))
  have hsq : sensed w q := hsb.sf.sf.sf.when fun _ hu => hu.pulse.irq
  have hkk : Keeps [] d k := Keeps.foldl _ hkq fun _ _ hu => hu.start
  have hsk : sensed w k := sensed.foldl _ hsq fun _ _ hu => hu.start
  obtain ⟨hku, hsu⟩ := hkcRails_frame k e z (List.range k.nRails)
  have hend : Keeps (railIds ++ nextIds) d (u.hkcNext e) := by
    refine ((hkk.mono (List.nil_subset _)).trans (hku.mono ?_)).trans ((hkcNext_keeps u e).mono ?_)
    · exact List.subset_append_left _ _
    · exact List.subset_append_right _ _
  have hkd : Keeps [F.HKC_RES_PASS.id, F.HKC_DIRECT_VALUE.id, F.HKC_DIRECT_INPUT.id] b d :=
    ((hkp.mono (by decide)).sf (by decide)).sf (by decide)
  refine ⟨?_, ?_, ?_, fun hlast he => ?_⟩
  · rw [hend.f (by decide), hkd.f (by decide), ← hc]
    exact f_sf_same _ F.HKC_RES_VALUE e v
  · rw [hend.f (by decide), hkd.f (by decide)]
    exact f_sf_sf (G := F.HKC_RES_NEW) (F := F.HKC_RES_VALUE) _ e 1 e v (by decide)
  · rw [hend.f (by decide), ← hc]
    exact f_sf_sf (G := F.HKC_DIRECT_VALUE) (F := F.HKC_DIRECT_INPUT) p 0 _ 0 _ (by decide)
  · refine hkcNext_entry (w := u) ?_ he
    rw [congrFun (hsk.trans hsu).2 e]
    exact hlast

/-- Settles O10, clause by clause: each command is its world's step, and each step's registers are read through what the later writes keep. -/
theorem channelsAndHousekeepingTakeEffect : Obligations.ChannelsAndHousekeepingTakeEffect := by
  unfold Obligations.ChannelsAndHousekeepingTakeEffect
  refine ⟨?pccSwres, ?autozero, ?swap, ?pass, ?entryDone, fun w e => hkcNext_last⟩
  case pccSwres =>
    intro s isl p codes l u w hon h17 hp hlt hpast hu hne hw hen
    exact pccSwresPeriod_next hon h17 hp hlt hpast (currentResult_mean hne (hu ▸ hw) hen)
  case autozero =>
    intro s p t m w hw hm
    refine ⟨fun hen haz ht hnew => ?_, fun codes avg haz hlen ht havg => ?_⟩
    · refine show execPccAutozeroStart p s t = _ from onW_next ?_
      rw [← hw]
      exact azStart_begins hm hen haz ht hnew
    · have hdone : ∀ v, (w.azDone p codes = v) → exec (.pccAutozeroDone p codes t) s = .next (s.withW v) := by
        intro v hv
        refine show execPccAutozeroDone p codes s t = _ from onW_next ?_
        rw [← hw]
        exact hv
      refine ⟨fun hle => hdone _ ?_, fun hgt => hdone _ ?_⟩
      · rw [azDone_takes hm haz hlen ht havg, if_neg (Nat.not_lt.mpr hle)]
      · rw [azDone_takes hm haz hlen ht havg, if_pos hgt]
  case swap =>
    intro s hon
    refine ⟨fun hbusy => hkcSwap_next hon ?_, fun hbusy => hkcSwap_next hon ?_⟩
    · rw [hbusy, if_pos rfl]
    · rw [hbusy, if_neg Bool.false_ne_true]
  case pass =>
    intro s t ch w hw hon hen
    refine ⟨fun hmode hbusy hdue => ?_, fun hmode hch hbusy => ?_, fun hmode hch hbusy => ?_⟩
    · exact ⟨w.hkcStart, hkcPassStart_next hw hon hen hmode hbusy hdue, hkcStart_spec w⟩
    · refine ⟨w.hkcStart, ?_, hkcStart_spec w⟩
      rw [hkcTrigger_next hw hon hen hmode hch, hbusy, if_neg Bool.false_ne_true]
    · rw [hkcTrigger_next hw hon hen hmode hch, hbusy, if_pos rfl]
  case entryDone =>
    intro s e codes l hon hbusy hent hlen hpast hl
    exact ⟨_, hkcEntryDone_next hon hbusy hent hlen hpast, hkcEntry_spec hl⟩

end Sys2Proof.Machine
